-- ==== Sys2Proof/Word.lean ====
section
/-! DEFINITION. The word types of the machine and their plainest views. -/

namespace Sys2Proof

/-- A 32-bit register value (spec 01, R14). -/
abbrev Word := BitVec 32

/-- A 64-bit pair value, pointer or system register (spec 01, R16). -/
abbrev Dword := BitVec 64

/-- The smallest addressable unit. -/
abbrev Byte := BitVec 8

/-- The signed or the unsigned value of a bit vector, as the UNS bit selects (spec 05, R103). -/
def viewInt {w : Nat} (uns : Bool) (x : BitVec w) : Int :=
  if uns then (x.toNat : Int) else x.toInt

end Sys2Proof
end

