-- ==== Sys2Proof/Config.lean ====
section
/-! DEFINITION. What an implementation fixes, and the free values: constants with no body, so that no
proof can see what they are. Each is named by a row of the assumption log. -/

namespace Sys2Proof.Config

/-- A free word: the first argument is the step's counter, the second the place that takes the value. -/
opaque freeWord : Nat → Nat → BitVec 32

/-- A free byte, in the same form. -/
opaque freeByte : Nat → Nat → BitVec 8

/-- A free 64-bit value, in the same form. -/
opaque freeDword : Nat → Nat → BitVec 64

/-- A free choice between two outcomes that the spec leaves open, in the same form. -/
opaque freeBool : Nat → Nat → Bool

/-- The correctly rounded 2^A (false) or log2 A (true) where the bounds of the model's interval arithmetic
do not separate the two candidates; the last argument is the rounding mode. -/
opaque transcendental : Bool → BitVec 32 → BitVec 2 → BitVec 32

end Sys2Proof.Config
end

