-- ==== Sys2Proof/Syntax.lean ====
section
/-! DEFINITION. The instructions and steps of the machine: one inductive, one constructor per row of
spec/opcode_table.json. -/

namespace Sys2Proof

/-- The three lengths of an instruction (spec 02, R40). -/
inductive Len where
  | w64 | w96 | w128
  deriving DecidableEq, Repr

/-- The fields of a base word and of what follows it (spec 02, R46, R49). Fields sit at fixed positions whatever
the instruction; a field that the length does not hold is zero. `mod` is MOD[9:1] (bit k of `mod` is MOD[k+1]),
`imm` is IMM32, IMM64 or IMMX, zero-extended. -/
structure Fields where
  len : Len
  land : Bool
  mod : BitVec 9
  gs : BitVec 3
  wa : Bool
  wb : Bool
  wc : Bool
  d : BitVec 8
  a : BitVec 8
  b : BitVec 8
  c : BitVec 8
  e : BitVec 8
  h : BitVec 8
  we : Bool
  wh : Bool
  rsv : Bool
  xmod : BitVec 13
  imm : BitVec 64
  deriving DecidableEq, Repr

/-- The messages of a conserved transfer (spec 15, R341). -/
inductive FKind where
  | debit | go | giveBack | offer | accept | ovf | refuse | busy | credit | done | ack | cancel | status
  deriving DecidableEq, Repr

/-- One lane of a transfer: the lane, the amount, the origin cell and the destination cell, each with its address on its
own device and, on this device, its memory key and interleave scheme; the destination's device, and whether it is named
through a peer window; `dva` is the virtual address that named it, `did` the domain of both cells, and `gup` the give-up time in cycles that
the domain had at the transfer's issue. -/
structure FLane where
  lane : Nat
  amt : Int
  oaddr : Nat
  okey : Nat
  oil : Nat
  daddr : Nat
  dkey : Nat
  dil : Nat
  ddev : Nat
  fabric : Bool
  dva : Nat
  did : Nat := 0
  gup : Nat := 0
  deriving DecidableEq, Repr

/-- A transfer message (spec 15, R341). `dev` and `home` name the receiver; `odev` and `mseq` name a mortar record. -/
structure FMsg where
  kind : FKind
  dev : Nat
  home : Nat
  xid : Nat
  lanes : List FLane
  odev : Nat
  mseq : Nat
  did : Nat
  addr : Nat
  amt : Int
  lane : Nat
  lmask : BitVec 32
  reason : Nat
  dctx : Nat
  q64 : Bool
  deriving DecidableEq, Repr

/-- What a fabric packet asks for or answers (spec 21, R422). The request's operation code is not given by the spec
as bits; the body carries what it says. -/
inductive PBody where
  | write (addr : Nat) (bytes : List (Nat × BitVec 8))
  | read (addr count : Nat)
  | atomic (addr : Nat) (wide cas : Bool) (op : Nat) (operand compare : BitVec 64)
  | field (m : FMsg)
  | ecinc (counter : Nat) (amount : BitVec 32)
  | resp (data : List (BitVec 8))
  | complete
  | other
  deriving DecidableEq, Repr

/-- The header fields of a packet that a receiver or sender acts on, and its body (spec 21, R422). `tagOk` says
whether the packet's AES-GCM tag verifies, `asks` whether the operation code of a WRITE makes it part of a message that a
COMPLETE answers (R431). -/
structure Packet where
  typ : Nat
  cls : Nat
  kg : Bool
  src : Nat
  dst : Nat
  mcast : Bool
  hop : Nat
  dctx : Nat
  ctxno : Nat
  pseq : Nat
  msg : Nat
  offset : Nat
  msgLen : Nat
  plane : Nat
  tagOk : Bool
  asks : Bool
  body : PBody
  deriving DecidableEq, Repr

/-- What a start finds outside the machine: which of steps 2 to 4 and 7 of spec 25, R460 fails (0 for none), the faults of the built-in tests of
step 6, each with its unit and whether it is lasting, the ports whose link does not train, the signed configuration record (R458; `gaps` says
that the bytes between its fields are zero) and the marks that firmware keeps in flash (R459). -/
structure StartInfo where
  failStep : Nat
  tests : List (Nat × Bool)
  deadLinks : List Nat
  magic : BitVec 32
  enmap : List (BitVec 64)
  clktab : List (BitVec 8)
  certLen : Nat
  cert : List (BitVec 8)
  sigLen : Nat
  sig : List (BitVec 8)
  gaps : Bool
  version : BitVec 32
  serial : BitVec 64
  idpub : BitVec 256
  lvl : Nat
  dec : Nat
  erase : List (Nat × BitVec 36)
  marks : List (Nat × BitVec 36)
  deriving DecidableEq, Repr

/-- One constructor per row of spec/opcode_table.json: the 233 cells of the opcode map (spec 03), each with its
fields, and the 109 steps of homes, engines, distributor, fabric, firmware, host and debugger, each with what
names the thing it happens to. -/
inductive Instr where
  /-- NOP (R44). No operation; changes no state except the program counter. -/
  | nop (f : Fields)
  /-- EXIT (R122). Every lane set in EXM leaves the group; the group retires when LIVEM becomes zero. -/
  | exit (f : Fields)
  /-- EXITM (R122). Every lane set in both EXM and A leaves the group. -/
  | exitm (f : Fields)
  /-- BR (R113). Unconditional branch to PC plus IMM32. -/
  | br (f : Fields)
  /-- BZ (R113). Branch when the scalar A is zero. -/
  | bz (f : Fields)
  /-- BNZ (R113). Branch when the scalar A is nonzero. -/
  | bnz (f : Fields)
  /-- BMZ (R113). Branch when A AND LIVEM is zero. -/
  | bmz (f : Fields)
  /-- BMNZ (R113). Branch when A AND LIVEM is nonzero. -/
  | bmnz (f : Fields)
  /-- BVANY (R113). Branch when some lane set in EXM has A nonzero. -/
  | bvany (f : Fields)
  /-- BVALL (R113). Branch when every lane set in EXM has A nonzero. -/
  | bvall (f : Fields)
  /-- BDIV (R114). Splits EXM by a vector condition and pushes DIV restore and path entries. -/
  | bdiv (f : Fields)
  /-- BDIVW (R114). Splits EXM like bdiv and pushes DIVW entries for a bounded join. -/
  | bdivw (f : Fields)
  /-- BDIVS (R114). Splits EXM by a scalar mask and pushes DIV entries. -/
  | bdivs (f : Fields)
  /-- JOIN (R115). Pops a DIV, DIVW or IND entry and restores its mask and PC. -/
  | join (f : Fields)
  /-- JOINW (R116). Bounded join: on first arrival it installs a waiting entry with a timeout; on second arrival it completes. -/
  | joinw (f : Fields)
  /-- JMP (R119). Jumps to the address held in the scalar pair A. -/
  | jmp (f : Fields)
  /-- JMPI (R121). Per-lane indirect jump that checks landing points and pushes IND entries for each distinct target. -/
  | jmpi (f : Fields)
  /-- CALL (R119). Pushes a CALL entry and branches PC-relative. -/
  | call (f : Fields)
  /-- CALLI (R119). Pushes a CALL entry and jumps to the address held in pair A. -/
  | calli (f : Fields)
  /-- RET (R119). Pops a CALL entry and restores its mask and PC. -/
  | ret (f : Fields)
  /-- SADD (R104). Scalar 32-bit add modulo 2^32. -/
  | sadd (f : Fields)
  /-- SSUB (R104). Scalar 32-bit subtract. -/
  | ssub (f : Fields)
  /-- SMUL (R104). Low 32 bits of a scalar product. -/
  | smul (f : Fields)
  /-- SMULH (R104). High 32 bits of the exact scalar product. -/
  | smulh (f : Fields)
  /-- SAND (R104). Scalar bitwise AND. -/
  | sand (f : Fields)
  /-- SOR (R104). Scalar bitwise OR. -/
  | sor (f : Fields)
  /-- SXOR (R104). Scalar bitwise XOR. -/
  | sxor (f : Fields)
  /-- SSHL (R104). Scalar shift left. -/
  | sshl (f : Fields)
  /-- SSHR (R104). Scalar logical or arithmetic shift right. -/
  | sshr (f : Fields)
  /-- SMIN (R104). Scalar minimum in the signed or unsigned view. -/
  | smin (f : Fields)
  /-- SMAX (R104). Scalar maximum in the signed or unsigned view. -/
  | smax (f : Fields)
  /-- SDIV (R104). Scalar division truncated toward zero, with defined results for division by zero and overflow. -/
  | sdiv (f : Fields)
  /-- SREM (R104). Scalar remainder. -/
  | srem (f : Fields)
  /-- SMOV (R105). Scalar move. -/
  | smov (f : Fields)
  /-- SNOT (R105). Scalar bitwise NOT. -/
  | snot (f : Fields)
  /-- SCLZ (R105). Count of leading zero bits. -/
  | sclz (f : Fields)
  /-- SPOPC (R105). Count of set bits. -/
  | spopc (f : Fields)
  /-- SBREV (R105). Reverses the bit order. -/
  | sbrev (f : Fields)
  /-- SEXT (R105). Sign or zero extension from 8 or 16 bits. -/
  | sext (f : Fields)
  /-- SCMP (R106). Writes 1 when the selected comparison holds, and 0 otherwise. -/
  | scmp (f : Fields)
  /-- SSEL (R106). Writes B when A is nonzero, and C otherwise. -/
  | ssel (f : Fields)
  /-- SADD64 (R107). 64-bit add on scalar pairs. -/
  | sadd64 (f : Fields)
  /-- SSUB64 (R107). 64-bit subtract on scalar pairs. -/
  | ssub64 (f : Fields)
  /-- SMUL64 (R107). Low 64 bits of a 64-bit product. -/
  | smul64 (f : Fields)
  /-- SSHL64 (R107). 64-bit shift left. -/
  | sshl64 (f : Fields)
  /-- SSHR64 (R107). 64-bit shift right. -/
  | sshr64 (f : Fields)
  /-- SMOV64 (R108). Copies a scalar pair, or a 64-bit immediate in the 128-bit length. -/
  | smov64 (f : Fields)
  /-- SBFE (R109). Extracts a bit field. -/
  | sbfe (f : Fields)
  /-- SBFI (R109). Inserts a bit field into D. -/
  | sbfi (f : Fields)
  /-- SLEA (R110). Computes A plus a scaled index plus a displacement into a pair. -/
  | slea (f : Fields)
  /-- VADD (R128). Per-element integer add. -/
  | vadd (f : Fields)
  /-- VSUB (R128). Per-element integer subtract. -/
  | vsub (f : Fields)
  /-- VMUL (R128). Low bits of a per-element integer product. -/
  | vmul (f : Fields)
  /-- VMULH (R128). High bits of a per-element integer product. -/
  | vmulh (f : Fields)
  /-- VAND (R128). Vector bitwise AND. -/
  | vand (f : Fields)
  /-- VOR (R128). Vector bitwise OR. -/
  | vor (f : Fields)
  /-- VXOR (R128). Vector bitwise XOR. -/
  | vxor (f : Fields)
  /-- VSHL (R128). Per-element shift left. -/
  | vshl (f : Fields)
  /-- VSHR (R128). Per-element shift right. -/
  | vshr (f : Fields)
  /-- VMIN (R128). Per-element integer minimum. -/
  | vmin (f : Fields)
  /-- VMAX (R128). Per-element integer maximum. -/
  | vmax (f : Fields)
  /-- VABSD (R128). Per-element absolute difference. -/
  | vabsd (f : Fields)
  /-- VADDS (R128). Per-element saturating add. -/
  | vadds (f : Fields)
  /-- VSUBS (R128). Per-element saturating subtract. -/
  | vsubs (f : Fields)
  /-- VMAD (R128). A times B plus C, modulo 2^32. -/
  | vmad (f : Fields)
  /-- VSEL (R128). Per-lane select of B or C by A. -/
  | vsel (f : Fields)
  /-- VBFE (R128). Per-lane bit-field extract. -/
  | vbfe (f : Fields)
  /-- VBFI (R128). Per-lane bit-field insert. -/
  | vbfi (f : Fields)
  /-- VMOV (R128). Vector move. -/
  | vmov (f : Fields)
  /-- VNOT (R128). Vector bitwise NOT. -/
  | vnot (f : Fields)
  /-- VNEG (R128). Per-element wrapping negation. -/
  | vneg (f : Fields)
  /-- VABS (R128). Per-element wrapping absolute value. -/
  | vabs (f : Fields)
  /-- VCLZ (R128). Per-lane count of leading zero bits. -/
  | vclz (f : Fields)
  /-- VPOPC (R128). Per-lane count of set bits. -/
  | vpopc (f : Fields)
  /-- VBREV (R128). Per-lane bit reversal. -/
  | vbrev (f : Fields)
  /-- VEXT (R128). Per-lane sign or zero extension. -/
  | vext (f : Fields)
  /-- VCMP (R129). Per-element integer comparison writing 1 or 0. -/
  | vcmp (f : Fields)
  /-- VCMPM (R129). Integer comparison writing a scalar lane mask. -/
  | vcmpm (f : Fields)
  /-- VADD64 (R130). 64-bit add on vector pairs. -/
  | vadd64 (f : Fields)
  /-- VMULW (R130). Exact 64-bit product of 32-bit lanes. -/
  | vmulw (f : Fields)
  /-- VADD_F32 (R131). FP32 add rounded once. -/
  | vaddF32 (f : Fields)
  /-- VSUB_F32 (R131). FP32 subtract. -/
  | vsubF32 (f : Fields)
  /-- VMUL_F32 (R131). FP32 multiply. -/
  | vmulF32 (f : Fields)
  /-- VMIN_F32 (R133). FP32 minimum with the NaN and signed-zero rules. -/
  | vminF32 (f : Fields)
  /-- VMAX_F32 (R133). FP32 maximum. -/
  | vmaxF32 (f : Fields)
  /-- VDIV (R131). FP32 division. -/
  | vdiv (f : Fields)
  /-- VFMA (R131). Fused A times B plus C, rounded once. -/
  | vfma (f : Fields)
  /-- VFMS (R131). Fused A times B minus C, rounded once. -/
  | vfms (f : Fields)
  /-- VABS_F32 (R131). Clears the sign bit. -/
  | vabsF32 (f : Fields)
  /-- VNEG_F32 (R131). Flips the sign bit. -/
  | vnegF32 (f : Fields)
  /-- VSQRT (R131). Correctly rounded square root. -/
  | vsqrt (f : Fields)
  /-- VRCP (R131). Correctly rounded reciprocal. -/
  | vrcp (f : Fields)
  /-- VRSQ (R131). Correctly rounded reciprocal square root. -/
  | vrsq (f : Fields)
  /-- VEXP2 (R131). Correctly rounded 2 to the power A. -/
  | vexp2 (f : Fields)
  /-- VLOG2 (R131). Correctly rounded base-2 logarithm. -/
  | vlog2 (f : Fields)
  /-- VRND (R131). Rounds to an integral value. -/
  | vrnd (f : Fields)
  /-- VCLASS (R135). Writes the class mask of an FP32 value. -/
  | vclass (f : Fields)
  /-- VCMP_F32 (R134). FP32 comparison writing 1 or 0. -/
  | vcmpF32 (f : Fields)
  /-- VCMPM_F32 (R134). FP32 comparison writing a scalar lane mask. -/
  | vcmpmF32 (f : Fields)
  /-- VADD2 (R136). Add on two 16-bit floats per lane. -/
  | vadd2 (f : Fields)
  /-- VMUL2 (R136). Multiply on two 16-bit floats per lane. -/
  | vmul2 (f : Fields)
  /-- VFMA2 (R136). Fused multiply-add on two 16-bit floats per lane. -/
  | vfma2 (f : Fields)
  /-- VCVT (R137). Float-to-float conversion. -/
  | vcvt (f : Fields)
  /-- VCVTI (R137). Float-to-integer conversion. -/
  | vcvti (f : Fields)
  /-- VCVTF (R137). Integer-to-float conversion. -/
  | vcvtf (f : Fields)
  /-- VCVTQ (R138). FP32 to Q32.F conversion. -/
  | vcvtq (f : Fields)
  /-- VCVTQF (R138). Q32.F to FP32 conversion. -/
  | vcvtqf (f : Fields)
  /-- VCVTN (R139). Converts two FP32 values into a narrow-float slot of D. -/
  | vcvtn (f : Fields)
  /-- VDOT8 (R214). C plus the dot product of four 8-bit elements. -/
  | vdot8 (f : Fields)
  /-- VDOT4 (R214). C plus the dot product of eight 4-bit elements. -/
  | vdot4 (f : Fields)
  /-- VSCALE (R215). Multiplies by one or two E8M0 scales. -/
  | vscale (f : Fields)
  /-- VQNT (R217). Quantises FP32 into a narrow slot, by RNE or stochastic rounding. -/
  | vqnt (f : Fields)
  /-- VDEQ (R218). Dequantises a narrow element with a scale. -/
  | vdeq (f : Fields)
  /-- VHAD (R220). Seeded 128-point Hadamard transform across four registers. -/
  | vhad (f : Fields)
  /-- VPK8 (R219). Packs 16-bit elements into saturated bytes. -/
  | vpk8 (f : Fields)
  /-- VUPK8 (R219). Unpacks bytes into 16-bit elements. -/
  | vupk8 (f : Fields)
  /-- VPK4 (R219). Packs bytes into saturated nibbles. -/
  | vpk4 (f : Fields)
  /-- VUPK4 (R219). Unpacks nibbles into bytes. -/
  | vupk4 (f : Fields)
  /-- VAMAX (R216). Broadcasts the largest magnitude over the active lanes. -/
  | vamax (f : Fields)
  /-- VSC8 (R216). Computes an E8M0 scale byte from a magnitude. -/
  | vsc8 (f : Fields)
  /-- VSHFL (R140). Indexed lane shuffle within segments. -/
  | vshfl (f : Fields)
  /-- VSHUP (R140). Lane shift up within segments. -/
  | vshup (f : Fields)
  /-- VSHDN (R140). Lane shift down within segments. -/
  | vshdn (f : Fields)
  /-- VSHXOR (R140). XOR lane exchange within segments. -/
  | vshxor (f : Fields)
  /-- VBCAST (R140). Broadcasts one lane within each segment. -/
  | vbcast (f : Fields)
  /-- VBALLOT (R141). Writes a scalar mask of the active lanes whose A is nonzero. -/
  | vballot (f : Fields)
  /-- VPOPM (R141). Prefix population count of a mask. -/
  | vpopm (f : Fields)
  /-- VPREFIX (R143). Tree-ordered prefix add, min or max over the active lanes. -/
  | vprefix (f : Fields)
  /-- VREDUCE (R143). Tree-ordered reduction to a scalar. -/
  | vreduce (f : Fields)
  /-- QXCH (R144). Exchange within quads. -/
  | qxch (f : Fields)
  /-- VLD (R149). Per-lane load; the destination is empty until it lands. -/
  | vld (f : Fields)
  /-- VLDRB (R155). Load through the non-coherent far-memory read buffer. -/
  | vldrb (f : Fields)
  /-- SLD (R149). Scalar load, made once per group. -/
  | sld (f : Fields)
  /-- VLDBC (R149). One load broadcast to every lane. -/
  | vldbc (f : Fields)
  /-- VLDSCR (R148). Per-lane load by scratchpad offset. -/
  | vldscr (f : Fields)
  /-- VLDCW (R148). Per-lane load through the cluster window. -/
  | vldcw (f : Fields)
  /-- VST (R149). Per-lane store. -/
  | vst (f : Fields)
  /-- SST (R149). Scalar store, made once per group. -/
  | sst (f : Fields)
  /-- VSTSCR (R148). Per-lane store by scratchpad offset. -/
  | vstscr (f : Fields)
  /-- VSTCW (R148). Per-lane store through the cluster window. -/
  | vstcw (f : Fields)
  /-- VSTMC (R245). Multicast store to every member of a multicast group. -/
  | vstmc (f : Fields)
  /-- WCFL (R244). Starts the drain of write-combining lines for a peer, or for all peers. -/
  | wcfl (f : Fields)
  /-- RBINV (R155). Invalidates the far-memory read buffer. -/
  | rbinv (f : Fields)
  /-- VPREF (R155). Prefetches sectors into the memory-side cache and the read buffer. -/
  | vpref (f : Fields)
  /-- VLDP (R148). Per-lane load from private memory. -/
  | vldp (f : Fields)
  /-- VSTP (R148). Per-lane store to private memory. -/
  | vstp (f : Fields)
  /-- VATOM (R161). Per-lane 32-bit returning atomic performed at the home. -/
  | vatom (f : Fields)
  /-- VCAS (R161). Per-lane 32-bit compare-and-swap. -/
  | vcas (f : Fields)
  /-- SATOM (R161). Scalar returning atomic, made once per group. -/
  | satom (f : Fields)
  /-- SCAS (R161). Scalar compare-and-swap. -/
  | scas (f : Fields)
  /-- VRED (R161). Per-lane atomic that returns nothing. -/
  | vred (f : Fields)
  /-- VATOM64 (R161). Per-lane 64-bit returning atomic. -/
  | vatom64 (f : Fields)
  /-- VCAS64 (R161). Per-lane 64-bit compare-and-swap. -/
  | vcas64 (f : Fields)
  /-- WWAIT (R164). Waits at the home until a masked comparison on a word holds. -/
  | wwait (f : Fields)
  /-- WWAITT (R164). Wait on an address with a cycle timeout. -/
  | wwaitt (f : Fields)
  /-- WWAKE (R166). Answers every wait entry on the named words. -/
  | wwake (f : Fields)
  /-- FADDT (R166). Atomic add that answers waiters when a threshold is crossed. -/
  | faddt (f : Fields)
  /-- SLEEP (R167). Issues nothing until A cycles pass or a wait is answered. -/
  | sleep (f : Fields)
  /-- WCANCEL (R166). Answers the group's own wait entries on a word. -/
  | wcancel (f : Fields)
  /-- FENCE (R159). Release and acquire at a scope. -/
  | fence (f : Fields)
  /-- FENCEH (R159). Fence at .sys that waits for every home acknowledgement. -/
  | fenceh (f : Fields)
  /-- FENCEP (R159). Drains one peer's lines and waits for its acknowledgement. -/
  | fencep (f : Fields)
  /-- XFER (R177). Conserved transfer of exact amounts from origin cells to destination cells. -/
  | xfer (f : Fields)
  /-- VLDF (R184). Per-lane read of field cells. -/
  | vldf (f : Fields)
  /-- SLDF (R184). Scalar read of a field cell. -/
  | sldf (f : Fields)
  /-- FTOT (R185). Reads a domain figure, through a snapshot for s, k and i. -/
  | ftot (f : Fields)
  /-- FDECL (R187). Declares a field domain on the issuing device and reports to the anchor. -/
  | fdecl (f : Fields)
  /-- FDROP (R190). Ends a domain on every member once nothing is in flight. -/
  | fdrop (f : Fields)
  /-- FATTR (R188). Changes a cell's kind. -/
  | fattr (f : Fields)
  /-- FGUP (R189). Sets the domain's give-up time. -/
  | fgup (f : Fields)
  /-- MMA (R202). Gang matrix multiply-accumulate into accumulator blocks. -/
  | mma (f : Fields)
  /-- MMAC (R205). Cluster 256 by 384 tile across four blocks. -/
  | mmac (f : Fields)
  /-- MOPF (R206). Operand fence for matrix operations. -/
  | mopf (f : Fields)
  /-- MWAIT (R207). Waits for the matrix operations on a block to complete. -/
  | mwait (f : Fields)
  /-- MZERO (R209). Zeroes accumulator blocks. -/
  | mzero (f : Fields)
  /-- MLDA (R209). Loads accumulator blocks from scratchpad. -/
  | mlda (f : Fields)
  /-- MSTA (R209). Stores accumulator blocks to scratchpad. -/
  | msta (f : Fields)
  /-- MRD (R210). Reads accumulator rows into registers. -/
  | mrd (f : Fields)
  /-- MWR (R210). Writes accumulator rows from registers. -/
  | mwr (f : Fields)
  /-- MSPILL (R212). Writes a physical accumulator block to far memory. -/
  | mspill (f : Fields)
  /-- MFILL (R212). Reads a physical accumulator block from far memory. -/
  | mfill (f : Fields)
  /-- MTAG (R212). Sets an accumulator block's owner tag. -/
  | mtag (f : Fields)
  /-- TCOPY (R227). Queues a box load into scratchpad on the copy engine. -/
  | tcopy (f : Fields)
  /-- TCOPYS (R227). Queues a box store from scratchpad. -/
  | tcopys (f : Fields)
  /-- GATHER (R228). Queues a gather of one row per active lane into scratchpad. -/
  | gather (f : Fields)
  /-- TRF (R225). Removes a shape record from the core's record cache. -/
  | trf (f : Fields)
  /-- BCLOSE (R236). Closes the open batch and returns its number. -/
  | bclose (f : Fields)
  /-- BWAIT (R237). Waits until a batch is complete. -/
  | bwait (f : Fields)
  /-- ABINIT (R234). Initialises a barrier object. -/
  | abinit (f : Fields)
  /-- ABARV (R234). Arrival at a barrier object, a release at .cor. -/
  | abarv (f : Fields)
  /-- ABEXP (R234). Adds expected bytes, and optionally arrives. -/
  | abexp (f : Fields)
  /-- ABWAIT (R234). Waits for a barrier-object phase to complete. -/
  | abwait (f : Fields)
  /-- GSET (R238). Sets a guard slot to true, false or unresolved. -/
  | gset (f : Fields)
  /-- BAR (R239). Block barrier that also takes the rollback checkpoint. -/
  | bar (f : Fields)
  /-- BARC (R239). Cluster barrier. -/
  | barc (f : Fields)
  /-- BARH (R240). Hierarchical barrier at the team, die or package level. -/
  | barh (f : Fields)
  /-- COLL (R252). Block collective across the members of a communicator. -/
  | coll (f : Fields)
  /-- CREM (R254). Remote GET or PUT between scratchpad and a peer window. -/
  | crem (f : Fields)
  /-- TRPOST (R250). Posts a triggered operation on a counter. -/
  | trpost (f : Fields)
  /-- TRCAN (R250). Cancels unfired triggered operations. -/
  | trcan (f : Fields)
  /-- ECINC (R247). Adds to an event counter as a release. -/
  | ecinc (f : Fields)
  /-- ECDEC (R247). Subtracts from an event counter as a release. -/
  | ecdec (f : Fields)
  /-- ECRD (R247). Reads an event counter as an acquire. -/
  | ecrd (f : Fields)
  /-- ECSET (R247). Sets a counter's value or owner; supervisor only. -/
  | ecset (f : Fields)
  /-- CQPOST (R257). Writes a completion record to a queue. -/
  | cqpost (f : Fields)
  /-- CQPOLL (R257). Reads, or waits for, the number of records pending in a queue. -/
  | cqpoll (f : Fields)
  /-- TQENQ (R259). Appends a record to the core's shard of a task queue. -/
  | tqenq (f : Fields)
  /-- TQDEQ (R261). Waits for and takes one WORK record into scratchpad. -/
  | tqdeq (f : Fields)
  /-- TQTRY (R261). Takes a WORK record or answers at once that none is available. -/
  | tqtry (f : Fields)
  /-- TQDONE (R259). Ends one outstanding item of the group. -/
  | tqdone (f : Fields)
  /-- TQATT (R259). Attaches a task record to a counter. -/
  | tqatt (f : Fields)
  /-- TQSTAT (R259). Returns the count of waiting or running records. -/
  | tqstat (f : Fields)
  /-- MIGR (R265). Sends lanes as continuations to the owners of their addresses. -/
  | migr (f : Fields)
  /-- MRET (R271). A visitor returns its listed registers and ends. -/
  | mret (f : Fields)
  /-- MJOIN (R272). Waits for the token and re-joins the migrated lanes. -/
  | mjoin (f : Fields)
  /-- MOWNER (R274). Writes the owner code of each lane's address. -/
  | mowner (f : Fields)
  /-- MTEST (R274). Returns the mask of unresolved token lanes. -/
  | mtest (f : Fields)
  /-- SYSRD (R275). Reads a system or identity register. -/
  | sysrd (f : Fields)
  /-- SYSWR (R276). Writes a system register, with effects specific to the register. -/
  | syswr (f : Fields)
  /-- TRAP (R278). Software trap SWTRAP. -/
  | trap (f : Fields)
  /-- RFT (R278). Returns from a trap by popping the TRAP entry. -/
  | rft (f : Fields)
  /-- BRK (R278). Halts the block for the debugger, or traps BRK. -/
  | brk (f : Fields)
  /-- SCALL (R278). System call trap routed to the supervisor. -/
  | scall (f : Fields)
  /-- SRET (R278). Returns from supervisor mode. -/
  | sret (f : Fields)
  /-- CKA (R279). Adds values into CKS. -/
  | cka (f : Fields)
  /-- CHK (R279). Compares CKS with a pair, raising SDC on a mismatch. -/
  | chk (f : Fields)
  /-- RNDK (R280). Per-lane keyed counter generator. -/
  | rndk (f : Fields)
  /-- SRNDK (R280). Scalar keyed counter generator. -/
  | srndk (f : Fields)
  /-- TLBINV (R281). Broadcasts a TLB invalidation. -/
  | tlbinv (f : Fields)
  /-- TLBSYNC (R281). Waits for the group's earlier tlbinv to be acknowledged. -/
  | tlbsync (f : Fields)
  /-- ICINV (R282). Invalidates the instruction caches for a context. -/
  | icinv (f : Fields)
  /-- EINJ (R283). Plants a memory error in a sector. -/
  | einj (f : Fields)
  /-- ESCRUB (R283). Scrubs far-memory sectors. -/
  | escrub (f : Fields)
  /-- LOAD_REPLY (R149). Returning data lands in the destination lanes and marks the register full. -/
  | loadReply (req part : Nat)
  /-- STORE_AT_HOME (R286). A write is applied at its byte's home in coherence order. -/
  | storeAtHome (req part : Nat)
  /-- ATOMIC_AT_HOME (R162). An atomic is applied indivisibly at the home. -/
  | atomicAtHome (req part : Nat)
  /-- WAIT_REGISTRATION (R164). The home checks a wait request and either replies or enters it in its table. -/
  | waitRegistration (req part : Nat)
  /-- WAIT_ANSWER (R165). A wait-table entry is answered with the current word. -/
  | waitAnswer (entry : Nat)
  /-- WWAITT_TIMEOUT (R165). T cycles after a wwaitt, its entry is answered. -/
  | wwaittTimeout (entry : Nat)
  /-- SLEEP_EXPIRY (R167). A sleep's cycle count runs out. -/
  | sleepExpiry (gid : Nat)
  /-- CORE_WAKE (R36). A gated core wakes 40 cycles after a readying event and rewrites WAKEWHY. -/
  | coreWake (core : Nat)
  /-- JOINW_EXPIRY (R117). An expired waiting entry switches execution to the waiting lanes and sets JTO. -/
  | joinwExpiry (gid : Nat)
  /-- WC_LINE_AGE_DRAIN (R243). A write-combining line that reaches age 1,024 drains. -/
  | wcLineAgeDrain (core line : Nat)
  /-- WC_LINE_ACK (R329). The peer's acknowledgement of a drained line arrives, freeing it and releasing a newer line. -/
  | wcLineAck (core line status : Nat)
  /-- RECORD_FETCH (R225). A missed shape record arrives in the record cache. -/
  | recordFetch (core : Nat)
  /-- COPY_ENGINE_ISSUE (R378). The copy engine takes an issuable FIFO head, or discards a guarded one. -/
  | copyEngineIssue (gid : Nat)
  /-- PIECE_DELIVERY (R232). An engine piece is performed and its bytes are delivered to the barrier object. -/
  | pieceDelivery (cmd piece : Nat)
  /-- COMMAND_COMPLETE (R232). An engine command completes, which may complete its batch and advance BATCHDONE. -/
  | commandComplete (cmd : Nat)
  /-- MATRIX_COMPLETE (R207). A joint matrix operation or accumulator command completes. -/
  | matrixComplete (op : Nat)
  /-- FIRED_RECORD_ENTRY (R260). A fired record waiting at a full shard enters when room frees. -/
  | firedRecordEntry (queue core : Nat)
  /-- RECORD_DELIVERY (R447). A record entering a shard is delivered to the oldest eligible waiting request. -/
  | recordDelivery (queue core : Nat)
  /-- HOST_ENQUEUE (R359). A 64-byte CXL.mem write to an enqueue window appends a record or is discarded. -/
  | hostEnqueue (queue : Nat) (data : List (BitVec 8))
  /-- HOST_MEMORY_ACCESS (R452). A host CXL.mem read or write is carried out at the sector's home, with writes to field pages discarded. -/
  | hostMemoryAccess (addr count : Nat) (data : Option (List (BitVec 8)))
  /-- LAUNCH_ACCEPTANCE (R363). The distributor accepts or refuses a launch record at the head of its priority. -/
  | launchAcceptance (queue core prio : Nat)
  /-- BLOCK_PLACEMENT (R364). The die distributor makes one placement per cycle over its cores. -/
  | blockPlacement (die : Nat)
  /-- BLOCKED_HEAD (R366). After 4,096 cycles a skipped candidate becomes the core's blocked head. -/
  | blockedHead (core : Nat)
  /-- PARTIAL_EVICTION (R370). A blocked head of 2,048 cycles causes lower-priority victims to be evicted. -/
  | partialEviction (core : Nat)
  /-- EVICTION (R389). A block's state is saved to its image and its resources are freed. -/
  | eviction (block : Nat)
  /-- RESTORATION (R392). An evicted block is checked, copied back and resumed, or terminated with IMGBAD. -/
  | restoration (block : Nat)
  /-- GRID_END (R371). When the last block retires, the grid-ended record, DCTR and interrupt are produced. -/
  | gridEnd (grid : Nat)
  /-- CARVE_EFFECT (R318). A stored CARVE value takes effect once the core holds no block or retained allocation. -/
  | carveEffect (core : Nat)
  /-- PENDING_MOVE (R375). A 4-cycle exchange between the pending and active sets completes. -/
  | pendingMove (core part : Nat)
  /-- CONTINUATION_ARRIVAL (R267). A continuation reaches its owner and waits for a visitor slot. -/
  | continuationArrival (cont : Nat)
  /-- VISITOR_START (R268). A freed slot starts the visiting group with the shipped state. -/
  | visitorStart (owner : Nat)
  /-- MIGRATION_REFUSAL (R267). With no slot free after 4,096 cycles, the continuation is refused and its lanes return. -/
  | migrationRefusal (cont : Nat)
  /-- MIGRATION_RETURN (R271). Returned registers, a refusal or a fault arrive and set token lanes. -/
  | migrationReturn (ret : Nat)
  /-- DEBIT (R341). The origin home applies debits and answers OK or SHORT. -/
  | debit (m : Nat)
  /-- GO (R341). Mortar records start their local or fabric path. -/
  | go (m : Nat)
  /-- RETURN (R341). Debited amounts are added back and their records freed. -/
  | returnAmount (m : Nat)
  /-- OFFER (R343). The destination home checks and reserves, or refuses, a fabric transfer amount. -/
  | offer (m : Nat)
  /-- ACCEPT (R343). The origin record moves to CREDITING and CREDIT is sent. -/
  | accept (m : Nat)
  /-- OVF (R343). The amount is returned with status 3. -/
  | ovf (m : Nat)
  /-- REFUSE (R477). The amount is returned with status 4. -/
  | refuse (m : Nat)
  /-- BUSY (R343). No deduplication entry was free, so the offer is resent after 1 µs. -/
  | busy (m : Nat)
  /-- OFFER_RESEND (R343). 1 µs after BUSY, the origin home sends the offer again. -/
  | offerResend (mseq : Nat)
  /-- CREDIT (R342). The destination adds the amount: the commit point. -/
  | credit (m : Nat)
  /-- DONE (R341). The origin record frees and STATUS 0 is sent. -/
  | done (m : Nat)
  /-- ACK (R341). The destination removes its deduplication entry. -/
  | ack (m : Nat)
  /-- CANCEL (R344). The destination undoes a reservation or removes its entry and answers. -/
  | cancel (m : Nat)
  /-- STATUS (R341). A lane's transfer status lands in D or in the saved image. -/
  | status (m : Nat)
  /-- GIVE_UP (R344). GLEFT reaches zero: the amount is returned, status 2 is sent and CANCEL follows. -/
  | giveUp (mseq : Nat)
  /-- ANSWER_RESEND (R345). Every 64 µs an unacknowledged destination entry resends its answer. -/
  | answerResend (dev mseq : Nat)
  /-- HOLD (R347). A source or sink home stops its updates and answers with its contents. -/
  | hold (snap owner : Nat)
  /-- SNAPSHOT_RELEASE (R347). The anchor releases the homes and sums the figures. -/
  | snapshotRelease (snap : Nat)
  /-- SNAPSHOT_TIMEOUT (R347). Answers missing after GUP/2 make the ftot raise FABERR. -/
  | snapshotTimeout (snap : Nat)
  /-- HOLD_SELF_RESUME (R347). A home with no RELEASE within GUP of its HOLD resumes by itself. -/
  | holdSelfResume (snap owner : Nat)
  /-- DOMAIN_ACTIVATION (R187). The anchor activates the domain, or fails it, once all members have declared. -/
  | domainActivation (did : Nat) (reports : List (Nat × BitVec 64))
  /-- FDECL_TIMEOUT (R187). Not every member declared within GUP: status 8 and the domain is dropped. -/
  | fdeclTimeout (did : Nat)
  /-- PACKET_ARRIVAL (R425). The receiver checks a packet, performs it or treats it as a duplicate, and acknowledges. -/
  | packetArrival (p : Packet)
  /-- DELIVERY_ACK (R425). An ACK with its status byte reaches the sender. -/
  | deliveryAck (peer cls ctxno pseq status : Nat)
  /-- PACKET_RESEND (R425). An unacknowledged packet is resent after 4 µs on the next plane. -/
  | packetResend (peer cls pseq : Nat)
  /-- STALE (R427). A STALE answer makes the context give up its packets. -/
  | stale (peer cls ctxno pseq : Nat)
  /-- RETRY (R429). A RETRY answer makes the sender resend after 4 µs. -/
  | retry (peer cls ctxno pseq : Nat)
  /-- CONTEXT_CLOSE (R427). A delivery context closes after 64 µs of quiet. -/
  | contextClose (sending : Bool) (peer cls : Nat)
  /-- DELIVERY_GIVE_UP (R428). A packet unacknowledged for DGUP is given up, with the outcome its kind gives. -/
  | deliveryGiveUp (peer cls pseq : Nat)
  /-- CONTEXT_FETCH (R429). An uncached delivery context arrives from far memory. -/
  | contextFetch (sending : Bool) (peer cls : Nat)
  /-- RESP (R426). The result of a READ, ATOMIC or ECINC reaches the requester. -/
  | resp (peer msg : Nat) (data : List (BitVec 8))
  /-- COMPLETE (R431). A message's completion reaches the sender, which writes its record. -/
  | complete (peer msg : Nat)
  /-- MCAST (R433). A member receives a multicast replica and answers positively or negatively. -/
  | mcast (p : Packet)
  /-- AGGACK (R441). The aggregated acknowledgement updates NACK and writes the line's record. -/
  | aggack (group ctxno pseq : Nat) (bits : BitVec 512)
  /-- ROLLBACK (R399). After an uncorrectable error is consumed, the block rolls back to its checkpoint or is terminated with UNCORR. -/
  | rollback (block : Nat)
  /-- WALK (R403). A page-table walk completes and fills the TLBs, or an XLATE follows. -/
  | walk (core gid : Nat) (va : BitVec 64)
  /-- TLBINV_ACK (R281). The device acknowledges an invalidation once old walks have ended. -/
  | tlbinvAck (inv : Nat)
  /-- REFRESH_MANAGEMENT (R333). A bank whose BAC reaches LVL receives a refresh-management command. -/
  | refreshManagement (bank : Nat)
  /-- ERASURE_MARK (R337). Firmware adds a mark to a rank's erasure table. -/
  | erasureMark (rank pos : Nat)
  /-- HEALTH_FLUSH (R464). Every 60 s the health-log counts are flushed to flash. -/
  | healthFlush
  /-- FAULT_RETRY (R465). Firmware retries a fault once and classes it transient or lasting: kind 0 an uncorrectable read, 1 a FAULTED
  port, 2 a built-in test; `again` when the retry fails. -/
  | faultRetry (unit kind : Nat) (again : Bool)
  /-- FATAL_ERROR (R462). The device stops everything and writes the dump into the dump frame. -/
  | fatalError (source : Nat)
  /-- POWER_ON (R460). Power-on runs a cold start. -/
  | powerOn (i : StartInfo)
  /-- COLD_START (R460). DEVCTL 1 runs the cold start-up steps. -/
  | coldStart (i : StartInfo)
  /-- WARM_START (R460). DEVCTL 2 runs the warm start-up steps. -/
  | warmStart (i : StartInfo)
  /-- FLUSH_HEALTH_LOG (R464). DEVCTL 3 flushes the health log. -/
  | flushHealthLog
  /-- LOCK (R414). PCMD LOCK authenticates the switch and locks the port, or leaves it OPEN with reason 1. -/
  | lock (port : Nat) (accepted : Option (BitVec 64))
  /-- START (R414). PCMD START moves a LOCKED port to RUNNING while the device is a member. -/
  | start (port : Nat)
  /-- STOP (R414). PCMD STOP opens the port and zeroises its keys. -/
  | stop (port : Nat)
  /-- PORT_CONFIG_WRITE (R414). A write to PCFG or PSWID outside OPEN faults the port. -/
  | portConfigWrite (port : Nat) (value : BitVec 64) (swid : Bool)
  /-- TAG_FAILURE_FAULT (R414). 16 tag failures within 1 ms fault the port. -/
  | tagFailureFault (port : Nat)
  /-- LINK_DOWN (R414). A link down for 1 ms, or the end of its SPDM session, faults the port. -/
  | linkDown (port : Nat)
  /-- MEASUREMENT_CHANGE (R414). A change of the switch's measurements faults the port. -/
  | measurementChange (port : Nat)
  /-- JOIN_DOMAIN (R419). The manager admits a device, assigns its DEVID and sets REKEY. -/
  | joinDomain (dev self : Nat) (members : BitVec 512)
  /-- REKEY (R420). Members derive next-generation keys, hold egress traffic, drain, and send ARRIVE. -/
  | rekey
  /-- ARRIVE (R420). The manager collects arrivals and sends RELEASE once all members have arrived. -/
  | arrive (dev : Nat)
  /-- RELEASE (R420). The member switches KGEN, zeroises the old keys and releases held requests. -/
  | release (gen : BitVec 32)
  /-- REKEY_TIMEOUT (R421). A member that has not arrived within 100 ms is expelled. -/
  | rekeyTimeout (dev : Nat)
  /-- BREAKPOINT (R354). The debug comparator halts the block before the instruction issues. -/
  | breakpoint (gid : Nat)
  /-- DEBUG_RESUME (R407). The debugger resumes a halted block and sets WAKEWHY bit 6. -/
  | debugResume (block : Nat)
  /-- CONTEXT_ENTRY_WRITE (R454). A write to a context entry, with the VALID guards. -/
  | contextEntryWrite (offset : Nat) (data : List (BitVec 8))
  /-- QUEUE_CONFIG_WRITE (R357). A write to a task queue's configuration entry, including CLOSED and HDROPS. -/
  | queueConfigWrite (queue : Nat) (value : BitVec 128)
  /-- OWNER_ENTRY_WRITE (R455). A write to an owner entry, setting CARVE and VOPEN. -/
  | ownerEntryWrite (owner : Nat) (value : BitVec 64)
  /-- REGION_REGISTER_WRITE (R456). A write to a region register, discarded while grids run. -/
  | regionRegisterWrite (index : Nat) (value : BitVec 64)
  /-- CQ_REGISTRATION (R457). Writing VALID 1 registers a completion queue and initialises its header. -/
  | cqRegistration (index : Nat) (header : BitVec 64) (ctx : Nat) (valid : Bool)
  /-- REGISTER_WRITE (R413). A write to a management register that has no behaviour of its own. -/
  | registerWrite (offset : Nat) (value : BitVec 64)
  /-- UNASSIGNED_CELL (R75). Issue of a word that is no instruction (unassigned OPC or FN, LEN 0b11, misaligned PC, unfetchable or misplaced block) raises its decode trap. -/
  | unassignedCell (cause : Nat) (aux : BitVec 64) (addr : BitVec 64)
  /-- POWER_FAILURE (R464). Loss of power stops the device, and health-log counts not yet flushed are lost. -/
  | powerFailure
  /-- MEMBER_REMOVAL (R419). The manager removes a member, sends the new MEMBERS and sets REKEY on the remaining members. -/
  | memberRemoval (dev : Nat)
  /-- BANK_REFRESH (R333). A periodic refresh of a bank subtracts DEC from its activation count BAC, with a floor of 0. -/
  | bankRefresh (bank : Nat)
  /-- LINK_LOSS (R414). A port's link goes down, including a link held down by linkfail, so flits are lost and the 1 ms down count starts. -/
  | linkLoss (port : Nat)
  /-- LINK_RETURN (R414). A port's link comes back up, including through linkup, ending flit loss and stopping the 1 ms down count. -/
  | linkReturn (port : Nat)
  /-- CYDB_ATTACH (R478). A cydb session attaches to a context whose entry has DEBUG set, so that brk halts the block. `breaks` are the
  comparators armed from then on (R354, R405): the address, the block, by GRIDID and linear number, and the group they are for, where they name one. -/
  | cydbAttach (ctx : Nat) (breaks : List (Nat × Option (Nat × Nat) × Option Nat))
  /-- CYDB_DETACH (R478). The cydb session detaches from the context, so brk traps BRK again. -/
  | cydbDetach (ctx : Nat)
  /-- CYDB_STEP (R355). cydb's step issues one instruction of the halted group and halts it again once its empty registers fill or 1 ms passes. -/
  | cydbStep (gid : Nat)
  /-- LATCH_STALLED_LONG (R194). A group that has waited at a rendezvous latch for more than 32 cycles starts to count as stalled long for the exchange rules. -/
  | latchStalledLong (gid : Nat)
  deriving DecidableEq, Repr

end Sys2Proof
end

