-- ==== Sys2Proof/Machine/Cells.lean ====
section
/-! DEFINITION. The cells of the opcode map (spec 03) with the MOD rules of the instruction chapters: for each
instruction the kinds of its fields, the lengths it accepts, and its conditions on its own bits (spec 02, R57). -/

set_option linter.unusedVariables false

namespace Sys2Proof

/-- MOD bit k, for k from 1 to 9 (spec 02, R46). -/
def Fields.m (f : Fields) (k : Nat) : Bool := f.mod.getLsbD (k - 1)

/-- MOD bits hi:lo as a number. -/
def Fields.mf (f : Fields) (hi lo : Nat) : Nat := f.mod.toNat / 2 ^ (lo - 1) % 2 ^ (hi - lo + 1)

/-- The length of an instruction in bytes (spec 02, R40). -/
def Fields.bytes (f : Fields) : Nat :=
  match f.len with
  | .w64 => 8
  | .w96 => 12
  | .w128 => 16

/-- The kind of an operand field (spec 02, R52); `no` for a field the instruction does not use. -/
inductive Kind where
  | no | V | S | SP | SQ | GN | U8
  deriving DecidableEq, Repr

/-- What the immediate of the longer length replaces (spec 02, R50; spec 03, R59). -/
inductive Rep where
  | no | a | b | c | a64
  deriving DecidableEq, Repr

/-- How an instruction uses a field: as a source, a destination, both, or read without waiting (mtest, R274). -/
inductive Role where
  | src | dst | both | peek
  deriving DecidableEq, Repr

/-- One row of the opcode map, for given fields. `nd` to `nh` are how many consecutive registers a vector field
names, aligned unless `run`; `vsRep` marks a replaceable field `V|S`; `bad5`, `bad13`, `bad14` are the cell's own conditions (a field code, 0 when the condition does not hold). -/
structure Row where
  opc : Nat
  fn : Nat
  lens : List Len
  kd : Kind := .no
  ka : Kind := .no
  kb : Kind := .no
  kc : Kind := .no
  ke : Kind := .no
  kh : Kind := .no
  dRole : Role := .dst
  hRole : Role := .src
  aRole : Role := .src
  rep : Rep := .no
  immBits : Nat := 0
  guard : Bool := false
  sup : Bool := false
  mods : Nat := 0
  xmods : Bool := false
  run : Bool := false
  vsRep : Bool := false
  nd : Nat := 1
  na : Nat := 1
  nb : Nat := 1
  nc : Nat := 1
  nh : Nat := 1
  bad5 : Bool := false
  bad13 : Nat := 0
  bad14 : Nat := 0
  deriving DecidableEq, Repr

/-- A field `V|S`: kind S when MOD bit 1 is 1 (spec 03, R58). -/
def vs (f : Fields) : Kind := if f.m 1 then .S else .V

/-- The scalar data field of sld and sst: one register, a pair for .64, a quad for .128 (spec 07, R147). -/
def ss (f : Fields) : Kind := if f.mf 5 3 = 5 then .SP else if f.mf 5 3 = 6 then .SQ else .S

/-- How many vector registers a load or store of size SZ names (spec 07, R147). -/
def szRegs (f : Fields) : Nat := if f.mf 5 3 = 5 then 2 else if f.mf 5 3 = 6 then 4 else 1

/-- The highest slot of a narrow format code of R91 (spec 09, R217). -/
def slotLimit (code : Nat) : Nat :=
  if code ≤ 2 then 1 else if code = 5 || code = 7 then 7 else 3

/-- System and identity register numbers (spec 01, R35, R37). -/
def sysKnown (n : Nat) : Bool := n ≤ 0x14 || (0x40 ≤ n && n ≤ 0x4B)

/-- The 64-bit system registers: TRAPPC, TRAPADDR, TRAPAUX, HALTPC, CLOCK, CKS (spec 01, R35). -/
def sysWide (n : Nat) : Bool := n = 1 || n = 3 || n = 4 || n = 6 || n = 10 || n = 0x13

/-- The registers syswr may name: TRAPPC, CTXID, GANG, EXM, GSTAT, CKS (spec 01, R35). -/
def sysWritable (n : Nat) : Bool := n = 1 || n = 8 || n = 11 || n = 13 || n = 15 || n = 0x13

/-- Reason 13 of sysrd (spec 01, R35, R37): an unknown number, or LANEID or QUADID into a scalar register. -/
def sysrdBad (f : Fields) : Nat :=
  if !sysKnown (f.imm.toNat % 4096) then 7
  else if !f.m 1 && (f.imm.toNat % 4096 = 0x40 || f.imm.toNat % 4096 = 0x41) then 1 else 0

/-- Reason 13 of syswr (spec 01, R35; spec 12, R276): a number that may not be written, or MOD bit 1 against the
register's width. -/
def syswrBad (f : Fields) : Nat :=
  if !sysWritable (f.imm.toNat % 4096) then 7
  else if f.m 1 != sysWide (f.imm.toNat % 4096) then 8 else 0

def rowNop (f : Fields) : Row :=
  { opc := 0x00, fn := 0x01, lens := [.w64, .w96] }
def rowExit (f : Fields) : Row :=
  { opc := 0x00, fn := 0x02, lens := [.w64] }
def rowExitm (f : Fields) : Row :=
  { opc := 0x00, fn := 0x03, lens := [.w64, .w96], ka := .S, rep := .a }
def rowBr (f : Fields) : Row :=
  { opc := 0x01, fn := 0x00, lens := [.w96], immBits := 32 }
def rowBz (f : Fields) : Row :=
  { opc := 0x01, fn := 0x01, lens := [.w96], ka := .S, immBits := 32 }
def rowBnz (f : Fields) : Row :=
  { opc := 0x01, fn := 0x02, lens := [.w96], ka := .S, immBits := 32 }
def rowBmz (f : Fields) : Row :=
  { opc := 0x01, fn := 0x03, lens := [.w96], ka := .S, immBits := 32 }
def rowBmnz (f : Fields) : Row :=
  { opc := 0x01, fn := 0x04, lens := [.w96], ka := .S, immBits := 32 }
def rowBvany (f : Fields) : Row :=
  { opc := 0x01, fn := 0x05, lens := [.w96], ka := .V, immBits := 32 }
def rowBvall (f : Fields) : Row :=
  { opc := 0x01, fn := 0x06, lens := [.w96], ka := .V, immBits := 32 }
def rowBdiv (f : Fields) : Row :=
  { opc := 0x02, fn := 0x00, lens := [.w96], ka := .V, immBits := 32 }
def rowBdivw (f : Fields) : Row :=
  { opc := 0x02, fn := 0x01, lens := [.w96], ka := .V, immBits := 32 }
def rowBdivs (f : Fields) : Row :=
  { opc := 0x02, fn := 0x02, lens := [.w96], ka := .S, immBits := 32 }
def rowJoin (f : Fields) : Row :=
  { opc := 0x02, fn := 0x03, lens := [.w64] }
def rowJoinw (f : Fields) : Row :=
  { opc := 0x02, fn := 0x04, lens := [.w96], immBits := 24 }
def rowJmp (f : Fields) : Row :=
  { opc := 0x03, fn := 0x00, lens := [.w64], ka := .SP }
def rowJmpi (f : Fields) : Row :=
  { opc := 0x03, fn := 0x01, lens := [.w64], ka := .V, kb := .V }
def rowCall (f : Fields) : Row :=
  { opc := 0x03, fn := 0x02, lens := [.w96], immBits := 32 }
def rowCalli (f : Fields) : Row :=
  { opc := 0x03, fn := 0x03, lens := [.w64], ka := .SP }
def rowRet (f : Fields) : Row :=
  { opc := 0x03, fn := 0x04, lens := [.w64] }
def rowSadd (f : Fields) : Row :=
  { opc := 0x10, fn := 0x00, lens := [.w64, .w96], kd := .S, ka := .S, kb := .S, rep := .b }
def rowSsub (f : Fields) : Row :=
  { opc := 0x10, fn := 0x01, lens := [.w64, .w96], kd := .S, ka := .S, kb := .S, rep := .b }
def rowSmul (f : Fields) : Row :=
  { opc := 0x10, fn := 0x02, lens := [.w64, .w96], kd := .S, ka := .S, kb := .S, rep := .b }
def rowSmulh (f : Fields) : Row :=
  { opc := 0x10, fn := 0x03, lens := [.w64, .w96], kd := .S, ka := .S, kb := .S, mods := 0x002, rep := .b }
def rowSand (f : Fields) : Row :=
  { opc := 0x10, fn := 0x04, lens := [.w64, .w96], kd := .S, ka := .S, kb := .S, rep := .b }
def rowSor (f : Fields) : Row :=
  { opc := 0x10, fn := 0x05, lens := [.w64, .w96], kd := .S, ka := .S, kb := .S, rep := .b }
def rowSxor (f : Fields) : Row :=
  { opc := 0x10, fn := 0x06, lens := [.w64, .w96], kd := .S, ka := .S, kb := .S, rep := .b }
def rowSshl (f : Fields) : Row :=
  { opc := 0x10, fn := 0x07, lens := [.w64, .w96], kd := .S, ka := .S, kb := .S, rep := .b }
def rowSshr (f : Fields) : Row :=
  { opc := 0x10, fn := 0x08, lens := [.w64, .w96], kd := .S, ka := .S, kb := .S, mods := 0x002, rep := .b }
def rowSmin (f : Fields) : Row :=
  { opc := 0x10, fn := 0x09, lens := [.w64, .w96], kd := .S, ka := .S, kb := .S, mods := 0x002, rep := .b }
def rowSmax (f : Fields) : Row :=
  { opc := 0x10, fn := 0x0A, lens := [.w64, .w96], kd := .S, ka := .S, kb := .S, mods := 0x002, rep := .b }
def rowSdiv (f : Fields) : Row :=
  { opc := 0x10, fn := 0x0B, lens := [.w64, .w96], kd := .S, ka := .S, kb := .S, mods := 0x002, rep := .b }
def rowSrem (f : Fields) : Row :=
  { opc := 0x10, fn := 0x0C, lens := [.w64, .w96], kd := .S, ka := .S, kb := .S, mods := 0x002, rep := .b }
def rowSmov (f : Fields) : Row :=
  { opc := 0x11, fn := 0x00, lens := [.w64, .w96], kd := .S, ka := .S, rep := .a }
def rowSnot (f : Fields) : Row :=
  { opc := 0x11, fn := 0x01, lens := [.w64, .w96], kd := .S, ka := .S, rep := .a }
def rowSclz (f : Fields) : Row :=
  { opc := 0x11, fn := 0x02, lens := [.w64, .w96], kd := .S, ka := .S, rep := .a }
def rowSpopc (f : Fields) : Row :=
  { opc := 0x11, fn := 0x03, lens := [.w64, .w96], kd := .S, ka := .S, rep := .a }
def rowSbrev (f : Fields) : Row :=
  { opc := 0x11, fn := 0x04, lens := [.w64, .w96], kd := .S, ka := .S, rep := .a }
def rowSext (f : Fields) : Row :=
  { opc := 0x11, fn := 0x05, lens := [.w64, .w96], kd := .S, ka := .S, mods := 0x00E, rep := .a, bad5 := 2 ≤ f.mf 3 2 }
def rowScmp (f : Fields) : Row :=
  { opc := 0x12, fn := 0x00, lens := [.w64, .w96], kd := .S, ka := .S, kb := .S, mods := 0x01E, rep := .b, bad5 := 6 ≤ f.mf 4 2 || (f.m 1 && f.mf 4 2 < 2) }
def rowSsel (f : Fields) : Row :=
  { opc := 0x12, fn := 0x01, lens := [.w64, .w96], kd := .S, ka := .S, kb := .S, kc := .S, rep := .c }
def rowSadd64 (f : Fields) : Row :=
  { opc := 0x13, fn := 0x00, lens := [.w64, .w96], kd := .SP, ka := .SP, kb := .SP, rep := .b }
def rowSsub64 (f : Fields) : Row :=
  { opc := 0x13, fn := 0x01, lens := [.w64, .w96], kd := .SP, ka := .SP, kb := .SP, rep := .b }
def rowSmul64 (f : Fields) : Row :=
  { opc := 0x13, fn := 0x02, lens := [.w64, .w96], kd := .SP, ka := .SP, kb := .SP, rep := .b }
def rowSshl64 (f : Fields) : Row :=
  { opc := 0x13, fn := 0x03, lens := [.w64, .w96], kd := .SP, ka := .SP, kb := .SP, rep := .b }
def rowSshr64 (f : Fields) : Row :=
  { opc := 0x13, fn := 0x04, lens := [.w64, .w96], kd := .SP, ka := .SP, kb := .SP, mods := 0x002, rep := .b }
def rowSmov64 (f : Fields) : Row :=
  { opc := 0x13, fn := 0x05, lens := [.w64, .w128], kd := .SP, ka := .SP, rep := .a64 }
def rowSbfe (f : Fields) : Row :=
  { opc := 0x14, fn := 0x00, lens := [.w64, .w96], kd := .S, ka := .S, kb := .S, kc := .S, mods := 0x002, rep := .c }
def rowSbfi (f : Fields) : Row :=
  { opc := 0x14, fn := 0x01, lens := [.w64, .w96], kd := .S, ka := .S, kb := .S, kc := .S, rep := .c, dRole := .both }
def rowSlea (f : Fields) : Row :=
  { opc := 0x15, fn := 0x00, lens := [.w64, .w96], kd := .SP, ka := .SP, kb := .S, kc := .U8, mods := 0x002, rep := .c, bad14 := if f.len = .w64 then (if 7 < f.c.toNat then 4 else 0) else (if 7 < f.imm.toNat % 256 then 7 else 0) }
def rowVadd (f : Fields) : Row :=
  { opc := 0x30, fn := 0x00, lens := [.w64, .w96], kd := .V, ka := .V, kb := (vs f), mods := 0x01A, rep := .b, vsRep := true, bad5 := f.mf 4 3 = 3 }
def rowVsub (f : Fields) : Row :=
  { opc := 0x30, fn := 0x01, lens := [.w64, .w96], kd := .V, ka := .V, kb := (vs f), mods := 0x01A, rep := .b, vsRep := true, bad5 := f.mf 4 3 = 3 }
def rowVmul (f : Fields) : Row :=
  { opc := 0x30, fn := 0x02, lens := [.w64, .w96], kd := .V, ka := .V, kb := (vs f), mods := 0x01A, rep := .b, vsRep := true, bad5 := f.mf 4 3 = 3 }
def rowVmulh (f : Fields) : Row :=
  { opc := 0x30, fn := 0x03, lens := [.w64, .w96], kd := .V, ka := .V, kb := (vs f), mods := 0x01E, rep := .b, vsRep := true, bad5 := f.mf 4 3 = 3 }
def rowVand (f : Fields) : Row :=
  { opc := 0x30, fn := 0x04, lens := [.w64, .w96], kd := .V, ka := .V, kb := (vs f), mods := 0x002, rep := .b, vsRep := true }
def rowVor (f : Fields) : Row :=
  { opc := 0x30, fn := 0x05, lens := [.w64, .w96], kd := .V, ka := .V, kb := (vs f), mods := 0x002, rep := .b, vsRep := true }
def rowVxor (f : Fields) : Row :=
  { opc := 0x30, fn := 0x06, lens := [.w64, .w96], kd := .V, ka := .V, kb := (vs f), mods := 0x002, rep := .b, vsRep := true }
def rowVshl (f : Fields) : Row :=
  { opc := 0x30, fn := 0x07, lens := [.w64, .w96], kd := .V, ka := .V, kb := (vs f), mods := 0x01A, rep := .b, vsRep := true, bad5 := f.mf 4 3 = 3 }
def rowVshr (f : Fields) : Row :=
  { opc := 0x30, fn := 0x08, lens := [.w64, .w96], kd := .V, ka := .V, kb := (vs f), mods := 0x01E, rep := .b, vsRep := true, bad5 := f.mf 4 3 = 3 }
def rowVmin (f : Fields) : Row :=
  { opc := 0x30, fn := 0x09, lens := [.w64, .w96], kd := .V, ka := .V, kb := (vs f), mods := 0x01E, rep := .b, vsRep := true, bad5 := f.mf 4 3 = 3 }
def rowVmax (f : Fields) : Row :=
  { opc := 0x30, fn := 0x0A, lens := [.w64, .w96], kd := .V, ka := .V, kb := (vs f), mods := 0x01E, rep := .b, vsRep := true, bad5 := f.mf 4 3 = 3 }
def rowVabsd (f : Fields) : Row :=
  { opc := 0x30, fn := 0x0B, lens := [.w64, .w96], kd := .V, ka := .V, kb := (vs f), mods := 0x01E, rep := .b, vsRep := true, bad5 := f.mf 4 3 = 3 }
def rowVadds (f : Fields) : Row :=
  { opc := 0x30, fn := 0x0C, lens := [.w64, .w96], kd := .V, ka := .V, kb := (vs f), mods := 0x01E, rep := .b, vsRep := true, bad5 := f.mf 4 3 = 3 }
def rowVsubs (f : Fields) : Row :=
  { opc := 0x30, fn := 0x0D, lens := [.w64, .w96], kd := .V, ka := .V, kb := (vs f), mods := 0x01E, rep := .b, vsRep := true, bad5 := f.mf 4 3 = 3 }
def rowVmad (f : Fields) : Row :=
  { opc := 0x31, fn := 0x00, lens := [.w64, .w96], kd := .V, ka := .V, kb := .V, kc := (vs f), mods := 0x002, rep := .c, vsRep := true }
def rowVsel (f : Fields) : Row :=
  { opc := 0x31, fn := 0x01, lens := [.w64, .w96], kd := .V, ka := .V, kb := .V, kc := (vs f), mods := 0x002, rep := .c, vsRep := true }
def rowVbfe (f : Fields) : Row :=
  { opc := 0x31, fn := 0x02, lens := [.w64, .w96], kd := .V, ka := .V, kb := .V, kc := (vs f), mods := 0x006, rep := .c, vsRep := true }
def rowVbfi (f : Fields) : Row :=
  { opc := 0x31, fn := 0x03, lens := [.w64, .w96], kd := .V, ka := .V, kb := .V, kc := (vs f), mods := 0x002, rep := .c, vsRep := true, dRole := .both }
def rowVmov (f : Fields) : Row :=
  { opc := 0x32, fn := 0x00, lens := [.w64, .w96], kd := .V, ka := (vs f), mods := 0x002, rep := .a, vsRep := true }
def rowVnot (f : Fields) : Row :=
  { opc := 0x32, fn := 0x01, lens := [.w64, .w96], kd := .V, ka := (vs f), mods := 0x002, rep := .a, vsRep := true }
def rowVneg (f : Fields) : Row :=
  { opc := 0x32, fn := 0x02, lens := [.w64, .w96], kd := .V, ka := (vs f), mods := 0x01A, rep := .a, vsRep := true, bad5 := f.mf 4 3 = 3 }
def rowVabs (f : Fields) : Row :=
  { opc := 0x32, fn := 0x03, lens := [.w64, .w96], kd := .V, ka := (vs f), mods := 0x01A, rep := .a, vsRep := true, bad5 := f.mf 4 3 = 3 }
def rowVclz (f : Fields) : Row :=
  { opc := 0x32, fn := 0x04, lens := [.w64, .w96], kd := .V, ka := (vs f), mods := 0x002, rep := .a, vsRep := true }
def rowVpopc (f : Fields) : Row :=
  { opc := 0x32, fn := 0x05, lens := [.w64, .w96], kd := .V, ka := (vs f), mods := 0x002, rep := .a, vsRep := true }
def rowVbrev (f : Fields) : Row :=
  { opc := 0x32, fn := 0x06, lens := [.w64, .w96], kd := .V, ka := (vs f), mods := 0x002, rep := .a, vsRep := true }
def rowVext (f : Fields) : Row :=
  { opc := 0x32, fn := 0x07, lens := [.w64, .w96], kd := .V, ka := (vs f), mods := 0x01E, rep := .a, vsRep := true, bad5 := f.mf 4 3 = 0 || f.mf 4 3 = 3 }
def rowVcmp (f : Fields) : Row :=
  { opc := 0x33, fn := 0x00, lens := [.w64, .w96], kd := .V, ka := .V, kb := (vs f), mods := 0x0FE, rep := .b, vsRep := true, bad5 := f.mf 4 3 = 3 || 6 ≤ f.mf 7 5 || (f.m 2 && f.mf 7 5 < 2) }
def rowVcmpm (f : Fields) : Row :=
  { opc := 0x33, fn := 0x01, lens := [.w64, .w96], kd := .S, ka := .V, kb := (vs f), mods := 0x0E6, rep := .b, vsRep := true, bad5 := 6 ≤ f.mf 7 5 || (f.m 2 && f.mf 7 5 < 2) }
def rowVadd64 (f : Fields) : Row :=
  { opc := 0x34, fn := 0x00, lens := [.w64], kd := .V, ka := .V, kb := .V, nd := 2, na := 2, nb := 2 }
def rowVmulw (f : Fields) : Row :=
  { opc := 0x34, fn := 0x01, lens := [.w64], kd := .V, ka := .V, kb := .V, mods := 0x004, nd := 2 }
def rowVaddF32 (f : Fields) : Row :=
  { opc := 0x60, fn := 0x00, lens := [.w64, .w96], kd := .V, ka := .V, kb := (vs f), mods := 0x00E, rep := .b, vsRep := true }
def rowVsubF32 (f : Fields) : Row :=
  { opc := 0x60, fn := 0x01, lens := [.w64, .w96], kd := .V, ka := .V, kb := (vs f), mods := 0x00E, rep := .b, vsRep := true }
def rowVmulF32 (f : Fields) : Row :=
  { opc := 0x60, fn := 0x02, lens := [.w64, .w96], kd := .V, ka := .V, kb := (vs f), mods := 0x00E, rep := .b, vsRep := true }
def rowVminF32 (f : Fields) : Row :=
  { opc := 0x60, fn := 0x03, lens := [.w64, .w96], kd := .V, ka := .V, kb := (vs f), mods := 0x002, rep := .b, vsRep := true }
def rowVmaxF32 (f : Fields) : Row :=
  { opc := 0x60, fn := 0x04, lens := [.w64, .w96], kd := .V, ka := .V, kb := (vs f), mods := 0x002, rep := .b, vsRep := true }
def rowVdiv (f : Fields) : Row :=
  { opc := 0x60, fn := 0x05, lens := [.w64, .w96], kd := .V, ka := .V, kb := (vs f), mods := 0x00E, rep := .b, vsRep := true }
def rowVfma (f : Fields) : Row :=
  { opc := 0x61, fn := 0x00, lens := [.w64, .w96], kd := .V, ka := .V, kb := .V, kc := (vs f), mods := 0x00E, rep := .c, vsRep := true }
def rowVfms (f : Fields) : Row :=
  { opc := 0x61, fn := 0x01, lens := [.w64, .w96], kd := .V, ka := .V, kb := .V, kc := (vs f), mods := 0x00E, rep := .c, vsRep := true }
def rowVabsF32 (f : Fields) : Row :=
  { opc := 0x62, fn := 0x00, lens := [.w64, .w96], kd := .V, ka := (vs f), mods := 0x002, rep := .a, vsRep := true }
def rowVnegF32 (f : Fields) : Row :=
  { opc := 0x62, fn := 0x01, lens := [.w64, .w96], kd := .V, ka := (vs f), mods := 0x002, rep := .a, vsRep := true }
def rowVsqrt (f : Fields) : Row :=
  { opc := 0x62, fn := 0x02, lens := [.w64, .w96], kd := .V, ka := (vs f), mods := 0x00E, rep := .a, vsRep := true }
def rowVrcp (f : Fields) : Row :=
  { opc := 0x62, fn := 0x03, lens := [.w64, .w96], kd := .V, ka := (vs f), mods := 0x00E, rep := .a, vsRep := true }
def rowVrsq (f : Fields) : Row :=
  { opc := 0x62, fn := 0x04, lens := [.w64, .w96], kd := .V, ka := (vs f), mods := 0x00E, rep := .a, vsRep := true }
def rowVexp2 (f : Fields) : Row :=
  { opc := 0x62, fn := 0x05, lens := [.w64, .w96], kd := .V, ka := (vs f), mods := 0x00E, rep := .a, vsRep := true }
def rowVlog2 (f : Fields) : Row :=
  { opc := 0x62, fn := 0x06, lens := [.w64, .w96], kd := .V, ka := (vs f), mods := 0x00E, rep := .a, vsRep := true }
def rowVrnd (f : Fields) : Row :=
  { opc := 0x62, fn := 0x07, lens := [.w64, .w96], kd := .V, ka := (vs f), mods := 0x00E, rep := .a, vsRep := true }
def rowVclass (f : Fields) : Row :=
  { opc := 0x62, fn := 0x08, lens := [.w64, .w96], kd := .V, ka := (vs f), mods := 0x002, rep := .a, vsRep := true }
def rowVcmpF32 (f : Fields) : Row :=
  { opc := 0x63, fn := 0x00, lens := [.w64, .w96], kd := .V, ka := .V, kb := (vs f), mods := 0x07E, rep := .b, vsRep := true }
def rowVcmpmF32 (f : Fields) : Row :=
  { opc := 0x63, fn := 0x01, lens := [.w64, .w96], kd := .S, ka := .V, kb := (vs f), mods := 0x07E, rep := .b, vsRep := true }
def rowVadd2 (f : Fields) : Row :=
  { opc := 0x64, fn := 0x00, lens := [.w64, .w96], kd := .V, ka := .V, kb := (vs f), mods := 0x01E, rep := .b, vsRep := true }
def rowVmul2 (f : Fields) : Row :=
  { opc := 0x64, fn := 0x01, lens := [.w64, .w96], kd := .V, ka := .V, kb := (vs f), mods := 0x01E, rep := .b, vsRep := true }
def rowVfma2 (f : Fields) : Row :=
  { opc := 0x64, fn := 0x02, lens := [.w64, .w96], kd := .V, ka := .V, kb := .V, kc := (vs f), mods := 0x01E, rep := .c, vsRep := true }
def rowVcvt (f : Fields) : Row :=
  { opc := 0x68, fn := 0x00, lens := [.w64, .w96], kd := .V, ka := (vs f), mods := 0x3FE, rep := .a, vsRep := true, bad5 := 6 ≤ f.mf 6 4 || 6 ≤ f.mf 9 7 }
def rowVcvti (f : Fields) : Row :=
  { opc := 0x68, fn := 0x01, lens := [.w64, .w96], kd := .V, ka := (vs f), mods := 0x3FE, rep := .a, vsRep := true, nd := (if f.mf 9 7 = 2 || f.mf 9 7 = 3 then 2 else 1), bad5 := 6 ≤ f.mf 6 4 }
def rowVcvtf (f : Fields) : Row :=
  { opc := 0x68, fn := 0x02, lens := [.w64, .w96], kd := .V, ka := (vs f), mods := 0x3FE, rep := .a, vsRep := true, na := (if f.mf 6 4 = 2 || f.mf 6 4 = 3 then 2 else 1), bad5 := 6 ≤ f.mf 9 7 || (f.m 1 && (f.mf 6 4 = 2 || f.mf 6 4 = 3)) }
def rowVcvtq (f : Fields) : Row :=
  { opc := 0x68, fn := 0x03, lens := [.w64, .w96], kd := .V, ka := (vs f), mods := 0x3FE, rep := .a, vsRep := true, bad5 := f.mf 9 4 = 63 }
def rowVcvtqf (f : Fields) : Row :=
  { opc := 0x68, fn := 0x04, lens := [.w64, .w96], kd := .V, ka := (vs f), mods := 0x3FE, rep := .a, vsRep := true, bad5 := f.mf 9 4 = 63 }
def rowVcvtn (f : Fields) : Row :=
  { opc := 0x68, fn := 0x05, lens := [.w64], kd := .V, ka := .V, kb := .V, mods := 0x3FC, dRole := .both, bad5 := f.mf 6 4 = 0 || 6 ≤ f.mf 6 4 || (f.mf 6 4 ≤ 2 && 0 < f.mf 9 7) || (f.mf 6 4 ≤ 4 && 1 < f.mf 9 7) || 3 < f.mf 9 7 }
def rowVdot8 (f : Fields) : Row :=
  { opc := 0x90, fn := 0x00, lens := [.w64], kd := .V, ka := .V, kb := .V, kc := .V, mods := 0x07E, bad5 := (decide (f.mf 2 1 < 2) != decide (f.mf 4 3 < 2)) || (f.mf 2 1 < 2 && 0 < f.mf 6 5) }
def rowVdot4 (f : Fields) : Row :=
  { opc := 0x90, fn := 0x01, lens := [.w64], kd := .V, ka := .V, kb := .V, kc := .V, mods := 0x07E, bad5 := f.mf 2 1 = 3 || f.mf 4 3 = 3 || (decide (f.mf 2 1 < 2) != decide (f.mf 4 3 < 2)) || (f.mf 2 1 < 2 && 0 < f.mf 6 5) }
def rowVscale (f : Fields) : Row :=
  { opc := 0x90, fn := 0x02, lens := [.w64, .w96], kd := .V, ka := .V, kb := (vs f), mods := 0x01E, rep := .b, vsRep := true }
def rowVqnt (f : Fields) : Row :=
  { opc := 0x91, fn := 0x00, lens := [.w64], kd := .V, ka := .V, kb := .V, kc := .V, mods := 0x1FE, dRole := .both, bad5 := f.mf 4 1 = 0 || 7 < f.mf 4 1 || slotLimit (f.mf 4 1) < f.mf 7 5 }
def rowVdeq (f : Fields) : Row :=
  { opc := 0x91, fn := 0x01, lens := [.w64, .w96], kd := .V, ka := .V, kb := (vs f), mods := 0x1FE, rep := .b, vsRep := true, bad5 := f.mf 5 2 = 0 || 7 < f.mf 5 2 || slotLimit (f.mf 5 2) < f.mf 8 6 }
def rowVhad (f : Fields) : Row :=
  { opc := 0x92, fn := 0x00, lens := [.w64], kd := .V, ka := .V, kb := .SP, mods := 0x002, nd := 4, na := 4, bad14 := if f.d.toNat % 4 ≠ 0 then 1 else if f.a.toNat % 4 ≠ 0 then 2 else 0 }
def rowVpk8 (f : Fields) : Row :=
  { opc := 0x93, fn := 0x00, lens := [.w64, .w96], kd := .V, ka := .V, kb := (vs f), mods := 0x00E, rep := .b, vsRep := true }
def rowVupk8 (f : Fields) : Row :=
  { opc := 0x93, fn := 0x01, lens := [.w64, .w96], kd := .V, ka := .V, kb := (vs f), mods := 0x006, rep := .b, vsRep := true }
def rowVpk4 (f : Fields) : Row :=
  { opc := 0x93, fn := 0x02, lens := [.w64, .w96], kd := .V, ka := .V, kb := (vs f), mods := 0x00E, rep := .b, vsRep := true }
def rowVupk4 (f : Fields) : Row :=
  { opc := 0x93, fn := 0x03, lens := [.w64, .w96], kd := .V, ka := .V, kb := (vs f), mods := 0x006, rep := .b, vsRep := true }
def rowVamax (f : Fields) : Row :=
  { opc := 0x94, fn := 0x00, lens := [.w64], kd := .V, ka := .V }
def rowVsc8 (f : Fields) : Row :=
  { opc := 0x94, fn := 0x01, lens := [.w64], kd := .V, ka := .V, mods := 0x01E, bad5 := f.mf 4 1 < 3 || 6 < f.mf 4 1 }
def rowVshfl (f : Fields) : Row :=
  { opc := 0xA0, fn := 0x00, lens := [.w64, .w96], kd := .V, ka := .V, kb := (vs f), mods := 0x01E, rep := .b, vsRep := true, bad5 := 5 ≤ f.mf 4 2 }
def rowVshup (f : Fields) : Row :=
  { opc := 0xA0, fn := 0x01, lens := [.w64, .w96], kd := .V, ka := .V, kb := (vs f), mods := 0x01E, rep := .b, vsRep := true, bad5 := 5 ≤ f.mf 4 2 }
def rowVshdn (f : Fields) : Row :=
  { opc := 0xA0, fn := 0x02, lens := [.w64, .w96], kd := .V, ka := .V, kb := (vs f), mods := 0x01E, rep := .b, vsRep := true, bad5 := 5 ≤ f.mf 4 2 }
def rowVshxor (f : Fields) : Row :=
  { opc := 0xA0, fn := 0x03, lens := [.w64, .w96], kd := .V, ka := .V, kb := (vs f), mods := 0x01E, rep := .b, vsRep := true, bad5 := 5 ≤ f.mf 4 2 }
def rowVbcast (f : Fields) : Row :=
  { opc := 0xA0, fn := 0x04, lens := [.w64, .w96], kd := .V, ka := .V, kb := .S, mods := 0x01C, rep := .b, bad5 := 5 ≤ f.mf 4 2 }
def rowVballot (f : Fields) : Row :=
  { opc := 0xA1, fn := 0x00, lens := [.w64], kd := .S, ka := .V }
def rowVpopm (f : Fields) : Row :=
  { opc := 0xA1, fn := 0x01, lens := [.w64], kd := .V, ka := .S, mods := 0x004 }
def rowVprefix (f : Fields) : Row :=
  { opc := 0xA1, fn := 0x02, lens := [.w64], kd := .V, ka := .V, mods := 0x1FC, bad5 := f.mf 7 6 = 3 || (f.m 5 && f.m 4) || (0 < f.mf 3 2 && !(f.m 5 && f.mf 7 6 = 0)) }
def rowVreduce (f : Fields) : Row :=
  { opc := 0xA1, fn := 0x03, lens := [.w64], kd := .S, ka := .V, mods := 0x0FC, bad5 := f.mf 7 6 = 3 || (f.m 5 && f.m 4) || (0 < f.mf 3 2 && !(f.m 5 && f.mf 7 6 = 0)) }
def rowQxch (f : Fields) : Row :=
  { opc := 0xA2, fn := 0x00, lens := [.w64], kd := .V, ka := .V, mods := 0x03C, bad5 := 0 < f.mf 5 4 && f.mf 3 2 ≠ 3 }
def rowVld (f : Fields) : Row :=
  { opc := 0xB0, fn := 0x00, lens := [.w64, .w96], kd := .V, ka := .SP, kb := .V, kc := .U8, mods := 0x3FE, rep := .c, nd := (szRegs f), bad5 := f.mf 5 3 = 7 || (!f.m 6 && 0 < f.mf 9 7) }
def rowVldrb (f : Fields) : Row :=
  { opc := 0xB0, fn := 0x01, lens := [.w64, .w96], kd := .V, ka := .SP, kb := .V, kc := .U8, mods := 0x3FE, rep := .c, nd := (szRegs f), bad5 := f.mf 5 3 = 7 || (!f.m 6 && 0 < f.mf 9 7) || f.m 6 }
def rowSld (f : Fields) : Row :=
  { opc := 0xB0, fn := 0x02, lens := [.w64, .w96], kd := (ss f), ka := .SP, kb := .S, kc := .U8, mods := 0x3FE, rep := .c, bad5 := f.mf 5 3 = 7 || (!f.m 6 && 0 < f.mf 9 7) }
def rowVldbc (f : Fields) : Row :=
  { opc := 0xB0, fn := 0x03, lens := [.w64, .w96], kd := .V, ka := .SP, kb := .S, kc := .U8, mods := 0x3FE, rep := .c, nd := (szRegs f), bad5 := f.mf 5 3 = 7 || (!f.m 6 && 0 < f.mf 9 7) }
def rowVldscr (f : Fields) : Row :=
  { opc := 0xB0, fn := 0x04, lens := [.w64, .w96], kd := .V, ka := .S, kb := .V, kc := .U8, mods := 0x3FE, rep := .c, nd := (szRegs f), bad5 := f.mf 5 3 = 7 || (!f.m 6 && 0 < f.mf 9 7) }
def rowVldcw (f : Fields) : Row :=
  { opc := 0xB0, fn := 0x05, lens := [.w64, .w96], kd := .V, ka := .S, kb := .V, kc := .U8, mods := 0x3FE, rep := .c, nd := (szRegs f), bad5 := f.mf 5 3 = 7 || (!f.m 6 && 0 < f.mf 9 7) }
def rowVst (f : Fields) : Row :=
  { opc := 0xB1, fn := 0x00, lens := [.w64, .w96], kd := .V, ka := .SP, kb := .V, kc := .U8, mods := 0x3FE, rep := .c, dRole := .src, nd := (szRegs f), bad5 := f.mf 5 3 = 7 || (!f.m 6 && 0 < f.mf 9 7) || f.mf 5 3 = 1 || f.mf 5 3 = 3 || 6 ≤ f.mf 9 7 }
def rowSst (f : Fields) : Row :=
  { opc := 0xB1, fn := 0x01, lens := [.w64, .w96], kd := (ss f), ka := .SP, kb := .S, kc := .U8, mods := 0x3FE, rep := .c, dRole := .src, bad5 := f.mf 5 3 = 7 || (!f.m 6 && 0 < f.mf 9 7) || f.mf 5 3 = 1 || f.mf 5 3 = 3 || 6 ≤ f.mf 9 7 }
def rowVstscr (f : Fields) : Row :=
  { opc := 0xB1, fn := 0x02, lens := [.w64, .w96], kd := .V, ka := .S, kb := .V, kc := .U8, mods := 0x3FE, rep := .c, dRole := .src, nd := (szRegs f), bad5 := f.mf 5 3 = 7 || (!f.m 6 && 0 < f.mf 9 7) || f.mf 5 3 = 1 || f.mf 5 3 = 3 || 6 ≤ f.mf 9 7 }
def rowVstcw (f : Fields) : Row :=
  { opc := 0xB1, fn := 0x03, lens := [.w64, .w96], kd := .V, ka := .S, kb := .V, kc := .U8, mods := 0x3FE, rep := .c, dRole := .src, nd := (szRegs f), bad5 := f.mf 5 3 = 7 || (!f.m 6 && 0 < f.mf 9 7) || f.mf 5 3 = 1 || f.mf 5 3 = 3 || 6 ≤ f.mf 9 7 }
def rowVstmc (f : Fields) : Row :=
  { opc := 0xB1, fn := 0x04, lens := [.w64], kd := .V, ka := .SP, kb := .V, kc := .S, mods := 0x3FE, dRole := .src, nd := (szRegs f), bad5 := f.mf 5 3 = 7 || f.mf 5 3 = 1 || f.mf 5 3 = 3 || (!f.m 6 && 0 < f.mf 9 7) || (f.m 6 && f.mf 9 7 ≠ 4 && f.mf 9 7 ≠ 5) }
def rowWcfl (f : Fields) : Row :=
  { opc := 0xB2, fn := 0x00, lens := [.w64], ka := .S, mods := 0x002, bad14 := if f.m 1 && f.a ≠ 192#8 then 2 else 0 }
def rowRbinv (f : Fields) : Row :=
  { opc := 0xB2, fn := 0x01, lens := [.w64] }
def rowVpref (f : Fields) : Row :=
  { opc := 0xB2, fn := 0x02, lens := [.w64, .w96], ka := .SP, kb := .V, kc := .U8, mods := 0x3FE, rep := .c, bad5 := f.mf 5 3 = 7 || (!f.m 6 && 0 < f.mf 9 7) || f.m 6 || 0 < f.mf 5 3 }
def rowVldp (f : Fields) : Row :=
  { opc := 0xB3, fn := 0x00, lens := [.w64, .w96], kd := .V, ka := .V, kc := .U8, mods := 0x3FE, rep := .c, nd := (szRegs f), bad5 := f.mf 5 3 = 7 || (!f.m 6 && 0 < f.mf 9 7) || f.m 6 || 0 < f.mf 2 1 }
def rowVstp (f : Fields) : Row :=
  { opc := 0xB3, fn := 0x01, lens := [.w64, .w96], kd := .V, ka := .V, kc := .U8, mods := 0x3FE, rep := .c, dRole := .src, nd := (szRegs f), bad5 := f.mf 5 3 = 7 || (!f.m 6 && 0 < f.mf 9 7) || f.mf 5 3 = 1 || f.mf 5 3 = 3 || 6 ≤ f.mf 9 7 || f.m 6 || 0 < f.mf 2 1 }
def rowVatom (f : Fields) : Row :=
  { opc := 0xB8, fn := 0x00, lens := [.w64], kd := .V, ka := .SP, kb := .V, kc := .V, mods := 0x3FE, bad5 := (f.mf 6 5 = 0 && 0 < f.mf 9 7) || (6 ≤ f.mf 9 7 && f.mf 6 5 ≠ 1 && f.mf 6 5 ≠ 3) || 12 ≤ f.mf 4 1 }
def rowVcas (f : Fields) : Row :=
  { opc := 0xB8, fn := 0x01, lens := [.w64], kd := .V, ka := .SP, kb := .V, kc := .V, mods := 0x3FE, dRole := .both, bad5 := (f.mf 6 5 = 0 && 0 < f.mf 9 7) || (6 ≤ f.mf 9 7 && f.mf 6 5 ≠ 1 && f.mf 6 5 ≠ 3) || 0 < f.mf 4 1 }
def rowSatom (f : Fields) : Row :=
  { opc := 0xB8, fn := 0x02, lens := [.w64, .w96], kd := .S, ka := .SP, kb := .S, kc := .S, mods := 0x3FE, rep := .c, bad5 := (f.mf 6 5 = 0 && 0 < f.mf 9 7) || (6 ≤ f.mf 9 7 && f.mf 6 5 ≠ 1 && f.mf 6 5 ≠ 3) || 12 ≤ f.mf 4 1 }
def rowScas (f : Fields) : Row :=
  { opc := 0xB8, fn := 0x03, lens := [.w64], kd := .S, ka := .SP, kb := .S, kc := .S, mods := 0x3FE, dRole := .both, bad5 := (f.mf 6 5 = 0 && 0 < f.mf 9 7) || (6 ≤ f.mf 9 7 && f.mf 6 5 ≠ 1 && f.mf 6 5 ≠ 3) || 0 < f.mf 4 1 }
def rowVred (f : Fields) : Row :=
  { opc := 0xB8, fn := 0x04, lens := [.w64], ka := .SP, kb := .V, kc := .V, mods := 0x3FE, bad5 := (f.mf 6 5 = 0 && 0 < f.mf 9 7) || (6 ≤ f.mf 9 7 && f.mf 6 5 ≠ 1 && f.mf 6 5 ≠ 3) || 12 ≤ f.mf 4 1 || f.mf 6 5 = 1 || f.mf 6 5 = 3 }
def rowVatom64 (f : Fields) : Row :=
  { opc := 0xB9, fn := 0x00, lens := [.w64], kd := .V, ka := .SP, kb := .V, kc := .V, mods := 0x3FE, nd := 2, nc := 2, bad5 := (f.mf 6 5 = 0 && 0 < f.mf 9 7) || (6 ≤ f.mf 9 7 && f.mf 6 5 ≠ 1 && f.mf 6 5 ≠ 3) || 12 ≤ f.mf 4 1 || f.mf 4 1 = 9 }
def rowVcas64 (f : Fields) : Row :=
  { opc := 0xB9, fn := 0x01, lens := [.w64], kd := .V, ka := .SP, kb := .V, kc := .V, mods := 0x3FE, dRole := .both, nd := 2, nc := 2, bad5 := (f.mf 6 5 = 0 && 0 < f.mf 9 7) || (6 ≤ f.mf 9 7 && f.mf 6 5 ≠ 1 && f.mf 6 5 ≠ 3) || 0 < f.mf 4 1 }
def rowWwait (f : Fields) : Row :=
  { opc := 0xBC, fn := 0x00, lens := [.w64, .w96], kd := .V, ka := .SP, kb := .V, kc := (vs f), mods := 0x1FE, rep := .c, vsRep := true, dRole := .both, bad5 := 6 ≤ f.mf 4 2 || 6 ≤ f.mf 8 6 || (!f.m 5 && 0 < f.mf 8 6) }
def rowWwaitt (f : Fields) : Row :=
  { opc := 0xBC, fn := 0x01, lens := [.w128], kd := .V, ka := .SP, kb := .V, kc := .V, mods := 0x1FC, immBits := 32, dRole := .both, bad5 := 6 ≤ f.mf 4 2 || 6 ≤ f.mf 8 6 || (!f.m 5 && 0 < f.mf 8 6) }
def rowWwake (f : Fields) : Row :=
  { opc := 0xBC, fn := 0x02, lens := [.w64], ka := .SP, kb := .V }
def rowFaddt (f : Fields) : Row :=
  { opc := 0xBC, fn := 0x03, lens := [.w64, .w96], kd := .S, ka := .SP, kb := .S, kc := .S, mods := 0x3E0, rep := .c, bad5 := (f.mf 6 5 = 0 && 0 < f.mf 9 7) || (6 ≤ f.mf 9 7 && f.mf 6 5 ≠ 1 && f.mf 6 5 ≠ 3) }
def rowSleep (f : Fields) : Row :=
  { opc := 0xBC, fn := 0x04, lens := [.w64, .w96], ka := .S, rep := .a }
def rowWcancel (f : Fields) : Row :=
  { opc := 0xBC, fn := 0x05, lens := [.w64], ka := .SP }
def rowFence (f : Fields) : Row :=
  { opc := 0xC0, fn := 0x00, lens := [.w64], mods := 0x00E, bad5 := 6 ≤ f.mf 3 1 }
def rowFenceh (f : Fields) : Row :=
  { opc := 0xC0, fn := 0x01, lens := [.w64] }
def rowFencep (f : Fields) : Row :=
  { opc := 0xC0, fn := 0x02, lens := [.w64], ka := .S }
def rowXfer (f : Fields) : Row :=
  { opc := 0xC8, fn := 0x00, lens := [.w128], kd := .V, ka := .SP, kb := .V, kc := .V, ke := .SP, kh := .V, mods := 0x0FE, nh := (if f.m 1 then 2 else 1), bad5 := (f.mf 4 3 = 0 && 0 < f.mf 7 5) || (6 ≤ f.mf 7 5 && (f.mf 4 3 = 0 || f.mf 4 3 = 2)) }
def rowVldf (f : Fields) : Row :=
  { opc := 0xC9, fn := 0x00, lens := [.w64, .w96], kd := .V, ka := .SP, kb := .V, kc := .U8, mods := 0x3C2, rep := .c, nd := (if f.m 1 then 2 else 1), bad5 := !f.m 6 && 0 < f.mf 9 7 }
def rowSldf (f : Fields) : Row :=
  { opc := 0xC9, fn := 0x01, lens := [.w64, .w96], kd := (if f.m 1 then .SP else .S), ka := .SP, kb := .S, kc := .U8, mods := 0x3C2, rep := .c, bad5 := !f.m 6 && 0 < f.mf 9 7 }
def rowFtot (f : Fields) : Row :=
  { opc := 0xCA, fn := 0x00, lens := [.w64], kd := .SP, ka := .S, mods := 0x006 }
def rowFdecl (f : Fields) : Row :=
  { opc := 0xCB, fn := 0x00, lens := [.w64], kd := .S, ka := .SP, sup := true }
def rowFdrop (f : Fields) : Row :=
  { opc := 0xCB, fn := 0x01, lens := [.w64], ka := .S, sup := true }
def rowFattr (f : Fields) : Row :=
  { opc := 0xCB, fn := 0x02, lens := [.w64], ka := .S, kb := .SP, kc := .S, sup := true }
def rowFgup (f : Fields) : Row :=
  { opc := 0xCB, fn := 0x03, lens := [.w64], ka := .S, kb := .S, sup := true }
def rowMma (f : Fields) : Row :=
  { opc := 0xD0, fn := 0x00, lens := [.w64], kd := .U8, ka := .V, kb := .V, kc := .V, guard := true, mods := 0x20E, bad14 := if f.a.toNat % 8 ≠ 0 then 2 else if f.b.toNat % 8 ≠ 0 then 3 else 0 }
def rowMmac (f : Fields) : Row :=
  { opc := 0xD0, fn := 0x01, lens := [.w64], kd := .U8, ka := .SP, kb := .SP, kc := .V, guard := true, mods := 0x208 }
def rowMopf (f : Fields) : Row :=
  { opc := 0xD1, fn := 0x00, lens := [.w64] }
def rowMwait (f : Fields) : Row :=
  { opc := 0xD1, fn := 0x01, lens := [.w64], kd := (if f.m 1 then .no else .U8), mods := 0x002 }
def rowMzero (f : Fields) : Row :=
  { opc := 0xD2, fn := 0x00, lens := [.w64], kd := .U8, mods := 0x07E }
def rowMlda (f : Fields) : Row :=
  { opc := 0xD2, fn := 0x01, lens := [.w64], kd := .U8, ka := .S, mods := 0x07E }
def rowMsta (f : Fields) : Row :=
  { opc := 0xD2, fn := 0x02, lens := [.w64], kd := .U8, ka := .S, mods := 0x07E }
def rowMrd (f : Fields) : Row :=
  { opc := 0xD2, fn := 0x03, lens := [.w64], kd := .V, ka := .U8, kb := .S, mods := 0x03E, nd := (f.mf 5 1 + 1), run := true }
def rowMwr (f : Fields) : Row :=
  { opc := 0xD2, fn := 0x04, lens := [.w64], kd := .U8, ka := .V, kb := .S, mods := 0x03E, na := (f.mf 5 1 + 1), run := true }
def rowMspill (f : Fields) : Row :=
  { opc := 0xD3, fn := 0x00, lens := [.w64], kd := .U8, ka := .SP, sup := true, bad14 := if 64 ≤ f.d.toNat then 1 else 0 }
def rowMfill (f : Fields) : Row :=
  { opc := 0xD3, fn := 0x01, lens := [.w64], kd := .U8, ka := .SP, sup := true, bad14 := if 64 ≤ f.d.toNat then 1 else 0 }
def rowMtag (f : Fields) : Row :=
  { opc := 0xD3, fn := 0x02, lens := [.w64], kd := .U8, ka := .S, sup := true, bad14 := if 64 ≤ f.d.toNat then 1 else 0 }
def rowTcopy (f : Fields) : Row :=
  { opc := 0xE0, fn := 0x00, lens := [.w128], ka := .SP, kb := .SQ, kc := .S, ke := .S, kh := (if f.m 1 then .no else .U8), guard := true, mods := 0x206, bad5 := f.m 2 && f.m 1, bad14 := if !f.m 1 && 15 < f.h.toNat then 6 else 0 }
def rowTcopys (f : Fields) : Row :=
  { opc := 0xE0, fn := 0x01, lens := [.w128], ka := .SP, kb := .SQ, kc := .S, ke := .S, kh := (if f.m 1 then .no else .U8), guard := true, mods := 0x206, bad5 := f.m 2 && f.m 1, bad14 := if !f.m 1 && 15 < f.h.toNat then 6 else 0 }
def rowGather (f : Fields) : Row :=
  { opc := 0xE0, fn := 0x02, lens := [.w128], ka := .SP, kb := .V, ke := .S, kh := (if f.m 1 then .no else .U8), guard := true, mods := 0x206, bad5 := f.m 2 && f.m 1, bad14 := if !f.m 1 && 15 < f.h.toNat then 6 else 0 }
def rowTrf (f : Fields) : Row :=
  { opc := 0xE1, fn := 0x00, lens := [.w64], ka := .SP }
def rowBclose (f : Fields) : Row :=
  { opc := 0xE1, fn := 0x01, lens := [.w64], kd := .S }
def rowBwait (f : Fields) : Row :=
  { opc := 0xE1, fn := 0x02, lens := [.w64, .w96], ka := .S, rep := .a }
def rowAbinit (f : Fields) : Row :=
  { opc := 0xE2, fn := 0x00, lens := [.w64, .w96], ka := .U8, kb := .S, rep := .b, bad14 := if 15 < f.a.toNat then 2 else 0 }
def rowAbarv (f : Fields) : Row :=
  { opc := 0xE2, fn := 0x01, lens := [.w64], ka := .U8, bad14 := if 15 < f.a.toNat then 2 else 0 }
def rowAbexp (f : Fields) : Row :=
  { opc := 0xE2, fn := 0x02, lens := [.w64, .w96], ka := .U8, kb := .S, mods := 0x002, rep := .b, bad14 := if 15 < f.a.toNat then 2 else 0 }
def rowAbwait (f : Fields) : Row :=
  { opc := 0xE2, fn := 0x03, lens := [.w64], ka := .U8, kb := .S, bad14 := if 15 < f.a.toNat then 2 else 0 }
def rowGset (f : Fields) : Row :=
  { opc := 0xE3, fn := 0x00, lens := [.w64], ka := .GN, kb := (if f.m 1 then .no else .S), mods := 0x002 }
def rowBar (f : Fields) : Row :=
  { opc := 0xE4, fn := 0x00, lens := [.w64] }
def rowBarc (f : Fields) : Row :=
  { opc := 0xE4, fn := 0x01, lens := [.w64] }
def rowBarh (f : Fields) : Row :=
  { opc := 0xE4, fn := 0x02, lens := [.w64], ka := .U8, bad14 := if 2 < f.a.toNat then 2 else 0 }
def rowColl (f : Fields) : Row :=
  { opc := 0xE8, fn := 0x00, lens := [.w64], ka := .SQ, kb := .U8, guard := true, mods := 0x200, bad14 := if 15 < f.b.toNat then 3 else 0 }
def rowCrem (f : Fields) : Row :=
  { opc := 0xE8, fn := 0x01, lens := [.w64], ka := .SQ, kb := .U8, guard := true, mods := 0x204, bad14 := if 15 < f.b.toNat then 3 else 0 }
def rowTrpost (f : Fields) : Row :=
  { opc := 0xE9, fn := 0x00, lens := [.w64], ka := .SP, kb := .S }
def rowTrcan (f : Fields) : Row :=
  { opc := 0xE9, fn := 0x01, lens := [.w64], ka := .SP }
def rowEcinc (f : Fields) : Row :=
  { opc := 0xEA, fn := 0x00, lens := [.w64, .w96], kd := .S, ka := .S, kb := .S, rep := .b }
def rowEcdec (f : Fields) : Row :=
  { opc := 0xEA, fn := 0x01, lens := [.w64, .w96], kd := .S, ka := .S, kb := .S, rep := .b }
def rowEcrd (f : Fields) : Row :=
  { opc := 0xEA, fn := 0x02, lens := [.w64], kd := .S, ka := .S }
def rowEcset (f : Fields) : Row :=
  { opc := 0xEA, fn := 0x03, lens := [.w64, .w96], ka := .S, kb := .S, sup := true, mods := 0x002, rep := .b }
def rowCqpost (f : Fields) : Row :=
  { opc := 0xEB, fn := 0x00, lens := [.w64], ka := .SP, kb := .S, mods := 0x002 }
def rowCqpoll (f : Fields) : Row :=
  { opc := 0xEB, fn := 0x01, lens := [.w64], kd := .S, ka := .S, mods := 0x002 }
def rowTqenq (f : Fields) : Row :=
  { opc := 0xEC, fn := 0x00, lens := [.w64], ka := .S, kb := .SP, mods := 0x006 }
def rowTqdeq (f : Fields) : Row :=
  { opc := 0xEC, fn := 0x01, lens := [.w64], kd := .S, ka := .S, kb := .S }
def rowTqtry (f : Fields) : Row :=
  { opc := 0xEC, fn := 0x02, lens := [.w64], kd := .S, ka := .S, kb := .S }
def rowTqdone (f : Fields) : Row :=
  { opc := 0xEC, fn := 0x03, lens := [.w64], ka := .S }
def rowTqatt (f : Fields) : Row :=
  { opc := 0xEC, fn := 0x04, lens := [.w64], ka := .S, kb := .SP, kc := .S, mods := 0x00E }
def rowTqstat (f : Fields) : Row :=
  { opc := 0xEC, fn := 0x05, lens := [.w64], kd := .S, ka := .S, mods := 0x002 }
def rowMigr (f : Fields) : Row :=
  { opc := 0xF0, fn := 0x00, lens := [.w128], ka := .SP, kb := .V, kc := .S, ke := .S, kh := .V, mods := 0x00E, xmods := true, hRole := .dst }
def rowMret (f : Fields) : Row :=
  { opc := 0xF0, fn := 0x01, lens := [.w64] }
def rowMjoin (f : Fields) : Row :=
  { opc := 0xF0, fn := 0x02, lens := [.w64], ka := .V }
def rowMowner (f : Fields) : Row :=
  { opc := 0xF0, fn := 0x03, lens := [.w64], kd := .V, ka := .SP, kb := .V, mods := 0x006 }
def rowMtest (f : Fields) : Row :=
  { opc := 0xF0, fn := 0x04, lens := [.w64], kd := .S, ka := .V, aRole := .peek, bad14 := if f.wa then 2 else 0 }
def rowSysrd (f : Fields) : Row :=
  { opc := 0xF8, fn := 0x00, lens := [.w96], kd := (if f.m 1 then .V else if sysWide (f.imm.toNat % 4096) then .SP else .S), mods := 0x002, immBits := 12, nd := (if sysWide (f.imm.toNat % 4096) then 2 else 1), bad13 := sysrdBad f }
def rowSyswr (f : Fields) : Row :=
  { opc := 0xF8, fn := 0x01, lens := [.w96], ka := (if f.m 1 then .SP else .S), mods := 0x002, immBits := 12, bad13 := syswrBad f, sup := f.imm.toNat = 8 }
def rowTrap (f : Fields) : Row :=
  { opc := 0xF9, fn := 0x00, lens := [.w96], immBits := 32 }
def rowRft (f : Fields) : Row :=
  { opc := 0xF9, fn := 0x01, lens := [.w64] }
def rowBrk (f : Fields) : Row :=
  { opc := 0xF9, fn := 0x02, lens := [.w64] }
def rowScall (f : Fields) : Row :=
  { opc := 0xF9, fn := 0x03, lens := [.w96], immBits := 32 }
def rowSret (f : Fields) : Row :=
  { opc := 0xF9, fn := 0x04, lens := [.w64], sup := true }
def rowCka (f : Fields) : Row :=
  { opc := 0xFA, fn := 0x00, lens := [.w64], ka := (if f.m 1 then (if f.m 2 then .SP else .S) else .V), mods := 0x006, na := (if f.m 2 then 2 else 1) }
def rowChk (f : Fields) : Row :=
  { opc := 0xFA, fn := 0x01, lens := [.w64], ka := .SP, mods := 0x002 }
def rowRndk (f : Fields) : Row :=
  { opc := 0xFB, fn := 0x00, lens := [.w64, .w96], kd := .V, ka := .V, kb := (vs f), mods := 0x002, rep := .b, vsRep := true }
def rowSrndk (f : Fields) : Row :=
  { opc := 0xFB, fn := 0x01, lens := [.w64, .w96], kd := .S, ka := .S, kb := .S, rep := .b }
def rowTlbinv (f : Fields) : Row :=
  { opc := 0xFC, fn := 0x00, lens := [.w64], ka := .SP, kb := .S, sup := true }
def rowTlbsync (f : Fields) : Row :=
  { opc := 0xFC, fn := 0x01, lens := [.w64], sup := true }
def rowIcinv (f : Fields) : Row :=
  { opc := 0xFD, fn := 0x00, lens := [.w64], ka := .S, sup := true }
def rowEinj (f : Fields) : Row :=
  { opc := 0xFE, fn := 0x00, lens := [.w64], ka := .SP, kb := .S, sup := true }
def rowEscrub (f : Fields) : Row :=
  { opc := 0xFE, fn := 0x01, lens := [.w64], ka := .SP, kb := .S, sup := true }

/-- The fields of a cell instruction with its row; none for a step that is not a cell. -/
def Instr.row : Instr → Option (Fields × Row)
  | .nop f => some (f, rowNop f)
  | .exit f => some (f, rowExit f)
  | .exitm f => some (f, rowExitm f)
  | .br f => some (f, rowBr f)
  | .bz f => some (f, rowBz f)
  | .bnz f => some (f, rowBnz f)
  | .bmz f => some (f, rowBmz f)
  | .bmnz f => some (f, rowBmnz f)
  | .bvany f => some (f, rowBvany f)
  | .bvall f => some (f, rowBvall f)
  | .bdiv f => some (f, rowBdiv f)
  | .bdivw f => some (f, rowBdivw f)
  | .bdivs f => some (f, rowBdivs f)
  | .join f => some (f, rowJoin f)
  | .joinw f => some (f, rowJoinw f)
  | .jmp f => some (f, rowJmp f)
  | .jmpi f => some (f, rowJmpi f)
  | .call f => some (f, rowCall f)
  | .calli f => some (f, rowCalli f)
  | .ret f => some (f, rowRet f)
  | .sadd f => some (f, rowSadd f)
  | .ssub f => some (f, rowSsub f)
  | .smul f => some (f, rowSmul f)
  | .smulh f => some (f, rowSmulh f)
  | .sand f => some (f, rowSand f)
  | .sor f => some (f, rowSor f)
  | .sxor f => some (f, rowSxor f)
  | .sshl f => some (f, rowSshl f)
  | .sshr f => some (f, rowSshr f)
  | .smin f => some (f, rowSmin f)
  | .smax f => some (f, rowSmax f)
  | .sdiv f => some (f, rowSdiv f)
  | .srem f => some (f, rowSrem f)
  | .smov f => some (f, rowSmov f)
  | .snot f => some (f, rowSnot f)
  | .sclz f => some (f, rowSclz f)
  | .spopc f => some (f, rowSpopc f)
  | .sbrev f => some (f, rowSbrev f)
  | .sext f => some (f, rowSext f)
  | .scmp f => some (f, rowScmp f)
  | .ssel f => some (f, rowSsel f)
  | .sadd64 f => some (f, rowSadd64 f)
  | .ssub64 f => some (f, rowSsub64 f)
  | .smul64 f => some (f, rowSmul64 f)
  | .sshl64 f => some (f, rowSshl64 f)
  | .sshr64 f => some (f, rowSshr64 f)
  | .smov64 f => some (f, rowSmov64 f)
  | .sbfe f => some (f, rowSbfe f)
  | .sbfi f => some (f, rowSbfi f)
  | .slea f => some (f, rowSlea f)
  | .vadd f => some (f, rowVadd f)
  | .vsub f => some (f, rowVsub f)
  | .vmul f => some (f, rowVmul f)
  | .vmulh f => some (f, rowVmulh f)
  | .vand f => some (f, rowVand f)
  | .vor f => some (f, rowVor f)
  | .vxor f => some (f, rowVxor f)
  | .vshl f => some (f, rowVshl f)
  | .vshr f => some (f, rowVshr f)
  | .vmin f => some (f, rowVmin f)
  | .vmax f => some (f, rowVmax f)
  | .vabsd f => some (f, rowVabsd f)
  | .vadds f => some (f, rowVadds f)
  | .vsubs f => some (f, rowVsubs f)
  | .vmad f => some (f, rowVmad f)
  | .vsel f => some (f, rowVsel f)
  | .vbfe f => some (f, rowVbfe f)
  | .vbfi f => some (f, rowVbfi f)
  | .vmov f => some (f, rowVmov f)
  | .vnot f => some (f, rowVnot f)
  | .vneg f => some (f, rowVneg f)
  | .vabs f => some (f, rowVabs f)
  | .vclz f => some (f, rowVclz f)
  | .vpopc f => some (f, rowVpopc f)
  | .vbrev f => some (f, rowVbrev f)
  | .vext f => some (f, rowVext f)
  | .vcmp f => some (f, rowVcmp f)
  | .vcmpm f => some (f, rowVcmpm f)
  | .vadd64 f => some (f, rowVadd64 f)
  | .vmulw f => some (f, rowVmulw f)
  | .vaddF32 f => some (f, rowVaddF32 f)
  | .vsubF32 f => some (f, rowVsubF32 f)
  | .vmulF32 f => some (f, rowVmulF32 f)
  | .vminF32 f => some (f, rowVminF32 f)
  | .vmaxF32 f => some (f, rowVmaxF32 f)
  | .vdiv f => some (f, rowVdiv f)
  | .vfma f => some (f, rowVfma f)
  | .vfms f => some (f, rowVfms f)
  | .vabsF32 f => some (f, rowVabsF32 f)
  | .vnegF32 f => some (f, rowVnegF32 f)
  | .vsqrt f => some (f, rowVsqrt f)
  | .vrcp f => some (f, rowVrcp f)
  | .vrsq f => some (f, rowVrsq f)
  | .vexp2 f => some (f, rowVexp2 f)
  | .vlog2 f => some (f, rowVlog2 f)
  | .vrnd f => some (f, rowVrnd f)
  | .vclass f => some (f, rowVclass f)
  | .vcmpF32 f => some (f, rowVcmpF32 f)
  | .vcmpmF32 f => some (f, rowVcmpmF32 f)
  | .vadd2 f => some (f, rowVadd2 f)
  | .vmul2 f => some (f, rowVmul2 f)
  | .vfma2 f => some (f, rowVfma2 f)
  | .vcvt f => some (f, rowVcvt f)
  | .vcvti f => some (f, rowVcvti f)
  | .vcvtf f => some (f, rowVcvtf f)
  | .vcvtq f => some (f, rowVcvtq f)
  | .vcvtqf f => some (f, rowVcvtqf f)
  | .vcvtn f => some (f, rowVcvtn f)
  | .vdot8 f => some (f, rowVdot8 f)
  | .vdot4 f => some (f, rowVdot4 f)
  | .vscale f => some (f, rowVscale f)
  | .vqnt f => some (f, rowVqnt f)
  | .vdeq f => some (f, rowVdeq f)
  | .vhad f => some (f, rowVhad f)
  | .vpk8 f => some (f, rowVpk8 f)
  | .vupk8 f => some (f, rowVupk8 f)
  | .vpk4 f => some (f, rowVpk4 f)
  | .vupk4 f => some (f, rowVupk4 f)
  | .vamax f => some (f, rowVamax f)
  | .vsc8 f => some (f, rowVsc8 f)
  | .vshfl f => some (f, rowVshfl f)
  | .vshup f => some (f, rowVshup f)
  | .vshdn f => some (f, rowVshdn f)
  | .vshxor f => some (f, rowVshxor f)
  | .vbcast f => some (f, rowVbcast f)
  | .vballot f => some (f, rowVballot f)
  | .vpopm f => some (f, rowVpopm f)
  | .vprefix f => some (f, rowVprefix f)
  | .vreduce f => some (f, rowVreduce f)
  | .qxch f => some (f, rowQxch f)
  | .vld f => some (f, rowVld f)
  | .vldrb f => some (f, rowVldrb f)
  | .sld f => some (f, rowSld f)
  | .vldbc f => some (f, rowVldbc f)
  | .vldscr f => some (f, rowVldscr f)
  | .vldcw f => some (f, rowVldcw f)
  | .vst f => some (f, rowVst f)
  | .sst f => some (f, rowSst f)
  | .vstscr f => some (f, rowVstscr f)
  | .vstcw f => some (f, rowVstcw f)
  | .vstmc f => some (f, rowVstmc f)
  | .wcfl f => some (f, rowWcfl f)
  | .rbinv f => some (f, rowRbinv f)
  | .vpref f => some (f, rowVpref f)
  | .vldp f => some (f, rowVldp f)
  | .vstp f => some (f, rowVstp f)
  | .vatom f => some (f, rowVatom f)
  | .vcas f => some (f, rowVcas f)
  | .satom f => some (f, rowSatom f)
  | .scas f => some (f, rowScas f)
  | .vred f => some (f, rowVred f)
  | .vatom64 f => some (f, rowVatom64 f)
  | .vcas64 f => some (f, rowVcas64 f)
  | .wwait f => some (f, rowWwait f)
  | .wwaitt f => some (f, rowWwaitt f)
  | .wwake f => some (f, rowWwake f)
  | .faddt f => some (f, rowFaddt f)
  | .sleep f => some (f, rowSleep f)
  | .wcancel f => some (f, rowWcancel f)
  | .fence f => some (f, rowFence f)
  | .fenceh f => some (f, rowFenceh f)
  | .fencep f => some (f, rowFencep f)
  | .xfer f => some (f, rowXfer f)
  | .vldf f => some (f, rowVldf f)
  | .sldf f => some (f, rowSldf f)
  | .ftot f => some (f, rowFtot f)
  | .fdecl f => some (f, rowFdecl f)
  | .fdrop f => some (f, rowFdrop f)
  | .fattr f => some (f, rowFattr f)
  | .fgup f => some (f, rowFgup f)
  | .mma f => some (f, rowMma f)
  | .mmac f => some (f, rowMmac f)
  | .mopf f => some (f, rowMopf f)
  | .mwait f => some (f, rowMwait f)
  | .mzero f => some (f, rowMzero f)
  | .mlda f => some (f, rowMlda f)
  | .msta f => some (f, rowMsta f)
  | .mrd f => some (f, rowMrd f)
  | .mwr f => some (f, rowMwr f)
  | .mspill f => some (f, rowMspill f)
  | .mfill f => some (f, rowMfill f)
  | .mtag f => some (f, rowMtag f)
  | .tcopy f => some (f, rowTcopy f)
  | .tcopys f => some (f, rowTcopys f)
  | .gather f => some (f, rowGather f)
  | .trf f => some (f, rowTrf f)
  | .bclose f => some (f, rowBclose f)
  | .bwait f => some (f, rowBwait f)
  | .abinit f => some (f, rowAbinit f)
  | .abarv f => some (f, rowAbarv f)
  | .abexp f => some (f, rowAbexp f)
  | .abwait f => some (f, rowAbwait f)
  | .gset f => some (f, rowGset f)
  | .bar f => some (f, rowBar f)
  | .barc f => some (f, rowBarc f)
  | .barh f => some (f, rowBarh f)
  | .coll f => some (f, rowColl f)
  | .crem f => some (f, rowCrem f)
  | .trpost f => some (f, rowTrpost f)
  | .trcan f => some (f, rowTrcan f)
  | .ecinc f => some (f, rowEcinc f)
  | .ecdec f => some (f, rowEcdec f)
  | .ecrd f => some (f, rowEcrd f)
  | .ecset f => some (f, rowEcset f)
  | .cqpost f => some (f, rowCqpost f)
  | .cqpoll f => some (f, rowCqpoll f)
  | .tqenq f => some (f, rowTqenq f)
  | .tqdeq f => some (f, rowTqdeq f)
  | .tqtry f => some (f, rowTqtry f)
  | .tqdone f => some (f, rowTqdone f)
  | .tqatt f => some (f, rowTqatt f)
  | .tqstat f => some (f, rowTqstat f)
  | .migr f => some (f, rowMigr f)
  | .mret f => some (f, rowMret f)
  | .mjoin f => some (f, rowMjoin f)
  | .mowner f => some (f, rowMowner f)
  | .mtest f => some (f, rowMtest f)
  | .sysrd f => some (f, rowSysrd f)
  | .syswr f => some (f, rowSyswr f)
  | .trap f => some (f, rowTrap f)
  | .rft f => some (f, rowRft f)
  | .brk f => some (f, rowBrk f)
  | .scall f => some (f, rowScall f)
  | .sret f => some (f, rowSret f)
  | .cka f => some (f, rowCka f)
  | .chk f => some (f, rowChk f)
  | .rndk f => some (f, rowRndk f)
  | .srndk f => some (f, rowSrndk f)
  | .tlbinv f => some (f, rowTlbinv f)
  | .tlbsync f => some (f, rowTlbsync f)
  | .icinv f => some (f, rowIcinv f)
  | .einj f => some (f, rowEinj f)
  | .escrub f => some (f, rowEscrub f)
  | .loadReply .. => none
  | .storeAtHome .. => none
  | .atomicAtHome .. => none
  | .waitRegistration .. => none
  | .waitAnswer .. => none
  | .wwaittTimeout .. => none
  | .sleepExpiry .. => none
  | .coreWake .. => none
  | .joinwExpiry .. => none
  | .wcLineAgeDrain .. => none
  | .wcLineAck .. => none
  | .recordFetch .. => none
  | .copyEngineIssue .. => none
  | .pieceDelivery .. => none
  | .commandComplete .. => none
  | .matrixComplete .. => none
  | .firedRecordEntry .. => none
  | .recordDelivery .. => none
  | .hostEnqueue .. => none
  | .hostMemoryAccess .. => none
  | .launchAcceptance .. => none
  | .blockPlacement .. => none
  | .blockedHead .. => none
  | .partialEviction .. => none
  | .eviction .. => none
  | .restoration .. => none
  | .gridEnd .. => none
  | .carveEffect .. => none
  | .pendingMove .. => none
  | .continuationArrival .. => none
  | .visitorStart .. => none
  | .migrationRefusal .. => none
  | .migrationReturn .. => none
  | .debit .. => none
  | .go .. => none
  | .returnAmount .. => none
  | .offer .. => none
  | .accept .. => none
  | .ovf .. => none
  | .refuse .. => none
  | .busy .. => none
  | .offerResend .. => none
  | .credit .. => none
  | .done .. => none
  | .ack .. => none
  | .cancel .. => none
  | .status .. => none
  | .giveUp .. => none
  | .answerResend .. => none
  | .hold .. => none
  | .snapshotRelease .. => none
  | .snapshotTimeout .. => none
  | .holdSelfResume .. => none
  | .domainActivation .. => none
  | .fdeclTimeout .. => none
  | .packetArrival .. => none
  | .deliveryAck .. => none
  | .packetResend .. => none
  | .stale .. => none
  | .retry .. => none
  | .contextClose .. => none
  | .deliveryGiveUp .. => none
  | .contextFetch .. => none
  | .resp .. => none
  | .complete .. => none
  | .mcast .. => none
  | .aggack .. => none
  | .rollback .. => none
  | .walk .. => none
  | .tlbinvAck .. => none
  | .refreshManagement .. => none
  | .erasureMark .. => none
  | .healthFlush => none
  | .faultRetry .. => none
  | .fatalError .. => none
  | .powerOn .. => none
  | .coldStart .. => none
  | .warmStart .. => none
  | .flushHealthLog => none
  | .lock .. => none
  | .start .. => none
  | .stop .. => none
  | .portConfigWrite .. => none
  | .tagFailureFault .. => none
  | .linkDown .. => none
  | .measurementChange .. => none
  | .joinDomain .. => none
  | .rekey => none
  | .arrive .. => none
  | .release .. => none
  | .rekeyTimeout .. => none
  | .breakpoint .. => none
  | .debugResume .. => none
  | .contextEntryWrite .. => none
  | .queueConfigWrite .. => none
  | .ownerEntryWrite .. => none
  | .regionRegisterWrite .. => none
  | .cqRegistration .. => none
  | .registerWrite .. => none
  | .unassignedCell .. => none
  | .powerFailure => none
  | .memberRemoval .. => none
  | .bankRefresh .. => none
  | .linkLoss .. => none
  | .linkReturn .. => none
  | .cydbAttach .. => none
  | .cydbDetach .. => none
  | .cydbStep .. => none
  | .latchStalledLong .. => none

def cellTable0 : List (Nat × Nat × (Fields → Instr)) :=
  [(0x00, 0x01, .nop),
   (0x00, 0x02, .exit),
   (0x00, 0x03, .exitm),
   (0x01, 0x00, .br),
   (0x01, 0x01, .bz),
   (0x01, 0x02, .bnz),
   (0x01, 0x03, .bmz),
   (0x01, 0x04, .bmnz),
   (0x01, 0x05, .bvany),
   (0x01, 0x06, .bvall),
   (0x02, 0x00, .bdiv),
   (0x02, 0x01, .bdivw),
   (0x02, 0x02, .bdivs),
   (0x02, 0x03, .join),
   (0x02, 0x04, .joinw),
   (0x03, 0x00, .jmp),
   (0x03, 0x01, .jmpi),
   (0x03, 0x02, .call),
   (0x03, 0x03, .calli),
   (0x03, 0x04, .ret),
   (0x10, 0x00, .sadd),
   (0x10, 0x01, .ssub),
   (0x10, 0x02, .smul),
   (0x10, 0x03, .smulh),
   (0x10, 0x04, .sand),
   (0x10, 0x05, .sor),
   (0x10, 0x06, .sxor),
   (0x10, 0x07, .sshl),
   (0x10, 0x08, .sshr),
   (0x10, 0x09, .smin),
   (0x10, 0x0A, .smax),
   (0x10, 0x0B, .sdiv),
   (0x10, 0x0C, .srem),
   (0x11, 0x00, .smov),
   (0x11, 0x01, .snot),
   (0x11, 0x02, .sclz),
   (0x11, 0x03, .spopc),
   (0x11, 0x04, .sbrev),
   (0x11, 0x05, .sext),
   (0x12, 0x00, .scmp)]

def cellTable1 : List (Nat × Nat × (Fields → Instr)) :=
  [(0x12, 0x01, .ssel),
   (0x13, 0x00, .sadd64),
   (0x13, 0x01, .ssub64),
   (0x13, 0x02, .smul64),
   (0x13, 0x03, .sshl64),
   (0x13, 0x04, .sshr64),
   (0x13, 0x05, .smov64),
   (0x14, 0x00, .sbfe),
   (0x14, 0x01, .sbfi),
   (0x15, 0x00, .slea),
   (0x30, 0x00, .vadd),
   (0x30, 0x01, .vsub),
   (0x30, 0x02, .vmul),
   (0x30, 0x03, .vmulh),
   (0x30, 0x04, .vand),
   (0x30, 0x05, .vor),
   (0x30, 0x06, .vxor),
   (0x30, 0x07, .vshl),
   (0x30, 0x08, .vshr),
   (0x30, 0x09, .vmin),
   (0x30, 0x0A, .vmax),
   (0x30, 0x0B, .vabsd),
   (0x30, 0x0C, .vadds),
   (0x30, 0x0D, .vsubs),
   (0x31, 0x00, .vmad),
   (0x31, 0x01, .vsel),
   (0x31, 0x02, .vbfe),
   (0x31, 0x03, .vbfi),
   (0x32, 0x00, .vmov),
   (0x32, 0x01, .vnot),
   (0x32, 0x02, .vneg),
   (0x32, 0x03, .vabs),
   (0x32, 0x04, .vclz),
   (0x32, 0x05, .vpopc),
   (0x32, 0x06, .vbrev),
   (0x32, 0x07, .vext),
   (0x33, 0x00, .vcmp),
   (0x33, 0x01, .vcmpm),
   (0x34, 0x00, .vadd64),
   (0x34, 0x01, .vmulw)]

def cellTable2 : List (Nat × Nat × (Fields → Instr)) :=
  [(0x60, 0x00, .vaddF32),
   (0x60, 0x01, .vsubF32),
   (0x60, 0x02, .vmulF32),
   (0x60, 0x03, .vminF32),
   (0x60, 0x04, .vmaxF32),
   (0x60, 0x05, .vdiv),
   (0x61, 0x00, .vfma),
   (0x61, 0x01, .vfms),
   (0x62, 0x00, .vabsF32),
   (0x62, 0x01, .vnegF32),
   (0x62, 0x02, .vsqrt),
   (0x62, 0x03, .vrcp),
   (0x62, 0x04, .vrsq),
   (0x62, 0x05, .vexp2),
   (0x62, 0x06, .vlog2),
   (0x62, 0x07, .vrnd),
   (0x62, 0x08, .vclass),
   (0x63, 0x00, .vcmpF32),
   (0x63, 0x01, .vcmpmF32),
   (0x64, 0x00, .vadd2),
   (0x64, 0x01, .vmul2),
   (0x64, 0x02, .vfma2),
   (0x68, 0x00, .vcvt),
   (0x68, 0x01, .vcvti),
   (0x68, 0x02, .vcvtf),
   (0x68, 0x03, .vcvtq),
   (0x68, 0x04, .vcvtqf),
   (0x68, 0x05, .vcvtn),
   (0x90, 0x00, .vdot8),
   (0x90, 0x01, .vdot4),
   (0x90, 0x02, .vscale),
   (0x91, 0x00, .vqnt),
   (0x91, 0x01, .vdeq),
   (0x92, 0x00, .vhad),
   (0x93, 0x00, .vpk8),
   (0x93, 0x01, .vupk8),
   (0x93, 0x02, .vpk4),
   (0x93, 0x03, .vupk4),
   (0x94, 0x00, .vamax),
   (0x94, 0x01, .vsc8)]

def cellTable3 : List (Nat × Nat × (Fields → Instr)) :=
  [(0xA0, 0x00, .vshfl),
   (0xA0, 0x01, .vshup),
   (0xA0, 0x02, .vshdn),
   (0xA0, 0x03, .vshxor),
   (0xA0, 0x04, .vbcast),
   (0xA1, 0x00, .vballot),
   (0xA1, 0x01, .vpopm),
   (0xA1, 0x02, .vprefix),
   (0xA1, 0x03, .vreduce),
   (0xA2, 0x00, .qxch),
   (0xB0, 0x00, .vld),
   (0xB0, 0x01, .vldrb),
   (0xB0, 0x02, .sld),
   (0xB0, 0x03, .vldbc),
   (0xB0, 0x04, .vldscr),
   (0xB0, 0x05, .vldcw),
   (0xB1, 0x00, .vst),
   (0xB1, 0x01, .sst),
   (0xB1, 0x02, .vstscr),
   (0xB1, 0x03, .vstcw),
   (0xB1, 0x04, .vstmc),
   (0xB2, 0x00, .wcfl),
   (0xB2, 0x01, .rbinv),
   (0xB2, 0x02, .vpref),
   (0xB3, 0x00, .vldp),
   (0xB3, 0x01, .vstp),
   (0xB8, 0x00, .vatom),
   (0xB8, 0x01, .vcas),
   (0xB8, 0x02, .satom),
   (0xB8, 0x03, .scas),
   (0xB8, 0x04, .vred),
   (0xB9, 0x00, .vatom64),
   (0xB9, 0x01, .vcas64),
   (0xBC, 0x00, .wwait),
   (0xBC, 0x01, .wwaitt),
   (0xBC, 0x02, .wwake),
   (0xBC, 0x03, .faddt),
   (0xBC, 0x04, .sleep),
   (0xBC, 0x05, .wcancel),
   (0xC0, 0x00, .fence)]

def cellTable4 : List (Nat × Nat × (Fields → Instr)) :=
  [(0xC0, 0x01, .fenceh),
   (0xC0, 0x02, .fencep),
   (0xC8, 0x00, .xfer),
   (0xC9, 0x00, .vldf),
   (0xC9, 0x01, .sldf),
   (0xCA, 0x00, .ftot),
   (0xCB, 0x00, .fdecl),
   (0xCB, 0x01, .fdrop),
   (0xCB, 0x02, .fattr),
   (0xCB, 0x03, .fgup),
   (0xD0, 0x00, .mma),
   (0xD0, 0x01, .mmac),
   (0xD1, 0x00, .mopf),
   (0xD1, 0x01, .mwait),
   (0xD2, 0x00, .mzero),
   (0xD2, 0x01, .mlda),
   (0xD2, 0x02, .msta),
   (0xD2, 0x03, .mrd),
   (0xD2, 0x04, .mwr),
   (0xD3, 0x00, .mspill),
   (0xD3, 0x01, .mfill),
   (0xD3, 0x02, .mtag),
   (0xE0, 0x00, .tcopy),
   (0xE0, 0x01, .tcopys),
   (0xE0, 0x02, .gather),
   (0xE1, 0x00, .trf),
   (0xE1, 0x01, .bclose),
   (0xE1, 0x02, .bwait),
   (0xE2, 0x00, .abinit),
   (0xE2, 0x01, .abarv),
   (0xE2, 0x02, .abexp),
   (0xE2, 0x03, .abwait),
   (0xE3, 0x00, .gset),
   (0xE4, 0x00, .bar),
   (0xE4, 0x01, .barc),
   (0xE4, 0x02, .barh),
   (0xE8, 0x00, .coll),
   (0xE8, 0x01, .crem),
   (0xE9, 0x00, .trpost),
   (0xE9, 0x01, .trcan)]

def cellTable5 : List (Nat × Nat × (Fields → Instr)) :=
  [(0xEA, 0x00, .ecinc),
   (0xEA, 0x01, .ecdec),
   (0xEA, 0x02, .ecrd),
   (0xEA, 0x03, .ecset),
   (0xEB, 0x00, .cqpost),
   (0xEB, 0x01, .cqpoll),
   (0xEC, 0x00, .tqenq),
   (0xEC, 0x01, .tqdeq),
   (0xEC, 0x02, .tqtry),
   (0xEC, 0x03, .tqdone),
   (0xEC, 0x04, .tqatt),
   (0xEC, 0x05, .tqstat),
   (0xF0, 0x00, .migr),
   (0xF0, 0x01, .mret),
   (0xF0, 0x02, .mjoin),
   (0xF0, 0x03, .mowner),
   (0xF0, 0x04, .mtest),
   (0xF8, 0x00, .sysrd),
   (0xF8, 0x01, .syswr),
   (0xF9, 0x00, .trap),
   (0xF9, 0x01, .rft),
   (0xF9, 0x02, .brk),
   (0xF9, 0x03, .scall),
   (0xF9, 0x04, .sret),
   (0xFA, 0x00, .cka),
   (0xFA, 0x01, .chk),
   (0xFB, 0x00, .rndk),
   (0xFB, 0x01, .srndk),
   (0xFC, 0x00, .tlbinv),
   (0xFC, 0x01, .tlbsync),
   (0xFD, 0x00, .icinv),
   (0xFE, 0x00, .einj),
   (0xFE, 0x01, .escrub)]

/-- The assigned cells of the opcode map: OPC, FN and the instruction (spec 03, R62 to R75). -/
def cellTable : List (Nat × Nat × (Fields → Instr)) :=
  cellTable0 ++ cellTable1 ++ cellTable2 ++ cellTable3 ++ cellTable4 ++ cellTable5

end Sys2Proof
end

