-- ==== Sys2Proof/Machine/Rules.lean ====
section
/-! DEFINITION. The checks of step 5 of decoding (spec 02, R57): every reason and field code that applies to the bits
of an instruction, for the row of its cell. -/

namespace Sys2Proof

/-- Whether the longer length takes an operand from the immediate (spec 02, R50; spec 03, R59). -/
def Row.immUsed (r : Row) (f : Fields) : Bool :=
  match r.rep with
  | .no => false
  | .a64 => f.len = .w128
  | _ => f.len = .w96

/-- Whether the immediate replaces field A, B or C. -/
def Row.repA (r : Row) (f : Fields) : Bool := r.immUsed f && (r.rep = .a || r.rep = .a64)
def Row.repB (r : Row) (f : Fields) : Bool := r.immUsed f && r.rep = .b
def Row.repC (r : Row) (f : Fields) : Bool := r.immUsed f && r.rep = .c

/-- The replaced field is one marked V|S (spec 03, R59). -/
def Row.repVS (r : Row) (f : Fields) : Bool := r.immUsed f && r.vsRep

/-- A scalar pair source base that R52 allows. -/
def pairSrc (x : Nat) : Bool :=
  if x < 128 then x % 2 = 0 else x = 144 || x = 148 || (192 ≤ x && x < 240)

/-- The violations of one operand field: its field code, kind, encoding, wait bit, whether it is replaced, its role
and its register count. -/
def fieldViolations (code : Nat) (k : Kind) (x : Nat) (w replaced : Bool) (role : Role) (n : Nat) (run sysrd : Bool) :
    List (Nat × Nat) :=
  if replaced then
    (if w then [(8, code)] else []) ++ (if x ≠ 0 then [(12, code)] else [])
  else
    let dst := role = .dst || role = .both
    (if k = .no && x ≠ 0 then [(7, code)] else []) ++
    (if w && (k = .no || k = .U8 || k = .GN || role = .dst) then [(8, code)] else []) ++
    (match k with
      | .S => (if 157 ≤ x && x ≤ 191 then [(9, code)] else []) ++
              (if dst && 128 ≤ x && x ≠ 138 then [(10, code)] else [])
      | .SP => (if 157 ≤ x && x ≤ 191 then [(9, code)] else []) ++
               (if dst && 128 ≤ x && x ≠ 138 then [(10, code)] else []) ++
               (if (if dst then x % 2 = 0 && x < 128 else pairSrc x) then [] else [(11, code)])
      | .SQ => (if 157 ≤ x && x ≤ 191 then [(9, code)] else []) ++
               (if dst && 128 ≤ x && x ≠ 138 then [(10, code)] else []) ++
               (if x % 4 ≠ 0 || 128 ≤ x then [(11, code)] else [])
      | .GN => if x = 0 || 7 < x then [(11, code)] else []
      | .V => if run || n ≤ 1 then []
              else if (n = 2 && (x % 2 = 1 || 252 < x)) || (n = 4 && x % 4 ≠ 0) then
                [(if sysrd then 11 else 14, code)]
              else []
      | _ => [])

/-- Every violation of R57, reasons 4 to 14, as pairs of reason and field code. GNEG without a slot is recorded with the field code of GS,
and a reserved extension bit with that of MOD and XMOD (log entry 98). -/
def violations (r : Row) (f : Fields) : List (Nat × Nat) :=
  let ext := f.len = .w128 && r.rep ≠ .a64
  let sysrd := r.opc = 0xF8
  (if r.lens.contains f.len then [] else [(4, 0)]) ++
  (if (f.mod.toNat * 2) &&& (1023 - r.mods) ≠ 0 then [(5, 8)] else []) ++
  (if ext && ((f.xmod ≠ 0 && !r.xmods) || f.rsv) then [(5, 8)] else []) ++
  (if r.bad5 || (r.repVS f && f.m 1) then [(5, 8)] else []) ++
  (if !r.guard && f.gs ≠ 0 then [(6, 9)] else []) ++
  (if r.guard && f.gs = 0 && f.m 9 then [(6, 9)] else []) ++
  fieldViolations 1 r.kd f.d.toNat false false r.dRole r.nd r.run sysrd ++
  fieldViolations 2 r.ka f.a.toNat (f.wa && r.aRole ≠ .peek) (r.repA f) r.aRole r.na r.run sysrd ++
  fieldViolations 3 r.kb f.b.toNat f.wb (r.repB f) .src r.nb r.run sysrd ++
  fieldViolations 4 r.kc f.c.toNat f.wc (r.repC f) .src r.nc r.run sysrd ++
  (if ext then
    fieldViolations 5 r.ke f.e.toNat f.we false .src 1 r.run sysrd ++
    fieldViolations 6 r.kh f.h.toNat f.wh false r.hRole r.nh r.run sysrd
  else []) ++
  (if !(r.immUsed f) && f.imm.toNat / 2 ^ r.immBits ≠ 0 then [(12, 7)] else []) ++
  (if r.bad13 ≠ 0 then [(13, r.bad13)] else []) ++
  (if r.bad14 ≠ 0 then [(14, r.bad14)] else [])

/-- The lowest reason, and within it the lowest field code (spec 02, R57); none when no rule fails. -/
def lowest : List (Nat × Nat) → Option (Nat × Nat)
  | [] => none
  | (r, c) :: l =>
    match lowest l with
    | none => some (r, c)
    | some (r', c') => if r < r' || (r = r' && c ≤ c') then some (r, c) else some (r', c')

/-- What ILLOP records in TRAPAUX: the reason in bits 7:0 and the field code in bits 15:8. -/
def illopAux (p : Nat × Nat) : BitVec 64 := BitVec.ofNat 64 (p.1 + 256 * p.2)

/-- The fields that a length does not hold are zero: what decoding always gives. -/
def Fields.tight (f : Fields) (r : Row) : Bool :=
  let ext := f.len = .w128 && r.rep ≠ .a64
  (ext || (f.e = 0 && f.h = 0 && !f.we && !f.wh && !f.rsv && f.xmod = 0)) &&
  (match f.len with
    | .w64 => f.imm = 0
    | .w96 => f.imm.toNat < 2 ^ 32
    | .w128 => r.rep = .a64 || f.imm.toNat < 2 ^ 32)

end Sys2Proof
end

