-- ==== Sys2Proof/Machine/State.lean ====
section
/-! DEFINITION. The state of one SKC-1680 device as the spec gives it (INVENTORY.md, '## State'), as plain data. -/

namespace Sys2Proof.Machine

open Sys2Proof

/-- What stops the machine for good. -/
inductive Fault where
  /-- Raised by `step` when the device has lost power and the agenda offers no power-on (spec 25, R464). Safe. -/
  | unpowered
  deriving DecidableEq, Repr

/-- Why a turn of the machine is not taken. -/
inductive Refusal where
  /-- An instruction that the model gives no meaning; raised by no arm of `exec` as the model stands. Safe. -/
  | notModelled (mnemonic : String)
  deriving DecidableEq, Repr

/-- Memory: byte cells by key (far-memory physical address below 2^39; 2^39 + core × 2^21 + offset for a slice byte),
keys strictly rising, no byte equal to 0, which an unlisted key reads as (log entries 6 and 7). -/
abbrev Mem := List Host.Cell

/-- The kinds of reconvergence stack entries (spec 01, R21). -/
inductive SKind where
  | div | divw | call | ind | trap
  /-- A code that the spec reserves, in an entry that software has written into the stack area. -/
  | reserved (code : Nat)
  deriving DecidableEq, Repr

/-- A reconvergence stack entry; `pc` holds PC and PCLO, bits 55:0 (spec 01, R21). `waiting` marks the waiting entry of
a joinw (spec 05, R116), which an expired timeout alone does not tell from a path entry (log entry 22). -/
structure Entry where
  waiting : Bool
  tmo : BitVec 24
  kind : SKind
  mask : Word
  pc : BitVec 56
  deriving DecidableEq, Repr

/-- The registers of a group with their full/empty bits (1 is empty) (spec 01, R14 to R17). Vector register r of lane
L is at key 32r + L; `vbad` and `sbad` name the words that are uncorrectable (spec 18, R399). -/
structure Regs where
  v : List (Nat × Word)
  s : List (Nat × Word)
  vempty : BitVec 256
  sempty : BitVec 128
  vbad : List Nat := []
  sbad : List Nat := []
  deriving DecidableEq, Repr

/-- The control state of a group: PC, masks, stack, guard slots, supervisor mode (spec 01, R8, R10, R20 to R24).
`supAt` is the stack depth of the TRAP entry whose push entered supervisor mode (spec 12, R277); PRIVMODE is whether
there is one. -/
structure Ctl where
  pc : Dword
  exm : Word
  livem : Word
  stack : List Entry
  guards : BitVec 16
  supAt : Option Nat
  deriving DecidableEq, Repr

/-- The group registers of spec 01, R25 to R28 and R35. -/
structure Sys where
  cks : Dword
  batchseq : Word
  batchdone : Word
  gang : Word
  fmtlast : Word
  gstat : Word
  tcause : Word
  tlanes : Word
  taddr : Dword
  taux : Dword
  skid : Word
  haltpc : Dword
  deriving DecidableEq, Repr

/-- What a group that does not issue waits for (spec 17, R374; spec 01, R18). `roused` is the wait of an instruction that has issued and
whose event has come, `barOrder` that of a barrier for what it releases (spec 05, R117). -/
inductive Hold where
  | none
  | roused
  | barOrder
  | vreg (r : Nat)
  | sreg (r : Nat)
  | sleep (until_ : Nat)
  | bar
  | barc
  | barh (level : Nat)
  | batch (n : Word)
  | phase (obj : Nat) (n : Word)
  | mopf
  | mwait (blk : Option Nat)
  | copyFull
  | matFull
  | latch (since : Nat) (long : Bool)
  | order
  | batches
  | record (addr : Nat)
  | checks (xid : Nat)
  | lines
  | inv
  | home
  | mjoin (r : Nat)
  deriving DecidableEq, Repr

/-- An imprecise trap waiting for the group's next issue (spec 12, R277; spec 07, R154). -/
structure Imprecise where
  cause : Nat
  lanes : Word
  addr : Dword
  aux : Dword
  deriving DecidableEq, Repr

/-- A matrix operation that a group has not yet covered by an mwait: the joint operation, its accumulator blocks, the
vector registers that it reads, and the scratchpad run (block, offset, length) that an msta writes (spec 13, R291). -/
structure AsyncOp where
  op : Nat
  blocks : BitVec 64
  regs : BitVec 256
  out : Option (Nat × Nat × Nat)
  deriving DecidableEq, Repr

/-- A visitor: the originating group, the token register, the shipped registers (spec 12, R268), the host's slot (spec 17,
R376). -/
structure Visitor where
  origin : Nat
  token : Nat
  vlist : BitVec 256
  slist : BitVec 128
  slot : Nat
  deriving DecidableEq, Repr

/-- The scheduling state of a group (spec 17, R372 to R375; spec 18, R384). `since` is the cycle of its last issue, or since which it has been
ready, or not `ready`. `skidLeft` is how many instructions it may
still issue once a halt is broadcast, `passBp` that a resumed group passes a breakpoint at its PC. -/
structure Sched where
  hold : Hold
  since : Nat
  ready : Bool := true
  active : Bool
  order : Nat
  skidLeft : Option Nat
  dhalt : Bool
  passBp : Bool
  deriving DecidableEq, Repr

/-- What a copy engine command does (spec 10, R227, R228; spec 11, R250, R252, R254). -/
inductive CmdKind where
  | load
  | store
  | gather (rows : List (Nat × Int))
  | get (remote len : Nat)
  | put (remote len : Nat)
  | coll (cid : Nat)
  | fired
  deriving DecidableEq, Repr

/-- A copy engine command (spec 10, R225 to R232): `rcd` is its copy of the shape record (of the operation record, when
fired), `org` the origin, `sup` the mode at issue, `run` whether the engine has taken it from
its FIFO, `left` the pieces not yet delivered, `acked` those of a remote command
that the peer has performed, `fail` its lowest failing address with the precedence of the failure, `lost` the TRAPAUX of
the FABERR that a delivery given up leaves (spec 11, R254). -/
structure Cmd where
  id : Nat
  gid : Nat
  block : Nat
  node : Nat
  ctx : BitVec 8
  kind : CmdKind
  rcd : List Byte
  org : List Int
  e : Nat
  n : Nat
  obj : Option Nat
  xpct : Bool
  gs : Nat
  gneg : Bool
  sup : Bool
  run : Bool
  left : List Nat
  acked : List Nat
  fail : Option (Nat × Nat)
  lost : Option Nat
  deriving DecidableEq, Repr

/-- The accumulator and matrix commands (spec 09; spec 17, R379). -/
inductive MatKind where
  | mma | mmac | mzero | mlda | msta | mrd | mwr
  deriving DecidableEq, Repr

/-- A command that waits in a group's matrix FIFO, or an mma or mmac that waits at the rendezvous latch: the fields, the
address of the instruction, the identity counter and what was read at issue: GANG, the scalar operands, the format words of the active lanes
(spec 09, R193, R194; spec 17, R379). `arrived` says that a queued mma or mmac has arrived at the latch. -/
structure MatEntry where
  id : Nat
  kind : MatKind
  f : Fields
  pc : Dword
  gang : Word
  opA : Dword
  opB : Dword
  words : List (Nat × Word)
  arrived : Bool := false
  deriving DecidableEq, Repr

/-- A released joint operation or accumulator command of a core's matrix unit, in issue order (spec 17, R379; spec 09,
R207). `joint` is the same for the four parts of an mmac; `blocks` are the physical accumulator blocks, in the order the
command names them; `inputs` the values its members held at the release; `taint` marks those the groups wrote
afterwards (spec 13, R291); `off` is a scratchpad offset or a first row; `peers` are the participants of an mmac with
their operand offsets; `seq` is the store count at the release; `since` are the members with their places in program order
(spec 13, R289). -/
structure MatOp where
  id : Nat
  since : List (Nat × Nat)
  joint : Nat
  node : Nat
  block : Nat
  kind : MatKind
  f : Fields
  members : List Nat
  blocks : List Nat
  fmt : Word
  inputs : List (Nat × Word)
  taint : List Nat
  off : Nat
  lanes : Word
  peers : List (Nat × Nat × Nat)
  seq : Nat
  deriving DecidableEq, Repr

/-- The engine state of a group (spec 10, R231, R236; spec 17, R379). `latch` is what it presents at the rendezvous latch,
`unfenced` the vector registers written since its last mopf (spec 09, R206). -/
structure Eng where
  copyQ : List Cmd
  matQ : List MatEntry
  openB : List Nat
  batches : List (Word × List Nat)
  async : List AsyncOp
  latch : Option MatEntry
  unfenced : BitVec 256
  deriving DecidableEq, Repr

/-- What a group has outstanding elsewhere. `corFence` is the identity counter at its last fence (spec 13, R285, R297), `tokT` the T flags of its token registers, `tokAddr` the faulting addresses of its visitors (spec 12, R272). -/
structure Out where
  imprecise : List Imprecise
  storeFail : List Imprecise
  objFail : List (Nat × Imprecise)
  invs : List Nat
  items : List (Nat × Nat)
  corFence : Nat
  tokT : BitVec 256
  tokAddr : List (Nat × Dword)
  deriving DecidableEq, Repr

/-- A resident group or visitor. -/
structure Group where
  block : Nat
  index : Nat
  owner : Nat
  part : Nat
  ctx : BitVec 8
  ctl : Ctl
  regs : Regs
  sys : Sys
  sched : Sched
  eng : Eng
  out : Out
  visitor : Option Visitor
  deriving DecidableEq, Repr

/-- A kernel description (spec 17, R362). -/
structure Kernel where
  entry : Dword
  handler : Dword
  scr : Nat
  ngrp : Nat
  vregs : Nat
  sregs : Nat
  accn : Nat
  priv : Nat
  clsz : Nat
  commg : Nat
  team : Nat
  deriving DecidableEq, Repr

/-- What a line image of the rollback log covers: a vector register of a group or a 128-byte line of memory. -/
inductive LineTag where
  | vreg (gid r : Nat)
  | line (key : Nat)
  deriving DecidableEq, Repr

/-- A rollback shadow (spec 18, R395 to R399): the identity counter at the checkpoint, the checkpointed groups, the
logs newest first with the writing group, and the marks; `bad` that a word of it is uncorrectable. -/
structure Shadow where
  since : Nat
  groups : List (Nat × Group)
  log : List (Nat × LineTag × List Word)
  clean : Bool
  rolled : Bool
  bad : Bool := false
  deriving DecidableEq, Repr

/-- A collective of a block (spec 11, R252): its descriptor and object, the groups that have issued it with their places in
program order, the guard and mode of the communication group's issue, whether a group has presented another descriptor (spec 11,
R253), and its members' positions once started. `k` is the sequence number of spec 21, R435, `steps` the device's
step sequence at the start (spec 11, R255). -/
structure Coll where
  id : Nat
  block : Nat
  desc : BitVec 128
  obj : Nat
  gids : List (Nat × Nat)
  gs : Nat
  gneg : Bool
  sup : Bool
  differ : Bool
  started : Bool
  k : Nat
  n : Nat
  rank : Nat
  devs : List Nat
  cq : Nat
  steps : Nat
  sig : Dword
  deriving DecidableEq, Repr

/-- What a member of a communicator exchanges when a collective starts there (spec 21, R435): its device, the communicator, the linear block
number and sequence number that match it, and its OP, DT, ROP and LEN. -/
structure CollWord where
  dev : Nat
  comm : Nat
  lin : Nat
  k : Nat
  what : Nat × Nat × Nat × Nat
  deriving DecidableEq, Repr

/-- A block (spec 17, R362 to R365). `grid` is its grid's key, `reloc` its relocation entry, `areas` the private areas
of its groups (memory keys), `gids` its groups in order. `saved` holds the save
image's address of an evicted block, `evicting` that its groups are halted for an eviction, `badObj` the barrier objects whose BYTES an engine has wrapped (spec 10, R235), `objFail` the FABERRs that wait for the
next abwait on an object (spec 11, R254), `slots` the guard slots of its communication group when that retired (spec 01, R24; spec 11,
R252), `pool` its runs of the core's shadow pool (spec 18, R395, R398), `noRestore` that cydb has asked for its eviction and `wanted` for
its restoration (spec 19, R406). -/
structure Block where
  grid : Nat
  lin : Nat
  core : Nat
  k : Kernel
  part : Nat
  gids : List Nat
  live : List Nat
  reloc : Nat
  accBase : Nat
  areas : List Nat
  placed : Nat
  thalt : Bool
  hgrp : Nat
  haltDepth : Nat
  dhalt : Bool
  uncorr : Bool
  shadow : Option Shadow
  contain : Bool
  colls : List Coll
  noRestore : Bool
  term : Option Nat
  saved : Option Nat
  evicting : Bool
  badObj : BitVec 16
  objFail : List (Nat × Imprecise)
  slots : Option (BitVec 16) := none
  pool : List (Nat × Nat) := []
  wanted : Bool := false
  deriving DecidableEq, Repr

/-- A grid (spec 11, R258, R476; spec 17, R363, R371). `todo` are the linear numbers not yet placed, `gone` the
groups of its ended blocks. -/
structure Grid where
  gridid : Word
  ctx : BitVec 8
  queue : Nat
  home : Nat
  prio : Nat
  flags : BitVec 16
  gx : Nat
  gy : Nat
  gz : Nat
  kdesc : Dword
  args : Dword
  k : Kernel
  dctr : Nat
  dfl : Bool
  cq : Dword
  tag : Word
  todo : List Nat
  ended : Nat
  total : Nat
  cause : Option Nat
  deferred : Bool
  startSeq : Nat
  gone : List Nat
  deriving DecidableEq, Repr

/-- A scratchpad relocation entry (spec 14, R321), with the block it serves. -/
structure Reloc where
  save : Dword
  st : BitVec 2
  pages : BitVec 9
  basepg : BitVec 9
  block : Nat
  deriving DecidableEq, Repr

/-- A line of the write-combining buffer (spec 11, R243; spec 14, R329): 128 bytes with a mask, the groups that wrote
into it, the cycle of its first store, whether its drain has started and the packet that carries it. `oldest` is the least identity
of the stores in it, in program order (spec 11, R242; spec 18, R404). -/
structure WcLine where
  id : Nat
  oldest : Nat
  peer : Nat
  addr : Nat
  mask : BitVec 128
  data : List Byte
  writers : List Nat
  ctx : BitVec 8
  since : Nat
  closed : Bool
  pkt : Option Nat
  deriving DecidableEq, Repr

/-- A sector of the far-memory read buffer: its key, context tag and bytes (spec 07, R155; spec 14, R328). -/
structure RbSector where
  key : Nat
  ctx : BitVec 8
  data : List Byte
  deriving DecidableEq, Repr

/-- A cached shape record (spec 10, R225; spec 17, R383). -/
structure RecLine where
  addr : Nat
  ctx : BitVec 8
  rcd : List Byte
  used : Nat
  deriving DecidableEq, Repr

/-- A wait-table entry (spec 07, R164, R165): the word's key, the condition, the waiting access and its part,
the cycle at which a wwaitt times out, and the word it is answered with once it is; `il` is the page's interleave scheme, and `bad`
that the word could not be read (spec 14, R335). -/
structure WaitEntry where
  id : Nat
  loc : Nat
  il : Nat
  mask : Word
  cmp : Nat
  e : Word
  gid : Nat
  acc : Nat
  part : Nat
  deadline : Option Nat
  ans : Option Word
  bad : Bool
  deriving DecidableEq, Repr

/-- A leaf translation in a TLB (spec 18, R403): context, virtual page base, page size in address bits, the leaf. -/
structure TlbLine where
  ctx : BitVec 8
  base : Nat
  bits : Nat
  pte : Dword
  deriving DecidableEq, Repr

/-- The states of a mortar record (spec 15, R339). -/
inductive MState where
  | held | offered | crediting | cancelling
  deriving DecidableEq, Repr

/-- A mortar record (spec 15, R339, R340). `okey` is the origin cell's memory key and `dkey` the destination's on the local
path; `gup` is the transfer's give-up time in cycles, and GLEFT runs out at cycle `deadline`; `busyAt` is the cycle of a BUSY
answer; `xid` is the identity of the transfer whose tag at its core is ITAG. -/
structure Mortar where
  amt : Int
  daddr : Nat
  oaddr : Nat
  okey : Nat
  oil : Nat
  dkey : Nat
  dil : Nat
  seq : Nat
  ddev : Nat
  did : Nat
  lane : Nat
  icore : Nat
  xid : Nat
  itag : Nat
  gup : Nat
  state : MState
  fabric : Bool
  deadline : Nat
  lmask : Word
  busyAt : Option Nat
  q64 : Bool
  deriving DecidableEq, Repr

/-- The states of a deduplication entry (spec 15, R343). -/
inductive DState where
  | accepted | overflowed | refused (reason : Nat) | applied
  deriving DecidableEq, Repr

/-- A deduplication entry (spec 15, R343), with the cell's memory key and when its answer was last sent. -/
structure Dedup where
  odev : Nat
  seq : Nat
  state : DState
  key : Nat
  il : Nat
  q64 : Bool
  amt : Int
  did : Nat
  xid : Nat
  lane : Nat
  sentAt : Nat
  deriving DecidableEq, Repr

/-- The field home of a core or stack core (spec 15, R339, R343, R347): records, deduplication entries, the record
counter, and the snapshots that hold its source and sink cells. -/
structure Home where
  mortars : List Mortar
  dedups : List Dedup
  counter : Nat
  holds : List (Nat × Nat × Nat)
  deriving DecidableEq, Repr

/-- A core (owner codes 0 to 191) or stack core (192 to 255) (spec 01, R33, R34, R36; spec 14; spec 17). `moves` are the last moves of its partitions into their active sets: since when, and the `order` of the group (spec 17, R375); `skipped` are the blocks that it has
passed over, with their grids and since when, `blocked` its blocked head; `accBad` names the uncorrectable words of its accumulators (spec
18, R399). -/
structure Node where
  acc : List (Nat × Word)
  accBad : List Nat := []
  tags : List (Nat × BitVec 8)
  holders : List (Nat × Nat)
  relocs : List (Nat × Reloc)
  wc : List WcLine
  rb : List RbSector
  recs : List RecLine
  fetching : List (Nat × BitVec 8 × Nat)
  waits : List WaitEntry
  tlb : List TlbLine
  wakewhy : Word
  waking : Option Word
  gated : Bool
  carve : Nat
  carveNew : Nat
  vopen : BitVec 8
  rot : Nat
  served : Nat
  lastQueue : Nat
  skipped : List (Nat × Nat × Nat)
  blocked : Option (Nat × Nat × Nat)
  moves : List (Nat × Nat × Nat)
  home : Home
  deriving DecidableEq, Repr

/-- Where a byte of an access lies: a memory key, an offset of a block's scratchpad allocation (by grid and linear
number, so that a member not yet started can be named), or an offset of a group's private area (spec 07, R146; spec
14, R321, R324). -/
inductive Loc where
  | mem (key : Nat)
  | scr (grid lin off : Nat)
  | priv (grid lin grp off : Nat)
  deriving DecidableEq, Repr

/-- What an access does at its home. -/
inductive AKind where
  | load (sz : Nat)
  | field (q64 : Bool)
  | store
  | atomic (op : Nat) (wide cas : Bool)
  | faddt
  | wait (cmp : Nat) (timeout : Option Nat)
  | owner
  deriving DecidableEq, Repr

/-- A line of a multicast store (spec 11, R245, R246): the group, its MEMBERS when the line was issued, and the bytes of the line with
their offsets. -/
structure McLine where
  group : Nat
  members : BitVec 512
  bytes : List (Nat × Byte)
  deriving DecidableEq, Repr

/-- One part of an access: the bytes of one lane in one sector (spec 07, R150). `lanes` are the lanes that receive
what it reads; `data` the bytes stored, or operand and comparand of an atomic, or mask and expected value of a wait.
`il` is the page's interleave scheme; `peer` the device of a peer-window request, `msg` the message that carries the part to
it once it is sent; `addr` the lane's address; `vis` the place in the core's order at which the core's groups came to see a
store, 0 before (spec 13, R286); `hold` that the store's block holds it under CONTAIN, where only the groups of the block see it (spec 18,
R398); `mc` the line of a multicast store, whose `peer` is 512 and the group. -/
structure Part where
  id : Nat
  vis : Nat
  lane : Nat
  lanes : Word
  loc : Loc
  il : Nat
  peer : Option Nat
  msg : Option Nat
  addr : Dword
  off : Nat
  len : Nat
  data : List Byte
  cmp : List Byte
  hold : Bool := false
  mc : Option McLine := none
  deriving DecidableEq, Repr

/-- An access issued and not yet wholly performed (spec 13, R286, R288). `got` are the bytes that have arrived, at key
16·lane + byte; `rb` marks a vldrb, `once` an access made once per group; `helpers` are the helper lanes among `lanes`; `fails` are the
lanes whose peer request failed, with address and TRAPAUX (spec 07, R154); `corAt` bounds the accesses that a release or
fence at .cor of the group has ordered before it, 0 for none (spec 07, R158). -/
structure Access where
  id : Nat
  once : Bool
  helpers : Word
  corAt : Nat
  gid : Nat
  node : Nat
  ctx : BitVec 8
  kind : AKind
  acq : Bool
  rel : Bool
  scope : Nat
  rmt : Bool
  rb : Bool
  vec : Bool
  dst : Nat
  regs : Nat
  lanes : Word
  parts : List Part
  got : List (Nat × Byte)
  fails : List (Nat × Dword × Dword)
  deriving DecidableEq, Repr

/-- A record in a shard (spec 11, R258, R260): priority, its place in the shard's storage (spec 17, R357), the seed of its contents
where a change of the queue's entry has left them open, the GRIDID it received, and the grid it became. -/
structure Rec where
  prio : Nat
  slot : Nat
  junk : Option (Nat × Nat)
  gridid : Word
  grid : Option Nat
  deriving DecidableEq, Repr

/-- A waiting tqdeq or cqpoll.wait request (spec 11, R257, R261); `got` is the record that has been given to it, with the shard and the cycle in
which it entered (spec 24, R447). -/
structure Request where
  id : Nat
  gid : Nat
  queue : Nat
  core : Nat
  dst : Nat
  off : Nat
  cq : Bool
  got : Option (Nat × Nat × List Byte) := none
  deriving DecidableEq, Repr

/-- An attachment (spec 11, R248): a triggered operation or a task, with the mode of its poster. -/
structure Attach where
  id : Nat
  counter : Nat
  rel : Word
  dep : Bool
  ctx : BitVec 8
  core : Nat
  sup : Bool
  task : Option (Nat × Nat)
  addr : Dword
  rcd : List Byte
  deriving DecidableEq, Repr

/-- A fired record that waits at a full shard (spec 11, R260). -/
structure Fired where
  queue : Nat
  core : Nat
  att : Attach
  deriving DecidableEq, Repr

/-- The distributor and the event counters (spec 11; spec 17). `hostNext` is, by queue, the core of the last host enqueue plus one (spec
17, R359). -/
structure Dist where
  counters : List (Nat × Word)
  owners : List (Nat × BitVec 8)
  attaches : List Attach
  gridid : Word
  queues : List (Nat × BitVec 128)
  shards : List (Nat × List Rec)
  fired : List Fired
  requests : List Request
  hostNext : List (Nat × Nat)
  rr : List (Nat × Nat)
  deriving DecidableEq, Repr

/-- A transfer instruction in progress at its issuing core (spec 08, R177; spec 15, R341). `waiting` are the origin
homes whose DEBIT is not yet answered, `short` the lanes that answered SHORT with the content found, `status` the
resolved lanes with code and reason; `itag` is its tag at the core, `corAt` as in an access; `lost` marks lanes that never resolve, so that D stays empty; `dead` that the group has
gone. -/
structure Xfer where
  id : Nat
  gid : Nat
  node : Nat
  ctx : BitVec 8
  dst : Nat
  wd : Bool
  acq : Bool
  rel : Bool
  scope : Nat
  rmt : Bool
  corAt : Nat
  itag : Nat
  q64 : Bool
  lanes : List FLane
  waiting : List Nat
  short : List (Nat × Int)
  status : List (Nat × Nat × Nat)
  lost : Word
  dead : Bool
  deriving DecidableEq, Repr

/-- The states of a domain on this device (spec 08, R187). -/
inductive DomState where
  | declaring | active | failed
  deriving DecidableEq, Repr

/-- A field domain declared on this device (spec 08, R186). `desc` is its descriptor, `kinds` are the cells that are not ordinary, `pages` the
recorded 64 KiB physical pages, `keys` the memory key and interleave scheme of each cell that is not ordinary, `fdecl` the
group and register that await the status, `dropping` says that an fdrop here has asked the other members, `dropped` are those that
have ended it, and `asked` says that another member's fdrop waits here (spec 08, R190). -/
structure Domain where
  desc : List Byte
  base : Nat
  ncell : Nat
  q64 : Bool
  c : Dword
  lseed : Dword
  floor : Int
  shadow : Nat
  gup : Nat
  owner : BitVec 8
  cq : Dword
  members : BitVec 512
  kinds : List (Nat × Nat)
  pages : List Nat
  keys : List (Nat × Nat × Nat)
  state : DomState
  fdecl : Option (Nat × Nat)
  since : Nat
  dropping : Bool
  dropped : List Nat
  asked : Bool
  deriving DecidableEq, Repr

/-- Who asks for a figure of a domain: an ftot of a group here with its register, another member (spec 15, R347), or the debugger
(spec 16, R356). -/
inductive Asker where
  | group (gid dst : Nat)
  | member (dev : Nat)
  | debugger
  deriving DecidableEq, Repr

/-- A snapshot of a domain (spec 15, R347): who asked for it, the homes it holds (owner codes on this device,
256 + d for the homes of member d), and those that have answered in time with their sums of sources and sinks. `begun` says that it has
started, at cycle `h0`. -/
structure Snap where
  id : Nat
  did : Nat
  asker : Asker
  figure : Nat
  begun : Bool
  h0 : Nat
  homes : List Nat
  answers : List (Nat × Dword × Dword)
  deriving DecidableEq, Repr

/-- The field machinery of the device. A message on its way to a home of this device stands with the packet that brought it,
if one did; `parked` are those that wait at a cell that a snapshot holds, in the order of their arrival; `decided` are the lanes already
decided, per instruction and cell (spec 15, R342, R347). -/
structure Fld where
  domains : List (Nat × Domain)
  xfers : List Xfer
  msgs : List (Nat × FMsg × Option Packet)
  parked : List Nat
  decided : List (Nat × Nat × Word)
  snaps : List Snap
  deriving DecidableEq, Repr

/-- What a sent packet is for, so that its outcome reaches the right place (spec 21, R428). -/
inductive Purpose where
  | line (node line : Nat)
  | store (acc : Nat)
  | read (acc : Nat)
  | atomic (acc : Nat)
  | field
  | ecinc (att : Nat)
  | piece (msg : Nat)
  | mcast (acc : Nat)
  | resp
  deriving DecidableEq, Repr

/-- A packet sent and not acknowledged (spec 21, R425). -/
structure Sent where
  p : Packet
  purpose : Purpose
  sent : Bool
  first : Nat
  last : Nat
  deriving DecidableEq, Repr

/-- A sending delivery context (spec 21, R424, R427). -/
structure SendCtx where
  peer : Nat
  cls : Nat
  gen : Nat
  ctxno : Nat
  next : Nat
  plane : Nat
  last : Nat
  cached : Bool
  pkts : List Sent
  deriving DecidableEq, Repr

/-- A receiving delivery context (spec 21, R425): `got` are the sequence numbers received with the
answers given, 256 while none is; the receiver of class 3 is a group, and its key is `rctxKey`. -/
structure RecvCtx where
  peer : Nat
  cls : Nat
  gen : Nat
  ctxno : Nat
  low : Nat
  got : List (Nat × Nat)
  last : Nat
  cached : Bool
  deriving DecidableEq, Repr

/-- A message this device sends (spec 21, R431, R436); `first` is the cycle in which its first packet was sent, none before. -/
structure OutMsg where
  id : Nat
  peer : Nat
  total : Nat
  first : Option Nat
  kind : Nat
  att : Option Attach
  cmd : Option (Nat × Nat)
  done : Bool
  status : Nat
  deriving DecidableEq, Repr

/-- The registers of a port (spec 21, R413, R414). `held` is the cycle from which the debug service holds its link down (spec 22, R439). -/
structure Port where
  state : BitVec 2
  reason : BitVec 8
  cfg : Word
  swid : Dword
  tagerr : Word
  retry : Word
  drop : Word
  up : Bool
  downAt : Nat
  fails : List Nat
  held : Option Nat := none
  deriving DecidableEq, Repr

/-- The fabric state of the device (spec 21). `domst` holds DEVID and the MEMBER and REKEY bits; `arrived` is the
manager's list; `inmsgs` counts the bytes of arriving messages, `ingress` holds packets that wait for their context, with what the
multicast table said of each when it arrived (R442), `spilled` says that a context has been written out (R429),
`held` new packets that a re-key holds, by receiver and class, `colls` what other members have exchanged of collectives (R435). -/
structure Fab where
  domst : Word
  kgen : Word
  dgup : Word
  members : BitVec 512
  dctxmap : List (Nat × Word)
  ports : List (Nat × Port)
  sctx : List SendCtx
  rctx : List RecvCtx
  ctxnos : List (Nat × Nat)
  opened : List (Nat × Nat)
  msgid : Nat
  outmsgs : List OutMsg
  inmsgs : List (Nat × Nat)
  ingress : List (Packet × Bool)
  spilled : Bool := false
  held : List (Nat × Nat × Packet × Purpose)
  arrived : List Nat
  arriveSent : Bool
  rekeyAt : Nat
  step40 : Nat
  colls : List CollWord
  deriving DecidableEq, Repr

/-- A completion-queue table entry (spec 25, R457), and whether its next record carries FLAGS bit 2. -/
structure CqEntry where
  header : Dword
  valid : Bool
  ctx : BitVec 8
  dropped : Bool
  deriving DecidableEq, Repr

/-- The management space (spec 25, R453 to R457, R464; spec 12, R478). `health` and `healthNew` are the counters in
flash and those not yet flushed; `enmap` and `clktab` of the configuration record (R458), `repair` the ranks reported for repair (R459),
`faults` the uncorrectable sectors that firmware has not yet retried (R465); `debug` the contexts with a session attached; `breaks` the armed comparators (address, and the
block, by GRIDID and number, and group that the debugger names), `armed` the link faults that wait for an instruction to issue (port, address, delay in cycles; spec 22, R439), `stepping` a group that steps one instruction, with the cycle at which the
step ends at the latest and the registers that were empty before it (spec 16, R354, R355). -/
structure Mgmt where
  devstat : Word
  recver : Word
  serial : Dword
  idpub : BitVec 256
  ctxs : List (Nat × Byte)
  regions : List (Nat × Dword)
  cqs : List (Nat × CqEntry)
  health : List (Nat × Nat)
  healthNew : List (Nat × Nat)
  enmap : List (BitVec 64) := []
  clktab : List Byte := []
  repair : List Nat := []
  faults : List Nat := []
  debug : List Nat
  breaks : List (Nat × Option (Nat × Nat) × Option Nat)
  armed : List (Nat × Nat × Nat) := []
  stepping : Option (Nat × Nat × BitVec 256 × BitVec 128)
  flashMarks : List (Nat × BitVec 36)
  floor : Word
  deriving DecidableEq, Repr

/-- DRAM: activation counts per bank, the banks that are due a refresh-management command and those that accept no activate before it
(spec 14, R333), erasure tables and
failed byte lanes per rank, wrong symbols per sector, the sectors found uncorrectable (spec 14, R334 to R337; spec 12, R283), the
interleave schemes that the pages of a frame have been reached through (spec 14, R331), the rows that have shown a correction, by rank and
symbol position (spec 25, R464), and the values of the configuration record; and the uncorrectable words of slice SRAM (spec 18, R399). -/
structure Dram where
  bac : List (Nat × Nat)
  rfm : List Nat
  due : List Nat
  erase : List (Nat × BitVec 36)
  lanes : List (Nat × BitVec 9)
  errors : List (Nat × BitVec 36)
  bad : List Nat
  schemes : List (Nat × BitVec 8)
  fixed : List (Nat × List Nat)
  lvl : Nat
  dec : Nat
  sram : List Nat := []
  deriving DecidableEq, Repr

/-- A continuation on its way (spec 12, R265, R267). -/
structure Cont where
  id : Nat
  owner : Nat
  origin : Nat
  block : Nat
  token : Nat
  lanes : Word
  pc : Dword
  vlist : BitVec 256
  slist : BitVec 128
  v : List (Nat × Word)
  s : List (Nat × Word)
  ctx : BitVec 8
  index : Nat
  arrived : Option Nat
  deriving DecidableEq, Repr

/-- Registers on their way back to the originating group (spec 12, R266, R271); `slot` is the visitor slot that holds them until they are
sent (spec 14, R325). -/
structure Ret where
  id : Nat
  slot : Option (Nat × Nat)
  origin : Nat
  block : Nat
  token : Nat
  lanes : Word
  code : Nat
  reason : Nat
  addr : Dword
  vlist : BitVec 256
  v : List (Nat × Word)
  deriving DecidableEq, Repr

/-- A result on its way to a register that is not an access's (spec 01, R17): the group, whether the destination is a
vector register, its number, and the lanes' words (lane 0 for a scalar one). -/
structure Landing where
  id : Nat
  gid : Nat
  vec : Bool
  dst : Nat
  vals : List (Nat × Word)
  deriving DecidableEq, Repr

/-- A translation invalidation not yet acknowledged (spec 12, R281). -/
structure Inval where
  id : Nat
  gid : Nat
  ctx : BitVec 8
  size : Nat
  addr : Dword
  deriving DecidableEq, Repr

/-- What leaves the device. -/
inductive Effect where
  | packet (plane : Nat) (p : Packet)
  | mcastAnswer (p : Packet) (ok : Bool)
  | msix (vector : Nat)
  | hostData (data : List Byte)
  | control (message : Nat) (value : Nat)
  | hold (did : Nat) (member : Nat)
  | held (did : Nat) (s k : Dword)
  | ftot (did : Nat)
  | report (did : Nat) (lseed : Dword)
  | fdrop (did : Nat)
  | dropped (did : Nat)
  | release (did member : Nat)
  | activation (did member : Nat) (ok : Bool)
  | coll (member : Nat) (w : CollWord)
  | total (did member : Nat) (v : Option Dword)
  | repair (rank : Nat)
  deriving DecidableEq, Repr

/-- A 32-bit word of on-chip memory (spec 18, R399): of a group's vector or scalar registers, a core's accumulators, a slice, or the shadow of
a block. -/
inductive SramWord where
  | vreg (gid key : Nat)
  | sreg (gid r : Nat)
  | acc (core key : Nat)
  | slice (key : Nat)
  | shadow (block : Nat)
  deriving DecidableEq, Repr

/-- What reaches the device and is no step of the opcode table (log entry 108): another member's fdrop, or its answer to one from here
(spec 08, R190); a domain that a member has marked as failed, or an uncorrectable error in the records of a home (spec 15, R351); a
member's request to the anchor (spec 15, R347); what a member exchanges at the start of a collective (spec 21, R435); the debugger's reading of a figure (spec 16, R356) and of a halted block's windows
(spec 20, R411); the failure of a DRAM byte lane (spec 14, R334); an ecset that cydb executes (spec 24, R448); a link fault that it arms or ends (spec 22,
R439); a flit sent again on a link (spec 21, R413); a word of on-chip memory corrected, or found uncorrectable (spec 18, R399); a host's read of the
management space (spec 25, R451). -/
inductive Outside where
  | fdrop (did : Nat)
  | fdropped (did member : Nat)
  | domainFailed (did : Nat)
  | homeError (owner : Nat)
  | total (did member figure : Nat)
  | debugTotal (did figure : Nat)
  | debugRead (block group lane : Nat) (addr : Dword) (count : Nat)
  | laneFailed (rank lane : Nat)
  | counterSet (n : Nat) (value : Word) (own : Bool)
  | coll (w : CollWord)
  | linkFail (port addr delay : Nat)
  | linkUp (port : Nat)
  | flitRetry (plane : Nat)
  | sramFixed (owner : Nat)
  | sramBad (w : SramWord)
  | hostRead (offset count : Nat)
  deriving DecidableEq, Repr

/-- One turn of the agenda: a group issues, a step that is not an instruction is taken, a result lands in its register
(spec 01, R17) or the registers of an ended visitor leave its slot (spec 14, R325), a core's groups come to see a part of a pending store
(spec 13, R286), a number of cycles pass, or something reaches the device that is no step of the opcode table (log entries 2 and 108). -/
inductive Turn where
  | issue (gid : Nat)
  | event (i : Instr)
  | land (id : Nat)
  | see (acc part : Nat)
  | pass (n : Nat)
  | outside (o : Outside)
  deriving DecidableEq, Repr

/-- The model's own fields (log entries 2 and 11): the agenda, the group that issues, the counter of free values, the
issue order of accesses, the next identity, when a byte was last changed by a store, which bytes were stored to while a matrix operation ran
(`touched`; spec 13, R291), which bytes a core-scope release wrote (the byte, the core and
the release's place in the core's order). `deps` are the pending stores that a group has read, each with the access that read it (spec 13,
R286); `points` the releases at .cor that have been performed (place in the core's order, core, group, identity of the release; spec 07,
R158); `tried` is the group whose turn it is in this step, with the address of the
instruction that it tries to issue unless that has issued before. -/
structure Own where
  agenda : List Turn
  cur : Nat
  tried : Option (Nat × Option Dword) := none
  fresh : Nat
  seq : Nat
  ids : Nat
  storeLog : List (Nat × Nat)
  touched : List (Nat × Nat)
  corRel : List (Nat × Nat × Nat)
  deps : List (Nat × Nat × Nat)
  points : List (Nat × Nat × Nat × Nat)
  outbox : List Effect
  deriving DecidableEq, Repr

/-- The device. -/
structure State where
  own : Own
  power : Bool
  clock : Dword
  mem : Mem
  groups : List (Nat × Group)
  blocks : List (Nat × Block)
  grids : List (Nat × Grid)
  nodes : List (Nat × Node)
  l2 : List (Nat × List TlbLine)
  accs : List Access
  cmds : List Cmd
  mops : List MatOp
  conts : List Cont
  rets : List Ret
  lands : List Landing
  invals : List Inval
  dist : Dist
  fld : Fld
  fab : Fab
  mgmt : Mgmt
  dram : Dram
  deriving DecidableEq, Repr

/-- A field home with no records (log entry 8). -/
def Home.reset : Home := { mortars := [], dedups := [], counter := 0, holds := [] }

/-- A core or stack core after a start: accumulator blocks zero and unowned (spec 01, R33), relocation entries free
(spec 14, R321), rotation pointer 0 (spec 17, R365), CARVE 0 and VOPEN 0xFF (spec 25, R455, R460); the other values
are those of log entry 8. -/
def Node.reset : Node :=
  { acc := [], tags := [], holders := [], relocs := [], wc := [], rb := [], recs := [], fetching := [], waits := [],
    tlb := [], wakewhy := 0, waking := none, gated := false, carve := 0, carveNew := 0, vopen := 0xFF, rot := 0,
    served := 0, lastQueue := 255, skipped := [], blocked := none, moves := [], home := Home.reset }

/-- A port after a start: OPEN with reason 0 (spec 21, R414); the rest are those of log entry 8. -/
def Port.reset : Port :=
  { state := 0, reason := 0, cfg := 0, swid := 0, tagerr := 0, retry := 0, drop := 0, up := true, downAt := 0,
    fails := [] }

/-- The device right after a successful cold start (spec 25, R460; log entries 5, 8 and 9): far memory and slices
zero, event counters zero, GRIDID counter 1 (spec 11, R476), every table entry zero, DEVSTAT READY. -/
def State.reset : State :=
  { own := { agenda := [], cur := 0, fresh := 0, seq := 0, ids := 1, storeLog := [], touched := [], corRel := [], deps := [], points := [], outbox := [] },
    power := true,
    clock := 0,
    mem := [],
    groups := [], blocks := [], grids := [], nodes := [], l2 := [],
    accs := [], cmds := [], mops := [], conts := [], rets := [], lands := [], invals := [],
    dist := { counters := [], owners := [], attaches := [], gridid := 1, queues := [], shards := [], fired := [],
              requests := [], hostNext := [], rr := [] },
    fld := { domains := [], xfers := [], msgs := [], parked := [], decided := [], snaps := [] },
    fab := { domst := 0, kgen := 0, dgup := 0, members := 0, dctxmap := [], ports := [], sctx := [], rctx := [],
             ctxnos := [], opened := [], msgid := 0, outmsgs := [], inmsgs := [], ingress := [], held := [], arrived := [],
             arriveSent := false, rekeyAt := 0, step40 := 0, colls := [] },
    mgmt := { devstat := 1, recver := 0, serial := 0, idpub := 0, ctxs := [], regions := [], cqs := [], health := [],
              healthNew := [], enmap := List.replicate 4 0xFFFFFFFFFFFF, clktab := List.replicate 64 0, debug := [], breaks := [],
              stepping := none, flashMarks := [], floor := 0 },
    dram := { bac := [], rfm := [], due := [], erase := [], lanes := [], errors := [], bad := [], schemes := [], fixed := [], lvl := 16, dec := 1 } }

end Sys2Proof.Machine
end

