-- ==== Sys2Proof/Machine/Sparse.lean ====
section
/-! DEFINITION. Sparse maps: association lists kept sorted by key, in which a key that is not listed holds the
map's default value; and the reading and writing of little-endian values in memory. -/

namespace Sys2Proof.Machine

open Sys2Proof

/-- The value listed at a key. -/
def Sparse.find {α : Type} : List (Nat × α) → Nat → Option α
  | [], _ => none
  | (j, v) :: m, k => if j = k then some v else Sparse.find m k

/-- The value at a key, `d` where none is listed. -/
def Sparse.get {α : Type} (d : α) (m : List (Nat × α)) (k : Nat) : α :=
  (Sparse.find m k).getD d

/-- Lists a value at a key, in place of what stood there, keeping the keys sorted. -/
def Sparse.put {α : Type} : List (Nat × α) → Nat → α → List (Nat × α)
  | [], k, v => [(k, v)]
  | (j, w) :: m, k, v =>
    if k < j then (k, v) :: (j, w) :: m
    else if j = k then (k, v) :: m
    else (j, w) :: Sparse.put m k v

/-- Removes a key. -/
def Sparse.del {α : Type} : List (Nat × α) → Nat → List (Nat × α)
  | [], _ => []
  | (j, w) :: m, k => if j = k then Sparse.del m k else (j, w) :: Sparse.del m k

/-- Writes a value at a key; the default value is not listed, so that equal maps are equal lists. -/
def Sparse.set {α : Type} [DecidableEq α] (d : α) (m : List (Nat × α)) (k : Nat) (v : α) : List (Nat × α) :=
  if v = d then Sparse.del m k else Sparse.put m k v

/-- Keys strictly rising. -/
def Sparse.sorted {α : Type} : List (Nat × α) → Bool
  | [] => true
  | [_] => true
  | (j, _) :: (k, w) :: m => decide (j < k) && Sparse.sorted ((k, w) :: m)

/-- The canonical form: keys strictly rising and no default value listed. -/
def Sparse.wf {α : Type} [DecidableEq α] (d : α) (m : List (Nat × α)) : Bool :=
  Sparse.sorted m && m.all (fun p => !decide (p.2 = d))

/-- What a byte that memory does not list reads as (log entry 7). -/
def Mem.unlisted : Byte := 0

/-- The canonical form of memory. -/
def Mem.wf (m : Mem) : Bool := Sparse.wf Mem.unlisted m

/-- One byte of memory. -/
def Mem.rd (m : Mem) (k : Nat) : Byte := Sparse.get Mem.unlisted m k

/-- Memory with one byte written. -/
def Mem.wr (m : Mem) (k : Nat) (b : Byte) : Mem := Sparse.set Mem.unlisted m k b

/-- `n` bytes from a key on, lowest first. -/
def Mem.bytes (m : Mem) (k : Nat) : Nat → List Byte
  | 0 => []
  | n + 1 => Mem.rd m k :: Mem.bytes m (k + 1) n

/-- Bytes written from a key on. -/
def Mem.wrBytes (m : Mem) (k : Nat) : List Byte → Mem
  | [] => m
  | b :: bs => Mem.wrBytes (Mem.wr m k b) (k + 1) bs

/-- The number a list of bytes holds, little-endian (spec 02, R41). -/
def leNat : List Byte → Nat
  | [] => 0
  | b :: bs => b.toNat + 256 * leNat bs

/-- The `n` low bytes of a number, little-endian. -/
def leBytes (x : Nat) : Nat → List Byte
  | 0 => []
  | n + 1 => BitVec.ofNat 8 x :: leBytes (x / 256) n

/-- The number in `n` bytes of memory. -/
def Mem.num (m : Mem) (k n : Nat) : Nat := leNat (Mem.bytes m k n)

/-- The number in bytes o to o + n − 1 of a list of bytes. -/
def field (l : List Byte) (o n : Nat) : Nat := leNat ((l.drop o).take n)

/-- The list with `f` applied to every element that `p` selects. -/
def updWhere {α : Type} (l : List α) (p : α → Bool) (f : α → α) : List α :=
  l.map (fun x => if p x then f x else x)

end Sys2Proof.Machine
end

