-- ==== Sys2Proof/Machine/Base.lean ====
section
/-! DEFINITION. The named operations over groups, registers, blocks and cores: reading and replacing them, waking and gating, finishing an
instruction, the end of a group, a visitor and a block. -/

namespace Sys2Proof.Machine

open Sys2Proof

/-- What a turn of the machine answers. -/
abbrev Res := Host.Outcome State Fault Refusal

/-- The lanes in ascending order (spec 00, R5). -/
def laneList : List Nat :=
  [0, 1, 2, 3, 4, 5, 6, 7, 8, 9, 10, 11, 12, 13, 14, 15, 16, 17, 18, 19, 20, 21, 22, 23, 24, 25, 26, 27, 28, 29, 30, 31]

/-- The lanes set in a mask, ascending. -/
def lanesOf (w : Word) : List Nat := laneList.filter (fun L => w.getLsbD L)

/-- The mask of the lanes that satisfy a condition. -/
def maskOf (p : Nat → Bool) : Word :=
  BitVec.ofNat 32 (laneList.foldl (fun m L => if p L then m + 2 ^ L else m) 0)

/-- The lowest lane of a mask, 0 for an empty one. -/
def lowestLane (w : Word) : Nat := (lanesOf w).headD 0

/-- How many bits of a word are set. -/
def popcount (w : Word) : Nat := (lanesOf w).length

/-- The trap causes (spec 12, R284). -/
inductive Cause where
  | illop | misplace | ialign | xlate | landing | regbound | priv | emptyreg | stkkind | stkovf | stkund | dspace
  | dalign | lbound | fstore | faberr | fdom | famt | fneg | fovf | gang | fmtdiv | fmtbad | accown | accbound | tdesc
  | syncbad | engflt | cdesc | qbad | migref | migflt | sdc | uncorr | swtrap | brk | scall | imgbad
  deriving DecidableEq, Repr

/-- The cause numbers (spec 12, R284). -/
def causeNo : Cause → Nat
  | .illop => 1 | .misplace => 2 | .ialign => 3 | .xlate => 4 | .landing => 5 | .regbound => 6 | .priv => 7
  | .emptyreg => 8 | .stkkind => 9 | .stkovf => 10 | .stkund => 11 | .dspace => 12 | .dalign => 13 | .lbound => 14
  | .fstore => 15 | .faberr => 16 | .fdom => 17 | .famt => 18 | .fneg => 19 | .fovf => 20 | .gang => 21
  | .fmtdiv => 22 | .fmtbad => 23 | .accown => 24 | .accbound => 25 | .tdesc => 26 | .syncbad => 27 | .engflt => 28
  | .cdesc => 29 | .qbad => 30 | .migref => 31 | .migflt => 32 | .sdc => 33 | .uncorr => 34 | .swtrap => 35
  | .brk => 36 | .scall => 37 | .imgbad => 38

/-- The causes routed to the supervisor handler, by number (spec 12, R284). -/
def causeSup (n : Nat) : Bool := n = 4 || n = 24 || n = 37

/-! ### Groups, blocks, nodes -/

def State.group (s : State) (gid : Nat) : Option Group := Sparse.find s.groups gid
def State.setGroup (s : State) (gid : Nat) (g : Group) : State := { s with groups := Sparse.put s.groups gid g }
def State.modGroup (s : State) (gid : Nat) (f : Group → Group) : State :=
  match s.group gid with
  | none => s
  | some g => s.setGroup gid (f g)
def State.dropGroup (s : State) (gid : Nat) : State := { s with groups := Sparse.del s.groups gid }

def State.block (s : State) (b : Nat) : Option Block := Sparse.find s.blocks b
def State.setBlock (s : State) (b : Nat) (x : Block) : State := { s with blocks := Sparse.put s.blocks b x }
def State.modBlock (s : State) (b : Nat) (f : Block → Block) : State :=
  match s.block b with
  | none => s
  | some x => s.setBlock b (f x)

def State.grid (s : State) (k : Nat) : Option Grid := Sparse.find s.grids k
def State.setGrid (s : State) (k : Nat) (x : Grid) : State := { s with grids := Sparse.put s.grids k x }
def State.modGrid (s : State) (k : Nat) (f : Grid → Grid) : State :=
  match s.grid k with
  | none => s
  | some x => s.setGrid k (f x)

def State.node (s : State) (n : Nat) : Node := Sparse.get Node.reset s.nodes n
def State.setNode (s : State) (n : Nat) (x : Node) : State := { s with nodes := Sparse.set Node.reset s.nodes n x }
def State.modNode (s : State) (n : Nat) (f : Node → Node) : State := s.setNode n (f (s.node n))

/-- The same change at every core and stack core. -/
def State.mapNodes (s : State) (f : Node → Node) : State :=
  { s with nodes := s.nodes.map (fun (p : Nat × Node) => (p.1, f p.2)) }

/-- The same change of every resident group. -/
def State.mapGroups (s : State) (f : Nat → Group → Group) : State :=
  { s with groups := s.groups.map (fun (p : Nat × Group) => (p.1, f p.1 p.2)) }

/-- A new identity for a command, access, message or record of the model's own. -/
def State.newId (s : State) : State := { s with own := { s.own with ids := s.own.ids + 1 } }

/-- The next place in the issue order of accesses. -/
def State.newSeq (s : State) : State := { s with own := { s.own with seq := s.own.seq + 1 } }

/-- Something leaves the device. -/
def State.emit (s : State) (e : Effect) : State := { s with own := { s.own with outbox := s.own.outbox ++ [e] } }

/-- The block and the kernel of a group; a visitor reads its originating group's (spec 12, R268). -/
def State.blockOf (s : State) (g : Group) : Option Block := s.block g.block
def State.kernelOf (s : State) (g : Group) : Option Kernel := (s.block g.block).map (·.k)
def State.gridOf (s : State) (g : Group) : Option Grid :=
  match s.block g.block with
  | none => none
  | some b => s.grid b.grid

/-- PRIVMODE: supervisor mode (spec 01, R35). -/
def Group.priv (g : Group) : Bool := g.ctl.supAt.isSome

/-- One health counter goes up (spec 25, R464); `k` names the counter and its unit. -/
def State.count (s : State) (k : Nat) : State :=
  { s with mgmt := { s.mgmt with healthNew := Sparse.put s.mgmt.healthNew k (Sparse.get 0 s.mgmt.healthNew k + 1) } }

/-- Health counters by kind and unit. -/
def hcSymbols (rank : Nat) : Nat := 0x100000 + rank
def hcHisto (rank pos : Nat) : Nat := 0x200000 + rank * 64 + pos
def hcMarks (rank : Nat) : Nat := 0x300000 + rank
def hcUncorr (rank : Nat) : Nat := 0x400000 + rank
def hcMerged (rank : Nat) : Nat := 0x500000 + rank
def hcRefresh (rank : Nat) : Nat := 0x600000 + rank
def hcFlit (plane : Nat) : Nat := 0x700000 + plane
def hcTag (plane : Nat) : Nat := 0x800000 + plane
def hcFaulted (plane : Nat) : Nat := 0x900000 + plane
def hcSram (node : Nat) : Nat := 0xA00000 + node
def hcSdc : Nat := 0xB00000
def hcRollback : Nat := 0xB00001
def hcTerm : Nat := 0xB00002
def hcFieldW : Nat := 0xB00003
def hcCqFault : Nat := 0xB00004
def hcFailMark : Nat := 0xB00005
def hcTransient (unit : Nat) : Nat := 0xC00000 + unit
def hcLasting (unit : Nat) : Nat := 0xD00000 + unit
def hcScrubbed (rank : Nat) : Nat := 0xE00000 + rank
def hcScrubBad (rank : Nat) : Nat := 0xF00000 + rank

/-! ### Waking a core -/

/-- An event readies a group of a core: a gated core starts to wake, with the event's WAKEWHY bits (spec 01, R36; spec
07, R167). -/
def State.rouse (s : State) (n : Nat) (bits : Word) : State :=
  if (s.node n).gated then s.modNode n (fun x => { x with waking := some ((x.waking.getD 0) ||| bits) }) else s

/-- The core wakes: WAKEWHY is rewritten whole (spec 01, R36). -/
def State.wake (s : State) (n : Nat) : State :=
  s.modNode n (fun x => { x with gated := false, wakewhy := x.waking.getD 0, waking := none })

/-- The holds under which a core can be clock-gated (spec 07, R167). -/
def Hold.gates : Hold → Bool
  | .vreg _ | .sreg _ | .mjoin _ | .sleep _ | .bar | .barc | .barh _ | .batch _ | .phase _ _ | .latch _ _ => true
  | _ => false

/-- Whether a group is in the save image of its evicted block (spec 18, R391). -/
def State.isAway (s : State) (g : Group) : Bool :=
  g.visitor.isNone && (match s.block g.block with | none => false | some b => b.saved.isSome)

/-- Gates a core all of whose resident groups are stalled, with no imprecise trap to take (spec 07, R167; spec 12, R277). -/
def State.gate (s : State) (n : Nat) : State :=
  if s.groups.all (fun p => p.2.owner ≠ n || (p.2.sched.hold.gates && p.2.out.imprecise.isEmpty) || s.isAway p.2) then
    s.modNode n (fun x => { x with gated := true })
  else s

/-- What a group waits for; in a skid it stops there (spec 18, R384). -/
def State.park (s : State) (gid : Nat) (h : Hold) : State :=
  s.modGroup gid (fun g => { g with sched := { g.sched with hold := h, skidLeft := g.sched.skidLeft.map (fun _ => 0) } })

/-- The group does not issue: it waits, and keeps its PC (spec 01, R18). -/
def State.stall (s : State) (gid : Nat) (h : Hold) : State :=
  match s.group gid with
  | none => s
  | some g => (s.park gid h).gate g.owner

/-- The holds of an instruction that has issued: it completes before an expiry of a joinw takes effect (spec 05, R117). -/
def Hold.issued : Hold → Bool
  | .roused | .barOrder | .sleep _ | .phase _ _ | .batch _ | .bar | .barc | .barh _ | .mopf | .mwait _ | .mjoin _ | .checks _ => true
  | _ => false

/-- What a group waited for has come about: it may issue, or complete the instruction that it has issued, and its core wakes with the bits
given (spec 01, R36; spec 05, R117; spec 07, R167). -/
def State.unpark (s : State) (gid : Nat) (bits : Word) : State :=
  match s.group gid with
  | none => s
  | some g =>
    let t := s.setGroup gid { g with sched := { g.sched with hold := if g.sched.hold.issued then .roused else .none } }
    if s.isAway g then t else t.rouse g.owner bits

/-! ### Finishing an instruction -/

/-- A group's PC after an instruction; in a skid it counts the instruction, unless that had issued before its block was halted, and records
HALTPC (spec 18, R384). -/
def Group.goto (g : Group) (pc : Dword) : Group :=
  let counts := g.sched.skidLeft.isSome && g.sched.hold ≠ .roused
  { g with
    ctl := { g.ctl with pc := pc }
    sched := { g.sched with hold := .none, skidLeft := if counts then g.sched.skidLeft.map (· - 1) else g.sched.skidLeft, passBp := false }
    sys := if g.sched.skidLeft.isSome then { g.sys with skid := if counts then g.sys.skid + 1 else g.sys.skid, haltpc := pc } else g.sys }

/-- A group's PC after an instruction that it had issued before its block was halted (spec 18, R384). -/
def Group.past (g : Group) (n : Nat) : Group :=
  { g with sched := { g.sched with hold := .roused } }.goto (g.ctl.pc + BitVec.ofNat 64 n)

/-- Goes to a target. -/
def State.jump (s : State) (gid : Nat) (pc : Dword) : State := s.modGroup gid (fun g => g.goto pc)

/-- Goes to the next instruction, `n` bytes on. -/
def State.advance (s : State) (gid : Nat) (n : Nat) : State :=
  s.modGroup gid (fun g => g.goto (g.ctl.pc + BitVec.ofNat 64 n))

/-! ### Registers -/

/-- Whether a released matrix operation still covers a register (spec 13, R291). -/
def Group.busy (g : Group) (r : Nat) : Bool := g.eng.async.any (fun a => a.regs.getLsbD r)

/-- A vector register of one lane; v255 reads zero (spec 01, R14). -/
def Group.rdV (g : Group) (r L : Nat) : Word := if r = 255 then 0 else Sparse.get 0 g.regs.v (32 * r + L)

/-- A scalar register. -/
def Group.rdS (g : Group) (r : Nat) : Word := Sparse.get 0 g.regs.s r

/-- What an instruction reads from a vector register: a free value while a matrix operation covers it (spec 13, R291;
log entry 20). -/
def State.readV (s : State) (g : Group) (r L : Nat) : Word :=
  if r ≠ 255 && g.busy r then Config.freeWord s.own.fresh (32 * r + L) else g.rdV r L

/-- A group with lanes of a vector register written; v255 discards (spec 01, R14). -/
def Group.putV (g : Group) (r : Nat) (vals : List (Nat × Word)) : Group :=
  if r = 255 then g
  else { g with regs := { g.regs with
    v := vals.foldl (fun m p => Sparse.set 0 m (32 * r + p.1) p.2) g.regs.v
    vbad := g.regs.vbad.filter (fun k => !vals.any (fun p => 32 * r + p.1 = k)) } }

def Group.putS (g : Group) (r : Nat) (x : Word) : Group :=
  { g with regs := { g.regs with s := Sparse.set 0 g.regs.s r x, sbad := g.regs.sbad.filter (· ≠ r) } }

/-- A vector register marked empty or full; v255 is always full (spec 01, R14, R17). -/
def Group.markV (g : Group) (r : Nat) (empty : Bool) : Group :=
  if r = 255 then g
  else { g with regs := { g.regs with vempty :=
      if empty then g.regs.vempty ||| (1#256 <<< r) else g.regs.vempty &&& ~~~(1#256 <<< r) } }

def Group.markS (g : Group) (r : Nat) (empty : Bool) : Group :=
  { g with regs := { g.regs with sempty :=
      if empty then g.regs.sempty ||| (1#128 <<< r) else g.regs.sempty &&& ~~~(1#128 <<< r) } }

/-- Appends a line image to the rollback log at the first write of the interval; a full log makes the interval
unclean (spec 18, R396, R397). -/
def Shadow.logged (sh : Shadow) (gid : Nat) (t : LineTag) (image : List Word) : Shadow :=
  if !sh.clean || sh.log.any (fun e => e.2.1 = t) then sh
  else if 32 ≤ (sh.log.filter (fun e => e.1 = gid)).length then { sh with clean := false }
  else { sh with log := (gid, t, image) :: sh.log }

def State.logLine (s : State) (b gid : Nat) (t : LineTag) (image : List Word) : State :=
  s.modBlock b (fun x => match x.shadow with
    | none => x
    | some sh => { x with shadow := some (sh.logged gid t image) })

/-- The barrier interval of a block becomes unclean (spec 18, R397). -/
def State.unclean (s : State) (b : Nat) : State :=
  s.modBlock b (fun x => { x with shadow := x.shadow.map (fun sh => { sh with clean := false }) })

/-- Writes lanes of a vector register: the one operation that does so for an instruction. It logs the old register for
rollback (spec 18, R396); while a matrix operation covers the register, what it holds and the operation's input are
left open, lane by lane (spec 13, R291). -/
def State.writeV (s : State) (gid r : Nat) (vals : List (Nat × Word)) : State :=
  match s.group gid with
  | none => s
  | some g =>
    if r = 255 || vals.isEmpty then s
    else
      let s := if g.visitor.isSome then s else s.logLine g.block gid (.vreg gid r) (laneList.map (g.rdV r))
      if g.busy r then
        let ops := (g.eng.async.filter (fun a => a.regs.getLsbD r)).map (·.op)
        { s.modGroup gid (fun g => g.putV r (vals.map (fun p =>
            (p.1, Config.freeWord s.own.fresh (0x10000 + 32 * r + p.1))))) with
          mops := s.mops.map (fun o => if ops.contains o.joint then
            { o with taint := vals.map (fun p => gid * 8192 + 32 * r + p.1) ++ o.taint } else o) }
      else s.modGroup gid (fun g =>
        let g' := g.putV r vals
        { g' with eng := { g'.eng with unfenced := g'.eng.unfenced ||| (1#256 <<< r) } })

/-- Writes a scalar register. -/
def State.writeS (s : State) (gid r : Nat) (x : Word) : State := s.modGroup gid (fun g => g.putS r x)

/-- The helper lanes of a group: exited lanes of a quad that has an active lane; none in a visitor (spec 01, R11). -/
def Group.helpers (g : Group) : Word :=
  if g.visitor.isSome then 0
  else maskOf (fun L => !g.ctl.livem.getLsbD L &&
    (g.ctl.exm.getLsbD (L / 4 * 4) || g.ctl.exm.getLsbD (L / 4 * 4 + 1) || g.ctl.exm.getLsbD (L / 4 * 4 + 2) ||
      g.ctl.exm.getLsbD (L / 4 * 4 + 3)))

/-- The lane set W: the active lanes and the helper lanes (spec 06, R125). -/
def Group.wset (g : Group) : Word := g.ctl.exm ||| g.helpers

/-! ### The end of groups and blocks -/

/-- What a visitor takes home: its listed registers for the lanes it still holds (spec 12, R269, R271). -/
def State.endVisitor (s : State) (gid code reason : Nat) (addr : Dword) : State :=
  match s.group gid with
  | none => s
  | some g =>
    match g.visitor with
    | none => s
    | some v =>
      let r : Ret := { id := s.own.ids, slot := some (g.owner, v.slot), origin := v.origin, block := g.block, token := v.token, lanes := g.ctl.livem,
                       code := code, reason := reason, addr := addr, vlist := v.vlist, v := g.regs.v }
      ({ s with rets := if g.ctl.livem = 0 then s.rets else s.rets ++ [r] }.newId).dropGroup gid

/-- The blocks of the same cluster as a block. -/
def State.cluster (s : State) (b : Block) : List (Nat × Block) :=
  s.blocks.filter (fun p => p.2.grid = b.grid && p.2.lin / p.2.k.clsz = b.lin / b.k.clsz)

/-- Whether every member of a block's cluster has ended. -/
def State.clusterDone (s : State) (b : Block) : Bool :=
  (s.cluster b).all (fun p => p.2.live.isEmpty) &&
    (match s.grid b.grid with
      | none => true
      | some g => g.todo.all (fun l => l / b.k.clsz ≠ b.lin / b.k.clsz))

/-- Whether engine work of a block is still outstanding (spec 18, R394). -/
def State.engineBusy (s : State) (b : Nat) : Bool :=
  s.cmds.any (fun c => c.block = b) || s.mops.any (fun o => o.block = b || o.peers.any (fun p => p.1 = b))

/-- Frees the relocation entry of an ended block, or retains it while its cluster lives (spec 14, R322; spec 18,
R394). The entry of a block that ends while it is evicted goes on naming the image that holds its contents (log entry 109). -/
def State.reapBlock (s : State) (k : Nat) : State :=
  match s.block k with
  | none => s
  | some b =>
    if !b.live.isEmpty || s.engineBusy k then s
    else if s.clusterDone b then
      { s with blocks := Sparse.del s.blocks k }.modNode b.core (fun n => { n with
          relocs := Sparse.del n.relocs b.reloc })
    else
      s.modNode b.core (fun n => { n with
        relocs := match Sparse.find n.relocs b.reloc with
          | none => n.relocs
          | some r => if r.st = 2 then n.relocs else Sparse.put n.relocs b.reloc { r with st := 3, save := 0 } })

/-- Frees every allocation that nothing holds any more. -/
def State.reap (s : State) : State := (s.blocks.map (·.1)).foldl State.reapBlock s

/-! ### Stores held under CONTAIN (spec 18, R398) -/

/-- Whether a block holds some of an access's stores. -/
def Access.anyHeld (a : Access) : Bool := a.parts.any (·.hold)

/-- The stores held of some groups enter the ordinary store path: what the block has seen of them the core sees from now on, in the same
order. -/
def State.unhold (s : State) (mine : Nat → Bool) : State :=
  let seen := (s.accs.filter (fun a => mine a.gid)).flatMap (fun a => (a.parts.filter (fun p => p.hold && p.vis ≠ 0)).map (·.vis))
  let free (p : Part) : Part :=
    if p.hold then { p with hold := false, vis := if p.vis = 0 then 0 else s.own.seq + (seen.filter (· ≤ p.vis)).length } else p
  { s with
    own := { s.own with seq := s.own.seq + seen.length }
    accs := updWhere s.accs (fun a => mine a.gid && a.anyHeld) (fun a => { a with parts := a.parts.map free }) }

/-- The stores held of some groups are performed nowhere. -/
def State.dropHeld (s : State) (mine : Nat → Bool) : State :=
  let kept (a : Access) : Access := if mine a.gid && a.anyHeld then { a with parts := a.parts.filter (fun p => !p.hold) } else a
  { s with accs := (s.accs.map kept).filter (fun a => !(mine a.gid && a.parts.isEmpty)) }

/-- The stores that a block holds under CONTAIN enter the ordinary store path. -/
def State.releaseHeld (s : State) (blk : Nat) : State :=
  match s.block blk with
  | none => s
  | some b => s.unhold b.gids.contains

/-- A block has ended: its grid counts it, it holds no accumulator block (spec 18, R387), and its groups' waits, requests and items end
(spec 17, R371; spec 18, R394; spec 12, R273). The stores that it holds take effect when its groups have retired (spec 05, R122), and are lost with
a termination. -/
def State.endBlock (s : State) (k : Nat) (cause : Option Nat) : State :=
  match s.block k with
  | none => s
  | some b =>
    let gone := b.gids
    let s := (s.modNode b.core (fun n => { n with holders := n.holders.filter (fun h => h.2 ≠ k) })).setBlock k { b with
      live := [], term := cause, thalt := false, evicting := false, shadow := none, pool := [], saved := none }
    let s := if cause.isSome then s.dropHeld gone.contains else s.unhold gone.contains
    let s := { s with
      groups := s.groups.filter (fun p => p.2.block ≠ k)
      conts := if cause.isSome then s.conts.filter (fun c => c.block ≠ k) else s.conts
      rets := s.rets.filter (fun r => r.block ≠ k)
      lands := s.lands.filter (fun l => !gone.contains l.gid)
      cmds := if cause.isSome then s.cmds.filter (fun c => c.block ≠ k || c.run) else s.cmds
      dist := { s.dist with requests := s.dist.requests.filter (fun r => !gone.contains r.gid) }
      nodes := if cause.isSome then
          s.nodes.map (fun (n : Nat × Node) => (n.1, { n.2 with waits := n.2.waits.filter (fun w => !gone.contains w.gid) }))
        else s.nodes
      fld := { s.fld with xfers := s.fld.xfers.map (fun (x : Xfer) => if gone.contains x.gid then { x with dead := true } else x) } }
    (s.modGrid b.grid (fun g => { g with
      deferred := g.deferred || !b.objFail.isEmpty
      gone := g.gone ++ b.gids
      ended := g.ended + 1, cause := match g.cause with | some c => some c | none => cause })).reap

/-- Terminates a block with a cause (spec 12, R277; spec 18, R394). -/
def State.terminate (s : State) (k cause : Nat) : State :=
  let s := s.endBlock k (some cause)
  if cause = 34 then s.count hcTerm else s

/-- Ends the halt of a block (spec 18, R385), unless an eviction or the debugger holds it too. -/
def State.endHalt (s : State) (k : Nat) : State :=
  let left : Option Nat := match s.block k with
    | none => none
    | some b => if b.evicting || b.dhalt then some 0 else none
  { s.modBlock k (fun b => { b with thalt := false }) with
    groups := s.groups.map (fun p => (p.1, if p.2.block = k && p.2.visitor.isNone then
      { p.2 with sched := { p.2.sched with skidLeft := left } } else p.2)) }

/-- The state of a guard slot: 0 unresolved, 1 false, 2 true (spec 01, R24). -/
def Group.guard (g : Group) (n : Nat) : Nat := (g.ctl.guards.toNat / 4 ^ n) % 4

/-- Whether slots issue a command that names one of them. -/
def keepsBy (slots : BitVec 16) (c : Cmd) : Bool := c.gs = 0 || slots.toNat / 4 ^ c.gs % 4 = (if c.gneg then 1 else 2)

/-- A command of a copy FIFO that a retiring group leaves behind: not held behind an unresolved guard (spec 01, R24;
spec 05, R122). -/
def Group.keeps (g : Group) (c : Cmd) : Bool :=
  c.gs = 0 || (if c.gneg then g.guard c.gs = 1 else g.guard c.gs = 2)

/-- Whether a group still waits for a producer to land (spec 05, R122; spec 01, R17): its accesses with a destination, its
requests, its mrds, its snapshots and declarations, its migrations, and the results on their way. A transfer is not waited
for: its status is lost (spec 08, R181; log entry 102). -/
def State.producing (s : State) (gid : Nat) : Bool :=
  s.accs.any (fun a => a.gid = gid && a.regs ≠ 0) || s.dist.requests.any (fun r => r.gid = gid) ||
    s.mops.any (fun o => o.kind = .mrd && o.members.contains gid) || s.lands.any (fun l => l.gid = gid) ||
    s.fld.snaps.any (fun x => match x.asker with | .group i _ => i = gid | _ => false) || s.fld.domains.any (fun d => d.2.fdecl.any (fun p => p.1 = gid)) ||
    s.conts.any (fun c => c.origin = gid) || s.rets.any (fun r => r.origin = gid) ||
    s.groups.any (fun p => p.2.visitor.any (fun v => v.origin = gid))

/-- Retires a group whose LIVEM is zero once its producers have landed and its matrix FIFO is empty: those commands take effect
as if the group had stayed (spec 05, R122). -/
def State.tryRetire (s : State) (gid : Nat) : State :=
  match s.group gid with
  | none => s
  | some g =>
    if g.ctl.livem ≠ 0 || g.visitor.isSome || s.producing gid || !g.eng.matQ.isEmpty then s
    else
      let s := { s.dropGroup gid with
        cmds := s.cmds ++ g.eng.copyQ.filter g.keeps
        fld := { s.fld with xfers := s.fld.xfers.map (fun (x : Xfer) => if x.gid = gid then { x with dead := true } else x) } }
      match s.block g.block with
      | none => s
      | some b =>
        -- unresolved slots resolve false (spec 01, R24)
        let slots := if g.index = b.k.commg then
            some ((List.range 8).foldl (fun (w : BitVec 16) n => if g.guard n = 0 then w ||| (1#16 <<< (2 * n)) else w) g.ctl.guards) else b.slots
        let s := s.setBlock g.block { b with live := b.live.filter (· ≠ gid), slots := slots }
        let s := if b.thalt && b.hgrp = g.index then s.endHalt g.block else s
        let s := if g.out.imprecise.isEmpty && g.out.storeFail.isEmpty && g.out.objFail.isEmpty then s
          else s.modGrid b.grid (fun x => { x with deferred := true })
        if b.live.all (· = gid) then s.endBlock g.block none else s

end Sys2Proof.Machine
end

