-- ==== Sys2Proof/Machine/Flags.lean ====
section
/-! DEFINITION. Condition codes. No instruction of this machine sets a flag register (spec 05, R103); conditions are
computed on operand values and their result is written to a register or a mask. -/

namespace Sys2Proof.Machine

open Sys2Proof

/-- The integer conditions: 0 eq, 1 ne, 2 lt, 3 le, 4 gt, 5 ge (spec 05, R106; spec 06, R127). -/
def condInt (cc : Nat) (a b : Int) : Bool :=
  match cc with
  | 0 => a = b
  | 1 => a ≠ b
  | 2 => a < b
  | 3 => a ≤ b
  | 4 => b < a
  | _ => b ≤ a

/-- The wait comparisons: 0 eq, 1 ne, 2 lti, 3 gei, 4 ltn, 5 gen (spec 07, R163). -/
def condWait (cmp : Nat) (a b : Word) : Bool :=
  match cmp with
  | 0 => a = b
  | 1 => a ≠ b
  | 2 => a.toInt < b.toInt
  | 3 => b.toInt ≤ a.toInt
  | 4 => a.toNat < b.toNat
  | _ => b.toNat ≤ a.toNat

/-- (a − b) mod 2^32 < 2^31: the condition of attachments and batches (spec 10, R237; spec 11, R248). -/
def wrapGe (a b : Word) : Bool := (a - b).toNat < 2 ^ 31

/-- (a − b) mod 2^32 from 1 to 2^31 − 1: a phase or batch number passed (spec 10, R234, R237). -/
def wrapGt (a b : Word) : Bool := 1 ≤ (a - b).toNat && (a - b).toNat < 2 ^ 31

end Sys2Proof.Machine
end

