-- ==== Sys2Proof/Machine/Sectors.lean ====
section
/-! DEFINITION. The homes of bytes (spec 14, R319, R331, R332) and what a home does with one: DRAM activations and the symbol code (R333 to
R337), reads and writes of memory, and the answering of waits (spec 07, R165). -/

namespace Sys2Proof.Machine

open Sys2Proof

/-- The memory key of a slice byte (spec 14, R317, R318). -/
def sliceKey (core off : Nat) : Nat := 2 ^ 39 + core * 2 ^ 21 + off

/-! ### Homes of far memory -/

/-- The bit ranges of R332: STK, CH, PCH, BK and BG. -/
def ilMap (il : Nat) : List Nat :=
  -- lowest bits of STK, CH, PCH, BK, BG
  match il with
  | 0 => [8, 12, 11, 19, 21]
  | 1 => [9, 13, 12, 19, 21]
  | 2 => [10, 14, 13, 19, 21]
  | 3 => [12, 16, 15, 10, 21]
  | 4 => [27, 9, 8, 16, 18]
  | 5 => [27, 11, 10, 16, 18]
  | 6 => [22, 17, 16, 10, 12]
  | _ => [25, 20, 19, 10, 16]

def dramField (il o i n : Nat) : Nat := o / 2 ^ ((ilMap il).getD i 0) % 2 ^ n

/-- The stack core that is the home of a far-memory address under an interleave scheme (spec 14, R319, R332). -/
def farHome (il addr : Nat) : Nat :=
  let o := addr % 2 ^ 30
  192 + 8 * dramField il o 0 3 + dramField il o 1 5 / 4

/-- The rank of a far-memory address: stack, channel, pseudo-channel (spec 14, R330). -/
def rankOf (il addr : Nat) : Nat :=
  let o := addr % 2 ^ 30
  dramField il o 0 3 * 64 + dramField il o 1 5 * 2 + dramField il o 2 1

/-- The bank of a far-memory address. -/
def bankOf (il addr : Nat) : Nat :=
  let o := addr % 2 ^ 30
  rankOf il addr * 32 + dramField il o 4 3 * 4 + dramField il o 3 2

/-- The row of a far-memory address within its rank: its bank and its row (spec 14, R331, R332). -/
def rowOf (il addr : Nat) : Nat :=
  let o := addr % 2 ^ 30
  let low := match il with
    | 4 | 5 => o / 2 ^ 21 % 64
    | 6 => o / 2 ^ 25 % 32 * 2 + o / 2 ^ 15 % 2
    | 7 => o / 2 ^ 28 % 4 * 16 + o / 2 ^ 12 % 16
    | _ => o / 2 ^ 24 % 64
  bankOf il addr * 2 ^ 15 + addr / 2 ^ 30 * 64 + low

/-- The byte of a far-memory address within its row (spec 14, R332). -/
def colOf (il addr : Nat) : Nat :=
  let o := addr % 2 ^ 30
  match il with
  | 0 => o / 2 ^ 17 % 4 * 256 + o % 256
  | 1 => o / 2 ^ 18 % 2 * 512 + o % 512
  | 4 => o / 2 ^ 14 % 4 * 256 + o % 256
  | _ => o % 1024

/-- The scheme that the device's own accesses by physical address name: that of the frame's pages (log entry 42). -/
def ownIl : Nat := 8

/-- The schemes that the pages of a frame have been reached through (spec 14, R331). -/
def State.schemesOf (s : State) (key : Nat) : BitVec 8 := Sparse.get 0 s.dram.schemes (key / 2 ^ 30)

/-- The scheme of an access. -/
def State.scheme (s : State) (il key : Nat) : Nat :=
  if il < 8 then il else ((List.range 8).find? (fun i => (s.schemesOf key).getLsbD i)).getD 0

/-- A page of a scheme is reached. -/
def State.reach (s : State) (il key : Nat) : State :=
  if 8 ≤ il || 2 ^ 39 ≤ key then s
  else { s with dram := { s.dram with schemes := Sparse.set 0 s.dram.schemes (key / 2 ^ 30) (s.schemesOf key ||| (1#8 <<< il)) } }

/-- Whether a place lies in the delivery-context region, once the device has written a context there: the spec gives no layout (spec 21, R429; spec
25, R456; log entry 125). -/
def State.inDelivery (s : State) (key : Nat) : Bool :=
  s.fab.spilled && (let base := (Sparse.get 0 s.mgmt.regions 0).toNat % 2 ^ 39; base ≤ key && key < base + 0x2000000)

/-- Whether the bytes of a place are left open: pages of different schemes share its frame, so that each reads and writes the other's data at
unspecified places (spec 14, R331; log entry 59), or delivery contexts have been written there. -/
def State.mixed (s : State) (key : Nat) : Bool :=
  key < 2 ^ 39 && (1 < ((List.range 8).filter (fun i => (s.schemesOf key).getLsbD i)).length || s.inDelivery key)

/-- The home of a memory key: the core of a slice byte, or the stack core of a far-memory sector. -/
def homeOf (il key : Nat) : Nat := if key < 2 ^ 39 then farHome il key else (key - 2 ^ 39) / 2 ^ 21

/-! ### The symbol code (spec 14, R334, R335) -/

/-- A product in GF(2^8) with the polynomial x^8 + x^4 + x^3 + x^2 + 1. -/
def gfMul (a b : Nat) : Nat :=
  ((List.range 8).foldl (fun (r : Nat × Nat) i =>
    (if b.testBit i then r.1 ^^^ r.2 else r.1, if r.2 < 128 then 2 * r.2 else (2 * r.2) ^^^ 0x11D)) (0, a)).1

/-- The coefficients below x^4 of (x − 1)(x − α)(x − α²)(x − α³), the highest first. -/
def gfGen : List Nat := [15, 54, 120, 64]

/-- The four check symbols of 32 data bytes: the remainder of the data, byte 0 the highest coefficient, times x^4 (log entry 58). -/
def checkSymbols (data : List Byte) : List Byte :=
  (data.foldl (fun (r : List Nat) d =>
    let top := d.toNat ^^^ r.headD 0
    (List.range 4).map (fun i => (r.getD (i + 1) 0) ^^^ gfMul top (gfGen.getD i 0))) [0, 0, 0, 0]).map (BitVec.ofNat 8)

/-- The 36 symbols that a sector was last written as. -/
def State.symbolsAt (s : State) (sector : Nat) : List Byte :=
  let data := Mem.bytes s.mem (sector * 32) 32
  data ++ checkSymbols data

/-- The symbols that a byte lane carries. -/
def laneSymbols (k : Nat) : BitVec 36 := if k < 8 then 0x1010101#36 <<< k else 0xF00000000#36

/-- How many of 36 symbol positions are set. -/
def symbols (m : BitVec 36) : Nat := ((List.range 36).filter (fun i => m.getLsbD i)).length

/-- The wrong symbols of a sector: those that an error has changed, and those of its rank's failed lanes. -/
def State.wrongAt (s : State) (rank sector : Nat) : BitVec 36 :=
  let failed := Sparse.get 0 s.dram.lanes rank
  (List.range 9).foldl (fun m k => if failed.getLsbD k then m ||| laneSymbols k else m) (Sparse.get 0 s.dram.errors sector)

/-- The outcome of reading a far-memory sector. -/
inductive Ecc where
  | clean
  | fixed (positions : BitVec 36)
  | bad
  | wrong
  deriving DecidableEq, Repr

/-- The symbol code's outcome for a sector (spec 14, R335): beyond the bound the read is uncorrectable or, where the
decoder is deceived, miscorrected, which the spec leaves open. A sector found uncorrectable stays so (R336). -/
def State.ecc (s : State) (il sector : Nat) : Ecc :=
  let rank := rankOf (s.scheme il (sector * 32)) (sector * 32)
  let err := s.wrongAt rank sector
  let marks := Sparse.get 0 s.dram.erase rank
  if (s.dram.bad).contains sector then .bad
  else if err = 0 then .clean
  else if 2 * symbols (err &&& ~~~marks) + symbols marks ≤ 4 then .fixed err
  else if Config.freeBool s.own.fresh sector then .wrong else .bad

/-- Whether bytes of slice SRAM lie in an uncorrectable word (spec 18, R399). -/
def State.wordBad (s : State) (key n : Nat) : Bool := s.dram.sram.any (fun w => 4 * w < key + n && key < 4 * w + 4)

/-- What stands at a place of memory for a read that the code lets pass. -/
def State.stored (s : State) (key n : Nat) : List Byte :=
  if s.mixed key then (List.range n).map (fun i => Config.freeByte s.own.fresh (key + i)) else Mem.bytes s.mem key n

/-- What a read of bytes in one sector by the device itself answers, where the code lets it pass: free bytes for a miscorrected sector or a
mixed frame (spec 14, R331, R335; log entry 59). -/
def State.peek (s : State) (key n : Nat) : List Byte :=
  if 2 ^ 39 ≤ key then Mem.bytes s.mem key n
  else if s.ecc ownIl (key / 32) = .wrong then (List.range n).map (fun i => Config.freeByte s.own.fresh (key + i))
  else s.stored key n

/-- Whether a sector of far memory, or the word of a slice, that is read for an instruction or a walk is uncorrectable (spec 14, R335; spec 18,
R399). -/
def State.badAt (s : State) (il key : Nat) : Bool := if key < 2 ^ 39 then s.ecc il (key / 32) = .bad else s.wordBad key 1

/-! ### Banks and sectors -/

/-- Counts a correction per rank and symbol position; the planted error has acted (spec 12, R283; spec 14, R335). -/
def State.countFixed (s : State) (il sector : Nat) (p : BitVec 36) : State :=
  let rank := rankOf il (sector * 32)
  let s := { s with dram := { s.dram with errors := Sparse.set 0 s.dram.errors sector 0 } }
  let row := rowOf il (sector * 32)
  ((List.range 36).filter (fun i => p.getLsbD i)).foldl (fun s i =>
    let rows := Sparse.get [] s.dram.fixed (rank * 64 + i)
    let s := if rows.contains row then s else { s with dram := { s.dram with fixed := Sparse.put s.dram.fixed (rank * 64 + i) (row :: rows) } }
    (s.count (hcHisto rank i)).count (hcSymbols rank)) s

/-- A refresh-management command of a bank completes (spec 14, R333). -/
def State.manage (s : State) (bank : Nat) : State :=
  { s with dram := { s.dram with
      bac := Sparse.set 0 s.dram.bac bank (Sparse.get 0 s.dram.bac bank - s.dram.lvl)
      rfm := s.dram.rfm.filter (· ≠ bank)
      due := s.dram.due.filter (· ≠ bank) } }.count (hcRefresh (bank / 32))

/-- An activate of the bank of a far-memory address: at LVL the bank is due a refresh-management command, and at 2 × LVL the next activate
comes after it (spec 14, R333). -/
def State.activate (s : State) (il key : Nat) : State :=
  if key < 2 ^ 39 then
    let b := bankOf (s.scheme il key) key
    let s := if s.dram.due.contains b then s.manage b else s
    let n := Sparse.get 0 s.dram.bac b + 1
    { s with dram := { s.dram with
        bac := Sparse.put s.dram.bac b n
        rfm := if n < s.dram.lvl || s.dram.rfm.contains b then s.dram.rfm else b :: s.dram.rfm
        due := if n < 2 * s.dram.lvl then s.dram.due else b :: s.dram.due } }
  else s

/-- Whether the controller issues no activate to the bank of an address until a refresh-management command has completed (spec 14,
R333). -/
def State.bankFull (s : State) (il key : Nat) : Bool := key < 2 ^ 39 && s.dram.due.contains (bankOf (s.scheme il key) key)

/-- A sector is found uncorrectable (spec 14, R336): a fault that firmware retries once (spec 25, R465). -/
def State.foundBad (s : State) (rank sector : Nat) : State :=
  { s with
    dram := { s.dram with bad := if s.dram.bad.contains sector then s.dram.bad else sector :: s.dram.bad }
    mgmt := { s.mgmt with faults := if s.mgmt.faults.contains sector then s.mgmt.faults else sector :: s.mgmt.faults } }.count (hcUncorr rank)

/-- A write of all 32 bytes of a sector re-encodes it (spec 14, R336). -/
def State.encoded (s : State) (sector : Nat) : State :=
  { s with dram := { s.dram with errors := Sparse.set 0 s.dram.errors sector 0, bad := s.dram.bad.filter (· ≠ sector) } }

/-- Reads bytes that lie in one sector: the bytes, or none when the sector, or a word of a slice, is uncorrectable. -/
def State.readAt (s : State) (il key n : Nat) : State × Option (List Byte) :=
  if 2 ^ 39 ≤ key then (s, if s.wordBad key n then none else some (Mem.bytes s.mem key n))
  else
    let il' := s.scheme il key
    let s := (s.reach il key).activate il' key
    match s.ecc il' (key / 32) with
    | .clean => (s, some (s.stored key n))
    | .fixed p => (s.countFixed il' (key / 32) p, some (s.stored key n))
    | .wrong => (s, some ((List.range n).map (fun i => Config.freeByte s.own.fresh (key + i))))
    | .bad => (s.foundBad (rankOf il' key) (key / 32), none)

/-! ### Writes -/

/-- Whether the word found satisfies an entry's wait (spec 07, R164). -/
def WaitEntry.holds (w : WaitEntry) (x : Word) : Bool := condWait w.cmp (x &&& w.mask) (w.e &&& w.mask)

/-- An entry is answered with its word as a read at the home finds it, through the symbol code (spec 07, R165; spec 14, R335). -/
def State.answerEntry (s : State) (w : WaitEntry) : State :=
  let r := s.readAt w.il w.loc 4
  let ans (v : WaitEntry) : WaitEntry :=
    if v.id = w.id then { v with ans := some (BitVec.ofNat 32 (leNat (r.2.getD []))), bad := r.2.isNone } else v
  r.1.mapNodes (fun n => { n with waits := n.waits.map ans })

/-- The entries that `p` selects are answered with their words as they stand (spec 07, R165, R166). -/
def State.answerAll (s : State) (p : WaitEntry → Bool) : State :=
  ((s.nodes.flatMap (fun n => n.2.waits)).filter (fun w => w.ans.isNone && p w)).foldl State.answerEntry s

/-- The entries on words that bytes key to key + n − 1 overlap are answered where the wait now holds (spec 07, R165). -/
def State.answerWaits (s : State) (key n : Nat) : State :=
  s.answerAll (fun w => w.loc < key + n && key < w.loc + 4 && w.holds (BitVec.ofNat 32 (Mem.num s.mem w.loc 4)))

/-- Bytes land in memory: when each was last changed, which core-scope release wrote it (the core, and its place in the core's order), and
the waits they answer. -/
def State.land (s : State) (key : Nat) (bs : List Byte) (rel : Option (Nat × Nat)) : State :=
  let s := s.newSeq
  let s := { s with
    mem := Mem.wrBytes s.mem key bs
    own := { s.own with
      storeLog := (List.range bs.length).foldl (fun m i =>
        if bs[i]? = some (Mem.rd s.mem (key + i)) then m else Sparse.put m (key + i) s.own.seq) s.own.storeLog
      touched := if s.mops.isEmpty then [] else (List.range bs.length).foldl (fun m i => Sparse.put m (key + i) s.own.seq) s.own.touched
      corRel := (match rel with | none => [] | some (c, n) => (List.range bs.length).map (fun i => (key + i, c, n))) ++
        s.own.corRel.filter (fun (e : Nat × Nat × Nat) => e.1 < key || key + bs.length ≤ e.1) } }
  s.answerWaits key bs.length

/-- Words of slice SRAM that are written whole are encoded anew (spec 18, R399). -/
def State.mended (s : State) (key n : Nat) : State :=
  if s.dram.sram.isEmpty then s else { s with dram := { s.dram with sram := s.dram.sram.filter (fun w => 4 * w < key || key + n < 4 * w + 4) } }

/-- Writes bytes that lie in one sector at their home. A partial write of an uncorrectable sector is discarded and
counted; a whole one re-encodes it (spec 14, R336). The flag is whether the write was discarded. -/
def State.writeAt (s : State) (il key : Nat) (bs : List Byte) (rel : Option (Nat × Nat)) : State × Bool :=
  if 2 ^ 39 ≤ key then ((s.mended key bs.length).land key bs rel, false)
  else
    let il' := s.scheme il key
    let s := (s.reach il key).activate il' key
    if bs.length = 32 then ((s.encoded (key / 32)).land key bs rel, false)
    else match s.ecc il' (key / 32) with
      | .clean => (s.land key bs rel, false)
      | .fixed p => ((s.countFixed il' (key / 32) p).land key bs rel, false)
      | .wrong =>
        let free := (List.range 32).map (fun i => Config.freeByte s.own.fresh (key / 32 * 32 + i))
        ({ s.encoded (key / 32) with mem := Mem.wrBytes s.mem (key / 32 * 32) free }.land key bs rel, false)
      | .bad => ((s.foundBad (rankOf il' key) (key / 32)).count (hcMerged (rankOf il' key)), true)

/-- The pieces of a run of bytes that lie in one unit each: offset and length. -/
def unitPieces (unit at_ n : Nat) : List (Nat × Nat) :=
  (List.range (n / unit + 2)).filterMap fun i =>
    let lo := max at_ ((at_ / unit + i) * unit)
    let hi := min (at_ + n) ((at_ / unit + i + 1) * unit)
    if lo < hi then some (lo - at_, hi - lo) else none

/-- Writes a run of bytes sector by sector. -/
def State.writeRun (s : State) (il key : Nat) (bs : List Byte) : State :=
  (unitPieces 32 key bs.length).foldl (fun s p => (s.writeAt il (key + p.1) ((bs.drop p.1).take p.2) none).1) s

/-- Reads a run of bytes sector by sector; none when a sector is uncorrectable. -/
def State.readRun (s : State) (il key n : Nat) : State × Option (List Byte) :=
  (unitPieces 32 key n).foldl (fun (r : State × Option (List Byte)) p =>
    let (s, x) := r.1.readAt il (key + p.1) p.2
    (s, match r.2, x with | some a, some b => some (a ++ b) | _, _ => none)) (s, some [])

/-- A run of bytes as `peek` answers it, sector by sector. -/
def State.look (s : State) (key n : Nat) : List Byte := (unitPieces 32 key n).flatMap (fun p => s.peek (key + p.1) p.2)
def State.lookNum (s : State) (key n : Nat) : Nat := leNat (s.look key n)

/-- Whether a run of bytes lies in an uncorrectable sector or word. -/
def State.runBad (s : State) (key n : Nat) : Bool :=
  (2 ^ 39 ≤ key && s.wordBad key n) || (unitPieces 32 key n).any (fun p => key + p.1 < 2 ^ 39 && s.badAt ownIl (key + p.1))

end Sys2Proof.Machine
end

