-- ==== Sys2Proof/Machine/Ops.lean ====
section
/-! DEFINITION. The stack with its spill area (spec 01, R21 to R23), context entries, and taking an exception (spec 12, R277) with its
return beside it. -/

namespace Sys2Proof.Machine

open Sys2Proof

/-! ### The stack -/

/-- The most entries a group's stack holds: 256, or 16 in a visitor (spec 01, R22; spec 12, R268). -/
def Group.stackMax (g : Group) : Nat := if g.visitor.isSome then 16 else 256

/-- Pushes an entry; PCLO is zero in every entry that hardware pushes (spec 01, R21). -/
def Group.push (g : Group) (k : SKind) (mask : Word) (pc : Dword) (tmo : BitVec 24) : Group :=
  { g with ctl := { g.ctl with
      stack := { waiting := false, tmo := tmo, kind := k, mask := mask, pc := pc.truncate 56 &&& ~~~3 } :: g.ctl.stack } }

/-- The code of a stack kind (spec 01, R21). -/
def kindNo : SKind → Nat
  | .div => 1 | .divw => 2 | .call => 3 | .ind => 4 | .trap => 5 | .reserved c => c

/-- The kind of a code; 0, 6 and 7 are reserved. -/
def kindOfNo (n : Nat) : SKind :=
  match n with | 1 => .div | 2 => .divw | 3 => .call | 4 => .ind | 5 => .trap | c => .reserved c

/-- The 16 bytes of an entry (spec 01, R21). -/
def Entry.bytes (e : Entry) : List Byte :=
  leBytes (e.tmo.toNat * 2 ^ 104 + kindNo e.kind * 2 ^ 96 + e.mask.toNat * 2 ^ 64 + e.pc.toNat) 16

/-- A stack entry from its 16 bytes; its reserved bits read as zero (spec 00, R6). -/
def readEntry (bs : List Byte) : Entry :=
  let x := leNat bs
  let k := kindOfNo (x / 2 ^ 96 % 8)
  { waiting := k = .divw && x / 2 ^ 104 ≠ 0, tmo := BitVec.ofNat 24 (x / 2 ^ 104), kind := k, mask := BitVec.ofNat 32 (x / 2 ^ 64),
    pc := BitVec.ofNat 56 x }

/-- A stack entry from its 16 bytes; none for a reserved kind, or a reserved field that is not zero. -/
def entryOf (bs : List Byte) : Option Entry :=
  let x := leNat bs
  if x / 2 ^ 56 % 256 ≠ 0 || x / 2 ^ 99 % 32 ≠ 0 || x / 2 ^ 96 % 8 = 0 || 5 < x / 2 ^ 96 % 8 then none else some (readEntry bs)

/-- The memory key of a group's 4 KiB stack area, after the private bytes of its lanes (spec 14, R324). A visitor has
none: its 16 entries are on chip (spec 12, R268). -/
def State.stackArea (s : State) (g : Group) : Option Nat :=
  if g.visitor.isSome then none
  else match s.block g.block with
    | none => none
    | some b => (b.areas[g.index]?).map (· + 32 * b.k.priv)

/-- Writes bytes of a stack area: in the slice, or in far memory through the symbol code (spec 14, R324, R336). -/
def State.writeStack (s : State) (key : Nat) (bs : List Byte) : State :=
  if 2 ^ 39 ≤ key then { s.mended key bs.length with mem := Mem.wrBytes s.mem key bs } else s.writeRun ownIl key bs

/-- What pushes beyond the 16 entries on chip write: each entry that leaves the chip goes to its place in the stack area
(spec 01, R22; its place in the area is log entry 58). `old` is the depth before the pushes. -/
def State.spill (s : State) (old : Nat) (g : Group) : State :=
  match s.stackArea g with
  | none => s
  | some a =>
    let es := g.ctl.stack.reverse
    ((List.range (g.ctl.stack.length - 16)).drop (old - 16)).foldl (fun s i =>
      s.writeStack (a + 16 * i) (match es[i]? with | none => [] | some e => e.bytes)) s

/-- The group with pushed entries, and what they spill. -/
def State.pushed (s : State) (gid old : Nat) (g : Group) : State := (s.spill old g).setGroup gid g

/-- An entry as the stack area holds it, its reserved bits zero (spec 00, R6). TMO has gone on counting while it was spilled (spec 01,
R23). -/
def Entry.refilled (e : Entry) (bs : List Byte) : Entry :=
  { e with waiting := e.waiting && (readEntry bs).kind = .divw, kind := (readEntry bs).kind, mask := (readEntry bs).mask, pc := (readEntry bs).pc }

/-- The place in the stack area of the entry that comes back on chip when a pop leaves `st` (spec 01, R22). -/
def State.refillKey (s : State) (g : Group) (st : List Entry) : Option Nat :=
  if st.length < 16 then none else (s.stackArea g).map (· + 16 * (st.length - 16))

/-- The stack after a pop: the sixteenth entry comes back from the stack area (spec 01, R22). -/
def State.refill (s : State) (g : Group) (st : List Entry) : List Entry :=
  match s.refillKey g st with
  | none => st
  | some a => st.modify 15 (fun e => e.refilled (s.peek a 16))

/-- The home of the stack area reads the entry that comes back (spec 14, R333, R335). -/
def State.unspill (s : State) (g : Group) (st : List Entry) : State :=
  match s.refillKey g st with
  | none => s
  | some a => (s.readAt ownIl a 16).1

/-- Whether the entry that would come back cannot be read (spec 14, R335). -/
def State.refillBad (s : State) (g : Group) (st : List Entry) : Bool :=
  match s.refillKey g st with
  | none => false
  | some a => s.badAt ownIl a

/-! ### Context entries -/

/-- `n` bytes of context entry `c` from offset `o` (spec 25, R454). -/
def State.ctxField (s : State) (c : BitVec 8) (o n : Nat) : Nat := Mem.num s.mgmt.ctxs (64 * c.toNat + o) n

/-- SUPH of a context. -/
def State.suph (s : State) (c : BitVec 8) : Dword := BitVec.ofNat 64 (s.ctxField c 8 8)

/-! ### Taking an exception -/

/-- The halt broadcast to the other live groups of the trapping group's block (spec 18, R384); arrivals at a
rendezvous latch are withdrawn (spec 18, R386). A group that waits stops where it is; the others may issue up to 16 more. -/
def State.broadcastHalt (s : State) (gid : Nat) (g : Group) : State :=
  { s with groups := s.groups.map (fun p =>
      (p.1, if p.2.block = g.block && p.1 ≠ gid && p.2.visitor.isNone && p.2.sched.skidLeft.isNone && !p.2.sched.dhalt then
        { p.2 with
          sched := { p.2.sched with
            skidLeft := if p.2.sched.hold = .none || p.2.sched.hold = .roused then some 16 else some 0
            hold := match p.2.sched.hold with | .latch _ _ => .none | h => h }
          sys := { p.2.sys with skid := 0, haltpc := p.2.ctl.pc } }
      else p.2)) }

/-- Taking a trap (spec 12, R277): the trap registers, the TRAP entry with the resume address p, EXM, the mode and the
handler; a visitor ends instead (spec 12, R269); a full stack or a missing handler terminates the block. The first
trap of a block halts its other groups (spec 18, R384, R385). -/
def State.takeTrap (s : State) (gid : Nat) (c : Nat) (lanes : Word) (addr aux p : Dword) : State :=
  match s.group gid with
  | none => s
  | some g =>
    if g.visitor.isSome then s.endVisitor gid 3 c addr
    else
      let s := if c = 33 then s.count hcSdc else s
      let g := { g with sys := { g.sys with
        tcause := BitVec.ofNat 32 c, tlanes := lanes, taddr := addr, taux := aux, skid := 0, haltpc := p } }
      if g.ctl.stack.length = 256 then (s.setGroup gid g).terminate g.block 10
      else
        let depth := g.ctl.stack.length + 1
        let g := (g.push .trap g.ctl.exm p 0)
        let s := s.spill (depth - 1) g
        let g := { g with ctl := { g.ctl with exm := g.ctl.livem }, sched := { g.sched with hold := .none, passBp := false } }
        let handler := match s.kernelOf g with | none => 0 | some k => k.handler
        if causeSup c && s.suph g.ctx = 0 then (s.setGroup gid g).terminate g.block c
        else if !causeSup c && handler = 0 then (s.setGroup gid g).terminate g.block c
        else
          let g := { g with ctl := { g.ctl with
            pc := if causeSup c then s.suph g.ctx else handler
            supAt := if causeSup c && g.ctl.supAt.isNone then some depth else g.ctl.supAt } }
          let s := s.setGroup gid g
          match s.block g.block with
          | none => s
          | some b =>
            if b.thalt then s
            else (s.setBlock g.block { b with thalt := true, hgrp := g.index, haltDepth := depth }).broadcastHalt gid g

/-- Whether an eviction alone halts a group's block: a trap is taken there (spec 18, R393). -/
def State.onlyEvicting (s : State) (g : Group) : Bool :=
  match s.block g.block with
  | none => false
  | some b => b.evicting && !b.thalt && !b.dhalt && g.visitor.isNone

/-- A trap with a resume address. In a skid the instruction is not issued and the group stops there (spec 18, R386); where an eviction alone
halts the block, the trap is taken, and the group stops at its handler (R393). -/
def State.trapTo (s : State) (gid : Nat) (c : Cause) (lanes : Word) (addr aux p : Dword) : State :=
  match s.group gid with
  | none => s
  | some g =>
    if g.sched.skidLeft.isSome then
      if s.onlyEvicting g then
        (s.takeTrap gid (causeNo c) lanes addr aux p).modGroup gid (fun g => { g with sched := { g.sched with skidLeft := some 0 } })
      else s.setGroup gid { g with sched := { g.sched with skidLeft := some 0 }, sys := { g.sys with haltpc := g.ctl.pc } }
    else s.takeTrap gid (causeNo c) lanes addr aux p

/-- A precise trap at the current instruction. -/
def State.trap (s : State) (gid : Nat) (c : Cause) (lanes : Word) (addr aux : Dword) : State :=
  match s.group gid with
  | none => s
  | some g => s.trapTo gid c lanes addr aux g.ctl.pc

/-- A trap of a kind whose TRAPLANES are the lanes active at issue and whose TRAPADDR is 0 (spec 02, R56). -/
def State.trapPlain (s : State) (gid : Nat) (c : Cause) (aux : Dword) : State :=
  match s.group gid with
  | none => s
  | some g => s.trap gid c g.ctl.exm 0 aux

/-- Marks an uncorrectable word consumed by a group: a visitor ends with code 3, a block is stopped until it rolls
back or is terminated (spec 18, R399). -/
def State.consume (s : State) (gid : Nat) : State :=
  match s.group gid with
  | none => s
  | some g =>
    if g.visitor.isSome then s.endVisitor gid 3 34 0
    else s.modBlock g.block (fun b => { b with uncorr := true })

/-- A block consumes an uncorrectable word that its engine met (spec 18, R399). -/
def State.consumeBlock (s : State) (bid : Nat) : State :=
  s.modBlock bid (fun b => if b.live.isEmpty then b else { b with uncorr := true })

/-- A pop that leaves `st`: with the entry that comes back from the stack area; the group consumes one that cannot be read, and pops
nothing (spec 01, R22; spec 18, R399). -/
def State.popping (s : State) (gid : Nat) (g : Group) (st : List Entry) (k : State → List Entry → State) : State :=
  if s.refillBad g st then (s.unspill g st).consume gid else k (s.unspill g st) (s.refill g st)

/-- The return from a trap: pops the TRAP entry, restores EXM and PC, leaves supervisor mode when the entry entered it
(spec 12, R278), and ends the halt that the entry's push began (spec 18, R385). -/
def State.popTrap (s : State) (gid : Nat) (g : Group) (e : Entry) (rest : List Entry) : State :=
  let depth := g.ctl.stack.length
  s.popping gid g rest fun s st =>
  let g := { g with ctl := { g.ctl with
    stack := st
    exm := e.mask &&& g.ctl.livem
    supAt := if g.ctl.supAt = some depth then none else g.ctl.supAt } }
  let s := s.setGroup gid (g.goto (e.pc.zeroExtend 64))
  match s.block g.block with
  | none => s
  | some b => if b.thalt && b.hgrp = g.index && b.haltDepth = depth then s.endHalt g.block else s

end Sys2Proof.Machine
end

