-- ==== Sys2Proof/Machine/Operands.lean ====
section
/-! DEFINITION. Operand forms: special values, inline constants, registers, pairs and immediates (spec 02, R50 to R55),
the register checks of decoding (spec 02, R56 steps 6 to 8), and the issue of one instruction. -/

namespace Sys2Proof.Machine

open Sys2Proof

/-- The inline constants (spec 02, R54). -/
def inlineConst (e : Nat) : Word :=
  if e < 224 then BitVec.ofNat 32 (e - 192)
  else if e < 240 then 0 - BitVec.ofNat 32 (e - 223)
  else match e with
    | 240 => 0x3F000000#32
    | 241 => 0xBF000000#32
    | 242 => 0x3F800000#32
    | 243 => 0xBF800000#32
    | 244 => 0x40000000#32
    | 245 => 0xC0000000#32
    | 246 => 0x40800000#32
    | 247 => 0xC0800000#32
    | 248 => 0x7F800000#32
    | 249 => 0xFF800000#32
    | 250 => 0x7FC00000#32
    | 251 => 0x80000000#32
    | 252 => 0x7FFFFFFF#32
    | 253 => 0x3E000000#32
    | 254 => 0x00010000#32
    | _ => 0x9E3779B9#32

/-- The owner code's die: COREID / 48 on a core, n div 16 on stack core n (spec 01, R37; spec 12, R268). -/
def dieOf (node : Nat) : Nat := if node < 192 then node / 48 else (node - 192) / 16

/-- DEVID, 0 outside a trust domain (spec 21, R418). -/
def State.devid (s : State) : Nat := s.fab.domst.toNat / 256 % 1024

/-- The identity values 0x042 to 0x04B (spec 01, R37): GROUPID, BLOCKID.x, .y, .z, CLUSTERID, CLUSTERRANK, GRIDID,
COREID, DIEID, DEVID, by their place in that order. -/
def State.identity (s : State) (g : Group) (n : Nat) : Word :=
  let b := s.blockOf g
  let gr := s.gridOf g
  let lin := match b with | none => 0 | some b => b.lin
  let clsz := match b with | none => 1 | some b => b.k.clsz
  let gx := match gr with | none => 1 | some x => x.gx
  let gy := match gr with | none => 1 | some x => x.gy
  BitVec.ofNat 32 <| match n with
    | 0 => g.index
    | 1 => lin % gx
    | 2 => lin / gx % gy
    | 3 => lin / gx / gy
    | 4 => lin / clsz
    | 5 => lin % clsz
    | 6 => match gr with | none => 0 | some x => x.gridid.toNat
    | 7 => g.owner
    | 8 => dieOf g.owner
    | _ => s.devid

/-- The special values 128 to 156 (spec 02, R53). -/
def State.special (s : State) (g : Group) (e : Nat) : Word :=
  let k := s.kernelOf g
  let gr := s.gridOf g
  if e < 138 then s.identity g (e - 128)
  else match e with
    | 138 => g.ctl.exm
    | 139 => g.ctl.livem
    | 140 => BitVec.ofNat 32 g.ctl.stack.length
    | 141 => g.sys.gstat
    | 142 => g.sys.batchseq
    | 143 => g.sys.batchdone
    | 144 => s.clock.truncate 32
    | 145 => (s.clock >>> 32).truncate 32
    | 146 => g.sys.gang
    | 147 => g.sys.fmtlast
    | 148 => match gr with | none => 0 | some x => x.args.truncate 32
    | 149 => match gr with | none => 0 | some x => (x.args >>> 32).truncate 32
    | 150 => match k with | none => 0 | some k => BitVec.ofNat 32 k.scr
    | 151 => match k with | none => 0 | some k => BitVec.ofNat 32 k.ngrp
    | 152 => match gr with | none => 0 | some x => BitVec.ofNat 32 x.gx
    | 153 => match gr with | none => 0 | some x => BitVec.ofNat 32 x.gy
    | 154 => match gr with | none => 0 | some x => BitVec.ofNat 32 x.gz
    | 155 => match k with | none => 0 | some k => BitVec.ofNat 32 k.clsz
    | _ => match k with | none => 0 | some k => BitVec.ofNat 32 k.accn

/-- A scalar operand (spec 02, R52). -/
def State.readS (s : State) (g : Group) (x : BitVec 8) : Word :=
  if x.toNat < 128 then g.rdS x.toNat else if x.toNat < 192 then s.special g x.toNat else inlineConst x.toNat

/-- Two words as a pair value, the even register in bits 31:0 (spec 01, R16). -/
def pairOf (lo hi : Word) : Dword := hi ++ lo

/-- A scalar pair operand: registers, CLOCK or the argument-area address whole, or a constant sign-extended (spec 02,
R52 to R54). -/
def State.readSP (s : State) (g : Group) (x : BitVec 8) : Dword :=
  if x.toNat < 128 then pairOf (g.rdS x.toNat) (g.rdS (x.toNat + 1))
  else if x.toNat < 192 then pairOf (s.special g x.toNat) (s.special g (x.toNat + 1))
  else (inlineConst x.toNat).signExtend 64

/-- A scalar quad operand, lowest register first. -/
def Group.readSQ (g : Group) (x : BitVec 8) : List Word :=
  [g.rdS x.toNat, g.rdS (x.toNat + 1), g.rdS (x.toNat + 2), g.rdS (x.toNat + 3)]

/-- A field of kind V or S in a lane, or the immediate that replaces it. -/
def State.opnd (s : State) (g : Group) (k : Kind) (x : BitVec 8) (rep : Bool) (imm : BitVec 64) (L : Nat) : Word :=
  if rep then imm.truncate 32
  else match k with
    | .V => s.readV g x.toNat L
    | .S => s.readS g x
    | .U8 => x.zeroExtend 32
    | _ => 0

/-- Operands A, B and C of an instruction in a lane. -/
def State.opA (s : State) (g : Group) (r : Row) (f : Fields) (L : Nat) : Word := s.opnd g r.ka f.a (r.repA f) f.imm L
def State.opB (s : State) (g : Group) (r : Row) (f : Fields) (L : Nat) : Word := s.opnd g r.kb f.b (r.repB f) f.imm L
def State.opC (s : State) (g : Group) (r : Row) (f : Fields) (L : Nat) : Word := s.opnd g r.kc f.c (r.repC f) f.imm L

/-- Field D read in a lane. -/
def State.opD (s : State) (g : Group) (r : Row) (f : Fields) (L : Nat) : Word := s.opnd g r.kd f.d false f.imm L

/-- Operand B of a 64-bit scalar instruction: the pair, or IMM32 sign-extended (spec 05, R107). -/
def State.opPairB (s : State) (g : Group) (r : Row) (f : Fields) : Dword :=
  if r.repB f then (f.imm.truncate 32 : Word).signExtend 64 else s.readSP g f.b

/-- Writes a scalar destination: a register, or EXM ANDed with LIVEM (spec 01, R20; spec 02, R53). -/
def State.putDst (s : State) (gid : Nat) (x : BitVec 8) (v : Word) : State :=
  if x = 138#8 then
    s.modGroup gid (fun g => { g with ctl := { g.ctl with exm := v &&& g.ctl.livem } })
  else if x.toNat < 128 then s.writeS gid x.toNat v
  else s

/-- Writes a scalar pair. -/
def State.putPair (s : State) (gid : Nat) (x : BitVec 8) (v : Dword) : State :=
  (s.writeS gid x.toNat (v.truncate 32)).writeS gid (x.toNat + 1) ((v >>> 32).truncate 32)

/-! ### The registers an instruction names -/

/-- A register that a field names: whether it is scalar, and its number. -/
structure Named where
  role : Role
  wait : Bool
  scalar : Bool
  reg : Nat
  deriving DecidableEq, Repr

/-- The registers of one field. -/
def fieldRegs (k : Kind) (x n : Nat) (role : Role) (wait : Bool) : List Named :=
  match k with
  | .V => (List.range n).map (fun i => ⟨role, wait, false, x + i⟩)
  | .S => if x < 128 then [⟨role, wait, true, x⟩] else []
  | .SP => if x < 128 then [⟨role, wait, true, x⟩, ⟨role, wait, true, x + 1⟩] else []
  | .SQ => [⟨role, wait, true, x⟩, ⟨role, wait, true, x + 1⟩, ⟨role, wait, true, x + 2⟩, ⟨role, wait, true, x + 3⟩]
  | _ => []

/-- The registers an instruction names, in the field order A, B, C, D, E, H (spec 01, R15; spec 02, R56). -/
def namedRegs (r : Row) (f : Fields) : List Named :=
  (if r.repA f then [] else fieldRegs r.ka f.a.toNat r.na r.aRole f.wa) ++
  (if r.repB f then [] else fieldRegs r.kb f.b.toNat r.nb .src f.wb) ++
  (if r.repC f then [] else fieldRegs r.kc f.c.toNat r.nc .src f.wc) ++
  fieldRegs r.kd f.d.toNat r.nd r.dRole false ++
  fieldRegs r.ke f.e.toNat 1 .src f.we ++
  fieldRegs r.kh f.h.toNat r.nh r.hRole f.wh

/-- Whether a group may name a register: within its kernel's allocation, or shipped to a visitor (spec 01, R15; spec
12, R268). -/
def State.owns (s : State) (g : Group) (scalar : Bool) (r : Nat) : Bool :=
  match g.visitor with
  | some v => if scalar then v.slist.getLsbD r else r = 255 || v.vlist.getLsbD r
  | none =>
    match s.kernelOf g with
    | none => false
    | some k => if scalar then r < 8 * k.sregs else r = 255 || r < 8 * k.vregs

/-- TRAPAUX for a register (spec 01, R15). -/
def regAux (scalar : Bool) (r : Nat) : Dword := BitVec.ofNat 64 (r % 256 + if scalar then 256 else 0)

/-- Whether a register is empty; v255 never is (spec 01, R14, R17). -/
def Group.isEmpty (g : Group) (scalar : Bool) (r : Nat) : Bool :=
  if scalar then g.regs.sempty.getLsbD r else r ≠ 255 && g.regs.vempty.getLsbD r

/-- Step 6 of R56: the first register beyond the allocation. -/
def State.unowned (s : State) (g : Group) (l : List Named) : Option Named :=
  l.find? (fun n => !s.owns g n.scalar n.reg)

/-- Step 8 of R56: the first empty source whose wait bit is set. -/
def Group.emptyWaited (g : Group) (l : List Named) : Option Named :=
  l.find? (fun n => (n.role = .src || n.role = .both) && n.wait && g.isEmpty n.scalar n.reg)

/-- The first empty register that the instruction stalls on (spec 01, R18). -/
def Group.emptyStall (g : Group) (l : List Named) : Option Named :=
  l.find? (fun n => n.role ≠ .peek && g.isEmpty n.scalar n.reg)

/-- The first source with an uncorrectable word: an instruction reads the whole of a register (spec 18, R399; log entry 97). -/
def Group.spoilt (g : Group) (l : List Named) : Option Named :=
  l.find? (fun n => n.role ≠ .dst && (if n.scalar then g.regs.sbad.contains n.reg else g.regs.vbad.any (fun k => k / 32 = n.reg)))

/-- What a stall on a register waits for. -/
def Named.hold (n : Named) : Hold := if n.scalar then .sreg n.reg else .vreg n.reg

/-- The issue of an instruction of the current group: steps 6 to 8 of R56, the stall of R18, in which `h` is what the group waits
for, then its meaning. An uncorrectable word of a source is consumed (spec 18, R399). -/
def issueHold (h : Named → Hold) (r : Row) (f : Fields) (s : State) (k : Nat → Group → Res) : Res :=
  let gid := s.own.cur
  match s.group gid with
  | none => .next s
  | some g =>
    match s.unowned g (namedRegs r f) with
    | some n => .next (s.trapPlain gid .regbound (regAux n.scalar n.reg))
    | none =>
      if r.sup && !g.priv then .next (s.trapPlain gid .priv 0)
      else
        match g.emptyWaited (namedRegs r f) with
        | some n => .next (s.trapPlain gid .emptyreg (regAux n.scalar n.reg))
        | none =>
          match g.emptyStall (namedRegs r f) with
          | some n => .next (s.stall gid (h n))
          | none => if (g.spoilt (namedRegs r f)).isSome then .next (s.consume gid) else k gid g

/-- The issue of an instruction that waits for its registers to become full (spec 01, R18). -/
def issue (r : Row) (f : Fields) (s : State) (k : Nat → Group → Res) : Res := issueHold Named.hold r f s k

/-- The conditions under which `issue` reaches an instruction's meaning. -/
def State.ready (s : State) (r : Row) (f : Fields) (g : Group) : Bool :=
  (s.unowned g (namedRegs r f)).isNone && (!r.sup || g.priv) && (g.emptyWaited (namedRegs r f)).isNone &&
    (g.emptyStall (namedRegs r f)).isNone && (g.spoilt (namedRegs r f)).isNone

/-- ILLOP with reason 14 at step 9 (spec 02, R57). -/
def State.illop14 (s : State) (gid : Nat) (code : Nat) : Res := .next (s.trapPlain gid .illop (illopAux (14, code)))

/-- An instruction that a visitor may not execute (spec 12, R269). -/
def notVisitor (s : State) (gid : Nat) (g : Group) (k : Res) : Res :=
  if g.visitor.isSome then s.illop14 gid 0 else k

/-- A vector result: the lanes of W of register D. -/
def State.putW (s : State) (gid : Nat) (g : Group) (r : Nat) (v : Nat → Word) : State :=
  s.writeV gid r ((lanesOf g.wset).map (fun L => (L, v L)))

/-- A pair of results: the lanes of W of registers D and D + 1. -/
def State.putW2 (s : State) (gid : Nat) (g : Group) (r : Nat) (v : Nat → Dword) : State :=
  (s.putW gid g r (fun L => (v L).truncate 32)).putW gid g (r + 1) (fun L => (v L >>> 32).truncate 32)

/-- The lanes that a group has: those that a visitor does not hold, or has handed on, are absent (spec 12, R268, R270). -/
def Group.present (g : Group) : List Nat := if g.visitor.isSome then lanesOf g.ctl.livem else laneList

/-- What an instruction reads from another lane: an absent lane reads as zero (spec 12, R268). A lane that a hop has handed on is taken as
absent, which the spec does not say outright (R270; log entry 113). -/
def State.readLane (s : State) (g : Group) (r L : Nat) : Word := if g.present.contains L then s.readV g r L else 0

/-- A vector pair operand in a lane. -/
def State.readV2 (s : State) (g : Group) (r L : Nat) : Dword := pairOf (s.readV g r L) (s.readV g (r + 1) L)

end Sys2Proof.Machine
end

