-- ==== Sys2Proof/Machine/Translate.lean ====
section
/-! DEFINITION. Translation (spec 18, R400 to R403), the spaces of an address (spec 07, R146) and instruction fetch (spec 02, R41, R42,
R45). -/

namespace Sys2Proof.Machine

open Sys2Proof

/-- Bits hi:lo of a 64-bit value. -/
def bitsAt (x : Dword) (hi lo : Nat) : Nat := x.toNat / 2 ^ lo % 2 ^ (hi - lo + 1)

/-- Whether bits 55:48 name a local window: 3 private, 1 scratchpad, 2 cluster, as TRAPAUX codes them (spec 07, R153). -/
def windowOf (va : Dword) : Nat :=
  let b := bitsAt va 55 48
  if b = 0xFD then 3 else if b = 0xFE then 1 else if b = 0xFF then 2 else 0

/-! ### Page-table entries -/

def pteType (e : Dword) : Nat := bitsAt e 1 0
def ptePeer (e : Dword) : Bool := e.getLsbD 54
def pteContain (e : Dword) : Bool := e.getLsbD 53
def pteNx (e : Dword) : Bool := e.getLsbD 52
def pteSup (e : Dword) : Bool := e.getLsbD 51
def pteRo (e : Dword) : Bool := e.getLsbD 50
def pteField (e : Dword) : Bool := e.getLsbD 49
def pteIl (e : Dword) : Nat := bitsAt e 48 46
def pteTile (e : Dword) : Bool := e.getLsbD 45
def ptePid (e : Dword) : Nat := bitsAt e 63 55
def pteAddr (e : Dword) : Nat := bitsAt e 38 8 * 256

/-- A table entry that is malformed at a level (spec 18, R401). -/
def badTable (e : Dword) (level : Nat) : Bool :=
  level = 3 || bitsAt e 63 39 ≠ 0 || bitsAt e 7 2 ≠ 0 || (level = 0 && bitsAt e 15 8 ≠ 0) ||
    (level = 1 && bitsAt e 10 8 ≠ 0)

/-- A leaf entry that is malformed at a level (spec 18, R401). -/
def badLeaf (e : Dword) (level : Nat) : Bool :=
  level = 0 || bitsAt e 44 39 ≠ 0 || bitsAt e 15 2 ≠ 0 || (!ptePeer e && ptePid e ≠ 0) ||
    (level = 1 && bitsAt e 28 16 ≠ 0) || (level = 2 && bitsAt e 20 16 ≠ 0) ||
    (pteTile e && (bitsAt e 38 29 ≠ 0 || pteIl e ≠ 0)) ||
    (ptePeer e && (bitsAt e 38 8 ≠ 0 || pteIl e ≠ 0 || pteField e || pteTile e))

/-- The levels of a walk: number, lowest index bit, index bits (spec 18, R400). -/
def walkLevels : List (Nat × Nat × Nat) := [(0, 42, 14), (1, 29, 13), (2, 21, 8), (3, 16, 5)]

/-- The page-table entry at a place of far memory, as a walk reads it. -/
def State.entryAt (s : State) (key : Nat) : Dword := BitVec.ofNat 64 (leNat (s.peek key 8))

/-- A walk from a table down (spec 18, R400, R403), where `rd` reads the entries: the leaf with its page size in address bits, or the reason
and level of R402. -/
def walkFrom (rd : Nat → Dword) (va : Nat) : List (Nat × Nat × Nat) → Nat → Except (Nat × Nat) (Dword × Nat)
  | [], _ => .error (4, 3)
  | (level, lo, n) :: ls, base =>
    let e := rd (base + va / 2 ^ lo % 2 ^ n * 8)
    match pteType e with
    | 0 => .error (3, level)
    | 1 => if badTable e level then .error (4, level) else walkFrom rd va ls (pteAddr e)
    | 2 => if badLeaf e level then .error (4, level) else .ok (e, lo)
    | _ => .error (4, level)

/-- The places of the entries that a walk reads (spec 18, R399), up to the first uncorrectable one. -/
def State.walkReads (s : State) (va : Nat) : List (Nat × Nat × Nat) → Nat → List Nat
  | [], _ => []
  | (_, lo, n) :: ls, base =>
    let k := base + va / 2 ^ lo % 2 ^ n * 8
    let e := s.entryAt k
    k :: (if s.badAt ownIl k then [] else if pteType e = 1 then s.walkReads va ls (pteAddr e) else [])

/-- PTROOT of a context. -/
def State.ptroot (s : State) (c : BitVec 8) : Nat := s.ctxField c 0 8 % 2 ^ 39

/-- Whether a TLB line holds the leaf of an address for a context. -/
def TlbLine.serves (t : TlbLine) (c : BitVec 8) (va : Dword) : Bool := t.ctx = c && t.base = va.toNat / 2 ^ t.bits

/-- The L2 TLB of a node's die (spec 18, R403); none for the units that belong to no core. -/
def State.l2Of (s : State) (node : Nat) : List TlbLine := if node < 256 then Sparse.get [] s.l2 (dieOf node) else []

/-- The line of the node's L1 TLB, else of its die's L2, that serves an address (spec 18, R403). -/
def State.tlbHit (s : State) (node : Nat) (c : BitVec 8) (va : Dword) : Option TlbLine :=
  match (s.node node).tlb.find? (fun t => t.serves c va) with
  | some t => some t
  | none => (s.l2Of node).find? (fun t => t.serves c va)

/-- The leaf that translates an address for a context on a node: a TLB line (spec 18, R403), else a walk. -/
def State.leaf (s : State) (node : Nat) (c : BitVec 8) (va : Dword) : Except (Nat × Nat) (Dword × Nat) :=
  if bitsAt va 63 56 ≠ 0 then .error (1, 0)
  else if s.ptroot c = 0 then .error (2, 0)
  else
    match s.tlbHit node c va with
    | some t => .ok (t.pte, t.bits)
    | none => walkFrom s.entryAt va.toNat walkLevels (s.ptroot c)

/-- Whether an address lies in a peer window, whatever else its leaf allows; none where nothing maps it (spec 07, R146). -/
def State.peerPage (s : State) (node : Nat) (c : BitVec 8) (va : Dword) : Option Bool :=
  match s.leaf node c va with
  | .error _ => none
  | .ok (e, _) => some (ptePeer e)

/-- A translation: the leaf and, unless it is a peer page, the memory key; `addr` is the physical address, or bits 39:0
of the virtual address in a peer window. -/
structure Trans where
  pte : Dword
  key : Nat
  addr : Nat
  deriving DecidableEq, Repr

/-- The carve-out of a core begins at this slice offset (spec 14, R318). -/
def carveBase (c : Nat) : Nat := 0x170000 - c * 0x10000

/-- Translates an address for a context, mode and use (spec 18, R402): the reason and level on failure. -/
def State.translate (s : State) (node : Nat) (c : BitVec 8) (priv write fetch : Bool) (va : Dword) :
    Except (Nat × Nat) Trans :=
  match s.leaf node c va with
  | .error e => .error e
  | .ok (e, bits) =>
    let level := if bits = 29 then 1 else if bits = 21 then 2 else 3
    let pa := pteAddr e / 2 ^ bits * 2 ^ bits + va.toNat % 2 ^ bits
    if pteSup e && !priv then .error (5, level)
    else if write && pteRo e then .error (6, level)
    else if fetch && (pteNx e || ptePeer e) then .error (7, level)
    else if ptePeer e then .ok { pte := e, key := 0, addr := va.toNat % 2 ^ 40 }
    else if pteTile e then
      let core := pa / 2 ^ 21 % 256
      let off := pa % 2 ^ 21
      if core < 192 && carveBase (s.node core).carve ≤ off && off < 0x170000 then
        .ok { pte := e, key := sliceKey core off, addr := pa }
      else .error (8, level)
    else .ok { pte := e, key := pa, addr := pa }

/-- The TRAPAUX bits of an XLATE (spec 18, R402). -/
def xlateAux (p : Nat × Nat) (write fetch : Bool) : Nat :=
  p.1 + 16 * p.2 + (if write then 64 else 0) + (if fetch then 128 else 0)

/-! ### Fetching -/

/-- A byte of code as a group's fetch sees it: one that a store has changed since the grid started is free (spec 02, R45; log
entry 14), and so is one of a sector that the symbol code miscorrects (spec 14, R335). -/
def State.codeByte (s : State) (g : Group) (k : Nat) : Byte :=
  let start := match s.gridOf g with | none => 0 | some x => x.startSeq
  if start < Sparse.get 0 s.own.storeLog k || s.mixed k || (k < 2 ^ 39 && s.ecc ownIl (k / 32) = .wrong) then Config.freeByte s.own.fresh k else Mem.rd s.mem k

/-- Fetches the 16 bytes at an address (spec 02, R41, R56 step 2): the TRAPAUX of the XLATE, or the bits. -/
def State.fetch (s : State) (g : Group) (pc : Dword) : Except Nat Nat :=
  match s.translate g.owner g.ctx g.priv false true pc with
  | .error p => .error (xlateAux p false true)
  | .ok t => .ok (leNat ((List.range 16).map (fun i => s.codeByte g (t.key + i))))

/-- Bit 54 of the 64 bits at an address, which may lie in the page after the address (spec 02, R47); false where that page
does not translate (log entry 101). -/
def State.landBit (s : State) (g : Group) (t : Dword) : Bool :=
  match s.translate g.owner g.ctx g.priv false true (t + 6) with
  | .error _ => false
  | .ok p => (s.codeByte g p.key).getLsbD 6

/-- Whether a walk for an address meets an uncorrectable entry (spec 18, R399, R403): it reads where no TLB line serves. -/
def State.walkBad (s : State) (node : Nat) (c : BitVec 8) (va : Dword) : Bool :=
  bitsAt va 63 56 = 0 && windowOf va = 0 && s.ptroot c ≠ 0 &&
    (s.tlbHit node c va).isNone && (s.walkReads va.toNat walkLevels (s.ptroot c)).any (fun k => s.badAt ownIl k)

/-- Whether a fetch at an address meets an uncorrectable sector, in its walk or in the code. -/
def State.fetchBad (s : State) (g : Group) (pc : Dword) : Bool :=
  s.walkBad g.owner g.ctx pc ||
    (match s.translate g.owner g.ctx g.priv false true pc with
      | .error _ => false
      | .ok t => s.badAt (pteIl t.pte) t.key)

/-! ### Spaces -/

/-- What an address names (spec 07, R146). -/
inductive Space where
  | scr (o : Nat)
  | clu (w : Nat)
  | priv (o : Nat)
  | page (t : Trans)
  | bad (reason level : Nat)
  deriving DecidableEq, Repr

/-- The space of an address. -/
def State.space (s : State) (g : Group) (write : Bool) (va : Dword) : Space :=
  let o := va.toNat % 2 ^ 48
  let o := if bitsAt va 63 56 = 0 then o else 2 ^ 48
  match windowOf va with
  | 1 => .scr o
  | 2 => .clu o
  | 3 => .priv o
  | _ =>
    match s.translate g.owner g.ctx g.priv write false va with
    | .error (r, l) => .bad r l
    | .ok t => .page t

/-- The scratchpad size, cluster size and private size that bound a group's windows. -/
def State.scrSize (s : State) (g : Group) : Nat := match s.kernelOf g with | none => 0 | some k => k.scr
def State.clSize (s : State) (g : Group) : Nat := match s.kernelOf g with | none => 0 | some k => k.clsz
def State.privSize (s : State) (g : Group) : Nat := match s.kernelOf g with | none => 0 | some k => k.priv

/-- The memory key of a location, when it has one: a scratchpad through the relocation entry (spec 14, R321), a private
area through its block (spec 14, R324). -/
def State.place (s : State) (l : Loc) : Option Nat :=
  match l with
  | .mem k => some k
  | .scr grid lin off =>
    match s.blocks.find? (fun p => p.2.grid = grid && p.2.lin = lin) with
    | none => none
    | some (_, b) =>
      match Sparse.find (s.node b.core).relocs b.reloc with
      | none => none
      | some r => if r.st = 2 then some (r.save.toNat % 2 ^ 39 + off) else some (sliceKey b.core (r.basepg.toNat * 4096 + off))
  | .priv grid lin grp off =>
    match s.blocks.find? (fun p => p.2.grid = grid && p.2.lin = lin) with
    | none => none
    | some (_, b) => (b.areas[grp]?).map (· + off)

/-- The owner of an address (spec 12, R264). -/
def State.ownerOf (s : State) (l : Loc) (il : Nat) (here : Nat) : Nat :=
  match l with
  | .mem k => homeOf il k
  | .scr grid lin _ =>
    match s.blocks.find? (fun p => p.2.grid = grid && p.2.lin = lin) with
    | none => here
    | some (_, b) => b.core
  | .priv .. => here

end Sys2Proof.Machine
end

