-- ==== Sys2Proof/Machine/Home.lean ====
section
/-! DEFINITION. The rollback log (spec 18, R396, R397), what the TLBs and a fetch do (R403), and the machine's own translations. -/

namespace Sys2Proof.Machine

open Sys2Proof

/-! ### The rollback log and the marks of an interval -/

/-- Whether a memory key lies in a block's own scratchpad or a private area of its groups held in the slice. -/
def State.ownBytes (s : State) (b : Block) (key : Nat) : Bool :=
  2 ^ 39 ≤ key &&
    ((match Sparse.find (s.node b.core).relocs b.reloc with
      | none => false
      | some r => r.st ≠ 2 && sliceKey b.core (r.basepg.toNat * 4096) ≤ key &&
          key < sliceKey b.core ((r.basepg.toNat + r.pages.toNat) * 4096)) ||
     b.areas.any (fun a => a ≤ key && key < a + 32 * b.k.priv + 4096))

/-- A write of a block's group to a 128-byte line of its own bytes: the old image goes to the group's log (spec 18,
R396). -/
def State.logBytes (s : State) (blk gid key n : Nat) : State :=
  match s.block blk with
  | none => s
  | some b =>
    if b.shadow.isNone then s
    else (unitPieces 128 key n).foldl (fun s p =>
      let line := (key + p.1) / 128 * 128
      if s.ownBytes b line then
        s.logLine blk gid (.line line) ((List.range 32).map (fun i => BitVec.ofNat 32 (Mem.num s.mem (line + 4 * i) 4)))
      else s) s

/-! ### Misses of the TLBs (spec 18, R403) -/

/-- A list with a line more; in place of another one, which the spec leaves open, when it holds `n` (log entry 15). -/
def tlbWith (fresh n seed : Nat) (l : List TlbLine) (t : TlbLine) : List TlbLine :=
  let l := l.filter (fun u => !(u.ctx = t.ctx && u.base = t.base && u.bits = t.bits))
  t :: (if l.length < n then l else l.eraseIdx ((Config.freeWord fresh seed).toNat % l.length))

/-- A line enters a core's L1 TLB, and its die's L2. -/
def State.fillTlb (s : State) (node : Nat) (t : TlbLine) : State :=
  if 256 ≤ node then s
  else
    let s := s.modNode node (fun x => { x with tlb := tlbWith s.own.fresh 64 (0xC000000 + node) x.tlb t })
    { s with l2 := Sparse.put s.l2 (dieOf node) (tlbWith s.own.fresh 4096 (0xC001000 + dieOf node) (Sparse.get [] s.l2 (dieOf node)) t) }

/-- What a walk does: it reads its entries at their homes, and a leaf that it finds enters the TLBs. -/
def State.walked (s : State) (node : Nat) (c : BitVec 8) (va : Dword) : State :=
  let t := (s.walkReads va.toNat walkLevels (s.ptroot c)).foldl (fun s k => (s.readAt ownIl k 8).1) s
  if s.walkBad node c va then t
  else match walkFrom s.entryAt va.toNat walkLevels (s.ptroot c) with
    | .error _ => t
    | .ok (e, bits) => t.fillTlb node { ctx := c, base := va.toNat / 2 ^ bits, bits := bits, pte := e }

/-- What the translation of an address leaves in the TLBs: nothing at a hit in the L1; else a line of the L2, or of a walk. -/
def State.lookUp (s : State) (node : Nat) (c : BitVec 8) (va : Dword) : State :=
  if bitsAt va 63 56 ≠ 0 || windowOf va ≠ 0 || s.ptroot c = 0 || (s.node node).tlb.any (fun t => t.serves c va) then s
  else match s.tlbHit node c va with
    | some t => s.fillTlb node t
    | none => s.walked node c va

/-- The pages of some addresses that a group names enter the TLBs. -/
def State.lookUps (s : State) (g : Group) (vas : List Dword) : State := vas.foldl (fun s va => s.lookUp g.owner g.ctx va) s

/-- What fetching at an address does at the home of the code: the translation, and one read of the sector (spec 02, R41; spec 14, R331,
R333, R335). -/
def State.fetched (s : State) (g : Group) (pc : Dword) : State :=
  let s := s.lookUp g.owner g.ctx pc
  match s.translate g.owner g.ctx g.priv false true pc with
  | .error _ => s
  | .ok t => (s.readAt (pteIl t.pte) t.key 1).1

/-! ### Local reads and writes by physical place -/

/-- Every context entry's address of a virtual page, read without a use check: the key of an address in supervisor
mode, for the machine's own accesses. -/
def State.superKey (s : State) (node : Nat) (c : BitVec 8) (write : Bool) (va : Dword) : Option Trans :=
  if windowOf va ≠ 0 then none
  else match s.translate node c true write false va with
    | .error _ => none
    | .ok t => if ptePeer t.pte then none else some t

end Sys2Proof.Machine
end

