-- ==== Sys2Proof/Machine/Image.lean ====
section
/-! DEFINITION. The save image of a block (spec 14, R326, R327; spec 18, R390, R391): where a register lies in it, and the
delivery of a long-latency result to a group, resident or evicted (spec 07, R165; spec 08, R181). -/

namespace Sys2Proof.Machine

open Sys2Proof

/-- The payload bytes of a saved register by its format byte (spec 14, R326). -/
def payloadSize (fb : Nat) : Nat :=
  if fb = 0xFF then 0
  else match fb % 8 with
    | 0 => 4
    | 1 => 20
    | 2 => 36
    | 3 => 68
    | _ => 128

/-- The offset of a register's payload in a vector register block (spec 14, R327). -/
def payloadAt (fb : Nat → Nat) (r : Nat) : Nat := (List.range r).foldl (fun o i => o + payloadSize (fb i)) 256

/-- The pages of a block's allocation. -/
def State.pagesOf (s : State) (b : Block) : Nat :=
  match Sparse.find (s.node b.core).relocs b.reloc with
  | none => 0
  | some r => r.pages.toNat

/-- The group record of a group in a save image (spec 18, R390). -/
def recordAt (save pages index : Nat) : Nat := save + pages * 4096 + 256 + index * 34816

/-- The image that a group's results go to while its block is evicted: the address of its group record. -/
def State.imageOf (s : State) (g : Group) : Option Nat :=
  if g.visitor.isSome then none
  else match s.block g.block with
    | none => none
    | some b => b.saved.map (fun a => recordAt a (s.pagesOf b) g.index)

/-! ### Saved registers (spec 14, R326, R327) -/

/-- A signed difference of two words. -/
def deltaOf (base x : Word) : Int := (x - base).toInt

/-- The format byte and payload of a register. -/
def packV (vals : List Word) (empty : Bool) : Nat × List Byte :=
  let raw := vals.flatMap (fun w => leBytes w.toNat 4)
  let base := vals.getD 0 0
  let ds := vals.map (deltaOf base)
  let within (b : Nat) : Bool := ds.all (fun d => -(2 ^ (b - 1) : Nat) ≤ d && d < (2 ^ (b - 1) : Nat))
  let packed (b : Nat) : List Byte :=
    leBytes base.toNat 4 ++ leBytes ((List.range 32).foldl (fun n L => n + (ds.getD L 0 % (2 ^ b : Nat)).toNat * 2 ^ (b * L)) 0) (4 * b)
  if empty then (0x84, raw)
  else if ds.all (· = 0) then (0, leBytes base.toNat 4)
  else if within 4 then (1, packed 4)
  else if within 8 then (2, packed 8)
  else if within 16 then (3, packed 16)
  else (4, raw)

/-- The lanes of a register from its format byte and payload. -/
def unpackV (fb : Nat) (p : List Byte) : List Word :=
  let base : Word := BitVec.ofNat 32 (field p 0 4)
  let wide (b : Nat) : List Word :=
    let n := field p 4 (4 * b)
    (List.range 32).map (fun L => base + BitVec.ofInt 32 ((BitVec.ofNat b (n / 2 ^ (b * L))).toInt))
  match fb % 8 with
  | 0 => List.replicate 32 base
  | 1 => wide 4
  | 2 => wide 8
  | 3 => wide 16
  | _ => (List.range 32).map (fun L => BitVec.ofNat 32 (field p (4 * L) 4))

/-- A part of an image that cannot be read is not rewritten: the write is discarded and counted (spec 14, R336). -/
def State.foundIn (s : State) (key n : Nat) : State :=
  match (unitPieces 32 key n).find? (fun p => s.badAt ownIl (key + p.1)) with
  | none => s
  | some p => (s.writeAt ownIl (key + p.1) [] none).1

/-- Lanes written into a saved vector register; `full` clears EMPTY. One stored raw, as every empty one is, is written in place (spec 14,
R326); another is stored anew, and the payloads after it move (log entry 110). -/
def State.imageV (s : State) (record r : Nat) (vals : List (Nat × Word)) (full : Bool) : State :=
  let base := record + 1024
  let fb (n : Nat) : Nat := s.lookNum (base + n) 1
  let at_ := base + payloadAt fb r
  if s.runBad base 256 then s.foundIn base 256
  else if fb r = 0xFF then s
  else if fb r % 8 = 4 then
    let s := vals.foldl (fun s p => s.writeRun ownIl (at_ + 4 * p.1) (leBytes p.2.toNat 4)) s
    if full then s.writeRun ownIl (base + r) [BitVec.ofNat 8 (fb r % 128)] else s
  else
    let lanes := unpackV (fb r) (s.look at_ (payloadSize (fb r)))
    let p := packV (laneList.map (fun L => ((vals.find? (fun v => v.1 = L)).map (·.2)).getD (lanes.getD L 0))) false
    let after := s.look (base + payloadAt fb (r + 1)) (payloadAt fb 256 - payloadAt fb (r + 1))
    if s.runBad at_ (payloadAt fb 256 - payloadAt fb r) then s.foundIn at_ (payloadAt fb 256 - payloadAt fb r)
    else (s.writeRun ownIl (base + r) [BitVec.ofNat 8 p.1]).writeRun ownIl at_ (p.2 ++ after)

/-- A saved scalar register written and marked full, or the saved EXM (spec 18, R391). -/
def State.imageS (s : State) (record r : Nat) (x : Word) (full : Bool) : State :=
  if r = 138 then s.writeRun ownIl (record + 536) (leBytes (x.toNat &&& s.lookNum (record + 540) 4) 4)
  else
    let s := s.writeRun ownIl (record + 4 * r) (leBytes x.toNat 4)
    if full then s.writeRun ownIl (record + 512 + r / 8) [BitVec.ofNat 8 (s.lookNum (record + 512 + r / 8) 1) ||| (1#8 <<< (r % 8))] else s

/-- Whether a group waits for a register. -/
def Group.awaits (g : Group) (scalar : Bool) (r : Nat) : Bool :=
  if scalar then g.sched.hold = .sreg r else g.sched.hold = .vreg r || g.sched.hold = .mjoin r

/-- A result lands in lanes of a vector register, which becomes full when `full` holds (spec 01, R17; spec 07, R149). -/
def State.deliverV (s : State) (gid r : Nat) (vals : List (Nat × Word)) (full : Bool) (why : Word) : State :=
  match s.group gid with
  | none => s
  | some g =>
    match s.imageOf g with
    | some a => s.imageV a r vals full
    | none =>
      let s := s.writeV gid r vals
      if full then
        let s := s.modGroup gid (fun g => g.markV r false)
        if g.awaits false r then s.unpark gid why else s
      else s

/-- A result lands in a scalar register, or in EXM (log entry 24). -/
def State.deliverS (s : State) (gid r : Nat) (x : Word) (full : Bool) (why : Word) : State :=
  match s.group gid with
  | none => s
  | some g =>
    match s.imageOf g with
    | some a => s.imageS a r x full
    | none =>
      let s := s.putDst gid (BitVec.ofNat 8 r) x
      if full then
        let s := s.modGroup gid (fun g => g.markS r false)
        if g.awaits true r then s.unpark gid why else s
      else s

/-- Marks the registers of a vector or scalar destination empty (spec 01, R17). -/
def State.markEmpty (s : State) (gid : Nat) (vec : Bool) (dst n : Nat) : State :=
  s.modGroup gid (fun g => (List.range n).foldl (fun g i => if vec then g.markV (dst + i) true else g.markS (dst + i) true) g)

/-- A result that lands later: the destination is empty until then (spec 01, R17). `vals` are a vector register's lanes, or the
registers from a scalar destination on. -/
def State.later (s : State) (gid : Nat) (vec : Bool) (dst : Nat) (vals : List (Nat × Word)) : State :=
  let t := s.markEmpty gid vec dst (if vec then 1 else vals.length)
  ({ t with lands := t.lands ++ [({ id := s.own.ids, gid := gid, vec := vec, dst := dst, vals := vals } : Landing)] } : State).newId

/-- A result lands in its register (spec 01, R17). -/
def State.landResult (s : State) (id : Nat) : State :=
  match s.lands.find? (fun l => l.id = id) with
  | none => s
  | some l =>
    let s := { s with lands := s.lands.filter (fun k => k.id ≠ id) }
    let s := if l.vec then s.deliverV l.gid l.dst l.vals true 0
      else l.vals.foldl (fun s p => s.deliverS l.gid (l.dst + p.1) p.2 true 0) s
    s.tryRetire l.gid

/-- Marks registers full without writing them: a transfer that raises FNEG leaves D as it was (spec 08, R179). -/
def State.fillV (s : State) (gid r : Nat) : State := s.deliverV gid r [] true 0

/-- An imprecise trap is pending for a group; a visitor ends (spec 12, R269, R277). -/
def State.raise (s : State) (gid : Nat) (t : Imprecise) : State :=
  match s.group gid with
  | none => s
  | some g =>
    if g.visitor.isSome then s.endVisitor gid 3 t.cause t.addr
    else
      let u := s.setGroup gid { g with out := { g.out with imprecise := g.out.imprecise ++ [t] } }
      if s.isAway g then u else u.rouse g.owner 0

end Sys2Proof.Machine
end

