-- ==== Sys2Proof/Machine/Send.lean ====
section
/-! DEFINITION. Sending over the fabric: membership and context tags (spec 21, R418), delivery contexts and spraying
(R424, R425), requests held during a re-key (R420, R421), and the write-combining buffer (spec 11, R243; spec 14,
R329). -/

namespace Sys2Proof.Machine

open Sys2Proof

/-- The context tag of a local context, when its DCTXMAP entry is VALID (spec 21, R418). -/
def State.tagFor (s : State) (c : BitVec 8) : Option Nat :=
  let e := Sparse.get 0 s.fab.dctxmap c.toNat
  if e.getLsbD 16 then some (e.toNat % 65536) else none

/-- The local context that a tag is bound to. -/
def State.contextOf (s : State) (tag : Nat) : Option (BitVec 8) :=
  (s.fab.dctxmap.find? (fun p => p.2.getLsbD 16 && p.2.toNat % 65536 = tag)).map (fun p => BitVec.ofNat 8 p.1)

def State.isMember (s : State) : Bool := s.fab.domst.getLsbD 0
def State.rekeying (s : State) : Bool := s.fab.domst.getLsbD 1

/-- Control messages: 1 ARRIVE, 2 RELEASE, 3 a new MEMBERS, 4 a failed domain, 5 REKEY. -/
def ctlArrive : Nat := 1
def ctlRelease : Nat := 2
def ctlMembers : Nat := 3
def ctlFailed : Nat := 4
def ctlRekey : Nat := 5

/-- Sets REKEY (spec 21, R419, R420). -/
def State.setRekey (s : State) : State :=
  { s with fab := { s.fab with domst := s.fab.domst ||| 2, rekeyAt := s.clock.toNat, arriveSent := false } }

/-- The clock of delivery give-up and of GLEFT, which stands still while a re-key holds requests (spec 21, R421). -/
def State.giveUpClock (s : State) : Nat := if s.rekeying then s.fab.rekeyAt else s.clock.toNat

/-- Why a context's access to a peer fails before anything is sent: the reason of R242 (spec 21, R418). -/
def State.peerFault (s : State) (c : BitVec 8) (peer : Nat) : Option Nat :=
  if !s.isMember || !s.fab.members.getLsbD peer then some 3
  else if (s.tagFor c).isNone then some 6 else none

/-- Why a device or context may send nothing: the reason of R242 (spec 21, R418). -/
def State.egressFault (s : State) (c : BitVec 8) : Option Nat :=
  if !s.isMember then some 3 else if (s.tagFor c).isNone then some 6 else none

/-- Delivery give-up time in cycles: DGUP µs, 0 meaning 2,000 (spec 21, R418). -/
def State.dgup (s : State) : Nat := (if s.fab.dgup = 0 then 2000 else s.fab.dgup.toNat) * 1600

def State.port (s : State) (p : Nat) : Port := Sparse.get Port.reset s.fab.ports p
def State.setPort (s : State) (p : Nat) (x : Port) : State :=
  { s with fab := { s.fab with ports := Sparse.set Port.reset s.fab.ports p x } }

/-- Whether the link of a port is up: trained, and not held down by the debug service (spec 22, R439). -/
def Port.live (x : Port) (now : Nat) : Bool := x.up && (match x.held with | none => true | some t => now < t)

/-- Whether a port is LOCKED or RUNNING. -/
def State.secured (s : State) (p : Nat) : Bool := p < 32 && ((s.port p).state = 1 || (s.port p).state = 2)

/-- Whether a port brings packets: LOCKED or RUNNING, with its link up (spec 21, R414). -/
def State.portOpen (s : State) (p : Nat) : Bool := s.secured p && (s.port p).live s.clock.toNat && s.power

/-- Whether a port carries program traffic (spec 21, R414). -/
def State.portRuns (s : State) (p : Nat) : Bool := (s.port p).state = 2 && s.portOpen p

/-- Whether some port brings control messages, or program traffic. -/
def State.hears (s : State) : Bool := (List.range 32).any s.portOpen
def State.receives (s : State) : Bool := (List.range 32).any s.portRuns

/-- The next plane at or after `n` whose port is RUNNING (spec 21, R425). -/
def State.plane (s : State) (n : Nat) : Option Nat :=
  ((List.range 32).map (fun i => (n + i) % 32)).find? (fun p => (s.port p).state = 2)

/-- Whether a re-key holds the new packets of a class at the egress: all but responses, and those too once the device has
sent ARRIVE (spec 21, R420). -/
def State.holdsClass (s : State) (cls : Nat) : Bool := s.rekeying && (cls ≠ 1 || s.fab.arriveSent)

/-- Sends what a context may send: in order, at most 256 packets unacknowledged (spec 21, R424, R425). -/
def sendList (s : State) (rot : Nat) : List Sent → Nat → List Packet × List Sent × Nat
  | [], _ => ([], [], rot)
  | x :: xs, n =>
    if x.sent then
      let (out, rest, r) := sendList s rot xs (n + 1)
      (out, x :: rest, r)
    else if 256 ≤ n then ([], x :: xs, rot)
    else match s.plane rot with
      | none => ([], x :: xs, rot)
      | some p =>
        let x := { x with sent := true, first := s.clock.toNat, last := s.clock.toNat, p := { x.p with plane := p, hop := 256 } }
        let (out, rest, r) := sendList s ((p + 1) % 32) xs (n + 1)
        (x.p :: out, x :: rest, r)

/-- The clock of a request that waits for a RESP or COMPLETE runs from its first sending (spec 21, R428). -/
def OutMsg.started (m : OutMsg) (now peer cls : Nat) (out : List Packet) : OutMsg :=
  if m.first.isNone && m.peer = peer && cls = 0 && out.any (fun p => p.msg = m.id) then { m with first := some now } else m

/-- Sends what every context may send (spec 21, R424, R425, R429). -/
def State.flush (s : State) : State :=
  s.fab.sctx.foldl (fun s c =>
    if !c.cached then s else
    let (out, pkts, rot) := sendList s c.plane c.pkts 0
    let s := out.foldl (fun s p => s.emit (.packet p.plane p)) s
    { s with fab := { s.fab with
        outmsgs := s.fab.outmsgs.map (fun m => m.started s.giveUpClock c.peer c.cls out)
        sctx := s.fab.sctx.map (fun d => if d.peer = c.peer && d.cls = c.cls then
          { d with pkts := pkts, plane := rot, last := if out.isEmpty then d.last else s.clock.toNat } else d) } }) s

/-- Room for one more of the 4,096 contexts that the device caches: the least recently used one is written out to the context region (spec 21,
R429; log entry 125). -/
def State.roomForCtx (s : State) : State :=
  let full := 4096 ≤ (s.fab.sctx.filter (·.cached)).length + (s.fab.rctx.filter (·.cached)).length
  let s := if full then { s with fab := { s.fab with spilled := true } } else s
  let sending := s.fab.sctx.filter (·.cached)
  let receiving := s.fab.rctx.filter (·.cached)
  if sending.length + receiving.length < 4096 then s
  else
    let old := (sending.map (·.last) ++ receiving.map (·.last)).foldl min s.clock.toNat
    match sending.find? (fun c => c.last = old), receiving.find? (fun c => c.last = old) with
    | some x, _ => { s with fab := { s.fab with sctx := updWhere s.fab.sctx (fun c => c.peer = x.peer && c.cls = x.cls) (fun c => { c with cached := false }) } }
    | none, some x => { s with fab := { s.fab with rctx := updWhere s.fab.rctx (fun c => c.peer = x.peer && c.cls = x.cls) (fun c => { c with cached := false }) } }
    | none, none => s

/-- The counter that a receiver and class take their CTXNO from: classes 0 to 2 share one (spec 21, R424). -/
def ctxCounter (peer cls : Nat) : Nat := if cls = 3 then 1024 + peer else peer

/-- Whether a sending context has closed: 64 µs without a packet sent and without an acknowledgement, and nothing unacknowledged (spec 21, R427). -/
def SendCtx.quiet (c : SendCtx) (now : Nat) : Bool := c.last + 102400 ≤ now && !c.pkts.any (·.sent)

/-- Whether a receiving context has closed: 64 µs without a packet (spec 21, R427). -/
def RecvCtx.quiet (c : RecvCtx) (now : Nat) : Bool := c.last + 102400 ≤ now

/-- Whether a new context would take its counter past 2^31 − 1 (spec 21, R421). -/
def State.spent (s : State) (peer cls : Nat) : Bool :=
  !s.fab.sctx.any (fun c => c.peer = peer && c.cls = cls) && 2 ^ 31 - 1 ≤ Sparse.get 0 s.fab.ctxnos (ctxCounter peer cls)

/-- Opens the sending context of a receiver and class when none is open (spec 21, R424): the next CTXNO of its counter. -/
def State.openCtx (s : State) (peer cls : Nat) : State :=
  if s.fab.sctx.any (fun c => c.peer = peer && c.cls = cls) then s
  else
    let s := s.roomForCtx
    let k := ctxCounter peer cls
    let n := Sparse.get 0 s.fab.ctxnos k + 1
    { s with fab := { s.fab with
        ctxnos := Sparse.put s.fab.ctxnos k n
        sctx := s.fab.sctx ++ [{ peer := peer, cls := cls, gen := s.fab.kgen.toNat, ctxno := n, next := 0, plane := n % 32,
                                 last := s.clock.toNat, cached := true, pkts := [] }] } }

/-- Whether a packet is a later one of a message that has begun to be sent: a re-key holds only new requests (spec 21, R420). -/
def State.begun (s : State) (peer cls : Nat) (p : Packet) : Bool :=
  p.offset ≠ 0 && !s.fab.held.any (fun h => h.1 = peer && h.2.1 = cls && h.2.2.1.msg = p.msg)

/-- Adds a packet to the context of a receiver and class, or to what a re-key holds. A counter that is spent sets REKEY on every member
through the manager, and the packet waits for the next generation (spec 21, R421). -/
def State.letIn (s : State) (peer cls : Nat) (p : Packet) (why : Purpose) : State :=
  let full := s.spent peer cls
  let s := if full && !s.rekeying then s.setRekey.emit (.control ctlRekey s.fab.kgen.toNat) else s
  if (s.holdsClass cls && !s.begun peer cls p) || full then { s with fab := { s.fab with held := s.fab.held ++ [(peer, cls, p, why)] } }
  else
  let s := s.openCtx peer cls
  { s with fab := { s.fab with sctx := s.fab.sctx.map (fun c => if c.peer = peer && c.cls = cls then
      { c with
        next := c.next + 1
        pkts := c.pkts ++ [{ p := { p with ctxno := c.ctxno, pseq := c.next, kg := c.gen % 2 = 1 }, purpose := why, sent := false,
                             first := s.clock.toNat, last := s.clock.toNat }] }
      else c) } }

/-- Closes a sending context: what it has not sent goes to the next one (spec 21, R427). -/
def State.closeCtx (s : State) (c : SendCtx) : State :=
  let s := { s with fab := { s.fab with sctx := s.fab.sctx.filter (fun d => !(d.peer = c.peer && d.cls = c.cls)) } }
  c.pkts.foldl (fun s x => if x.sent then s else s.letIn c.peer c.cls x.p x.purpose) s

/-- Sends a packet in the open context of a receiver and class; one that has been quiet for 64 µs is closed (spec 21, R427), unless a re-key
holds what it would send. -/
def State.enqueue (s : State) (peer cls : Nat) (p : Packet) (why : Purpose) : State :=
  let s := match s.fab.sctx.find? (fun c => c.peer = peer && c.cls = cls) with
    | none => s
    | some c => if c.quiet s.clock.toNat && !(s.rekeying && !c.pkts.isEmpty) then s.closeCtx c else s
  s.letIn peer cls p why

/-! ### The header (spec 21, R422) -/

/-- The payload bytes that a body carries; the form of a FIELD message, and how a WRITE carries its byte mask, are left open (log entry 130). -/
def bodySize (b : PBody) : Nat :=
  match b with
  | .write _ bs => bs.length
  | .atomic _ wide cas _ _ _ => (if wide then 8 else 4) * (if cas then 2 else 1)
  | .resp d => d.length
  | _ => 0

/-- The address that a body names on the peer. -/
def bodyAddr (b : PBody) : Nat :=
  match b with
  | .write a _ | .read a _ | .atomic a .. => a
  | _ => 0

/-- Whether the fields of a packet fit its header and its payload the 256 bytes (spec 21, R422). -/
def packetFits (p : Packet) : Bool :=
  p.typ < 256 && p.cls < 4 && p.src < 512 && p.dst < (if p.mcast then 4096 else 512) && p.hop < 2 ^ 16 && p.dctx < 2 ^ 16 &&
    bodySize p.body ≤ 256 && 1 ≤ p.ctxno && p.ctxno < 2 ^ 31 && p.pseq < 2 ^ 64 && p.msg < 2 ^ 32 && p.offset < 2 ^ 32 && p.msgLen ≤ 2 ^ 31 &&
    bodyAddr p.body < 2 ^ 40 && (match p.body with | .write _ bs => bs.all (fun b => b.1 < 256) | _ => true)

/-- The 48-byte header of a packet, with the operation code of its request, which the spec does not number (log entry 130). -/
def packetHeader (p : Packet) (code : BitVec 24) : List Byte :=
  leBytes p.typ 1 ++ leBytes (p.cls % 4 + if p.kg then 4 else 0) 1 ++ leBytes (p.src % 512) 2 ++
    leBytes (if p.mcast then 2 ^ 15 + p.dst % 4096 else p.dst % 512) 2 ++ leBytes p.hop 2 ++ leBytes p.dctx 2 ++ leBytes (bodySize p.body) 2 ++
    leBytes p.ctxno 4 ++ leBytes p.pseq 8 ++ leBytes p.msg 4 ++ leBytes p.offset 4 ++ leBytes p.msgLen 4 ++
    leBytes (bodyAddr p.body % 2 ^ 40 + 2 ^ 40 * code.toNat) 8 ++ [0, 0, 0, 0]

/-- A packet as its sender makes it (spec 21, R422); context, sequence and plane are filled in on the way. -/
def State.packet (s : State) (typ cls dst : Nat) (mc : Bool) (tag : Nat) (msg off len : Nat) (b : PBody) : Packet :=
  { typ := typ, cls := cls, kg := false, src := s.devid, dst := dst, mcast := mc, hop := 256, dctx := tag, ctxno := 0, pseq := 0,
    msg := msg, offset := off, msgLen := len, plane := 0, tagOk := true, asks := false, body := b }

/-- A new message number. -/
def State.newMsg (s : State) : State := { s with fab := { s.fab with msgid := s.fab.msgid + 1 } }

/-- Sends a request of a context to a peer as a single packet. -/
def State.request (s : State) (c : BitVec 8) (peer typ len : Nat) (b : PBody) (why : Purpose) : State :=
  let m := s.fab.msgid
  ((s.newMsg.enqueue peer 0 (s.packet typ 0 peer false ((s.tagFor c).getD 0) m 0 len b) why)).flush

/-- What names the receiving context of a packet beside its class: the sender, and for class 3 the group too (spec 21, R424). -/
def rctxKey (p : Packet) : Nat := if p.cls = 3 then 512 * (p.dst + 1) + p.src else p.src

/-- The acknowledgement of a received packet: its status is kept for duplicates, and it travels on the packet's plane or the
next RUNNING one (spec 21, R425). -/
def State.ackPacket (s : State) (p : Packet) (status : Nat) : State :=
  let key := rctxKey p
  let note (c : RecvCtx) : RecvCtx := { c with got := Sparse.put c.got p.pseq status }
  let s := { s with fab := { s.fab with rctx := updWhere s.fab.rctx (fun c => c.peer = key && c.cls = p.cls && c.ctxno = p.ctxno) note } }
  match s.plane p.plane with
  | none => s
  | some pl =>
    let a : Packet := { p with
      typ := 9, src := s.devid, dst := p.src, mcast := false, hop := 256, plane := pl, body := .resp [BitVec.ofNat 8 status] }
    s.emit (.packet pl a)

/-! ### The write-combining buffer -/

/-- Starts the drain of the lines that `p` selects (spec 11, R243). -/
def State.closeLines (s : State) (n : Nat) (p : WcLine → Bool) : State :=
  if (s.node n).wc.any (fun l => p l && !l.closed) then
    s.modNode n (fun x => { x with wc := updWhere x.wc p (fun l => { l with closed := true }) })
  else s

/-- The bytes of a line that its mask covers. -/
def WcLine.bytes (l : WcLine) : List (Nat × Byte) :=
  (List.range 128).filterMap (fun i => if l.mask.getLsbD i then some (i, l.data.getD i 0) else none)

/-- Sends the packets of closed lines that may go to their peer (spec 21, R418): not before the packet of an earlier line of the same peer and address is
acknowledged (spec 14, R329). -/
def State.drain (s : State) (n : Nat) : State :=
  (s.node n).wc.foldl (fun s l =>
    if l.closed && l.pkt.isNone && (s.peerFault l.ctx l.peer).isNone &&
        !(s.node n).wc.any (fun k => k.id < l.id && k.peer = l.peer && k.addr = l.addr) then
      let m := s.fab.msgid
      let s := s.modNode n (fun x => { x with wc := updWhere x.wc (fun k => k.id = l.id) (fun k => { k with pkt := some m }) })
      s.request l.ctx l.peer 1 l.bytes.length (.write l.addr l.bytes) (.line n l.id)
    else s) s

/-- The bytes of a store of identity `id` enter the buffer: into the open line of the peer and 128-byte address, or a new one; a full line
drains (spec 11, R243). Stores of two contexts take two lines (log entry 129). -/
def State.combine (s : State) (n gid id : Nat) (c : BitVec 8) (peer addr : Nat) (bs : List Byte) : State :=
  (unitPieces 128 addr bs.length).foldl (fun s p =>
    let base := (addr + p.1) / 128 * 128
    let o := addr + p.1 - base
    let s := if (s.node n).wc.any (fun l => l.peer = peer && l.addr = base && l.ctx = c && !l.closed) then s
      else
        let line : WcLine :=
          { id := s.own.ids, oldest := id, peer := peer, addr := base, mask := 0, data := List.replicate 128 0, writers := [], ctx := c,
            since := s.clock.toNat, closed := false, pkt := none }
        s.newId.modNode n (fun x => { x with wc := x.wc ++ [line] })
    let mine (l : WcLine) : Bool := l.peer = peer && l.addr = base && l.ctx = c && !l.closed
    let add (l : WcLine) : WcLine :=
      let mask := (List.range p.2).foldl (fun m i => m ||| (1#128 <<< (o + i))) l.mask
      { l with
        oldest := min l.oldest id
        mask := mask
        data := l.data.take o ++ (bs.drop p.1).take p.2 ++ l.data.drop (o + p.2)
        writers := if l.writers.contains gid then l.writers else gid :: l.writers
        closed := mask = BitVec.allOnes 128 }
    s.modNode n (fun x => { x with wc := updWhere x.wc mine add })) s

/-- How many new lines some stores would open. -/
def State.newLines (s : State) (n : Nat) (c : BitVec 8) (l : List (Nat × Nat × Nat)) : Nat :=
  (l.foldl (fun acc (q : Nat × Nat × Nat) => (unitPieces 128 q.2.1 q.2.2).foldl (fun acc p =>
    let k := (q.1, (q.2.1 + p.1) / 128 * 128)
    if acc.contains k || (s.node n).wc.any (fun w => w.peer = k.1 && w.addr = k.2 && w.ctx = c && !w.closed) then acc
    else k :: acc) acc) ([] : List (Nat × Nat))).length

end Sys2Proof.Machine
end

