-- ==== Sys2Proof/Machine/Access.lean ====
section
/-! DEFINITION. Accesses (spec 07, R145 to R157): addresses and their checks, the parts of an access, when a part may be
performed (spec 13, R286), reading and landing, and the requests that go to a peer (spec 11, R242, R243). -/

namespace Sys2Proof.Machine

open Sys2Proof

/-! ### Addresses -/

/-- What an instruction does with an address, and which spaces it accepts (spec 07, R146, R153). -/
structure Use where
  write : Bool := false
  noField : Bool := false
  align : Nat := 1
  scr : Bool := true
  clu : Bool := true
  priv : Bool := true
  peer : Bool := true
  far : Bool := true
  deriving DecidableEq, Repr

/-- Where bytes of an access lie: on this device, with the leaf that maps them, or on a peer. -/
inductive Tgt where
  | here (l : Loc) (pte : Dword)
  | peer (dev addr : Nat)
  deriving DecidableEq, Repr

/-- A run of bytes of an access that lie in one sector (spec 07, R150). -/
structure Piece where
  off : Nat
  len : Nat
  tgt : Tgt
  deriving DecidableEq, Repr

/-- The private location of byte `o` of a lane (spec 14, R324). -/
def privOff (L o : Nat) : Nat := o / 4 * 128 + 4 * L + o % 4

/-- The linear number of the cluster member of a rank. -/
def memberLin (b : Block) (k : Nat) : Nat := b.lin / b.k.clsz * b.k.clsz + k

/-- DSPACE of a page that an instruction does not accept: a peer window, or, where it accepts no other, any other page, for which
the spec has no code (spec 07, R146, R153; log entry 106). -/
def State.pageFails (s : State) (g : Group) (u : Use) (va : Dword) : List (Nat × Nat) :=
  match s.peerPage g.owner g.ctx va with
  | some true => if u.peer then [] else [(1, 4)]
  | some false => if u.far then [] else [(1, (Config.freeDword s.own.fresh 28).toNat)]
  | none => []

/-- The pieces of an access of `n` bytes at an address in a lane, and every failure of R153 as its precedence and TRAPAUX;
precedence 0 is a local window named in a visitor (spec 12, R269), 6 a walk that meets an uncorrectable entry, which the group consumes
when nothing else fails (spec 18, R399; log entry 15). -/
def State.locate (s : State) (g : Group) (L : Nat) (u : Use) (n : Nat) (va : Dword) : List Piece × List (Nat × Nat) :=
  let o := if bitsAt va 63 56 = 0 then va.toNat % 2 ^ 48 else 2 ^ 48
  let al := if u.align > 1 && va.toNat % u.align ≠ 0 then [(2, 0)] else []
  let w := windowOf va
  if w ≠ 0 && g.visitor.isSome then ([], [(0, 0)])
  else match s.blockOf g with
    | none => ([], [(4, 2)])
    | some b =>
      match w with
      | 3 => ((unitPieces 4 o n).map (fun p => ⟨p.1, p.2, .here (.priv b.grid b.lin g.index (privOff L (o + p.1))) 0⟩),
               (if u.priv then [] else [(1, 3)]) ++ al ++ (if o + n ≤ b.k.priv then [] else [(3, 3)]))
      | 1 => ((unitPieces 32 o n).map (fun p => ⟨p.1, p.2, .here (.scr b.grid b.lin (o + p.1)) 0⟩),
               (if u.scr then [] else [(1, 1)]) ++ al ++ (if o + n ≤ b.k.scr then [] else [(3, 1)]))
      | 2 =>
        let k := o / 2 ^ 20
        let off := o % 2 ^ 20
        ((unitPieces 32 off n).map (fun p => ⟨p.1, p.2, .here (.scr b.grid (memberLin b k) (off + p.1)) 0⟩),
          (if u.clu then [] else [(1, 2)]) ++ al ++ (if k < b.k.clsz && off + n ≤ b.k.scr then [] else [(3, 2)]))
      | _ =>
        (unitPieces 32 va.toNat n).foldl (fun (r : List Piece × List (Nat × Nat)) p =>
          let a := va + BitVec.ofNat 64 p.1
          let fails := r.2 ++ s.pageFails g u a
          if s.walkBad g.owner g.ctx a then (r.1, r.2 ++ [(6, 0)])
          else match s.translate g.owner g.ctx g.priv u.write false a with
          | .error e => (r.1, fails ++ [(4, xlateAux e u.write false)])
          | .ok t =>
            if ptePeer t.pte then (r.1 ++ [⟨p.1, p.2, .peer (ptePid t.pte) t.addr⟩], fails)
            else (r.1 ++ [⟨p.1, p.2, .here (.mem t.key) t.pte⟩], fails ++ (if u.noField && pteField t.pte then [(5, 0)] else []))) ([], al)

/-- What a failed check raises: cause, TRAPLANES, TRAPADDR, TRAPAUX. -/
structure Raise where
  cause : Cause
  lanes : Word
  addr : Dword
  aux : Dword
  deriving DecidableEq, Repr

/-- The cause of a precedence of R153, with ILLOP reason 14 for 0. -/
def precCause (p : Nat) : Cause :=
  match p with
  | 0 => .illop
  | 1 => .dspace
  | 2 => .dalign
  | 3 => .lbound
  | 4 => .xlate
  | 5 => .fstore
  | _ => .uncorr

/-- The least of some numbers, `d` for none. -/
def least (d : Nat) (l : List Nat) : Nat := l.foldl min d

/-- The outcome of checking every lane (spec 07, R153): what to raise, or each lane's pieces. -/
def verdict (l : List (Nat × Dword × List Piece × List (Nat × Nat))) : Except Raise (List (Nat × List Piece)) :=
  let fails := l.flatMap (fun x => x.2.2.2.map (·.1))
  if fails.isEmpty then .ok (l.map (fun x => (x.1, x.2.2.1)))
  else
    let p := least 9 fails
    let mine := l.filter (fun x => x.2.2.2.any (fun e => e.1 = p))
    match mine with
    | [] => .ok []
    | low :: _ =>
      let aux := ((low.2.2.2.find? (fun e => e.1 = p)).map (·.2)).getD 0
      .error { cause := precCause p, lanes := maskOf (fun L => mine.any (fun x => x.1 = L)),
               addr := if p = 0 then 0 else low.2.1
               aux := if p = 0 then illopAux (14, 0) else BitVec.ofNat 64 aux }

/-- Checks the lanes of an access of `n` bytes. -/
def State.check (s : State) (g : Group) (u : Use) (n : Nat) (l : List (Nat × Dword)) :
    Except Raise (List (Nat × List Piece)) :=
  verdict (l.map (fun x => (x.1, x.2, s.locate g x.1 u n x.2)))

/-- The pieces of the helper lanes whose access would not trap (spec 07, R152). -/
def State.checkHelpers (s : State) (g : Group) (u : Use) (n : Nat) (l : List (Nat × Dword)) : List (Nat × List Piece) :=
  l.filterMap (fun x => let r := s.locate g x.1 u n x.2; if r.2.isEmpty then some (x.1, r.1) else none)

/-- Raises what a check found; an uncorrectable word is consumed (spec 18, R399). For one access per group TRAPLANES are the lanes active at issue. -/
def State.raiseNow (s : State) (gid : Nat) (g : Group) (once : Bool) (r : Raise) : Res :=
  if r.cause = .uncorr then .next (s.consume gid)
  else .next (s.trap gid r.cause (if once || r.cause = .illop then g.ctl.exm else r.lanes) r.addr r.aux)

/-! ### When a part may be performed -/

/-- The accesses of the same group that precede an access in program order and are not yet performed. -/
def State.before (s : State) (gid id : Nat) : List Access := s.accs.filter (fun b => b.gid = gid && b.id < id)

/-- The transfers of the group that precede it and have not landed (spec 08, R183). -/
def State.xfersBefore (s : State) (gid id : Nat) : List Xfer := s.fld.xfers.filter (fun x => x.gid = gid && x.id < id && !x.dead)

/-- Whether an access only stores. -/
def Access.isStore (a : Access) : Bool := a.kind = .store

/-- Whether an access only loads. -/
def Access.isLoad (a : Access) : Bool :=
  match a.kind with
  | .load _ | .field _ | .owner => true
  | _ => false

/-- Whether a load is answered at the home only, never from a store that the core still holds. -/
def Access.homeOnly (a : Access) : Bool :=
  match a.kind with
  | .load _ => a.acq && 1 < a.scope
  | .store => false
  | _ => true

/-- Whether a part touches one of `n` bytes at an address of a device. -/
def State.touchesPeer (s : State) (p : Part) (d addr n : Nat) : Bool :=
  match s.place p.loc with
  | none => false
  | some x => match p.mc with
    | some m => m.members.getLsbD d && m.bytes.any (fun b => addr ≤ x + b.1 && x + b.1 < addr + n)
    | none => p.peer = some d && x < addr + n && addr < x + p.len

/-- Whether two parts share a byte; a multicast line has its bytes on every member (spec 11, R245). -/
def State.meets (s : State) (p q : Part) : Bool :=
  match p.mc, q.mc with
  | some m, some k => m.members &&& k.members ≠ 0 && s.place p.loc = s.place q.loc && m.bytes.any (fun b => k.bytes.any (fun c => c.1 = b.1))
  | some _, none => (match q.peer, s.place q.loc with | some d, some y => s.touchesPeer p d y q.len | _, _ => false)
  | none, some _ => (match p.peer, s.place p.loc with | some d, some x => s.touchesPeer q d x p.len | _, _ => false)
  | none, none => p.peer = q.peer &&
    (match s.place p.loc, s.place q.loc with
      | some x, some y => x < y + q.len && y < x + p.len
      | none, none =>
        (match p.loc, q.loc with
          | .scr g l x, .scr g' l' y => g = g' && l = l' && x < y + q.len && y < x + p.len
          | _, _ => false)
      | _, _ => false)

/-- Whether a part goes to a peer, or to one of its own. -/
def Part.towards (p : Part) (dev : Option Nat) : Bool :=
  match p.mc, dev with
  | some m, some d => m.members.getLsbD d
  | none, some d => p.peer = some d
  | _, none => p.peer.isSome

/-- Whether stores of the group that precede an identity are on their way to a peer: in the write-combining buffer, or sent and not
acknowledged (spec 07, R157; spec 11, R246). -/
def State.peersOwing (s : State) (gid id : Nat) (dev : Option Nat) : Bool :=
  s.nodes.any (fun n => n.2.wc.any (fun l => l.writers.contains gid && (match dev with | none => true | some d => l.peer = d))) ||
    (s.before gid id).any (fun a => a.isStore && a.parts.any (fun p => p.towards dev))

/-- Whether an access is still to be performed for a release below .dom: all but stores sent to peers (spec 07, R157; spec 11, R244). -/
def Access.owes (b : Access) : Bool := !b.isStore || b.parts.any (fun q => q.peer.isNone || q.msg.isNone)

/-- The pending stores that a group has read with accesses up to an identity (spec 13, R286). -/
def State.readBy (s : State) (gid id : Nat) : List Nat := (s.own.deps.filter (fun d => d.1 = gid && d.2.1 ≤ id)).map (·.2.2)

/-- Whether a release or fence at a scope must still wait (spec 07, R157; spec 13, R286): at .grp for what is no store, at .cor
for what the core does not see yet, from .clu on for every earlier access and every store that the group has read, at .dom and .sys
for the peers. -/
def State.unreleased (s : State) (gid id scope : Nat) : Bool :=
  let mine := s.before gid id
  let read := s.readBy gid id
  !(s.xfersBefore gid id).isEmpty ||
  (if scope = 0 then mine.any (fun b => !b.isStore)
   else if scope = 1 then mine.any (fun b => !b.isStore || b.parts.any (fun q => q.vis = 0 && q.msg.isNone))
   else mine.any (·.owes) || s.accs.any (fun b => read.contains b.id && b.owes) || (4 ≤ scope && s.peersOwing gid id none))

/-- Whether an earlier acquire of the group still holds back later accesses (spec 07, R157): a load, atomic or transfer, or a
tqdeq or cqpoll that waits (spec 11, R257, R261). -/
def State.acquiring (s : State) (gid id : Nat) : Bool :=
  (s.before gid id).any (·.acq) || (s.xfersBefore gid id).any (·.acq) || s.dist.requests.any (fun r => r.gid = gid && r.id < id)

/-- Whether a transfer touches a byte of a part (spec 08, R183). -/
def State.xferMeets (s : State) (x : Xfer) (p : Part) : Bool :=
  match s.place p.loc with
  | none => false
  | some k => x.lanes.any (fun l =>
      let n := if x.q64 then 8 else 4
      match p.peer with
      | none => (l.okey < k + p.len && k < l.okey + n) || (!l.fabric && l.dkey < k + p.len && k < l.dkey + n)
      | some d => l.fabric && l.ddev = d && l.daddr < k + p.len && k < l.daddr + n)

/-- Whether a part is a wait's that its home has entered or answered: it holds nothing back any more (spec 07, R164, R165). -/
def Access.entered (a : Access) (p : Part) : Bool :=
  match a.kind with
  | .wait .. => p.msg.isSome
  | _ => false

/-- Whether two groups are of one block; a visitor is of none. -/
def State.mates (s : State) (i j : Nat) : Bool := i = j || s.blocks.any (fun b => b.2.gids.contains i && b.2.gids.contains j)

/-- Whether a store held under CONTAIN is among the accesses of a group below an identity, or the stores that those have read. -/
def State.heldBefore (s : State) (gid bound : Nat) : Bool :=
  let read := s.readBy gid bound
  s.accs.any (fun b => b.anyHeld && ((b.gid = gid && b.id < bound) || read.contains b.id))

/-- Whether a store that the block holds under CONTAIN must come before a part that is not held: of the part's bytes, an earlier one of the
group or one that the block sees; of any bytes, one that a release of the group has ordered before a store or atomic of it (spec 07, R151,
R157; spec 13, R286; log entry 104). -/
def State.heldFirst (s : State) (a : Access) (p : Part) : Bool :=
  let writes := match a.kind with | .store | .atomic .. | .faddt => true | _ => false
  let bound := if a.rel && 1 ≤ a.scope then a.id else a.corAt
  !p.hold && (s.accs.any (fun b => b.anyHeld && s.mates a.gid b.gid &&
    b.parts.any (fun q => q.hold && ((b.gid = a.gid && b.id < a.id) || q.vis ≠ 0) && s.meets p q)) ||
    (writes && s.heldBefore a.gid bound))

/-- Whether a part must wait for something before it is performed at its home. -/
def State.blocked (s : State) (a : Access) (p : Part) : Bool :=
  let mine := s.before a.gid a.id
  let atHome := (!a.isLoad || a.homeOnly) && p.peer.isNone
  s.acquiring a.gid a.id ||
  (a.rel && s.unreleased a.gid a.id a.scope) ||
  (s.xfersBefore a.gid a.id).any (fun x => s.xferMeets x p) ||
  -- program order to one byte (spec 07, R151); a local load is answered from the group's own earlier store
  mine.any (fun b => !(a.isLoad && !a.homeOnly && p.peer.isNone && b.isStore) &&
    b.parts.any (fun q => !b.entered q && s.meets p q)) ||
  -- what the core's groups have seen of a byte comes first, in the order in which they saw it (spec 13, R286)
  (atHome && s.accs.any (fun b => b.node = a.node && b.isStore &&
    b.parts.any (fun q => !q.hold && q.vis ≠ 0 && (p.vis = 0 || q.vis < p.vis) && s.meets p q))) ||
  (atHome && s.heldFirst a p) ||
  -- ascending lanes of one instruction (spec 07, R151, R162)
  (!a.isLoad && a.parts.any (fun q => q.id < p.id && !a.entered q && s.meets p q))

/-- Whether the groups of the core may come to see a part of a pending store (spec 13, R286; spec 07, R151, R157). -/
def State.canSee (s : State) (a : Access) (p : Part) : Bool :=
  a.isStore && p.peer.isNone && p.vis = 0 && !s.acquiring a.gid a.id && !(a.rel && s.unreleased a.gid a.id a.scope) &&
    !(s.xfersBefore a.gid a.id).any (fun x => s.xferMeets x p) && !s.heldFirst a p &&
    !(s.before a.gid a.id).any (fun b => b.parts.any (fun q => q.vis = 0 && !b.entered q && s.meets p q)) &&
    !a.parts.any (fun q => q.id < p.id && q.vis = 0 && s.meets p q)

/-- Whether a core has stores that its groups see and no home has performed: what an engine or matrix operation reads and writes comes after
them, since an acquire or a barrier may have ordered it so (spec 10, R232). -/
def State.seenPending (s : State) (node : Nat) : Bool :=
  s.accs.any (fun b => b.node = node && b.isStore && b.parts.any (fun q => q.vis ≠ 0 && !q.hold))

/-- A release at .cor of a group has been performed: its place in the core's order. Places whose accesses have all been performed go (spec
07, R158). -/
def State.addPoint (s : State) (node gid id : Nat) : State :=
  let open_ (q : Nat × Nat × Nat × Nat) : Bool := s.accs.any (fun b => (b.gid = q.2.2.1 && b.id < q.2.2.2) || (s.readBy q.2.2.1 q.2.2.2).contains b.id)
  { s with own := { s.own with points := (s.own.seq, node, gid, id) :: s.own.points.filter open_ } }

/-- A release at .cor of a group at an instruction of its own (a fence, a barrier) takes its place in the core's order (spec 07, R158). -/
def State.pointHere (s : State) (gid : Nat) : State :=
  match s.group gid with
  | none => s
  | some g => s.newSeq.addPoint g.owner gid s.own.ids

/-- What a fence at .cor or wider has ordered, a later store of the group releases at .cor (spec 13, R285, R297). -/
def State.fenced (s : State) (gid scope : Nat) : State :=
  if scope = 0 then s else (s.modGroup gid (fun g => { g with out := { g.out with corFence := s.own.ids } })).pointHere gid

/-- A part of a pending store is performed at the core: its groups, or those of the block that holds it, see it from now on (spec 13, R286;
spec 18, R398). -/
def State.seeStore (s : State) (req part : Nat) : State :=
  match s.accs.find? (fun a => a.id = req) with
  | none => s
  | some a =>
    match a.parts.find? (fun p => p.id = part) with
    | none => s
    | some p =>
      if s.canSee a p then
        let t := if a.rel && a.scope = 1 then s.newSeq.addPoint a.node a.gid a.id else s.newSeq
        let mark (b : Access) : Access := { b with parts := updWhere b.parts (fun q => q.id = part) (fun q => { q with vis := t.own.seq }) }
        { t with accs := updWhere t.accs (fun b => b.id = req) mark }
      else s

/-! ### Reading at the core -/

/-- The bytes of a store part by place, if it covers a byte. -/
def Part.byteAt (s : State) (p : Part) (key : Nat) : Option Byte :=
  match (if p.peer.isNone then s.place p.loc else none) with
  | none => none
  | some k => if k ≤ key && key < k + p.len then p.data[key - k]? else none

/-- The parts of the core's pending stores that a load of a group sees, with their stores and their places in the order of
the core: the group's own earlier ones, and what the core's groups see (spec 13, R286; spec 07, R151). After those come the ones that its
block holds and sees (spec 18, R398), and last its own that are not yet seen, in program order. -/
def State.seen (s : State) (a : Access) : List (Nat × Nat × Part) :=
  (s.accs.filter (fun b => b.node = a.node && b.isStore && (b.gid ≠ a.gid || b.id < a.id))).flatMap (fun b =>
    (b.parts.filter (fun p => b.gid = a.gid || (p.vis ≠ 0 && (!p.hold || s.mates a.gid b.gid)))).map (fun p =>
      (b.id, if p.vis = 0 then 2 * s.own.seq + 2 + b.id else if p.hold then s.own.seq + 1 + p.vis else p.vis, p)))

/-- The newest pending store to a byte that a load sees: its identity and the byte. -/
def State.overlay (s : State) (a : Access) (key : Nat) : Option (Nat × Byte) :=
  ((s.seen a).foldl (fun (best : Option (Nat × Nat × Byte)) x =>
    match x.2.2.byteAt s key with
    | none => best
    | some b => match best with
      | none => some (x.2.1, x.1, b)
      | some r => if r.1 ≤ x.2.1 then some (x.2.1, x.1, b) else some r) none).map (·.2)

/-- Whether a byte lies in a scratchpad run of a block. -/
def State.inRun (s : State) (key : Nat) (r : Nat × Nat × Nat) : Bool :=
  match s.block r.1 with
  | none => false
  | some b => match s.place (.scr b.grid b.lin r.2.1) with
    | none => false
    | some k => k ≤ key && key < k + r.2.2

/-- The scratchpad run that a released msta writes. -/
def MatOp.out (o : MatOp) : Option (Nat × Nat × Nat) :=
  if o.kind = .msta then some (o.block, o.off, 4096 * o.blocks.length) else none

/-- Whether what a group loads from a byte is unspecified because an msta writes it (spec 13, R291): any group's before it
completes, the group's own until its mwait. -/
def State.unsettledByte (s : State) (gid key : Nat) : Bool :=
  let own := match s.group gid with | none => [] | some g => g.eng.async.filterMap (·.out)
  (own ++ s.mops.filterMap (·.out)).any (s.inRun key)

/-- What a load reads at a place: home bytes under the overlay; and the stores read that are not yet at their homes. A load that is
answered at the home only reads the home bytes. -/
def State.loadBytes (s : State) (a : Access) (key : Nat) (home : List Byte) : List Byte × List Nat :=
  (List.range home.length).foldl (fun (r : List Byte × List Nat) i =>
    if s.unsettledByte a.gid (key + i) then (r.1 ++ [Config.freeByte s.own.fresh (key + i)], r.2)
    else if a.homeOnly then (r.1 ++ [home.getD i 0], r.2)
    else match s.overlay a (key + i) with
      | none => (r.1 ++ [home.getD i 0], r.2)
      | some (id, b) => (r.1 ++ [b], if r.2.contains id then r.2 else id :: r.2)) ([], [])

/-- A group has read stores that are still on their way to their homes, with the access `id` (spec 13, R286). -/
def State.addDeps (s : State) (gid id : Nat) (l : List Nat) : State :=
  if l.isEmpty then s
  else { s with own := { s.own with
    deps := l.map (fun i => (gid, id, i)) ++ s.own.deps.filter (fun d => s.accs.any (fun b => b.id = d.2.2)) } }

/-! ### Landing -/

/-- What arrived for a lane: up to 16 bytes. -/
def Access.lane (a : Access) (L : Nat) : Nat := leNat ((List.range 16).map (fun i => Sparse.get 0 a.got (16 * L + i)))

/-- Extends what a load read to its register width (spec 07, R149). -/
def widen (sz x : Nat) : Nat :=
  match sz with
  | 0 => x % 2 ^ 8
  | 1 => ((BitVec.ofNat 8 x).signExtend 32 : BitVec 32).toNat
  | 2 => x % 2 ^ 16
  | 3 => ((BitVec.ofNat 16 x).signExtend 32 : BitVec 32).toNat
  | 4 => x % 2 ^ 32
  | 5 => x % 2 ^ 64
  | _ => x % 2 ^ 128

def Access.value (a : Access) (L : Nat) : Nat :=
  match a.kind with
  | .load sz => widen sz (a.lane L)
  | _ => a.lane L

/-- The event bits that a landing sets in WAKEWHY: a wait answer counts as a wake message (spec 07, R167). -/
def Access.wakes (a : Access) : Word :=
  match a.kind with
  | .wait .. => 1
  | _ => 0

/-- The lanes whose peer request failed. -/
def Access.failed (a : Access) : Word := maskOf (fun L => a.fails.any (fun x => x.1 = L))

/-- The FABERR of a store that waits for the group's next fence or release, or is left to its grid's completion record when the
group has retired (spec 07, R154). -/
def State.storeFail (s : State) (gid : Nat) (t : Imprecise) : State :=
  if (s.group gid).isSome then s.modGroup gid (fun g => { g with out := { g.out with storeFail := g.out.storeFail ++ [t] } })
  else match s.blocks.find? (fun b => b.2.gids.contains gid) with
    | some b => s.modGrid b.2.grid (fun x => { x with deferred := true })
    | none => { s with grids := s.grids.map (fun p => (p.1, if p.2.gone.contains gid then { p.2 with deferred := true } else p.2)) }

/-- The FABERRs that wait for a release at .dom or .sys or a fence become pending (spec 07, R154). -/
def State.raiseStores (s : State) (gid : Nat) (peer : Option Nat) : State :=
  match s.group gid with
  | none => s
  | some g =>
    let mine (t : Imprecise) : Bool := match peer with | none => true | some d => t.aux.toNat % 512 = d
    let s := s.setGroup gid { g with out := { g.out with storeFail := g.out.storeFail.filter (fun t => !mine t) } }
    (g.out.storeFail.filter mine).foldl (fun s t => s.raise gid t) s

/-- An access lands: its registers are written, and become full. A failed request leaves its lanes as they were and the
register empty, and FABERR is pending, for a store of a trust domain's member until the group's next fence or release (spec
07, R149, R154; spec 21, R418); a helper lane's failure leaves it zero and raises nothing (spec 01, R12). The address of
several failures is that of the first to fail (log entry 103). A release at .dom or .sys raises what its stores have met. -/
def State.landAccess (s : State) (a : Access) : State :=
  let s := { s with accs := s.accs.filter (fun b => b.id ≠ a.id) }
  let hurt := a.fails.filter (fun x => !a.helpers.getLsbD x.1)
  let bad := maskOf (fun L => hurt.any (fun x => x.1 = L))
  let full := hurt.isEmpty
  let value (L : Nat) : Nat := if a.failed.getLsbD L then 0 else a.value L
  let s := (List.range a.regs).foldl (fun s i =>
    if a.vec then
      s.deliverV a.gid (a.dst + i) ((lanesOf (a.lanes &&& ~~~bad)).map (fun L => (L, BitVec.ofNat 32 (value L / 2 ^ (32 * i))))) full a.wakes
    else if full then s.deliverS a.gid (a.dst + i) (BitVec.ofNat 32 (a.value 0 / 2 ^ (32 * i))) full a.wakes
    else s) s
  let s := match hurt with
    | [] => s
    | (_, addr, aux) :: _ =>
      let t : Imprecise := { cause := 16, lanes := if a.vec && !a.once && !a.isStore then bad else 0, addr := addr, aux := aux }
      if a.isStore && s.isMember then s.storeFail a.gid t else s.raise a.gid t
  let s := if a.rel && (a.scope = 4 || a.scope = 5) then s.raiseStores a.gid none else s
  s.tryRetire a.gid

/-- A part has been performed: `data` are the bytes for the lanes that it serves. -/
def State.partDone (s : State) (a : Access) (p : Part) (data : List Byte) : State :=
  let put (got : List (Nat × Byte)) (L : Nat) : List (Nat × Byte) :=
    (List.range data.length).foldl (fun m i => Sparse.put m (16 * L + p.off + i) (data.getD i 0)) got
  let a := { a with parts := a.parts.filter (fun q => q.id ≠ p.id), got := (lanesOf p.lanes).foldl put a.got }
  let s := { s with accs := updWhere s.accs (fun b => b.id = a.id) (fun _ => a) }
  if a.parts.isEmpty then s.landAccess a else s

/-- A part's peer request fails with a reason of R242; TRAPAUX names no peer for a multicast line (spec 11, R246). -/
def State.failPart (s : State) (a : Access) (p : Part) (reason : Nat) : State :=
  let aux := BitVec.ofNat 64 ((if p.mc.isSome then 0 else p.peer.getD 0) + reason * 4096)
  let fails := (if p.lanes = 0 then [p.lane] else lanesOf p.lanes).map (fun L => (L, p.addr, aux))
  let a := { a with parts := a.parts.filter (fun q => q.id ≠ p.id), fails := a.fails ++ fails }
  let s := { s with accs := updWhere s.accs (fun b => b.id = a.id) (fun _ => a) }
  if a.parts.isEmpty then s.landAccess a else s

/-- A FABERR that waits for the group's next fence or release towards a peer (spec 07, R154). -/
def State.storeFault (s : State) (gid peer reason : Nat) (addr : Dword) : State :=
  let t : Imprecise := { cause := 16, lanes := 0, addr := addr, aux := BitVec.ofNat 64 (peer + reason * 4096) }
  s.storeFail gid t

/-! ### Requests to peers -/

/-- The request body of a part for a peer. -/
def Access.body (a : Access) (p : Part) (addr : Nat) : Nat × PBody :=
  match a.kind with
  | .store => (1, .write addr ((List.range p.data.length).map (fun i => (i, p.data.getD i 0))))
  | .atomic op wide cas =>
    (3, .atomic addr wide cas op (BitVec.ofNat 64 (leNat p.data)) (BitVec.ofNat 64 (leNat p.cmp)))
  | _ => (2, .read addr p.len)

/-- The lines that a load, an atomic or a release drains first: the core's line of its address, whoever wrote into it and
whenever, and for all but loads every earlier line with the group's stores to the peer (spec 07, R151; spec 11, R242, R243). -/
def Access.drains (a : Access) (d addr : Nat) (l : WcLine) : Bool :=
  l.peer = d && (l.addr = addr / 128 * 128 || (!a.isLoad && l.oldest < a.id && l.writers.contains a.gid))

/-- Whether a part is of a plain store to a peer, which goes into the write-combining buffer (spec 11, R243). -/
def Access.combines (a : Access) (p : Part) : Bool := a.isStore && !a.rel && p.peer.isSome && p.mc.isNone

/-- Why a part may not be sent: the reason of R242 (spec 21, R418). -/
def State.partFault (s : State) (a : Access) (p : Part) : Option Nat :=
  match p.mc, p.peer with
  | some _, _ => s.egressFault a.ctx
  | none, some d => s.peerFault a.ctx d
  | none, none => none

/-- A part travels in a message of its own. -/
def State.sendAs (s : State) (a : Access) (p : Part) (f : State → State) : State :=
  let m := s.fab.msgid
  let mark (b : Access) : Access := { b with parts := updWhere b.parts (fun q => q.id = p.id) (fun q => { q with msg := some m }) }
  f { s with accs := updWhere s.accs (fun b => b.id = a.id) mark }

/-- The group's own write-combining lines with bytes of a multicast line, which come first (spec 07, R151). -/
def Access.before (a : Access) (m : McLine) (addr : Nat) (l : WcLine) : Bool :=
  l.writers.contains a.gid && m.members.getLsbD l.peer && l.addr = addr && l.oldest < a.id && m.bytes.any (fun b => l.mask.getLsbD b.1)

/-- Whether a request to a peer waits for the acknowledgement of a release store of the core to its bytes (spec 07, R151; spec 13, R314). -/
def State.behindRelease (s : State) (a : Access) (p : Part) : Bool :=
  !a.isStore && s.accs.any (fun b => b.node = a.node && b.isStore && b.parts.any (fun q => q.msg.isSome && q.mc.isNone && s.meets p q))

/-- Sends the parts of peer accesses that may go (spec 11, R242, R245; spec 07, R151): a load or atomic after the core's line of
its address, an atomic after every line with the group's stores to the peer, a release after what it waits for, a multicast line after the
group's lines with its bytes. A plain store that an acquire held back enters the write-combining buffer (spec 07, R157). Who may not send
any more fails (spec 21, R418). -/
def State.sendPart (s : State) (a : Access) (p : Part) : State :=
  match p.peer, s.place p.loc with
  | some d, some addr =>
    if p.msg.isSome || s.blocked a p then s
    else match s.partFault a p with
      | some r => s.failPart a p r
      | none =>
        if a.combines p then
          if 64 < (s.node a.node).wc.length + s.newLines a.node a.ctx [(d, addr, p.len)] then
            let oldest := least s.own.ids ((s.node a.node).wc.map (·.id))
            s.closeLines a.node (fun l => l.id = oldest)
          else (s.combine a.node a.gid a.id a.ctx d addr p.data).partDone a p []
        else match p.mc with
          | some m =>
            if (s.node a.node).wc.any (a.before m addr) then s.closeLines a.node (a.before m addr)
            else s.sendAs a p (fun s =>
              let k := s.packet 8 3 m.group true ((s.tagFor a.ctx).getD 0) s.fab.msgid 0 m.bytes.length (.write addr m.bytes)
              s.newMsg.enqueue m.group 3 k (.mcast a.id))
          | none =>
            if s.rekeying || s.behindRelease a p then s
            else if (s.node a.node).wc.any (a.drains d addr) then s.closeLines a.node (a.drains d addr)
            else
              let r := a.body p addr
              let why : Purpose := match a.kind with | .store => .store a.id | .atomic .. => .atomic a.id | _ => .read a.id
              s.sendAs a p (fun s => s.request a.ctx d r.1 p.len r.2 why)
  | _, _ => s

def State.sendParts (s : State) : State :=
  s.accs.foldl (fun s a => a.parts.foldl (fun s p =>
    match s.accs.find? (fun b => b.id = a.id) with
    | none => s
    | some b => s.sendPart b p) s) s

/-- A line leaves the buffer: its packet is answered, or it cannot be sent; a failure is reported to its writers (spec 14, R329; spec 07,
R154). -/
def State.endLine (s : State) (core : Nat) (l : WcLine) (reason : Nat) : State :=
  let s := s.modNode core (fun n => { n with wc := n.wc.filter (fun k => k.id ≠ l.id) })
  if reason = 0 then s else l.writers.foldl (fun s g => s.storeFault g l.peer reason (BitVec.ofNat 64 l.addr)) s

/-- Closed lines whose context or device may not send any more fail (spec 21, R418). -/
def State.failLines (s : State) (core : Nat) : State :=
  (s.node core).wc.foldl (fun s l => if !l.closed || l.pkt.isSome then s
    else match s.peerFault l.ctx l.peer with
      | none => s
      | some r => s.endLine core l r) s

/-- Moves on whatever waits to be sent: closed lines, then requests. -/
def State.drains (s : State) : State := (s.nodes.map (·.1)).foldl (fun s n => (s.failLines n).drain n) s
def State.pump (s : State) : State := s.drains.sendParts.drains.flush

/-- Moves on the peer accesses that something held back. -/
def State.resume (s : State) : State :=
  if s.accs.any (fun a => a.parts.any (fun p => p.peer.isSome && p.msg.isNone)) then s.pump else s

/-! ### Issuing an access -/

/-- The parts of lanes' pieces: `lanes` are the lanes a part serves, `addr` the lane's address. -/
def partsFor (l : List (Nat × List Piece)) (lanes : Nat → Word) (data cmp : Nat → List Byte) (addr : Nat → Dword) : List Part :=
  let flat := l.flatMap (fun x => x.2.map (fun p => (x.1, p)))
  (List.range flat.length).filterMap (fun i => (flat[i]?).map (fun q =>
    let w := match q.2.tgt with
      | .here loc pte => (loc, pteIl pte, none)
      | .peer d a => (Loc.mem a, 0, some d)
    { id := i, vis := 0, lane := q.1, lanes := lanes q.1, loc := w.1, il := w.2.1, peer := w.2.2, msg := none, addr := addr q.1,
      off := q.2.off, len := q.2.len, data := ((data q.1).drop q.2.off).take q.2.len,
      cmp := ((cmp q.1).drop q.2.off).take q.2.len }))

/-- Issues an access: `a` is the pattern, and its identity is filled in; its pages enter the TLBs (spec 18, R403). A request of a device or
context that cannot send fails at once (spec 21, R418). -/
def State.startAccess (s : State) (a : Access) (parts : List Part) : State :=
  let s := parts.foldl (fun s p => match p.loc with
    | .mem _ => s.lookUp a.node a.ctx (p.addr + BitVec.ofNat 64 p.off)
    | _ => s) s
  let id := s.own.ids
  let fence := match s.group a.gid with | none => 0 | some g => g.out.corFence
  let corAt := if a.rel && a.scope = 1 then id else fence
  let s := { s with accs := s.accs ++ [{ a with id := id, corAt := corAt, parts := parts }] }.newId
  let s := parts.foldl (fun s p => match p.peer, s.place p.loc with
    | some d, some addr => if a.combines p || p.mc.isSome then s else s.closeLines a.node ({ a with id := id }.drains d addr)
    | _, _ => s) s
  let s := parts.foldl (fun s p => match s.partFault a p, s.accs.find? (fun b => b.id = id) with
    | some r, some b => s.failPart b p r
    | _, _ => s) s
  s.pump

end Sys2Proof.Machine
end

