-- ==== Sys2Proof/Machine/Memory.lean ====
section
/-! DEFINITION. The load and store cells, prefetch, write-combining flush and read-buffer invalidation (spec 07, R145 to
R155; spec 11, R244). -/

namespace Sys2Proof.Machine

open Sys2Proof

/-! ### Addresses (spec 07, R148) -/

/-- The bytes of a size code (spec 07, R147). -/
def szBytes (sz : Nat) : Nat :=
  match sz with
  | 0 | 1 => 1
  | 2 | 3 => 2
  | 4 => 4
  | 5 => 8
  | _ => 16

/-- The offset: field C, or IMM32 sign-extended. -/
def offOf (f : Fields) : Dword :=
  if f.len = .w64 then f.c.zeroExtend 64 else (f.imm.truncate 32 : Word).signExtend 64

/-- An index as a signed value times a scale. -/
def scaled (x : Word) (scale : Nat) : Dword := x.signExtend 64 * BitVec.ofNat 64 scale

def sclOf (f : Fields) : Nat := 2 ^ f.mf 2 1

/-- A + idx[L] + off, per lane. -/
def addrV (s : State) (g : Group) (f : Fields) (L : Nat) : Dword :=
  s.readSP g f.a + scaled (s.readV g f.b.toNat L) (sclOf f) + offOf f

/-- A + idx + off, once per group. -/
def addrS (s : State) (g : Group) (f : Fields) : Dword :=
  s.readSP g f.a + scaled (s.readS g f.b) (sclOf f) + offOf f

/-- A window value, as an address of the window whose byte 55:48 is `w`. -/
def windowVa (w : Nat) (x : Word) : Dword := BitVec.ofNat 64 (w * 2 ^ 48) + x.zeroExtend 64

/-- A + idx[L] + off modulo 2^32, in the scratchpad (0xFE) or cluster (0xFF) window. -/
def addrW (s : State) (g : Group) (f : Fields) (w L : Nat) : Dword :=
  windowVa w (s.readS g f.a + (scaled (s.readV g f.b.toNat L) (sclOf f)).truncate 32 + (offOf f).truncate 32)

/-- A[L] + off modulo 2^32, in lane L's private area. -/
def addrP (s : State) (g : Group) (f : Fields) (L : Nat) : Dword :=
  windowVa 0xFD (s.readV g f.a.toNat L + (offOf f).truncate 32)

/-- A check's finding for an instruction whose operand is a window value (spec 07, R153). -/
def Raise.window (r : Raise) (w : Bool) : Raise := if w then { r with addr := r.addr &&& 0xFFFFFFFF } else r

/-! ### Shared effects of ordering -/

/-- The read buffer of a core is invalidated in full (spec 07, R155). -/
def State.clearRb (s : State) (n : Nat) : State := s.modNode n (fun x => { x with rb := [] })

/-- A completed acquire or fence at .dev, .dev.rmt, .dom or .sys invalidates the read buffer (spec 07, R155). -/
def State.acquired (s : State) (n scope : Nat) : State :=
  if scope = 3 || scope = 4 || scope = 5 || scope = 7 then s.clearRb n else s

/-- Whether a .rmt acquire of a core must wait: a word of it was written by a release at .cor of another core, and accesses that a release of
that core has ordered, up to that one, are still on their way (spec 07, R158; log entry 13). -/
def State.rmtWaits (s : State) (node key len : Nat) : Bool :=
  (s.own.corRel.filter (fun e => key ≤ e.1 && e.1 < key + len && e.2.1 ≠ node)).any (fun e =>
    s.own.points.any (fun q => q.2.1 = e.2.1 && q.1 ≤ e.2.2 &&
      (let read := s.readBy q.2.2.1 q.2.2.2
      s.accs.any (fun b => !b.isLoad && b.owes && ((b.gid = q.2.2.1 && b.id < q.2.2.2) || read.contains b.id)))))

/-- What a .rmt acquire of a core makes of its words first: none when nothing holds it back, else the state as it stands while the
releasing cores perform what they ordered (spec 07, R158). -/
def State.remote (s : State) (rmt : Bool) (node : Nat) (words : List (Nat × Nat)) : Option State :=
  if rmt && words.any (fun w => s.rmtWaits node w.1 w.2) then some s else none

/-- The step of a request that nothing but a remote release holds back. -/
def remotely (s : State) (rmt : Bool) (node key len : Nat) (k : Res) : Res :=
  match s.remote rmt node [(key, len)] with
  | some t => .next t
  | none => k

/-- Whether a block holds stores under CONTAIN. -/
def State.holding (s : State) (blk : Nat) : Bool :=
  match s.block blk with
  | none => false
  | some b => s.accs.any (fun a => a.anyHeld && b.gids.contains a.gid)

/-- A release or fence at .clu or wider drains the contain buffer and makes the interval unclean (spec 18, R398; log entry 104). -/
def State.drainHeld (s : State) (g : Group) (scope : Nat) : State :=
  if scope < 2 || g.visitor.isSome || !s.holding g.block then s else (s.releaseHeld g.block).unclean g.block

/-- What a release at a scope starts: held stores drain, and at .dom and .sys the group's lines (spec 07, R159). -/
def State.beginRelease (s : State) (gid : Nat) (g : Group) (scope : Nat) : State :=
  let s := s.drainHeld g scope
  if scope = 4 || scope = 5 then (s.closeLines g.owner (fun l => l.writers.contains gid)).pump else s

/-- The pattern of an access of a group. -/
def accessOf (gid : Nat) (g : Group) (k : AKind) : Access :=
  { id := 0, once := false, helpers := 0, corAt := 0, gid := gid, node := g.owner, ctx := g.ctx, kind := k, acq := false, rel := false, scope := 0, rmt := false, rb := false,
    vec := true, dst := 0, regs := 0, lanes := 0, parts := [], got := [], fails := [] }

/-! ### Loads (spec 07, R149, R152, R153) -/

/-- How many registers a size fills. -/
def szCount (sz : Nat) : Nat := if sz = 5 then 2 else if sz = 6 then 4 else 1

/-- The scope of a load's acquire, with .rmt taken off. -/
def acqScope (sc : Nat) : Nat := if sc = 6 then 2 else if sc = 7 then 3 else sc

/-- A per-lane load. -/
def loadV (r : Row) (f : Fields) (s : State) (u : Use) (rb w : Bool) (addr : State → Group → Nat → Dword) : Res :=
  issue r f s fun gid g =>
    if g.ctl.exm = 0 then .next (s.advance gid f.bytes)
    else
      let sz := f.mf 5 3
      let n := szBytes sz
      let at_ (l : Word) : List (Nat × Dword) := (lanesOf l).map (fun L => (L, addr s g L))
      match s.check g u n (at_ g.ctl.exm) with
      | .error e => s.raiseNow gid g false (e.window w)
      | .ok l =>
        let l := l ++ s.checkHelpers g u n (at_ g.helpers)
        let a := { accessOf gid g (.load sz) with
          acq := f.m 6, scope := acqScope (f.mf 9 7), rmt := 6 ≤ f.mf 9 7, rb := rb, dst := f.d.toNat, regs := szCount sz,
          lanes := g.wset, helpers := g.helpers }
        let parts := partsFor l (fun L => 1#32 <<< L) (fun _ => []) (fun _ => []) (addr s g)
        .next ((((s.markEmpty gid true f.d.toNat (szCount sz)).startAccess a parts)).advance gid f.bytes)

/-- One access per group; `lanes` are the lanes of D that it writes, none for a scalar destination. -/
def loadS (r : Row) (f : Fields) (s : State) (bc : Bool) : Res :=
  issue r f s fun gid g =>
    if bc && g.ctl.exm = 0 then .next (s.advance gid f.bytes)
    else
      let sz := f.mf 5 3
      let u : Use := { priv := false }
      match s.check g u (szBytes sz) [(0, addrS s g f)] with
      | .error e => s.raiseNow gid g true e
      | .ok l =>
        let lanes := if bc then g.wset else 1
        let a := { accessOf gid g (.load sz) with
          acq := f.m 6, scope := acqScope (f.mf 9 7), rmt := 6 ≤ f.mf 9 7, vec := bc, once := true, dst := f.d.toNat, regs := szCount sz, lanes := lanes }
        let parts := partsFor l (fun _ => lanes) (fun _ => []) (fun _ => []) (fun _ => addrS s g f)
        .next ((((s.markEmpty gid bc f.d.toNat (szCount sz)).startAccess a parts)).advance gid f.bytes)

/-- VLD, VLDRB, SLD, VLDBC, VLDSCR, VLDCW, VLDP. -/
def execVld (f : Fields) (s : State) : Res := loadV (rowVld f) f s {} false false (fun s g L => addrV s g f L)
def execVldrb (f : Fields) (s : State) : Res := loadV (rowVldrb f) f s {} true false (fun s g L => addrV s g f L)
def execSld (f : Fields) (s : State) : Res := loadS (rowSld f) f s false
def execVldbc (f : Fields) (s : State) : Res := loadS (rowVldbc f) f s true
def execVldscr (f : Fields) (s : State) : Res := loadV (rowVldscr f) f s {} false true (fun s g L => addrW s g f 0xFE L)
def execVldcw (f : Fields) (s : State) : Res := loadV (rowVldcw f) f s {} false true (fun s g L => addrW s g f 0xFF L)
def execVldp (f : Fields) (s : State) : Res := loadV (rowVldp f) f s {} false true (fun s g L => addrP s g f L)

/-! ### Stores (spec 07, R149, R151, R153) -/

/-- Whether a place is the block's own scratchpad or a private area held in the slice: a store there leaves the interval
clean (spec 18, R397). -/
def ownPlace (b : Block) (l : Loc) : Bool :=
  match l with
  | .scr grid lin _ => grid = b.grid && lin = b.lin
  | .priv _ _ grp _ => 2 ^ 39 ≤ b.areas.getD grp 0
  | .mem _ => false

/-- Whether a store to a page of this leaf is held (spec 18, R398). -/
def heldHere (b : Block) (g : Group) (pte : Dword) : Bool := b.contain && g.visitor.isNone && pteContain pte

/-- The bytes that a block holds. -/
def State.heldSize (s : State) (b : Block) : Nat :=
  ((s.accs.filter (fun a => b.gids.contains a.gid)).flatMap (fun a => (a.parts.filter (·.hold)).map (·.len))).sum

/-- Issues the checked pieces of a store: into the write-combining buffer, the contain buffer, or as an access. -/
def storePieces (s : State) (gid : Nat) (g : Group) (f : Fields) (l : List (Nat × List Piece)) (data : Nat → List Byte)
    (addr : Nat → Dword) (vec : Bool) : Res :=
  match s.block g.block with
  | none => .next s
  | some b =>
    let rel := f.m 6
    let scope := f.mf 9 7
    let pick (p : Piece → Bool) : List (Nat × List Piece) := l.map (fun x => (x.1, x.2.filter p))
    -- a plain store to a peer waits behind an acquire, and behind the group's own requests to peers (spec 07, R151, R157)
    let later := rel || s.acquiring gid s.own.ids || s.accs.any (fun a => a.gid = gid && a.parts.any (fun p => p.peer.isSome))
    let toPeer := pick (fun p => match p.tgt with | .peer .. => !later | _ => false)
    let held (pte : Dword) : Bool := heldHere b g pte && !(rel && 3 ≤ scope)
    let rest := pick (fun p => match p.tgt with | .peer .. => later | .here .. => true)
    let contained := fun L off => l.any (fun x => x.1 = L && x.2.any (fun p => p.off = off && (match p.tgt with | .here _ pte => held pte | _ => false)))
    let lines := toPeer.flatMap (fun x => x.2.map (fun p => match p.tgt with | .peer d a => (d, a, p.len) | _ => (0, 0, 0)))
    if 64 < (s.node g.owner).wc.length + s.newLines g.owner g.ctx lines then
      -- no line is free: the oldest drains (spec 11, R243)
      let oldest := least (s.own.ids) ((s.node g.owner).wc.map (·.id))
      .next (((s.closeLines g.owner (fun l => l.id = oldest)).pump).stall gid .lines)
    else
      let s := if rel then s.beginRelease gid g scope else s
      let peerRel := rel && rest.any (fun x => x.2.any (fun p => match p.tgt with | .peer .. => true | _ => false))
      let s := if peerRel then s.closeLines g.owner (fun l => l.writers.contains gid) else s
      let s := if rel && 4 ≤ scope then s.raiseStores gid none else s
      -- the write-combining buffer
      let s := s.lookUps g ((toPeer.filter (fun x => !x.2.isEmpty)).map (fun x => addr x.1))
      let s := toPeer.foldl (fun s x => x.2.foldl (fun s p => match p.tgt with
        | .peer d a => match s.peerFault g.ctx d with
          | none => s.combine g.owner gid s.own.ids g.ctx d a (((data x.1).drop p.off).take p.len)
          | some r => if s.isMember then s.storeFault gid d r (addr x.1)
            else s.raise gid { cause := 16, lanes := 0, addr := addr x.1, aux := BitVec.ofNat 64 (d + r * 4096) }
        | _ => s) s) s
      let dirty := g.visitor.isNone && (toPeer ++ rest).any (fun x => x.2.any (fun p => match p.tgt with
        | .peer .. => true
        | .here loc pte => !ownPlace b loc && !held pte))
      let s := if dirty then s.unclean g.block else s
      -- what the block holds under CONTAIN waits in its buffer (spec 18, R398)
      let parts := (partsFor rest (fun _ => 0) data (fun _ => []) addr).map (fun p => { p with hold := contained p.lane p.off })
      let a := { accessOf gid g .store with rel := rel, scope := scope, vec := vec }
      let s := if parts.isEmpty then s.pump else s.startAccess a parts
      let s := if 65536 ≤ s.heldSize b then (s.releaseHeld g.block).unclean g.block else s
      .next (s.advance gid f.bytes)

/-- The bytes a lane stores: the low bytes of the source registers. -/
def storeData (s : State) (g : Group) (f : Fields) (L : Nat) : List Byte :=
  let sz := f.mf 5 3
  leBytes ((List.range (szCount sz)).foldl (fun x i => x + (s.readV g (f.d.toNat + i) L).toNat * 2 ^ (32 * i)) 0) (szBytes sz)

/-- The use of a store's address. -/
def storeUse : Use := { write := true, noField := true }

/-- A per-lane store. -/
def storeV (r : Row) (f : Fields) (s : State) (w : Bool) (addr : State → Group → Nat → Dword) : Res :=
  issue r f s fun gid g =>
    if g.ctl.exm = 0 then .next (s.advance gid f.bytes)
    else match s.check g storeUse (szBytes (f.mf 5 3)) ((lanesOf g.ctl.exm).map (fun L => (L, addr s g L))) with
      | .error e => s.raiseNow gid g false (e.window w)
      | .ok l => storePieces s gid g f l (storeData s g f) (addr s g) true

/-- VST, VSTSCR, VSTCW, VSTP. -/
def execVst (f : Fields) (s : State) : Res := storeV (rowVst f) f s false (fun s g L => addrV s g f L)
def execVstscr (f : Fields) (s : State) : Res := storeV (rowVstscr f) f s true (fun s g L => addrW s g f 0xFE L)
def execVstcw (f : Fields) (s : State) : Res := storeV (rowVstcw f) f s true (fun s g L => addrW s g f 0xFF L)
def execVstp (f : Fields) (s : State) : Res := storeV (rowVstp f) f s true (fun s g L => addrP s g f L)

/-- What SST stores: D, its pair or its quad. -/
def scalarData (s : State) (g : Group) (f : Fields) : List Byte :=
  let sz := f.mf 5 3
  let x := match sz with
    | 5 => (s.readSP g f.d).toNat
    | 6 => (List.range 4).foldl (fun x i => x + (g.rdS (f.d.toNat + i)).toNat * 2 ^ (32 * i)) 0
    | _ => (s.readS g f.d).toNat
  leBytes x (szBytes sz)

/-- SST: once per group. -/
def execSst (f : Fields) (s : State) : Res :=
  issue (rowSst f) f s fun gid g =>
    match s.check g { storeUse with priv := false } (szBytes (f.mf 5 3)) [(0, addrS s g f)] with
    | .error e => s.raiseNow gid g true e
    | .ok l => storePieces s gid g f l (fun _ => scalarData s g f) (fun _ => addrS s g f) false

/-! ### The buffers -/

/-- RBINV (spec 07, R155). -/
def execRbinv (f : Fields) (s : State) : Res :=
  issue (rowRbinv f) f s fun gid g => .next ((s.clearRb g.owner).advance gid f.bytes)

/-- The lines of the read buffer: 128 bytes of one context each (spec 14, R328). -/
def rbLines (rb : List RbSector) : List (Nat × BitVec 8) :=
  rb.foldl (fun acc e => if acc.contains (e.key / 4, e.ctx) then acc else acc ++ [(e.key / 4, e.ctx)]) []

/-- A sector enters the read buffer. A new line takes the place of another one when 2,048 are held; which, is left open (spec 14,
R328; log entry 25). -/
def State.fillRb (s : State) (n : Nat) (c : BitVec 8) (sector : Nat) (data : List Byte) : State :=
  s.modNode n (fun x =>
    let lines := rbLines x.rb
    let kept := if lines.contains (sector / 4, c) || lines.length < 2048 then x.rb
      else
        let out := lines.getD ((Config.freeWord s.own.fresh (0xB000000 + sector)).toNat % lines.length) (0, 0)
        x.rb.filter (fun e => !(e.key / 4 = out.1 && e.ctx = out.2))
    { x with rb := kept.filter (fun e => !(e.key = sector && e.ctx = c)) ++ [{ key := sector, ctx := c, data := data }] })

/-- VPREF (spec 07, R153, R155): the sector of each lane's far-memory address; other lanes are dropped. -/
def execVpref (f : Fields) (s : State) : Res :=
  issue (rowVpref f) f s fun gid g =>
    let s := (lanesOf g.ctl.exm).foldl (fun s L =>
      match (s.locate g L {} 1 (addrV s g f L)) with
      | ([p], []) => (match p.tgt with
        | .here (.mem key) pte =>
          if 2 ^ 39 ≤ key then s
          else
            let (t, x) := (s.lookUps g [addrV s g f L]).readAt (pteIl pte) (key / 32 * 32) 32
            (match x with | none => t | some bs => t.fillRb g.owner g.ctx (key / 32) bs)
        | _ => s)
      | _ => s) s
    .next (s.advance gid f.bytes)

/-- WCFL (spec 11, R244). -/
def execWcfl (f : Fields) (s : State) : Res :=
  issue (rowWcfl f) f s fun gid g =>
    let peer := (s.readS g f.a).toNat % 512
    .next ((((s.closeLines g.owner (fun l => f.m 1 || (l.peer = peer && l.writers.contains gid))).pump)).advance gid f.bytes)

end Sys2Proof.Machine
end

