-- ==== Sys2Proof/Machine/Numbers.lean ====
section
/-! DEFINITION. Number formats, rounding, the functions that round once from an exact value, the keyed generator and
the Hadamard transform (spec 04, R76 to R99). -/

namespace Sys2Proof.Machine

open Sys2Proof

/-- An exact value: NaN, an infinity, or (−1)^neg × m × 2^e, zero with its sign included (spec 04, R77). -/
inductive FVal where
  | nan
  | inf (neg : Bool)
  | fin (neg : Bool) (m : Nat) (e : Int)
  deriving DecidableEq, Repr

/-- A floating format (spec 04, R76, R78): exponent and mantissa widths, bias, largest finite encoding, whether the
exponent of all ones encodes infinities and NaNs, and the canonical NaN. -/
structure Fmt where
  bits : Nat
  mant : Nat
  bias : Nat
  maxMag : Nat
  ieee : Bool
  nan : Nat
  deriving DecidableEq, Repr

def fp32 : Fmt := ⟨32, 23, 127, 0x7F7FFFFF, true, 0x7FC00000⟩
def bf16 : Fmt := ⟨16, 7, 127, 0x7F7F, true, 0x7FC0⟩
def fp16 : Fmt := ⟨16, 10, 15, 0x7BFF, true, 0x7E00⟩
def e5m2 : Fmt := ⟨8, 2, 15, 0x7B, true, 0x7E⟩
def e4m3 : Fmt := ⟨8, 3, 7, 0x7E, false, 0x7F⟩
def e2m1 : Fmt := ⟨4, 1, 1, 0x7, false, 0⟩

/-- The float codes of R137: FP32, BF16, FP16, E4M3, E5M2, E2M1. -/
def floatCode (c : Nat) : Fmt :=
  match c with
  | 0 => fp32 | 1 => bf16 | 2 => fp16 | 3 => e4m3 | 4 => e5m2 | _ => e2m1

/-- The value of an encoding (spec 04, R77). -/
def Fmt.val (f : Fmt) (x : Nat) : FVal :=
  let x := x % 2 ^ f.bits
  let neg := x / 2 ^ (f.bits - 1) = 1
  let mag := x % 2 ^ (f.bits - 1)
  let e := mag / 2 ^ f.mant
  let m := mag % 2 ^ f.mant
  if f.maxMag < mag then (if f.ieee && m = 0 then .inf neg else .nan)
  else if e = 0 then .fin neg m (1 - (f.bias : Int) - f.mant)
  else .fin neg (m + 2 ^ f.mant) ((e : Int) - f.bias - f.mant)

/-- An encoding with a sign. -/
def Fmt.sign (f : Fmt) (neg : Bool) (mag : Nat) : Nat := mag + if neg then 2 ^ (f.bits - 1) else 0

/-- The encoding of a magnitude beyond the largest finite value (spec 04, R86, R87). -/
def Fmt.overflow (f : Fmt) (mode : Nat) (neg : Bool) : Nat :=
  if !f.ieee then f.sign neg f.maxMag
  else f.sign neg (match mode with
    | 0 => f.maxMag + 1
    | 1 => f.maxMag
    | 2 => if neg then f.maxMag + 1 else f.maxMag
    | _ => if neg then f.maxMag else f.maxMag + 1)

/-- Whether a magnitude with quotient `q`, remainder `rem` of `den`, and more below when `sticky`, is rounded up. -/
def roundsUp (mode : Nat) (neg : Bool) (q rem den : Nat) (sticky : Bool) : Bool :=
  match mode with
  | 0 => den < 2 * rem || (2 * rem = den && (sticky || q % 2 = 1))
  | 1 => false
  | 2 => neg && (rem ≠ 0 || sticky)
  | _ => !neg && (rem ≠ 0 || sticky)

/-- Rounds (−1)^neg × (m, and more below when `sticky`) × 2^e to a format under a mode (spec 04, R85, R86). A zero that a nonzero value
rounds to keeps the value's sign (log entry 99). -/
def Fmt.round (f : Fmt) (mode : Nat) (neg : Bool) (m : Nat) (e : Int) (sticky : Bool) : Nat :=
  if m = 0 && !sticky then f.sign neg 0
  else
    let emin : Int := 1 - (f.bias : Int)
    let top : Int := max (e + (Nat.log2 m : Int)) emin
    let shift : Int := top - f.mant - e
    let den : Nat := if shift ≤ 0 then 1 else 2 ^ shift.toNat
    let num : Nat := if shift ≤ 0 then m * 2 ^ (-shift).toNat else m
    let q := num / den
    let up := roundsUp mode neg q (num % den) den sticky
    let mag : Nat := ((top - emin).toNat) * 2 ^ f.mant + q + if up then 1 else 0
    if f.maxMag < mag then f.overflow mode neg else f.sign neg mag

/-- The encoding of a value under a mode; an infinity or NaN that the format lacks is as R87 gives. -/
def Fmt.enc (f : Fmt) (mode : Nat) : FVal → Nat
  | .nan => f.nan
  | .inf neg => if f.ieee then f.sign neg (f.maxMag + 1) else f.sign neg f.maxMag
  | .fin neg m e => f.round mode neg m e false

/-- The sum of two finite values as an integer at the lower exponent. -/
def alignSum (n1 : Bool) (m1 : Nat) (e1 : Int) (n2 : Bool) (m2 : Nat) (e2 : Int) : Int × Int :=
  let e := min e1 e2
  let a : Int := (m1 : Int) * 2 ^ (e1 - e).toNat
  let b : Int := (m2 : Int) * 2 ^ (e2 - e).toNat
  ((if n1 then -a else a) + (if n2 then -b else b), e)

/-- The exact sum; the sign of an exact zero follows R86. -/
def FVal.add (mode : Nat) : FVal → FVal → FVal
  | .nan, _ => .nan
  | _, .nan => .nan
  | .inf a, .inf b => if a = b then .inf a else .nan
  | .inf a, _ => .inf a
  | _, .inf b => .inf b
  | .fin n1 m1 e1, .fin n2 m2 e2 =>
    let s := alignSum n1 m1 e1 n2 m2 e2
    if s.1 = 0 then
      (if m1 = 0 && m2 = 0 && n1 = n2 then .fin n1 0 s.2 else .fin (mode = 2) 0 s.2)
    else .fin (s.1 < 0) s.1.natAbs s.2

def FVal.neg : FVal → FVal
  | .nan => .nan
  | .inf a => .inf (!a)
  | .fin n m e => .fin (!n) m e

/-- The exact product; 0 × ∞ is NaN (spec 06, R132). -/
def FVal.mul : FVal → FVal → FVal
  | .nan, _ => .nan
  | _, .nan => .nan
  | .inf a, .inf b => .inf (a != b)
  | .inf a, .fin n m _ => if m = 0 then .nan else .inf (a != n)
  | .fin n m _, .inf b => if m = 0 then .nan else .inf (n != b)
  | .fin n1 m1 e1, .fin n2 m2 e2 => .fin (n1 != n2) (m1 * m2) (e1 + e2)

/-- A / B rounded once (spec 06, R131, R132). -/
def Fmt.div (f : Fmt) (mode : Nat) : FVal → FVal → Nat
  | .nan, _ => f.nan
  | _, .nan => f.nan
  | .inf _, .inf _ => f.nan
  | .inf a, .fin n _ _ => f.enc mode (.inf (a != n))
  | .fin n _ _, .inf b => f.sign (n != b) 0
  | .fin n1 m1 e1, .fin n2 m2 e2 =>
    if m2 = 0 then (if m1 = 0 then f.nan else f.enc mode (.inf (n1 != n2)))
    else
      let k := Nat.log2 m2 + 40
      f.round mode (n1 != n2) (m1 * 2 ^ k / m2) (e1 - e2 - k) (m1 * 2 ^ k % m2 ≠ 0)

/-- The integer square root: bits from 2^b down. -/
def isqrtFrom (n : Nat) : Nat → Nat → Nat
  | 0, r => if (r + 1) * (r + 1) ≤ n then r + 1 else r
  | b + 1, r => isqrtFrom n b (if (r + 2 ^ (b + 1)) * (r + 2 ^ (b + 1)) ≤ n then r + 2 ^ (b + 1) else r)

def isqrt (n : Nat) : Nat := isqrtFrom n (Nat.log2 n / 2 + 1) 0

/-- √A (spec 06, R131, R132). -/
def Fmt.sqrt (f : Fmt) (mode : Nat) : FVal → Nat
  | .nan => f.nan
  | .inf neg => if neg then f.nan else f.enc mode (.inf false)
  | .fin neg m e =>
    if m = 0 then f.sign neg 0
    else if neg then f.nan
    else
      -- m × 2^e = n × 2^(2h)
      let h : Int := e / 2 - 40
      let n := m * 2 ^ (e - 2 * h).toNat
      let r := isqrt n
      f.round mode false r h (r * r ≠ n)

/-- 1/√A (spec 06, R131, R132). -/
def Fmt.rsq (f : Fmt) (mode : Nat) : FVal → Nat
  | .nan => f.nan
  | .inf neg => if neg then f.nan else f.sign false 0
  | .fin neg m e =>
    if m = 0 then f.enc mode (.inf neg)
    else if neg then f.nan
    else
      -- 1/(m 2^e) = (2^k / m) 2^(-e-k), k + e even
      let k : Nat := 2 * (Nat.log2 m + 60) + (e % 2).toNat
      let q := 2 ^ k / m
      let r := isqrt q
      f.round mode false r (-(e + k) / 2) (r * r * m ≠ 2 ^ k)

/-! ### 2^A and log2 A: bounds in fixed point with `fixBits` bits below the point, correctly rounded where both bounds
round alike (log entry 18) -/

def fixBits : Nat := 320

/-- 2 × atanh(num/den) in fixed point: odd powers over their exponents, each rounded down; `t` is the running power. -/
def atanhSum (z2 : Nat) : Nat → Nat → Nat → Nat → Nat
  | 0, _, _, acc => acc
  | n + 1, t, k, acc => atanhSum z2 n (t * z2 / 2 ^ fixBits) (k + 2) (acc + t / k)

def twoAtanh (num den : Nat) : Nat :=
  let z := num * 2 ^ fixBits / den
  2 * atanhSum (z * z / 2 ^ fixBits) 110 z 1 0

/-- ln 2 = 2 atanh(1/3). -/
def ln2Fix : Nat := twoAtanh 1 3

/-- The Taylor series of e^y in fixed point. -/
def expSum (y : Nat) : Nat → Nat → Nat → Nat → Nat
  | 0, _, _, acc => acc
  | n + 1, t, k, acc => expSum y n (t * y / 2 ^ fixBits / k) (k + 1) (acc + t)

/-- A bound on the error of the sums above, in units of the last place. -/
def fixSlack : Nat := 2 ^ 20

/-- Rounds a value known to lie strictly between lo and lo + slack, scaled by 2^e. -/
def Fmt.between (f : Fmt) (mode : Nat) (neg : Bool) (lo slack : Nat) (e : Int) : Option Nat :=
  let a := f.round mode neg lo e true
  let b := f.round mode neg (lo + slack) e true
  if a = b then some a else none

/-- 2^A (spec 06, R131, R132). -/
def fexp2 (mode : Nat) (x : Word) : Nat :=
  match fp32.val x.toNat with
  | .nan => fp32.nan
  | .inf neg => if neg then 0 else fp32.enc mode (.inf false)
  | .fin neg m e =>
    if m = 0 then 0x3F800000
    else if 10 ≤ e + (Nat.log2 m : Int) then
      (if neg then fp32.round mode false 1 (-1000) false else fp32.round mode false 1 1000 false)
    else
      -- A × 2^fixBits is an integer, since e ≥ −149
      let a : Int := (if neg then -(m : Int) else m) * 2 ^ (e + fixBits).toNat
      let n : Int := a / 2 ^ fixBits
      let fr : Nat := (a % 2 ^ fixBits).toNat
      if fr = 0 then fp32.round mode false 1 n false
      else
        let y := fr * ln2Fix / 2 ^ fixBits
        let lo := expSum y 90 (2 ^ fixBits) 1 0
        (fp32.between mode false (lo - fixSlack) (2 * fixSlack) (n - fixBits)).getD
          (Config.transcendental false x (BitVec.ofNat 2 mode)).toNat

/-- log2 A (spec 06, R131, R132). -/
def flog2 (mode : Nat) (x : Word) : Nat :=
  match fp32.val x.toNat with
  | .nan => fp32.nan
  | .inf neg => if neg then fp32.nan else fp32.enc mode (.inf false)
  | .fin neg m e =>
    if m = 0 then fp32.enc mode (.inf true)
    else if neg then fp32.nan
    else
      let l := Nat.log2 m
      let ex : Int := e + l
      if m = 2 ^ l then fp32.round mode (ex < 0) ex.natAbs 0 false
      else
        -- m / 2^l in (1, 2): ln = 2 atanh((m − 2^l)/(m + 2^l))
        let ln := twoAtanh (m - 2 ^ l) (m + 2 ^ l)
        let lg := ln * 2 ^ fixBits / ln2Fix
        let v : Int := ex * 2 ^ fixBits + lg
        let r := if v < 0 then fp32.between mode true (v.natAbs - fixSlack) (2 * fixSlack) (-(fixBits : Int))
          else fp32.between mode false (v.natAbs - fixSlack) (2 * fixSlack) (-(fixBits : Int))
        r.getD (Config.transcendental true x (BitVec.ofNat 2 mode)).toNat

/-! ### Integers -/

/-- A finite value rounded to an integer under a mode. -/
def roundInt (mode : Nat) (neg : Bool) (m : Nat) (e : Int) : Int :=
  let mag : Nat :=
    if 0 ≤ e then m * 2 ^ e.toNat
    else
      let d := 2 ^ (-e).toNat
      m / d + if roundsUp mode neg (m / d) (m % d) d false then 1 else 0
  if neg then -(mag : Int) else mag

/-- Saturates to a range. -/
def clamp (lo hi x : Int) : Int := if x < lo then lo else if hi < x then hi else x

/-- The range of an integer type of `w` bits. -/
def intMin (uns : Bool) (w : Nat) : Int := if uns then 0 else -(2 ^ (w - 1) : Int)
def intMax (uns : Bool) (w : Nat) : Int := if uns then 2 ^ w - 1 else 2 ^ (w - 1) - 1

/-- Float to integer, with the value scaled by 2^sc (spec 04, R88). -/
def toIntSat (mode sc : Nat) (uns : Bool) (w : Nat) : FVal → Int
  | .nan => 0
  | .inf neg => if neg then intMin uns w else intMax uns w
  | .fin neg m e => clamp (intMin uns w) (intMax uns w) (roundInt mode neg m (e + sc))

/-- Integer × 2^−sc to float (spec 04, R88). -/
def Fmt.ofInt (f : Fmt) (mode : Nat) (x : Int) (sc : Nat) : Nat := f.round mode (x < 0) x.natAbs (-(sc : Int)) false

/-- A rounded to an integral value, keeping its sign when the result is zero (spec 06, R131). -/
def frnd (mode : Nat) (x : Word) : Nat :=
  match fp32.val x.toNat with
  | .nan => fp32.nan
  | .inf neg => fp32.enc mode (.inf neg)
  | .fin neg m e => fp32.sign neg (fp32.round 1 false (roundInt mode neg m e).natAbs 0 false)

/-! ### FP32 operations on words -/

def fval (x : Word) : FVal := fp32.val x.toNat
def fenc (mode : Nat) (v : FVal) : Word := BitVec.ofNat 32 (fp32.enc mode v)
def fadd (mode : Nat) (a b : Word) : Word := fenc mode ((fval a).add mode (fval b))
def fsub (mode : Nat) (a b : Word) : Word := fenc mode ((fval a).add mode (fval b).neg)
def fmul (mode : Nat) (a b : Word) : Word := fenc mode ((fval a).mul (fval b))
def fma (mode : Nat) (a b c : Word) : Word := fenc mode (((fval a).mul (fval b)).add mode (fval c))
def fms (mode : Nat) (a b c : Word) : Word := fenc mode (((fval a).mul (fval b)).add mode (fval c).neg)
def fdiv (mode : Nat) (a b : Word) : Word := BitVec.ofNat 32 (fp32.div mode (fval a) (fval b))

def isNan (x : Word) : Bool := fval x = .nan

/-- The order of the values that are not NaN, −0 below +0 (spec 06, R133). -/
def forder (x : Word) : Int :=
  let mag : Nat := x.toNat % 2 ^ 31
  if x.getLsbD 31 then -(mag : Int) - 1 else mag

/-- The same order with −0 equal to +0 (spec 06, R134). -/
def forder0 (x : Word) : Int :=
  let mag : Nat := x.toNat % 2 ^ 31
  if x.getLsbD 31 then -(mag : Int) else mag

/-- Minimum and maximum (spec 06, R133). -/
def fminmax (mx : Bool) (a b : Word) : Word :=
  if isNan a then (if isNan b then 0x7FC00000 else b)
  else if isNan b then a
  else if (forder a ≤ forder b) != mx then a else b

/-- The float conditions (spec 06, R134). -/
def condFloat (cc : Nat) (a b : Word) : Bool :=
  let un := isNan a || isNan b
  match cc with
  | 0 => !un && forder0 a = forder0 b
  | 1 => un || forder0 a ≠ forder0 b
  | 2 => !un && forder0 a < forder0 b
  | 3 => !un && forder0 a ≤ forder0 b
  | 4 => !un && forder0 b < forder0 a
  | 5 => !un && forder0 b ≤ forder0 a
  | 6 => un
  | _ => !un

/-- The class mask of a value (spec 06, R135). -/
def fclass (x : Word) : Word :=
  let neg := x.getLsbD 31
  let e := x.toNat / 2 ^ 23 % 256
  let m := x.toNat % 2 ^ 23
  let n : Nat :=
    if e = 255 then (if m = 0 then (if neg then 0 else 7) else if 2 ^ 22 ≤ m then 9 else 8)
    else if e = 0 then (if m = 0 then (if neg then 3 else 4) else if neg then 2 else 5)
    else if neg then 1 else 6
  BitVec.ofNat 32 (2 ^ n)

/-! ### The keyed generator and the Hadamard transform -/

def rotl (y : Word) (n : Nat) : Word := (y <<< n) ||| (y >>> (32 - n))

/-- One step of gen (spec 04, R98). -/
def genStep (p : Word × Word) (i : Nat) : Word × Word :=
  let x := p.1 + (p.2 ^^^ (0x9E3779B9#32 * BitVec.ofNat 32 (i + 1)))
  (x, rotl p.2 11 ^^^ x)

def gen (c k : Word) : Word :=
  let p := genStep (genStep (genStep (genStep (c, k) 0) 1) 2) 3
  p.1 ^^^ p.2

/-- One stage of the transform at distance h. -/
def hadStage (x : List Word) (h : Nat) : List Word :=
  (List.range x.length).map (fun j =>
    if j / h % 2 = 0 then fadd 0 (x.getD j 0) (x.getD (j + h) 0) else fsub 0 (x.getD (j - h) 0) (x.getD j 0))

/-- The transform of 128 values under a seed (spec 04, R99). -/
def hadamard (seed : Word) (x : List Word) : List Word :=
  let x := (List.range x.length).map (fun j =>
    if (gen (BitVec.ofNat 32 j) seed).getLsbD 0 then x.getD j 0 ^^^ 0x80000000#32 else x.getD j 0)
  (([1, 2, 4, 8, 16, 32, 64] : List Nat).foldl hadStage x).map (fun y => fmul 0 y 0x3E000000#32)

/-! ### Narrow formats of the format word (spec 04, R91) -/

/-- Element width of a format code. -/
def codeWidth (c : Nat) : Nat :=
  match c with
  | 1 | 2 => 16
  | 5 | 7 | 10 => 4
  | _ => 8

/-- Whether a format code is of the integer class. -/
def codeInt (c : Nat) : Bool := c = 6 || c = 7 || c = 11

/-- A two's complement integer of `w` bits. -/
def intOf (w x : Nat) : Int := if x % 2 ^ w < 2 ^ (w - 1) then ((x % 2 ^ w : Nat) : Int) else ((x % 2 ^ w : Nat) : Int) - 2 ^ w

/-- An integer as an exact value. -/
def FVal.ofInt (x : Int) : FVal := .fin (x < 0) x.natAbs 0

/-- The value of an element in the base format of a code (spec 04, R83, R91). -/
def codeVal (c x : Nat) : FVal :=
  match c with
  | 1 => bf16.val x
  | 2 => fp16.val x
  | 3 | 8 => e4m3.val x
  | 4 | 9 => e5m2.val x
  | 5 | 10 => e2m1.val x
  | 7 => .ofInt (intOf 4 x)
  | _ => .ofInt (intOf 8 x)

/-- The value of an E8M0 scale (spec 04, R82). -/
def e8m0 (b : Nat) : FVal := if b = 255 then .nan else .fin false 1 ((b : Int) - 127)

/-- The lowest reason for which a format word is invalid, 0 when it is valid (spec 04, R92). -/
def fmtReason (w : Word) : Nat :=
  let a := w.toNat % 16
  let b := w.toNat / 16 % 16
  let acc := w.toNat / 256 % 4
  if a = 0 || 12 ≤ a then 1
  else if b = 0 || 12 ≤ b then 2
  else if 2 ≤ acc then 3
  else if w.toNat / 2 ^ 15 ≠ 0 then 4
  else if codeInt a != codeInt b || codeWidth a ≠ codeWidth b then 5
  else if acc = 1 && !((a = 6 || a = 7) && (b = 6 || b = 7)) then 6
  else 0

/-- The sum of products of a chunk (spec 04, R95), the zero's sign included. -/
def chunkSum (mode : Nat) (l : List FVal) : FVal :=
  if l.any (· = .nan) then .nan
  else
    let pos := l.any (· = .inf false)
    let ngt := l.any (· = .inf true)
    if pos && ngt then .nan
    else if pos then .inf false
    else if ngt then .inf true
    else
      let r := l.foldl (fun (acc : Int × Int) v =>
        match v with
        | .fin n m e =>
          let lo := min acc.2 e
          (acc.1 * 2 ^ (acc.2 - lo).toNat + (if n then -1 else 1) * (m : Int) * 2 ^ (e - lo).toNat, lo)
        | _ => acc) (0, 0)
      if r.1 = 0 then
        .fin (l.all (fun v => match v with | .fin n m _ => n && m = 0 | _ => false) || mode = 2) 0 0
      else .fin (r.1 < 0) r.1.natAbs r.2

end Sys2Proof.Machine
end

