-- ==== Sys2Proof/Machine/Atomic.lean ====
section
/-! DEFINITION. The atomic cells (spec 07, R160 to R162), the waiting cells (R163 to R167) and the fences (R159). -/

namespace Sys2Proof.Machine

open Sys2Proof

/-! ### Atomics -/

/-- The new word of an atomic operation on w-bit words (spec 07, R160). -/
def atomicOp (op w : Nat) (old v : Nat) : Nat :=
  let m : Nat := 2 ^ w
  let sg (x : Nat) : Int := if x < 2 ^ (w - 1) then (x : Int) else (x : Int) - (m : Int)
  match op with
  | 0 => (old + v) % m
  | 1 => if sg old ≤ sg v then old else v
  | 2 => if sg old < sg v then v else old
  | 3 => min old v
  | 4 => max old v
  | 5 => old &&& v
  | 6 => old ||| v
  | 7 => old ^^^ v
  | 8 => v
  | 9 => (fadd 0 (BitVec.ofNat 32 old) (BitVec.ofNat 32 v)).toNat
  | 10 => if v ≤ old then 0 else old + 1
  | _ => if old = 0 || v < old then v else old - 1

/-- The use of an atomic's address. -/
def atomicUse (w : Nat) : Use := { write := true, noField := true, align := w, priv := false }

/-- SEM: acquire and release (spec 07, R160). -/
def semAcq (f : Fields) : Bool := f.mf 6 5 = 1 || f.mf 6 5 = 3
def semRel (f : Fields) : Bool := f.mf 6 5 = 2 || f.mf 6 5 = 3

/-- An atomic makes the barrier interval unclean (spec 18, R397); a release starts its drains. -/
def State.beginAtomic (s : State) (gid : Nat) (g : Group) (f : Fields) : State :=
  let s := if g.visitor.isNone then s.unclean g.block else s
  if semRel f then
    let s := s.beginRelease gid g (f.mf 9 7)
    if f.mf 9 7 = 4 || f.mf 9 7 = 5 then s.raiseStores gid none else s
  else s

/-- A vector atomic: the operand, the comparand, and how many registers it fills. -/
def atomicV (r : Row) (f : Fields) (s : State) (wide cas : Bool) (ret : Bool) : Res :=
  issue r f s fun gid g =>
    if g.ctl.exm = 0 then .next (s.advance gid f.bytes)
    else
      let w := if wide then 8 else 4
      let addr (L : Nat) : Dword := s.readSP g f.a + scaled (s.readV g f.b.toNat L) w
      let val (x L : Nat) : List Byte :=
        leBytes ((s.readV g x L).toNat + (if wide then (s.readV g (x + 1) L).toNat * 2 ^ 32 else 0)) w
      match s.check g (atomicUse w) w ((lanesOf g.ctl.exm).map (fun L => (L, addr L))) with
      | .error e => s.raiseNow gid g false e
      | .ok l =>
        let n := if !ret then 0 else if wide then 2 else 1
        let a := { accessOf gid g (.atomic (f.mf 4 1) wide cas) with
          acq := semAcq f, rel := semRel f, scope := acqScope (f.mf 9 7), rmt := 6 ≤ f.mf 9 7, dst := f.d.toNat, regs := n,
          lanes := g.ctl.exm }
        let parts := partsFor l (fun L => 1#32 <<< L) (val f.c.toNat) (val f.d.toNat) addr
        let s := s.beginAtomic gid g f
        .next (((s.markEmpty gid true f.d.toNat n).startAccess a parts).advance gid f.bytes)

/-- A scalar atomic, once per group. -/
def atomicS (r : Row) (f : Fields) (s : State) (cas : Bool) : Res :=
  issue r f s fun gid g =>
    let addr := s.readSP g f.a + (s.readS g f.b).signExtend 64
    match s.check g (atomicUse 4) 4 [(0, addr)] with
    | .error e => s.raiseNow gid g true e
    | .ok l =>
      let a := { accessOf gid g (.atomic (f.mf 4 1) false cas) with
        acq := semAcq f, rel := semRel f, scope := acqScope (f.mf 9 7), rmt := 6 ≤ f.mf 9 7, vec := false, dst := f.d.toNat,
        regs := 1, lanes := 1 }
      let parts := partsFor l (fun _ => 1) (fun _ => leBytes (s.opC g r f 0).toNat 4) (fun _ => leBytes (s.readS g f.d).toNat 4)
        (fun _ => addr)
      let s := s.beginAtomic gid g f
      .next (((s.markEmpty gid false f.d.toNat 1).startAccess a parts).advance gid f.bytes)

/-- VATOM, VCAS, VRED, VATOM64, VCAS64, SATOM, SCAS. -/
def execVatom (f : Fields) (s : State) : Res := atomicV (rowVatom f) f s false false true
def execVcas (f : Fields) (s : State) : Res := atomicV (rowVcas f) f s false true true
def execVred (f : Fields) (s : State) : Res := atomicV (rowVred f) f s false false false
def execVatom64 (f : Fields) (s : State) : Res := atomicV (rowVatom64 f) f s true false true
def execVcas64 (f : Fields) (s : State) : Res := atomicV (rowVcas64 f) f s true true true
def execSatom (f : Fields) (s : State) : Res := atomicS (rowSatom f) f s false
def execScas (f : Fields) (s : State) : Res := atomicS (rowScas f) f s true

/-! ### Waiting -/

/-- The use of a waiting instruction's address. -/
def waitUse : Use := { align := 4, priv := false, peer := false }

/-- The requests of a wait: one per distinct word, mask and expected value, for its lanes (spec 07, R164). -/
def distinct (l : List (Nat × Dword × Word × Word)) : List (Nat × Word × Dword × Word × Word) :=
  l.foldl (fun acc x =>
    if acc.any (fun y => y.2.2 = x.2) then acc.map (fun y => if y.2.2 = x.2 then (y.1, y.2.1 ||| (1#32 <<< x.1), y.2.2) else y)
    else acc ++ [(x.1, 1#32 <<< x.1, x.2)]) []

/-- A wait on an address: the mask is D, the expected value C (spec 07, R164). -/
def waitOn (r : Row) (f : Fields) (s : State) (timeout : Option Nat) : Res :=
  issue r f s fun gid g =>
    if g.ctl.exm = 0 then .next (s.advance gid f.bytes)
    else
      let addr (L : Nat) : Dword := s.readSP g f.a + scaled (s.readV g f.b.toNat L) 4
      match s.check g waitUse 4 ((lanesOf g.ctl.exm).map (fun L => (L, addr L))) with
      | .error e => s.raiseNow gid g false e
      | .ok l =>
        let reqs := distinct ((lanesOf g.ctl.exm).map (fun L => (L, addr L, s.readV g f.d.toNat L, s.opC g r f L)))
        let who (L : Nat) : Option (Nat × Word × Dword × Word × Word) := reqs.find? (fun q => q.1 = L)
        let l := l.filter (fun x => (who x.1).isSome)
        let a := { accessOf gid g (.wait (f.mf 4 2) timeout) with
          acq := f.m 5, scope := f.mf 8 6, dst := f.d.toNat, regs := 1, lanes := g.ctl.exm }
        let parts := partsFor l (fun L => match who L with | none => 0 | some q => q.2.1)
          (fun L => match who L with | none => [] | some q => leBytes q.2.2.2.1.toNat 4)
          (fun L => match who L with | none => [] | some q => leBytes q.2.2.2.2.toNat 4) addr
        .next (((s.markEmpty gid true f.d.toNat 1).startAccess a parts).advance gid f.bytes)

/-- WWAIT, WWAITT. -/
def execWwait (f : Fields) (s : State) : Res := waitOn (rowWwait f) f s none
def execWwaitt (f : Fields) (s : State) : Res := waitOn (rowWwaitt f) f s (some (s.clock.toNat + f.imm.toNat))

/-- The words that checked lanes name, as memory keys. -/
def State.wordKeys (s : State) (l : List (Nat × List Piece)) : List Nat :=
  l.flatMap (fun x => x.2.filterMap (fun p => match p.tgt with | .here loc _ => s.place loc | .peer .. => none))

/-- WWAKE: every entry of any group on the words; it makes the interval unclean (spec 07, R166; spec 18, R397). It acts at its issue (log
entry 126). -/
def execWwake (f : Fields) (s : State) : Res :=
  issue (rowWwake f) f s fun gid g =>
    if g.ctl.exm = 0 then .next (s.advance gid f.bytes)
    else
      let addr (L : Nat) : Dword := s.readSP g f.a + scaled (s.readV g f.b.toNat L) 4
      match s.check g { waitUse with noField := true } 4 ((lanesOf g.ctl.exm).map (fun L => (L, addr L))) with
      | .error e => s.raiseNow gid g false e
      | .ok l =>
        let keys := s.wordKeys l
        let s := s.lookUps g ((lanesOf g.ctl.exm).map addr)
        let s := if g.visitor.isNone then s.unclean g.block else s
        .next ((s.answerAll (fun w => keys.contains w.loc)).advance gid f.bytes)

/-- WCANCEL: the issuing group's entries on the word, at its issue (spec 07, R166; log entry 126). -/
def execWcancel (f : Fields) (s : State) : Res :=
  issue (rowWcancel f) f s fun gid g =>
    match s.check g waitUse 4 [(0, s.readSP g f.a)] with
    | .error e => s.raiseNow gid g true e
    | .ok l =>
      let keys := s.wordKeys l
      .next (((s.lookUps g [s.readSP g f.a]).answerAll (fun w => w.gid = gid && keys.contains w.loc)).advance gid f.bytes)

/-- FADDT (spec 07, R166): once per group; C is the threshold. -/
def execFaddt (f : Fields) (s : State) : Res :=
  issue (rowFaddt f) f s fun gid g =>
    let addr := s.readSP g f.a
    match s.check g { write := true, noField := true, align := 4, priv := false, peer := false } 4 [(0, addr)] with
    | .error e => s.raiseNow gid g true e
    | .ok l =>
      let a := { accessOf gid g .faddt with
        acq := semAcq f, rel := semRel f, scope := acqScope (f.mf 9 7), rmt := 6 ≤ f.mf 9 7, vec := false, dst := f.d.toNat,
        regs := 1, lanes := 1 }
      let parts := partsFor l (fun _ => 1) (fun _ => leBytes (s.readS g f.b).toNat 4)
        (fun _ => leBytes (s.opC g (rowFaddt f) f 0).toNat 4) (fun _ => addr)
      let s := s.beginAtomic gid g f
      .next (((s.markEmpty gid false f.d.toNat 1).startAccess a parts).advance gid f.bytes)

/-- SLEEP (spec 07, R167): the group issues nothing more until the time passes; A = 0 yields one issue slot. -/
def execSleep (f : Fields) (s : State) : Res :=
  issue (rowSleep f) f s fun gid g =>
    let n := (s.opA g (rowSleep f) f 0).toNat
    if n = 0 then .next (s.advance gid f.bytes)
    else .next ((s.advance gid f.bytes).stall gid (.sleep (s.clock.toNat + n)))

/-! ### Fences (spec 07, R159) -/

/-- FENCE: a release and then an acquire at SCOPE; it waits at its place. -/
def execFence (f : Fields) (s : State) : Res :=
  issue (rowFence f) f s fun gid g =>
    let scope := f.mf 3 1
    let s := s.beginRelease gid g scope
    if s.unreleased gid s.own.ids scope then .next (s.stall gid .order)
    else
      let s := if scope = 4 || scope = 5 then s.raiseStores gid none else s
      .next (((s.acquired g.owner scope).fenced gid scope).advance gid f.bytes)

/-- FENCEH: a fence at .sys after every home has acknowledged; raises pending FABERR. -/
def execFenceh (f : Fields) (s : State) : Res :=
  issue (rowFenceh f) f s fun gid g =>
    let s := s.beginRelease gid g 5
    if s.unreleased gid s.own.ids 5 then .next (s.stall gid .order)
    else .next ((((s.raiseStores gid none).clearRb g.owner).fenced gid 5).advance gid f.bytes)

/-- FENCEP: drains the lines for one peer and waits for its acknowledgements; a release at .dom towards it. -/
def execFencep (f : Fields) (s : State) : Res :=
  issue (rowFencep f) f s fun gid g =>
    let peer := (s.readS g f.a).toNat % 512
    let s := ((s.drainHeld g 4).closeLines g.owner (fun l => l.peer = peer)).pump
    if s.unreleased gid s.own.ids 3 || s.peersOwing gid s.own.ids (some peer) then .next (s.stall gid .order)
    else .next (((s.raiseStores gid (some peer)).fenced gid 4).advance gid f.bytes)

end Sys2Proof.Machine
end

