-- ==== Sys2Proof/Machine/Records.lean ====
section
/-! DEFINITION. Completion records and queues (spec 11, R255, R256; spec 25, R457), and the reading and writing that
engines and instructions do through translation. -/

namespace Sys2Proof.Machine

open Sys2Proof

/-- A node number that names no TLB: the walks of the device's own units. -/
def noNode : Nat := 1000

/-- The pieces of a run of bytes through a context's translation, in supervisor view: key, interleave scheme, leaf; none
where a byte cannot be translated, lies in a window, or in a peer window. -/
def State.run (s : State) (node : Nat) (c : BitVec 8) (priv write : Bool) (va : Dword) (n : Nat) :
    Option (List (Nat × Nat × Nat × Dword)) :=
  if n ≠ 0 && (windowOf va ≠ 0 || windowOf (va + BitVec.ofNat 64 (n - 1)) ≠ 0) then none
  else (unitPieces 32 va.toNat n).foldl (fun r p =>
    match r, s.translate node c priv write false (va + BitVec.ofNat 64 p.1) with
    | some l, .ok t => if ptePeer t.pte then none else some (l ++ [(t.key, p.2, pteIl t.pte, t.pte)])
    | _, _ => none) (some [])

/-- Reads pieces; none when a sector is uncorrectable. -/
def State.readPieces (s : State) (l : List (Nat × Nat × Nat × Dword)) : State × Option (List Byte) :=
  l.foldl (fun (r : State × Option (List Byte)) p =>
    let (s, x) := r.1.readAt p.2.2.1 p.1 p.2.1
    (s, match r.2, x with | some a, some b => some (a ++ b) | _, _ => none)) (s, some [])

/-- Writes pieces. -/
def State.writePieces (s : State) (l : List (Nat × Nat × Nat × Dword)) (bs : List Byte) : State :=
  (l.foldl (fun (r : State × List Byte) p =>
    ((r.1.writeAt p.2.2.1 p.1 (r.2.take p.2.1) none).1, r.2.drop p.2.1)) (s, bs)).1

/-- Reads `n` bytes through a context's translation. -/
def State.readThrough (s : State) (c : BitVec 8) (va : Dword) (n : Nat) : State × Option (List Byte) :=
  match s.run noNode c true false va n with
  | none => (s, none)
  | some l => s.readPieces l

/-- Whether pieces may be written by an engine: not RO (checked in translation), not FIELD. -/
def noFields (l : List (Nat × Nat × Nat × Dword)) : Bool := l.all (fun p => !pteField p.2.2.2)

/-! ### Completion records -/

/-- The registered entry of a completion queue: the VALID entry with this header and context (spec 25, R457). -/
def State.cqOf (s : State) (c : BitVec 8) (header : Dword) : Option (Nat × CqEntry) :=
  s.mgmt.cqs.find? (fun p => p.2.valid && p.2.header = header && p.2.ctx = c)

def State.setCq (s : State) (k : Nat) (e : CqEntry) : State :=
  { s with mgmt := { s.mgmt with cqs := Sparse.put s.mgmt.cqs k e } }

/-- A record's bytes (spec 11, R255). -/
def recordBytes (status kind flags tag sig time count : Nat) : List Byte :=
  leBytes status 2 ++ leBytes kind 1 ++ leBytes flags 1 ++ leBytes tag 4 ++ leBytes sig 8 ++ leBytes time 8 ++ leBytes count 8

/-- The records waiting in a registered queue, (TAIL − HEAD) mod 2^32, and its header; none when the header cannot be read
and written. -/
def State.readHeader (s : State) (e : CqEntry) : State × Option (List (Nat × Nat × Nat × Dword) × List Byte) :=
  match s.run noNode e.ctx true true e.header 64 with
  | none => (s, none)
  | some l => if noFields l then ((s.readPieces l).1, (s.readPieces l).2.map (fun bs => (l, bs))) else (s, none)
def State.cqHeader (s : State) (e : CqEntry) : Option (List (Nat × Nat × Nat × Dword) × List Byte) := (s.readHeader e).2

/-- The waiting cqpoll requests of a queue are answered once it holds a record: the arrival is a wake message, and the answer an
acquire at .sys (spec 11, R257; spec 07, R155). -/
def State.pollAnswers (s : State) (k : Nat) : State :=
  match Sparse.find s.mgmt.cqs k with
  | none => s
  | some e =>
    match s.readHeader e with
    | (s, none) => s
    | (s, some (_, bs)) =>
      let n := BitVec.ofNat 32 (field bs 20 4) - BitVec.ofNat 32 (field bs 16 4)
      if n = 0 then s
      else
        let mine := s.dist.requests.filter (fun r => r.cq && r.queue = k)
        let s := { s with dist := { s.dist with requests := s.dist.requests.filter (fun r => !(r.cq && r.queue = k)) } }
        mine.foldl (fun s r => ((s.acquired r.core 5).deliverS r.gid r.dst n true 1).tryRetire r.gid) s

/-- Counts a drop: DROPS goes up and the next record carries FLAGS bit 2 (spec 11, R256). -/
def State.cqDrop (s : State) (k : Nat) (e : CqEntry) (l : List (Nat × Nat × Nat × Dword)) (bs : List Byte) : State :=
  ((s.writePieces l (bs.take 32 ++ leBytes ((field bs 32 4 + 1) % 2 ^ 32) 4 ++ bs.drop 36))).setCq k { e with dropped := true }

/-- Writes a completion record to the queue of a header in a context (spec 11, R255, R256), and answers the MSI-X vector that it raises (spec
25, R451). `irq` is FLAGS bit 0, `defer` bit 1. A queue that no VALID entry names drops it uncounted (spec 25, R457). -/
def State.record (s : State) (c : BitVec 8) (header : Dword) (status kind : Nat) (irq defer : Bool) (tag sig count : Nat) : State × Option Nat :=
  match s.cqOf c header with
  | none => (s, none)
  | some (k, e) =>
    match s.readHeader e with
    | (s, none) => (s.count hcCqFault, none)
    | (s, some (l, bs)) =>
      let ring := BitVec.ofNat 64 (field bs 0 8)
      let size := field bs 8 4
      let tail := field bs 20 4
      if (BitVec.ofNat 32 tail - BitVec.ofNat 32 (field bs 16 4)).toNat = size then (s.cqDrop k e l bs, none)
      else match s.run noNode e.ctx true true (ring + BitVec.ofNat 64 (tail % size * 32)) 32 with
        | none => (s.cqDrop k e l bs, none)
        | some slot =>
          if !noFields slot then (s.cqDrop k e l bs, none)
          else
            let flags := (if irq then 1 else 0) + (if defer then 2 else 0) + (if e.dropped then 4 else 0)
            let s := s.writePieces slot (recordBytes status kind flags tag sig s.clock.toNat count)
            let s := s.writePieces l (bs.take 20 ++ leBytes ((tail + 1) % 2 ^ 32) 4 ++ bs.drop 24)
            let s := s.setCq k { e with dropped := false }
            (s.pollAnswers k, if irq && field bs 30 2 % 2 = 1 && field bs 28 2 < 256 then some (field bs 28 2) else none)

/-- The MSI-X message of a record. -/
def State.raiseMsix (r : State × Option Nat) : State := match r.2 with | none => r.1 | some v => r.1.emit (.msix v)

/-- The completion record of a producer whose queue field is 0 where it wants none. -/
def State.complete (s : State) (c : BitVec 8) (header : Dword) (status kind : Nat) (irq defer : Bool) (tag sig count : Nat) : State :=
  if header = 0 then s else State.raiseMsix (s.record c header status kind irq defer tag sig count)

/-! ### Descriptors read by instructions -/

/-- Whether a group still has accesses that a read of its own must follow: acquires, and whatever is not a store (spec 07,
R151, R157). -/
def State.unsettled (s : State) (gid : Nat) : Bool :=
  (s.before gid s.own.ids).any (fun a => !a.isStore) || s.acquiring gid s.own.ids

/-- What a group reads at checked pieces in one instruction: its own pending stores and those its core shows, over the home
(spec 07, R151; spec 13, R286). -/
def State.readOwn (s : State) (gid : Nat) (g : Group) (l : List Piece) : State × Option (List Byte) :=
  let a := { accessOf gid g (.load 4) with id := s.own.ids }
  l.foldl (fun (r : State × Option (List Byte)) p =>
    match p.tgt with
    | .peer .. => (r.1, none)
    | .here loc pte => match r.1.place loc with
      | none => (r.1, none)
      | some key =>
        let (s, x) := r.1.readAt (pteIl pte) key p.len
        match r.2, x with
        | some acc, some bs =>
          let d := s.loadBytes a key bs
          (s.addDeps gid a.id d.2, some (acc ++ d.1))
        | _, _ => (s, none)) (s, some [])

/-- An instruction that reads `n` bytes at an address once per group: checks, waits for what must come first, reads, and
goes on with the bytes. -/
def withBytes (s : State) (gid : Nat) (g : Group) (u : Use) (n : Nat) (va : Dword) (k : State → List Byte → Res) : Res :=
  match s.check g u n [(0, va)] with
  | .error e => s.raiseNow gid g true e
  | .ok l =>
    if s.unsettled gid then .next (s.stall gid .order)
    else
      let (s, x) := (s.lookUps g [va]).readOwn gid g (l.flatMap (·.2))
      match x with
      | none => .next (s.consume gid)
      | some bs => k s bs

end Sys2Proof.Machine
end

