-- ==== Sys2Proof/Machine/Scalar.lean ====
section
/-! DEFINITION. The scalar integer cells (spec 05, R103 to R110). -/

namespace Sys2Proof.Machine

open Sys2Proof

/-- An integer wrapped to `w` bits. -/
def wrapInt (w : Nat) (x : Int) : BitVec w := BitVec.ofInt w x

/-- The high half of the exact product (spec 05, R104). -/
def mulHigh {w : Nat} (uns : Bool) (a b : BitVec w) : BitVec w := wrapInt w (viewInt uns a * viewInt uns b / 2 ^ w)

/-- Shifts by an unsigned count that may exceed the width (spec 05, R104). -/
def shiftL {w : Nat} (a : BitVec w) (n : Nat) : BitVec w := if n < w then a <<< n else 0
def shiftR {w : Nat} (uns : Bool) (a : BitVec w) (n : Nat) : BitVec w :=
  if uns then (if n < w then a >>> n else 0) else a.sshiftRight (min n w)

/-- Minimum and maximum in a view. -/
def minMax {w : Nat} (uns mx : Bool) (a b : BitVec w) : BitVec w :=
  if (viewInt uns a ≤ viewInt uns b) != mx then a else b

/-- Quotient truncated toward zero, with the corners of R104. -/
def divT (uns : Bool) (a b : Word) : Word :=
  if b = 0 then 0xFFFFFFFF else wrapInt 32 (Int.tdiv (viewInt uns a) (viewInt uns b))
def remT (uns : Bool) (a b : Word) : Word :=
  if b = 0 then a else wrapInt 32 (Int.tmod (viewInt uns a) (viewInt uns b))

/-- Leading zero bits (spec 05, R105). -/
def clz (a : Word) : Word := if a = 0 then 32 else BitVec.ofNat 32 (31 - Nat.log2 a.toNat)

/-- Bit i moved to bit 31 − i (spec 05, R105). -/
def brev (a : Word) : Word := maskOf (fun i => a.getLsbD (31 - i))

/-- The low `w` bits extended to 32 (spec 05, R105). -/
def extend (uns : Bool) (w : Nat) (a : Word) : Word :=
  if uns then BitVec.ofNat 32 (a.toNat % 2 ^ w) else BitVec.ofInt 32 ((BitVec.ofNat w a.toNat).toInt)

/-- Bit-field extract and insert (spec 05, R109). -/
def bitExtract (uns : Bool) (a b c : Word) : Word :=
  let o := min b.toNat 32
  let w := min c.toNat 32
  if w = 0 then 0
  else
    let wide : Nat := if uns then a.toNat else (a.signExtend 64).toNat
    let x := wide / 2 ^ o % 2 ^ w
    if uns then BitVec.ofNat 32 x else BitVec.ofInt 32 ((BitVec.ofNat w x).toInt)
def bitInsert (d a b c : Word) : Word :=
  let o := min b.toNat 32
  let w := min c.toNat 32
  maskOf (fun i => if o ≤ i && i < o + w then a.getLsbD (i - o) else d.getLsbD i)

/-- A scalar instruction of operands A and B. -/
def scalar2 (r : Row) (op : Word → Word → Word) (f : Fields) (s : State) : Res :=
  issue r f s fun gid g =>
    .next ((s.putDst gid f.d (op (s.opA g r f 0) (s.opB g r f 0))).advance gid f.bytes)

/-- A scalar instruction of operand A. -/
def scalar1 (r : Row) (op : Word → Word) (f : Fields) (s : State) : Res :=
  issue r f s fun gid g => .next ((s.putDst gid f.d (op (s.opA g r f 0))).advance gid f.bytes)

/-- A scalar instruction of operands A, B and C. -/
def scalar3 (r : Row) (op : Word → Word → Word → Word) (f : Fields) (s : State) : Res :=
  issue r f s fun gid g =>
    .next ((s.putDst gid f.d (op (s.opA g r f 0) (s.opB g r f 0) (s.opC g r f 0))).advance gid f.bytes)

/-- A 64-bit scalar instruction of pairs A and B (spec 05, R107). -/
def scalarPair (r : Row) (op : Dword → Dword → Dword) (f : Fields) (s : State) : Res :=
  issue r f s fun gid g =>
    .next ((s.putPair gid f.d (op (s.readSP g f.a) (s.opPairB g r f))).advance gid f.bytes)

/-- SADD to SREM (spec 05, R104). -/
def execSadd (f : Fields) (s : State) : Res := scalar2 (rowSadd f) (· + ·) f s
def execSsub (f : Fields) (s : State) : Res := scalar2 (rowSsub f) (· - ·) f s
def execSmul (f : Fields) (s : State) : Res := scalar2 (rowSmul f) (· * ·) f s
def execSmulh (f : Fields) (s : State) : Res := scalar2 (rowSmulh f) (mulHigh (f.m 1)) f s
def execSand (f : Fields) (s : State) : Res := scalar2 (rowSand f) (· &&& ·) f s
def execSor (f : Fields) (s : State) : Res := scalar2 (rowSor f) (· ||| ·) f s
def execSxor (f : Fields) (s : State) : Res := scalar2 (rowSxor f) (· ^^^ ·) f s
def execSshl (f : Fields) (s : State) : Res := scalar2 (rowSshl f) (fun a b => shiftL a b.toNat) f s
def execSshr (f : Fields) (s : State) : Res := scalar2 (rowSshr f) (fun a b => shiftR (f.m 1) a b.toNat) f s
def execSmin (f : Fields) (s : State) : Res := scalar2 (rowSmin f) (minMax (f.m 1) false) f s
def execSmax (f : Fields) (s : State) : Res := scalar2 (rowSmax f) (minMax (f.m 1) true) f s
def execSdiv (f : Fields) (s : State) : Res := scalar2 (rowSdiv f) (divT (f.m 1)) f s
def execSrem (f : Fields) (s : State) : Res := scalar2 (rowSrem f) (remT (f.m 1)) f s

/-- SMOV to SEXT (spec 05, R105). -/
def execSmov (f : Fields) (s : State) : Res := scalar1 (rowSmov f) id f s
def execSnot (f : Fields) (s : State) : Res := scalar1 (rowSnot f) (~~~ ·) f s
def execSclz (f : Fields) (s : State) : Res := scalar1 (rowSclz f) clz f s
def execSpopc (f : Fields) (s : State) : Res := scalar1 (rowSpopc f) (fun a => BitVec.ofNat 32 (popcount a)) f s
def execSbrev (f : Fields) (s : State) : Res := scalar1 (rowSbrev f) brev f s
def execSext (f : Fields) (s : State) : Res :=
  scalar1 (rowSext f) (extend (f.m 1) (if f.mf 3 2 = 0 then 8 else 16)) f s

/-- SCMP, SSEL (spec 05, R106). -/
def execScmp (f : Fields) (s : State) : Res :=
  scalar2 (rowScmp f) (fun a b => if condInt (f.mf 4 2) (viewInt (f.m 1) a) (viewInt (f.m 1) b) then 1 else 0) f s
def execSsel (f : Fields) (s : State) : Res := scalar3 (rowSsel f) (fun a b c => if a ≠ 0 then b else c) f s

/-- SADD64 to SSHR64 (spec 05, R107). -/
def execSadd64 (f : Fields) (s : State) : Res := scalarPair (rowSadd64 f) (· + ·) f s
def execSsub64 (f : Fields) (s : State) : Res := scalarPair (rowSsub64 f) (· - ·) f s
def execSmul64 (f : Fields) (s : State) : Res := scalarPair (rowSmul64 f) (· * ·) f s
def execSshl64 (f : Fields) (s : State) : Res := scalarPair (rowSshl64 f) (fun a b => shiftL a b.toNat) f s
def execSshr64 (f : Fields) (s : State) : Res := scalarPair (rowSshr64 f) (fun a b => shiftR (f.m 1) a b.toNat) f s

/-- SMOV64 (spec 05, R108). -/
def execSmov64 (f : Fields) (s : State) : Res :=
  issue (rowSmov64 f) f s fun gid g =>
    .next ((s.putPair gid f.d (if f.len = .w128 then f.imm else s.readSP g f.a)).advance gid f.bytes)

/-- SBFE, SBFI (spec 05, R109). -/
def execSbfe (f : Fields) (s : State) : Res := scalar3 (rowSbfe f) (bitExtract (f.m 1)) f s
def execSbfi (f : Fields) (s : State) : Res :=
  issue (rowSbfi f) f s fun gid g =>
    let r := rowSbfi f
    .next ((s.putDst gid f.d (bitInsert (s.readS g f.d) (s.opA g r f 0) (s.opB g r f 0) (s.opC g r f 0))).advance gid f.bytes)

/-- SLEA (spec 05, R110). -/
def execSlea (f : Fields) (s : State) : Res :=
  issue (rowSlea f) f s fun gid g =>
    let b := s.readS g f.b
    let x : Dword := if f.m 1 then b.zeroExtend 64 else b.signExtend 64
    let sh := if f.len = .w64 then f.c.toNat else f.imm.toNat % 256
    let disp : Dword := if f.len = .w64 then 0 else (BitVec.ofNat 24 (f.imm.toNat / 256)).signExtend 64
    .next ((s.putPair gid f.d (s.readSP g f.a + x <<< sh + disp)).advance gid f.bytes)

end Sys2Proof.Machine
end

