-- ==== Sys2Proof/Machine/VectorInt.lean ====
section
/-! DEFINITION. The vector integer cells (spec 06, R127 to R130). -/

namespace Sys2Proof.Machine

open Sys2Proof

/-- Element i of `w` bits of a word (spec 04, R81). -/
def elem (w : Nat) (x : Word) (i : Nat) : BitVec w := BitVec.ofNat w (x.toNat / 2 ^ (w * i))

/-- A word from its elements of `w` bits. -/
def ofElems (w : Nat) (e : Nat → BitVec w) : Word :=
  BitVec.ofNat 32 ((List.range (32 / w)).foldl (fun acc i => acc + (e i).toNat * 2 ^ (w * i)) 0)

/-- The element width in WID (spec 06, R127). -/
def widOf (f : Fields) : Nat := match f.mf 4 3 with | 0 => 32 | 1 => 16 | _ => 8

/-- An operation on each element of two words. -/
def elem2 (w : Nat) (op : BitVec w → BitVec w → BitVec w) (a b : Word) : Word :=
  ofElems w (fun i => op (elem w a i) (elem w b i))

/-- A vector instruction of operands A and B, of A, and of A, B and C. -/
def vector2 (r : Row) (op : Word → Word → Word) (f : Fields) (s : State) : Res :=
  issue r f s fun gid g =>
    .next ((s.putW gid g f.d.toNat (fun L => op (s.opA g r f L) (s.opB g r f L))).advance gid f.bytes)
def vector1 (r : Row) (op : Word → Word) (f : Fields) (s : State) : Res :=
  issue r f s fun gid g => .next ((s.putW gid g f.d.toNat (fun L => op (s.opA g r f L))).advance gid f.bytes)
def vector3 (r : Row) (op : Word → Word → Word → Word) (f : Fields) (s : State) : Res :=
  issue r f s fun gid g =>
    .next ((s.putW gid g f.d.toNat (fun L => op (s.opA g r f L) (s.opB g r f L) (s.opC g r f L))).advance gid f.bytes)

/-- Saturation to a view's range (spec 06, R128). -/
def saturate (uns : Bool) (w : Nat) (x : Int) : BitVec w :=
  let lo : Int := if uns then 0 else -(2 ^ (w - 1))
  let hi : Int := if uns then 2 ^ w - 1 else 2 ^ (w - 1) - 1
  BitVec.ofInt w (if x < lo then lo else if hi < x then hi else x)

/-- VADD to VSUBS (spec 06, R128). -/
def execVadd (f : Fields) (s : State) : Res := vector2 (rowVadd f) (elem2 (widOf f) (· + ·)) f s
def execVsub (f : Fields) (s : State) : Res := vector2 (rowVsub f) (elem2 (widOf f) (· - ·)) f s
def execVmul (f : Fields) (s : State) : Res := vector2 (rowVmul f) (elem2 (widOf f) (· * ·)) f s
def execVmulh (f : Fields) (s : State) : Res := vector2 (rowVmulh f) (elem2 (widOf f) (mulHigh (f.m 2))) f s
def execVand (f : Fields) (s : State) : Res := vector2 (rowVand f) (· &&& ·) f s
def execVor (f : Fields) (s : State) : Res := vector2 (rowVor f) (· ||| ·) f s
def execVxor (f : Fields) (s : State) : Res := vector2 (rowVxor f) (· ^^^ ·) f s
def execVshl (f : Fields) (s : State) : Res := vector2 (rowVshl f) (elem2 (widOf f) (fun a b => shiftL a b.toNat)) f s
def execVshr (f : Fields) (s : State) : Res :=
  vector2 (rowVshr f) (elem2 (widOf f) (fun a b => shiftR (f.m 2) a b.toNat)) f s
def execVmin (f : Fields) (s : State) : Res := vector2 (rowVmin f) (elem2 (widOf f) (minMax (f.m 2) false)) f s
def execVmax (f : Fields) (s : State) : Res := vector2 (rowVmax f) (elem2 (widOf f) (minMax (f.m 2) true)) f s
def execVabsd (f : Fields) (s : State) : Res :=
  vector2 (rowVabsd f) (elem2 (widOf f) (fun a b =>
    BitVec.ofNat _ (viewInt (f.m 2) a - viewInt (f.m 2) b).natAbs)) f s
def execVadds (f : Fields) (s : State) : Res :=
  vector2 (rowVadds f) (elem2 (widOf f) (fun a b => saturate (f.m 2) _ (viewInt (f.m 2) a + viewInt (f.m 2) b))) f s
def execVsubs (f : Fields) (s : State) : Res :=
  vector2 (rowVsubs f) (elem2 (widOf f) (fun a b => saturate (f.m 2) _ (viewInt (f.m 2) a - viewInt (f.m 2) b))) f s

/-- VMAD, VSEL, VBFE, VBFI (spec 06, R128). -/
def execVmad (f : Fields) (s : State) : Res := vector3 (rowVmad f) (fun a b c => a * b + c) f s
def execVsel (f : Fields) (s : State) : Res := vector3 (rowVsel f) (fun a b c => if a ≠ 0 then b else c) f s
def execVbfe (f : Fields) (s : State) : Res := vector3 (rowVbfe f) (bitExtract (f.m 2)) f s
def execVbfi (f : Fields) (s : State) : Res :=
  issue (rowVbfi f) f s fun gid g =>
    let r := rowVbfi f
    .next ((s.putW gid g f.d.toNat (fun L =>
      bitInsert (s.opD g r f L) (s.opA g r f L) (s.opB g r f L) (s.opC g r f L))).advance gid f.bytes)

/-- VMOV to VEXT (spec 06, R128). -/
def execVmov (f : Fields) (s : State) : Res := vector1 (rowVmov f) id f s
def execVnot (f : Fields) (s : State) : Res := vector1 (rowVnot f) (~~~ ·) f s
def execVneg (f : Fields) (s : State) : Res := vector1 (rowVneg f) (fun a => ofElems (widOf f) (fun i => -(elem _ a i))) f s
def execVabs (f : Fields) (s : State) : Res :=
  vector1 (rowVabs f) (fun a => ofElems (widOf f) (fun i =>
    if (elem (widOf f) a i).msb then -(elem _ a i) else elem _ a i)) f s
def execVclz (f : Fields) (s : State) : Res := vector1 (rowVclz f) clz f s
def execVpopc (f : Fields) (s : State) : Res := vector1 (rowVpopc f) (fun a => BitVec.ofNat 32 (popcount a)) f s
def execVbrev (f : Fields) (s : State) : Res := vector1 (rowVbrev f) brev f s
def execVext (f : Fields) (s : State) : Res := vector1 (rowVext f) (extend (f.m 2) (widOf f)) f s

/-- VCMP (spec 06, R129). -/
def execVcmp (f : Fields) (s : State) : Res :=
  vector2 (rowVcmp f) (elem2 (widOf f) (fun a b =>
    if condInt (f.mf 7 5) (viewInt (f.m 2) a) (viewInt (f.m 2) b) then 1 else 0)) f s

/-- VCMPM (spec 06, R129): no helper lane sets a bit. -/
def execVcmpm (f : Fields) (s : State) : Res :=
  issue (rowVcmpm f) f s fun gid g =>
    let r := rowVcmpm f
    .next ((s.putDst gid f.d (g.ctl.exm &&& maskOf (fun L =>
      condInt (f.mf 7 5) (viewInt (f.m 2) (s.opA g r f L)) (viewInt (f.m 2) (s.opB g r f L))))).advance gid f.bytes)

/-- VADD64, VMULW (spec 06, R130). -/
def execVadd64 (f : Fields) (s : State) : Res :=
  issue (rowVadd64 f) f s fun gid g =>
    .next ((s.putW2 gid g f.d.toNat (fun L => s.readV2 g f.a.toNat L + s.readV2 g f.b.toNat L)).advance gid f.bytes)
def execVmulw (f : Fields) (s : State) : Res :=
  issue (rowVmulw f) f s fun gid g =>
    .next ((s.putW2 gid g f.d.toNat (fun L =>
      wrapInt 64 (viewInt (f.m 2) (s.readV g f.a.toNat L) * viewInt (f.m 2) (s.readV g f.b.toNat L)))).advance gid f.bytes)

end Sys2Proof.Machine
end

