-- ==== Sys2Proof/Machine/VectorFloat.lean ====
section
/-! DEFINITION. The vector float and conversion cells (spec 06, R131 to R139). -/

namespace Sys2Proof.Machine

open Sys2Proof

/-- RND in MOD bits 3:2 (spec 06, R131). -/
def rnd (f : Fields) : Nat := f.mf 3 2

/-- VADD.F32 to VDIV (spec 06, R131). -/
def execVaddF32 (f : Fields) (s : State) : Res := vector2 (rowVaddF32 f) (fadd (rnd f)) f s
def execVsubF32 (f : Fields) (s : State) : Res := vector2 (rowVsubF32 f) (fsub (rnd f)) f s
def execVmulF32 (f : Fields) (s : State) : Res := vector2 (rowVmulF32 f) (fmul (rnd f)) f s
def execVminF32 (f : Fields) (s : State) : Res := vector2 (rowVminF32 f) (fminmax false) f s
def execVmaxF32 (f : Fields) (s : State) : Res := vector2 (rowVmaxF32 f) (fminmax true) f s
def execVdiv (f : Fields) (s : State) : Res := vector2 (rowVdiv f) (fdiv (rnd f)) f s

/-- VFMA, VFMS (spec 06, R131). -/
def execVfma (f : Fields) (s : State) : Res := vector3 (rowVfma f) (fma (rnd f)) f s
def execVfms (f : Fields) (s : State) : Res := vector3 (rowVfms f) (fms (rnd f)) f s

/-- VABS.F32 to VCLASS (spec 06, R131, R132, R135). -/
def execVabsF32 (f : Fields) (s : State) : Res := vector1 (rowVabsF32 f) (· &&& 0x7FFFFFFF) f s
def execVnegF32 (f : Fields) (s : State) : Res := vector1 (rowVnegF32 f) (· ^^^ 0x80000000) f s
def execVsqrt (f : Fields) (s : State) : Res :=
  vector1 (rowVsqrt f) (fun a => BitVec.ofNat 32 (fp32.sqrt (rnd f) (fval a))) f s
def execVrcp (f : Fields) (s : State) : Res := vector1 (rowVrcp f) (fun a => fdiv (rnd f) 0x3F800000 a) f s
def execVrsq (f : Fields) (s : State) : Res :=
  vector1 (rowVrsq f) (fun a => BitVec.ofNat 32 (fp32.rsq (rnd f) (fval a))) f s
def execVexp2 (f : Fields) (s : State) : Res := vector1 (rowVexp2 f) (fun a => BitVec.ofNat 32 (fexp2 (rnd f) a)) f s
def execVlog2 (f : Fields) (s : State) : Res := vector1 (rowVlog2 f) (fun a => BitVec.ofNat 32 (flog2 (rnd f) a)) f s
def execVrnd (f : Fields) (s : State) : Res := vector1 (rowVrnd f) (fun a => BitVec.ofNat 32 (frnd (rnd f) a)) f s
def execVclass (f : Fields) (s : State) : Res := vector1 (rowVclass f) fclass f s

/-- VCMP.F32, VCMPM.F32 (spec 06, R134). -/
def execVcmpF32 (f : Fields) (s : State) : Res :=
  vector2 (rowVcmpF32 f) (fun a b => if condFloat (f.mf 6 4) a b then 1 else 0) f s
def execVcmpmF32 (f : Fields) (s : State) : Res :=
  issue (rowVcmpmF32 f) f s fun gid g =>
    let r := rowVcmpmF32 f
    .next ((s.putDst gid f.d (g.ctl.exm &&& maskOf (fun L =>
      condFloat (f.mf 6 4) (s.opA g r f L) (s.opB g r f L)))).advance gid f.bytes)

/-- The element format of OPC 0x64 (spec 06, R136). -/
def half (f : Fields) : Fmt := if f.m 4 then fp16 else bf16

/-- Both 16-bit elements, each rounded once. -/
def halves (f : Fields) (v : Nat → FVal) : Word :=
  ofElems 16 (fun i => BitVec.ofNat 16 ((half f).enc (rnd f) (v i)))
def halfVal (f : Fields) (x : Word) (i : Nat) : FVal := (half f).val (elem 16 x i).toNat

/-- VADD2, VMUL2, VFMA2 (spec 06, R136). -/
def execVadd2 (f : Fields) (s : State) : Res :=
  vector2 (rowVadd2 f) (fun a b => halves f (fun i => (halfVal f a i).add (rnd f) (halfVal f b i))) f s
def execVmul2 (f : Fields) (s : State) : Res :=
  vector2 (rowVmul2 f) (fun a b => halves f (fun i => (halfVal f a i).mul (halfVal f b i))) f s
def execVfma2 (f : Fields) (s : State) : Res :=
  vector3 (rowVfma2 f) (fun a b c => halves f (fun i =>
    ((halfVal f a i).mul (halfVal f b i)).add (rnd f) (halfVal f c i))) f s

/-- The width and view of an integer code (spec 06, R137). -/
def icWidth (c : Nat) : Nat := match c with | 0 | 1 => 32 | 2 | 3 => 64 | 4 | 5 => 16 | _ => 8
def icUns (c : Nat) : Bool := c % 2 = 1

/-- VCVT (spec 06, R137). -/
def execVcvt (f : Fields) (s : State) : Res :=
  vector1 (rowVcvt f) (fun a =>
    BitVec.ofNat 32 ((floatCode (f.mf 9 7)).enc (rnd f) ((floatCode (f.mf 6 4)).val a.toNat))) f s

/-- VCVTI (spec 06, R137): a 64-bit target is a pair. -/
def execVcvti (f : Fields) (s : State) : Res :=
  issue (rowVcvti f) f s fun gid g =>
    let c := f.mf 9 7
    let v (L : Nat) : Int := toIntSat (rnd f) 0 (icUns c) (icWidth c)
      ((floatCode (f.mf 6 4)).val (s.opA g (rowVcvti f) f L).toNat)
    .next ((if icWidth c = 64 then s.putW2 gid g f.d.toNat (fun L => BitVec.ofInt 64 (v L))
      else s.putW gid g f.d.toNat (fun L => BitVec.ofInt 32 (v L))).advance gid f.bytes)

/-- VCVTF (spec 06, R137). In the 96-bit length a 64-bit source has no stated high word: it is a free value (log entry
23). -/
def execVcvtf (f : Fields) (s : State) : Res :=
  issue (rowVcvtf f) f s fun gid g =>
    let r := rowVcvtf f
    let c := f.mf 6 4
    let x (L : Nat) : Int :=
      if icWidth c = 64 then
        viewInt (icUns c) (if r.repA f then pairOf (f.imm.truncate 32) (Config.freeWord s.own.fresh 0x20000)
          else s.readV2 g f.a.toNat L)
      else viewInt (icUns c) (BitVec.ofNat (icWidth c) (s.opA g r f L).toNat)
    .next ((s.putW gid g f.d.toNat (fun L =>
      BitVec.ofNat 32 ((floatCode (f.mf 9 7)).ofInt (rnd f) (x L) 0))).advance gid f.bytes)

/-- VCVTQ, VCVTQF (spec 06, R138). -/
def execVcvtq (f : Fields) (s : State) : Res :=
  vector1 (rowVcvtq f) (fun a => BitVec.ofInt 32 (toIntSat (rnd f) (f.mf 9 4) false 32 (fval a))) f s
def execVcvtqf (f : Fields) (s : State) : Res :=
  vector1 (rowVcvtqf f) (fun a => BitVec.ofNat 32 (fp32.ofInt (rnd f) a.toInt (f.mf 9 4))) f s

/-- A word with `n` bits from bit `lo` replaced. -/
def setBits (x : Word) (lo n v : Nat) : Word :=
  BitVec.ofNat 32 (x.toNat % 2 ^ lo + v % 2 ^ n * 2 ^ lo + x.toNat / 2 ^ (lo + n) * 2 ^ (lo + n))

/-- VCVTN (spec 06, R139): elements 2k and 2k + 1 of D. -/
def execVcvtn (f : Fields) (s : State) : Res :=
  issue (rowVcvtn f) f s fun gid g =>
    let fm := floatCode (f.mf 6 4)
    let w := fm.bits
    let k := f.mf 9 7
    .next ((s.putW gid g f.d.toNat (fun L =>
      let a := fm.enc (rnd f) (fval (s.readV g f.a.toNat L))
      let b := fm.enc (rnd f) (fval (s.readV g f.b.toNat L))
      setBits (s.readV g f.d.toNat L) (2 * k * w) (2 * w) (a + b * 2 ^ w))).advance gid f.bytes)

end Sys2Proof.Machine
end

