-- ==== Sys2Proof/Machine/Matrix.lean ====
section
/-! DEFINITION. The matrix unit (spec 09, R192 to R213; spec 17, R379): gangs and the rendezvous latch, mma and mmac, the
accumulator cells, and the completion of their operations. -/

namespace Sys2Proof.Machine

open Sys2Proof

/-! ### Arithmetic (spec 04, R93 to R97) -/

def fmtA (w : Word) : Nat := w.toNat % 16
def fmtB (w : Word) : Nat := w.toNat / 16 % 16

/-- Whether a code is block-scaled (spec 04, R91). -/
def codeScaled (c : Nat) : Bool := 8 ≤ c && c ≤ 11

/-- One element with its encoding and the value that its scale gives it. -/
structure Elem where
  bits : Nat
  v : FVal
  deriving DecidableEq, Repr

/-- Element k of a 64-byte row or column (spec 04, R81; spec 09, R199), under its scale byte. -/
def rowElem (c : Nat) (bytes : Nat → Nat) (scale k : Nat) : Elem :=
  let w := codeWidth c
  let x := if w = 16 then bytes (2 * k) + 256 * bytes (2 * k + 1) else if w = 8 then bytes k else bytes (k / 2) / 16 ^ (k % 2) % 16
  { bits := x, v := if codeScaled c then (codeVal c x).mul (e8m0 scale) else codeVal c x }

/-- The sign bit of an element's encoding. -/
def Elem.neg (c : Nat) (x : Elem) : Bool := x.bits / 2 ^ (codeWidth c - 1) % 2 = 1

def Elem.zero (x : Elem) : Bool := match x.v with | .fin _ 0 _ => true | _ => false
def Elem.finite (x : Elem) : Bool := match x.v with | .fin .. => true | _ => false

/-- A product of the integer class: a zero has no sign (spec 04, R97). -/
def FVal.unsignedZero : FVal → FVal
  | .fin _ 0 e => .fin false 0 e
  | v => v

/-- A product, with the rule of ZSK and FINITE, which changes nothing in the integer class (spec 04, R92, R95 to R97). -/
def matProd (w : Word) (a b : Elem) : FVal :=
  if codeInt (fmtA w) then (a.v.mul b.v).unsignedZero
  else if w.getLsbD 12 && w.getLsbD 13 && a.zero && !b.finite then .fin (a.neg (fmtA w) != b.neg (fmtB w)) 0 0
  else a.v.mul b.v

/-- An element's value as an integer (spec 04, R97). -/
def Elem.int (c : Nat) (x : Elem) : Int := intOf (codeWidth c) x.bits

/-- One element of the tile (spec 04, R94, R97): chunks of 32 in ascending k, one rounding each. -/
def matElem (w : Word) (acc : Word) (a b : Nat → Elem) : Word :=
  let k := 512 / codeWidth (fmtA w)
  let mode := w.toNat / 1024 % 4
  (List.range (k / 32)).foldl (fun acc c =>
    let ks := (List.range 32).map (fun i => 32 * c + i)
    if w.toNat / 256 % 4 = 1 then
      acc + BitVec.ofInt 32 (ks.map (fun k => (a k).int (fmtA w) * (b k).int (fmtB w))).sum
    else fenc mode ((fval acc).add mode (chunkSum mode (ks.map (fun k => matProd w (a k) (b k)))))) acc

/-! ### Accumulator blocks (spec 01, R33) -/

/-- The key of an element of a physical accumulator block. -/
def accKey (blk row col : Nat) : Nat := blk * 1024 + row * 32 + col

def State.accWord (s : State) (n blk row col : Nat) : Word := Sparse.get 0 (s.node n).acc (accKey blk row col)

/-- Writes words of a core's accumulators; an uncorrectable one that is written is good again (spec 18, R399). -/
def State.putAcc (s : State) (n : Nat) (l : List (Nat × Word)) : State :=
  s.modNode n (fun x => { x with
    acc := l.foldl (fun m p => Sparse.set 0 m p.1 p.2) x.acc
    accBad := if x.accBad.isEmpty then x.accBad else x.accBad.filter (fun k => !l.any (fun p => p.1 = k)) })

/-- Whether a core has an uncorrectable word in some of its accumulator blocks. -/
def State.accSpoilt (s : State) (n : Nat) (blks : List Nat) : Bool := (s.node n).accBad.any (fun k => blks.contains (k / 1024))

def State.accTag (s : State) (n blk : Nat) : BitVec 8 := Sparse.get 0 (s.node n).tags blk

def State.setTags (s : State) (n : Nat) (blks : List Nat) (c : BitVec 8) : State :=
  s.modNode n (fun x => { x with tags := blks.foldl (fun m b => Sparse.set 0 m b c) x.tags })

/-- The lowest of some physical blocks whose tag is another context's: the TRAPAUX of ACCOWN (spec 09, R211). -/
def State.foreign (s : State) (n : Nat) (c : BitVec 8) (blks : List Nat) : Option Dword :=
  let bad := blks.filter (fun b => s.accTag n b ≠ 0 && s.accTag n b ≠ c)
  match bad with
  | [] => none
  | b :: _ =>
    let p := least b bad
    some (BitVec.ofNat 64 (p + 256 * (s.accTag n p).toNat))

/-- How many accumulator blocks a group's block was granted, and the first. -/
def State.accn (s : State) (g : Group) : Nat := match s.kernelOf g with | none => 0 | some k => k.accn
def State.accBase (s : State) (g : Group) : Nat := match s.blockOf g with | none => 0 | some b => b.accBase

/-- The bytes of a physical accumulator block (spec 09, R209). -/
def State.accBytes (s : State) (n blk : Nat) : List Byte :=
  (List.range 1024).flatMap (fun i => leBytes (Sparse.get 0 (s.node n).acc (blk * 1024 + i)).toNat 4)

/-- A physical accumulator block filled from bytes. -/
def State.fillAcc (s : State) (n blk : Nat) (bs : List Byte) : State :=
  s.putAcc n ((List.range 1024).map (fun i => (blk * 1024 + i, BitVec.ofNat 32 (field bs (4 * i) 4))))

/-! ### Releasing operations (spec 17, R379) -/

/-- The room left in a core's matrix unit for released operations. -/
def State.matRoom (s : State) (n : Nat) : Nat :=
  16 - (s.mops.filter (fun o => o.node = n && o.kind ≠ .mrd && o.kind ≠ .mwr)).length

/-- The physical blocks of the run that begins at the group's block `d`. -/
def physical (base d n : Nat) : List Nat := (List.range n).map (fun i => base + d + i)

/-- A set of small numbers as bits. -/
def bitSet (w : Nat) (l : List Nat) : BitVec w := l.foldl (fun m i => m ||| (1#w <<< i)) 0

/-- A group has an operation that no mwait of it has covered. -/
def Group.addAsync (g : Group) (a : AsyncOp) : Group := { g with eng := { g.eng with async := g.eng.async ++ [a] } }

/-- Releases an accumulator command of a group (mzero, mlda, msta, mrd, mwr), in its place in the order of issue; the context
that uses the blocks owns them (spec 01, R33). -/
def State.releaseAcc (s : State) (gid : Nat) (g : Group) (id : Nat) (k : MatKind) (f : Fields) (blks : List Nat) (off : Nat)
    (lanes : Word) (inputs : List (Nat × Word)) : State :=
  let o : MatOp := { id := id, since := [(gid, id)], joint := id, node := g.owner, block := g.block, kind := k, f := f, members := [gid], blocks := blks,
                     fmt := 0, inputs := inputs, taint := [], off := off, lanes := lanes, peers := [], seq := s.own.seq }
  ({ s with mops := s.mops ++ [o] }.modGroup gid
    (fun g => g.addAsync { op := id, blocks := bitSet 64 blks, regs := 0, out := o.out })).setTags g.owner blks g.ctx

/-- How many blocks mzero, mlda and msta name (spec 09, R209). -/
def accCount (f : Fields) : Nat := f.mf 6 1 + 1

/-- The blocks that a matrix instruction names, relative to the run. -/
def namedBlocks (k : MatKind) (f : Fields) : List Nat :=
  match k with
  | .mma => (List.range (match f.mf 2 1 with | 0 => 4 | 1 => 8 | 2 => 16 | _ => 24)).map (· + f.d.toNat)
  | .mmac => (List.range 24).map (· + f.d.toNat)
  | .mrd => [f.a.toNat]
  | .mwr => [f.d.toNat]
  | _ => (List.range (accCount f)).map (· + f.d.toNat)

/-- Whether an operation that issued earlier at a core still names a physical block (spec 09, R208, R212), be it of an evicted group (spec
18, R392). -/
def State.accBusy (s : State) (n blk : Nat) : Bool :=
  s.mops.any (fun o => o.node = n && o.blocks.contains blk) || s.groups.any (fun p => p.2.owner = n &&
    p.2.eng.matQ.any (fun e => e.kind ≠ .mma && e.kind ≠ .mmac && (namedBlocks e.kind e.f).any (fun d => d + s.accBase p.2 = blk)))

/-- Whether a matrix FIFO of the core still holds an accumulator command that issued before `id` and names one of some
physical blocks (spec 09, R208). -/
def State.accQueued (s : State) (n : Nat) (blks : List Nat) (id : Nat) : Bool :=
  s.groups.any (fun p => p.2.owner = n && p.2.eng.matQ.any (fun e =>
    e.id < id && e.kind ≠ .mma && e.kind ≠ .mmac && (namedBlocks e.kind e.f).any (fun d => blks.contains (d + s.accBase p.2))))

/-! ### Gangs (spec 09, R193 to R199) -/

/-- The shape M × N. -/
def shapeOf (f : Fields) : Nat × Nat := match f.mf 2 1 with | 0 => (64, 64) | 1 => (64, 128) | 2 => (128, 128) | _ => (128, 192)

/-- Operand registers per member: panels over g, eight registers each, and one of scales (spec 09, R198 to R200). -/
def rangeLen (panels g : Nat) (code : Nat) : Nat := 8 * ((panels + g - 1) / g) + if codeScaled code then 1 else 0

/-- The operand registers of a member, A's then B's. -/
def rangeA (f : Fields) (g : Nat) (w : Word) : List Nat :=
  (List.range (rangeLen ((shapeOf f).1 / 16) g (fmtA w))).map (· + f.a.toNat)
def rangeB (f : Fields) (g : Nat) (w : Word) : List Nat :=
  (List.range (rangeLen ((shapeOf f).2 / 16) g (fmtB w))).map (· + f.b.toNat)

/-- The groups of a gang, as identities, in ascending group number. -/
def gangOf (b : Block) (gang : Word) : List Nat := (lanesOf gang).filterMap (fun i => b.gids[i]?)

/-- Two instructions are the same in bits 63:10 but for LAND and the wait bits (spec 09, R193). -/
def sameInstr (a b : MatEntry) : Bool :=
  a.kind = b.kind && { a.f with land := false, wa := false, wb := false, wc := false } =
    { b.f with land := false, wa := false, wb := false, wc := false }

/-- What a group presents at the latch. -/
def Group.atLatch (g : Group) : Option MatEntry :=
  match g.sched.hold with
  | .latch _ _ => g.eng.latch
  | _ => none

/-- What a group presents for a joint operation: at the latch, or at the head of its matrix FIFO. -/
def Group.presents (g : Group) (queued : Bool) : Option MatEntry := if queued then g.eng.matQ.head? else g.atLatch

/-- The issuing group of an entry: the lowest-numbered in GANG (spec 09, R195). -/
def State.issuerOf (s : State) (b : Block) (e : MatEntry) : Option Group :=
  match gangOf b e.gang with
  | [] => none
  | i :: _ => s.group i

/-- Whether the slot of a guarded entry's issuing group has resolved to issue (spec 09, R196; spec 02, R48). -/
def State.resolved (s : State) (b : Block) (e : MatEntry) : Bool :=
  match s.issuerOf b e with
  | none => false
  | some ig => ig.guard e.f.gs.toNat = if e.f.m 9 then 1 else 2

/-- What the groups of a block have at the latch: their own arrivals, and the FIFO heads that have arrived because their slot
resolved to issue (spec 17, R379); with each whether it is queued. -/
def State.arrivals (s : State) (b : Block) : List (Nat × MatEntry × Bool) :=
  b.gids.filterMap (fun i => match s.group i with
    | none => none
    | some g => match g.atLatch with
      | some e => some (i, e, false)
      | none => match g.eng.matQ with
        | e :: _ => if e.arrived then some (i, e, true) else none
        | [] => none)

/-- Whether the FIFO head of a group has arrived at the latch. -/
def State.headArrives (s : State) (gid : Nat) (yes : Bool) : State :=
  s.modGroup gid (fun g => { g with eng := { g.eng with matQ := g.eng.matQ.modify 0 (fun e => { e with arrived := yes }) } })

/-- The FIFO head of a group leaves. -/
def State.dropHead (s : State) (gid : Nat) : State := s.modGroup gid (fun g => { g with eng := { g.eng with matQ := g.eng.matQ.drop 1 } })

/-- A trap GANG that several groups meet at once: their arrivals are withdrawn, the lowest-numbered takes it, the others stop at
their instruction (spec 09, R193, R195; spec 18, R386). -/
def State.trapAmong (s : State) (gids : List (Nat × MatEntry × Bool)) (reason : Nat) : State :=
  let l := gids.filterMap (fun x => (s.group x.1).map (fun g => (g.index, x)))
  match l with
  | [] => s
  | p :: _ =>
    let first := l.foldl (fun m q => if q.1 < m.1 then q else m) p
    let s := l.foldl (fun (s : State) q => if q.2.2.2 then s.dropHead q.2.1
      else s.modGroup q.2.1 (fun g => { g with sched := { g.sched with hold := .none } })) s
    match s.group first.2.1 with
    | none => s
    | some g =>
      let s := (s.takeTrap first.2.1 (causeNo .gang) g.ctl.exm 0 (BitVec.ofNat 64 (reason + first.2.2.1.gang.toNat * 2 ^ 32)) first.2.2.1.pc).rouse g.owner 0
      l.foldl (fun (s : State) q => if q.2.1 = first.2.1 then s else s.modGroup q.2.1 (fun g =>
        { g with sched := { g.sched with skidLeft := g.sched.skidLeft.map (fun _ => 0) } })) s

/-- Traps reasons 3 and 4 of R193 for an arrival among those that were there before it; none when there is no conflict. -/
def State.latchConflict (s : State) (b : Block) (gid index : Nat) (e : MatEntry) (queued : Bool) : Option State :=
  let waiting := (s.arrivals b).filter (fun p => p.1 ≠ gid)
  let cross := waiting.filter (fun p => p.2.1.gang ≠ e.gang && p.2.1.gang.getLsbD index)
  let mine := waiting.filter (fun p => p.2.1.gang = e.gang)
  if !cross.isEmpty then some (s.trapAmong ((gid, e, queued) :: cross) 3)
  else if mine.any (fun p => !sameInstr p.2.1 e) then some (s.trapAmong ((gid, e, queued) :: mine) 4)
  else none

/-- The vote on the format word (spec 04, R93): the word, or the trap of the issuing group. -/
def vote (l : List (Nat × List (Nat × Word))) (issuer : Word) : Except (Cause × Word × Dword) Word :=
  let all := l.flatMap (·.2)
  match all with
  | [] => .error (.fmtbad, issuer, BitVec.ofNat 64 (7 * 2 ^ 32))
  | (_, w) :: _ =>
    let differ := l.filter (fun p => p.2.any (fun q => q.2 ≠ w))
    if !differ.isEmpty then
      .error (.fmtdiv, maskOf (fun L => all.any (fun q => q.1 = L && q.2 ≠ w)),
        BitVec.ofNat 64 (w.toNat + differ.foldl (fun m p => m + 2 ^ (32 + p.1)) 0))
    else if fmtReason w ≠ 0 then .error (.fmtbad, issuer, BitVec.ofNat 64 (w.toNat + fmtReason w * 2 ^ 32))
    else .ok w

/-- The members of a gang and what each presents, when all have arrived with the same instruction and GANG. -/
def State.assembled (s : State) (b : Block) (e : MatEntry) (queued : Bool) : Option (List (Nat × Group × MatEntry)) :=
  let l := (gangOf b e.gang).filterMap (fun i => match s.group i with
    | none => none
    | some g => match g.presents queued with
      | none => none
      | some x => if x.gang = e.gang && sameInstr x e && (!queued || x.arrived) then some (i, g, x) else none)
  if l.length = popcount e.gang && b.saved.isNone then some l else none

/-- A trap of a rendezvous in its issuing group, with TRAPPC at its instruction; the arrivals are withdrawn (spec 09,
R195). -/
def State.trapIssuer (s : State) (l : List (Nat × Group × MatEntry)) (queued : Bool) (c : Cause) (lanes : Word) (aux : Dword) : State :=
  let s := l.foldl (fun s m => s.modGroup m.1 (fun g =>
    if queued then { g with eng := { g.eng with matQ := g.eng.matQ.drop 1 } }
    else { g with sched := { g.sched with hold := .none } })) s
  match l with
  | [] => s
  | (i, g, e) :: _ => (s.takeTrap i (causeNo c) lanes 0 aux e.pc).rouse g.owner 0

/-- A successful vote: FMTLAST of every group of the gang becomes the word (spec 01, R28; spec 04, R93). -/
def State.agree (s : State) (l : List (Nat × Group × MatEntry)) (w : Word) : State :=
  l.foldl (fun s m => s.modGroup m.1 (fun g => { g with sys := { g.sys with fmtlast := w } })) s

/-- The vote and the owner check of an assembled gang: the voted word, or the state after the trap. TRAPLANES of FMTBAD and ACCOWN
are the issuing group's active lanes at the vote (log entry 105). -/
def State.checkGang (s : State) (b : Block) (l : List (Nat × Group × MatEntry)) (queued : Bool) : Except State Word :=
  match l with
  | [] => .error s
  | (_, ig, e) :: _ =>
    match vote (l.map (fun m => (m.2.1.index, m.2.2.words))) ig.ctl.exm with
    | .error (c, lanes, aux) => .error (s.trapIssuer l queued c lanes aux)
    | .ok w =>
      match s.foreign b.core ig.ctx ((namedBlocks e.kind e.f).map (· + b.accBase)) with
      | some aux => .error ((s.agree l w).trapIssuer l queued .accown ig.ctl.exm aux)
      | none => .ok w

/-- The values of a member's operand registers at the release: a register written since its last mopf gives free values
(spec 09, R206; log entry 20). -/
def State.operands (s : State) (i : Nat) (g : Group) (regs : List Nat) : List (Nat × Word) :=
  regs.flatMap (fun r => laneList.map (fun L =>
    (i * 8192 + 32 * r + L,
      if g.eng.unfenced.getLsbD r then Config.freeWord s.own.fresh (0x1000000 + i * 8192 + 32 * r + L) else s.readV g r L)))

/-- A member goes on past its instruction, or its FIFO entry leaves. -/
def State.passGang (s : State) (m : Nat × Group × MatEntry) (queued : Bool) : State :=
  if queued then s.modGroup m.1 (fun g => { g with eng := { g.eng with matQ := g.eng.matQ.drop 1 } })
  else (((s.modGroup m.1 (fun g => { g with eng := { g.eng with latch := none } })).advance m.1 m.2.2.f.bytes).rouse m.2.1.owner 0)

/-- Releases the part of a joint operation that one block computes (spec 09, R202, R205). -/
def State.releaseGang (s : State) (bid : Nat) (b : Block) (l : List (Nat × Group × MatEntry)) (w : Word) (joint : Nat)
    (peers : List (Nat × Nat × Nat)) (queued : Bool) : State :=
  match l with
  | [] => s
  | (_, ig, e) :: _ =>
    let n := l.length
    let blks := (namedBlocks e.kind e.f).map (· + b.accBase)
    let regs := if e.kind = .mma then rangeA e.f n w ++ rangeB e.f n w else []
    let o : MatOp := { id := s.own.ids, since := l.map (fun m => (m.1, m.2.2.id)), joint := joint, node := b.core, block := bid, kind := e.kind, f := e.f, members := l.map (·.1),
                       blocks := blks, fmt := w, inputs := l.flatMap (fun m => s.operands m.1 m.2.1 regs), taint := [], off := 0,
                       lanes := 0, peers := peers, seq := s.own.seq }
    let s := ({ s with mops := s.mops ++ [o] }.newId).setTags b.core blks ig.ctx
    let s := s.unclean bid
    l.foldl (fun s m =>
      (s.modGroup m.1 (fun g => { g.addAsync { op := joint, blocks := bitSet 64 blks, regs := bitSet 256 (e.f.c.toNat :: regs), out := none } with
        sys := { g.sys with fmtlast := w } })).passGang m queued) s

/-- The participants of an mmac: the blocks of cluster ranks 4t to 4t + 3 (spec 09, R204). -/
def State.participants (s : State) (b : Block) : List (Nat × Block) :=
  let t := b.lin % b.k.clsz / 4
  (List.range 4).filterMap (fun q =>
    s.blocks.find? (fun p => p.2.grid = b.grid && p.2.lin = memberLin b (4 * t + q)))

/-- A complete gang of a block that presents an mmac, at the latch or queued: the same instruction if there is one. -/
def State.mmacGang (s : State) (b : Block) (e : MatEntry) : Option (List (Nat × Group × MatEntry) × Bool) :=
  let found (queued : Bool) := b.gids.filterMap (fun i => match s.group i with
    | none => none
    | some g => match g.presents queued with
      | some x => if x.kind = .mmac then (s.assembled b x queued).map (·, queued) else none
      | none => none)
  match (found true ++ found false).find? (fun l => l.1.any (fun m => sameInstr m.2.2 e)) with
  | some l => some l
  | none => (found true ++ found false).head?

/-- Whether a core can take a joint operation on some blocks: a place in its matrix unit, and no earlier command on them that
is still in a FIFO (spec 17, R379; spec 09, R208). -/
def State.canRelease (s : State) (b : Block) (e : MatEntry) (places : Nat) : Bool :=
  places ≤ s.matRoom b.core && !s.accQueued b.core ((namedBlocks e.kind e.f).map (· + b.accBase)) s.own.ids

/-- Releases a joint operation when all who take part have arrived (spec 09, R202, R205). An mmac takes the operand offsets of the group that
its members' lowest issues (log entry 127), and sets FMTLAST of a gang whose own vote succeeds before the gangs' words are compared (log
entry 128). -/
def State.tryJoint (s : State) (bid : Nat) (e : MatEntry) (queued : Bool) : State :=
  match s.block bid with
  | none => s
  | some b =>
    match s.assembled b e queued with
    | none => s
    | some l =>
      match s.checkGang b l queued with
      | .error t => t
      | .ok w =>
        let s := s.agree l w
        if e.kind = .mma then
          if s.canRelease b e 1 then s.releaseGang bid b l w s.own.ids [] queued else s
        else
          let ps := s.participants b
          let gangs := ps.filterMap (fun p => (s.mmacGang p.2 e).map (fun l => (p.1, p.2, l)))
          if gangs.any (fun p => p.2.2.1.any (fun m => !sameInstr m.2.2 e)) then
            ps.foldl (fun s p => s.trapAmong ((s.arrivals p.2).filter (fun a => a.2.1.kind = .mmac)) 6) s
          else if gangs.length < 4 then s
          else
            let votes := gangs.map (fun p => (p.1, s.checkGang p.2.1 p.2.2.1 p.2.2.2))
            match votes.findSome? (fun v => match v.2 with | .error t => some t | .ok _ => none) with
            | some t => t
            | none =>
              let words := votes.filterMap (fun v => match v.2 with | .ok w => some w | .error _ => none)
              let w0 := words.headD w
              if words.any (· ≠ w0) then
                gangs.foldl (fun s p => s.trapIssuer p.2.2.1 p.2.2.2 .fmtdiv 0 (w0.zeroExtend 64)) s
              else if gangs.all (fun p => s.canRelease p.2.1 e ((gangs.filter (fun q => q.2.1.core = p.2.1.core)).length)) then
                let peers := gangs.map (fun p => match p.2.2.1 with
                  | (_, _, x) :: _ => (p.1, x.opA.toNat, x.opB.toNat)
                  | [] => (p.1, 0, 0))
                let joint := s.own.ids
                gangs.foldl (fun s p => s.releaseGang p.1 p.2.1 p.2.2.1 w0 joint peers p.2.2.2) s
              else s

/-- The data of an mmac's operand halves (spec 09, R204): offsets and lengths in the scratchpad. -/
def mmacRuns (a b : Dword) (w : Word) : List (Dword × Nat) :=
  [(a, 4096 + if codeScaled (fmtA w) then 64 else 0), (b, 6144 + if codeScaled (fmtB w) then 96 else 0)]

/-- Moves on the head of a matrix FIFO (spec 09, R196; spec 17, R379; spec 01, R24): a joint operation whose slot resolved to
issue arrives once, one that its slot discards leaves, and so does one whose issuing group has no lanes any more and never resolved
its slot; one whose slot is unresolved again is held again (log entry 119); an accumulator command is released when the unit has room. -/
def State.pumpHead (s : State) (gid : Nat) : State :=
  match s.group gid with
  | none => s
  | some g =>
    match g.eng.matQ with
    | [] => s
    | e :: _ =>
      match e.kind with
      | .mma | .mmac => match s.block g.block with
        | none => s.dropHead gid
        | some b => match s.issuerOf b e with
          | none => s.dropHead gid
          | some ig =>
            if ig.sched.skidLeft.isSome then s
            else if ig.guard e.f.gs.toNat = 0 then (if ig.ctl.livem = 0 then s.dropHead gid else if e.arrived then s.headArrives gid false else s)
            else if !s.resolved b e then s.dropHead gid
            else if e.arrived then s.tryJoint g.block e true
            else match s.latchConflict b gid g.index e true with
              | some t => t
              | none => (s.headArrives gid true).tryJoint g.block e true
      | _ =>
        let blks := (namedBlocks e.kind e.f).map (· + s.accBase g)
        if s.matRoom g.owner = 0 || s.accQueued g.owner blks e.id then s
        else (s.dropHead gid).releaseAcc gid g e.id e.kind e.f blks e.opA.toNat 0 []

/-- Moves on what waits for a core's matrix unit: the FIFO heads, and the complete gangs at the latch; a group without lanes
retires once its FIFO is empty (spec 05, R122). -/
def State.pumpMatrix (s : State) (n : Nat) : State :=
  let s := ([0, 1, 2, 3] : List Nat).foldl (fun s _ =>
    ((s.groups.filter (fun p => p.2.owner = n)).map (·.1)).foldl State.pumpHead s) s
  let s := (s.groups.filterMap (fun p => if p.2.owner = n then p.2.atLatch.map (fun e => (p.1, p.2.block, e)) else none)).foldl (fun s x =>
    if (s.group x.1).any (fun g => g.atLatch = some x.2.2) then s.tryJoint x.2.1 x.2.2 false else s) s
  ((s.groups.filter (fun p => p.2.owner = n && p.2.ctl.livem = 0)).map (·.1)).foldl State.tryRetire s

/-- An mma or mmac that has passed its checks: queued behind its slot, or at the latch (spec 09, R193 to R196). -/
def arrive (s : State) (gid : Nat) (g : Group) (b : Block) (e : MatEntry) : Res :=
  if e.f.gs ≠ 0 then
    if 4 ≤ g.eng.matQ.length then .next (s.stall gid .matFull)
    else .next (((s.newId.setGroup gid { g with eng := { g.eng with matQ := g.eng.matQ ++ [e] } }).advance gid e.f.bytes).pumpMatrix g.owner)
  else if g.sched.skidLeft.isSome then
    .next (s.setGroup gid { g with sched := { g.sched with skidLeft := some 0 }, sys := { g.sys with haltpc := g.ctl.pc } })
  else match s.latchConflict b gid g.index e false with
    | some t => .next t
    | none =>
      .next ((((s.newId.setGroup gid { g with eng := { g.eng with latch := some e } }).park gid (.latch s.clock.toNat false)).tryJoint
        g.block e false).gate g.owner)

/-- ACCBOUND with the lowest block number beyond the grant (spec 09, R201). -/
def accBound (s : State) (gid : Nat) (n : Nat) : Res := .next (s.trapPlain gid .accbound (BitVec.ofNat 64 n))

/-- The first of some block numbers beyond the grant. -/
def beyond (accn : Nat) (l : List Nat) : Option Nat := l.find? (fun n => accn ≤ n)

/-- The vector registers of an operand range, as an instruction names them. -/
def rangeNamed (wait : Bool) (l : List Nat) : List Named := l.map (fun x => ⟨.src, wait, false, x⟩)

/-- The operand ranges that an mma names with its C register: those of R199 for its GANG, as far as C tells the format; the bare
operands of an mmac, or under a GANG that gives no ranges (spec 09, R194). -/
def gangNamed (k : MatKind) (r : Row) (f : Fields) (g : Group) (w : Word) : List Named × List Named :=
  let n := popcount g.sys.gang
  if k = .mma && g.sys.gang.getLsbD g.index && 2 ≤ n && n ≤ 6 then
    (rangeNamed f.wa (rangeA f n w) ++ rangeNamed f.wb (rangeB f n w), fieldRegs r.kc f.c.toNat 1 .src f.wc)
  else ([], namedRegs r f)

/-- REGBOUND: an operand range that runs past the allocation or past v254 (spec 09, R197), or another register beyond the
allocation. -/
def State.gangUnowned (s : State) (g : Group) (l : List Named × List Named) : Option Named :=
  (l.1.find? (fun n => 255 ≤ n.reg || !s.owns g false n.reg)).or (s.unowned g l.2)

/-- The checks of mma and mmac in the order of R56, then the arrival checks, then the arrival (spec 09, R193, R194, R197, R201,
R204). -/
def gangIssue (k : MatKind) (r : Row) (f : Fields) (s : State) : Res :=
  let gid := s.own.cur
  match s.group gid with
  | none => .next s
  | some g =>
    let words := (lanesOf g.ctl.exm).map (fun L => (L, s.readV g f.c.toNat L))
    let w := if g.isEmpty false f.c.toNat then 0 else match words with | [] => 0 | p :: _ => p.2
    let named := gangNamed k r f g w
    match s.gangUnowned g named with
    | some x => .next (s.trapPlain gid .regbound (regAux x.scalar x.reg))
    | none =>
      match g.emptyWaited (named.1 ++ named.2) with
      | some x => .next (s.trapPlain gid .emptyreg (regAux x.scalar x.reg))
      | none => notVisitor s gid g <|
        match s.block g.block with
        | none => .next s
        | some b =>
          let gang := g.sys.gang
          let bad (n : Nat) : Res := .next (s.trapPlain gid .gang (BitVec.ofNat 64 (n + gang.toNat * 2 ^ 32)))
          let n := popcount gang
          let t := b.lin % b.k.clsz / 4
          if !gang.getLsbD g.index || n < 2 || 6 < n then bad 1
          else if (lanesOf gang).any (fun i => b.k.ngrp ≤ i || !b.live.contains (b.gids.getD i 0)) then bad 2
          else if k = .mmac && (b.k.clsz < 4 * t + 4 || (s.participants b).any (fun p => p.2.live.isEmpty)) then bad 5
          else
            match g.emptyStall named.2 with
            | some x => .next (s.stall gid x.hold)
            | none =>
              let ra := if k = .mma then rangeA f n w else []
              let rb := if k = .mma then rangeB f n w else []
              let e : MatEntry := { id := s.own.ids, kind := k, f := f, pc := g.ctl.pc, gang := gang, words := words,
                                    opA := if k = .mmac then s.readSP g f.a else 0, opB := if k = .mmac then s.readSP g f.b else 0 }
              if ra.any (fun x => rb.contains x) || ra.contains f.c.toNat then s.illop14 gid 2
              else if rb.contains f.c.toNat then s.illop14 gid 3
              else
                let off := if k = .mmac then
                    (mmacRuns e.opA e.opB w).find? (fun x => x.1.toNat % 64 ≠ 0 || 2 ^ 20 ≤ x.1.toNat || b.k.scr < x.1.toNat + x.2)
                  else none
                match off with
                | some x => .next (s.trap gid .lbound g.ctl.exm x.1 1)
                | none =>
                  match beyond b.k.accn (namedBlocks k f) with
                  | some x => accBound s gid x
                  | none =>
                    match g.emptyStall named.1 with
                    | some x => .next (s.stall gid x.hold)
                    | none => if (g.spoilt (named.1 ++ named.2)).isSome then .next (s.consume gid) else arrive s gid g b e

/-- MMA (spec 09, R197 to R202). -/
def execMma (f : Fields) (s : State) : Res := gangIssue .mma (rowMma f) f s

/-- MMAC (spec 09, R203 to R205). -/
def execMmac (f : Fields) (s : State) : Res := gangIssue .mmac (rowMmac f) f s

/-! ### Fences and waits (spec 09, R206, R207) -/

/-- MOPF. -/
def execMopf (f : Fields) (s : State) : Res :=
  issue (rowMopf f) f s fun gid g => notVisitor s gid g <|
    let own (p : Part) : Bool := match p.loc, s.block g.block with | .scr grid lin _, some b => grid = b.grid && lin = b.lin | _, _ => false
    let storing := s.accs.any (fun a => a.gid = gid && a.isStore && a.parts.any own)
    if g.regs.vempty ≠ 0 || g.regs.sempty ≠ 0 || storing then .next (s.stall gid .mopf)
    else .next ((s.modGroup gid (fun g => { g with eng := { g.eng with unfenced := 0 } })).advance gid f.bytes)

/-- Whether an operation is still to complete: a part of it is released and not complete (spec 09, R207). -/
def State.jointPending (s : State) (joint : Nat) : Bool := s.mops.any (fun o => o.joint = joint)

/-- MWAIT: for the operations on block D, or all. -/
def execMwait (f : Fields) (s : State) : Res :=
  issue (rowMwait f) f s fun gid g => notVisitor s gid g <|
    let d := f.d.toNat
    if !f.m 1 && s.accn g ≤ d then accBound s gid d
    else
      let covers (a : AsyncOp) : Bool := f.m 1 || a.blocks.getLsbD (s.accBase g + d)
      if g.eng.async.any (fun a => covers a && s.jointPending a.op) ||
          g.eng.matQ.any (fun e => f.m 1 || (namedBlocks e.kind e.f).contains d) then
        .next (s.stall gid (.mwait (if f.m 1 then none else some d)))
      else .next ((s.setGroup gid { g with eng := { g.eng with async := g.eng.async.filter (fun a => !covers a) } }).advance gid f.bytes)

/-! ### Accumulator cells (spec 09, R209 to R212) -/

/-- The owner check of an accumulator instruction, then its effect (spec 09, R211). -/
def owned (s : State) (gid : Nat) (g : Group) (blks : List Nat) (k : List Nat → Res) : Res :=
  let phys := blks.map (· + s.accBase g)
  match s.foreign g.owner g.ctx phys with
  | some aux => .next (s.trapPlain gid .accown aux)
  | none => k phys

/-- mzero, mlda, msta: checks, then a place in the matrix unit or the FIFO. -/
def accCommand (k : MatKind) (r : Row) (f : Fields) (s : State) : Res :=
  issue r f s fun gid g => notVisitor s gid g <|
    let off := if k = .mzero then 0 else (s.readS g f.a).toNat
    match beyond (s.accn g) (namedBlocks k f) with
    | some x => accBound s gid x
    | none =>
      if off % 128 ≠ 0 then .next (s.trap gid .dalign g.ctl.exm (BitVec.ofNat 64 off) 0)
      else if k ≠ .mzero && s.scrSize g < off + 4096 * accCount f then .next (s.trap gid .lbound g.ctl.exm (BitVec.ofNat 64 off) 1)
      else owned s gid g (namedBlocks k f) fun phys =>
        let s := if k = .msta then s else s.unclean g.block
        if g.eng.matQ.isEmpty && s.matRoom g.owner ≠ 0 && !s.accQueued g.owner phys s.own.ids then
          .next ((s.newId.releaseAcc gid g s.own.ids k f phys off 0 []).advance gid f.bytes)
        else if 4 ≤ g.eng.matQ.length then .next (s.stall gid .matFull)
        else
          let e : MatEntry := { id := s.own.ids, kind := k, f := f, pc := g.ctl.pc, gang := 0, opA := BitVec.ofNat 64 off, opB := 0, words := [] }
          .next (((s.newId.setGroup gid { g with eng := { g.eng with matQ := g.eng.matQ ++ [e] } }).advance gid f.bytes).pumpMatrix g.owner)

/-- MZERO, MLDA, MSTA (spec 09, R209). -/
def execMzero (f : Fields) (s : State) : Res := accCommand .mzero (rowMzero f) f s
def execMlda (f : Fields) (s : State) : Res := accCommand .mlda (rowMlda f) f s
def execMsta (f : Fields) (s : State) : Res := accCommand .msta (rowMsta f) f s

/-- B + n > 32 (spec 09, R210). -/
def rowsBeyond (s : State) (gid b : Nat) : Res := .next (s.trapPlain gid .accbound (BitVec.ofNat 64 (b % 256 * 256)))

/-- MRD (spec 09, R210): rows land when the operation completes. -/
def execMrd (f : Fields) (s : State) : Res :=
  issue (rowMrd f) f s fun gid g => notVisitor s gid g <|
    let n := f.mf 5 1 + 1
    let b := (s.readS g f.b).toNat
    if s.accn g ≤ f.a.toNat then accBound s gid f.a.toNat
    else if 32 < b + n then rowsBeyond s gid b
    else owned s gid g [f.a.toNat] fun phys =>
      if g.ctl.exm = 0 then .next (s.advance gid f.bytes)
      else .next (((s.markEmpty gid true f.d.toNat n).newId.releaseAcc gid g s.own.ids .mrd f phys b g.wset []).advance gid f.bytes)

/-- MWR (spec 09, R210): the lanes set in EXM. -/
def execMwr (f : Fields) (s : State) : Res :=
  issue (rowMwr f) f s fun gid g => notVisitor s gid g <|
    let n := f.mf 5 1 + 1
    let b := (s.readS g f.b).toNat
    if s.accn g ≤ f.d.toNat then accBound s gid f.d.toNat
    else if 32 < b + n then rowsBeyond s gid b
    else owned s gid g [f.d.toNat] fun phys =>
      if g.ctl.exm = 0 then .next (s.advance gid f.bytes)
      else
        let inputs := (List.range n).flatMap (fun i => (lanesOf g.ctl.exm).map (fun L => (32 * i + L, s.readV g (f.a.toNat + i) L)))
        .next (((s.unclean g.block).newId.releaseAcc gid g s.own.ids .mwr f phys b g.ctl.exm inputs).advance gid f.bytes)

/-- Whether the core still holds a store to some bytes, or the group an access of its own. -/
def State.unlanded (s : State) (gid n key len : Nat) : Bool :=
  !(s.before gid s.own.ids).isEmpty || !(s.xfersBefore gid s.own.ids).isEmpty ||
  s.accs.any (fun a => a.node = n && !a.isLoad && a.parts.any (fun p => match s.place p.loc with
    | none => false
    | some k => p.peer.isNone && k < key + len && key < k + p.len))

/-- The pieces of a far-memory run of an mspill or mfill: other spaces raise DSPACE (spec 09, R212); the spec gives no
TRAPAUX code for tile space (log entry 27). -/
def farRun (s : State) (gid : Nat) (g : Group) (write : Bool) (va : Dword) (n : Nat) (k : List Piece → Res) : Res :=
  match s.check g { write := write, noField := write, align := 128, scr := false, clu := false, priv := false, peer := false } n [(0, va)] with
  | .error e => s.raiseNow gid g true e
  | .ok l =>
    let ps := l.flatMap (·.2)
    if ps.any (fun p => match p.tgt with | .here (.mem key) _ => 2 ^ 39 ≤ key | _ => true) then
      .next (s.trap gid .dspace g.ctl.exm va (Config.freeDword s.own.fresh 27))
    else k ps

/-- The key and interleave scheme of a piece on this device. -/
def Piece.at_ (p : Piece) : Nat × Nat := match p.tgt with | .here (.mem key) pte => (key, pteIl pte) | _ => (0, 0)

/-- MSPILL (spec 09, R212): writes at the homes, and completes within the instruction. -/
def execMspill (f : Fields) (s : State) : Res :=
  issue (rowMspill f) f s fun gid g => notVisitor s gid g <|
    farRun s gid g true (s.readSP g f.a) 4096 fun ps =>
      let d := f.d.toNat
      if s.accBusy g.owner d || ps.any (fun p => s.unlanded gid g.owner p.at_.1 p.len) then .next (s.stall gid .home)
      else
        if s.accSpoilt g.owner [d] then .next (s.consume gid) else
        let bs := s.accBytes g.owner d
        let s := (s.lookUps g [s.readSP g f.a]).unclean g.block
        let s := ps.foldl (fun s p => (s.writeAt p.at_.2 p.at_.1 ((bs.drop p.off).take p.len) none).1) s
        .next (s.advance gid f.bytes)

/-- MFILL (spec 09, R212). -/
def execMfill (f : Fields) (s : State) : Res :=
  issue (rowMfill f) f s fun gid g => notVisitor s gid g <|
    farRun s gid g false (s.readSP g f.a) 4096 fun ps =>
      let d := f.d.toNat
      if s.accBusy g.owner d || ps.any (fun p => s.unlanded gid g.owner p.at_.1 p.len) then .next (s.stall gid .home)
      else
        let (s, x) := ps.foldl (fun (r : State × Option (List Byte)) p =>
          let (s, y) := r.1.readAt p.at_.2 p.at_.1 p.len
          (s, match r.2, y with | some a, some b => some (a ++ b) | _, _ => none)) (s.lookUps g [s.readSP g f.a], some [])
        match x with
        | none => .next (s.consume gid)
        | some bs => .next ((s.fillAcc g.owner d bs).advance gid f.bytes)

/-- MTAG (spec 09, R212). -/
def execMtag (f : Fields) (s : State) : Res :=
  issue (rowMtag f) f s fun gid g => notVisitor s gid g <|
    let d := f.d.toNat
    if s.accBusy g.owner d then .next (s.stall gid .home)
    else .next ((s.setTags g.owner [d] ((s.readS g f.a).truncate 8)).advance gid f.bytes)

/-! ### Completion (spec 09, R202, R207, R208) -/

/-- A byte of an operand register of a gang member at the release, or a free value where it was written since. -/
def MatOp.regByte (o : MatOp) (s : State) (m r L b : Nat) : Nat :=
  let k := (o.members.getD m 0) * 8192 + 32 * r + L
  let w := if o.taint.contains k then Config.freeWord s.own.fresh (0x2000000 + k) else Sparse.get 0 o.inputs k
  w.toNat / 256 ^ b % 256

/-- Byte b of row or column i of an operand whose registers begin at `base` (spec 09, R199). -/
def MatOp.panelByte (o : MatOp) (s : State) (base i b : Nat) : Nat :=
  let g := o.members.length
  o.regByte s (i / 16 % g) (base + 8 * (i / 16 / g) + i % 16 / 2) (16 * (i % 2) + b / 4) (b % 4)

/-- The scale byte of row or column i: byte 16s + rr of the member's last register (spec 09, R200). -/
def MatOp.panelScale (o : MatOp) (s : State) (base panels i : Nat) : Nat :=
  let g := o.members.length
  let n := 16 * (i / 16 / g) + i % 16
  o.regByte s (i / 16 % g) (base + 8 * ((panels + g - 1) / g)) (n / 4) (n % 4)

/-- A byte of a block's scratchpad as a matrix operation reads it: a store that landed since its release leaves it open
(spec 13, R291), and so does a far-memory sector that the symbol code does not correct (spec 14, R335). -/
def MatOp.memByte (o : MatOp) (s : State) (bid off : Nat) : Nat :=
  match s.block bid with
  | none => 0
  | some b => match s.place (.scr b.grid b.lin off) with
    | none => 0
    | some k => if o.seq < Sparse.get 0 s.own.touched k || s.mixed k || (k < 2 ^ 39 && s.ecc ownIl (k / 32) ∈ [Ecc.wrong, .bad]) then
        (Config.freeByte s.own.fresh (0x3000000 + off)).toNat
      else (Mem.rd s.mem k).toNat

/-- The format word of an operation: a write to the C register of a member of the joint operation since the release leaves it open (spec 13, R291). -/
def MatOp.word (o : MatOp) (s : State) : Word :=
  if o.taint.any (fun k => k % 8192 / 32 = o.f.c.toNat) then
    Config.freeWord s.own.fresh (0x4000000 + o.id)
  else o.fmt

/-- Which of the four participants an mmac is of (spec 09, R204). -/
def MatOp.quadrant (o : MatOp) : Nat := ((List.range 4).find? (fun q => (o.peers.getD q (0, 0, 0)).1 = o.block)).getD 0

/-- The runs of scratchpad that an operation reads: block, offset and length (spec 09, R204, R209). -/
def MatOp.runs (o : MatOp) (s : State) : List (Nat × Nat × Nat) :=
  match o.kind with
  | .mlda => [(o.block, o.off, 4096 * o.blocks.length)]
  | .mmac => (List.range 4).flatMap (fun p =>
      let r := o.peers.getD p (0, 0, 0)
      (if p / 2 = o.quadrant / 2 then [(r.1, r.2.1, if codeScaled (fmtA (o.word s)) then 4160 else 4096)] else []) ++
        (if p % 2 = o.quadrant % 2 then [(r.1, r.2.2, if codeScaled (fmtB (o.word s)) then 6240 else 6144)] else []))
  | _ => []

/-- The places that an operation reads, sector by sector. -/
def MatOp.reads (o : MatOp) (s : State) : List Nat :=
  (o.runs s).flatMap (fun r => match s.block r.1 with
    | none => []
    | some b => (List.range (r.2.2 / 32)).filterMap (fun i => s.place (.scr b.grid b.lin (r.2.1 + 32 * i))))

/-- Reads of a block's engine at their homes, an uncorrectable one consumed by the block (spec 14, R335; spec 18, R399). -/
def State.readFor (s : State) (bid : Nat) (keys : List Nat) : State :=
  keys.foldl (fun s k => match s.readAt ownIl k 32 with
    | (s, some _) => s
    | (s, none) => s.consumeBlock bid) s

/-- Whether an operation reads the accumulator blocks that it names: mrd, msta, and mma and mmac unless they start from zero. -/
def MatOp.takesAcc (o : MatOp) : Bool :=
  match o.kind with
  | .mrd | .msta => true
  | .mma | .mmac => !o.f.m 3
  | .mzero | .mlda | .mwr => false

/-- Element k of row i of A, or of column j of B, of an mma. -/
def MatOp.mmaA (o : MatOp) (s : State) (i k : Nat) : Elem :=
  rowElem (fmtA (o.word s)) (o.panelByte s o.f.a.toNat i) (o.panelScale s o.f.a.toNat ((shapeOf o.f).1 / 16) i) k
def MatOp.mmaB (o : MatOp) (s : State) (j k : Nat) : Elem :=
  rowElem (fmtB (o.word s)) (o.panelByte s o.f.b.toNat j) (o.panelScale s o.f.b.toNat ((shapeOf o.f).2 / 16) j) k

/-- Element k of row i of A, or of column j of B, of a quadrant (qi, qj) of an mmac (spec 09, R204). -/
def MatOp.mmacA (o : MatOp) (s : State) (qi i k : Nat) : Elem :=
  let p := o.peers.getD (2 * qi + i / 64) (0, 0, 0)
  rowElem (fmtA (o.word s)) (fun b => o.memByte s p.1 (p.2.1 + 64 * (i % 64) + b)) (o.memByte s p.1 (p.2.1 + 4096 + i % 64)) k
def MatOp.mmacB (o : MatOp) (s : State) (qj j k : Nat) : Elem :=
  let p := o.peers.getD (2 * (j / 96) + qj) (0, 0, 0)
  rowElem (fmtB (o.word s)) (fun b => o.memByte s p.1 (p.2.2 + 64 * (j % 96) + b)) (o.memByte s p.1 (p.2.2 + 6144 + j % 96)) k

/-- The tile of a joint operation, as accumulator elements (spec 09, R201, R202). -/
def MatOp.tile (o : MatOp) (s : State) (rows cols : Nat) (a b : Nat → Nat → Elem) : List (Nat × Word) :=
  (List.range rows).flatMap (fun i => (List.range cols).map (fun j =>
    let blk := o.blocks.getD (i / 32 * (cols / 32) + j / 32) 0
    let old := if o.f.m 3 then 0 else s.accWord o.node blk (i % 32) (j % 32)
    (accKey blk (i % 32) (j % 32), matElem (o.word s) old (a i) (b j))))

/-- Whether an operation waits: an earlier one of its core names one of its blocks, be it still in a FIFO (spec 09, R208), or an
acquire that precedes it in a member has not been performed, which its scratchpad accesses follow (spec 13, R289), as they follow the stores
that the core's groups see. -/
def State.mopWaits (s : State) (o : MatOp) : Bool :=
  s.mops.any (fun p => p.id < o.id && p.node = o.node && p.blocks.any (fun b => o.blocks.contains b)) ||
    s.accQueued o.node o.blocks o.id ||
    ((o.kind = .mlda || o.kind = .msta || o.kind = .mmac) && (o.since.any (fun p => s.acquiring p.1 p.2) || s.seenPending o.node))

/-- Whether a command was issued before its block's checkpoint: what it writes after it makes the interval unclean (spec 18, R397). -/
def State.olderThanCheckpoint (s : State) (bid id : Nat) : Bool :=
  match s.block bid with
  | none => false
  | some b => match b.shadow with | none => false | some sh => id < sh.since

/-- MATRIX_COMPLETE: the operation has its effect, in the order of the core (spec 09, R207, R208). -/
def execMatrixComplete (op : Nat) (s : State) : Res :=
  match s.mops.find? (fun o => o.id = op) with
  | none => .next s
  | some o =>
    if s.mopWaits o then .next s
    else
      let gid := o.members.headD 0
      let s' := { s with mops := s.mops.filter (fun p => p.id ≠ o.id) }.readFor o.block (o.reads s)
      let s' := if o.takesAcc && s.accSpoilt o.node o.blocks then s'.consumeBlock o.block else s'
      let place (i : Nat) : Option Nat := match s.block o.block with
        | none => none
        | some b => s.place (.scr b.grid b.lin (o.off + i))
      let t := match o.kind with
        | .mma => s'.putAcc o.node (o.tile s (shapeOf o.f).1 (shapeOf o.f).2 (o.mmaA s) (o.mmaB s))
        | .mmac =>
          s'.putAcc o.node (o.tile s 128 192 (o.mmacA s (o.quadrant / 2)) (o.mmacB s (o.quadrant % 2)))
        | .mzero => s'.putAcc o.node (o.blocks.flatMap (fun b => (List.range 1024).map (fun i => (b * 1024 + i, 0))))
        | .mlda => (List.range o.blocks.length).foldl (fun (t : State) m =>
            t.fillAcc o.node (o.blocks.getD m 0) ((List.range 4096).map (fun i =>
              BitVec.ofNat 8 (o.memByte s o.block (o.off + 4096 * m + i))))) s'
        | .msta => (List.range o.blocks.length).foldl (fun (t : State) m => match place (4096 * m) with
            | none => t
            | some k => (t.logBytes o.block gid k 4096).writeRun ownIl k (s.accBytes o.node (o.blocks.getD m 0)))
            (if s.olderThanCheckpoint o.block o.id then s'.unclean o.block else s')
        | .mrd => (List.range (o.f.mf 5 1 + 1)).foldl (fun (t : State) i =>
            t.deliverV gid (o.f.d.toNat + i) ((lanesOf o.lanes).map (fun L => (L, s.accWord o.node (o.blocks.headD 0) (o.off + i) L))) true 0) s'
        | .mwr => s'.putAcc o.node (o.inputs.map (fun (p : Nat × Word) => (accKey (o.blocks.headD 0) (o.off + p.1 / 32) (p.1 % 32), p.2)))
      .next (((t.pumpMatrix o.node).tryRetire gid).reap)

/-- LATCH_STALLED_LONG: a wait at the latch of more than 32 cycles counts for the exchange rules (spec 09, R194). -/
def execLatchStalledLong (gid : Nat) (s : State) : Res :=
  match s.group gid with
  | none => .next s
  | some g => match g.sched.hold with
    | .latch t false =>
      if t + 32 < s.clock.toNat then .next (s.setGroup gid { g with sched := { g.sched with hold := .latch t true } })
      else .next s
    | _ => .next s

end Sys2Proof.Machine
end

