-- ==== Sys2Proof/Machine/Barrier.lean ====
section
/-! DEFINITION. Barrier objects (spec 01, R29 to R31; spec 10, R234, R235), and the block, cluster and
hierarchical barriers (R239, R240) with the rollback checkpoint (spec 18, R396). -/

namespace Sys2Proof.Machine

open Sys2Proof

/-! ### Barrier objects -/

/-- A barrier object (spec 01, R30). -/
structure Obj where
  valid : Bool
  phase : Word
  count : Nat
  left : Nat
  bytes : Int
  deriving DecidableEq, Repr

/-- The memory key of object k of a block: offset size − 256 + 16k of its allocation (spec 01, R29). -/
def State.objKey (s : State) (b : Block) (k : Nat) : Option Nat := s.place (.scr b.grid b.lin (s.pagesOf b * 4096 - 256 + 16 * k))

/-- An object read from its 16 bytes. -/
def objOf (bs : List Byte) : Obj :=
  { valid := 128 ≤ field bs 15 1, phase := BitVec.ofNat 32 (field bs 8 4), count := field bs 6 2, left := field bs 4 2,
    bytes := intOf 32 (field bs 0 4) }

/-- An object's 16 bytes. -/
def Obj.toBytes (o : Obj) : List Byte :=
  leBytes (BitVec.ofInt 32 o.bytes).toNat 4 ++ leBytes o.left 2 ++ leBytes o.count 2 ++ leBytes o.phase.toNat 4 ++ [0, 0, 0, if o.valid then 128 else 0]

/-- Object k of a block. -/
def State.obj (s : State) (bid k : Nat) : Option Obj :=
  match s.block bid with
  | none => none
  | some b => (s.objKey b k).map (fun key => objOf (s.look key 16))

/-- Writes an object; the line that it changes enters the log of a group for rollback (spec 18, R396). -/
def State.putObj (s : State) (bid gid k : Nat) (o : Obj) : State :=
  match s.block bid with
  | none => s
  | some b => match s.objKey b k with
    | none => s
    | some key =>
      let s := s.logBytes bid gid key 16
      s.writeStack key o.toBytes

/-- One whole update: bytes added, then one arrival; a phase with nothing left completes once (spec 01, R31). -/
def Obj.update (o : Obj) (add : Int) (arrive : Bool) : Obj :=
  let o := { o with bytes := intOf 32 (BitVec.ofInt 32 (o.bytes + add)).toNat, left := if arrive then o.left - 1 else o.left }
  if o.left = 0 && o.bytes = 0 then { o with phase := o.phase + 1, left := o.count } else o

/-- Whether BYTES leaves its range. -/
def Obj.wraps (o : Obj) (add : Int) : Bool := o.bytes + add < -(2 ^ 31) || 2 ^ 31 ≤ o.bytes + add

/-- The groups that wait for a phase that is now complete may issue: wake bits for their cores (spec 01, R36). -/
def State.rousePhase (s : State) (bid k : Nat) (o : Obj) (why : Word) : State :=
  s.groups.foldl (fun s p => match p.2.sched.hold with
    | .phase j n => if p.2.block = bid && j = k && wrapGt o.phase n then s.unpark p.1 why else s
    | _ => s) s

/-- An engine delivery or expect: BYTES wraps, and the object is marked for the block's next abwait (spec 10, R235). -/
def State.objDeliver (s : State) (bid gid k : Nat) (add : Int) : State :=
  match s.obj bid k with
  | none => s
  | some o =>
    let s := if o.wraps add then s.modBlock bid (fun b => { b with badObj := b.badObj ||| (1#16 <<< k) }) else s
    let o' := o.update add false
    (s.putObj bid gid k o').rousePhase bid k o' (if o'.phase = o.phase then 0 else 6)

/-- SYNCBAD (spec 10, R235). -/
def syncBad (s : State) (gid reason k : Nat) : Res := .next (s.trapPlain gid .syncbad (BitVec.ofNat 64 (reason + 256 * k)))

/-- A group's update of an object (spec 10, R234, R235). Where several reasons hold, the order in which they are tested is the model's
(log entry 120). -/
def objOp (s : State) (gid : Nat) (g : Group) (k : Nat) (n : Nat) (add : Int) (arrive : Bool) (big : Bool) : Res :=
  match s.obj g.block k with
  | none => .next s
  | some o =>
    if !o.valid then syncBad s gid 1 k
    else if arrive && o.left = 0 then syncBad s gid 4 k
    else if big || o.wraps add then syncBad s gid 5 k
    else if arrive && s.unreleased gid s.own.ids 1 then .next (s.stall gid .order)
    else
      let o' := o.update add arrive
      let s := if arrive then s.pointHere gid else s
      .next (((s.putObj g.block gid k o').rousePhase g.block k o' 2).advance gid n)

/-- ABINIT (spec 10, R234, R235; the order of reasons 2 and 3 is log entry 120). -/
def execAbinit (f : Fields) (s : State) : Res :=
  issue (rowAbinit f) f s fun gid g => notVisitor s gid g <|
    let k := f.a.toNat
    let b := (s.opB g (rowAbinit f) f 0).toNat
    match s.obj g.block k with
    | none => .next s
    | some o =>
      if b = 0 || 65535 < b then syncBad s gid 2 k
      else if o.valid && (o.left ≠ o.count || o.bytes ≠ 0) then syncBad s gid 3 k
      else
        let o' : Obj := { valid := true, phase := if o.valid then o.phase else 0, count := b, left := b, bytes := 0 }
        .next ((s.putObj g.block gid k o').advance gid f.bytes)

/-- ABARV (spec 10, R234): an arrival, a release at .cor. -/
def execAbarv (f : Fields) (s : State) : Res :=
  issue (rowAbarv f) f s fun gid g => notVisitor s gid g <| objOp s gid g f.a.toNat f.bytes 0 true false

/-- ABEXP (spec 10, R234): expected bytes, and with ARV one arrival in the same update. -/
def execAbexp (f : Fields) (s : State) : Res :=
  issue (rowAbexp f) f s fun gid g => notVisitor s gid g <|
    let b := (s.opB g (rowAbexp f) f 0).toNat
    objOp s gid g f.a.toNat f.bytes (b : Int) (f.m 1) (2 ^ 31 ≤ b)

/-- The deferred failures of a group that `p` selects become pending traps (spec 10, R230; spec 11, R254). -/
def State.raiseDeferred (s : State) (gid : Nat) (p : Nat → Bool) : State :=
  match s.group gid with
  | none => s
  | some g =>
    let s := s.setGroup gid { g with out := { g.out with objFail := g.out.objFail.filter (fun x => !p x.1) } }
    (g.out.objFail.filter (fun x => p x.1)).foldl (fun s x => s.raise gid x.2) s

/-- ABWAIT (spec 10, R234, R235): until the phase has completed; an acquire at .cor. -/
def execAbwait (f : Fields) (s : State) : Res :=
  issue (rowAbwait f) f s fun gid g => notVisitor s gid g <|
    let k := f.a.toNat
    let n := s.readS g f.b
    match s.obj g.block k, s.block g.block with
    | some o, some b =>
      if !o.valid then syncBad s gid 1 k
      else if b.badObj.getLsbD k then
        -- in a skid the instruction is not issued, and the mark stays (spec 18, R386)
        syncBad (if g.sched.skidLeft.isSome then s else s.setBlock g.block { b with badObj := b.badObj &&& ~~~(1#16 <<< k) }) gid 5 k
      else if wrapGt o.phase n then
        let lost := b.objFail.filter (fun x => x.1 = k)
        let s := s.setBlock g.block { b with objFail := b.objFail.filter (fun x => x.1 ≠ k) }
        .next (lost.foldl (fun s x => s.raise gid x.2) ((s.advance gid f.bytes).raiseDeferred gid (· = k)))
      else .next (s.stall gid (.phase k n))
    | _, _ => .next s

/-! ### Barriers (spec 10, R239, R240) -/

/-- A group passes a barrier: an evicted group's saved PC moves on (spec 18, R391), and a halted group's HALTPC follows its PC. -/
def State.passBarrier (s : State) (gid n : Nat) : State :=
  match s.group gid with
  | none => s
  | some g =>
    match s.imageOf g with
    | some a =>
      (s.writeRun ownIl (a + 528) (leBytes ((s.lookNum (a + 528) 8 + n) % 2 ^ 64) 8)).setGroup gid
        { g with sched := { g.sched with hold := .none } }
    | none =>
      let t := s.setGroup gid (g.past n)
      if g.sched.skidLeft.isSome then t else t.rouse g.owner 2

/-- A checkpoint of a block with a shadow: every group's context, an empty log, a clean interval (spec 18, R396). -/
def State.checkpoint (s : State) (bid : Nat) : State :=
  let s := s.newId
  s.modBlock bid (fun b => match b.shadow with
    | none => b
    | some _ => { b with shadow := some { since := s.own.ids, groups := s.groups.filter (fun (p : Nat × Group) => p.2.block = bid && p.2.visitor.isNone),
                                          log := [], clean := true, rolled := false } })

/-- The live groups of some blocks. -/
def liveOf (l : List (Nat × Block)) : List Nat := l.flatMap (fun p => p.2.live)

/-- Whether a halted group holds a barrier up (spec 18, R386). The arrivals of a block that an eviction alone has stopped
stand (spec 17, R368). -/
def State.holdsUp (s : State) (g : Group) : Bool :=
  g.sched.dhalt || (g.sched.skidLeft.isSome &&
    (match s.block g.block with
      | none => true
      | some b => b.thalt || b.dhalt || !(b.evicting || b.saved.isSome)))

/-- Whether every one of some groups has arrived at the barrier of a hold. -/
def State.allHold (s : State) (gids : List Nat) (h : Hold) : Bool :=
  gids.all (fun i => match s.group i with | none => true | some g => !s.holdsUp g && g.sched.hold = h)

/-- Whether the blocks of a cluster that have not been placed are still to come. -/
def State.clusterPlaced (s : State) (b : Block) : Bool :=
  match s.grid b.grid with
  | none => true
  | some x => x.todo.all (fun l => l / b.k.clsz ≠ b.lin / b.k.clsz)

/-- The blocks at a level of barh, and whether every block of the level has been placed (spec 10, R240). -/
def State.level (s : State) (b : Block) (level : Nat) : List (Nat × Block) × Bool :=
  let grid := s.blocks.filter (fun p => p.2.grid = b.grid)
  let todo := match s.grid b.grid with | none => [] | some x => x.todo
  match level with
  | 0 => (grid.filter (fun p => p.2.lin / b.k.team = b.lin / b.k.team), todo.all (fun l => l / b.k.team ≠ b.lin / b.k.team))
  | 1 => (grid.filter (fun p => dieOf p.2.core = dieOf b.core), todo.isEmpty)
  | _ => (grid, todo.isEmpty)

/-- The blocks whose live groups take part in the barrier that a hold waits at, and whether all of them have been placed; none
where it is no barrier (spec 10, R239). -/
def State.barrier (s : State) (bid : Nat) (b : Block) (h : Hold) : Option (List (Nat × Block) × Bool) :=
  match h with
  | .bar => some ([(bid, b)], true)
  | .barc => some (s.cluster b, s.clusterPlaced b)
  | .barh l => some (s.level b l)
  | _ => none

/-- What a released barrier does once its groups have passed it: the checkpoint of bar (spec 18, R396), the acquire at .dev of
barh on every core (spec 07, R155). -/
def State.barrierDone (s : State) (bid : Nat) (h : Hold) (blocks : List (Nat × Block)) : State :=
  match h with
  | .bar => s.checkpoint bid
  | .barh _ => blocks.foldl (fun s p => s.acquired p.2.core 3) s
  | _ => s

/-- The state after the barrier at which a group waits opens, when all its participants have arrived. A barrier instruction is
8 bytes long. -/
def State.openBarrier (s : State) (gid : Nat) : Option State :=
  match s.group gid with
  | none => none
  | some g =>
    match s.block g.block with
    | none => none
    | some b =>
      match s.barrier g.block b g.sched.hold with
      | none => none
      | some (blocks, placed) =>
        if placed && s.allHold (liveOf blocks) g.sched.hold then
          some (((liveOf blocks).foldl (fun s i => s.passBarrier i 8) s).barrierDone g.block g.sched.hold blocks)
        else none

/-- Opens the barriers that a retirement has completed (spec 10, R239). -/
def State.openBarriers (s : State) : State := s.groups.foldl (fun s p => (s.openBarrier p.1).getD s) s

/-- A group arrives at a barrier: it is the last, or it waits. -/
def State.arriveBarrier (s : State) (gid : Nat) (h : Hold) : State := ((s.park gid h).openBarrier gid).getD (s.stall gid h)

/-- What a barrier's release must wait for before the group arrives (spec 07, R157): at the scope, and, in a block with a
shadow, also its registers and its own stores (spec 18, R396). -/
def State.notYet (s : State) (gid : Nat) (g : Group) (scope : Nat) (bar : Bool) : Bool :=
  s.unreleased gid s.own.ids scope ||
  (bar && (match s.block g.block with
    | none => false
    | some b => b.shadow.isSome && (g.regs.vempty ≠ 0 || g.regs.sempty ≠ 0 || s.accs.any (fun a => a.gid = gid && a.isStore))))

/-- BAR: every live group of the block; release, then acquire, at .cor; the checkpoint. -/
def execBar (f : Fields) (s : State) : Res :=
  issue (rowBar f) f s fun gid g => notVisitor s gid g <|
    -- the stores held of the group enter the ordinary path first (spec 18, R398)
    let s := s.unhold (· = gid)
    .next (if s.notYet gid g 1 true then s.stall gid .barOrder else (s.pointHere gid).arriveBarrier gid .bar)

/-- BARC: every live group of every block of the cluster, at .clu. -/
def execBarc (f : Fields) (s : State) : Res :=
  issue (rowBarc f) f s fun gid g => notVisitor s gid g <|
    let s := s.drainHeld g 2
    .next (if s.notYet gid g 2 false then s.stall gid .barOrder else (s.pointHere gid).arriveBarrier gid .barc)

/-- BARH: every live group of every block at the level that A names, at .dev. -/
def execBarh (f : Fields) (s : State) : Res :=
  issue (rowBarh f) f s fun gid g => notVisitor s gid g <|
    match s.block g.block with
    | none => .next s
    | some b =>
      let level := f.a.toNat
      let resident := match s.grid b.grid with | none => false | some x => x.flags.getLsbD 1
      let mixed := b.live.any (fun i => match s.group i with
        | none => false
        | some h => match h.sched.hold with | .barh l => l ≠ level | _ => false)
      if !resident || mixed then syncBad s gid 7 0
      else
        let s := s.drainHeld g 3
        .next (if s.notYet gid g 3 false then s.stall gid .barOrder else (s.pointHere gid).arriveBarrier gid (.barh level))

end Sys2Proof.Machine
end

