-- ==== Sys2Proof/Machine/Engine.lean ====
section
/-! DEFINITION. The copy engine's commands (spec 10, R222 to R238): shape records, the checks at issue, the cells,
batches, and guard slots. -/

namespace Sys2Proof.Machine

open Sys2Proof

/-! ### The tensor shape record (spec 10, R222 to R224) -/

/-- A shape record as a command reads it; dimensions at or above NDIM have BOX 1 and act as coordinate 0. -/
structure Shape where
  base : Nat
  ndim : Nat
  esz : Nat
  fmt : Nat
  had : Bool
  scl : Bool
  cache : Nat
  srow : Nat
  seed : Word
  ext : List Nat
  stride : List Int
  box : List Nat
  rawBox : List Nat
  scaleBase : Nat
  sstride : List Int
  reserved : Bool
  deriving DecidableEq, Repr

def shapeOfBytes (r : List Byte) : Shape :=
  let ctl := field r 8 2
  let n := ctl % 8
  let raw := (List.range 5).map (fun d => field r (72 + 2 * d) 2)
  { base := field r 0 8, ndim := n, esz := ctl / 8 % 8, fmt := ctl / 64 % 16, had := ctl / 1024 % 2 = 1, scl := ctl / 2048 % 2 = 1,
    cache := ctl / 4096 % 4, srow := field r 10 2, seed := BitVec.ofNat 32 (field r 12 4),
    ext := (List.range 5).map (fun d => field r (16 + 4 * d) 4),
    stride := 0 :: (List.range 4).map (fun d => intOf 64 (field r (40 + 8 * d) 8)),
    box := (List.range 5).map (fun d => if d < n then raw.getD d 1 else 1), rawBox := raw,
    scaleBase := field r 88 8,
    sstride := 0 :: (List.range 4).map (fun d => intOf 32 (field r (96 + 4 * d) 4)),
    reserved := ctl / 2 ^ 14 ≠ 0 || field r 36 4 ≠ 0 || field r 82 6 ≠ 0 || field r 112 80 ≠ 0 }

/-- Element bits. -/
def Shape.eb (h : Shape) : Nat := match h.esz with | 0 => 4 | 1 => 8 | 2 => 16 | 3 => 32 | _ => 64

def Shape.rb (h : Shape) : Nat := h.box.getD 0 1 * h.eb / 8
def Shape.rows (h : Shape) : Nat := h.box.getD 1 1 * h.box.getD 2 1 * h.box.getD 3 1 * h.box.getD 4 1
def Shape.sp (h : Shape) : Nat := if h.srow = 0 then h.rb else h.srow

/-- Whether scale bytes move, and how many per row. -/
def Shape.scales (h : Shape) : Bool := h.scl && 8 ≤ h.fmt && h.fmt ≤ 11
def Shape.perRow (h : Shape) : Nat := h.box.getD 0 1 / 128

/-- The lowest reason for which a record is invalid for a command, 0 for none (spec 10, R224). -/
def Shape.bad (h : Shape) (load gather : Bool) (o0 : Int) : Nat :=
  let dims := List.range h.ndim
  if h.ndim = 0 || 5 < h.ndim then 1
  else if 4 < h.esz || (h.fmt ≠ 0 && (12 ≤ h.fmt || codeWidth h.fmt ≠ h.eb)) then 2
  else if dims.any (fun d => let b := h.rawBox.getD d 0; b = 0 || (if d = 0 then 4096 else 256) < b) then 3
  else if h.box.getD 0 1 * h.eb % 128 ≠ 0 then 4
  else if h.srow ≠ 0 && (h.srow % 16 ≠ 0 || h.srow < h.rb) then 5
  else if h.base % 16 ≠ 0 || dims.any (fun d => h.stride.getD d 0 % 16 ≠ 0) then 6
  else if h.had && (!load || h.esz ≠ 3 || h.fmt ≠ 0 || h.box.getD 0 1 % 128 ≠ 0 || o0 % 128 ≠ 0) then 7
  else if h.scl && (!(8 ≤ h.fmt && h.fmt ≤ 11) || h.box.getD 0 1 % 128 ≠ 0 || o0 % 128 ≠ 0) then 8
  else if h.esz = 0 && o0 % 2 ≠ 0 then 9
  else if h.reserved || h.cache = 3 then 10
  else if gather && (h.ndim ≠ 2 || h.scl) then 11
  else 0

/-- The byte count of a box command (spec 10, R223). -/
def Shape.count (h : Shape) : Nat := h.rb * h.rows + if h.scales then h.rows * h.perRow else 0

/-- The end of the data from E (spec 10, R229). -/
def Shape.last (h : Shape) : Nat :=
  if h.scales then h.rows * h.sp + h.rows * h.perRow else (h.rows - 1) * h.sp + h.rb

/-- How many pieces of at most 128 bytes a row has, and a whole box. -/
def Shape.chunks (h : Shape) : Nat := (h.rb + 127) / 128
def Shape.pieces (h : Shape) : Nat :=
  h.rows * h.chunks + if h.scales then (h.rows * h.perRow + 127) / 128 else 0

/-! ### The record cache (spec 10, R225; spec 17, R383) -/

/-- A cached record that memory no longer holds may show any mixture of old and new eight-byte words. -/
def mixWords (fresh : Nat) (old new : List Byte) : List Byte :=
  (List.range 24).flatMap (fun i => ((if Config.freeBool fresh (0x4000000 + i) then new else old).drop (8 * i)).take 8)

/-- The cached record of an address and context. -/
def State.cachedRec (s : State) (n : Nat) (c : BitVec 8) (addr : Nat) : Option RecLine :=
  (s.node n).recs.find? (fun r => r.addr = addr && r.ctx = c)

/-- A record enters the cache, in place of the least recently used of 32. -/
def State.cacheRec (s : State) (n : Nat) (c : BitVec 8) (addr : Nat) (bs : List Byte) : State :=
  s.modNode n (fun x =>
    let rest := x.recs.filter (fun r => !(r.addr = addr && r.ctx = c))
    let lru := least s.clock.toNat (rest.map (·.used))
    let rest := if 32 ≤ rest.length then rest.eraseP (fun r => r.used = lru) else rest
    { x with recs := rest ++ [{ addr := addr, ctx := c, rcd := bs, used := s.clock.toNat }] })

/-- TRF (spec 10, R225). -/
def execTrf (f : Fields) (s : State) : Res :=
  issue (rowTrf f) f s fun gid g => notVisitor s gid g <|
    let a := (s.readSP g f.a).toNat
    .next ((s.modNode g.owner (fun x => { x with recs := x.recs.filter (fun r => !(r.addr = a && r.ctx = g.ctx)) })).advance gid f.bytes)

/-- What a group sees of memory at checked pieces. -/
def State.viewNow (s : State) (gid : Nat) (g : Group) (ps : List Piece) : List Byte :=
  let a := { accessOf gid g (.load 4) with id := s.own.ids }
  ps.flatMap (fun p => match p.tgt with
    | .peer .. => []
    | .here loc _ => match s.place loc with
      | none => []
      | some key => (s.loadBytes a key (s.look key p.len)).1)

/-! ### Completion of batches (spec 10, R236), and guards (R238) -/

/-- Whether a command is still to complete. -/
def State.cmdPending (s : State) (gid id : Nat) : Bool :=
  s.cmds.any (fun c => c.id = id) || (match s.group gid with | none => false | some g => g.eng.copyQ.any (fun c => c.id = id))

/-- The closed batches that are complete leave, in order: BATCHDONE follows. -/
def settle (pending : Nat → Bool) (done : Word) : List (Word × List Nat) → Word × List (Word × List Nat)
  | [] => (done, [])
  | b :: bs => if b.2.any pending then (done, b :: bs) else settle pending b.1 bs

/-- The key under which a batch's failures wait (beside the objects 0 to 15), and that of a command of no closed batch. -/
def batchKey (n : Word) : Nat := 16 + n.toNat
def openKey (id : Nat) : Nat := 2 ^ 33 + id

/-- Batches settle; an evicted group's BATCHDONE follows in its image (spec 18, R391, R392). -/
def State.settleBatches (s : State) (gid : Nat) : State :=
  match s.group gid with
  | none => s
  | some g =>
    let r := settle (s.cmdPending gid) g.sys.batchdone g.eng.batches
    let s := match s.imageOf g with
      | none => s
      | some a => s.writeRun ownIl (a + 556) (leBytes r.1.toNat 4)
    s.setGroup gid { g with sys := { g.sys with batchdone := r.1 }, eng := { g.eng with batches := r.2 } }

/-- Groups whose bwait is now satisfied are woken (spec 01, R36). -/
def State.rouseBatch (s : State) (gid : Nat) : State :=
  match s.group gid with
  | none => s
  | some g => match g.sched.hold with
    | .batch n => if wrapGe g.sys.batchdone n then s.unpark gid 4 else s
    | _ => s

/-- What the head of a copy FIFO does at its slot's state: discarded commands leave, and one that its guard issues is held by no later
gset (spec 01, R24; spec 10, R231, R238). Answers the discarded commands and the FIFO. -/
def Group.settleHead (g : Group) : List Cmd → List Cmd × List Cmd
  | [] => ([], [])
  | c :: cs =>
    if c.gs = 0 then ([], c :: cs)
    else if g.keeps c then ([], { c with gs := 0 } :: cs)
    else if g.guard c.gs = 0 then ([], c :: cs)
    else (c :: (g.settleHead cs).1, (g.settleHead cs).2)

/-- Commands that a guard discards: a collective is over, and batches settle. -/
def State.discard (s : State) (gid : Nat) (l : List Cmd) : State :=
  l.foldl (fun s c =>
    let s := match c.kind with
      | .coll x => s.modBlock c.block (fun b => { b with colls := b.colls.filter (fun y => y.id ≠ x) })
      | _ => s
    (s.settleBatches gid).rouseBatch gid) s

/-- The head of a group's copy FIFO acts on its slot's state. -/
def State.settleCopy (s : State) (gid : Nat) : State :=
  match s.group gid with
  | none => s
  | some g =>
    let r := g.settleHead g.eng.copyQ
    (s.setGroup gid { g with eng := { g.eng with copyQ := r.2 } }).discard gid r.1

/-- GSET (spec 10, R238): what its state has held so far has acted on that state, then the slot's new state, and what it holds in the
matrix FIFOs. -/
def execGset (f : Fields) (s : State) : Res :=
  issue (rowGset f) f s fun gid g => notVisitor s gid g <|
    let n := f.a.toNat
    let v : BitVec 16 := if f.m 1 then 0 else if s.readS g f.b = 0 then 1 else 2
    let guards := (g.ctl.guards &&& ~~~(3#16 <<< (2 * n))) ||| (v <<< (2 * n))
    .next ((((s.settleCopy gid).modGroup gid (fun g => { g with ctl := { g.ctl with guards := guards } })).pumpMatrix g.owner).advance gid f.bytes)

/-! ### Issue (spec 10, R226 to R231) -/

/-- The use of a record's address. -/
def recordUse : Use := { align := 64, scr := false, clu := false, priv := false, peer := false }

/-- A failure of a checked command: cause, TRAPADDR, TRAPAUX. -/
def engTrap (s : State) (gid : Nat) (g : Group) (c : Cause) (addr aux : Nat) : Res :=
  .next (s.trap gid c g.ctl.exm (BitVec.ofNat 64 addr) (BitVec.ofNat 64 aux))

/-- The space code of DSPACE for a BASE that is not far memory or tile space (spec 07, R153). -/
def State.baseSpace (s : State) (g : Group) (va : Dword) : Nat :=
  if windowOf va ≠ 0 then windowOf va
  else if s.peerPage g.owner g.ctx va = some true then 4 else 0

def State.baseField (s : State) (g : Group) (va : Dword) : Bool :=
  match s.leaf g.owner g.ctx va with
  | .ok (e, _) => pteField e
  | .error _ => false

/-- A command enters its group's copy FIFO. -/
def enqueueCmd (s : State) (gid : Nat) (g : Group) (n : Nat) (batch : Bool) (c : Cmd) : Res :=
  if 8 ≤ g.eng.copyQ.length then .next (s.stall gid .copyFull)
  else
    let id := s.own.ids
    let eng := { g.eng with copyQ := g.eng.copyQ ++ [{ c with id := id }], openB := if batch then g.eng.openB ++ [id] else g.eng.openB }
    .next ((s.newId.setGroup gid { g with eng := eng }).advance gid n)

/-- The pattern of a group's command. -/
def cmdOf (gid : Nat) (g : Group) (k : CmdKind) (f : Fields) : Cmd :=
  { id := 0, gid := gid, block := g.block, node := g.owner, ctx := g.ctx, kind := k, rcd := [], org := [], e := 0, n := 0, obj := none,
    xpct := false, gs := f.gs.toNat, gneg := f.m 9, sup := g.priv, run := false, left := [], acked := [], fail := none, lost := none }

/-- The checks of R229 from precedence 4 on, with the record that has been read, and the command. -/
def boxIssue (k : CmdKind) (f : Fields) (s : State) (gid : Nat) (g : Group) (rcd : List Byte) : Res :=
  let addr := s.readSP g f.a
  let e := (s.readS g f.e).toNat
  let h := shapeOfBytes rcd
  let base := BitVec.ofNat 64 h.base
  let store := k = .store
  let gather := match k with | .gather _ => true | _ => false
  let lanes := lanesOf g.ctl.exm
  let org := if gather then [] else (g.readSQ f.b).map (·.toInt) ++ [(s.readS g f.c).toInt]
  let o0 : Int := if gather then 0 else org.getD 0 0
  let n := if gather then h.rb * lanes.length else h.count
  let last := if gather then (match lanes.getLast? with | none => 0 | some top => top * h.sp + h.rb) else h.last
  let space := s.baseSpace g base
  if space ≠ 0 then engTrap s gid g .dspace h.base space
  else if h.bad (k = .load) gather o0 ≠ 0 then engTrap s gid g .tdesc addr.toNat (h.bad (k = .load) gather o0)
  else if s.scrSize g < e + last && last ≠ 0 then engTrap s gid g .lbound e 1
  else if store && s.baseField g base then engTrap s gid g .fstore h.base 0
  else
    let valid := match s.obj g.block f.h.toNat with | none => false | some o => o.valid
    if !f.m 1 && !valid then engTrap s gid g .syncbad 0 (1 + 256 * f.h.toNat)
    else
      let kind : CmdKind := if gather then .gather (lanes.map (fun L => (L, (s.readV g f.b.toNat L).toInt))) else k
      let pieces := if gather then lanes.length * h.chunks else h.pieces
      let c : Cmd := { cmdOf gid g kind f with
        rcd := rcd, org := org, e := e, n := n, obj := if f.m 1 then none else some f.h.toNat, xpct := f.m 2,
        left := List.range pieces }
      enqueueCmd (if store then s.unclean g.block else s) gid g f.bytes (f.m 1) c

/-- tcopy, tcopys, gather: the checks of R229 in their order. A record in the cache is not read, so its address raises no XLATE (spec
10, R225; spec 17, R383); where memory has changed since, the command may use any mixture of its old and new words. -/
def boxCommand (k : CmdKind) (r : Row) (f : Fields) (s : State) : Res :=
  issue r f s fun gid g => notVisitor s gid g <|
    let addr := s.readSP g f.a
    let e := (s.readS g f.e).toNat
    let cached := s.cachedRec g.owner g.ctx addr.toNat
    let hit (line : RecLine) (now : List Byte) : Res :=
      let t := s.modNode g.owner (fun x => { x with
        recs := updWhere x.recs (fun r => r = line) (fun r => { r with used := s.clock.toNat }) })
      boxIssue k f t gid g (if now.length = 192 then mixWords s.own.fresh line.rcd now else line.rcd)
    match s.check g recordUse 192 [(0, addr)] with
    | .error x =>
      if x.cause ≠ .xlate && x.cause ≠ .uncorr then s.raiseNow gid g true x
      else if e % 16 ≠ 0 then engTrap s gid g .dalign e 0
      else (match cached with
        | none => s.raiseNow gid g true x
        | some line => hit line [])
    | .ok l =>
      if e % 16 ≠ 0 then engTrap s gid g .dalign e 0
      else match cached with
        | none =>
          let pend := (addr.toNat, g.ctx, gid)
          let s := if (s.node g.owner).fetching.contains pend then s
            else s.modNode g.owner (fun x => { x with fetching := x.fetching ++ [pend] })
          .next (s.stall gid (.record addr.toNat))
        | some line => hit line (s.viewNow gid g (l.flatMap (·.2)))

/-- TCOPY, TCOPYS, GATHER (spec 10, R227, R228). -/
def execTcopy (f : Fields) (s : State) : Res := boxCommand .load (rowTcopy f) f s
def execTcopys (f : Fields) (s : State) : Res := boxCommand .store (rowTcopys f) f s
def execGather (f : Fields) (s : State) : Res := boxCommand (.gather []) (rowGather f) f s

/-! ### Batches (spec 10, R236, R237) -/

/-- BCLOSE. -/
def execBclose (f : Fields) (s : State) : Res :=
  issue (rowBclose f) f s fun gid g => notVisitor s gid g <|
    if 32 ≤ g.eng.batches.length then .next (s.stall gid .batches)
    else
      let n := g.sys.batchseq + 1
      let mine := g.eng.openB.map openKey
      let fails := g.out.objFail.map (fun x => if mine.contains x.1 then (batchKey n, x.2) else x)
      let g := { g with
        sys := { g.sys with batchseq := n }
        eng := { g.eng with batches := g.eng.batches ++ [(n, g.eng.openB)], openB := [] }
        out := { g.out with objFail := fails } }
      .next ((((s.setGroup gid g).settleBatches gid).putDst gid f.d n).advance gid f.bytes)

/-- BWAIT: an acquire at .grp. -/
def execBwait (f : Fields) (s : State) : Res :=
  issue (rowBwait f) f s fun gid g => notVisitor s gid g <|
    let n := s.opA g (rowBwait f) f 0
    if wrapGt n g.sys.batchseq then syncBad s gid 6 0
    else if wrapGe g.sys.batchdone n then
      .next ((s.advance gid f.bytes).raiseDeferred gid (fun k => 16 ≤ k && k < 2 ^ 33 && wrapGe n (BitVec.ofNat 32 (k - 16))))
    else .next (s.stall gid (.batch n))

end Sys2Proof.Machine
end

