-- ==== Sys2Proof/Machine/Collective.lean ====
section
/-! DEFINITION. Multicast stores (spec 11, R245, R246; spec 21, R432, R433), collectives and remote copies (spec 11, R251 to
R254; spec 21, R434, R435). -/

namespace Sys2Proof.Machine

open Sys2Proof

/-! ### Tables in far memory -/

/-- The region registers by index: 0 DCREGION, 1 MCBASE, 2 COMMBASE, 3 DUMPFRAME (spec 25, R456). -/
def State.region (s : State) (k : Nat) : Nat := (Sparse.get 0 s.mgmt.regions k).toNat % 2 ^ 39

/-- A multicast table entry's address (spec 21, R432). -/
def State.mcastAt (s : State) (c : Nat) : Nat := s.region 1 + 256 * c
def State.mcastMembers (s : State) (c : Nat) : BitVec 512 := BitVec.ofNat 512 (s.lookNum (s.mcastAt c) 64)
def State.mcastFl (s : State) (c : Nat) : Nat := s.lookNum (s.mcastAt c + 136) 1

/-- A communicator (spec 21, R434): RANKS read as device numbers, FL VALID, NSEQ, CQ, SEQBASE. -/
structure Comm where
  devs : List Nat
  valid : Bool
  nseq : Nat
  cq : Nat
  seqBase : Nat
  deriving DecidableEq, Repr

def State.comm (s : State) (c : Nat) : Comm :=
  let a := s.region 2 + 32 * c
  let ranks := s.lookNum a 8 % 2 ^ 39
  { devs := (List.range (s.lookNum (a + 8) 2)).map (fun i => s.lookNum (ranks + 2 * i) 2),
    valid := s.lookNum (a + 10) 1 % 2 = 1, nseq := s.lookNum (a + 12) 4, cq := s.lookNum (a + 16) 8,
    seqBase := s.lookNum (a + 24) 8 % 2 ^ 39 }

/-! ### VSTMC -/

/-- The bytes of a vstmc by address on the members: a higher lane replaces a lower one. -/
def mcastBytes (l : List (Nat × List Piece)) (data : Nat → List Byte) : List (Nat × Byte) :=
  l.foldl (fun m x => x.2.foldl (fun m p => match p.tgt with
    | .peer _ a => (List.range p.len).foldl (fun m i => Sparse.put m (a + i) ((data x.1).getD (p.off + i) 0)) m
    | _ => m) m) []

/-- The distinct 128-byte lines of a sorted list of bytes. -/
def linesOf (l : List (Nat × Byte)) : List Nat :=
  l.foldl (fun acc p => if acc.contains (p.1 / 128) then acc else acc ++ [p.1 / 128]) []

/-- The peer window use of vstmc (spec 11, R245). -/
def peerUse (write : Bool) : Use := { write := write, noField := write, scr := false, clu := false, priv := false, far := false }

/-- The lines of a vstmc: a store of one part for each, to the group's members (spec 11, R245). -/
def mcParts (c : Nat) (members : BitVec 512) (l : List (Nat × List Piece)) (bytes : List (Nat × Byte)) (addr : Nat → Dword) : List Part :=
  let lines := linesOf bytes
  (List.range lines.length).map (fun i =>
    let line := lines.getD i 0
    let mine := bytes.filterMap (fun p => if p.1 / 128 = line then some (p.1 % 128, p.2) else none)
    let touches (q : Piece) : Bool := match q.tgt with | .peer _ a => a / 128 ≤ line && line ≤ (a + q.len - 1) / 128 | _ => false
    let lane := ((l.find? (fun x => x.2.any touches)).map (·.1)).getD 0
    { id := i, vis := 0, lane := lane, lanes := 0, loc := .mem (line * 128), il := 0, peer := some (512 + c), msg := none, addr := addr lane,
      off := 0, len := 128, data := [], cmp := [], mc := some { group := c, members := members, bytes := mine } })

/-- VSTMC (spec 11, R245, R246). -/
def execVstmc (f : Fields) (s : State) : Res :=
  issue (rowVstmc f) f s fun gid g =>
    if g.ctl.exm = 0 then .next (s.advance gid f.bytes)
    else
      let c := (s.readS g f.c).toNat % 4096
      let addr (L : Nat) : Dword := s.readSP g f.a + scaled (s.readV g f.b.toNat L) (sclOf f)
      match s.check g (peerUse true) (szBytes (f.mf 5 3)) ((lanesOf g.ctl.exm).map (fun L => (L, addr L))) with
      | .error e => s.raiseNow gid g false e
      | .ok l =>
        if s.runBad (s.mcastAt c) 160 then .next (s.consume gid)
        else if s.mcastFl c % 2 = 0 then .next (s.trapPlain gid .cdesc 8)
        else
          let scope := f.mf 9 7
          let s := if f.m 6 then (s.beginRelease gid g scope).raiseStores gid none else s
          let a := { accessOf gid g .store with rel := f.m 6, scope := scope }
          let parts := mcParts c (s.mcastMembers c) l (mcastBytes l (storeData s g f)) addr
          .next (((s.unclean g.block).startAccess a parts).advance gid f.bytes)

/-! ### COLL -/

/-- The fields of a coll descriptor (spec 11, R251). -/
structure CollDesc where
  op : Nat
  dt : Nat
  rop : Nat
  comm : Nat
  soff : Nat
  roff : Nat
  len : Nat
  reserved : Bool
  deriving DecidableEq, Repr

def collDesc (d : BitVec 128) : CollDesc :=
  let x := d.toNat
  { op := x % 256, dt := x / 2 ^ 8 % 16, rop := x / 2 ^ 12 % 4, comm := x / 2 ^ 16 % 4096, soff := x / 2 ^ 32 % 2 ^ 32,
    roff := x / 2 ^ 64 % 2 ^ 32, len := x / 2 ^ 96, reserved := x / 2 ^ 14 % 4 ≠ 0 || x / 2 ^ 28 % 16 ≠ 0 }

/-- The size of a member's result for n members (spec 11, R252). -/
def CollDesc.result (d : CollDesc) (n : Nat) : Nat := match d.op with | 2 => d.len / n | 3 => d.len * n | _ => d.len

/-- The lowest reason of R253 that applies to a coll of a block. -/
def State.collBad (s : State) (d : CollDesc) (b : Block) (differs : Bool) : Nat :=
  let m := s.comm d.comm
  let known := m.valid && m.devs.contains s.devid && b.lin < m.nseq
  let n := m.devs.length
  if d.op = 0 || 4 < d.op || 3 < d.dt || d.rop = 3 || d.reserved then 1
  else if d.len = 0 || d.len % 256 ≠ 0 || (known && d.op = 2 && d.len % (256 * n) ≠ 0) then 2
  else if d.soff % 16 ≠ 0 || d.roff % 16 ≠ 0 || b.k.scr < d.soff + d.len || (known && b.k.scr < d.roff + d.result n) then 3
  else if !known then 4
  else if differs then 5
  else 0

/-- A scalar quad as 128 bits. -/
def quadOf (l : List Word) : BitVec 128 := BitVec.ofNat 128 (l.foldr (fun w x => w.toNat + 2 ^ 32 * x) 0)

/-- The communication group of a block (spec 11, R252; spec 17, R362). -/
def commGroup (b : Block) : Nat := b.gids.getD b.k.commg 0

/-- What a device exchanges of a collective (spec 21, R435). -/
def Coll.word (x : Coll) (dev lin : Nat) : CollWord :=
  let d := collDesc x.desc
  { dev := dev, comm := d.comm, lin := lin, k := x.k, what := (d.op, d.dt, d.rop, d.len) }

/-- What a member has exchanged of a collective of a block, once it has arrived. -/
def State.collHeard (s : State) (x : Coll) (dev : Nat) : Option CollWord :=
  let lin := match s.block x.block with | none => 0 | some b => b.lin
  s.fab.colls.find? (fun w => { w with what := (x.word dev lin).what } = x.word dev lin)

/-- Whether every other member has exchanged its descriptor, and whether one of them differs (spec 21, R435). -/
def State.collKnown (s : State) (x : Coll) : Bool := (x.devs.filter (· ≠ s.devid)).all (fun d => (s.collHeard x d).isSome)
def State.collDiffers (s : State) (x : Coll) : Bool :=
  (x.devs.filter (· ≠ s.devid)).any (fun d => (s.collHeard x d).any (fun w => w.what ≠ (x.word 0 0).what))

/-- Starts a collective of a block (spec 11, R252; spec 21, R435): its members, its sequence number, and the command in the
communication group's copy FIFO, with the guard of that group's issue. -/
def State.startColl (s : State) (bid : Nat) (b : Block) (x : Coll) (ctx : BitVec 8) : State :=
  let d := collDesc x.desc
  let m := s.comm d.comm
  let word := m.seqBase + 4 * b.lin
  let (s, old) := s.readRun ownIl word 4
  let s := if old.isNone then s.consumeBlock bid else s
  let k := leNat (old.getD [])
  let s := s.writeRun ownIl word (leBytes ((k + 1) % 2 ^ 32) 4)
  let size := d.result m.devs.length
  let x := { x with started := true, k := k, n := m.devs.length, rank := (m.devs.findIdx? (· = s.devid)).getD 0, devs := m.devs, cq := m.cq, steps := s.fab.step40 }
  let s := (m.devs.filter (· ≠ s.devid)).foldl (fun s e => s.emit (.coll e (x.word s.devid b.lin))) s
  let s := s.modBlock bid fun b => { b with colls := updWhere b.colls (fun y => y.id = x.id) (fun _ => x) }
  let cg := commGroup b
  let c : Cmd := { id := s.own.ids, gid := cg, block := bid, node := b.core, ctx := ctx, kind := .coll x.id, rcd := [], org := [], e := 0,
                   n := size, obj := some x.obj, xpct := x.gs ≠ 0, gs := x.gs, gneg := x.gneg, sup := x.sup, run := false,
                   left := List.range ((size + 127) / 128), acked := [], fail := none, lost := none }
  let s := { s with fab := { s.fab with step40 := (s.fab.step40 + (size + 127) / 128) % 2 ^ 40 } }
  let s := if x.gs = 0 then s.objDeliver bid cg x.obj size else s
  match s.group cg with
  | none => { s.newId with cmds := s.cmds ++ [c] }
  | some g => s.newId.setGroup cg { g with eng := { g.eng with copyQ := g.eng.copyQ ++ [c] } }

/-- Whether a collective can start: every live group of the block has issued it, and no other descriptor has been presented. -/
def Coll.complete (x : Coll) (b : Block) : Bool :=
  !x.started && !x.differ && !b.live.isEmpty && b.live.all (fun i => x.gids.any (fun p => p.1 = i))

/-- Starts the collectives of a block that every live group has issued, in their order (spec 11, R252). -/
def State.startColls (s : State) (bid : Nat) : State :=
  match s.block bid with
  | none => s
  | some b => b.colls.foldl (fun s x => match s.block bid with
    | none => s
    | some b => if x.complete b then s.startColl bid b x (match s.grid b.grid with | none => 0 | some y => y.ctx) else s) s

/-- A group issues a collective that is open, or opens one (spec 11, R252): its place in the block's order of colls stays. -/
def Block.joinColl (b : Block) (id gid place : Nat) (g : Group) (f : Fields) (desc : BitVec 128) : Block :=
  let comm := g.index = b.k.commg
  let x : Coll := { id := id, block := g.block, desc := desc, obj := f.b.toNat, gids := [(gid, place)], gs := f.gs.toNat, gneg := f.m 9,
                    sup := g.priv, differ := false, started := false, k := 0, n := 0, rank := 0, devs := [], cq := 0, steps := 0, sig := 0 }
  if b.colls.any (fun y => y.id = id) then
    { b with colls := updWhere b.colls (fun y => y.id = id) (fun y =>
      { y with gids := (gid, place) :: y.gids, gs := if comm then x.gs else y.gs, gneg := if comm then x.gneg else y.gneg,
               sup := if comm then x.sup else y.sup }) }
  else { b with colls := b.colls ++ [x] }

/-- The oldest collective of a block that a group has not issued. -/
def Block.openColl (b : Block) (gid : Nat) : Option Coll := b.colls.find? (fun x => !x.started && !x.gids.any (fun p => p.1 = gid))

/-- COLL (spec 11, R252, R253): the group continues at once; the last group's starts the collective. Another descriptor is remembered: a
group that issues later traps too. -/
def execColl (f : Fields) (s : State) : Res :=
  issue (rowColl f) f s fun gid g => notVisitor s gid g <|
    match s.block g.block with
    | none => .next s
    | some b =>
      let desc := quadOf (g.readSQ f.a)
      let other := match b.openColl gid with | none => false | some x => x.desc ≠ desc || x.obj ≠ f.b.toNat
      let differs := other || (match b.openColl gid with | none => false | some x => x.differ)
      let why := s.collBad (collDesc desc) b differs
      if why ≠ 0 then
        let t := match b.openColl gid with
          | some x => if other then s.setBlock g.block { b with colls := updWhere b.colls (fun y => y.id = x.id) (fun y => { y with differ := true }) } else s
          | none => s
        .next (t.trapPlain gid .cdesc (BitVec.ofNat 64 why))
      else
        let id := match b.openColl gid with | some x => x.id | none => s.own.ids
        let t := (s.newId.unclean g.block).modBlock g.block (fun b => b.joinColl id gid s.own.ids g f desc)
        .next ((t.startColls g.block).advance gid f.bytes)

/-! ### CREM -/

/-- Whether a run of bytes lies in peer windows: every 64 KiB page that it touches. -/
def State.inPeer (s : State) (g : Group) (va : Dword) (n : Nat) : Bool :=
  (unitPieces 65536 va.toNat n).all (fun p =>
    windowOf (va + BitVec.ofNat 64 p.1) = 0 && s.peerPage g.owner g.ctx (va + BitVec.ofNat 64 p.1) = some true)

/-- The pieces of a remote copy: at most 128 bytes, none across a 64 KiB page of the remote side. -/
def remotePieces (remote len : Nat) : List (Nat × Nat) :=
  (unitPieces 65536 remote len).flatMap (fun p => (List.range ((p.2 + 127) / 128)).map (fun i => (p.1 + 128 * i, min 128 (p.2 - 128 * i))))

/-- CREM (spec 11, R251, R253, R254): a GET or PUT of the communication group. -/
def execCrem (f : Fields) (s : State) : Res :=
  issue (rowCrem f) f s fun gid g => notVisitor s gid g <|
    match s.block g.block with
    | none => .next s
    | some b =>
      let x := (quadOf (g.readSQ f.a)).toNat
      let remote := x % 2 ^ 64
      let off := x / 2 ^ 64 % 2 ^ 32
      let len := x / 2 ^ 96 % 2 ^ 24
      let put := x / 2 ^ 120 % 2 = 1
      let why :=
        if x / 2 ^ 121 ≠ 0 then 1
        else if g.index ≠ b.k.commg then 6
        else if len = 0 || len % 16 ≠ 0 || b.k.scr < off + len || !s.inPeer g (BitVec.ofNat 64 remote) len then 7
        else 0
      if why ≠ 0 then .next (s.trapPlain gid .cdesc (BitVec.ofNat 64 why))
      else
        let c : Cmd := { cmdOf gid g (if put then .put remote len else .get remote len) f with
          e := off, n := len, obj := some f.b.toNat, xpct := f.m 2, left := List.range (remotePieces remote len).length }
        enqueueCmd (s.unclean g.block) gid g f.bytes false c

end Sys2Proof.Machine
end

