-- ==== Sys2Proof/Machine/Control.lean ====
section
/-! DEFINITION. The control cells (spec 05, R111 to R123), nop (spec 02, R44) and joinw's expiry. -/

namespace Sys2Proof.Machine

open Sys2Proof

/-- NOP (spec 02, R44). -/
def execNop (f : Fields) (s : State) : Res :=
  issue (rowNop f) f s fun gid _ => .next (s.advance gid f.bytes)

/-- The lanes of X leave the group; what its matrix FIFO holds behind an unresolved guard is discarded once it has none (spec 05,
R122; spec 01, R24). -/
def leave (s : State) (gid : Nat) (g : Group) (x : Word) (n : Nat) : State :=
  let g' := { g with ctl := { g.ctl with livem := g.ctl.livem &&& ~~~x, exm := g.ctl.exm &&& ~~~x } }
  (((s.setGroup gid g').advance gid n).pumpMatrix g.owner).tryRetire gid

/-- EXIT (spec 05, R122). -/
def execExit (f : Fields) (s : State) : Res :=
  issue (rowExit f) f s fun gid g => notVisitor s gid g <| .next (leave s gid g g.ctl.exm f.bytes)

/-- EXITM (spec 05, R122). -/
def execExitm (f : Fields) (s : State) : Res :=
  issue (rowExitm f) f s fun gid g => notVisitor s gid g <|
    .next (leave s gid g (g.ctl.exm &&& s.opA g (rowExitm f) f 0) f.bytes)

/-- A PC-relative target (spec 05, R111). -/
def target (g : Group) (f : Fields) : Dword := g.ctl.pc + (f.imm.truncate 32 : Word).signExtend 64

/-- Checks a target's alignment (spec 05, R111), then goes on. -/
def aligned (s : State) (gid : Nat) (g : Group) (t : Dword) (k : Res) : Res :=
  if t.toNat % 4 ≠ 0 then .next (s.trap gid .ialign g.ctl.exm t 0) else k

/-- A uniform branch (spec 05, R113). -/
def branch (f : Fields) (s : State) (gid : Nat) (g : Group) (c : Bool) : Res :=
  aligned s gid g (target g f) <| .next (if c then s.jump gid (target g f) else s.advance gid f.bytes)

/-- BR, BZ, BNZ, BMZ, BMNZ, BVANY, BVALL (spec 05, R113). -/
def execBr (f : Fields) (s : State) : Res := issue (rowBr f) f s fun gid g => branch f s gid g true
def execBz (f : Fields) (s : State) : Res := issue (rowBz f) f s fun gid g => branch f s gid g (s.readS g f.a = 0)
def execBnz (f : Fields) (s : State) : Res := issue (rowBnz f) f s fun gid g => branch f s gid g (s.readS g f.a ≠ 0)
def execBmz (f : Fields) (s : State) : Res :=
  issue (rowBmz f) f s fun gid g => branch f s gid g (s.readS g f.a &&& g.ctl.livem = 0)
def execBmnz (f : Fields) (s : State) : Res :=
  issue (rowBmnz f) f s fun gid g => branch f s gid g (s.readS g f.a &&& g.ctl.livem ≠ 0)
def execBvany (f : Fields) (s : State) : Res :=
  issue (rowBvany f) f s fun gid g =>
    branch f s gid g ((lanesOf g.ctl.exm).any (fun L => s.readV g f.a.toNat L ≠ 0))
def execBvall (f : Fields) (s : State) : Res :=
  issue (rowBvall f) f s fun gid g =>
    branch f s gid g ((lanesOf g.ctl.exm).all (fun L => s.readV g f.a.toNat L ≠ 0))

/-- A push that the stack has no room for: STKOVF, or REGBOUND in a visitor (spec 05, R123; spec 12, R268; log entry
21). -/
def noRoom (s : State) (gid : Nat) (g : Group) : State :=
  if g.visitor.isSome then s.trapPlain gid .regbound 0 else s.trapPlain gid .stkovf 0

/-- Structured divergence (spec 05, R114): the restore entry, the path entry when the lanes diverge. A target that is not
aligned comes before a stack without room (log entry 100). -/
def diverge (f : Fields) (s : State) (gid : Nat) (g : Group) (k : SKind) (t : Word) : Res :=
  let tgt := target g f
  let n := g.ctl.exm &&& ~~~t
  let pushes := if t ≠ 0 ∧ n ≠ 0 then 2 else 1
  if tgt = 0 then s.illop14 gid 7
  else aligned s gid g tgt <|
    if g.stackMax < g.ctl.stack.length + pushes then .next (noRoom s gid g)
    else
      let old := g.ctl.stack.length
      let g1 := g.push k g.ctl.exm 0 0
      if t ≠ 0 ∧ n ≠ 0 then
        let g2 := g1.push k t tgt 0
        .next ((s.pushed gid old { g2 with ctl := { g2.ctl with exm := n } }).advance gid f.bytes)
      else if t ≠ 0 then .next ((s.pushed gid old g1).jump gid tgt)
      else .next ((s.pushed gid old g1).advance gid f.bytes)

/-- The lanes of EXM whose A is not zero. -/
def takenV (s : State) (g : Group) (f : Fields) : Word :=
  g.ctl.exm &&& maskOf (fun L => s.readV g f.a.toNat L ≠ 0)

/-- BDIV, BDIVW, BDIVS (spec 05, R114). -/
def execBdiv (f : Fields) (s : State) : Res := issue (rowBdiv f) f s fun gid g => diverge f s gid g .div (takenV s g f)
def execBdivw (f : Fields) (s : State) : Res :=
  issue (rowBdivw f) f s fun gid g => diverge f s gid g .divw (takenV s g f)
def execBdivs (f : Fields) (s : State) : Res :=
  issue (rowBdivs f) f s fun gid g => diverge f s gid g .div (g.ctl.exm &&& s.readS g f.a)

/-- STKKIND with the kind found on top (spec 05, R123). -/
def badKind (s : State) (gid : Nat) (e : Entry) : Res := .next (s.trapPlain gid .stkkind (BitVec.ofNat 64 (kindNo e.kind)))

/-- A group with its stack and EXM replaced. -/
def Group.withStack (g : Group) (st : List Entry) (exm : Word) : Group :=
  { g with ctl := { g.ctl with stack := st, exm := exm } }

/-- JOIN (spec 05, R115). -/
def execJoin (f : Fields) (s : State) : Res :=
  issue (rowJoin f) f s fun gid g =>
    match g.ctl.stack with
    | [] => .next (s.trapPlain gid .stkund 0)
    | e :: st =>
      if e.kind = .call ∨ e.kind = .trap then badKind s gid e
      else
        .next (s.popping gid g st fun s st =>
          let s := s.setGroup gid (g.withStack st (e.mask &&& g.ctl.livem))
          if e.pc ≠ 0 then s.jump gid (e.pc.zeroExtend 64) else s.advance gid f.bytes)

/-- JOINW (spec 05, R116). -/
def execJoinw (f : Fields) (s : State) : Res :=
  issue (rowJoinw f) f s fun gid g =>
    match g.ctl.stack with
    | [] => .next (s.trapPlain gid .stkund 0)
    | e :: st =>
      if e.kind ≠ .divw then badKind s gid e
      else if e.pc = 0 then .next (s.advance gid f.bytes)
      else if e.pc.zeroExtend 64 = g.ctl.pc then
        match st with
        | [] => .next (s.trapPlain gid .stkund 0)
        | e' :: _ => 
          .next (s.popping gid g st fun s st => (s.setGroup gid (g.withStack st (e'.mask &&& g.ctl.livem))).advance gid f.bytes)
      else
        let w : Entry := { waiting := true, tmo := f.imm.truncate 24, kind := .divw, mask := g.ctl.exm, pc := g.ctl.pc.truncate 56 }
        .next ((s.setGroup gid (g.withStack (w :: st) (e.mask &&& g.ctl.livem))).jump gid (e.pc.zeroExtend 64))

/-- Whether the waiting entry on top has expired and the group, resident in a block that is not halted, stands at an issue boundary (spec
05, R117). -/
def State.joinwDue (s : State) (g : Group) : Bool :=
  match g.ctl.stack with
  | e :: _ =>
    e.waiting && e.tmo = 0 && g.ctl.livem ≠ 0 && g.sched.skidLeft.isNone && !g.sched.dhalt && !s.isAway g && !g.sched.hold.issued &&
      (match s.block g.block with | none => false | some b => g.visitor.isSome || !(b.uncorr || b.thalt || b.dhalt || b.evicting))
  | [] => false

/-- Whether the group stands at the joinw of the waiting entry on top, where a second arrival wins (spec 05, R117). -/
def Group.atJoin (g : Group) : Bool :=
  match g.ctl.stack with
  | e :: _ => e.pc.zeroExtend 64 = g.ctl.pc
  | [] => false

/-- JOINW_EXPIRY (spec 05, R117): the late entry, EXM of the waiting lanes, JTO. The entry replaces the top one and is not pushed: it keeps
bits 1:0 of a misaligned P (log entry 124). -/
def execJoinwExpiry (gid : Nat) (s : State) : Res :=
  match s.group gid with
  | none => .next s
  | some g =>
    match g.ctl.stack with
    | [] => .next s
    | e :: st =>
      if s.joinwDue g then
        let late : Entry := { waiting := false, tmo := 0, kind := .divw, mask := g.ctl.exm, pc := g.ctl.pc.truncate 56 }
        let g1 := g.withStack (late :: st) (e.mask &&& g.ctl.livem)
        .next ((s.setGroup gid { g1 with
          ctl := { g1.ctl with pc := e.pc.zeroExtend 64 + 12 }
          sched := { g1.sched with hold := .none }
          sys := { g1.sys with gstat := g1.sys.gstat ||| 1 } }).rouse g.owner 0)
      else .next s

/-- JMP (spec 05, R119). -/
def execJmp (f : Fields) (s : State) : Res :=
  issue (rowJmp f) f s fun gid g =>
    let t := s.readSP g f.a
    aligned s gid g t <| .next (s.jump gid t)

/-- A call: the CALL entry, then the target (spec 05, R119); IALIGN comes before STKOVF (log entry 100). -/
def callTo (f : Fields) (s : State) (gid : Nat) (g : Group) (t : Dword) : Res :=
  aligned s gid g t <|
    if g.stackMax ≤ g.ctl.stack.length then .next (noRoom s gid g)
    else .next ((s.pushed gid g.ctl.stack.length (g.push .call g.ctl.exm (g.ctl.pc + BitVec.ofNat 64 f.bytes) 0)).jump gid t)

/-- CALL, CALLI (spec 05, R119). -/
def execCall (f : Fields) (s : State) : Res := issue (rowCall f) f s fun gid g => callTo f s gid g (target g f)
def execCalli (f : Fields) (s : State) : Res := issue (rowCalli f) f s fun gid g => callTo f s gid g (s.readSP g f.a)

/-- RET (spec 05, R119). -/
def execRet (f : Fields) (s : State) : Res :=
  issue (rowRet f) f s fun gid g =>
    match g.ctl.stack with
    | [] => .next (s.trapPlain gid .stkund 0)
    | e :: st =>
      if e.kind ≠ .call then badKind s gid e
      else .next (s.popping gid g st fun s st =>
        (s.setGroup gid (g.withStack st (e.mask &&& g.ctl.livem))).jump gid (e.pc.zeroExtend 64))

/-- What a jmpi target fails: 0 nothing, 1 IALIGN, 2 XLATE with its TRAPAUX bits, 3 LANDING (spec 05, R120). -/
def landing (s : State) (g : Group) (t : Dword) : Nat × Nat :=
  if t.toNat % 4 ≠ 0 then (1, 0)
  else if t = 0 then (2, 9 + 128)
  else match s.fetch g t with
    | .error aux => (2, aux)
    | .ok _ => if s.landBit g t then (0, 0) else (3, 0)

/-- Whether a jmpi target meets an uncorrectable word, in a walk or in the code that holds its landing bit: the group consumes it (spec 18,
R399). -/
def State.landBad (s : State) (g : Group) (t : Dword) : Bool := t.toNat % 4 = 0 && t ≠ 0 && (s.fetchBad g t || s.fetchBad g (t + 6))

/-- What the check of a jmpi target does at the homes of the code (spec 18, R403; spec 14, R331, R333). -/
def State.landed (s : State) (g : Group) (t : Dword) : State := if t.toNat % 4 = 0 && t ≠ 0 then s.fetched g t else s

/-- The distinct targets, ascending, with their lanes. -/
def targetsOf (l : List (Nat × Nat)) : List (Nat × Word) :=
  (l.foldl (fun m p => Sparse.put m p.2 (Sparse.get 0 m p.2 ||| (1#32 <<< p.1))) [])

/-- JMPI (spec 05, R120, R121). -/
def execJmpi (f : Fields) (s : State) : Res :=
  issue (rowJmpi f) f s fun gid g =>
    let tgt (L : Nat) : Dword := pairOf (s.readV g f.a.toNat L) (s.readV g f.b.toNat L)
    let act := lanesOf g.ctl.exm
    if act.any (fun L => s.landBad g (tgt L)) then .next (s.consume gid) else
    let s := act.foldl (fun s L => s.landed g (tgt L)) s
    let fails := act.map (fun L => (L, landing s g (tgt L)))
    let bad := fails.filter (fun p => p.2.1 ≠ 0)
    match bad with
    | p :: _ =>
      let c := bad.foldl (fun c q => min c q.2.1) p.2.1
      let mine := bad.filter (fun q => q.2.1 = c)
      let low := mine.headD p
      let all := maskOf (fun L => bad.any (fun q => q.1 = L))
      .next (s.trap gid (if c = 1 then .ialign else if c = 2 then .xlate else .landing)
        (maskOf (fun L => mine.any (fun q => q.1 = L))) (tgt low.1)
        (pairOf (if c = 2 then BitVec.ofNat 32 low.2.2 else 0) all))
    | [] =>
      let us := targetsOf (act.map (fun L => (L, (tgt L).toNat)))
      if g.stackMax < g.ctl.stack.length + 1 + (us.length - 1) then .next (noRoom s gid g)
      else
        let old := g.ctl.stack.length
        let g1 := g.push .ind g.ctl.exm 0 0
        match us with
        | [] => .next ((s.pushed gid old g1).advance gid f.bytes)
        | u :: rest =>
          let g2 := rest.reverse.foldl (fun g p => g.push .ind p.2 (BitVec.ofNat 64 p.1) 0) g1
          .next ((s.pushed gid old { g2 with ctl := { g2.ctl with exm := u.2 } }).jump gid (BitVec.ofNat 64 u.1))

/-- Issue of bits that are no instruction (spec 02, R56 steps 1 to 5): the decode trap, with TRAPADDR as its row
gives. The cause is one of ILLOP, MISPLACE, IALIGN and XLATE by number. -/
def execUnassignedCell (cause : Nat) (aux addr : BitVec 64) (s : State) : Res :=
  let gid := s.own.cur
  match s.group gid with
  | none => .next s
  | some g =>
    let c : Cause := if cause = 1 then .illop else if cause = 2 then .misplace else if cause = 3 then .ialign else .xlate
    .next (s.trap gid c g.ctl.exm addr aux)

end Sys2Proof.Machine
end

