-- ==== Sys2Proof/Machine/Field.lean ====
section
/-! DEFINITION. Field domains and cells (spec 08, R169 to R172), the checks of field instructions (R175, R176), and what field
homes do with cells, records and messages (spec 15, R339 to R346). -/

namespace Sys2Proof.Machine

open Sys2Proof

/-! ### Domains and cells -/

def Domain.width (d : Domain) : Nat := if d.q64 then 8 else 4
def Domain.end_ (d : Domain) : Nat := d.base + d.ncell * d.width
def Domain.has (d : Domain) (a : Nat) : Bool := d.base ≤ a && a < d.end_
def Domain.cell (d : Domain) (a : Nat) : Nat := (a - d.base) / d.width
/-- The kind of cell j: 0 ordinary, 1 source, 2 sink (spec 08, R170). -/
def Domain.kind (d : Domain) (j : Nat) : Nat := Sparse.get 0 d.kinds j
/-- The give-up time in cycles; 0 means 2,000 µs (spec 08, R186). -/
def gupCycles (us : Nat) : Nat := (if us = 0 then 2000 else us) * 1600

def State.domain (s : State) (did : Nat) : Option Domain := Sparse.find s.fld.domains did
def State.setDomain (s : State) (did : Nat) (d : Domain) : State :=
  { s with fld := { s.fld with domains := Sparse.put s.fld.domains did d } }

/-- The domain declared on this device whose range holds an address. -/
def State.domainAt (s : State) (a : Nat) : Option (Nat × Domain) := s.fld.domains.find? (fun p => p.2.has a)

/-- The lowest value of a cell: FLOOR for an ordinary cell, −2^(w−1) for a source or sink (spec 08, R170). -/
def Domain.floorOf (d : Domain) (j : Nat) : Int := if d.kind j = 0 then d.floor else -(2 ^ (8 * d.width - 1) : Nat)

/-- A cell's content as a signed number. -/
def signed (n x : Nat) : Int := if x < 2 ^ (8 * n - 1) then (x : Int) else (x : Int) - (2 ^ (8 * n) : Nat)

/-- The bytes of a signed number in `n` bytes. -/
def signedBytes (n : Nat) (x : Int) : List Byte := leBytes (x % (2 ^ (8 * n) : Nat)).toNat n

/-! ### Checks (spec 08, R175, R176) -/

/-- A cell address that passed its checks: address on its own device, key, scheme, device, whether through a window. -/
structure CellAt where
  addr : Nat
  key : Nat
  il : Nat
  dev : Nat
  fabric : Bool
  did : Nat
  deriving DecidableEq, Repr

/-- The lowest FDOM reason of one address, 0 for none; reason 3 concerns the pair (spec 08, R176). -/
def State.fdomReason (s : State) (g : Group) (q64 : Bool) (field : Bool) (addr dev : Nat) (fabric : Bool) : Nat :=
  if !fabric && !field then 1
  else match s.domainAt addr with
    | none => 2
    | some (_, d) =>
      if (addr - d.base) % d.width ≠ 0 then 2
      else if d.q64 ≠ q64 then 4
      else if fabric && !d.members.getLsbD dev then 5
      else if d.state ≠ .active then 6
      else if d.owner ≠ g.ctx then 8
      else 0

/-- Checks a cell address: failures by precedence 1 DSPACE, 2 DALIGN, 3 XLATE, 4 FDOM with TRAPAUX; 0 for a window named in a
visitor, 6 for a walk that meets an uncorrectable entry. -/
def State.cellAt (s : State) (g : Group) (q64 write peerOk : Bool) (va : Dword) : Option CellAt × List (Nat × Nat) :=
  let w := if q64 then 8 else 4
  let win := windowOf va
  let al := if va.toNat % w ≠ 0 then [(2, 0)] else []
  if win ≠ 0 then (none, (if g.visitor.isSome then (0, 0) else (1, win)) :: al)
  else if s.walkBad g.owner g.ctx va then (none, [(6, 0)])
  else match s.translate g.owner g.ctx g.priv false false va with
    | .error e => (none, (if s.peerPage g.owner g.ctx va = some true && !peerOk then [(1, 4)] else []) ++ al ++ [(3, xlateAux e write false)])
    | .ok t =>
      let fabric := ptePeer t.pte
      let dev := if fabric then ptePid t.pte else s.devid
      let addr := if fabric then t.addr else va.toNat
      let r := s.fdomReason g q64 (pteField t.pte) addr dev fabric
      let did := match s.domainAt addr with | none => 0 | some (n, _) => n
      (some { addr := addr, key := t.key, il := pteIl t.pte, dev := dev, fabric := fabric, did := did },
        (if fabric && !peerOk then [(1, 4)] else []) ++ al ++ (if r = 0 then [] else [(4, r)]))

/-- The cause of a precedence of R175. -/
def fieldCause (p : Nat) : Cause :=
  match p with
  | 0 => .illop
  | 1 => .dspace
  | 2 => .dalign
  | 3 => .xlate
  | 4 => .fdom
  | 5 => .famt
  | _ => .uncorr

/-- One lane of a check: the lane, then each address with its failures, the origin first. -/
structure LaneCheck where
  lane : Nat
  sides : List (Bool × Dword × List (Nat × Nat))
  deriving DecidableEq, Repr

/-- What the checks of field instructions raise (spec 08, R175): the highest-precedence cause, its lanes, the lowest lane's
address (the origin when it fails with the reported code), and TRAPAUX, with bit 8 for an FDOM of the origin. -/
def fieldVerdict (l : List LaneCheck) : Option Raise :=
  let fails := l.flatMap (fun x => x.sides.flatMap (fun y => y.2.2.map (·.1)))
  if fails.isEmpty then none
  else
    let p := least 9 fails
    let mine := l.filter (fun x => x.sides.any (fun y => y.2.2.any (fun e => e.1 = p)))
    match mine with
    | [] => none
    | low :: _ =>
      let codes := low.sides.flatMap (fun y => (y.2.2.filter (fun e => e.1 = p)).map (·.2))
      let code := least (codes.headD 0) codes
      match low.sides.find? (fun y => y.2.2.any (fun e => e.1 = p && (p ≠ 4 || e.2 = code))) with
      | none => none
      | some y =>
        let aux := ((y.2.2.find? (fun e => e.1 = p && (p ≠ 4 || e.2 = code))).map (·.2)).getD 0
        some { cause := fieldCause p, lanes := maskOf (fun L => mine.any (fun x => x.lane = L)),
               addr := if p = 0 then 0 else y.2.1
               aux := if p = 0 then illopAux (14, 0)
                      else BitVec.ofNat 64 (if p = 4 && y.1 then aux + 256 else aux) }

/-! ### Homes -/

/-- The mortar and deduplication capacity of a home (spec 15, R339, R343). -/
def homeCap (n : Nat) : Nat := if n < 192 then 256 else 1024

def State.modHome (s : State) (n : Nat) (f : Home → Home) : State := s.modNode n (fun x => { x with home := f x.home })

/-- Whether a snapshot holds a source or sink cell at a home (spec 15, R347). -/
def State.cellHeld (s : State) (n did addr : Nat) : Bool :=
  (s.node n).home.holds.any (fun h => h.2.1 = did) &&
    (match s.domain did with
      | none => false
      | some d => d.kind (d.cell addr) ≠ 0)

/-- A message on its way to a home or core of this device. -/
def State.send (s : State) (m : FMsg) : State :=
  { s with fld := { s.fld with msgs := s.fld.msgs ++ [(s.own.ids, m, none)] } }.newId

/-- A blank message. -/
def FMsg.blank : FMsg :=
  { kind := .debit, dev := 0, home := 0, xid := 0, lanes := [], odev := 0, mseq := 0, did := 0, addr := 0, amt := 0, lane := 0,
    lmask := 0, reason := 0, dctx := 0, q64 := false }

/-- Sends a field message to another home: over the mesh on the local path, as a FIELD packet of class 2 on the fabric path
(spec 15, R338). -/
def State.sendField (s : State) (fabric : Bool) (dev home tag : Nat) (m : FMsg) : State :=
  let m := { m with dev := dev, home := home, dctx := tag }
  if fabric then
    (s.newMsg.enqueue dev 2 (s.packet 4 2 dev false tag s.fab.msgid 0 1 (.field m)) .field).flush
  else s.send m

/-- Reads a cell at its home; none when its sector is uncorrectable. -/
def State.readCell (s : State) (il key n : Nat) : State × Option Int :=
  let r := s.readAt il key n
  (r.1, r.2.map (fun bs => signed n (leNat bs)))

/-- Writes a cell; `rel` is what the write leaves of a release at .cor (spec 07, R158). -/
def State.writeCell (s : State) (il key n : Nat) (x : Int) (rel : Option (Nat × Nat)) : State := (s.writeAt il key (signedBytes n x) rel).1

/-- Adds to a cell, as a return or a commit does. -/
def State.addCell (s : State) (il key n : Nat) (x : Int) (rel : Option (Nat × Nat)) : State :=
  match s.readCell il key n with
  | (s, none) => s
  | (s, some c) => s.writeCell il key n (c + x) rel

/-- What a transfer's writes leave of the releases at .cor that its group has made (spec 07, R158; spec 08, R183). -/
def State.xferReleased (s : State) (x : Xfer) : Option (Nat × Nat) := if x.corAt = 0 then none else some (x.node, s.own.seq + 1)
def State.releasedBy (s : State) (xid : Nat) : Option (Nat × Nat) :=
  match s.fld.xfers.find? (fun x => x.id = xid) with
  | none => none
  | some x => s.xferReleased x

def State.mortar (s : State) (n mseq : Nat) : Option Mortar := (s.node n).home.mortars.find? (fun m => m.seq = mseq)

/-- The origin home that a mortar sequence names (spec 15, R340). -/
def seqHome (mseq : Nat) : Nat := mseq / 2 ^ 40 % 256

def State.freeMortar (s : State) (mseq : Nat) : State :=
  s.modHome (seqHome mseq) (fun h => { h with mortars := h.mortars.filter (fun m => m.seq ≠ mseq) })

def State.setMortar (s : State) (mseq : Nat) (f : Mortar → Mortar) : State :=
  s.modHome (seqHome mseq) (fun h => { h with mortars := updWhere h.mortars (fun m => m.seq = mseq) f })

/-- The context tag that a transfer's messages carry: that of the domain's owner (spec 21, R418). -/
def State.fieldTag (s : State) (did : Nat) : Nat :=
  match s.domain did with
  | none => 0
  | some d => (s.tagFor d.owner).getD 0

/-- The status message of a resolved lane to its issuing core (spec 15, R341). -/
def State.sendStatus (s : State) (m : Mortar) (code reason : Nat) : State :=
  s.send { FMsg.blank with kind := .status, home := m.icore, xid := m.xid, lane := m.lane, reason := code + 16 * reason, did := m.did }

/-- The completion record of a withdrawal (spec 08, R180). -/
def State.withdrawn (s : State) (m : Mortar) (code : Nat) : State :=
  match s.domain m.did with
  | none => s
  | some d => s.complete d.owner d.cq (if code = 2 then 2 else 3) 0x21 false false (m.did + m.lane * 65536) 0
      (m.amt % (2 ^ 64 : Nat)).toNat

/-- The amount of a record goes back to its origin (spec 08, R177). -/
def State.giveBack (s : State) (m : Mortar) : State := s.addCell m.oil m.okey (if m.q64 then 8 else 4) m.amt none

/-- The OFFER or CREDIT of a record (spec 15, R341). -/
def offerOf (self : Nat) (m : Mortar) (k : FKind) : FMsg :=
  { FMsg.blank with kind := k, odev := self, mseq := m.seq, xid := m.xid, lane := m.lane, lmask := m.lmask, did := m.did,
                    addr := m.daddr, amt := m.amt, q64 := m.q64 }

def State.sendOffer (s : State) (m : Mortar) (k : FKind) : State :=
  s.sendField m.fabric m.ddev (homeOf m.dil m.dkey) (s.fieldTag m.did) (offerOf s.devid m k)

/-- The instruction that a credit or offer belongs to, and its cell: what lanes are decided by. -/
def instOf (m : FMsg) : Nat := m.odev * 2 ^ 64 + m.xid

/-- The lanes of an instruction decided for a cell of this device, by whichever path they came. -/
def State.decided (s : State) (m : FMsg) : Word :=
  ((s.fld.decided.find? (fun e => e.1 = instOf m && e.2.1 = m.addr)).map (·.2.2)).getD 0

/-- Whether every lower lane of LMASK has been decided (spec 15, R342, R343). -/
def State.turnOf (s : State) (m : FMsg) : Bool := (lanesOf m.lmask).all (fun L => m.lane ≤ L || (s.decided m).getLsbD L)

/-- A lane has been decided; when all of LMASK are, nothing is kept. -/
def State.decide (s : State) (m : FMsg) : State :=
  let now := s.decided m ||| (1#32 <<< m.lane)
  let rest := s.fld.decided.filter (fun e => !(e.1 = instOf m && e.2.1 = m.addr))
  { s with fld := { s.fld with decided := if m.lmask &&& ~~~now = 0 then rest else (instOf m, m.addr, now) :: rest } }

/-- The deduplication entry of an (origin device, SEQ) at a home (spec 15, R343). -/
def State.dedup (s : State) (n odev mseq : Nat) : Option Dedup :=
  (s.node n).home.dedups.find? (fun d => d.odev = odev && d.seq = mseq)

def State.setDedup (s : State) (n : Nat) (d : Dedup) : State :=
  s.modHome n (fun h => { h with dedups := h.dedups.filter (fun e => !(e.odev = d.odev && e.seq = d.seq)) ++ [d] })

def State.dropDedup (s : State) (n odev mseq : Nat) : State :=
  s.modHome n (fun h => { h with dedups := h.dedups.filter (fun e => !(e.odev = odev && e.seq = mseq)) })

/-- The amount reserved at a cell (spec 15, R343). -/
def State.reserved (s : State) (n key : Nat) : Int :=
  ((s.node n).home.dedups.filter (fun d => d.key = key && d.state = .accepted)).foldl (fun x d => x + d.amt) 0

/-- The answer that an entry's state gives. -/
def answerOf (d : Dedup) : FKind × Nat :=
  match d.state with
  | .accepted => (.accept, 0)
  | .overflowed => (.ovf, 0)
  | .refused r => (.refuse, r)
  | .applied => (.done, 0)

/-- Sends an answer to the origin home of a record on the fabric path. -/
def State.reply (s : State) (m : FMsg) (k : FKind) (reason : Nat) : State :=
  s.sendField true m.odev (seqHome m.mseq) m.dctx { FMsg.blank with kind := k, odev := m.odev, mseq := m.mseq, reason := reason,
                                                                    did := m.did }

/-- The last lane of a transfer has resolved: D is full unless a lane never resolves, an acquire clears the read buffer, a release at
.dom or .sys raises what its stores have met, and the traps of R180 are raised (spec 08, R177, R180, R183; spec 07, R154, R155). -/
def State.endXfer (s : State) (x : Xfer) : State :=
  let s := { s with fld := { s.fld with xfers := s.fld.xfers.filter (fun y => y.id ≠ x.id) } }
  if x.dead then s
  else
    let s := if x.acq then s.acquired x.node x.scope else s
    let s := if x.lost = 0 then s.fillV x.gid x.dst else s
    let s := if x.rel && (x.scope = 4 || x.scope = 5) then s.raiseStores x.gid none else s
    let pick (c : Nat) : List (Nat × Nat × Nat) := x.status.filter (fun q => q.2.1 = c)
    let lanes (c : Nat) : Word := maskOf (fun L => (pick c).any (fun q => q.1 = L))
    let low (c : Nat) : Option FLane := x.lanes.find? (fun l => l.lane = lowestLane (lanes c))
    let addr (l : FLane) : Dword := BitVec.ofNat 64 l.dva
    let s := if x.wd then s else match low 3 with
      | none => s
      | some l => if lanes 3 = 0 then s else s.raise x.gid { cause := 20, lanes := lanes 3, addr := addr l, aux := 0 }
    let s := if x.wd then s else match low 4 with
      | none => s
      | some l => if lanes 4 = 0 then s
          else
            let r := ((pick 4).find? (fun q => q.1 = l.lane)).map (·.2.2)
            s.raise x.gid { cause := 16, lanes := lanes 4, addr := addr l, aux := BitVec.ofNat 64 (l.ddev + r.getD 0 * 4096) }
    s.tryRetire x.gid

/-- The lanes of a transfer that have not resolved. -/
def Xfer.left (x : Xfer) : List FLane := x.lanes.filter (fun l => !x.status.any (fun q => q.1 = l.lane))

/-- A lane of a transfer resolves at its issuing core: its status is written; the last one ends the transfer (spec 08, R177; spec 15,
R341). `code` 9 is a lane that never resolves. -/
def State.resolve (s : State) (xid lane code reason : Nat) : State :=
  match s.fld.xfers.find? (fun x => x.id = xid) with
  | none => s
  | some x =>
    let lost := if code = 9 then x.lost ||| (1#32 <<< lane) else x.lost
    let x := { x with lost := lost, status := x.status ++ [(lane, code, reason)] }
    let s := { s with fld := { s.fld with xfers := updWhere s.fld.xfers (fun y => y.id = xid) (fun _ => x) } }
    let s := if x.dead || code = 9 then s else s.deliverV x.gid x.dst [(lane, BitVec.ofNat 32 code)] false 0
    if x.left.isEmpty then s.endXfer x else s

end Sys2Proof.Machine
end

