-- ==== Sys2Proof/Machine/FieldCells.lean ====
section
/-! DEFINITION. The field cells: xfer, vldf, sldf, ftot and the declarations (spec 08, R173 to R191). -/

namespace Sys2Proof.Machine

open Sys2Proof

/-- The amount of a lane: H as .i32, or the pair as .i64 (spec 08, R174). -/
def amountOf (s : State) (g : Group) (f : Fields) (L : Nat) : Int :=
  if f.m 1 then (s.readV2 g f.h.toNat L).toInt else (s.readV g f.h.toNat L).toInt

/-- The destination and origin addresses of a lane (spec 08, R174). -/
def xferDst (s : State) (g : Group) (f : Fields) (L : Nat) : Dword :=
  s.readSP g f.a + scaled (s.readV g f.b.toNat L) (if f.m 1 then 8 else 4)
def xferOrg (s : State) (g : Group) (f : Fields) (L : Nat) : Dword :=
  s.readSP g f.e + scaled (s.readV g f.c.toNat L) (if f.m 1 then 8 else 4)

/-- The checks of one xfer lane (spec 08, R175, R176): both addresses, reason 3 for the pair, FAMT. -/
def xferCheck (s : State) (g : Group) (f : Fields) (L : Nat) : LaneCheck :=
  let org := s.cellAt g (f.m 1) true false (xferOrg s g f L)
  let dst := s.cellAt g (f.m 1) true true (xferDst s g f L)
  let amt := amountOf s g f L
  let pair := match org.1, dst.1 with
    | some o, some d => if (s.domainAt o.addr).isSome && (s.domainAt d.addr).isSome && o.did ≠ d.did then [(4, 3)] else []
    | _, _ => []
  { lane := L,
    sides := [(true, xferOrg s g f L, org.2), (false, xferDst s g f L, dst.2 ++ pair ++ (if amt < 0 then [(5, 0)] else []))] }

/-- The lane of a transfer whose checks passed. -/
def xferLane (s : State) (g : Group) (f : Fields) (L : Nat) : Option FLane :=
  match (s.cellAt g (f.m 1) true false (xferOrg s g f L)).1, (s.cellAt g (f.m 1) true true (xferDst s g f L)).1 with
  | some o, some d =>
    some { lane := L, amt := amountOf s g f L, oaddr := o.addr, okey := o.key, oil := o.il, daddr := d.addr, dkey := d.key, dil := d.il,
           ddev := d.dev, fabric := d.fabric, dva := (xferDst s g f L).toNat, did := o.did,
           gup := (match s.domain o.did with | none => 0 | some e => gupCycles e.gup) }
  | _, _ => none

/-- The homes of some cells, each once, in order. -/
def homesOf (l : List FLane) : List Nat :=
  l.foldl (fun hs x => if hs.contains (homeOf x.oil x.okey) then hs else hs ++ [homeOf x.oil x.okey]) []

/-- Whether origin and destination are one cell: no home is visited (spec 08, R177). -/
def selfLane (l : FLane) : Bool := !l.fabric && l.okey = l.dkey

/-- The tags that the unfinished transfers of a core hold (spec 15, R339). -/
def State.itags (s : State) (n : Nat) : List Nat :=
  (s.fld.xfers.filter (fun x => x.node = n)).map (·.itag) ++
    s.nodes.flatMap (fun p => (p.2.home.mortars.filter (fun r => r.icore = n)).map (·.itag))

/-- The lowest tag that is free at a core. -/
def State.freeItag (s : State) (n : Nat) : Option Nat := (List.range 128).find? (fun t => !(s.itags n).contains t)

/-- The lanes whose debit a transfer sends: no home is visited for one whose origin is its destination, or whose destination's device
cannot be sent to (spec 08, R177; spec 21, R418). -/
def Xfer.debits (x : Xfer) : List FLane := x.left.filter (fun l => !selfLane l)

/-- The homes of this device that hold records of an instruction. -/
def State.recordHomes (s : State) (xid : Nat) : List Nat :=
  (s.nodes.filter (fun n => n.2.home.mortars.any (fun r => r.xid = xid))).map (·.1)

/-- Every origin check has been answered (spec 08, R179; spec 15, R341): RETURN and FNEG, or GO, the statuses that no home gives, and the
FABERR of the lanes that were never sent (spec 21, R418). -/
def State.settle (s : State) (x : Xfer) : State :=
  if !x.wd && !x.short.isEmpty then
    let s := (s.recordHomes x.id).foldl (fun s h => s.send { FMsg.blank with kind := .giveBack, home := h, xid := x.id }) s
    let s := { s with fld := { s.fld with xfers := s.fld.xfers.filter (fun y => y.id ≠ x.id) } }
    if x.dead then s
    else
      let low := lowestLane (maskOf (fun L => x.short.any (fun q => q.1 = L)))
      let addr := match x.lanes.find? (fun l => l.lane = low) with | none => 0 | some l => l.oaddr
      let c := ((x.short.find? (fun q => q.1 = low)).map (·.2)).getD 0
      -- in a skid the group stops at the xfer, and issues it again after the halt (spec 18, R386)
      ((s.fillV x.gid x.dst).modGroup x.gid (fun g => { g with sched := { g.sched with hold := .none } })).trap x.gid .fneg (maskOf (fun L => x.short.any (fun q => q.1 = L))) (BitVec.ofNat 64 addr) (BitVec.ofInt 64 c)
  else
    let go := x.debits.filter (fun l => !x.short.any (fun q => q.1 = l.lane))
    let s := (s.recordHomes x.id).foldl (fun s h =>
      s.send { FMsg.blank with kind := .go, home := h, xid := x.id, lanes := go }) s
    let s := match s.group x.gid with
      | none => s
      | some g => if g.sched.hold = .checks x.id then s.setGroup x.gid (g.past 16) else s
    let unsent := x.status.filter (fun q => q.2.1 = 9)
    let s := match x.lanes.find? (fun l => l.lane = lowestLane (maskOf (fun L => unsent.any (fun q => q.1 = L)))), unsent with
      | some l, q :: _ => s.raise x.gid { cause := 16, lanes := maskOf (fun L => unsent.any (fun q => q.1 = L)), addr := BitVec.ofNat 64 l.dva,
                                          aux := BitVec.ofNat 64 (l.ddev + q.2.2 * 4096) }
      | _, _ => s
    let s := x.short.foldl (fun s q => s.resolve x.id q.1 1 0) s
    let s := (x.left.filter selfLane).foldl (fun s l => s.resolve x.id l.lane 0 0) s
    if x.left.isEmpty then s.endXfer x else s

/-- XFER (spec 08, R173 to R181): with WD 0 the group waits until every origin check is answered (R179). A destination whose
device cannot be sent to fails as R418 of spec 21 gives. -/
def execXfer (f : Fields) (s : State) : Res :=
  issue (rowXfer f) f s fun gid g =>
    let soil (s : State) : State := if g.visitor.isNone then s.unclean g.block else s
    if g.ctl.exm = 0 then .next ((soil s).advance gid f.bytes)
    else
      let act := lanesOf g.ctl.exm
      match fieldVerdict (act.map (xferCheck s g f)) with
      | some r =>
        let aux := if r.cause = .famt then BitVec.ofInt 64 (amountOf s g f (lowestLane r.lanes)) else r.aux
        s.raiseNow gid g false { r with aux := aux }
      | none => match s.freeItag g.owner with
        | none => .next (s.stall gid .order)
        | some tag =>
          let lanes := act.filterMap (xferLane s g f)
          let bad := lanes.filterMap (fun l =>
            (if l.fabric then s.peerFault g.ctx l.ddev else none).map (fun r => (l.lane, 9, r)))
          let id := s.own.ids
          let rel := f.mf 4 3 = 2 || f.mf 4 3 = 3
          let scope := acqScope (f.mf 7 5)
          let x : Xfer :=
            { id := id, gid := gid, node := g.owner, ctx := g.ctx, dst := f.d.toNat, wd := f.m 2, acq := f.mf 4 3 = 1 || f.mf 4 3 = 3,
              rel := rel, scope := scope, rmt := 6 ≤ f.mf 7 5, corAt := if rel && scope = 1 then id else g.out.corFence, itag := tag,
              q64 := f.m 1, lanes := lanes, waiting := [], short := [], status := bad,
              lost := maskOf (fun L => bad.any (fun b => b.1 = L)), dead := false }
          let x := { x with waiting := homesOf x.debits }
          let s := (soil s).lookUps g (act.map (xferOrg s g f) ++ act.map (xferDst s g f))
          let s := if rel then s.beginRelease gid g scope else s
          let s := { s with fld := { s.fld with xfers := s.fld.xfers ++ [x] } }.newId
          let s := s.markEmpty gid true f.d.toNat 1
          let s := x.waiting.foldl (fun s h => s.send
            { FMsg.blank with kind := .debit, home := h, xid := id, lanes := x.debits.filter (fun l => homeOf l.oil l.okey = h) }) s
          let s := if f.m 2 then s.advance gid f.bytes else s.stall gid (.checks id)
          .next (if x.waiting.isEmpty then s.settle x else s)

/-! ### Reading cells (spec 08, R184) -/

/-- The pieces of a read of a cell; a cell lies in one sector. -/
def cellPieces (n : Nat) (c : CellAt) : List Piece :=
  [{ off := 0, len := n, tgt := if c.fabric then .peer c.dev c.addr else .here (.mem c.key) (BitVec.ofNat 64 (c.il * 2 ^ 46)) }]

/-- Reads of cells by lanes. -/
def readCells (r : Row) (f : Fields) (s : State) (vec : Bool) (addr : State → Group → Nat → Dword) : Res :=
  issue r f s fun gid g =>
    if vec && g.ctl.exm = 0 then .next (s.advance gid f.bytes)
    else
      let n := if f.m 1 then 8 else 4
      let act := if vec then lanesOf g.ctl.exm else [0]
      let look (L : Nat) : Option CellAt × List (Nat × Nat) := s.cellAt g (f.m 1) false true (addr s g L)
      match fieldVerdict (act.map (fun L => { lane := L, sides := [(false, addr s g L, (look L).2)] })) with
      | some e => s.raiseNow gid g (!vec) e
      | none =>
        let help := if vec then (lanesOf g.helpers).filter (fun L => (look L).2.isEmpty) else []
        let l := (act ++ help).filterMap (fun L => (look L).1.map (fun c => (L, cellPieces n c)))
        let a := { accessOf gid g (.field (f.m 1)) with
          acq := f.m 6, scope := acqScope (f.mf 9 7), rmt := 6 ≤ f.mf 9 7, vec := vec, once := !vec, helpers := if vec then g.helpers else 0, dst := f.d.toNat, regs := n / 4,
          lanes := if vec then g.wset else 1 }
        let parts := partsFor l (fun L => 1#32 <<< L) (fun _ => []) (fun _ => []) (addr s g)
        .next (((s.markEmpty gid vec f.d.toNat (n / 4)).startAccess a parts).advance gid f.bytes)

/-- VLDF, SLDF. -/
def execVldf (f : Fields) (s : State) : Res :=
  readCells (rowVldf f) f s true (fun s g L =>
    s.readSP g f.a + scaled (s.readV g f.b.toNat L) (if f.m 1 then 8 else 4) + offOf f)
def execSldf (f : Fields) (s : State) : Res :=
  readCells (rowSldf f) f s false (fun s g _ =>
    s.readSP g f.a + scaled (s.readS g f.b) (if f.m 1 then 8 else 4) + offOf f)

/-! ### Totals and declarations -/

/-- FDOM raised by an instruction that acts once per group. -/
def fdom (s : State) (gid : Nat) (g : Group) (reason : Nat) (addr : Dword) : Res :=
  .next (s.trap gid .fdom g.ctl.exm addr (BitVec.ofNat 64 reason))

/-- The declared domain of a number, with reasons 7, 6 and 8 of R176; an fdrop of a domain that is still being declared raises 7 (log entry
123). -/
def withDomain (s : State) (gid : Nat) (g : Group) (did : Nat) (active : Bool) (k : Domain → Res) : Res :=
  match s.domain did with
  | none => fdom s gid g 7 0
  | some d =>
    if d.state = .declaring && !active then fdom s gid g 7 0
    else if active && d.state ≠ .active then fdom s gid g 6 0
    else if d.owner ≠ g.ctx then fdom s gid g 8 0
    else k d

/-- The members of a domain, ascending. -/
def Domain.devs (d : Domain) : List Nat := (List.range 512).filter (fun i => d.members.getLsbD i)

/-- The anchor: the lowest-numbered member (spec 08, R187). -/
def Domain.anchor (d : Domain) : Nat := (d.devs).headD 0

/-- The homes that a snapshot holds: this device's homes of source and sink cells, and every other member (spec 15, R347). -/
def State.snapHomes (s : State) (d : Domain) : List Nat :=
  d.keys.foldl (fun hs k => let h := homeOf k.2.2 k.2.1; if hs.contains h then hs else hs ++ [h]) [] ++
    (d.devs.filter (· ≠ s.devid)).map (256 + ·)

/-- Whether a snapshot may begin: none of its domain that was asked for earlier is left (spec 15, R347), and none of its group (spec 13,
R290). -/
def State.snapFirst (s : State) (x : Snap) : Bool :=
  !s.fld.snaps.any (fun y => y.id < x.id && (y.did = x.did ||
    (match x.asker, y.asker with | .group i _, .group j _ => i = j | _, _ => false)))

/-- Asks another device's anchor, or sends HOLD to the other members (spec 15, R347). -/
def State.askHomes (s : State) (d : Domain) (did : Nat) : State :=
  if d.anchor = s.devid then (d.devs.filter (· ≠ s.devid)).foldl (fun s m => s.emit (.hold did m)) s else s.emit (.ftot did)

/-- The snapshots whose turn has come begin. -/
def State.beginSnaps (s : State) : State :=
  s.fld.snaps.foldl (fun s x =>
    match s.domain x.did with
    | none => s
    | some d =>
      if x.begun || !s.snapFirst x then s
      else
        let homes := if d.anchor = s.devid then s.snapHomes d else [256 + d.anchor]
        let start (y : Snap) : Snap := { y with begun := true, h0 := s.clock.toNat, homes := homes }
        { s with fld := { s.fld with snaps := updWhere s.fld.snaps (fun y => y.id = x.id) start } }.askHomes d x.did) s

/-- A figure of a domain is asked for; the anchor is another member's when this device is not (spec 15, R347). -/
def State.askTotal (s : State) (did figure : Nat) (who : Asker) : State :=
  let snap : Snap :=
    { id := s.own.ids, did := did, asker := who, figure := figure, begun := false, h0 := 0,
      homes := [], answers := [] }
  ({ s with fld := { s.fld with snaps := s.fld.snaps ++ [snap] } }.newId).beginSnaps

/-- FTOT (spec 08, R185): .c from this device, the other figures from a snapshot of the anchor (spec 15, R347). -/
def execFtot (f : Fields) (s : State) : Res :=
  issue (rowFtot f) f s fun gid g =>
    let did := (s.readS g f.a).toNat
    withDomain s gid g did true fun d =>
      if f.mf 2 1 = 0 then
        .next ((s.later gid false f.d.toNat [(0, d.c.truncate 32), (1, (d.c >>> 32).truncate 32)]).advance gid f.bytes)
      else .next (((s.markEmpty gid false f.d.toNat 2).askTotal did (f.mf 2 1) (.group gid f.d.toNat)).advance gid f.bytes)

/-- The fields of a descriptor in range (spec 08, R186; status 2 of R187). -/
def descOk (s : State) (b : List Byte) : Bool :=
  let q64 := field b 14 1 % 2 = 1
  let w := if q64 then 8 else 4
  let base := field b 0 8
  let n := field b 8 4
  let fl := signed 8 (field b 32 8)
  base % w = 0 && 1 ≤ n && n ≤ 2 ^ 30 && base + n * w ≤ 2 ^ 40 && field b 12 2 < 4096 && field b 14 1 < 2 && field b 15 1 ≤ 62 &&
    -(2 ^ (8 * w - 1) : Nat) ≤ fl && fl ≤ (2 ^ (8 * w - 1) - 1 : Nat) &&
    (field b 48 4 = 0 || (64 ≤ field b 48 4 && field b 48 4 ≤ 1000000)) && field b 53 3 = 0 &&
    (let m := BitVec.ofNat 512 (leNat ((b.drop 64).take 64))
     m.getLsbD s.devid && (s.isMember || m = 1))

/-- The key and scheme of every cell, through the declaring context; none where a page is not FIELD (spec 08, R187). -/
def State.cellKey (s : State) (c : BitVec 8) (a : Nat) : Option (Nat × Nat) :=
  match s.superKey noNode c false (BitVec.ofNat 64 a) with
  | none => none
  | some t => if pteField t.pte then some (t.key, pteIl t.pte) else none

/-- The bitmap as bytes, when it can be read and written (status 3 of R187). -/
def State.bitmap (s : State) (c : BitVec 8) (va n : Nat) : State × Option (List Byte) :=
  match s.run noNode c true true (BitVec.ofNat 64 va) ((n + 3) / 4) with
  | none => (s, none)
  | some l => if noFields l then s.readPieces l else (s, none)

/-- The kind that a bitmap gives cell j (spec 08, R170). -/
def kindIn (bits : List Byte) (j : Nat) : Nat := (bits.getD (j / 4) 0).toNat / 4 ^ (j % 4) % 4

/-- Checks a descriptor against the pages, the bitmap and the cells: the statuses 1 to 6 in order, 0 for none, and the domain
(spec 08, R187). -/
def State.declare (s : State) (c : BitVec 8) (b : List Byte) : State × Nat × Domain :=
  let q64 := field b 14 1 % 2 = 1
  let w := if q64 then 8 else 4
  let base := field b 0 8
  let n := field b 8 4
  let did := field b 12 2 % 4096
  let d : Domain :=
    { desc := b, base := base, ncell := n, q64 := q64, c := BitVec.ofNat 64 (field b 16 8), lseed := BitVec.ofNat 64 (field b 24 8),
      floor := signed 8 (field b 32 8), shadow := field b 40 8, gup := field b 48 4, owner := BitVec.ofNat 8 (field b 52 1),
      cq := BitVec.ofNat 64 (field b 56 8), members := BitVec.ofNat 512 (leNat ((b.drop 64).take 64)), kinds := [], pages := [],
      keys := [], state := .declaring, fdecl := none, since := s.clock.toNat, dropping := false, dropped := [], asked := false }
  if (s.domain did).isSome then (s, 1, d)
  else if !descOk s b then (s, 2, d)
  else
    let cells := (List.range n).map (fun j => (j, s.cellKey c (base + j * w)))
    let overlap := s.fld.domains.any (fun p => p.2.base < base + n * w && base < p.2.end_)
    let (s, bm) := s.bitmap c d.shadow n
    match bm with
    | none => (s, 3, d)
    | some bits =>
      if overlap || cells.any (fun x => x.2.isNone) then (s, 3, d)
      else
        let full := cells.filterMap (fun x => x.2.map (fun k => (x.1, k.1, k.2)))
        let kinds := full.filterMap (fun x => if kindIn bits x.1 = 0 then none else some (x.1, kindIn bits x.1))
        let vals := full.map (fun x => (x.1, signed w (s.lookNum x.2.1 w)))
        let val (j : Nat) : Int := ((vals.find? (fun v => v.1 = j)).map (·.2)).getD 0
        let d := { d with
          kinds := kinds
          keys := full.filter (fun x => kindIn bits x.1 ≠ 0)
          pages := full.foldl (fun ps x => let p := x.2.1 / 65536; if ps.contains p then ps else ps ++ [p]) [] }
        let bad := kinds.any (fun k => k.2 = 3) || 16 < (kinds.filter (fun k => k.2 = 1)).length ||
          16 < (kinds.filter (fun k => k.2 = 2)).length || kinds.any (fun k => val k.1 ≠ 0) ||
          vals.any (fun v => kindIn bits v.1 = 0 && v.2 < d.floor)
        if bad then (s, 4, d)
        else
          let sum := (vals.filter (fun v => kindIn bits v.1 = 0)).foldl (fun x v => x + v.2) (0 : Int)
          if BitVec.ofInt 64 sum ≠ d.lseed then (s, 5, d)
          else if 4096 ≤ s.fld.domains.length then (s, 6, d)
          else (s, 0, d)

/-- FDECL (spec 08, R187, R191): a status 1 to 6 lands next; otherwise the domain is declaring until the anchor activates it. -/
def execFdecl (f : Fields) (s : State) : Res :=
  issue (rowFdecl f) f s fun gid g =>
    withBytes s gid g { priv := false, peer := false } 128 (s.readSP g f.a) fun s b =>
      if field b 52 1 ≠ g.ctx.toNat then fdom s gid g 8 0
      else
        let did := field b 12 2 % 4096
        let (s, st, d) := s.declare g.ctx b
        let s := if g.visitor.isNone then s.unclean g.block else s
        if st ≠ 0 then .next ((s.later gid false f.d.toNat [(0, BitVec.ofNat 32 st)]).advance gid f.bytes)
        else
          let s := s.markEmpty gid false f.d.toNat 1
          let s := s.setDomain did { d with fdecl := some (gid, f.d.toNat) }
          let s := if d.anchor = s.devid then s else s.emit (.report did d.lseed)
          .next (s.advance gid f.bytes)

/-- Whether amounts of a domain, or of one of its cells (its key and address), are in flight to or from this device: their records are
HELD, OFFERED or CREDITING, or their offers stand before a home here or are accepted by it (spec 08, R172, R188, R190; spec 15, R339, R343). -/
def State.inFlight (s : State) (did : Nat) (cell : Option (Nat × Nat)) : Bool :=
  s.nodes.any (fun n =>
    n.2.home.mortars.any (fun m => m.did = did && m.state ≠ .cancelling && (match cell with
      | none => true
      | some (k, a) => m.okey = k || (if m.fabric then m.ddev = s.devid && m.daddr = a else m.dkey = k))) ||
    n.2.home.dedups.any (fun d => d.did = did && d.state = .accepted && (match cell with | none => true | some (k, _) => d.key = k))) ||
  s.fld.msgs.any (fun y => y.2.1.kind = .offer && y.2.1.did = did && (match cell with | none => true | some (_, a) => y.2.1.addr = a))

/-- Whether anything of a domain is under way on this device: an amount in flight, a transfer or a snapshot. -/
def State.domainBusy (s : State) (did : Nat) : Bool :=
  s.inFlight did none || s.fld.snaps.any (fun x => x.did = did)

/-- The domain is no longer declared on this device. -/
def State.endDomain (s : State) (did : Nat) : State := { s with fld := { s.fld with domains := Sparse.del s.fld.domains did } }

/-- FDROP (spec 08, R190): the other members are asked once to end the domain, and it ends here when they have and no amount of it is in
flight. -/
def execFdrop (f : Fields) (s : State) : Res :=
  issue (rowFdrop f) f s fun gid g =>
    let did := (s.readS g f.a).toNat
    withDomain s gid g did false fun d =>
      let others := d.devs.filter (· ≠ s.devid)
      let s := if g.visitor.isNone then s.unclean g.block else s
      let s := if d.dropping || others.isEmpty then s else (s.setDomain did { d with dropping := true }).emit (.fdrop did)
      if s.domainBusy did || !others.all (d.dropped.contains) then .next (s.stall gid .order)
      else .next ((s.endDomain did).advance gid f.bytes)

/-- FATTR (spec 08, R188). A cell that lies in another declared domain raises reason 2 (log entry 122). -/
def execFattr (f : Fields) (s : State) : Res :=
  issue (rowFattr f) f s fun gid g =>
    let did := (s.readS g f.a).toNat
    let va := s.readSP g f.b
    let kind := (s.readS g f.c).toNat
    withDomain s gid g did true fun d =>
      let look := s.cellAt g d.q64 true false va
      match fieldVerdict [{ lane := 0, sides := [(false, va, look.2)] }] with
      | some e => s.raiseNow gid g true e
      | none =>
        match look.1 with
        | none => fdom s gid g 9 va
        | some c =>
          let j := d.cell c.addr
          let at_ := d.shadow + j / 4
          let others (k : Nat) : Nat := (d.kinds.filter (fun x => x.1 ≠ j && x.2 = k)).length
          let s := if g.visitor.isNone then s.unclean g.block else s
          match s.run noNode g.ctx g.priv true (BitVec.ofNat 64 at_) 1 with
          | none => fdom s gid g 9 va
          | some l =>
            let (s, byte) := s.readPieces l
            let (s, val) := s.readCell c.il c.key d.width
            match byte, val with
            | some [b], some v =>
              if c.did ≠ did then fdom s gid g 2 va
              else if !noFields l || 2 < kind || v ≠ 0 || s.inFlight did (some (c.key, c.addr)) || (kind ≠ 0 && 16 ≤ others kind) then
                fdom s gid g 9 va
              else
                let nb := BitVec.ofNat 8 (b.toNat - b.toNat / 4 ^ (j % 4) % 4 * 4 ^ (j % 4) + kind * 4 ^ (j % 4))
                let s := s.writePieces l [nb]
                let d := { d with
                  kinds := if kind = 0 then Sparse.del d.kinds j else Sparse.put d.kinds j kind
                  keys := d.keys.filter (fun k => k.1 ≠ j) ++ (if kind = 0 then [] else [(j, c.key, c.il)]) }
                .next ((s.setDomain did d).advance gid f.bytes)
            | _, _ => .next (s.consume gid)

/-- FGUP (spec 08, R189). -/
def execFgup (f : Fields) (s : State) : Res :=
  issue (rowFgup f) f s fun gid g =>
    let did := (s.readS g f.a).toNat
    let us := (s.readS g f.b).toNat
    withDomain s gid g did true fun d =>
      if (1 ≤ us && us < 64) || 1000000 < us then fdom s gid g 10 0
      else
        let s := if g.visitor.isNone then s.unclean g.block else s
        .next ((s.setDomain did { d with gup := us }).advance gid f.bytes)

end Sys2Proof.Machine
end

