-- ==== Sys2Proof/Machine/FieldEvents.lean ====
section
/-! DEFINITION. The steps of field homes: debits, the messages of a transfer, give-up and resending (spec 15, R341 to R346,
R477), snapshots (R347), and the activation of domains (spec 08, R187). -/

namespace Sys2Proof.Machine

open Sys2Proof

/-- A message that stands before a home of this device, of one kind. -/
def State.fieldMsg (s : State) (m : Nat) (k : FKind) : Option (FMsg × Option Packet) :=
  match s.fld.msgs.find? (fun x => x.1 = m) with
  | none => none
  | some x => if x.2.1.kind = k then some x.2 else none

/-- The home has acted on a message: it is gone, and its packet is acknowledged (spec 21, R426). -/
def State.acted (s : State) (m : Nat) (p : Option Packet) : State :=
  let s := { s with fld := { s.fld with msgs := s.fld.msgs.filter (fun x => x.1 ≠ m), parked := s.fld.parked.filter (· ≠ m) } }
  match p with
  | none => s
  | some q => s.ackPacket q 0

def Xfer.bytes (x : Xfer) : Nat := if x.q64 then 8 else 4

/-- The entry of a record at any home of this device. -/
def State.findDedup (s : State) (odev mseq : Nat) : Option (Nat × Dedup) :=
  (s.nodes.filterMap (fun n => (s.dedup n.1 odev mseq).map (fun d => (n.1, d)))).head?

/-- Where the DADDR of an offer lies, through the context that its tag binds. -/
def State.offerTrans (s : State) (o : FMsg) : Option Trans :=
  match s.contextOf o.dctx with
  | none => none
  | some c => match s.translate noNode c true false false (BitVec.ofNat 64 o.addr) with
    | .error _ => none
    | .ok t => if windowOf (BitVec.ofNat 64 o.addr) = 0 then some t else none

/-- The checks of R477: the cell's key, scheme and domain, or the reason of the refusal. -/
def State.offerAt (s : State) (o : FMsg) : Except Nat (Nat × Nat × Domain) :=
  match s.offerTrans o with
  | none => .error 2
  | some t =>
    if !pteField t.pte then .error 4
    else match s.domain o.did with
      | none => .error 4
      | some d =>
        if d.state = .active && d.has o.addr && (o.addr - d.base) % d.width = 0 && d.q64 = o.q64 then .ok (t.key, pteIl t.pte, d)
        else .error 4

/-- The home that keeps the answer to an offer (log entry 111). -/
def State.offerHome (s : State) (o : FMsg) : Nat :=
  match s.offerTrans o with
  | none => 192
  | some t => if ptePeer t.pte then 192 else homeOf (pteIl t.pte) t.key

/-- The cells that a message updates here: home, domain and address (spec 15, R341, R347). -/
def State.touches (s : State) (m : FMsg) (fabric : Bool) : List (Nat × Nat × Nat) :=
  let origin : List (Nat × Nat × Nat) := match s.mortar (seqHome m.mseq) m.mseq with
    | none => []
    | some r => [(seqHome m.mseq, r.did, r.oaddr)]
  match m.kind with
  | .debit => m.lanes.map (fun l => (m.home, l.did, l.oaddr))
  | .giveBack => ((s.node m.home).home.mortars.filter (fun r => r.xid = m.xid)).map (fun r => (m.home, r.did, r.oaddr))
  | .offer => if (s.findDedup m.odev m.mseq).isSome then [] else [(s.offerHome m, m.did, m.addr)]
  | .credit =>
    if fabric then (match s.findDedup m.odev m.mseq with | some (n, _) => [(n, m.did, m.addr)] | none => [])
    else (match s.mortar (seqHome m.mseq) m.mseq with | some r => [(homeOf r.dil r.dkey, r.did, r.daddr)] | none => [])
  | .ovf | .refuse => origin
  | _ => []

/-- Whether a home has no room for `n` more records, or a SEQ that its counter would reach is still held (spec 15, R339, R340). -/
def State.noRecords (s : State) (home n : Nat) : Bool :=
  let h := (s.node home).home
  homeCap home < h.mortars.length + n ||
    (List.range n).any (fun i => h.mortars.any (fun r => r.seq = home * 2 ^ 40 + (h.counter + i) % 2 ^ 40))

/-- The messages that wait at the homes and arrived before a message, with whether a packet brought them. -/
def State.earlier (s : State) (id : Nat) : List (Nat × FMsg × Bool) :=
  (s.fld.parked.takeWhile (· ≠ id)).filterMap (fun p => (s.fld.msgs.find? (fun y => y.1 = p)).map (fun y => (p, y.2.1, y.2.2.isSome)))

/-- The cells that a message may update now: no snapshot holds them, and no earlier message waits there (spec 15, R347). -/
def State.goes (s : State) (id : Nat) (m : FMsg) (fabric : Bool) : List (Nat × Nat × Nat) :=
  (s.touches m fabric).filter (fun c => !s.cellHeld c.1 c.2.1 c.2.2 && !(s.earlier id).any (fun y => (s.touches y.2.1 y.2.2).contains c))

/-- The lanes of a DEBIT whose cells are among some. -/
def servedLanes (m : FMsg) (cells : List (Nat × Nat × Nat)) : List FLane := m.lanes.filter (fun l => cells.contains (m.home, l.did, l.oaddr))

/-- Whether a message waits at its home, in the order of arrival: every cell that it updates makes it wait, or a debit finds no free records
or comes after one that found none (spec 15, R339, R347). -/
def State.waitsHere (s : State) (id : Nat) (m : FMsg) (fabric : Bool) : Bool :=
  (!(s.touches m fabric).isEmpty && (s.goes id m fabric).isEmpty) ||
    (m.kind = .debit && (s.noRecords m.home (servedLanes m (s.goes id m fabric)).length ||
      (s.earlier id).any (fun y => y.2.1.kind = .debit && y.2.1.home = m.home && !(s.goes y.1 y.2.1 y.2.2).isEmpty)))

/-- A message waits at its home. -/
def State.parkMsg (s : State) (m : Nat) : State :=
  if s.fld.parked.contains m then s else { s with fld := { s.fld with parked := s.fld.parked ++ [m] } }

/-- Runs the action on a message of one kind that is `ready`. One that its home holds back waits there. The action answers nothing while it
must wait, else the state, and whether the message has been acted on whole. -/
def onMsg (s : State) (m : Nat) (k : FKind) (ready : State → FMsg → Option Packet → Bool)
    (f : State → FMsg → Option Packet → Option (State × Bool)) : Res :=
  match s.fieldMsg m k with
  | none => .next s
  | some (x, p) =>
    if !ready s x p then .next s
    else if s.waitsHere m x p.isSome then .next (s.parkMsg m)
    else match f s x p with
      | none => .next s
      | some (t, done) => .next (if done then t.acted m p else t.parkMsg m)

/-- A message that waits for nothing but its home. -/
def anyTime (_ : State) (_ : FMsg) (_ : Option Packet) : Bool := true

/-- An action that is always taken. -/
def acts (s : State) : Option (State × Bool) := some (s, true)

/-- Whether a debit must still wait: a release or acquire of its group, an earlier access or debit of the group to its cells, or a bank
(spec 08, R182, R183; spec 14, R333). -/
def State.debitWaits (s : State) (x : Xfer) (m : FMsg) : Bool :=
  (x.rel && s.unreleased x.gid x.id x.scope) || s.acquiring x.gid x.id ||
  m.lanes.any (fun l =>
    s.bankFull l.oil l.okey ||
    (s.before x.gid x.id).any (fun a => a.parts.any (fun p => s.xferMeets { x with lanes := [l] } p)) ||
    s.fld.msgs.any (fun y => y.2.1.kind = .debit && y.2.1.xid < x.id && y.2.1.lanes.any (fun k => k.okey = l.okey) &&
      s.fld.xfers.any (fun z => z.id = y.2.1.xid && z.gid = x.gid)))

/-- The accesses that a transfer is ordered after at .cor or wider by its release or an earlier fence are below this identity. -/
def Xfer.releaseBound (x : Xfer) : Nat := if x.rel && 1 ≤ x.scope then x.id else x.corAt

/-- The debit of one lane at its home (spec 08, R177): withheld below the floor, else taken into a HELD record. The floor is that of the cell's
domain, 0 once the domain has ended here (log entry 121). -/
def State.debitLane (s : State) (x : Xfer) (m : FMsg) (l : FLane) : State :=
  let n := x.bytes
  let (s, c) := s.readCell l.oil l.okey n
  match c with
  | none => (s.consume x.gid).resolve x.id l.lane 9 0
  | some c =>
    let floor := match s.domain l.did with | none => 0 | some d => d.floorOf (d.cell l.oaddr)
    if c - l.amt < floor then
      { s with fld := { s.fld with xfers := updWhere s.fld.xfers (fun y => y.id = x.id) (fun y => { y with short := y.short ++ [(l.lane, c)] }) } }
    else
      let s := s.writeCell l.oil l.okey n (c - l.amt) (s.xferReleased x)
      let r (h : Home) : Mortar :=
        { amt := l.amt, daddr := l.daddr, oaddr := l.oaddr, okey := l.okey, oil := l.oil, dkey := l.dkey, dil := l.dil,
          seq := m.home * 2 ^ 40 + h.counter % 2 ^ 40, ddev := l.ddev, did := l.did, lane := l.lane, icore := x.node, xid := x.id,
          itag := x.itag, gup := l.gup, state := .held, fabric := l.fabric, deadline := 0, lmask := 0, busyAt := none, q64 := x.q64 }
      s.modHome m.home (fun h => { h with mortars := h.mortars ++ [r h], counter := h.counter + 1 })

/-- DEBIT (spec 15, R339, R340, R341): the lanes of cells that a snapshot holds wait (R347), and the answer is complete when none is left. -/
def execDebit (m : Nat) (s : State) : Res :=
  let waits (s : State) (d : FMsg) : Bool := match s.fld.xfers.find? (fun x => x.id = d.xid) with
    | none => false
    | some x => s.debitWaits x d && !s.heldBefore x.gid (x.releaseBound)
  onMsg s m .debit (fun s d _ => !waits s d) fun s d _ =>
    match s.fld.xfers.find? (fun x => x.id = d.xid) with
    | none => acts s
    | some x =>
      let now := servedLanes d (s.goes m d false)
      if s.heldBefore x.gid x.releaseBound then
        -- the stores that it comes after are no longer held (spec 18, R398)
        match s.group x.gid with
        | none => none
        | some g => some ((s.releaseHeld g.block).unclean g.block, false)
      else match s.remote x.rmt x.node (now.map (fun l => (l.okey, x.bytes))) with
        | some t => some (t, false)
        | none =>
          let s := if x.rel && x.scope = 1 then s.addPoint x.node x.gid x.id else s
          let s := now.foldl (fun s l => s.debitLane x d l) s
          let rest := d.lanes.filter (fun l => !now.contains l)
          if !rest.isEmpty then
            some ({ s with fld := { s.fld with msgs := updWhere s.fld.msgs (fun y => y.1 = m) (fun y => (m, { d with lanes := rest }, y.2.2)) } }, false)
          else match s.fld.xfers.find? (fun y => y.id = x.id) with
          | none => acts s
          | some y =>
            let y := { y with waiting := y.waiting.filter (· ≠ d.home) }
            let s := { s with fld := { s.fld with xfers := updWhere s.fld.xfers (fun z => z.id = x.id) (fun _ => y) } }
            acts (if y.waiting.isEmpty then s.settle y else s)

/-- GO (spec 15, R341 to R343): each record starts its path, with the lanes that name its cell as LMASK, and the give-up time that its
transfer started with (spec 08, R189). -/
def execGo (m : Nat) (s : State) : Res :=
  onMsg s m .go anyTime fun s d _ =>
    acts (((s.node d.home).home.mortars.filter (fun r => r.xid = d.xid && r.state = .held)).foldl (fun s r =>
      let lmask := maskOf (fun L => d.lanes.any (fun l => l.lane = L && l.ddev = r.ddev && l.daddr = r.daddr))
      let r := { r with lmask := lmask, state := if r.fabric then .offered else .crediting, deadline := s.giveUpClock + r.gup }
      (s.setMortar r.seq (fun _ => r)).sendOffer r (if r.fabric then .offer else .credit)) s)

/-- RETURN (spec 15, R341): an amount of a cell that a snapshot holds waits (R347). -/
def execReturnAmount (m : Nat) (s : State) : Res :=
  onMsg s m .giveBack anyTime fun s d _ =>
    let mine (s : State) : List Mortar := (s.node d.home).home.mortars.filter (fun r => r.xid = d.xid)
    let t := ((mine s).filter (fun r => (s.goes m d false).contains (d.home, r.did, r.oaddr))).foldl (fun s r => (s.giveBack r).freeMortar r.seq) s
    some (t, (mine t).isEmpty)

/-- A new entry with its answer, or BUSY when none is free (spec 15, R343). -/
def State.decideOffer (s : State) (n : Nat) (o : FMsg) (key il : Nat) (st : DState) : State :=
  if homeCap n ≤ (s.node n).home.dedups.length then s.reply o .busy 0
  else
    let d : Dedup :=
      { odev := o.odev, seq := o.mseq, state := st, key := key, il := il, q64 := o.q64, amt := o.amt, did := o.did, xid := o.xid,
        lane := o.lane, sentAt := s.clock.toNat }
    let a := answerOf d
    ((s.setDedup n d).decide o).reply o a.1 a.2

/-- The most that a cell holds (spec 08, R170). -/
def ceiling (w : Nat) : Int := (2 ^ (8 * w - 1) - 1 : Nat)

/-- OFFER (spec 15, R343, R477). -/
def execOffer (m : Nat) (s : State) : Res :=
  onMsg s m .offer (fun s o _ => (s.findDedup o.odev o.mseq).isSome || (s.offerAt o).toOption.isNone || s.turnOf o) fun s o _ =>
    match s.findDedup o.odev o.mseq with
    | some (_, d) => let a := answerOf d; acts (s.reply o a.1 a.2)
    | none =>
      match s.offerAt o with
      | .error r => acts (s.decideOffer (s.offerHome o) o 0 0 (.refused r))
      | .ok (key, il, d) =>
        let n := homeOf il key
        if s.bankFull il key then none
        else
          let (s, c) := s.readCell il key d.width
          match c with
          | none => acts (s.reply o .busy 0)
          | some c =>
            acts (s.decideOffer n o key il (if ceiling d.width < c + s.reserved n key + o.amt then .overflowed else .accepted))

/-- The device that a fabric answer came from. -/
def sender (p : Option Packet) : Nat := match p with | none => 0 | some q => q.src

/-- ACCEPT (spec 15, R343, R345). -/
def execAccept (m : Nat) (s : State) : Res :=
  onMsg s m .accept anyTime fun s a p =>
    match s.mortar (seqHome a.mseq) a.mseq with
    | none => acts (s.sendField true (sender p) 0 a.dctx { FMsg.blank with kind := .cancel, odev := s.devid, mseq := a.mseq, did := a.did })
    | some r =>
      match r.state with
      | .offered => let r := { r with state := .crediting }; acts ((s.setMortar r.seq (fun _ => r)).sendOffer r .credit)
      | .cancelling => acts (s.sendOffer r .cancel)
      | _ => acts s

/-- The field ACK of a record (spec 15, R341). -/
def State.sendAck (s : State) (dev mseq tag did : Nat) : State :=
  s.sendField true dev 0 tag { FMsg.blank with kind := .ack, odev := s.devid, mseq := mseq, did := did }

/-- A record's amount returns with a status, and the record frees; on the fabric path the answer is acknowledged. -/
def State.refund (s : State) (r : Mortar) (code reason : Nat) : State :=
  let s := (((s.giveBack r).freeMortar r.seq).sendStatus r code reason)
  let s := if code = 3 then s else s.withdrawn r code
  if r.fabric then s.sendAck r.ddev r.seq (s.fieldTag r.did) r.did else s

/-- OVF (spec 15, R342, R343, R345). -/
def execOvf (m : Nat) (s : State) : Res :=
  onMsg s m .ovf anyTime fun s a p =>
    match s.mortar (seqHome a.mseq) a.mseq with
    | none => acts (s.sendAck (sender p) a.mseq a.dctx a.did)
    | some r => acts (if (r.fabric && r.state = .offered) || (!r.fabric && r.state = .crediting) then s.refund r 3 0 else s)

/-- REFUSE (spec 15, R343, R345, R477). -/
def execRefuse (m : Nat) (s : State) : Res :=
  onMsg s m .refuse anyTime fun s a p =>
    match s.mortar (seqHome a.mseq) a.mseq with
    | none => acts (s.sendAck (sender p) a.mseq a.dctx a.did)
    | some r => acts (if r.state = .offered then s.refund r 4 a.reason else s)

/-- BUSY (spec 15, R343). -/
def execBusy (m : Nat) (s : State) : Res :=
  onMsg s m .busy anyTime fun s a _ => acts (s.setMortar a.mseq (fun r => { r with busyAt := some s.clock.toNat }))

/-- OFFER_RESEND: 1 µs after BUSY (spec 15, R343). -/
def execOfferResend (mseq : Nat) (s : State) : Res :=
  match s.mortar (seqHome mseq) mseq with
  | none => .next s
  | some r =>
    match r.state, r.busyAt with
    | .offered, some t =>
      if t + 1600 ≤ s.clock.toNat then .next ((s.setMortar mseq (fun r => { r with busyAt := none })).sendOffer r .offer)
      else .next s
    | _, _ => .next s

/-- The commit of a credit, or its overflow, on the local path; amounts reserved at the cell count against its ceiling (spec 15, R342,
R343; spec 08, R170). -/
def State.creditLocal (s : State) (c : FMsg) (r : Mortar) : State :=
  let n := homeOf r.dil r.dkey
  let w := if r.q64 then 8 else 4
  let (s, v) := s.readCell r.dil r.dkey w
  let answer (s : State) (k : FKind) : State :=
    (s.decide c).send { FMsg.blank with kind := k, home := seqHome r.seq, odev := c.odev, mseq := r.seq, did := r.did }
  match v with
  | none =>
    let gid := match s.fld.xfers.find? (fun x => x.id = r.xid) with | none => 0 | some x => x.gid
    answer (s.consume gid) .ovf
  | some v =>
    if ceiling w < v + s.reserved n r.dkey + c.amt then answer s .ovf
    else answer (s.writeCell r.dil r.dkey w (v + c.amt) (s.releasedBy r.xid)) .done

/-- CREDIT (spec 15, R342, R343). -/
def execCredit (m : Nat) (s : State) : Res :=
  onMsg s m .credit (fun s c p => p.isSome || (s.mortar (seqHome c.mseq) c.mseq).isNone || s.turnOf c) fun s c p =>
    match p with
    | none => (match s.mortar (seqHome c.mseq) c.mseq with
      | none => acts s
      | some r =>
        if s.bankFull r.dil r.dkey then none
        else
          let x := s.fld.xfers.find? (fun x => x.id = r.xid)
          match s.remote (x.any (·.rmt)) r.icore [(r.dkey, if r.q64 then 8 else 4)] with
          | some t => some (t, false)
          | none => acts (s.creditLocal c r))
    | some _ =>
      match s.findDedup c.odev c.mseq with
      | none => acts s
      | some (n, d) =>
        if d.state = .accepted then
          if s.bankFull d.il d.key then none
          else
            let s := s.addCell d.il d.key (if d.q64 then 8 else 4) d.amt none
            acts ((s.setDedup n { d with state := .applied, sentAt := s.clock.toNat }).reply c .done 0)
        else let a := answerOf d; acts (s.reply c a.1 a.2)

/-- DONE (spec 15, R341, R345). -/
def execDone (m : Nat) (s : State) : Res :=
  onMsg s m .done anyTime fun s a p =>
    match s.mortar (seqHome a.mseq) a.mseq with
    | none => acts (if p.isSome then s.sendAck (sender p) a.mseq a.dctx a.did else s)
    | some r =>
      if r.state = .crediting then
        let s := (s.freeMortar r.seq).sendStatus r 0 0
        acts (if r.fabric then s.sendAck r.ddev r.seq (s.fieldTag r.did) r.did else s)
      else acts s

/-- ACK (spec 15, R341). -/
def execAck (m : Nat) (s : State) : Res :=
  onMsg s m .ack anyTime fun s a _ =>
    match s.findDedup a.odev a.mseq with
    | none => acts s
    | some (n, _) => acts (s.dropDedup n a.odev a.mseq)

/-- CANCEL at the destination home (spec 15, R344); the lane counts as decided. -/
def execCancel (m : Nat) (s : State) : Res :=
  onMsg s m .cancel anyTime fun s c _ =>
    match s.findDedup c.odev c.mseq with
    | some (n, d) => acts (if d.state = .applied then s else s.dropDedup n c.odev c.mseq)
    | none => acts (s.decide c)

/-- STATUS at the issuing core (spec 15, R341; spec 08, R181). -/
def execStatus (m : Nat) (s : State) : Res :=
  onMsg s m .status anyTime fun s a _ => acts (s.resolve a.xid a.lane (a.reason % 16) (a.reason / 16))

/-- GLEFT of a record has run out with no answer received (spec 15, R344); it is paused during a re-key (spec 21, R421). -/
def State.gupDue (s : State) (r : Mortar) : Bool :=
  r.state = .offered && r.deadline ≤ s.giveUpClock &&
    !s.fld.msgs.any (fun x => x.2.1.mseq = r.seq && (x.2.1.kind = .accept || x.2.1.kind = .ovf || x.2.1.kind = .refuse))

/-- The amount of a record returns with status 2, and its CANCEL is sent. -/
def State.giveUp (s : State) (r : Mortar) : State :=
  let s := ((s.giveBack r).sendStatus r 2 0).withdrawn r 2
  let r := { r with state := .cancelling }
  (s.setMortar r.seq (fun _ => r)).sendOffer r .cancel

/-- GIVE_UP (spec 15, R344); the return waits while a snapshot holds the origin (R347). -/
def execGiveUp (mseq : Nat) (s : State) : Res :=
  match s.mortar (seqHome mseq) mseq with
  | none => .next s
  | some r => .next (if s.gupDue r && !s.cellHeld (seqHome mseq) r.did r.oaddr then s.giveUp r else s)

/-- A field message arrives with its packet. An answer that comes after the cycle in which GLEFT ran out comes too late: the record is
given up first, or, while a snapshot holds its origin, the answer changes nothing (spec 15, R344, R345). -/
def State.fieldArrives (s : State) (m : FMsg) (p : Packet) : State :=
  let take (s : State) : State := { s with fld := { s.fld with msgs := s.fld.msgs ++ [(s.own.ids, m, some p)] } }.newId
  match s.mortar (seqHome m.mseq) m.mseq with
  | none => take s
  | some r =>
    if (m.kind = .accept || m.kind = .ovf || m.kind = .refuse) && s.gupDue r && r.deadline < s.giveUpClock then
      if s.cellHeld (seqHome m.mseq) r.did r.oaddr then s.ackPacket p 0 else take (s.giveUp r)
    else take s

/-- ANSWER_RESEND: an entry with no ACK sends its answer again every 64 µs (spec 15, R345). -/
def execAnswerResend (dev mseq : Nat) (s : State) : Res :=
  match s.findDedup dev mseq with
  | none => .next s
  | some (n, d) =>
    if d.state = .accepted || s.clock.toNat < d.sentAt + 64 * 1600 then .next s
    else
      let a := answerOf d
      let tag := s.fieldTag d.did
      .next ((s.setDedup n { d with sentAt := s.clock.toNat }).reply { FMsg.blank with odev := dev, mseq := mseq, did := d.did, dctx := tag } a.1 a.2)

/-! ### Snapshots (spec 15, R347) -/

/-- The contents of the sources (1) or sinks (2) of a domain at a home, summed. -/
def State.sumAt (s : State) (d : Domain) (n kind : Nat) : Int :=
  (d.keys.filter (fun k => d.kind k.1 = kind && homeOf k.2.2 k.2.1 = n)).foldl
    (fun x k => x + signed d.width (s.lookNum k.2.1 d.width)) 0

/-- A home holds the source and sink cells of a domain for a snapshot until GUP after. -/
def State.holdHome (s : State) (owner snap did : Nat) (d : Domain) : State :=
  s.modHome owner (fun h => { h with holds := h.holds ++ [(snap, did, s.clock.toNat + gupCycles d.gup)] })

/-- HOLD: a home stops updating the domain's source and sink cells and answers with their contents; the anchor counts an answer up to
GUP/2 after its first HOLD. A member's answer is what its own homes hold, which this device does not determine; the snapshot of another
device's anchor names its domain by its low 12 bits (log entry 26). -/
def execHold (snap owner : Nat) (s : State) : Res :=
  match s.fld.snaps.find? (fun x => x.id = snap) with
  | some x =>
    match s.domain x.did with
    | none => .next s
    | some d =>
      let held := owner < 256 && (s.node owner).home.holds.any (fun h => h.1 = snap)
      let late := x.h0 + gupCycles d.gup / 2 < s.clock.toNat
      if !x.begun || !x.homes.contains owner || held || x.answers.any (fun a => a.1 = owner) then .next s
      else
        let a : Nat × Dword × Dword :=
          if owner < 256 then (owner, BitVec.ofInt 64 (s.sumAt d owner 1), BitVec.ofInt 64 (s.sumAt d owner 2))
          else (owner, Config.freeDword s.own.fresh (2 * owner), Config.freeDword s.own.fresh (2 * owner + 1))
        let s := if owner < 256 then s.holdHome owner snap x.did d else s
        .next (if late then s else { s with fld := { s.fld with
          snaps := updWhere s.fld.snaps (fun y => y.id = snap) (fun y => { y with answers := y.answers ++ [a] }) } })
  | none =>
    let did := snap % 4096
    match s.domain did with
    | none => .next s
    | some d =>
      if d.anchor = s.devid || 256 ≤ owner || (s.node owner).home.holds.any (fun h => h.1 = snap) then .next s
      else
        .next ((s.holdHome owner snap did d).emit (.held did (BitVec.ofInt 64 (s.sumAt d owner 1)) (BitVec.ofInt 64 (s.sumAt d owner 2))))

/-- Every home released, those of the other members by a message, and the next snapshots begin. -/
def State.endSnap (s : State) (x : Snap) : State :=
  let s := s.mapNodes (fun n => { n with home := { n.home with holds := n.home.holds.filter (fun h => h.1 ≠ x.id) } })
  let s := { s with fld := { s.fld with snaps := s.fld.snaps.filter (fun y => y.id ≠ x.id) } }
  let others := x.homes.filter (fun h => 256 ≤ h)
  let s := match s.domain x.did with
    | none => s
    | some d => if d.anchor = s.devid then others.foldl (fun s h => s.emit (.release x.did (h - 256))) s else s
  s.beginSnaps

/-- Whether every home has answered in time. -/
def snapDone (x : Snap) : Bool := x.begun && x.homes.all (fun h => x.answers.any (fun a => a.1 = h))

/-- The figure of a snapshot whose answers are in. -/
def Snap.value (x : Snap) (d : Domain) : Dword :=
  let sum := x.answers.foldl (fun v a => v + a.2.1) (0 : Dword)
  let sink := x.answers.foldl (fun v a => v + a.2.2) (0 : Dword)
  match x.figure with | 0 => d.c | 2 => sum | 3 => sink | _ => d.c - sum - sink

/-- What was asked for reaches who asked: the ftot's register, or its FABERR; another member; the debugger. -/
def State.answerSnap (s : State) (x : Snap) (d : Domain) (late : Option Nat) : State :=
  match x.asker, late with
  | .group gid dst, none =>
    let v := x.value d
    ((s.deliverS gid dst (v.truncate 32) true 0).deliverS gid (dst + 1) ((v >>> 32).truncate 32) true 0).tryRetire gid
  | .group gid _, some dev => (s.raise gid { cause := 16, lanes := 0, addr := 0, aux := BitVec.ofNat 64 (dev + 4096) }).tryRetire gid
  | .member dev, none => s.emit (.total x.did dev (some (x.value d)))
  | .member dev, some _ => s.emit (.total x.did dev none)
  | .debugger, none => s.emit (.hostData (leBytes (x.value d).toNat 8))
  | .debugger, some _ => s.emit (.hostData [])

/-- SNAPSHOT_RELEASE: every home resumes and the figure is answered; for a snapshot of another device's anchor, its homes here resume. -/
def execSnapshotRelease (snap : Nat) (s : State) : Res :=
  match s.fld.snaps.find? (fun x => x.id = snap) with
  | some x =>
    (match s.domain x.did with
    | none => .next s
    | some d => .next (if snapDone x then (s.endSnap x).answerSnap x d none else s))
  | none =>
    .next (s.mapNodes (fun n => { n with home := { n.home with holds := n.home.holds.filter (fun h => h.1 ≠ snap) } }))

/-- The lowest member whose homes did not answer in time; another device's anchor names one of the members, which this device does not
determine (spec 08, R185; log entry 26). -/
def State.lateMember (s : State) (x : Snap) (d : Domain) : Nat :=
  if d.anchor = s.devid then
    let devs := (x.homes.filter (fun h => !x.answers.any (fun a => a.1 = h))).map (fun h => if h < 256 then s.devid else h - 256)
    least (devs.headD 0) devs
  else d.devs.getD ((Config.freeWord s.own.fresh (0xC000000 + x.id)).toNat % d.devs.length) 0

/-- SNAPSHOT_TIMEOUT: the ftot raises FABERR, and D stays empty (spec 08, R185). -/
def execSnapshotTimeout (snap : Nat) (s : State) : Res :=
  match s.fld.snaps.find? (fun x => x.id = snap) with
  | none => .next s
  | some x =>
    match s.domain x.did with
    | none => .next s
    | some d =>
      if !x.begun || snapDone x || s.clock.toNat ≤ x.h0 + gupCycles d.gup / 2 then .next s
      else .next ((s.endSnap x).answerSnap x d (some (s.lateMember x d)))

/-- HOLD_SELF_RESUME: GUP after its HOLD a home resumes by itself. -/
def execHoldSelfResume (snap owner : Nat) (s : State) : Res :=
  if (s.node owner).home.holds.any (fun h => h.1 = snap && h.2.2 ≤ s.clock.toNat) then
    .next (s.modHome owner (fun h => { h with holds := h.holds.filter (fun y => y.1 ≠ snap) }))
  else .next s

/-! ### Activation (spec 08, R187) -/

/-- An fdecl resolves with a status. -/
def State.endDecl (s : State) (d : Domain) (status : Nat) : State :=
  match d.fdecl with
  | none => s
  | some (gid, r) => (s.deliverS gid r (BitVec.ofNat 32 status) true 0).tryRetire gid

/-- DOMAIN_ACTIVATION: every member has declared; `reports` are the other members' LSEED values. The anchor activates the domain on every
member, or fails it there. -/
def execDomainActivation (did : Nat) (reports : List (Nat × BitVec 64)) (s : State) : Res :=
  match s.domain did with
  | none => .next s
  | some d =>
    if d.state ≠ .declaring || reports.map (·.1) ≠ d.devs.filter (· ≠ s.devid) then .next s
    else
      let sum := reports.foldl (fun v r => v + r.2) d.lseed
      let ok := sum = d.c
      let s := if d.anchor = s.devid then reports.foldl (fun s r => s.emit (.activation did r.1 ok)) s else s
      .next ((s.setDomain did { d with state := if ok then .active else .failed, fdecl := none }).endDecl d (if ok then 0 else 7))

/-- FDECL_TIMEOUT: not every member declared within GUP; the domain is dropped here. -/
def execFdeclTimeout (did : Nat) (s : State) : Res :=
  match s.domain did with
  | none => .next s
  | some d =>
    if d.state ≠ .declaring || s.clock.toNat < d.since + gupCycles d.gup then .next s
    else .next ({ s with fld := { s.fld with domains := Sparse.del s.fld.domains did } }.endDecl d 8)

end Sys2Proof.Machine
end

