-- ==== Sys2Proof/Machine/MemoryEvents.lean ====
section
/-! DEFINITION. What homes and cores do with outstanding accesses: replies, stores and atomics at their home, waits and
their answers, sleep expiry, core wake, and the write-combining lines (spec 07; spec 01, R36; spec 11, R243). -/

namespace Sys2Proof.Machine

open Sys2Proof

/-- An access and the part of it that an event names, when the part is this device's and nothing holds it back; with the
memory key of the part (spec 13, R286; spec 14, R333). -/
def State.partAt (s : State) (req part : Nat) : Option (Access × Part × Nat) :=
  match s.accs.find? (fun a => a.id = req) with
  | none => none
  | some a =>
    match a.parts.find? (fun p => p.id = part) with
    | none => none
    | some p =>
      if p.peer.isSome || p.msg.isSome || p.hold || s.blocked a p then none
      else match s.place p.loc with
        | none => none
        | some key => if s.bankFull p.il key then none else some (a, p, key)

/-- A part that nothing performs yet: the stores that its block holds under CONTAIN enter the ordinary path where one of them must come before
it (log entry 104). -/
def State.unready (s : State) (req part : Nat) : Res :=
  match s.accs.find? (fun a => a.id = req) with
  | none => .next s
  | some a => match a.parts.find? (fun p => p.id = part), s.group a.gid with
    | some p, some g =>
      if p.msg.isNone && (!a.isLoad || a.homeOnly) && s.heldFirst a p then .next ((s.releaseHeld g.block).unclean g.block) else .next s
    | _, _ => .next s

/-- An acquiring access invalidates the read buffer when it is performed (spec 07, R155). -/
def State.acquiredBy (s : State) (a : Access) : State := if a.acq then s.acquired a.node a.scope else s

/-- An uncorrectable read: its issuer consumes it and nothing is returned (spec 14, R335); a helper lane raises nothing, and its destination
is zero and full (spec 01, R12). -/
def State.lost (s : State) (a : Access) (p : Part) : State :=
  if p.lanes ≠ 0 && p.lanes &&& ~~~a.helpers = 0 then s.failPart a p 0
  else { s with accs := s.accs.filter (fun b => b.id ≠ a.id) }.consume a.gid

/-- What a vldrb reads from far memory: the read buffer's sector, else the home's, which fills it (spec 07, R155; spec 14,
R328; log entry 25). -/
def State.readRb (s : State) (a : Access) (p : Part) (key : Nat) : State × Option (List Byte) :=
  let sector := key / 32
  match (s.node a.node).rb.find? (fun e => e.key = sector && e.ctx = a.ctx) with
  | some e => (s, some ((e.data.drop (key % 32)).take p.len))
  | none =>
    let (t, x) := s.readAt p.il (sector * 32) 32
    (match x with
      | none => (t, none)
      | some bs => (t.fillRb a.node a.ctx sector bs, some ((bs.drop (key % 32)).take p.len)))

/-- LOAD_REPLY (spec 07, R149, R150; spec 13, R286). A vldrb reads the buffer for far memory only; a window is no far memory,
wherever its bytes lie (spec 07, R146, R155). -/
def execLoadReply (req part : Nat) (s : State) : Res :=
  match s.partAt req part with
  | none => s.unready req part
  | some (a, p, key) =>
    let buffered := match p.loc with | .mem _ => a.rb && key < 2 ^ 39 | _ => false
    match a.kind with
    | .load _ =>
      remotely s a.rmt a.node key p.len <|
        if buffered then
          let (t, x) := s.readRb a p key
          .next (match x with
            | none => t.lost a p
            | some bs => t.partDone a p bs)
        else
          let (t, x) := s.readAt p.il key p.len
          .next (match x with
            | none => t.lost a p
            | some bs =>
              let r := t.loadBytes a key bs
              ((t.addDeps a.gid a.id r.2).acquiredBy a).partDone a p r.1)
    | .field _ =>
      remotely s a.rmt a.node key p.len <|
        let (t, x) := s.readAt p.il key p.len
        .next (match x with
          | none => t.lost a p
          | some bs => (t.acquiredBy a).partDone a p bs)
    | .owner => .next (s.partDone a p [])
    | _ => .next s

/-- What a store or atomic leaves in a word that a release at .cor writes: its core, and its place in the core's order (spec 07, R158). -/
def State.released (s : State) (a : Access) (p : Part) : Option (Nat × Nat) :=
  if a.corAt = 0 then none else some (a.node, if p.vis = 0 then s.own.seq + 1 else p.vis)

/-- A release at .cor that no group of its core has seen before takes its place when its home performs it. -/
def State.homePoint (s : State) (a : Access) (p : Part) : State :=
  if a.rel && a.scope = 1 && p.vis = 0 then s.addPoint a.node a.gid a.id else s

/-- STORE_AT_HOME (spec 13, R286). What it replaces in the block's own bytes goes to the rollback log, though its group may have retired
(spec 18, R396). -/
def execStoreAtHome (req part : Nat) (s : State) : Res :=
  match s.partAt req part with
  | none => s.unready req part
  | some (a, p, key) =>
    match a.kind with
    | .store =>
      let s := match s.blocks.find? (fun b => b.2.gids.contains a.gid) with
        | none => s
        | some b => s.logBytes b.1 a.gid key p.len
      let t := (s.writeAt p.il key p.data (s.released a p)).1
      .next (((t.homePoint a p).partDone a p []).pump)
    | _ => .next s

/-- ATOMIC_AT_HOME: one indivisible read and write of the word (spec 07, R161, R162, R166). -/
def execAtomicAtHome (req part : Nat) (s : State) : Res :=
  match s.partAt req part with
  | none => s.unready req part
  | some (a, p, key) =>
    let go (new : Nat → Option Nat) (crossed : Nat → Bool) : Res :=
      let (t, x) := s.readAt p.il key p.len
      .next (match x with
        | none => t.lost a p
        | some bs =>
          let old := leNat bs
          let t := match new old with
            | none => t
            | some n => (t.writeAt p.il key (leBytes n p.len) (t.released a p)).1.homePoint a p
          let t := if crossed old then t.answerAll (fun w => w.loc = key) else t
          ((t.acquiredBy a).partDone a p (if a.regs = 0 then [] else bs)).pump)
    let v := leNat p.data
    let c := leNat p.cmp
    remotely s a.rmt a.node key p.len <|
      match a.kind with
      | .atomic op wide cas =>
        go (fun old => if cas then (if old = c then some v else none) else some (atomicOp op (if wide then 64 else 32) old v))
          (fun _ => false)
      | .faddt => go (fun old => some ((old + v) % 2 ^ 32)) (fun old => old < c && c ≤ (old + v) % 2 ^ 32)
      | _ => .next s

/-- A sleeping group goes on because one of its waits is answered (spec 07, R167). -/
def State.endSleep (s : State) (gid : Nat) : State :=
  match s.group gid with
  | none => s
  | some g => match g.sched.hold with
    | .sleep _ => (s.setGroup gid { g with sched := { g.sched with hold := .none } }).rouse g.owner 1
    | _ => s

/-- WAIT_REGISTRATION (spec 07, R164, R165): answered at once when the wait holds, the table of the home is full, or T is
0; otherwise entered. -/
def execWaitRegistration (req part : Nat) (s : State) : Res :=
  match s.partAt req part with
  | none => s.unready req part
  | some (a, p, key) =>
    match a.kind with
    | .wait cmp deadline =>
      let (t, x) := s.readAt p.il key 4
      .next (match x with
        | none => t.lost a p
        | some bs =>
          let word := BitVec.ofNat 32 (leNat bs)
          let h := homeOf p.il key
          let w : WaitEntry := { id := t.own.ids, loc := key, il := p.il, bad := false, mask := BitVec.ofNat 32 (leNat p.data), cmp := cmp,
                                 e := BitVec.ofNat 32 (leNat p.cmp), gid := a.gid, acc := a.id, part := p.id, deadline := deadline,
                                 ans := none }
          if w.holds word || 256 ≤ (t.node h).waits.length || (match deadline with | some d => d ≤ t.clock.toNat | none => false) then
            ((t.endSleep a.gid).acquiredBy a).partDone a p bs
          else
            let mark (b : Access) : Access :=
              { b with parts := updWhere b.parts (fun q => q.id = p.id) (fun q => { q with msg := some w.id }) }
            { t with accs := updWhere t.accs (fun b => b.id = a.id) mark }.newId.modNode h (fun n => { n with waits := n.waits ++ [w] }))
    | _ => .next s

/-- The wait entry of an identity. -/
def State.waitEntry (s : State) (id : Nat) : Option WaitEntry :=
  (s.nodes.flatMap (fun n => n.2.waits)).find? (fun w => w.id = id)

/-- An entry leaves its table with a word for its lanes, or with an uncorrectable one that its group consumes (spec 14, R335); a sleeping
group wakes (spec 07, R165, R167). -/
def State.answer (s : State) (w : WaitEntry) (x : Option Word) : State :=
  let s := s.mapNodes (fun n => { n with waits := n.waits.filter (fun v => v.id ≠ w.id) })
  match s.accs.find? (fun a => a.id = w.acc) with
  | none => s
  | some a =>
    match a.parts.find? (fun p => p.id = w.part) with
    | none => s
    | some p => match x with
      | none => s.lost a p
      | some x => ((s.endSleep w.gid).acquiredBy a).partDone a p (leBytes x.toNat 4)

/-- WAIT_ANSWER. -/
def execWaitAnswer (entry : Nat) (s : State) : Res :=
  match s.waitEntry entry with
  | none => .next s
  | some w => match w.ans with
    | none => .next s
    | some x => .next (s.answer w (if w.bad then none else some x))

/-- WWAITT_TIMEOUT: T cycles have passed and nothing has answered the entry: the home reads the word (spec 07, R165; spec 14, R335). -/
def execWwaittTimeout (entry : Nat) (s : State) : Res :=
  match s.waitEntry entry with
  | none => .next s
  | some w =>
    match w.ans, w.deadline with
    | none, some d =>
      if d ≤ s.clock.toNat then
        let r := s.readAt w.il w.loc 4
        .next (r.1.answer w (r.2.map (fun bs => BitVec.ofNat 32 (leNat bs))))
      else .next s
    | _, _ => .next s

/-- SLEEP_EXPIRY (spec 07, R167). -/
def execSleepExpiry (gid : Nat) (s : State) : Res :=
  match s.group gid with
  | none => .next s
  | some g => match g.sched.hold with
    | .sleep t =>
      if t ≤ s.clock.toNat then .next ((s.setGroup gid { g with sched := { g.sched with hold := .none } }).rouse g.owner 1)
      else .next s
    | _ => .next s

/-- CORE_WAKE (spec 01, R36; spec 07, R167). -/
def execCoreWake (core : Nat) (s : State) : Res :=
  if (s.node core).gated && (s.node core).waking.isSome then .next (s.wake core) else .next s

/-- WC_LINE_AGE_DRAIN: a line of age 1,024 drains (spec 11, R243; spec 14, R329). -/
def execWcLineAgeDrain (core line : Nat) (s : State) : Res :=
  if (s.node core).wc.any (fun l => l.id = line && !l.closed && l.since + 1024 ≤ s.clock.toNat) then
    .next ((s.closeLines core (fun l => l.id = line)).pump)
  else .next s

/-- The peer has answered a line's packet, or it is given up. -/
def State.lineAcked (s : State) (core line reason : Nat) : State :=
  match (s.node core).wc.find? (fun l => l.id = line) with
  | none => s
  | some l => (s.endLine core l reason).pump

end Sys2Proof.Machine
end

