-- ==== Sys2Proof/Machine/Queue.lean ====
section
/-! DEFINITION. Event counters and attachments (spec 11, R247 to R250), completion-queue cells (R257), and task queues (R258
to R261; spec 17, R357 to R361; spec 24, R447). -/

namespace Sys2Proof.Machine

open Sys2Proof

/-! ### Queue configuration (spec 17, R357, R358) -/

def State.qcfg (s : State) (q : Nat) : BitVec 128 := Sparse.get 0 s.dist.queues q
def qClass (c : BitVec 128) : Nat := c.toNat % 4
def qClosed (c : BitVec 128) : Bool := c.getLsbD 3
def qDrops (c : BitVec 128) : Nat := c.toNat / 2 ^ 16 % 2 ^ 32
def qDepth (c : BitVec 128) : Nat := c.toNat / 2 ^ 48 % 16
def qDies (c : BitVec 128) : Nat := c.toNat / 2 ^ 52 % 16
def qOwner (c : BitVec 128) : BitVec 8 := BitVec.ofNat 8 (c.toNat / 2 ^ 56)

/-- The class of a queue, 0 when it counts as unconfigured. -/
def qKind (c : BitVec 128) : Nat := if qClass c = 3 || 8 < qDepth c then 0 else qClass c

/-- The records that a shard holds at most. -/
def qCap (c : BitVec 128) : Nat := 2 ^ (qDepth c + 4)

/-! ### Shards (spec 17, R359, R360) -/

def shardKey (q core : Nat) : Nat := q * 256 + core
def State.shard (s : State) (q core : Nat) : List Rec := Sparse.get [] s.dist.shards (shardKey q core)
def State.setShard (s : State) (q core : Nat) (l : List Rec) : State :=
  { s with dist := { s.dist with shards := Sparse.set [] s.dist.shards (shardKey q core) l } }

/-- The fired records that wait at a shard (spec 11, R260). -/
def State.waitingFired (s : State) (q core : Nat) : List Fired := s.dist.fired.filter (fun f => f.queue = q && f.core = core)

def State.shardFull (s : State) (q core : Nat) : Bool :=
  qCap (s.qcfg q) ≤ (s.shard q core).length || !(s.waitingFired q core).isEmpty

/-- Whether a launch record is invalid: a KIND other than GRID and BLOCK (spec 11, R258); reserved bits read as zero (spec 00, R6). -/
def launchBad (b : List Byte) : Bool := field b 0 1 ≠ 1 && field b 0 1 ≠ 2

/-- The far-memory address of a record's place in the storage of a shard (spec 17, R357). -/
def State.slotKey (s : State) (q core slot : Nat) : Nat :=
  let c := s.qcfg q
  (c.toNat / 2 ^ 64 + core * 2 ^ (qDepth c + 10) + 64 * slot) % 2 ^ 39

/-- A record's bytes, as the storage holds them. -/
def State.recBytes (s : State) (q core : Nat) (r : Rec) : List Byte :=
  match r.junk with
  | some (n, k) => (List.range 64).map (fun j => Config.freeByte n (k * 64 + j))
  | none => s.look (s.slotKey q core r.slot) 64

/-- The lowest place of a shard's storage that no record takes (log entry 107). -/
def freePlace (l : List Rec) : Nat := ((List.range (l.length + 1)).find? (fun i => l.all (fun r => r.slot ≠ i))).getD 0

/-- Whether a waiting request on a core may take a record of a shard: its own core's shard, or its own shard is empty. -/
def State.mayTake (s : State) (q shard : Nat) (r : Request) : Bool :=
  !r.cq && r.got.isNone && r.queue = q && (r.core = shard || (s.shard q r.core).isEmpty)

/-- How near a request is to a shard: on its core, on its die, elsewhere. -/
def Request.far (r : Request) (core : Nat) : Nat := if r.core = core then 0 else if r.core / 48 = core / 48 then 1 else 2

/-- The oldest waiting request that may take a record of a shard: on its core, on its die, elsewhere (spec 24, R447). -/
def State.eligible (s : State) (q core : Nat) : Option Request :=
  let l := s.dist.requests.filter (s.mayTake q core)
  [0, 1, 2].findSome? (fun n => l.find? (fun r => r.far core = n))

/-- The shard without a record. -/
def State.takeRec (s : State) (q core : Nat) (r : Rec) : State := s.setShard q core ((s.shard q core).erase r)

/-- A request's record changes. -/
def State.setGot (s : State) (id : Nat) (got : Option (Nat × Nat × List Byte)) : State :=
  { s with dist := { s.dist with requests := updWhere s.dist.requests (fun x => x.id = id) (fun x => { x with got := got }) } }

/-- The first record of a work queue's shard goes to the request that waits for it, if one does (spec 24, R447). -/
def State.assign (s : State) (q core : Nat) : State :=
  if qKind (s.qcfg q) ≠ 2 then s
  else match (s.shard q core).head?, s.eligible q core with
    | some r, some rq => (s.takeRec q core r).setGot rq.id (some (core, s.clock.toNat, s.recBytes q core r))
    | _, _ => s

/-- A record enters a shard and its storage; a launch record receives its GRIDID (spec 11, R476; spec 17, R357, R359). -/
def State.appendRec (s : State) (q core prio : Nat) (b : List Byte) : State :=
  let launch := qKind (s.qcfg q) = 1
  let r : Rec := { prio := if launch then field b 1 1 % 4 else prio, slot := freePlace (s.shard q core), junk := none,
                   gridid := if launch then s.dist.gridid else 0, grid := none }
  let next := if s.dist.gridid = 0xFFFFFFFF then 1 else s.dist.gridid + 1
  let s := if launch then { s with dist := { s.dist with gridid := next } } else s
  ((s.setShard q core (s.shard q core ++ [r])).writeRun ownIl (s.slotKey q core r.slot) b).assign q core

/-- The blocks of a launch record (spec 11, R258). -/
def launchBlocks (b : List Byte) : Nat :=
  if field b 0 1 = 2 then 1 else (field b 4 4 + 1) * (field b 8 2 + 1) * (field b 10 2 + 1)

/-- A record's weight in the fullness of a shard: a GRID record counts its unplaced blocks (spec 17, R360). -/
def State.weight (s : State) (q core : Nat) (r : Rec) : Nat :=
  if qKind (s.qcfg q) ≠ 1 then 1
  else match r.grid with
    | none => launchBlocks (s.recBytes q core r)
    | some k => match s.grid k with | none => 0 | some g => g.todo.length

def State.fullness (s : State) (q core : Nat) : Nat := ((s.shard q core).map (s.weight q core)).sum

/-- The cores of a die. -/
def coresOf (die : Nat) : List Nat := (List.range 48).map (· + 48 * die)

/-- The fullest of some shards, the lowest core among equals; none when all are empty. -/
def State.fullest (s : State) (q : Nat) (cores : List Nat) : Option Nat :=
  cores.foldl (fun best c =>
    let n := s.fullness q c
    match best with
    | none => if n = 0 then none else some c
    | some d => if s.fullness q d < n then some c else best) none

/-- The shard that a taker on a core takes from: its own, the fullest of its die, the fullest of the others (spec 17,
R360). -/
def State.takeFrom (s : State) (q core : Nat) : Option Nat :=
  if !(s.shard q core).isEmpty then some core
  else match s.fullest q (coresOf (core / 48)) with
    | some c => some c
    | none => s.fullest q ((List.range 192).filter (fun c => c / 48 ≠ core / 48))

/-- The oldest record of a shard's highest nonempty priority. -/
def topRec (l : List Rec) : Option Rec :=
  let p := (l.map (·.prio)).foldl max 0
  l.find? (fun r => r.prio = p)

/-- The records of a queue in all shards. -/
def State.inShards (s : State) (q : Nat) : Nat :=
  ((List.range 192).map (fun c => (s.shard q c).length)).sum

/-! ### Attachments (spec 11, R248 to R250, R260) -/

/-- The condition of an attachment on a counter's value. -/
def Attach.holds (a : Attach) (v : Word) : Bool := if a.dep then wrapGe a.rel v else wrapGe v a.rel

/-- The attachments of the device, fired records that still wait included. -/
def State.attachCount (s : State) : Nat := s.dist.attaches.length + s.dist.fired.length

/-- The fields of a triggered operation record (spec 11, R249). -/
def Attach.cqreq (a : Attach) : Bool := field a.rcd 1 1 / 2 % 2 = 1
def Attach.irq (a : Attach) : Bool := field a.rcd 1 1 / 4 % 2 = 1
def Attach.kindOf (a : Attach) : Nat := field a.rcd 0 1

/-- The completion record of a fired operation: when CQREQ asks for it, or when it failed (spec 11, R250; spec 21, R436). -/
def State.opDone (s : State) (a : Attach) (status count : Nat) : State :=
  if a.cqreq || status ≠ 0 then
    s.complete a.ctx (BitVec.ofNat 64 (field a.rcd 32 8)) status (15 + a.kindOf) a.irq false (field a.rcd 40 4) 0 count
  else s

/-- A peer that an address names for a context: device and address there. -/
def State.peerOf (s : State) (c : BitVec 8) (sup write : Bool) (va : Dword) : Option (Nat × Nat) :=
  if windowOf va ≠ 0 then none
  else match s.translate noNode c sup write false va with
    | .ok t => if ptePeer t.pte then some (ptePid t.pte, t.addr) else none
    | .error _ => none

/-- A status that the spec does not give (log entry 29). -/
def State.openStatus (s : State) (k : Nat) : Nat := (Config.freeWord s.own.fresh (0x6000000 + k)).toNat % 5 + 1

/-- A message of the device that is in flight. -/
def State.addMsg (s : State) (m : OutMsg) : State := { s with fab := { s.fab with outmsgs := s.fab.outmsgs ++ [m] } }

/-- A triggered operation runs (spec 11, R250; spec 21, R436). -/
def State.fireOp (s : State) (a : Attach) : State :=
  match a.kindOf with
  | 1 =>
    let len := field a.rcd 24 4
    let c : Cmd := { id := s.own.ids, gid := 0, block := 0, node := a.core, ctx := a.ctx, kind := .fired, rcd := a.rcd, org := [], e := a.id,
                     n := len, obj := none, xpct := false, gs := 0, gneg := false, sup := a.sup, run := false, left := List.range ((len + 255) / 256),
                     acked := [], fail := none, lost := none }
    { s with cmds := s.cmds ++ [c] }.newId
  | 2 =>
    (match s.peerOf a.ctx a.sup true (BitVec.ofNat 64 (field a.rcd 16 8)) with
      | none => s.opDone a (s.openStatus a.id) 0
      | some (d, _) =>
        (match s.peerFault a.ctx d with
          | some _ => s.opDone a (s.openStatus a.id) 0
          | none =>
            let v := field a.rcd 28 4
            let m : OutMsg := { id := s.fab.msgid, peer := d, total := 0, first := none, kind := 0x11, att := some a, cmd := none,
                                done := false, status := 0 }
            (s.addMsg m).request a.ctx d 5 0 (.ecinc (v % 65536) (BitVec.ofNat 32 (v / 65536))) (.ecinc a.id)))
  | _ => s.opDone a 0 0

/-- An attachment fires: an operation runs, a task enters its shard or waits there (spec 11, R248, R260). -/
def State.fire (s : State) (a : Attach) : State :=
  match a.task with
  | none => s.fireOp a
  | some (q, prio) =>
    if s.shardFull q a.core then { s with dist := { s.dist with fired := s.dist.fired ++ [{ queue := q, core := a.core, att := a }] } }
    else s.appendRec q a.core prio a.rcd

/-- The attachments of a counter whose condition now holds fire, in the order in which they were posted (spec 11, R248). -/
def State.fireAll (s : State) (n : Nat) : State :=
  let v := Sparse.get 0 s.dist.counters n
  let go := s.dist.attaches.filter (fun a => a.counter = n && a.holds v)
  let s := { s with dist := { s.dist with attaches := s.dist.attaches.filter (fun a => !(a.counter = n && a.holds v)) } }
  go.foldl State.fire s

/-- One update of a counter (spec 11, R247). -/
def State.setCounter (s : State) (n : Nat) (v : Word) : State :=
  { s with dist := { s.dist with counters := Sparse.set 0 s.dist.counters n v } }.fireAll n

/-- A posting is an update of the counter's order. -/
def State.post (s : State) (a : Attach) : State :=
  { s with dist := { s.dist with attaches := s.dist.attaches ++ [a] } }.newId.fireAll a.counter

/-! ### QBAD -/

/-- QBAD with a reason and a queue (spec 11, R259). -/
def qBad (s : State) (gid reason q : Nat) : Res := .next (s.trapPlain gid .qbad (BitVec.ofNat 64 (reason + 256 * q)))

/-- Whether a context may not use a counter. -/
def State.foreignCounter (s : State) (g : Group) (n : Nat) : Bool := Sparse.get 0 s.dist.owners n ≠ g.ctx

/-- A release of a group at a scope, once nothing holds it back: else it waits at its place. -/
def releasing (s : State) (gid : Nat) (g : Group) (scope : Nat) (k : State → Res) : Res :=
  let s := s.beginRelease gid g scope
  if s.unreleased gid s.own.ids scope then .next (s.stall gid .order)
  else k (if 4 ≤ scope then s.raiseStores gid none else s)

/-! ### Counters (spec 11, R247) -/

/-- ecinc, ecdec: an update and its new value, a release at .dev. D is empty until the answer lands (spec 01, R17). -/
def counterAdd (r : Row) (f : Fields) (s : State) (sub : Bool) : Res :=
  issue r f s fun gid g =>
    let n := (s.readS g f.a).toNat % 65536
    if s.foreignCounter g n then qBad s gid 5 0
    else releasing s gid g 3 fun s =>
      let b := s.opB g r f 0
      let old := Sparse.get 0 s.dist.counters n
      let v := if sub then old - b else old + b
      .next ((((s.unclean g.block).setCounter n v).later gid false f.d.toNat [(0, v)]).advance gid f.bytes)

/-- ECINC, ECDEC. -/
def execEcinc (f : Fields) (s : State) : Res := counterAdd (rowEcinc f) f s false
def execEcdec (f : Fields) (s : State) : Res := counterAdd (rowEcdec f) f s true

/-- ECRD: an acquire at .dev. -/
def execEcrd (f : Fields) (s : State) : Res :=
  issue (rowEcrd f) f s fun gid g =>
    let n := (s.readS g f.a).toNat % 65536
    if s.foreignCounter g n then qBad s gid 5 0
    else .next (((s.later gid false f.d.toNat [(0, Sparse.get 0 s.dist.counters n)]).acquired g.owner 3).advance gid f.bytes)

/-- What ecset does to a counter: its VALUE, or with OWN its OWNER. -/
def State.ecset (s : State) (n : Nat) (v : Word) (own : Bool) : State :=
  if own then { s with dist := { s.dist with owners := Sparse.set 0 s.dist.owners n (v.truncate 8) } } else s.setCounter n v

/-- ECSET: VALUE, or OWNER with OWN. -/
def execEcset (f : Fields) (s : State) : Res :=
  issue (rowEcset f) f s fun gid g =>
    let n := (s.readS g f.a).toNat % 65536
    let b := s.opB g (rowEcset f) f 0
    let s := s.unclean g.block
    .next ((s.ecset n b (f.m 1)).advance gid f.bytes)

/-! ### Triggered operations (spec 11, R249, R250) -/

/-- The use of a 64-byte record that an instruction reads. -/
def rcdUse (align : Nat) : Use := { align := align, priv := false, peer := false }

/-- Whether a triggered operation record is invalid. -/
def opBad (b : List Byte) : Bool :=
  let kind := field b 0 1
  kind = 0 || 3 < kind || 8 ≤ field b 1 1 || field b 2 2 ≠ 0 || field b 44 20 ≠ 0 || (kind ≠ 2 && field b 28 4 ≠ 0) ||
    (kind = 2 && field b 24 4 ≠ 0) || (kind = 1 && (field b 24 4 = 0 || 2 ^ 31 < field b 24 4))

/-- TRPOST. -/
def execTrpost (f : Fields) (s : State) : Res :=
  issue (rowTrpost f) f s fun gid g =>
    let addr := s.readSP g f.a
    withBytes s gid g (rcdUse 64) 64 addr fun s b =>
      let n := (s.readS g f.b).toNat % 65536
      if opBad b then qBad s gid 2 0
      else if 262144 ≤ s.attachCount then qBad s gid 4 0
      else if s.foreignCounter g n then qBad s gid 5 0
      else
        let a : Attach := { id := s.own.ids, counter := n, rel := BitVec.ofNat 32 (field b 4 4), dep := field b 1 1 % 2 = 1, ctx := g.ctx,
                            core := g.owner, sup := g.priv, task := none, addr := addr, rcd := b }
        .next (((s.unclean g.block).post a).advance gid f.bytes)

/-- TRCAN: every unfired attachment that the context posted from the record address. -/
def execTrcan (f : Fields) (s : State) : Res :=
  issue (rowTrcan f) f s fun gid g =>
    let addr := s.readSP g f.a
    let s := s.unclean g.block
    .next ({ s with dist := { s.dist with
      attaches := s.dist.attaches.filter (fun a => !(a.ctx = g.ctx && a.addr = addr)) } }.advance gid f.bytes)

/-! ### Completion queues (spec 11, R257) -/

/-- CQPOST: a release at .sys. -/
def execCqpost (f : Fields) (s : State) : Res :=
  issue (rowCqpost f) f s fun gid g =>
    let h := s.readSP g f.a
    if (s.cqOf g.ctx h).isNone then qBad s gid 1 0
    else releasing s gid g 5 fun s =>
      .next ((State.raiseMsix ((s.unclean g.block).record g.ctx h 0 0x40 (f.m 1) false (s.readS g f.b).toNat 0 0)).advance gid f.bytes)

/-- CQPOLL: an acquire at .sys; with WAIT the answer waits until a record is there. A header that cannot be read gives a
free value (log entry 29). -/
def execCqpoll (f : Fields) (s : State) : Res :=
  issue (rowCqpoll f) f s fun gid g =>
    let k := (s.readS g f.a).toNat % 4096
    match Sparse.find s.mgmt.cqs k with
    | none => qBad s gid 1 0
    | some e =>
      if !e.valid then qBad s gid 1 0
      else
        let (s, x) := s.readHeader e
        let n : Word := match x with
          | none => Config.freeWord s.own.fresh (0x7000000 + k)
          | some (_, bs) => BitVec.ofNat 32 (field bs 20 4) - BitVec.ofNat 32 (field bs 16 4)
        if f.m 1 && n = 0 then
          let r : Request := { id := s.own.ids, gid := gid, queue := k, core := g.owner, dst := f.d.toNat, off := 0, cq := true }
          .next (({ s with dist := { s.dist with requests := s.dist.requests ++ [r] } }.newId.markEmpty gid false f.d.toNat 1).advance gid f.bytes)
        else .next (((s.later gid false f.d.toNat [(0, n)]).acquired g.owner 5).advance gid f.bytes)

/-! ### Task queues (spec 11, R259, R261) -/

/-- A queue that the instruction may not use: QBAD with reason 1 (spec 17, R358). -/
def State.queueBad (s : State) (g : Group) (q : Nat) (classes : List Nat) : Bool :=
  !classes.contains (qKind (s.qcfg q)) || qOwner (s.qcfg q) ≠ g.ctx

/-- TQENQ: a release at .dev. -/
def execTqenq (f : Fields) (s : State) : Res :=
  issue (rowTqenq f) f s fun gid g => notVisitor s gid g <|
    let q := (s.readS g f.a).toNat % 256
    if s.queueBad g q [1, 2] then qBad s gid 1 q
    else withBytes s gid g (rcdUse 1) 64 (s.readSP g f.b) fun s b =>
      if qKind (s.qcfg q) = 1 && launchBad b then qBad s gid 2 q
      else if s.shardFull q g.owner then qBad s gid 3 q
      else releasing s gid g 3 fun s => .next (((s.unclean g.block).appendRec q g.owner (f.mf 2 1) b).advance gid f.bytes)

/-- An outstanding item more for a group. -/
def Group.addItem (g : Group) (q : Nat) : Group :=
  { g with out := { g.out with items := Sparse.put g.out.items q (Sparse.get 0 g.out.items q + 1) } }

/-- A record goes to a group: written to its scratchpad and counted (spec 11, R261). The answer is an acquire at .dev. -/
def State.giveRec (s : State) (gid q off : Nat) (bs : List Byte) : State :=
  match s.group gid with
  | none => s
  | some g => match s.block g.block with
    | none => s
    | some b =>
      let s := match s.place (.scr b.grid b.lin off) with
        | none => s
        | some key => (s.logBytes g.block gid key 64).writeRun ownIl key bs
      (s.modGroup gid (fun g => g.addItem q)).acquired g.owner 3

/-- While a work queue is closed and all its shards are empty, every waiting tqdeq is answered with status 2 (spec 17, R361). -/
def State.closeAnswers (s : State) (q : Nat) : State :=
  if qKind (s.qcfg q) = 2 && qClosed (s.qcfg q) && s.inShards q = 0 then
    let mine (r : Request) : Bool := !r.cq && r.queue = q && r.got.isNone
    let go := s.dist.requests.filter mine
    let s := { s with dist := { s.dist with requests := s.dist.requests.filter (fun r => !mine r) } }
    go.foldl (fun (s : State) r => ((s.acquired r.core 3).deliverS r.gid r.dst 2 true 8).tryRetire r.gid) s
  else s

/-- A record that entered in this cycle and has been given to a request further from its shard: a tqdeq that issues in the cycle counts as
waiting (spec 24, R447). -/
def State.overtaken (s : State) (q : Nat) (rq : Request) : Option (Nat × List Byte) :=
  s.dist.requests.findSome? (fun r => match r.got with
    | some (core, at_, bs) => if !r.cq && r.queue = q && at_ = s.clock.toNat && rq.far core < r.far core then some (r.id, bs) else none
    | none => none)

/-- tqdeq, tqtry (spec 11, R261): a record, status 2 for a queue closed and empty, 1 for a tqtry that finds none, else the request waits (spec
17, R360, R361). D is empty until the answer lands. -/
def execDequeue (r : Row) (f : Fields) (s : State) (try_ : Bool) : Res :=
  issue r f s fun gid g => notVisitor s gid g <|
    let q := (s.readS g f.a).toNat % 256
    let off := (s.readS g f.b).toNat
    if s.queueBad g q [2] then qBad s gid 1 q
    else if off % 64 ≠ 0 || s.scrSize g < off + 64 then qBad s gid 7 q
    else
      let s := s.unclean g.block
      let answer (s : State) (x : Word) : Res := .next (((s.later gid false f.d.toNat [(0, x)]).acquired g.owner 3).advance gid f.bytes)
      let rq : Request := { id := s.own.ids, gid := gid, queue := q, core := g.owner, dst := f.d.toNat, off := off, cq := false }
      let found := (s.takeFrom q g.owner).bind (fun c => (topRec (s.shard q c)).map (fun x => (c, x)))
      match found, (if try_ then none else s.overtaken q rq) with
      | some (c, x), _ => answer (((s.takeRec q c x).giveRec gid q off (s.recBytes q c x)).closeAnswers q) 0
      | none, some (other, bs) => answer (((s.setGot other none).giveRec gid q off bs).closeAnswers q) 0
      | none, none =>
        if qClosed (s.qcfg q) && s.inShards q = 0 then answer s 2
        else if try_ then answer s 1
        else
          .next (({ s with dist := { s.dist with requests := s.dist.requests ++ [rq] } }.newId.markEmpty gid false f.d.toNat 1).advance gid f.bytes)

/-- TQDEQ, TQTRY. -/
def execTqdeq (f : Fields) (s : State) : Res := execDequeue (rowTqdeq f) f s false
def execTqtry (f : Fields) (s : State) : Res := execDequeue (rowTqtry f) f s true

/-- TQDONE. -/
def execTqdone (f : Fields) (s : State) : Res :=
  issue (rowTqdone f) f s fun gid g => notVisitor s gid g <|
    let q := (s.readS g f.a).toNat % 256
    let n := Sparse.get 0 g.out.items q
    if s.queueBad g q [2] then qBad s gid 1 q
    else if n = 0 then qBad s gid 6 q
    else .next (((s.setGroup gid { g with out := { g.out with items := Sparse.set 0 g.out.items q (n - 1) } }).unclean g.block).advance gid f.bytes)

/-- TQATT. -/
def execTqatt (f : Fields) (s : State) : Res :=
  issue (rowTqatt f) f s fun gid g => notVisitor s gid g <|
    let x := s.readS g f.a
    let q := x.toNat % 256
    if s.queueBad g q [1, 2] then qBad s gid 1 q
    else withBytes s gid g (rcdUse 1) 64 (s.readSP g f.b) fun s b =>
      let n := (s.readS g f.c).toNat % 65536
      if qKind (s.qcfg q) = 1 && launchBad b then qBad s gid 2 q
      else if 262144 ≤ s.attachCount then qBad s gid 4 q
      else if s.foreignCounter g n then qBad s gid 5 q
      else
        let a : Attach := { id := s.own.ids, counter := n, rel := x >>> 8, dep := f.m 1, ctx := g.ctx, core := g.owner, sup := g.priv,
                            task := some (q, f.mf 3 2), addr := s.readSP g f.b, rcd := b }
        .next (((s.unclean g.block).post a).advance gid f.bytes)

/-- The items of a queue that groups have dequeued and not ended. -/
def State.running (s : State) (q : Nat) : Nat := (s.groups.map (fun p => Sparse.get 0 p.2.out.items q)).sum

/-- TQSTAT. -/
def execTqstat (f : Fields) (s : State) : Res :=
  issue (rowTqstat f) f s fun gid g => notVisitor s gid g <|
    let q := (s.readS g f.a).toNat % 256
    if s.queueBad g q [1, 2] then qBad s gid 1 q
    else
      let n := if f.m 1 then s.running q else s.inShards q + (s.dist.fired.filter (fun x => x.queue = q)).length
      .next (((s.putDst gid f.d (BitVec.ofNat 32 n)).unclean g.block).advance gid f.bytes)

/-! ### Records on their way (spec 11, R260; spec 24, R447; spec 17, R359) -/

/-- RECORD_DELIVERY: the record that entered a core's shard first of those given to requests reaches its request (spec 24, R447). -/
def execRecordDelivery (queue core : Nat) (s : State) : Res :=
  let s := s.assign queue core
  match s.dist.requests.find? (fun r => !r.cq && r.queue = queue && (match r.got with | some (c, _, _) => c = core | none => false)) with
  | some rq =>
    let t := { s with dist := { s.dist with requests := s.dist.requests.filter (fun x => x.id ≠ rq.id) } }
    .next ((((t.giveRec rq.gid queue rq.off ((rq.got.map (·.2.2)).getD [])).deliverS rq.gid rq.dst 0 true 8).tryRetire rq.gid).closeAnswers queue)
  | none => .next s

/-- FIRED_RECORD_ENTRY: room has freed at the shard (spec 11, R260). -/
def execFiredRecordEntry (queue core : Nat) (s : State) : Res :=
  match s.waitingFired queue core with
  | [] => .next s
  | x :: _ =>
    if qCap (s.qcfg queue) ≤ (s.shard queue core).length then .next s
    else
      let s := { s with dist := { s.dist with fired := s.dist.fired.erase x } }
      .next (s.appendRec queue core (match x.att.task with | some (_, p) => p | none => 0) x.att.rcd)

/-- The next core that receives host enqueues at or after `n` (spec 17, R359). -/
def hostCore (c : BitVec 128) (n : Nat) : Nat :=
  let mask := if qDies c = 0 then 15 else qDies c
  (((List.range 192).map (fun i => (n + i) % 192)).find? (fun k => mask / 2 ^ (k / 48) % 2 = 1)).getD 0

/-- HOST_ENQUEUE: one 64-byte write appends a record, or is discarded and counted. -/
def execHostEnqueue (queue : Nat) (data : List (BitVec 8)) (s : State) : Res :=
  let c := s.qcfg queue
  let n := hostCore c (Sparse.get 0 s.dist.hostNext queue)
  let discard := data.length ≠ 64 || qKind c = 0 || (qKind c = 1 && launchBad data) || s.shardFull queue n
  if 256 ≤ queue || s.mgmt.devstat.toNat % 8 ≠ 1 then .next s
  else if discard then
    let d := (qDrops c + 1) % 2 ^ 32
    let c' : BitVec 128 := BitVec.ofNat 128 (c.toNat / 2 ^ 48 * 2 ^ 48 + d * 2 ^ 16 + c.toNat % 2 ^ 16)
    .next { s with dist := { s.dist with queues := Sparse.set 0 s.dist.queues queue c' } }
  else
    let s := s.appendRec queue n 0 data
    .next { s with dist := { s.dist with hostNext := Sparse.set 0 s.dist.hostNext queue ((n + 1) % 192) } }

end Sys2Proof.Machine
end

