-- ==== Sys2Proof/Machine/EngineEvents.lean ====
section
/-! DEFINITION. What the copy and collective engines do with their commands (spec 10, R225 to R236; spec 11, R250 to R254; spec
17, R378, R380): record fetches, taking a head, pieces, and completion. -/

namespace Sys2Proof.Machine

open Sys2Proof

/-! ### Record fetches (spec 10, R225) -/

/-- RECORD_FETCH: the oldest record that a core has missed arrives in its cache, read as its group sees memory. -/
def execRecordFetch (core : Nat) (s : State) : Res :=
  match (s.node core).fetching with
  | [] => .next s
  | (addr, ctx, gid) :: rest =>
    let drop := s.modNode core (fun n => { n with fetching := rest })
    match s.group gid with
    | none => .next drop
    | some g =>
      match s.check g recordUse 192 [(0, BitVec.ofNat 64 addr)] with
      | .error _ => .next drop
      | .ok l =>
        if s.acquiring gid s.own.ids then .next s
        else
          let (t, x) := (drop.lookUps g [BitVec.ofNat 64 addr]).readOwn gid g (l.flatMap (·.2))
          .next (match x with
            | none => t.consume gid
            | some bs => t.cacheRec core ctx addr bs)

/-! ### Taking a command (spec 10, R231, R232; spec 17, R378) -/

/-- The head of each copy FIFO of a core, by group; 0 stands for the fired operations, and a group that has retired has
left its commands with the engine. -/
def State.heads (s : State) (n : Nat) : List (Nat × Cmd) :=
  let live := s.groups.filterMap (fun (p : Nat × Group) =>
    if p.2.owner = n && p.2.visitor.isNone then (p.2.eng.copyQ.head?).map (fun c => (p.1, c)) else none)
  let left := s.cmds.filter (fun c => c.node = n && !c.run)
  left.foldl (fun acc c => if acc.any (fun h => h.1 = c.gid) then acc else acc ++ [(c.gid, c)]) live

/-- What a command's guard slot says of it: 0 unresolved, 1 issued, 2 discarded (spec 01, R24). A collective whose communication group has
retired is decided by the slots that it had then, unresolved ones false (spec 11, R252). -/
def State.guardOf (s : State) (c : Cmd) : Nat :=
  match s.group c.gid with
  | none => (match c.kind, (s.block c.block).bind (·.slots) with
    | .coll _, some w => if keepsBy w c then 1 else 2
    | _, _ => 1)
  | some g => if c.gs = 0 || g.keeps c then 1 else if g.guard c.gs = 0 then 0 else 2

/-- The groups whose earlier accesses a command is ordered after, with its place in their program order: its own, and for a collective
every group that has issued it (spec 13, R289). -/
def State.issuers (s : State) (c : Cmd) : List (Nat × Nat) :=
  match c.kind with
  | .coll id => (match s.block c.block with
    | none => []
    | some b => (b.colls.filter (fun y => y.id = id)).flatMap (·.gids))
  | _ => [(c.gid, c.id)]

/-- Whether a command reads the scratchpad. -/
def CmdKind.sources : CmdKind → Bool
  | .store | .put _ _ | .coll _ => true
  | _ => false

/-- Whether a head may be taken: its guard issues it, no acquire of an issuing group holds it back, the stores that it reads have been
performed (spec 10, R232; spec 13, R289), and no other collective of its block runs (spec 17, R380). -/
def State.issuable (s : State) (c : Cmd) : Bool :=
  s.guardOf c = 1 && (s.issuers c).all (fun i => !s.acquiring i.1 i.2) &&
  !(c.kind.sources && s.accs.any (fun a => !a.isLoad && (s.issuers c).any (fun i => a.gid = i.1 && a.id < i.2) &&
      a.parts.any (fun p => match p.loc with | .scr .. => true | _ => false))) &&
  !(c.kind ≠ .fired && s.seenPending c.node) &&
  (match c.kind with
    | .coll _ => !s.cmds.any (fun d => d.run && d.block = c.block && (match d.kind with | .coll _ => true | _ => false))
    | _ => true)

/-- The group that the round robin of a core serves next. -/
def State.nextServed (s : State) (n : Nat) : Option Nat :=
  let ids := ((s.heads n).filter (fun h => s.issuable h.2)).map (·.1)
  let later := ids.filter (fun i => (s.node n).served < i)
  match later with
  | i :: is => some (least i is)
  | [] => match ids with
    | i :: is => some (least i is)
    | [] => none

/-- Where a command fails for good: the TRAPAUX of the FABERR (spec 11, R242, R254). -/
def Cmd.lose (c : Cmd) (peer reason : Nat) : Cmd := { c with lost := some (c.lost.getD (peer + reason * 4096)) }

def State.modCmd (s : State) (id : Nat) (f : Cmd → Cmd) : State := { s with cmds := updWhere s.cmds (fun c => c.id = id) f }

/-- A failure of a command: the lowest address with its precedence (spec 10, R230). -/
def Cmd.failAt (c : Cmd) (addr prec : Nat) : Cmd :=
  match c.fail with
  | none => { c with fail := some (addr, prec) }
  | some (a, p) => if addr < a then { c with fail := some (addr, prec) } else { c with fail := some (a, p) }

/-- The bytes of a scratchpad run of a command's block. -/
def State.scrKey (s : State) (bid off : Nat) : Option Nat :=
  match s.block bid with
  | none => none
  | some b => s.place (.scr b.grid b.lin off)

/-- An engine writes scratchpad: a write of a command issued before the checkpoint makes the interval unclean (spec 18, R396,
R397). -/
def State.scrWrite (s : State) (c : Cmd) (off : Nat) (bs : List Byte) : State :=
  match s.scrKey c.block off with
  | some key =>
    (((if s.olderThanCheckpoint c.block c.id then s.unclean c.block else s).logBytes c.block c.gid key bs.length).writeRun ownIl key bs)
  | none => s

/-- Free bytes in the place of what an engine did not receive (spec 11, R254). -/
def State.freeBytes (s : State) (k n : Nat) : List Byte := (List.range n).map (fun i => Config.freeByte s.own.fresh (k + i))

/-- An engine reads scratchpad, which is far memory while its block is evicted (spec 14, R321; spec 18, R399). -/
def State.scrRead (s : State) (c : Cmd) (off n : Nat) : State × List Byte :=
  match s.scrKey c.block off with
  | none => (s, List.replicate n 0)
  | some key => match s.readRun ownIl key n with
    | (s, some bs) => (s, bs)
    | (s, none) => (s.consumeBlock c.block, s.freeBytes key n)

/-- The pieces that a peer has performed, or never will. -/
def State.ackPieces (s : State) (id : Nat) (ps : List Nat) : State := s.modCmd id (fun c => { c with acked := c.acked ++ ps })

/-- Where a remote run of a command lies on its peer: device and address; else the command is marked with what it fails by. -/
def State.remoteAt (s : State) (c : Cmd) (put : Bool) (va : Nat) : State × Option (Nat × Nat) :=
  if s.peerPage c.node c.ctx (BitVec.ofNat 64 va) = some false then (s.modCmd c.id (fun c => c.failAt va 1), none)
  else match s.translate c.node c.ctx c.sup put false (BitVec.ofNat 64 va) with
  | .error _ => (s.modCmd c.id (fun c => c.failAt va 4), none)
  | .ok t =>
    match s.peerFault c.ctx (ptePid t.pte) with
      | some r => (s.modCmd c.id (fun c => c.lose (ptePid t.pte) r), none)
      | none => (s, some (ptePid t.pte, t.addr))

/-- A message of a remote copy, whose first piece is `i`. -/
def State.remoteMsg (s : State) (c : Cmd) (i kind d total : Nat) : State :=
  (s.addMsg { id := s.fab.msgid, peer := d, total := total, first := none, kind := kind, att := none, cmd := some (c.id, i),
              done := false, status := 0 }).newMsg

/-- The READs of a GET, one for each piece (spec 11, R254). -/
def State.sendGets (s : State) (c : Cmd) (remote : Nat) : List (Nat × Nat × Nat) → State
  | [] => s
  | (i, off, len) :: ps =>
    let s := match s.remoteAt c false (remote + off) with
      | (s, none) => s.ackPieces c.id [i]
      | (s, some (d, a)) =>
        let m := s.fab.msgid
        (s.remoteMsg c i 2 d 0).enqueue d 0 (s.packet 2 0 d false ((s.tagFor c.ctx).getD 0) m 0 len (.read a len)) (.piece m)
    State.sendGets s c remote ps

/-- The pieces of a remote copy that begin in a run of its bytes. -/
def piecesIn (remote len off n : Nat) : List Nat :=
  let l := remotePieces remote len
  (List.range l.length).filter (fun i => off ≤ (l.getD i (0, 0)).1 && (l.getD i (0, 0)).1 < off + n)

/-- The pages of a remote copy that lie at consecutive addresses of one device, as one run (spec 21, R431): offset, length, device and
address; none where a page cannot be reached. -/
def joinRuns (l : List (Nat × Nat × Option (Nat × Nat))) : List (Nat × Nat × Option (Nat × Nat)) :=
  l.foldl (fun acc q => match acc.getLast?, q.2.2 with
    | some (o, n, some (d, a)), some (e, b) => if d = e && a + n = b then acc.dropLast ++ [(o, n + q.2.1, some (d, a))] else acc ++ [q]
    | _, _ => acc ++ [q]) []

/-- A PUT is one message in packets of 256 bytes, one for each device that its pages name (spec 11, R254; spec 21, R431). -/
def State.sendPuts (s : State) (c : Cmd) (remote len : Nat) : State :=
  let r := (unitPieces 65536 remote len).foldl (fun (r : State × List (Nat × Nat × Option (Nat × Nat))) p =>
    let x := r.1.remoteAt c true (remote + p.1)
    (x.1, r.2 ++ [(p.1, p.2, x.2)])) (s, [])
  (joinRuns r.2).foldl (fun s q => match q.2.2 with
    | none => s.ackPieces c.id (piecesIn remote len q.1 q.2.1)
    | some (d, a) =>
      let m := s.fab.msgid
      let tag := (s.tagFor c.ctx).getD 0
      (unitPieces 256 0 q.2.1).foldl (fun (s : State) p =>
        let (s, bs) := s.scrRead c (c.e + q.1 + p.1) p.2
        let body : PBody := .write a ((List.range p.2).map (fun j => (j, bs.getD j 0)))
        s.enqueue d 0 { s.packet 1 0 d false tag m p.1 q.2.1 body with asks := true } (.piece m))
        (s.remoteMsg c ((piecesIn remote len q.1 q.2.1).headD 0) 1 d q.2.1)) r.1

/-- The pieces of a remote copy with their numbers. -/
def numbered (l : List (Nat × Nat)) : List (Nat × Nat × Nat) := (List.range l.length).map (fun i => (i, l.getD i (0, 0)))

/-- The engine takes a command: the expect of XPCT or of a guarded collective, and the requests of a remote copy (spec 10, R232;
spec 11, R252, R254). -/
def State.takeCmd (s : State) (c : Cmd) : State :=
  let s := match c.obj with
    | some k => if c.xpct then s.objDeliver c.block c.gid k c.n else s
    | none => s
  match c.kind with
  | .get remote len => (s.sendGets c remote (numbered (remotePieces remote len))).flush
  | .put remote len => (s.sendPuts c remote len).flush
  | _ => s

/-- COPY_ENGINE_ISSUE: the head of a group's FIFO is discarded when its guard says so, or taken when the engine's turn is the
group's and fewer than 64 commands run (spec 17, R378). -/
def execCopyEngineIssue (gid : Nat) (s : State) : Res :=
  let cores := (s.groups.filterMap (fun (p : Nat × Group) => if p.1 = gid then some p.2.owner else none)) ++
    (s.cmds.filter (fun c => c.gid = gid && !c.run)).map (·.node)
  let free (n : Nat) : Bool := s.nextServed n = some gid && (s.cmds.filter (fun d => d.node = n && d.run)).length < 64
  let found := cores.filterMap (fun n => ((s.heads n).find? (fun h => h.1 = gid)).map (fun h => (n, h.2)))
  match found.find? (fun h => s.guardOf h.2 = 2 || free h.1) with
  | none => .next s
  | some (n, c) =>
    let pop (s : State) : State := s.modGroup gid (fun g => { g with eng := { g.eng with copyQ := g.eng.copyQ.filter (fun d => d.id ≠ c.id) } })
    if s.guardOf c = 2 then
      .next (if (s.group gid).isSome then s.settleCopy gid else { s with cmds := s.cmds.filter (fun d => d.id ≠ c.id) }.discard gid [c])
    else
      let s := (pop s).modNode n (fun x => { x with served := gid })
      let s := if s.cmds.any (fun d => d.id = c.id) then s.modCmd c.id (fun d => { d with run := true })
        else { s with cmds := s.cmds ++ [{ c with run := true }] }
      .next (s.takeCmd c)

/-! ### What an engine reads and writes in memory (spec 10, R230) -/

/-- The sector of an address that an engine may touch: the translation, or the precedence of R153 that it fails with. -/
def State.engineAt (s : State) (c : Cmd) (write : Bool) (va : Dword) : Except Nat Trans :=
  if windowOf va ≠ 0 || s.peerPage c.node c.ctx va = some true then .error 1
  else match s.translate c.node c.ctx c.sup write false va with
    | .error _ => .error 4
    | .ok t => if write && pteField t.pte then .error 5 else .ok t

/-- Whether the banks of a run of bytes accept an activate (spec 14, R333). -/
def State.banksFree (s : State) (c : Cmd) (write : Bool) (va n : Nat) : Bool :=
  (unitPieces 32 va n).all (fun p => match s.engineAt c write (BitVec.ofNat 64 (va + p.1)) with
    | .error _ => true
    | .ok t => !s.bankFull (pteIl t.pte) t.key)

/-- Reads a run of bytes: zeros where it fails. -/
def State.engineRead (s : State) (c : Cmd) (va n : Nat) : State × List Byte :=
  (unitPieces 32 va n).foldl (fun (r : State × List Byte) p =>
    let a := (va + p.1) % 2 ^ 64
    match r.1.engineAt c false (BitVec.ofNat 64 a) with
    | .error e => (r.1.modCmd c.id (fun c => c.failAt a e), r.2 ++ List.replicate p.2 0)
    | .ok t =>
      if r.1.walkBad c.node c.ctx (BitVec.ofNat 64 a) then ((r.1.walked c.node c.ctx (BitVec.ofNat 64 a)).consumeBlock c.block, r.2 ++ r.1.freeBytes a p.2)
      else match (r.1.lookUp c.node c.ctx (BitVec.ofNat 64 a)).readAt (pteIl t.pte) t.key p.2 with
      | (s, some bs) => (s, r.2 ++ bs)
      | (s, none) => (s.consumeBlock c.block, r.2 ++ s.freeBytes t.key p.2)) (s, [])

/-- Writes a run of bytes, skipping what fails; `low` is whether only the low nibble of the last byte is written. -/
def State.engineWrite (s : State) (c : Cmd) (va : Nat) (bs : List Byte) (low : Bool) : State :=
  (unitPieces 32 va bs.length).foldl (fun s p =>
    let a := (va + p.1) % 2 ^ 64
    match s.engineAt c true (BitVec.ofNat 64 a) with
    | .error e => s.modCmd c.id (fun c => c.failAt a e)
    | .ok t =>
      if s.walkBad c.node c.ctx (BitVec.ofNat 64 a) then (s.walked c.node c.ctx (BitVec.ofNat 64 a)).consumeBlock c.block else
      let s := s.lookUp c.node c.ctx (BitVec.ofNat 64 a)
      let mine := (bs.drop p.1).take p.2
      let mine := if low && p.1 + p.2 = bs.length then
          mine.dropLast ++ [((BitVec.ofNat 8 (s.lookNum (t.key + p.2 - 1) 1)) &&& 0xF0) ||| ((mine.getLast?.getD 0) &&& 0x0F)]
        else mine
      (s.writeAt (pteIl t.pte) t.key mine none).1) s

/-! ### Boxes (spec 10, R223, R227) -/

/-- A run of row bytes of a command: its row's number in scratchpad, the coordinates x1 to x4, the first byte and length. -/
structure RowRun where
  row : Nat
  xs : List Int
  from_ : Nat
  len : Nat
  deriving DecidableEq, Repr

/-- The coordinates of a row of a box. -/
def Shape.coords (h : Shape) (org : List Int) (r : Nat) : List Int :=
  let b1 := h.box.getD 1 1
  let b2 := h.box.getD 2 1
  let b3 := h.box.getD 3 1
  [org.getD 1 0 + (r % b1 : Nat), org.getD 2 0 + (r / b1 % b2 : Nat), org.getD 3 0 + (r / b1 / b2 % b3 : Nat),
   org.getD 4 0 + (r / b1 / b2 / b3 : Nat)]

/-- Whether the dimensions above 0 are in bounds. -/
def Shape.rowIn (h : Shape) (xs : List Int) : Bool :=
  (List.range 4).all (fun d => h.ndim ≤ d + 1 || (0 ≤ xs.getD d 0 && xs.getD d 0 < (h.ext.getD (d + 1) 0 : Int)))

/-- The strided part of an address; dimensions at or above NDIM count as coordinate 0. -/
def Shape.strided (h : Shape) (steps : List Int) (xs : List Int) : Int :=
  (List.range 4).foldl (fun a d => if h.ndim ≤ d + 1 then a else a + xs.getD d 0 * steps.getD (d + 1) 0) 0

/-- The bytes `lo` to `hi` of a run that lie in bounds in dimension 0, by byte of the row, and whether only the low nibble of the last
is. -/
def Shape.inside (h : Shape) (o0 : Int) (r : RowRun) : Nat × Nat × Bool :=
  let ext : Int := h.ext.getD 0 0
  let firstBit : Int := -(o0 * h.eb)
  let lastBit : Int := (ext - o0) * h.eb
  let lo := max r.from_ (firstBit / 8).toNat
  let top := ((lastBit + 7) / 8).toNat
  let hi := min (r.from_ + r.len) top
  if !h.rowIn r.xs || hi ≤ lo then (0, 0, false) else (lo, hi, h.eb = 4 && hi = top && lastBit % 8 ≠ 0)

/-- The address of byte j of a row. -/
def Shape.byteAt (h : Shape) (o0 : Int) (xs : List Int) (j : Nat) : Nat :=
  (((h.base : Int) + o0 * h.eb / 8 + h.strided h.stride xs + j) % (2 ^ 64 : Nat)).toNat

/-- Loads a run of a row: out-of-bounds bytes and nibbles are zero. -/
def State.loadRun (s : State) (c : Cmd) (h : Shape) (o0 : Int) (r : RowRun) : State × List Byte :=
  let (lo, hi, low) := h.inside o0 r
  if hi ≤ lo then (s, List.replicate r.len 0)
  else
    let (s, bs) := s.engineRead c (h.byteAt o0 r.xs lo) (hi - lo)
    let bs := if low then bs.dropLast ++ [(bs.getLast?.getD 0) &&& 0x0F] else bs
    (s, List.replicate (lo - r.from_) 0 ++ bs ++ List.replicate (r.from_ + r.len - hi) 0)

/-- Stores a run of a row. -/
def State.storeRun (s : State) (c : Cmd) (h : Shape) (o0 : Int) (r : RowRun) : State :=
  let (lo, hi, low) := h.inside o0 r
  if hi ≤ lo then s
  else
    let (s, bs) := s.scrRead c (c.e + r.row * h.sp + lo) (hi - lo)
    s.engineWrite c (h.byteAt o0 r.xs lo) bs low

/-- The words of bytes, and back. -/
def wordsOf (bs : List Byte) : List Word := (List.range (bs.length / 4)).map (fun i => BitVec.ofNat 32 (field bs (4 * i) 4))

/-- The run of row bytes that piece p covers: a chunk of 128 bytes, or of 512 where a transform takes 128 elements together. -/
def Shape.runOf (h : Shape) (c : Cmd) (p : Nat) (unit : Nat) : RowRun :=
  let r := p / h.chunks
  let from_ := p % h.chunks * 128
  let len := min unit (h.rb - from_)
  match c.kind with
  | .gather rows =>
    let x := rows.getD r (0, 0)
    { row := x.1, xs := [x.2], from_ := from_, len := len }
  | _ => { row := r, xs := h.coords c.org r, from_ := from_, len := len }

/-- One scale byte of a box: its row and block, the address, whether its row is in bounds. -/
def Shape.scaleAt (h : Shape) (org : List Int) (q : Nat) : Nat × Bool :=
  let xs := h.coords org (q / h.perRow)
  ((((h.scaleBase : Int) + org.getD 0 0 / 128 + (q % h.perRow : Nat) + h.strided h.sstride xs) % (2 ^ 64 : Nat)).toNat, h.rowIn xs)

/-- Moves scale bytes `lo` to `lo + n` of a box (spec 10, R223, R227). -/
def State.moveScales (s : State) (c : Cmd) (h : Shape) (lo n : Nat) : State :=
  (List.range n).foldl (fun s i =>
    let (a, ok) := h.scaleAt c.org (lo + i)
    let off := c.e + h.rows * h.sp + lo + i
    if c.kind = .store then (if ok then (s.scrRead c off 1).1.engineWrite c a (s.scrRead c off 1).2 false else s)
    else if !ok then s.scrWrite c off [0x7F]
    else
      let (s, bs) := s.engineRead c a 1
      s.scrWrite c off bs) s

/-! ### Collectives (spec 11, R252; spec 21, R435) -/

/-- A contribution's bytes at an offset: this member's from its scratchpad, another's left open by what one device sees. -/
def State.contribution (s : State) (c : Cmd) (x : Coll) (d : CollDesc) (rank off n : Nat) : State × List Byte :=
  if rank = x.rank then s.scrRead c (d.soff + off) n
  else (s, (List.range n).map (fun i => Config.freeByte (2 ^ 70 + x.id) (rank * 2 ^ 32 + off + i)))

/-- One step of a reduction on an element (spec 11, R252; spec 06, R133). -/
def reduceElem (dt rop : Nat) (a b : Nat) : Nat :=
  let fmt := match dt with | 1 => bf16 | _ => fp16
  let wide (x : Nat) : Word := if dt = 0 then BitVec.ofNat 32 x else fenc 0 (fmt.val x)
  let narrow (x : Word) : Nat := if dt = 0 then x.toNat else fmt.enc 0 (fval x)
  if dt = 3 then
    match rop with
    | 0 => (a + b) % 2 ^ 32
    | 1 => if intOf 32 a ≤ intOf 32 b then a else b
    | _ => if intOf 32 a ≤ intOf 32 b then b else a
  else match rop with
    | 0 => if dt = 0 then (fadd 0 (wide a) (wide b)).toNat else fmt.enc 0 ((fmt.val a).add 0 (fmt.val b))
    | 1 => narrow (fminmax false (wide a) (wide b))
    | _ => narrow (fminmax true (wide a) (wide b))

/-- The elements of two runs of bytes reduced. -/
def reduceBytes (dt rop : Nat) (a b : List Byte) : List Byte :=
  let w := if dt = 0 || dt = 3 then 4 else 2
  (List.range (a.length / w)).flatMap (fun i => leBytes (reduceElem dt rop (field a (w * i) w) (field b (w * i) w)) w)

/-- Bytes of a collective's result. -/
def State.collBytes (s : State) (c : Cmd) (x : Coll) (d : CollDesc) (off n : Nat) : State × List Byte :=
  match d.op with
  | 3 => s.contribution c x d (off / d.len) (off % d.len) n
  | 4 => s.contribution c x d 0 off n
  | _ =>
    let base := if d.op = 2 then x.rank * (d.len / x.n) + off else off
    (List.range (x.n - 1)).foldl (fun (r : State × List Byte) i =>
      let q := r.1.contribution c x d (i + 1) base n
      (q.1, reduceBytes d.dt d.rop r.2 q.2)) (s.contribution c x d 0 base n)

/-- How a step of a collective fails: nothing leaves a device or context that may not send (spec 21, R418), and whether a delivery to
another member is given up is open. -/
def State.stepLost (s : State) (c : Cmd) (x : Coll) (p : Nat) : Option (Nat × Nat) :=
  let others := x.devs.filter (· ≠ s.devid)
  match others with
  | [] => none
  | d :: _ =>
    match s.egressFault c.ctx with
    | some r => some (d, r)
    | none =>
      match others.find? (fun e => !s.fab.members.getLsbD e) with
      | some e => some (e, 3)
      | none =>
        if Config.freeBool s.own.fresh (0x8000000 + p) then
          some (others.getD ((Config.freeWord s.own.fresh (0x8000000 + p)).toNat % others.length) d, 1)
        else none

/-- The sequence of signatures of a collective (spec 11, R255). -/
def sigStep (sig : Dword) (id : Nat) : Dword := ((sig <<< 7) ||| (sig >>> 57)) ^^^ BitVec.ofNat 64 id

/-- Performs a piece of a collective's result. -/
def State.collPiece (s : State) (c : Cmd) (x : Coll) (p : Nat) : State :=
  let d := collDesc x.desc
  let off := 128 * p
  let n := min 128 (c.n - off)
  let id := s.devid * 2 ^ 40 + (x.steps + p) % 2 ^ 40
  let s := s.modBlock c.block (fun b => { b with colls := updWhere b.colls (fun y => y.id = x.id) (fun y => { y with sig := sigStep y.sig id }) })
  let dst := d.roff + off
  if s.collDiffers x then s.scrWrite c dst (s.freeBytes (0x9000000 + off) n)
  else match s.stepLost c x p with
    | some (dev, r) => (s.modCmd c.id (fun c => c.lose dev r)).scrWrite c dst (s.freeBytes (0x9000000 + off) n)
    | none =>
      let (s, bs) := s.collBytes c x d off n
      s.scrWrite c dst bs

/-! ### Fired PUTs (spec 11, R250; spec 21, R436) -/

/-- The attachment that a fired command stands for. -/
def Cmd.attach (c : Cmd) : Attach :=
  { id := c.e, counter := 0, rel := 0, dep := false, ctx := c.ctx, core := c.node, sup := c.sup, task := none, addr := 0, rcd := c.rcd }

/-- Moves up to 256 bytes of a fired PUT: copied here, or sent as a packet of its one message. -/
def State.firedPiece (s : State) (c : Cmd) (p : Nat) : State :=
  let src := field c.rcd 8 8 + 256 * p
  let dst := field c.rcd 16 8
  let n := min 256 (c.n - 256 * p)
  let (s, bs) := match s.run noNode c.ctx c.sup false (BitVec.ofNat 64 src) n with
    | none => (s, none)
    | some l => s.readPieces l
  match bs with
  | none =>
    let why := if (s.run noNode c.ctx c.sup false (BitVec.ofNat 64 src) n).isNone then 1 else 3
    s.modCmd c.id (fun c => c.failAt src why)
  | some bs =>
    match s.peerOf c.ctx c.sup true (BitVec.ofNat 64 dst), s.peerOf c.ctx c.sup true (BitVec.ofNat 64 (dst + 256 * p)) with
    | none, none =>
      (match s.run noNode c.ctx c.sup true (BitVec.ofNat 64 (dst + 256 * p)) n with
        | some l => if noFields l then s.writePieces l bs else s.modCmd c.id (fun c => c.failAt (dst + 256 * p) 5)
        | none => s.modCmd c.id (fun c => c.failAt (dst + 256 * p) 4))
    | some (d, a), some (e, _) =>
      if d ≠ e || (s.peerFault c.ctx d).isSome then s.modCmd c.id (fun c => c.failAt (dst + 256 * p) 1)
      else
        let fresh := !s.fab.outmsgs.any (fun m => m.cmd = some (c.id, 0))
        let m := if fresh then s.fab.msgid else ((s.fab.outmsgs.find? (fun m => m.cmd = some (c.id, 0))).map (·.id)).getD 0
        let msg : OutMsg := { id := m, peer := d, total := c.n, first := none, kind := 0x10, att := some c.attach,
                              cmd := some (c.id, 0), done := false, status := 0 }
        let s := if fresh then (s.addMsg msg).newMsg else s
        let body : PBody := .write a ((List.range n).map (fun j => (j, bs.getD j 0)))
        (s.enqueue d 0 { s.packet 1 0 d false ((s.tagFor c.ctx).getD 0) m (256 * p) c.n body with asks := true } (.piece m)).flush
    | _, _ => s.modCmd c.id (fun c => c.failAt (dst + 256 * p) 1)

/-! ### Delivery and completion (spec 10, R230, R232, R236) -/

/-- Whether a block has been terminated: deliveries and reports of its commands are dropped (spec 18, R394). -/
def State.terminated (s : State) (bid : Nat) : Bool := match s.block bid with | none => false | some b => b.term.isSome

/-- What the last piece of a command leaves for its group: ENGFLT, or FABERR for the block's next abwait on the object; for a group or
block that is gone, the grid's completion record (spec 10, R230; spec 11, R254). -/
def State.engineFails (s : State) (c : Cmd) : State :=
  if s.terminated c.block then s else
  let s := match c.fail with
    | none => s
    | some (a, p) =>
      let t : Imprecise := { cause := 28, lanes := 0, addr := BitVec.ofNat 64 a, aux := BitVec.ofNat 64 p }
      match s.group c.gid with
      | none => (match s.block c.block with | none => s | some b => s.modGrid b.grid (fun x => { x with deferred := true }))
      | some g =>
        let key := match c.obj with
          | some k => k
          | none => match g.eng.batches.find? (fun (b : Word × List Nat) => b.2.contains c.id) with
            | some b => batchKey b.1
            | none => openKey c.id
        s.setGroup c.gid { g with out := { g.out with objFail := g.out.objFail ++ [(key, t)] } }
  match c.lost, c.obj, s.block c.block with
  | some aux, some k, some b =>
    let t : Imprecise := { cause := 16, lanes := 0, addr := 0, aux := BitVec.ofNat 64 aux }
    if b.live.isEmpty then s.modGrid b.grid (fun x => { x with deferred := true })
    else s.setBlock c.block { b with objFail := b.objFail ++ [(k, t)] }
  | _, _, _ => s

/-- The record of a collective that went wrong: status 2 for a step given up, 4 for descriptors that differ (spec 11, R254; spec 21,
R435). -/
def State.collRecord (s : State) (c : Cmd) (x : Coll) : State :=
  let status := if s.collDiffers x then 4 else if c.lost.isSome then 2 else 0
  if status = 0 then s
  else s.complete c.ctx (BitVec.ofNat 64 x.cq) status 0x18 false false 0 x.sig.toNat c.n

/-- The byte count of a piece. -/
def Cmd.pieceBytes (c : Cmd) (p : Nat) : Nat :=
  match c.kind with
  | .get remote len | .put remote len => ((remotePieces remote len).getD p (0, 0)).2
  | .coll _ => min 128 (c.n - 128 * p)
  | .fired => min 256 (c.n - 256 * p)
  | _ =>
    let h := shapeOfBytes c.rcd
    let rows := match c.kind with | .gather l => l.length | _ => h.rows
    if p < rows * h.chunks then min 128 (h.rb - p % h.chunks * 128)
    else min 128 (h.rows * h.perRow - 128 * (p - rows * h.chunks))

/-- The pieces that one step performs: the four of a transform of 128 elements together, else one. -/
def Cmd.together (c : Cmd) (p : Nat) : List Nat :=
  let h := shapeOfBytes c.rcd
  if c.kind = .load && h.had && p < h.rows * h.chunks then (List.range 4).map (· + p / 4 * 4) else [p]

/-- Performs a piece of a box or gather. -/
def State.boxPiece (s : State) (c : Cmd) (p : Nat) : State :=
  let h := shapeOfBytes c.rcd
  let rows := match c.kind with | .gather l => l.length | _ => h.rows
  let o0 : Int := match c.kind with | .gather _ => 0 | _ => c.org.getD 0 0
  if p < rows * h.chunks then
    if c.kind = .store then s.storeRun c h o0 (h.runOf c p 128)
    else
      let first := (c.together p).headD p
      let r := h.runOf c first (if 1 < (c.together p).length then 512 else 128)
      let (s, bs) := s.loadRun c h o0 r
      let bs := if h.had && c.kind = .load then (hadamard h.seed (wordsOf bs)).flatMap (fun w => leBytes w.toNat 4) else bs
      s.scrWrite c (c.e + r.row * h.sp + r.from_) bs
  else
    let q := 128 * (p - rows * h.chunks)
    s.moveScales c h q (min 128 (h.rows * h.perRow - q))

/-- Whether a piece may be performed: its banks accept an activate; the members of a collective have exchanged their descriptors, or a step
cannot reach one of them (spec 21, R435). -/
def State.pieceReady (s : State) (c : Cmd) (p : Nat) : Bool :=
  let h := shapeOfBytes c.rcd
  let rows := match c.kind with | .gather l => l.length | _ => h.rows
  let o0 : Int := match c.kind with | .gather _ => 0 | _ => c.org.getD 0 0
  match c.kind with
  | .get .. | .put .. => c.acked.contains p
  | .coll id => (match (s.block c.block).bind (fun b => b.colls.find? (fun y => y.id = id)) with
    | none => true
    | some x => s.collKnown x || (s.stepLost c x p).isSome)
  | .fired => true
  | _ =>
    if p < rows * h.chunks then
      let r := h.runOf c p 128
      let (lo, hi, _) := h.inside o0 r
      hi ≤ lo || s.banksFree c (c.kind = .store) (h.byteAt o0 r.xs lo) (hi - lo)
    else true

/-- PIECE_DELIVERY: a piece is performed, then its bytes are delivered to the object (spec 10, R232; spec 11, R252, R254). -/
def execPieceDelivery (cmd piece : Nat) (s : State) : Res :=
  match s.cmds.find? (fun c => c.id = cmd) with
  | none => .next s
  | some c =>
    if !c.run || !c.left.contains piece || !s.pieceReady c piece then .next s
    else
      let ps := c.together piece
      let s := match c.kind with
        | .get .. | .put .. => s
        | .coll id => (match (match s.block c.block with | none => none | some b => b.colls.find? (fun (y : Coll) => y.id = id)) with
          | none => s
          | some x => s.collPiece c x piece)
        | .fired => s.firedPiece c piece
        | _ => s.boxPiece c piece
      let s := s.modCmd cmd (fun c => { c with left := c.left.filter (fun q => !ps.contains q) })
      let now := (s.cmds.find? (fun (d : Cmd) => d.id = cmd)).getD c
      let last := now.left.isEmpty
      let x := match c.kind with
        | .coll id => (match s.block c.block with | none => none | some b => b.colls.find? (fun (y : Coll) => y.id = id))
        | _ => none
      let now := match x with
        | some x => if s.collDiffers x then now.lose 0 5 else now
        | none => now
      let s := if last then
          let s := s.engineFails now
          (match x with
            | some x => s.collRecord now x
            | none => s)
        else s
      .next (match c.obj with
        | none => s
        | some k => if s.terminated c.block then s else ps.foldl (fun s q => s.objDeliver c.block c.gid k (-(c.pieceBytes q : Int))) s)

/-- COMMAND_COMPLETE: a command whose pieces are all performed leaves the engine; batches settle; a fired copy on this device writes its
record, one sent to a peer awaits the message's completion (spec 10, R232, R236; spec 21, R436). -/
def execCommandComplete (cmd : Nat) (s : State) : Res :=
  match s.cmds.find? (fun c => c.id = cmd) with
  | none => .next s
  | some c =>
    if !c.run || !c.left.isEmpty then .next s
    else
      let s := { s with cmds := s.cmds.filter (fun d => d.id ≠ cmd) }
      let s := match c.kind with
        | .coll id =>
          let ended := ((s.block c.block).bind (fun b => b.colls.find? (fun (y : Coll) => y.id = id))).toList.flatMap (fun (x : Coll) => x.devs.filterMap (s.collHeard x))
          { s with fab := { s.fab with colls := s.fab.colls.filter (fun w => !ended.contains w) } }.modBlock c.block (fun b =>
            { b with colls := b.colls.filter (fun y => y.id ≠ id) })
        | _ => s
      let msg := s.fab.outmsgs.find? (fun (m : OutMsg) => m.cmd = some (cmd, 0))
      let drop (s : State) : State := { s with fab := { s.fab with outmsgs := s.fab.outmsgs.filter (fun (m : OutMsg) => m.cmd ≠ some (cmd, 0)) } }
      let s := match c.kind, c.fail, msg with
        | .fired, some (_, p), none => s.opDone c.attach (if p = 3 then 3 else s.openStatus c.e) 0
        | .fired, some (_, p), some m => if m.done then drop s else (drop s).opDone c.attach (if p = 3 then 3 else s.openStatus c.e) 0
        | .fired, none, none => s.opDone c.attach 0 c.n
        | .fired, none, some m => if m.done then drop s else s
        | _, _, _ => s
      .next (((s.settleBatches c.gid).rouseBatch c.gid).reap)

/-! ### Acknowledged lines (spec 11, R243; spec 14, R329) -/

/-- WC_LINE_ACK: the peer's answer to a drained line: the packet is acknowledged, the line leaves the buffer, and a newer line of
its address may go. -/
def execWcLineAck (core line status : Nat) (s : State) : Res :=
  let mine (x : Sent) : Bool := x.purpose = .line core line && x.sent
  if 3 < status || !s.receives || !s.fab.sctx.any (fun c => c.cached && c.pkts.any mine) then .next s
  else
    let s := { s with fab := { s.fab with sctx := s.fab.sctx.map (fun (c : SendCtx) =>
      if c.pkts.any mine then { c with last := s.clock.toNat, pkts := c.pkts.filter (fun x => !mine x) } else c) } }
    .next ((s.lineAcked core line (match status with | 0 => 0 | 1 => 2 | 2 => 3 | _ => 4)).flush)

end Sys2Proof.Machine
end

