-- ==== Sys2Proof/Machine/Migration.lean ====
section
/-! DEFINITION. Migration (spec 12, R262 to R274; spec 14, R325; spec 17, R376): sending lanes to the owners of their data, visiting
groups, and the return of registers. -/

namespace Sys2Proof.Machine

open Sys2Proof

/-! ### Owners -/

/-- What migr and mowner do with an address: it is one byte, read by nothing. -/
def ownerUse : Use := {}

/-- The owner of an address of a lane: its code, none in a peer window (spec 12, R264). -/
def State.ownerAt (s : State) (g : Group) (l : List Piece) : Option Nat :=
  match l with
  | [] => some g.owner
  | p :: _ => match p.tgt with
    | .peer .. => none
    | .here loc pte => some (s.ownerOf loc (pteIl pte) g.owner)

/-- The address that lane L names: A + B[L] × scale. -/
def migAddr (s : State) (g : Group) (f : Fields) (L : Nat) : Dword :=
  s.readSP g f.a + scaled (s.readV g f.b.toNat L) (2 ^ f.mf 2 1)

/-- MOWNER (spec 12, R274): the result lands later, and no memory is read. -/
def execMowner (f : Fields) (s : State) : Res :=
  issue (rowMowner f) f s fun gid g =>
    let w := g.wset
    if w = 0 then .next (s.advance gid f.bytes)
    else
      let code (L : Nat) : Word :=
        let r := s.locate g L ownerUse 1 (migAddr s g f L)
        if !r.2.isEmpty then 0xFFFFFFFE
        else match s.ownerAt g r.1 with
          | none => 0xFFFFFFFF
          | some o => BitVec.ofNat 32 o
      let got := (lanesOf w).foldl (fun m L => (List.range 4).foldl (fun m i =>
        Sparse.put m (16 * L + i) (BitVec.ofNat 8 ((code L).toNat / 256 ^ i))) m) ([] : List (Nat × Byte))
      let part : Part := { id := 0, vis := 0, lane := 0, lanes := 0, loc := .mem (sliceKey g.owner 0), il := 0, peer := none, msg := none, addr := 0,
                           off := 0, len := 0, data := [], cmp := [] }
      let a : Access := { accessOf gid g .owner with vec := true, dst := f.d.toNat, regs := 1, lanes := w, got := got }
      .next (((s.markEmpty gid true f.d.toNat 1).startAccess a [part]).advance gid f.bytes)

/-! ### Tokens -/

/-- The lanes of a token that have not resolved: on their way, visiting, or on their way back (spec 12, R266). -/
def State.awaited (s : State) (gid token : Nat) : Word :=
  let a := s.conts.foldl (fun (w : Word) c => if c.origin = gid && c.token = token then w ||| c.lanes else w) 0
  let b := s.groups.foldl (fun (w : Word) (p : Nat × Group) => match p.2.visitor with
    | none => w
    | some v => if v.origin = gid && v.token = token then w ||| p.2.ctl.livem else w) a
  s.rets.foldl (fun (w : Word) r => if r.origin = gid && r.token = token then w ||| r.lanes else w) b

/-- MTEST (spec 12, R274). -/
def execMtest (f : Fields) (s : State) : Res :=
  issue (rowMtest f) f s fun gid _ =>
    .next ((s.putDst gid f.d (s.awaited gid f.a.toNat)).advance gid f.bytes)

/-- The code and reason of a token lane (spec 12, R266). -/
def tokCode (w : Word) : Nat := w.toNat % 256
def tokReason (w : Word) : Nat := w.toNat / 256 % 256

/-- MJOIN (spec 12, R272). One that stalls for its token has issued, and holds its group until the token is full (spec 05, R117). -/
def execMjoin (f : Fields) (s : State) : Res :=
  issueHold (fun n => .mjoin n.reg) (rowMjoin f) f s fun gid g => notVisitor s gid g <|
    let t (L : Nat) : Word := s.readV g f.a.toNat L
    let with_ (c : Nat) : Word := maskOf (fun L => tokCode (t L) = c)
    let low (c : Nat) : Nat := lowestLane (with_ c)
    if with_ 3 ≠ 0 then
      .next (s.trap gid .migflt (with_ 3) (Sparse.get 0 g.out.tokAddr (32 * f.a.toNat + low 3)) (BitVec.ofNat 64 (tokReason (t (low 3)))))
    else if g.out.tokT.getLsbD f.a.toNat && with_ 2 ≠ 0 then
      .next (s.trap gid .migref (with_ 2) 0 (BitVec.ofNat 64 (tokReason (t (low 2)))))
    else
      let exm := (g.ctl.exm ||| with_ 1 ||| with_ 2) &&& g.ctl.livem
      .next ((s.setGroup gid { g with ctl := { g.ctl with exm := exm } }).advance gid f.bytes)

/-! ### MIGR (spec 12, R263, R265, R270) -/

/-- The registers that a list mask names from a base. -/
def listedRegs (base : Nat) (mask : Word) : List Nat := (lanesOf mask).map (· + base)

/-- The listed registers' values for some lanes; a matrix operation that covers one leaves them open (spec 13, R291). -/
def State.shipped (s : State) (g : Group) (vs : List Nat) (lanes : Word) : List (Nat × Word) :=
  vs.foldl (fun m r => (lanesOf lanes).foldl (fun m L => Sparse.set 0 m (32 * r + L) (s.readV g r L)) m) []

/-- The lists of a migr that step 9 of R56 refuses: the field code, 0 for none (spec 12, R263, R270). -/
def migBad (f : Fields) (g : Group) (vs ss : List Nat) : Nat :=
  if 16 < vs.length || vs.any (254 < ·) then 4
  else if 8 < ss.length || ss.any (127 < ·) then 5
  else if (if g.visitor.isSome then f.h ≠ 255 else vs.contains f.h.toNat) then 6
  else 0

/-- What a migr has decided about its lanes: those that leave for each owner, and those refused in a peer window. -/
def State.migSplit (s : State) (g : Group) (l : List (Nat × List Piece)) : List (Nat × Word) × Word :=
  l.foldl (fun (r : List (Nat × Word) × Word) x => match s.ownerAt g x.2 with
    | none => (r.1, r.2 ||| (1#32 <<< x.1))
    | some o =>
      if o = g.owner then r else (Sparse.put r.1 o (Sparse.get 0 r.1 o ||| (1#32 <<< x.1)), r.2)) ([], 0)

/-- MIGR: a release at .dev, then a continuation to each owner. A visitor hands its lanes on. -/
def execMigr (f : Fields) (s : State) : Res :=
  issue (rowMigr f) f s fun gid g =>
    let vs := listedRegs (f.xmod.toNat % 256) (s.readS g f.c)
    let ss := listedRegs (4 * (f.xmod.toNat / 256)) (s.readS g f.e)
    if migBad f g vs ss ≠ 0 then s.illop14 gid (migBad f g vs ss)
    else match vs.find? (fun r => !s.owns g false r), ss.find? (fun r => !s.owns g true r) with
    | some r, _ => .next (s.trapPlain gid .regbound (regAux false r))
    | none, some r => .next (s.trapPlain gid .regbound (regAux true r))
    | none, none =>
      match vs.find? (g.isEmpty false), ss.find? (g.isEmpty true) with
      | some r, _ => .next (s.stall gid (.vreg r))
      | none, some r => .next (s.stall gid (.sreg r))
      | none, none =>
        if vs.any (fun r => g.regs.vbad.any (fun k => k / 32 = r)) || ss.any g.regs.sbad.contains then .next (s.consume gid) else
        match s.check g ownerUse 1 ((lanesOf g.ctl.exm).map (fun L => (L, migAddr s g f L))) with
        | .error e => s.raiseNow gid g false e
        | .ok l =>
          releasing s gid g 3 fun s =>
            let s := s.lookUps g ((lanesOf g.ctl.exm).map (migAddr s g f))
            let (sends, peers) := s.migSplit g l
            let away := sends.foldl (fun (w : Word) p => w ||| p.2) 0
            let gone := away ||| peers
            let next := g.ctl.pc + BitVec.ofNat 64 f.bytes
            let shipped (w : Word) : List (Nat × Word) := s.shipped g vs w
            let origin := match g.visitor with | none => gid | some v => v.origin
            let token := match g.visitor with | none => f.h.toNat | some v => v.token
            let vlist : BitVec 256 := vs.foldl (fun m r => m ||| (1#256 <<< r)) 0
            let slist : BitVec 128 := ss.foldl (fun m r => m ||| (1#128 <<< r)) 0
            let s := if g.visitor.isSome then s else s.unclean g.block
            let s := sends.foldl (fun (s : State) p =>
              let c : Cont := { id := s.own.ids, owner := p.1, origin := origin, block := g.block, token := token, lanes := p.2, pc := next,
                                vlist := vlist, slist := slist, v := shipped p.2, s := ss.map (fun r => (r, g.rdS r)), ctx := g.ctx,
                                index := g.index, arrived := none }
              { s with conts := s.conts ++ [c] }.newId) s
            if g.visitor.isSome then
              let r : Ret := { id := s.own.ids, slot := none, origin := origin, block := g.block, token := token, lanes := peers, code := 2, reason := 2,
                               addr := 0, vlist := vlist, v := shipped peers }
              let s := if peers = 0 then s else { s with rets := s.rets ++ [r] }.newId
              let left := g.ctl.livem &&& ~~~gone
              if left = 0 then .next (s.dropGroup gid)
              else .next ((s.modGroup gid (fun g => { g with ctl := { g.ctl with livem := left, exm := g.ctl.exm &&& ~~~gone } })).advance gid f.bytes)
            else
              let s := s.writeV gid f.h.toNat (laneList.map (fun L => (L, if peers.getLsbD L then 0x202#32 else 0)))
              let bit : BitVec 256 := 1#256 <<< f.h.toNat
              let s := s.modGroup gid (fun g =>
                let g := if away = 0 then g else g.markV f.h.toNat true
                { g with
                  ctl := { g.ctl with exm := g.ctl.exm &&& ~~~gone }
                  out := { g.out with
                    tokT := if f.m 3 then g.out.tokT ||| bit else g.out.tokT &&& ~~~bit
                    tokAddr := g.out.tokAddr.filter (fun (p : Nat × Dword) => p.1 / 32 ≠ f.h.toNat) } })
              .next (s.advance gid f.bytes)

/-- MRET (spec 12, R271). -/
def execMret (f : Fields) (s : State) : Res :=
  issue (rowMret f) f s fun gid g =>
    if g.visitor.isNone then .next (s.advance gid f.bytes)
    else releasing s gid g 3 fun s => .next (s.endVisitor gid 1 0 0)

/-! ### At the owner (spec 12, R267, R268; spec 17, R376) -/

/-- The visitor slots of a core or stack core. -/
def slotsOf (owner : Nat) : Nat := if owner < 192 then 8 else 32

/-- The lowest free visitor slot of an owner: no visitor runs in it, and no returning registers wait in it (spec 14, R325). -/
def State.freeSlot (s : State) (owner : Nat) : Option Nat :=
  (List.range (slotsOf owner)).find? (fun n => !s.rets.any (fun r => r.slot = some (owner, n)) && !s.groups.any (fun p => p.2.owner = owner &&
    (match p.2.visitor with | none => false | some v => v.slot = n)))

/-- A continuation image: a header, which the spec does not lay out, eight scalar registers, and the vector registers packed (spec 14,
R325, R326; log entry 114). -/
def contImage (fresh : Nat) (c : Cont) : List Byte :=
  let free (o n : Nat) : List Byte := (List.range n).map (fun i => Config.freeByte fresh (0xD000000 + o + i))
  let scalars := c.s.flatMap (fun p => leBytes p.2.toNat 4)
  let saved := (List.range 256).map (fun r =>
    if r ≠ 255 && c.vlist.getLsbD r then packV (laneList.map (fun L => Sparse.get 0 c.v (32 * r + L))) false else (0xFF, []))
  free 0 64 ++ scalars ++ free 64 (32 - scalars.length) ++ saved.map (fun x => BitVec.ofNat 8 x.1) ++ saved.flatMap (·.2)

/-- A core's slot holds its continuation in the slice; a stack core's lies in its own SRAM (spec 14, R317, R325). -/
def State.fillSlot (s : State) (slot : Nat) (c : Cont) : State :=
  if 192 ≤ c.owner then s
  else { s with mem := Mem.wrBytes s.mem (sliceKey c.owner (0x1C0000 + 4096 * slot)) (contImage s.own.fresh c) }

/-- A refused continuation goes back with its registers as sent. -/
def State.refuseCont (s : State) (c : Cont) (reason : Nat) : State :=
  let r : Ret := { id := s.own.ids, slot := none, origin := c.origin, block := c.block, token := c.token, lanes := c.lanes, code := 2, reason := reason,
                   addr := 0, vlist := c.vlist, v := c.v }
  { s with conts := s.conts.filter (fun d => d.id ≠ c.id), rets := s.rets ++ [r] }.newId

/-- The trust level of a context (spec 25, R454). -/
def State.tlevel (s : State) (c : BitVec 8) : Nat := s.ctxField c 57 1 % 8

/-- CONTINUATION_ARRIVAL: refused when the owner is closed to the context's trust level, else it waits for a slot. -/
def execContinuationArrival (cont : Nat) (s : State) : Res :=
  match s.conts.find? (fun c => c.id = cont && c.arrived.isNone) with
  | none => .next s
  | some c =>
    if !(s.node c.owner).vopen.getLsbD (s.tlevel c.ctx) then .next (s.refuseCont c 3)
    else .next { s with conts := updWhere s.conts (fun d => d.id = cont) (fun d => { d with arrived := some s.clock.toNat }) }

/-- Whether a continuation that has arrived may still start: until the 4,096th cycle after that (spec 12, R267). -/
def State.inTime (s : State) (c : Cont) : Bool := match c.arrived with | none => false | some t => s.clock.toNat ≤ t + 4096

/-- The continuation that has waited longest at an owner, of those that may still start. -/
def State.firstCont (s : State) (owner : Nat) : Option Cont :=
  (s.conts.filter (fun c => c.owner = owner && s.inTime c)).foldl (fun best c => match best with
    | none => some c
    | some b => if c.arrived.getD 0 < b.arrived.getD 0 then some c else best) none

/-- The groups of a partition's active set (spec 17, R372). -/
def State.activeIn (s : State) (owner part : Nat) : Nat :=
  (s.groups.filter (fun p => p.2.owner = owner && p.2.part = part && p.2.sched.active)).length

/-- The partition of a visitor slot; a stack core has one scheduler. -/
def slotPart (owner slot : Nat) : Nat := if owner < 192 then slot / 2 else 0

/-- The visiting group of a continuation (spec 12, R268). -/
def visitorOf (c : Cont) (slot order : Nat) (active : Bool) : Group :=
  { block := c.block, index := c.index, owner := c.owner, part := slotPart c.owner slot, ctx := c.ctx,
    ctl := { pc := c.pc, exm := c.lanes, livem := c.lanes, stack := [], guards := 0, supAt := none },
    regs := { v := c.v, s := c.s.foldl (fun m p => Sparse.set 0 m p.1 p.2) [], vempty := 0, sempty := 0 },
    sys := { cks := 0, batchseq := 0, batchdone := 0, gang := 0, fmtlast := 0, gstat := 0, tcause := 0, tlanes := 0, taddr := 0, taux := 0,
             skid := 0, haltpc := 0 },
    sched := { hold := .none, since := 0, active := active, order := order, skidLeft := none, dhalt := false, passBp := false },
    eng := { copyQ := [], matQ := [], openB := [], batches := [], async := [], latch := none, unfenced := 0 },
    out := { imprecise := [], storeFail := [], objFail := [], invs := [], items := [], corFence := 0, tokT := 0, tokAddr := [] },
    visitor := some { origin := c.origin, token := c.token, vlist := c.vlist, slist := c.slist, slot := slot } }

/-- VISITOR_START: the longest waiting continuation starts in the lowest free slot, an acquire at .dev; the 4,096th cycle after its arrival is
included (spec 12, R267). Its grid's end waits for what the visitor does (spec 17, R371). -/
def execVisitorStart (owner : Nat) (s : State) : Res :=
  match s.firstCont owner, s.freeSlot owner with
  | some c, some slot =>
    let g := visitorOf c slot s.own.seq (s.activeIn owner (slotPart owner slot) < 8)
    let s := { s with conts := s.conts.filter (fun d => d.id ≠ c.id) }.fillSlot slot c
    let s := match s.block c.block with | none => s | some b => s.modGrid b.grid (fun x => { x with gone := s.own.ids :: x.gone })
    .next ((((s.setGroup s.own.ids g).newId.newSeq).acquired owner 3).rouse owner 16)
  | _, _ => .next s

/-- MIGRATION_REFUSAL: no slot has freed within 4,096 cycles. -/
def execMigrationRefusal (cont : Nat) (s : State) : Res :=
  match s.conts.find? (fun c => c.id = cont) with
  | none => .next s
  | some c => match c.arrived with
    | none => .next s
    | some t =>
      if t + 4096 ≤ s.clock.toNat && ((s.freeSlot c.owner).isNone || !s.inTime c) then .next (s.refuseCont c 1) else .next s

/-! ### The return (spec 12, R266, R271) -/

/-- The registers that wait in a visitor slot are sent (spec 14, R325). -/
def State.sendRet (s : State) (id : Nat) : State :=
  { s with rets := updWhere s.rets (fun r => r.id = id) (fun r => { r with slot := none }) }

/-- MIGRATION_RETURN: the registers land lane by lane, an acquire at .dev, then the token lanes; the last one fills the token. A group that only
waited for it retires (spec 05, R122). -/
def execMigrationReturn (ret : Nat) (s : State) : Res :=
  match s.rets.find? (fun r => r.id = ret) with
  | none => .next s
  | some r =>
    let s := { s with rets := s.rets.filter (fun q => q.id ≠ ret) }
    match s.group r.origin with
    | none => .next s
    | some g =>
      let regs := (List.range 255).filter (fun i => r.vlist.getLsbD i)
      let s := regs.foldl (fun s i => s.deliverV r.origin i ((lanesOf r.lanes).map (fun L => (L, Sparse.get 0 r.v (32 * i + L)))) false 0) s
      let s := s.acquired g.owner 3
      let noted (m : List (Nat × Dword)) : List (Nat × Dword) :=
        if r.code = 3 then (lanesOf r.lanes).foldl (fun m L => Sparse.put m (32 * r.token + L) r.addr) m else m
      let s := s.modGroup r.origin (fun g => { g with out := { g.out with tokAddr := noted g.out.tokAddr } })
      let word : Word := BitVec.ofNat 32 (r.code + 256 * r.reason)
      let t := s.deliverV r.origin r.token ((lanesOf r.lanes).map (fun L => (L, word))) (s.awaited r.origin r.token = 0) 16
      .next (t.tryRetire r.origin)

end Sys2Proof.Machine
end

