-- ==== Sys2Proof/Machine/System.lean ====
section
/-! DEFINITION. System registers, traps by instruction, checksums, and the supervisor's maintenance instructions (spec 12, R275 to
R283); the end of page-table walks and of translation invalidations (spec 18, R403, R404). -/

namespace Sys2Proof.Machine

open Sys2Proof

/-! ### System registers (spec 01, R35, R37; spec 12, R275, R276) -/

/-- The resume address of the innermost TRAP entry, 0 when there is none. -/
def trapPcOf : List Entry → Dword
  | [] => 0
  | e :: es => if e.kind = .trap then e.pc.zeroExtend 64 else trapPcOf es

/-- The stack with the resume address of its innermost TRAP entry replaced. -/
def setTrapPc (v : Dword) : List Entry → List Entry
  | [] => []
  | e :: es => if e.kind = .trap then { e with pc := v.truncate 56 } :: es else e :: setTrapPc v es

/-- The value of a system register or identity register, zero-extended; LANEID and QUADID are those of lane L. -/
def State.sysReg (s : State) (g : Group) (n L : Nat) : Dword :=
  let w (x : Word) : Dword := x.zeroExtend 64
  match n with
  | 0x000 => w g.sys.tcause
  | 0x001 => trapPcOf g.ctl.stack
  | 0x002 => w g.sys.tlanes
  | 0x003 => g.sys.taddr
  | 0x004 => g.sys.taux
  | 0x005 => w g.sys.skid
  | 0x006 => g.sys.haltpc
  | 0x007 => w (s.node g.owner).wakewhy
  | 0x008 => g.ctx.zeroExtend 64
  | 0x009 => if g.priv then 1 else 0
  | 0x00A => s.clock
  | 0x00B => w g.sys.gang
  | 0x00C => w g.sys.fmtlast
  | 0x00D => w g.ctl.exm
  | 0x00E => w g.ctl.livem
  | 0x00F => w g.sys.gstat
  | 0x010 => BitVec.ofNat 64 g.ctl.stack.length
  | 0x011 => w g.sys.batchseq
  | 0x012 => w g.sys.batchdone
  | 0x013 => g.sys.cks
  | 0x014 => (g.ctl.guards &&& 0xFFFC).zeroExtend 64
  | 0x040 => BitVec.ofNat 64 L
  | 0x041 => BitVec.ofNat 64 (L / 4)
  | _ => w (s.identity g (n - 0x42))

/-- SYSRD. -/
def execSysrd (f : Fields) (s : State) : Res :=
  issue (rowSysrd f) f s fun gid g =>
    let n := f.imm.toNat
    let v (L : Nat) : Dword := s.sysReg g n L
    let t :=
      if f.m 1 then (if sysWide n then s.putW2 gid g f.d.toNat v else s.putW gid g f.d.toNat (fun L => (v L).truncate 32))
      else if sysWide n then s.putPair gid f.d (v 0)
      else s.putDst gid f.d ((v 0).truncate 32)
    .next (t.advance gid f.bytes)

/-- SYSWR: every write is seen by the next instruction. A CTXID of 0, outside 1 to 255, is stored as it is (spec 01, R35, which names no
outcome; log entry 115). -/
def execSyswr (f : Fields) (s : State) : Res :=
  issue (rowSyswr f) f s fun gid g =>
    let v := s.readSP g f.a
    let x := s.readS g f.a
    let put (g : Group) : Res := .next ((s.setGroup gid g).advance gid f.bytes)
    match f.imm.toNat with
    | 0x001 =>
      if bitsAt v 63 56 ≠ 0 || !g.ctl.stack.any (fun e => e.kind = .trap) then s.illop14 gid 2
      else
        let below := (g.ctl.stack.dropWhile (fun e => e.kind ≠ .trap)).length - 1
        let g := { g with ctl := { g.ctl with stack := setTrapPc v g.ctl.stack } }
        .next ((s.pushed gid (16 + below) g).advance gid f.bytes)
    | 0x008 => if x.toNat / 256 ≠ 0 then s.illop14 gid 2 else put { g with ctx := x.truncate 8 }
    | 0x00B => put { g with sys := { g.sys with gang := x } }
    | 0x00D => put { g with ctl := { g.ctl with exm := x &&& g.ctl.livem } }
    | 0x00F => if x.toNat / 2 ≠ 0 then s.illop14 gid 2 else put { g with sys := { g.sys with gstat := g.sys.gstat &&& x } }
    | _ => put { g with sys := { g.sys with cks := v } }

/-! ### Traps by instruction (spec 12, R277, R278) -/

/-- A trap whose resume address is the instruction after this one. -/
def trapAfter (s : State) (gid : Nat) (g : Group) (n : Nat) (c : Cause) (aux : Dword) : Res :=
  .next (s.trapTo gid c g.ctl.exm 0 aux (g.ctl.pc + BitVec.ofNat 64 n))

/-- TRAP, SCALL. -/
def execTrap (f : Fields) (s : State) : Res :=
  issue (rowTrap f) f s fun gid g => trapAfter s gid g f.bytes .swtrap ((f.imm.truncate 32 : Word).zeroExtend 64)
def execScall (f : Fields) (s : State) : Res :=
  issue (rowScall f) f s fun gid g => trapAfter s gid g f.bytes .scall ((f.imm.truncate 32 : Word).zeroExtend 64)

/-- The debugger halts a block: the group, or the visitor, stops at `pc`, with its SKID counted when another halt had it in one, the block's
groups after their skid (spec 12, R278; spec 18, R384, R385). -/
def State.debugHalt (s : State) (gid : Nat) (g : Group) (pc : Dword) : State :=
  let g := { g with
    ctl := { g.ctl with pc := pc }
    sys := { g.sys with skid := if g.sched.skidLeft.isSome then g.sys.skid else 0, haltpc := pc }
    sched := { g.sched with hold := .none, dhalt := true } }
  match s.block g.block with
  | none => s
  | some b =>
    let s := (s.setGroup gid g).setBlock g.block { b with dhalt := true }
    if b.dhalt then s else s.broadcastHalt gid g

/-- BRK: halts the block for cydb when a session is attached to the context, else traps (spec 12, R278, R478). -/
def execBrk (f : Fields) (s : State) : Res :=
  issue (rowBrk f) f s fun gid g =>
    if (s.mgmt.debug).contains g.ctx.toNat && g.sched.skidLeft.isNone then
      .next (s.debugHalt gid g (g.ctl.pc + BitVec.ofNat 64 f.bytes))
    else trapAfter s gid g f.bytes .brk 0

/-- RFT, SRET: pop the TRAP entry; sret only the one that entered supervisor mode. -/
def leaveTrap (r : Row) (f : Fields) (s : State) (sret : Bool) : Res :=
  issue r f s fun gid g =>
    match g.ctl.stack with
    | [] => .next (s.trapPlain gid .stkund 0)
    | e :: rest =>
      if e.kind ≠ .trap || (sret && g.ctl.supAt ≠ some g.ctl.stack.length) then badKind s gid e
      else .next (s.popTrap gid g e rest)

/-- RFT. -/
def execRft (f : Fields) (s : State) : Res := leaveTrap (rowRft f) f s false
/-- SRET. -/
def execSret (f : Fields) (s : State) : Res := leaveTrap (rowSret f) f s true

/-! ### Checksums (spec 12, R279) -/

/-- What cka adds: the scalar once, or the active lanes' values. -/
def ckaSum (s : State) (g : Group) (f : Fields) : Dword :=
  if f.m 1 then (if f.m 2 then s.readSP g f.a else (s.readS g f.a).zeroExtend 64)
  else (lanesOf g.ctl.exm).foldl (fun x L =>
    x + (if f.m 2 then s.readV2 g f.a.toNat L else (s.readV g f.a.toNat L).zeroExtend 64)) 0

/-- CKA. -/
def execCka (f : Fields) (s : State) : Res :=
  issue (rowCka f) f s fun gid g =>
    .next ((s.setGroup gid { g with sys := { g.sys with cks := g.sys.cks + ckaSum s g f } }).advance gid f.bytes)

/-- CHK. -/
def execChk (f : Fields) (s : State) : Res :=
  issue (rowChk f) f s fun gid g =>
    if g.sys.cks ≠ s.readSP g f.a then .next (s.trap gid .sdc g.ctl.exm 0 g.sys.cks)
    else .next ((if f.m 1 then s.setGroup gid { g with sys := { g.sys with cks := 0 } } else s).advance gid f.bytes)

/-! ### Translation and caches (spec 12, R281, R282; spec 18, R403, R404) -/

/-- TLBINV: the invalidation goes out, and the group continues. -/
def execTlbinv (f : Fields) (s : State) : Res :=
  issue (rowTlbinv f) f s fun gid g =>
    let b := s.readS g f.b
    if b.toNat / 1024 ≠ 0 then s.illop14 gid 3
    else
      let i : Inval := { id := s.own.ids, gid := gid, ctx := b.truncate 8, size := b.toNat / 256 % 4, addr := s.readSP g f.a }
      let s := { s with invals := s.invals ++ [i] }.newId
      .next ((s.setGroup gid { g with out := { g.out with invs := i.id :: g.out.invs } }).advance gid f.bytes)

/-- Whether a TLB line falls under an invalidation. -/
def Inval.covers (i : Inval) (t : TlbLine) : Bool :=
  (i.ctx = 0 || t.ctx = i.ctx) &&
    (match i.size with
      | 3 => true
      | 0 => t.bits = 16 && t.base = i.addr.toNat / 2 ^ 16
      | 1 => t.bits = 21 && t.base = i.addr.toNat / 2 ^ 21
      | _ => t.bits = 29 && t.base = i.addr.toNat / 2 ^ 29)

/-- TLBINV_ACK: every TLB has dropped what the invalidation names, and the read buffers and record caches what goes with it (spec 14,
R328; spec 17, R383). -/
def execTlbinvAck (inv : Nat) (s : State) : Res :=
  match s.invals.find? (fun i => i.id = inv) with
  | none => .next s
  | some i =>
    let s := { s.mapNodes (fun n => { n with
      tlb := n.tlb.filter (fun t => !i.covers t)
      rb := []
      recs := if i.size = 3 then n.recs.filter (fun r => i.ctx ≠ 0 && r.ctx ≠ i.ctx) else n.recs }) with
      l2 := s.l2.map (fun (p : Nat × List TlbLine) => (p.1, p.2.filter (fun t => !i.covers t))) }
    let at_ := s.own.ids
    let s := { s with invals := s.invals.filter (fun j => j.id ≠ inv) }.newId
    .next (s.modGroup i.gid (fun g => { g with out := { g.out with invs := g.out.invs.map (fun j => if j = inv then at_ else j) } }))

/-- Whether something issued before an identity may still use a translation of then: accesses and the stores held among them, lines of the
write-combining buffers by their oldest store, transfers, and the requests of remote copies and fired PUTs (spec 18, R404; spec 13,
R286). -/
def State.translatedBefore (s : State) (i : Nat) : Bool :=
  s.accs.any (fun a => a.id < i && a.parts.any (fun p => !a.entered p)) || s.fld.xfers.any (fun x => x.id < i) ||
    s.nodes.any (fun n => n.2.wc.any (fun l => l.oldest < i)) ||
    s.cmds.any (fun c => c.id < i && c.run && (match c.kind with | .get .. | .put .. | .fired => true | _ => false)) ||
    s.fab.outmsgs.any (fun m => !m.done && (match m.cmd with | none => false | some (c, _) => c < i))

/-- TLBSYNC: until every earlier tlbinv of the group is acknowledged and what used a translation of before then has
been performed; the block's own held stores drain (log entry 112). -/
def execTlbsync (f : Fields) (s : State) : Res :=
  issue (rowTlbsync f) f s fun gid g =>
    let s := if g.out.invs.isEmpty then s else s.drainHeld g 3
    let waiting := g.out.invs.any (fun i => s.invals.any (fun j => j.id = i) || s.translatedBefore i)
    if waiting then .next (s.stall gid .inv)
    else .next ((s.setGroup gid { g with out := { g.out with invs := [] } }).advance gid f.bytes)

/-- ICINV (spec 12, R282): the grids placed from now on find no stale line, as they do without it; what a store has changed in the code of
a running grid stays unspecified until that grid retires (spec 02, R45). -/
def execIcinv (f : Fields) (s : State) : Res :=
  issue (rowIcinv f) f s fun gid _ => .next (s.advance gid f.bytes)

/-- WALK (spec 18, R403): a page-table walk of a group completes and fills the TLBs with a valid leaf. An uncorrectable entry is
consumed by the group (spec 18, R399). -/
def execWalk (core gid : Nat) (va : BitVec 64) (s : State) : Res :=
  match s.group gid with
  | none => .next s
  | some g =>
    if g.owner ≠ core || bitsAt va 63 56 ≠ 0 || s.ptroot g.ctx = 0 then .next s
    else
      let bad := (s.walkReads va.toNat walkLevels (s.ptroot g.ctx)).any (s.badAt ownIl)
      .next (if bad then (s.walked core g.ctx va).consume gid else s.walked core g.ctx va)

/-! ### Error maintenance (spec 12, R283; spec 14, R334 to R337) -/

/-- A rank is reported for repair (spec 14, R337; spec 25, R459). -/
def State.reportRank (s : State) (rank : Nat) : State :=
  if s.mgmt.repair.contains rank then s else { s with mgmt := { s.mgmt with repair := rank :: s.mgmt.repair } }.emit (.repair rank)

/-- Adds a mark to a rank's erasure table, which holds at most four: a rank that would need a fifth is reported (spec 14, R337). -/
def State.addMark (s : State) (rank pos : Nat) : State :=
  let m := Sparse.get 0 s.dram.erase rank
  if m.getLsbD pos then s
  else if 4 ≤ symbols m then s.reportRank rank
  else ({ s with dram := { s.dram with erase := Sparse.set 0 s.dram.erase rank (m ||| (1#36 <<< pos)) } }).count (hcMarks rank)

/-- What einj and escrub accept: a sector of far memory. -/
def sectorUse : Use := { align := 32, scr := false, clu := false, priv := false, peer := false }

/-- The sectors from an address on, page by page: key and interleave scheme; the first failing page's address and failure. -/
def State.sectors (s : State) (g : Group) (va : Dword) (n : Nat) : Except Raise (List (Nat × Nat)) :=
  (unitPieces 65536 va.toNat (32 * n)).foldl (fun r p =>
    let a := va + BitVec.ofNat 64 p.1
    match r, s.check g sectorUse 1 [(0, a)] with
    | .error e, _ => .error e
    | .ok _, .error e => .error { e with addr := va }
    | .ok l, .ok x =>
      match x.flatMap (·.2) with
      | [] => .ok l
      | q :: _ => match q.tgt with
        | .peer .. => .ok l
        | .here loc pte => match s.place loc with
          | none => .ok l
          | some key =>
            if 2 ^ 39 ≤ key then .error { cause := .dspace, lanes := 0, addr := va, aux := Config.freeDword s.own.fresh 30 }
            else .ok (l ++ (List.range (p.2 / 32)).map (fun i => (key + 32 * i, pteIl pte)))) (.ok [])

/-- The symbols that an injection corrupts: one, or three of which the instruction names one. -/
def injected (fresh kind sym : Nat) : BitVec 36 :=
  let pick (k : Nat) (l : List Nat) : Nat := l.getD ((Config.freeWord fresh k).toNat % l.length) 0
  let x := pick 31 ((List.range 36).filter (· ≠ sym))
  let y := pick 32 ((List.range 36).filter (fun i => i ≠ sym && i ≠ x))
  (1#36 <<< sym) ||| (if kind = 2 then (1#36 <<< x) ||| (1#36 <<< y) else 0)

/-- EINJ: three symbols of a rank without marks make the sector uncorrectable (spec 14, R337). -/
def execEinj (f : Fields) (s : State) : Res :=
  issue (rowEinj f) f s fun gid g =>
    let b := s.readS g f.b
    let kind := b.toNat % 16
    let sym := b.toNat / 16 % 64
    if kind = 0 || 3 < kind || 35 < sym || b.toNat / 1024 ≠ 0 then s.illop14 gid 3
    else match s.sectors g (s.readSP g f.a) 1 with
      | .error e => s.raiseNow gid g true e
      | .ok l => match l with
        | [] => .next s
        | (key, il) :: _ =>
          let s := s.lookUps g [s.readSP g f.a]
          let s := if kind = 3 then s.addMark (rankOf il key) sym
            else
              let m := Sparse.get 0 s.dram.errors (key / 32) ||| injected s.own.fresh kind sym
              let bad := if kind = 2 && Sparse.get 0 s.dram.erase (rankOf il key) = 0 then key / 32 :: s.dram.bad else s.dram.bad
              { s with dram := { s.dram with errors := Sparse.set 0 s.dram.errors (key / 32) m, bad := bad } }
          .next (s.advance gid f.bytes)

/-- The scrub of one sector: a correctable one is rewritten corrected, one beyond the bound of the code stays as it stands, however the
decoder takes it (spec 14, R335, R336); each is counted. -/
def State.scrub (s : State) (key il : Nat) : State :=
  let rank := rankOf il key
  let t := (s.readAt il key 32).1
  match s.ecc il (key / 32) with
  | .clean => t
  | .fixed _ => t.count (hcScrubbed rank)
  | .wrong | .bad => t.count (hcScrubBad rank)

/-- ESCRUB. -/
def execEscrub (f : Fields) (s : State) : Res :=
  issue (rowEscrub f) f s fun gid g =>
    let n := (s.readS g f.b).toNat
    if n = 0 || 2 ^ 20 < n then s.illop14 gid 3
    else match s.sectors g (s.readSP g f.a) n with
      | .error e => s.raiseNow gid g true e
      | .ok l =>
        let va := s.readSP g f.a
        let s := s.lookUps g ((unitPieces 65536 va.toNat (32 * n)).map (fun p => va + BitVec.ofNat 64 p.1))
        .next ((l.foldl (fun s p => s.scrub p.1 p.2) s).advance gid f.bytes)

end Sys2Proof.Machine
end

