-- ==== Sys2Proof/Machine/Evict.lean ====
section
/-! DEFINITION. The resources of a core and what fits on it (spec 01, R38, R39; spec 14, R321, R322, R324; spec 17, R365, R369), and
the eviction and restoration of a block (spec 14, R323, R326, R327; spec 18, R387 to R393). -/

namespace Sys2Proof.Machine

open Sys2Proof

/-! ### What a core has free -/

/-- What the blocks of a core use: slots and group-registers per partition, page runs, accumulator runs, relocation entries, runs of
private areas in the slice and in the context's far region, and runs of the shadow pool. Runs are (first, length). -/
structure CoreUse where
  slots : List Nat
  regs : List Nat
  pages : List (Nat × Nat)
  accs : List (Nat × Nat)
  entries : List Nat
  areas : List (Nat × Nat)
  far : List (Nat × Nat)
  pool : List (Nat × Nat)
  deriving DecidableEq, Repr

/-- Where a block goes on a core. -/
structure Grant where
  part : Nat
  entry : Nat
  page : Nat
  acc : Nat
  areas : List Nat
  shadow : Bool
  pool : List (Nat × Nat)
  deriving DecidableEq, Repr

/-- The lowest place of a run of `n` units from `lo` below `hi`, at a multiple of `step`, that meets no run in use. -/
def firstFree (lo hi n step : Nat) (used : List (Nat × Nat)) : Option Nat :=
  let up (x : Nat) : Nat := (x + step - 1) / step * step
  let starts := (up lo :: used.map (fun r => up (r.1 + r.2))).filter (fun a =>
    lo ≤ a && a + n ≤ hi && used.all (fun r => a + n ≤ r.1 || r.1 + r.2 ≤ a || n = 0 || r.2 = 0))
  match starts with
  | [] => none
  | a :: as => some (least a as)

/-- The pages of a kernel's allocation (spec 01, R29), and the bytes of a group's private area (spec 14, R324). -/
def Kernel.pages (k : Kernel) : Nat := (k.scr + 256 + 4095) / 4096
def Kernel.area (k : Kernel) : Nat := 32 * k.priv + 4096

/-- The far-memory private region of a context (spec 25, R454). -/
def State.privRegion (s : State) (c : BitVec 8) : Nat × Nat := (s.ctxField c 40 8 % 2 ^ 39, s.ctxField c 48 8)

def State.ctxOf (s : State) (b : Block) : BitVec 8 := match s.grid b.grid with | none => 0 | some g => g.ctx

/-- The bytes of a core's shadow pool (spec 14, R317). -/
def poolBytes : Nat := 229376

/-- The runs of the shadow pool that a block takes: its contain buffer, without which it does not fit, and then its shadow, without which it runs (spec 18,
R395, R398). Each is the lowest free run that holds it (log entry 50). -/
def poolRuns (used : List (Nat × Nat)) (k : Kernel) (contain rollback : Bool) : Option (Bool × List (Nat × Nat)) :=
  let run (n : Nat) (used : List (Nat × Nat)) : Option (Nat × Nat) := (firstFree 0 poolBytes n 1 used).map (fun a => (a, n))
  let shadow (mine : List (Nat × Nat)) : Option (Nat × Nat) := if rollback then run (6144 * k.ngrp) (mine ++ used) else none
  match (if contain then (run 65536 used).map (fun r => [r]) else some []) with
  | none => none
  | some mine => match shadow mine with
    | some r => some (true, r :: mine)
    | none => if contain && rollback then none else some (false, mine)

/-- What is in use on a core, as a grant to a context sees it: the accumulator blocks whose holder is a block of that context are barred,
but for the holder `self` (spec 18, R387). The COLL reserve (entry 127) counts for no partition. -/
def State.coreUse (s : State) (core : Nat) (ctx : BitVec 8) (self : Nat) : CoreUse :=
  let here := s.blocks.filter (fun p => p.2.core = core)
  let resident := here.filter (fun p => p.2.saved.isNone && !p.2.live.isEmpty)
  let groups := resident.flatMap (fun p => if p.2.reloc = 127 then [] else (p.2.live.filterMap (fun i => s.group i)).map (fun g => (g.part, p.2.k)))
  let count (f : Kernel → Nat) (q : Nat) : Nat := (groups.map (fun x => if x.1 = q then f x.2 else 0)).sum
  let parts := [0, 1, 2, 3]
  let held := ((s.node core).holders.filter (fun h => h.2 ≠ self &&
    (match s.block h.2 with | none => false | some b => s.ctxOf b = ctx))).map (fun h => (h.1, 1))
  let region := s.privRegion ctx
  { slots := parts.map (count (fun _ => 1)), regs := parts.map (count (fun k => 8 * k.vregs)),
    pages := (s.node core).relocs.filterMap (fun r => if r.2.st = 1 || r.2.st = 3 then some (r.2.basepg.toNat, r.2.pages.toNat) else none),
    accs := resident.map (fun p => (p.2.accBase, p.2.k.accn)) ++ held,
    entries := (s.node core).relocs.map (·.1),
    areas := resident.flatMap (fun p => p.2.areas.filterMap (fun a =>
      if 2 ^ 39 ≤ a then some ((a - 2 ^ 39) % 2 ^ 21, p.2.k.area) else none)),
    far := s.blocks.flatMap (fun p => if p.2.live.isEmpty then [] else p.2.areas.filterMap (fun a =>
      if a < 2 ^ 39 && region.1 ≤ a then some (a, p.2.k.area) else none)),
    pool := resident.flatMap (fun p => p.2.pool) }

/-- Private areas for n groups: in the slice's private region where a run is free there, else in the context's far region. -/
def CoreUse.takeAreas (core : Nat) (region : Nat × Nat) (size : Nat) : Nat → List (Nat × Nat) → List (Nat × Nat) → List Nat → Option (List Nat)
  | 0, _, _, acc => some acc.reverse
  | n + 1, slice, far, acc =>
    match firstFree 0x180000 0x1C0000 size 128 slice with
    | some a => CoreUse.takeAreas core region size n ((a, size) :: slice) far (sliceKey core a :: acc)
    | none =>
      if region.1 = 0 then none
      else match firstFree region.1 (region.1 + region.2) size 128 far with
        | some a => CoreUse.takeAreas core region size n slice ((a, size) :: far) (a :: acc)
        | none => none

/-- The slots and group-registers that a partition has for blocks outside the COLL reserve (spec 01, R38). -/
def partSlots (q : Nat) : Nat := if q = 3 then 29 else 30
def partRegs (q : Nat) : Nat := if q = 3 then 1456 else 1504

/-- Whether a block's groups fit from a starting partition. -/
def CoreUse.fitsFrom (u : CoreUse) (k : Kernel) (p : Nat) : Bool :=
  ([0, 1, 2, 3] : List Nat).all (fun q =>
    let n := ((List.range k.ngrp).filter (fun g => (p + g) % 4 = q)).length
    u.slots.getD q 0 + n ≤ partSlots q && u.regs.getD q 0 + n * 8 * k.vregs ≤ partRegs q)

/-- The starting partition: the first that fits from the rotation pointer (spec 17, R365). -/
def CoreUse.start (u : CoreUse) (k : Kernel) (rot : Nat) : Option Nat :=
  (([0, 1, 2, 3] : List Nat).map (fun i => (rot + i) % 4)).find? (u.fitsFrom k)

/-- A starting partition, a relocation entry and the first page of an allocation: in the general pool when it has room for all three, else for a
COLL block the core's one reserve (spec 01, R38; spec 14, R321; spec 17, R369). -/
def CoreUse.room (u : CoreUse) (carve rot : Nat) (k : Kernel) (coll : Bool) : Option (Nat × Nat × Nat) :=
  match u.start k rot, (List.range 127).find? (fun e => !u.entries.contains e), firstFree 0 (carveBase carve / 4096) k.pages 1 u.pages with
  | some p, some e, some page => some (p, e, page)
  | _, _, _ =>
    if coll && !u.entries.contains 127 then (firstFree 0x170 0x180 k.pages 1 u.pages).map (fun page => (3, 127, page)) else none

/-- Where a block fits on a core, if it does (spec 01, R39; spec 17, R365, R369; spec 18, R395, R398). -/
def CoreUse.grant (u : CoreUse) (core carve rot : Nat) (k : Kernel) (coll contain rollback : Bool) (region : Nat × Nat) : Option Grant :=
  match u.room carve rot k coll, firstFree 0 64 k.accn 1 u.accs, CoreUse.takeAreas core region k.area k.ngrp u.areas u.far [],
      poolRuns u.pool k contain rollback with
  | some (p, e, page), some acc, some areas, some (shadow, pool) =>
    some { part := p, entry := e, page := page, acc := acc, areas := areas, shadow := shadow, pool := pool }
  | _, _, _, _ => none

/-- Whether a context enables rollback (spec 25, R454). -/
def State.rollbackOn (s : State) (c : BitVec 8) : Bool := s.ctxField c 56 1 / 2 % 2 = 1

/-- Where a block of a grid fits on a core. -/
def State.grantOn (s : State) (core : Nat) (x : Grid) : Option Grant :=
  let n := s.node core
  (s.coreUse core x.ctx 0).grant core n.carve n.rot x.k (x.flags.getLsbD 3) (x.flags.getLsbD 2) (s.rollbackOn x.ctx) (s.privRegion x.ctx)

/-! ### The vector register block (spec 14, R326, R327) -/

/-- The vector register block of a group. -/
def vectorBlock (g : Group) (vregs : Nat) : List Byte :=
  let saved := (List.range 256).map (fun r =>
    if r < 8 * vregs && r ≠ 255 then packV (laneList.map (g.rdV r)) (g.regs.vempty.getLsbD r) else (0xFF, []))
  saved.map (fun x => BitVec.ofNat 8 x.1) ++ saved.flatMap (·.2)

/-! ### The group context (spec 18, R391) -/

/-- The bytes at the end of a list filled up with zeros. -/
def padTo (n : Nat) (l : List Byte) : List Byte := l ++ List.replicate (n - l.length) 0

/-- The 1,024 bytes of a group's context. -/
def contextBytes (g : Group) (sregs : Nat) : List Byte :=
  let n := 8 * sregs
  padTo 1024 ((List.range 128).flatMap (fun r => leBytes (if r < n then (g.rdS r).toNat else 0) 4) ++
    leBytes ((List.range n).foldl (fun m r => if g.regs.sempty.getLsbD r then m else m + 2 ^ r) 0) 16 ++
    leBytes g.ctl.pc.toNat 8 ++ leBytes g.ctl.exm.toNat 4 ++ leBytes g.ctl.livem.toNat 4 ++ leBytes g.sys.cks.toNat 8 ++
    leBytes g.sys.batchseq.toNat 4 ++ leBytes g.sys.batchdone.toNat 4 ++ leBytes g.sys.gang.toNat 4 ++ leBytes g.sys.fmtlast.toNat 4 ++
    leBytes g.sys.gstat.toNat 4 ++ leBytes (g.ctl.guards.toNat / 4 * 4) 4 ++ leBytes g.ctl.stack.length 4 ++ leBytes g.sys.skid.toNat 4 ++
    leBytes g.sys.haltpc.toNat 8 ++ padTo 256 ((g.ctl.stack.take 16).reverse.flatMap Entry.bytes) ++
    leBytes g.sys.tcause.toNat 4 ++ leBytes g.sys.tlanes.toNat 4 ++ leBytes g.sys.taddr.toNat 8 ++ leBytes g.sys.taux.toNat 8 ++
    leBytes (if g.priv then 1 else 0) 4)

/-- Whether a group context's reserved fields are zero: those of GSTAT, GUARDS, TRAPCAUSE and PRIVMODE (spec 01, R35), of its entries, and
its last bytes. -/
def contextGood (c : List Byte) : Bool :=
  let depth := min 16 (field c 576 4)
  field c 568 4 / 2 = 0 && field c 572 4 % 4 = 0 && field c 572 4 / 2 ^ 16 = 0 && field c 848 4 / 256 = 0 && field c 872 4 / 2 = 0 &&
    (List.range depth).all (fun i => (entryOf ((c.drop (592 + 16 * i)).take 16)).isSome) && field c 876 148 = 0

/-- Whether a vector register block can be restored (spec 14, R326). -/
def vectorsGood (hdr : List Byte) : Bool := hdr.all (fun b => b = 0xFF || (b.toNat / 8 % 16 = 0 && b.toNat % 8 < 5))

/-- The vector registers of a block, from memory at its address. A register of the allocation that the image does not hold is left open. -/
def loadVectors (fresh : Nat) (m : Mem) (at_ vregs : Nat) : List (Nat × Word) × BitVec 256 :=
  let fb (n : Nat) : Nat := (Mem.rd m (at_ + n)).toNat
  (List.range (min 255 (8 * vregs))).foldl (fun (r : List (Nat × Word) × BitVec 256) i =>
    let vals := if fb i = 0xFF then (List.range 32).map (fun L => Config.freeWord fresh (0xA000000 + 32 * i + L))
      else unpackV (fb i) (Mem.bytes m (at_ + payloadAt fb i) (payloadSize (fb i)))
    ((List.range 32).foldl (fun v L => Sparse.set 0 v (32 * i + L) (vals.getD L 0)) r.1,
      if fb i ≠ 0xFF && 128 ≤ fb i then r.2 ||| (1#256 <<< i) else r.2)) ([], 0)

/-- A stack entry of the image with the mark of a waiting entry, which its bytes alone do not give once TMO is 0: the group's own entry
had it when nothing has rewritten the image (log entry 22). -/
def Entry.restored (e : Entry) (old : Option Entry) : Entry :=
  match old with
  | some o => if { o with waiting := e.waiting } = e then o else e
  | none => e

/-- A group with what its record holds. Stack entries below the 16 on chip stay in the private area. -/
def Group.loadRecord (g : Group) (fresh : Nat) (m : Mem) (at_ : Nat) (k : Kernel) : Group :=
  let c := Mem.bytes m at_ 1024
  let w (o : Nat) : Word := BitVec.ofNat 32 (field c o 4)
  let d (o : Nat) : Dword := BitVec.ofNat 64 (field c o 8)
  let n := 8 * k.sregs
  let (v, vempty) := loadVectors fresh m (at_ + 1024) k.vregs
  let depth := field c 576 4
  let top := (List.range (min 16 depth)).filterMap (fun i => entryOf ((c.drop (592 + 16 * i)).take 16))
  let mine := top.reverse
  let stack := (List.range mine.length).filterMap (fun i => (mine[i]?).map (fun e => e.restored g.ctl.stack[i]?)) ++
    (g.ctl.stack.drop 16).take (depth - 16)
  let full := field c 512 16
  let sempty := (List.range n).foldl (fun (e : BitVec 128) r => if full / 2 ^ r % 2 = 1 then e else e ||| (1#128 <<< r)) 0
  let sup := if field c 872 4 % 2 = 0 then none else match g.ctl.supAt with | some x => some x | none => some depth
  { g with
    regs := { v := v, s := (List.range n).foldl (fun m r => Sparse.set 0 m r (w (4 * r))) [], vempty := vempty, sempty := sempty }
    ctl := { pc := d 528, exm := w 536, livem := w 540, stack := stack, guards := BitVec.ofNat 16 (field c 572 4), supAt := sup }
    sys := { cks := d 544, batchseq := w 552, batchdone := w 556, gang := w 560, fmtlast := w 564, gstat := w 568, tcause := w 848,
             tlanes := w 852, taddr := d 856, taux := d 864, skid := w 580, haltpc := d 584 } }

/-! ### Eviction (spec 18, R389 to R391) -/

/-- The size of a block's save image. -/
def State.imageSize (s : State) (b : Block) : Nat := s.pagesOf b * 4096 + 256 + b.k.ngrp * 34816 + b.k.accn * 4096

/-- A place for a block's image in its context's save region that overlaps no image that a relocation entry still names. -/
def State.savePlace (s : State) (b : Block) : Option Nat :=
  let c := s.ctxOf b
  let base := s.ctxField c 24 8 % 2 ^ 39
  let used := s.blocks.filterMap (fun p => match Sparse.find (s.node p.2.core).relocs p.2.reloc with
    | none => none
    | some r => if r.st = 2 && r.block = p.1 && s.ctxOf p.2 = c then some (r.save.toNat, s.imageSize p.2) else none)
  firstFree base (base + s.ctxField c 32 8) (s.imageSize b) 4096 used

/-- The private areas of a block in the context's far region, where those held in the slice move. -/
def State.farAreas (s : State) (b : Block) : Option (List Nat) :=
  let region := s.privRegion (s.ctxOf b)
  let far := (s.coreUse b.core (s.ctxOf b) 0).far
  (b.areas.foldl (fun (r : Option (List Nat × List (Nat × Nat))) a => match r with
    | none => none
    | some (out, used) =>
      if a < 2 ^ 39 then some (out ++ [a], used)
      else if region.1 = 0 then none
      else match firstFree region.1 (region.1 + region.2) b.k.area 128 used with
        | none => none
        | some x => some (out ++ [x], (x, b.k.area) :: used)) (some ([], far))).map (·.1)

/-- The bytes of a block record (spec 18, R390). -/
def blockRecord (b : Block) (x : Grid) (saved : Nat) : List Byte :=
  padTo 256 (leBytes b.lin 4 ++ leBytes x.gridid.toNat 4 ++ leBytes b.k.ngrp 1 ++
    leBytes ((if b.thalt then 1 else 0) + if b.dhalt then 2 else 0) 1 ++ leBytes b.hgrp 1 ++ leBytes b.accBase 1 ++ leBytes b.k.accn 1 ++
    [0, 0, 0] ++ leBytes x.kdesc.toNat 8 ++ leBytes x.args.toNat 8 ++ leBytes saved 8)

/-! ### Victims (spec 17, R370) -/

/-- Whether a block may be a victim of a candidate of priority q. -/
def State.victim (s : State) (core q : Nat) (b : Block) : Bool :=
  b.core = core && !b.live.isEmpty && b.saved.isNone && !b.uncorr && (s.savePlace b).isSome && (s.farAreas b).isSome &&
    (match s.grid b.grid with | none => false | some x => x.prio < q && !x.flags.getLsbD 3)

/-- The next of some victims: of the lowest priority the one placed last. -/
def State.nextVictim (s : State) (l : List (Nat × Block)) : Option (Nat × Block) :=
  let prio (b : Block) : Nat := match s.grid b.grid with | none => 0 | some x => x.prio
  l.foldl (fun best p => match best with
    | none => some p
    | some q =>
      if prio p.2 < prio q.2 || (prio p.2 = prio q.2 && q.2.placed ≤ p.2.placed) then some p else best) none

/-- The state as the distributor sees it once a block is evicted: what it frees is free. -/
def State.withoutBlock (s : State) (p : Nat × Block) : State :=
  (s.setBlock p.1 { p.2 with saved := some 0, pool := [] }).modNode p.2.core (fun n => { n with
    relocs := match Sparse.find n.relocs p.2.reloc with
      | none => n.relocs
      | some r => Sparse.put n.relocs p.2.reloc { r with st := 2 } })

/-- Where a candidate fits once victims are evicted, in order, if that makes it fit. -/
def State.wouldFit (s : State) (core : Nat) (x : Grid) : Nat → State → Option Grant
  | 0, t => t.grantOn core x
  | n + 1, t =>
    match t.grantOn core x, t.nextVictim (t.blocks.filter (fun p => t.victim core x.prio p.2)) with
    | some g, _ => some g
    | none, none => none
    | none, some p => State.wouldFit s core x n (t.withoutBlock p)

/-- The accumulator blocks of a block's run that a candidate will take, once every victim that it needs is evicted (spec 18, R391). -/
def State.accNeeded (s : State) (bid : Nat) (b : Block) (cand : Option Grid) : List Nat :=
  match cand with
  | none => []
  | some x => match s.wouldFit b.core x 128 (s.withoutBlock (bid, b)) with
    | none => []
    | some g => ((List.range x.k.accn).map (· + g.acc)).filter (fun i => b.accBase ≤ i && i < b.accBase + b.k.accn)

/-- Copies bytes of memory to another place; far memory is read and written sector by sector (spec 14, R335, R336). -/
def State.copy (s : State) (src dst n : Nat) : State :=
  let r := s.readRun ownIl src n
  r.1.writeRun ownIl dst (r.2.getD (s.look src n))

/-- The halt that an eviction broadcasts (spec 18, R384, R389) for a group that no halt has reached: it stops where it is. -/
def Group.haltHere (g : Group) : Group :=
  if g.sched.skidLeft.isSome || g.sched.dhalt then g else { g with sys := { g.sys with skid := 0, haltpc := g.ctl.pc } }

/-- Evicts a block (spec 18, R389): none while it cannot be. `cand` is the candidate that needs the room. -/
def State.evict (s : State) (bid : Nat) (cand : Option Grid) : Option State :=
  match s.block bid with
  | none => none
  | some b =>
    match s.grid b.grid, s.savePlace b, s.farAreas b, Sparse.find (s.node b.core).relocs b.reloc with
    | some x, some save, some areas, some r =>
      let groups := b.live.filterMap (fun i => (s.group i).map (fun g => (i, g.haltHere)))
      let needed := s.accNeeded bid b cand
      let same := match cand with | none => false | some c => c.ctx = x.ctx
      let busy := groups.any (fun p => match p.2.sched.hold with | .checks _ => true | _ => false) ||
        (same && needed.any (s.accBusy b.core))
      if b.live.isEmpty || b.saved.isSome || b.uncorr || x.flags.getLsbD 3 || busy then none
      else
        let s := s.releaseHeld bid
        let G := r.pages.toNat * 4096
        let here := sliceKey b.core (r.basepg.toNat * 4096)
        let s := s.answerAll (fun w => (here ≤ w.loc && w.loc < here + G) || b.gids.contains w.gid)
        let accsAt := save + G + 256 + b.k.ngrp * 34816
        let bits := if same then needed.foldl (fun n p => n + 2 ^ (p - b.accBase)) 0 else 0
        let s := s.copy here save G
        let s := s.writeRun ownIl (save + G) (blockRecord b x bits)
        let s := groups.foldl (fun s p => s.writeRun ownIl (recordAt save r.pages.toNat p.2.index)
          (contextBytes p.2 b.k.sregs ++ vectorBlock p.2 b.k.vregs)) s
        let s := if same then needed.foldl (fun s p => s.writeRun ownIl (accsAt + 4096 * (p - b.accBase)) (s.accBytes b.core p)) s else s
        let s := (List.range b.areas.length).foldl (fun s i =>
          let from_ := b.areas.getD i 0
          let to_ := areas.getD i 0
          if from_ = to_ then s else s.copy from_ to_ b.k.area) s
        let run := (List.range b.k.accn).map (· + b.accBase)
        let holding := run.filter (fun p => !(same && needed.contains p))
        let s := if same then s.setTags b.core needed 0 else s
        let s := s.modNode b.core (fun n => { n with
          relocs := Sparse.put n.relocs b.reloc { r with st := 2, save := BitVec.ofNat 64 save, basepg := 0 }
          holders := holding.foldl (fun h p => Sparse.put h p bid) n.holders })
        let s := s.modBlock bid (fun b => { b with
          saved := some save, areas := areas, shadow := none, pool := [], contain := false, evicting := false, wanted := false })
        some (b.live.foldl (fun s i => s.modGroup i (fun g => { g.haltHere with sched := { g.sched with
          active := false
          hold := (match g.sched.hold with | .latch _ _ => .none | h => h) } })) s)
    | _, _, _, _ => none

/-- The halt of a block without a trap (spec 18, R389): groups that a trap has halted stay as they are. -/
def State.haltFor (s : State) (bid : Nat) : State :=
  { s.modBlock bid (fun b => { b with evicting := true }) with
    groups := s.groups.map (fun p => (p.1, if p.2.block = bid && p.2.visitor.isNone && p.2.sched.skidLeft.isNone then
      { p.2 with
        sched := { p.2.sched with
          skidLeft := if p.2.sched.hold = .none || p.2.sched.hold = .roused then some 16 else some 0
          hold := match p.2.sched.hold with | .latch _ _ => .none | h => h }
        sys := { p.2.sys with skid := 0, haltpc := p.2.ctl.pc } }
      else p.2)) }

/-- EVICTION: the block that a partial eviction has halted is evicted, or one that cydb names, which is not restored by the distributor (spec
18, R389; spec 19, R406). Where cydb's eviction cannot take effect at once, the block is halted for it, when no other eviction is in progress
on the core, and it is evicted later. -/
def execEviction (block : Nat) (s : State) : Res :=
  match s.block block with
  | none => .next s
  | some b =>
    let named := !b.evicting || b.noRestore
    let cand := if named then none else (match (s.node b.core).blocked with | none => none | some h => s.grid h.1)
    let s := if named && b.saved.isNone then s.modBlock block (fun b => { b with noRestore := true }) else s
    match s.evict block cand with
    | some t => .next t
    | none =>
      let coll := match s.grid b.grid with | none => false | some x => x.flags.getLsbD 3
      if b.evicting || b.saved.isSome || b.live.isEmpty || coll || s.blocks.any (fun p => p.2.core = b.core && p.2.evicting) then .next s
      else .next ((s.haltFor block).rouse b.core 32)

/-! ### Restoration (spec 18, R392; spec 19, R407) -/

/-- Whether a save image can be restored. -/
def State.imageGood (s : State) (m : Mem) (b : Block) (save pages : Nat) : Bool :=
  let rec_ := Mem.bytes m (save + pages * 4096) 256
  field rec_ 9 1 / 4 = 0 && field rec_ 13 3 = 0 && field rec_ 40 216 = 0 &&
    (b.live.filterMap (fun i => s.group i)).all (fun g =>
      let at_ := recordAt save pages g.index
      contextGood (Mem.bytes m at_ 1024) && vectorsGood (Mem.bytes m (at_ + 1024) 256))

/-- The blocks that a core has passed over for 4,096 cycles and that still do not fit, and the one of the highest priority among them (spec 17,
R366). -/
def State.overdue (s : State) (core : Nat) : Option (Nat × Nat × Nat) :=
  let late := (s.node core).skipped.filterMap (fun e => match s.grid e.1 with
    | none => none
    | some x => if e.2.2 + 4096 ≤ s.clock.toNat && x.todo.contains e.2.1 && (s.grantOn core x).isNone then some (e, x.prio) else none)
  (late.find? (fun e => e.2 = (late.map (·.2)).foldl max 0)).map (·.1)

/-- The blocked head of a core, recorded or due to be, while it is not placed (spec 17, R366): its grid, its number, since when. -/
def State.headAt (s : State) (core : Nat) : Option (Nat × Nat × Nat) :=
  let stands (e : Nat × Nat × Nat) : Bool := match s.grid e.1 with | none => false | some x => x.todo.contains e.2.1
  match (s.node core).blocked with
  | some e => if stands e then some e else s.overdue core
  | none => s.overdue core

/-- The blocked head's grid. -/
def State.headOf (s : State) (core : Nat) : Option (Nat × Grid) :=
  match s.headAt core with
  | none => none
  | some (k, _, _) => (s.grid k).map (fun x => (k, x))

/-- Whether the room on a core is kept for a blocked head of a higher priority than a block's (spec 17, R366, R370). -/
def State.keptFrom (s : State) (b : Block) : Bool :=
  match s.headOf b.core, s.grid b.grid with
  | some (_, h), some x => !b.wanted && x.prio < h.prio
  | _, _ => false

/-- Where an evicted block fits again: a starting partition and a page run, with its own accumulator run free of resident blocks and of the
holders of its context (spec 18, R387, R392). -/
def State.restoreAt (s : State) (bid : Nat) (b : Block) : Option (Nat × Nat) :=
  let u := s.coreUse b.core (s.ctxOf b) bid
  let free := u.accs.all (fun r => b.accBase + b.k.accn ≤ r.1 || r.1 + r.2 ≤ b.accBase || b.k.accn = 0 || r.2 = 0)
  match u.start b.k (s.node b.core).rot, firstFree 0 (carveBase (s.node b.core).carve / 4096) (s.pagesOf b) 1 u.pages with
  | some p, some page => if free then some (p, page) else none
  | _, _ => none

/-- RESTORATION: an evicted block that fits on its core is checked, copied back and resumed, or terminated with IMGBAD, or with UNCORR where
its image cannot be read (log entry 116). One that cydb restores and that does not fit yet follows at the first cycle in which it fits
(spec 19, R406). Its groups ready the core (spec 17, R377), with none of the causes of R36. -/
def execRestoration (block : Nat) (s : State) : Res :=
  match s.block block with
  | none => .next s
  | some b =>
    match b.saved, s.restoreAt block b, Sparse.find (s.node b.core).relocs b.reloc with
    | some save, some (p, page), some r =>
      let pages := r.pages.toNat
      if s.keptFrom b then .next s
      else match s.readRun ownIl save (s.imageSize b) with
      | (t, none) => .next (t.terminate block 34)
      | (s, some image) =>
      let m := Mem.wrBytes s.mem save image
      if !s.imageGood m b save pages then .next (s.terminate block 38)
      else
        let G := pages * 4096
        let s := s.answerAll (fun w => save ≤ w.loc && w.loc < save + G)
        let rec_ := Mem.bytes m (save + G) 256
        let thalt := field rec_ 9 1 % 2 = 1
        let dhalt := field rec_ 9 1 / 2 % 2 = 1
        let hgrp := field rec_ 10 1
        let s := s.writeRun ownIl (sliceKey b.core (page * 4096)) (image.take G)
        let saved := field rec_ 32 8
        let filled := (List.range b.k.accn).filter (fun m => saved / 2 ^ m % 2 = 1)
        let accsAt := save + G + 256 + b.k.ngrp * 34816
        let s := filled.foldl (fun s i => s.fillAcc b.core (b.accBase + i) (Mem.bytes m (accsAt + 4096 * i) 4096)) s
        let s := s.setTags b.core (filled.map (· + b.accBase)) (s.ctxOf b)
        let s := s.modNode b.core (fun n => { n with
          relocs := Sparse.put n.relocs b.reloc { r with st := 1, save := 0, basepg := BitVec.ofNat 9 page }
          holders := n.holders.filter (fun h => h.2 ≠ block) })
        let s := s.setBlock block { b with saved := none, noRestore := false, wanted := false, thalt := thalt, dhalt := dhalt, hgrp := hgrp }
        let s := b.live.foldl (fun s i => match s.group i with
          | none => s
          | some g =>
            let part := (p + g.index) % 4
            let g := g.loadRecord s.own.fresh m (recordAt save pages g.index) b.k
            let left : Option Nat := if thalt && g.index ≠ hgrp then some 0 else none
            let g := { g with
              part := part
              sched := { g.sched with
                hold := (match g.sched.hold with | .vreg _ | .sreg _ | .phase _ _ | .batch _ => .none | h => h)
                since := s.clock.toNat
                active := s.activeIn b.core part < 8, order := s.own.seq, skidLeft := left, dhalt := dhalt } }
            (s.setGroup i g).newSeq) s
        .next ((b.live.foldl State.tryRetire s).rouse b.core 0)
    | some _, none, _ => .next (if b.noRestore then s.setBlock block { b with noRestore := false, wanted := true } else s)
    | _, _, _ => .next s

end Sys2Proof.Machine
end

