-- ==== Sys2Proof/Machine/Distributor.lean ====
section
/-! DEFINITION. The distributor (spec 17, R362 to R371, R375; spec 14, R318): kernel descriptions, acceptance of launch records,
placement, blocked heads and partial eviction, the end of grids, and exchanges between the active and pending sets. -/

namespace Sys2Proof.Machine

open Sys2Proof

/-- A group as it starts (spec 01, R19). -/
def Group.start (block index owner part : Nat) (ctx : BitVec 8) (entry args : Dword) (order : Nat) (active : Bool) : Group :=
  { block := block, index := index, owner := owner, part := part, ctx := ctx,
    ctl := { pc := entry, exm := 0xFFFFFFFF, livem := 0xFFFFFFFF, stack := [], guards := 0, supAt := none },
    regs := { v := [], s := Sparse.set 0 (Sparse.set 0 [] 0 (args.truncate 32)) 1 ((args >>> 32).truncate 32),
              vempty := 0, sempty := 0 },
    sys := { cks := 0, batchseq := 0, batchdone := 0, gang := 0, fmtlast := 0, gstat := 0, tcause := 0, tlanes := 0,
             taddr := 0, taux := 0, skid := 0, haltpc := 0 },
    sched := { hold := .none, since := 0, active := active, order := order, skidLeft := none, dhalt := false,
               passBp := false },
    eng := { copyQ := [], matQ := [], openB := [], batches := [], async := [], latch := none, unfenced := 0 },
    out := { imprecise := [], storeFail := [], objFail := [], invs := [], items := [], corFence := 0, tokT := 0,
             tokAddr := [] },
    visitor := none }

/-! ### Kernel descriptions (spec 17, R362, R363) -/

/-- The fields of a kernel description. -/
def readKernel (b : List Byte) : Kernel :=
  { entry := BitVec.ofNat 64 (field b 0 8), handler := BitVec.ofNat 64 (field b 8 8), scr := field b 16 4, ngrp := field b 20 1,
    vregs := field b 21 1, sregs := field b 22 1, accn := field b 23 1, priv := field b 24 4, clsz := field b 28 1,
    commg := field b 29 1, team := field b 30 2 }

/-- Whether every field of a kernel description is in range. -/
def Kernel.inRange (k : Kernel) : Bool :=
  k.entry.toNat % 32 = 0 && k.scr ≤ 1048320 && 1 ≤ k.ngrp && k.ngrp ≤ 32 && 1 ≤ k.vregs && k.vregs ≤ 32 && 1 ≤ k.sregs && k.sregs ≤ 16 &&
    k.accn ≤ 64 && k.priv % 16 = 0 && k.priv ≤ 65536 && 1 ≤ k.clsz && k.clsz ≤ 16 && k.commg < k.ngrp && 1 ≤ k.team

/-- A core that holds nothing. -/
def CoreUse.empty : CoreUse :=
  { slots := [0, 0, 0, 0], regs := [0, 0, 0, 0], pages := [], accs := [], entries := [], areas := [], far := [], pool := [] }

/-- What is in use once a block is placed. -/
def CoreUse.add (u : CoreUse) (k : Kernel) (coll : Bool) (g : Grant) : CoreUse :=
  let counts := ([0, 1, 2, 3] : List Nat).map (fun q =>
    if coll && g.entry = 127 then 0 else ((List.range k.ngrp).filter (fun i => (g.part + i) % 4 = q)).length)
  { slots := ([0, 1, 2, 3] : List Nat).map (fun q => u.slots.getD q 0 + counts.getD q 0)
    regs := ([0, 1, 2, 3] : List Nat).map (fun q => u.regs.getD q 0 + counts.getD q 0 * 8 * k.vregs)
    pages := (g.page, k.pages) :: u.pages
    accs := (g.acc, k.accn) :: u.accs
    entries := g.entry :: u.entries
    areas := g.areas.filterMap (fun a => if 2 ^ 39 ≤ a then some ((a - 2 ^ 39) % 2 ^ 21, k.area) else none) ++ u.areas
    far := g.areas.filterMap (fun a => if a < 2 ^ 39 then some (a, k.area) else none) ++ u.far
    pool := g.pool ++ u.pool }

/-- How many of some blocks of a kernel fit together on a core, and what is then in use. -/
def CoreUse.capacity (core carve : Nat) (k : Kernel) (coll contain rollback : Bool) (region : Nat × Nat) : Nat → Nat → CoreUse → Nat × CoreUse
  | 0, _, u => (0, u)
  | n + 1, rot, u =>
    match u.grant core carve rot k coll contain rollback region with
    | none => (0, u)
    | some g =>
      let r := CoreUse.capacity core carve k coll contain rollback region n ((g.part + 1) % 4) (u.add k coll g)
      (r.1 + 1, r.2)

/-- How many of some blocks fit together on the empty cores of a list, which share the context's private region. -/
def State.emptyCapacity (s : State) (k : Kernel) (coll contain rollback : Bool) (region : Nat × Nat) (cores : List Nat) (n : Nat) : Nat :=
  (cores.foldl (fun (r : Nat × List (Nat × Nat)) c =>
    if n ≤ r.1 then r
    else
      let x := CoreUse.capacity c (s.node c).carve k coll contain rollback region (n - r.1) 0 { CoreUse.empty with far := r.2 }
      (r.1 + x.1, x.2.far)) (0, [])).1

/-- Whether the distributor refuses a launch of `count` blocks of a description (spec 17, R363). -/
def State.launchRefused (s : State) (c : BitVec 8) (b : List Byte) (flags count : Nat) : Bool :=
  let k := readKernel b
  let coll := flags / 8 % 2 = 1
  let contain := flags / 4 % 2 = 1
  let rollback := s.rollbackOn c
  let region := s.privRegion c
  let fitting (core n : Nat) : Nat := s.emptyCapacity k coll contain rollback region [core] n
  !k.inRange || field b 32 32 ≠ 0 || count % k.clsz ≠ 0 ||
  (List.range 192).all (fun n => fitting n 1 = 0) ||
  ([0, 1, 2, 3] : List Nat).all (fun d => s.emptyCapacity k coll contain rollback region (coresOf d) k.clsz < k.clsz) ||
  (flags / 2 % 2 = 1 && 192 * (((List.range 192).map (fun n => fitting n 120)).foldl max 0) < count) ||
  (coll && (1 < k.ngrp || 6 < k.vregs || 0 < k.accn || 65536 < k.pages * 4096)) ||
  (262144 < k.area && (region.1 = 0 || region.2 < k.area))

/-! ### Acceptance (spec 17, R363) -/

/-- What the end of a launch record does beside its completion record: DCTR (spec 17, R371). -/
def State.countEnd (s : State) (dfl : Bool) (dctr : Nat) : State :=
  if dfl then s.setCounter dctr (Sparse.get 0 s.dist.counters dctr + 1) else s

/-- The grid of a launch record, from its bytes. -/
def gridOfRec (r : Rec) (b : List Byte) (ctx : BitVec 8) (queue home seq : Nat) (k : Kernel) : Grid :=
  let block := field b 0 1 = 2
  let at_ := if block then 48 else 4
  let gx := field b at_ 4 + 1
  let gy := field b (at_ + 4) 2 + 1
  let gz := field b (at_ + 6) 2 + 1
  let lin := field b 4 4 + gx * (field b 8 2 + gy * field b 10 2)
  { gridid := r.gridid, ctx := ctx, queue := queue, home := home, prio := r.prio, flags := BitVec.ofNat 16 (field b 2 2), gx := gx, gy := gy,
    gz := gz, kdesc := BitVec.ofNat 64 (field b 12 8), args := BitVec.ofNat 64 (field b 20 8), k := k, dctr := field b 28 2,
    dfl := field b 30 2 / 2 ^ 15 = 1, cq := BitVec.ofNat 64 (field b 32 8), tag := BitVec.ofNat 32 (field b 40 4),
    todo := if block then [lin] else List.range (launchBlocks b), ended := 0, total := launchBlocks b, cause := none, deferred := false,
    startSeq := seq, gone := [] }

/-- LAUNCH_ACCEPTANCE: the record at the head of its priority in a shard of a launch queue becomes a grid, or is refused and ends with
status 4. A description that the owner's context cannot read is refused. -/
def execLaunchAcceptance (queue core prio : Nat) (s : State) : Res :=
  match (s.shard queue core).find? (fun r => r.prio = prio) with
  | none => .next s
  | some r =>
    if r.grid.isSome || qKind (s.qcfg queue) ≠ 1 then .next s
    else
      let c := qOwner (s.qcfg queue)
      let b := s.recBytes queue core r
      let kd := BitVec.ofNat 64 (field b 12 8)
      let (s, x) := if kd.toNat % 64 = 0 then s.readThrough c kd 64 else (s, none)
      let refused := match x with
        | none => true
        | some d => s.launchRefused c d (field b 2 2) (launchBlocks b)
      if refused then
        let s := s.takeRec queue core r
        let r := if field b 32 8 = 0 then (s, none)
          else s.record c (BitVec.ofNat 64 (field b 32 8)) 4 1 (field b 2 2 / 16 % 2 = 1) false (field b 40 4) 0 0
        .next (State.raiseMsix (r.1.countEnd (field b 30 2 / 2 ^ 15 = 1) (field b 28 2), r.2))
      else
        let key := s.own.ids
        let g := gridOfRec r b c queue core s.own.seq (readKernel (x.getD []))
        let s := s.setShard queue core (updWhere (s.shard queue core) (fun y => y = r) (fun y => { y with grid := some key }))
        .next ((s.setGrid key g).newId)

/-! ### Candidates (spec 17, R364, R366 to R368) -/

def Grid.ordered (x : Grid) : Bool := x.flags.getLsbD 0
def Grid.coresident (x : Grid) : Bool := x.flags.getLsbD 1
def Grid.contain (x : Grid) : Bool := x.flags.getLsbD 2
def Grid.coll (x : Grid) : Bool := x.flags.getLsbD 3

/-- The die that holds the started cluster of a block not yet placed. -/
def State.clusterDie (s : State) (k clsz lin : Nat) : Option Nat :=
  (s.blocks.find? (fun p => p.2.grid = k && p.2.lin / clsz = lin / clsz)).map (fun p => p.2.core / 48)

/-- The lowest remaining member of the cluster partly started on a die: its grid and linear number. -/
def State.partly (s : State) (die : Nat) : Option (Nat × Nat) :=
  s.grids.findSome? (fun (p : Nat × Grid) =>
    (p.2.todo.find? (fun l => s.clusterDie p.1 p.2.k.clsz l = some die)).map (fun l => (p.1, l)))

/-- The block of a grid that comes next on a die: a first member of a cluster only while no cluster is partly started there; in an
ordered grid none but the lowest. -/
def State.nextOf (s : State) (die k : Nat) (x : Grid) : Option Nat :=
  match x.todo.find? (fun l => match s.clusterDie k x.k.clsz l with | none => true | some d => d = die) with
  | none => none
  | some l =>
    if (x.ordered && x.todo.head? ≠ some l) ||
        (1 < x.k.clsz && s.clusterDie k x.k.clsz l = none && (s.partly die).isSome) then none
    else some l

/-- A block that might be placed: its grid, its number, the queue that it counts for. -/
structure Cand where
  grid : Nat
  lin : Nat
  step : Nat
  deriving DecidableEq, Repr

/-- The grids, by key, that a condition selects, highest priority first. -/
def State.gridsBy (s : State) (p : Grid → Bool) : List (Nat × Grid) :=
  ([3, 2, 1, 0] : List Nat).flatMap (fun q => s.grids.filter (fun (g : Nat × Grid) => g.2.prio = q && p g.2))

/-- The accepted records of a launch queue that a core looks at, at one priority (spec 17, R360). -/
def State.lookAt (s : State) (q core prio : Nat) : List Nat :=
  match s.takeFrom q core with
  | none => []
  | some c => (s.shard q c).filterMap (fun r => if r.prio = prio then r.grid else none)

/-- The candidates of a core for step 4, in order. -/
def State.queueCands (s : State) (core : Nat) : List Nat :=
  let last := (s.node core).lastQueue
  let qs := ((List.range 256).map (fun i => (last + 1 + i) % 256)).filter (fun q => qKind (s.qcfg q) = 1)
  ([3, 2, 1, 0] : List Nat).flatMap (fun p => qs.flatMap (fun q => s.lookAt q core p))

/-- The candidates of a core: that of step 1, of 2 or of 3 alone where there is one, else those of step 4 in order. A remaining member of
a cluster is a candidate where it fits. -/
def State.candidates (s : State) (core : Nat) : List Cand :=
  let die := core / 48
  let cand (step : Nat) (g : Nat × Grid) : Option Cand := (s.nextOf die g.1 g.2).map (fun l => { grid := g.1, lin := l, step := step })
  let member : Option Cand := match s.partly die with
    | none => none
    | some (k, l) => match s.grid k with
      | none => none
      | some x => if (s.grantOn core x).isSome then some { grid := k, lin := l, step := 2 } else none
  match (s.gridsBy (fun g => g.coll && !g.todo.isEmpty)).findSome? (cand 1), member,
      (s.gridsBy (fun g => g.coresident && !g.todo.isEmpty && g.todo.length < g.total)).findSome? (cand 3) with
  | some c, _, _ => [c]
  | none, some c, _ => [c]
  | none, none, some c => [c]
  | none, none, none => (s.queueCands core).filterMap (fun k => match s.grid k with | none => none | some x => cand 4 (k, x))

/-- Whether a core may take a new block of a candidate: no CARVE waits to take effect (spec 14, R318), no evicted block of its priority or
a higher one fits, nor one that cydb restores (spec 17, R370; spec 19, R406), and no blocked head bars it (R366); a COLL block and a member of
a started cluster are barred by no blocked head (R367, R369). -/
def State.mayPlace (s : State) (core : Nat) (c : Cand) (x : Grid) : Bool :=
  let before (b : Block) : Bool := b.wanted || (!b.noRestore && (match s.grid b.grid with | none => false | some y => x.prio ≤ y.prio))
  (s.node core).carve = (s.node core).carveNew &&
  !s.blocks.any (fun p => p.2.core = core && p.2.saved.isSome && !p.2.live.isEmpty && before p.2 && (s.restoreAt p.1 p.2).isSome) &&
  (c.step ≤ 2 || (match s.headAt core with
    | none => true
    | some (k, l, _) => (k = c.grid && l = c.lin) || (match s.grid k with | none => true | some h => h.prio < x.prio)))

/-! ### Placement (spec 17, R364, R365) -/

/-- Memory with a run of bytes cleared. -/
def clearMem (m : Mem) (k n : Nat) : Mem := m.filter (fun c => c.1 < k || k + n ≤ c.1)

/-- A block placed on a core: its allocation reads zero, its groups start (spec 01, R19, R29; spec 18, R395, R396). With the first block
the core's instruction cache is invalidated for the grid (spec 02, R45). -/
def State.placeBlock (s : State) (core : Nat) (c : Cand) (x : Grid) (g : Grant) : State :=
  let bid := s.own.ids
  let gids := (List.range x.k.ngrp).map (fun i => bid + 1 + i)
  let shadow : Option Shadow := if g.shadow then some { since := 0, groups := [], log := [], clean := true, rolled := false } else none
  let b : Block :=
    { grid := c.grid, lin := c.lin, core := core, k := x.k, part := g.part, gids := gids, live := gids, reloc := g.entry, accBase := g.acc,
      areas := g.areas, placed := s.clock.toNat, thalt := false, hgrp := 0, haltDepth := 0, dhalt := false, uncorr := false,
      shadow := shadow, contain := x.contain, colls := [], noRestore := false, term := none, saved := none, evicting := false,
      badObj := 0, objFail := [], pool := g.pool }
  let reloc : Reloc := { save := 0, st := 1, pages := BitVec.ofNat 9 x.k.pages, basepg := BitVec.ofNat 9 g.page, block := bid }
  let s := { s with
    mem := clearMem s.mem (sliceKey core (g.page * 4096)) (x.k.pages * 4096)
    own := { s.own with ids := bid + 1 + x.k.ngrp }
    blocks := Sparse.put s.blocks bid b
    grids := Sparse.put s.grids c.grid { x with todo := x.todo.erase c.lin, startSeq := if x.todo.length = x.total then s.own.seq else x.startSeq } }
  let s := s.modNode core (fun n => { n with
    relocs := Sparse.put n.relocs g.entry reloc
    rot := (g.part + 1) % 4
    lastQueue := if c.step = 4 then x.queue else n.lastQueue })
  let unblock (n : Node) : Node := { n with
    skipped := n.skipped.filter (fun e => !(e.1 = c.grid && e.2.1 = c.lin))
    blocked := match n.blocked with | none => none | some e => if e.1 = c.grid && e.2.1 = c.lin then none else some e }
  let s := s.mapNodes unblock
  let s := (List.range x.k.ngrp).foldl (fun s i =>
    let part := (g.part + i) % 4
    let fresh := Group.start bid i core part x.ctx x.k.entry x.args s.own.seq (s.activeIn core part < 8)
    (s.setGroup (bid + 1 + i) { fresh with sched := { fresh.sched with since := s.clock.toNat } }).newSeq) s
  let s := if g.shadow then s.checkpoint bid else s
  let s := if x.todo.length ≤ 1 then
      s.setShard x.queue x.home ((s.shard x.queue x.home).filter (fun r => r.grid ≠ some c.grid))
    else s
  s.rouse core 8

/-- The first of a core's candidates that may be placed and fits, and the candidates of step 4 passed over because they do not fit. -/
def State.choose (s : State) (core : Nat) : List Cand → List Cand → Option (Cand × Grid × Grant) × List Cand
  | [], passed => (none, passed)
  | c :: cs, passed =>
    match s.grid c.grid with
    | none => s.choose core cs passed
    | some x =>
      match s.mayPlace core c x, s.grantOn core x with
      | true, some g => (some (c, x, g), passed)
      | true, none => s.choose core cs (if c.step = 4 then c :: passed else passed)
      | false, _ => s.choose core cs passed

/-- Records since when a core has passed over some candidates (spec 17, R366). -/
def State.passOver (s : State) (core : Nat) (l : List Cand) : State :=
  l.foldl (fun s c =>
    if (s.node core).skipped.any (fun e => e.1 = c.grid && e.2.1 = c.lin) then s
    else s.modNode core (fun n => { n with skipped := n.skipped ++ [(c.grid, c.lin, s.clock.toNat)] })) s

/-- The cores of a die in round-robin order (spec 17, R364). -/
def State.visits (s : State) (die : Nat) : List Nat :=
  let start := Sparse.get 0 s.dist.rr die
  (List.range 48).map (fun i => 48 * die + (start + i) % 48)

/-- Visits cores until one takes a block. -/
def State.visit (s : State) (die : Nat) : List Nat → State
  | [] => s
  | n :: ns =>
    match s.choose n (s.candidates n) [] with
    | (none, passed) => State.visit (s.passOver n passed) die ns
    | (some (c, x, g), passed) =>
      let s := (s.passOver n passed).placeBlock n c x g
      { s with dist := { s.dist with rr := Sparse.set 0 s.dist.rr die ((n % 48 + 1) % 48) } }

/-- BLOCK_PLACEMENT: one placement of a die's distributor, or the notice that candidates do not fit. -/
def execBlockPlacement (die : Nat) (s : State) : Res :=
  if 4 ≤ die then .next s else .next (s.reap.visit die (s.reap.visits die))

/-! ### Blocked heads and partial eviction (spec 17, R366, R370) -/

/-- BLOCKED_HEAD: a candidate that a core has passed over for 4,096 cycles and that still does not fit is recorded as its blocked head, which
it has been since then. -/
def execBlockedHead (core : Nat) (s : State) : Res :=
  if (s.node core).blocked.isSome && s.headAt core = (s.node core).blocked then .next s
  else match s.overdue core with
    | some (k, l, since) => .next (s.modNode core (fun n => { n with blocked := some (k, l, since + 4096) }))
    | none => .next s

/-- PARTIAL_EVICTION: the head blocked for 2,048 cycles has the next victim halted for eviction, when evictions would make it fit. -/
def execPartialEviction (core : Nat) (s : State) : Res :=
  match s.headOf core, (s.node core).blocked with
  | some (_, x), some (_, _, since) =>
    if s.clock.toNat < since + 2048 || (s.grantOn core x).isSome || s.blocks.any (fun p => p.2.core = core && p.2.evicting) ||
        (s.wouldFit core x 128 s).isNone then .next s
    else match s.nextVictim (s.blocks.filter (fun p => s.victim core x.prio p.2)) with
      | none => .next s
      | some (bid, _) => .next ((s.haltFor bid).rouse core 32)
  | _, _ => .next s

/-! ### The end of a grid (spec 17, R371) -/

/-- Whether something that some groups issued is not yet performed at .sys. -/
def State.owing (s : State) (gids : List Nat) : Bool :=
  s.accs.any (fun a => gids.contains a.gid) || s.fld.xfers.any (fun x => gids.contains x.gid) ||
    s.cmds.any (fun c => gids.contains c.gid) || s.mops.any (fun o => o.members.any gids.contains) ||
    gids.any (fun i => s.peersOwing i s.own.ids none)

/-- GRID_END. -/
def execGridEnd (grid : Nat) (s : State) : Res :=
  let t := s
  let s := s.reap
  match s.grid grid with
  | none => .next t
  | some x =>
    if x.ended < x.total || !x.todo.isEmpty || s.blocks.any (fun p => p.2.grid = grid) || s.owing x.gone then .next t
    else
      let s := { s with grids := Sparse.del s.grids grid }
      let tag := match x.cause with | none => x.tag.toNat | some c => x.tag.toNat / 256 * 256 + c % 256
      let r := if x.cq = 0 then (s, none)
        else s.record x.ctx x.cq (if x.cause.isSome then 5 else 0) 1 (x.flags.getLsbD 4) x.deferred tag 0 0
      .next (State.raiseMsix (r.1.countEnd x.dfl x.dctr, r.2))

/-! ### CARVE (spec 14, R318) -/

/-- Whether a core holds a resident block or a retained allocation. -/
def State.occupied (s : State) (core : Nat) : Bool :=
  s.blocks.any (fun p => p.2.core = core && !p.2.live.isEmpty && p.2.saved.isNone) ||
    (s.node core).relocs.any (fun r => r.2.st = 1 || r.2.st = 3)

/-- CARVE_EFFECT. -/
def execCarveEffect (core : Nat) (s : State) : Res :=
  let n := s.reap.node core
  if n.carve = n.carveNew || s.reap.occupied core then .next s
  else .next (s.reap.modNode core (fun n => { n with carve := n.carveNew }))

/-! ### The active and pending sets (spec 17, R374 to R376) -/

/-- Whether a group is stalled long: halted, or not ready in one of the waits of R374. -/
def Group.isLong (g : Group) : Bool :=
  g.sched.skidLeft = some 0 || g.sched.dhalt ||
    (!g.sched.ready && (match g.sched.hold with
      | .vreg _ | .mjoin _ | .sreg _ | .sleep _ | .phase _ _ | .batch _ | .barOrder | .bar | .barc | .barh _ | .mopf | .mwait _ | .copyFull
      | .latch _ true => true
      | _ => false))

/-- Of some groups the one that has been as it is the longest, the first to enter among equals (spec 17, R372). -/
def longest (l : List (Nat × Group)) : Option (Nat × Group) :=
  l.foldl (fun best p => match best with
    | none => some p
    | some q => if p.2.sched.since < q.2.sched.since || (p.2.sched.since = q.2.sched.since && p.2.sched.order < q.2.sched.order)
        then some p else best) none

/-- PENDING_MOVE: the pending group ready the longest enters the active set, in the place of the group stalled long the longest when the
set is full; a move takes 4 cycles, after which the group issues. A stack core is one partition (spec 17, R376). -/
def execPendingMove (core part : Nat) (s : State) : Res :=
  let mine := s.groups.filter (fun p => p.2.owner = core && p.2.part = part &&
    (match s.blockOf p.2 with | none => false | some b => p.2.visitor.isSome || b.saved.isNone))
  let free := match (s.node core).moves.find? (fun e => e.1 = part) with | none => true | some e => e.2.1 + 4 ≤ s.clock.toNat
  let active := mine.filter (fun p => p.2.sched.active)
  let set (s : State) (i : Nat) (a : Bool) : State := s.modGroup i (fun g => { g with sched := { g.sched with active := a } })
  match longest (mine.filter (fun p => !p.2.sched.active && p.2.sched.ready)), longest (active.filter (fun p => p.2.isLong)) with
  | some (i, p), out =>
    let room := active.length < 8
    if !free || (!room && out.isNone) then .next s
    else
      let s := if room then s else match out with
        | some (o, _) => set s o false
        | none => s
      .next ((set s i true).modNode core (fun n => { n with moves := Sparse.put n.moves part (s.clock.toNat, p.sched.order) }))
  | none, _ => .next s

end Sys2Proof.Machine
end

