-- ==== Sys2Proof/Machine/Rollback.lean ====
section
/-! DEFINITION. The rollback of a block after it has consumed an uncorrectable word (spec 18, R399). -/

namespace Sys2Proof.Machine

open Sys2Proof

/-- The commands of a block that its engines still hold for certain: running ones, released matrix operations, and commands issued before
the checkpoint that no unresolved guard holds. -/
def State.rollbackWaits (s : State) (bid since : Nat) : Bool :=
  s.cmds.any (fun c => c.block = bid && (c.run || c.id < since)) || s.mops.any (fun o => o.block = bid) ||
    s.groups.any (fun p => p.2.block = bid && (p.2.eng.copyQ.any (fun c => c.id < since && s.guardOf c = 1) ||
      p.2.eng.matQ.any (fun e => e.id < since && (e.kind = .msta || e.kind = .mzero || e.kind = .mlda))))

/-- A group as the checkpoint has it: context and registers, every register full, the engines' queues without what was issued since. The scalar
registers and the vector registers of `images` are written, and their words are good again. -/
def Group.rolledBack (saved : Group) (now : Option Group) (since : Nat) (images : List Nat) : Group :=
  let g := now.getD saved
  { g with
    ctl := saved.ctl
    regs := { saved.regs with vempty := 0, sempty := 0, vbad := g.regs.vbad.filter (fun k => !images.contains (k / 32)), sbad := [] }
    sys := saved.sys
    sched := { g.sched with hold := .none, skidLeft := none, dhalt := false, passBp := false }
    eng := { saved.eng with
      copyQ := g.eng.copyQ.filter (fun c => c.id < since)
      matQ := g.eng.matQ.filter (fun e => e.id < since)
      latch := none } }

/-- A block rolls back to its checkpoint: what its groups issued since is discarded, line images go back newest first, then the contexts. -/
def State.rollBack (s : State) (bid : Nat) (b : Block) (sh : Shadow) : State :=
  let mine (i : Nat) : Bool := b.gids.contains i
  let s := { s with
    accs := s.accs.filter (fun a => !(mine a.gid && sh.since ≤ a.id))
    -- no register was empty at the checkpoint, so every result on its way is one of an instruction issued since
    lands := s.lands.filter (fun l => !mine l.gid)
    cmds := s.cmds.filter (fun c => c.block ≠ bid || c.run || c.id < sh.since)
    dist := { s.dist with requests := s.dist.requests.filter (fun r => !(mine r.gid && sh.since ≤ r.id)) } }
  let s := s.mapNodes (fun n => { n with waits := n.waits.filter (fun w => !(mine w.gid && sh.since ≤ w.acc)) })
  -- the images of vector registers are in the checkpointed groups
  let s := sh.log.foldl (fun s e => match e.2.1 with
    | .vreg _ _ => s
    | .line key => s.writeRun ownIl key (e.2.2.flatMap (fun w => leBytes w.toNat 4))) s
  let images (gid : Nat) : List Nat := sh.log.filterMap (fun e => match e.2.1 with | .vreg i r => if i = gid then some r else none | .line _ => none)
  let s := sh.groups.foldl (fun (s : State) p => s.setGroup p.1 (p.2.rolledBack (s.group p.1) sh.since (images p.1))) s
  let s := sh.groups.foldl (fun (s : State) p => s.spill 0 p.2) s
  (s.setBlock bid { b with
    live := sh.groups.map (·.1), thalt := false, uncorr := false, dhalt := false
    shadow := some { sh with log := [], rolled := true } }).count hcRollback

/-- ROLLBACK: a block that has consumed an uncorrectable word goes back to its checkpoint once its engine commands are done, or is
terminated with UNCORR: without a shadow, in an unclean interval, at its second consumption since the checkpoint, or where a word of the shadow
is uncorrectable too (log entry 97). -/
def execRollback (block : Nat) (s : State) : Res :=
  match s.block block with
  | none => .next s
  | some b =>
    if !b.uncorr || b.live.isEmpty then .next s
    else match b.shadow with
      | none => .next (s.terminate block 34)
      | some sh =>
        if !sh.clean || sh.rolled || sh.bad then .next (s.terminate block 34)
        else if s.rollbackWaits block sh.since then .next s
        else .next (s.rollBack block b sh)

end Sys2Proof.Machine
end

