-- ==== Sys2Proof/Machine/Fabric.lean ====
section
/-! DEFINITION. Packets of the fabric (spec 21, R422 to R436; spec 23, R441, R442): what a receiver performs and answers, what an answer
means for the sender, resending, giving up and closing, messages and multicast lines. -/

namespace Sys2Proof.Machine

open Sys2Proof

def State.modPort (s : State) (p : Nat) (f : Port → Port) : State := s.setPort p (f (s.port p))

/-! ### What a receiver performs (spec 21, R425, R426) -/

/-- The pieces of a peer's request through the translation of the local context: key, length, scheme; else the status of R425. The
packet carries no mode, and the access counts as one of user mode. -/
def State.peerPieces (s : State) (c : BitVec 8) (write : Bool) (a n : Nat) : Except Nat (List (Nat × Nat × Nat)) :=
  (unitPieces 32 a n).foldl (fun r p => match r with
    | .error e => .error e
    | .ok l => match s.translate noNode c false write false (BitVec.ofNat 64 (a + p.1)) with
      | .error _ => .error 1
      | .ok t => if ptePeer t.pte then .error 1 else if write && pteField t.pte then .error 3
          else .ok (l ++ [(t.key, p.2, pteIl t.pte)])) (.ok [])

/-- The runs of consecutive bytes in one sector of a masked payload. -/
def runsOf (l : List (Nat × Byte)) : List (Nat × List Byte) :=
  l.foldl (fun acc p => match acc.getLast? with
    | none => [(p.1, [p.2])]
    | some (a, bs) => if a + bs.length = p.1 && p.1 % 32 ≠ 0 then acc.dropLast ++ [(a, bs ++ [p.2])] else acc ++ [(p.1, [p.2])]) []

/-- The context in which a peer's request is checked; status 2 when there is none (spec 21, R418, R425). -/
def State.peerContext (s : State) (p : Packet) : Except Nat (BitVec 8) :=
  if !s.fab.members.getLsbD p.src then .error 2
  else match s.contextOf p.dctx with | none => .error 2 | some c => .ok c

/-- Writes the bytes of a request, and its status. Bytes are checked before any is written. -/
def State.peerWrite (s : State) (p : Packet) (addr : Nat) (bytes : List (Nat × Byte)) : State × Nat :=
  match s.peerContext p with
  | .error e => (s, e)
  | .ok c =>
    let runs := runsOf (bytes.map (fun b => (addr + p.offset + b.1, b.2)))
    let checked := runs.map (fun r => (s.peerPieces c true r.1 r.2.length, r.2))
    let bad := checked.filterMap (fun x => match x.1 with | .error e => some e | .ok _ => none)
    match bad with
    | e :: es => (s, least e es)
    | [] =>
      let go := checked.flatMap (fun x => match x.1 with | .error _ => [] | .ok l => l.map (fun q => (q, x.2)))
      (go.foldl (fun s x => (s.writeAt x.1.2.2 x.1.1 x.2 none).1) s, 0)

/-- A packet of the device's class 1 context to the sender of a request (spec 21, R426, R431). -/
def State.respond (s : State) (p : Packet) (typ : Nat) (len : Nat) (b : PBody) : State :=
  (s.enqueue p.src 1 (s.packet typ 1 p.src false p.dctx p.msg 0 len b) .resp).flush

/-- The key of an arriving message. -/
def msgKey (p : Packet) : Nat := (p.msg * 2 ^ 31 + p.ctxno) * 512 + p.src

/-- The bytes of a performed piece count towards its message; the last sends COMPLETE (spec 21, R431). -/
def State.countMessage (s : State) (p : Packet) (n : Nat) : State :=
  if !p.asks then s
  else
    let now := Sparse.get 0 s.fab.inmsgs (msgKey p) + n
    if p.msgLen ≤ now then { s with fab := { s.fab with inmsgs := Sparse.del s.fab.inmsgs (msgKey p) } }.respond p 7 0 .complete
    else { s with fab := { s.fab with inmsgs := Sparse.put s.fab.inmsgs (msgKey p) now } }

/-- A status other than 0 where the spec names none (log entry 29). -/
def State.refusalStatus (s : State) (k : Nat) : Nat := (Config.freeWord s.own.fresh (0x8000000 + k)).toNat % 3 + 1

/-! ### Results that reach this device (spec 21, R426, R428, R431) -/

def State.dropMsg (s : State) (peer id : Nat) : State :=
  { s with fab := { s.fab with outmsgs := s.fab.outmsgs.filter (fun m => !(m.peer = peer && m.id = id)) } }

def State.findMsg (s : State) (peer id : Nat) : Option OutMsg := s.fab.outmsgs.find? (fun m => m.peer = peer && m.id = id)

/-- The access and part that a message of an access carries (`acc` is the access's identity). -/
def State.partIn (s : State) (acc msg : Nat) : Option (Access × Part) :=
  match s.accs.find? (fun a => a.id = acc) with
  | none => none
  | some a => (a.parts.find? (fun p => p.msg = some msg)).map (fun p => (a, p))

/-- The access and part that a message carries. -/
def State.partOfMsg (s : State) (peer msg : Nat) : Option (Access × Part) :=
  s.accs.findSome? (fun a => (a.parts.find? (fun p => p.peer = some peer && p.msg = some msg)).map (fun p => (a, p)))

/-- A fired operation's outcome: its record, once (spec 21, R436). -/
def State.msgDone (s : State) (m : OutMsg) (status count : Nat) : State :=
  match m.att with
  | none => s.dropMsg m.peer m.id
  | some a =>
    if m.done then s
    else
      let s := match m.cmd with
        | some (c, _) => if s.cmds.any (fun d => d.id = c) then
            let l := updWhere s.fab.outmsgs (fun (x : OutMsg) => x.peer = m.peer && x.id = m.id) (fun (x : OutMsg) => { x with done := true, status := status })
            { s with fab := { s.fab with outmsgs := l } }
          else s.dropMsg m.peer m.id
        | none => s.dropMsg m.peer m.id
      s.opDone a status count

/-- The bytes of a GET's piece enter the scratchpad. -/
def State.getLands (s : State) (m : OutMsg) (data : Option (List Byte)) : State :=
  match m.cmd with
  | none => s.dropMsg m.peer m.id
  | some (cid, i) =>
    let s := s.dropMsg m.peer m.id
    match s.cmds.find? (fun c => c.id = cid) with
    | none => s
    | some c => match c.kind with
      | .get remote len =>
        let at_ := (remotePieces remote len).getD i (0, 0)
        let bs := match data with | some d => d.take at_.2 | none => s.freeBytes (0x9000000 + at_.1) at_.2
        (s.scrWrite c (c.e + at_.1) bs).ackPieces cid [i]
      | _ => s

/-- A RESP reaches its request: the part of an access, or a piece of a GET; one that comes too late is discarded. -/
def State.respArrives (s : State) (peer msg : Nat) (data : List Byte) : State :=
  match s.partOfMsg peer msg with
  | some (a, p) => (((s.dropMsg peer msg).acquiredBy a).partDone a p (if a.regs = 0 then [] else data)).pump
  | none => match s.findMsg peer msg with
    | some m => if m.kind = 2 then s.getLands m (some data) else s
    | none => s

/-- A COMPLETE reaches its message. -/
def State.completeArrives (s : State) (peer msg : Nat) : State :=
  match s.findMsg peer msg with
  | none => s
  | some m => if m.kind = 0x10 then s.msgDone m 0 m.total else s

/-- A request of an access fails with a reason of R242. -/
def State.requestFails (s : State) (peer msg reason : Nat) : State :=
  match s.partOfMsg peer msg with
  | none => s.dropMsg peer msg
  | some (a, p) => ((s.dropMsg peer msg).failPart a p reason).pump

/-- The packets for a purpose that are not yet acknowledged. -/
def State.sending (s : State) (why : Purpose) : List Packet :=
  s.fab.sctx.flatMap (fun c => (c.pkts.filter (fun x => x.purpose = why)).map (·.p)) ++
    (s.fab.held.filter (fun h => h.2.2.2 = why)).map (·.2.2.1)

/-- The pieces of a PUT's run, whose first is `i`, of which no packet is on its way any more. -/
def State.piecesOver (s : State) (m : OutMsg) (i : Nat) (c : Cmd) : List Nat :=
  match c.kind with
  | .put remote len =>
    let at_ (j : Nat) : Nat × Nat := (remotePieces remote len).getD j (0, 0)
    let off := (at_ i).1
    let left := s.sending (.piece m.id)
    (piecesIn remote len off m.total).filter (fun j => !c.acked.contains j &&
      !left.any (fun p => off + p.offset < (at_ j).1 + (at_ j).2 && (at_ j).1 < off + p.offset + bodySize p.body))
  | _ => []

/-- The outcome of a packet of a message: `reason` is 0 for a performed packet, else that of R242. -/
def State.pieceOutcome (s : State) (m : OutMsg) (reason : Nat) : State :=
  let fail (s : State) (c : Nat) : State := if reason = 0 then s else s.modCmd c (fun c => c.lose m.peer reason)
  match m.kind, m.cmd with
  | 1, some (c, i) =>
    let s := match s.cmds.find? (fun d => d.id = c) with
      | none => s
      | some d => (fail s c).ackPieces c (s.piecesOver m i d)
    if (s.sending (.piece m.id)).isEmpty then s.dropMsg m.peer m.id else s
  | 2, some (c, _) => if reason = 0 then s else (fail s c).getLands m none
  | 0x10, _ => if reason = 0 then s else s.msgDone m (if reason = 1 then 2 else 3) 0
  | _, _ => s

/-- What the end of a packet means for what it was sent for: `reason` 0 when the peer has performed it, 1 when it is given up, 2 to 4 for
the statuses of an ACK (spec 21, R425, R428; spec 07, R154; spec 11, R242, R246, R254). -/
def State.outcome (s : State) (peer : Nat) (x : Sent) (reason : Nat) : State :=
  match x.purpose with
  | .line node line => s.lineAcked node line reason
  | .store acc | .mcast acc => match s.partIn acc x.p.msg with
    | none => s
    | some (a, p) => (if reason = 0 then s.partDone a p [] else s.failPart a p reason).pump
  | .read _ | .atomic _ =>
    if reason ≠ 0 then s.requestFails peer x.p.msg reason
    else if (s.partOfMsg peer x.p.msg).isSome then
      s.addMsg { id := x.p.msg, peer := peer, total := 0, first := some x.first, kind := 3, att := none, cmd := none, done := false, status := 0 }
    else s
  | .field =>
    if reason = 1 then (s.enqueue peer 2 x.p .field).flush
    else match x.p.body with
      | .field m => if m.kind = .cancel then s.freeMortar m.mseq else s
      | _ => s
  | .ecinc a => match s.fab.outmsgs.find? (fun m => m.kind = 0x11 && (m.att.map (·.id)) = some a) with
    | none => s
    | some m => s.msgDone m (if reason = 0 then 0 else if reason = 1 then 2 else 3) 0
  | .piece m => match s.findMsg peer m with
    | none => s
    | some m => s.pieceOutcome m reason
  | .resp => s

/-! ### Answers that reach this device (spec 21, R425, R427, R429) -/

def State.modSctx (s : State) (peer cls : Nat) (f : SendCtx → SendCtx) : State :=
  { s with fab := { s.fab with sctx := updWhere s.fab.sctx (fun c => c.peer = peer && c.cls = cls) f } }

def State.sctxOf (s : State) (peer cls : Nat) : Option SendCtx := s.fab.sctx.find? (fun c => c.peer = peer && c.cls = cls)

/-- An ACK: the packet is done, with its status. An ACK of a packet that is not outstanding changes nothing. -/
def State.ackIn (s : State) (peer cls ctxno pseq status : Nat) : State :=
  match s.sctxOf peer cls with
  | none => s
  | some c =>
    match (if c.ctxno = ctxno then c.pkts.find? (fun x => x.sent && x.p.pseq = pseq) else none) with
    | none => s
    | some x =>
      let s := s.modSctx peer cls (fun c => { c with last := s.clock.toNat, pkts := c.pkts.filter (fun y => y.p.pseq ≠ pseq) })
      (s.outcome peer x (if status = 0 then 0 else status + 1)).flush

/-- A context gives up every packet still unacknowledged and closes; packets not yet sent go to the next context (spec 21, R428). -/
def State.giveUpCtx (s : State) (peer cls : Nat) : State :=
  match s.sctxOf peer cls with
  | none => s
  | some c =>
    (c.pkts.foldl (fun s x => if x.sent then s.outcome peer x 1 else s) (s.closeCtx c)).flush

/-- A STALE: its context gives up. -/
def State.staleIn (s : State) (peer cls ctxno : Nat) : State :=
  match s.sctxOf peer cls with
  | none => s
  | some c => if c.ctxno = ctxno then s.giveUpCtx peer cls else s

/-- A RETRY: the packet goes again 4 µs later. -/
def State.retryIn (s : State) (peer cls ctxno pseq : Nat) : State :=
  s.modSctx peer cls (fun c => if c.ctxno = ctxno then
    { c with pkts := updWhere c.pkts (fun x => x.sent && x.p.pseq = pseq) (fun x => { x with last := s.clock.toNat }) } else c)

/-- Whether an answer to a sending context is taken: it comes over a RUNNING port, and the context is cached; one that is not is fetched first
(spec 21, R414, R429). -/
def State.hearsFor (s : State) (peer cls : Nat) : Bool := s.receives && s.fab.sctx.any (fun c => c.peer = peer && c.cls = cls && c.cached)

/-- DELIVERY_ACK. -/
def execDeliveryAck (peer cls ctxno pseq status : Nat) (s : State) : Res :=
  if 3 < status || !s.hearsFor peer cls then .next s else .next (s.ackIn peer cls ctxno pseq status)

/-- STALE. -/
def execStale (peer cls ctxno pseq : Nat) (s : State) : Res :=
  match s.sctxOf peer cls with
  | none => .next s
  | some c =>
    if !s.hearsFor peer cls || (c.ctxno = ctxno && !c.pkts.any (fun x => x.sent && x.p.pseq = pseq)) then .next s else .next (s.staleIn peer cls ctxno)

/-- RETRY. -/
def execRetry (peer cls ctxno pseq : Nat) (s : State) : Res :=
  if s.hearsFor peer cls then .next (s.retryIn peer cls ctxno pseq) else .next s

/-- PACKET_RESEND: 4 µs after its last sending an unacknowledged packet goes again, on the next RUNNING plane (spec 21, R425). -/
def execPacketResend (peer cls pseq : Nat) (s : State) : Res :=
  match s.sctxOf peer cls with
  | none => .next s
  | some c =>
    match c.pkts.find? (fun x => x.sent && x.p.pseq = pseq) with
    | none => .next s
    | some x =>
      if s.clock.toNat < x.last + 6400 || !c.cached then .next s
      else match s.plane (x.p.plane + 1) with
        | none => .next s
        | some pl =>
          let y := { x with last := s.clock.toNat, p := { x.p with plane := pl, hop := 256 } }
          let s := s.modSctx peer cls (fun c => { c with last := s.clock.toNat, pkts := updWhere c.pkts (fun z => z.p.pseq = pseq) (fun _ => y) })
          .next (s.emit (.packet pl y.p))

/-- DELIVERY_GIVE_UP: DGUP has passed since the first sending of a packet that is not acknowledged, and its context gives up; class 4
names by its MSGID a request or message that waits for its RESP or COMPLETE only (spec 21, R428). Give-up clocks are paused while a
re-key holds requests (R421). -/
def execDeliveryGiveUp (peer cls pseq : Nat) (s : State) : Res :=
  if s.rekeying then .next s
  else if cls = 4 then
    match s.findMsg peer pseq with
    | none => .next s
    | some m =>
      let late := match m.first with | none => false | some t => t + s.dgup ≤ s.clock.toNat
      if !(s.sending (.piece m.id)).isEmpty || m.done || !late then .next s
      else match m.kind with
        | 3 => .next (s.requestFails peer m.id 1)
        | 2 =>
          let s := match m.cmd with | some (c, _) => s.modCmd c (fun c => c.lose peer 1) | none => s
          .next (s.getLands m none)
        | 0x10 => .next (s.msgDone m 2 0)
        | _ => .next s
  else match s.sctxOf peer cls with
    | none => .next s
    | some c =>
      if c.pkts.any (fun x => x.sent && x.p.pseq = pseq && x.first + s.dgup ≤ s.clock.toNat) then .next (s.giveUpCtx peer cls)
      else .next s

/-- RESP: the result of a READ, ATOMIC or ECINC reaches the requester. -/
def execResp (peer msg : Nat) (data : List (BitVec 8)) (s : State) : Res :=
  if s.receives then .next (s.respArrives peer msg data) else .next s

/-- COMPLETE: a message's completion reaches the sender. -/
def execComplete (peer msg : Nat) (s : State) : Res :=
  if s.receives then .next (s.completeArrives peer msg) else .next s

/-- AGGACK: the first aggregated answer to a line: NACK and the line's record come before it counts (spec 11, R246; spec 23, R441). The queue
is one of the context that issued the line (spec 25, R457). -/
def execAggack (group ctxno pseq : Nat) (bits : BitVec 512) (s : State) : Res :=
  match s.sctxOf group 3 with
  | none => .next s
  | some c =>
    match (if c.ctxno = ctxno && s.hearsFor group 3 then c.pkts.find? (fun x => x.sent && x.p.pseq = pseq) else none) with
    | none => .next s
    | some x =>
      let s := s.modSctx group 3 (fun c => { c with last := s.clock.toNat, pkts := c.pkts.filter (fun y => y.p.pseq ≠ pseq) })
      match x.purpose with
      | .mcast acc => match s.partIn acc x.p.msg with
        | none => .next s.flush
        | some (a, p) =>
          let members := match p.mc with | none => 0 | some m => m.members
          let bad := members &&& ~~~bits
          let at_ := s.mcastAt group
          let low := (List.range 512).filter (fun d => bad.getLsbD d)
          let s := if bad = 0 then s
            else
              let s := s.writeRun ownIl (at_ + 64) (leBytes ((BitVec.ofNat 512 (s.lookNum (at_ + 64) 64) ||| bad).toNat) 64)
              s.complete a.ctx (BitVec.ofNat 64 (s.lookNum (at_ + 128) 8)) 1 0x31 false false group (low.headD 0) low.length
          .next ((s.partDone a p []).pump)
      | _ => .next s

/-! ### Arrival (spec 21, R423, R425, R427, R429, R433) -/

/-- What the header and tag of a packet decide: none when it goes on. Only a line and its answer have a group for a destination; a device that
is no member has DEVID 0 and no keys (spec 21, R416, R418, R422, R423). -/
def State.screen (s : State) (p : Packet) : Option State :=
  let old := s.isMember && p.kg ≠ s.fab.kgen.getLsbD 0
  let line := p.typ = 8 || p.typ = 10
  if p.hop = 0 || (if line then !p.mcast else p.mcast || p.dst ≠ s.devid) || old then
    some (s.modPort p.plane (fun x => { x with drop := x.drop + 1 }))
  else if !p.tagOk || !s.isMember then
    let recent (x : Port) : List Nat := x.fails.filter (fun t => s.clock.toNat ≤ t + 1600000)
    some ((s.modPort p.plane (fun x => { x with tagerr := x.tagerr + 1, fails := recent x ++ [s.clock.toNat] })).count (hcTag p.plane))
  else if p.typ = 0 || 13 < p.typ then some s
  else none

/-- An answer of a type that only names the packet it answers (spec 21, R425). -/
def State.answerWith (s : State) (p : Packet) (typ : Nat) : State :=
  match s.plane p.plane with
  | none => s
  | some pl => s.emit (.packet pl { p with typ := typ, src := s.devid, dst := p.src, mcast := false, hop := 256, plane := pl, body := .other })

/-- Performs a multicast line at this member (spec 21, R433); `accept` is what its table said when the replica arrived (spec 23, R442). -/
def State.performLine (s : State) (p : Packet) (accept : Bool) : State :=
  let answer (s : State) (ok : Bool) : State :=
    let key := rctxKey p
    let put (c : RecvCtx) : RecvCtx := { c with got := Sparse.put c.got p.pseq (if ok then 0 else 1) }
    let l := updWhere s.fab.rctx (fun (c : RecvCtx) => c.peer = key && c.cls = p.cls && c.ctxno = p.ctxno) put
    let s := { s with fab := { s.fab with rctx := l } }
    s.emit (.mcastAnswer p ok)
  match p.body with
  | .write addr bytes =>
    if !accept then answer s false
    else
      let r := s.peerWrite p addr bytes
      answer r.1 (r.2 = 0)
  | _ => s

/-- Performs a packet and acknowledges it. An uncorrectable read is not answered. -/
def State.perform (s : State) (p : Packet) (accept : Bool) : State :=
  match p.typ, p.body with
  | 1, .write addr bytes =>
    let r := s.peerWrite p addr bytes
    if r.2 = 0 then (r.1.countMessage p bytes.length).ackPacket p 0 else r.1.ackPacket p r.2
  | 2, .read addr n => (match s.peerContext p with
    | .error e => s.ackPacket p e
    | .ok c => match s.peerPieces c false addr n with
      | .error e => s.ackPacket p e
      | .ok l =>
        let r := l.foldl (fun (r : State × Option (List Byte)) q =>
          let (s, x) := r.1.readAt q.2.2 q.1 q.2.1
          (s, match r.2, x with | some a, some b => some (a ++ b) | _, _ => none)) (s, some [])
        match r.2 with
        | none => r.1
        | some bs => (r.1.ackPacket p 0).respond p 6 n (.resp bs))
  | 3, .atomic addr wide cas op operand compare => (match s.peerContext p with
    | .error e => s.ackPacket p e
    | .ok c =>
      let n := if wide then 8 else 4
      match s.peerPieces c true addr n with
      | .error e => s.ackPacket p e
      | .ok [(key, _, il)] =>
        let (t, x) := s.readAt il key n
        match x with
        | none => t
        | some bs =>
          let old := leNat bs
          let new := if cas then (if old = compare.toNat % 2 ^ (8 * n) then operand.toNat else old)
            else atomicOp op (8 * n) old operand.toNat
          let t := if cas && old ≠ compare.toNat % 2 ^ (8 * n) then t else (t.writeAt il key (leBytes new n) none).1
          (t.ackPacket p 0).respond p 6 n (.resp bs)
      | .ok _ => s.ackPacket p 1)
  | 4, .field m => s.fieldArrives m p
  | 5, .ecinc n amount => (match s.peerContext p with
    | .error e => s.ackPacket p e
    | .ok c =>
      if Sparse.get 0 s.dist.owners n ≠ c then s.ackPacket p (s.refusalStatus n)
      else
        let v := Sparse.get 0 s.dist.counters n + amount
        ((s.setCounter n v).ackPacket p 0).respond p 6 4 (.resp (leBytes v.toNat 4)))
  | 6, .resp data => (s.ackPacket p 0).respArrives p.src p.msg data
  | 7, _ => (s.ackPacket p 0).completeArrives p.src p.msg
  | 8, _ => s.performLine p accept
  | _, _ => s

/-- The lowest sequence number at or above `n` that is not among some. -/
def nextLow (got : List (Nat × Nat)) : Nat → Nat → Nat
  | 0, n => n
  | k + 1, n => if (Sparse.find got n).isSome then nextLow got k (n + 1) else n

/-- A packet at a context that is open and cached: a duplicate, a new packet, or one beyond the window (spec 21, R425, R433). -/
def State.windowed (s : State) (p : Packet) (accept : Bool) (c : RecvCtx) : State :=
  let key := rctxKey p
  let set (s : State) (f : RecvCtx → RecvCtx) : State :=
    { s with fab := { s.fab with rctx := updWhere s.fab.rctx (fun (d : RecvCtx) => d.peer = key && d.cls = p.cls) f } }
  match Sparse.find c.got p.pseq with
  | some status =>
    let s := set s (fun d => { d with last := s.clock.toNat })
    if p.cls = 3 then s.emit (.mcastAnswer p (status = 0)) else if status = 256 then s else s.ackPacket p status
  | none =>
    if c.low + 255 < p.pseq then s
    else
      let got := Sparse.put c.got p.pseq 256
      (set s (fun d => { d with got := got, low := nextLow got (got.length + 1) c.low, last := s.clock.toNat })).perform p accept

/-- The bytes that a packet takes in the ingress buffer. -/
def packetSize (p : Packet) : Nat :=
  64 + match p.body with | .write _ bs => bs.length | .resp d => d.length | _ => 16

/-- A packet waits in the 256 KiB ingress buffer for its context, if there is room. -/
def State.intoIngress (s : State) (p : Packet) (accept : Bool) : Option State :=
  if (s.fab.ingress.map (fun e => packetSize e.1)).sum + packetSize p ≤ 262144 then
    some { s with fab := { s.fab with ingress := s.fab.ingress ++ [(p, accept)] } }
  else none

/-- Whether a packet answers one of a sending context (spec 21, R422). -/
def isAnswer (p : Packet) : Bool := p.typ = 9 || p.typ = 11 || p.typ = 12

/-- The packets that wait for a receiving context. -/
def waitsFor (key cls : Nat) (e : Packet × Bool) : Bool := !isAnswer e.1 && rctxKey e.1 = key && e.1.cls = cls

/-- A packet of a delivery context: it may open one and close an older one, be answered STALE, or wait for its context (spec 21, R427,
R429). A context that has been quiet for 64 µs is closed. -/
def State.receive (s : State) (p : Packet) (accept : Bool) : State :=
  let key := rctxKey p
  let high := Sparse.get 0 s.fab.opened (4 * key + p.cls)
  let heard (c : RecvCtx) : Bool := c.peer = key && c.cls = p.cls && c.ctxno = p.ctxno && !c.quiet s.clock.toNat
  match s.fab.rctx.find? heard with
  | some c =>
    if c.cached then s.windowed p accept c
    else
      let s := { s with fab := { s.fab with rctx := updWhere s.fab.rctx heard (fun d => { d with last := s.clock.toNat }) } }
      (s.intoIngress p accept).getD (s.answerWith p 11)
  | none =>
    if p.ctxno ≤ high then s.answerWith p 12
    else
      let s := s.roomForCtx
      let c : RecvCtx := { peer := key, cls := p.cls, gen := s.fab.kgen.toNat, ctxno := p.ctxno, low := 0, got := [], last := s.clock.toNat,
                           cached := true }
      let late := s.fab.ingress.filter (waitsFor key p.cls)
      let s := { s with fab := { s.fab with
        rctx := s.fab.rctx.filter (fun (d : RecvCtx) => !(d.peer = key && d.cls = p.cls)) ++ [c]
        ingress := s.fab.ingress.filter (fun e => !waitsFor key p.cls e)
        opened := Sparse.put s.fab.opened (4 * key + p.cls) p.ctxno } }
      -- what still waited for the older context is answered STALE
      (late.foldl (fun s e => s.answerWith e.1 12) s).windowed p accept c

/-- The sending context that an answer is for; an answer to a line comes from a member, and names the line by its MSGID (log entry 130). -/
def State.answered (s : State) (p : Packet) : Nat × Nat :=
  if p.cls ≠ 3 then (p.src, p.cls)
  else match s.fab.sctx.find? (fun c => c.cls = 3 && c.ctxno = p.ctxno && c.pkts.any (fun x => x.sent && x.p.pseq = p.pseq && x.p.msg = p.msg)) with
    | none => (p.src, 3)
    | some c => (c.peer, 3)

/-- An answer acts on its sending context. -/
def State.answerIn (s : State) (p : Packet) : State :=
  let k := s.answered p
  match p.typ, p.body with
  | 9, .resp (b :: _) => if 3 < b.toNat then s else s.ackIn k.1 k.2 p.ctxno p.pseq b.toNat
  | 11, _ => s.retryIn k.1 k.2 p.ctxno p.pseq
  | 12, _ => s.staleIn k.1 k.2 p.ctxno
  | _, _ => s

/-- A packet that passed its checks: an answer goes to its sender's context, or waits until that is fetched, the rest to their delivery
context (spec 21, R425, R429). -/
def State.takeIn (s : State) (p : Packet) : State :=
  if isAnswer p then
    let k := s.answered p
    if s.fab.sctx.any (fun c => c.peer = k.1 && c.cls = k.2 && !c.cached) then (s.intoIngress p false).getD s else s.answerIn p
  else match p.typ with
    | 10 | 13 => s
    | _ => s.receive p (p.typ = 8 && s.mcastFl p.dst % 4 = 3)

/-- PACKET_ARRIVAL: a packet arrives on a LOCKED or RUNNING port. Only a RUNNING port carries program traffic; what a control message of
membership says is a step of its own (spec 21, R414, R423). -/
def execPacketArrival (p : Packet) (s : State) : Res :=
  if !packetFits p || !s.portOpen p.plane then .next s
  else match s.screen p with
    | some t => .next t
    | none => .next (if s.portRuns p.plane then s.takeIn p else s)

/-- MCAST: a multicast replica arrives and is answered. -/
def execMcast (p : Packet) (s : State) : Res :=
  if p.typ ≠ 8 || p.cls ≠ 3 then .next s else execPacketArrival p s

/-! ### Contexts (spec 21, R427, R429) -/

/-- CONTEXT_CLOSE: 64 µs of quiet close a context; at the sender nothing sent is unacknowledged then. What waits to be sent opens the
next. -/
def execContextClose (sending : Bool) (peer cls : Nat) (s : State) : Res :=
  if sending then
    match s.sctxOf peer cls with
    | none => .next s
    | some c =>
      if !c.quiet s.clock.toNat || (s.rekeying && !c.pkts.isEmpty) then .next s
      else
        .next (s.closeCtx c).flush
  else
    match s.fab.rctx.find? (fun c => c.peer = peer && c.cls = cls) with
    | none => .next s
    | some c =>
      if !c.quiet s.clock.toNat then .next s
      else .next { s with fab := { s.fab with
        rctx := s.fab.rctx.filter (fun (d : RecvCtx) => !(d.peer = peer && d.cls = cls))
        ingress := s.fab.ingress.filter (fun e => !waitsFor peer cls e)
        inmsgs := s.fab.inmsgs.filter (fun (m : Nat × Nat) => !(cls = 0 && m.1 % 512 = peer && m.1 / 512 % 2 ^ 31 = c.ctxno)) } }

/-- CONTEXT_FETCH: a context comes back from far memory; what waited for it goes on. -/
def execContextFetch (sending : Bool) (peer cls : Nat) (s : State) : Res :=
  if sending then
    match s.sctxOf peer cls with
    | none => .next s
    | some c =>
      if c.cached then .next s
      else
        let s := s.roomForCtx
        let mine (e : Packet × Bool) : Bool := isAnswer e.1 && s.answered e.1 = (peer, cls)
        let waiting := s.fab.ingress.filter mine
        let s := (s.modSctx peer cls (fun c => { c with cached := true, last := s.clock.toNat })).flush
        let s := { s with fab := { s.fab with ingress := s.fab.ingress.filter (fun e => !mine e) } }
        .next (waiting.foldl (fun s e => s.answerIn e.1) s)
  else
    match s.fab.rctx.find? (fun c => c.peer = peer && c.cls = cls) with
    | none => .next s
    | some c =>
      if c.cached then .next s
      else
        let waiting := s.fab.ingress.filter (waitsFor peer cls)
        let s := s.roomForCtx
        let s := { s with fab := { s.fab with
          rctx := updWhere s.fab.rctx (fun (d : RecvCtx) => d.peer = peer && d.cls = cls) (fun (d : RecvCtx) => { d with cached := true, last := s.clock.toNat })
          ingress := s.fab.ingress.filter (fun e => !waitsFor peer cls e) } }
        .next (waiting.foldl (fun s e => s.receive e.1 e.2) s)

end Sys2Proof.Machine
end

