-- ==== Sys2Proof/Machine/Trust.lean ====
section
/-! DEFINITION. Ports (spec 21, R413, R414), membership (R418, R419) and re-keying (R420, R421) of the trust domain. -/

namespace Sys2Proof.Machine

open Sys2Proof

/-! ### Ports -/

/-- One millisecond in cycles. -/
def msCycles : Nat := 1600000

/-- A port faults with a reason; the health log counts it (spec 21, R414). -/
def State.faultPort (s : State) (p reason : Nat) : State :=
  (s.modPort p (fun x => { x with state := 3, reason := BitVec.ofNat 8 reason, fails := [] })).count (hcFaulted p)

/-- An event on a port of the device; in a state that R414 does not list for it, nothing changes. -/
def onPort (s : State) (p : Nat) (f : State) : Res := if 32 ≤ p then .next s else .next (if s.power then f else s)

/-- LOCK: `accepted` is the first 8 bytes of the digest of the switch's identity certificate, which PSWID must match, when the SPDM session is
established and the measurements are accepted, none otherwise. -/
def execLock (port : Nat) (accepted : Option (BitVec 64)) (s : State) : Res :=
  onPort s port (if (s.port port).state ≠ 0 then s
    else if accepted = some (s.port port).swid && (s.port port).live s.clock.toNat then s.modPort port (fun x => { x with state := 1 })
    else s.modPort port (fun x => { x with reason := 1 }))

/-- START. -/
def execStart (port : Nat) (s : State) : Res :=
  onPort s port (if (s.port port).state = 1 && s.isMember then (s.modPort port (fun x => { x with state := 2 })).flush else s)

/-- STOP: every key of the port is zeroised. -/
def execStop (port : Nat) (s : State) : Res := onPort s port (s.modPort port (fun x => { x with state := 0, reason := 0, fails := [] }))

/-- PORT_CONFIG_WRITE: PCFG or PSWID, written while the port is OPEN; on a secured port the write is discarded and the port faults. -/
def execPortConfigWrite (port : Nat) (value : BitVec 64) (swid : Bool) (s : State) : Res :=
  onPort s port (if (s.port port).state = 0 then
      s.modPort port (fun x => if swid then { x with swid := value } else { x with cfg := value.truncate 32 &&& 0x11F })
    else if s.secured port then s.faultPort port 2 else s)

/-- TAG_FAILURE_FAULT: 16 tag failures within 1 ms. -/
def execTagFailureFault (port : Nat) (s : State) : Res :=
  let recent := (s.port port).fails.filter (fun t => s.clock.toNat ≤ t + msCycles)
  if 32 ≤ port || !s.secured port || recent.length < 16 then .next s else .next (s.faultPort port 3)

/-- LINK_LOSS. -/
def execLinkLoss (port : Nat) (s : State) : Res :=
  onPort s port (if (s.port port).up then s.modPort port (fun x => { x with up := false, downAt := s.clock.toNat }) else s)

/-- LINK_RETURN. -/
def execLinkReturn (port : Nat) (s : State) : Res := onPort s port (s.modPort port (fun x => { x with up := true }))

/-- LINK_DOWN: a link down for 1 ms, or, with the link up, the end of its SPDM session. -/
def execLinkDown (port : Nat) (s : State) : Res :=
  let x := s.port port
  let since := match x.up, x.held with | false, _ => x.downAt | true, some t => t | true, none => s.clock.toNat
  if 32 ≤ port || !s.secured port || (!x.live s.clock.toNat && s.clock.toNat < since + msCycles) then .next s
  else .next (s.faultPort port 4)

/-- MEASUREMENT_CHANGE. -/
def execMeasurementChange (port : Nat) (s : State) : Res := onPort s port (if s.secured port then s.faultPort port 5 else s)

/-! ### Membership -/

/-- The manager: the member with the lowest DEVID (spec 21, R418). -/
def State.isManager (s : State) : Bool := s.isMember && (List.range s.devid).all (fun d => !s.fab.members.getLsbD d)

/-- A field domain is failed on this device, and the others hear of it (spec 15, R351; spec 21, R421). -/
def State.failDomain (s : State) (did : Nat) : State :=
  match s.domain did with
  | none => s
  | some d => (s.setDomain did { d with state := .failed }).emit (.control ctlFailed did)

/-- The domains with a record CREDITING toward a device, or an entry ACCEPTED from it (spec 21, R421). -/
def State.tiedTo (s : State) (dev : Nat) : List Nat :=
  s.nodes.flatMap (fun (n : Nat × Node) =>
    (n.2.home.mortars.filter (fun m => m.fabric && m.ddev = dev && m.state = .crediting)).map (·.did) ++
    (n.2.home.dedups.filter (fun e => e.odev = dev && e.state = .accepted)).map (·.did))

/-- A member leaves. -/
def State.loseMember (s : State) (dev : Nat) : State :=
  let s := { s with fab := { s.fab with members := s.fab.members &&& ~~~(1#512 <<< dev), arrived := s.fab.arrived.filter (· ≠ dev) } }
  (s.tiedTo dev).foldl State.failDomain s

/-- JOIN_DOMAIN: the new MEMBERS, which the manager sends to the others; `self` is this device's DEVID, which a newcomer receives here. The pair
session with the manager, and what it sends, take a LOCKED or RUNNING port (spec 21, R414, R415); a first member is its own manager. -/
def execJoinDomain (dev self : Nat) (members : BitVec 512) (s : State) : Res :=
  let alone := self = dev && (List.range self).all (fun d => !members.getLsbD d)
  if 512 ≤ dev || 512 ≤ self || !members.getLsbD dev || !members.getLsbD self || (s.isMember && self ≠ s.devid) ||
      (!s.isMember && self ≠ dev) || !(alone || s.hears) then .next s
  else
    let s := { s with fab := { s.fab with domst := BitVec.ofNat 32 (self * 256 + 1 + 2 * (if s.rekeying then 1 else 0)), members := members } }
    let s := if s.isManager then s.emit (.control ctlMembers dev) else s
    .next (if s.rekeying then s else s.setRekey)

/-- MEMBER_REMOVAL: another member leaves, and the remaining ones re-key; or this device does, and is in no domain then, with no key generation
(log entry 131). -/
def execMemberRemoval (dev : Nat) (s : State) : Res :=
  if !s.isMember || !s.fab.members.getLsbD dev || 512 ≤ dev || !(s.isManager || s.hears) then .next s
  else if dev = s.devid then
    .next { s with fab := { s.fab with domst := 0, kgen := 0, members := 0, arrived := [], arriveSent := false } }
  else
    let s := s.loseMember dev
    let s := if s.isManager then s.emit (.control ctlMembers dev) else s
    .next (if s.rekeying then s else s.setRekey)

/-! ### Re-keying (spec 21, R420, R421) -/

/-- REKEY: the manager has set REKEY for a reason other than a change of membership. -/
def execRekey (s : State) : Res :=
  if !s.isMember || s.rekeying || !(s.isManager || s.hears) then .next s
  else .next (if s.isManager then s.setRekey.emit (.control ctlRekey s.fab.kgen.toNat) else s.setRekey)

/-- Every member but those in a list has arrived. -/
def State.allArrived (s : State) : Bool := (List.range 512).all (fun d => !s.fab.members.getLsbD d || s.fab.arrived.contains d)

/-- ARRIVE: of this device, once every context it sends on is closed; of another, at the manager. -/
def execArrive (dev : Nat) (s : State) : Res :=
  if !s.isMember || !s.rekeying || !s.fab.members.getLsbD dev || !((s.isManager && dev = s.devid) || s.hears) then .next s
  else
    let note (s : State) : State := if s.isManager then { s with fab := { s.fab with arrived := dev :: s.fab.arrived.filter (· ≠ dev) } } else s
    if dev = s.devid then
      if s.fab.arriveSent || !s.fab.sctx.isEmpty then .next s
      else
        let s := { s with fab := { s.fab with arriveSent := true } }
        .next ((note s).emit (.control ctlArrive s.fab.kgen.toNat))
    else if s.isManager then .next (note s) else .next s

/-- The clocks that a re-key paused go on where they stood (spec 21, R421). -/
def State.unpause (s : State) : State :=
  let by_ := s.clock.toNat - s.giveUpClock
  let s := { s with fab := { s.fab with outmsgs := s.fab.outmsgs.map (fun (m : OutMsg) => { m with first := m.first.map (· + by_) }) } }
  s.mapNodes (fun n => { n with home := { n.home with
    mortars := updWhere n.home.mortars (fun m => m.state = .offered) (fun m => { m with deadline := m.deadline + by_ }) } })

/-- The switch to a generation: old keys and contexts go, held requests are sent. What a context has not had acknowledged by then, which only an
expulsion leaves, is given up (log entry 131). -/
def State.release (s : State) (gen : BitVec 32) : State :=
  let s := s.unpause
  let open_ := s.fab.sctx
  let s := { s with fab := { s.fab with sctx := [] } }
  let s := open_.foldl (fun s c => c.pkts.foldl (fun s x => if x.sent then s.outcome c.peer x 1 else s) s) s
  let unsent := open_.flatMap (fun c => (c.pkts.filter (fun x => !x.sent)).map (fun x => (c.peer, c.cls, x.p, x.purpose)))
  let held := unsent ++ s.fab.held
  let s := { s with fab := { s.fab with
    kgen := gen, domst := s.fab.domst &&& ~~~2, sctx := [], rctx := [], ctxnos := [], opened := [], ingress := [], inmsgs := [], held := [],
    arrived := [], arriveSent := false } }
  (held.foldl (fun s h => s.enqueue h.1 h.2.1 h.2.2.1 h.2.2.2) s).pump

/-- RELEASE: the generation goes from g to g + 1; a newcomer takes the generation that RELEASE names. -/
def execRelease (gen : BitVec 32) (s : State) : Res :=
  if !s.isMember || !s.rekeying || !s.fab.arriveSent || (s.isManager && !s.allArrived) || (s.fab.kgen ≠ 0 && gen ≠ s.fab.kgen + 1) ||
      !(s.isManager || s.hears) then
    .next s
  else .next ((if s.isManager then s.emit (.control ctlRelease gen.toNat) else s).release gen)

/-- REKEY_TIMEOUT: the manager expels every member that has not arrived within 100 ms, releases the others, and REKEY is set again; `dev` is one
of them. Its own arrival, which a packet for a member that is gone may hold back, is not waited for. -/
def execRekeyTimeout (dev : Nat) (s : State) : Res :=
  let missing (d : Nat) : Bool := d ≠ s.devid && s.fab.members.getLsbD d && !s.fab.arrived.contains d
  if !s.isManager || !s.rekeying || 512 ≤ dev || !missing dev || s.clock.toNat < s.fab.rekeyAt + 100 * msCycles then .next s
  else
    let s := ((List.range 512).filter missing).foldl (fun s d => (s.loseMember d).emit (.control ctlMembers d)) s
    .next (((s.emit (.control ctlRelease (s.fab.kgen.toNat + 1))).release (s.fab.kgen + 1)).setRekey)

end Sys2Proof.Machine
end

