-- ==== Sys2Proof/Machine/Host.lean ====
section
/-! DEFINITION. What the host does to the device: accesses of far memory (spec 25, R452), and writes of the management space
(spec 25, R451, R454 to R457; spec 17, R357; spec 21, R418). Bits that the spec reserves are kept zero. -/

namespace Sys2Proof.Machine

open Sys2Proof

/-- DEVSTAT reads READY (spec 25, R453). -/
def State.operating (s : State) : Bool := s.mgmt.devstat.toNat % 8 = 1

/-- A host access of the management space: discarded when the device is dumped or has failed (spec 25, R462). -/
def hostWrite (s : State) (ok : Bool) (t : State) : Res :=
  if !s.power || !ok then .next s else .next (if s.operating then t else s)

/-! ### Far memory (spec 25, R452) -/

/-- Whether fdecl has recorded the page of a far-memory address for a domain. -/
def State.recorded (s : State) (key : Nat) : Bool := s.fld.domains.any (fun p => p.2.pages.contains (key / 65536))

/-- The sequence words of a communicator are zeroed when the host writes VALID 1 into its entry (spec 21, R435). -/
def State.startComm (s : State) (entry : Nat) : State :=
  let words := s.lookNum (entry + 12) 4
  let at_ := s.lookNum (entry + 24) 8
  (s.writeRun ownIl at_ (List.replicate (min (4 * words) (2 ^ 39 - at_)) 0)).answerWaits at_ (4 * words)

/-- The communicator entries whose FL byte a write covers with VALID 1. -/
def State.commStarts (s : State) (addr : Nat) (bs : List Byte) : List Nat :=
  let base := (Sparse.get 0 s.mgmt.regions 2).toNat
  if base = 0 then []
  else ((List.range bs.length).filter (fun i =>
    base + 10 ≤ addr + i && (addr + i - base) % 32 = 10 && addr + i < base + 131072 && (bs.getD i 0).getLsbD 0)).map (fun i => addr + i - 10)

/-- A host write: discarded and counted where the page is recorded, else performed sector by sector at the home. -/
def State.hostStore (s : State) (addr : Nat) (bs : List Byte) : State :=
  let t := (unitPieces 32 addr bs.length).foldl (fun (r : State × Bool) p =>
    if r.1.recorded (addr + p.1) then (r.1, true)
    else ((r.1.writeAt ownIl (addr + p.1) ((bs.drop p.1).take p.2) none).1, r.2)) (s, false)
  let u := if t.2 then t.1.count hcFieldW else t.1
  (u.commStarts addr bs).foldl State.startComm u

/-- HOST_MEMORY_ACCESS: a read of `count` bytes, or a write. Reads stay answered when the device is dumped (spec 25, R462). -/
def execHostMemoryAccess (addr count : Nat) (data : Option (List (BitVec 8))) (s : State) : Res :=
  let n := match data with | none => count | some l => l.length
  let dumped := s.mgmt.devstat.toNat % 8 = 4
  if !s.power || 2 ^ 39 < addr + n || !(s.operating || dumped) then .next s
  else match data with
    | some bs => .next (if dumped then s else s.hostStore addr bs)
    | none =>
      let (t, x) := s.readRun ownIl addr n
      .next (t.emit (.hostData (x.getD [])))

/-! ### The management space -/

/-- Whether a block, visitor or attachment of a context exists (spec 25, R454). -/
def State.contextUsed (s : State) (c : BitVec 8) : Bool :=
  s.groups.any (fun p => p.2.ctx = c) || s.blocks.any (fun p => s.ctxOf p.2 = c && !p.2.live.isEmpty) ||
    s.conts.any (fun k => k.ctx = c) || s.dist.attaches.any (fun a => a.ctx = c) || s.dist.fired.any (fun f => f.att.ctx = c)

/-- A byte of a context entry with its reserved bits zero. -/
def entryByte (o : Nat) (b : Byte) : Byte := if o = 56 || o = 57 then b &&& 7 else if 57 < o then 0 else b

/-- CONTEXT_ENTRY_WRITE (spec 25, R454): while VALID is 1 only byte 56 is written, and a write that clears VALID is discarded
while the context is in use. Clearing VALID ends a debugger's attachment (spec 12, R478). -/
def execContextEntryWrite (offset : Nat) (data : List (BitVec 8)) (s : State) : Res :=
  let n := offset / 64
  let lo := offset % 64
  let valid := s.ctxField (BitVec.ofNat 8 n) 56 1 % 2 = 1
  let flags := if lo ≤ 56 && 56 < lo + data.length then some ((data.getD (56 - lo) 0) &&& 7) else none
  let clears := valid && (match flags with | none => false | some b => !b.getLsbD 0)
  let m := (List.range data.length).foldl (fun m i =>
    if valid && lo + i ≠ 56 then m else Mem.wr m (offset + i) (entryByte (lo + i) (data.getD i 0))) s.mgmt.ctxs
  hostWrite s (1 ≤ n && n < 256 && lo + data.length ≤ 64)
    (if clears && s.contextUsed (BitVec.ofNat 8 n) then s
     else { s with mgmt := { s.mgmt with ctxs := m, debug := if clears then (s.mgmt.debug).filter (· ≠ n) else s.mgmt.debug } })

/-- The bits of a queue entry that the layout of R357 gives. -/
def queueBits (v : BitVec 128) : BitVec 128 := v &&& ~~~0xFFF4

/-- A queue entry without HDROPS and CLOSED. -/
def queueShape (v : BitVec 128) : BitVec 128 := v &&& ~~~0xFFFFFFFF0008

/-- The records of a queue hold unspecified contents (spec 17, R357). -/
def State.scramble (s : State) (q : Nat) : State :=
  let free (c : Nat) (i : Nat) (r : Rec) : Option Rec :=
    let k := 0x8000000 + (q * 256 + c) * 65536 + i
    if Config.freeBool s.own.fresh k then
      some { r with prio := (Config.freeWord s.own.fresh k).toNat % 4, junk := some (s.own.fresh, k) }
    else none
  (List.range 192).foldl (fun s c =>
    let l := s.shard q c
    if l.isEmpty then s else s.setShard q c ((List.range l.length).filterMap (fun i => match l[i]? with | none => none | some r => free c i r))) s

/-- QUEUE_CONFIG_WRITE (spec 17, R357, R361). -/
def execQueueConfigWrite (queue : Nat) (value : BitVec 128) (s : State) : Res :=
  let v := queueBits value
  let changed := queueShape v ≠ queueShape (s.qcfg queue)
  let t := if changed && s.inShards queue ≠ 0 then s.scramble queue else s
  let t := { t with dist := { t.dist with queues := Sparse.set 0 t.dist.queues queue v } }
  hostWrite s (queue < 256) (t.closeAnswers queue)

/-- OWNER_ENTRY_WRITE (spec 25, R455; spec 14, R318): CARVE waits while the core holds a block. -/
def execOwnerEntryWrite (owner : Nat) (value : BitVec 64) (s : State) : Res :=
  let c := value.toNat % 32
  let s' := s.modNode owner (fun n => { n with vopen := (value >>> 8).truncate 8 })
  let s' := if owner < 192 && c ≤ 22 then
      let r := s'.reap
      r.modNode owner (fun n => { n with carveNew := c, carve := if r.occupied owner then n.carve else c })
    else s'
  hostWrite s (owner < 256) s'

/-- REGION_REGISTER_WRITE: DCREGION, MCBASE, COMMBASE, DUMPFRAME; discarded while any grid runs (spec 25, R456). -/
def execRegionRegisterWrite (index : Nat) (value : BitVec 64) (s : State) : Res :=
  hostWrite s (index < 4) (if s.grids.isEmpty then { s with mgmt := { s.mgmt with regions := Sparse.set 0 s.mgmt.regions index value } } else s)

/-- CQ_REGISTRATION (spec 25, R457): VALID 1 writes INDEX, TAIL and DROPS of the header. -/
def execCqRegistration (index : Nat) (header : BitVec 64) (ctx : Nat) (valid : Bool) (s : State) : Res :=
  let e : CqEntry := { header := header, valid := valid, ctx := BitVec.ofNat 8 ctx, dropped := false }
  let t := s.setCq index e
  let t := if !valid then t
    else match t.cqHeader e with
      | none => t
      | some (l, bs) =>
        (t.writePieces l (bs.take 20 ++ leBytes 0 4 ++ leBytes index 4 ++ (bs.drop 28).take 4 ++ leBytes 0 4 ++ bs.drop 36)).pollAnswers index
  hostWrite s (index < 4096 && ctx < 256) t

/-- REGISTER_WRITE: DGUP and DCTXMAP (spec 21, R418); no other register without a step of its own is writable. -/
def execRegisterWrite (offset : Nat) (value : BitVec 64) (s : State) : Res :=
  hostWrite s true
    (if offset = 0x3008 then { s with fab := { s.fab with dgup := value.truncate 32 } }
     else if 0x3080 ≤ offset && offset < 0x3480 && offset % 4 = 0 then
       { s with fab := { s.fab with dctxmap := Sparse.set 0 s.fab.dctxmap ((offset - 0x3080) / 4) (value.truncate 32 &&& 0x1FFFF) } }
     else s)

end Sys2Proof.Machine
end

