-- ==== Sys2Proof/Machine/Firmware.lean ====
section
/-! DEFINITION. Start-up (spec 25, R458 to R460), fatal errors and the dump (R461 to R463), the health log (R464, R465), and
what the memory controllers and firmware do to DRAM (spec 14, R333, R337). -/

namespace Sys2Proof.Machine

open Sys2Proof

/-! ### The health log (spec 25, R464) -/

/-- The counts in device SRAM go to flash; each counter saturates at 2^64 − 1. -/
def State.flushHealth (s : State) : State :=
  { s with mgmt := { s.mgmt with
    health := s.mgmt.healthNew.foldl (fun h c => Sparse.set 0 h c.1 (min (Sparse.get 0 h c.1 + c.2) (2 ^ 64 - 1))) s.mgmt.health
    healthNew := [] } }

/-- A health counter as it stands, flushed or not. -/
def State.healthOf (s : State) (k : Nat) : Nat := min (Sparse.get 0 s.mgmt.health k + Sparse.get 0 s.mgmt.healthNew k) (2 ^ 64 - 1)

/-- HEALTH_FLUSH: every 60 s. -/
def execHealthFlush (s : State) : Res := if s.power then .next s.flushHealth else .next s

/-- FLUSH_HEALTH_LOG: DEVCTL 3. A device that dumps or is dumped discards it (spec 25, R462). -/
def execFlushHealthLog (s : State) : Res := if s.power && s.mgmt.devstat.toNat % 8 < 3 then .next s.flushHealth else .next s

/-- A fault is classed (spec 25, R465): transient, or lasting, which sets the failure mark. -/
def State.classed (s : State) (unit : Nat) (lasting : Bool) : State :=
  if lasting then (s.count (hcLasting unit)).count hcFailMark else s.count (hcTransient unit)

/-- FAULT_RETRY (spec 25, R465): of an uncorrectable sector by reading it again, of a FAULTED port by STOP, LOCK and START, which fail or not as
the link decides (`again`). A built-in test is retried by the start that runs it. What a program reads does not change. -/
def execFaultRetry (unit kind : Nat) (again : Bool) (s : State) : Res :=
  if !s.power then .next s
  else if kind = 0 then
    if !(s.mgmt.faults).contains unit then .next s
    else
      let rank := rankOf (s.scheme ownIl (32 * unit)) (32 * unit)
      .next ({ s with mgmt := { s.mgmt with faults := s.mgmt.faults.filter (· ≠ unit) } }.classed rank (s.badAt ownIl (32 * unit)))
  else if kind = 1 then
    if 32 ≤ unit || (s.port unit).state ≠ 3 then .next s
    else
      let fails := again || !(s.port unit).live s.clock.toNat
      let to_ : BitVec 2 := if fails then 0 else if s.isMember then 2 else 1
      .next (((s.classed (4096 + unit) fails).modPort unit (fun x => { x with state := to_, reason := if fails then 1 else 0, fails := [] })).flush)
  else .next s

/-! ### DRAM (spec 14, R333, R337; spec 25, R464) -/

/-- REFRESH_MANAGEMENT: for a bank whose count has reached LVL since its last command, or that takes no activate until one. -/
def execRefreshManagement (bank : Nat) (s : State) : Res :=
  if s.power && (s.dram.rfm.contains bank || s.dram.due.contains bank) then .next (s.manage bank) else .next s

/-- BANK_REFRESH. -/
def execBankRefresh (bank : Nat) (s : State) : Res :=
  if !s.power then .next s
  else .next { s with dram := { s.dram with bac := Sparse.set 0 s.dram.bac bank (Sparse.get 0 s.dram.bac bank - s.dram.dec) } }

/-- ERASURE_MARK: 16 distinct rows of the rank have shown a correction at the symbol position since the last start; the mark is kept
in flash (spec 25, R459, R464). -/
def execErasureMark (rank pos : Nat) (s : State) : Res :=
  if !s.power || 36 ≤ pos || (Sparse.get [] s.dram.fixed (rank * 64 + pos)).length < 16 then .next s
  else
    let t := s.addMark rank pos
    .next { t with mgmt := { t.mgmt with
      flashMarks := Sparse.set 0 t.mgmt.flashMarks rank (Sparse.get 0 t.mgmt.flashMarks rank ||| (Sparse.get 0 t.dram.erase rank &&& (1#36 <<< pos))) } }

/-! ### Start-up (spec 25, R458 to R460) -/

/-- How many bits of a doubleword below bit `n` are set. -/
def bitsBelow (w : BitVec 64) (n : Nat) : Nat := ((List.range n).filter (fun k => w.getLsbD k)).length

/-- The core that physical core `k` of a die is, where ENMAP enables it (spec 25, R459). -/
def coreNumber (enmap : List (BitVec 64)) (die k : Nat) : Option Nat :=
  let w := enmap.getD die 0
  if w.getLsbD k then some (48 * die + bitsBelow w k) else none

/-- Whether the configuration record is valid beside its signature (spec 25, R458): MAGIC, ENMAP with 48 physical cores of bits 51:0 for each die,
CLKTAB, LVL 16 to 255 and DEC 1 to 255 (spec 14, R333), at most four marks a rank (R335), the lengths of certificate and signature, and zero
bytes between the fields. -/
def recordFits (i : StartInfo) : Bool :=
  i.magic = 0x52434B53 && i.enmap.length = 4 && i.enmap.all (fun w => bitsBelow w 52 = 48 && w.toNat < 2 ^ 52) && i.clktab.length = 64 &&
    16 ≤ i.lvl && i.lvl ≤ 255 && 1 ≤ i.dec && i.dec ≤ 255 && i.erase.all (fun p => symbols p.2 ≤ 4) &&
    1 ≤ i.certLen && i.certLen ≤ 4094 && i.cert.length = i.certLen && 1 ≤ i.sigLen && i.sigLen ≤ 1534 && i.sig.length = i.sigLen && i.gaps

/-- Whether a start runs the built-in tests: a cold one, or a warm one when the health log marks a failure (spec 25, R460). -/
def State.testsRun (s : State) (warm : Bool) : Bool := !warm || s.healthOf hcFailMark ≠ 0

/-- The step at which a start fails, 0 for none: step 3 too when the record's VERSION is below the floor or the record is not valid; step 4
trains nothing in a warm start; step 6 fails on a lasting fault. -/
def State.failingStep (s : State) (i : StartInfo) (warm : Bool) : Nat :=
  let f := i.failStep
  if f = 2 then 2
  else if f = 3 || i.version < s.mgmt.floor || !recordFits i then 3
  else if f = 4 && !warm then 4
  else if s.testsRun warm && i.tests.any (·.2) then 6
  else if f = 7 then 7
  else 0

/-- The erasure tables at a start: ERASE with the marks of flash, ERASE alone where that would be more than four (spec 25, R459). -/
def eraseAt (erase marks : List (Nat × BitVec 36)) : List (Nat × BitVec 36) :=
  (erase ++ marks).foldl (fun m p =>
    let a := Sparse.get 0 erase p.1
    let b := a ||| Sparse.get 0 marks p.1
    Sparse.set 0 m p.1 (if 4 < symbols b then a else b)) []

/-- The union of two lists of marks. -/
def marksJoin (a b : List (Nat × BitVec 36)) : List (Nat × BitVec 36) :=
  b.foldl (fun m p => Sparse.set 0 m p.1 (Sparse.get 0 m p.1 ||| p.2)) a

/-- The ranks that a start reports for repair: ERASE and the marks of flash hold more than four (spec 25, R459). -/
def overMarked (erase marks : List (Nat × BitVec 36)) : List Nat :=
  ((marksJoin erase marks).filter (fun p => 4 < symbols p.2)).map (·.1)

/-- The link of a port after a start that has trained it: a cold start trains every port, a warm one those whose link went down (spec 25, R460). -/
def trained (i : StartInfo) (warm : Bool) (n : Nat) (x : Port) : Bool := (warm && x.up) || !i.deadLinks.contains n

/-- What survives a start: the health log, the flash, the domains, which are failed (spec 15, R351), far memory at a warm start, and
the model's own fields. A cold start leaves far memory zero. A start that stops before its end leaves far memory as it was. -/
def State.restart (s : State) (i : StartInfo) (warm : Bool) : State :=
  let fail := s.failingStep i warm
  let s := (s.fld.domains.map (·.1)).foldl State.failDomain s
  let keep := warm || fail ≠ 0
  let marks := marksJoin s.mgmt.flashMarks i.marks
  let got := fail = 0 || 3 < fail
  let base := State.reset
  let toTrain := s.fab.ports ++ i.deadLinks.filterMap (fun n => if 32 ≤ n || s.fab.ports.any (fun p => p.1 = n) then none else some (n, Port.reset))
  let ports := toTrain.foldl (fun m (p : Nat × Port) =>
    Sparse.set Port.reset m p.1 { Port.reset with up := if fail = 0 || 4 < fail then trained i warm p.1 p.2 else p.2.up }) []
  -- what the built-in tests find is classed when they run (spec 25, R465)
  let s := if s.testsRun warm && (fail = 0 || 4 < fail) then i.tests.foldl (fun s t => s.classed (8192 + t.1) t.2) s else s
  let excess := if got then overMarked i.erase marks else []
  let status := (if fail = 0 then 1 else 2 + 256 * fail) + (if warm then 4096 else 0)
  { base with
    own := { s.own with
      cur := 0, tried := none, storeLog := [], touched := [], corRel := [], deps := [], points := []
      outbox := s.own.outbox ++ excess.map Effect.repair }
    mem := if keep then s.mem.filter (fun (c : Host.Cell) => c.1 < 2 ^ 39) else []
    fld := { base.fld with domains := s.fld.domains.map (fun (d : Nat × Domain) => (d.1, { d.2 with fdecl := none, since := 0 })) }
    fab := { base.fab with ports := ports }
    mgmt := { base.mgmt with
      devstat := BitVec.ofNat 32 status
      recver := if got then i.version else 0
      serial := if got then i.serial else 0
      idpub := if got then i.idpub else 0
      health := s.mgmt.health
      healthNew := s.mgmt.healthNew
      flashMarks := marks
      enmap := if got then i.enmap else []
      clktab := if got then i.clktab else []
      repair := excess
      floor := if got then i.version else s.mgmt.floor }
    dram := { base.dram with
      erase := if got then eraseAt i.erase marks else []
      lanes := s.dram.lanes
      errors := if keep then s.dram.errors else []
      bad := if keep then s.dram.bad else []
      schemes := if keep then s.dram.schemes else []
      lvl := if got then i.lvl else base.dram.lvl
      dec := if got then i.dec else base.dram.dec } }

/-- POWER_ON: a cold start of a device without power. -/
def execPowerOn (i : StartInfo) (s : State) : Res := if s.power then .next s else .next (s.restart i false)

/-- COLD_START: DEVCTL 1. -/
def execColdStart (i : StartInfo) (s : State) : Res := if !s.power then .next s else .next (s.restart i false)

/-- WARM_START: DEVCTL 2. -/
def execWarmStart (i : StartInfo) (s : State) : Res := if !s.power then .next s else .next (s.restart i true)

/-- POWER_FAILURE: the device stops; counts not yet flushed are lost (spec 25, R464). -/
def execPowerFailure (s : State) : Res :=
  if s.power then .next { s with power := false, mgmt := { s.mgmt with healthNew := [] } } else .next s

/-! ### The dump (spec 25, R461 to R463) -/

/-- The registers of BAR0: offsets and bytes (spec 25, R451, R453 to R457; spec 17, R357; spec 21, R413, R418). -/
def State.bar0 (s : State) : List (Nat × List Byte) :=
  [(0x000, leBytes s.mgmt.devstat.toNat 4), (0x008, leBytes s.mgmt.recver.toNat 4), (0x010, leBytes s.mgmt.serial.toNat 8),
   (0x020, leBytes s.mgmt.idpub.toNat 32)] ++
  s.dist.queues.map (fun q => (0x1000 + 16 * q.1, leBytes q.2.toNat 16)) ++
  (List.range 256).map (fun o => (0x2000 + 8 * o, leBytes ((s.node o).carveNew + 256 * (s.node o).vopen.toNat) 8)) ++
  s.mgmt.regions.map (fun r => (0x2800 + 8 * r.1, leBytes r.2.toNat 8)) ++
  [(0x3000, leBytes s.fab.domst.toNat 4 ++ leBytes s.fab.kgen.toNat 4 ++ leBytes s.fab.dgup.toNat 4),
   (0x3040, leBytes s.fab.members.toNat 64)] ++
  s.fab.dctxmap.map (fun d => (0x3080 + 4 * d.1, leBytes d.2.toNat 4)) ++
  s.fab.ports.map (fun (p : Nat × Port) => (0x4000 + 64 * p.1,
    leBytes (p.2.state.toNat + 256 * p.2.reason.toNat) 4 ++ leBytes 0 4 ++ leBytes p.2.cfg.toNat 4 ++ leBytes 0 4 ++ leBytes p.2.swid.toNat 8 ++
      leBytes 0 8 ++ leBytes p.2.tagerr.toNat 4 ++ leBytes p.2.retry.toNat 4 ++ leBytes p.2.drop.toNat 4)) ++
  s.mgmt.ctxs.map (fun c => (0x8000 + c.1, [c.2])) ++
  s.mgmt.cqs.map (fun e => (0x10000 + 16 * e.1, leBytes e.2.header.toNat 8 ++ leBytes (if e.2.valid then 1 else 0) 1 ++ leBytes e.2.ctx.toNat 1))

/-- Bytes of BAR0 as a host reads them; what the layout does not name reads as zero (spec 25, R451). -/
def State.barBytes (s : State) (offset count : Nat) : List Byte :=
  Mem.bytes (s.bar0.foldl (fun (m : Mem) p => Mem.wrBytes m p.1 p.2) []) offset (min count (0x100000 - offset))

/-- A relocation entry's bytes (spec 14, R321). -/
def Reloc.bytes (r : Reloc) : List Byte :=
  leBytes (r.basepg.toNat + 2 ^ 40 * r.pages.toNat + 2 ^ 62 * r.st.toNat) 8 ++ leBytes r.save.toNat 8

/-- The groups of a core's partition in the order in which the dump counts its slots and registers (log entry 78), each with its place among the
group slots, the first of its vector registers in the file and its allocation. -/
def State.slotted (s : State) (c p : Nat) : List (Nat × Nat × Nat × Nat × Group) :=
  let l := s.groups.filter (fun (g : Nat × Group) => g.2.owner = c && g.2.part = p && !s.isAway g.2)
  (l.foldl (fun (r : Nat × Nat × List (Nat × Nat × Nat × Nat × Group)) g =>
    let (v, x) := match g.2.visitor, s.kernelOf g.2 with | none, some k => (8 * k.vregs, 8 * k.sregs) | _, _ => (16, 8)
    (r.1 + 1, r.2.1 + v, r.2.2 ++ [(32 * p + r.1, r.2.1, v, x, g.2)])) (0, 0, [])).2.2

/-- What the dump holds of a resident group: its vector and scalar registers and its context (spec 18, R391). -/
def groupRuns (p : Nat) (e : Nat × Nat × Nat × Nat × Group) : List (Nat × List Byte) :=
  let (n, first, v, x, g) := e
  [(0x200000 + 0x30000 * p + 128 * first, (List.range v).flatMap (fun r => laneList.flatMap (fun L => leBytes (g.rdV r L).toNat 4))),
   (0x2C0000 + 512 * n, (List.range x).flatMap (fun r => leBytes (g.rdS r).toNat 4)), (0x311000 + 1024 * n, contextBytes g (x / 8))]

/-- Where the dump has the uncorrectable words of a resident group. -/
def groupBad (p : Nat) (e : Nat × Nat × Nat × Nat × Group) : List Nat :=
  let (n, first, _, _, g) := e
  g.regs.vbad.map (fun k => 0x200000 + 0x30000 * p + 128 * first + 4 * k) ++ g.regs.sbad.map (fun r => 0x2C0000 + 512 * n + 4 * r)

/-- What the section of a core holds beside its slice (spec 25, R463). -/
def State.coreSection (s : State) (c : Nat) : List (Nat × List Byte) :=
  let n := s.node c
  ([0, 1, 2, 3] : List Nat).flatMap (fun p => (s.slotted c p).flatMap (groupRuns p)) ++
    n.acc.map (fun a => (0x2D0000 + 4 * a.1, leBytes a.2.toNat 4)) ++ n.tags.map (fun t => (0x310000 + t.1, leBytes t.2.toNat 1)) ++
    n.relocs.map (fun (r : Nat × Reloc) => (0x310040 + 16 * r.1, r.2.bytes)) ++
    (List.range n.wc.length).flatMap (fun i => match n.wc[i]? with
      | none => []
      | some l => l.bytes.map (fun b => (0x331000 + 144 * i + b.1, [b.2])))

/-- The uncorrectable words of a core, by their places in its section. -/
def State.coreBad (s : State) (c : Nat) : List Nat :=
  (s.dram.sram.filterMap (fun w => if 4 * w / 2 ^ 21 = 2 ^ 18 + c then some (4 * w % 2 ^ 21) else none)) ++
    ([0, 1, 2, 3] : List Nat).flatMap (fun p => (s.slotted c p).flatMap (groupBad p)) ++ (s.node c).accBad.map (fun k => 0x2D0000 + 4 * k)

/-- The far-memory key of a byte of a domain's cells. -/
def Domain.byteKey (d : Domain) (i : Nat) : Nat :=
  d.pages.getD ((d.base + i) / 65536 - d.base / 65536) 0 * 65536 + (d.base + i) % 65536

/-- The field section: bytes with the far-memory sector that each comes from. -/
def State.fieldSection (s : State) : List (Option Nat × Byte) :=
  s.fld.domains.flatMap (fun (p : Nat × Domain) =>
    p.2.desc.map (fun b => (none, b)) ++
      (List.range (p.2.ncell * p.2.width)).map (fun i => (some (p.2.byteKey i / 32), Mem.rd s.mem (p.2.byteKey i))))

/-- The runs of the frame whose contents the spec names but does not lay out, or whose place no group or line has (log entry 78): the rest of the
register files, group contexts and write-combining buffers of the cores, the stack cores and the delivery contexts. -/
def openRuns : List (Nat × Nat) :=
  (List.range 192).flatMap (fun c => [(0x300000 + 0x400000 * c, 0xD0000), (0x411000 + 0x400000 * c, 0x22400)]) ++
    [(0x30100000, 0x4000000), (0x34200000, 0xF00000)]

/-- The places of the frame that the dump writes. -/
def dumped (field pos : Nat) : Bool :=
  pos < 0x100000 ||
    (0x100000 ≤ pos && pos < 0x30100000 &&
      ((pos - 0x100000) % 0x400000 < 0x310840 ||
        (0x311000 ≤ (pos - 0x100000) % 0x400000 && (pos - 0x100000) % 0x400000 < 0x333400))) ||
    (0x30100000 ≤ pos && pos < 0x35100000 + field)

/-- The numbers of a list in rising order, each once. -/
def rising (l : List Nat) : List Nat := (l.foldl (fun m n => Sparse.put m n ()) ([] : List (Nat × Unit))).map (·.1)

/-- The dump in its frame: what is laid out, over free bytes for the rest; a unit of 32 bytes that cannot be read is zero and is listed. -/
def State.dump (s : State) (frame source : Nat) : State :=
  let section_ := s.fieldSection
  let cut := 0x8000000 < section_.length
  let field := section_.take 0x8000000
  let units := (List.range ((field.length + 31) / 32)).map (fun j => (j, (field.drop (32 * j)).take 32))
  let cellsBad := units.filter (fun u => u.2.any (fun b => match b.1 with | none => false | some k => s.ecc ownIl k = .bad))
  let at_ (c o : Nat) : Nat := 0x100000 + 0x400000 * c + o
  let bad := rising ((List.range 192).flatMap (fun c => (s.coreBad c).map (fun o => at_ c o / 32)) ++ cellsBad.map (fun u => 0x35100000 / 32 + u.1))
  let listed := bad.take 32768
  let header := leBytes 0x504D5544 4 ++ leBytes (if cut then 1 else 0) 4 ++ leBytes s.clock.toNat 8 ++ leBytes source 4 ++
    leBytes listed.length 4 ++ leBytes 0 8 ++ listed.flatMap (fun u => leBytes (32 * u) 8)
  let slices := (s.mem.filter (fun (c : Host.Cell) => 2 ^ 39 ≤ c.1)).map (fun (c : Host.Cell) =>
    (at_ ((c.1 - 2 ^ 39) / 2 ^ 21) ((c.1 - 2 ^ 39) % 2 ^ 21), [c.2]))
  -- the shadow pool, whose layout the spec leaves open, where a block of the core uses it
  let pools := (List.range 192).flatMap (fun c => (s.blocks.filter (fun (b : Nat × Block) => b.2.core = c)).flatMap (fun b =>
    b.2.pool.map (fun r => (at_ c (0x1C8000 + r.1), r.2))))
  let free := (openRuns ++ pools).map (fun (r : Nat × Nat) => (r.1, s.freeBytes (frame + r.1) r.2))
  let cores := (List.range 192).flatMap (fun c => (s.coreSection c).map (fun p => (at_ c p.1, p.2)))
  let bar := s.bar0.map (fun p => (0x34100000 + p.1, p.2))
  let cells := units.map (fun u => (0x35100000 + 32 * u.1, u.2.map (·.2)))
  let blank := bad.map (fun u => (32 * u, List.replicate 32 (0 : Byte)))
  let kept := s.mem.filter (fun (c : Host.Cell) => c.1 < frame || !dumped field.length (c.1 - frame))
  let stays (sector : Nat) : Bool := sector * 32 < frame || !dumped field.length (sector * 32 - frame)
  let written := [(0, header)] ++ slices ++ free ++ cores ++ bar ++ cells ++ blank
  { s with
    mem := written.foldl (fun (m : Mem) p => Mem.wrBytes m (frame + p.1) p.2) kept
    dram := { s.dram with errors := s.dram.errors.filter (fun (e : Nat × BitVec 36) => stays e.1), bad := s.dram.bad.filter stays } }

/-- A fatal error of a device that operates: the health log is flushed, the dump written, and nothing of the device moves on. -/
def State.fatal (s : State) (source : Nat) : State :=
  let status (n : Nat) (t : State) : State := { t with mgmt := { t.mgmt with devstat := t.mgmt.devstat &&& ~~~7 ||| BitVec.ofNat 32 n } }
  let s := status 3 s.flushHealth
  let frame := (Sparse.get 0 s.mgmt.regions 3).toNat % 2 ^ 39
  status 4 (if frame = 0 then s else s.dump frame source)

/-- FATAL_ERROR (spec 25, R461, R462): `source` is an owner code or 0xFFFF. -/
def execFatalError (source : Nat) (s : State) : Res := .next (if s.power && s.operating then s.fatal source else s)

end Sys2Proof.Machine
end

