-- ==== Sys2Proof/Machine/Debug.lean ====
section
/-! DEFINITION. When a group may issue, and what the debug service does: breakpoints (spec 16, R354; spec 19, R405), resuming
(R407), attaching (spec 12, R478) and stepping (spec 16, R355). -/

namespace Sys2Proof.Machine

open Sys2Proof

/-- Whether a move that brings a group into the active set is still under way (spec 17, R375). -/
def State.moving (s : State) (g : Group) : Bool :=
  (s.node g.owner).moves.any (fun e => e.2.2 = g.sched.order && s.clock.toNat < e.2.1 + 4)

/-- Whether a group may issue: it is active and no longer being moved there, has live lanes, is not halted or asleep, waits neither for the origin checks of a transfer
(spec 08, R179) nor at a rendezvous latch (spec 09, R194), and its core is not clock-gated. -/
def State.canIssue (s : State) (g : Group) : Bool :=
  g.sched.active && !s.moving g && g.ctl.livem ≠ 0 && g.sched.skidLeft ≠ some 0 && !g.sched.dhalt && !(s.node g.owner).gated &&
    (match g.sched.hold with | .sleep _ | .checks _ | .latch _ _ => false | _ => true) &&
    (match s.blockOf g with | none => false | some b => g.visitor.isSome || (!b.uncorr && b.saved.isNone)) && s.operating

/-- Whether an armed comparator stops a group at its PC: one for every block and group, or for a block of a grid, or a group (spec 19, R405; spec
20, R410), while a session is attached to its context, as brk asks (spec 16, R354; spec 12, R278, R478). -/
def State.breakHere (s : State) (g : Group) : Bool :=
  !g.sched.passBp && g.visitor.isNone && (s.mgmt.debug).contains g.ctx.toNat &&
    s.mgmt.breaks.any (fun b => b.1 = g.ctl.pc.toNat &&
      (match b.2.1, s.blockOf g, s.gridOf g with
        | none, _, _ => true
        | some n, some x, some y => y.gridid.toNat = n.1 && x.lin = n.2
        | some _, _, _ => false) &&
      (match b.2.2 with | none => true | some i => g.index = i))

/-- BREAKPOINT: the block halts before the instruction issues. -/
def execBreakpoint (gid : Nat) (s : State) : Res :=
  match s.group gid with
  | none => .next s
  | some g => if s.canIssue g && s.breakHere g then .next (s.debugHalt gid g g.ctl.pc) else .next s

/-- Whether the debugger's step is over: the group has stopped again, and each register that the instruction marked empty is full, or 1 ms
has passed (spec 16, R355). -/
def State.stepOver (s : State) : Bool :=
  match s.mgmt.stepping with
  | none => true
  | some (gid, t, v, x) =>
    match s.group gid with
    | none => true
    | some g => g.sched.dhalt && ((g.regs.vempty &&& ~~~v = 0 && g.regs.sempty &&& ~~~x = 0) || t ≤ s.clock.toNat)

/-- DEBUG_RESUME: the groups go on, a group that the debugger stopped past a breakpoint at its PC; WAKEWHY is rewritten with bit 6 and what
arrives in the same cycle (spec 01, R36). A halt of another kind holds on. -/
def execDebugResume (block : Nat) (s : State) : Res :=
  match s.block block with
  | none => .next s
  | some b =>
    if !s.operating || !b.dhalt || b.saved.isSome || !s.stepOver then .next s
    else
      let left (g : Group) : Option Nat := if b.evicting || (b.thalt && b.hgrp ≠ g.index) then some 0 else none
      let s := s.mapGroups (fun _ g => if g.block = block && g.visitor.isNone then
          { g with sched := { g.sched with dhalt := false, passBp := g.sched.dhalt, skidLeft := left g } }
        else if g.block = block then { g with sched := { g.sched with dhalt := false } } else g)
      let s := { s with mgmt := { s.mgmt with stepping := none } }.setBlock block { b with dhalt := false }
      .next (s.modNode b.core (fun n => { n with gated := false, waking := none, wakewhy := n.waking.getD 0 ||| 64 }))

/-- CYDB_ATTACH: only to a context whose entry has DEBUG set; a session names its comparators anew by attaching again (log entry 79). -/
def execCydbAttach (ctx : Nat) (breaks : List (Nat × Option (Nat × Nat) × Option Nat)) (s : State) : Res :=
  let fl := s.ctxField (BitVec.ofNat 8 ctx) 56 1
  if !s.operating || ctx = 0 || 256 ≤ ctx || fl % 2 = 0 || fl / 4 % 2 = 0 then .next s
  else .next { s with mgmt := { s.mgmt with debug := ctx :: (s.mgmt.debug).filter (· ≠ ctx), breaks := breaks } }

/-- CYDB_DETACH. With the last session its comparators go (log entry 79). -/
def execCydbDetach (ctx : Nat) (s : State) : Res :=
  if !(s.mgmt.debug).contains ctx then .next s
  else
    let l := (s.mgmt.debug).filter (· ≠ ctx)
    .next { s with mgmt := { s.mgmt with debug := l, breaks := if l.isEmpty then [] else s.mgmt.breaks } }

/-- CYDB_STEP: a group of a block that is halted for the debugger may issue one instruction. A core that is gated is un-gated for it, and WAKEWHY
stays as it is: the spec does not call that a wake (log entry 79). -/
def execCydbStep (gid : Nat) (s : State) : Res :=
  match s.group gid with
  | none => .next s
  | some g =>
    match s.block g.block with
    | none => .next s
    | some b =>
      let halted := g.sched.dhalt || g.sched.skidLeft = some 0
      if !s.operating || !b.dhalt || b.saved.isSome || g.visitor.isSome || !halted || !s.stepOver then .next s
      else
        let s := s.setGroup gid { g with sched := { g.sched with dhalt := false, skidLeft := none, passBp := true, active := true } }
        let s := { s with
          own := { s.own with cur := gid }
          mgmt := { s.mgmt with stepping := some (gid, s.clock.toNat + msCycles, g.regs.vempty, g.regs.sempty) } }
        .next (s.modNode g.owner (fun n => { n with gated := false }))

/-- What the step of a group must wait for is what its instruction marks empty: the registers that are empty when it is about to issue are noted
(spec 16, R355). -/
def State.noteStep (s : State) (gid : Nat) (g : Group) : State :=
  match s.mgmt.stepping with
  | some (i, t, _, _) =>
    if i = gid && g.sched.passBp then { s with mgmt := { s.mgmt with stepping := some (gid, t, g.regs.vempty, g.regs.sempty) } } else s
  | none => s

/-- The group that the debugger steps stops again once it has issued its instruction, or stands at a handler; one whose instruction does
not issue stops when 1 ms has passed (spec 16, R355). -/
def State.endStep (s : State) : State :=
  match s.mgmt.stepping with
  | none => s
  | some (gid, t, _, _) =>
    match s.group gid with
    | none => { s with mgmt := { s.mgmt with stepping := none } }
    | some g => if g.sched.dhalt || (g.sched.passBp && s.clock.toNat < t) then s else s.setGroup gid { g with sched := { g.sched with dhalt := true } }

end Sys2Proof.Machine
end

