-- ==== Sys2Proof/Machine/Lane.lean ====
section
/-! DEFINITION. The lane exchange cells (spec 06, R140 to R144) and the keyed generator cells (spec 12, R280). -/

namespace Sys2Proof.Machine

open Sys2Proof

/-- The segment width in SEG (spec 06, R140). -/
def segOf (f : Fields) : Nat := 32 / 2 ^ f.mf 4 2

/-- An exchange: lane L of D takes A of lane src L. -/
def exchange (r : Row) (f : Fields) (s : State) (src : State → Group → Nat → Nat) : Res :=
  issue r f s fun gid g =>
    .next ((s.putW gid g f.d.toNat (fun L => s.readLane g f.a.toNat (src s g L))).advance gid f.bytes)

/-- VSHFL, VSHUP, VSHDN, VSHXOR, VBCAST (spec 06, R140). -/
def execVshfl (f : Fields) (s : State) : Res :=
  exchange (rowVshfl f) f s fun s g L => L / segOf f * segOf f + (s.opB g (rowVshfl f) f L).toNat % segOf f
def execVshup (f : Fields) (s : State) : Res :=
  exchange (rowVshup f) f s fun s g L =>
    let n := (s.opB g (rowVshup f) f L).toNat
    if n < segOf f && L / segOf f * segOf f + n ≤ L then L - n else L
def execVshdn (f : Fields) (s : State) : Res :=
  exchange (rowVshdn f) f s fun s g L =>
    let n := (s.opB g (rowVshdn f) f L).toNat
    if n < segOf f && L + n < L / segOf f * segOf f + segOf f then L + n else L
def execVshxor (f : Fields) (s : State) : Res :=
  exchange (rowVshxor f) f s fun s g L => L ^^^ ((s.opB g (rowVshxor f) f L).toNat % segOf f)
def execVbcast (f : Fields) (s : State) : Res :=
  exchange (rowVbcast f) f s fun s g L => L / segOf f * segOf f + (s.opB g (rowVbcast f) f 0).toNat % segOf f

/-- QXCH (spec 06, R144). -/
def execQxch (f : Fields) (s : State) : Res :=
  exchange (rowQxch f) f s fun _ _ L =>
    match f.mf 3 2 with
    | 0 => L ^^^ 1
    | 1 => L ^^^ 2
    | 2 => L ^^^ 3
    | _ => L / 4 * 4 + f.mf 5 4

/-- VBALLOT (spec 06, R141). -/
def execVballot (f : Fields) (s : State) : Res :=
  issue (rowVballot f) f s fun gid g =>
    .next ((s.putDst gid f.d (g.ctl.exm &&& maskOf (fun L => s.readV g f.a.toNat L ≠ 0))).advance gid f.bytes)

/-- VPOPM (spec 06, R141). -/
def execVpopm (f : Fields) (s : State) : Res :=
  issue (rowVpopm f) f s fun gid g =>
    let a := s.readS g f.a
    .next ((s.putW gid g f.d.toNat (fun L =>
      BitVec.ofNat 32 (popcount (a &&& maskOf (fun M => M < L || (f.m 2 && M = L)))))).advance gid f.bytes)

/-- The combination of vprefix and vreduce (spec 06, R142). -/
def combine (f : Fields) (a b : Word) : Word :=
  if f.m 5 then
    (match f.mf 7 6 with
      | 0 => fadd (rnd f) a b
      | 1 => fminmax false a b
      | _ => fminmax true a b)
  else
    (match f.mf 7 6 with
      | 0 => a + b
      | 1 => minMax (f.m 4) false a b
      | _ => minMax (f.m 4) true a b)

/-- x op y with an absent operand (spec 06, R143). -/
def combineOpt (op : Word → Word → Word) : Option Word → Option Word → Option Word
  | some a, some b => some (op a b)
  | some a, none => some a
  | none, b => b

/-- The active lanes' values. -/
def present (s : State) (g : Group) (r : Nat) : List (Option Word) :=
  laneList.map (fun L => if g.ctl.exm.getLsbD L then some (s.readV g r L) else none)

def prefixStage (op : Word → Word → Word) (x : List (Option Word)) (d : Nat) : List (Option Word) :=
  laneList.map (fun L => if d ≤ L then combineOpt op (x.getD (L - d) none) (x.getD L none) else x.getD L none)

def reduceStage (op : Word → Word → Word) (x : List (Option Word)) (d : Nat) : List (Option Word) :=
  laneList.map (fun L =>
    if L % (2 * d) = 0 then combineOpt op (x.getD L none) (x.getD (L + d) none) else x.getD L none)

/-- VPREFIX (spec 06, R142, R143): helper lanes receive 0. -/
def execVprefix (f : Fields) (s : State) : Res :=
  issue (rowVprefix f) f s fun gid g =>
    let x := ([1, 2, 4, 8, 16] : List Nat).foldl (prefixStage (combine f)) (present s g f.a.toNat)
    let at_ (L : Nat) : Word := (x.getD L none).getD 0
    .next ((s.putW gid g f.d.toNat (fun L =>
      if !g.ctl.exm.getLsbD L then 0
      else if f.m 8 then
        (match (lanesOf g.ctl.exm).filter (· < L) |>.getLast? with | none => 0 | some M => at_ M)
      else at_ L)).advance gid f.bytes)

/-- VREDUCE (spec 06, R142, R143). -/
def execVreduce (f : Fields) (s : State) : Res :=
  issue (rowVreduce f) f s fun gid g =>
    let x := ([1, 2, 4, 8, 16] : List Nat).foldl (reduceStage (combine f)) (present s g f.a.toNat)
    .next ((s.putDst gid f.d ((x.getD 0 none).getD 0)).advance gid f.bytes)

/-- RNDK, SRNDK (spec 12, R280). -/
def execRndk (f : Fields) (s : State) : Res := vector2 (rowRndk f) gen f s
def execSrndk (f : Fields) (s : State) : Res := scalar2 (rowSrndk f) gen f s

end Sys2Proof.Machine
end

