-- ==== Sys2Proof/Machine/Packed.lean ====
section
/-! DEFINITION. The packed narrow, quantisation and Hadamard cells (spec 09, R214 to R220). -/

namespace Sys2Proof.Machine

open Sys2Proof

/-- D ← C + the exact sum of element products (spec 09, R214). -/
def dot (f : Fields) (w : Nat) (ta tb : Nat) (fl : Nat → Fmt) (a b c : Word) : Word :=
  if ta < 2 then
    BitVec.ofInt 32 (c.toInt + ((List.range (32 / w)).map (fun i =>
      viewInt (ta = 1) (elem w a i) * viewInt (tb = 1) (elem w b i))).sum)
  else
    let p := (List.range (32 / w)).map (fun i => ((fl ta).val (elem w a i).toNat).mul ((fl tb).val (elem w b i).toNat))
    fenc (f.mf 6 5) ((fval c).add (f.mf 6 5) (chunkSum (f.mf 6 5) p))

/-- VDOT8, VDOT4 (spec 09, R214). -/
def execVdot8 (f : Fields) (s : State) : Res :=
  vector3 (rowVdot8 f) (dot f 8 (f.mf 2 1) (f.mf 4 3) (fun t => if t = 2 then e4m3 else e5m2)) f s
def execVdot4 (f : Fields) (s : State) : Res :=
  vector3 (rowVdot4 f) (dot f 4 (f.mf 2 1) (f.mf 4 3) (fun _ => e2m1)) f s

/-- VSCALE (spec 09, R215). -/
def execVscale (f : Fields) (s : State) : Res :=
  vector2 (rowVscale f) (fun a b =>
    let v := (fval a).mul (e8m0 (b.toNat % 256))
    fenc (rnd f) (if f.m 4 then v.mul (e8m0 (b.toNat / 256 % 256)) else v)) f s

/-- VAMAX (spec 09, R216). -/
def execVamax (f : Fields) (s : State) : Res :=
  issue (rowVamax f) f s fun gid g =>
    let l := (lanesOf g.ctl.exm).map (fun L => s.readV g f.a.toNat L)
    let m := if l.any isNan then 0x7FC00000#32
      else l.foldl (fun m x => if m.toNat < x.toNat % 2 ^ 31 then BitVec.ofNat 32 (x.toNat % 2 ^ 31) else m) 0
    .next ((s.putW gid g f.d.toNat (fun _ => m)).advance gid f.bytes)

/-- The scale byte of a magnitude (spec 09, R216). -/
def scaleByte (em : Nat) (a : Word) : Word :=
  match fval (a &&& 0x7FFFFFFF) with
  | .fin _ m e =>
    if m = 0 then 0 else BitVec.ofInt 32 (clamp 0 254 (e + ((Nat.log2 m : Nat) : Int) - (em : Int) + 127))
  | _ => 255

/-- VSC8 (spec 09, R216). -/
def execVsc8 (f : Fields) (s : State) : Res :=
  vector1 (rowVsc8 f) (scaleByte (match f.mf 4 1 with | 3 => 8 | 4 => 15 | 5 => 2 | _ => 6)) f s

/-- Stochastic rounding of a finite value to a format, with random word r (spec 04, R89). -/
def Fmt.stoch (f : Fmt) (r : Nat) (neg : Bool) (m : Nat) (e : Int) : Nat :=
  if m = 0 then f.sign neg 0
  else
    let emin : Int := 1 - (f.bias : Int)
    let top : Int := max (e + ((Nat.log2 m : Nat) : Int)) emin
    let shift : Int := top - f.mant - e
    let den : Nat := if shift ≤ 0 then 1 else 2 ^ shift.toNat
    let num : Nat := if shift ≤ 0 then m * 2 ^ (-shift).toNat else m
    let rem := num % den
    let mag : Nat := ((top - emin).toNat) * 2 ^ f.mant + num / den
    if f.maxMag < mag || (mag = f.maxMag && rem ≠ 0) then f.round 0 neg m e false
    else if rem = 0 then f.sign neg mag
    else if neg then f.sign neg (if r < (den - rem) * 2 ^ 32 / den then mag else mag + 1)
    else f.sign neg (if r < rem * 2 ^ 32 / den then mag + 1 else mag)

/-- Stochastic rounding to an integer. -/
def stochInt (r : Nat) (neg : Bool) (m : Nat) (e : Int) : Int :=
  if 0 ≤ e then (if neg then -((m * 2 ^ e.toNat : Nat) : Int) else (m * 2 ^ e.toNat : Nat))
  else
    let d := 2 ^ (-e).toNat
    let q : Int := (m / d : Nat)
    let rem := m % d
    if rem = 0 then (if neg then -q else q)
    else if neg then (if r < (d - rem) * 2 ^ 32 / d then -q else -(q + 1))
    else if r < rem * 2 ^ 32 / d then q + 1 else q

/-- The float format of a code of R91. -/
def codeFmt (c : Nat) : Fmt := match c with | 1 => bf16 | 2 => fp16 | 3 => e4m3 | 4 => e5m2 | _ => e2m1

/-- One quantised element (spec 09, R217). -/
def quantise (c : Nat) (sr : Bool) (r : Nat) (a : Word) : Nat :=
  if codeInt c then
    let w := codeWidth c
    let x : Int := match fval a with
      | .fin neg m e => if sr then clamp (intMin false w) (intMax false w) (stochInt r neg m e)
        else toIntSat 0 0 false w (fval a)
      | v => toIntSat 0 0 false w v
    (BitVec.ofInt w x).toNat
  else
    match fval a with
    | .fin neg m e => if sr then (codeFmt c).stoch r neg m e else (codeFmt c).round 0 neg m e false
    | v => (codeFmt c).enc 0 v

/-- VQNT (spec 09, R217). -/
def execVqnt (f : Fields) (s : State) : Res :=
  issue (rowVqnt f) f s fun gid g =>
    let c := f.mf 4 1
    let w := codeWidth c
    .next ((s.putW gid g f.d.toNat (fun L =>
      setBits (s.readV g f.d.toNat L) (f.mf 7 5 * w) w
        (quantise c (f.m 8) (gen (s.readV g f.c.toNat L) (s.readV g f.b.toNat L)).toNat (s.readV g f.a.toNat L)))).advance
          gid f.bytes)

/-- VDEQ (spec 09, R218). -/
def execVdeq (f : Fields) (s : State) : Res :=
  vector2 (rowVdeq f) (fun a b =>
    let c := f.mf 5 2
    fenc 0 ((codeVal c (a.toNat / 2 ^ (f.mf 8 6 * codeWidth c) % 2 ^ codeWidth c)).mul (e8m0 (b.toNat % 256)))) f s

/-- VPK8, VUPK8, VPK4, VUPK4 (spec 09, R219). -/
def execVpk8 (f : Fields) (s : State) : Res :=
  vector2 (rowVpk8 f) (fun a b => ofElems 8 (fun i =>
    saturate (f.m 3) 8 (viewInt (f.m 2) (elem 16 (if i < 2 then a else b) (i % 2))))) f s
def execVupk8 (f : Fields) (s : State) : Res :=
  vector2 (rowVupk8 f) (fun a b => ofElems 16 (fun i =>
    BitVec.ofInt 16 (viewInt (f.m 2) (elem 8 a (2 * (b.toNat % 2) + i))))) f s
def execVpk4 (f : Fields) (s : State) : Res :=
  vector2 (rowVpk4 f) (fun a b => ofElems 4 (fun i =>
    saturate (f.m 3) 4 (viewInt (f.m 2) (elem 8 (if i < 4 then a else b) (i % 4))))) f s
def execVupk4 (f : Fields) (s : State) : Res :=
  vector2 (rowVupk4 f) (fun a b => ofElems 8 (fun i =>
    BitVec.ofInt 8 (viewInt (f.m 2) (elem 4 a (4 * (b.toNat % 2) + i))))) f s

/-- The inverse transform (spec 09, R220): the stages, × 2^−4, then the sign flips; a NaN stays the canonical one (spec 04, R79). -/
def hadamardInv (seed : Word) (x : List Word) : List Word :=
  let y := (([1, 2, 4, 8, 16, 32, 64] : List Nat).foldl hadStage x).map (fun y => fmul 0 y 0x3D800000#32)
  (List.range y.length).map (fun j =>
    if (gen (BitVec.ofNat 32 j) seed).getLsbD 0 && !isNan (y.getD j 0) then y.getD j 0 ^^^ 0x80000000#32 else y.getD j 0)

/-- VHAD (spec 09, R220): all 32 lanes of four registers whenever W is not empty; an absent lane reads as zero and is not written (spec 12,
R268). -/
def execVhad (f : Fields) (s : State) : Res :=
  issue (rowVhad f) f s fun gid g =>
    if g.wset = 0 then .next (s.advance gid f.bytes)
    else
      let x := (List.range 128).map (fun j => s.readLane g (f.a.toNat + j / 32) (j % 32))
      let seed : Word := (s.readSP g f.b).truncate 32
      let y := if f.m 1 then hadamardInv seed x else hadamard seed x
      .next (((List.range 4).foldl (fun s i =>
        s.writeV gid (f.d.toNat + i) (g.present.map (fun L => (L, y.getD (32 * i + L) 0)))) s).advance gid f.bytes)

end Sys2Proof.Machine
end

