-- ==== Sys2Proof/Machine/Dispatch.lean ====
section
/-! DEFINITION. The meaning of each instruction and step: one arm per constructor of Instr. -/

namespace Sys2Proof.Machine

open Sys2Proof

def exec (i : Instr) (s : State) : Host.Outcome State Fault Refusal :=
  match i with
  | .nop f => Sys2Proof.Machine.execNop f s
  | .exit f => Sys2Proof.Machine.execExit f s
  | .exitm f => Sys2Proof.Machine.execExitm f s
  | .br f => Sys2Proof.Machine.execBr f s
  | .bz f => Sys2Proof.Machine.execBz f s
  | .bnz f => Sys2Proof.Machine.execBnz f s
  | .bmz f => Sys2Proof.Machine.execBmz f s
  | .bmnz f => Sys2Proof.Machine.execBmnz f s
  | .bvany f => Sys2Proof.Machine.execBvany f s
  | .bvall f => Sys2Proof.Machine.execBvall f s
  | .bdiv f => Sys2Proof.Machine.execBdiv f s
  | .bdivw f => Sys2Proof.Machine.execBdivw f s
  | .bdivs f => Sys2Proof.Machine.execBdivs f s
  | .join f => Sys2Proof.Machine.execJoin f s
  | .joinw f => Sys2Proof.Machine.execJoinw f s
  | .jmp f => Sys2Proof.Machine.execJmp f s
  | .jmpi f => Sys2Proof.Machine.execJmpi f s
  | .call f => Sys2Proof.Machine.execCall f s
  | .calli f => Sys2Proof.Machine.execCalli f s
  | .ret f => Sys2Proof.Machine.execRet f s
  | .sadd f => Sys2Proof.Machine.execSadd f s
  | .ssub f => Sys2Proof.Machine.execSsub f s
  | .smul f => Sys2Proof.Machine.execSmul f s
  | .smulh f => Sys2Proof.Machine.execSmulh f s
  | .sand f => Sys2Proof.Machine.execSand f s
  | .sor f => Sys2Proof.Machine.execSor f s
  | .sxor f => Sys2Proof.Machine.execSxor f s
  | .sshl f => Sys2Proof.Machine.execSshl f s
  | .sshr f => Sys2Proof.Machine.execSshr f s
  | .smin f => Sys2Proof.Machine.execSmin f s
  | .smax f => Sys2Proof.Machine.execSmax f s
  | .sdiv f => Sys2Proof.Machine.execSdiv f s
  | .srem f => Sys2Proof.Machine.execSrem f s
  | .smov f => Sys2Proof.Machine.execSmov f s
  | .snot f => Sys2Proof.Machine.execSnot f s
  | .sclz f => Sys2Proof.Machine.execSclz f s
  | .spopc f => Sys2Proof.Machine.execSpopc f s
  | .sbrev f => Sys2Proof.Machine.execSbrev f s
  | .sext f => Sys2Proof.Machine.execSext f s
  | .scmp f => Sys2Proof.Machine.execScmp f s
  | .ssel f => Sys2Proof.Machine.execSsel f s
  | .sadd64 f => Sys2Proof.Machine.execSadd64 f s
  | .ssub64 f => Sys2Proof.Machine.execSsub64 f s
  | .smul64 f => Sys2Proof.Machine.execSmul64 f s
  | .sshl64 f => Sys2Proof.Machine.execSshl64 f s
  | .sshr64 f => Sys2Proof.Machine.execSshr64 f s
  | .smov64 f => Sys2Proof.Machine.execSmov64 f s
  | .sbfe f => Sys2Proof.Machine.execSbfe f s
  | .sbfi f => Sys2Proof.Machine.execSbfi f s
  | .slea f => Sys2Proof.Machine.execSlea f s
  | .vadd f => Sys2Proof.Machine.execVadd f s
  | .vsub f => Sys2Proof.Machine.execVsub f s
  | .vmul f => Sys2Proof.Machine.execVmul f s
  | .vmulh f => Sys2Proof.Machine.execVmulh f s
  | .vand f => Sys2Proof.Machine.execVand f s
  | .vor f => Sys2Proof.Machine.execVor f s
  | .vxor f => Sys2Proof.Machine.execVxor f s
  | .vshl f => Sys2Proof.Machine.execVshl f s
  | .vshr f => Sys2Proof.Machine.execVshr f s
  | .vmin f => Sys2Proof.Machine.execVmin f s
  | .vmax f => Sys2Proof.Machine.execVmax f s
  | .vabsd f => Sys2Proof.Machine.execVabsd f s
  | .vadds f => Sys2Proof.Machine.execVadds f s
  | .vsubs f => Sys2Proof.Machine.execVsubs f s
  | .vmad f => Sys2Proof.Machine.execVmad f s
  | .vsel f => Sys2Proof.Machine.execVsel f s
  | .vbfe f => Sys2Proof.Machine.execVbfe f s
  | .vbfi f => Sys2Proof.Machine.execVbfi f s
  | .vmov f => Sys2Proof.Machine.execVmov f s
  | .vnot f => Sys2Proof.Machine.execVnot f s
  | .vneg f => Sys2Proof.Machine.execVneg f s
  | .vabs f => Sys2Proof.Machine.execVabs f s
  | .vclz f => Sys2Proof.Machine.execVclz f s
  | .vpopc f => Sys2Proof.Machine.execVpopc f s
  | .vbrev f => Sys2Proof.Machine.execVbrev f s
  | .vext f => Sys2Proof.Machine.execVext f s
  | .vcmp f => Sys2Proof.Machine.execVcmp f s
  | .vcmpm f => Sys2Proof.Machine.execVcmpm f s
  | .vadd64 f => Sys2Proof.Machine.execVadd64 f s
  | .vmulw f => Sys2Proof.Machine.execVmulw f s
  | .vaddF32 f => Sys2Proof.Machine.execVaddF32 f s
  | .vsubF32 f => Sys2Proof.Machine.execVsubF32 f s
  | .vmulF32 f => Sys2Proof.Machine.execVmulF32 f s
  | .vminF32 f => Sys2Proof.Machine.execVminF32 f s
  | .vmaxF32 f => Sys2Proof.Machine.execVmaxF32 f s
  | .vdiv f => Sys2Proof.Machine.execVdiv f s
  | .vfma f => Sys2Proof.Machine.execVfma f s
  | .vfms f => Sys2Proof.Machine.execVfms f s
  | .vabsF32 f => Sys2Proof.Machine.execVabsF32 f s
  | .vnegF32 f => Sys2Proof.Machine.execVnegF32 f s
  | .vsqrt f => Sys2Proof.Machine.execVsqrt f s
  | .vrcp f => Sys2Proof.Machine.execVrcp f s
  | .vrsq f => Sys2Proof.Machine.execVrsq f s
  | .vexp2 f => Sys2Proof.Machine.execVexp2 f s
  | .vlog2 f => Sys2Proof.Machine.execVlog2 f s
  | .vrnd f => Sys2Proof.Machine.execVrnd f s
  | .vclass f => Sys2Proof.Machine.execVclass f s
  | .vcmpF32 f => Sys2Proof.Machine.execVcmpF32 f s
  | .vcmpmF32 f => Sys2Proof.Machine.execVcmpmF32 f s
  | .vadd2 f => Sys2Proof.Machine.execVadd2 f s
  | .vmul2 f => Sys2Proof.Machine.execVmul2 f s
  | .vfma2 f => Sys2Proof.Machine.execVfma2 f s
  | .vcvt f => Sys2Proof.Machine.execVcvt f s
  | .vcvti f => Sys2Proof.Machine.execVcvti f s
  | .vcvtf f => Sys2Proof.Machine.execVcvtf f s
  | .vcvtq f => Sys2Proof.Machine.execVcvtq f s
  | .vcvtqf f => Sys2Proof.Machine.execVcvtqf f s
  | .vcvtn f => Sys2Proof.Machine.execVcvtn f s
  | .vdot8 f => Sys2Proof.Machine.execVdot8 f s
  | .vdot4 f => Sys2Proof.Machine.execVdot4 f s
  | .vscale f => Sys2Proof.Machine.execVscale f s
  | .vqnt f => Sys2Proof.Machine.execVqnt f s
  | .vdeq f => Sys2Proof.Machine.execVdeq f s
  | .vhad f => Sys2Proof.Machine.execVhad f s
  | .vpk8 f => Sys2Proof.Machine.execVpk8 f s
  | .vupk8 f => Sys2Proof.Machine.execVupk8 f s
  | .vpk4 f => Sys2Proof.Machine.execVpk4 f s
  | .vupk4 f => Sys2Proof.Machine.execVupk4 f s
  | .vamax f => Sys2Proof.Machine.execVamax f s
  | .vsc8 f => Sys2Proof.Machine.execVsc8 f s
  | .vshfl f => Sys2Proof.Machine.execVshfl f s
  | .vshup f => Sys2Proof.Machine.execVshup f s
  | .vshdn f => Sys2Proof.Machine.execVshdn f s
  | .vshxor f => Sys2Proof.Machine.execVshxor f s
  | .vbcast f => Sys2Proof.Machine.execVbcast f s
  | .vballot f => Sys2Proof.Machine.execVballot f s
  | .vpopm f => Sys2Proof.Machine.execVpopm f s
  | .vprefix f => Sys2Proof.Machine.execVprefix f s
  | .vreduce f => Sys2Proof.Machine.execVreduce f s
  | .qxch f => Sys2Proof.Machine.execQxch f s
  | .vld f => Sys2Proof.Machine.execVld f s
  | .vldrb f => Sys2Proof.Machine.execVldrb f s
  | .sld f => Sys2Proof.Machine.execSld f s
  | .vldbc f => Sys2Proof.Machine.execVldbc f s
  | .vldscr f => Sys2Proof.Machine.execVldscr f s
  | .vldcw f => Sys2Proof.Machine.execVldcw f s
  | .vst f => Sys2Proof.Machine.execVst f s
  | .sst f => Sys2Proof.Machine.execSst f s
  | .vstscr f => Sys2Proof.Machine.execVstscr f s
  | .vstcw f => Sys2Proof.Machine.execVstcw f s
  | .vstmc f => Sys2Proof.Machine.execVstmc f s
  | .wcfl f => Sys2Proof.Machine.execWcfl f s
  | .rbinv f => Sys2Proof.Machine.execRbinv f s
  | .vpref f => Sys2Proof.Machine.execVpref f s
  | .vldp f => Sys2Proof.Machine.execVldp f s
  | .vstp f => Sys2Proof.Machine.execVstp f s
  | .vatom f => Sys2Proof.Machine.execVatom f s
  | .vcas f => Sys2Proof.Machine.execVcas f s
  | .satom f => Sys2Proof.Machine.execSatom f s
  | .scas f => Sys2Proof.Machine.execScas f s
  | .vred f => Sys2Proof.Machine.execVred f s
  | .vatom64 f => Sys2Proof.Machine.execVatom64 f s
  | .vcas64 f => Sys2Proof.Machine.execVcas64 f s
  | .wwait f => Sys2Proof.Machine.execWwait f s
  | .wwaitt f => Sys2Proof.Machine.execWwaitt f s
  | .wwake f => Sys2Proof.Machine.execWwake f s
  | .faddt f => Sys2Proof.Machine.execFaddt f s
  | .sleep f => Sys2Proof.Machine.execSleep f s
  | .wcancel f => Sys2Proof.Machine.execWcancel f s
  | .fence f => Sys2Proof.Machine.execFence f s
  | .fenceh f => Sys2Proof.Machine.execFenceh f s
  | .fencep f => Sys2Proof.Machine.execFencep f s
  | .xfer f => Sys2Proof.Machine.execXfer f s
  | .vldf f => Sys2Proof.Machine.execVldf f s
  | .sldf f => Sys2Proof.Machine.execSldf f s
  | .ftot f => Sys2Proof.Machine.execFtot f s
  | .fdecl f => Sys2Proof.Machine.execFdecl f s
  | .fdrop f => Sys2Proof.Machine.execFdrop f s
  | .fattr f => Sys2Proof.Machine.execFattr f s
  | .fgup f => Sys2Proof.Machine.execFgup f s
  | .mma f => Sys2Proof.Machine.execMma f s
  | .mmac f => Sys2Proof.Machine.execMmac f s
  | .mopf f => Sys2Proof.Machine.execMopf f s
  | .mwait f => Sys2Proof.Machine.execMwait f s
  | .mzero f => Sys2Proof.Machine.execMzero f s
  | .mlda f => Sys2Proof.Machine.execMlda f s
  | .msta f => Sys2Proof.Machine.execMsta f s
  | .mrd f => Sys2Proof.Machine.execMrd f s
  | .mwr f => Sys2Proof.Machine.execMwr f s
  | .mspill f => Sys2Proof.Machine.execMspill f s
  | .mfill f => Sys2Proof.Machine.execMfill f s
  | .mtag f => Sys2Proof.Machine.execMtag f s
  | .tcopy f => Sys2Proof.Machine.execTcopy f s
  | .tcopys f => Sys2Proof.Machine.execTcopys f s
  | .gather f => Sys2Proof.Machine.execGather f s
  | .trf f => Sys2Proof.Machine.execTrf f s
  | .bclose f => Sys2Proof.Machine.execBclose f s
  | .bwait f => Sys2Proof.Machine.execBwait f s
  | .abinit f => Sys2Proof.Machine.execAbinit f s
  | .abarv f => Sys2Proof.Machine.execAbarv f s
  | .abexp f => Sys2Proof.Machine.execAbexp f s
  | .abwait f => Sys2Proof.Machine.execAbwait f s
  | .gset f => Sys2Proof.Machine.execGset f s
  | .bar f => Sys2Proof.Machine.execBar f s
  | .barc f => Sys2Proof.Machine.execBarc f s
  | .barh f => Sys2Proof.Machine.execBarh f s
  | .coll f => Sys2Proof.Machine.execColl f s
  | .crem f => Sys2Proof.Machine.execCrem f s
  | .trpost f => Sys2Proof.Machine.execTrpost f s
  | .trcan f => Sys2Proof.Machine.execTrcan f s
  | .ecinc f => Sys2Proof.Machine.execEcinc f s
  | .ecdec f => Sys2Proof.Machine.execEcdec f s
  | .ecrd f => Sys2Proof.Machine.execEcrd f s
  | .ecset f => Sys2Proof.Machine.execEcset f s
  | .cqpost f => Sys2Proof.Machine.execCqpost f s
  | .cqpoll f => Sys2Proof.Machine.execCqpoll f s
  | .tqenq f => Sys2Proof.Machine.execTqenq f s
  | .tqdeq f => Sys2Proof.Machine.execTqdeq f s
  | .tqtry f => Sys2Proof.Machine.execTqtry f s
  | .tqdone f => Sys2Proof.Machine.execTqdone f s
  | .tqatt f => Sys2Proof.Machine.execTqatt f s
  | .tqstat f => Sys2Proof.Machine.execTqstat f s
  | .migr f => Sys2Proof.Machine.execMigr f s
  | .mret f => Sys2Proof.Machine.execMret f s
  | .mjoin f => Sys2Proof.Machine.execMjoin f s
  | .mowner f => Sys2Proof.Machine.execMowner f s
  | .mtest f => Sys2Proof.Machine.execMtest f s
  | .sysrd f => Sys2Proof.Machine.execSysrd f s
  | .syswr f => Sys2Proof.Machine.execSyswr f s
  | .trap f => Sys2Proof.Machine.execTrap f s
  | .rft f => Sys2Proof.Machine.execRft f s
  | .brk f => Sys2Proof.Machine.execBrk f s
  | .scall f => Sys2Proof.Machine.execScall f s
  | .sret f => Sys2Proof.Machine.execSret f s
  | .cka f => Sys2Proof.Machine.execCka f s
  | .chk f => Sys2Proof.Machine.execChk f s
  | .rndk f => Sys2Proof.Machine.execRndk f s
  | .srndk f => Sys2Proof.Machine.execSrndk f s
  | .tlbinv f => Sys2Proof.Machine.execTlbinv f s
  | .tlbsync f => Sys2Proof.Machine.execTlbsync f s
  | .icinv f => Sys2Proof.Machine.execIcinv f s
  | .einj f => Sys2Proof.Machine.execEinj f s
  | .escrub f => Sys2Proof.Machine.execEscrub f s
  | .loadReply req part => Sys2Proof.Machine.execLoadReply req part s
  | .storeAtHome req part => Sys2Proof.Machine.execStoreAtHome req part s
  | .atomicAtHome req part => Sys2Proof.Machine.execAtomicAtHome req part s
  | .waitRegistration req part => Sys2Proof.Machine.execWaitRegistration req part s
  | .waitAnswer entry => Sys2Proof.Machine.execWaitAnswer entry s
  | .wwaittTimeout entry => Sys2Proof.Machine.execWwaittTimeout entry s
  | .sleepExpiry gid => Sys2Proof.Machine.execSleepExpiry gid s
  | .coreWake core => Sys2Proof.Machine.execCoreWake core s
  | .joinwExpiry gid => Sys2Proof.Machine.execJoinwExpiry gid s
  | .wcLineAgeDrain core line => Sys2Proof.Machine.execWcLineAgeDrain core line s
  | .wcLineAck core line status => Sys2Proof.Machine.execWcLineAck core line status s
  | .recordFetch core => Sys2Proof.Machine.execRecordFetch core s
  | .copyEngineIssue gid => Sys2Proof.Machine.execCopyEngineIssue gid s
  | .pieceDelivery cmd piece => Sys2Proof.Machine.execPieceDelivery cmd piece s
  | .commandComplete cmd => Sys2Proof.Machine.execCommandComplete cmd s
  | .matrixComplete op => Sys2Proof.Machine.execMatrixComplete op s
  | .firedRecordEntry queue core => Sys2Proof.Machine.execFiredRecordEntry queue core s
  | .recordDelivery queue core => Sys2Proof.Machine.execRecordDelivery queue core s
  | .hostEnqueue queue data => Sys2Proof.Machine.execHostEnqueue queue data s
  | .hostMemoryAccess addr count data => Sys2Proof.Machine.execHostMemoryAccess addr count data s
  | .launchAcceptance queue core prio => Sys2Proof.Machine.execLaunchAcceptance queue core prio s
  | .blockPlacement die => Sys2Proof.Machine.execBlockPlacement die s
  | .blockedHead core => Sys2Proof.Machine.execBlockedHead core s
  | .partialEviction core => Sys2Proof.Machine.execPartialEviction core s
  | .eviction block => Sys2Proof.Machine.execEviction block s
  | .restoration block => Sys2Proof.Machine.execRestoration block s
  | .gridEnd grid => Sys2Proof.Machine.execGridEnd grid s
  | .carveEffect core => Sys2Proof.Machine.execCarveEffect core s
  | .pendingMove core part => Sys2Proof.Machine.execPendingMove core part s
  | .continuationArrival cont => Sys2Proof.Machine.execContinuationArrival cont s
  | .visitorStart owner => Sys2Proof.Machine.execVisitorStart owner s
  | .migrationRefusal cont => Sys2Proof.Machine.execMigrationRefusal cont s
  | .migrationReturn ret => Sys2Proof.Machine.execMigrationReturn ret s
  | .debit m => Sys2Proof.Machine.execDebit m s
  | .go m => Sys2Proof.Machine.execGo m s
  | .returnAmount m => Sys2Proof.Machine.execReturnAmount m s
  | .offer m => Sys2Proof.Machine.execOffer m s
  | .accept m => Sys2Proof.Machine.execAccept m s
  | .ovf m => Sys2Proof.Machine.execOvf m s
  | .refuse m => Sys2Proof.Machine.execRefuse m s
  | .busy m => Sys2Proof.Machine.execBusy m s
  | .offerResend mseq => Sys2Proof.Machine.execOfferResend mseq s
  | .credit m => Sys2Proof.Machine.execCredit m s
  | .done m => Sys2Proof.Machine.execDone m s
  | .ack m => Sys2Proof.Machine.execAck m s
  | .cancel m => Sys2Proof.Machine.execCancel m s
  | .status m => Sys2Proof.Machine.execStatus m s
  | .giveUp mseq => Sys2Proof.Machine.execGiveUp mseq s
  | .answerResend dev mseq => Sys2Proof.Machine.execAnswerResend dev mseq s
  | .hold snap owner => Sys2Proof.Machine.execHold snap owner s
  | .snapshotRelease snap => Sys2Proof.Machine.execSnapshotRelease snap s
  | .snapshotTimeout snap => Sys2Proof.Machine.execSnapshotTimeout snap s
  | .holdSelfResume snap owner => Sys2Proof.Machine.execHoldSelfResume snap owner s
  | .domainActivation did reports => Sys2Proof.Machine.execDomainActivation did reports s
  | .fdeclTimeout did => Sys2Proof.Machine.execFdeclTimeout did s
  | .packetArrival p => Sys2Proof.Machine.execPacketArrival p s
  | .deliveryAck peer cls ctxno pseq status => Sys2Proof.Machine.execDeliveryAck peer cls ctxno pseq status s
  | .packetResend peer cls pseq => Sys2Proof.Machine.execPacketResend peer cls pseq s
  | .stale peer cls ctxno pseq => Sys2Proof.Machine.execStale peer cls ctxno pseq s
  | .retry peer cls ctxno pseq => Sys2Proof.Machine.execRetry peer cls ctxno pseq s
  | .contextClose sending peer cls => Sys2Proof.Machine.execContextClose sending peer cls s
  | .deliveryGiveUp peer cls pseq => Sys2Proof.Machine.execDeliveryGiveUp peer cls pseq s
  | .contextFetch sending peer cls => Sys2Proof.Machine.execContextFetch sending peer cls s
  | .resp peer msg data => Sys2Proof.Machine.execResp peer msg data s
  | .complete peer msg => Sys2Proof.Machine.execComplete peer msg s
  | .mcast p => Sys2Proof.Machine.execMcast p s
  | .aggack group ctxno pseq bits => Sys2Proof.Machine.execAggack group ctxno pseq bits s
  | .rollback block => Sys2Proof.Machine.execRollback block s
  | .walk core gid va => Sys2Proof.Machine.execWalk core gid va s
  | .tlbinvAck inv => Sys2Proof.Machine.execTlbinvAck inv s
  | .refreshManagement bank => Sys2Proof.Machine.execRefreshManagement bank s
  | .erasureMark rank pos => Sys2Proof.Machine.execErasureMark rank pos s
  | .healthFlush => Sys2Proof.Machine.execHealthFlush s
  | .faultRetry unit kind again => Sys2Proof.Machine.execFaultRetry unit kind again s
  | .fatalError source => Sys2Proof.Machine.execFatalError source s
  | .powerOn info => Sys2Proof.Machine.execPowerOn info s
  | .coldStart info => Sys2Proof.Machine.execColdStart info s
  | .warmStart info => Sys2Proof.Machine.execWarmStart info s
  | .flushHealthLog => Sys2Proof.Machine.execFlushHealthLog s
  | .lock port accepted => Sys2Proof.Machine.execLock port accepted s
  | .start port => Sys2Proof.Machine.execStart port s
  | .stop port => Sys2Proof.Machine.execStop port s
  | .portConfigWrite port value swid => Sys2Proof.Machine.execPortConfigWrite port value swid s
  | .tagFailureFault port => Sys2Proof.Machine.execTagFailureFault port s
  | .linkDown port => Sys2Proof.Machine.execLinkDown port s
  | .measurementChange port => Sys2Proof.Machine.execMeasurementChange port s
  | .joinDomain dev self members => Sys2Proof.Machine.execJoinDomain dev self members s
  | .rekey => Sys2Proof.Machine.execRekey s
  | .arrive dev => Sys2Proof.Machine.execArrive dev s
  | .release gen => Sys2Proof.Machine.execRelease gen s
  | .rekeyTimeout dev => Sys2Proof.Machine.execRekeyTimeout dev s
  | .breakpoint gid => Sys2Proof.Machine.execBreakpoint gid s
  | .debugResume block => Sys2Proof.Machine.execDebugResume block s
  | .contextEntryWrite offset data => Sys2Proof.Machine.execContextEntryWrite offset data s
  | .queueConfigWrite queue value => Sys2Proof.Machine.execQueueConfigWrite queue value s
  | .ownerEntryWrite owner value => Sys2Proof.Machine.execOwnerEntryWrite owner value s
  | .regionRegisterWrite index value => Sys2Proof.Machine.execRegionRegisterWrite index value s
  | .cqRegistration index header ctx valid => Sys2Proof.Machine.execCqRegistration index header ctx valid s
  | .registerWrite offset value => Sys2Proof.Machine.execRegisterWrite offset value s
  | .unassignedCell cause aux addr => Sys2Proof.Machine.execUnassignedCell cause aux addr s
  | .powerFailure => Sys2Proof.Machine.execPowerFailure s
  | .memberRemoval dev => Sys2Proof.Machine.execMemberRemoval dev s
  | .bankRefresh bank => Sys2Proof.Machine.execBankRefresh bank s
  | .linkLoss port => Sys2Proof.Machine.execLinkLoss port s
  | .linkReturn port => Sys2Proof.Machine.execLinkReturn port s
  | .cydbAttach ctx breaks => Sys2Proof.Machine.execCydbAttach ctx breaks s
  | .cydbDetach ctx => Sys2Proof.Machine.execCydbDetach ctx s
  | .cydbStep gid => Sys2Proof.Machine.execCydbStep gid s
  | .latchStalledLong gid => Sys2Proof.Machine.execLatchStalledLong gid s

end Sys2Proof.Machine
end

