-- ==== Sys2Proof/WellFormed.lean ====
section
/-! DEFINITION. Which instructions have an encoding: those whose bits pass every check of spec 02, R57, and hold
nothing outside their length. A step that is no instruction of the opcode map has no encoding and no check. -/

namespace Sys2Proof

/-- The checks a cell instruction's own bits pass. -/
def Instr.wf (i : Instr) : Bool :=
  match i.row with
  | none => true
  | some (f, r) => f.tight r && (violations r f).isEmpty

/-- A well-formed instruction of the opcode map. -/
def Instr.isCell (i : Instr) : Bool := i.row.isSome

/-- The violation that decoding reports for an instruction (spec 02, R57). -/
def Instr.violation (i : Instr) : Option (Nat × Nat) :=
  match i.row with
  | none => none
  | some (f, r) => lowest (violations r f)

end Sys2Proof
end

