-- ==== Sys2Proof/Decode.lean ====
section
/-! DEFINITION. Decoding, total on any bits, and the encoder (spec 02, R40 to R57; spec 03). -/

namespace Sys2Proof

/-- Bits lo + n − 1 to lo of a number. -/
def bitsOf (w lo n : Nat) : Nat := w / 2 ^ lo % 2 ^ n

/-- Bit lo of a number. -/
def bitOf (w lo : Nat) : Bool := w / 2 ^ lo % 2 = 1

/-- Why bits are no instruction: LEN 0b11, or an ILLOP reason with its field code (spec 02, R57). -/
inductive Reject where
  | illop (reason code : Nat)
  deriving DecidableEq, Repr

/-- The length in LEN (spec 02, R40). -/
def lenOf (w : Nat) : Option Len :=
  match w % 4 with
  | 0 => some .w64
  | 1 => some .w96
  | 2 => some .w128
  | _ => none

/-- The fields of a word of the given length, with what follows it (spec 02, R46, R49); `ext` when the 128-bit form
holds the extension set. -/
def fieldsOf (len : Len) (ext : Bool) (w : Nat) : Fields :=
  { len := len
    land := bitOf w 54
    mod := BitVec.ofNat 9 (bitsOf w 55 9)
    gs := BitVec.ofNat 3 (bitsOf w 51 3)
    wa := bitOf w 48
    wb := bitOf w 49
    wc := bitOf w 50
    d := BitVec.ofNat 8 (bitsOf w 16 8)
    a := BitVec.ofNat 8 (bitsOf w 24 8)
    b := BitVec.ofNat 8 (bitsOf w 32 8)
    c := BitVec.ofNat 8 (bitsOf w 40 8)
    e := if ext then BitVec.ofNat 8 (bitsOf w 64 8) else 0
    h := if ext then BitVec.ofNat 8 (bitsOf w 72 8) else 0
    we := ext && bitOf w 80
    wh := ext && bitOf w 81
    rsv := ext && bitOf w 82
    xmod := if ext then BitVec.ofNat 13 (bitsOf w 83 13) else 0
    imm := match len with
      | .w64 => 0
      | .w96 => BitVec.ofNat 64 (bitsOf w 64 32)
      | .w128 => if ext then BitVec.ofNat 64 (bitsOf w 96 32) else BitVec.ofNat 64 (bitsOf w 64 64) }

/-- The cell of an opcode and function code (spec 03, R58). -/
def findCell (t : List (Nat × Nat × (Fields → Instr))) (opc fn : Nat) : Option (Fields → Instr) :=
  match t with
  | [] => none
  | (o, n, c) :: t => if o = opc && n = fn then some c else findCell t opc fn

/-- Whether an opcode has any assigned cell. -/
def opcKnown (t : List (Nat × Nat × (Fields → Instr))) (opc : Nat) : Bool :=
  t.any (fun p => p.1 = opc)

/-- Decodes the bits of an instruction (spec 02, R56 steps 3 and 5); bits beyond its length are ignored. The extension
set is held by every 128-bit cell but smov64 (OPC 0x13). -/
def decode (w : Nat) : Except Reject Instr :=
  match lenOf w with
  | none => .error (.illop 1 0)
  | some len =>
    match findCell cellTable (bitsOf w 2 8) (bitsOf w 10 6) with
    | none => .error (if opcKnown cellTable (bitsOf w 2 8) then .illop 3 0 else .illop 2 0)
    | some c =>
      let i := c (fieldsOf len (len = .w128 && bitsOf w 2 8 ≠ 0x13) w)
      match i.violation with
      | none => .ok i
      | some (r, k) => .error (.illop r k)

/-- The base word of a cell with its fields (spec 02, R46). -/
def encodeBase (opc fn : Nat) (f : Fields) : Nat :=
  (match f.len with | .w64 => 0 | .w96 => 1 | .w128 => 2) + 4 * opc + 1024 * fn + 65536 * f.d.toNat +
    2 ^ 24 * f.a.toNat + 2 ^ 32 * f.b.toNat + 2 ^ 40 * f.c.toNat + 2 ^ 48 * f.wa.toNat + 2 ^ 49 * f.wb.toNat +
    2 ^ 50 * f.wc.toNat + 2 ^ 51 * f.gs.toNat + 2 ^ 54 * f.land.toNat + 2 ^ 55 * f.mod.toNat

/-- What follows the base word (spec 02, R40, R49). -/
def encodeTail (ext : Bool) (f : Fields) : Nat :=
  match f.len with
  | .w64 => 0
  | .w96 => f.imm.toNat % 2 ^ 32
  | .w128 =>
    if ext then
      f.e.toNat + 2 ^ 8 * f.h.toNat + 2 ^ 16 * f.we.toNat + 2 ^ 17 * f.wh.toNat + 2 ^ 18 * f.rsv.toNat +
        2 ^ 19 * f.xmod.toNat + 2 ^ 32 * (f.imm.toNat % 2 ^ 32)
    else f.imm.toNat

/-- The bits of a cell instruction, bit 0 the least significant of its first byte; none for a step that is no cell. -/
def encode (i : Instr) : Option Nat :=
  match i.row with
  | none => none
  | some (f, r) =>
    some (encodeBase r.opc r.fn f + 2 ^ 64 * encodeTail (f.len = .w128 && r.opc ≠ 0x13) f)

/-- The instruction that the decoder reads from bits numbered as spec/opcode_table.json numbers them. -/
def decodeTableWord (_nbits w : Nat) : Option Instr :=
  match decode w with
  | .ok i => some i
  | .error _ => none

end Sys2Proof
end

