-- ==== Sys2Proof/Machine/Outside.lean ====
section
/-! DEFINITION. What reaches the device and is no step of the opcode table (log entry 108): the messages of other members about a domain,
a failed home or byte lane, and what the debugger reads. -/

namespace Sys2Proof.Machine

open Sys2Proof

/-! ### Domains of several members (spec 08, R190; spec 15, R347, R351) -/

/-- A domain that another member's fdrop ends: here it ends, and the member hears of it, once nothing of it is in flight (spec 08, R190). -/
def State.dropAsked (s : State) : State :=
  s.fld.domains.foldl (fun s p => if p.2.asked && !s.domainBusy p.1 then (s.endDomain p.1).emit (.dropped p.1) else s) s

/-- The domains that the records and entries of a home name. -/
def Home.names (h : Home) : List Nat := h.mortars.map (·.did) ++ h.dedups.map (·.did)

/-! ### Reading for the debugger (spec 16, R356; spec 20, R411) -/

/-- The place of a byte of a block's local windows, for a group of it and a lane. -/
def State.windowKey (s : State) (b : Block) (grp L : Nat) (va : Dword) : Option Nat :=
  let o := va.toNat % 2 ^ 48
  if bitsAt va 63 56 ≠ 0 then none
  else match windowOf va with
    | 1 => if o < b.k.scr then s.place (.scr b.grid b.lin o) else none
    | 2 => if o / 2 ^ 20 < b.k.clsz && o % 2 ^ 20 < b.k.scr then s.place (.scr b.grid (memberLin b (o / 2 ^ 20)) (o % 2 ^ 20)) else none
    | 3 => if o < b.k.priv then s.place (.priv b.grid b.lin grp (privOff L o)) else none
    | _ => none

/-- What the debugger reads of a block that is halted for it; nothing for an address outside the windows. -/
def State.debugBytes (s : State) (b : Block) (grp L : Nat) (va : Dword) (n : Nat) : List Byte :=
  let keys := (List.range n).filterMap (fun i => s.windowKey b grp L (va + BitVec.ofNat 64 i))
  if keys.length = n && !keys.any (s.badAt ownIl) then keys.flatMap (fun k => s.stored k 1) else []

/-! ### On-chip memory and links -/

/-- A word of on-chip memory becomes uncorrectable (spec 18, R399). -/
def State.spoil (s : State) (w : SramWord) : State :=
  match w with
  | .vreg gid key => s.modGroup gid (fun g => { g with regs := { g.regs with vbad := key :: g.regs.vbad.filter (· ≠ key) } })
  | .sreg gid r => s.modGroup gid (fun g => { g with regs := { g.regs with sbad := r :: g.regs.sbad.filter (· ≠ r) } })
  | .acc core key => s.modNode core (fun n => { n with accBad := key :: n.accBad.filter (· ≠ key) })
  | .slice key =>
    if key < 2 ^ 39 || sliceKey 192 0 ≤ key then s
    else { s with dram := { s.dram with sram := key / 4 :: s.dram.sram.filter (· ≠ key / 4) } }
  | .shadow block => s.modBlock block (fun b => { b with shadow := b.shadow.map (fun h => { h with bad := true }) })

/-! ### The events -/

/-- An event from outside. -/
def State.outside (s : State) (o : Outside) : State :=
  match o with
  | .fdrop did => (match s.domain did with
    | none => s.emit (.dropped did)
    | some d => s.setDomain did { d with asked := true })
  | .fdropped did member => (match s.domain did with
    | none => s
    | some d => s.setDomain did { d with dropped := member :: d.dropped.filter (· ≠ member) })
  | .domainFailed did => (match s.domain did with
    | none => s
    | some d => s.setDomain did { d with state := .failed })
  | .homeError owner => ((s.node owner).home.names.foldl State.failDomain s).fatal owner
  | .total did member figure => (match s.domain did with
    | none => s.emit (.total did member none)
    | some d => if d.anchor = s.devid then s.askTotal did figure (.member member) else s)
  | .debugTotal did figure => (match s.domain did with
    | none => s.emit (.hostData [])
    | some d => if (s.mgmt.debug).contains d.owner.toNat then s.askTotal did figure .debugger else s.emit (.hostData []))
  | .debugRead block grp L va n => (match s.block block with
    | none => s.emit (.hostData [])
    | some b => s.emit (.hostData (if (b.dhalt || b.thalt) && (s.mgmt.debug).contains (s.ctxOf b).toNat then s.debugBytes b grp L va n else [])))
  | .counterSet n v own => s.ecset (n % 65536) v own
  | .coll w => if s.isMember && s.fab.members.getLsbD w.dev then { s with fab := { s.fab with colls := s.fab.colls ++ [w] } } else s
  | .linkFail port addr delay => if 32 ≤ port then s else { s with mgmt := { s.mgmt with armed := (s.mgmt.armed) ++ [(port, addr, delay)] } }
  | .linkUp port =>
    if 32 ≤ port then s
    else { s with mgmt := { s.mgmt with armed := (s.mgmt.armed).filter (fun a => a.1 ≠ port) } }.modPort port (fun x => { x with held := none })
  | .flitRetry plane => if 32 ≤ plane then s else (s.modPort plane (fun x => { x with retry := x.retry + 1 })).count (hcFlit plane)
  | .sramFixed owner => if 256 ≤ owner then s else s.count (hcSram owner)
  | .sramBad w => s.spoil w
  | .hostRead offset n => s.emit (.hostData (s.barBytes offset n))
  | .laneFailed rank k =>
    { s with dram := { s.dram with lanes := Sparse.set 0 s.dram.lanes rank (Sparse.get 0 s.dram.lanes rank ||| (1#9 <<< k)) } }

end Sys2Proof.Machine
end

