-- ==== Sys2Proof/Machine/Turn.lean ====
section
/-! DEFINITION. What a step of the machine does next (log entries 2 and 3): the head of the agenda, else a step that is
due, else the issue of the current group; fetching and decoding (spec 02, R56 steps 1 to 5); and the placing of one
instruction before the fetch (log entry 4). -/

namespace Sys2Proof.Machine

open Sys2Proof

/-- Cycles pass: CLOCK counts, waiting entries count down, but for those of evicted groups (spec 01, R23, R36; spec 05, R117), free
values move on. -/
def State.tick (s : State) (n : Nat) : State :=
  { s with
    clock := s.clock + BitVec.ofNat 64 n
    own := { s.own with fresh := s.own.fresh + n }
    groups := s.groups.map (fun p => (p.1, if s.isAway p.2 then p.2 else { p.2 with ctl := { p.2.ctl with
      stack := p.2.ctl.stack.map (fun e => { e with tmo := BitVec.ofNat 24 (e.tmo.toNat - n) }) } })) }

/-- The bits at the PC of a group as an instruction, or the cause, TRAPAUX and TRAPADDR of the decode trap they raise
(spec 02, R56 steps 1 to 5). -/
def State.nextInstr (s : State) (g : Group) : Except (Nat × Dword × Dword) Instr :=
  let pc := g.ctl.pc
  if pc.toNat % 4 ≠ 0 then .error (3, 0, 0)
  else match s.fetch g pc with
    | .error aux => .error (4, BitVec.ofNat 64 aux, pc)
    | .ok w =>
      match lenOf w with
      | none => .error (1, 1, 0)
      | some l =>
        let n := match l with | .w64 => 8 | .w96 => 12 | .w128 => 16
        if 32 < pc.toNat % 32 + n then .error (2, 0, pc)
        else match decode w with
          | .ok i => .ok i
          | .error (.illop r c) => .error (1, illopAux (r, c), 0)

/-! ### Which group issues (spec 17, R372) -/

/-- The issue class of the instruction at a group's PC (spec 02, R60): 0 scalar and control, 1 vector, 2 memory and engine. An instruction that
cannot be fetched, whose trap is all that comes, counts with the first (log entry 132). -/
def State.issueClass (s : State) (g : Group) : Nat :=
  if g.ctl.pc.toNat % 4 ≠ 0 then 0
  else match s.fetch g g.ctl.pc with
    | .error _ => 0
    | .ok w =>
      let opc := w / 4 % 256
      if opc < 0x30 || 0xF8 ≤ opc then 0 else if opc < 0xB0 then 1 else 2

/-- Whether two groups compete for an issue slot: one partition and one issue class, or one stack core (spec 17, R372, R376). -/
def State.rivals (s : State) (g x : Group) : Bool :=
  g.owner = x.owner && (192 ≤ g.owner || (g.part = x.part && s.issueClass g = s.issueClass x))

/-- Whether a group has been ready for longer than another, or as long and entered first. -/
def Group.ahead (g x : Group) : Bool := g.sched.since < x.sched.since || (g.sched.since = x.sched.since && g.sched.order ≤ x.sched.order)

/-- Whether a partition chooses a group that may issue: it is ready, and no ready rival comes before it. -/
def State.chosen (s : State) (gid : Nat) (g : Group) : Bool :=
  g.sched.ready && s.groups.all (fun p => p.1 = gid || g.ahead p.2 || !(p.2.sched.ready && s.canIssue p.2 && s.rivals g p.2))

/-- The state in which a group tries its next instruction: the code has been fetched, the debugger's step notes what is empty. -/
def State.issuing (s : State) (gid : Nat) (g : Group) : State :=
  let s := (if g.ctl.pc.toNat % 4 = 0 then s.fetched g g.ctl.pc else s).noteStep gid g
  { s with own := { s.own with cur := gid, tried := some (gid, if g.sched.hold.issued then none else some g.ctl.pc) } }

/-- What a step does: a result of its own, or an instruction or step to run in a state. -/
inductive Next where
  | done (r : Res)
  | run (i : Instr) (s : State)

/-- The turn of a group: the expiry of its joinw, unless it stands at the joinw (spec 05, R117), a pending imprecise trap, once an instruction whose event has come is complete (spec 12,
R277; held in a halt, spec 18, R386), a breakpoint (spec 16, R354), or its next instruction; an uncorrectable word that the fetch meets is
consumed (spec 18, R399). A group that may not issue, or that is not chosen, lets its turn pass. -/
def State.groupTurn (s : State) (gid : Nat) : Next :=
  match s.group gid with
  | none => .done (.next s)
  | some g =>
    if !s.canIssue g || !s.chosen gid g then .done (.next s)
    else if s.joinwDue g && !g.atJoin then .done (execJoinwExpiry gid s)
    else match (if g.sched.hold = .roused then [] else g.out.imprecise), g.sched.skidLeft with
      | t :: ts, none =>
        .done (.next ((s.setGroup gid { g with out := { g.out with imprecise := ts } }).takeTrap gid t.cause t.lanes
          t.addr t.aux g.ctl.pc))
      | _, _ =>
        if s.breakHere g then .done (execBreakpoint gid s)
        else
          let t := s.issuing gid g
          if g.ctl.pc.toNat % 4 = 0 && s.fetchBad g g.ctl.pc then .done (.next (t.consume gid))
          else match s.nextInstr g with
            | .ok i => .run i t
            | .error (c, aux, addr) => .done (execUnassignedCell c aux addr t)

/-- Whether a group has issued, once it has tried: it waits for nothing, or for what an issued instruction waits for. -/
def Group.hasIssued (g : Group) : Bool := g.sched.hold = .none || g.sched.hold.issued

/-- Whether the next instruction of a group that waits would now issue, or complete (spec 17, R372). -/
def State.wouldIssue (s : State) (gid : Nat) (g : Group) : Bool :=
  (g.ctl.pc.toNat % 4 = 0 && s.fetchBad g g.ctl.pc) ||
    (match s.nextInstr g with
      | .error _ => true
      | .ok i => match exec i (s.issuing gid g) with
        | .next t => (match t.group gid with | none => true | some x => x.hasIssued && x.sched.hold ≠ g.sched.hold)
        | .fault _ | .refused _ => true)

/-- Whether a group is ready (spec 17, R372): it is not halted, its block is here, and what it waits for has come, or it has an imprecise trap to take. One that waits for nothing
counts as ready until it has tried. -/
def State.isReady (s : State) (gid : Nat) (g : Group) : Bool :=
  g.sched.skidLeft ≠ some 0 && !g.sched.dhalt && g.ctl.livem ≠ 0 && !s.isAway g &&
    (match g.sched.hold with
      | .none | .roused => true
      | .sleep _ | .checks _ | .latch _ _ => false
      | .bar | .barc | .barh _ => !g.out.imprecise.isEmpty
      | _ => !g.out.imprecise.isEmpty || s.wouldIssue gid g)

/-- Readiness after a step, and since when it is as it is (spec 17, R372 to R375). -/
def State.refresh (s : State) : State :=
  let of (i : Nat) (g : Group) : Group :=
    let r := s.isReady i g
    let turn := s.own.tried.any (fun t => t.1 = i) && g.hasIssued
    if r = g.sched.ready && !turn then g else { g with sched := { g.sched with ready := r, since := s.clock.toNat } }
  { s.mapGroups of with own := { s.own with tried := none } }

/-- The link faults that wait for the instruction that has issued in this step are set (spec 22, R439). -/
def State.fireFaults (s : State) : State :=
  match s.own.tried with
  | some (gid, some pc) =>
    let issued := match s.group gid with | none => true | some g => g.hasIssued
    let hit (a : Nat × Nat × Nat) : Bool := issued && a.2.1 = pc.toNat
    if (s.mgmt.armed).any hit then
      ((s.mgmt.armed).filter hit).foldl (fun (s : State) a => s.modPort a.1 (fun x => { x with held := some (s.clock.toNat + a.2.2) }))
        { s with mgmt := { s.mgmt with armed := (s.mgmt.armed).filter (fun a => !hit a) } }
    else s
  | _ => s

/-! ### Steps that are due (log entry 2) -/

/-- The first of some results that changes a state. -/
def State.firstChange (s : State) : List Res → Option Res
  | [] => none
  | .next t :: rs => if t = s then s.firstChange rs else some (.next t)
  | _ :: rs => s.firstChange rs

/-- The step of a part of an access. -/
def partStep (a : Access) (p : Part) (s : State) : Res :=
  match a.kind with
  | .load _ | .field _ | .owner => execLoadReply a.id p.id s
  | .store => execStoreAtHome a.id p.id s
  | .atomic .. | .faddt => execAtomicAtHome a.id p.id s
  | .wait .. => execWaitRegistration a.id p.id s

/-- The step of a field message that waits at its home. -/
def fieldStep (m : Nat) (k : FKind) (s : State) : Res :=
  match k with
  | .debit => execDebit m s
  | .go => execGo m s
  | .giveBack => execReturnAmount m s
  | .offer => execOffer m s
  | .accept => execAccept m s
  | .ovf => execOvf m s
  | .refuse => execRefuse m s
  | .busy => execBusy m s
  | .credit => execCredit m s
  | .done => execDone m s
  | .ack => execAck m s
  | .cancel => execCancel m s
  | .status => execStatus m s

/-- The steps that a core or stack core may be about to take. -/
def nodeSteps (n : Nat) (x : Node) (s : State) : List Res :=
  x.waits.map (fun w => if w.ans.isSome then execWaitAnswer w.id s else execWwaittTimeout w.id s) ++
    x.fetching.map (fun _ => execRecordFetch n s) ++ x.wc.map (fun l => execWcLineAgeDrain n l.id s) ++
    (if x.gated then [execCoreWake n s] else []) ++ (if x.carve = x.carveNew then [] else [execCarveEffect n s]) ++
    (if x.skipped.isEmpty then [] else [execBlockedHead n s]) ++ (if x.blocked.isNone then [] else [execPartialEviction n s])

/-- The steps that a group may be about to see. -/
def groupSteps (i : Nat) (g : Group) (s : State) : List Res :=
  (if s.joinwDue g && !(s.canIssue g && g.atJoin) then [execJoinwExpiry i s] else []) ++
  (match g.sched.hold with | .sleep _ => [execSleepExpiry i s] | .latch _ false => [execLatchStalledLong i s] | _ => []) ++
    (if g.eng.copyQ.isEmpty then [] else [execCopyEngineIssue i s]) ++
    (if g.sched.active then [] else [execPendingMove g.owner g.part s])

/-- The steps of the distributor. -/
def distSteps (s : State) : List Res :=
  s.dist.fired.map (fun f => execFiredRecordEntry f.queue f.core s) ++
    s.dist.requests.filterMap (fun r => r.got.map (fun x => execRecordDelivery r.queue x.1 s)) ++
    s.dist.shards.flatMap (fun k =>
      let q := k.1 / 256
      let c := k.1 % 256
      execRecordDelivery q c s :: [3, 2, 1, 0].map (fun p => execLaunchAcceptance q c p s)) ++
    (if s.grids.any (fun g => !g.2.todo.isEmpty) then [0, 1, 2, 3].map (fun d => execBlockPlacement d s) else []) ++
    s.blocks.flatMap (fun b =>
      (if b.2.uncorr then [execRollback b.1 s] else []) ++ (if b.2.evicting || (b.2.noRestore && b.2.saved.isNone) then [execEviction b.1 s] else []) ++
        (if b.2.saved.isSome && !b.2.noRestore then [execRestoration b.1 s] else [])) ++
    s.grids.map (fun g => execGridEnd g.1 s)

/-- The steps of a home: records that are given up or offered again, answers sent again, and the end of a hold (spec 15, R343 to R347). -/
def homeSteps (n : Nat) (h : Home) (s : State) : List Res :=
  h.mortars.flatMap (fun m => [execGiveUp m.seq s, execOfferResend m.seq s]) ++ h.dedups.map (fun e => execAnswerResend e.odev e.seq s) ++
    h.holds.map (fun x => execHoldSelfResume x.1 n s)

/-- The steps of the fabric: contexts that are fetched, sent again, given up or closed (spec 21, R425 to R429), messages given up (R428),
ports that fail (R414), and what a re-key waits for (R421). -/
def fabricSteps (s : State) : List Res :=
  s.fab.sctx.flatMap (fun c =>
      (if c.cached || (c.pkts.isEmpty && !s.fab.ingress.any (fun e => isAnswer e.1 && s.answered e.1 = (c.peer, c.cls))) then []
        else [execContextFetch true c.peer c.cls s]) ++
        c.pkts.flatMap (fun x => if x.sent then [execDeliveryGiveUp c.peer c.cls x.p.pseq s, execPacketResend c.peer c.cls x.p.pseq s] else []) ++
        [execContextClose true c.peer c.cls s]) ++
    s.fab.rctx.flatMap (fun c =>
      (if !c.cached && s.fab.ingress.any (waitsFor c.peer c.cls) then [execContextFetch false c.peer c.cls s] else []) ++
        [execContextClose false c.peer c.cls s]) ++
    s.fab.outmsgs.map (fun m => execDeliveryGiveUp m.peer 4 m.id s) ++
    (List.range 32).flatMap (fun n =>
      let x := s.port n
      (if x.fails.isEmpty then [] else [execTagFailureFault n s]) ++ (if x.live s.clock.toNat then [] else [execLinkDown n s])) ++
    (if s.rekeying then
      execArrive s.devid s :: (if s.isManager then execRelease (s.fab.kgen + 1) s :: (List.range 512).map (fun d => execRekeyTimeout d s) else [])
    else [])

/-- The erasure marks that corrections have made due (spec 25, R464); a rank that has no room for a mark is reported once. -/
def markSteps (s : State) : List Res :=
  s.dram.fixed.map (fun p =>
    let m := Sparse.get 0 s.dram.erase (p.1 / 64)
    if p.2.length < 16 || m.getLsbD (p.1 % 64) || (4 ≤ symbols m && (s.mgmt.repair).contains (p.1 / 64)) then .next s
    else execErasureMark (p.1 / 64) (p.1 % 64) s)

/-- Every step of the device's own that may be due, the accesses first. -/
def State.pending (s : State) : List Res :=
  s.accs.flatMap (fun a => a.parts.flatMap (fun p => [partStep a p s, .next (s.seeStore a.id p.id)])) ++
    s.lands.map (fun l => .next (s.landResult l.id)) ++
    s.nodes.flatMap (fun n => nodeSteps n.1 n.2 s) ++
    s.groups.flatMap (fun g => groupSteps g.1 g.2 s) ++
    s.cmds.map (fun c => match c.left with | [] => execCommandComplete c.id s | p :: _ => execPieceDelivery c.id p s) ++
    s.mops.map (fun o => execMatrixComplete o.id s) ++
    s.fld.msgs.map (fun m => fieldStep m.1 m.2.1.kind s) ++
    s.fld.snaps.flatMap (fun x => x.homes.map (fun h => execHold x.id h s) ++ [execSnapshotRelease x.id s, execSnapshotTimeout x.id s]) ++
    s.nodes.flatMap (fun n => homeSteps n.1 n.2.home s) ++ s.fld.domains.flatMap (fun d => [execDomainActivation d.1 [] s, execFdeclTimeout d.1 s]) ++
    s.conts.flatMap (fun c => if c.arrived.isNone then [execContinuationArrival c.id s] else [execVisitorStart c.owner s, execMigrationRefusal c.id s]) ++
    s.rets.flatMap (fun r => [.next (s.sendRet r.id), execMigrationReturn r.id s]) ++ s.invals.map (fun i => execTlbinvAck i.id s) ++
    s.dram.rfm.map (fun b => execRefreshManagement b s) ++ s.dram.due.map (fun b => execRefreshManagement b s) ++
    (s.cmds.filter (fun c => !c.run)).map (fun c => execCopyEngineIssue c.gid s) ++ distSteps s ++ fabricSteps s ++ markSteps s

/-- The step that is due when the agenda is empty: the first of those that may be that changes something. -/
def State.due (s : State) : Option Res := if s.operating then s.firstChange s.pending else none

/-- The group whose turn it is when the agenda is empty: of those that may issue the one that has been ready the longest, else the current one. -/
def State.nextGroup (s : State) : Nat :=
  match longest (s.groups.filter (fun x => x.2.sched.ready && s.canIssue x.2)) with
  | some x => x.1
  | none => s.own.cur

/-- What becomes of a step from outside while the device does not operate: a start, a power failure, a flush or a far-memory access is taken as far as R462 allows, another
host access is discarded (spec 25, R462), and the device itself does nothing. -/
def idleEvent (i : Instr) (s : State) : Next :=
  match i with
  | .powerOn _ | .coldStart _ | .warmStart _ | .powerFailure | .healthFlush | .flushHealthLog | .hostMemoryAccess .. => .run i s
  | _ => .done (.next s)

/-- What the next step does. -/
def State.turn (s : State) : Next :=
  match s.power, s.own.agenda with
  | false, .event (.powerOn i) :: ts => .run (.powerOn i) ({ s with own := { s.own with agenda := ts } }.tick 1)
  | false, _ => .done (.fault .unpowered)
  | true, .event i :: ts =>
    let t := { s with own := { s.own with agenda := ts } }.tick 1
    if t.operating then .run i t else idleEvent i t
  | true, .pass n :: ts => .done (.next ({ s with own := { s.own with agenda := ts } }.tick n))
  | true, .issue gid :: ts => ({ s with own := { s.own with agenda := ts } }.tick 1).groupTurn gid
  | true, .land i :: ts =>
    let t := { s with own := { s.own with agenda := ts } }.tick 1
    .done (.next (if t.operating then (t.landResult i).sendRet i else t))
  | true, .see acc part :: ts =>
    let t := { s with own := { s.own with agenda := ts } }.tick 1
    .done (.next (if t.operating then t.seeStore acc part else t))
  | true, .outside o :: ts =>
    let t := { s with own := { s.own with agenda := ts } }.tick 1
    .done (.next (if t.operating then t.outside o else t))
  | true, [] =>
    let t := s.tick 1
    match t.due with
    | some r => .done r
    | none => t.groupTurn t.nextGroup

/-- Cores all of whose groups are stalled are clock-gated, though the last that was not has left (spec 07, R167). -/
def State.gateStalled (s : State) : State :=
  s.groups.foldl (fun s p => if p.2.sched.hold.gates && !(s.node p.2.owner).gated && !s.isAway p.2 then s.gate p.2.owner else s) s

/-- What a step makes come about at once: the debugger's step ends (spec 16, R355), peer accesses that something held back go on, barriers
and collectives that a retirement has completed open and start (spec 10, R239; spec 11, R252), stalled cores are gated, domains that a member drops end, link faults
that wait for an instruction are set, and groups are ready or not. -/
def State.ensue (s : State) : State :=
  let s := s.endStep.resume.openBarriers.gateStalled
  let s := (s.blocks.filterMap (fun b => if b.2.colls.isEmpty then none else some b.1)).foldl State.startColls s
  s.dropAsked.fireFaults.refresh

/-- A result with what it makes come about at once. -/
def settled (r : Res) : Res :=
  match r with
  | .next t => .next t.ensue
  | .fault f => .fault f
  | .refused x => .refused x

/-! ### Placing one instruction (log entry 4) -/

/-- The kernel of the placed instruction: every register, one group, no private memory. -/
def placedKernel : Kernel :=
  { entry := 0x10000, handler := 0x10000, scr := 7936, ngrp := 1, vregs := 32, sregs := 16, accn := 64, priv := 0, clsz := 1,
    commg := 0, team := 1 }

/-- The block of the placed instruction. -/
def placedBlock : Block :=
  { grid := 1, lin := 0, core := 0, k := placedKernel, part := 0, gids := [1], live := [1], reloc := 0, accBase := 0,
    areas := [sliceKey 0 0x180000], placed := 0, thalt := false, hgrp := 0, haltDepth := 0, dhalt := false,
    uncorr := false, shadow := none, contain := false, colls := [], noRestore := false, term := none,
    saved := none, evicting := false, badObj := 0, objFail := [] }

/-- The grid of the placed instruction: one block of context 1; no byte counts as stored since it started. -/
def placedGrid (seq : Nat) : Grid :=
  { gridid := 1, ctx := 1, queue := 0, home := 0, prio := 0, flags := 0, gx := 1, gy := 1, gz := 1,
    kdesc := 0, args := 0, k := placedKernel, dctr := 0, dfl := false, cq := 0, tag := 0, todo := [], ended := 0,
    total := 1, cause := none, deferred := false, startSeq := seq, gone := [] }

/-- The page table of context 1: address 0x10000 maps the frame at 0x10000 through tables at 0x100000, 0x120000,
0x130000 and 0x131000. -/
def placedTables (m : Mem) : Mem :=
  let m := Mem.wrBytes m 0x100000 (leBytes 0x120001 8)
  let m := Mem.wrBytes m 0x120000 (leBytes 0x130001 8)
  let m := Mem.wrBytes m 0x130000 (leBytes 0x131001 8)
  Mem.wrBytes m 0x131008 (leBytes 0x10002 8)

/-- The state with an instruction's bits where the next step fetches: a group of a one-block grid of context 1 on core
0, its page table, and the 16 bytes at its PC. -/
def State.placeWord (s : State) (w : Nat) : State :=
  let s := { s with
    power := true
    own := { s.own with agenda := [.issue 1], cur := 1 }
    mem := Mem.wrBytes (placedTables s.mem) 0x10000 (leBytes w 16)
    groups := Sparse.put s.groups 1 (Group.start 1 0 0 0 1 0x10000 0 0 true)
    blocks := Sparse.put s.blocks 1 placedBlock
    grids := Sparse.put s.grids 1 (placedGrid s.own.seq)
    l2 := []
    mgmt := { s.mgmt with
      devstat := 1
      breaks := []
      ctxs := Mem.wrBytes s.mgmt.ctxs 64 (leBytes 0x100000 8 ++ leBytes 0x10000 8 ++ List.replicate 40 0 ++ [1]) } }
  s.modNode 0 (fun n => { n with
    gated := false, tlb := [], relocs := Sparse.put n.relocs 0 { save := 0, st := 1, pages := 2, basepg := 0, block := 1 } })

end Sys2Proof.Machine
end

