-- ==== Sys2Proof/Machine/Step.lean ====
section
/-! DEFINITION. One step of the machine, and the state with one instruction placed where a step fetches next. -/

namespace Sys2Proof.Machine

open Sys2Proof

/-- One step: what `State.turn` says comes next (log entries 2 and 3), and what that makes come about at once. -/
def step (s : State) : Host.Outcome State Fault Refusal :=
  match s.turn with
  | .done r => settled r
  | .run i t => settled (exec i t)

/-- `s` with the instruction whose bits are `w` stored where the next step fetches (log entry 4). -/
def State.withFetchWord (s : State) (_nbits w : Nat) : State := s.placeWord w

end Sys2Proof.Machine
end

