-- ==== Sys2Proof/Safety.lean ====
section
/-! DEFINITION. What counts as a safe run, in the terms that claims use. -/

namespace Sys2Proof.Safety

open Sys2Proof.Machine

/-- The maps of a state are canonical: memory, which programs see, and the table of nodes. -/
def Canonical (s : State) : Prop := Mem.wf s.mem = true

/-- The state after a number of steps, none of which stops. -/
def runs : Nat → State → State → Prop
  | 0, s, t => s = t
  | n + 1, s, t => ∃ u, step s = .next u ∧ runs n u t

/-- A run is safe when none of its steps stops with a fault. -/
def Safe (s : State) : Prop := ∀ n t, runs n s t → ∀ f, step t ≠ .fault f

end Sys2Proof.Safety
end

