-- ==== Sys2Proof/Certificates/Slice0/Obligations.lean ====
section
/-! DEFINITION. The statements for the provers, with the words they use. -/

namespace Sys2Proof.Claims

open Sys2Proof Sys2Proof.Machine

/-! ### Words the statements use -/

/-- `g` is the current group of `s`, and it has what an instruction asks before its meaning is reached: every register
it names lies in the allocation and, but for mtest's, is full, no source holds an uncorrectable word, and a supervisor instruction runs in
supervisor mode (spec 02, R56 steps 6 to 8; spec 01, R18; spec 18, R399). -/
def Ready (i : Instr) (s : State) (g : Group) : Prop :=
  s.group s.own.cur = some g ∧
  ∀ f r, i.row = some (f, r) →
    (∀ n ∈ namedRegs r f, s.owns g n.scalar n.reg = true ∧ (n.role ≠ .peek → g.isEmpty n.scalar n.reg = false) ∧
      (n.role ≠ .dst → if n.scalar then n.reg ∉ g.regs.sbad else ∀ k ∈ g.regs.vbad, k / 32 ≠ n.reg)) ∧
    (r.sup = true → g.priv = true)

/-- `t` differs from `s` in nothing but the current group, which is `g'` in `t`. Memory, every other group, every core,
every table and every unit of the device are as they were. -/
structure OnlyGroup (s t : State) (g' : Group) : Prop where
  now : t.group s.own.cur = some g'
  others : ∀ j, j ≠ s.own.cur → t.group j = s.group j
  memory : ∀ k, Mem.rd t.mem k = Mem.rd s.mem k
  rest : { t with groups := s.groups } = s

/-- `t` differs from `s` in nothing but what reads at homes and misses of the TLBs do: the counts of the banks and the symbol code, the
interleave schemes that a frame has been reached through, health counters, and the lines of the TLBs (spec 14, R331, R333, R335; spec 18, R403). -/
structure HomesOnly (s t : State) : Prop where
  rest : { t with nodes := s.nodes, l2 := s.l2, dram := s.dram, mgmt := s.mgmt } = s
  nodes : ∀ n, { t.node n with tlb := (s.node n).tlb } = s.node n
  counts : { t.mgmt with faults := s.mgmt.faults, healthNew := s.mgmt.healthNew } = s.mgmt
  dram : { t.dram with bac := s.dram.bac, rfm := s.dram.rfm, due := s.dram.due, errors := s.dram.errors, bad := s.dram.bad,
                       schemes := s.dram.schemes, fixed := s.dram.fixed } = s.dram

/-- What reads and writes at homes may change beside memory and the groups: as in `HomesOnly`, the words of slice SRAM that are encoded
anew, the answers of waits, and the model's own record of stores (spec 07, R165; spec 14, R336; spec 18, R399). -/
structure HomeWrites (s t : State) : Prop where
  rest : { t with groups := s.groups, mem := s.mem, own := s.own, nodes := s.nodes, dram := s.dram, mgmt := s.mgmt } = s
  own : { t.own with seq := s.own.seq, storeLog := s.own.storeLog, touched := s.own.touched, corRel := s.own.corRel } = s.own
  nodes : ∀ n, { t.node n with waits := (s.node n).waits } = s.node n
  waits : ∀ n, (t.node n).waits.map (fun w => { w with ans := none, bad := false }) =
    (s.node n).waits.map (fun w => { w with ans := none, bad := false })
  counts : { t.mgmt with faults := s.mgmt.faults, healthNew := s.mgmt.healthNew } = s.mgmt
  dram : { t.dram with bac := s.dram.bac, rfm := s.dram.rfm, due := s.dram.due, errors := s.dram.errors, bad := s.dram.bad,
                       schemes := s.dram.schemes, fixed := s.dram.fixed, sram := s.dram.sram } = s.dram

/-- The instruction of `g` is over and its PC is `pc`: in `g'`, EXM, registers and what `eng` names aside, nothing else has
changed, but that the group waits for nothing, that no word of its registers has become uncorrectable, and that a group in a skid has
counted the instruction (spec 18, R384). -/
structure Over (g g' : Group) (pc : Dword) : Prop where
  pc : g'.ctl.pc = pc
  free : g'.sched.hold = .none
  stack : g'.ctl.stack = g.ctl.stack
  live : g'.ctl.livem = g.ctl.livem
  guards : g'.ctl.guards = g.ctl.guards
  mode : g'.ctl.supAt = g.ctl.supAt
  sys : g.sched.skidLeft = none → g'.sys = g.sys
  empties : g'.regs.vempty = g.regs.vempty ∧ g'.regs.sempty = g.regs.sempty
  spoilt : (∀ k ∈ g'.regs.vbad, k ∈ g.regs.vbad) ∧ (∀ k ∈ g'.regs.sbad, k ∈ g.regs.sbad)
  out : g'.out = g.out
  kept : { g' with ctl := g.ctl, regs := g.regs, sys := g.sys, sched := g.sched, eng := g.eng } = g

/-- The address of the next instruction. -/
def nextPc (g : Group) (f : Fields) : Dword := g.ctl.pc + BitVec.ofNat 64 f.bytes

/-- A scalar destination is a register or EXM (spec 02, R53, R57 reason 10). -/
def ScalarDst (d : BitVec 8) : Prop := d.toNat < 128 ∨ d = 138#8

/-- The one effect is `v` in the scalar destination `d`: in EXM it is ANDed with LIVEM (spec 01, R20). -/
def ScalarWrite (s t : State) (g : Group) (d : BitVec 8) (v : Word) (pc : Dword) : Prop :=
  ∃ g', OnlyGroup s t g' ∧ Over g g' pc ∧ g'.eng = g.eng ∧ g'.regs.v = g.regs.v ∧
    (∀ r, r ≠ d.toNat → g'.rdS r = g.rdS r) ∧
    (d.toNat < 128 → g'.rdS d.toNat = v ∧ g'.ctl.exm = g.ctl.exm) ∧
    (d = 138#8 → g'.ctl.exm = v &&& g.ctl.livem ∧ g'.regs = g.regs)

/-- The one effect is `v` in the scalar pair at `d`, the even register in bits 31:0 (spec 01, R16). -/
def PairWrite (s t : State) (g : Group) (d : BitVec 8) (v : Dword) (pc : Dword) : Prop :=
  ∃ g', OnlyGroup s t g' ∧ Over g g' pc ∧ g'.eng = g.eng ∧ g'.ctl.exm = g.ctl.exm ∧ g'.regs.v = g.regs.v ∧
    (∀ r, r ≠ d.toNat → r ≠ d.toNat + 1 → g'.rdS r = g.rdS r) ∧
    g'.rdS d.toNat = v.truncate 32 ∧ g'.rdS (d.toNat + 1) = (v >>> 32).truncate 32

/-- Whether a change of the stack from `old` to `new` entries moves none off the chip, or none back on: the group keeps 16 on chip, or has no
stack area (spec 01, R22). -/
def NoSpill (s : State) (g : Group) (old new : Nat) : Prop := new ≤ 16 ∨ new ≤ old ∨ s.stackArea g = none
def NoRefill (s : State) (g : Group) (old new : Nat) : Prop := old ≤ 16 ∨ old ≤ new ∨ s.stackArea g = none

/-- The 16 bytes at a place are written as they are: they lie in the slice, or in far-memory sectors that the symbol code finds clean (spec
14, R324, R336). -/
def InPlace (s : State) (key : Nat) : Prop :=
  2 ^ 39 ≤ key ∨ (s.ecc ownIl (key / 32) = .clean ∧ s.ecc ownIl ((key + 15) / 32) = .clean)

/-- What pushes and pops that leave `stack` do to memory and its homes: nothing while no entry leaves the chip or comes back. Of deeper
stacks, the entries that leave the chip go, 16 bytes each, to their places in the group's stack area, and no byte outside it changes, nor, where
the area lies in far memory, outside its sectors (spec 01, R21, R22; the place in the area is the model's choice, log entry 58). -/
structure Spilled (s t : State) (g : Group) (stack : List Entry) : Prop where
  shallow : NoSpill s g g.ctl.stack.length stack.length → t.mem = s.mem
  quiet : NoSpill s g g.ctl.stack.length stack.length → NoRefill s g g.ctl.stack.length stack.length → { t with groups := s.groups } = s
  outside : ∀ a, s.stackArea g = some a → ∀ k, k < a ∨ a + 16 * (stack.length - 16) ≤ k →
    (2 ^ 39 ≤ a ∨ k < a / 32 * 32 ∨ (a + 16 * (stack.length - 16) + 31) / 32 * 32 ≤ k) → Mem.rd t.mem k = Mem.rd s.mem k
  entries : ∀ a, s.stackArea g = some a → ∀ i e, g.ctl.stack.length - 16 ≤ i → i + 16 < stack.length →
    stack.reverse[i]? = some e → InPlace s (a + 16 * i) → Mem.bytes t.mem (a + 16 * i) 16 = e.bytes

/-- The one effect is on the PC, EXM and the stack of the group, and on its stack area where entries leave the 16 on chip or come back. -/
def ControlWrite (s t : State) (g : Group) (pc : Dword) (exm : Word) (stack : List Entry) : Prop :=
  ∃ g', t.group s.own.cur = some g' ∧ (∀ j, j ≠ s.own.cur → t.group j = s.group j) ∧ HomeWrites s t ∧ Spilled s t g stack ∧
    Over { g with ctl := { g.ctl with stack := stack } } g' pc ∧ g'.eng = g.eng ∧ g'.regs = g.regs ∧ g'.ctl.exm = exm

/-- The PC of an entry that hardware pushes: PCLO is zero (spec 01, R21). -/
def entryPc (pc : Dword) : BitVec 56 := pc.truncate 56 &&& ~~~3

/-- The one effect is on the vector registers `ds`: register `d` of lane L receives `v d L` in the lanes of `w`, v255
discards, and every other register and lane keeps its value; a register that a matrix operation in flight still covers
takes no value that the statement names (spec 13, R291). The rollback log and the log of matrix inputs may grow (spec
18, R396). -/
def VectorWrite (s t : State) (g : Group) (w : Word) (ds : List Nat) (v : Nat → Nat → Word) (pc : Dword) : Prop :=
  ∃ g', t.group s.own.cur = some g' ∧ (∀ j, j ≠ s.own.cur → t.group j = s.group j) ∧
    (∀ k, Mem.rd t.mem k = Mem.rd s.mem k) ∧
    { t with groups := s.groups, blocks := s.blocks, mops := s.mops } = s ∧
    (∀ b, (t.block b).map (fun x => { x with shadow := none }) = (s.block b).map (fun x => { x with shadow := none })) ∧
    t.mops.map (fun o => { o with taint := [] }) = s.mops.map (fun o => { o with taint := [] }) ∧
    Over g g' pc ∧ { g'.eng with unfenced := g.eng.unfenced } = g.eng ∧ g'.ctl.exm = g.ctl.exm ∧ g'.regs.s = g.regs.s ∧
    (∀ r L, L < 32 → (r ∉ ds ∨ r = 255 ∨ w.getLsbD L = false) → g'.rdV r L = g.rdV r L) ∧
    (∀ r L, L < 32 → r ∈ ds → r ≠ 255 → w.getLsbD L = true → g.busy r = false → g'.rdV r L = v r L)

/-- A signed or unsigned 32-bit number as the UNS bit selects. -/
def view {w : Nat} (uns : Bool) (x : BitVec w) : Int := if uns then (x.toNat : Int) else x.toInt

/-- Bit j of a word read as wide as needed: copies of bit 31 beyond it when signed (spec 05, R109). -/
def wideBit (uns : Bool) (a : Word) (j : Nat) : Bool := if j < 32 then a.getLsbD j else !uns && a.getLsbD 31

/-- `v` holds the leading zero bits of `a` (spec 05, R105). -/
def IsClz (a v : Word) : Prop :=
  v.toNat ≤ 32 ∧ (∀ i, i < 32 → 32 ≤ i + v.toNat → a.getLsbD i = false) ∧ (v.toNat < 32 → a.getLsbD (31 - v.toNat) = true)

/-- `v` holds the number of set bits of `a` (spec 05, R105). -/
def IsPopc (a v : Word) : Prop := v.toNat = ((List.range 32).filter (fun i => a.getLsbD i)).length

/-- `v` is `a` with bit i moved to bit 31 − i (spec 05, R105). -/
def IsBrev (a v : Word) : Prop := ∀ i, i < 32 → v.getLsbD (31 - i) = a.getLsbD i

/-- `v` is the low `w` bits of `a`, extended to 32 (spec 05, R105). -/
def IsExt (uns : Bool) (w : Nat) (a v : Word) : Prop :=
  ∀ i, i < 32 → v.getLsbD i = if i < w then a.getLsbD i else !uns && a.getLsbD (w - 1)

/-- `v` is the field of `a` at offset min(b, 32) of width min(c, 32), extended (spec 05, R109). -/
def IsExtract (uns : Bool) (a b c v : Word) : Prop :=
  ∀ i, i < 32 → v.getLsbD i = if min c.toNat 32 = 0 then false
    else if i < min c.toNat 32 then wideBit uns a (min b.toNat 32 + i)
    else !uns && wideBit uns a (min b.toNat 32 + min c.toNat 32 - 1)

/-- `v` is `d` with `a` inserted at offset min(b, 32) with width min(c, 32) (spec 05, R109). -/
def IsInsert (d a b c v : Word) : Prop :=
  ∀ i, i < 32 → v.getLsbD i =
    if min b.toNat 32 ≤ i ∧ i < min b.toNat 32 + min c.toNat 32 then a.getLsbD (i - min b.toNat 32) else d.getLsbD i

/-- Condition code `cc` between two numbers: eq, ne, lt, le, gt, ge (spec 05, R106; spec 06, R127). -/
def Holds (cc : Nat) (x y : Int) : Prop :=
  (cc = 0 ∧ x = y) ∨ (cc = 1 ∧ x ≠ y) ∨ (cc = 2 ∧ x < y) ∨ (cc = 3 ∧ x ≤ y) ∨ (cc = 4 ∧ y < x) ∨ (5 ≤ cc ∧ y ≤ x)

end Sys2Proof.Claims

open Sys2Proof Sys2Proof.Machine Sys2Proof.Claims

/-- R104: the values of the two-operand scalar instructions. -/
def Sys2Proof.Claims.scalarTable : List ((Fields → Instr) × (Fields → Row) × (Fields → Word → Word → Word)) :=
  [(Instr.sadd, rowSadd, fun _ a b => BitVec.ofInt 32 (a.toInt + b.toInt)),
   (Instr.ssub, rowSsub, fun _ a b => BitVec.ofInt 32 (a.toInt - b.toInt)),
   (Instr.smul, rowSmul, fun _ a b => BitVec.ofInt 32 (a.toInt * b.toInt)),
   (Instr.smulh, rowSmulh, fun f a b => BitVec.ofInt 32 (view (f.m 1) a * view (f.m 1) b / 2 ^ 32)),
   (Instr.sand, rowSand, fun _ a b => a &&& b),
   (Instr.sor, rowSor, fun _ a b => a ||| b),
   (Instr.sxor, rowSxor, fun _ a b => a ^^^ b),
   (Instr.sshl, rowSshl, fun _ a b => if b.toNat < 32 then BitVec.ofNat 32 (a.toNat * 2 ^ b.toNat) else 0),
   (Instr.sshr, rowSshr, fun f a b =>
     if 32 ≤ b.toNat then (if !f.m 1 && a.toInt < 0 then 0xFFFFFFFF else 0)
     else BitVec.ofInt 32 (view (f.m 1) a / 2 ^ b.toNat)),
   (Instr.smin, rowSmin, fun f a b => BitVec.ofInt 32 (min (view (f.m 1) a) (view (f.m 1) b))),
   (Instr.smax, rowSmax, fun f a b => BitVec.ofInt 32 (max (view (f.m 1) a) (view (f.m 1) b))),
   (Instr.sdiv, rowSdiv, fun f a b =>
     if b = 0 then 0xFFFFFFFF else BitVec.ofInt 32 ((view (f.m 1) a).tdiv (view (f.m 1) b))),
   (Instr.srem, rowSrem, fun f a b =>
     if b = 0 then a
     else BitVec.ofInt 32 (view (f.m 1) a - view (f.m 1) b * (view (f.m 1) a).tdiv (view (f.m 1) b)))]

/-- R104: each two-operand scalar instruction writes the table's value to D, whatever EXM and LIVEM hold, and changes
nothing else. In the rows whose UNS must be 0 (function codes 0, 1, 2 and 4 to 7) decoding refuses MOD bit 1 set with reason 5. -/
def Obligations.ScalarArithmetic : Prop :=
  (∀ p ∈ scalarTable, ∀ (f : Fields) (s : State) (g : Group), Ready (p.1 f) s g → ScalarDst f.d →
    ∃ t, exec (p.1 f) s = .next t ∧
      ScalarWrite s t g f.d (p.2.2 f (s.opA g (p.2.1 f) f 0) (s.opB g (p.2.1 f) f 0)) (nextPc g f)) ∧
  (∀ w, w % 4 < 2 → w / 4 % 256 = 0x10 → w / 1024 % 64 ∈ [0, 1, 2, 4, 5, 6, 7] → w / 2 ^ 55 % 2 = 1 →
    decode w = .error (.illop 5 8))

/-- R105, R106, R109: what the other one-register scalar instructions leave in D: from the old D and the operands A, B
and C, a relation on the new value. -/
def Sys2Proof.Claims.scalarTable2 : List ((Fields → Instr) × (Fields → Row) × (Fields → Word → Word → Word → Word → Word → Prop)) :=
  [(Instr.smov, rowSmov, fun _ _ a _ _ v => v = a),
   (Instr.snot, rowSnot, fun _ _ a _ _ v => ∀ i, i < 32 → v.getLsbD i = !a.getLsbD i),
   (Instr.sclz, rowSclz, fun _ _ a _ _ v => IsClz a v),
   (Instr.spopc, rowSpopc, fun _ _ a _ _ v => IsPopc a v),
   (Instr.sbrev, rowSbrev, fun _ _ a _ _ v => IsBrev a v),
   (Instr.sext, rowSext, fun f _ a _ _ v => IsExt (f.m 1) (if f.mf 3 2 = 0 then 8 else 16) a v),
   (Instr.scmp, rowScmp, fun f _ a b _ v =>
     (v = 0 ∨ v = 1) ∧ (v = 1 ↔ Holds (f.mf 4 2) (view (f.m 1) a) (view (f.m 1) b))),
   (Instr.ssel, rowSsel, fun _ _ a b c v => v = if a ≠ 0 then b else c),
   (Instr.sbfe, rowSbfe, fun f _ a b c v => IsExtract (f.m 1) a b c v),
   (Instr.sbfi, rowSbfi, fun _ d a b c v => IsInsert d a b c v)]

/-- R105, R106, R109: the one-operand, compare, select and bit-field scalar instructions write what the tables say to D
and change nothing else. -/
def Obligations.ScalarMovesAndFields : Prop :=
  ∀ p ∈ scalarTable2, ∀ (f : Fields) (s : State) (g : Group), Ready (p.1 f) s g → ScalarDst f.d →
    ∃ t v, exec (p.1 f) s = .next t ∧ ScalarWrite s t g f.d v (nextPc g f) ∧
      p.2.2 f (s.readS g f.d) (s.opA g (p.2.1 f) f 0) (s.opB g (p.2.1 f) f 0) (s.opC g (p.2.1 f) f 0) v

/-- R107: the values of the 64-bit scalar instructions. -/
def Sys2Proof.Claims.pairTable : List ((Fields → Instr) × (Fields → Row) × (Fields → Dword → Dword → Dword)) :=
  [(Instr.sadd64, rowSadd64, fun _ a b => BitVec.ofInt 64 (a.toInt + b.toInt)),
   (Instr.ssub64, rowSsub64, fun _ a b => BitVec.ofInt 64 (a.toInt - b.toInt)),
   (Instr.smul64, rowSmul64, fun _ a b => BitVec.ofInt 64 (a.toInt * b.toInt)),
   (Instr.sshl64, rowSshl64, fun _ a b => if b.toNat < 64 then BitVec.ofNat 64 (a.toNat * 2 ^ b.toNat) else 0),
   (Instr.sshr64, rowSshr64, fun f a b =>
     if 64 ≤ b.toNat then (if !f.m 1 && a.toInt < 0 then BitVec.ofInt 64 (-1) else 0)
     else BitVec.ofInt 64 ((if f.m 1 then (a.toNat : Int) else a.toInt) / 2 ^ b.toNat))]

/-- R107, R108, R110: the 64-bit scalar instructions, smov64 and slea write the pair D and change nothing else. -/
def Obligations.ScalarPairs : Prop :=
  (∀ p ∈ pairTable, ∀ (f : Fields) (s : State) (g : Group), Ready (p.1 f) s g →
    ∃ t, exec (p.1 f) s = .next t ∧
      PairWrite s t g f.d (p.2.2 f (s.readSP g f.a)
        (if (p.2.1 f).repB f then (f.imm.truncate 32 : Word).signExtend 64 else s.readSP g f.b)) (nextPc g f)) ∧
  (∀ (f : Fields) (s : State) (g : Group), Ready (.smov64 f) s g →
    ∃ t, exec (.smov64 f) s = .next t ∧
      PairWrite s t g f.d (if f.len = .w128 then f.imm else s.readSP g f.a) (nextPc g f)) ∧
  (∀ (f : Fields) (s : State) (g : Group), Ready (.slea f) s g →
    ∃ t, exec (.slea f) s = .next t ∧
      PairWrite s t g f.d (BitVec.ofInt 64 ((s.readSP g f.a).toInt +
        view (f.m 1) (s.readS g f.b) * 2 ^ (if f.len = .w64 then f.c.toNat else f.imm.toNat % 256) +
        (if f.len = .w64 then 0 else (BitVec.ofNat 24 (f.imm.toNat / 256)).toInt))) (nextPc g f))

/-- R111: a PC-relative target. -/
def Sys2Proof.Claims.branchTarget (g : Group) (f : Fields) : Dword := g.ctl.pc + (f.imm.truncate 32 : Word).signExtend 64

/-- R113: the conditions of the uniform branches. -/
def Sys2Proof.Claims.branchTable : List ((Fields → Instr) × (Fields → State → Group → Prop)) :=
  [(Instr.br, fun _ _ _ => True),
   (Instr.bz, fun f s g => s.readS g f.a = 0),
   (Instr.bnz, fun f s g => s.readS g f.a ≠ 0),
   (Instr.bmz, fun f s g => s.readS g f.a &&& g.ctl.livem = 0),
   (Instr.bmnz, fun f s g => s.readS g f.a &&& g.ctl.livem ≠ 0),
   (Instr.bvany, fun f s g => ∃ L, L < 32 ∧ g.ctl.exm.getLsbD L = true ∧ s.readV g f.a.toNat L ≠ 0),
   (Instr.bvall, fun f s g => ∀ L, L < 32 → g.ctl.exm.getLsbD L = true → s.readV g f.a.toNat L ≠ 0)]

/-- R113: a uniform branch goes to its target when its condition holds and otherwise to the next instruction, with EXM,
registers, stack and memory unchanged. -/
def Obligations.UniformBranches : Prop :=
  ∀ p ∈ branchTable, ∀ (f : Fields) (s : State) (g : Group), Ready (p.1 f) s g → (branchTarget g f).toNat % 4 = 0 →
    ∃ t, exec (p.1 f) s = .next t ∧
      (p.2 f s g → ControlWrite s t g (branchTarget g f) g.ctl.exm g.ctl.stack) ∧
      (¬ p.2 f s g → ControlWrite s t g (nextPc g f) g.ctl.exm g.ctl.stack)

/-- R111: a transfer whose target's bits 1:0 are not zero raises IALIGN with the target in TRAPADDR, whether or not it
would transfer. The instruction's target 0 of bdiv, bdivw and bdivs has bits 1:0 zero, and is not this case. -/
def Sys2Proof.Claims.MisalignedTargets : Prop :=
  (∀ c ∈ [Instr.br, Instr.bz, Instr.bnz, Instr.bmz, Instr.bmnz, Instr.bvany, Instr.bvall, Instr.bdiv, Instr.bdivw,
      Instr.bdivs, Instr.call], ∀ (f : Fields) (s : State) (g : Group), Ready (c f) s g →
    (branchTarget g f).toNat % 4 ≠ 0 →
      exec (c f) s = .next (s.trap s.own.cur .ialign g.ctl.exm (branchTarget g f) 0)) ∧
  (∀ c ∈ [Instr.jmp, Instr.calli], ∀ (f : Fields) (s : State) (g : Group), Ready (c f) s g →
    (s.readSP g f.a).toNat % 4 ≠ 0 → exec (c f) s = .next (s.trap s.own.cur .ialign g.ctl.exm (s.readSP g f.a) 0))

/-- R114: the taken lanes of the three divergent branches, and the kind of the entries each pushes. -/
def Sys2Proof.Claims.divergeTable : List ((Fields → Instr) × SKind × (Fields → State → Group → Nat → Prop)) :=
  [(Instr.bdiv, .div, fun f s g L => s.readV g f.a.toNat L ≠ 0),
   (Instr.bdivw, .divw, fun f s g L => s.readV g f.a.toNat L ≠ 0),
   (Instr.bdivs, .div, fun f s g L => (s.readS g f.a).getLsbD L = true)]

/-- R114: bdiv, bdivw and bdivs push the restore entry; when the lanes diverge they push the path entry of the taken
lanes and go on with the others; when all lanes are taken they go to the target. -/
def Obligations.StructuredDivergence : Prop :=
  ∀ p ∈ divergeTable, ∀ (f : Fields) (s : State) (g : Group), Ready (p.1 f) s g →
    branchTarget g f ≠ 0 → (branchTarget g f).toNat % 4 = 0 → g.ctl.stack.length + 2 ≤ g.stackMax →
    ∃ t, ∃ tk : Word, exec (p.1 f) s = .next t ∧
      (∀ L, L < 32 → (tk.getLsbD L = true ↔ g.ctl.exm.getLsbD L = true ∧ p.2.2 f s g L)) ∧
      (tk ≠ 0 → g.ctl.exm &&& ~~~tk ≠ 0 → ControlWrite s t g (nextPc g f) (g.ctl.exm &&& ~~~tk)
        ({ waiting := false, tmo := 0, kind := p.2.1, mask := tk, pc := entryPc (branchTarget g f) } ::
          { waiting := false, tmo := 0, kind := p.2.1, mask := g.ctl.exm, pc := 0 } :: g.ctl.stack)) ∧
      (tk ≠ 0 → g.ctl.exm &&& ~~~tk = 0 → ControlWrite s t g (branchTarget g f) g.ctl.exm
        ({ waiting := false, tmo := 0, kind := p.2.1, mask := g.ctl.exm, pc := 0 } :: g.ctl.stack)) ∧
      (tk = 0 → ControlWrite s t g (nextPc g f) g.ctl.exm
        ({ waiting := false, tmo := 0, kind := p.2.1, mask := g.ctl.exm, pc := 0 } :: g.ctl.stack))

/-- R115, R116, R119, R123: the stack traps. A pop of an entry of another kind raises STKKIND with that kind in TRAPAUX;
a pop from an empty stack raises STKUND; a reserved kind, which only software can have written into the stack area, is named by its code (log
entry 58). -/
def Sys2Proof.Claims.StackTraps : Prop :=
  ∀ (f : Fields) (s : State) (g : Group),
    (∀ c ∈ [Instr.join, Instr.joinw, Instr.ret, Instr.rft, Instr.sret], Ready (c f) s g → g.ctl.stack = [] →
      exec (c f) s = .next (s.trap s.own.cur .stkund g.ctl.exm 0 0)) ∧
    (∀ p ∈ [(Instr.join, fun k => k = .call ∨ k = .trap), (Instr.joinw, fun k => k ≠ SKind.divw), (Instr.ret, fun k => k ≠ SKind.call),
        (Instr.rft, fun k => k ≠ SKind.trap), (Instr.sret, fun k => k ≠ SKind.trap)], ∀ e st, Ready (p.1 f) s g →
      g.ctl.stack = e :: st → p.2 e.kind →
      exec (p.1 f) s = .next (s.trap s.own.cur .stkkind g.ctl.exm 0
        (match e.kind with | .div => 1 | .divw => 2 | .call => 3 | .ind => 4 | .trap => 5 | .reserved c => BitVec.ofNat 64 c)))

/-- R115, R116, R119: join, joinw and ret pop the entry that their kind allows, with EXM the entry's MASK AND LIVEM. A
joinw pops a path entry and pushes the waiting entry in its place; on the second arrival, at its own waiting entry, it
pops that and takes the mask of the entry below; at a restore entry it goes on. A pop below the sixteenth entry brings one back from
the stack area (R22), from where the model keeps it and with what it makes of its reserved fields (log entry 58); where that cannot be read,
the group consumes it (spec 18, R399). -/
def Sys2Proof.Claims.StackPops : Prop :=
  ∀ (f : Fields) (s : State) (g : Group) (e : Entry) (st : List Entry), g.ctl.stack = e :: st →
    (Ready (.join f) s g → e.kind ≠ .call → e.kind ≠ .trap → s.refillBad g st = false →
      ∃ t, exec (.join f) s = .next t ∧
        ControlWrite s t g (if e.pc = 0 then nextPc g f else e.pc.zeroExtend 64) (e.mask &&& g.ctl.livem) (s.refill g st)) ∧
    (Ready (.ret f) s g → e.kind = .call → s.refillBad g st = false →
      ∃ t, exec (.ret f) s = .next t ∧ ControlWrite s t g (e.pc.zeroExtend 64) (e.mask &&& g.ctl.livem) (s.refill g st)) ∧
    (Ready (.joinw f) s g → e.kind = .divw → e.pc = 0 →
      ∃ t, exec (.joinw f) s = .next t ∧ ControlWrite s t g (nextPc g f) g.ctl.exm (e :: st)) ∧
    (Ready (.joinw f) s g → e.kind = .divw → e.pc ≠ 0 → e.pc.zeroExtend 64 ≠ g.ctl.pc →
      ∃ t, exec (.joinw f) s = .next t ∧
        ControlWrite s t g (e.pc.zeroExtend 64) (e.mask &&& g.ctl.livem)
          ({ waiting := true, tmo := f.imm.truncate 24, kind := .divw, mask := g.ctl.exm, pc := g.ctl.pc.truncate 56 } :: st)) ∧
    (∀ e' rest, st = e' :: rest → Ready (.joinw f) s g → e.kind = .divw → e.pc ≠ 0 → e.pc.zeroExtend 64 = g.ctl.pc →
      s.refillBad g st = false → ∃ t, exec (.joinw f) s = .next t ∧ ControlWrite s t g (nextPc g f) (e'.mask &&& g.ctl.livem) (s.refill g st)) ∧
    (∀ c ∈ [Instr.join, Instr.ret], Ready (c f) s g → (if c f = .join f then e.kind = .div else e.kind = .call) → s.refillBad g st = true →
      exec (c f) s = .next ((s.unspill g st).consume s.own.cur)) ∧
    (s.refillBad g st = true → 16 ≤ st.length) ∧
    (s.refill g st).length = st.length ∧
    (∀ i, i ≠ 15 → (s.refill g st)[i]? = st[i]?) ∧
    (∀ a x, s.stackArea g = some a → st[15]? = some x →
      (s.refill g st)[15]? = some (x.refilled (s.peek (a + 16 * (st.length - 16)) 16))) ∧
    (∀ a, 2 ^ 39 ≤ a → s.peek a 16 = Mem.bytes s.mem a 16)

/-- R115, R116, R119, R123, R278: what the pops of the stack do, and the traps of those that the stack does not allow. The place of an entry
in the stack area, and what comes back of one that software has changed there, are the model's choice (log entry 58). -/
def Obligations.StackReturns : Prop := Sys2Proof.Claims.StackPops ∧ Sys2Proof.Claims.StackTraps

/-- R111: the trap of transfers of control to targets that are not aligned. That it comes before STKOVF on a full stack is the model's choice
(log entry 100). -/
def Obligations.ControlTraps : Prop := Sys2Proof.Claims.MisalignedTargets

/-- R119: jmp goes to its target; call and calli push the CALL entry with the address of the next instruction and go to
theirs; a full stack raises STKOVF with the stack unchanged, after IALIGN (the model's choice, log entry 100). -/
def Sys2Proof.Claims.JumpsAndCalls : Prop :=
  ∀ (f : Fields) (s : State) (g : Group),
    (Ready (.jmp f) s g → (s.readSP g f.a).toNat % 4 = 0 →
      ∃ t, exec (.jmp f) s = .next t ∧ ControlWrite s t g (s.readSP g f.a) g.ctl.exm g.ctl.stack) ∧
    (∀ p ∈ [(Instr.call, branchTarget g f), (Instr.calli, s.readSP g f.a)], Ready (p.1 f) s g → p.2.toNat % 4 = 0 →
      (g.ctl.stack.length < g.stackMax →
        ∃ t, exec (p.1 f) s = .next t ∧ ControlWrite s t g p.2 g.ctl.exm
          ({ waiting := false, tmo := 0, kind := .call, mask := g.ctl.exm, pc := entryPc (nextPc g f) } ::
            g.ctl.stack)) ∧
      (g.visitor = none → 256 ≤ g.ctl.stack.length →
        exec (p.1 f) s = .next (s.trap s.own.cur .stkovf g.ctl.exm 0 0)))

/-- The target of a lane of a jmpi (spec 05, R120). -/
def Sys2Proof.Claims.jmpiTarget (f : Fields) (s : State) (g : Group) (L : Nat) : Dword :=
  pairOf (s.readV g f.a.toNat L) (s.readV g f.b.toNat L)

/-- `s` after the translation and reading of every active lane's target, which may fill the TLBs (spec 18, R403). -/
def Sys2Proof.Claims.looked (f : Fields) (s : State) (g : Group) : State :=
  (lanesOf g.ctl.exm).foldl (fun u L => u.landed g (jmpiTarget f s g L)) s

/-- R120, R121: jmpi, when every active lane's target is aligned, not zero, readable, fetchable and marked LAND: it pushes the restore entry and
one entry for each further distinct target, ascending, and goes on with the lanes of the lowest. -/
def Sys2Proof.Claims.IndirectJump : Prop :=
  ∀ (f : Fields) (s : State) (g : Group), Ready (.jmpi f) s g →
    (∀ L, L < 32 → g.ctl.exm.getLsbD L = true →
      (jmpiTarget f s g L).toNat % 4 = 0 ∧ jmpiTarget f s g L ≠ 0 ∧ s.landBad g (jmpiTarget f s g L) = false ∧
      (∃ w, (looked f s g).fetch g (jmpiTarget f s g L) = .ok w) ∧ (looked f s g).landBit g (jmpiTarget f s g L) = true) →
    g.ctl.stack.length + 32 ≤ g.stackMax →
    HomesOnly s (looked f s g) ∧ ∃ t, exec (.jmpi f) s = .next t ∧
      (g.ctl.exm = 0 → ControlWrite s t g (nextPc g f) 0
        ({ waiting := false, tmo := 0, kind := .ind, mask := 0, pc := 0 } :: g.ctl.stack)) ∧
      (g.ctl.exm ≠ 0 → ∃ us : List (Nat × Word), ∃ u : Nat × Word,
        (u :: us).Pairwise (fun p q => p.1 < q.1) ∧
        (∀ p ∈ u :: us, p.1 < 2 ^ 64 ∧ ∃ L, L < 32 ∧ p.2.getLsbD L = true) ∧
        (∀ p ∈ u :: us, ∀ L, L < 32 → (p.2.getLsbD L = true ↔ g.ctl.exm.getLsbD L = true ∧
          (jmpiTarget f s g L).toNat = p.1)) ∧
        (∀ L, L < 32 → g.ctl.exm.getLsbD L = true → ∃ p ∈ u :: us, p.2.getLsbD L = true) ∧
        ControlWrite (looked f s g) t g (BitVec.ofNat 64 u.1) u.2
          (us.map (fun p => { waiting := false, tmo := 0, kind := .ind, mask := p.2, pc := entryPc (BitVec.ofNat 64 p.1) }) ++
            { waiting := false, tmo := 0, kind := .ind, mask := g.ctl.exm, pc := 0 } :: g.ctl.stack))

/-- R119 to R121: jumps, calls and indirect jumps. -/
def Obligations.JumpsCallsAndTargets : Prop := Sys2Proof.Claims.JumpsAndCalls ∧ Sys2Proof.Claims.IndirectJump

/-- No matrix command waits at core `n`: the FIFOs are empty, no group is at the latch, and every other group there has a lane. -/
def Sys2Proof.Claims.NoMatrixWaits (s : State) (n : Nat) : Prop :=
  ∀ p ∈ s.groups, p.2.owner = n → p.2.eng.matQ = [] ∧ p.2.atLatch = none ∧ (p.1 ≠ s.own.cur → p.2.ctl.livem ≠ 0)

/-- R44, R122: nop only advances; exit makes the lanes of EXM leave, exitm those of EXM AND A: they are cleared in LIVEM
and EXM for good, and while a lane stays the group goes on; without one it retires once its producers have landed. What waits at
the core's matrix unit may move on at that point, so the statement is about a core at which nothing waits there.
That an exit with EXM zero only advances, and what a retirement waits for, are the model's reading (log entries 83 and 102). -/
def Obligations.LeavingLanes : Prop :=
  ∀ (f : Fields) (s : State) (g : Group),
    (Ready (.nop f) s g → ∃ t, exec (.nop f) s = .next t ∧ ControlWrite s t g (nextPc g f) g.ctl.exm g.ctl.stack) ∧
    (∀ p ∈ [(Instr.exit, g.ctl.exm), (Instr.exitm, g.ctl.exm &&& s.opA g (rowExitm f) f 0)], Ready (p.1 f) s g →
      g.visitor = none → NoMatrixWaits s g.owner →
      ∃ t, exec (p.1 f) s = .next t ∧ (∀ j, j ≠ s.own.cur → g.ctl.livem &&& ~~~p.2 ≠ 0 → t.group j = s.group j) ∧
        (g.ctl.livem &&& ~~~p.2 ≠ 0 → ∃ g', OnlyGroup s t g' ∧
          Over { g with ctl := { g.ctl with livem := g.ctl.livem &&& ~~~p.2 } } g' (nextPc g f) ∧
          g'.ctl.exm = g.ctl.exm &&& ~~~p.2 ∧ g'.regs = g.regs ∧ g'.eng = g.eng) ∧
        (g.ctl.livem &&& ~~~p.2 = 0 → s.producing s.own.cur = false → t.group s.own.cur = none))

/-- R127: the element width. -/
def Sys2Proof.Claims.width (f : Fields) : Nat := if f.mf 4 3 = 0 then 32 else if f.mf 4 3 = 1 then 16 else 8

/-- Element i of `w` bits of a word (spec 04, R81). -/
def Sys2Proof.Claims.el (w : Nat) (x : Word) (i : Nat) : BitVec w := x.extractLsb' (w * i) w

/-- Saturation of a number to `w` bits of a view (spec 06, R128). -/
def Sys2Proof.Claims.sat (uns : Bool) (w : Nat) (x : Int) : Int :=
  max (if uns then 0 else -(2 ^ (w - 1))) (min x (if uns then 2 ^ w - 1 else 2 ^ (w - 1) - 1))

/-- R128, R129: an element of D as a number, taken modulo 2^W, from the elements of A and B, for the element-wise
instructions of two sources. -/
def Sys2Proof.Claims.vectorTable :
    List ((Fields → Instr) × (Fields → Row) × (Fields → (w : Nat) → BitVec w → BitVec w → Int)) :=
  [(Instr.vadd, rowVadd, fun _ _ a b => a.toInt + b.toInt),
   (Instr.vsub, rowVsub, fun _ _ a b => a.toInt - b.toInt),
   (Instr.vmul, rowVmul, fun _ _ a b => a.toInt * b.toInt),
   (Instr.vmulh, rowVmulh, fun f w a b => view (f.m 2) a * view (f.m 2) b / 2 ^ w),
   (Instr.vshl, rowVshl, fun _ w a b => if b.toNat < w then a.toInt * 2 ^ b.toNat else 0),
   (Instr.vshr, rowVshr, fun f w a b => if b.toNat < w then view (f.m 2) a / 2 ^ b.toNat
     else if view (f.m 2) a < 0 then -1 else 0),
   (Instr.vmin, rowVmin, fun f _ a b => min (view (f.m 2) a) (view (f.m 2) b)),
   (Instr.vmax, rowVmax, fun f _ a b => max (view (f.m 2) a) (view (f.m 2) b)),
   (Instr.vabsd, rowVabsd, fun f _ a b => |view (f.m 2) a - view (f.m 2) b|),
   (Instr.vadds, rowVadds, fun f w a b => sat (f.m 2) w (view (f.m 2) a + view (f.m 2) b)),
   (Instr.vsubs, rowVsubs, fun f w a b => sat (f.m 2) w (view (f.m 2) a - view (f.m 2) b))]

/-- R125, R128: each element-wise integer instruction of two sources writes the table's value to every element of D in the lanes of W, and
changes nothing else. -/
def Obligations.VectorElements : Prop :=
  ∀ p ∈ vectorTable, ∀ (f : Fields) (s : State) (g : Group), Ready (p.1 f) s g →
    ∃ t, ∃ v : Nat → Word, exec (p.1 f) s = .next t ∧
      VectorWrite s t g g.wset [f.d.toNat] (fun _ L => v L) (nextPc g f) ∧
      ∀ L, L < 32 → ∀ i, i < 32 / width f →
        el (width f) (v L) i = BitVec.ofInt (width f) (p.2.2 f (width f)
          (el (width f) (s.opA g (p.2.1 f) f L) i) (el (width f) (s.opB g (p.2.1 f) f L) i))

/-- R128: a lane of D, a relation on its new value, from the old D and the operands, for the other integer instructions. -/
def Sys2Proof.Claims.vectorTable2 :
    List ((Fields → Instr) × (Fields → Row) × (Fields → Word → Word → Word → Word → Word → Prop)) :=
  [(Instr.vand, rowVand, fun _ _ a b _ v => v = a &&& b),
   (Instr.vor, rowVor, fun _ _ a b _ v => v = a ||| b),
   (Instr.vxor, rowVxor, fun _ _ a b _ v => v = a ^^^ b),
   (Instr.vmad, rowVmad, fun _ _ a b c v => v = BitVec.ofNat 32 (a.toNat * b.toNat + c.toNat)),
   (Instr.vsel, rowVsel, fun _ _ a b c v => v = if a ≠ 0 then b else c),
   (Instr.vbfe, rowVbfe, fun f _ a b c v => IsExtract (f.m 2) a b c v),
   (Instr.vbfi, rowVbfi, fun _ d a b c v => IsInsert d a b c v),
   (Instr.vmov, rowVmov, fun _ _ a _ _ v => v = a),
   (Instr.vnot, rowVnot, fun _ _ a _ _ v => ∀ i, i < 32 → v.getLsbD i = !a.getLsbD i),
   (Instr.vneg, rowVneg, fun f _ a _ _ v => ∀ i, i < 32 / width f →
     el (width f) v i = BitVec.ofInt (width f) (-(el (width f) a i).toInt)),
   (Instr.vabs, rowVabs, fun f _ a _ _ v => ∀ i, i < 32 / width f →
     el (width f) v i = BitVec.ofInt (width f) |(el (width f) a i).toInt|),
   (Instr.vclz, rowVclz, fun _ _ a _ _ v => IsClz a v),
   (Instr.vpopc, rowVpopc, fun _ _ a _ _ v => IsPopc a v),
   (Instr.vbrev, rowVbrev, fun _ _ a _ _ v => IsBrev a v),
   (Instr.vext, rowVext, fun f _ a _ _ v => IsExt (f.m 2) (width f) a v),
   (Instr.vcmp, rowVcmp, fun f _ a b _ v => ∀ i, i < 32 / width f →
     (el (width f) v i = 0 ∨ el (width f) v i = 1) ∧ (el (width f) v i = 1 ↔
       Holds (f.mf 7 5) (view (f.m 2) (el (width f) a i)) (view (f.m 2) (el (width f) b i))))]

/-- R125, R128, R129: the other integer instructions of one vector destination, in the lanes of W. -/
def Sys2Proof.Claims.VectorWords : Prop :=
  ∀ p ∈ vectorTable2, ∀ (f : Fields) (s : State) (g : Group), Ready (p.1 f) s g →
    ∃ t, ∃ v : Nat → Word, exec (p.1 f) s = .next t ∧
      VectorWrite s t g g.wset [f.d.toNat] (fun _ L => v L) (nextPc g f) ∧
      ∀ L, L < 32 → p.2.2 f (s.readV g f.d.toNat L) (s.opA g (p.2.1 f) f L) (s.opB g (p.2.1 f) f L)
        (s.opC g (p.2.1 f) f L) (v L)

/-- R129, R134, R141, R143: vcmpm, its float form, vballot and vreduce write the scalar D, the masks with no bit of a lane outside
EXM, and no vector lane. -/
def Sys2Proof.Claims.MaskResults : Prop :=
  ∀ (f : Fields) (s : State) (g : Group), ScalarDst f.d →
    (∀ p ∈ [(Instr.vcmpm, rowVcmpm f, fun L => Holds (f.mf 7 5) (view (f.m 2) (s.opA g (rowVcmpm f) f L))
          (view (f.m 2) (s.opB g (rowVcmpm f) f L))),
        (Instr.vcmpmF32, rowVcmpmF32 f, fun L =>
          condFloat (f.mf 6 4) (s.opA g (rowVcmpmF32 f) f L) (s.opB g (rowVcmpmF32 f) f L) = true),
        (Instr.vballot, rowVballot f, fun L => s.readV g f.a.toNat L ≠ 0)], Ready (p.1 f) s g →
      ∃ t v, exec (p.1 f) s = .next t ∧ ScalarWrite s t g f.d v (nextPc g f) ∧
        ∀ L, L < 32 → (v.getLsbD L = true ↔ g.ctl.exm.getLsbD L = true ∧ p.2.2 L)) ∧
    (Ready (.vreduce f) s g → ∃ t v, exec (.vreduce f) s = .next t ∧ ScalarWrite s t g f.d v (nextPc g f) ∧
      (g.ctl.exm = 0 → v = 0) ∧
      (f.m 5 = false → f.mf 7 6 = 0 →
        v = BitVec.ofNat 32 (((List.range 32).filter (fun L => g.ctl.exm.getLsbD L)).map
          (fun L => (s.readV g f.a.toNat L).toNat)).sum))

/-- R130: vadd64 and vmulw write the pair D in the lanes of W. -/
def Sys2Proof.Claims.VectorPairs : Prop :=
  ∀ (f : Fields) (s : State) (g : Group),
    (Ready (.vadd64 f) s g → ∃ t, ∃ v : Nat → Dword, exec (.vadd64 f) s = .next t ∧
      VectorWrite s t g g.wset [f.d.toNat, f.d.toNat + 1]
        (fun r L => if r = f.d.toNat then (v L).truncate 32 else (v L >>> 32).truncate 32) (nextPc g f) ∧
      ∀ L, v L = BitVec.ofNat 64 ((s.readV2 g f.a.toNat L).toNat + (s.readV2 g f.b.toNat L).toNat)) ∧
    (Ready (.vmulw f) s g → ∃ t, ∃ v : Nat → Dword, exec (.vmulw f) s = .next t ∧
      VectorWrite s t g g.wset [f.d.toNat, f.d.toNat + 1]
        (fun r L => if r = f.d.toNat then (v L).truncate 32 else (v L >>> 32).truncate 32) (nextPc g f) ∧
      ∀ L, v L = BitVec.ofInt 64 (view (f.m 2) (s.readV g f.a.toNat L) * view (f.m 2) (s.readV g f.b.toNat L)))

/-- R125, R128 to R130: the integer vector instructions that do not take the elements of two sources. -/
def Obligations.VectorWordsAndPairs : Prop := Sys2Proof.Claims.VectorWords ∧ Sys2Proof.Claims.VectorPairs

/-- R131, R134, R136, R137, R138: the value each float and conversion instruction of one vector destination leaves in a
lane, by the model's number operations (spec 04), which round the exact value once. -/
def Sys2Proof.Claims.floatTable : List ((Fields → Instr) × (Fields → Row) × (Fields → Word → Word → Word → Word)) :=
  [(Instr.vaddF32, rowVaddF32, fun f a b _ => fenc (f.mf 3 2) ((fval a).add (f.mf 3 2) (fval b))),
   (Instr.vsubF32, rowVsubF32, fun f a b _ => fenc (f.mf 3 2) ((fval a).add (f.mf 3 2) (fval b).neg)),
   (Instr.vmulF32, rowVmulF32, fun f a b _ => fenc (f.mf 3 2) ((fval a).mul (fval b))),
   (Instr.vminF32, rowVminF32, fun _ a b _ => fminmax false a b),
   (Instr.vmaxF32, rowVmaxF32, fun _ a b _ => fminmax true a b),
   (Instr.vdiv, rowVdiv, fun f a b _ => fdiv (f.mf 3 2) a b),
   (Instr.vfma, rowVfma, fun f a b c => fenc (f.mf 3 2) (((fval a).mul (fval b)).add (f.mf 3 2) (fval c))),
   (Instr.vfms, rowVfms, fun f a b c => fenc (f.mf 3 2) (((fval a).mul (fval b)).add (f.mf 3 2) (fval c).neg)),
   (Instr.vabsF32, rowVabsF32, fun _ a _ _ => BitVec.ofNat 32 (a.toNat % 2 ^ 31)),
   (Instr.vnegF32, rowVnegF32, fun _ a _ _ => if a.toNat < 2 ^ 31 then BitVec.ofNat 32 (a.toNat + 2 ^ 31) else BitVec.ofNat 32 (a.toNat - 2 ^ 31)),
   (Instr.vsqrt, rowVsqrt, fun f a _ _ => BitVec.ofNat 32 (fp32.sqrt (f.mf 3 2) (fval a))),
   (Instr.vrcp, rowVrcp, fun f a _ _ => fdiv (f.mf 3 2) 0x3F800000 a),
   (Instr.vrsq, rowVrsq, fun f a _ _ => BitVec.ofNat 32 (fp32.rsq (f.mf 3 2) (fval a))),
   (Instr.vexp2, rowVexp2, fun f a _ _ => BitVec.ofNat 32 (fexp2 (f.mf 3 2) a)),
   (Instr.vlog2, rowVlog2, fun f a _ _ => BitVec.ofNat 32 (flog2 (f.mf 3 2) a)),
   (Instr.vrnd, rowVrnd, fun f a _ _ => BitVec.ofNat 32 (frnd (f.mf 3 2) a)),
   (Instr.vclass, rowVclass, fun _ a _ _ => fclass a),
   (Instr.vcmpF32, rowVcmpF32, fun f a b _ => if condFloat (f.mf 6 4) a b then 1 else 0),
   (Instr.vcvt, rowVcvt, fun f a _ _ =>
     BitVec.ofNat 32 ((floatCode (f.mf 9 7)).enc (f.mf 3 2) ((floatCode (f.mf 6 4)).val a.toNat))),
   (Instr.vcvtq, rowVcvtq, fun f a _ _ => BitVec.ofInt 32 (toIntSat (f.mf 3 2) (f.mf 9 4) false 32 (fval a))),
   (Instr.vcvtqf, rowVcvtqf, fun f a _ _ => BitVec.ofNat 32 (fp32.ofInt (f.mf 3 2) a.toInt (f.mf 9 4)))]

/-- R125, R131, R137, R138: each float and conversion instruction of one vector destination writes its value in the lanes of W, and
changes nothing else.
A vexp2 or vlog2 whose bounds do not round alike gives a free value (log entry 18), and the sign of a value that rounds to zero is the
model's reading (log entry 99). -/
def Obligations.VectorFloats : Prop :=
  ∀ p ∈ floatTable, ∀ (f : Fields) (s : State) (g : Group), Ready (p.1 f) s g →
    ∃ t, exec (p.1 f) s = .next t ∧
      VectorWrite s t g g.wset [f.d.toNat]
        (fun _ L => p.2.2 f (s.opA g (p.2.1 f) f L) (s.opB g (p.2.1 f) f L) (s.opC g (p.2.1 f) f L)) (nextPc g f)

/-- R136: the two 16-bit elements of vadd2, vmul2 and vfma2 are each rounded once, independently. -/
def Sys2Proof.Claims.PackedHalves : Prop :=
  ∀ p ∈ [(Instr.vadd2, rowVadd2, fun (m : Nat) (a b _ : FVal) => a.add m b),
      (Instr.vmul2, rowVmul2, fun _ a b _ => a.mul b),
      (Instr.vfma2, rowVfma2, fun m a b c => (a.mul b).add m c)],
    ∀ (f : Fields) (s : State) (g : Group), Ready (p.1 f) s g →
    ∃ t, ∃ v : Nat → Word, exec (p.1 f) s = .next t ∧
      VectorWrite s t g g.wset [f.d.toNat] (fun _ L => v L) (nextPc g f) ∧
      ∀ L, L < 32 → ∀ i, i < 2 →
        (el 16 (v L) i).toNat = (if f.m 4 then fp16 else bf16).enc (f.mf 3 2) (p.2.2 (f.mf 3 2)
          ((if f.m 4 then fp16 else bf16).val (el 16 (s.opA g (p.2.1 f) f L) i).toNat)
          ((if f.m 4 then fp16 else bf16).val (el 16 (s.opB g (p.2.1 f) f L) i).toNat)
          ((if f.m 4 then fp16 else bf16).val (el 16 (s.opC g (p.2.1 f) f L) i).toNat)) % 2 ^ 16

/-- R133, R134, R135: minimum and maximum put −0 below +0 and pass over one NaN; every condition but ne and un is false of
a NaN; −0 equals +0; a class mask has one bit, the one of R135. -/
def Obligations.FloatCases : Prop :=
  (∀ mx a b, isNan a = true → isNan b = true → fminmax mx a b = 0x7FC00000) ∧
  (∀ mx a b, isNan a = true → isNan b = false → fminmax mx a b = b ∧ fminmax mx b a = b) ∧
  (fminmax false 0 0x80000000 = 0x80000000 ∧ fminmax true 0 0x80000000 = 0 ∧ fminmax false 0x80000000 0 = 0x80000000 ∧
    fminmax true 0x80000000 0 = 0) ∧
  (∀ cc a b, cc < 8 → (isNan a || isNan b) = true → (condFloat cc a b = true ↔ cc = 1 ∨ cc = 6)) ∧
  (condFloat 0 0 0x80000000 = true ∧ condFloat 2 0x80000000 0 = false) ∧
  (∀ a, ∃ n, n < 10 ∧ fclass a = BitVec.ofNat 32 (2 ^ n) ∧ (isNan a = true ↔ n = 8 ∨ n = 9)) ∧
  (fclass 0xFF800000 = 1 ∧ fclass 0x80000000 = 8 ∧ fclass 0 = 16 ∧ fclass 0x7F800000 = 128 ∧ fclass 1 = 32 ∧
    fclass 0x3F800000 = 64 ∧ fclass 0x7F800001 = 256 ∧ fclass 0x7FC00000 = 512)

/-- R137, R139: vcvti writes its saturated result to D, or to the pair D for a 64-bit target; vcvtf reads a register or a
pair; vcvtn replaces two elements of D and keeps its other bits. The high word of a 64-bit source in the 96-bit length
is a free value (log entry 23), of which nothing is said. -/
def Obligations.Conversions : Prop :=
  ∀ (f : Fields) (s : State) (g : Group),
    (Ready (.vcvti f) s g → ∃ t, ∃ v : Nat → Int, exec (.vcvti f) s = .next t ∧
      (∀ L, v L = toIntSat (f.mf 3 2) 0 (f.mf 9 7 % 2 = 1)
        (if f.mf 9 7 / 2 = 0 then 32 else if f.mf 9 7 / 2 = 1 then 64 else if f.mf 9 7 / 2 = 2 then 16 else 8)
        ((floatCode (f.mf 6 4)).val (s.opA g (rowVcvti f) f L).toNat)) ∧
      (f.mf 9 7 / 2 ≠ 1 → VectorWrite s t g g.wset [f.d.toNat] (fun _ L => BitVec.ofInt 32 (v L)) (nextPc g f)) ∧
      (f.mf 9 7 / 2 = 1 → VectorWrite s t g g.wset [f.d.toNat, f.d.toNat + 1]
        (fun r L => if r = f.d.toNat then BitVec.ofInt 32 (v L) else BitVec.ofInt 32 (v L / 2 ^ 32)) (nextPc g f))) ∧
    (Ready (.vcvtf f) s g → ∃ t, ∃ v : Nat → Word, exec (.vcvtf f) s = .next t ∧
      VectorWrite s t g g.wset [f.d.toNat] (fun _ L => v L) (nextPc g f) ∧
      (f.mf 6 4 / 2 = 0 → ∀ L, v L = BitVec.ofNat 32 ((floatCode (f.mf 9 7)).ofInt (f.mf 3 2)
        (view (f.mf 6 4 % 2 = 1) (s.opA g (rowVcvtf f) f L)) 0)) ∧
      (f.mf 6 4 / 2 = 1 → f.len = .w64 → ∀ L, v L = BitVec.ofNat 32 ((floatCode (f.mf 9 7)).ofInt (f.mf 3 2)
        (view (f.mf 6 4 % 2 = 1) (s.readV2 g f.a.toNat L)) 0))) ∧
    (Ready (.vcvtn f) s g → ∃ t, ∃ v : Nat → Word, exec (.vcvtn f) s = .next t ∧
      VectorWrite s t g g.wset [f.d.toNat] (fun _ L => v L) (nextPc g f) ∧
      ∀ L, L < 32 → ∀ i, i < 32 →
        (i < 2 * f.mf 9 7 * (floatCode (f.mf 6 4)).bits ∨ (2 * f.mf 9 7 + 2) * (floatCode (f.mf 6 4)).bits ≤ i) →
        (v L).getLsbD i = (s.readV g f.d.toNat L).getLsbD i)

/-- R219: element i of the packed result. -/
def Sys2Proof.Claims.packTable : List ((Fields → Instr) × (Fields → Row) × Nat × (Fields → Word → Word → Nat → Int)) :=
  [(Instr.vpk8, rowVpk8, 8, fun f a b i => sat (f.m 3) 8 (view (f.m 2) (el 16 (if i < 2 then a else b) (i % 2)))),
   (Instr.vupk8, rowVupk8, 16, fun f a b i => view (f.m 2) (el 8 a (2 * (b.toNat % 2) + i))),
   (Instr.vpk4, rowVpk4, 4, fun f a b i => sat (f.m 3) 4 (view (f.m 2) (el 8 (if i < 4 then a else b) (i % 4)))),
   (Instr.vupk4, rowVupk4, 8, fun f a b i => view (f.m 2) (el 4 a (4 * (b.toNat % 2) + i)))]

/-- R214, R219: the integer dot products and the packing instructions, in the lanes of W. -/
def Sys2Proof.Claims.PackedIntegers : Prop :=
  (∀ p ∈ packTable, ∀ (f : Fields) (s : State) (g : Group), Ready (p.1 f) s g →
    ∃ t, ∃ v : Nat → Word, exec (p.1 f) s = .next t ∧
      VectorWrite s t g g.wset [f.d.toNat] (fun _ L => v L) (nextPc g f) ∧
      ∀ L, L < 32 → ∀ i, i < 32 / p.2.2.1 → el p.2.2.1 (v L) i =
        BitVec.ofInt p.2.2.1 (p.2.2.2 f (s.opA g (p.2.1 f) f L) (s.opB g (p.2.1 f) f L) i)) ∧
  (∀ p ∈ [(Instr.vdot8, 8), (Instr.vdot4, 4)], ∀ (f : Fields) (s : State) (g : Group), Ready (p.1 f) s g →
    ∃ t, ∃ v : Nat → Word, exec (p.1 f) s = .next t ∧
      VectorWrite s t g g.wset [f.d.toNat] (fun _ L => v L) (nextPc g f) ∧
      (f.mf 2 1 < 2 → ∀ L, L < 32 → v L = BitVec.ofInt 32 ((s.readV g f.c.toNat L).toInt +
        ((List.range (32 / p.2)).map (fun i => view (f.mf 2 1 = 1) (el p.2 (s.readV g f.a.toNat L) i) *
          view (f.mf 4 3 = 1) (el p.2 (s.readV g f.b.toNat L) i))).sum)))

/-- R136, R214, R219: the packed elements. -/
def Obligations.PackedElements : Prop := Sys2Proof.Claims.PackedHalves ∧ Sys2Proof.Claims.PackedIntegers

/-- The position of the highest bit of a finite FP32 magnitude that is not zero: floor(log2) (spec 04, R82; spec 09, R216). -/
def Sys2Proof.Claims.floorLog2 (mag : Nat) : Int := if mag < 2 ^ 23 then (Nat.log2 mag : Int) - 149 else (mag / 2 ^ 23 : Nat) - 127

/-- R215, R216, R218: the value that vscale, vsc8 and vdeq leave in a lane, from its A and B: a product with one or two powers of two,
rounded once; the scale byte that fits a magnitude; an element of A under its scale byte. -/
def Sys2Proof.Claims.scaleTable : List ((Fields → Instr) × (Fields → Row) × (Fields → Word → Word → Word)) :=
  [(Instr.vscale, rowVscale, fun f a b => fenc (f.mf 3 2)
     (if f.m 4 then ((fval a).mul (e8m0 (b.toNat % 256))).mul (e8m0 (b.toNat / 256 % 256))
      else (fval a).mul (e8m0 (b.toNat % 256)))),
   (Instr.vsc8, rowVsc8, fun f a _ =>
     if a.toNat % 2 ^ 31 = 0 then 0 else if 0x7F800000 ≤ a.toNat % 2 ^ 31 then 255
     else BitVec.ofInt 32 (max 0 (min 254 (floorLog2 (a.toNat % 2 ^ 31) -
       (if f.mf 4 1 = 3 then 8 else if f.mf 4 1 = 4 then 15 else if f.mf 4 1 = 5 then 2 else 6) + 127)))),
   (Instr.vdeq, rowVdeq, fun f a b => fenc 0 ((codeVal (f.mf 5 2)
     (a.toNat / 2 ^ (f.mf 8 6 * codeWidth (f.mf 5 2)) % 2 ^ codeWidth (f.mf 5 2))).mul (e8m0 (b.toNat % 256))))]

/-- R215 to R218, R220: the scaling, quantising and Hadamard instructions, by the model's number operations (spec 04). vscale, vsc8 and
vdeq write the table's value in the lanes of W, where a scale byte of 0xFF gives the canonical NaN. vamax gives every lane of W the largest
magnitude of the lanes of EXM, the canonical NaN where one of them is a NaN. vqnt replaces one element slot of D with A converted and keeps
the other bits: without SR rounded to nearest, with SR by the generator's word. vhad transforms the 128 inputs and writes all lanes
of four registers when EXM is not zero, and nothing otherwise; in a visitor an absent lane reads as zero and is not written (spec 12,
R268), one that a hop has handed on too (the model's reading, log entry 113). -/
def Obligations.Quantising : Prop :=
  ∀ (f : Fields) (s : State) (g : Group),
    (∀ p ∈ scaleTable, Ready (p.1 f) s g → ∃ t, exec (p.1 f) s = .next t ∧
      VectorWrite s t g g.wset [f.d.toNat] (fun _ L => p.2.2 f (s.opA g (p.2.1 f) f L) (s.opB g (p.2.1 f) f L)) (nextPc g f)) ∧
    (∀ a b, b.toNat % 256 = 255 → ∀ p ∈ scaleTable, p.1 f ≠ .vsc8 f → p.2.2 f a b = 0x7FC00000) ∧
    (Ready (.vamax f) s g → ∃ t m, exec (.vamax f) s = .next t ∧
      VectorWrite s t g g.wset [f.d.toNat] (fun _ _ => m) (nextPc g f) ∧
      ((∃ L, L < 32 ∧ g.ctl.exm.getLsbD L = true ∧ isNan (s.readV g f.a.toNat L) = true) → m = 0x7FC00000) ∧
      (g.ctl.exm ≠ 0 → (∀ L, L < 32 → g.ctl.exm.getLsbD L = true → isNan (s.readV g f.a.toNat L) = false) →
        (∃ L, L < 32 ∧ g.ctl.exm.getLsbD L = true ∧ m.toNat = (s.readV g f.a.toNat L).toNat % 2 ^ 31) ∧
        ∀ L, L < 32 → g.ctl.exm.getLsbD L = true → (s.readV g f.a.toNat L).toNat % 2 ^ 31 ≤ m.toNat)) ∧
    (Ready (.vqnt f) s g → ∃ t, ∃ v : Nat → Word, exec (.vqnt f) s = .next t ∧
      VectorWrite s t g g.wset [f.d.toNat] (fun _ L => v L) (nextPc g f) ∧
      ∀ L, L < 32 → ∀ i, i < 32 → (v L).getLsbD i =
        if f.mf 7 5 * codeWidth (f.mf 4 1) ≤ i ∧ i < (f.mf 7 5 + 1) * codeWidth (f.mf 4 1) then
          (quantise (f.mf 4 1) (f.m 8) (gen (s.readV g f.c.toNat L) (s.readV g f.b.toNat L)).toNat (s.readV g f.a.toNat L)).testBit
            (i - f.mf 7 5 * codeWidth (f.mf 4 1))
        else (s.readV g f.d.toNat L).getLsbD i) ∧
    (∀ c r a, quantise c false r a = if codeInt c then (BitVec.ofInt (codeWidth c) (toIntSat 0 0 false (codeWidth c) (fval a))).toNat
      else (codeFmt c).enc 0 (fval a)) ∧
    (Ready (.vhad f) s g → ∃ t, ∃ y : List Word, exec (.vhad f) s = .next t ∧
      y = (if f.m 1 then hadamardInv else hadamard) ((s.readSP g f.b).truncate 32)
        ((List.range 128).map (fun j => s.readLane g (f.a.toNat + j / 32) (j % 32))) ∧
      (g.ctl.exm = 0 → VectorWrite s t g 0 [] (fun _ _ => 0) (nextPc g f)) ∧
      (g.ctl.exm ≠ 0 → VectorWrite s t g (if g.visitor.isSome then g.ctl.livem else 0xFFFFFFFF)
        [f.d.toNat, f.d.toNat + 1, f.d.toNat + 2, f.d.toNat + 3]
        (fun r L => y.getD (32 * (r - f.d.toNat) + L) 0) (nextPc g f)))

/-- R140: the source lanes of the exchanges, from the lane, the segment width and the value of B. -/
def Sys2Proof.Claims.exchangeTable : List ((Fields → Instr) × (Fields → Row) × (Nat → Nat → Nat → Nat)) :=
  [(Instr.vshfl, rowVshfl, fun w L n => L - L % w + n % w),
   (Instr.vshup, rowVshup, fun w L n => if n < w ∧ L - L % w + n ≤ L then L - n else L),
   (Instr.vshdn, rowVshdn, fun w L n => if n < w ∧ L + n < L - L % w + w then L + n else L),
   (Instr.vshxor, rowVshxor, fun w L n => L ^^^ (n % w)),
   (Instr.vbcast, rowVbcast, fun w L n => L - L % w + n % w)]

/-- R140, R144: with a segment code below 5 (5 to 7 are reserved), an exchange gives lane L the value that A holds in its source lane
before the instruction, whatever that lane's EXM and LIVEM bits; in a visitor an absent lane supplies zero (spec 12, R268), one that a hop has handed on too (the model's reading, log
entry 113). qxch does the same within a quad. -/
def Obligations.LaneExchange : Prop :=
  ∀ (f : Fields) (s : State) (g : Group),
    (f.mf 4 2 < 5 → ∀ p ∈ exchangeTable, Ready (p.1 f) s g → ∃ t, exec (p.1 f) s = .next t ∧
      VectorWrite s t g g.wset [f.d.toNat] (fun _ L =>
        if g.visitor.isSome && !g.ctl.livem.getLsbD (p.2.2 (32 / 2 ^ f.mf 4 2) L (s.opB g (p.2.1 f) f L).toNat) then 0
        else s.readV g f.a.toNat (p.2.2 (32 / 2 ^ f.mf 4 2) L (s.opB g (p.2.1 f) f L).toNat)) (nextPc g f)) ∧
    (Ready (.qxch f) s g → ∃ t, exec (.qxch f) s = .next t ∧
      VectorWrite s t g g.wset [f.d.toNat] (fun _ L =>
        if g.visitor.isSome && !g.ctl.livem.getLsbD (if f.mf 3 2 = 3 then L - L % 4 + f.mf 5 4 else L ^^^ (f.mf 3 2 + 1))
        then 0
        else s.readV g f.a.toNat (if f.mf 3 2 = 3 then L - L % 4 + f.mf 5 4 else L ^^^ (f.mf 3 2 + 1))) (nextPc g f))

/-- R141, R142, R143: vpopm counts the set bits of A below each lane; vprefix gives lane L of EXM the integer sum of A over the
lanes of EXM up to L, or below it when exclusive, and 0 to helper lanes. -/
def Sys2Proof.Claims.CountsAndPrefixes : Prop :=
  ∀ (f : Fields) (s : State) (g : Group),
    (Ready (.vpopm f) s g → ∃ t, ∃ v : Nat → Word, exec (.vpopm f) s = .next t ∧
      VectorWrite s t g g.wset [f.d.toNat] (fun _ L => v L) (nextPc g f) ∧
      ∀ L, L < 32 → (v L).toNat = ((List.range 32).filter (fun M =>
        (s.readS g f.a).getLsbD M && (M < L || (f.m 2 && M = L)))).length) ∧
    (Ready (.vprefix f) s g → ∃ t, ∃ v : Nat → Word, exec (.vprefix f) s = .next t ∧
      VectorWrite s t g g.wset [f.d.toNat] (fun _ L => v L) (nextPc g f) ∧
      (∀ L, L < 32 → g.ctl.exm.getLsbD L = false → v L = 0) ∧
      (f.m 5 = false → f.mf 7 6 = 0 → ∀ L, L < 32 → g.ctl.exm.getLsbD L = true →
        v L = BitVec.ofNat 32 (((List.range 32).filter (fun M =>
          g.ctl.exm.getLsbD M && (M < L || (!f.m 8 && M = L)))).map (fun M => (s.readV g f.a.toNat M).toNat)).sum))

/-- R129, R134, R141 to R143: masks, counts, reductions and prefixes. -/
def Obligations.MasksCountsAndPrefixes : Prop := Sys2Proof.Claims.MaskResults ∧ Sys2Proof.Claims.CountsAndPrefixes

/-! ### Memory access -/

/-- Every piece that a check found lies on this device. -/
def Sys2Proof.Claims.Here (l : List (Nat × List Piece)) : Prop :=
  ∀ x ∈ l, ∀ p ∈ x.2, ∃ loc pte, p.tgt = .here loc pte

/-- Nothing waits to be sent to a peer, and the group's block holds no store back and has no store failure to report. -/
def Sys2Proof.Claims.Quiet (s : State) (g : Group) : Prop :=
  (∀ n, (s.node n).wc = []) ∧ (∀ a ∈ s.accs, ∀ p ∈ a.parts, p.peer = none) ∧ s.fab.sctx = [] ∧ g.out.storeFail = [] ∧
    s.holding g.block = false ∧ ∀ b, s.block g.block = some b → b.contain = false

/-- The one effect is an access of the given kind and parts, queued as the newest, and its `n` destination registers from
`dst` on marked empty (spec 01, R17; spec 07, R149), beside what the translations leave in the TLBs. No byte of memory and no register
changes; a rollback interval may become unclean (spec 18, R397). -/
def Sys2Proof.Claims.AccessIssued (s t : State) (g : Group) (vec : Bool) (dst n : Nat) (k : AKind) (lanes : Word)
    (parts : List Part) (pc : Dword) : Prop :=
  ∃ u g' a, HomesOnly s u ∧ t.group s.own.cur = some g' ∧ (∀ j, j ≠ s.own.cur → t.group j = s.group j) ∧
    (∀ k, Mem.rd t.mem k = Mem.rd s.mem k) ∧
    { t with groups := s.groups, blocks := s.blocks, accs := s.accs, own := s.own } = u ∧
    { t.own with ids := s.own.ids } = s.own ∧
    (∀ b, (t.block b).map (fun x => { x with shadow := none }) = (s.block b).map (fun x => { x with shadow := none })) ∧
    t.accs = s.accs ++ [a] ∧ a.id = s.own.ids ∧ a.gid = s.own.cur ∧ a.node = g.owner ∧ a.kind = k ∧ a.lanes = lanes ∧
    a.vec = vec ∧ a.dst = dst ∧ a.regs = n ∧ a.parts = parts ∧
    g'.ctl = { g.ctl with pc := pc } ∧ g'.regs.v = g.regs.v ∧ g'.regs.s = g.regs.s ∧ g'.eng = g.eng ∧ g'.out = g.out ∧
    (∀ sc r, r < (if sc then 128 else 256) → g'.isEmpty sc r =
      (g.isEmpty sc r || (decide (sc = !vec) && decide (dst ≤ r) && decide (r < dst + n) && (sc || decide (r ≠ 255)))))

/-- R145, R148: the offset field. -/
def Sys2Proof.Claims.offset (f : Fields) : Int := if f.len = .w64 then (f.c.toNat : Int) else (f.imm.truncate 32 : Word).toInt

/-- R146, R148: the address of each access, modulo 2^64, and the window values, modulo 2^32. -/
def Obligations.EffectiveAddresses : Prop :=
  ∀ (s : State) (g : Group) (f : Fields) (L w : Nat),
    addrV s g f L = BitVec.ofInt 64 ((s.readSP g f.a).toInt + (s.readV g f.b.toNat L).toInt * 2 ^ f.mf 2 1 + offset f) ∧
    addrS s g f = BitVec.ofInt 64 ((s.readSP g f.a).toInt + (s.readS g f.b).toInt * 2 ^ f.mf 2 1 + offset f) ∧
    (w < 256 → (addrW s g f w L).toNat = w * 2 ^ 48 + (BitVec.ofInt 32 ((s.readS g f.a).toInt +
      (s.readV g f.b.toNat L).toInt * 2 ^ f.mf 2 1 + offset f)).toNat) ∧
    (addrP s g f L).toNat = 0xFD * 2 ^ 48 + (BitVec.ofInt 32 ((s.readV g f.a.toNat L).toInt + offset f)).toNat

/-- R147: how many bytes a size code names and how many registers it fills. -/
def Sys2Proof.Claims.accSize (sz : Nat) : Nat × Nat :=
  if sz ≤ 1 then (1, 1) else if sz ≤ 3 then (2, 1) else if sz = 4 then (4, 1) else if sz = 5 then (8, 2)
  else if sz = 6 then (16, 4) else (16, 1)

/-- R148: the address functions of the per-lane loads. -/
def Sys2Proof.Claims.loadTable : List ((Fields → Instr) × (State → Group → Fields → Nat → Dword)) :=
  [(Instr.vld, addrV), (Instr.vldrb, addrV), (Instr.vldscr, fun s g f => addrW s g f 0xFE),
   (Instr.vldcw, fun s g f => addrW s g f 0xFF), (Instr.vldp, addrP)]

/-- R149: with EXM zero a vector load or store does nothing but advance. -/
def Sys2Proof.Claims.NoActiveLane : Prop :=
  ∀ c ∈ [Instr.vld, Instr.vldrb, Instr.vldbc, Instr.vldscr, Instr.vldcw, Instr.vldp, Instr.vst, Instr.vstscr, Instr.vstcw,
      Instr.vstp, Instr.vatom, Instr.vcas, Instr.vred, Instr.vatom64, Instr.vcas64, Instr.wwait, Instr.wwaitt, Instr.wwake],
    ∀ (f : Fields) (s : State) (g : Group), Ready (c f) s g → g.ctl.exm = 0 →
      ∃ t, exec (c f) s = .next t ∧ ControlWrite s t g (nextPc g f) 0 g.ctl.stack

/-- R149, R152: a load whose active lanes all pass their checks marks its destination empty and issues the access of those
lanes and of the helper lanes that would not trap; sld and vldbc make one access. -/
def Obligations.LoadsIssue : Prop :=
  (∀ p ∈ loadTable, ∀ (f : Fields) (s : State) (g : Group) (l : List (Nat × List Piece)), Ready (p.1 f) s g →
    g.ctl.exm ≠ 0 →
    s.check g {} (accSize (f.mf 5 3)).1 ((lanesOf g.ctl.exm).map (fun L => (L, p.2 s g f L))) = .ok l →
    ∃ t, exec (p.1 f) s = .next t ∧
      (Quiet s g → Here (l ++ s.checkHelpers g {} (accSize (f.mf 5 3)).1 ((lanesOf g.helpers).map (fun L => (L, p.2 s g f L)))) →
        AccessIssued s t g true f.d.toNat (accSize (f.mf 5 3)).2 (.load (f.mf 5 3)) g.wset
          (partsFor (l ++ s.checkHelpers g {} (accSize (f.mf 5 3)).1 ((lanesOf g.helpers).map (fun L => (L, p.2 s g f L))))
            (fun L => 1#32 <<< L) (fun _ => []) (fun _ => []) (p.2 s g f)) (nextPc g f))) ∧
  (∀ p ∈ [(Instr.sld, false), (Instr.vldbc, true)], ∀ (f : Fields) (s : State) (g : Group) (l : List (Nat × List Piece)),
    Ready (p.1 f) s g → (p.2 = true → g.ctl.exm ≠ 0) →
    s.check g { priv := false } (accSize (f.mf 5 3)).1 [(0, addrS s g f)] = .ok l →
    ∃ t, exec (p.1 f) s = .next t ∧
      (Quiet s g → Here l → AccessIssued s t g p.2 f.d.toNat (accSize (f.mf 5 3)).2 (.load (f.mf 5 3))
        (if p.2 then g.wset else 1)
        (partsFor l (fun _ => if p.2 then g.wset else 1) (fun _ => []) (fun _ => []) (fun _ => addrS s g f)) (nextPc g f)))

/-- R148: the address functions of the per-lane stores. -/
def Sys2Proof.Claims.storeTable : List ((Fields → Instr) × (State → Group → Fields → Nat → Dword)) :=
  [(Instr.vst, addrV), (Instr.vstscr, fun s g f => addrW s g f 0xFE), (Instr.vstcw, fun s g f => addrW s g f 0xFF),
   (Instr.vstp, addrP)]

/-- R149, R153: a store to this device whose active lanes all pass their checks issues the bytes of its source registers, lowest
register first, at the address of each active lane, and no byte of a helper lane; sst stores once. The bytes reach memory
with STORE_AT_HOME. -/
def Obligations.StoresIssue : Prop :=
  (∀ p ∈ storeTable, ∀ (f : Fields) (s : State) (g : Group) (b : Block) (l : List (Nat × List Piece)), Ready (p.1 f) s g →
    s.block g.block = some b → g.ctl.exm ≠ 0 →
    s.check g { write := true, noField := true } (accSize (f.mf 5 3)).1
      ((lanesOf g.ctl.exm).map (fun L => (L, p.2 s g f L))) = .ok l → Here l →
    ∃ t, exec (p.1 f) s = .next t ∧
      (Quiet s g → (∃ x ∈ l, x.2 ≠ []) → AccessIssued s t g true 0 0 .store 0 (partsFor l (fun _ => 0)
        (fun L => leBytes ((List.range (accSize (f.mf 5 3)).2).foldl
          (fun x i => x + (s.readV g (f.d.toNat + i) L).toNat * 2 ^ (32 * i)) 0) (accSize (f.mf 5 3)).1)
        (fun _ => []) (p.2 s g f)) (nextPc g f))) ∧
  (∀ (f : Fields) (s : State) (g : Group) (b : Block) (l : List (Nat × List Piece)), Ready (.sst f) s g →
    s.block g.block = some b →
    s.check g { write := true, noField := true, priv := false } (accSize (f.mf 5 3)).1 [(0, addrS s g f)] = .ok l → Here l →
    ∃ t, exec (.sst f) s = .next t ∧
      (Quiet s g → (∃ x ∈ l, x.2 ≠ []) → f.mf 5 3 ≤ 4 → AccessIssued s t g false 0 0 .store 0 (partsFor l (fun _ => 0)
        (fun _ => leBytes (s.readS g f.d).toNat (accSize (f.mf 5 3)).1) (fun _ => []) (fun _ => addrS s g f)) (nextPc g f)))

/-- R161: the address of an atomic: A + B × 4 or × 8 per lane, A + B once per group. -/
def Sys2Proof.Claims.atomicAddr (s : State) (g : Group) (f : Fields) (w L : Nat) : Dword :=
  BitVec.ofInt 64 ((s.readSP g f.a).toInt + (s.readV g f.b.toNat L).toInt * w)

/-- R160, R161: an atomic to this device issues its access: per active lane with operand C and, for a compare-and-swap, D as
the comparand; a returning atomic marks D empty, vred marks nothing. satom, scas and faddt act once. -/
def Obligations.AtomicsIssue : Prop :=
  (∀ p ∈ [(Instr.vatom, 4, false, 1), (Instr.vcas, 4, true, 1), (Instr.vred, 4, false, 0), (Instr.vatom64, 8, false, 2),
      (Instr.vcas64, 8, true, 2)], ∀ (f : Fields) (s : State) (g : Group) (l : List (Nat × List Piece)), Ready (p.1 f) s g →
    g.ctl.exm ≠ 0 →
    s.check g { write := true, noField := true, align := p.2.1, priv := false } p.2.1
      ((lanesOf g.ctl.exm).map (fun L => (L, atomicAddr s g f p.2.1 L))) = .ok l →
    ∃ t, exec (p.1 f) s = .next t ∧
      (Quiet s g → Here l → AccessIssued s t g true f.d.toNat p.2.2.2 (.atomic (f.mf 4 1) (p.2.1 = 8) p.2.2.1) g.ctl.exm
        (partsFor l (fun L => 1#32 <<< L)
          (fun L => leBytes ((s.readV g f.c.toNat L).toNat +
            (if p.2.1 = 8 then (s.readV g (f.c.toNat + 1) L).toNat * 2 ^ 32 else 0)) p.2.1)
          (fun L => leBytes ((s.readV g f.d.toNat L).toNat +
            (if p.2.1 = 8 then (s.readV g (f.d.toNat + 1) L).toNat * 2 ^ 32 else 0)) p.2.1)
          (atomicAddr s g f p.2.1)) (nextPc g f))) ∧
  (∀ p ∈ [(Instr.satom, rowSatom, false), (Instr.scas, rowScas, true)], ∀ (f : Fields) (s : State) (g : Group)
      (l : List (Nat × List Piece)), Ready (p.1 f) s g →
    s.check g { write := true, noField := true, align := 4, priv := false } 4
      [(0, BitVec.ofInt 64 ((s.readSP g f.a).toInt + (s.readS g f.b).toInt))] = .ok l →
    ∃ t, exec (p.1 f) s = .next t ∧
      (Quiet s g → Here l → AccessIssued s t g false f.d.toNat 1 (.atomic (f.mf 4 1) false p.2.2) 1
        (partsFor l (fun _ => 1) (fun _ => leBytes (s.opC g (p.2.1 f) f 0).toNat 4) (fun _ => leBytes (s.readS g f.d).toNat 4)
          (fun _ => BitVec.ofInt 64 ((s.readSP g f.a).toInt + (s.readS g f.b).toInt))) (nextPc g f))) ∧
  (∀ (f : Fields) (s : State) (g : Group) (l : List (Nat × List Piece)), Ready (.faddt f) s g →
    s.check g { write := true, noField := true, align := 4, priv := false, peer := false } 4 [(0, s.readSP g f.a)] = .ok l →
    ∃ t, exec (.faddt f) s = .next t ∧
      (Quiet s g → Here l → AccessIssued s t g false f.d.toNat 1 .faddt 1
        (partsFor l (fun _ => 1) (fun _ => leBytes (s.readS g f.b).toNat 4)
          (fun _ => leBytes (s.opC g (rowFaddt f) f 0).toNat 4) (fun _ => s.readSP g f.a)) (nextPc g f)))

/-- R153, R161: an atomic with an active lane whose address is not a multiple of its width raises the precise trap DALIGN
when no lane names a space the instruction does not accept; the trap names the misaligned lanes and the lowest one's
address, and no access is made. -/
def Sys2Proof.Claims.AtomicAlignment : Prop :=
  ∀ p ∈ [(Instr.vatom, 4), (Instr.vcas, 4), (Instr.vred, 4), (Instr.vatom64, 8), (Instr.vcas64, 8)],
    ∀ (f : Fields) (s : State) (g : Group) (L : Nat), Ready (p.1 f) s g → g.visitor = none → (s.block g.block).isSome →
    L < 32 → g.ctl.exm.getLsbD L = true → (atomicAddr s g f p.2 L).toNat % p.2 ≠ 0 →
    (∀ M, M < L → g.ctl.exm.getLsbD M = true → (atomicAddr s g f p.2 M).toNat % p.2 = 0) →
    (∀ M, M < 32 → g.ctl.exm.getLsbD M = true → bitsAt (atomicAddr s g f p.2 M) 55 48 ≠ 0xFD) →
    ∃ lanes : Word, exec (p.1 f) s = .next (s.trap s.own.cur .dalign lanes (atomicAddr s g f p.2 L) 0) ∧
      ∀ M, M < 32 → (lanes.getLsbD M = true ↔
        g.ctl.exm.getLsbD M = true ∧ (atomicAddr s g f p.2 M).toNat % p.2 ≠ 0)

/-- R149, R153, R161: accesses that are not made. -/
def Obligations.AccessEdges : Prop := Sys2Proof.Claims.NoActiveLane ∧ Sys2Proof.Claims.AtomicAlignment

/-- R160: the new word of each atomic operation on words of `w` bits. -/
def Obligations.AtomicOperations : Prop :=
  ∀ w ∈ [32, 64], ∀ (old v : BitVec w),
    atomicOp 0 w old.toNat v.toNat = (old + v).toNat ∧
    atomicOp 1 w old.toNat v.toNat = (if old.toInt ≤ v.toInt then old else v).toNat ∧
    atomicOp 2 w old.toNat v.toNat = (if v.toInt ≤ old.toInt then old else v).toNat ∧
    atomicOp 3 w old.toNat v.toNat = (if old.toNat ≤ v.toNat then old else v).toNat ∧
    atomicOp 4 w old.toNat v.toNat = (if v.toNat ≤ old.toNat then old else v).toNat ∧
    atomicOp 5 w old.toNat v.toNat = (old &&& v).toNat ∧
    atomicOp 6 w old.toNat v.toNat = (old ||| v).toNat ∧
    atomicOp 7 w old.toNat v.toNat = (old ^^^ v).toNat ∧
    atomicOp 8 w old.toNat v.toNat = v.toNat ∧
    (w = 32 → atomicOp 9 w old.toNat v.toNat =
      (fenc 0 ((fval (BitVec.ofNat 32 old.toNat)).add 0 (fval (BitVec.ofNat 32 v.toNat)))).toNat) ∧
    atomicOp 10 w old.toNat v.toNat = (if v.toNat ≤ old.toNat then 0 else old.toNat + 1) ∧
    atomicOp 11 w old.toNat v.toNat = (if old.toNat = 0 ∨ v.toNat < old.toNat then v.toNat else old.toNat - 1)

/-- R164, R166, R167: the waiting instructions whose active lanes pass their checks. wwait and wwaitt mark D empty and issue
their requests; wwake and wcancel answer entries and change no register; sleep with A = 0 only advances and otherwise
holds the group until A cycles have passed.
That wwake and wcancel act at their issue is the model's choice (log entry 126). -/
def Obligations.WaitsIssue : Prop :=
  (∀ c ∈ [Instr.wwait, Instr.wwaitt], ∀ (f : Fields) (s : State) (g : Group) (l : List (Nat × List Piece)),
    Ready (c f) s g → g.ctl.exm ≠ 0 →
    s.check g { align := 4, priv := false, peer := false } 4
      ((lanesOf g.ctl.exm).map (fun L => (L, atomicAddr s g f 4 L))) = .ok l →
    ∃ t, exec (c f) s = .next t ∧ (Quiet s g → Here l → ∃ parts timeout, AccessIssued s t g true f.d.toNat 1
      (.wait (f.mf 4 2) timeout) g.ctl.exm parts (nextPc g f))) ∧
  (∀ (f : Fields) (s : State) (g : Group) (l : List (Nat × List Piece)), Ready (.wwake f) s g → g.ctl.exm ≠ 0 →
    s.check g { align := 4, priv := false, peer := false, noField := true } 4
      ((lanesOf g.ctl.exm).map (fun L => (L, atomicAddr s g f 4 L))) = .ok l →
    ∃ t, exec (.wwake f) s = .next t ∧ (∀ k, Mem.rd t.mem k = Mem.rd s.mem k) ∧
      (∀ n, ∀ w ∈ (t.node n).waits, w.ans = none → w.loc ∉ s.wordKeys l) ∧
      ∃ g', t.group s.own.cur = some g' ∧ g'.regs = g.regs ∧ g'.ctl = { g.ctl with pc := nextPc g f }) ∧
  (∀ (f : Fields) (s : State) (g : Group) (l : List (Nat × List Piece)), Ready (.wcancel f) s g →
    s.check g { align := 4, priv := false, peer := false } 4 [(0, s.readSP g f.a)] = .ok l →
    ∃ t, exec (.wcancel f) s = .next t ∧ (∀ k, Mem.rd t.mem k = Mem.rd s.mem k) ∧
      (∀ n, ∀ w ∈ (t.node n).waits, w.ans = none → w.gid = s.own.cur → w.loc ∉ s.wordKeys l) ∧
      ∃ g', t.group s.own.cur = some g' ∧ g'.regs = g.regs ∧ g'.ctl = { g.ctl with pc := nextPc g f }) ∧
  (∀ (f : Fields) (s : State) (g : Group), Ready (.sleep f) s g →
    ∃ t g', exec (.sleep f) s = .next t ∧ (∀ k, Mem.rd t.mem k = Mem.rd s.mem k) ∧ t.group s.own.cur = some g' ∧
      (∀ j, j ≠ s.own.cur → t.group j = s.group j) ∧ g'.regs = g.regs ∧ g'.ctl = { g.ctl with pc := nextPc g f } ∧
      g'.sched.hold = if s.opA g (rowSleep f) f 0 = 0 then .none
        else .sleep (s.clock.toNat + (s.opA g (rowSleep f) f 0).toNat))

/-- R159: a fence that has nothing left to wait for completes: no register or byte of memory changes and the group goes on; at
.dev, .dom or .sys, and for fenceh, the core's read buffer is empty afterwards (R155). While something is left, the group
stays at the fence. -/
def Sys2Proof.Claims.Fences : Prop :=
  ∀ (f : Fields) (s : State) (g : Group), Quiet s g →
    (∀ p ∈ [(Instr.fence, f.mf 3 1), (Instr.fenceh, 5)], Ready (p.1 f) s g → p.2 < 6 →
      (s.unreleased s.own.cur s.own.ids p.2 = false → ∃ t g', exec (p.1 f) s = .next t ∧
        t.group s.own.cur = some g' ∧ (∀ j, j ≠ s.own.cur → t.group j = s.group j) ∧ t.mem = s.mem ∧
        g'.regs = g.regs ∧ g'.ctl = { g.ctl with pc := nextPc g f } ∧ (3 ≤ p.2 → (t.node g.owner).rb = [])) ∧
      (s.unreleased s.own.cur s.own.ids p.2 = true → ∃ t g', exec (p.1 f) s = .next t ∧
        t.group s.own.cur = some g' ∧ g'.ctl = g.ctl ∧ g'.regs = g.regs ∧ t.mem = s.mem)) ∧
    (Ready (.fencep f) s g → s.unreleased s.own.cur s.own.ids 3 = false →
      s.peersOwing s.own.cur s.own.ids (some ((s.readS g f.a).toNat % 512)) = false →
      ∃ t g', exec (.fencep f) s = .next t ∧ t.group s.own.cur = some g' ∧ t.mem = s.mem ∧
        (∀ j, j ≠ s.own.cur → t.group j = s.group j) ∧ g'.regs = g.regs ∧ g'.ctl = { g.ctl with pc := nextPc g f })

/-- R155, R244: rbinv empties the core's read buffer, vpref may fill it, and wcfl closes lines; none changes a register or a
byte of memory, and none waits. -/
def Sys2Proof.Claims.BufferHints : Prop :=
  ∀ (f : Fields) (s : State) (g : Group),
    (Ready (.rbinv f) s g → ∃ t g', exec (.rbinv f) s = .next t ∧ t.group s.own.cur = some g' ∧ t.mem = s.mem ∧
      (∀ j, j ≠ s.own.cur → t.group j = s.group j) ∧ g'.regs = g.regs ∧ g'.ctl = { g.ctl with pc := nextPc g f } ∧
      (t.node g.owner).rb = [] ∧ ∀ n, n ≠ g.owner → t.node n = s.node n) ∧
    (Ready (.vpref f) s g → ∃ t g', exec (.vpref f) s = .next t ∧ t.group s.own.cur = some g' ∧ t.mem = s.mem ∧
      (∀ j, j ≠ s.own.cur → t.group j = s.group j) ∧ g'.regs = g.regs ∧ g'.ctl = { g.ctl with pc := nextPc g f } ∧
      ∀ n, { t.node n with rb := [], tlb := [] } = { s.node n with rb := [], tlb := [] }) ∧
    (Ready (.wcfl f) s g → ∃ t, exec (.wcfl f) s = .next t ∧
      (Quiet s g → ∃ g', t.group s.own.cur = some g' ∧ t.mem = s.mem ∧ (∀ j, j ≠ s.own.cur → t.group j = s.group j) ∧
        g'.regs = g.regs ∧ g'.ctl = { g.ctl with pc := nextPc g f }))

/-- R155, R159, R244: fences and the core buffers. -/
def Obligations.FencesAndBuffers : Prop := Sys2Proof.Claims.Fences ∧ Sys2Proof.Claims.BufferHints

/-! ### Accesses at their homes -/

/-- `n` bytes at a home stand there as they were written: in words of the slice that can be read, or in a far-memory sector in which the
symbol code finds no error and whose frame is reached through one interleave scheme (spec 14, R331, R335; spec 18, R399). -/
def Sys2Proof.Claims.Clean (s : State) (il key n : Nat) : Prop :=
  (2 ^ 39 ≤ key ∧ s.wordBad key n = false) ∨ key < 2 ^ 39 ∧ (s.ecc (s.scheme il key) (key / 32) = .clean ∧ (s.reach il key).mixed key = false)

/-- No store or request to a peer waits on this device. -/
def Sys2Proof.Claims.NoPeers (s : State) : Prop :=
  (∀ n, (s.node n).wc = []) ∧ (∀ b ∈ s.accs, ∀ q ∈ b.parts, q.peer = none) ∧ s.fab.sctx = []

/-- What has arrived for an access once `data` has come for its part `p`: byte j of lane L is at key 16 L + j. -/
def Sys2Proof.Claims.received (a : Access) (p : Part) (data : List Byte) (k : Nat) : Byte :=
  if p.lanes.getLsbD (k / 16) && decide (p.off ≤ k % 16) && decide (k % 16 < p.off + data.length) then data.getD (k % 16 - p.off) 0
  else Sparse.get 0 a.got k

/-- The number that an access gives a lane from the bytes that have arrived: extended as the size of a load says (spec 07, R149). -/
def Sys2Proof.Claims.laneValue (a : Access) (p : Part) (data : List Byte) (L : Nat) : Nat :=
  match a.kind with
  | .load sz => widen sz (leNat ((List.range 16).map (fun j => received a p data (16 * L + j))))
  | _ => leNat ((List.range 16).map (fun j => received a p data (16 * L + j)))

/-- `data` reaches an access for its part `p`. While other parts are outstanding, the access keeps them and the bytes. With the last part it
is over: the destination registers of a resident group become full and hold their lanes' values, 32 bits each, and no other register, EXM or
PC and no other group changes (spec 01, R17; spec 07, R149). -/
structure Sys2Proof.Claims.Delivers (s t : State) (a : Access) (p : Part) (data : List Byte) : Prop where
  rest : (∃ q ∈ a.parts, q.id ≠ p.id) → ∃ b, t.accs.find? (fun b => b.id = a.id) = some b ∧
    b.parts = a.parts.filter (fun q => q.id ≠ p.id) ∧ ∀ k, Sparse.get 0 b.got k = received a p data k
  ended : (∀ q ∈ a.parts, q.id = p.id) → ∀ b ∈ t.accs, b.id ≠ a.id
  vector : (∀ q ∈ a.parts, q.id = p.id) → a.vec = true → a.fails = [] → (a.rel = false ∨ a.scope < 4) →
    ∀ g, s.group a.gid = some g → s.imageOf g = none → g.ctl.livem ≠ 0 →
    ∃ g', t.group a.gid = some g' ∧ (∀ j, j ≠ a.gid → t.group j = s.group j) ∧ g'.ctl = g.ctl ∧ g'.regs.s = g.regs.s ∧
      (∀ i, i < a.regs → g'.isEmpty false (a.dst + i) = false) ∧
      (∀ i L, i < a.regs → L < 32 → a.dst + i ≠ 255 → a.lanes.getLsbD L = true → g.busy (a.dst + i) = false →
        g'.rdV (a.dst + i) L = BitVec.ofNat 32 (laneValue a p data L / 2 ^ (32 * i))) ∧
      (∀ r L, L < 32 → (r < a.dst ∨ a.dst + a.regs ≤ r ∨ a.lanes.getLsbD L = false) → g'.rdV r L = g.rdV r L)
  scalar : (∀ q ∈ a.parts, q.id = p.id) → a.vec = false → a.fails = [] → (a.rel = false ∨ a.scope < 4) → a.dst + a.regs ≤ 128 →
    ∀ g, s.group a.gid = some g → s.imageOf g = none → g.ctl.livem ≠ 0 →
    ∃ g', t.group a.gid = some g' ∧ (∀ j, j ≠ a.gid → t.group j = s.group j) ∧ g'.ctl = g.ctl ∧ g'.regs.v = g.regs.v ∧
      (∀ i, i < a.regs → g'.isEmpty true (a.dst + i) = false ∧
        g'.rdS (a.dst + i) = BitVec.ofNat 32 (laneValue a p data 0 / 2 ^ (32 * i))) ∧
      (∀ r, r < a.dst ∨ a.dst + a.regs ≤ r → g'.rdS r = g.rdS r)

/-- A part that a vldrb reads through the core's read buffer: of far memory (spec 07, R155). -/
def Sys2Proof.Claims.Buffered (a : Access) (p : Part) (key : Nat) : Prop := a.rb = true ∧ key < 2 ^ 39 ∧ ∃ k, p.loc = .mem k

/-- R149 to R151, R155, R286: the reply of a load delivers to the access the bytes of its part, and changes no byte of memory when the
issuing group is resident. They are the home's bytes, under the newest pending store of its core that the load sees (the order in which it sees them is the model's reading, log entries 12 and 13);
a load that acquires beyond its core takes the home's. A vldrb takes the read buffer's sector, or the home's, which the buffer then holds. -/
def Sys2Proof.Claims.LoadReply : Prop :=
  ∀ (req part : Nat) (s : State) (a : Access) (p : Part) (key sz : Nat), s.partAt req part = some (a, p, key) →
    a.kind = .load sz → p.off + p.len ≤ 16 → s.remote a.rmt a.node [(key, p.len)] = none →
    (¬ Buffered a p key → Clean s p.il key p.len → ∃ t data, exec (.loadReply req part) s = .next t ∧ Delivers s t a p data ∧
      data.length = p.len ∧
      (∀ i, i < p.len → s.unsettledByte a.gid (key + i) = false →
        (a.homeOnly = true → data.getD i 0 = Mem.rd s.mem (key + i)) ∧
        (a.homeOnly = false →
          data.getD i 0 = match s.overlay a (key + i) with | none => Mem.rd s.mem (key + i) | some x => x.2)) ∧
      ((∀ g, s.group a.gid = some g → s.imageOf g = none) → t.mem = s.mem)) ∧
    (Buffered a p key → ∀ e, (s.node a.node).rb.find? (fun e => e.key = key / 32 && e.ctx = a.ctx) = some e →
      ∃ t, exec (.loadReply req part) s = .next t ∧ Delivers s t a p ((e.data.drop (key % 32)).take p.len) ∧
        ((∀ g, s.group a.gid = some g → s.imageOf g = none) → t.mem = s.mem)) ∧
    (Buffered a p key → (s.node a.node).rb.find? (fun e => e.key = key / 32 && e.ctx = a.ctx) = none →
      Clean s p.il (key / 32 * 32) 32 →
      ∃ t, exec (.loadReply req part) s = .next t ∧
        Delivers s t a p (((Mem.bytes s.mem (key / 32 * 32) 32).drop (key % 32)).take p.len) ∧
        ((∀ g, s.group a.gid = some g → s.imageOf g = none) → t.mem = s.mem ∧
          ∃ e ∈ (t.node a.node).rb, e.key = key / 32 ∧ e.ctx = a.ctx ∧ e.data = Mem.bytes s.mem (key / 32 * 32) 32))

/-- R149, R165, R286: a store's part puts its bytes at its place, every other byte of memory stays, the part is gone, and no entry of a
wait table that the bytes overlap and whose condition now holds stays without its answer. -/
def Sys2Proof.Claims.StoreAtHome : Prop :=
  ∀ (req part : Nat) (s : State) (a : Access) (p : Part) (key : Nat), s.partAt req part = some (a, p, key) →
    a.kind = .store → a.regs = 0 → Clean s p.il key p.data.length → NoPeers s →
    ∃ t, exec (.storeAtHome req part) s = .next t ∧
      (∀ i, i < p.data.length → Mem.rd t.mem (key + i) = p.data.getD i 0) ∧
      (∀ k, (k < key ∨ key + p.data.length ≤ k) → Mem.rd t.mem k = Mem.rd s.mem k) ∧
      (∀ b ∈ t.accs, b.id = a.id → p.id ∉ b.parts.map (·.id)) ∧
      (∀ n, ∀ w ∈ (t.node n).waits, w.ans = none → w.loc < key + p.data.length → key < w.loc + 4 →
        w.holds (BitVec.ofNat 32 (Mem.num t.mem w.loc 4)) = false)

/-- R149, R161, R286: loads and stores at their homes; what a load sees of pending stores is the model's reading (log entries 12 and 13). -/
def Obligations.LoadsAndStoresAtHome : Prop := Sys2Proof.Claims.LoadReply ∧ Sys2Proof.Claims.StoreAtHome

/-- R160 to R162, R166: an atomic or faddt at its home reads and writes its word in one step: the word becomes the operation's
result, or the operand of a compare-and-swap whose comparand matches, and every other byte stays.
What a .rmt one waits for first is the model's reading (log entry 13). -/
def Obligations.AtomicAtHome : Prop :=
  ∀ (req part : Nat) (s : State) (a : Access) (p : Part) (key : Nat), s.partAt req part = some (a, p, key) →
    s.remote a.rmt a.node [(key, p.len)] = none → Clean s p.il key p.len → (∀ g, s.group a.gid = some g → s.imageOf g = none) →
    NoPeers s →
    (∀ op wide, a.kind = .atomic op wide false → p.len = (if wide then 8 else 4) → ∃ t, exec (.atomicAtHome req part) s = .next t ∧
      Mem.num t.mem key p.len = atomicOp op (8 * p.len) (Mem.num s.mem key p.len) (leNat p.data) % 2 ^ (8 * p.len) ∧
      ∀ k, (k < key ∨ key + p.len ≤ k) → Mem.rd t.mem k = Mem.rd s.mem k) ∧
    (∀ op wide, a.kind = .atomic op wide true → p.len = (if wide then 8 else 4) → ∃ t, exec (.atomicAtHome req part) s = .next t ∧
      Mem.num t.mem key p.len = (if Mem.num s.mem key p.len = leNat p.cmp then leNat p.data % 2 ^ (8 * p.len)
        else Mem.num s.mem key p.len) ∧
      ∀ k, (k < key ∨ key + p.len ≤ k) → Mem.rd t.mem k = Mem.rd s.mem k) ∧
    (a.kind = .faddt → p.len = 4 → ∃ t, exec (.atomicAtHome req part) s = .next t ∧
      Mem.num t.mem key 4 = (Mem.num s.mem key 4 + leNat p.data) % 2 ^ 32 ∧
      ∀ k, (k < key ∨ key + 4 ≤ k) → Mem.rd t.mem k = Mem.rd s.mem k)

/-- R164, R165: a registration is answered or recorded; one whose word does not meet the condition, whose time has not passed and that finds
fewer than 256 entries becomes the newest entry of its home's table, and memory stays. An answered entry leaves every table, and so does a
timed one once its time has passed. -/
def Obligations.WaitTables : Prop :=
  (∀ (req part : Nat) (s : State) (a : Access) (p : Part) (key cmp : Nat) (dl : Option Nat),
    s.partAt req part = some (a, p, key) → a.kind = .wait cmp dl → Clean s p.il key 4 →
    ∃ t, exec (.waitRegistration req part) s = .next t ∧
      (condWait cmp (BitVec.ofNat 32 (Mem.num s.mem key 4) &&& BitVec.ofNat 32 (leNat p.data))
          (BitVec.ofNat 32 (leNat p.cmp) &&& BitVec.ofNat 32 (leNat p.data)) = false →
        (s.node (homeOf p.il key)).waits.length < 256 → (∀ d, dl = some d → s.clock.toNat < d) →
        ∃ w, (t.node (homeOf p.il key)).waits = (s.node (homeOf p.il key)).waits ++ [w] ∧ w.loc = key ∧ w.acc = a.id ∧
          w.ans = none ∧ t.mem = s.mem)) ∧
  (∀ (entry : Nat) (s : State) (w : WaitEntry) (x : Word), s.waitEntry entry = some w → w.ans = some x →
    ∃ t, exec (.waitAnswer entry) s = .next t ∧ ∀ n, ∀ v ∈ (t.node n).waits, v.id ≠ w.id) ∧
  (∀ (entry : Nat) (s : State) (w : WaitEntry) (d : Nat), s.waitEntry entry = some w → w.ans = none →
    w.deadline = some d → d ≤ s.clock.toNat →
    ∃ t, exec (.wwaittTimeout entry) s = .next t ∧ ∀ n, ∀ v ∈ (t.node n).waits, v.id ≠ w.id)

/-- R36, R117, R167, R243, R329: the events of a core: a sleep that has run out frees its group; a gated core that an event has readied wakes with that
event's WAKEWHY bits, rewritten whole; an expired joinw resumes its waiting lanes after the joinw with JTO set; a line of age 1,024
drains; an acknowledged line leaves the buffer. What the two do for requests that wait behind the line is not said. That the core wakes at
this step, whatever the 40 cycles of R36 and R167, is the model's reading (log entry 35). -/
def Obligations.CoreEvents : Prop :=
  (∀ (s : State) (gid : Nat) (g : Group) (d : Nat), s.group gid = some g → g.sched.hold = .sleep d → d ≤ s.clock.toNat →
    ∃ t g', exec (.sleepExpiry gid) s = .next t ∧ t.group gid = some g' ∧ g' = { g with sched := { g.sched with hold := .none } } ∧
      t.mem = s.mem) ∧
  (∀ (s : State) (n : Nat) (w : Word), (s.node n).gated = true → (s.node n).waking = some w →
    ∃ t, exec (.coreWake n) s = .next t ∧
      t.node n = { s.node n with gated := false, waking := none, wakewhy := w } ∧ (∀ m, m ≠ n → t.node m = s.node m) ∧
      { t with nodes := s.nodes } = s) ∧
  (∀ (s : State) (gid : Nat) (g : Group) (e : Entry) (st : List Entry), s.group gid = some g → g.ctl.stack = e :: st →
    s.joinwDue g = true → ∃ t g', exec (.joinwExpiry gid) s = .next t ∧ t.group gid = some g' ∧ t.mem = s.mem ∧
      (∀ j, j ≠ gid → t.group j = s.group j) ∧ g'.regs = g.regs ∧ g'.ctl.pc = e.pc.zeroExtend 64 + 12 ∧
      g'.ctl.exm = e.mask &&& g.ctl.livem ∧ g'.sys.gstat = g.sys.gstat ||| 1 ∧
      g'.ctl.stack = { waiting := false, tmo := 0, kind := .divw, mask := g.ctl.exm, pc := g.ctl.pc.truncate 56 } :: st) ∧
  (∀ (s : State) (n : Nat) (l : WcLine), l ∈ (s.node n).wc → l.closed = false → l.since + 1024 ≤ s.clock.toNat →
    (∀ b ∈ s.accs, ∀ q ∈ b.parts, q.peer = none) →
    ∃ t, exec (.wcLineAgeDrain n l.id) s = .next t ∧ ∀ k ∈ (t.node n).wc, k.id = l.id → k.closed = true) ∧
  (∀ (s : State) (n line status : Nat) (c : SendCtx) (x : Sent), c ∈ s.fab.sctx → c.cached = true → s.receives = true → x ∈ c.pkts →
    x.purpose = .line n line → x.sent = true → status ≤ 3 → (∀ b ∈ s.accs, ∀ q ∈ b.parts, q.peer = none) → ∃ t, exec (.wcLineAck n line status) s = .next t ∧
      ∀ k ∈ (t.node n).wc, k.id ≠ line)

/-! ### Conserved field transfers -/

/-- R174, R177, R179: a transfer whose lanes all pass their checks and name distinct cells of this device on two addresses sends a DEBIT
for each lane to the home of its origin cell, marks D empty, and changes no byte of memory; with WD 0 the group waits for
the origin checks, and with WD 1 it goes on. A core has 128 tags for its transfers (R339); without a free one the group waits. With EXM
zero it only makes the barrier interval unclean (R397) and advances.
Which tag it takes is the model's choice (log entry 66). -/
def Sys2Proof.Claims.TransferIssue : Prop :=
  ∀ (f : Fields) (s : State) (g : Group), Ready (.xfer f) s g →
    (g.ctl.exm = 0 → ∃ t, exec (.xfer f) s = .next t ∧
      ControlWrite (if g.visitor.isNone then s.unclean g.block else s) t g (nextPc g f) 0 g.ctl.stack) ∧
    (g.ctl.exm ≠ 0 → fieldVerdict ((lanesOf g.ctl.exm).map (xferCheck s g f)) = none → ∃ t, exec (.xfer f) s = .next t ∧
      (Quiet s g → (∀ L, L < 32 → g.ctl.exm.getLsbD L = true → ∃ l, xferLane s g f L = some l ∧ l.fabric = false ∧
          l.okey ≠ l.dkey) → (s.freeItag g.owner).isSome →
        t.mem = s.mem ∧ (∀ j, j ≠ s.own.cur → t.group j = s.group j) ∧
        (∃ g', t.group s.own.cur = some g' ∧ g'.regs.v = g.regs.v ∧ g'.regs.s = g.regs.s ∧ g'.ctl.exm = g.ctl.exm ∧
          (f.d.toNat < 255 → g'.isEmpty false f.d.toNat = true) ∧
          (f.m 2 = false → g'.ctl.pc = g.ctl.pc ∧ g'.sched.hold = .checks s.own.ids) ∧
          (f.m 2 = true → g'.ctl.pc = nextPc g f ∧ g'.sched.hold = .none)) ∧
        ∀ L, L < 32 → g.ctl.exm.getLsbD L = true → ∀ l, xferLane s g f L = some l → ∃ m ∈ t.fld.msgs, m.2.1.kind = .debit ∧
          m.2.1.xid = s.own.ids ∧ m.2.1.home = homeOf l.oil l.okey ∧ l ∈ m.2.1.lanes))

/-- R184: a read of cells that pass their checks marks D empty and issues the read. -/
def Sys2Proof.Claims.CellReads : Prop :=
  ∀ (f : Fields) (s : State) (g : Group),
    (Ready (.vldf f) s g → g.ctl.exm = 0 →
      ∃ t, exec (.vldf f) s = .next t ∧ ControlWrite s t g (nextPc g f) 0 g.ctl.stack) ∧
    (∀ p ∈ [(Instr.vldf, true, fun L => s.readSP g f.a + scaled (s.readV g f.b.toNat L) (if f.m 1 then 8 else 4) + offOf f),
        (Instr.sldf, false, fun _ => s.readSP g f.a + scaled (s.readS g f.b) (if f.m 1 then 8 else 4) + offOf f)],
      Ready (p.1 f) s g → (p.2.1 = true → g.ctl.exm ≠ 0) →
      (∀ L, L < 32 → (if p.2.1 then g.ctl.exm.getLsbD L = true else L = 0) →
        ∃ c, s.cellAt g (f.m 1) false true (p.2.2 L) = (some c, [])) →
      ∃ t, exec (p.1 f) s = .next t ∧
        (Quiet s g → (∀ L c, L < 32 → (s.cellAt g (f.m 1) false true (p.2.2 L)).1 = some c → c.fabric = false) →
          ∃ parts, AccessIssued s t g p.2.1 f.d.toNat (if f.m 1 then 2 else 1) (.field (f.m 1))
            (if p.2.1 then g.wset else 1) parts (nextPc g f)))

/-- R174, R177, R179, R184: the issue of transfers and of reads of cells. -/
def Obligations.FieldAccessIssue : Prop := Sys2Proof.Claims.TransferIssue ∧ Sys2Proof.Claims.CellReads

/-- The declared domain of a number, with its owner the group's context and active (spec 08, R176 reasons 6 to 8). -/
def Sys2Proof.Claims.Declared (s : State) (g : Group) (did : Nat) (d : Domain) : Prop :=
  s.domain did = some d ∧ d.owner = g.ctx ∧ d.state = .active

/-- What an instruction says of a result that lands later: the destination registers from `dst` on are empty, the result is on its way,
and no byte of memory changes; the group goes on (spec 01, R17). -/
def Sys2Proof.Claims.Later (s t : State) (g : Group) (dst : Nat) (vals : List Word) (pc : Dword) : Prop :=
  t.mem = s.mem ∧ (∃ x, t.lands = s.lands ++ [x] ∧ x.gid = s.own.cur ∧ x.vec = false ∧ x.dst = dst ∧
    x.vals = (List.range vals.length).map (fun i => (i, vals.getD i 0))) ∧
  ∃ g', t.group s.own.cur = some g' ∧ g'.ctl = { g.ctl with pc := pc } ∧ g'.regs.v = g.regs.v ∧ g'.regs.s = g.regs.s ∧
    (∀ i, i < vals.length → dst + i < 128 → g'.isEmpty true (dst + i) = true)

/-- `v` stands in a full scalar register of a resident group with a lane, whose PC, masks and stack are as they were. -/
def Sys2Proof.Claims.Landed (s t : State) (gid r : Nat) (v : Word) : Prop :=
  ∀ g, s.group gid = some g → s.imageOf g = none → g.ctl.livem ≠ 0 → r < 128 →
    ∃ g', t.group gid = some g' ∧ g'.ctl = g.ctl ∧ g'.rdS r = v ∧ g'.isEmpty true r = false

/-- R17: when a result lands it is in its registers, which are full, and it is on its way no more. -/
def Sys2Proof.Claims.Lands : Prop :=
  ∀ (s : State) (x : Landing) (v w : Word), s.lands.find? (fun l => l.id = x.id) = some x → x.vec = false →
    (∀ l ∈ (s.landResult x.id).lands, l.id ≠ x.id) ∧
    (x.vals = [(0, v)] → Landed s (s.landResult x.id) x.gid x.dst v) ∧
    (x.vals = [(0, v), (1, w)] → x.dst + 1 < 128 →
      Landed s (s.landResult x.id) x.gid x.dst v ∧ Landed s (s.landResult x.id) x.gid (x.dst + 1) w)

/-- R17, R185, R188 to R190: the result of ftot .c is the constant C, and lands in the pair D; the other figures queue a snapshot with the pair
D empty, which begins at once where no other of the domain or the group is left; fgup sets the give-up time; fdrop asks the other members once,
waits for them, and ends a domain that has nothing in flight; fattr sets the kind of a cell whose content is zero; fdecl makes a
domain declaring, or its status 1 to 7 lands in D; an undeclared number raises FDOM with reason 7. The message of an fdrop and the answers that
it waits for are the model's (log entry 69). -/
def Obligations.DomainInstructions : Prop :=
  Sys2Proof.Claims.Lands ∧ ∀ (f : Fields) (s : State) (g : Group) (d : Domain),
    (Ready (.ftot f) s g → Declared s g (s.readS g f.a).toNat d →
      (f.mf 2 1 = 0 → ∃ t, exec (.ftot f) s = .next t ∧
        Later s t g f.d.toNat [d.c.truncate 32, (d.c >>> 32).truncate 32] (nextPc g f)) ∧
      (f.mf 2 1 ≠ 0 → ∃ t g', exec (.ftot f) s = .next t ∧ t.mem = s.mem ∧
        t.fld.snaps.map (·.id) = s.fld.snaps.map (·.id) ++ [s.own.ids] ∧
        (∃ x ∈ t.fld.snaps, x.id = s.own.ids ∧ x.did = (s.readS g f.a).toNat ∧ x.asker = .group s.own.cur f.d.toNat ∧
          x.figure = f.mf 2 1 ∧
          ((∀ y ∈ s.fld.snaps, y.did ≠ (s.readS g f.a).toNat ∧ ∀ r, y.asker ≠ .group s.own.cur r) →
            x.begun = true ∧ x.h0 = s.clock.toNat)) ∧
        t.group s.own.cur = some g' ∧ g'.ctl = { g.ctl with pc := nextPc g f } ∧
        (f.d.toNat < 127 → g'.isEmpty true f.d.toNat = true ∧ g'.isEmpty true (f.d.toNat + 1) = true))) ∧
    (Ready (.fgup f) s g → Declared s g (s.readS g f.a).toNat d →
      ((s.readS g f.b).toNat = 0 ∨ (64 ≤ (s.readS g f.b).toNat ∧ (s.readS g f.b).toNat ≤ 1000000)) →
      ∃ t, exec (.fgup f) s = .next t ∧ t.mem = s.mem ∧
        t.domain (s.readS g f.a).toNat = some { d with gup := (s.readS g f.b).toNat } ∧
        ∃ g', t.group s.own.cur = some g' ∧ g'.regs = g.regs ∧ g'.ctl = { g.ctl with pc := nextPc g f }) ∧
    (Ready (.fdrop f) s g → s.domain (s.readS g f.a).toNat = some d → d.owner = g.ctx → d.state ≠ .declaring →
      (s.domainBusy (s.readS g f.a).toNat = false → (∀ m ∈ d.devs, m ≠ s.devid → m ∈ d.dropped) →
        ∃ t, exec (.fdrop f) s = .next t ∧ t.mem = s.mem ∧ t.domain (s.readS g f.a).toNat = none ∧
          (∀ n, n ≠ (s.readS g f.a).toNat → t.domain n = s.domain n) ∧
          ∃ g', t.group s.own.cur = some g' ∧ g'.regs = g.regs ∧ g'.ctl = { g.ctl with pc := nextPc g f }) ∧
      (∀ m ∈ d.devs, m ≠ s.devid → m ∉ d.dropped →
        ∃ t, exec (.fdrop f) s = .next t ∧ t.mem = s.mem ∧ t.domain (s.readS g f.a).toNat = some { d with dropping := true } ∧
          t.own.outbox = s.own.outbox ++ (if d.dropping then [] else [.fdrop (s.readS g f.a).toNat]) ∧
          ∃ g', t.group s.own.cur = some g' ∧ g'.regs = g.regs ∧ g'.ctl = g.ctl ∧ g'.sched.hold = .order)) ∧
    (∀ (c : CellAt) (l : List (Nat × Nat × Nat × Dword)) (s2 s3 : State) (b : Byte), Ready (.fattr f) s g →
      Declared s g (s.readS g f.a).toNat d → s.cellAt g d.q64 true false (s.readSP g f.b) = (some c, []) →
      c.did = (s.readS g f.a).toNat → (s.readS g f.c).toNat ≤ 2 →
      (if g.visitor.isNone then s.unclean g.block else s).run noNode g.ctx g.priv true
        (BitVec.ofNat 64 (d.shadow + d.cell c.addr / 4)) 1 = some l → noFields l = true →
      (if g.visitor.isNone then s.unclean g.block else s).readPieces l = (s2, some [b]) →
      s2.readCell c.il c.key d.width = (s3, some 0) → s3.inFlight (s.readS g f.a).toNat (some (c.key, c.addr)) = false →
      (d.kinds.filter (fun x => x.1 ≠ d.cell c.addr && x.2 = (s.readS g f.c).toNat)).length < 16 →
      ∃ t d', exec (.fattr f) s = .next t ∧ t.domain (s.readS g f.a).toNat = some d' ∧
        d'.kind (d.cell c.addr) = (s.readS g f.c).toNat ∧ (∀ j, j ≠ d.cell c.addr → d'.kind j = d.kind j) ∧
        { d' with kinds := d.kinds, keys := d.keys } = d) ∧
    (∀ (l : List (Nat × List Piece)) (s1 : State) (bs : List Byte), Ready (.fdecl f) s g →
      s.check g { priv := false, peer := false } 128 [(0, s.readSP g f.a)] = .ok l → s.unsettled s.own.cur = false →
      (s.lookUps g [s.readSP g f.a]).readOwn s.own.cur g (l.flatMap (·.2)) = (s1, some bs) → field bs 52 1 = g.ctx.toNat →
      ∃ t, exec (.fdecl f) s = .next t ∧
        ((s1.declare g.ctx bs).2.1 = 0 → ∃ e, t.domain (field bs 12 2 % 4096) = some e ∧ e.state = .declaring ∧
          e.fdecl = some (s.own.cur, f.d.toNat)) ∧
        ((s1.declare g.ctx bs).2.1 ≠ 0 → t.domain (field bs 12 2 % 4096) = s.domain (field bs 12 2 % 4096) ∧
          Later s t g f.d.toNat [BitVec.ofNat 32 (s1.declare g.ctx bs).2.1] (nextPc g f))) ∧
    (∀ c ∈ [Instr.ftot, Instr.fgup, Instr.fdrop, Instr.fattr], Ready (c f) s g → s.domain (s.readS g f.a).toNat = none →
      exec (c f) s = .next (s.trap s.own.cur .fdom g.ctl.exm 0 7))

/-- A message of one kind stands before its home, and nothing holds it back there. -/
structure Sys2Proof.Claims.Stands (s : State) (m : Nat) (k : FKind) (d : FMsg) (p : Option Packet) : Prop where
  msg : s.fieldMsg m k = some (d, p)
  free : s.waitsHere m d p.isSome = false
  old : m < s.own.ids

/-- A message has been acted on and is gone. -/
def Sys2Proof.Claims.Gone (t : State) (m : Nat) : Prop := ∀ y ∈ t.fld.msgs, y.1 ≠ m

/-- The cell of `w` bytes at `key` holds `amt` more, modulo 2^(8w), and no other byte of memory has changed. -/
def Sys2Proof.Claims.Gains (s t : State) (key w : Nat) (amt : Int) : Prop :=
  (Mem.num t.mem key w : Int) = (signed w (Mem.num s.mem key w) + amt) % (2 ^ (8 * w) : Nat) ∧
  ∀ k, (k < key ∨ key + w ≤ k) → Mem.rd t.mem k = Mem.rd s.mem k

/-- A message with a property is on its way: to a home of this device, or in a FIELD packet of class 2 for another device, sent or held
back by a re-key (spec 15, R338). -/
def Sys2Proof.Claims.Sends (t : State) (fabric : Bool) (dev : Nat) (p : FMsg → Prop) : Prop :=
  if fabric then
    (∃ c ∈ t.fab.sctx, c.peer = dev ∧ c.cls = 2 ∧ ∃ x ∈ c.pkts, ∃ y, x.p.body = .field y ∧ p y) ∨
    (∃ h ∈ t.fab.held, h.1 = dev ∧ h.2.1 = 2 ∧ ∃ y, h.2.2.1.body = .field y ∧ p y)
  else ∃ y ∈ t.fld.msgs, p y.2.1

/-- R177, R341: a debit at a home takes exactly the lane's amount from the origin cell when the content less the amount does not lie
below the cell's floor, and the amount is then in a HELD record; otherwise the cell keeps its content. No other byte of
memory changes, the stack area of a deep stack under FNEG apart.
The floor of a cell whose domain has ended here is the model's choice (log entry 121). -/
def Sys2Proof.Claims.DebitConserves : Prop :=
  ∀ (s : State) (m : Nat) (d : FMsg) (p : Option Packet) (x : Xfer) (l : FLane), Stands s m .debit d p →
    s.fld.xfers.find? (fun y => y.id = d.xid) = some x → s.debitWaits x d = false → d.lanes = [l] →
    s.heldBefore x.gid x.releaseBound = false →
    s.remote x.rmt x.node [(l.okey, x.bytes)] = none → Clean s l.oil l.okey x.bytes → x.short = [] → x.status = [] →
    (∀ g, s.group x.gid = some g → s.imageOf g = none ∧ g.ctl.stack.length < 16) →
    ∃ t, exec (.debit m) s = .next t ∧ Gone t m ∧
      (∀ k, (k < l.okey ∨ l.okey + x.bytes ≤ k) → Mem.rd t.mem k = Mem.rd s.mem k) ∧
      (let c := signed x.bytes (Mem.num s.mem l.okey x.bytes)
       let floor := match s.domain l.did with | none => (0 : Int) | some e => e.floorOf (e.cell l.oaddr)
       (floor ≤ c - l.amt → (Mem.num t.mem l.okey x.bytes : Int) = (c - l.amt) % (2 ^ (8 * x.bytes) : Nat) ∧
         ∃ r ∈ (t.node d.home).home.mortars, r.amt = l.amt ∧ r.okey = l.okey ∧ r.xid = x.id ∧ r.state = .held) ∧
       (c - l.amt < floor → Mem.num t.mem l.okey x.bytes = Mem.num s.mem l.okey x.bytes ∧
         (t.node d.home).home.mortars = (s.node d.home).home.mortars))

/-- R170, R342, R343: a credit on the local path whose turn it is adds exactly its amount to a destination cell, or leaves the cell as it is
when the sum, with the amounts that are reserved there, would pass the largest value of the format. No other byte of memory changes. -/
def Sys2Proof.Claims.CreditConserves : Prop :=
  ∀ (s : State) (m : Nat) (c : FMsg) (r : Mortar), Stands s m .credit c none →
    s.mortar (seqHome c.mseq) c.mseq = some r → s.turnOf c = true → s.bankFull r.dil r.dkey = false →
    s.remote ((s.fld.xfers.find? (fun x => x.id = r.xid)).any (·.rmt)) r.icore [(r.dkey, if r.q64 then 8 else 4)] = none →
    Clean s r.dil r.dkey (if r.q64 then 8 else 4) →
    ∃ t, exec (.credit m) s = .next t ∧ Gone t m ∧
      (let w := if r.q64 then 8 else 4
       let v := signed w (Mem.num s.mem r.dkey w) + s.reserved (homeOf r.dil r.dkey) r.dkey + c.amt
       (v ≤ ((2 ^ (8 * w - 1) - 1 : Nat) : Int) → Gains s t r.dkey w c.amt ∧
         Sends t false 0 (fun a => a.kind = .done ∧ a.mseq = r.seq)) ∧
       (((2 ^ (8 * w - 1) - 1 : Nat) : Int) < v → t.mem = s.mem ∧ Sends t false 0 (fun a => a.kind = .ovf ∧ a.mseq = r.seq)))

/-- R170, R177, R341 to R343: debits and credits at their homes. -/
def Obligations.HomesConserve : Prop := Sys2Proof.Claims.DebitConserves ∧ Sys2Proof.Claims.CreditConserves

/-- No domain of a record reports withdrawals to a completion queue. -/
def Sys2Proof.Claims.NoQueue (s : State) (did : Nat) : Prop := ∀ d, s.domain did = some d → d.cq = 0

/-- A record as GO starts it: on its path, with the lanes that name its cell and its give-up time (spec 15, R341), which stands still during a
re-key (spec 21, R421; the model's reading, log entry 118). -/
def Sys2Proof.Claims.started (s : State) (d : FMsg) (r : Mortar) : Mortar :=
  if r.xid = d.xid ∧ r.state = .held then
    { r with
      lmask := maskOf (fun L => d.lanes.any (fun l => l.lane = L && l.ddev = r.ddev && l.daddr = r.daddr))
      state := if r.fabric then .offered else .crediting
      deadline := s.giveUpClock + r.gup }
  else r

/-- R341, R343 to R345, R477: what the origin home does with the messages of a transfer. GO starts the held records of the instruction,
each of which sends its OFFER or CREDIT. RETURN gives a record's amount back and frees it. ACCEPT makes an offered record CREDITING,
which sends its CREDIT; without a record it sends CANCEL. DONE frees a crediting record, whose status is 0. OVF and REFUSE give the amount
back, free the record and send status 3 or 4; without a record they are acknowledged. BUSY notes its time, and 1 µs later the
OFFER goes again. At give-up the amount returns with status 2, the record is CANCELLING and sends CANCEL. -/
def Sys2Proof.Claims.OriginMessages : Prop :=
  ∀ (s : State) (m : Nat) (d : FMsg) (p : Option Packet),
    (Stands s m .go d p → (∀ r ∈ (s.node d.home).home.mortars, seqHome r.seq = d.home) →
      ((s.node d.home).home.mortars.map (·.seq)).Nodup →
      ∃ t, exec (.go m) s = .next t ∧ Gone t m ∧ t.mem = s.mem ∧
        (t.node d.home).home.mortars = (s.node d.home).home.mortars.map (started s d) ∧
        ∀ r ∈ (s.node d.home).home.mortars, r.xid = d.xid → r.state = .held → Sends t r.fabric r.ddev (fun y =>
          y.kind = (if r.fabric then .offer else .credit) ∧ y.mseq = r.seq ∧ y.amt = r.amt ∧ y.addr = r.daddr ∧
          y.lmask = (started s d r).lmask)) ∧
    (Stands s m .giveBack d p → ∀ r, (s.node d.home).home.mortars.filter (fun r => r.xid = d.xid) = [r] →
      seqHome r.seq = d.home → Clean s r.oil r.okey (if r.q64 then 8 else 4) →
      ∃ t, exec (.returnAmount m) s = .next t ∧ Gone t m ∧ Gains s t r.okey (if r.q64 then 8 else 4) r.amt ∧
        ∀ q ∈ (t.node d.home).home.mortars, q.seq ≠ r.seq) ∧
    (∀ r, s.mortar (seqHome d.mseq) d.mseq = some r →
      (Stands s m .accept d p → r.state = .offered → ∃ t, exec (.accept m) s = .next t ∧ Gone t m ∧ t.mem = s.mem ∧
        t.mortar (seqHome d.mseq) d.mseq = some { r with state := .crediting } ∧
        Sends t r.fabric r.ddev (fun y => y.kind = .credit ∧ y.mseq = r.seq ∧ y.amt = r.amt)) ∧
      (Stands s m .done d p → r.state = .crediting → ∃ t, exec (.done m) s = .next t ∧ Gone t m ∧ t.mem = s.mem ∧
        t.mortar (seqHome d.mseq) d.mseq = none ∧
        Sends t false 0 (fun y => y.kind = .status ∧ y.home = r.icore ∧ y.xid = r.xid ∧ y.lane = r.lane ∧ y.reason = 0)) ∧
      (Stands s m .busy d p → ∃ t, exec (.busy m) s = .next t ∧ Gone t m ∧ t.mem = s.mem ∧
        t.mortar (seqHome d.mseq) d.mseq = some { r with busyAt := some s.clock.toNat }) ∧
      (Stands s m .ovf d p → r.state = (if r.fabric then .offered else .crediting) → Clean s r.oil r.okey (if r.q64 then 8 else 4) →
        ∃ t, exec (.ovf m) s = .next t ∧ Gone t m ∧ Gains s t r.okey (if r.q64 then 8 else 4) r.amt ∧
          t.mortar (seqHome d.mseq) d.mseq = none ∧
          Sends t false 0 (fun y => y.kind = .status ∧ y.home = r.icore ∧ y.xid = r.xid ∧ y.lane = r.lane ∧ y.reason = 3)) ∧
      (Stands s m .refuse d p → r.state = .offered → Clean s r.oil r.okey (if r.q64 then 8 else 4) → NoQueue s r.did →
        ∃ t, exec (.refuse m) s = .next t ∧ Gone t m ∧ Gains s t r.okey (if r.q64 then 8 else 4) r.amt ∧
          t.mortar (seqHome d.mseq) d.mseq = none ∧
          Sends t false 0 (fun y => y.kind = .status ∧ y.home = r.icore ∧ y.xid = r.xid ∧ y.lane = r.lane ∧
            y.reason = 4 + 16 * d.reason)) ∧
      (s.gupDue r = true → s.cellHeld (seqHome d.mseq) r.did r.oaddr = false → Clean s r.oil r.okey (if r.q64 then 8 else 4) → NoQueue s r.did →
        ∃ t, exec (.giveUp d.mseq) s = .next t ∧ Gains s t r.okey (if r.q64 then 8 else 4) r.amt ∧
          t.mortar (seqHome d.mseq) d.mseq = some { r with state := .cancelling } ∧
          Sends t false 0 (fun y => y.kind = .status ∧ y.home = r.icore ∧ y.xid = r.xid ∧ y.lane = r.lane ∧ y.reason = 2) ∧
          Sends t r.fabric r.ddev (fun y => y.kind = .cancel ∧ y.mseq = r.seq)) ∧
      (∀ b, r.state = .offered → r.busyAt = some b → b + 1600 ≤ s.clock.toNat →
        ∃ t, exec (.offerResend d.mseq) s = .next t ∧ t.mem = s.mem ∧
          t.mortar (seqHome d.mseq) d.mseq = some { r with busyAt := none } ∧
          Sends t r.fabric r.ddev (fun y => y.kind = .offer ∧ y.mseq = r.seq ∧ y.amt = r.amt))) ∧
    (s.mortar (seqHome d.mseq) d.mseq = none → ∀ q,
      ∀ k ∈ [(FKind.accept, Instr.accept m, FKind.cancel), (.done, .done m, .ack), (.ovf, .ovf m, .ack), (.refuse, .refuse m, .ack)],
      Stands s m k.1 d (some q) → ∃ t, exec k.2.1 s = .next t ∧ Gone t m ∧ t.mem = s.mem ∧
        Sends t true q.src (fun y => y.kind = k.2.2 ∧ y.mseq = d.mseq))

/-- R343 to R345, R477: what the destination home does on the fabric path. An OFFER whose answer stands is answered again; a new one is refused
with its reason, accepted where the content, the amounts reserved at the cell and its own amount do not pass the largest value, and
overflowed otherwise, and its entry keeps the answer. A CREDIT of an accepted amount adds it to the cell once, and DONE goes
back. ACK frees the entry; CANCEL frees one that is not applied, and without an entry decides the lane. An answer without ACK goes
again after 64 µs. -/
def Sys2Proof.Claims.DestinationMessages : Prop :=
  ∀ (s : State) (m : Nat) (d : FMsg) (p : Option Packet),
    (∀ n e, s.findDedup d.odev d.mseq = some (n, e) →
      (Stands s m .offer d p → ∃ t, exec (.offer m) s = .next t ∧ Gone t m ∧ t.mem = s.mem ∧
        Sends t true d.odev (fun y => y.kind = (answerOf e).1 ∧ y.mseq = d.mseq ∧ y.reason = (answerOf e).2)) ∧
      (∀ q, Stands s m .credit d (some q) → e.state = .accepted → s.bankFull e.il e.key = false → Clean s e.il e.key (if e.q64 then 8 else 4) →
        ∃ t, exec (.credit m) s = .next t ∧ Gone t m ∧ Gains s t e.key (if e.q64 then 8 else 4) e.amt ∧
          t.dedup n d.odev d.mseq = some { e with state := .applied, sentAt := s.clock.toNat } ∧
          Sends t true d.odev (fun y => y.kind = .done ∧ y.mseq = d.mseq)) ∧
      (∀ q, Stands s m .credit d (some q) → e.state ≠ .accepted →
        ∃ t, exec (.credit m) s = .next t ∧ Gone t m ∧ t.mem = s.mem ∧
          Sends t true d.odev (fun y => y.kind = (answerOf e).1 ∧ y.mseq = d.mseq)) ∧
      (Stands s m .ack d p → ∃ t, exec (.ack m) s = .next t ∧ Gone t m ∧ t.mem = s.mem ∧ t.dedup n d.odev d.mseq = none) ∧
      (Stands s m .cancel d p → ∃ t, exec (.cancel m) s = .next t ∧ Gone t m ∧ t.mem = s.mem ∧
        t.dedup n d.odev d.mseq = if e.state = .applied then some e else none) ∧
      (e.state ≠ .accepted → e.sentAt + 64 * 1600 ≤ s.clock.toNat →
        ∃ t, exec (.answerResend d.odev d.mseq) s = .next t ∧ t.mem = s.mem ∧
          t.dedup n d.odev d.mseq = some { e with sentAt := s.clock.toNat } ∧
          Sends t true d.odev (fun y => y.kind = (answerOf e).1 ∧ y.mseq = d.mseq))) ∧
    (s.findDedup d.odev d.mseq = none →
      (∀ r, Stands s m .offer d p → s.offerAt d = .error r →
        (s.node (s.offerHome d)).home.dedups.length < homeCap (s.offerHome d) →
        ∃ t, exec (.offer m) s = .next t ∧ Gone t m ∧ t.mem = s.mem ∧
          (∃ e, t.dedup (s.offerHome d) d.odev d.mseq = some e ∧ e.state = .refused r) ∧
          Sends t true d.odev (fun y => y.kind = .refuse ∧ y.mseq = d.mseq ∧ y.reason = r)) ∧
      (∀ key il e, Stands s m .offer d p → s.offerAt d = .ok (key, il, e) → s.turnOf d = true → s.bankFull il key = false →
        Clean s il key e.width → (s.node (homeOf il key)).home.dedups.length < homeCap (homeOf il key) →
        ∃ t x, exec (.offer m) s = .next t ∧ Gone t m ∧ t.mem = s.mem ∧
          t.dedup (homeOf il key) d.odev d.mseq = some x ∧ x.key = key ∧ x.amt = d.amt ∧
          (let v := signed e.width (Mem.num s.mem key e.width) + s.reserved (homeOf il key) key + d.amt
           (v ≤ ((2 ^ (8 * e.width - 1) - 1 : Nat) : Int) → x.state = .accepted ∧
             Sends t true d.odev (fun y => y.kind = .accept ∧ y.mseq = d.mseq)) ∧
           (((2 ^ (8 * e.width - 1) - 1 : Nat) : Int) < v → x.state = .overflowed ∧
             Sends t true d.odev (fun y => y.kind = .ovf ∧ y.mseq = d.mseq)))) ∧
      (Stands s m .cancel d p → d.lane < 32 → d.lmask &&& ~~~(s.decided d ||| (1#32 <<< d.lane)) ≠ 0 →
        ∃ t, exec (.cancel m) s = .next t ∧ Gone t m ∧ t.mem = s.mem ∧ (t.decided d).getLsbD d.lane = true))

/-- R177, R181, R341: the status of a lane is in that lane of D of its resident group, and the transfer notes it; with the last lane the
transfer is over and D is full, unless a lane never resolves. -/
def Sys2Proof.Claims.StatusArrives : Prop :=
  ∀ (s : State) (m : Nat) (d : FMsg) (p : Option Packet) (x : Xfer) (g : Group), Stands s m .status d p →
    s.fld.xfers.find? (fun y => y.id = d.xid) = some x → d.reason % 16 ≠ 9 → x.dead = false → d.lane < 32 →
    s.group x.gid = some g → g.visitor = none → g.ctl.livem ≠ 0 → s.imageOf g = none → g.busy x.dst = false → x.dst < 255 →
    (let y := { x with status := x.status ++ [(d.lane, d.reason % 16, d.reason / 16)] }
     ∃ t g', exec (.status m) s = .next t ∧ Gone t m ∧ t.mem = s.mem ∧ t.group x.gid = some g' ∧
      g'.rdV x.dst d.lane = BitVec.ofNat 32 (d.reason % 16) ∧
      (y.left ≠ [] → t.fld.xfers.find? (fun z => z.id = d.xid) = some y) ∧
      (y.left = [] → (∀ z ∈ t.fld.xfers, z.id ≠ d.xid) ∧ (x.lost = 0 → g'.isEmpty false x.dst = false)))

/-- R177, R181, R341 to R345, R477: the messages of a transfer at the homes and at the issuing core. The home that keeps the answer to an
offer that cannot be translated, and the clock of GLEFT in a re-key, are the model's (log entries 68, 111 and 118). -/
def Obligations.TransferMessages : Prop :=
  Sys2Proof.Claims.OriginMessages ∧ Sys2Proof.Claims.DestinationMessages ∧ Sys2Proof.Claims.StatusArrives

/-- R185, R187, R347: the snapshot of a domain. A home of a snapshot that has begun is held and, up to GUP/2 after the first HOLD, answers; once
every home has answered in time the snapshot is over, its homes resume, and an ftot's figure is in its pair; one that is late ends with
FABERR; a home resumes by itself after its time. A declaring domain becomes active when the reported sums give C, with status 0, and
fails otherwise, with status 7; one that is not activated in time is dropped, with status 8.
The sums of other members are free (log entry 26). -/
def Obligations.Snapshots : Prop :=
  (∀ (s : State) (x : Snap) (d : Domain) (o : Nat), s.fld.snaps.find? (fun y => y.id = x.id) = some x →
    s.domain x.did = some d → x.begun = true → o ∈ x.homes → (∀ a ∈ x.answers, a.1 ≠ o) → o < 256 →
    (∀ h ∈ (s.node o).home.holds, h.1 ≠ x.id) →
    ∃ t, exec (.hold x.id o) s = .next t ∧ t.mem = s.mem ∧
      (∃ h ∈ (t.node o).home.holds, h.1 = x.id ∧ h.2.1 = x.did) ∧
      (s.clock.toNat ≤ x.h0 + gupCycles d.gup / 2 → ∀ y ∈ t.fld.snaps, y.id = x.id → ∃ a ∈ y.answers, a.1 = o ∧
        a.2.1 = BitVec.ofInt 64 (s.sumAt d o 1) ∧ a.2.2 = BitVec.ofInt 64 (s.sumAt d o 2))) ∧
  (∀ (s : State) (x : Snap) (d : Domain), s.fld.snaps.find? (fun y => y.id = x.id) = some x → s.domain x.did = some d →
    (snapDone x = true → ∃ t, exec (.snapshotRelease x.id) s = .next t ∧ (∀ y ∈ t.fld.snaps, y.id ≠ x.id) ∧
      (∀ n, ∀ h ∈ (t.node n).home.holds, h.1 ≠ x.id) ∧
      ∀ gid r, x.asker = .group gid r → r + 1 < 128 → x.figure ≠ 0 →
        (let sources := (x.answers.map (·.2.1)).foldl (· + ·) (0 : Dword)
         let sinks := (x.answers.map (·.2.2)).foldl (· + ·) (0 : Dword)
         let v := if x.figure = 2 then sources else if x.figure = 3 then sinks else d.c - sources - sinks
         Landed s t gid r (v.truncate 32) ∧ Landed s t gid (r + 1) ((v >>> 32).truncate 32))) ∧
    (x.begun = true → snapDone x = false → x.h0 + gupCycles d.gup / 2 < s.clock.toNat →
      ∃ t, exec (.snapshotTimeout x.id) s = .next t ∧ (∀ y ∈ t.fld.snaps, y.id ≠ x.id) ∧
        ∀ gid r g, x.asker = .group gid r → s.group gid = some g → g.visitor = none → g.ctl.livem ≠ 0 → ∃ g' e, t.group gid = some g' ∧
          g'.out.imprecise = g.out.imprecise ++ [e] ∧ e.cause = 16)) ∧
  (∀ (s : State) (n : Nat) (h : Nat × Nat × Nat), h ∈ (s.node n).home.holds → h.2.2 ≤ s.clock.toNat →
    ∃ t, exec (.holdSelfResume h.1 n) s = .next t ∧ ∀ k ∈ (t.node n).home.holds, k.1 ≠ h.1) ∧
  (∀ (s : State) (did : Nat) (d : Domain) (reports : List (Nat × Dword)), s.domain did = some d → d.state = .declaring →
    reports.map (·.1) = d.devs.filter (· ≠ s.devid) →
    ∃ t e, exec (.domainActivation did reports) s = .next t ∧ t.domain did = some e ∧
      (e.state = .active ↔ (reports.map (·.2)).foldl (· + ·) d.lseed = d.c) ∧ (e.state = .active ∨ e.state = .failed) ∧
      ∀ gid r, d.fdecl = some (gid, r) → Landed s t gid r (if e.state = .active then 0 else 7)) ∧
  (∀ (s : State) (did : Nat) (d : Domain), s.domain did = some d → d.state = .declaring →
    d.since + gupCycles d.gup ≤ s.clock.toNat →
    ∃ t, exec (.fdeclTimeout did) s = .next t ∧ t.domain did = none ∧
      ∀ gid r, d.fdecl = some (gid, r) → Landed s t gid r 8)

/-! ### Reset, steps, decoding, operands, traps -/

/-- R33, R414, R455, R460, R476: after a cold start the device is ready and runs nothing; the counters, accumulator blocks and
tables are zero, no block of a core is owned, the GRIDID counter is 1, CARVE is 0 and VOPEN 0xFF, and the ports are OPEN. That
memory reads zero and that it is in its canonical form are the model's (log entries 6 and 7), as is beginning after a cold start
(log entry 5). -/
def Obligations.ResetState : Prop :=
  State.reset.power = true ∧ State.reset.clock = 0 ∧ State.reset.mgmt.devstat = 1 ∧ State.reset.groups = [] ∧
  State.reset.blocks = [] ∧ State.reset.grids = [] ∧ State.reset.accs = [] ∧ State.reset.fld.domains = [] ∧
  State.reset.dist.gridid = 1 ∧ (∀ n, Sparse.get 0 State.reset.dist.counters n = 0) ∧
  (∀ n, (State.reset.node n).carve = 0 ∧ (State.reset.node n).vopen = 0xFF ∧ (State.reset.node n).rot = 0 ∧
    (∀ b, State.reset.accTag n b = 0 ∧ ∀ i j, State.reset.accWord n b i j = 0)) ∧
  (∀ n, (Sparse.get Port.reset State.reset.fab.ports n).state = 0 ∧ (Sparse.get Port.reset State.reset.fab.ports n).reason = 0) ∧
  (∀ k, Mem.rd State.reset.mem k = 0) ∧ Mem.wf State.reset.mem = true

/-- The state in which group `gid` has its turn: the agenda's head is gone, and a cycle has passed. -/
def Sys2Proof.Claims.turned (s : State) (ts : List Turn) : State :=
  ({ s with own := { s.own with agenda := ts } }).tick 1

/-- The length in bytes that LEN gives (spec 02, R40). -/
def Sys2Proof.Claims.lengthOf (w : Nat) : Nat := if w % 4 = 0 then 8 else if w % 4 = 1 then 12 else 16

/-- R41, R42, R56, R57: when a group that may issue, and that its partition chooses, has its turn and the bits at its PC decode to an
instruction that lies within a 32-byte unit, the step is that instruction's meaning; otherwise it is the decode trap: IALIGN for a PC that is
not a multiple of 4, XLATE, ILLOP with reason 1 for LEN 0b11, MISPLACE, or ILLOP with the reason and field code. Before it the fetch has
changed nothing but what reads at homes do. A group that may not issue lets its turn pass. That the agenda gives the turn is the model's (log
entry 2), and so are the passing of a cycle with each step (log entry 3) and what comes about at once after one (`settled`). -/
def Obligations.StepRunsDecoded : Prop :=
  ∀ (s : State) (gid : Nat) (ts : List Turn) (g : Group), s.power = true → s.own.agenda = .issue gid :: ts →
    (turned s ts).group gid = some g →
    ((turned s ts).canIssue g = false ∨ (turned s ts).chosen gid g = false → step s = settled (.next (turned s ts))) ∧
    ((turned s ts).canIssue g = true → (turned s ts).chosen gid g = true → g.out.imprecise = [] →
      ((turned s ts).joinwDue g = false ∨ g.atJoin = true) → (turned s ts).breakHere g = false →
      (g.ctl.pc.toNat % 4 = 0 → (turned s ts).fetchBad g g.ctl.pc = false) →
      ∃ u, u.own.cur = gid ∧ u.groups = (turned s ts).groups ∧
        (∃ v, HomesOnly (turned s ts) v ∧ { u with own := v.own, mgmt := v.mgmt } = v ∧
          { u.mgmt with stepping := v.mgmt.stepping } = v.mgmt ∧ { u.own with cur := v.own.cur, tried := v.own.tried } = v.own) ∧
        (g.ctl.pc.toNat % 4 ≠ 0 → step s = settled (exec (.unassignedCell 3 0 0) u)) ∧
        (g.ctl.pc.toNat % 4 = 0 → ∀ aux, (turned s ts).fetch g g.ctl.pc = .error aux →
          step s = settled (exec (.unassignedCell 4 (BitVec.ofNat 64 aux) g.ctl.pc) u)) ∧
        (g.ctl.pc.toNat % 4 = 0 → ∀ w, (turned s ts).fetch g g.ctl.pc = .ok w →
          (w % 4 = 3 → step s = settled (exec (.unassignedCell 1 1 0) u)) ∧
          (w % 4 ≠ 3 → 32 < g.ctl.pc.toNat % 32 + lengthOf w → step s = settled (exec (.unassignedCell 2 0 g.ctl.pc) u)) ∧
          (w % 4 ≠ 3 → g.ctl.pc.toNat % 32 + lengthOf w ≤ 32 →
            (∀ i, decode w = .ok i → step s = settled (exec i u)) ∧
            (∀ r c, decode w = .error (.illop r c) →
              step s = settled (exec (.unassignedCell 1 (BitVec.ofNat 64 (r + 256 * c)) 0) u)))))

/-- The fields of an example word: everything the list does not give is zero. -/
def Sys2Proof.Claims.word (len : Len) (mod : BitVec 9) (d a b c : BitVec 8) (imm : BitVec 64) : Fields :=
  { len := len, land := false, mod := mod, gs := 0, wa := false, wb := false, wc := false, d := d, a := a, b := b, c := c,
    e := 0, h := 0, we := false, wh := false, rsv := false, xmod := 0, imm := imm }

/-- R40, R46, R49, R57, and the encodings that spec 05 to 12 print: words of several families decode to what they stand for; LEN 0b11,
an opcode without cells and a function code without a cell are refused with reasons 1, 2 and 3; what decodes is well formed. -/
def Obligations.DecodeWords : Prop :=
  decode 0x000000C705040040 = .ok (.sadd (word .w64 0 4 5 0xC7 0 0)) ∧
  decode 0x000186A00000000005040041 = .ok (.sadd (word .w96 0 4 5 0 0 0x186A0)) ∧
  decode 0x000100C705040040 = .ok (.sadd { word .w64 0 4 5 0xC7 0 0 with wa := true }) ∧
  decode 0x00000060000000000F000805 = .ok (.bnz (word .w96 0 0 15 0 0 0x60)) ∧
  decode 0x0380070605040184 = .ok (.vfma (word .w64 7 4 5 6 7 0)) ∧
  decode 0x090040020A0502C0 = .ok (.vld (word .w64 0x12 5 10 2 0x40 0)) ∧
  decode 0x000000000000040A010003020A090322 = .ok (.xfer { word .w128 2 9 10 2 3 0 with e := 10, h := 4 }) ∧
  decode 0x0180083010040340 = .ok (.mma (word .w64 3 4 16 48 8 0)) ∧
  decode 0x000000050200038C = .ok (.gset (word .w64 0 0 2 5 0 0)) ∧
  decode 0x000000C10A0407A8 = .ok (.ecdec (word .w64 0 4 10 193 0 0)) ∧
  decode 0x0000004000800000000103E1 = .ok (.sysrd (word .w96 1 1 0 0 0 0x40)) ∧
  (∀ w, w % 4 = 3 → decode w = .error (.illop 1 0)) ∧
  (∀ w, w % 4 ≠ 3 → (∀ p ∈ cellTable, p.1 ≠ w / 4 % 256) → decode w = .error (.illop 2 0)) ∧
  (∀ w, w % 4 ≠ 3 → (∃ p ∈ cellTable, p.1 = w / 4 % 256) → (∀ p ∈ cellTable, p.1 = w / 4 % 256 → p.2.1 ≠ w / 1024 % 64) →
    decode w = .error (.illop 3 0)) ∧
  (∀ w i, decode w = .ok i → i.isCell = true ∧ i.wf = true)

/-- The length of an instruction in bits (spec 02, R40). -/
def Sys2Proof.Claims.bitLength (i : Instr) : Nat :=
  match i.row with
  | none => 0
  | some (f, _) => match f.len with | .w64 => 64 | .w96 => 96 | .w128 => 128

/-- Decode and encode agree over the whole opcode map: every well-formed instruction, with every operand at every value its encoding admits, is
what its own bits decode to; and the bits of every instruction that decodes are the encoder's, those beyond its length not counted. -/
def Obligations.DecodeEncode : Prop :=
  (∀ i : Instr, i.isCell = true → i.wf = true →
    ∃ w, encode i = some w ∧ w < 2 ^ bitLength i ∧ ∀ x, decode (w + 2 ^ bitLength i * x) = .ok i) ∧
  (∀ w i, decode w = .ok i → encode i = some (w % 2 ^ bitLength i))

/-- The canonical forms that every step keeps: memory's (keys strictly rising, and no byte listed that reads as an unlisted one does), and that of the
list of groups, whose keys strictly rise, so that no two groups have one identity (the model's, log entry 7). -/
def Obligations.MemoryCanonical : Prop :=
  ∀ s t : State, step s = .next t →
    (Mem.wf s.mem = true → Mem.wf t.mem = true) ∧ (Sparse.sorted s.groups = true → Sparse.sorted t.groups = true)

/-- R10, R20: whatever instruction of the opcode map is executed, no lane that has left a group comes back to it, and in every group
that stays EXM names no lane outside LIVEM if it named none before. -/
def Obligations.LanesOnlyLeave : Prop :=
  ∀ (i : Instr) (s t : State), i.isCell = true → Sparse.sorted s.groups = true → exec i s = .next t →
    ∀ j g g', s.group j = some g → t.group j = some g' →
      g'.ctl.livem &&& ~~~g.ctl.livem = 0 ∧ (g.ctl.exm &&& ~~~g.ctl.livem = 0 → g'.ctl.exm &&& ~~~g'.ctl.livem = 0)

/-- R52 to R55: what a scalar operand field reads: registers, the special values, and the inline constants, which a pair field
sign-extends. -/
def Obligations.OperandValues : Prop :=
  ∀ (s : State) (g : Group) (x : BitVec 8),
    (x.toNat < 128 → s.readS g x = g.rdS x.toNat ∧
      s.readSP g x = (g.rdS (x.toNat + 1)) ++ (g.rdS x.toNat)) ∧
    (192 ≤ x.toNat → x.toNat < 224 → (s.readS g x).toInt = (x.toNat : Int) - 192) ∧
    (224 ≤ x.toNat → x.toNat < 240 → (s.readS g x).toInt = 223 - (x.toNat : Int)) ∧
    (192 ≤ x.toNat → (s.readSP g x).toInt = (s.readS g x).toInt) ∧
    ((List.range 16).map (fun i => s.readS g (BitVec.ofNat 8 (240 + i))) =
      [0x3F000000, 0xBF000000, 0x3F800000, 0xBF800000, 0x40000000, 0xC0000000, 0x40800000, 0xC0800000, 0x7F800000, 0xFF800000,
       0x7FC00000, 0x80000000, 0x7FFFFFFF, 0x3E000000, 0x00010000, 0x9E3779B9]) ∧
    (s.readS g 138 = g.ctl.exm ∧ s.readS g 139 = g.ctl.livem ∧ s.readS g 140 = BitVec.ofNat 32 g.ctl.stack.length ∧
      s.readS g 141 = g.sys.gstat ∧ s.readS g 142 = g.sys.batchseq ∧ s.readS g 143 = g.sys.batchdone ∧
      s.readSP g 144 = s.clock ∧ s.readS g 146 = g.sys.gang ∧ s.readS g 147 = g.sys.fmtlast) ∧
    (∀ b x, s.block g.block = some b → s.grid b.grid = some x → 0 < x.gx → 0 < x.gy →
      s.readS g 128 = BitVec.ofNat 32 g.index ∧
      ((s.readS g 129).toNat + x.gx * ((s.readS g 130).toNat + x.gy * (s.readS g 131).toNat) = b.lin ∨ 2 ^ 32 ≤ b.lin ∨ 2 ^ 32 ≤ x.gx ∨ 2 ^ 32 ≤ x.gy) ∧
      s.readS g 132 = BitVec.ofNat 32 (b.lin / b.k.clsz) ∧ s.readS g 133 = BitVec.ofNat 32 (b.lin % b.k.clsz) ∧
      s.readS g 134 = x.gridid ∧ s.readS g 135 = BitVec.ofNat 32 g.owner ∧ s.readSP g 148 = x.args ∧
      s.readS g 150 = BitVec.ofNat 32 b.k.scr ∧ s.readS g 151 = BitVec.ofNat 32 b.k.ngrp ∧
      s.readS g 155 = BitVec.ofNat 32 b.k.clsz ∧ s.readS g 156 = BitVec.ofNat 32 b.k.accn)

/-- R15, R18, R56 steps 6 to 8: before any instruction of the opcode map acts, a register beyond the allocation raises REGBOUND, a
supervisor instruction in user mode raises PRIV, an empty source with its wait bit raises EMPTYREG, and any other empty register it
names makes the group wait where it is, with nothing of its state changed; mtest's A is read empty or full (R274). An mma under a
GANG word of its size checks its operand ranges first, then C; for an mmac the checks of its GANG come before the wait (R193, R194, R197).
That a range is sized by the group's own lowest active lane, and the order of these checks, are the model's reading (log entry 31). -/
def Obligations.IssueChecks : Prop :=
  (∀ (f : Fields) (s : State) (g : Group), s.group s.own.cur = some g →
    ∀ p ∈ [(Instr.mma f, gangNamed .mma (rowMma f) f g (if g.isEmpty false f.c.toNat then 0 else
          match lanesOf g.ctl.exm with | [] => 0 | L :: _ => s.readV g f.c.toNat L)),
        (Instr.mmac f, ([], namedRegs (rowMmac f) f))],
      (∀ n, (p.2.1 ++ p.2.2).find? (fun n => !s.owns g n.scalar n.reg || (p.2.1.contains n && 255 ≤ n.reg)) = some n →
        exec p.1 s = .next (s.trap s.own.cur .regbound g.ctl.exm 0 (BitVec.ofNat 64 (n.reg % 256 + if n.scalar then 256 else 0)))) ∧
      ((∀ n ∈ p.2.1 ++ p.2.2, s.owns g n.scalar n.reg = true) → (∀ n ∈ p.2.1, n.reg < 255) →
        ∀ n, (p.2.1 ++ p.2.2).find? (fun n => n.wait && g.isEmpty n.scalar n.reg) = some n →
          exec p.1 s = .next (s.trap s.own.cur .emptyreg g.ctl.exm 0 (BitVec.ofNat 64 (n.reg % 256 + if n.scalar then 256 else 0))))) ∧
  ∀ (i : Instr) (f : Fields) (r : Row) (s : State) (g : Group), i.row = some (f, r) → i ≠ .mma f → i ≠ .mmac f →
    s.group s.own.cur = some g →
    (∀ n, (namedRegs r f).find? (fun n => !s.owns g n.scalar n.reg) = some n →
      exec i s = .next (s.trap s.own.cur .regbound g.ctl.exm 0 (BitVec.ofNat 64 (n.reg % 256 + if n.scalar then 256 else 0)))) ∧
    ((∀ n ∈ namedRegs r f, s.owns g n.scalar n.reg = true) →
      (r.sup = true → g.ctl.supAt = none → exec i s = .next (s.trap s.own.cur .priv g.ctl.exm 0 0)) ∧
      ((r.sup = true → g.ctl.supAt ≠ none) →
        (∀ n, (namedRegs r f).find? (fun n => (n.role = .src || n.role = .both) && n.wait && g.isEmpty n.scalar n.reg) = some n →
          exec i s = .next (s.trap s.own.cur .emptyreg g.ctl.exm 0
            (BitVec.ofNat 64 (n.reg % 256 + if n.scalar then 256 else 0)))) ∧
        ((∀ n ∈ namedRegs r f, (n.role = .src ∨ n.role = .both) → n.wait = true → g.isEmpty n.scalar n.reg = false) →
          ∀ n, (namedRegs r f).find? (fun n => n.role ≠ .peek && g.isEmpty n.scalar n.reg) = some n →
            ∃ t g', exec i s = .next t ∧ t.group s.own.cur = some g' ∧ t.mem = s.mem ∧ (∀ j, j ≠ s.own.cur → t.group j = s.group j) ∧
              g'.ctl = g.ctl ∧ g'.regs = g.regs ∧ g'.sys = g.sys ∧ g'.eng = g.eng ∧ g'.out = g.out ∧
              g'.sched.hold = (if i = .mjoin f then .mjoin n.reg else if n.scalar then .sreg n.reg else .vreg n.reg))))

/-- R284: the numbers of the trap causes. -/
def Sys2Proof.Claims.causeTable : List (Cause × Nat) :=
  [(.illop, 1), (.misplace, 2), (.ialign, 3), (.xlate, 4), (.landing, 5), (.regbound, 6), (.priv, 7), (.emptyreg, 8), (.stkkind, 9),
   (.stkovf, 10), (.stkund, 11), (.dspace, 12), (.dalign, 13), (.lbound, 14), (.fstore, 15), (.faberr, 16), (.fdom, 17), (.famt, 18),
   (.fneg, 19), (.fovf, 20), (.gang, 21), (.fmtdiv, 22), (.fmtbad, 23), (.accown, 24), (.accbound, 25), (.tdesc, 26), (.syncbad, 27),
   (.engflt, 28), (.cdesc, 29), (.qbad, 30), (.migref, 31), (.migflt, 32), (.sdc, 33), (.uncorr, 34), (.swtrap, 35), (.brk, 36),
   (.scall, 37), (.imgbad, 38)]

/-- R269, R277, R284, R384, R385: taking a trap records cause, lanes, address and auxiliary value, pushes the TRAP entry with the active mask and
the resume address (an entry that leaves the chip goes to the stack area, R22), makes every live lane active, and goes to the handler of the cause's route, entering supervisor mode for the
supervisor's causes; the first trap of a block halts its other groups. A full stack, or no handler, ends the block; a visitor ends. A decode
trap is taken in this way at the instruction (R56). In a skid the group stops before the instruction instead (R386); where an eviction alone halts
its block it takes the trap and stops at the handler (R393).
How far the other groups go on after the broadcast is the model's reading (log entry 19), as is the entry by which supervisor mode is
known (log entry 16). -/
def Obligations.TrapEntry : Prop :=
  (∀ p ∈ causeTable, causeNo p.1 = p.2) ∧
  (∀ (s : State) (gid c : Nat) (lanes : Word) (addr aux p : Dword) (g : Group) (b : Block), s.group gid = some g →
    (g.visitor = none → s.block g.block = some b → g.ctl.stack.length < 256 →
      ((c = 4 ∨ c = 24 ∨ c = 37) → s.suph g.ctx ≠ 0) → (¬ (c = 4 ∨ c = 24 ∨ c = 37) → b.k.handler ≠ 0) →
      ∃ g' b', (s.takeTrap gid c lanes addr aux p).group gid = some g' ∧
        (∃ u, Spilled s u g ({ waiting := false, tmo := 0, kind := .trap, mask := g.ctl.exm, pc := entryPc p } :: g.ctl.stack) ∧
          HomeWrites s u ∧ (s.takeTrap gid c lanes addr aux p).mem = u.mem ∧ (s.takeTrap gid c lanes addr aux p).dram = u.dram) ∧
        g'.sys = { g.sys with tcause := BitVec.ofNat 32 c, tlanes := lanes, taddr := addr, taux := aux, skid := 0, haltpc := p } ∧
        g'.ctl.stack = { waiting := false, tmo := 0, kind := .trap, mask := g.ctl.exm, pc := entryPc p } :: g.ctl.stack ∧
        g'.ctl.exm = g.ctl.livem ∧ g'.ctl.livem = g.ctl.livem ∧ g'.ctl.guards = g.ctl.guards ∧ g'.regs = g.regs ∧ g'.eng = g.eng ∧
        g'.out = g.out ∧ g'.ctl.pc = (if c = 4 ∨ c = 24 ∨ c = 37 then s.suph g.ctx else b.k.handler) ∧
        g'.priv = (g.priv || c = 4 || c = 24 || c = 37) ∧
        (s.takeTrap gid c lanes addr aux p).block g.block = some b' ∧
        b' = { b with thalt := true, hgrp := if b.thalt then b.hgrp else g.index,
                      haltDepth := if b.thalt then b.haltDepth else g.ctl.stack.length + 1 } ∧
        (b.thalt = false → ∀ j h, j ≠ gid → s.group j = some h → h.block = g.block → h.visitor = none → h.sched.skidLeft = none →
          h.sched.dhalt = false → ∃ h' n, (s.takeTrap gid c lanes addr aux p).group j = some h' ∧ h'.sched.skidLeft = some n ∧ n ≤ 16 ∧
            h'.regs = h.regs ∧ h'.ctl = h.ctl ∧ h'.sys = { h.sys with skid := 0, haltpc := h.ctl.pc })) ∧
    (g.visitor = none → s.block g.block = some b →
      (g.ctl.stack.length = 256 ∨ ((c = 4 ∨ c = 24 ∨ c = 37) ∧ s.suph g.ctx = 0) ∨ (¬ (c = 4 ∨ c = 24 ∨ c = 37) ∧ b.k.handler = 0)) →
      ∀ q ∈ (s.takeTrap gid c lanes addr aux p).groups, q.2.block ≠ g.block) ∧
    (∀ v, g.visitor = some v → (s.takeTrap gid c lanes addr aux p).group gid = none ∧
      (s.takeTrap gid c lanes addr aux p).mem = s.mem)) ∧
  (∀ (s : State) (gid : Nat) (g : Group) (c : Cause) (lanes : Word) (addr aux : Dword), s.group gid = some g →
    (g.sched.skidLeft = none → s.trap gid c lanes addr aux = s.takeTrap gid (causeNo c) lanes addr aux g.ctl.pc) ∧
    (∀ n, g.sched.skidLeft = some n → s.onlyEvicting g = true → s.trap gid c lanes addr aux =
      (s.takeTrap gid (causeNo c) lanes addr aux g.ctl.pc).modGroup gid (fun g => { g with sched := { g.sched with skidLeft := some 0 } })) ∧
    (∀ n, g.sched.skidLeft = some n → s.onlyEvicting g = false →
      ∃ g', (s.trap gid c lanes addr aux).group gid = some g' ∧ g'.sched.skidLeft = some 0 ∧
      g'.ctl = g.ctl ∧ g'.regs = g.regs ∧ g'.sys = { g.sys with haltpc := g.ctl.pc })) ∧
  (∀ (s : State) (g : Group) (c : Cause) (aux addr : Dword), s.group s.own.cur = some g → c ∈ [Cause.illop, .misplace, .ialign, .xlate] →
    exec (.unassignedCell (causeNo c) aux addr) s = .next (s.trap s.own.cur c g.ctl.exm addr aux))

/-- The one effect is that the current group becomes `g0`, but for the PC and what finishing an instruction changes. -/
def Sys2Proof.Claims.GroupWrite (s t : State) (g0 : Group) (pc : Dword) : Prop :=
  ∃ g', OnlyGroup s t g' ∧ Over g0 g' pc ∧ g'.eng = g0.eng ∧ g'.regs = g0.regs ∧ g'.ctl.exm = g0.ctl.exm

/-- R35, R37, R275: what sysrd reads by register number, in lane L. -/
def Sys2Proof.Claims.sysTable : List (Nat × (State → Group → Nat → Dword)) :=
  [(0x000, fun _ g _ => g.sys.tcause.zeroExtend 64), (0x002, fun _ g _ => g.sys.tlanes.zeroExtend 64), (0x003, fun _ g _ => g.sys.taddr),
   (0x004, fun _ g _ => g.sys.taux), (0x005, fun _ g _ => g.sys.skid.zeroExtend 64), (0x006, fun _ g _ => g.sys.haltpc),
   (0x007, fun s g _ => (s.node g.owner).wakewhy.zeroExtend 64), (0x008, fun _ g _ => g.ctx.zeroExtend 64),
   (0x009, fun _ g _ => if g.priv then 1 else 0), (0x00A, fun s _ _ => s.clock), (0x00B, fun _ g _ => g.sys.gang.zeroExtend 64),
   (0x00C, fun _ g _ => g.sys.fmtlast.zeroExtend 64), (0x00D, fun _ g _ => g.ctl.exm.zeroExtend 64),
   (0x00E, fun _ g _ => g.ctl.livem.zeroExtend 64), (0x00F, fun _ g _ => g.sys.gstat.zeroExtend 64),
   (0x010, fun _ g _ => BitVec.ofNat 64 g.ctl.stack.length), (0x011, fun _ g _ => g.sys.batchseq.zeroExtend 64),
   (0x012, fun _ g _ => g.sys.batchdone.zeroExtend 64), (0x013, fun _ g _ => g.sys.cks), (0x040, fun _ _ L => BitVec.ofNat 64 L),
   (0x041, fun _ _ L => BitVec.ofNat 64 (L / 4)), (0x042, fun _ g _ => (BitVec.ofNat 32 g.index).zeroExtend 64),
   (0x049, fun _ g _ => (BitVec.ofNat 32 g.owner).zeroExtend 64)]

/-- R35, R275, R276: sysrd puts a register of the table into a scalar or a pair by its width, or into each lane of W; syswr writes GANG, EXM ANDed with
LIVEM, CTXID, the resume address of the innermost TRAP entry, GSTAT, whose bits it can only clear, and CKS; values that a register does not
take raise ILLOP with reason 14.
That CTXID takes the value 0 is the model's choice (log entry 115). -/
def Obligations.SystemRegisters : Prop :=
  (∀ p ∈ sysTable, ∀ (f : Fields) (s : State) (g : Group), Ready (.sysrd f) s g → f.imm.toNat = p.1 →
    (f.m 1 = false → p.1 ∈ [3, 4, 6, 10, 0x13] → ∃ t, exec (.sysrd f) s = .next t ∧ PairWrite s t g f.d (p.2 s g 0) (nextPc g f)) ∧
    (f.m 1 = false → p.1 ∉ [3, 4, 6, 10, 0x13] → ScalarDst f.d →
      ∃ t, exec (.sysrd f) s = .next t ∧ ScalarWrite s t g f.d ((p.2 s g 0).truncate 32) (nextPc g f)) ∧
    (f.m 1 = true → p.1 ∈ [3, 4, 6, 10, 0x13] → ∃ t, exec (.sysrd f) s = .next t ∧
      VectorWrite s t g g.wset [f.d.toNat, f.d.toNat + 1]
        (fun r L => if r = f.d.toNat then (p.2 s g L).truncate 32 else (p.2 s g L >>> 32).truncate 32) (nextPc g f)) ∧
    (f.m 1 = true → p.1 ∉ [3, 4, 6, 10, 0x13] → ∃ t, exec (.sysrd f) s = .next t ∧
      VectorWrite s t g g.wset [f.d.toNat] (fun _ L => (p.2 s g L).truncate 32) (nextPc g f))) ∧
  (∀ (f : Fields) (s : State) (g : Group), Ready (.syswr f) s g →
    (f.imm.toNat = 0x00B → ∃ t, exec (.syswr f) s = .next t ∧
      GroupWrite s t { g with sys := { g.sys with gang := s.readS g f.a } } (nextPc g f)) ∧
    (f.imm.toNat = 0x00D → ∃ t, exec (.syswr f) s = .next t ∧
      GroupWrite s t { g with ctl := { g.ctl with exm := s.readS g f.a &&& g.ctl.livem } } (nextPc g f)) ∧
    (f.imm.toNat = 0x013 → ∃ t, exec (.syswr f) s = .next t ∧
      GroupWrite s t { g with sys := { g.sys with cks := s.readSP g f.a } } (nextPc g f)) ∧
    (f.imm.toNat = 0x008 → (s.readS g f.a).toNat < 256 → ∃ t, exec (.syswr f) s = .next t ∧
      GroupWrite s t { g with ctx := (s.readS g f.a).truncate 8 } (nextPc g f)) ∧
    (f.imm.toNat = 0x00F → (s.readS g f.a).toNat < 2 → ∃ t, exec (.syswr f) s = .next t ∧
      GroupWrite s t { g with sys := { g.sys with gstat := g.sys.gstat &&& s.readS g f.a } } (nextPc g f)) ∧
    (∀ above e below, f.imm.toNat = 0x001 → g.ctl.stack = above ++ e :: below → e.kind = .trap → (∀ x ∈ above, x.kind ≠ .trap) →
      (s.readSP g f.a).toNat < 2 ^ 56 → ∃ t g', exec (.syswr f) s = .next t ∧ t.group s.own.cur = some g' ∧
        (∀ j, j ≠ s.own.cur → t.group j = s.group j) ∧ HomeWrites s t ∧ g'.eng = g.eng ∧
        g'.regs = g.regs ∧ g'.ctl.exm = g.ctl.exm ∧ Over { g with ctl := { g.ctl with
          stack := above ++ { e with pc := (s.readSP g f.a).truncate 56 } :: below } } g' (nextPc g f) ∧
        (g.ctl.stack.length ≤ 16 ∨ s.stackArea g = none → { t with groups := s.groups } = s) ∧
        ∀ a, s.stackArea g = some a →
          (∀ k, k < a ∨ a + 16 * (g.ctl.stack.length - 16) ≤ k →
            (2 ^ 39 ≤ a ∨ k < a / 32 * 32 ∨ (a + 16 * (g.ctl.stack.length - 16) + 31) / 32 * 32 ≤ k) → Mem.rd t.mem k = Mem.rd s.mem k) ∧
          (below.length + 16 < g.ctl.stack.length → InPlace s (a + 16 * below.length) →
            Mem.bytes t.mem (a + 16 * below.length) 16 = ({ e with pc := (s.readSP g f.a).truncate 56 } : Entry).bytes)) ∧
    ((f.imm.toNat = 0x008 ∧ 256 ≤ (s.readS g f.a).toNat ∨ f.imm.toNat = 0x00F ∧ 2 ≤ (s.readS g f.a).toNat ∨
        f.imm.toNat = 0x001 ∧ (2 ^ 56 ≤ (s.readSP g f.a).toNat ∨ ∀ x ∈ g.ctl.stack, x.kind ≠ .trap)) →
      exec (.syswr f) s = .next (s.trap s.own.cur .illop g.ctl.exm 0 (14 + 256 * 2))))

/-- R277, R278, R385, R478: trap, scall and brk take their traps with the resume address after the instruction, brk halting the block instead when a
debug session is attached to the context; rft and sret pop the TRAP entry, go back to its address with its mask ANDed with LIVEM, and leave
supervisor mode when that entry entered it; sret pops no other TRAP entry.
The entry by which supervisor mode is known is the model's reading (log entry 16). -/
def Obligations.TrapInstructions : Prop :=
  ∀ (f : Fields) (s : State) (g : Group), g.sched.skidLeft = none →
    (Ready (.trap f) s g → exec (.trap f) s =
      .next (s.takeTrap s.own.cur 35 g.ctl.exm 0 (BitVec.ofNat 64 (f.imm.toNat % 2 ^ 32)) (nextPc g f))) ∧
    (Ready (.scall f) s g → exec (.scall f) s =
      .next (s.takeTrap s.own.cur 37 g.ctl.exm 0 (BitVec.ofNat 64 (f.imm.toNat % 2 ^ 32)) (nextPc g f))) ∧
    (Ready (.brk f) s g → g.ctx.toNat ∉ s.mgmt.debug → exec (.brk f) s =
      .next (s.takeTrap s.own.cur 36 g.ctl.exm 0 0 (nextPc g f))) ∧
    (∀ b, Ready (.brk f) s g → g.ctx.toNat ∈ s.mgmt.debug → s.block g.block = some b →
      ∃ t g', exec (.brk f) s = .next t ∧ t.group s.own.cur = some g' ∧ t.mem = s.mem ∧ g'.sched.dhalt = true ∧
        g'.ctl = { g.ctl with pc := nextPc g f } ∧ g'.regs = g.regs ∧ t.block g.block = some { b with dhalt := true }) ∧
    (∀ p ∈ [(Instr.rft, false), (Instr.sret, true)], ∀ e st, Ready (p.1 f) s g → g.ctl.stack = e :: st → e.kind = .trap →
      (p.2 = true → g.ctl.supAt = some (st.length + 1)) → s.refillBad g st = false →
      ∃ t g', exec (p.1 f) s = .next t ∧ t.group s.own.cur = some g' ∧ t.mem = s.mem ∧ g'.regs = g.regs ∧ g'.sys = g.sys ∧
        g'.eng = g.eng ∧ g'.ctl = { g.ctl with
          pc := e.pc.zeroExtend 64, exm := e.mask &&& g.ctl.livem, stack := s.refill g st,
          supAt := if g.ctl.supAt = some (st.length + 1) then none else g.ctl.supAt }) ∧
    (∀ e st, Ready (.sret f) s g → g.ctl.stack = e :: st → e.kind = .trap → g.ctl.supAt ≠ some (st.length + 1) →
      exec (.sret f) s = .next (s.trap s.own.cur .stkkind g.ctl.exm 0 5))

/-- R279, R280: cka adds A to CKS, the scalar once or the active lanes' values; chk goes on when CKS equals A, clearing it when asked, and raises SDC with
CKS in TRAPAUX otherwise; rndk and srndk write the generator's value of R98. -/
def Sys2Proof.Claims.Checksums : Prop :=
  ∀ (f : Fields) (s : State) (g : Group),
    (Ready (.cka f) s g → ∃ t, exec (.cka f) s = .next t ∧ GroupWrite s t { g with sys := { g.sys with cks := g.sys.cks +
      (if f.m 1 then (if f.m 2 then s.readSP g f.a else BitVec.ofNat 64 (s.readS g f.a).toNat)
       else BitVec.ofNat 64 (((List.range 32).filter (fun L => g.ctl.exm.getLsbD L)).map (fun L =>
         (s.readV g f.a.toNat L).toNat + if f.m 2 then 2 ^ 32 * (s.readV g (f.a.toNat + 1) L).toNat else 0)).sum) } } (nextPc g f)) ∧
    (Ready (.chk f) s g → g.sys.cks = s.readSP g f.a → ∃ t, exec (.chk f) s = .next t ∧
      GroupWrite s t { g with sys := { g.sys with cks := if f.m 1 then 0 else g.sys.cks } } (nextPc g f)) ∧
    (Ready (.chk f) s g → g.sys.cks ≠ s.readSP g f.a → exec (.chk f) s = .next (s.trap s.own.cur .sdc g.ctl.exm 0 g.sys.cks)) ∧
    (Ready (.rndk f) s g → ∃ t, exec (.rndk f) s = .next t ∧ VectorWrite s t g g.wset [f.d.toNat]
      (fun _ L => gen (s.opA g (rowRndk f) f L) (s.opB g (rowRndk f) f L)) (nextPc g f)) ∧
    (Ready (.srndk f) s g → ScalarDst f.d → ∃ t, exec (.srndk f) s = .next t ∧
      ScalarWrite s t g f.d (gen (s.opA g (rowSrndk f) f 0) (s.opB g (rowSrndk f) f 0)) (nextPc g f)) ∧
    gen 0 0 = 0x4031C426

/-- R281 to R283, R337, R403: the supervisor's maintenance. tlbinv sends an invalidation and goes on; its acknowledgement drops the lines it
covers, and empties the read buffers; tlbsync waits for the acknowledgements of its group and the accesses of before them; icinv only
advances; einj changes no byte and no register, kinds 1 and 2 make the symbol wrong, and kind 2 makes a sector without marks uncorrectable;
escrub writes in its sectors only, and nothing where no symbol is wrong; walk fills the core's TLB with the leaf it finds.
What tlbsync waits for, the other symbols of an error of kind 2, when a sector is uncorrectable and the scheme of the device's own
accesses are the model's (log entries 42, 45, 61 and 112). -/
def Sys2Proof.Claims.Maintenance : Prop :=
  (∀ (f : Fields) (s : State) (g : Group), Ready (.tlbinv f) s g → (s.readS g f.b).toNat < 1024 →
    ∃ t g' i, exec (.tlbinv f) s = .next t ∧ t.invals = s.invals ++ [i] ∧ t.group s.own.cur = some g' ∧ t.mem = s.mem ∧
      (∀ j, j ≠ s.own.cur → t.group j = s.group j) ∧ g'.regs = g.regs ∧ g'.ctl = { g.ctl with pc := nextPc g f } ∧ i.gid = s.own.cur ∧
      i.ctx = BitVec.ofNat 8 ((s.readS g f.b).toNat % 256) ∧ i.size = (s.readS g f.b).toNat / 256 ∧ i.addr = s.readSP g f.a) ∧
  (∀ (f : Fields) (s : State) (g : Group), Ready (.tlbinv f) s g → 1024 ≤ (s.readS g f.b).toNat →
    exec (.tlbinv f) s = .next (s.trap s.own.cur .illop g.ctl.exm 0 (14 + 256 * 3))) ∧
  (∀ (s : State) (i : Inval), s.invals.find? (fun j => j.id = i.id) = some i → ∃ t, exec (.tlbinvAck i.id) s = .next t ∧
    (∀ j ∈ t.invals, j.id ≠ i.id) ∧ t.mem = s.mem ∧ (∀ p ∈ t.l2, ∀ l ∈ p.2,
      ¬ ((i.ctx = 0 ∨ l.ctx = i.ctx) ∧ (i.size = 3 ∨ i.size = 0 ∧ l.bits = 16 ∧ l.base = i.addr.toNat / 2 ^ 16))) ∧ ∀ n, (t.node n).rb = [] ∧ ∀ l ∈ (t.node n).tlb, l ∈ (s.node n).tlb ∧
      ¬ ((i.ctx = 0 ∨ l.ctx = i.ctx) ∧ (i.size = 3 ∨ i.size = 0 ∧ l.bits = 16 ∧ l.base = i.addr.toNat / 2 ^ 16))) ∧
  (∀ (f : Fields) (s : State) (g : Group), Ready (.tlbsync f) s g → g.out.invs = [] →
    ∃ t, exec (.tlbsync f) s = .next t ∧ GroupWrite s t g (nextPc g f)) ∧
  (∀ (f : Fields) (s : State) (g : Group) (i : Nat), Ready (.tlbsync f) s g → i ∈ g.out.invs →
    ((∃ j ∈ s.invals, j.id = i) ∨ (∃ a ∈ s.accs, a.id < i ∧ ∃ p ∈ a.parts, a.entered p = false) ∨ (∃ x ∈ s.fld.xfers, x.id < i) ∨
      (∃ n ∈ s.nodes, ∃ l ∈ n.2.wc, l.oldest < i)) → s.holding g.block = false →
    ∃ t g', exec (.tlbsync f) s = .next t ∧ t.group s.own.cur = some g' ∧ g'.ctl = g.ctl ∧ g'.regs = g.regs ∧ g'.sched.hold = .inv) ∧
  (∀ (f : Fields) (s : State) (g : Group), Ready (.icinv f) s g → ∃ t, exec (.icinv f) s = .next t ∧ GroupWrite s t g (nextPc g f)) ∧
  (∀ (f : Fields) (s : State) (g : Group) (p : Nat × Nat), Ready (.einj f) s g → (s.readS g f.b).toNat < 1024 →
    (s.readS g f.b).toNat % 16 ∈ [1, 2, 3] → (s.readS g f.b).toNat / 16 < 36 → s.sectors g (s.readSP g f.a) 1 = .ok [p] →
    ∃ t g', exec (.einj f) s = .next t ∧ t.group s.own.cur = some g' ∧ t.mem = s.mem ∧ (∀ j, j ≠ s.own.cur → t.group j = s.group j) ∧
      g'.regs = g.regs ∧ g'.ctl = { g.ctl with pc := nextPc g f } ∧
      ((s.readS g f.b).toNat % 16 ≠ 3 → (Sparse.get 0 t.dram.errors (p.1 / 32)).getLsbD ((s.readS g f.b).toNat / 16) = true) ∧
      ((s.readS g f.b).toNat % 16 = 2 → Sparse.get 0 s.dram.erase (rankOf p.2 p.1) = 0 → ∀ il, t.ecc il (p.1 / 32) = .bad)) ∧
  (∀ (f : Fields) (s : State) (g : Group) (l : List (Nat × Nat)), Ready (.escrub f) s g → 0 < (s.readS g f.b).toNat →
    (s.readS g f.b).toNat ≤ 2 ^ 20 → s.sectors g (s.readSP g f.a) (s.readS g f.b).toNat = .ok l →
    ∃ t g', exec (.escrub f) s = .next t ∧ t.group s.own.cur = some g' ∧ (∀ j, j ≠ s.own.cur → t.group j = s.group j) ∧
      g'.regs = g.regs ∧ g'.ctl = { g.ctl with pc := nextPc g f } ∧
      (∀ k, (∀ p ∈ l, k < p.1 ∨ p.1 + 32 ≤ k) → Mem.rd t.mem k = Mem.rd s.mem k) ∧
      (s.dram.errors = [] → s.dram.lanes = [] → t.mem = s.mem)) ∧
  (∀ (s : State) (gid : Nat) (g : Group) (va e : Dword) (bits : Nat), s.group gid = some g → va.toNat < 2 ^ 56 → s.ptroot g.ctx ≠ 0 → g.owner < 256 →
    (s.walkReads va.toNat walkLevels (s.ptroot g.ctx)).any (s.badAt ownIl) = false →
    walkFrom s.entryAt va.toNat walkLevels (s.ptroot g.ctx) = .ok (e, bits) →
    ∃ t, exec (.walk g.owner gid va) s = .next t ∧ t.mem = s.mem ∧ t.groups = s.groups ∧
      (∃ l ∈ (t.node g.owner).tlb, l.ctx = g.ctx ∧ l.bits = bits ∧ l.base = va.toNat / 2 ^ bits ∧ l.pte = e) ∧
      HomesOnly s t ∧ ∀ n, n ≠ g.owner → t.node n = s.node n)

/-- R279 to R283, R403: checksums, generators and the supervisor's maintenance instructions. -/
def Obligations.ChecksumsAndMaintenance : Prop := Checksums ∧ Maintenance

/-! ### Matrix unit -/

/-- The group goes on to the next instruction with its registers, masks and stack as they were; no byte of memory changes,
and no other group. -/
def Sys2Proof.Claims.Onward (s t : State) (g : Group) (f : Fields) : Prop :=
  ∃ g', t.group s.own.cur = some g' ∧ t.mem = s.mem ∧ (∀ j, j ≠ s.own.cur → t.group j = s.group j) ∧ g'.regs = g.regs ∧
    g'.ctl = { g.ctl with pc := nextPc g f }

/-- The members of a gang word. -/
def Sys2Proof.Claims.members (w : Word) : List Nat := (List.range 32).filter (fun i => w.getLsbD i)

/-- What a group presents at the latch. -/
def Sys2Proof.Claims.entryOf (k : MatKind) (f : Fields) (s : State) (g : Group) : MatEntry :=
  { id := s.own.ids, kind := k, f := f, pc := g.ctl.pc, gang := g.sys.gang,
    words := (lanesOf g.ctl.exm).map (fun L => (L, s.readV g f.c.toNat L)),
    opA := if k = .mmac then s.readSP g f.a else 0, opB := if k = .mmac then s.readSP g f.b else 0 }

/-- The state in which the current group stands at the latch. -/
def Sys2Proof.Claims.latched (k : MatKind) (f : Fields) (s : State) (g : Group) : State :=
  (s.newId.setGroup s.own.cur { g with eng := { g.eng with latch := some (entryOf k f s g) } }).park s.own.cur (.latch s.clock.toNat false)

/-- R193, R194, R197, R199, R201, R204: the conditions under which an mma or mmac arrives, its ranges sized by the group's own lowest active
lane (log entry 31). -/
def Sys2Proof.Claims.Arrives (k : MatKind) (f : Fields) (s : State) (g : Group) (b : Block) : Prop :=
  let n := (members g.sys.gang).length
  let w := match (entryOf k f s g).words with | [] => (0 : Word) | p :: _ => p.2
  let ra := if k = .mma then rangeA f n w else []
  let rb := if k = .mma then rangeB f n w else []
  g.visitor = none ∧ s.block g.block = some b ∧ g.sched.skidLeft = none ∧ g.sys.gang.getLsbD g.index = true ∧ 2 ≤ n ∧ n ≤ 6 ∧
  (∀ i ∈ members g.sys.gang, i < b.k.ngrp ∧ b.gids.getD i 0 ∈ b.live) ∧
  (k = .mmac → 4 * (b.lin % b.k.clsz / 4) + 4 ≤ b.k.clsz ∧ ∀ p ∈ s.participants b, p.2.live ≠ []) ∧
  (∀ x ∈ ra ++ rb, x < 255 ∧ x < 8 * b.k.vregs ∧ g.isEmpty false x = false ∧ x ≠ f.c.toNat ∧ ∀ k ∈ g.regs.vbad, k / 32 ≠ x) ∧ (∀ x ∈ ra, x ∉ rb) ∧
  (k = .mmac → ∀ x ∈ mmacRuns (s.readSP g f.a) (s.readSP g f.b) w,
    x.1.toNat % 64 = 0 ∧ x.1.toNat < 2 ^ 20 ∧ x.1.toNat + x.2 ≤ b.k.scr) ∧
  (∀ x ∈ namedBlocks k f, x < b.k.accn) ∧
  (∀ p ∈ s.arrivals b, p.1 ≠ s.own.cur → (p.2.1.gang = g.sys.gang ∧ sameInstr p.2.1 (entryOf k f s g) = true) ∨
    (p.2.1.gang ≠ g.sys.gang ∧ p.2.1.gang.getLsbD g.index = false))

/-- R193 to R197, R202, R205, R379: mma and mmac. A GANG word without the group, or of a wrong size, raises GANG with reason 1. The group
waits at the latch while a member is missing; the last arrival releases the operation, once per block, with the voted format word, and
every member goes on, with memory and registers as they were. Behind an unresolved slot the entry queues and the group goes on. The
releases are of a device whose matrix FIFOs hold no command.
The order of the checks, whose operand offsets an mmac takes and that a block's own vote counts before the blocks' words are compared are
the model's (log entries 31, 127 and 128). -/
def Sys2Proof.Claims.Gangs : Prop :=
  (∀ c ∈ [Instr.mma, .mmac], ∀ (f : Fields) (s : State) (g : Group) (b : Block), Ready (c f) s g → g.visitor = none →
    s.block g.block = some b → (g.sys.gang.getLsbD g.index = false ∨ (members g.sys.gang).length < 2 ∨ 6 < (members g.sys.gang).length) →
    exec (c f) s = .next (s.trap s.own.cur .gang g.ctl.exm 0 (BitVec.ofNat 64 (1 + g.sys.gang.toNat * 2 ^ 32)))) ∧
  (∀ p ∈ [(Instr.mma, MatKind.mma), (.mmac, .mmac)], ∀ (f : Fields) (s : State) (g : Group) (b : Block), Ready (p.1 f) s g →
    Arrives p.2 f s g b → f.gs = 0 → (latched p.2 f s g).assembled b (entryOf p.2 f s g) false = none →
    ∃ t g', exec (p.1 f) s = .next t ∧ t.group s.own.cur = some g' ∧ t.mem = s.mem ∧ t.mops = s.mops ∧ g'.ctl = g.ctl ∧
      g'.regs = g.regs ∧ g'.eng.latch = some (entryOf p.2 f s g)) ∧
  (∀ (f : Fields) (s : State) (g : Group) (b : Block) (l : List (Nat × Group × MatEntry)) (w : Word), Ready (.mma f) s g →
    Arrives .mma f s g b → f.gs = 0 → (latched .mma f s g).assembled b (entryOf .mma f s g) false = some l →
    (l.map (·.1)).Nodup → (latched .mma f s g).checkGang b l false = .ok w → s.matRoom b.core ≠ 0 →
    (∀ q ∈ s.groups, q.2.eng.matQ = []) →
    ∃ t o, exec (.mma f) s = .next t ∧ t.mem = s.mem ∧ t.mops = s.mops ++ [o] ∧ o.kind = .mma ∧ o.fmt = w ∧ o.node = b.core ∧
      o.members = l.map (·.1) ∧ o.blocks = (namedBlocks .mma f).map (· + b.accBase) ∧
      (∀ m ∈ l, ∃ h', t.group m.1 = some h' ∧ h'.ctl = { m.2.1.ctl with pc := m.2.1.ctl.pc + BitVec.ofNat 64 m.2.2.f.bytes } ∧
        h'.regs = m.2.1.regs ∧ h'.sys.fmtlast = w)) ∧
  (∀ (f : Fields) (s : State) (g : Group) (b : Block) (l : List (Nat × Group × MatEntry)) (w : Word), Ready (.mmac f) s g →
    Arrives .mmac f s g b → f.gs = 0 → (latched .mmac f s g).assembled b (entryOf .mmac f s g) false = some l →
    (latched .mmac f s g).checkGang b l false = .ok w → ((latched .mmac f s g).participants b).length = 4 →
    (∀ q ∈ s.groups, q.2.eng.matQ = []) → (∀ q ∈ (latched .mmac f s g).participants b, 4 ≤ s.matRoom q.2.core ∧
      ∃ k, (latched .mmac f s g).mmacGang q.2 (entryOf .mmac f s g) = some (k, false) ∧
        (∀ m ∈ k, sameInstr m.2.2 (entryOf .mmac f s g) = true) ∧ (latched .mmac f s g).checkGang q.2 k false = .ok w) →
    ∃ t os, exec (.mmac f) s = .next t ∧ t.mem = s.mem ∧ t.mops = s.mops ++ os ∧ os.length = 4 ∧
      ∀ o ∈ os, o.kind = .mmac ∧ o.fmt = w ∧ o.joint = s.own.ids + 1) ∧
  (∀ p ∈ [(Instr.mma, MatKind.mma), (.mmac, .mmac)], ∀ (f : Fields) (s : State) (g : Group) (b : Block) (i : Nat) (h : Group),
    Ready (p.1 f) s g → Arrives p.2 f s g b → f.gs ≠ 0 → NoMatrixWaits s g.owner →
    (gangOf b g.sys.gang).head? = some i → s.group i = some h → h.sched.skidLeft = none → h.ctl.livem ≠ 0 → h.guard f.gs.toNat = 0 →
    ∃ t, exec (p.1 f) s = .next t ∧ Onward s t g f ∧ t.mops = s.mops ∧
      ∃ g', t.group s.own.cur = some g' ∧ g'.eng.matQ = [entryOf p.2 f s g])

/-- R206, R207, R209 to R212: the other matrix instructions. mopf goes on once every register is full and no store to scratchpad is pending;
mwait once nothing it names is pending; mzero, mlda, msta, mrd and mwr with blocks within the grant and owned enter the matrix unit, mrd with its
registers empty; with EXM zero mrd and mwr only advance. mspill, mfill and mtag complete within the instruction.
That mspill, mfill and mtag take one step is the model's reading (log entry 86). -/
def Sys2Proof.Claims.AccCells : Prop :=
  ∀ (f : Fields) (s : State) (g : Group), g.visitor = none →
    (Ready (.mopf f) s g → g.regs.vempty = 0 → g.regs.sempty = 0 → (∀ a ∈ s.accs, a.gid ≠ s.own.cur) →
      ∃ t, exec (.mopf f) s = .next t ∧ Onward s t g f) ∧
    (Ready (.mwait f) s g → (f.m 1 = true ∨ f.d.toNat < s.accn g) → (∀ a ∈ g.eng.async, s.jointPending a.op = false) → g.eng.matQ = [] →
      ∃ t, exec (.mwait f) s = .next t ∧ Onward s t g f) ∧
    (Ready (.mwait f) s g → f.m 1 = true → (∃ a ∈ g.eng.async, s.jointPending a.op = true) →
      ∃ t g', exec (.mwait f) s = .next t ∧ t.group s.own.cur = some g' ∧ g'.ctl = g.ctl ∧ g'.regs = g.regs ∧ t.mem = s.mem) ∧
    (∀ p ∈ [(Instr.mzero, MatKind.mzero), (.mlda, .mlda), (.msta, .msta)], Ready (p.1 f) s g →
      (∀ x ∈ namedBlocks p.2 f, x < s.accn g) → (p.2 ≠ .mzero → (s.readS g f.a).toNat % 128 = 0 ∧
        (s.readS g f.a).toNat + 4096 * (f.mf 6 1 + 1) ≤ s.scrSize g) →
      s.foreign g.owner g.ctx ((namedBlocks p.2 f).map (· + s.accBase g)) = none → g.eng.matQ = [] → s.matRoom g.owner ≠ 0 →
      s.accQueued g.owner ((namedBlocks p.2 f).map (· + s.accBase g)) s.own.ids = false →
      ∃ t o, exec (p.1 f) s = .next t ∧ Onward s t g f ∧ t.mops = s.mops ++ [o] ∧ o.kind = p.2 ∧ o.node = g.owner ∧
        (∀ x ∈ o.blocks, t.accTag g.owner x = g.ctx) ∧
        o.blocks = (namedBlocks p.2 f).map (· + s.accBase g) ∧ (p.2 ≠ .mzero → o.off = (s.readS g f.a).toNat)) ∧
    (∀ p ∈ [(Instr.mzero, MatKind.mzero), (.mlda, .mlda), (.msta, .msta)], Ready (p.1 f) s g →
      ∀ x, (namedBlocks p.2 f).find? (fun n => s.accn g ≤ n) = some x →
      exec (p.1 f) s = .next (s.trap s.own.cur .accbound g.ctl.exm 0 (BitVec.ofNat 64 x))) ∧
    (Ready (.mrd f) s g → f.a.toNat < s.accn g → (s.readS g f.b).toNat + (f.mf 5 1 + 1) ≤ 32 →
      s.foreign g.owner g.ctx [f.a.toNat + s.accBase g] = none →
      (g.ctl.exm = 0 → ∃ t, exec (.mrd f) s = .next t ∧ Onward s t g f) ∧
      (g.ctl.exm ≠ 0 → ∃ t o g', exec (.mrd f) s = .next t ∧ t.mops = s.mops ++ [o] ∧ o.kind = .mrd ∧ o.off = (s.readS g f.b).toNat ∧
        o.lanes = g.wset ∧ t.accTag g.owner (f.a.toNat + s.accBase g) = g.ctx ∧ t.mem = s.mem ∧ t.group s.own.cur = some g' ∧ g'.ctl = { g.ctl with pc := nextPc g f } ∧ g'.regs.v = g.regs.v ∧
        ∀ r, r < 255 → f.d.toNat ≤ r → r < f.d.toNat + (f.mf 5 1 + 1) → g'.isEmpty false r = true)) ∧
    (Ready (.mwr f) s g → f.d.toNat < s.accn g → (s.readS g f.b).toNat + (f.mf 5 1 + 1) ≤ 32 →
      s.foreign g.owner g.ctx [f.d.toNat + s.accBase g] = none →
      ∃ t, exec (.mwr f) s = .next t ∧ Onward s t g f ∧ (g.ctl.exm ≠ 0 → ∃ o, t.mops = s.mops ++ [o] ∧ o.kind = .mwr ∧
        o.off = (s.readS g f.b).toNat ∧ o.lanes = g.ctl.exm ∧ t.accTag g.owner (f.d.toNat + s.accBase g) = g.ctx)) ∧
    (Ready (.mtag f) s g → s.accBusy g.owner f.d.toNat = false → ∃ t, exec (.mtag f) s = .next t ∧ Onward s t g f ∧
      t.accTag g.owner f.d.toNat = BitVec.ofNat 8 ((s.readS g f.a).toNat % 256) ∧
      ∀ n k, (n ≠ g.owner ∨ k ≠ f.d.toNat) → t.accTag n k = s.accTag n k) ∧
    (∀ base il l, base + 4096 ≤ 2 ^ 39 → s.accBusy g.owner f.d.toNat = false → s.accSpoilt g.owner [f.d.toNat] = false →
      (l.flatMap (·.2)).map (fun p => (p.off, p.len, (match p.tgt with | .here (.mem _) _ => true | _ => false), p.at_.1)) =
        (List.range 128).map (fun i => (32 * i, 32, true, base + 32 * i)) →
      (∀ p ∈ l.flatMap (·.2), p.at_.2 = il ∧ s.unlanded s.own.cur g.owner p.at_.1 p.len = false) →
      (Ready (.mspill f) s g → s.check g { write := true, noField := true, align := 128, scr := false, clu := false, priv := false, peer := false }
          4096 [(0, s.readSP g f.a)] = .ok l →
        ∃ t g', exec (.mspill f) s = .next t ∧ t.group s.own.cur = some g' ∧ g'.regs = g.regs ∧ g'.ctl = { g.ctl with pc := nextPc g f } ∧
          (∀ i, i < 4096 → Mem.rd t.mem (base + i) = (s.accBytes g.owner f.d.toNat).getD i 0) ∧
          (∀ k, (k < base ∨ base + 4096 ≤ k) → Mem.rd t.mem k = Mem.rd s.mem k)) ∧
      (Ready (.mfill f) s g → s.check g { write := false, noField := false, align := 128, scr := false, clu := false, priv := false, peer := false }
          4096 [(0, s.readSP g f.a)] = .ok l → (∀ p ∈ l.flatMap (·.2), Clean (s.lookUps g [s.readSP g f.a]) il p.at_.1 p.len) →
        ∃ t, exec (.mfill f) s = .next t ∧ Onward s t g f ∧ ∀ i j, i < 32 → j < 32 →
          t.accWord g.owner f.d.toNat i j = BitVec.ofNat 32 (Mem.num s.mem (base + 128 * i + 4 * j) 4)))

/-- R193 to R212: the matrix instructions. -/
def Obligations.MatrixInstructions : Prop := Sys2Proof.Claims.Gangs ∧ Sys2Proof.Claims.AccCells

/-- R94, R97, R199, R202, R204, R207 to R210: the completion of a released operation whose blocks no command that issued earlier at its core
names, and which no acquire of a member holds back (R289). mzero clears its blocks; mwr puts the rows it was given; mlda takes them from
scratchpad, and msta puts them there; mrd's rows land in its registers; an mma or mmac leaves in every element of its tile the old
element, or zero with CZ, and the products of its row and column, rounded chunk by chunk; other accumulator blocks keep their words, and no
byte of memory but msta's changes. Registers and memory are stated where nothing waits at the core's matrix unit, since what the completion lets
move on may trap. A wait at the latch of more than 32 cycles becomes long.
What the operation reads of registers and bytes written since its release is free (log entries 20 and 94). -/
def Obligations.MatrixCompletion : Prop :=
  (∀ (s : State) (o : MatOp), s.mops.find? (fun p => p.id = o.id) = some o → s.mopWaits o = false → o.blocks.Nodup →
    ∃ t, exec (.matrixComplete o.id) s = .next t ∧
      (o.kind = .mzero → ∀ b ∈ o.blocks, ∀ i j, i < 32 → j < 32 → t.accWord o.node b i j = 0) ∧
      (o.kind = .mma → o.blocks.length = (shapeOf o.f).1 / 32 * ((shapeOf o.f).2 / 32) →
        ∀ i j, i < (shapeOf o.f).1 → j < (shapeOf o.f).2 →
          t.accWord o.node (o.blocks.getD (i / 32 * ((shapeOf o.f).2 / 32) + j / 32) 0) (i % 32) (j % 32) =
            matElem (o.word s) (if o.f.m 3 then 0 else s.accWord o.node (o.blocks.getD (i / 32 * ((shapeOf o.f).2 / 32) + j / 32) 0) (i % 32) (j % 32))
              (o.mmaA s i) (o.mmaB s j)) ∧
      (o.kind = .mmac → o.blocks.length = 24 → ∀ q, q < 4 → (o.peers.getD q (0, 0, 0)).1 = o.block →
        (∀ p, p < q → (o.peers.getD p (0, 0, 0)).1 ≠ o.block) → ∀ i j, i < 128 → j < 192 →
          t.accWord o.node (o.blocks.getD (i / 32 * 6 + j / 32) 0) (i % 32) (j % 32) =
            matElem (o.word s) (if o.f.m 3 then 0 else s.accWord o.node (o.blocks.getD (i / 32 * 6 + j / 32) 0) (i % 32) (j % 32))
              (o.mmacA s (q / 2) i) (o.mmacB s (q % 2) j)) ∧
      (o.kind = .msta → NoMatrixWaits s o.node → ∀ b k, s.block o.block = some b → s.place (.scr b.grid b.lin o.off) = some k →
        2 ^ 39 ≤ k → ∀ m i, m < o.blocks.length → i < 4096 →
          Mem.rd t.mem (k + 4096 * m + i) = (s.accBytes o.node (o.blocks.getD m 0)).getD i 0) ∧
      (o.kind = .mrd → NoMatrixWaits s o.node → ∀ gid g b, o.members = [gid] → o.blocks = [b] → s.group gid = some g →
        s.imageOf g = none → g.ctl.livem ≠ 0 → ∃ g', t.group gid = some g' ∧ g'.ctl = g.ctl ∧
          ∀ i L, i < o.f.mf 5 1 + 1 → L < 32 → o.lanes.getLsbD L = true → o.f.d.toNat + i < 255 → g.busy (o.f.d.toNat + i) = false →
            g'.isEmpty false (o.f.d.toNat + i) = false ∧ g'.rdV (o.f.d.toNat + i) L = s.accWord o.node b (o.off + i) L) ∧
      (o.kind = .mwr → ∀ b, o.blocks = [b] → o.off + (o.f.mf 5 1 + 1) ≤ 32 → (o.inputs.map (·.1)).Nodup →
        (∀ p ∈ o.inputs, p.1 / 32 < o.f.mf 5 1 + 1) → ∀ p ∈ o.inputs, t.accWord o.node b (o.off + p.1 / 32) (p.1 % 32) = p.2) ∧
      (o.kind = .mlda → ∀ m, m < o.blocks.length → ∀ i j, i < 32 → j < 32 →
        t.accWord o.node (o.blocks.getD m 0) i j = BitVec.ofNat 32 (o.memByte s o.block (o.off + 4096 * m + 128 * i + 4 * j) +
          2 ^ 8 * o.memByte s o.block (o.off + 4096 * m + 128 * i + 4 * j + 1) + 2 ^ 16 * o.memByte s o.block (o.off + 4096 * m + 128 * i + 4 * j + 2) +
          2 ^ 24 * o.memByte s o.block (o.off + 4096 * m + 128 * i + 4 * j + 3))) ∧
      (o.kind ∈ [MatKind.mzero, .mma, .mlda] → (o.kind = .mma → o.blocks.length = (shapeOf o.f).1 / 32 * ((shapeOf o.f).2 / 32)) →
        ∀ n b, (n ≠ o.node ∨ b ∉ o.blocks) → ∀ i j, i < 32 → j < 32 → t.accWord n b i j = s.accWord n b i j) ∧
      (o.kind ≠ .msta → o.kind ≠ .mrd → NoMatrixWaits s o.node → t.mem = s.mem)) ∧
  (∀ (s : State) (gid : Nat) (g : Group) (c : Nat), s.group gid = some g → g.sched.hold = .latch c false → c + 32 < s.clock.toNat →
    ∃ t, exec (.latchStalledLong gid) s = .next t ∧ t.group gid = some { g with sched := { g.sched with hold := .latch c true } } ∧
      ∀ j, j ≠ gid → t.group j = s.group j)

/-! ### Copies, batches, barriers -/

/-- The record that a box command takes from the cache: any mixture of its words and those that its group now sees at the
record's address (spec 10, R225). -/
def Sys2Proof.Claims.record (s : State) (g : Group) (line : RecLine) (ps : List Piece) : List Byte :=
  if (s.viewNow s.own.cur g ps).length = 192 then mixWords s.own.fresh line.rcd (s.viewNow s.own.cur g ps) else line.rcd

/-- R225 to R231, R236, R237: the copy engine's instructions in a group. A box command whose record is in the cache and whose checks pass enters the
group's FIFO with its record, target, count, object and pieces; without the record the group waits and the fetch is under way; a target that is not a multiple
of 16 raises DALIGN. trf drops the record; bclose numbers a batch; bwait goes on once its batch is done, and waits before; a batch not yet
closed raises SYNCBAD with reason 6. -/
def Sys2Proof.Claims.CopyIssue : Prop :=
  ∀ (f : Fields) (s : State) (g : Group), g.visitor = none →
    (∀ p ∈ [(Instr.tcopy, CmdKind.load), (.tcopys, .store), (.gather, .gather [])], ∀ l, Ready (p.1 f) s g →
      s.check g recordUse 192 [(0, s.readSP g f.a)] = .ok l →
      ((s.readS g f.e).toNat % 16 ≠ 0 →
        exec (p.1 f) s = .next (s.trap s.own.cur .dalign g.ctl.exm (BitVec.ofNat 64 (s.readS g f.e).toNat) 0)) ∧
      ((s.readS g f.e).toNat % 16 = 0 → s.cachedRec g.owner g.ctx (s.readSP g f.a).toNat = none →
        ∃ t g', exec (p.1 f) s = .next t ∧ t.group s.own.cur = some g' ∧ g'.ctl = g.ctl ∧ g'.regs = g.regs ∧ t.mem = s.mem ∧
          g'.sched.hold = .record (s.readSP g f.a).toNat ∧
          ((s.readSP g f.a).toNat, g.ctx, s.own.cur) ∈ (t.node g.owner).fetching)) ∧
    (∀ p ∈ [(Instr.tcopy, CmdKind.load), (.tcopys, .store)], ∀ l line, Ready (p.1 f) s g →
      s.check g recordUse 192 [(0, s.readSP g f.a)] = .ok l → (s.readS g f.e).toNat % 16 = 0 →
      s.cachedRec g.owner g.ctx (s.readSP g f.a).toNat = some line →
      (let h := shapeOfBytes (record s g line (l.flatMap (·.2)))
       s.baseSpace g (BitVec.ofNat 64 h.base) = 0 → h.bad (p.2 = .load) false (s.readS g f.b).toInt = 0 → f.b.toNat < 128 →
       (s.readS g f.e).toNat + h.last ≤ s.scrSize g → (p.2 = .store → s.baseField g (BitVec.ofNat 64 h.base) = false) →
       (f.m 1 = false → ∃ o, s.obj g.block f.h.toNat = some o ∧ o.valid = true) → g.eng.copyQ.length < 8 →
       ∃ t g' c, exec (p.1 f) s = .next t ∧ Onward s t g f ∧ t.group s.own.cur = some g' ∧ g'.eng.copyQ = g.eng.copyQ ++ [c] ∧
         c.kind = p.2 ∧ c.e = (s.readS g f.e).toNat ∧ c.n = h.count ∧ c.obj = (if f.m 1 then none else some f.h.toNat) ∧
         c.left = List.range h.pieces ∧ c.gs = f.gs.toNat)) ∧
    (∀ l line, Ready (.gather f) s g → s.check g recordUse 192 [(0, s.readSP g f.a)] = .ok l → (s.readS g f.e).toNat % 16 = 0 →
      s.cachedRec g.owner g.ctx (s.readSP g f.a).toNat = some line →
      (let h := shapeOfBytes (record s g line (l.flatMap (·.2)))
       s.baseSpace g (BitVec.ofNat 64 h.base) = 0 → h.bad false true 0 = 0 →
       (∀ L, L < 32 → g.ctl.exm.getLsbD L = true → (s.readS g f.e).toNat + (L * h.sp + h.rb) ≤ s.scrSize g) →
       (f.m 1 = false → ∃ o, s.obj g.block f.h.toNat = some o ∧ o.valid = true) → g.eng.copyQ.length < 8 →
       ∃ t g' c, exec (.gather f) s = .next t ∧ Onward s t g f ∧ t.group s.own.cur = some g' ∧ g'.eng.copyQ = g.eng.copyQ ++ [c] ∧
         c.kind = .gather ((lanesOf g.ctl.exm).map (fun L => (L, (s.readV g f.b.toNat L).toInt))) ∧
         c.n = h.rb * (members g.ctl.exm).length)) ∧
    (Ready (.trf f) s g → ∃ t, exec (.trf f) s = .next t ∧ Onward s t g f ∧ t.cachedRec g.owner g.ctx (s.readSP g f.a).toNat = none) ∧
    (Ready (.bclose f) s g → g.eng.batches.length < 32 → f.d.toNat < 128 → s.imageOf g = none → ∃ t g', exec (.bclose f) s = .next t ∧ t.mem = s.mem ∧
      t.group s.own.cur = some g' ∧ g'.sys.batchseq = g.sys.batchseq + 1 ∧ g'.rdS f.d.toNat = g.sys.batchseq + 1 ∧ g'.eng.openB = [] ∧
      g'.ctl = { g.ctl with pc := nextPc g f } ∧ g'.regs.v = g.regs.v ∧ (∀ r, r ≠ f.d.toNat → g'.rdS r = g.rdS r) ∧
      (g.eng.openB = [] → g.eng.batches = [] → g'.sys.batchdone = g.sys.batchseq + 1)) ∧
    (Ready (.bwait f) s g → wrapGt (s.opA g (rowBwait f) f 0) g.sys.batchseq = false →
      (wrapGe g.sys.batchdone (s.opA g (rowBwait f) f 0) = true → ∃ t, exec (.bwait f) s = .next t ∧ Onward s t g f) ∧
      (wrapGe g.sys.batchdone (s.opA g (rowBwait f) f 0) = false → ∃ t g', exec (.bwait f) s = .next t ∧ t.group s.own.cur = some g' ∧
        g'.ctl = g.ctl ∧ g'.regs = g.regs ∧ g'.sched.hold = .batch (s.opA g (rowBwait f) f 0))) ∧
    (Ready (.bwait f) s g → wrapGt (s.opA g (rowBwait f) f 0) g.sys.batchseq = true →
      exec (.bwait f) s = .next (s.trap s.own.cur .syncbad g.ctl.exm 0 6))

/-- R225, R230, R232, R236, R378: the engine. A fetch leaves the list; a command whose guard discards it leaves its FIFO, and one whose turn it is runs; a piece
that is performed is no longer left; a command with nothing left leaves.
Which stores a command waits for is the model's reading (log entry 41). -/
def Sys2Proof.Claims.CopyEngine : Prop :=
  (∀ (s : State) (n addr gid : Nat) (c : BitVec 8) (rest : List (Nat × BitVec 8 × Nat)), (s.node n).fetching = (addr, c, gid) :: rest →
    s.acquiring gid s.own.ids = false →
    ∃ t, exec (.recordFetch n) s = .next t ∧ (t.node n).fetching = rest ∧ ∀ k, Mem.rd t.mem k = Mem.rd s.mem k) ∧
  (∀ (s : State) (gid : Nat) (g : Group) (c : Cmd) (cs : List Cmd), s.group gid = some g → g.visitor = none → g.eng.copyQ = c :: cs →
    (∀ d ∈ s.cmds, d.gid = gid → d.run = true) →
    (s.guardOf c = 2 → (∀ d ∈ cs, d.id ≠ c.id) → ∃ t, exec (.copyEngineIssue gid) s = .next t ∧ ∀ g', t.group gid = some g' → ∀ d ∈ g'.eng.copyQ, d.id ≠ c.id) ∧
    (s.guardOf c ≠ 2 → s.nextServed g.owner = some gid → (s.cmds.filter (fun d => d.node = g.owner && d.run)).length < 64 →
      ∃ t, exec (.copyEngineIssue gid) s = .next t ∧ ∃ d ∈ t.cmds, d.id = c.id ∧ d.run = true)) ∧
  (∀ (s : State) (c : Cmd) (p : Nat), s.cmds.find? (fun d => d.id = c.id) = some c → c.run = true → p ∈ c.left → s.pieceReady c p = true →
    ∃ t, exec (.pieceDelivery c.id p) s = .next t ∧ ∀ d, t.cmds.find? (fun d => d.id = c.id) = some d → p ∉ d.left) ∧
  (∀ (s : State) (c : Cmd), s.cmds.find? (fun d => d.id = c.id) = some c → c.run = true → c.left = [] →
    ∃ t l, exec (.commandComplete c.id) s = .next t ∧ t.cmds = s.cmds.filter (fun d => d.id ≠ c.id) ++ l)

/-- R225 to R237, R378: copies and batches. -/
def Obligations.CopiesAndBatches : Prop := Sys2Proof.Claims.CopyIssue ∧ Sys2Proof.Claims.CopyEngine

/-- R31: an object after bytes are added and, with `arv`, one arrival. -/
def Sys2Proof.Claims.updated (o : Obj) (add : Int) (arv : Bool) : Obj :=
  if (if arv then o.left - 1 else o.left) = 0 ∧ o.bytes + add = 0 then { o with phase := o.phase + 1, left := o.count, bytes := 0 }
  else { o with left := if arv then o.left - 1 else o.left, bytes := o.bytes + add }

/-- The one byte range that may change is the 16 bytes of object `k`, which is `o` afterwards; the group goes on. Said of a block whose
allocation lies in the slice, as that of every resident block does. -/
def Sys2Proof.Claims.ObjWrite (s t : State) (g : Group) (b : Block) (k : Nat) (o : Obj) (f : Fields) : Prop :=
  t.obj g.block k = some o ∧ (∀ key, s.objKey b k = some key → ∀ a, (a < key ∨ key + 16 ≤ a) → Mem.rd t.mem a = Mem.rd s.mem a) ∧
    ∃ g', t.group s.own.cur = some g' ∧ g'.regs = g.regs ∧ g'.ctl = { g.ctl with pc := nextPc g f }

/-- R24, R30, R31, R234, R235, R238: barrier objects and guard slots. abinit starts an object, abarv arrives, abexp adds the bytes it expects; a phase with
nothing left completes once; abwait goes on once its phase has completed, and waits before. An object that is not valid, a count that is out of range
or an arrival that none awaits raises SYNCBAD with its reason. gset sets its slot and no other, and what the slot has held of the copy
FIFO has acted on its state before; the statement is of a gset that lets nothing be discarded or released.
Which reason comes first where several hold is the model's choice (log entry 120). -/
def Sys2Proof.Claims.Objects : Prop :=
  ∀ (f : Fields) (s : State) (g : Group) (b : Block) (o : Obj), g.visitor = none → s.block g.block = some b → s.obj g.block f.a.toNat = some o →
    (∀ key, s.objKey b f.a.toNat = some key → 2 ^ 39 ≤ key) →
    (Ready (.abinit f) s g → 0 < (s.opB g (rowAbinit f) f 0).toNat → (s.opB g (rowAbinit f) f 0).toNat < 65536 →
      (o.valid = true → o.left = o.count ∧ o.bytes = 0) →
      ∃ t, exec (.abinit f) s = .next t ∧ ObjWrite s t g b f.a.toNat
        { valid := true, phase := if o.valid then o.phase else 0, count := (s.opB g (rowAbinit f) f 0).toNat,
          left := (s.opB g (rowAbinit f) f 0).toNat, bytes := 0 } f) ∧
    (Ready (.abarv f) s g → o.valid = true → o.left ≠ 0 → s.unreleased s.own.cur s.own.ids 1 = false →
      ∃ t, exec (.abarv f) s = .next t ∧ ObjWrite s t g b f.a.toNat (updated o 0 true) f) ∧
    (Ready (.abexp f) s g → o.valid = true → (f.m 1 = true → o.left ≠ 0 ∧ s.unreleased s.own.cur s.own.ids 1 = false) →
      o.bytes + ((s.opB g (rowAbexp f) f 0).toNat : Int) < 2 ^ 31 → (s.opB g (rowAbexp f) f 0).toNat < 2 ^ 31 →
      ∃ t, exec (.abexp f) s = .next t ∧ ObjWrite s t g b f.a.toNat (updated o ((s.opB g (rowAbexp f) f 0).toNat : Int) (f.m 1)) f) ∧
    (Ready (.abwait f) s g → o.valid = true → b.badObj.getLsbD f.a.toNat = false →
      (wrapGt o.phase (s.readS g f.b) = true → ∃ t g', exec (.abwait f) s = .next t ∧ t.mem = s.mem ∧ t.group s.own.cur = some g' ∧
        g'.regs = g.regs ∧ g'.ctl = { g.ctl with pc := nextPc g f }) ∧
      (wrapGt o.phase (s.readS g f.b) = false → ∃ t g', exec (.abwait f) s = .next t ∧ t.mem = s.mem ∧ t.group s.own.cur = some g' ∧
        g'.regs = g.regs ∧ g'.ctl = g.ctl ∧ g'.sched.hold = .phase f.a.toNat (s.readS g f.b))) ∧
    (∀ c ∈ [Instr.abarv, .abexp, .abwait], Ready (c f) s g → o.valid = false →
      exec (c f) s = .next (s.trap s.own.cur .syncbad g.ctl.exm 0 (BitVec.ofNat 64 (1 + 256 * f.a.toNat)))) ∧
    (Ready (.abinit f) s g → ((s.opB g (rowAbinit f) f 0).toNat = 0 ∨ 65536 ≤ (s.opB g (rowAbinit f) f 0).toNat) →
      exec (.abinit f) s = .next (s.trap s.own.cur .syncbad g.ctl.exm 0 (BitVec.ofNat 64 (2 + 256 * f.a.toNat)))) ∧
    (Ready (.abarv f) s g → o.valid = true → o.left = 0 →
      exec (.abarv f) s = .next (s.trap s.own.cur .syncbad g.ctl.exm 0 (BitVec.ofNat 64 (4 + 256 * f.a.toNat)))) ∧
    (Ready (.gset f) s g → f.a.toNat < 8 → NoMatrixWaits s g.owner → g.ctl.livem ≠ 0 → (g.settleHead g.eng.copyQ).1 = [] →
      ∃ t, ∃ gd : BitVec 16, exec (.gset f) s = .next t ∧
      GroupWrite s t { g with ctl := { g.ctl with guards := gd }, eng := { g.eng with copyQ := (g.settleHead g.eng.copyQ).2 } } (nextPc g f) ∧
      ∀ i, i < 8 → gd.toNat / 4 ^ i % 4 = if i = f.a.toNat then (if f.m 1 then 0 else if s.readS g f.b = 0 then 1 else 2)
        else g.ctl.guards.toNat / 4 ^ i % 4)

/-- R239, R240, R391: a barrier. The group that arrives while another is missing waits; when it is the last, every group of the level
goes on past its barrier, with registers, masks and memory as they were: bar over the block, barc over its cluster, barh over the blocks of its level. A
group whose release must still wait (R157) has not arrived. barh in a
grid that is not co-resident raises SYNCBAD with reason 7. -/
def Sys2Proof.Claims.Barriers : Prop :=
  ∀ (f : Fields) (s : State) (g : Group) (b : Block) (x : Grid), g.visitor = none → s.block g.block = some b → s.grid b.grid = some x →
    g.sched.skidLeft = none → g.sched.dhalt = false → (∀ a ∈ s.accs, a.anyHeld = false) → (∀ p ∈ s.blocks, p.2.saved = none) →
    (∀ p ∈ [(Instr.bar, Hold.bar, b.live, s.notYet s.own.cur g 1 true, true),
        (.barc, .barc, liveOf (s.cluster b), s.notYet s.own.cur g 2 false, s.clusterPlaced b),
        (.barh, .barh f.a.toNat, liveOf (s.level b f.a.toNat).1, s.notYet s.own.cur g 3 false, (s.level b f.a.toNat).2)],
      Ready (p.1 f) s g →
      (p.2.1 = .barh f.a.toNat → x.flags.getLsbD 1 = true ∧ ∀ i ∈ b.live, ∀ h, s.group i = some h → ∀ l, h.sched.hold = .barh l → l = f.a.toNat) →
      (p.2.2.2.1 = true → ∃ t g', exec (p.1 f) s = .next t ∧ t.mem = s.mem ∧ t.group s.own.cur = some g' ∧ g'.ctl = g.ctl ∧ g'.regs = g.regs ∧
        g'.sched.hold = .barOrder) ∧
      (p.2.2.2.1 = false → p.2.2.2.2 = true → p.2.2.1.Nodup → s.own.cur ∈ p.2.2.1 →
        (∀ i ∈ p.2.2.1, i ≠ s.own.cur → ∃ h, s.group i = some h ∧ h.sched.hold = p.2.1 ∧ h.sched.skidLeft = none ∧ h.sched.dhalt = false) →
        ∃ t, exec (p.1 f) s = .next t ∧ t.mem = s.mem ∧ ∀ i ∈ p.2.2.1, ∀ h, s.group i = some h → ∃ h', t.group i = some h' ∧
          h'.ctl = { h.ctl with pc := h.ctl.pc + 8 } ∧ h'.regs = h.regs ∧ h'.sched.hold = .none) ∧
      (p.2.2.2.1 = false → (∃ i ∈ p.2.2.1, i ≠ s.own.cur ∧ ∃ h, s.group i = some h ∧ h.sched.hold ≠ p.2.1) →
        ∃ t g', exec (p.1 f) s = .next t ∧ t.mem = s.mem ∧ t.group s.own.cur = some g' ∧ g'.ctl = g.ctl ∧ g'.regs = g.regs ∧
          g'.sched.hold = p.2.1)) ∧
    (Ready (.barh f) s g → x.flags.getLsbD 1 = false → exec (.barh f) s = .next (s.trap s.own.cur .syncbad g.ctl.exm 0 7))

/-- R24, R29 to R31, R234 to R240: barrier objects, guard slots and barriers. -/
def Obligations.BarriersAndObjects : Prop := Sys2Proof.Claims.Objects ∧ Sys2Proof.Claims.Barriers

/-! ### Multicast, collectives, counters, queues -/

/-- R245, R246, R251 to R254: vstmc with no active lane only advances; with active lanes that all lie in peer windows it goes on, and an entry of the
multicast table that is not valid raises CDESC with reason 8; coll and crem with a bad descriptor raise CDESC with the lowest reason, a coll that
differs from the open one being remembered for the groups that issue later; otherwise the group goes on, having issued the collective: one that
another group of the block has not issued yet changes no byte of memory; a remote copy enters the FIFO at once.
The reserved bits of a remote copy's descriptor are the model's reading (log entry 36). -/
def Sys2Proof.Claims.Collectives : Prop :=
  (∀ (f : Fields) (s : State) (g : Group),
    (Ready (.vstmc f) s g → g.ctl.exm = 0 → ∃ t, exec (.vstmc f) s = .next t ∧ ControlWrite s t g (nextPc g f) 0 g.ctl.stack) ∧
    (∀ l, Ready (.vstmc f) s g → g.ctl.exm ≠ 0 → f.m 6 = false →
      s.check g (peerUse true) (accSize (f.mf 5 3)).1 ((lanesOf g.ctl.exm).map (fun L => (L, BitVec.ofInt 64 ((s.readSP g f.a).toInt +
        (s.readV g f.b.toNat L).toInt * 2 ^ f.mf 2 1)))) = .ok l →
      s.egressFault g.ctx = none → s.runBad (s.mcastAt ((s.readS g f.c).toNat % 4096)) 160 = false →
      (s.mcastFl ((s.readS g f.c).toNat % 4096) % 2 = 0 → exec (.vstmc f) s = .next (s.trap s.own.cur .cdesc g.ctl.exm 0 8)) ∧
      (s.mcastFl ((s.readS g f.c).toNat % 4096) % 2 = 1 → ∃ t g', exec (.vstmc f) s = .next t ∧ t.mem = s.mem ∧
        t.group s.own.cur = some g' ∧ g'.regs = g.regs ∧ g'.ctl = { g.ctl with pc := nextPc g f }))) ∧
  ∀ (f : Fields) (s : State) (g : Group) (b : Block), g.visitor = none → s.block g.block = some b →
    (Ready (.coll f) s g →
      (let d := collDesc (quadOf (g.readSQ f.a))
       let other := match b.openColl s.own.cur with
         | none => false | some x => x.desc ≠ quadOf (g.readSQ f.a) || x.obj ≠ f.b.toNat
       let differs := other || (match b.openColl s.own.cur with | none => false | some x => x.differ)
       (s.collBad d b differs ≠ 0 → ∃ u,
         exec (.coll f) s = .next (u.trap s.own.cur .cdesc g.ctl.exm 0 (BitVec.ofNat 64 (s.collBad d b differs))) ∧
         { u with blocks := s.blocks } = s ∧ (other = false → u = s) ∧
         (other = true → ∀ x, b.openColl s.own.cur = some x → ∃ b', u.block g.block = some b' ∧ ∀ y ∈ b'.colls, y.id = x.id → y.differ = true)) ∧
       (s.collBad d b differs = 0 → ∃ t g' b' y, exec (.coll f) s = .next t ∧ t.group s.own.cur = some g' ∧ g'.regs = g.regs ∧
         g'.ctl = { g.ctl with pc := nextPc g f } ∧ t.block g.block = some b' ∧ y ∈ b'.colls ∧ (s.own.cur, s.own.ids) ∈ y.gids ∧
         y.desc = quadOf (g.readSQ f.a) ∧ y.obj = f.b.toNat ∧
         ((∃ i ∈ b.live, i ≠ s.own.cur ∧ ∀ x ∈ b.colls, x.started = false → ∀ p ∈ x.gids, p.1 ≠ i) → t.mem = s.mem)))) ∧
    (Ready (.crem f) s g → f.a.toNat < 128 →
      (let remote := pairOf (g.rdS f.a.toNat) (g.rdS (f.a.toNat + 1))
       let off := (g.rdS (f.a.toNat + 2)).toNat
       let len := (g.rdS (f.a.toNat + 3)).toNat % 2 ^ 24
       let put := (g.rdS (f.a.toNat + 3)).getLsbD 24
       (2 ^ 25 ≤ (g.rdS (f.a.toNat + 3)).toNat → exec (.crem f) s = .next (s.trap s.own.cur .cdesc g.ctl.exm 0 1)) ∧
       ((g.rdS (f.a.toNat + 3)).toNat < 2 ^ 25 → g.index ≠ b.k.commg → exec (.crem f) s = .next (s.trap s.own.cur .cdesc g.ctl.exm 0 6)) ∧
       ((g.rdS (f.a.toNat + 3)).toNat < 2 ^ 25 → g.index = b.k.commg → 0 < len → len % 16 = 0 → off + len ≤ b.k.scr →
         s.inPeer g remote len = true → g.eng.copyQ.length < 8 →
         ∃ t g' c, exec (.crem f) s = .next t ∧ Onward s t g f ∧ t.group s.own.cur = some g' ∧ g'.eng.copyQ = g.eng.copyQ ++ [c] ∧
           c.kind = (if put then .put remote.toNat len else .get remote.toNat len) ∧ c.e = off ∧ c.n = len ∧ c.obj = some f.b.toNat)))

/-- R247 to R250: the event counters. ecinc and ecdec add and subtract, and the new value lands in D; ecrd's value lands in D; ecset sets value or owner; a counter of another
context raises QBAD with reason 5. trpost attaches the record's operation until its condition holds; trcan withdraws those that the context
posted from the address. -/
def Sys2Proof.Claims.EventCounters : Prop :=
  ∀ (f : Fields) (s : State) (g : Group), s.holding g.block = false →
    (∀ c ∈ [Instr.ecinc, .ecdec, .ecrd], Ready (c f) s g → Sparse.get 0 s.dist.owners ((s.readS g f.a).toNat % 65536) ≠ g.ctx →
      exec (c f) s = .next (s.trap s.own.cur .qbad g.ctl.exm 0 5)) ∧
    (∀ p ∈ [(Instr.ecinc, fun a b : Word => a + b, rowEcinc), (.ecdec, fun a b => a - b, rowEcdec)], Ready (p.1 f) s g →
      Sparse.get 0 s.dist.owners ((s.readS g f.a).toNat % 65536) = g.ctx → s.unreleased s.own.cur s.own.ids 3 = false →
      (let v := p.2.1 (Sparse.get 0 s.dist.counters ((s.readS g f.a).toNat % 65536)) (s.opB g (p.2.2 f) f 0)
       ∃ t, exec (p.1 f) s = .next t ∧
        (∀ n, Sparse.get 0 t.dist.counters n = if n = (s.readS g f.a).toNat % 65536 then v else Sparse.get 0 s.dist.counters n) ∧
        ((∀ a ∈ s.dist.attaches, a.counter ≠ (s.readS g f.a).toNat % 65536) → (∀ j, j ≠ s.own.cur → t.group j = s.group j) ∧
          Later s t g f.d.toNat [v] (nextPc g f)))) ∧
    (Ready (.ecrd f) s g → Sparse.get 0 s.dist.owners ((s.readS g f.a).toNat % 65536) = g.ctx →
      ∃ t, exec (.ecrd f) s = .next t ∧ t.dist = s.dist ∧ (∀ j, j ≠ s.own.cur → t.group j = s.group j) ∧ (t.node g.owner).rb = [] ∧
        Later s t g f.d.toNat [Sparse.get 0 s.dist.counters ((s.readS g f.a).toNat % 65536)] (nextPc g f)) ∧
    (Ready (.ecset f) s g →
      (f.m 1 = true → ∃ t, exec (.ecset f) s = .next t ∧ Onward s t g f ∧ t.dist.counters = s.dist.counters ∧
        ∀ n, Sparse.get 0 t.dist.owners n = if n = (s.readS g f.a).toNat % 65536 then BitVec.ofNat 8 ((s.opB g (rowEcset f) f 0).toNat % 256)
          else Sparse.get 0 s.dist.owners n) ∧
      (f.m 1 = false → ∃ t, exec (.ecset f) s = .next t ∧ ∀ n, Sparse.get 0 t.dist.counters n =
        if n = (s.readS g f.a).toNat % 65536 then s.opB g (rowEcset f) f 0 else Sparse.get 0 s.dist.counters n)) ∧
    (∀ l s1 bs, Ready (.trpost f) s g → s.check g { align := 64, priv := false, peer := false } 64 [(0, s.readSP g f.a)] = .ok l →
      s.unsettled s.own.cur = false → (s.lookUps g [s.readSP g f.a]).readOwn s.own.cur g (l.flatMap (·.2)) = (s1, some bs) → opBad bs = false → s1.attachCount < 262144 →
      Sparse.get 0 s.dist.owners ((s.readS g f.b).toNat % 65536) = g.ctx →
      ∃ t, exec (.trpost f) s = .next t ∧ ((if field bs 1 1 % 2 = 1
          then wrapGe (BitVec.ofNat 32 (field bs 4 4)) (Sparse.get 0 s.dist.counters ((s.readS g f.b).toNat % 65536))
          else wrapGe (Sparse.get 0 s.dist.counters ((s.readS g f.b).toNat % 65536)) (BitVec.ofNat 32 (field bs 4 4))) = false →
        ∃ a ∈ t.dist.attaches, a.counter = (s.readS g f.b).toNat % 65536 ∧ a.ctx = g.ctx ∧ a.addr = s.readSP g f.a ∧ a.rcd = bs)) ∧
    (Ready (.trcan f) s g → ∃ t, exec (.trcan f) s = .next t ∧ Onward s t g f ∧
      ∀ a, a ∈ t.dist.attaches ↔ a ∈ s.dist.attaches ∧ ¬ (a.ctx = g.ctx ∧ a.addr = s.readSP g f.a))

/-- R245 to R254: multicast stores, collectives, remote copies and event counters. -/
def Obligations.CollectivesAndCounters : Prop := Sys2Proof.Claims.Collectives ∧ Sys2Proof.Claims.EventCounters

/-- A record's bytes stand at its place in the storage of a shard, and no other byte of memory has changed. Said of storage whose places
are aligned to 64 bytes, which R357 asks of SHBASE. -/
def Sys2Proof.Claims.Stored (s t : State) (q core : Nat) (r : Rec) (bs : List Byte) : Prop :=
  s.slotKey q core r.slot % 64 = 0 → bs.length = 64 → r.junk = none ∧ Mem.bytes t.mem (s.slotKey q core r.slot) 64 = bs ∧
    ∀ k, (k < s.slotKey q core r.slot ∨ s.slotKey q core r.slot + 64 ≤ k) → Mem.rd t.mem k = Mem.rd s.mem k

/-- No tqdeq waits for a record of a queue, nor for one that it has been given. -/
def Sys2Proof.Claims.NoTakers (s : State) (q : Nat) : Prop := ∀ r ∈ s.dist.requests, r.cq = true ∨ r.queue ≠ q

/-- R257 to R261, R357 to R361, R447: completion queues and task queues. A queue the context may not use raises QBAD with reason 1. tqenq appends the record to
the shard of the group's core; tqdeq and tqtry take what the rule of R360 finds to the group's scratchpad, or answer 2 for a closed and empty queue, 1 for
tqtry, and else wait; the answer lands in D; tqdone ends an item; tqatt attaches a record; tqstat counts; cqpoll's count lands, or it waits; cqpost goes on.
Where a record lies in its shard, and that cqpoll asks for VALID alone, are the model's (log entries 17, 36 and 107). -/
def Sys2Proof.Claims.QueueInstructions : Prop :=
  (∀ (f : Fields) (s : State) (g : Group), g.visitor = none → s.holding g.block = false →
    (∀ p ∈ [(Instr.tqenq, [1, 2]), (.tqdeq, [2]), (.tqtry, [2]), (.tqdone, [2]), (.tqatt, [1, 2]), (.tqstat, [1, 2])], Ready (p.1 f) s g →
      (qKind (s.qcfg ((s.readS g f.a).toNat % 256)) ∉ p.2 ∨ qOwner (s.qcfg ((s.readS g f.a).toNat % 256)) ≠ g.ctx) →
      exec (p.1 f) s = .next (s.trap s.own.cur .qbad g.ctl.exm 0 (BitVec.ofNat 64 (1 + 256 * ((s.readS g f.a).toNat % 256))))) ∧
    (∀ q l s1 bs, q = (s.readS g f.a).toNat % 256 → qKind (s.qcfg q) ∈ [1, 2] → qOwner (s.qcfg q) = g.ctx →
      s.check g { align := 1, priv := false, peer := false } 64 [(0, s.readSP g f.b)] = .ok l →
      s.unsettled s.own.cur = false → (s.lookUps g [s.readSP g f.b]).readOwn s.own.cur g (l.flatMap (·.2)) = (s1, some bs) → (qKind (s.qcfg q) = 1 → launchBad bs = false) →
      (Ready (.tqenq f) s g → s.shardFull q g.owner = false → NoTakers s q → s1.unreleased s.own.cur s.own.ids 3 = false →
        ∃ t r g', exec (.tqenq f) s = .next t ∧ t.shard q g.owner = s.shard q g.owner ++ [r] ∧ Stored s t q g.owner r bs ∧
          (qKind (s.qcfg q) = 1 → r.gridid = s.dist.gridid) ∧ t.group s.own.cur = some g' ∧ g'.regs = g.regs ∧
          g'.ctl = { g.ctl with pc := nextPc g f }) ∧
      (Ready (.tqatt f) s g → s1.attachCount < 262144 → Sparse.get 0 s.dist.owners ((s.readS g f.c).toNat % 65536) = g.ctx →
        ∃ t, exec (.tqatt f) s = .next t ∧ ((if f.m 1
            then wrapGe (s.readS g f.a >>> 8) (Sparse.get 0 s.dist.counters ((s.readS g f.c).toNat % 65536))
            else wrapGe (Sparse.get 0 s.dist.counters ((s.readS g f.c).toNat % 65536)) (s.readS g f.a >>> 8)) = false →
          ∃ a ∈ t.dist.attaches, a.counter = (s.readS g f.c).toNat % 65536 ∧ a.rcd = bs ∧ a.task = some (q, f.mf 3 2)))) ∧
    (∀ q, q = (s.readS g f.a).toNat % 256 → qKind (s.qcfg q) = 2 → qOwner (s.qcfg q) = g.ctx →
      (∀ p ∈ [(Instr.tqdeq, false), (.tqtry, true)], Ready (p.1 f) s g → NoTakers s q → g.owner < 192 → (s.readS g f.b).toNat % 64 = 0 →
        (s.readS g f.b).toNat + 64 ≤ s.scrSize g →
        (∀ c r, s.takeFrom q g.owner = some c →
          topRec (s.shard q c) = some r → ∃ t g' u, exec (p.1 f) s = .next t ∧ t.shard q c = (s.shard q c).erase r ∧
            t.group s.own.cur = some g' ∧ Later { s with mem := t.mem } t g f.d.toNat [0] (nextPc g f) ∧ (t.node g.owner).rb = [] ∧
            Sparse.get 0 g'.out.items q = Sparse.get 0 g.out.items q + 1 ∧ s.block g.block = some u ∧
            ∀ k, s.place (.scr u.grid u.lin (s.readS g f.b).toNat) = some k → 2 ^ 39 ≤ k → Mem.bytes t.mem k 64 = s.recBytes q c r ∧
              ∀ j, (j < k ∨ k + 64 ≤ j) → Mem.rd t.mem j = Mem.rd s.mem j) ∧
        (s.inShards q = 0 → qClosed (s.qcfg q) = true → ∃ t, exec (p.1 f) s = .next t ∧ Later s t g f.d.toNat [2] (nextPc g f)) ∧
        (s.inShards q = 0 → qClosed (s.qcfg q) = false → ∃ t g', exec (p.1 f) s = .next t ∧ t.mem = s.mem ∧ t.group s.own.cur = some g' ∧
          g'.ctl = { g.ctl with pc := nextPc g f } ∧ g'.regs.v = g.regs.v ∧
          (p.2 = true → Later s t g f.d.toNat [1] (nextPc g f)) ∧
          (p.2 = false → (f.d.toNat < 128 → g'.isEmpty true f.d.toNat = true) ∧ ∃ r, t.dist.requests = s.dist.requests ++ [r] ∧ r.gid = s.own.cur ∧ r.queue = q ∧
            r.off = (s.readS g f.b).toNat ∧ r.dst = f.d.toNat))) ∧
      (Ready (.tqdone f) s g → 0 < Sparse.get 0 g.out.items q → ∃ t g', exec (.tqdone f) s = .next t ∧ Onward s t g f ∧
        t.group s.own.cur = some g' ∧ Sparse.get 0 g'.out.items q = Sparse.get 0 g.out.items q - 1) ∧
      (Ready (.tqdone f) s g → Sparse.get 0 g.out.items q = 0 →
        exec (.tqdone f) s = .next (s.trap s.own.cur .qbad g.ctl.exm 0 (BitVec.ofNat 64 (6 + 256 * q))))) ∧
    (∀ q, q = (s.readS g f.a).toNat % 256 → qKind (s.qcfg q) ∈ [1, 2] → qOwner (s.qcfg q) = g.ctx → ScalarDst f.d → Ready (.tqstat f) s g →
      ∃ t g', exec (.tqstat f) s = .next t ∧ t.mem = s.mem ∧ t.dist = s.dist ∧ (∀ j, j ≠ s.own.cur → t.group j = s.group j) ∧
        t.group s.own.cur = some g' ∧ g'.ctl.pc = nextPc g f ∧ g'.regs.v = g.regs.v ∧ (f.d.toNat < 128 → g'.rdS f.d.toNat =
          BitVec.ofNat 32 (if f.m 1 then (s.groups.map (fun p => Sparse.get 0 p.2.out.items q)).sum
            else ((List.range 192).map (fun c => (s.shard q c).length)).sum + (s.dist.fired.filter (fun x => x.queue = q)).length)))) ∧
  ∀ (f : Fields) (s : State) (g : Group),
    (Ready (.cqpost f) s g → s.cqOf g.ctx (s.readSP g f.a) = none → exec (.cqpost f) s = .next (s.trap s.own.cur .qbad g.ctl.exm 0 1)) ∧
    (∀ k, Ready (.cqpost f) s g → s.cqOf g.ctx (s.readSP g f.a) = some k → Quiet s g → s.unreleased s.own.cur s.own.ids 5 = false →
      ∃ t, exec (.cqpost f) s = .next t ∧ ((∀ r ∈ s.dist.requests, r.cq = false) → ∃ g', t.group s.own.cur = some g' ∧ g'.regs = g.regs ∧
        g'.ctl = { g.ctl with pc := nextPc g f })) ∧
    (∀ e l bs, Ready (.cqpoll f) s g → Sparse.find s.mgmt.cqs ((s.readS g f.a).toNat % 4096) = some e → e.valid = true →
      s.cqHeader e = some (l, bs) →
      ((f.m 1 = false ∨ field bs 20 4 ≠ field bs 16 4) → ∃ t, exec (.cqpoll f) s = .next t ∧ (t.node g.owner).rb = [] ∧
        Later s t g f.d.toNat [BitVec.ofNat 32 (field bs 20 4) - BitVec.ofNat 32 (field bs 16 4)] (nextPc g f)) ∧
      (f.m 1 = true → field bs 20 4 = field bs 16 4 → ∃ t g' r, exec (.cqpoll f) s = .next t ∧ t.mem = s.mem ∧ t.group s.own.cur = some g' ∧
        g'.ctl = { g.ctl with pc := nextPc g f } ∧ (f.d.toNat < 128 → g'.isEmpty true f.d.toNat = true) ∧ t.dist.requests = s.dist.requests ++ [r] ∧ r.cq = true ∧
        r.gid = s.own.cur))

/-- R260, R359 to R361, R447: records on their way. The first record of a shard goes to the waiting request that may take it; delivered, its bytes
stand in the group's scratchpad and status 0 in D; a fired record enters its shard once there is room; a host's record is appended to the next
core's shard, or discarded and counted. -/
def Sys2Proof.Claims.QueueEvents : Prop :=
  (∀ (s : State) (q c : Nat) (r : Rec) (rs : List Rec) (rq : Request), s.shard q c = r :: rs → s.eligible q c = some rq → qKind (s.qcfg q) = 2 →
    (s.assign q c).shard q c = rs ∧ (s.assign q c).mem = s.mem ∧
      ∃ x ∈ (s.assign q c).dist.requests, x.id = rq.id ∧ x.got = some (c, s.clock.toNat, s.recBytes q c r)) ∧
  (∀ (s : State) (q c at_ : Nat) (bs : List Byte) (rq : Request) (g : Group) (b : Block), (s.shard q c = [] ∨ s.eligible q c = none) →
    s.dist.requests.find? (fun r => !r.cq && r.queue = q && (match r.got with | some (k, _, _) => k = c | none => false)) = some rq →
    rq.got = some (c, at_, bs) → bs.length = 64 → (∀ x ∈ s.dist.requests, x.gid = rq.gid → x.id = rq.id) →
    s.group rq.gid = some g → s.block g.block = some b → b.saved = none →
    ∃ t, exec (.recordDelivery q c) s = .next t ∧ (∀ x ∈ t.dist.requests, x.id ≠ rq.id) ∧
      (∀ k, s.place (.scr b.grid b.lin rq.off) = some k → 2 ^ 39 ≤ k → (∀ y ∈ s.blocks, y.2.saved = none) → Mem.bytes t.mem k 64 = bs ∧
        ∀ j, (j < k ∨ k + 64 ≤ j) → Mem.rd t.mem j = Mem.rd s.mem j) ∧
      (g.visitor = none → Landed s t rq.gid rq.dst 0)) ∧
  (∀ (s : State) (q c : Nat) (x : Fired) (xs : List Fired), s.waitingFired q c = x :: xs → (s.shard q c).length < qCap (s.qcfg q) → NoTakers s q →
    ∃ t r, exec (.firedRecordEntry q c) s = .next t ∧ t.shard q c = s.shard q c ++ [r] ∧ Stored s t q c r x.att.rcd) ∧
  (∀ (s : State) (q : Nat) (data : List (BitVec 8)), q < 256 → s.mgmt.devstat.toNat % 8 = 1 → data.length = 64 → qKind (s.qcfg q) ≠ 0 →
    (qKind (s.qcfg q) = 1 → launchBad data = false) → NoTakers s q →
    ∀ n, n = hostCore (s.qcfg q) (Sparse.get 0 s.dist.hostNext q) →
    (s.shardFull q n = false → ∃ t r, exec (.hostEnqueue q data) s = .next t ∧ t.shard q n = s.shard q n ++ [r] ∧ Stored s t q n r data ∧
      t.groups = s.groups ∧ Sparse.get 0 t.dist.hostNext q = (n + 1) % 192 ∧
      ∀ p, p ≠ q → Sparse.get 0 t.dist.hostNext p = Sparse.get 0 s.dist.hostNext p) ∧
    (s.shardFull q n = true → ∃ t, exec (.hostEnqueue q data) s = .next t ∧ t.dist.shards = s.dist.shards ∧
      qDrops (t.qcfg q) = (qDrops (s.qcfg q) + 1) % 2 ^ 32))

/-- R257 to R261, R358 to R361, R447: queues. -/
def Obligations.Queues : Prop := Sys2Proof.Claims.QueueInstructions ∧ Sys2Proof.Claims.QueueEvents

/-! ### Migration -/

/-- R262 to R274: the migration instructions. After a migr whose lists and addresses are good, the active lanes are those whose owner is the
group's own core; those with another owner are in new continuations, none of which goes to the group's own core, and the token register is empty when
there is one. mjoin makes the returned and refused lanes active again, and raises MIGFLT for lanes that trapped; mowner gives owners and mtest the
lanes still awaited; mret ends a visitor, which sends its lanes back, and does nothing in another group.
The size by which addresses are checked is the model's reading (log entry 44). -/
def Sys2Proof.Claims.MigrationInstructions : Prop :=
  ∀ (f : Fields) (s : State) (g : Group), s.holding g.block = false →
    (∀ l vs ss, Ready (.migr f) s g → g.visitor = none → vs = listedRegs (f.xmod.toNat % 256) (s.readS g f.c) →
      ss = listedRegs (4 * (f.xmod.toNat / 256)) (s.readS g f.e) → vs.length ≤ 16 → (∀ r ∈ vs, r < 255 ∧ s.owns g false r = true ∧ g.isEmpty false r = false ∧ ∀ k ∈ g.regs.vbad, k / 32 ≠ r) →
      ss.length ≤ 8 → (∀ r ∈ ss, r < 128 ∧ s.owns g true r = true ∧ g.isEmpty true r = false ∧ r ∉ g.regs.sbad) → f.h.toNat ∉ vs → f.h.toNat < 255 →
      s.check g {} 1 ((lanesOf g.ctl.exm).map (fun L => (L, BitVec.ofInt 64 ((s.readSP g f.a).toInt +
        (s.readV g f.b.toNat L).toInt * 2 ^ f.mf 2 1)))) = .ok l → s.unreleased s.own.cur s.own.ids 3 = false →
      ∃ t cs g', exec (.migr f) s = .next t ∧ t.mem = s.mem ∧ t.conts = s.conts ++ cs ∧ t.group s.own.cur = some g' ∧ g'.ctl.pc = nextPc g f ∧
        g'.ctl.livem = g.ctl.livem ∧ g'.regs.s = g.regs.s ∧ (∀ r L, L < 32 → r ≠ f.h.toNat → g'.rdV r L = g.rdV r L) ∧
        (∀ L, L < 32 → (g'.ctl.exm.getLsbD L = true ↔ g.ctl.exm.getLsbD L = true ∧
          ∀ x ∈ l, x.1 = L → s.ownerAt g x.2 = some g.owner)) ∧
        (∀ L, L < 32 → ((∃ c ∈ cs, c.lanes.getLsbD L = true) ↔ ∃ x ∈ l, x.1 = L ∧ ∃ o, s.ownerAt g x.2 = some o ∧ o ≠ g.owner)) ∧
        (∀ c ∈ cs, c.origin = s.own.cur ∧ c.token = f.h.toNat ∧ c.pc = nextPc g f ∧ c.owner ≠ g.owner) ∧
        (cs ≠ [] → g'.isEmpty false f.h.toNat = true) ∧ (cs = [] → g'.isEmpty false f.h.toNat = g.isEmpty false f.h.toNat)) ∧
    (Ready (.mret f) s g → (g.visitor = none → ∃ t, exec (.mret f) s = .next t ∧ ControlWrite s t g (nextPc g f) g.ctl.exm g.ctl.stack) ∧
      (∀ v, g.visitor = some v → s.unreleased s.own.cur s.own.ids 3 = false → ∃ t, exec (.mret f) s = .next t ∧ t.mem = s.mem ∧
        t.group s.own.cur = none ∧ (g.ctl.livem ≠ 0 → ∃ r, t.rets = s.rets ++ [r] ∧ r.origin = v.origin ∧ r.token = v.token ∧
          r.lanes = g.ctl.livem ∧ r.code = 1 ∧ r.reason = 0 ∧ r.vlist = v.vlist))) ∧
    (Ready (.mjoin f) s g → g.visitor = none →
      (let code (L : Nat) : Nat := (s.readV g f.a.toNat L).toNat % 256
       ((∀ L, L < 32 → code L ≠ 3) → (g.out.tokT.getLsbD f.a.toNat = false ∨ ∀ L, L < 32 → code L ≠ 2) →
         ∃ t e, exec (.mjoin f) s = .next t ∧ ControlWrite s t g (nextPc g f) e g.ctl.stack ∧
           ∀ L, L < 32 → (e.getLsbD L = true ↔ (g.ctl.exm.getLsbD L = true ∨ code L = 1 ∨ code L = 2) ∧ g.ctl.livem.getLsbD L = true)) ∧
       (∀ L, L < 32 → code L = 3 → (∀ M, M < L → code M ≠ 3) → ∃ lanes, exec (.mjoin f) s = .next (s.trap s.own.cur .migflt lanes
         (Sparse.get 0 g.out.tokAddr (32 * f.a.toNat + L)) (BitVec.ofNat 64 ((s.readV g f.a.toNat L).toNat / 256 % 256))) ∧
         ∀ M, M < 32 → (lanes.getLsbD M = true ↔ code M = 3)))) ∧
    (Ready (.mtest f) s g → ScalarDst f.d → ∃ t, exec (.mtest f) s = .next t ∧
      ScalarWrite s t g f.d (s.awaited s.own.cur f.a.toNat) (nextPc g f)) ∧
    (Ready (.mowner f) s g → ∃ t, exec (.mowner f) s = .next t ∧
      (g.ctl.exm = 0 → g.ctl.livem = 0xFFFFFFFF → ControlWrite s t g (nextPc g f) 0 g.ctl.stack) ∧
      (g.ctl.exm ≠ 0 → Quiet s g → ∃ g' a, t.group s.own.cur = some g' ∧ t.mem = s.mem ∧ (∀ j, j ≠ s.own.cur → t.group j = s.group j) ∧
        g'.ctl = { g.ctl with pc := nextPc g f } ∧ g'.regs.v = g.regs.v ∧ g'.regs.s = g.regs.s ∧
        (f.d.toNat < 255 → g'.isEmpty false f.d.toNat = true) ∧ t.accs = s.accs ++ [a] ∧ a.gid = s.own.cur ∧ a.dst = f.d.toNat ∧ a.regs = 1 ∧
        a.lanes = g.wset ∧ ∀ L ps o, L < 32 → g.ctl.exm.getLsbD L = true → s.locate g L {} 1 (BitVec.ofInt 64 ((s.readSP g f.a).toInt +
          (s.readV g f.b.toNat L).toInt * 2 ^ f.mf 2 1)) = (ps, []) → s.ownerAt g ps = some o → a.value L = o % 2 ^ 32))

/-- R265 to R271, R376: continuations on their way. A continuation whose context's trust level the owner is open to waits there; otherwise it goes back refused with
reason 3. The one that has waited longest starts as a visitor in a free slot, which holds its image, with its lanes, registers and address; after 4,096 cycles without a slot it
goes back with reason 1. Registers that have not been sent keep their slot. A return ends, and its token lanes hold the code. -/
def Sys2Proof.Claims.MigrationEvents : Prop :=
  (∀ (s : State) (c : Cont), s.conts.find? (fun d => d.id = c.id && d.arrived.isNone) = some c →
    ((s.node c.owner).vopen.getLsbD (s.tlevel c.ctx) = true → ∃ t, exec (.continuationArrival c.id) s = .next t ∧ t.rets = s.rets ∧ t.groups = s.groups ∧
      ∃ d ∈ t.conts, d.id = c.id ∧ d.arrived = some s.clock.toNat) ∧
    ((s.node c.owner).vopen.getLsbD (s.tlevel c.ctx) = false → ∃ t r, exec (.continuationArrival c.id) s = .next t ∧ t.rets = s.rets ++ [r] ∧
      (∀ d ∈ t.conts, d.id ≠ c.id) ∧ r.code = 2 ∧ r.reason = 3 ∧ r.lanes = c.lanes ∧ r.origin = c.origin ∧ r.v = c.v)) ∧
  (∀ (s : State) (owner slot a : Nat) (c : Cont), s.firstCont owner = some c → s.freeSlot owner = some slot → c.arrived = some a →
    ∃ t g, exec (.visitorStart owner) s = .next t ∧ (192 ≤ c.owner → t.mem = s.mem) ∧
      (c.owner < 192 → Mem.bytes t.mem (sliceKey c.owner (0x1C0000 + 4096 * slot)) (contImage s.own.fresh c).length = contImage s.own.fresh c ∧
        ∀ k, (k < sliceKey c.owner (0x1C0000 + 4096 * slot) ∨
          sliceKey c.owner (0x1C0000 + 4096 * slot) + (contImage s.own.fresh c).length ≤ k) → Mem.rd t.mem k = Mem.rd s.mem k) ∧
      t.group s.own.ids = some g ∧ g.owner = c.owner ∧
      g.ctl = { pc := c.pc, exm := c.lanes, livem := c.lanes, stack := [], guards := 0, supAt := none } ∧ g.regs.v = c.v ∧ g.ctx = c.ctx ∧
      (∃ v, g.visitor = some v ∧ v.origin = c.origin ∧ v.token = c.token ∧ v.slot = slot) ∧ ∀ d ∈ t.conts, d.id ≠ c.id) ∧
  (∀ (s : State) (c : Cont) (a : Nat), s.conts.find? (fun d => d.id = c.id) = some c → c.arrived = some a → a + 4096 ≤ s.clock.toNat →
    s.freeSlot c.owner = none → ∃ t r, exec (.migrationRefusal c.id) s = .next t ∧ t.rets = s.rets ++ [r] ∧ (∀ d ∈ t.conts, d.id ≠ c.id) ∧ r.code = 2 ∧ r.reason = 1 ∧
      r.lanes = c.lanes) ∧
  (∀ (s : State) (r : Ret) (owner slot : Nat), r ∈ s.rets → r.slot = some (owner, slot) → s.freeSlot owner ≠ some slot) ∧
  (∀ (s : State) (r : Ret), s.rets.find? (fun q => q.id = r.id) = some r → ∃ t, exec (.migrationReturn r.id) s = .next t ∧
    (∀ q ∈ t.rets, q.id ≠ r.id) ∧ (∀ g, s.group r.origin = some g → s.imageOf g = none → g.visitor = none → g.ctl.livem ≠ 0 → r.token < 255 → g.busy r.token = false →
      r.vlist.getLsbD r.token = false → ∃ g', t.group r.origin = some g' ∧ g'.ctl = g.ctl ∧
        ∀ L, L < 32 → r.lanes.getLsbD L = true → g'.rdV r.token L = BitVec.ofNat 32 (r.code + 256 * r.reason)))

/-- R262 to R274, R376: migration. -/
def Obligations.Migration : Prop := Sys2Proof.Claims.MigrationInstructions ∧ Sys2Proof.Claims.MigrationEvents

/-! ### Placement and residence -/

/-- R357, R362, R363, R371: a launch record at the head of its priority whose description can be read and is not refused becomes a grid with the description's fields
and the record's blocks still to be placed, and keeps its place in the shard's storage; one that is misaligned, unreadable or refused leaves its shard.
That a description which is misaligned or cannot be read is refused is the model's reading (log entry 55). -/
def Sys2Proof.Claims.Acceptance : Prop :=
  ∀ (s : State) (q core prio : Nat) (r : Rec) (b : List Byte), (s.shard q core).find? (fun x => x.prio = prio) = some r → r.grid = none →
    qKind (s.qcfg q) = 1 → b = s.recBytes q core r →
    (∀ s1 d, field b 12 8 % 64 = 0 → s.readThrough (qOwner (s.qcfg q)) (BitVec.ofNat 64 (field b 12 8)) 64 = (s1, some d) →
      s1.launchRefused (qOwner (s.qcfg q)) d (field b 2 2) (launchBlocks b) = false →
      ∃ t x, exec (.launchAcceptance q core prio) s = .next t ∧ t.grid s.own.ids = some x ∧ t.mem = s.mem ∧ t.groups = s.groups ∧
        x.ctx = qOwner (s.qcfg q) ∧ x.gridid = r.gridid ∧ x.prio = r.prio ∧ x.total = launchBlocks b ∧ x.todo.length = launchBlocks b ∧
        x.args.toNat = field b 20 8 % 2 ^ 64 ∧ x.ended = 0 ∧
        x.k.entry.toNat = field d 0 8 % 2 ^ 64 ∧ x.k.handler.toNat = field d 8 8 % 2 ^ 64 ∧ x.k.scr = field d 16 4 ∧ x.k.ngrp = field d 20 1 ∧
        x.k.vregs = field d 21 1 ∧ x.k.sregs = field d 22 1 ∧ x.k.accn = field d 23 1 ∧ x.k.priv = field d 24 4 ∧ x.k.clsz = field d 28 1 ∧
        x.k.commg = field d 29 1 ∧ x.k.team = field d 30 2 ∧ { r with grid := some s.own.ids } ∈ t.shard q core) ∧
    ((field b 12 8 % 64 ≠ 0 ∨ (s.readThrough (qOwner (s.qcfg q)) (BitVec.ofNat 64 (field b 12 8)) 64).2 = none ∨
        ∀ d, (s.readThrough (qOwner (s.qcfg q)) (BitVec.ofNat 64 (field b 12 8)) 64).2 = some d →
          (s.readThrough (qOwner (s.qcfg q)) (BitVec.ofNat 64 (field b 12 8)) 64).1.launchRefused (qOwner (s.qcfg q)) d (field b 2 2)
            (launchBlocks b) = true) →
      ∃ t, exec (.launchAcceptance q core prio) s = .next t ∧ (∀ k, t.grid k = none ↔ s.grid k = none) ∧
        (field b 30 2 < 2 ^ 15 → t.shard q core = (s.shard q core).erase r ∧ t.dist.counters = s.dist.counters))

/-- R19, R29, R364, R365: the first core of a die's order with a candidate that may be placed and fits takes the block. Every group starts at the entry with all lanes
active and live, an empty stack, the argument address in s0 and s1 and every other register zero, and the block's allocation reads zero.
The order of the visits and the places that a block takes are the model's (log entries 50 and 57). -/
def Sys2Proof.Claims.PlacementOfBlocks : Prop :=
  ∀ (s : State) (die n : Nat) (rest : List Nat) (passed : List Cand) (c : Cand) (x : Grid) (gr : Grant), die < 4 → s.reap.visits die = n :: rest →
    s.reap.choose n (s.reap.candidates n) [] = (some (c, x, gr), passed) → s.grid c.grid = some x →
    ∃ t b, exec (.blockPlacement die) s = .next t ∧ t.block s.own.ids = some b ∧ b.grid = c.grid ∧ b.lin = c.lin ∧ b.core = n ∧ b.k = x.k ∧
      b.saved = none ∧ b.live = (List.range x.k.ngrp).map (fun i => s.own.ids + 1 + i) ∧
      (∃ y, t.grid c.grid = some y ∧ y.todo = x.todo.erase c.lin) ∧
      (∀ key, Mem.rd t.mem key = if sliceKey n (gr.page * 4096) ≤ key ∧ key < sliceKey n (gr.page * 4096) + x.k.pages * 4096 then 0
        else Mem.rd s.mem key) ∧
      ∀ i, i < x.k.ngrp → ∃ h, t.group (s.own.ids + 1 + i) = some h ∧ h.block = s.own.ids ∧ h.index = i ∧ h.owner = n ∧ h.ctx = x.ctx ∧
        h.part = (gr.part + i) % 4 ∧ h.visitor = none ∧
        h.ctl = { pc := x.k.entry, exm := 0xFFFFFFFF, livem := 0xFFFFFFFF, stack := [], guards := 0, supAt := none } ∧
        (∀ r L, h.rdV r L = 0) ∧ (∀ r, h.rdS r = if r = 0 then x.args.truncate 32 else if r = 1 then (x.args >>> 32).truncate 32 else 0) ∧
        h.regs.vempty = 0 ∧ h.regs.sempty = 0

/-- R366: whether a candidate that a core has passed over is due to become its blocked head. -/
def Sys2Proof.Claims.Late (s : State) (core : Nat) (e : Nat × Nat × Nat) (x : Grid) : Prop :=
  e ∈ (s.node core).skipped ∧ s.grid e.1 = some x ∧ e.2.2 + 4096 ≤ s.clock.toNat ∧ e.2.1 ∈ x.todo ∧ s.grantOn core x = none

/-- R318, R366, R371, R374 to R376: the other work of the distributor and the schedulers: a blocked head of the highest priority that is due, blocked since its 4,096 cycles
passed; the end of a grid, with its counter; a CARVE that takes effect; the pending group ready the longest that enters the active set, in the place of the one stalled long
the longest when the set is full, a move taking 4 cycles.
When a group is ready, and since when, are the model's (log entry 54). -/
def Sys2Proof.Claims.DistributorWork : Prop :=
  (∀ (s : State) (core : Nat), (∃ e x, Late s core e x) →
    (∀ b, (s.node core).blocked = some b → s.headAt core ≠ some b) → ∃ t e x, exec (.blockedHead core) s = .next t ∧ Late s core e x ∧
    (∀ e' x', Late s core e' x' → x'.prio ≤ x.prio) ∧ (t.node core).blocked = some (e.1, e.2.1, e.2.2 + 4096) ∧ t.groups = s.groups ∧ t.mem = s.mem) ∧
  (∀ (s : State) (k : Nat) (x : Grid), s.reap.grid k = some x → x.total ≤ x.ended → x.todo = [] → (∀ p ∈ s.reap.blocks, p.2.grid ≠ k) →
    s.reap.owing x.gone = false → ∃ t, exec (.gridEnd k) s = .next t ∧ t.grid k = none ∧
      Sparse.get 0 t.dist.counters x.dctr = Sparse.get 0 s.dist.counters x.dctr + (if x.dfl then 1 else 0)) ∧
  (∀ (s : State) (core : Nat), (s.node core).carve ≠ (s.node core).carveNew → s.reap.occupied core = false →
    ∃ t, exec (.carveEffect core) s = .next t ∧ (t.node core).carve = (s.node core).carveNew ∧ t.groups = s.groups ∧ t.mem = s.mem) ∧
  (∀ (s : State) (core part i : Nat) (g : Group) (mine : List (Nat × Group)),
    mine = s.groups.filter (fun p => p.2.owner = core && p.2.part = part &&
      (match s.blockOf p.2 with | none => false | some b => p.2.visitor.isSome || b.saved.isNone)) →
    longest (mine.filter (fun p => !p.2.sched.active && p.2.sched.ready)) = some (i, g) →
    (∀ e, (s.node core).moves.find? (fun e => e.1 = part) = some e → e.2.1 + 4 ≤ s.clock.toNat) →
    ((mine.filter (fun p => p.2.sched.active)).length < 8 → ∃ t g', exec (.pendingMove core part) s = .next t ∧ t.mem = s.mem ∧ t.group i = some g' ∧
      g'.sched.active = true) ∧
    (8 ≤ (mine.filter (fun p => p.2.sched.active)).length → ∀ o h, longest ((mine.filter (fun p => p.2.sched.active)).filter (fun p => p.2.isLong)) = some (o, h) →
      o ≠ i → ∃ t g' h', exec (.pendingMove core part) s = .next t ∧ t.mem = s.mem ∧ t.group i = some g' ∧ g'.sched.active = true ∧
        t.group o = some h' ∧ h'.sched.active = false))

/-- R19, R29, R318, R362 to R366, R371, R374: launches, placement, the end of grids, and the active set. -/
def Obligations.Placement : Prop :=
  Sys2Proof.Claims.Acceptance ∧ Sys2Proof.Claims.PlacementOfBlocks ∧ Sys2Proof.Claims.DistributorWork

/-- R370, R389 to R391: a head blocked for 2,048 cycles has a victim halted, of the lowest priority the one placed last, whose groups go on for at most 16 instructions.
An evicted block has its allocation and its groups' contexts in the save image, and its relocation entry points there.
Where the image lies, at which boundary a group stops and what an evicted group is are the model's (log entries 48, 52 and 85). -/
def Sys2Proof.Claims.Evictions : Prop :=
  (∀ (s : State) (core since k l : Nat) (x : Grid), s.headOf core = some (k, x) → (s.node core).blocked = some (k, l, since) → since + 2048 ≤ s.clock.toNat →
    s.grantOn core x = none → (∀ p ∈ s.blocks, p.2.core = core → p.2.evicting = false) → s.wouldFit core x 128 s ≠ none →
    (∃ p ∈ s.blocks, s.victim core x.prio p.2 = true) → ∃ t v b, exec (.partialEviction core) s = .next t ∧ (v, b) ∈ s.blocks ∧ s.victim core x.prio b = true ∧
      (∀ p ∈ s.blocks, s.victim core x.prio p.2 = true → ∀ y z, s.grid b.grid = some y → s.grid p.2.grid = some z →
        y.prio ≤ z.prio ∧ (y.prio = z.prio → p.2.placed ≤ b.placed)) ∧
      (∃ b', t.block v = some b' ∧ b'.evicting = true) ∧ t.mem = s.mem ∧
      ∀ i g, s.group i = some g → g.block = v → g.visitor = none → g.sched.skidLeft = none → ∃ g' n, t.group i = some g' ∧
        g'.sched.skidLeft = some n ∧ n ≤ 16 ∧ (g.sched.hold = .none → n = 16) ∧ g'.ctl = g.ctl ∧ g'.regs = g.regs) ∧
  (∀ (s : State) (v save i : Nat) (b : Block) (x : Grid) (r : Reloc) (g : Group), s.block v = some b → s.grid b.grid = some x →
    s.savePlace b = some save → s.farAreas b = some b.areas → Sparse.find (s.node b.core).relocs b.reloc = some r → b.live = [i] →
    s.group i = some g → g.block = v → g.index < b.k.ngrp → b.saved = none → b.uncorr = false → x.flags.getLsbD 3 = false →
    (∀ n, g.sched.hold ≠ .checks n) →
    (∀ h c, b.evicting = true → b.noRestore = false → (s.node b.core).blocked = some h → s.grid h.1 = some c → c.ctx = x.ctx →
      (s.accNeeded v b (some c)).any (s.accBusy b.core) = false) →
    ∃ t b' g' r', exec (.eviction v) s = .next t ∧ t.block v = some b' ∧ b'.saved = some save ∧ t.group i = some g' ∧ g'.ctl = g.ctl ∧
      g'.regs = g.regs ∧ g'.sched.active = false ∧ Sparse.find (t.node b.core).relocs b.reloc = some r' ∧ r'.st = 2 ∧ r'.save = BitVec.ofNat 64 save ∧
      (∀ n, n < r.pages.toNat * 4096 → Mem.rd t.mem (save + n) = Mem.rd s.mem (sliceKey b.core (r.basepg.toNat * 4096) + n)) ∧
      (∀ n, n < 8 * b.k.sregs → n < 128 → Mem.num t.mem (recordAt save r.pages.toNat g.index + 4 * n) 4 = (g.rdS n).toNat) ∧
      Mem.num t.mem (recordAt save r.pages.toNat g.index + 528) 8 = g.ctl.pc.toNat ∧
      Mem.num t.mem (recordAt save r.pages.toNat g.index + 536) 4 = g.ctl.exm.toNat ∧
      Mem.num t.mem (recordAt save r.pages.toNat g.index + 540) 4 = g.ctl.livem.toNat)

/-- R336, R392, R399: an evicted block that fits again, and whose room no blocked head of a higher priority keeps, comes back: its image is read, its allocation is copied, and each group has the
PC, masks and scalar registers of its record. An image with a reserved field that is not zero terminates the block with IMGBAD; one with an uncorrectable sector, for which the spec names no outcome,
with UNCORR (log entry 116). -/
def Sys2Proof.Claims.Restorations : Prop :=
  ∀ (s : State) (v save p page : Nat) (b : Block) (r : Reloc), s.block v = some b → b.saved = some save → s.restoreAt v b = some (p, page) →
    Sparse.find (s.node b.core).relocs b.reloc = some r → s.keptFrom b = false →
    (∀ t, s.readRun ownIl save (s.imageSize b) = (t, none) → exec (.restoration v) s = .next (t.terminate v 34)) ∧
    ∀ s1 image m, s.readRun ownIl save (s.imageSize b) = (s1, some image) → m = Mem.wrBytes s1.mem save image →
      (s1.imageGood m b save r.pages.toNat = false → exec (.restoration v) s = .next (s1.terminate v 38)) ∧
      (s1.imageGood m b save r.pages.toNat = true →
        (∀ i ∈ b.live, ∀ g, s.group i = some g → Mem.num m (recordAt save r.pages.toNat g.index + 540) 4 ≠ 0) →
        ∃ t b' r', exec (.restoration v) s = .next t ∧ t.block v = some b' ∧ b'.saved = none ∧ b'.live = b.live ∧
          Sparse.find (t.node b.core).relocs b.reloc = some r' ∧ r'.st = 1 ∧ r'.basepg = BitVec.ofNat 9 page ∧
          (∀ n, n < r.pages.toNat * 4096 → Mem.rd t.mem (sliceKey b.core (page * 4096) + n) = Mem.rd m (save + n)) ∧
          ∀ i ∈ b.live, ∀ g, s.group i = some g → ∃ g', t.group i = some g' ∧ g'.part = (p + g.index) % 4 ∧
            g'.ctl.pc.toNat = Mem.num m (recordAt save r.pages.toNat g.index + 528) 8 ∧
            g'.ctl.exm.toNat = Mem.num m (recordAt save r.pages.toNat g.index + 536) 4 ∧
            g'.ctl.livem.toNat = Mem.num m (recordAt save r.pages.toNat g.index + 540) 4 ∧
            ∀ n, n < 8 * b.k.sregs → n < 128 → (g'.rdS n).toNat = Mem.num m (recordAt save r.pages.toNat g.index + 4 * n) 4)

/-- R399: a block that has consumed an uncorrectable word is terminated with UNCORR without a shadow, in an unclean interval or at the second time; else its groups go back to
the checkpoint with every register full, and the lines of the log to their images.
An uncorrectable word of the shadow ends the block too (log entry 97). -/
def Sys2Proof.Claims.Rollbacks : Prop :=
  ∀ (s : State) (v : Nat) (b : Block), s.block v = some b → b.uncorr = true → b.live ≠ [] →
    ((∀ sh, b.shadow = some sh → sh.clean = false ∨ sh.rolled = true ∨ sh.bad = true) → exec (.rollback v) s = .next (s.terminate v 34)) ∧
    (∀ sh, b.shadow = some sh → sh.clean = true → sh.rolled = false → sh.bad = false → s.rollbackWaits v sh.since = false → (sh.groups.map (·.1)).Nodup →
      ∃ t b', exec (.rollback v) s = .next t ∧ t.block v = some b' ∧ b'.uncorr = false ∧ b'.live = sh.groups.map (·.1) ∧
        (∃ sh', b'.shadow = some sh' ∧ sh'.rolled = true ∧ sh'.log = []) ∧
        (∀ q ∈ sh.groups, ∃ g', t.group q.1 = some g' ∧ g'.ctl = q.2.ctl ∧ g'.regs.v = q.2.regs.v ∧ g'.regs.s = q.2.regs.s ∧
          g'.regs.vempty = 0 ∧ g'.regs.sempty = 0 ∧ g'.regs.sbad = [] ∧ g'.sys = q.2.sys) ∧
        ∀ e ∈ sh.log, ∀ key, e.2.1 = .line key → 2 ^ 39 ≤ key → e.2.2.length = 32 →
          (∀ e' ∈ sh.log, e' ≠ e → ∀ k', e'.2.1 = .line k' → (k' + 128 ≤ key ∨ key + 128 ≤ k') ∧ e'.2.2.length = 32) →
          (∀ q ∈ sh.groups, q.2.ctl.stack.length ≤ 16) →
          ∀ n, n < 32 → Mem.num t.mem (key + 4 * n) 4 = (e.2.2.getD n 0).toNat)

/-- R370, R389 to R392, R399: eviction, restoration and rollback of blocks. -/
def Obligations.Residence : Prop := Sys2Proof.Claims.Evictions ∧ Sys2Proof.Claims.Restorations ∧ Sys2Proof.Claims.Rollbacks

/-! ### DRAM, health and fatal errors -/

/-- R333, R337, R459, R464, R465: refresh management takes LVL from the count of a bank that has reached it since its last command or that takes no activate until one, and the bank owes none then; a refresh takes DEC, not below zero, and lifts nothing. An erasure mark is
set at the sixteenth row, in the table and in flash, while the rank has fewer than four. A flush moves every count to flash, but DEVCTL's not on a device that dumps or is dumped. A sector found uncorrectable is retried once and counts as transient or lasting as it reads then; a faulted port that is retried
goes back to where a member's port stands, or is OPEN with reason 1.
When firmware acts is the model's choice (log entry 80). -/
def Sys2Proof.Claims.DramAndHealth : Prop :=
  ∀ s : State, s.power = true →
    (∀ bank, (bank ∈ s.dram.rfm ∨ bank ∈ s.dram.due) → ∃ t, exec (.refreshManagement bank) s = .next t ∧ t.mem = s.mem ∧
      t.groups = s.groups ∧ bank ∉ t.dram.due ∧ bank ∉ t.dram.rfm ∧ ∀ b, Sparse.get 0 t.dram.bac b = if b = bank then Sparse.get 0 s.dram.bac bank - s.dram.lvl else Sparse.get 0 s.dram.bac b) ∧
    (∀ bank, bank ∉ s.dram.rfm → bank ∉ s.dram.due → exec (.refreshManagement bank) s = .next s) ∧
    (∀ bank, ∃ t, exec (.bankRefresh bank) s = .next t ∧ t.mem = s.mem ∧ t.groups = s.groups ∧ t.dram.due = s.dram.due ∧ t.dram.rfm = s.dram.rfm ∧
      ∀ b, Sparse.get 0 t.dram.bac b = if b = bank then Sparse.get 0 s.dram.bac bank - s.dram.dec else Sparse.get 0 s.dram.bac b) ∧
    (∀ rank pos, pos < 36 → 16 ≤ (Sparse.get [] s.dram.fixed (rank * 64 + pos)).length →
      ∃ t, exec (.erasureMark rank pos) s = .next t ∧ t.mem = s.mem ∧ t.groups = s.groups ∧
        (symbols (Sparse.get 0 s.dram.erase rank) < 4 →
          (Sparse.get 0 t.mgmt.flashMarks rank).getLsbD pos = true ∧
          ∀ r p, (Sparse.get 0 t.dram.erase r).getLsbD p = ((r = rank ∧ p = pos) ∨ (Sparse.get 0 s.dram.erase r).getLsbD p = true)) ∧
        (4 ≤ symbols (Sparse.get 0 s.dram.erase rank) → t.dram.erase = s.dram.erase)) ∧
    (3 ≤ s.mgmt.devstat.toNat % 8 → exec .flushHealthLog s = .next s) ∧
    (∀ i ∈ [Instr.healthFlush, .flushHealthLog], (i = .flushHealthLog → s.mgmt.devstat.toNat % 8 < 3) → (s.mgmt.healthNew.map (·.1)).Nodup → ∃ t, exec i s = .next t ∧ t.mem = s.mem ∧ t.groups = s.groups ∧
      ∀ k, Sparse.get 0 t.mgmt.healthNew k = 0 ∧ t.healthOf k = s.healthOf k) ∧
    (∀ unit again,
      (unit ∉ s.mgmt.faults → exec (.faultRetry unit 0 again) s = .next s) ∧
      (unit ∈ s.mgmt.faults → ∃ t rank, rank = rankOf (s.scheme ownIl (32 * unit)) (32 * unit) ∧ exec (.faultRetry unit 0 again) s = .next t ∧
        t.mem = s.mem ∧ t.groups = s.groups ∧ unit ∉ t.mgmt.faults ∧
        (∀ k, k = (if s.badAt ownIl (32 * unit) = true then hcLasting else hcTransient) rank →
          Sparse.get 0 t.mgmt.healthNew k = Sparse.get 0 s.mgmt.healthNew k + 1) ∧
        (s.badAt ownIl (32 * unit) = true → Sparse.get 0 t.mgmt.healthNew hcFailMark = Sparse.get 0 s.mgmt.healthNew hcFailMark + 1)) ∧
      ((s.port unit).state ≠ 3 → exec (.faultRetry unit 1 again) s = .next s) ∧
      (unit < 32 → (s.port unit).state = 3 → ∀ fails, fails = (again || !(s.port unit).live s.clock.toNat) →
        ∃ t, exec (.faultRetry unit 1 again) s = .next t ∧ t.mem = s.mem ∧ t.groups = s.groups ∧
          (∀ k, k = (if fails then hcLasting else hcTransient) (4096 + unit) →
            Sparse.get 0 t.mgmt.healthNew k = Sparse.get 0 s.mgmt.healthNew k + 1) ∧
          (t.port unit).state = (if fails then 0 else if s.isMember then 2 else 1) ∧ (t.port unit).reason = if fails then 1 else 0))

/-- R461 to R463: a fatal error of an operating device leaves DEVSTAT at DUMPED. With no frame, memory is as it was; else the frame begins with the magic word and names the source, and memory
below it is as it was. -/
def Sys2Proof.Claims.FatalErrors : Prop :=
  ∀ (s : State) (source : Nat), s.power = true → s.operating = true →
    ∃ t, exec (.fatalError source) s = .next t ∧ t.mgmt.devstat.toNat % 8 = 4 ∧ t.groups = s.groups ∧
      ((Sparse.get 0 s.mgmt.regions 3).toNat % 2 ^ 39 = 0 → t.mem = s.mem) ∧
      (∀ a, a = (Sparse.get 0 s.mgmt.regions 3).toNat % 2 ^ 39 → a ≠ 0 → Mem.num t.mem a 4 = 0x504D5544 ∧ Mem.num t.mem (a + 16) 4 = source % 2 ^ 32 ∧
        ∀ k, k < a → Mem.rd t.mem k = Mem.rd s.mem k)

/-- R333, R337, R459 to R465: DRAM housekeeping, the health log and fatal errors. -/
def Obligations.DramHealthAndDump : Prop := Sys2Proof.Claims.DramAndHealth ∧ Sys2Proof.Claims.FatalErrors

/-! ### Delivery over the fabric -/

/-- R422, R423: the destination of a packet is this device, or a group for a multicast line and its answer. -/
def Sys2Proof.Claims.ForUs (s : State) (p : Packet) : Prop :=
  if p.typ = 8 ∨ p.typ = 10 then p.mcast = true else p.mcast = false ∧ p.dst = s.devid

/-- R414, R418, R422, R423: what the port, the header and the tag of an arriving packet must be for it to go on. -/
def Sys2Proof.Claims.Passes (s : State) (p : Packet) : Prop :=
  packetFits p = true ∧ s.portRuns p.plane = true ∧ s.isMember = true ∧ p.hop ≠ 0 ∧ ForUs s p ∧ p.kg = s.fab.kgen.getLsbD 0 ∧ p.tagOk = true

/-- The receiving context that a packet names. -/
def Sys2Proof.Claims.sameCtx (p : Packet) (c : RecvCtx) : Bool := c.peer = rctxKey p && c.cls = p.cls && c.ctxno = p.ctxno

/-- A packet that opens a receiving context while fewer than 4,096 contexts are cached and no packet waits for one. -/
def Sys2Proof.Claims.OpensCtx (s : State) (p : Packet) : Prop :=
  p.pseq ≤ 255 ∧ s.fab.rctx.find? (sameCtx p) = none ∧ Sparse.get 0 s.fab.opened (4 * rctxKey p + p.cls) < p.ctxno ∧
    (s.fab.sctx.filter (·.cached)).length + (s.fab.rctx.filter (·.cached)).length < 4096 ∧ s.fab.ingress = []

/-- A packet goes out that answers `p` with a type and a body. -/
def Sys2Proof.Claims.Answers (t : State) (p : Packet) (typ : Nat) (status : Option Nat) : Prop :=
  ∃ q, Effect.packet p.plane q ∈ t.own.outbox ∧ q.typ = typ ∧ q.dst = p.src ∧ q.cls = p.cls ∧ q.ctxno = p.ctxno ∧ q.pseq = p.pseq ∧
    ∀ n, status = some n → q.body = .resp [BitVec.ofNat 8 n]

/-- R414, R422, R423, R425, R427, R433: on a LOCKED or RUNNING port an arriving packet with a spent hop count, another destination or an old generation is counted in DROP, one with a bad tag, and every other one of a device that is no member, in TAGERR, and neither does anything more. On a
RUNNING port an ACK, a RETRY and a STALE are what their own steps are. A WRITE in a new context is performed once, as a device with that context open performs it, and acknowledged with its status; a duplicate is acknowledged again and changes no memory; a context older than
the newest is answered STALE. A multicast line is performed by a member whose table entry is good, and refused else.
What becomes of a packet of an older generation, and the context of a multicast line, are the model's reading (log entries 64 and 71). -/
def Sys2Proof.Claims.Arrivals : Prop :=
  ∀ (s : State) (p : Packet),
    (∀ i ∈ [Instr.packetArrival p, .mcast p], packetFits p = true → s.portOpen p.plane = true → (i = .mcast p → p.typ = 8 ∧ p.cls = 3) →
      ((p.hop = 0 ∨ ¬ ForUs s p ∨ (s.isMember = true ∧ p.kg ≠ s.fab.kgen.getLsbD 0)) → ∃ t, exec i s = .next t ∧ t.mem = s.mem ∧
        t.groups = s.groups ∧ t.own = s.own ∧ (t.port p.plane).drop = (s.port p.plane).drop + 1) ∧
      (p.hop ≠ 0 → ForUs s p → (s.isMember = true → p.kg = s.fab.kgen.getLsbD 0) → (p.tagOk = false ∨ s.isMember = false) →
        ∃ t, exec i s = .next t ∧ t.mem = s.mem ∧ t.groups = s.groups ∧ t.own = s.own ∧ (t.port p.plane).tagerr = (s.port p.plane).tagerr + 1 ∧
          Sparse.get 0 t.mgmt.healthNew (hcTag p.plane) = Sparse.get 0 s.mgmt.healthNew (hcTag p.plane) + 1)) ∧
    (s.portOpen p.plane = false → exec (.packetArrival p) s = .next s) ∧
    (Passes s p →
      ((∀ c ∈ s.fab.sctx, c.peer = p.src → c.cls = p.cls → c.cached = true) → p.cls < 3 →
        (∀ b, p.typ = 9 → p.body = .resp [b] → b.toNat ≤ 3 →
          exec (.packetArrival p) s = exec (.deliveryAck p.src p.cls p.ctxno p.pseq b.toNat) s) ∧
        (p.typ = 11 → exec (.packetArrival p) s = exec (.retry p.src p.cls p.ctxno p.pseq) s) ∧
        (p.typ = 12 → (∀ c, s.sctxOf p.src p.cls = some c → ∃ x ∈ c.pkts, x.sent = true ∧ x.p.pseq = p.pseq) →
          exec (.packetArrival p) s = exec (.stale p.src p.cls p.ctxno p.pseq) s)) ∧
      (∀ addr bytes, p.typ = 1 → p.body = .write addr bytes → p.cls < 3 → p.asks = false → OpensCtx s p →
        ∃ t u : State, exec (.packetArrival p) s = .next t ∧ u = { s with fab := { s.fab with rctx := u.fab.rctx, opened := u.fab.opened } } ∧
          t.mem = (u.peerWrite p addr bytes).1.mem ∧ t.groups = s.groups ∧ Answers t p 9 (some (u.peerWrite p addr bytes).2)) ∧
      (∀ c st, 0 < p.typ → p.typ < 9 → p.cls < 3 → s.fab.rctx.find? (sameCtx p) = some c → c.quiet s.clock.toNat = false →
        c.cached = true → Sparse.find c.got p.pseq = some st → st ≠ 256 →
        ∃ t, exec (.packetArrival p) s = .next t ∧ t.mem = s.mem ∧ t.groups = s.groups ∧ Answers t p 9 (some st)) ∧
      (0 < p.typ → p.typ < 9 → s.fab.rctx.find? (sameCtx p) = none → p.ctxno ≤ Sparse.get 0 s.fab.opened (4 * rctxKey p + p.cls) →
        ∃ t, exec (.packetArrival p) s = .next t ∧ t.mem = s.mem ∧ t.groups = s.groups ∧ Answers t p 12 none) ∧
      (∀ addr bytes, p.typ = 8 → p.cls = 3 → p.body = .write addr bytes → OpensCtx s p →
        (s.mcastFl p.dst % 4 ≠ 3 → ∃ t, exec (.mcast p) s = .next t ∧ t.mem = s.mem ∧ Effect.mcastAnswer p false ∈ t.own.outbox) ∧
        (s.mcastFl p.dst % 4 = 3 → ∃ t u : State, exec (.mcast p) s = .next t ∧
          u = { s with fab := { s.fab with rctx := u.fab.rctx, opened := u.fab.opened } } ∧ t.mem = (u.peerWrite p addr bytes).1.mem ∧
          Effect.mcastAnswer p ((u.peerWrite p addr bytes).2 = 0) ∈ t.own.outbox)))

/-- FABERR with a reason of R242 waits for a group's next fence or release. -/
def Sys2Proof.Claims.Owes (t : State) (gid peer reason : Nat) : Prop :=
  ∃ g e, t.group gid = some g ∧ e ∈ g.out.storeFail ∧ e.cause = 16 ∧ e.aux = BitVec.ofNat 64 (peer + reason * 4096)

/-- R154, R425, R428: the context is gone, and FABERR with reason 1 waits for each writer of a line that one of its packets carried. -/
def Sys2Proof.Claims.GivenUp (s t : State) (c : SendCtx) : Prop :=
  t.sctxOf c.peer c.cls = none ∧ t.mem = s.mem ∧
    ∀ x ∈ c.pkts, ∀ n l, x.purpose = .line n l → ∀ w, (s.node n).wc.find? (fun w => w.id = l) = some w →
      ∀ i ∈ w.writers, (∃ g, s.group i = some g) → Owes t i w.peer 1

/-- R154, R243, R414, R425, R427 to R429: what answers and quiet do at the sender and the receiver; an answer acts where it comes over a RUNNING port and its context is cached. An ACK ends its packet: the line that the packet carried leaves the buffer, or the store is performed, and with a status other
than 0 FABERR waits for its writers. A STALE or the give-up time ends a context; a RETRY restarts the packet's 4 µs, after which it goes again on the next running plane; 64 µs of quiet close a context, and a context that was written out comes back.
The reasons of the statuses, and that a context is given up whole, are the model's reading (log entries 65 and 72). -/
def Sys2Proof.Claims.SenderEvents : Prop :=
  ∀ (s : State) (peer cls ctxno pseq : Nat),
    (s.hearsFor peer cls = false → (∀ st, exec (.deliveryAck peer cls ctxno pseq st) s = .next s) ∧ exec (.stale peer cls ctxno pseq) s = .next s ∧
      exec (.retry peer cls ctxno pseq) s = .next s) ∧
    (∀ c, s.sctxOf peer cls = some c → c.ctxno = ctxno →
      (∀ x st, st ≤ 3 → s.hearsFor peer cls = true → c.pkts.find? (fun x => x.sent && x.p.pseq = pseq) = some x →
        (∀ n l w, x.purpose = .line n l → (s.node n).wc.find? (fun w => w.id = l) = some w → s.accs = [] →
          (∀ m, ∀ k ∈ (s.node m).wc, (m = n ∧ k.id = l) ∨ k.closed = false) →
          ∃ t, exec (.deliveryAck peer cls ctxno pseq st) s = .next t ∧ t.mem = s.mem ∧ (∀ k ∈ (t.node n).wc, k.id ≠ l) ∧
            (∀ d, t.sctxOf peer cls = some d → ∀ y ∈ d.pkts, y.p.pseq ≠ pseq) ∧
            (st = 0 → t.groups = s.groups) ∧ (st ≠ 0 → ∀ i ∈ w.writers, (∃ g, s.group i = some g) → Owes t i w.peer (st + 1))) ∧
        (∀ acc a p g, (x.purpose = .store acc ∨ x.purpose = .mcast acc) → s.accs = [a] → a.id = acc → a.parts = [p] → p.msg = some x.p.msg →
          a.kind = .store → a.regs = 0 → a.fails = [] → a.helpers = 0 → (a.rel = false ∨ a.scope < 4) → s.isMember = true →
          s.group a.gid = some g → g.ctl.livem ≠ 0 →
          ∃ t, exec (.deliveryAck peer cls ctxno pseq st) s = .next t ∧ t.mem = s.mem ∧ t.accs = [] ∧
            (st ≠ 0 → Owes t a.gid (if p.mc.isSome then 0 else p.peer.getD 0) (st + 1)))) ∧
      ((∀ x ∈ c.pkts, x.sent = true ∧ ∃ n l, x.purpose = .line n l) → s.accs = [] → (∀ m, ∀ k ∈ (s.node m).wc, k.closed = true → k.pkt ≠ none) →
        (s.hearsFor peer cls = true → (∃ x ∈ c.pkts, x.p.pseq = pseq) → ∃ t, exec (.stale peer cls ctxno pseq) s = .next t ∧ GivenUp s t c) ∧
        ((∃ x ∈ c.pkts, x.p.pseq = pseq ∧ x.first + s.dgup ≤ s.clock.toNat) → s.rekeying = false → cls < 4 →
          ∃ t, exec (.deliveryGiveUp peer cls pseq) s = .next t ∧ GivenUp s t c))) ∧
    (∃ t, exec (.retry peer cls ctxno pseq) s = .next t ∧ t.mem = s.mem ∧ t.groups = s.groups ∧ t.own = s.own ∧
      (s.hearsFor peer cls = true → ∀ c, s.sctxOf peer cls = some c → c.ctxno = ctxno → ∀ x ∈ c.pkts, x.sent = true → x.p.pseq = pseq →
        ∃ c', t.sctxOf peer cls = some c' ∧ { x with last := s.clock.toNat } ∈ c'.pkts)) ∧
    (∀ c x pl, s.sctxOf peer cls = some c → c.pkts.find? (fun x => x.sent && x.p.pseq = pseq) = some x → x.last + 6400 ≤ s.clock.toNat → c.cached = true →
      s.plane (x.p.plane + 1) = some pl → ∃ t, exec (.packetResend peer cls pseq) s = .next t ∧ t.mem = s.mem ∧ t.groups = s.groups ∧
        t.own.outbox = s.own.outbox ++ [.packet pl { x.p with plane := pl, hop := 256 }]) ∧
    (∀ c, s.sctxOf peer cls = some c → c.last + 102400 ≤ s.clock.toNat → c.pkts = [] → ∃ t, exec (.contextClose true peer cls) s = .next t ∧
      t.sctxOf peer cls = none ∧ t.mem = s.mem ∧ t.groups = s.groups) ∧
    (∀ c, s.fab.rctx.find? (fun c => c.peer = peer && c.cls = cls) = some c → c.last + 102400 ≤ s.clock.toNat →
      ∃ t, exec (.contextClose false peer cls) s = .next t ∧ t.mem = s.mem ∧ t.groups = s.groups ∧ ∀ d ∈ t.fab.rctx, ¬ (d.peer = peer ∧ d.cls = cls)) ∧
    (∀ c, s.sctxOf peer cls = some c → c.cached = false → (∀ e ∈ s.fab.ingress, ¬ (isAnswer e.1 = true ∧ s.answered e.1 = (peer, cls))) →
      ∃ t c', exec (.contextFetch true peer cls) s = .next t ∧ t.mem = s.mem ∧ t.groups = s.groups ∧
        t.sctxOf peer cls = some c' ∧ c'.cached = true ∧ c'.ctxno = c.ctxno) ∧
    (∀ c, s.fab.rctx.find? (fun c => c.peer = peer && c.cls = cls) = some c → c.cached = false → (∀ e ∈ s.fab.ingress, waitsFor peer cls e = false) →
      ∃ t c', exec (.contextFetch false peer cls) s = .next t ∧ t.mem = s.mem ∧ t.groups = s.groups ∧
        t.fab.rctx.find? (fun c => c.peer = peer && c.cls = cls) = some c' ∧ c'.cached = true ∧ c'.got = c.got)

/-- R246, R414, R426, R428, R431, R436, R441: results and completions, where a port runs. A RESP lands in the register of the access that waits for it; a request that gets none within the give-up time, which runs from its first sending, is given up; a COMPLETE ends its
message; the aggregated answer to a multicast line adds to NACK the members that it does not name, and the line's store is performed. -/
def Sys2Proof.Claims.Results : Prop :=
  ∀ (s : State) (peer msg : Nat),
    (∀ data, (s.receives = false ∨ (s.partOfMsg peer msg = none ∧ s.findMsg peer msg = none)) →
      exec (.resp peer msg data) s = .next s ∧ exec (.complete peer msg) s = .next s) ∧
    (∀ data a p g, s.receives = true → s.accs = [a] → a.parts = [p] → p.peer = some peer → p.msg = some msg → p.off = 0 → p.lanes = 1 → a.got = [] →
      a.fails = [] → a.kind = .load 4 → (a.rel = false ∨ a.scope < 4) → a.vec = false → a.regs = 1 → a.dst < 128 → s.group a.gid = some g →
      s.imageOf g = none → g.ctl.livem ≠ 0 → data.length = 4 →
      ∃ t g', exec (.resp peer msg data) s = .next t ∧ t.mem = s.mem ∧ t.group a.gid = some g' ∧ g'.rdS a.dst = BitVec.ofNat 32 (leNat data) ∧
        g'.isEmpty true a.dst = false ∧ t.accs = []) ∧
    (∀ m, s.receives = true → s.findMsg peer msg = some m → m.kind = 0x10 → m.done = false → m.cmd = none → (∀ a, m.att = some a → a.cqreq = false) →
      ∃ t, exec (.complete peer msg) s = .next t ∧ t.findMsg peer msg = none ∧ t.mem = s.mem ∧ t.groups = s.groups) ∧
    (∀ m t0, s.findMsg peer msg = some m → m.kind = 3 → m.done = false → s.sending (.piece m.id) = [] → s.rekeying = false → m.first = some t0 →
      t0 + s.dgup ≤ s.clock.toNat → s.partOfMsg peer msg = none → ∃ t, exec (.deliveryGiveUp peer 4 msg) s = .next t ∧
        t.findMsg peer msg = none ∧ t.mem = s.mem ∧ t.groups = s.groups) ∧
    (∀ group ctxno pseq bits c x acc a p k, s.hearsFor group 3 = true → s.sctxOf group 3 = some c → c.ctxno = ctxno →
      c.pkts.find? (fun x => x.sent && x.p.pseq = pseq) = some x → x.purpose = .mcast acc → s.accs = [a] → a.id = acc → a.parts = [p] →
      p.msg = some x.p.msg → p.mc = some k → a.kind = .store → a.regs = 0 → a.fails = [] → (a.rel = false ∨ a.scope < 4) →
      (∀ g, s.group a.gid = some g → g.ctl.livem ≠ 0) → (s.group a.gid).isSome = true →
      s.region 1 % 32 = 0 → (∀ i, 64 ≤ i → i < 136 → Clean s ownIl (s.mcastAt group + i) 1) → Mem.num s.mem (s.mcastAt group + 128) 8 = 0 →
      ∃ t, exec (.aggack group ctxno pseq bits) s = .next t ∧ t.accs = [] ∧
        (∀ d, t.sctxOf group 3 = some d → ∀ y ∈ d.pkts, y.p.pseq ≠ pseq) ∧
        Mem.num t.mem (s.mcastAt group + 64) 64 = (BitVec.ofNat 512 (Mem.num s.mem (s.mcastAt group + 64) 64) ||| (k.members &&& ~~~bits)).toNat)

/-- R246, R414, R418, R422 to R433, R436, R441, R442: delivery over the fabric. -/
def Obligations.FabricDelivery : Prop := Sys2Proof.Claims.Arrivals ∧ Sys2Proof.Claims.SenderEvents ∧ Sys2Proof.Claims.Results

/-! ### Ports and the trust domain -/

/-- One port has changed its state and reason, and nothing of memory or of the groups. -/
def Sys2Proof.Claims.PortNow (s t : State) (p : Nat) (state : BitVec 2) (reason : BitVec 8) : Prop :=
  t.mem = s.mem ∧ t.groups = s.groups ∧ (t.port p).state = state ∧ (t.port p).reason = reason ∧ (t.port p).cfg = (s.port p).cfg ∧
    ∀ q, q ≠ p → t.port q = s.port q

/-- R413, R414: the states of a port. LOCK goes from OPEN to LOCKED when the session is accepted, the switch's digest is PSWID and the link is up, START from LOCKED to RUNNING in a member, STOP to OPEN; a configuration write takes effect only on an OPEN port
and faults a LOCKED or RUNNING one, as do 16 bad tags in a millisecond, a link down for a millisecond and a measurement that changes.
What a port keeps of PCFG, and the session's outcome as an operand, are the model's (log entries 74 and 76). -/
def Sys2Proof.Claims.Ports : Prop :=
  ∀ (s : State) (p : Nat), p < 32 → s.power = true →
    (∀ d, ((s.port p).state ≠ 0 → exec (.lock p d) s = .next s) ∧
      ((s.port p).state = 0 → d = some (s.port p).swid → (s.port p).live s.clock.toNat = true →
        ∃ t, exec (.lock p d) s = .next t ∧ PortNow s t p 1 (s.port p).reason) ∧
      ((s.port p).state = 0 → (d ≠ some (s.port p).swid ∨ (s.port p).live s.clock.toNat = false) →
        ∃ t, exec (.lock p d) s = .next t ∧ PortNow s t p 0 1)) ∧
    (((s.port p).state ≠ 1 ∨ s.isMember = false) → exec (.start p) s = .next s) ∧
    ((s.port p).state = 1 → s.isMember = true → ∃ t, exec (.start p) s = .next t ∧ PortNow s t p 2 (s.port p).reason) ∧
    (∃ t, exec (.stop p) s = .next t ∧ PortNow s t p 0 0) ∧
    (∀ v swid, ((s.port p).state = 0 → ∃ t, exec (.portConfigWrite p v swid) s = .next t ∧ t.mem = s.mem ∧ t.groups = s.groups ∧
        (t.port p).cfg = (if swid then (s.port p).cfg else v.truncate 32 &&& 0x11F) ∧ (t.port p).swid = if swid then v else (s.port p).swid) ∧
      (s.secured p = true → ∃ t, exec (.portConfigWrite p v swid) s = .next t ∧ PortNow s t p 3 2 ∧ (t.port p).swid = (s.port p).swid) ∧
      ((s.port p).state = 3 → exec (.portConfigWrite p v swid) s = .next s)) ∧
    (s.secured p = true → 16 ≤ ((s.port p).fails.filter (fun c => s.clock.toNat ≤ c + 1600000)).length →
      ∃ t, exec (.tagFailureFault p) s = .next t ∧ PortNow s t p 3 3) ∧
    (s.secured p = true → ((s.port p).live s.clock.toNat = true ∨ ((s.port p).up = false ∧ (s.port p).downAt + 1600000 ≤ s.clock.toNat) ∨
        ∃ h, (s.port p).up = true ∧ (s.port p).held = some h ∧ h + 1600000 ≤ s.clock.toNat) →
      ∃ t, exec (.linkDown p) s = .next t ∧ PortNow s t p 3 4) ∧
    (∃ t, exec (.linkLoss p) s = .next t ∧ PortNow s t p (s.port p).state (s.port p).reason ∧ (t.port p).up = false ∧
      ((s.port p).up = true → (t.port p).downAt = s.clock.toNat)) ∧
    (∃ t, exec (.linkReturn p) s = .next t ∧ PortNow s t p (s.port p).state (s.port p).reason ∧ (t.port p).up = true) ∧
    (s.secured p = true → ∃ t, exec (.measurementChange p) s = .next t ∧ PortNow s t p 3 5) ∧
    (s.secured p = false → exec (.measurementChange p) s = .next s)

/-- R414, R418 to R421: membership and re-keying; what the manager says is heard over a LOCKED or RUNNING port. A change of MEMBERS sets REKEY; a member that leaves takes the domains tied to it along; ARRIVE is sent once no sending context is open; RELEASE names the next generation, ends
REKEY and closes every context, and what was held goes in the new one; a member that has not arrived in 100 ms is expelled with every other such one, and the rest re-key. That KGEN is 0 in a device that is no member is log entry 131. -/
def Sys2Proof.Claims.Membership : Prop :=
  ∀ s : State,
    (∀ dev self members, dev < 512 → self < 512 → members.getLsbD dev = true → members.getLsbD self = true → (s.isMember = true → self = s.devid) →
      (s.isMember = false → self = dev) → ((self = dev ∧ ∀ d, d < self → members.getLsbD d = false) ∨ s.hears = true) → ∃ t, exec (.joinDomain dev self members) s = .next t ∧ t.isMember = true ∧ t.devid = self ∧ t.fab.members = members ∧
        t.rekeying = true ∧ t.mem = s.mem ∧ t.groups = s.groups) ∧
    (∀ dev, s.isMember = true → dev < 512 → s.fab.members.getLsbD dev = true → (s.isManager = true ∨ s.hears = true) →
      (dev = s.devid → ∃ t, exec (.memberRemoval dev) s = .next t ∧ t.isMember = false ∧ t.fab.members = 0 ∧ t.fab.kgen = 0 ∧ t.mem = s.mem ∧ t.groups = s.groups) ∧
      (dev ≠ s.devid → ∃ t, exec (.memberRemoval dev) s = .next t ∧ t.rekeying = true ∧ t.mem = s.mem ∧ t.groups = s.groups ∧
        (∀ d, t.fab.members.getLsbD d = (s.fab.members.getLsbD d && d ≠ dev)) ∧
        ∀ did d, did ∈ s.tiedTo dev → s.domain did = some d → ∃ d', t.domain did = some d' ∧ d'.state = .failed)) ∧
    (s.isMember = true → s.rekeying = false → (s.isManager = true ∨ s.hears = true) → ∃ t, exec .rekey s = .next t ∧ t.rekeying = true ∧ t.fab.rekeyAt = s.clock.toNat ∧ t.mem = s.mem ∧
      t.groups = s.groups) ∧
    (s.isMember = true → s.rekeying = true → s.fab.members.getLsbD s.devid = true → s.fab.arriveSent = false → s.fab.sctx = [] →
      (s.isManager = true ∨ s.hears = true) → ∃ t, exec (.arrive s.devid) s = .next t ∧ t.fab.arriveSent = true ∧ t.own.outbox = s.own.outbox ++ [.control ctlArrive s.fab.kgen.toNat]) ∧
    (∀ dev, s.isManager = true → s.rekeying = true → s.fab.members.getLsbD dev = true → dev ≠ s.devid → s.hears = true →
      ∃ t, exec (.arrive dev) s = .next t ∧ dev ∈ t.fab.arrived) ∧
    (∀ gen, s.isMember = true → s.rekeying = true → s.fab.arriveSent = true → (s.isManager = true → s.allArrived = true) →
      (s.fab.kgen ≠ 0 → gen = s.fab.kgen + 1) → (s.isManager = true ∨ s.hears = true) → s.fab.sctx = [] → ∃ t, exec (.release gen) s = .next t ∧ t.fab.kgen = gen ∧ t.fab.rctx = [] ∧
        (s.fab.held = [] → t.rekeying = false) ∧
        ∀ peer cls p why, cls < 3 → s.fab.held = [(peer, cls, p, why)] → ∃ c ∈ t.fab.sctx, c.peer = peer ∧ c.cls = cls ∧ c.gen = gen.toNat ∧
          ∃ x ∈ c.pkts, x.purpose = why ∧ x.p.body = p.body) ∧
    (∀ dev, s.isManager = true → s.rekeying = true → dev ≠ s.devid → s.fab.members.getLsbD dev = true → dev ∉ s.fab.arrived →
      s.fab.rekeyAt + 160000000 ≤ s.clock.toNat → ∃ t, exec (.rekeyTimeout dev) s = .next t ∧ t.rekeying = true ∧
        ∀ d, t.fab.members.getLsbD d = (s.fab.members.getLsbD d && (d = s.devid || d ∈ s.fab.arrived)))

/-- R413, R414, R418 to R421: ports and the trust domain. -/
def Obligations.PortsAndTrust : Prop := Sys2Proof.Claims.Ports ∧ Sys2Proof.Claims.Membership

/-! ### The host, start-up and the debugger -/

/-- R452: host accesses of far memory. A read gives the bytes; a write stores them, but where fdecl has recorded the page, where it is discarded and counted; a dumped device discards writes.
The scheme of the host's accesses, and those to a device that does not operate, are the model's (log entries 42 and 81). -/
def Sys2Proof.Claims.HostAccesses : Prop :=
  ∀ (s : State) (addr : Nat), s.power = true →
    (∀ n, addr + n ≤ 2 ^ 39 → (s.operating = true ∨ s.mgmt.devstat.toNat % 8 = 4) → (∀ i, i < n → Clean s ownIl (addr + i) 1) →
      ∃ t, exec (.hostMemoryAccess addr n none) s = .next t ∧ t.mem = s.mem ∧ t.groups = s.groups ∧
        t.own.outbox = s.own.outbox ++ [.hostData (Mem.bytes s.mem addr n)]) ∧
    (∀ n bs, addr + bs.length ≤ 2 ^ 39 →
      (s.mgmt.devstat.toNat % 8 = 4 → exec (.hostMemoryAccess addr n (some bs)) s = .next s) ∧
      (s.operating = true → Sparse.get 0 s.mgmt.regions 2 = 0 →
        ((∀ i, i < bs.length → s.recorded (addr + i) = false ∧ Clean s ownIl (addr + i) 1) → ∃ t,
          exec (.hostMemoryAccess addr n (some bs)) s = .next t ∧ t.groups = s.groups ∧
          ∀ k, Mem.rd t.mem k = if addr ≤ k ∧ k < addr + bs.length then bs.getD (k - addr) 0 else Mem.rd s.mem k) ∧
        (bs ≠ [] → (∀ i, i < bs.length → s.recorded (addr + i) = true) → ∃ t, exec (.hostMemoryAccess addr n (some bs)) s = .next t ∧ t.mem = s.mem ∧
          t.groups = s.groups ∧ Sparse.get 0 t.mgmt.healthNew hcFieldW = Sparse.get 0 s.mgmt.healthNew hcFieldW + 1)))

/-- R318, R357, R418, R454 to R457: writes of the management space while the device operates.
That reserved bits read as zero is the model's choice (log entry 74). -/
def Sys2Proof.Claims.ManagementWrites : Prop :=
  ∀ s : State, s.power = true → s.operating = true →
    (∀ offset data, 64 ≤ offset → offset < 16384 → offset % 64 + data.length ≤ 64 →
      (s.ctxField (BitVec.ofNat 8 (offset / 64)) 56 1 % 2 = 0 → ∃ t, exec (.contextEntryWrite offset data) s = .next t ∧ t.mem = s.mem ∧ t.groups = s.groups ∧
        ∀ k, Mem.rd t.mgmt.ctxs k = if offset ≤ k ∧ k < offset + data.length then
            (if k % 64 < 56 then data.getD (k - offset) 0 else if k % 64 < 58 then data.getD (k - offset) 0 &&& 7 else 0)
          else Mem.rd s.mgmt.ctxs k) ∧
      (s.ctxField (BitVec.ofNat 8 (offset / 64)) 56 1 % 2 = 1 →
        (offset % 64 ≤ 56 → 56 < offset % 64 + data.length → (data.getD (56 - offset % 64) 0).getLsbD 0 = false →
          s.contextUsed (BitVec.ofNat 8 (offset / 64)) = true → exec (.contextEntryWrite offset data) s = .next s) ∧
        ((offset % 64 ≤ 56 ∧ 56 < offset % 64 + data.length → (data.getD (56 - offset % 64) 0).getLsbD 0 = true ∨
            s.contextUsed (BitVec.ofNat 8 (offset / 64)) = false) → ∃ t, exec (.contextEntryWrite offset data) s = .next t ∧ t.mem = s.mem ∧
          t.groups = s.groups ∧ ∀ k, Mem.rd t.mgmt.ctxs k = if offset ≤ k ∧ k < offset + data.length ∧ k % 64 = 56 then data.getD (k - offset) 0 &&& 7
            else Mem.rd s.mgmt.ctxs k))) ∧
    (∀ q v, q < 256 → v &&& 0xFFF4 = 0 → ∃ t, exec (.queueConfigWrite q v) s = .next t ∧ t.qcfg q = v ∧ ∀ k, k ≠ q → t.qcfg k = s.qcfg k) ∧
    (∀ o v, o < 256 → ∃ t, exec (.ownerEntryWrite o v) s = .next t ∧ t.mem = s.mem ∧ t.groups = s.groups ∧
      (∀ i, i < 8 → (t.node o).vopen.getLsbD i = v.getLsbD (8 + i)) ∧
      (o < 192 → v.toNat % 32 ≤ 22 → (t.node o).carveNew = v.toNat % 32 ∧
        (t.node o).carve = if s.reap.occupied o then (s.node o).carve else v.toNat % 32) ∧
      ((192 ≤ o ∨ 22 < v.toNat % 32) → (t.node o).carveNew = (s.node o).carveNew ∧ (t.node o).carve = (s.node o).carve)) ∧
    (∀ i v, i < 4 → (s.grids ≠ [] → exec (.regionRegisterWrite i v) s = .next s) ∧
      (s.grids = [] → ∃ t, exec (.regionRegisterWrite i v) s = .next t ∧ t.mem = s.mem ∧
        ∀ j, Sparse.get 0 t.mgmt.regions j = if j = i then v else Sparse.get 0 s.mgmt.regions j)) ∧
    (∀ k h c valid, k < 4096 → c < 256 → ∃ t e, exec (.cqRegistration k h c valid) s = .next t ∧ Sparse.find t.mgmt.cqs k = some e ∧ e.header = h ∧
      e.valid = valid ∧ e.ctx = BitVec.ofNat 8 c ∧ (valid = false → t.mem = s.mem)) ∧
    (∀ v, (∃ t, exec (.registerWrite 0x3008 v) s = .next t ∧ t.fab.dgup = v.truncate 32 ∧ t.mem = s.mem) ∧
      (∀ c, c < 256 → ∃ t, exec (.registerWrite (0x3080 + 4 * c) v) s = .next t ∧ t.mem = s.mem ∧
        Sparse.get 0 t.fab.dctxmap c = v.truncate 32 &&& 0x1FFFF) ∧
      (∀ o, o ≠ 0x3008 → (o < 0x3080 ∨ 0x3480 ≤ o) → exec (.registerWrite o v) s = .next s))

/-- R458 to R460: starts. A cold start leaves far memory zero and a warm one as it was, every slice zero, no group, and DEVSTAT READY with WARM as the start was; a start that fails at a step leaves
DEVSTAT FAILED with it, and far memory as it was; a configuration record that is not valid or is older than the floor fails step 3 (log entry 81). A power failure stops the device.
What a start that fails leaves is the model's choice (log entry 77). -/
def Sys2Proof.Claims.Starts : Prop :=
  ∀ (s : State) (i : StartInfo),
    (∀ p ∈ [(Instr.powerOn i, false, false), (.coldStart i, true, false), (.warmStart i, true, true)], s.power = p.2.1 →
      ∃ t, exec p.1 s = .next t ∧ t.power = true ∧ t.groups = [] ∧ t.blocks = [] ∧ t.grids = [] ∧
        (s.failingStep i p.2.2 = 0 → t.mgmt.devstat.toNat % 256 = 1 ∧ t.mgmt.devstat.toNat / 4096 = (if p.2.2 then 1 else 0) ∧
          t.mgmt.recver = i.version ∧ t.mgmt.serial = i.serial) ∧
        (s.failingStep i p.2.2 ≠ 0 → t.mgmt.devstat.toNat % 256 = 2 ∧ t.mgmt.devstat.toNat / 256 % 16 = s.failingStep i p.2.2) ∧
        ∀ k, Mem.rd t.mem k = if k < 2 ^ 39 ∧ (p.2.2 = true ∨ s.failingStep i p.2.2 ≠ 0) then Mem.rd s.mem k else 0) ∧
    (s.power = true → ∃ t, exec .powerFailure s = .next t ∧ t.power = false ∧ t.mem = s.mem)

/-- R354, R355, R405, R407, R410, R478: the debugger. A breakpoint halts the block before the instruction issues; resuming ends the halt, and WAKEWHY reads bit 6; a session attaches to a context whose
entry has VALID and DEBUG set; a step lets one group issue.
How comparators are armed and when a step is over are the model's (log entry 79). -/
def Sys2Proof.Claims.Debugger : Prop :=
  ∀ s : State,
    (∀ i g, s.group i = some g → s.canIssue g = true → s.breakHere g = true → ∃ t g' b', exec (.breakpoint i) s = .next t ∧ t.mem = s.mem ∧
      t.group i = some g' ∧ g'.ctl = g.ctl ∧ g'.regs = g.regs ∧ g'.sched.dhalt = true ∧ g'.sys.haltpc = g.ctl.pc ∧ t.block g.block = some b' ∧
      b'.dhalt = true) ∧
    (∀ k b, s.block k = some b → s.operating = true → b.dhalt = true → b.saved = none → s.stepOver = true →
      ∃ t b', exec (.debugResume k) s = .next t ∧ t.mem = s.mem ∧ t.block k = some b' ∧ b'.dhalt = false ∧ (t.node b.core).gated = false ∧
        (t.node b.core).wakewhy.getLsbD 6 = true ∧ ∀ i g, s.group i = some g → g.block = k → g.visitor = none → ∃ g', t.group i = some g' ∧
          g'.ctl = g.ctl ∧ g'.regs = g.regs ∧ g'.sched.dhalt = false ∧
          g'.sched.skidLeft = if b.evicting = true ∨ (b.thalt = true ∧ b.hgrp ≠ g.index) then some 0 else none) ∧
    (∀ c l, s.operating = true → 0 < c → c < 256 → s.ctxField (BitVec.ofNat 8 c) 56 1 % 2 = 1 → s.ctxField (BitVec.ofNat 8 c) 56 1 / 4 % 2 = 1 →
      ∃ t, exec (.cydbAttach c l) s = .next t ∧ c ∈ t.mgmt.debug ∧ t.mgmt.breaks = l ∧ t.mem = s.mem ∧ t.groups = s.groups) ∧
    (∀ c, c ∈ s.mgmt.debug → ∃ t, exec (.cydbDetach c) s = .next t ∧ c ∉ t.mgmt.debug ∧ t.mem = s.mem ∧ t.groups = s.groups) ∧
    (∀ i g b, s.group i = some g → s.block g.block = some b → s.operating = true → b.dhalt = true → b.saved = none → g.visitor = none →
      (g.sched.dhalt = true ∨ g.sched.skidLeft = some 0) → s.stepOver = true → ∃ t g', exec (.cydbStep i) s = .next t ∧ t.mem = s.mem ∧ t.own.cur = i ∧
        t.group i = some g' ∧ g'.ctl = g.ctl ∧ g'.regs = g.regs ∧ g'.sched.dhalt = false ∧ g'.sched.skidLeft = none ∧ (t.node g.owner).gated = false)

/-- R318, R354, R355, R357, R405, R407, R418, R452 to R460, R478: the host, start-up and the debugger. -/
def Obligations.HostStartAndDebug : Prop :=
  Sys2Proof.Claims.HostAccesses ∧ Sys2Proof.Claims.ManagementWrites ∧ Sys2Proof.Claims.Starts ∧ Sys2Proof.Claims.Debugger
end

