-- ==== Sys2Proof/Laws/Sparse.lean ====
section
/-! SUPPORT. Sparse maps and memory: read after write, and that every operation keeps the canonical form. -/

namespace Sys2Proof.Machine

open Sys2Proof

variable {α : Type}

@[simp] theorem Sparse.find_put_same (m : List (Nat × α)) (k : Nat) (v : α) : Sparse.find (Sparse.put m k v) k = some v := by
  induction m with
  | nil => simp [Sparse.put, Sparse.find]
  | cons p m ih =>
    obtain ⟨j, w⟩ := p
    by_cases h : k < j
    · simp [Sparse.put, h, Sparse.find]
    · by_cases e : j = k
      · subst e; simp [Sparse.put, Sparse.find]
      · simp [Sparse.put, h, e, Sparse.find, ih]

theorem Sparse.find_put_other (m : List (Nat × α)) {k j : Nat} (v : α) (h : j ≠ k) :
    Sparse.find (Sparse.put m k v) j = Sparse.find m j := by
  induction m with
  | nil => simp [Sparse.put, Sparse.find, Ne.symm h]
  | cons p m ih =>
    obtain ⟨i, w⟩ := p
    by_cases hk : k < i
    · simp [Sparse.put, hk, Sparse.find, Ne.symm h]
    · by_cases e : i = k
      · subst e; simp [Sparse.put, Sparse.find, Ne.symm h]
      · simp only [Sparse.put, hk, e, if_false, Sparse.find]
        split
        · rfl
        · exact ih

@[simp] theorem Sparse.find_del_same (m : List (Nat × α)) (k : Nat) : Sparse.find (Sparse.del m k) k = none := by
  induction m with
  | nil => rfl
  | cons p m ih =>
    obtain ⟨i, w⟩ := p
    by_cases e : i = k
    · simp [Sparse.del, e, ih]
    · simp [Sparse.del, e, Sparse.find, ih]

theorem Sparse.find_del_other (m : List (Nat × α)) {k j : Nat} (h : j ≠ k) :
    Sparse.find (Sparse.del m k) j = Sparse.find m j := by
  induction m with
  | nil => rfl
  | cons p m ih =>
    obtain ⟨i, w⟩ := p
    by_cases e : i = k
    · subst e; simp [Sparse.del, ih, Sparse.find, Ne.symm h]
    · simp only [Sparse.del, e, if_false, Sparse.find]
      split
      · rfl
      · exact ih

/-! ### The canonical form -/

/-- Every key of a sorted list's tail lies above its head. -/
theorem Sparse.sorted_cons {j : Nat} {w : α} {m : List (Nat × α)} :
    Sparse.sorted ((j, w) :: m) = true ↔ (∀ p ∈ m, j < p.1) ∧ Sparse.sorted m = true := by
  induction m generalizing j w with
  | nil => simp [Sparse.sorted]
  | cons p m ih =>
    obtain ⟨k, x⟩ := p
    simp only [Sparse.sorted, Bool.and_eq_true, decide_eq_true_eq, List.mem_cons, forall_eq_or_imp]
    constructor
    · rintro ⟨h, hs⟩
      exact ⟨⟨h, fun q hq => lt_trans h ((ih.mp hs).1 q hq)⟩, hs⟩
    · rintro ⟨⟨h, -⟩, hs⟩
      exact ⟨h, hs⟩

theorem Sparse.mem_put {m : List (Nat × α)} {k : Nat} {v : α} {p : Nat × α} (h : p ∈ Sparse.put m k v) :
    p = (k, v) ∨ p ∈ m := by
  induction m with
  | nil => simpa [Sparse.put] using h
  | cons q m ih =>
    obtain ⟨j, w⟩ := q
    by_cases hk : k < j
    · simpa [Sparse.put, hk] using h
    · by_cases e : j = k
      · subst e
        simp only [Sparse.put, lt_irrefl, if_false, if_true, List.mem_cons] at h
        rcases h with h | h
        · exact .inl h
        · exact .inr (List.mem_cons_of_mem _ h)
      · simp only [Sparse.put, hk, e, if_false, List.mem_cons] at h
        rcases h with h | h
        · exact .inr (by simp [h])
        · rcases ih h with h | h
          · exact .inl h
          · exact .inr (List.mem_cons_of_mem _ h)

theorem Sparse.mem_del {m : List (Nat × α)} {k : Nat} {p : Nat × α} (h : p ∈ Sparse.del m k) : p ∈ m := by
  induction m with
  | nil => simp [Sparse.del] at h
  | cons q m ih =>
    obtain ⟨j, w⟩ := q
    by_cases e : j = k
    · simp only [Sparse.del, e, if_true] at h
      exact List.mem_cons_of_mem _ (ih h)
    · simp only [Sparse.del, e, if_false, List.mem_cons] at h
      rcases h with h | h
      · simp [h]
      · exact List.mem_cons_of_mem _ (ih h)

theorem Sparse.sorted_put (m : List (Nat × α)) (k : Nat) (v : α) (h : Sparse.sorted m = true) :
    Sparse.sorted (Sparse.put m k v) = true := by
  induction m with
  | nil => rfl
  | cons q m ih =>
    obtain ⟨j, w⟩ := q
    have hq := Sparse.sorted_cons.mp h
    by_cases hk : k < j
    · simp only [Sparse.put, hk, if_true]
      refine Sparse.sorted_cons.mpr ⟨?_, h⟩
      intro p hp
      rcases List.mem_cons.mp hp with hp | hp
      · simpa [hp] using hk
      · exact lt_trans hk (hq.1 p hp)
    · by_cases e : j = k
      · subst e
        simp only [Sparse.put, lt_irrefl, if_false, if_true]
        exact Sparse.sorted_cons.mpr hq
      · simp only [Sparse.put, hk, e, if_false]
        refine Sparse.sorted_cons.mpr ⟨?_, ih hq.2⟩
        intro p hp
        rcases Sparse.mem_put hp with hp | hp
        · simp [hp]; omega
        · exact hq.1 p hp

theorem Sparse.sorted_del (m : List (Nat × α)) (k : Nat) (h : Sparse.sorted m = true) :
    Sparse.sorted (Sparse.del m k) = true := by
  induction m with
  | nil => rfl
  | cons q m ih =>
    obtain ⟨j, w⟩ := q
    have hq := Sparse.sorted_cons.mp h
    by_cases e : j = k
    · simp only [Sparse.del, e, if_true]; exact ih hq.2
    · simp only [Sparse.del, e, if_false]
      exact Sparse.sorted_cons.mpr ⟨fun p hp => hq.1 p (Sparse.mem_del hp), ih hq.2⟩

variable [DecidableEq α]

@[simp] theorem Sparse.get_set_same (d : α) (m : List (Nat × α)) (k : Nat) (v : α) :
    Sparse.get d (Sparse.set d m k v) k = v := by
  unfold Sparse.get Sparse.set
  split <;> simp_all

theorem Sparse.get_set_other (d : α) (m : List (Nat × α)) {k j : Nat} (v : α) (h : j ≠ k) :
    Sparse.get d (Sparse.set d m k v) j = Sparse.get d m j := by
  unfold Sparse.get Sparse.set
  split
  · rw [Sparse.find_del_other m h]
  · rw [Sparse.find_put_other m v h]

theorem Sparse.wf_set (d : α) (m : List (Nat × α)) (k : Nat) (v : α) (h : Sparse.wf d m = true) :
    Sparse.wf d (Sparse.set d m k v) = true := by
  simp only [Sparse.wf, Bool.and_eq_true, List.all_eq_true] at h ⊢
  unfold Sparse.set
  split
  · exact ⟨Sparse.sorted_del m k h.1, fun p hp => h.2 p (Sparse.mem_del hp)⟩
  · rename_i hv
    refine ⟨Sparse.sorted_put m k v h.1, fun p hp => ?_⟩
    rcases Sparse.mem_put hp with hp | hp
    · simp [hp, hv]
    · exact h.2 p hp

/-! ### Memory -/

@[simp] theorem Mem.rd_wr_same (m : Mem) (k : Nat) (b : Byte) : Mem.rd (Mem.wr m k b) k = b := by
  simp [Mem.rd, Mem.wr]

theorem Mem.rd_wr_other (m : Mem) {k j : Nat} (b : Byte) (h : j ≠ k) : Mem.rd (Mem.wr m k b) j = Mem.rd m j :=
  Sparse.get_set_other _ m b h

theorem Mem.wf_wr (m : Mem) (k : Nat) (b : Byte) (h : Mem.wf m = true) : Mem.wf (Mem.wr m k b) = true :=
  Sparse.wf_set _ m k b h

theorem Mem.wf_wrBytes (m : Mem) (k : Nat) (bs : List Byte) (h : Mem.wf m = true) :
    Mem.wf (Mem.wrBytes m k bs) = true := by
  induction bs generalizing m k with
  | nil => exact h
  | cons b bs ih => exact ih _ _ (Mem.wf_wr m k b h)

theorem Mem.rd_wrBytes_outside (m : Mem) (k : Nat) (bs : List Byte) {j : Nat} (h : j < k ∨ k + bs.length ≤ j) :
    Mem.rd (Mem.wrBytes m k bs) j = Mem.rd m j := by
  induction bs generalizing m k with
  | nil => rfl
  | cons b bs ih =>
    simp only [List.length_cons] at h
    rw [Mem.wrBytes, ih (Mem.wr m k b) (k + 1) (by omega)]
    exact Mem.rd_wr_other m b (by omega)

theorem Mem.rd_wrBytes_inside (m : Mem) (k : Nat) (bs : List Byte) {i : Nat} (h : i < bs.length) :
    Mem.rd (Mem.wrBytes m k bs) (k + i) = bs[i] := by
  induction bs generalizing m k i with
  | nil => simp at h
  | cons b bs ih =>
    cases i with
    | zero =>
      rw [Mem.wrBytes, Nat.add_zero, Mem.rd_wrBytes_outside _ _ _ (by omega)]
      simp
    | succ i =>
      have := ih (Mem.wr m k b) (k + 1) (i := i) (by simpa using h)
      rw [Mem.wrBytes, show k + (i + 1) = k + 1 + i by omega, this]
      simp

end Sys2Proof.Machine
end

