-- ==== Sys2Proof/Laws/State.lean ====
section
/-! SUPPORT. One lemma for each field of the state under each update of it, and of a group under each update of a group. -/

namespace Sys2Proof.Machine

open Sys2Proof

/-! ### setGroup -/

@[simp] theorem State.setGroup_own (s : State) (gid : Nat) (g : Group) : (s.setGroup gid g).own = s.own := rfl
@[simp] theorem State.setGroup_power (s : State) (gid : Nat) (g : Group) : (s.setGroup gid g).power = s.power := rfl
@[simp] theorem State.setGroup_clock (s : State) (gid : Nat) (g : Group) : (s.setGroup gid g).clock = s.clock := rfl
@[simp] theorem State.setGroup_mem (s : State) (gid : Nat) (g : Group) : (s.setGroup gid g).mem = s.mem := rfl
@[simp] theorem State.setGroup_blocks (s : State) (gid : Nat) (g : Group) : (s.setGroup gid g).blocks = s.blocks := rfl
@[simp] theorem State.setGroup_grids (s : State) (gid : Nat) (g : Group) : (s.setGroup gid g).grids = s.grids := rfl
@[simp] theorem State.setGroup_nodes (s : State) (gid : Nat) (g : Group) : (s.setGroup gid g).nodes = s.nodes := rfl
@[simp] theorem State.setGroup_accs (s : State) (gid : Nat) (g : Group) : (s.setGroup gid g).accs = s.accs := rfl
@[simp] theorem State.setGroup_l2 (s : State) (gid : Nat) (g : Group) : (s.setGroup gid g).l2 = s.l2 := rfl
@[simp] theorem State.setGroup_cmds (s : State) (gid : Nat) (g : Group) : (s.setGroup gid g).cmds = s.cmds := rfl
@[simp] theorem State.setGroup_mops (s : State) (gid : Nat) (g : Group) : (s.setGroup gid g).mops = s.mops := rfl
@[simp] theorem State.setGroup_conts (s : State) (gid : Nat) (g : Group) : (s.setGroup gid g).conts = s.conts := rfl
@[simp] theorem State.setGroup_rets (s : State) (gid : Nat) (g : Group) : (s.setGroup gid g).rets = s.rets := rfl
@[simp] theorem State.setGroup_lands (s : State) (gid : Nat) (g : Group) : (s.setGroup gid g).lands = s.lands := rfl
@[simp] theorem State.setGroup_invals (s : State) (gid : Nat) (g : Group) : (s.setGroup gid g).invals = s.invals := rfl
@[simp] theorem State.setGroup_dist (s : State) (gid : Nat) (g : Group) : (s.setGroup gid g).dist = s.dist := rfl
@[simp] theorem State.setGroup_fld (s : State) (gid : Nat) (g : Group) : (s.setGroup gid g).fld = s.fld := rfl
@[simp] theorem State.setGroup_fab (s : State) (gid : Nat) (g : Group) : (s.setGroup gid g).fab = s.fab := rfl
@[simp] theorem State.setGroup_mgmt (s : State) (gid : Nat) (g : Group) : (s.setGroup gid g).mgmt = s.mgmt := rfl
@[simp] theorem State.setGroup_dram (s : State) (gid : Nat) (g : Group) : (s.setGroup gid g).dram = s.dram := rfl

/-! ### dropGroup -/

@[simp] theorem State.dropGroup_own (s : State) (gid : Nat) : (s.dropGroup gid).own = s.own := rfl
@[simp] theorem State.dropGroup_power (s : State) (gid : Nat) : (s.dropGroup gid).power = s.power := rfl
@[simp] theorem State.dropGroup_clock (s : State) (gid : Nat) : (s.dropGroup gid).clock = s.clock := rfl
@[simp] theorem State.dropGroup_mem (s : State) (gid : Nat) : (s.dropGroup gid).mem = s.mem := rfl
@[simp] theorem State.dropGroup_blocks (s : State) (gid : Nat) : (s.dropGroup gid).blocks = s.blocks := rfl
@[simp] theorem State.dropGroup_grids (s : State) (gid : Nat) : (s.dropGroup gid).grids = s.grids := rfl
@[simp] theorem State.dropGroup_nodes (s : State) (gid : Nat) : (s.dropGroup gid).nodes = s.nodes := rfl
@[simp] theorem State.dropGroup_accs (s : State) (gid : Nat) : (s.dropGroup gid).accs = s.accs := rfl
@[simp] theorem State.dropGroup_l2 (s : State) (gid : Nat) : (s.dropGroup gid).l2 = s.l2 := rfl
@[simp] theorem State.dropGroup_cmds (s : State) (gid : Nat) : (s.dropGroup gid).cmds = s.cmds := rfl
@[simp] theorem State.dropGroup_mops (s : State) (gid : Nat) : (s.dropGroup gid).mops = s.mops := rfl
@[simp] theorem State.dropGroup_conts (s : State) (gid : Nat) : (s.dropGroup gid).conts = s.conts := rfl
@[simp] theorem State.dropGroup_rets (s : State) (gid : Nat) : (s.dropGroup gid).rets = s.rets := rfl
@[simp] theorem State.dropGroup_lands (s : State) (gid : Nat) : (s.dropGroup gid).lands = s.lands := rfl
@[simp] theorem State.dropGroup_invals (s : State) (gid : Nat) : (s.dropGroup gid).invals = s.invals := rfl
@[simp] theorem State.dropGroup_dist (s : State) (gid : Nat) : (s.dropGroup gid).dist = s.dist := rfl
@[simp] theorem State.dropGroup_fld (s : State) (gid : Nat) : (s.dropGroup gid).fld = s.fld := rfl
@[simp] theorem State.dropGroup_fab (s : State) (gid : Nat) : (s.dropGroup gid).fab = s.fab := rfl
@[simp] theorem State.dropGroup_mgmt (s : State) (gid : Nat) : (s.dropGroup gid).mgmt = s.mgmt := rfl
@[simp] theorem State.dropGroup_dram (s : State) (gid : Nat) : (s.dropGroup gid).dram = s.dram := rfl

/-! ### setBlock -/

@[simp] theorem State.setBlock_own (s : State) (b : Nat) (x : Block) : (s.setBlock b x).own = s.own := rfl
@[simp] theorem State.setBlock_power (s : State) (b : Nat) (x : Block) : (s.setBlock b x).power = s.power := rfl
@[simp] theorem State.setBlock_clock (s : State) (b : Nat) (x : Block) : (s.setBlock b x).clock = s.clock := rfl
@[simp] theorem State.setBlock_mem (s : State) (b : Nat) (x : Block) : (s.setBlock b x).mem = s.mem := rfl
@[simp] theorem State.setBlock_groups (s : State) (b : Nat) (x : Block) : (s.setBlock b x).groups = s.groups := rfl
@[simp] theorem State.setBlock_grids (s : State) (b : Nat) (x : Block) : (s.setBlock b x).grids = s.grids := rfl
@[simp] theorem State.setBlock_nodes (s : State) (b : Nat) (x : Block) : (s.setBlock b x).nodes = s.nodes := rfl
@[simp] theorem State.setBlock_accs (s : State) (b : Nat) (x : Block) : (s.setBlock b x).accs = s.accs := rfl
@[simp] theorem State.setBlock_l2 (s : State) (b : Nat) (x : Block) : (s.setBlock b x).l2 = s.l2 := rfl
@[simp] theorem State.setBlock_cmds (s : State) (b : Nat) (x : Block) : (s.setBlock b x).cmds = s.cmds := rfl
@[simp] theorem State.setBlock_mops (s : State) (b : Nat) (x : Block) : (s.setBlock b x).mops = s.mops := rfl
@[simp] theorem State.setBlock_conts (s : State) (b : Nat) (x : Block) : (s.setBlock b x).conts = s.conts := rfl
@[simp] theorem State.setBlock_rets (s : State) (b : Nat) (x : Block) : (s.setBlock b x).rets = s.rets := rfl
@[simp] theorem State.setBlock_lands (s : State) (b : Nat) (x : Block) : (s.setBlock b x).lands = s.lands := rfl
@[simp] theorem State.setBlock_invals (s : State) (b : Nat) (x : Block) : (s.setBlock b x).invals = s.invals := rfl
@[simp] theorem State.setBlock_dist (s : State) (b : Nat) (x : Block) : (s.setBlock b x).dist = s.dist := rfl
@[simp] theorem State.setBlock_fld (s : State) (b : Nat) (x : Block) : (s.setBlock b x).fld = s.fld := rfl
@[simp] theorem State.setBlock_fab (s : State) (b : Nat) (x : Block) : (s.setBlock b x).fab = s.fab := rfl
@[simp] theorem State.setBlock_mgmt (s : State) (b : Nat) (x : Block) : (s.setBlock b x).mgmt = s.mgmt := rfl
@[simp] theorem State.setBlock_dram (s : State) (b : Nat) (x : Block) : (s.setBlock b x).dram = s.dram := rfl

/-! ### setGrid -/

@[simp] theorem State.setGrid_own (s : State) (k : Nat) (x : Grid) : (s.setGrid k x).own = s.own := rfl
@[simp] theorem State.setGrid_power (s : State) (k : Nat) (x : Grid) : (s.setGrid k x).power = s.power := rfl
@[simp] theorem State.setGrid_clock (s : State) (k : Nat) (x : Grid) : (s.setGrid k x).clock = s.clock := rfl
@[simp] theorem State.setGrid_mem (s : State) (k : Nat) (x : Grid) : (s.setGrid k x).mem = s.mem := rfl
@[simp] theorem State.setGrid_groups (s : State) (k : Nat) (x : Grid) : (s.setGrid k x).groups = s.groups := rfl
@[simp] theorem State.setGrid_blocks (s : State) (k : Nat) (x : Grid) : (s.setGrid k x).blocks = s.blocks := rfl
@[simp] theorem State.setGrid_nodes (s : State) (k : Nat) (x : Grid) : (s.setGrid k x).nodes = s.nodes := rfl
@[simp] theorem State.setGrid_accs (s : State) (k : Nat) (x : Grid) : (s.setGrid k x).accs = s.accs := rfl
@[simp] theorem State.setGrid_l2 (s : State) (k : Nat) (x : Grid) : (s.setGrid k x).l2 = s.l2 := rfl
@[simp] theorem State.setGrid_cmds (s : State) (k : Nat) (x : Grid) : (s.setGrid k x).cmds = s.cmds := rfl
@[simp] theorem State.setGrid_mops (s : State) (k : Nat) (x : Grid) : (s.setGrid k x).mops = s.mops := rfl
@[simp] theorem State.setGrid_conts (s : State) (k : Nat) (x : Grid) : (s.setGrid k x).conts = s.conts := rfl
@[simp] theorem State.setGrid_rets (s : State) (k : Nat) (x : Grid) : (s.setGrid k x).rets = s.rets := rfl
@[simp] theorem State.setGrid_lands (s : State) (k : Nat) (x : Grid) : (s.setGrid k x).lands = s.lands := rfl
@[simp] theorem State.setGrid_invals (s : State) (k : Nat) (x : Grid) : (s.setGrid k x).invals = s.invals := rfl
@[simp] theorem State.setGrid_dist (s : State) (k : Nat) (x : Grid) : (s.setGrid k x).dist = s.dist := rfl
@[simp] theorem State.setGrid_fld (s : State) (k : Nat) (x : Grid) : (s.setGrid k x).fld = s.fld := rfl
@[simp] theorem State.setGrid_fab (s : State) (k : Nat) (x : Grid) : (s.setGrid k x).fab = s.fab := rfl
@[simp] theorem State.setGrid_mgmt (s : State) (k : Nat) (x : Grid) : (s.setGrid k x).mgmt = s.mgmt := rfl
@[simp] theorem State.setGrid_dram (s : State) (k : Nat) (x : Grid) : (s.setGrid k x).dram = s.dram := rfl

/-! ### setNode -/

@[simp] theorem State.setNode_own (s : State) (n : Nat) (x : Node) : (s.setNode n x).own = s.own := rfl
@[simp] theorem State.setNode_power (s : State) (n : Nat) (x : Node) : (s.setNode n x).power = s.power := rfl
@[simp] theorem State.setNode_clock (s : State) (n : Nat) (x : Node) : (s.setNode n x).clock = s.clock := rfl
@[simp] theorem State.setNode_mem (s : State) (n : Nat) (x : Node) : (s.setNode n x).mem = s.mem := rfl
@[simp] theorem State.setNode_groups (s : State) (n : Nat) (x : Node) : (s.setNode n x).groups = s.groups := rfl
@[simp] theorem State.setNode_blocks (s : State) (n : Nat) (x : Node) : (s.setNode n x).blocks = s.blocks := rfl
@[simp] theorem State.setNode_grids (s : State) (n : Nat) (x : Node) : (s.setNode n x).grids = s.grids := rfl
@[simp] theorem State.setNode_accs (s : State) (n : Nat) (x : Node) : (s.setNode n x).accs = s.accs := rfl
@[simp] theorem State.setNode_l2 (s : State) (n : Nat) (x : Node) : (s.setNode n x).l2 = s.l2 := rfl
@[simp] theorem State.setNode_cmds (s : State) (n : Nat) (x : Node) : (s.setNode n x).cmds = s.cmds := rfl
@[simp] theorem State.setNode_mops (s : State) (n : Nat) (x : Node) : (s.setNode n x).mops = s.mops := rfl
@[simp] theorem State.setNode_conts (s : State) (n : Nat) (x : Node) : (s.setNode n x).conts = s.conts := rfl
@[simp] theorem State.setNode_rets (s : State) (n : Nat) (x : Node) : (s.setNode n x).rets = s.rets := rfl
@[simp] theorem State.setNode_lands (s : State) (n : Nat) (x : Node) : (s.setNode n x).lands = s.lands := rfl
@[simp] theorem State.setNode_invals (s : State) (n : Nat) (x : Node) : (s.setNode n x).invals = s.invals := rfl
@[simp] theorem State.setNode_dist (s : State) (n : Nat) (x : Node) : (s.setNode n x).dist = s.dist := rfl
@[simp] theorem State.setNode_fld (s : State) (n : Nat) (x : Node) : (s.setNode n x).fld = s.fld := rfl
@[simp] theorem State.setNode_fab (s : State) (n : Nat) (x : Node) : (s.setNode n x).fab = s.fab := rfl
@[simp] theorem State.setNode_mgmt (s : State) (n : Nat) (x : Node) : (s.setNode n x).mgmt = s.mgmt := rfl
@[simp] theorem State.setNode_dram (s : State) (n : Nat) (x : Node) : (s.setNode n x).dram = s.dram := rfl

/-! ### modNode -/

@[simp] theorem State.modNode_own (s : State) (n : Nat) (f : Node → Node) : (s.modNode n f).own = s.own := rfl
@[simp] theorem State.modNode_power (s : State) (n : Nat) (f : Node → Node) : (s.modNode n f).power = s.power := rfl
@[simp] theorem State.modNode_clock (s : State) (n : Nat) (f : Node → Node) : (s.modNode n f).clock = s.clock := rfl
@[simp] theorem State.modNode_mem (s : State) (n : Nat) (f : Node → Node) : (s.modNode n f).mem = s.mem := rfl
@[simp] theorem State.modNode_groups (s : State) (n : Nat) (f : Node → Node) : (s.modNode n f).groups = s.groups := rfl
@[simp] theorem State.modNode_blocks (s : State) (n : Nat) (f : Node → Node) : (s.modNode n f).blocks = s.blocks := rfl
@[simp] theorem State.modNode_grids (s : State) (n : Nat) (f : Node → Node) : (s.modNode n f).grids = s.grids := rfl
@[simp] theorem State.modNode_accs (s : State) (n : Nat) (f : Node → Node) : (s.modNode n f).accs = s.accs := rfl
@[simp] theorem State.modNode_l2 (s : State) (n : Nat) (f : Node → Node) : (s.modNode n f).l2 = s.l2 := rfl
@[simp] theorem State.modNode_cmds (s : State) (n : Nat) (f : Node → Node) : (s.modNode n f).cmds = s.cmds := rfl
@[simp] theorem State.modNode_mops (s : State) (n : Nat) (f : Node → Node) : (s.modNode n f).mops = s.mops := rfl
@[simp] theorem State.modNode_conts (s : State) (n : Nat) (f : Node → Node) : (s.modNode n f).conts = s.conts := rfl
@[simp] theorem State.modNode_rets (s : State) (n : Nat) (f : Node → Node) : (s.modNode n f).rets = s.rets := rfl
@[simp] theorem State.modNode_lands (s : State) (n : Nat) (f : Node → Node) : (s.modNode n f).lands = s.lands := rfl
@[simp] theorem State.modNode_invals (s : State) (n : Nat) (f : Node → Node) : (s.modNode n f).invals = s.invals := rfl
@[simp] theorem State.modNode_dist (s : State) (n : Nat) (f : Node → Node) : (s.modNode n f).dist = s.dist := rfl
@[simp] theorem State.modNode_fld (s : State) (n : Nat) (f : Node → Node) : (s.modNode n f).fld = s.fld := rfl
@[simp] theorem State.modNode_fab (s : State) (n : Nat) (f : Node → Node) : (s.modNode n f).fab = s.fab := rfl
@[simp] theorem State.modNode_mgmt (s : State) (n : Nat) (f : Node → Node) : (s.modNode n f).mgmt = s.mgmt := rfl
@[simp] theorem State.modNode_dram (s : State) (n : Nat) (f : Node → Node) : (s.modNode n f).dram = s.dram := rfl

/-! ### mapNodes -/

@[simp] theorem State.mapNodes_own (s : State) (f : Node → Node) : (s.mapNodes f).own = s.own := rfl
@[simp] theorem State.mapNodes_power (s : State) (f : Node → Node) : (s.mapNodes f).power = s.power := rfl
@[simp] theorem State.mapNodes_clock (s : State) (f : Node → Node) : (s.mapNodes f).clock = s.clock := rfl
@[simp] theorem State.mapNodes_mem (s : State) (f : Node → Node) : (s.mapNodes f).mem = s.mem := rfl
@[simp] theorem State.mapNodes_groups (s : State) (f : Node → Node) : (s.mapNodes f).groups = s.groups := rfl
@[simp] theorem State.mapNodes_blocks (s : State) (f : Node → Node) : (s.mapNodes f).blocks = s.blocks := rfl
@[simp] theorem State.mapNodes_grids (s : State) (f : Node → Node) : (s.mapNodes f).grids = s.grids := rfl
@[simp] theorem State.mapNodes_accs (s : State) (f : Node → Node) : (s.mapNodes f).accs = s.accs := rfl
@[simp] theorem State.mapNodes_l2 (s : State) (f : Node → Node) : (s.mapNodes f).l2 = s.l2 := rfl
@[simp] theorem State.mapNodes_cmds (s : State) (f : Node → Node) : (s.mapNodes f).cmds = s.cmds := rfl
@[simp] theorem State.mapNodes_mops (s : State) (f : Node → Node) : (s.mapNodes f).mops = s.mops := rfl
@[simp] theorem State.mapNodes_conts (s : State) (f : Node → Node) : (s.mapNodes f).conts = s.conts := rfl
@[simp] theorem State.mapNodes_rets (s : State) (f : Node → Node) : (s.mapNodes f).rets = s.rets := rfl
@[simp] theorem State.mapNodes_lands (s : State) (f : Node → Node) : (s.mapNodes f).lands = s.lands := rfl
@[simp] theorem State.mapNodes_invals (s : State) (f : Node → Node) : (s.mapNodes f).invals = s.invals := rfl
@[simp] theorem State.mapNodes_dist (s : State) (f : Node → Node) : (s.mapNodes f).dist = s.dist := rfl
@[simp] theorem State.mapNodes_fld (s : State) (f : Node → Node) : (s.mapNodes f).fld = s.fld := rfl
@[simp] theorem State.mapNodes_fab (s : State) (f : Node → Node) : (s.mapNodes f).fab = s.fab := rfl
@[simp] theorem State.mapNodes_mgmt (s : State) (f : Node → Node) : (s.mapNodes f).mgmt = s.mgmt := rfl
@[simp] theorem State.mapNodes_dram (s : State) (f : Node → Node) : (s.mapNodes f).dram = s.dram := rfl

/-! ### mapGroups -/

@[simp] theorem State.mapGroups_own (s : State) (f : Nat → Group → Group) : (s.mapGroups f).own = s.own := rfl
@[simp] theorem State.mapGroups_power (s : State) (f : Nat → Group → Group) : (s.mapGroups f).power = s.power := rfl
@[simp] theorem State.mapGroups_clock (s : State) (f : Nat → Group → Group) : (s.mapGroups f).clock = s.clock := rfl
@[simp] theorem State.mapGroups_mem (s : State) (f : Nat → Group → Group) : (s.mapGroups f).mem = s.mem := rfl
@[simp] theorem State.mapGroups_blocks (s : State) (f : Nat → Group → Group) : (s.mapGroups f).blocks = s.blocks := rfl
@[simp] theorem State.mapGroups_grids (s : State) (f : Nat → Group → Group) : (s.mapGroups f).grids = s.grids := rfl
@[simp] theorem State.mapGroups_nodes (s : State) (f : Nat → Group → Group) : (s.mapGroups f).nodes = s.nodes := rfl
@[simp] theorem State.mapGroups_accs (s : State) (f : Nat → Group → Group) : (s.mapGroups f).accs = s.accs := rfl
@[simp] theorem State.mapGroups_l2 (s : State) (f : Nat → Group → Group) : (s.mapGroups f).l2 = s.l2 := rfl
@[simp] theorem State.mapGroups_cmds (s : State) (f : Nat → Group → Group) : (s.mapGroups f).cmds = s.cmds := rfl
@[simp] theorem State.mapGroups_mops (s : State) (f : Nat → Group → Group) : (s.mapGroups f).mops = s.mops := rfl
@[simp] theorem State.mapGroups_conts (s : State) (f : Nat → Group → Group) : (s.mapGroups f).conts = s.conts := rfl
@[simp] theorem State.mapGroups_rets (s : State) (f : Nat → Group → Group) : (s.mapGroups f).rets = s.rets := rfl
@[simp] theorem State.mapGroups_lands (s : State) (f : Nat → Group → Group) : (s.mapGroups f).lands = s.lands := rfl
@[simp] theorem State.mapGroups_invals (s : State) (f : Nat → Group → Group) : (s.mapGroups f).invals = s.invals := rfl
@[simp] theorem State.mapGroups_dist (s : State) (f : Nat → Group → Group) : (s.mapGroups f).dist = s.dist := rfl
@[simp] theorem State.mapGroups_fld (s : State) (f : Nat → Group → Group) : (s.mapGroups f).fld = s.fld := rfl
@[simp] theorem State.mapGroups_fab (s : State) (f : Nat → Group → Group) : (s.mapGroups f).fab = s.fab := rfl
@[simp] theorem State.mapGroups_mgmt (s : State) (f : Nat → Group → Group) : (s.mapGroups f).mgmt = s.mgmt := rfl
@[simp] theorem State.mapGroups_dram (s : State) (f : Nat → Group → Group) : (s.mapGroups f).dram = s.dram := rfl

/-! ### newId -/

@[simp] theorem State.newId_power (s : State) : (s.newId).power = s.power := rfl
@[simp] theorem State.newId_clock (s : State) : (s.newId).clock = s.clock := rfl
@[simp] theorem State.newId_mem (s : State) : (s.newId).mem = s.mem := rfl
@[simp] theorem State.newId_groups (s : State) : (s.newId).groups = s.groups := rfl
@[simp] theorem State.newId_blocks (s : State) : (s.newId).blocks = s.blocks := rfl
@[simp] theorem State.newId_grids (s : State) : (s.newId).grids = s.grids := rfl
@[simp] theorem State.newId_nodes (s : State) : (s.newId).nodes = s.nodes := rfl
@[simp] theorem State.newId_accs (s : State) : (s.newId).accs = s.accs := rfl
@[simp] theorem State.newId_l2 (s : State) : (s.newId).l2 = s.l2 := rfl
@[simp] theorem State.newId_cmds (s : State) : (s.newId).cmds = s.cmds := rfl
@[simp] theorem State.newId_mops (s : State) : (s.newId).mops = s.mops := rfl
@[simp] theorem State.newId_conts (s : State) : (s.newId).conts = s.conts := rfl
@[simp] theorem State.newId_rets (s : State) : (s.newId).rets = s.rets := rfl
@[simp] theorem State.newId_lands (s : State) : (s.newId).lands = s.lands := rfl
@[simp] theorem State.newId_invals (s : State) : (s.newId).invals = s.invals := rfl
@[simp] theorem State.newId_dist (s : State) : (s.newId).dist = s.dist := rfl
@[simp] theorem State.newId_fld (s : State) : (s.newId).fld = s.fld := rfl
@[simp] theorem State.newId_fab (s : State) : (s.newId).fab = s.fab := rfl
@[simp] theorem State.newId_mgmt (s : State) : (s.newId).mgmt = s.mgmt := rfl
@[simp] theorem State.newId_dram (s : State) : (s.newId).dram = s.dram := rfl

/-! ### newSeq -/

@[simp] theorem State.newSeq_power (s : State) : (s.newSeq).power = s.power := rfl
@[simp] theorem State.newSeq_clock (s : State) : (s.newSeq).clock = s.clock := rfl
@[simp] theorem State.newSeq_mem (s : State) : (s.newSeq).mem = s.mem := rfl
@[simp] theorem State.newSeq_groups (s : State) : (s.newSeq).groups = s.groups := rfl
@[simp] theorem State.newSeq_blocks (s : State) : (s.newSeq).blocks = s.blocks := rfl
@[simp] theorem State.newSeq_grids (s : State) : (s.newSeq).grids = s.grids := rfl
@[simp] theorem State.newSeq_nodes (s : State) : (s.newSeq).nodes = s.nodes := rfl
@[simp] theorem State.newSeq_accs (s : State) : (s.newSeq).accs = s.accs := rfl
@[simp] theorem State.newSeq_l2 (s : State) : (s.newSeq).l2 = s.l2 := rfl
@[simp] theorem State.newSeq_cmds (s : State) : (s.newSeq).cmds = s.cmds := rfl
@[simp] theorem State.newSeq_mops (s : State) : (s.newSeq).mops = s.mops := rfl
@[simp] theorem State.newSeq_conts (s : State) : (s.newSeq).conts = s.conts := rfl
@[simp] theorem State.newSeq_rets (s : State) : (s.newSeq).rets = s.rets := rfl
@[simp] theorem State.newSeq_lands (s : State) : (s.newSeq).lands = s.lands := rfl
@[simp] theorem State.newSeq_invals (s : State) : (s.newSeq).invals = s.invals := rfl
@[simp] theorem State.newSeq_dist (s : State) : (s.newSeq).dist = s.dist := rfl
@[simp] theorem State.newSeq_fld (s : State) : (s.newSeq).fld = s.fld := rfl
@[simp] theorem State.newSeq_fab (s : State) : (s.newSeq).fab = s.fab := rfl
@[simp] theorem State.newSeq_mgmt (s : State) : (s.newSeq).mgmt = s.mgmt := rfl
@[simp] theorem State.newSeq_dram (s : State) : (s.newSeq).dram = s.dram := rfl

/-! ### emit -/

@[simp] theorem State.emit_power (s : State) (e : Effect) : (s.emit e).power = s.power := rfl
@[simp] theorem State.emit_clock (s : State) (e : Effect) : (s.emit e).clock = s.clock := rfl
@[simp] theorem State.emit_mem (s : State) (e : Effect) : (s.emit e).mem = s.mem := rfl
@[simp] theorem State.emit_groups (s : State) (e : Effect) : (s.emit e).groups = s.groups := rfl
@[simp] theorem State.emit_blocks (s : State) (e : Effect) : (s.emit e).blocks = s.blocks := rfl
@[simp] theorem State.emit_grids (s : State) (e : Effect) : (s.emit e).grids = s.grids := rfl
@[simp] theorem State.emit_nodes (s : State) (e : Effect) : (s.emit e).nodes = s.nodes := rfl
@[simp] theorem State.emit_accs (s : State) (e : Effect) : (s.emit e).accs = s.accs := rfl
@[simp] theorem State.emit_l2 (s : State) (e : Effect) : (s.emit e).l2 = s.l2 := rfl
@[simp] theorem State.emit_cmds (s : State) (e : Effect) : (s.emit e).cmds = s.cmds := rfl
@[simp] theorem State.emit_mops (s : State) (e : Effect) : (s.emit e).mops = s.mops := rfl
@[simp] theorem State.emit_conts (s : State) (e : Effect) : (s.emit e).conts = s.conts := rfl
@[simp] theorem State.emit_rets (s : State) (e : Effect) : (s.emit e).rets = s.rets := rfl
@[simp] theorem State.emit_lands (s : State) (e : Effect) : (s.emit e).lands = s.lands := rfl
@[simp] theorem State.emit_invals (s : State) (e : Effect) : (s.emit e).invals = s.invals := rfl
@[simp] theorem State.emit_dist (s : State) (e : Effect) : (s.emit e).dist = s.dist := rfl
@[simp] theorem State.emit_fld (s : State) (e : Effect) : (s.emit e).fld = s.fld := rfl
@[simp] theorem State.emit_fab (s : State) (e : Effect) : (s.emit e).fab = s.fab := rfl
@[simp] theorem State.emit_mgmt (s : State) (e : Effect) : (s.emit e).mgmt = s.mgmt := rfl
@[simp] theorem State.emit_dram (s : State) (e : Effect) : (s.emit e).dram = s.dram := rfl

/-! ### count -/

@[simp] theorem State.count_own (s : State) (k : Nat) : (s.count k).own = s.own := rfl
@[simp] theorem State.count_power (s : State) (k : Nat) : (s.count k).power = s.power := rfl
@[simp] theorem State.count_clock (s : State) (k : Nat) : (s.count k).clock = s.clock := rfl
@[simp] theorem State.count_mem (s : State) (k : Nat) : (s.count k).mem = s.mem := rfl
@[simp] theorem State.count_groups (s : State) (k : Nat) : (s.count k).groups = s.groups := rfl
@[simp] theorem State.count_blocks (s : State) (k : Nat) : (s.count k).blocks = s.blocks := rfl
@[simp] theorem State.count_grids (s : State) (k : Nat) : (s.count k).grids = s.grids := rfl
@[simp] theorem State.count_nodes (s : State) (k : Nat) : (s.count k).nodes = s.nodes := rfl
@[simp] theorem State.count_accs (s : State) (k : Nat) : (s.count k).accs = s.accs := rfl
@[simp] theorem State.count_l2 (s : State) (k : Nat) : (s.count k).l2 = s.l2 := rfl
@[simp] theorem State.count_cmds (s : State) (k : Nat) : (s.count k).cmds = s.cmds := rfl
@[simp] theorem State.count_mops (s : State) (k : Nat) : (s.count k).mops = s.mops := rfl
@[simp] theorem State.count_conts (s : State) (k : Nat) : (s.count k).conts = s.conts := rfl
@[simp] theorem State.count_rets (s : State) (k : Nat) : (s.count k).rets = s.rets := rfl
@[simp] theorem State.count_lands (s : State) (k : Nat) : (s.count k).lands = s.lands := rfl
@[simp] theorem State.count_invals (s : State) (k : Nat) : (s.count k).invals = s.invals := rfl
@[simp] theorem State.count_dist (s : State) (k : Nat) : (s.count k).dist = s.dist := rfl
@[simp] theorem State.count_fld (s : State) (k : Nat) : (s.count k).fld = s.fld := rfl
@[simp] theorem State.count_fab (s : State) (k : Nat) : (s.count k).fab = s.fab := rfl
@[simp] theorem State.count_dram (s : State) (k : Nat) : (s.count k).dram = s.dram := rfl

/-! ### broadcastHalt -/

@[simp] theorem State.broadcastHalt_own (s : State) (gid : Nat) (g : Group) : (s.broadcastHalt gid g).own = s.own := rfl
@[simp] theorem State.broadcastHalt_power (s : State) (gid : Nat) (g : Group) : (s.broadcastHalt gid g).power = s.power := rfl
@[simp] theorem State.broadcastHalt_clock (s : State) (gid : Nat) (g : Group) : (s.broadcastHalt gid g).clock = s.clock := rfl
@[simp] theorem State.broadcastHalt_mem (s : State) (gid : Nat) (g : Group) : (s.broadcastHalt gid g).mem = s.mem := rfl
@[simp] theorem State.broadcastHalt_blocks (s : State) (gid : Nat) (g : Group) : (s.broadcastHalt gid g).blocks = s.blocks := rfl
@[simp] theorem State.broadcastHalt_grids (s : State) (gid : Nat) (g : Group) : (s.broadcastHalt gid g).grids = s.grids := rfl
@[simp] theorem State.broadcastHalt_nodes (s : State) (gid : Nat) (g : Group) : (s.broadcastHalt gid g).nodes = s.nodes := rfl
@[simp] theorem State.broadcastHalt_accs (s : State) (gid : Nat) (g : Group) : (s.broadcastHalt gid g).accs = s.accs := rfl
@[simp] theorem State.broadcastHalt_l2 (s : State) (gid : Nat) (g : Group) : (s.broadcastHalt gid g).l2 = s.l2 := rfl
@[simp] theorem State.broadcastHalt_cmds (s : State) (gid : Nat) (g : Group) : (s.broadcastHalt gid g).cmds = s.cmds := rfl
@[simp] theorem State.broadcastHalt_mops (s : State) (gid : Nat) (g : Group) : (s.broadcastHalt gid g).mops = s.mops := rfl
@[simp] theorem State.broadcastHalt_conts (s : State) (gid : Nat) (g : Group) : (s.broadcastHalt gid g).conts = s.conts := rfl
@[simp] theorem State.broadcastHalt_rets (s : State) (gid : Nat) (g : Group) : (s.broadcastHalt gid g).rets = s.rets := rfl
@[simp] theorem State.broadcastHalt_lands (s : State) (gid : Nat) (g : Group) : (s.broadcastHalt gid g).lands = s.lands := rfl
@[simp] theorem State.broadcastHalt_invals (s : State) (gid : Nat) (g : Group) : (s.broadcastHalt gid g).invals = s.invals := rfl
@[simp] theorem State.broadcastHalt_dist (s : State) (gid : Nat) (g : Group) : (s.broadcastHalt gid g).dist = s.dist := rfl
@[simp] theorem State.broadcastHalt_fld (s : State) (gid : Nat) (g : Group) : (s.broadcastHalt gid g).fld = s.fld := rfl
@[simp] theorem State.broadcastHalt_fab (s : State) (gid : Nat) (g : Group) : (s.broadcastHalt gid g).fab = s.fab := rfl
@[simp] theorem State.broadcastHalt_mgmt (s : State) (gid : Nat) (g : Group) : (s.broadcastHalt gid g).mgmt = s.mgmt := rfl
@[simp] theorem State.broadcastHalt_dram (s : State) (gid : Nat) (g : Group) : (s.broadcastHalt gid g).dram = s.dram := rfl

/-! ### modGroup -/

@[simp] theorem State.modGroup_own (s : State) (gid : Nat) (f : Group → Group) : (s.modGroup gid f).own = s.own := by unfold State.modGroup; split <;> rfl
@[simp] theorem State.modGroup_power (s : State) (gid : Nat) (f : Group → Group) : (s.modGroup gid f).power = s.power := by unfold State.modGroup; split <;> rfl
@[simp] theorem State.modGroup_clock (s : State) (gid : Nat) (f : Group → Group) : (s.modGroup gid f).clock = s.clock := by unfold State.modGroup; split <;> rfl
@[simp] theorem State.modGroup_mem (s : State) (gid : Nat) (f : Group → Group) : (s.modGroup gid f).mem = s.mem := by unfold State.modGroup; split <;> rfl
@[simp] theorem State.modGroup_blocks (s : State) (gid : Nat) (f : Group → Group) : (s.modGroup gid f).blocks = s.blocks := by unfold State.modGroup; split <;> rfl
@[simp] theorem State.modGroup_grids (s : State) (gid : Nat) (f : Group → Group) : (s.modGroup gid f).grids = s.grids := by unfold State.modGroup; split <;> rfl
@[simp] theorem State.modGroup_nodes (s : State) (gid : Nat) (f : Group → Group) : (s.modGroup gid f).nodes = s.nodes := by unfold State.modGroup; split <;> rfl
@[simp] theorem State.modGroup_accs (s : State) (gid : Nat) (f : Group → Group) : (s.modGroup gid f).accs = s.accs := by unfold State.modGroup; split <;> rfl
@[simp] theorem State.modGroup_l2 (s : State) (gid : Nat) (f : Group → Group) : (s.modGroup gid f).l2 = s.l2 := by unfold State.modGroup; split <;> rfl
@[simp] theorem State.modGroup_cmds (s : State) (gid : Nat) (f : Group → Group) : (s.modGroup gid f).cmds = s.cmds := by unfold State.modGroup; split <;> rfl
@[simp] theorem State.modGroup_mops (s : State) (gid : Nat) (f : Group → Group) : (s.modGroup gid f).mops = s.mops := by unfold State.modGroup; split <;> rfl
@[simp] theorem State.modGroup_conts (s : State) (gid : Nat) (f : Group → Group) : (s.modGroup gid f).conts = s.conts := by unfold State.modGroup; split <;> rfl
@[simp] theorem State.modGroup_rets (s : State) (gid : Nat) (f : Group → Group) : (s.modGroup gid f).rets = s.rets := by unfold State.modGroup; split <;> rfl
@[simp] theorem State.modGroup_lands (s : State) (gid : Nat) (f : Group → Group) : (s.modGroup gid f).lands = s.lands := by unfold State.modGroup; split <;> rfl
@[simp] theorem State.modGroup_invals (s : State) (gid : Nat) (f : Group → Group) : (s.modGroup gid f).invals = s.invals := by unfold State.modGroup; split <;> rfl
@[simp] theorem State.modGroup_dist (s : State) (gid : Nat) (f : Group → Group) : (s.modGroup gid f).dist = s.dist := by unfold State.modGroup; split <;> rfl
@[simp] theorem State.modGroup_fld (s : State) (gid : Nat) (f : Group → Group) : (s.modGroup gid f).fld = s.fld := by unfold State.modGroup; split <;> rfl
@[simp] theorem State.modGroup_fab (s : State) (gid : Nat) (f : Group → Group) : (s.modGroup gid f).fab = s.fab := by unfold State.modGroup; split <;> rfl
@[simp] theorem State.modGroup_mgmt (s : State) (gid : Nat) (f : Group → Group) : (s.modGroup gid f).mgmt = s.mgmt := by unfold State.modGroup; split <;> rfl
@[simp] theorem State.modGroup_dram (s : State) (gid : Nat) (f : Group → Group) : (s.modGroup gid f).dram = s.dram := by unfold State.modGroup; split <;> rfl

/-! ### modBlock -/

@[simp] theorem State.modBlock_own (s : State) (b : Nat) (f : Block → Block) : (s.modBlock b f).own = s.own := by unfold State.modBlock; split <;> rfl
@[simp] theorem State.modBlock_power (s : State) (b : Nat) (f : Block → Block) : (s.modBlock b f).power = s.power := by unfold State.modBlock; split <;> rfl
@[simp] theorem State.modBlock_clock (s : State) (b : Nat) (f : Block → Block) : (s.modBlock b f).clock = s.clock := by unfold State.modBlock; split <;> rfl
@[simp] theorem State.modBlock_mem (s : State) (b : Nat) (f : Block → Block) : (s.modBlock b f).mem = s.mem := by unfold State.modBlock; split <;> rfl
@[simp] theorem State.modBlock_groups (s : State) (b : Nat) (f : Block → Block) : (s.modBlock b f).groups = s.groups := by unfold State.modBlock; split <;> rfl
@[simp] theorem State.modBlock_grids (s : State) (b : Nat) (f : Block → Block) : (s.modBlock b f).grids = s.grids := by unfold State.modBlock; split <;> rfl
@[simp] theorem State.modBlock_nodes (s : State) (b : Nat) (f : Block → Block) : (s.modBlock b f).nodes = s.nodes := by unfold State.modBlock; split <;> rfl
@[simp] theorem State.modBlock_accs (s : State) (b : Nat) (f : Block → Block) : (s.modBlock b f).accs = s.accs := by unfold State.modBlock; split <;> rfl
@[simp] theorem State.modBlock_l2 (s : State) (b : Nat) (f : Block → Block) : (s.modBlock b f).l2 = s.l2 := by unfold State.modBlock; split <;> rfl
@[simp] theorem State.modBlock_cmds (s : State) (b : Nat) (f : Block → Block) : (s.modBlock b f).cmds = s.cmds := by unfold State.modBlock; split <;> rfl
@[simp] theorem State.modBlock_mops (s : State) (b : Nat) (f : Block → Block) : (s.modBlock b f).mops = s.mops := by unfold State.modBlock; split <;> rfl
@[simp] theorem State.modBlock_conts (s : State) (b : Nat) (f : Block → Block) : (s.modBlock b f).conts = s.conts := by unfold State.modBlock; split <;> rfl
@[simp] theorem State.modBlock_rets (s : State) (b : Nat) (f : Block → Block) : (s.modBlock b f).rets = s.rets := by unfold State.modBlock; split <;> rfl
@[simp] theorem State.modBlock_lands (s : State) (b : Nat) (f : Block → Block) : (s.modBlock b f).lands = s.lands := by unfold State.modBlock; split <;> rfl
@[simp] theorem State.modBlock_invals (s : State) (b : Nat) (f : Block → Block) : (s.modBlock b f).invals = s.invals := by unfold State.modBlock; split <;> rfl
@[simp] theorem State.modBlock_dist (s : State) (b : Nat) (f : Block → Block) : (s.modBlock b f).dist = s.dist := by unfold State.modBlock; split <;> rfl
@[simp] theorem State.modBlock_fld (s : State) (b : Nat) (f : Block → Block) : (s.modBlock b f).fld = s.fld := by unfold State.modBlock; split <;> rfl
@[simp] theorem State.modBlock_fab (s : State) (b : Nat) (f : Block → Block) : (s.modBlock b f).fab = s.fab := by unfold State.modBlock; split <;> rfl
@[simp] theorem State.modBlock_mgmt (s : State) (b : Nat) (f : Block → Block) : (s.modBlock b f).mgmt = s.mgmt := by unfold State.modBlock; split <;> rfl
@[simp] theorem State.modBlock_dram (s : State) (b : Nat) (f : Block → Block) : (s.modBlock b f).dram = s.dram := by unfold State.modBlock; split <;> rfl

/-! ### modGrid -/

@[simp] theorem State.modGrid_own (s : State) (k : Nat) (f : Grid → Grid) : (s.modGrid k f).own = s.own := by unfold State.modGrid; split <;> rfl
@[simp] theorem State.modGrid_power (s : State) (k : Nat) (f : Grid → Grid) : (s.modGrid k f).power = s.power := by unfold State.modGrid; split <;> rfl
@[simp] theorem State.modGrid_clock (s : State) (k : Nat) (f : Grid → Grid) : (s.modGrid k f).clock = s.clock := by unfold State.modGrid; split <;> rfl
@[simp] theorem State.modGrid_mem (s : State) (k : Nat) (f : Grid → Grid) : (s.modGrid k f).mem = s.mem := by unfold State.modGrid; split <;> rfl
@[simp] theorem State.modGrid_groups (s : State) (k : Nat) (f : Grid → Grid) : (s.modGrid k f).groups = s.groups := by unfold State.modGrid; split <;> rfl
@[simp] theorem State.modGrid_blocks (s : State) (k : Nat) (f : Grid → Grid) : (s.modGrid k f).blocks = s.blocks := by unfold State.modGrid; split <;> rfl
@[simp] theorem State.modGrid_nodes (s : State) (k : Nat) (f : Grid → Grid) : (s.modGrid k f).nodes = s.nodes := by unfold State.modGrid; split <;> rfl
@[simp] theorem State.modGrid_accs (s : State) (k : Nat) (f : Grid → Grid) : (s.modGrid k f).accs = s.accs := by unfold State.modGrid; split <;> rfl
@[simp] theorem State.modGrid_l2 (s : State) (k : Nat) (f : Grid → Grid) : (s.modGrid k f).l2 = s.l2 := by unfold State.modGrid; split <;> rfl
@[simp] theorem State.modGrid_cmds (s : State) (k : Nat) (f : Grid → Grid) : (s.modGrid k f).cmds = s.cmds := by unfold State.modGrid; split <;> rfl
@[simp] theorem State.modGrid_mops (s : State) (k : Nat) (f : Grid → Grid) : (s.modGrid k f).mops = s.mops := by unfold State.modGrid; split <;> rfl
@[simp] theorem State.modGrid_conts (s : State) (k : Nat) (f : Grid → Grid) : (s.modGrid k f).conts = s.conts := by unfold State.modGrid; split <;> rfl
@[simp] theorem State.modGrid_rets (s : State) (k : Nat) (f : Grid → Grid) : (s.modGrid k f).rets = s.rets := by unfold State.modGrid; split <;> rfl
@[simp] theorem State.modGrid_lands (s : State) (k : Nat) (f : Grid → Grid) : (s.modGrid k f).lands = s.lands := by unfold State.modGrid; split <;> rfl
@[simp] theorem State.modGrid_invals (s : State) (k : Nat) (f : Grid → Grid) : (s.modGrid k f).invals = s.invals := by unfold State.modGrid; split <;> rfl
@[simp] theorem State.modGrid_dist (s : State) (k : Nat) (f : Grid → Grid) : (s.modGrid k f).dist = s.dist := by unfold State.modGrid; split <;> rfl
@[simp] theorem State.modGrid_fld (s : State) (k : Nat) (f : Grid → Grid) : (s.modGrid k f).fld = s.fld := by unfold State.modGrid; split <;> rfl
@[simp] theorem State.modGrid_fab (s : State) (k : Nat) (f : Grid → Grid) : (s.modGrid k f).fab = s.fab := by unfold State.modGrid; split <;> rfl
@[simp] theorem State.modGrid_mgmt (s : State) (k : Nat) (f : Grid → Grid) : (s.modGrid k f).mgmt = s.mgmt := by unfold State.modGrid; split <;> rfl
@[simp] theorem State.modGrid_dram (s : State) (k : Nat) (f : Grid → Grid) : (s.modGrid k f).dram = s.dram := by unfold State.modGrid; split <;> rfl

/-! ### advance -/

@[simp] theorem State.advance_own (s : State) (gid n : Nat) : (s.advance gid n).own = s.own := by simp [State.advance]
@[simp] theorem State.advance_power (s : State) (gid n : Nat) : (s.advance gid n).power = s.power := by simp [State.advance]
@[simp] theorem State.advance_clock (s : State) (gid n : Nat) : (s.advance gid n).clock = s.clock := by simp [State.advance]
@[simp] theorem State.advance_mem (s : State) (gid n : Nat) : (s.advance gid n).mem = s.mem := by simp [State.advance]
@[simp] theorem State.advance_blocks (s : State) (gid n : Nat) : (s.advance gid n).blocks = s.blocks := by simp [State.advance]
@[simp] theorem State.advance_grids (s : State) (gid n : Nat) : (s.advance gid n).grids = s.grids := by simp [State.advance]
@[simp] theorem State.advance_nodes (s : State) (gid n : Nat) : (s.advance gid n).nodes = s.nodes := by simp [State.advance]
@[simp] theorem State.advance_accs (s : State) (gid n : Nat) : (s.advance gid n).accs = s.accs := by simp [State.advance]
@[simp] theorem State.advance_l2 (s : State) (gid n : Nat) : (s.advance gid n).l2 = s.l2 := by simp [State.advance]
@[simp] theorem State.advance_cmds (s : State) (gid n : Nat) : (s.advance gid n).cmds = s.cmds := by simp [State.advance]
@[simp] theorem State.advance_mops (s : State) (gid n : Nat) : (s.advance gid n).mops = s.mops := by simp [State.advance]
@[simp] theorem State.advance_conts (s : State) (gid n : Nat) : (s.advance gid n).conts = s.conts := by simp [State.advance]
@[simp] theorem State.advance_rets (s : State) (gid n : Nat) : (s.advance gid n).rets = s.rets := by simp [State.advance]
@[simp] theorem State.advance_lands (s : State) (gid n : Nat) : (s.advance gid n).lands = s.lands := by simp [State.advance]
@[simp] theorem State.advance_invals (s : State) (gid n : Nat) : (s.advance gid n).invals = s.invals := by simp [State.advance]
@[simp] theorem State.advance_dist (s : State) (gid n : Nat) : (s.advance gid n).dist = s.dist := by simp [State.advance]
@[simp] theorem State.advance_fld (s : State) (gid n : Nat) : (s.advance gid n).fld = s.fld := by simp [State.advance]
@[simp] theorem State.advance_fab (s : State) (gid n : Nat) : (s.advance gid n).fab = s.fab := by simp [State.advance]
@[simp] theorem State.advance_mgmt (s : State) (gid n : Nat) : (s.advance gid n).mgmt = s.mgmt := by simp [State.advance]
@[simp] theorem State.advance_dram (s : State) (gid n : Nat) : (s.advance gid n).dram = s.dram := by simp [State.advance]

/-! ### jump -/

@[simp] theorem State.jump_own (s : State) (gid : Nat) (pc : Dword) : (s.jump gid pc).own = s.own := by simp [State.jump]
@[simp] theorem State.jump_power (s : State) (gid : Nat) (pc : Dword) : (s.jump gid pc).power = s.power := by simp [State.jump]
@[simp] theorem State.jump_clock (s : State) (gid : Nat) (pc : Dword) : (s.jump gid pc).clock = s.clock := by simp [State.jump]
@[simp] theorem State.jump_mem (s : State) (gid : Nat) (pc : Dword) : (s.jump gid pc).mem = s.mem := by simp [State.jump]
@[simp] theorem State.jump_blocks (s : State) (gid : Nat) (pc : Dword) : (s.jump gid pc).blocks = s.blocks := by simp [State.jump]
@[simp] theorem State.jump_grids (s : State) (gid : Nat) (pc : Dword) : (s.jump gid pc).grids = s.grids := by simp [State.jump]
@[simp] theorem State.jump_nodes (s : State) (gid : Nat) (pc : Dword) : (s.jump gid pc).nodes = s.nodes := by simp [State.jump]
@[simp] theorem State.jump_accs (s : State) (gid : Nat) (pc : Dword) : (s.jump gid pc).accs = s.accs := by simp [State.jump]
@[simp] theorem State.jump_l2 (s : State) (gid : Nat) (pc : Dword) : (s.jump gid pc).l2 = s.l2 := by simp [State.jump]
@[simp] theorem State.jump_cmds (s : State) (gid : Nat) (pc : Dword) : (s.jump gid pc).cmds = s.cmds := by simp [State.jump]
@[simp] theorem State.jump_mops (s : State) (gid : Nat) (pc : Dword) : (s.jump gid pc).mops = s.mops := by simp [State.jump]
@[simp] theorem State.jump_conts (s : State) (gid : Nat) (pc : Dword) : (s.jump gid pc).conts = s.conts := by simp [State.jump]
@[simp] theorem State.jump_rets (s : State) (gid : Nat) (pc : Dword) : (s.jump gid pc).rets = s.rets := by simp [State.jump]
@[simp] theorem State.jump_lands (s : State) (gid : Nat) (pc : Dword) : (s.jump gid pc).lands = s.lands := by simp [State.jump]
@[simp] theorem State.jump_invals (s : State) (gid : Nat) (pc : Dword) : (s.jump gid pc).invals = s.invals := by simp [State.jump]
@[simp] theorem State.jump_dist (s : State) (gid : Nat) (pc : Dword) : (s.jump gid pc).dist = s.dist := by simp [State.jump]
@[simp] theorem State.jump_fld (s : State) (gid : Nat) (pc : Dword) : (s.jump gid pc).fld = s.fld := by simp [State.jump]
@[simp] theorem State.jump_fab (s : State) (gid : Nat) (pc : Dword) : (s.jump gid pc).fab = s.fab := by simp [State.jump]
@[simp] theorem State.jump_mgmt (s : State) (gid : Nat) (pc : Dword) : (s.jump gid pc).mgmt = s.mgmt := by simp [State.jump]
@[simp] theorem State.jump_dram (s : State) (gid : Nat) (pc : Dword) : (s.jump gid pc).dram = s.dram := by simp [State.jump]

/-! ### writeS -/

@[simp] theorem State.writeS_own (s : State) (gid r : Nat) (x : Word) : (s.writeS gid r x).own = s.own := by simp [State.writeS]
@[simp] theorem State.writeS_power (s : State) (gid r : Nat) (x : Word) : (s.writeS gid r x).power = s.power := by simp [State.writeS]
@[simp] theorem State.writeS_clock (s : State) (gid r : Nat) (x : Word) : (s.writeS gid r x).clock = s.clock := by simp [State.writeS]
@[simp] theorem State.writeS_mem (s : State) (gid r : Nat) (x : Word) : (s.writeS gid r x).mem = s.mem := by simp [State.writeS]
@[simp] theorem State.writeS_blocks (s : State) (gid r : Nat) (x : Word) : (s.writeS gid r x).blocks = s.blocks := by simp [State.writeS]
@[simp] theorem State.writeS_grids (s : State) (gid r : Nat) (x : Word) : (s.writeS gid r x).grids = s.grids := by simp [State.writeS]
@[simp] theorem State.writeS_nodes (s : State) (gid r : Nat) (x : Word) : (s.writeS gid r x).nodes = s.nodes := by simp [State.writeS]
@[simp] theorem State.writeS_accs (s : State) (gid r : Nat) (x : Word) : (s.writeS gid r x).accs = s.accs := by simp [State.writeS]
@[simp] theorem State.writeS_l2 (s : State) (gid r : Nat) (x : Word) : (s.writeS gid r x).l2 = s.l2 := by simp [State.writeS]
@[simp] theorem State.writeS_cmds (s : State) (gid r : Nat) (x : Word) : (s.writeS gid r x).cmds = s.cmds := by simp [State.writeS]
@[simp] theorem State.writeS_mops (s : State) (gid r : Nat) (x : Word) : (s.writeS gid r x).mops = s.mops := by simp [State.writeS]
@[simp] theorem State.writeS_conts (s : State) (gid r : Nat) (x : Word) : (s.writeS gid r x).conts = s.conts := by simp [State.writeS]
@[simp] theorem State.writeS_rets (s : State) (gid r : Nat) (x : Word) : (s.writeS gid r x).rets = s.rets := by simp [State.writeS]
@[simp] theorem State.writeS_lands (s : State) (gid r : Nat) (x : Word) : (s.writeS gid r x).lands = s.lands := by simp [State.writeS]
@[simp] theorem State.writeS_invals (s : State) (gid r : Nat) (x : Word) : (s.writeS gid r x).invals = s.invals := by simp [State.writeS]
@[simp] theorem State.writeS_dist (s : State) (gid r : Nat) (x : Word) : (s.writeS gid r x).dist = s.dist := by simp [State.writeS]
@[simp] theorem State.writeS_fld (s : State) (gid r : Nat) (x : Word) : (s.writeS gid r x).fld = s.fld := by simp [State.writeS]
@[simp] theorem State.writeS_fab (s : State) (gid r : Nat) (x : Word) : (s.writeS gid r x).fab = s.fab := by simp [State.writeS]
@[simp] theorem State.writeS_mgmt (s : State) (gid r : Nat) (x : Word) : (s.writeS gid r x).mgmt = s.mgmt := by simp [State.writeS]
@[simp] theorem State.writeS_dram (s : State) (gid r : Nat) (x : Word) : (s.writeS gid r x).dram = s.dram := by simp [State.writeS]

/-! ### rouse -/

@[simp] theorem State.rouse_own (s : State) (n : Nat) (bits : Word) : (s.rouse n bits).own = s.own := by unfold State.rouse; split <;> rfl
@[simp] theorem State.rouse_power (s : State) (n : Nat) (bits : Word) : (s.rouse n bits).power = s.power := by unfold State.rouse; split <;> rfl
@[simp] theorem State.rouse_clock (s : State) (n : Nat) (bits : Word) : (s.rouse n bits).clock = s.clock := by unfold State.rouse; split <;> rfl
@[simp] theorem State.rouse_mem (s : State) (n : Nat) (bits : Word) : (s.rouse n bits).mem = s.mem := by unfold State.rouse; split <;> rfl
@[simp] theorem State.rouse_groups (s : State) (n : Nat) (bits : Word) : (s.rouse n bits).groups = s.groups := by unfold State.rouse; split <;> rfl
@[simp] theorem State.rouse_blocks (s : State) (n : Nat) (bits : Word) : (s.rouse n bits).blocks = s.blocks := by unfold State.rouse; split <;> rfl
@[simp] theorem State.rouse_grids (s : State) (n : Nat) (bits : Word) : (s.rouse n bits).grids = s.grids := by unfold State.rouse; split <;> rfl
@[simp] theorem State.rouse_accs (s : State) (n : Nat) (bits : Word) : (s.rouse n bits).accs = s.accs := by unfold State.rouse; split <;> rfl
@[simp] theorem State.rouse_l2 (s : State) (n : Nat) (bits : Word) : (s.rouse n bits).l2 = s.l2 := by unfold State.rouse; split <;> rfl
@[simp] theorem State.rouse_cmds (s : State) (n : Nat) (bits : Word) : (s.rouse n bits).cmds = s.cmds := by unfold State.rouse; split <;> rfl
@[simp] theorem State.rouse_mops (s : State) (n : Nat) (bits : Word) : (s.rouse n bits).mops = s.mops := by unfold State.rouse; split <;> rfl
@[simp] theorem State.rouse_conts (s : State) (n : Nat) (bits : Word) : (s.rouse n bits).conts = s.conts := by unfold State.rouse; split <;> rfl
@[simp] theorem State.rouse_rets (s : State) (n : Nat) (bits : Word) : (s.rouse n bits).rets = s.rets := by unfold State.rouse; split <;> rfl
@[simp] theorem State.rouse_lands (s : State) (n : Nat) (bits : Word) : (s.rouse n bits).lands = s.lands := by unfold State.rouse; split <;> rfl
@[simp] theorem State.rouse_invals (s : State) (n : Nat) (bits : Word) : (s.rouse n bits).invals = s.invals := by unfold State.rouse; split <;> rfl
@[simp] theorem State.rouse_dist (s : State) (n : Nat) (bits : Word) : (s.rouse n bits).dist = s.dist := by unfold State.rouse; split <;> rfl
@[simp] theorem State.rouse_fld (s : State) (n : Nat) (bits : Word) : (s.rouse n bits).fld = s.fld := by unfold State.rouse; split <;> rfl
@[simp] theorem State.rouse_fab (s : State) (n : Nat) (bits : Word) : (s.rouse n bits).fab = s.fab := by unfold State.rouse; split <;> rfl
@[simp] theorem State.rouse_mgmt (s : State) (n : Nat) (bits : Word) : (s.rouse n bits).mgmt = s.mgmt := by unfold State.rouse; split <;> rfl
@[simp] theorem State.rouse_dram (s : State) (n : Nat) (bits : Word) : (s.rouse n bits).dram = s.dram := by unfold State.rouse; split <;> rfl

/-! ### gate -/

@[simp] theorem State.gate_own (s : State) (n : Nat) : (s.gate n).own = s.own := by unfold State.gate; split <;> rfl
@[simp] theorem State.gate_power (s : State) (n : Nat) : (s.gate n).power = s.power := by unfold State.gate; split <;> rfl
@[simp] theorem State.gate_clock (s : State) (n : Nat) : (s.gate n).clock = s.clock := by unfold State.gate; split <;> rfl
@[simp] theorem State.gate_mem (s : State) (n : Nat) : (s.gate n).mem = s.mem := by unfold State.gate; split <;> rfl
@[simp] theorem State.gate_groups (s : State) (n : Nat) : (s.gate n).groups = s.groups := by unfold State.gate; split <;> rfl
@[simp] theorem State.gate_blocks (s : State) (n : Nat) : (s.gate n).blocks = s.blocks := by unfold State.gate; split <;> rfl
@[simp] theorem State.gate_grids (s : State) (n : Nat) : (s.gate n).grids = s.grids := by unfold State.gate; split <;> rfl
@[simp] theorem State.gate_accs (s : State) (n : Nat) : (s.gate n).accs = s.accs := by unfold State.gate; split <;> rfl
@[simp] theorem State.gate_l2 (s : State) (n : Nat) : (s.gate n).l2 = s.l2 := by unfold State.gate; split <;> rfl
@[simp] theorem State.gate_cmds (s : State) (n : Nat) : (s.gate n).cmds = s.cmds := by unfold State.gate; split <;> rfl
@[simp] theorem State.gate_mops (s : State) (n : Nat) : (s.gate n).mops = s.mops := by unfold State.gate; split <;> rfl
@[simp] theorem State.gate_conts (s : State) (n : Nat) : (s.gate n).conts = s.conts := by unfold State.gate; split <;> rfl
@[simp] theorem State.gate_rets (s : State) (n : Nat) : (s.gate n).rets = s.rets := by unfold State.gate; split <;> rfl
@[simp] theorem State.gate_lands (s : State) (n : Nat) : (s.gate n).lands = s.lands := by unfold State.gate; split <;> rfl
@[simp] theorem State.gate_invals (s : State) (n : Nat) : (s.gate n).invals = s.invals := by unfold State.gate; split <;> rfl
@[simp] theorem State.gate_dist (s : State) (n : Nat) : (s.gate n).dist = s.dist := by unfold State.gate; split <;> rfl
@[simp] theorem State.gate_fld (s : State) (n : Nat) : (s.gate n).fld = s.fld := by unfold State.gate; split <;> rfl
@[simp] theorem State.gate_fab (s : State) (n : Nat) : (s.gate n).fab = s.fab := by unfold State.gate; split <;> rfl
@[simp] theorem State.gate_mgmt (s : State) (n : Nat) : (s.gate n).mgmt = s.mgmt := by unfold State.gate; split <;> rfl
@[simp] theorem State.gate_dram (s : State) (n : Nat) : (s.gate n).dram = s.dram := by unfold State.gate; split <;> rfl

/-! ### wake -/

@[simp] theorem State.wake_own (s : State) (n : Nat) : (s.wake n).own = s.own := rfl
@[simp] theorem State.wake_power (s : State) (n : Nat) : (s.wake n).power = s.power := rfl
@[simp] theorem State.wake_clock (s : State) (n : Nat) : (s.wake n).clock = s.clock := rfl
@[simp] theorem State.wake_mem (s : State) (n : Nat) : (s.wake n).mem = s.mem := rfl
@[simp] theorem State.wake_groups (s : State) (n : Nat) : (s.wake n).groups = s.groups := rfl
@[simp] theorem State.wake_blocks (s : State) (n : Nat) : (s.wake n).blocks = s.blocks := rfl
@[simp] theorem State.wake_grids (s : State) (n : Nat) : (s.wake n).grids = s.grids := rfl
@[simp] theorem State.wake_accs (s : State) (n : Nat) : (s.wake n).accs = s.accs := rfl
@[simp] theorem State.wake_l2 (s : State) (n : Nat) : (s.wake n).l2 = s.l2 := rfl
@[simp] theorem State.wake_cmds (s : State) (n : Nat) : (s.wake n).cmds = s.cmds := rfl
@[simp] theorem State.wake_mops (s : State) (n : Nat) : (s.wake n).mops = s.mops := rfl
@[simp] theorem State.wake_conts (s : State) (n : Nat) : (s.wake n).conts = s.conts := rfl
@[simp] theorem State.wake_rets (s : State) (n : Nat) : (s.wake n).rets = s.rets := rfl
@[simp] theorem State.wake_lands (s : State) (n : Nat) : (s.wake n).lands = s.lands := rfl
@[simp] theorem State.wake_invals (s : State) (n : Nat) : (s.wake n).invals = s.invals := rfl
@[simp] theorem State.wake_dist (s : State) (n : Nat) : (s.wake n).dist = s.dist := rfl
@[simp] theorem State.wake_fld (s : State) (n : Nat) : (s.wake n).fld = s.fld := rfl
@[simp] theorem State.wake_fab (s : State) (n : Nat) : (s.wake n).fab = s.fab := rfl
@[simp] theorem State.wake_mgmt (s : State) (n : Nat) : (s.wake n).mgmt = s.mgmt := rfl
@[simp] theorem State.wake_dram (s : State) (n : Nat) : (s.wake n).dram = s.dram := rfl

/-! ### Looking up what an update wrote -/

@[simp] theorem State.group_setGroup (s : State) (gid : Nat) (g : Group) : (s.setGroup gid g).group gid = some g := by
  simp [State.group, State.setGroup]

theorem State.group_setGroup_other (s : State) {gid j : Nat} (g : Group) (h : j ≠ gid) :
    (s.setGroup gid g).group j = s.group j := by
  simp [State.group, State.setGroup, Sparse.find_put_other _ _ h]

@[simp] theorem State.block_setBlock (s : State) (b : Nat) (x : Block) : (s.setBlock b x).block b = some x := by
  simp [State.block, State.setBlock]

theorem State.block_setBlock_other (s : State) {b j : Nat} (x : Block) (h : j ≠ b) :
    (s.setBlock b x).block j = s.block j := by
  simp [State.block, State.setBlock, Sparse.find_put_other _ _ h]

@[simp] theorem State.grid_setGrid (s : State) (k : Nat) (x : Grid) : (s.setGrid k x).grid k = some x := by
  simp [State.grid, State.setGrid]

@[simp] theorem State.node_setNode (s : State) (n : Nat) (x : Node) : (s.setNode n x).node n = x := by
  simp [State.node, State.setNode]

theorem State.node_setNode_other (s : State) {n j : Nat} (x : Node) (h : j ≠ n) : (s.setNode n x).node j = s.node j := by
  simp [State.node, State.setNode, Sparse.get_set_other _ _ _ h]

@[simp] theorem State.node_modNode (s : State) (n : Nat) (f : Node → Node) : (s.modNode n f).node n = f (s.node n) := by
  simp [State.modNode]

theorem State.group_modGroup (s : State) (gid : Nat) (f : Group → Group) :
    (s.modGroup gid f).group gid = (s.group gid).map f := by
  unfold State.modGroup
  split <;> simp_all

theorem State.group_modGroup_other (s : State) {gid j : Nat} (f : Group → Group) (h : j ≠ gid) :
    (s.modGroup gid f).group j = s.group j := by
  unfold State.modGroup
  split
  · rfl
  · exact State.group_setGroup_other s _ h

theorem State.block_modBlock (s : State) (b : Nat) (f : Block → Block) :
    (s.modBlock b f).block b = (s.block b).map f := by
  unfold State.modBlock
  split <;> simp_all

theorem State.block_modBlock_other (s : State) {b j : Nat} (f : Block → Block) (h : j ≠ b) :
    (s.modBlock b f).block j = s.block j := by
  unfold State.modBlock
  split
  · rfl
  · exact State.block_setBlock_other s _ h

@[simp] theorem State.group_setBlock (s : State) (b j : Nat) (x : Block) : (s.setBlock b x).group j = s.group j := rfl
@[simp] theorem State.group_modBlock (s : State) (b j : Nat) (f : Block → Block) : (s.modBlock b f).group j = s.group j := by
  simp [State.group]
@[simp] theorem State.block_setGroup (s : State) (gid j : Nat) (g : Group) : (s.setGroup gid g).block j = s.block j := rfl
@[simp] theorem State.block_modGroup (s : State) (gid j : Nat) (f : Group → Group) : (s.modGroup gid f).block j = s.block j := by
  simp [State.block]

/-- Setting the same group twice keeps the later value. -/
theorem Sparse.put_put {α : Type} (m : List (Nat × α)) (k : Nat) (v w : α) :
    Sparse.put (Sparse.put m k v) k w = Sparse.put m k w := by
  induction m with
  | nil => simp [Sparse.put]
  | cons p m ih =>
    obtain ⟨j, x⟩ := p
    by_cases h : k < j
    · simp [Sparse.put, h]
    · by_cases e : j = k
      · subst e; simp [Sparse.put]
      · simp [Sparse.put, h, e, ih]

@[simp] theorem State.setGroup_setGroup (s : State) (gid : Nat) (g h : Group) :
    (s.setGroup gid g).setGroup gid h = s.setGroup gid h := by
  simp [State.setGroup, Sparse.put_put]

/-- What `modGroup` does where the group exists. -/
theorem State.modGroup_eq {s : State} {gid : Nat} {g : Group} (h : s.group gid = some g) (f : Group → Group) :
    s.modGroup gid f = s.setGroup gid (f g) := by
  simp [State.modGroup, h]

/-! ### A group -/

@[simp] theorem Group.goto_block (g : Group) (pc : Dword) : (g.goto pc).block = g.block := rfl
@[simp] theorem Group.goto_index (g : Group) (pc : Dword) : (g.goto pc).index = g.index := rfl
@[simp] theorem Group.goto_owner (g : Group) (pc : Dword) : (g.goto pc).owner = g.owner := rfl
@[simp] theorem Group.goto_part (g : Group) (pc : Dword) : (g.goto pc).part = g.part := rfl
@[simp] theorem Group.goto_ctx (g : Group) (pc : Dword) : (g.goto pc).ctx = g.ctx := rfl
@[simp] theorem Group.goto_regs (g : Group) (pc : Dword) : (g.goto pc).regs = g.regs := rfl
@[simp] theorem Group.goto_eng (g : Group) (pc : Dword) : (g.goto pc).eng = g.eng := rfl
@[simp] theorem Group.goto_out (g : Group) (pc : Dword) : (g.goto pc).out = g.out := rfl
@[simp] theorem Group.goto_visitor (g : Group) (pc : Dword) : (g.goto pc).visitor = g.visitor := rfl
@[simp] theorem Group.putS_block (g : Group) (r : Nat) (x : Word) : (g.putS r x).block = g.block := rfl
@[simp] theorem Group.putS_index (g : Group) (r : Nat) (x : Word) : (g.putS r x).index = g.index := rfl
@[simp] theorem Group.putS_owner (g : Group) (r : Nat) (x : Word) : (g.putS r x).owner = g.owner := rfl
@[simp] theorem Group.putS_part (g : Group) (r : Nat) (x : Word) : (g.putS r x).part = g.part := rfl
@[simp] theorem Group.putS_ctx (g : Group) (r : Nat) (x : Word) : (g.putS r x).ctx = g.ctx := rfl
@[simp] theorem Group.putS_ctl (g : Group) (r : Nat) (x : Word) : (g.putS r x).ctl = g.ctl := rfl
@[simp] theorem Group.putS_sys (g : Group) (r : Nat) (x : Word) : (g.putS r x).sys = g.sys := rfl
@[simp] theorem Group.putS_sched (g : Group) (r : Nat) (x : Word) : (g.putS r x).sched = g.sched := rfl
@[simp] theorem Group.putS_eng (g : Group) (r : Nat) (x : Word) : (g.putS r x).eng = g.eng := rfl
@[simp] theorem Group.putS_out (g : Group) (r : Nat) (x : Word) : (g.putS r x).out = g.out := rfl
@[simp] theorem Group.putS_visitor (g : Group) (r : Nat) (x : Word) : (g.putS r x).visitor = g.visitor := rfl
@[simp] theorem Group.markS_block (g : Group) (r : Nat) (e : Bool) : (g.markS r e).block = g.block := rfl
@[simp] theorem Group.markS_index (g : Group) (r : Nat) (e : Bool) : (g.markS r e).index = g.index := rfl
@[simp] theorem Group.markS_owner (g : Group) (r : Nat) (e : Bool) : (g.markS r e).owner = g.owner := rfl
@[simp] theorem Group.markS_part (g : Group) (r : Nat) (e : Bool) : (g.markS r e).part = g.part := rfl
@[simp] theorem Group.markS_ctx (g : Group) (r : Nat) (e : Bool) : (g.markS r e).ctx = g.ctx := rfl
@[simp] theorem Group.markS_ctl (g : Group) (r : Nat) (e : Bool) : (g.markS r e).ctl = g.ctl := rfl
@[simp] theorem Group.markS_sys (g : Group) (r : Nat) (e : Bool) : (g.markS r e).sys = g.sys := rfl
@[simp] theorem Group.markS_sched (g : Group) (r : Nat) (e : Bool) : (g.markS r e).sched = g.sched := rfl
@[simp] theorem Group.markS_eng (g : Group) (r : Nat) (e : Bool) : (g.markS r e).eng = g.eng := rfl
@[simp] theorem Group.markS_out (g : Group) (r : Nat) (e : Bool) : (g.markS r e).out = g.out := rfl
@[simp] theorem Group.markS_visitor (g : Group) (r : Nat) (e : Bool) : (g.markS r e).visitor = g.visitor := rfl
@[simp] theorem Group.push_block (g : Group) (k : SKind) (m : Word) (pc : Dword) (t : BitVec 24) : (g.push k m pc t).block = g.block := rfl
@[simp] theorem Group.push_index (g : Group) (k : SKind) (m : Word) (pc : Dword) (t : BitVec 24) : (g.push k m pc t).index = g.index := rfl
@[simp] theorem Group.push_owner (g : Group) (k : SKind) (m : Word) (pc : Dword) (t : BitVec 24) : (g.push k m pc t).owner = g.owner := rfl
@[simp] theorem Group.push_part (g : Group) (k : SKind) (m : Word) (pc : Dword) (t : BitVec 24) : (g.push k m pc t).part = g.part := rfl
@[simp] theorem Group.push_ctx (g : Group) (k : SKind) (m : Word) (pc : Dword) (t : BitVec 24) : (g.push k m pc t).ctx = g.ctx := rfl
@[simp] theorem Group.push_regs (g : Group) (k : SKind) (m : Word) (pc : Dword) (t : BitVec 24) : (g.push k m pc t).regs = g.regs := rfl
@[simp] theorem Group.push_sys (g : Group) (k : SKind) (m : Word) (pc : Dword) (t : BitVec 24) : (g.push k m pc t).sys = g.sys := rfl
@[simp] theorem Group.push_sched (g : Group) (k : SKind) (m : Word) (pc : Dword) (t : BitVec 24) : (g.push k m pc t).sched = g.sched := rfl
@[simp] theorem Group.push_eng (g : Group) (k : SKind) (m : Word) (pc : Dword) (t : BitVec 24) : (g.push k m pc t).eng = g.eng := rfl
@[simp] theorem Group.push_out (g : Group) (k : SKind) (m : Word) (pc : Dword) (t : BitVec 24) : (g.push k m pc t).out = g.out := rfl
@[simp] theorem Group.push_visitor (g : Group) (k : SKind) (m : Word) (pc : Dword) (t : BitVec 24) : (g.push k m pc t).visitor = g.visitor := rfl
@[simp] theorem Group.putV_block (g : Group) (r : Nat) (vals : List (Nat × Word)) : (g.putV r vals).block = g.block := by unfold Group.putV; split <;> rfl
@[simp] theorem Group.putV_index (g : Group) (r : Nat) (vals : List (Nat × Word)) : (g.putV r vals).index = g.index := by unfold Group.putV; split <;> rfl
@[simp] theorem Group.putV_owner (g : Group) (r : Nat) (vals : List (Nat × Word)) : (g.putV r vals).owner = g.owner := by unfold Group.putV; split <;> rfl
@[simp] theorem Group.putV_part (g : Group) (r : Nat) (vals : List (Nat × Word)) : (g.putV r vals).part = g.part := by unfold Group.putV; split <;> rfl
@[simp] theorem Group.putV_ctx (g : Group) (r : Nat) (vals : List (Nat × Word)) : (g.putV r vals).ctx = g.ctx := by unfold Group.putV; split <;> rfl
@[simp] theorem Group.putV_ctl (g : Group) (r : Nat) (vals : List (Nat × Word)) : (g.putV r vals).ctl = g.ctl := by unfold Group.putV; split <;> rfl
@[simp] theorem Group.putV_sys (g : Group) (r : Nat) (vals : List (Nat × Word)) : (g.putV r vals).sys = g.sys := by unfold Group.putV; split <;> rfl
@[simp] theorem Group.putV_sched (g : Group) (r : Nat) (vals : List (Nat × Word)) : (g.putV r vals).sched = g.sched := by unfold Group.putV; split <;> rfl
@[simp] theorem Group.putV_eng (g : Group) (r : Nat) (vals : List (Nat × Word)) : (g.putV r vals).eng = g.eng := by unfold Group.putV; split <;> rfl
@[simp] theorem Group.putV_out (g : Group) (r : Nat) (vals : List (Nat × Word)) : (g.putV r vals).out = g.out := by unfold Group.putV; split <;> rfl
@[simp] theorem Group.putV_visitor (g : Group) (r : Nat) (vals : List (Nat × Word)) : (g.putV r vals).visitor = g.visitor := by unfold Group.putV; split <;> rfl
@[simp] theorem Group.markV_block (g : Group) (r : Nat) (e : Bool) : (g.markV r e).block = g.block := by unfold Group.markV; split <;> rfl
@[simp] theorem Group.markV_index (g : Group) (r : Nat) (e : Bool) : (g.markV r e).index = g.index := by unfold Group.markV; split <;> rfl
@[simp] theorem Group.markV_owner (g : Group) (r : Nat) (e : Bool) : (g.markV r e).owner = g.owner := by unfold Group.markV; split <;> rfl
@[simp] theorem Group.markV_part (g : Group) (r : Nat) (e : Bool) : (g.markV r e).part = g.part := by unfold Group.markV; split <;> rfl
@[simp] theorem Group.markV_ctx (g : Group) (r : Nat) (e : Bool) : (g.markV r e).ctx = g.ctx := by unfold Group.markV; split <;> rfl
@[simp] theorem Group.markV_ctl (g : Group) (r : Nat) (e : Bool) : (g.markV r e).ctl = g.ctl := by unfold Group.markV; split <;> rfl
@[simp] theorem Group.markV_sys (g : Group) (r : Nat) (e : Bool) : (g.markV r e).sys = g.sys := by unfold Group.markV; split <;> rfl
@[simp] theorem Group.markV_sched (g : Group) (r : Nat) (e : Bool) : (g.markV r e).sched = g.sched := by unfold Group.markV; split <;> rfl
@[simp] theorem Group.markV_eng (g : Group) (r : Nat) (e : Bool) : (g.markV r e).eng = g.eng := by unfold Group.markV; split <;> rfl
@[simp] theorem Group.markV_out (g : Group) (r : Nat) (e : Bool) : (g.markV r e).out = g.out := by unfold Group.markV; split <;> rfl
@[simp] theorem Group.markV_visitor (g : Group) (r : Nat) (e : Bool) : (g.markV r e).visitor = g.visitor := by unfold Group.markV; split <;> rfl

@[simp] theorem Group.goto_pc (g : Group) (pc : Dword) : (g.goto pc).ctl.pc = pc := rfl
@[simp] theorem Group.goto_exm (g : Group) (pc : Dword) : (g.goto pc).ctl.exm = g.ctl.exm := rfl
@[simp] theorem Group.goto_livem (g : Group) (pc : Dword) : (g.goto pc).ctl.livem = g.ctl.livem := rfl
@[simp] theorem Group.goto_stack (g : Group) (pc : Dword) : (g.goto pc).ctl.stack = g.ctl.stack := rfl
@[simp] theorem Group.goto_guards (g : Group) (pc : Dword) : (g.goto pc).ctl.guards = g.ctl.guards := rfl
@[simp] theorem Group.goto_supAt (g : Group) (pc : Dword) : (g.goto pc).ctl.supAt = g.ctl.supAt := rfl
@[simp] theorem Group.goto_hold (g : Group) (pc : Dword) : (g.goto pc).sched.hold = .none := rfl

/-- Reading a scalar register after a write. -/
@[simp] theorem Group.rdS_putS_same (g : Group) (r : Nat) (x : Word) : (g.putS r x).rdS r = x := by
  simp [Group.rdS, Group.putS]

theorem Group.rdS_putS_other (g : Group) {r j : Nat} (x : Word) (h : j ≠ r) : (g.putS r x).rdS j = g.rdS j := by
  simp [Group.rdS, Group.putS, Sparse.get_set_other _ _ _ h]

@[simp] theorem Group.rdV_putS (g : Group) (r j L : Nat) (x : Word) : (g.putS r x).rdV j L = g.rdV j L := rfl
@[simp] theorem Group.rdS_goto (g : Group) (r : Nat) (pc : Dword) : (g.goto pc).rdS r = g.rdS r := rfl
@[simp] theorem Group.rdV_goto (g : Group) (r L : Nat) (pc : Dword) : (g.goto pc).rdV r L = g.rdV r L := rfl

end Sys2Proof.Machine
end

