-- ==== Sys2Proof/Laws/Home.lean ====
section
/-! SUPPORT. What reads at homes can do: a read counts in the DRAM tables and the health log, and changes nothing else; a translation does
besides what it leaves in the TLBs. -/

namespace Sys2Proof.Machine

open Sys2Proof

/-- `t` is `s` but for the DRAM tables and the management space. -/
def State.Counted (s t : State) : Prop := ∃ d m, t = { s with dram := d, mgmt := m }

theorem State.Counted.refl (s : State) : s.Counted s := ⟨_, _, rfl⟩

theorem State.Counted.trans {s t u : State} (h : s.Counted t) (k : t.Counted u) : s.Counted u := by
  obtain ⟨d, m, rfl⟩ := h
  obtain ⟨d', m', rfl⟩ := k
  exact ⟨d', m', rfl⟩

theorem State.count_counted (s : State) (k : Nat) : s.Counted (s.count k) := ⟨_, _, rfl⟩

theorem State.countFixed_counted (s : State) (il sector : Nat) (p : BitVec 36) : s.Counted (s.countFixed il sector p) := by
  unfold State.countFixed
  generalize (List.range 36).filter (fun i => p.getLsbD i) = l
  dsimp only
  refine State.Counted.trans (t := { s with dram := { s.dram with errors := Sparse.set 0 s.dram.errors sector 0 } }) ⟨_, _, rfl⟩ ?_
  generalize ({ s with dram := { s.dram with errors := Sparse.set 0 s.dram.errors sector 0 } } : State) = t
  induction l generalizing t with
  | nil => exact .refl t
  | cons i l ih =>
    refine .trans ?_ (ih _)
    dsimp only
    split
    · exact .trans (.refl _) ⟨_, _, rfl⟩
    · exact ⟨_, _, rfl⟩

theorem State.activate_counted (s : State) (il key : Nat) : s.Counted (s.activate il key) := by
  unfold State.activate State.manage
  split
  · dsimp only
    split <;> exact ⟨_, _, rfl⟩
  · exact .refl s

theorem State.reach_counted (s : State) (il key : Nat) : s.Counted (s.reach il key) := by
  unfold State.reach
  split
  · exact .refl s
  · exact ⟨_, _, rfl⟩

/-- A read of one sector. -/
theorem State.readAt_counted (s : State) (il key n : Nat) : s.Counted (s.readAt il key n).1 := by
  unfold State.readAt
  split
  · exact .refl s
  · have h := (s.reach_counted il key).trans (State.activate_counted _ (s.scheme il key) key)
    dsimp only
    split
    · exact h
    · exact h.trans (State.countFixed_counted _ _ _ _)
    · exact h
    · exact h.trans ⟨_, _, rfl⟩

/-- A read of a run of bytes. -/
theorem State.readRun_counted (s : State) (il key n : Nat) : s.Counted (s.readRun il key n).1 := by
  unfold State.readRun
  suffices H : ∀ (l : List (Nat × Nat)) (r : State × Option (List Byte)), s.Counted r.1 →
      s.Counted (l.foldl (fun (r : State × Option (List Byte)) p =>
        let (t, x) := r.1.readAt il (key + p.1) p.2
        (t, match r.2, x with | some a, some b => some (a ++ b) | _, _ => none)) r).1 from H _ _ (.refl s)
  intro l
  induction l with
  | nil => exact fun r h => h
  | cons p l ih => exact fun r h => ih _ (h.trans (State.readAt_counted _ _ _ _))

/-- What the reads of a block's engine leave as it was: everything but the DRAM tables, the health log and the block's mark. -/
theorem State.readFor_keeps (s : State) (bid : Nat) (keys : List Nat) :
    (s.readFor bid keys).mem = s.mem ∧ (s.readFor bid keys).groups = s.groups ∧ (s.readFor bid keys).nodes = s.nodes ∧
      (s.readFor bid keys).own = s.own ∧ (s.readFor bid keys).mops = s.mops := by
  unfold State.readFor
  induction keys generalizing s with
  | nil => exact ⟨rfl, rfl, rfl, rfl, rfl⟩
  | cons k keys ih =>
    simp only [List.foldl_cons]
    obtain ⟨d, m, hr⟩ := s.readAt_counted ownIl k 32
    rcases h : s.readAt ownIl k 32 with ⟨t, x⟩
    rw [h] at hr
    subst hr
    cases x with
    | some b => exact ih _
    | none =>
      obtain ⟨h1, h2, h3, h4, h5⟩ := ih (State.consumeBlock { s with dram := d, mgmt := m } bid)
      refine ⟨h1.trans ?_, h2.trans ?_, h3.trans ?_, h4.trans ?_, h5.trans ?_⟩ <;> simp [State.consumeBlock]

/-! ### Translations -/

/-- `t` is `s` but for the DRAM tables, the management space, what the cores hold and the L2 TLBs. -/
def State.Looked (s t : State) : Prop := ∃ d m n l, t = { s with dram := d, mgmt := m, nodes := n, l2 := l }

theorem State.Looked.refl (s : State) : s.Looked s := ⟨_, _, _, _, rfl⟩

theorem State.Looked.trans {s t u : State} (h : s.Looked t) (k : t.Looked u) : s.Looked u := by
  obtain ⟨d, m, n, l, rfl⟩ := h
  obtain ⟨d', m', n', l', rfl⟩ := k
  exact ⟨d', m', n', l', rfl⟩

theorem State.Counted.looked {s t : State} (h : s.Counted t) : s.Looked t := by
  obtain ⟨d, m, rfl⟩ := h
  exact ⟨d, m, _, _, rfl⟩

theorem State.fillTlb_looked (s : State) (node : Nat) (t : TlbLine) : s.Looked (s.fillTlb node t) := by
  unfold State.fillTlb State.modNode State.setNode
  split
  · exact .refl s
  · exact ⟨_, _, _, _, rfl⟩

theorem State.walked_looked (s : State) (node : Nat) (c : BitVec 8) (va : Dword) : s.Looked (s.walked node c va) := by
  have H : ∀ (l : List Nat) (t : State), s.Looked t → s.Looked (l.foldl (fun s k => (s.readAt ownIl k 8).1) t) := by
    intro l
    induction l with
    | nil => exact fun t h => h
    | cons k l ih => exact fun t h => ih _ (h.trans (State.readAt_counted t ownIl k 8).looked)
  have h := H (s.walkReads va.toNat walkLevels (s.ptroot c)) s (.refl s)
  unfold State.walked
  dsimp only
  split
  · exact h
  · split
    · exact h
    · exact h.trans (State.fillTlb_looked _ _ _)

theorem State.lookUp_looked (s : State) (node : Nat) (c : BitVec 8) (va : Dword) : s.Looked (s.lookUp node c va) := by
  unfold State.lookUp
  split
  · exact .refl s
  · split
    · exact s.fillTlb_looked _ _
    · exact s.walked_looked _ _ _

/-- The translations of a group's addresses leave memory, the groups and the accesses as they were. -/
theorem State.lookUps_looked (s : State) (g : Group) (vas : List Dword) : s.Looked (s.lookUps g vas) := by
  unfold State.lookUps
  induction vas generalizing s with
  | nil => exact .refl s
  | cons va vas ih => exact (s.lookUp_looked _ _ _).trans (ih _)

theorem State.fetched_looked (s : State) (g : Group) (pc : Dword) : s.Looked (s.fetched g pc) := by
  unfold State.fetched
  have h := s.lookUp_looked g.owner g.ctx pc
  dsimp only
  split
  · exact h
  · exact h.trans (State.readAt_counted _ _ _ _).looked

end Sys2Proof.Machine
end

