-- ==== Sys2Proof/Laws/Ops.lean ====
section
/-! SUPPORT. What each shared operation can do, said once. -/

namespace Sys2Proof.Machine

open Sys2Proof

/-- An instruction that meets the checks of issue runs its meaning with the current group. -/
theorem issue_ready {r : Row} {f : Fields} {s : State} {g : Group} (k : Nat → Group → Res)
    (hg : s.group s.own.cur = some g) (hr : s.ready r f g = true) : issue r f s k = k s.own.cur g := by
  simp only [State.ready, Bool.and_eq_true, Option.isNone_iff_eq_none, Bool.or_eq_true, Bool.not_eq_true'] at hr
  obtain ⟨⟨⟨⟨h1, h2⟩, h3⟩, h4⟩, h5⟩ := hr
  simp only [issue, issueHold, hg, h1, h3, h4, h5]
  rcases h2 with h2 | h2 <;> simp [h2]

/-- The checks of issue hold when every register named is owned and full, the mode suits and no word of a register file is uncorrectable. -/
theorem ready_of {r : Row} {f : Fields} {s : State} {g : Group}
    (h : ∀ n ∈ namedRegs r f, s.owns g n.scalar n.reg = true ∧ (n.role ≠ .peek → g.isEmpty n.scalar n.reg = false))
    (hv : g.regs.vbad = []) (hb : g.regs.sbad = [])
    (hs : r.sup = true → g.priv = true) : s.ready r f g = true := by
  simp only [State.ready, Bool.and_eq_true, Option.isNone_iff_eq_none, Bool.or_eq_true, Bool.not_eq_true',
    State.unowned, Group.emptyWaited, Group.emptyStall, Group.spoilt, List.find?_eq_none]
  refine ⟨⟨⟨⟨?_, ?_⟩, ?_⟩, ?_⟩, ?_⟩
  · intro n hn; simp [(h n hn).1]
  · by_cases hp : r.sup = true
    · exact .inr (hs hp)
    · exact .inl (by simpa using hp)
  · intro n hn
    by_cases hp : n.role = .peek
    · simp [hp]
    · simp [(h n hn).2 hp]
  · intro n hn
    by_cases hp : n.role = .peek
    · simp [hp]
    · simp [(h n hn).2 hp]
  · intro n hn; simp [hv, hb]

/-- Issue answers a next state, or what the meaning answers, and refuses only where no group is current. -/
theorem issue_cases {r : Row} {f : Fields} {s : State} {g : Group} (k : Nat → Group → Res)
    (hg : s.group s.own.cur = some g) :
    issue r f s k = k s.own.cur g ∨
    (∃ n, s.unowned g (namedRegs r f) = some n ∧
      issue r f s k = .next (s.trapPlain s.own.cur .regbound (regAux n.scalar n.reg))) ∨
    ((r.sup && !g.priv) = true ∧ issue r f s k = .next (s.trapPlain s.own.cur .priv 0)) ∨
    (∃ n, g.emptyWaited (namedRegs r f) = some n ∧
      issue r f s k = .next (s.trapPlain s.own.cur .emptyreg (regAux n.scalar n.reg))) ∨
    (∃ n, g.emptyStall (namedRegs r f) = some n ∧ issue r f s k = .next (s.stall s.own.cur n.hold)) ∨
    (∃ n, g.spoilt (namedRegs r f) = some n ∧ issue r f s k = .next (s.consume s.own.cur)) := by
  unfold issue issueHold
  simp only [hg]
  cases h1 : s.unowned g (namedRegs r f) with
  | some n => exact .inr (.inl ⟨n, rfl, rfl⟩)
  | none =>
    by_cases h2 : (r.sup && !g.priv) = true
    · exact .inr (.inr (.inl ⟨h2, by simp [h2]⟩))
    · cases h3 : g.emptyWaited (namedRegs r f) with
      | some n => exact .inr (.inr (.inr (.inl ⟨n, rfl, by simp [h2]⟩)))
      | none =>
        cases h4 : g.emptyStall (namedRegs r f) with
        | some n => exact .inr (.inr (.inr (.inr (.inl ⟨n, rfl, by simp [h2]⟩))))
        | none =>
          cases h5 : g.spoilt (namedRegs r f) with
          | some n => exact .inr (.inr (.inr (.inr (.inr ⟨n, rfl, by simp [h2]⟩))))
          | none => exact .inl (by simp [h2])

/-- What an advance does where the group exists. -/
theorem State.advance_eq {s : State} {gid : Nat} {g : Group} (h : s.group gid = some g) (n : Nat) :
    s.advance gid n = s.setGroup gid (g.goto (g.ctl.pc + BitVec.ofNat 64 n)) := State.modGroup_eq h _

theorem State.jump_eq {s : State} {gid : Nat} {g : Group} (h : s.group gid = some g) (pc : Dword) :
    s.jump gid pc = s.setGroup gid (g.goto pc) := State.modGroup_eq h _

theorem State.writeS_eq {s : State} {gid : Nat} {g : Group} (h : s.group gid = some g) (r : Nat) (x : Word) :
    s.writeS gid r x = s.setGroup gid (g.putS r x) := State.modGroup_eq h _

/-- A group whose scalar destination has been written. -/
def Group.putDst (g : Group) (x : BitVec 8) (v : Word) : Group :=
  if x = 138#8 then { g with ctl := { g.ctl with exm := v &&& g.ctl.livem } }
  else if x.toNat < 128 then g.putS x.toNat v
  else g

theorem State.setGroup_self {s : State} {gid : Nat} {g : Group} (h : s.group gid = some g) : s.modGroup gid id = s.setGroup gid g :=
  State.modGroup_eq h _

/-- What writing a scalar destination and advancing do together. -/
theorem State.putDst_advance {s : State} {gid : Nat} {g : Group} (h : s.group gid = some g) {x : BitVec 8} (v : Word) (n : Nat)
    (hx : x.toNat < 128 ∨ x = 138#8) :
    (s.putDst gid x v).advance gid n =
      s.setGroup gid ((g.putDst x v).goto (g.ctl.pc + BitVec.ofNat 64 n)) := by
  unfold State.putDst Group.putDst
  by_cases h1 : x = 138#8
  · simp only [h1, if_true]
    rw [State.modGroup_eq h, State.advance_eq (State.group_setGroup _ _ _), State.setGroup_setGroup]
  · have h2 : x.toNat < 128 := by tauto
    simp only [h1, h2, if_false, if_true]
    rw [State.writeS_eq h, State.advance_eq (State.group_setGroup _ _ _), State.setGroup_setGroup]
    rfl

/-- What writing a scalar pair and advancing do together. -/
theorem State.putPair_advance {s : State} {gid : Nat} {g : Group} (h : s.group gid = some g) (x : BitVec 8) (v : Dword) (n : Nat) :
    (s.putPair gid x v).advance gid n =
      s.setGroup gid (((g.putS x.toNat (v.truncate 32)).putS (x.toNat + 1) ((v >>> 32).truncate 32)).goto
        (g.ctl.pc + BitVec.ofNat 64 n)) := by
  unfold State.putPair
  rw [State.writeS_eq h, State.writeS_eq (State.group_setGroup _ _ _), State.advance_eq (State.group_setGroup _ _ _)]
  simp

end Sys2Proof.Machine
end

