-- ==== Sys2Proof/Laws/PerInstr.lean ====
section
/-! SUPPORT. One lemma per constructor of Instr (LAWS.json, per_instruction): the cell of the opcode map that an instruction's row names
is the one that gives the instruction back. -/

set_option maxRecDepth 8000

namespace Sys2Proof.Laws.Encoding

open Sys2Proof

/-- The OPC and FN of an instruction's row lie in their fields, and they name the instruction's own cell of the opcode map (spec 03, R58). -/
def Statement (i : Instr) : Prop :=
  ∀ f r, i.row = some (f, r) → r.opc < 256 ∧ r.fn < 64 ∧ ∃ c, findCell cellTable r.opc r.fn = some c ∧ c f = i

/-- A cell whose row is known. -/
theorem of_cell {c : Fields → Instr} {row : Fields → Row} {opc fn : Nat} (h : ∀ f, (c f).row = some (f, row f))
    (ho : ∀ f, (row f).opc = opc) (hn : ∀ f, (row f).fn = fn) (hb : opc < 256 ∧ fn < 64) (hf : findCell cellTable opc fn = some c) (f : Fields) :
    Statement (c f) := by
  intro f' r hr
  rw [h f] at hr
  obtain ⟨rfl, rfl⟩ := Option.some.inj hr |> Prod.mk.inj
  rw [ho, hn]
  exact ⟨hb.1, hb.2, c, hf, rfl⟩

/-- A step that is no cell has no row. -/
theorem of_step {i : Instr} (h : i.row = none) : Statement i := by
  intro f r hr
  rw [h] at hr
  cases hr

theorem nop (f : Fields) : Statement (.nop f) :=
  of_cell (c := .nop) (row := rowNop) (opc := 0x00) (fn := 0x01) (fun _ => rfl) (fun _ => rfl) (fun _ => rfl) (by decide) rfl f

theorem exit (f : Fields) : Statement (.exit f) :=
  of_cell (c := .exit) (row := rowExit) (opc := 0x00) (fn := 0x02) (fun _ => rfl) (fun _ => rfl) (fun _ => rfl) (by decide) rfl f

theorem exitm (f : Fields) : Statement (.exitm f) :=
  of_cell (c := .exitm) (row := rowExitm) (opc := 0x00) (fn := 0x03) (fun _ => rfl) (fun _ => rfl) (fun _ => rfl) (by decide) rfl f

theorem br (f : Fields) : Statement (.br f) :=
  of_cell (c := .br) (row := rowBr) (opc := 0x01) (fn := 0x00) (fun _ => rfl) (fun _ => rfl) (fun _ => rfl) (by decide) rfl f

theorem bz (f : Fields) : Statement (.bz f) :=
  of_cell (c := .bz) (row := rowBz) (opc := 0x01) (fn := 0x01) (fun _ => rfl) (fun _ => rfl) (fun _ => rfl) (by decide) rfl f

theorem bnz (f : Fields) : Statement (.bnz f) :=
  of_cell (c := .bnz) (row := rowBnz) (opc := 0x01) (fn := 0x02) (fun _ => rfl) (fun _ => rfl) (fun _ => rfl) (by decide) rfl f

theorem bmz (f : Fields) : Statement (.bmz f) :=
  of_cell (c := .bmz) (row := rowBmz) (opc := 0x01) (fn := 0x03) (fun _ => rfl) (fun _ => rfl) (fun _ => rfl) (by decide) rfl f

theorem bmnz (f : Fields) : Statement (.bmnz f) :=
  of_cell (c := .bmnz) (row := rowBmnz) (opc := 0x01) (fn := 0x04) (fun _ => rfl) (fun _ => rfl) (fun _ => rfl) (by decide) rfl f

theorem bvany (f : Fields) : Statement (.bvany f) :=
  of_cell (c := .bvany) (row := rowBvany) (opc := 0x01) (fn := 0x05) (fun _ => rfl) (fun _ => rfl) (fun _ => rfl) (by decide) rfl f

theorem bvall (f : Fields) : Statement (.bvall f) :=
  of_cell (c := .bvall) (row := rowBvall) (opc := 0x01) (fn := 0x06) (fun _ => rfl) (fun _ => rfl) (fun _ => rfl) (by decide) rfl f

theorem bdiv (f : Fields) : Statement (.bdiv f) :=
  of_cell (c := .bdiv) (row := rowBdiv) (opc := 0x02) (fn := 0x00) (fun _ => rfl) (fun _ => rfl) (fun _ => rfl) (by decide) rfl f

theorem bdivw (f : Fields) : Statement (.bdivw f) :=
  of_cell (c := .bdivw) (row := rowBdivw) (opc := 0x02) (fn := 0x01) (fun _ => rfl) (fun _ => rfl) (fun _ => rfl) (by decide) rfl f

theorem bdivs (f : Fields) : Statement (.bdivs f) :=
  of_cell (c := .bdivs) (row := rowBdivs) (opc := 0x02) (fn := 0x02) (fun _ => rfl) (fun _ => rfl) (fun _ => rfl) (by decide) rfl f

theorem join (f : Fields) : Statement (.join f) :=
  of_cell (c := .join) (row := rowJoin) (opc := 0x02) (fn := 0x03) (fun _ => rfl) (fun _ => rfl) (fun _ => rfl) (by decide) rfl f

theorem joinw (f : Fields) : Statement (.joinw f) :=
  of_cell (c := .joinw) (row := rowJoinw) (opc := 0x02) (fn := 0x04) (fun _ => rfl) (fun _ => rfl) (fun _ => rfl) (by decide) rfl f

theorem jmp (f : Fields) : Statement (.jmp f) :=
  of_cell (c := .jmp) (row := rowJmp) (opc := 0x03) (fn := 0x00) (fun _ => rfl) (fun _ => rfl) (fun _ => rfl) (by decide) rfl f

theorem jmpi (f : Fields) : Statement (.jmpi f) :=
  of_cell (c := .jmpi) (row := rowJmpi) (opc := 0x03) (fn := 0x01) (fun _ => rfl) (fun _ => rfl) (fun _ => rfl) (by decide) rfl f

theorem call (f : Fields) : Statement (.call f) :=
  of_cell (c := .call) (row := rowCall) (opc := 0x03) (fn := 0x02) (fun _ => rfl) (fun _ => rfl) (fun _ => rfl) (by decide) rfl f

theorem calli (f : Fields) : Statement (.calli f) :=
  of_cell (c := .calli) (row := rowCalli) (opc := 0x03) (fn := 0x03) (fun _ => rfl) (fun _ => rfl) (fun _ => rfl) (by decide) rfl f

theorem ret (f : Fields) : Statement (.ret f) :=
  of_cell (c := .ret) (row := rowRet) (opc := 0x03) (fn := 0x04) (fun _ => rfl) (fun _ => rfl) (fun _ => rfl) (by decide) rfl f

theorem sadd (f : Fields) : Statement (.sadd f) :=
  of_cell (c := .sadd) (row := rowSadd) (opc := 0x10) (fn := 0x00) (fun _ => rfl) (fun _ => rfl) (fun _ => rfl) (by decide) rfl f

theorem ssub (f : Fields) : Statement (.ssub f) :=
  of_cell (c := .ssub) (row := rowSsub) (opc := 0x10) (fn := 0x01) (fun _ => rfl) (fun _ => rfl) (fun _ => rfl) (by decide) rfl f

theorem smul (f : Fields) : Statement (.smul f) :=
  of_cell (c := .smul) (row := rowSmul) (opc := 0x10) (fn := 0x02) (fun _ => rfl) (fun _ => rfl) (fun _ => rfl) (by decide) rfl f

theorem smulh (f : Fields) : Statement (.smulh f) :=
  of_cell (c := .smulh) (row := rowSmulh) (opc := 0x10) (fn := 0x03) (fun _ => rfl) (fun _ => rfl) (fun _ => rfl) (by decide) rfl f

theorem sand (f : Fields) : Statement (.sand f) :=
  of_cell (c := .sand) (row := rowSand) (opc := 0x10) (fn := 0x04) (fun _ => rfl) (fun _ => rfl) (fun _ => rfl) (by decide) rfl f

theorem sor (f : Fields) : Statement (.sor f) :=
  of_cell (c := .sor) (row := rowSor) (opc := 0x10) (fn := 0x05) (fun _ => rfl) (fun _ => rfl) (fun _ => rfl) (by decide) rfl f

theorem sxor (f : Fields) : Statement (.sxor f) :=
  of_cell (c := .sxor) (row := rowSxor) (opc := 0x10) (fn := 0x06) (fun _ => rfl) (fun _ => rfl) (fun _ => rfl) (by decide) rfl f

theorem sshl (f : Fields) : Statement (.sshl f) :=
  of_cell (c := .sshl) (row := rowSshl) (opc := 0x10) (fn := 0x07) (fun _ => rfl) (fun _ => rfl) (fun _ => rfl) (by decide) rfl f

theorem sshr (f : Fields) : Statement (.sshr f) :=
  of_cell (c := .sshr) (row := rowSshr) (opc := 0x10) (fn := 0x08) (fun _ => rfl) (fun _ => rfl) (fun _ => rfl) (by decide) rfl f

theorem smin (f : Fields) : Statement (.smin f) :=
  of_cell (c := .smin) (row := rowSmin) (opc := 0x10) (fn := 0x09) (fun _ => rfl) (fun _ => rfl) (fun _ => rfl) (by decide) rfl f

theorem smax (f : Fields) : Statement (.smax f) :=
  of_cell (c := .smax) (row := rowSmax) (opc := 0x10) (fn := 0x0A) (fun _ => rfl) (fun _ => rfl) (fun _ => rfl) (by decide) rfl f

theorem sdiv (f : Fields) : Statement (.sdiv f) :=
  of_cell (c := .sdiv) (row := rowSdiv) (opc := 0x10) (fn := 0x0B) (fun _ => rfl) (fun _ => rfl) (fun _ => rfl) (by decide) rfl f

theorem srem (f : Fields) : Statement (.srem f) :=
  of_cell (c := .srem) (row := rowSrem) (opc := 0x10) (fn := 0x0C) (fun _ => rfl) (fun _ => rfl) (fun _ => rfl) (by decide) rfl f

theorem smov (f : Fields) : Statement (.smov f) :=
  of_cell (c := .smov) (row := rowSmov) (opc := 0x11) (fn := 0x00) (fun _ => rfl) (fun _ => rfl) (fun _ => rfl) (by decide) rfl f

theorem snot (f : Fields) : Statement (.snot f) :=
  of_cell (c := .snot) (row := rowSnot) (opc := 0x11) (fn := 0x01) (fun _ => rfl) (fun _ => rfl) (fun _ => rfl) (by decide) rfl f

theorem sclz (f : Fields) : Statement (.sclz f) :=
  of_cell (c := .sclz) (row := rowSclz) (opc := 0x11) (fn := 0x02) (fun _ => rfl) (fun _ => rfl) (fun _ => rfl) (by decide) rfl f

theorem spopc (f : Fields) : Statement (.spopc f) :=
  of_cell (c := .spopc) (row := rowSpopc) (opc := 0x11) (fn := 0x03) (fun _ => rfl) (fun _ => rfl) (fun _ => rfl) (by decide) rfl f

theorem sbrev (f : Fields) : Statement (.sbrev f) :=
  of_cell (c := .sbrev) (row := rowSbrev) (opc := 0x11) (fn := 0x04) (fun _ => rfl) (fun _ => rfl) (fun _ => rfl) (by decide) rfl f

theorem sext (f : Fields) : Statement (.sext f) :=
  of_cell (c := .sext) (row := rowSext) (opc := 0x11) (fn := 0x05) (fun _ => rfl) (fun _ => rfl) (fun _ => rfl) (by decide) rfl f

theorem scmp (f : Fields) : Statement (.scmp f) :=
  of_cell (c := .scmp) (row := rowScmp) (opc := 0x12) (fn := 0x00) (fun _ => rfl) (fun _ => rfl) (fun _ => rfl) (by decide) rfl f

theorem ssel (f : Fields) : Statement (.ssel f) :=
  of_cell (c := .ssel) (row := rowSsel) (opc := 0x12) (fn := 0x01) (fun _ => rfl) (fun _ => rfl) (fun _ => rfl) (by decide) rfl f

theorem sadd64 (f : Fields) : Statement (.sadd64 f) :=
  of_cell (c := .sadd64) (row := rowSadd64) (opc := 0x13) (fn := 0x00) (fun _ => rfl) (fun _ => rfl) (fun _ => rfl) (by decide) rfl f

theorem ssub64 (f : Fields) : Statement (.ssub64 f) :=
  of_cell (c := .ssub64) (row := rowSsub64) (opc := 0x13) (fn := 0x01) (fun _ => rfl) (fun _ => rfl) (fun _ => rfl) (by decide) rfl f

theorem smul64 (f : Fields) : Statement (.smul64 f) :=
  of_cell (c := .smul64) (row := rowSmul64) (opc := 0x13) (fn := 0x02) (fun _ => rfl) (fun _ => rfl) (fun _ => rfl) (by decide) rfl f

theorem sshl64 (f : Fields) : Statement (.sshl64 f) :=
  of_cell (c := .sshl64) (row := rowSshl64) (opc := 0x13) (fn := 0x03) (fun _ => rfl) (fun _ => rfl) (fun _ => rfl) (by decide) rfl f

theorem sshr64 (f : Fields) : Statement (.sshr64 f) :=
  of_cell (c := .sshr64) (row := rowSshr64) (opc := 0x13) (fn := 0x04) (fun _ => rfl) (fun _ => rfl) (fun _ => rfl) (by decide) rfl f

theorem smov64 (f : Fields) : Statement (.smov64 f) :=
  of_cell (c := .smov64) (row := rowSmov64) (opc := 0x13) (fn := 0x05) (fun _ => rfl) (fun _ => rfl) (fun _ => rfl) (by decide) rfl f

theorem sbfe (f : Fields) : Statement (.sbfe f) :=
  of_cell (c := .sbfe) (row := rowSbfe) (opc := 0x14) (fn := 0x00) (fun _ => rfl) (fun _ => rfl) (fun _ => rfl) (by decide) rfl f

theorem sbfi (f : Fields) : Statement (.sbfi f) :=
  of_cell (c := .sbfi) (row := rowSbfi) (opc := 0x14) (fn := 0x01) (fun _ => rfl) (fun _ => rfl) (fun _ => rfl) (by decide) rfl f

theorem slea (f : Fields) : Statement (.slea f) :=
  of_cell (c := .slea) (row := rowSlea) (opc := 0x15) (fn := 0x00) (fun _ => rfl) (fun _ => rfl) (fun _ => rfl) (by decide) rfl f

theorem vadd (f : Fields) : Statement (.vadd f) :=
  of_cell (c := .vadd) (row := rowVadd) (opc := 0x30) (fn := 0x00) (fun _ => rfl) (fun _ => rfl) (fun _ => rfl) (by decide) rfl f

theorem vsub (f : Fields) : Statement (.vsub f) :=
  of_cell (c := .vsub) (row := rowVsub) (opc := 0x30) (fn := 0x01) (fun _ => rfl) (fun _ => rfl) (fun _ => rfl) (by decide) rfl f

theorem vmul (f : Fields) : Statement (.vmul f) :=
  of_cell (c := .vmul) (row := rowVmul) (opc := 0x30) (fn := 0x02) (fun _ => rfl) (fun _ => rfl) (fun _ => rfl) (by decide) rfl f

theorem vmulh (f : Fields) : Statement (.vmulh f) :=
  of_cell (c := .vmulh) (row := rowVmulh) (opc := 0x30) (fn := 0x03) (fun _ => rfl) (fun _ => rfl) (fun _ => rfl) (by decide) rfl f

theorem vand (f : Fields) : Statement (.vand f) :=
  of_cell (c := .vand) (row := rowVand) (opc := 0x30) (fn := 0x04) (fun _ => rfl) (fun _ => rfl) (fun _ => rfl) (by decide) rfl f

theorem vor (f : Fields) : Statement (.vor f) :=
  of_cell (c := .vor) (row := rowVor) (opc := 0x30) (fn := 0x05) (fun _ => rfl) (fun _ => rfl) (fun _ => rfl) (by decide) rfl f

theorem vxor (f : Fields) : Statement (.vxor f) :=
  of_cell (c := .vxor) (row := rowVxor) (opc := 0x30) (fn := 0x06) (fun _ => rfl) (fun _ => rfl) (fun _ => rfl) (by decide) rfl f

theorem vshl (f : Fields) : Statement (.vshl f) :=
  of_cell (c := .vshl) (row := rowVshl) (opc := 0x30) (fn := 0x07) (fun _ => rfl) (fun _ => rfl) (fun _ => rfl) (by decide) rfl f

theorem vshr (f : Fields) : Statement (.vshr f) :=
  of_cell (c := .vshr) (row := rowVshr) (opc := 0x30) (fn := 0x08) (fun _ => rfl) (fun _ => rfl) (fun _ => rfl) (by decide) rfl f

theorem vmin (f : Fields) : Statement (.vmin f) :=
  of_cell (c := .vmin) (row := rowVmin) (opc := 0x30) (fn := 0x09) (fun _ => rfl) (fun _ => rfl) (fun _ => rfl) (by decide) rfl f

theorem vmax (f : Fields) : Statement (.vmax f) :=
  of_cell (c := .vmax) (row := rowVmax) (opc := 0x30) (fn := 0x0A) (fun _ => rfl) (fun _ => rfl) (fun _ => rfl) (by decide) rfl f

theorem vabsd (f : Fields) : Statement (.vabsd f) :=
  of_cell (c := .vabsd) (row := rowVabsd) (opc := 0x30) (fn := 0x0B) (fun _ => rfl) (fun _ => rfl) (fun _ => rfl) (by decide) rfl f

theorem vadds (f : Fields) : Statement (.vadds f) :=
  of_cell (c := .vadds) (row := rowVadds) (opc := 0x30) (fn := 0x0C) (fun _ => rfl) (fun _ => rfl) (fun _ => rfl) (by decide) rfl f

theorem vsubs (f : Fields) : Statement (.vsubs f) :=
  of_cell (c := .vsubs) (row := rowVsubs) (opc := 0x30) (fn := 0x0D) (fun _ => rfl) (fun _ => rfl) (fun _ => rfl) (by decide) rfl f

theorem vmad (f : Fields) : Statement (.vmad f) :=
  of_cell (c := .vmad) (row := rowVmad) (opc := 0x31) (fn := 0x00) (fun _ => rfl) (fun _ => rfl) (fun _ => rfl) (by decide) rfl f

theorem vsel (f : Fields) : Statement (.vsel f) :=
  of_cell (c := .vsel) (row := rowVsel) (opc := 0x31) (fn := 0x01) (fun _ => rfl) (fun _ => rfl) (fun _ => rfl) (by decide) rfl f

theorem vbfe (f : Fields) : Statement (.vbfe f) :=
  of_cell (c := .vbfe) (row := rowVbfe) (opc := 0x31) (fn := 0x02) (fun _ => rfl) (fun _ => rfl) (fun _ => rfl) (by decide) rfl f

theorem vbfi (f : Fields) : Statement (.vbfi f) :=
  of_cell (c := .vbfi) (row := rowVbfi) (opc := 0x31) (fn := 0x03) (fun _ => rfl) (fun _ => rfl) (fun _ => rfl) (by decide) rfl f

theorem vmov (f : Fields) : Statement (.vmov f) :=
  of_cell (c := .vmov) (row := rowVmov) (opc := 0x32) (fn := 0x00) (fun _ => rfl) (fun _ => rfl) (fun _ => rfl) (by decide) rfl f

theorem vnot (f : Fields) : Statement (.vnot f) :=
  of_cell (c := .vnot) (row := rowVnot) (opc := 0x32) (fn := 0x01) (fun _ => rfl) (fun _ => rfl) (fun _ => rfl) (by decide) rfl f

theorem vneg (f : Fields) : Statement (.vneg f) :=
  of_cell (c := .vneg) (row := rowVneg) (opc := 0x32) (fn := 0x02) (fun _ => rfl) (fun _ => rfl) (fun _ => rfl) (by decide) rfl f

theorem vabs (f : Fields) : Statement (.vabs f) :=
  of_cell (c := .vabs) (row := rowVabs) (opc := 0x32) (fn := 0x03) (fun _ => rfl) (fun _ => rfl) (fun _ => rfl) (by decide) rfl f

theorem vclz (f : Fields) : Statement (.vclz f) :=
  of_cell (c := .vclz) (row := rowVclz) (opc := 0x32) (fn := 0x04) (fun _ => rfl) (fun _ => rfl) (fun _ => rfl) (by decide) rfl f

theorem vpopc (f : Fields) : Statement (.vpopc f) :=
  of_cell (c := .vpopc) (row := rowVpopc) (opc := 0x32) (fn := 0x05) (fun _ => rfl) (fun _ => rfl) (fun _ => rfl) (by decide) rfl f

theorem vbrev (f : Fields) : Statement (.vbrev f) :=
  of_cell (c := .vbrev) (row := rowVbrev) (opc := 0x32) (fn := 0x06) (fun _ => rfl) (fun _ => rfl) (fun _ => rfl) (by decide) rfl f

theorem vext (f : Fields) : Statement (.vext f) :=
  of_cell (c := .vext) (row := rowVext) (opc := 0x32) (fn := 0x07) (fun _ => rfl) (fun _ => rfl) (fun _ => rfl) (by decide) rfl f

theorem vcmp (f : Fields) : Statement (.vcmp f) :=
  of_cell (c := .vcmp) (row := rowVcmp) (opc := 0x33) (fn := 0x00) (fun _ => rfl) (fun _ => rfl) (fun _ => rfl) (by decide) rfl f

theorem vcmpm (f : Fields) : Statement (.vcmpm f) :=
  of_cell (c := .vcmpm) (row := rowVcmpm) (opc := 0x33) (fn := 0x01) (fun _ => rfl) (fun _ => rfl) (fun _ => rfl) (by decide) rfl f

theorem vadd64 (f : Fields) : Statement (.vadd64 f) :=
  of_cell (c := .vadd64) (row := rowVadd64) (opc := 0x34) (fn := 0x00) (fun _ => rfl) (fun _ => rfl) (fun _ => rfl) (by decide) rfl f

theorem vmulw (f : Fields) : Statement (.vmulw f) :=
  of_cell (c := .vmulw) (row := rowVmulw) (opc := 0x34) (fn := 0x01) (fun _ => rfl) (fun _ => rfl) (fun _ => rfl) (by decide) rfl f

theorem vaddF32 (f : Fields) : Statement (.vaddF32 f) :=
  of_cell (c := .vaddF32) (row := rowVaddF32) (opc := 0x60) (fn := 0x00) (fun _ => rfl) (fun _ => rfl) (fun _ => rfl) (by decide) rfl f

theorem vsubF32 (f : Fields) : Statement (.vsubF32 f) :=
  of_cell (c := .vsubF32) (row := rowVsubF32) (opc := 0x60) (fn := 0x01) (fun _ => rfl) (fun _ => rfl) (fun _ => rfl) (by decide) rfl f

theorem vmulF32 (f : Fields) : Statement (.vmulF32 f) :=
  of_cell (c := .vmulF32) (row := rowVmulF32) (opc := 0x60) (fn := 0x02) (fun _ => rfl) (fun _ => rfl) (fun _ => rfl) (by decide) rfl f

theorem vminF32 (f : Fields) : Statement (.vminF32 f) :=
  of_cell (c := .vminF32) (row := rowVminF32) (opc := 0x60) (fn := 0x03) (fun _ => rfl) (fun _ => rfl) (fun _ => rfl) (by decide) rfl f

theorem vmaxF32 (f : Fields) : Statement (.vmaxF32 f) :=
  of_cell (c := .vmaxF32) (row := rowVmaxF32) (opc := 0x60) (fn := 0x04) (fun _ => rfl) (fun _ => rfl) (fun _ => rfl) (by decide) rfl f

theorem vdiv (f : Fields) : Statement (.vdiv f) :=
  of_cell (c := .vdiv) (row := rowVdiv) (opc := 0x60) (fn := 0x05) (fun _ => rfl) (fun _ => rfl) (fun _ => rfl) (by decide) rfl f

theorem vfma (f : Fields) : Statement (.vfma f) :=
  of_cell (c := .vfma) (row := rowVfma) (opc := 0x61) (fn := 0x00) (fun _ => rfl) (fun _ => rfl) (fun _ => rfl) (by decide) rfl f

theorem vfms (f : Fields) : Statement (.vfms f) :=
  of_cell (c := .vfms) (row := rowVfms) (opc := 0x61) (fn := 0x01) (fun _ => rfl) (fun _ => rfl) (fun _ => rfl) (by decide) rfl f

theorem vabsF32 (f : Fields) : Statement (.vabsF32 f) :=
  of_cell (c := .vabsF32) (row := rowVabsF32) (opc := 0x62) (fn := 0x00) (fun _ => rfl) (fun _ => rfl) (fun _ => rfl) (by decide) rfl f

theorem vnegF32 (f : Fields) : Statement (.vnegF32 f) :=
  of_cell (c := .vnegF32) (row := rowVnegF32) (opc := 0x62) (fn := 0x01) (fun _ => rfl) (fun _ => rfl) (fun _ => rfl) (by decide) rfl f

theorem vsqrt (f : Fields) : Statement (.vsqrt f) :=
  of_cell (c := .vsqrt) (row := rowVsqrt) (opc := 0x62) (fn := 0x02) (fun _ => rfl) (fun _ => rfl) (fun _ => rfl) (by decide) rfl f

theorem vrcp (f : Fields) : Statement (.vrcp f) :=
  of_cell (c := .vrcp) (row := rowVrcp) (opc := 0x62) (fn := 0x03) (fun _ => rfl) (fun _ => rfl) (fun _ => rfl) (by decide) rfl f

theorem vrsq (f : Fields) : Statement (.vrsq f) :=
  of_cell (c := .vrsq) (row := rowVrsq) (opc := 0x62) (fn := 0x04) (fun _ => rfl) (fun _ => rfl) (fun _ => rfl) (by decide) rfl f

theorem vexp2 (f : Fields) : Statement (.vexp2 f) :=
  of_cell (c := .vexp2) (row := rowVexp2) (opc := 0x62) (fn := 0x05) (fun _ => rfl) (fun _ => rfl) (fun _ => rfl) (by decide) rfl f

theorem vlog2 (f : Fields) : Statement (.vlog2 f) :=
  of_cell (c := .vlog2) (row := rowVlog2) (opc := 0x62) (fn := 0x06) (fun _ => rfl) (fun _ => rfl) (fun _ => rfl) (by decide) rfl f

theorem vrnd (f : Fields) : Statement (.vrnd f) :=
  of_cell (c := .vrnd) (row := rowVrnd) (opc := 0x62) (fn := 0x07) (fun _ => rfl) (fun _ => rfl) (fun _ => rfl) (by decide) rfl f

theorem vclass (f : Fields) : Statement (.vclass f) :=
  of_cell (c := .vclass) (row := rowVclass) (opc := 0x62) (fn := 0x08) (fun _ => rfl) (fun _ => rfl) (fun _ => rfl) (by decide) rfl f

theorem vcmpF32 (f : Fields) : Statement (.vcmpF32 f) :=
  of_cell (c := .vcmpF32) (row := rowVcmpF32) (opc := 0x63) (fn := 0x00) (fun _ => rfl) (fun _ => rfl) (fun _ => rfl) (by decide) rfl f

theorem vcmpmF32 (f : Fields) : Statement (.vcmpmF32 f) :=
  of_cell (c := .vcmpmF32) (row := rowVcmpmF32) (opc := 0x63) (fn := 0x01) (fun _ => rfl) (fun _ => rfl) (fun _ => rfl) (by decide) rfl f

theorem vadd2 (f : Fields) : Statement (.vadd2 f) :=
  of_cell (c := .vadd2) (row := rowVadd2) (opc := 0x64) (fn := 0x00) (fun _ => rfl) (fun _ => rfl) (fun _ => rfl) (by decide) rfl f

theorem vmul2 (f : Fields) : Statement (.vmul2 f) :=
  of_cell (c := .vmul2) (row := rowVmul2) (opc := 0x64) (fn := 0x01) (fun _ => rfl) (fun _ => rfl) (fun _ => rfl) (by decide) rfl f

theorem vfma2 (f : Fields) : Statement (.vfma2 f) :=
  of_cell (c := .vfma2) (row := rowVfma2) (opc := 0x64) (fn := 0x02) (fun _ => rfl) (fun _ => rfl) (fun _ => rfl) (by decide) rfl f

theorem vcvt (f : Fields) : Statement (.vcvt f) :=
  of_cell (c := .vcvt) (row := rowVcvt) (opc := 0x68) (fn := 0x00) (fun _ => rfl) (fun _ => rfl) (fun _ => rfl) (by decide) rfl f

theorem vcvti (f : Fields) : Statement (.vcvti f) :=
  of_cell (c := .vcvti) (row := rowVcvti) (opc := 0x68) (fn := 0x01) (fun _ => rfl) (fun _ => rfl) (fun _ => rfl) (by decide) rfl f

theorem vcvtf (f : Fields) : Statement (.vcvtf f) :=
  of_cell (c := .vcvtf) (row := rowVcvtf) (opc := 0x68) (fn := 0x02) (fun _ => rfl) (fun _ => rfl) (fun _ => rfl) (by decide) rfl f

theorem vcvtq (f : Fields) : Statement (.vcvtq f) :=
  of_cell (c := .vcvtq) (row := rowVcvtq) (opc := 0x68) (fn := 0x03) (fun _ => rfl) (fun _ => rfl) (fun _ => rfl) (by decide) rfl f

theorem vcvtqf (f : Fields) : Statement (.vcvtqf f) :=
  of_cell (c := .vcvtqf) (row := rowVcvtqf) (opc := 0x68) (fn := 0x04) (fun _ => rfl) (fun _ => rfl) (fun _ => rfl) (by decide) rfl f

theorem vcvtn (f : Fields) : Statement (.vcvtn f) :=
  of_cell (c := .vcvtn) (row := rowVcvtn) (opc := 0x68) (fn := 0x05) (fun _ => rfl) (fun _ => rfl) (fun _ => rfl) (by decide) rfl f

theorem vdot8 (f : Fields) : Statement (.vdot8 f) :=
  of_cell (c := .vdot8) (row := rowVdot8) (opc := 0x90) (fn := 0x00) (fun _ => rfl) (fun _ => rfl) (fun _ => rfl) (by decide) rfl f

theorem vdot4 (f : Fields) : Statement (.vdot4 f) :=
  of_cell (c := .vdot4) (row := rowVdot4) (opc := 0x90) (fn := 0x01) (fun _ => rfl) (fun _ => rfl) (fun _ => rfl) (by decide) rfl f

theorem vscale (f : Fields) : Statement (.vscale f) :=
  of_cell (c := .vscale) (row := rowVscale) (opc := 0x90) (fn := 0x02) (fun _ => rfl) (fun _ => rfl) (fun _ => rfl) (by decide) rfl f

theorem vqnt (f : Fields) : Statement (.vqnt f) :=
  of_cell (c := .vqnt) (row := rowVqnt) (opc := 0x91) (fn := 0x00) (fun _ => rfl) (fun _ => rfl) (fun _ => rfl) (by decide) rfl f

theorem vdeq (f : Fields) : Statement (.vdeq f) :=
  of_cell (c := .vdeq) (row := rowVdeq) (opc := 0x91) (fn := 0x01) (fun _ => rfl) (fun _ => rfl) (fun _ => rfl) (by decide) rfl f

theorem vhad (f : Fields) : Statement (.vhad f) :=
  of_cell (c := .vhad) (row := rowVhad) (opc := 0x92) (fn := 0x00) (fun _ => rfl) (fun _ => rfl) (fun _ => rfl) (by decide) rfl f

theorem vpk8 (f : Fields) : Statement (.vpk8 f) :=
  of_cell (c := .vpk8) (row := rowVpk8) (opc := 0x93) (fn := 0x00) (fun _ => rfl) (fun _ => rfl) (fun _ => rfl) (by decide) rfl f

theorem vupk8 (f : Fields) : Statement (.vupk8 f) :=
  of_cell (c := .vupk8) (row := rowVupk8) (opc := 0x93) (fn := 0x01) (fun _ => rfl) (fun _ => rfl) (fun _ => rfl) (by decide) rfl f

theorem vpk4 (f : Fields) : Statement (.vpk4 f) :=
  of_cell (c := .vpk4) (row := rowVpk4) (opc := 0x93) (fn := 0x02) (fun _ => rfl) (fun _ => rfl) (fun _ => rfl) (by decide) rfl f

theorem vupk4 (f : Fields) : Statement (.vupk4 f) :=
  of_cell (c := .vupk4) (row := rowVupk4) (opc := 0x93) (fn := 0x03) (fun _ => rfl) (fun _ => rfl) (fun _ => rfl) (by decide) rfl f

theorem vamax (f : Fields) : Statement (.vamax f) :=
  of_cell (c := .vamax) (row := rowVamax) (opc := 0x94) (fn := 0x00) (fun _ => rfl) (fun _ => rfl) (fun _ => rfl) (by decide) rfl f

theorem vsc8 (f : Fields) : Statement (.vsc8 f) :=
  of_cell (c := .vsc8) (row := rowVsc8) (opc := 0x94) (fn := 0x01) (fun _ => rfl) (fun _ => rfl) (fun _ => rfl) (by decide) rfl f

theorem vshfl (f : Fields) : Statement (.vshfl f) :=
  of_cell (c := .vshfl) (row := rowVshfl) (opc := 0xA0) (fn := 0x00) (fun _ => rfl) (fun _ => rfl) (fun _ => rfl) (by decide) rfl f

theorem vshup (f : Fields) : Statement (.vshup f) :=
  of_cell (c := .vshup) (row := rowVshup) (opc := 0xA0) (fn := 0x01) (fun _ => rfl) (fun _ => rfl) (fun _ => rfl) (by decide) rfl f

theorem vshdn (f : Fields) : Statement (.vshdn f) :=
  of_cell (c := .vshdn) (row := rowVshdn) (opc := 0xA0) (fn := 0x02) (fun _ => rfl) (fun _ => rfl) (fun _ => rfl) (by decide) rfl f

theorem vshxor (f : Fields) : Statement (.vshxor f) :=
  of_cell (c := .vshxor) (row := rowVshxor) (opc := 0xA0) (fn := 0x03) (fun _ => rfl) (fun _ => rfl) (fun _ => rfl) (by decide) rfl f

theorem vbcast (f : Fields) : Statement (.vbcast f) :=
  of_cell (c := .vbcast) (row := rowVbcast) (opc := 0xA0) (fn := 0x04) (fun _ => rfl) (fun _ => rfl) (fun _ => rfl) (by decide) rfl f

theorem vballot (f : Fields) : Statement (.vballot f) :=
  of_cell (c := .vballot) (row := rowVballot) (opc := 0xA1) (fn := 0x00) (fun _ => rfl) (fun _ => rfl) (fun _ => rfl) (by decide) rfl f

theorem vpopm (f : Fields) : Statement (.vpopm f) :=
  of_cell (c := .vpopm) (row := rowVpopm) (opc := 0xA1) (fn := 0x01) (fun _ => rfl) (fun _ => rfl) (fun _ => rfl) (by decide) rfl f

theorem vprefix (f : Fields) : Statement (.vprefix f) :=
  of_cell (c := .vprefix) (row := rowVprefix) (opc := 0xA1) (fn := 0x02) (fun _ => rfl) (fun _ => rfl) (fun _ => rfl) (by decide) rfl f

theorem vreduce (f : Fields) : Statement (.vreduce f) :=
  of_cell (c := .vreduce) (row := rowVreduce) (opc := 0xA1) (fn := 0x03) (fun _ => rfl) (fun _ => rfl) (fun _ => rfl) (by decide) rfl f

theorem qxch (f : Fields) : Statement (.qxch f) :=
  of_cell (c := .qxch) (row := rowQxch) (opc := 0xA2) (fn := 0x00) (fun _ => rfl) (fun _ => rfl) (fun _ => rfl) (by decide) rfl f

theorem vld (f : Fields) : Statement (.vld f) :=
  of_cell (c := .vld) (row := rowVld) (opc := 0xB0) (fn := 0x00) (fun _ => rfl) (fun _ => rfl) (fun _ => rfl) (by decide) rfl f

theorem vldrb (f : Fields) : Statement (.vldrb f) :=
  of_cell (c := .vldrb) (row := rowVldrb) (opc := 0xB0) (fn := 0x01) (fun _ => rfl) (fun _ => rfl) (fun _ => rfl) (by decide) rfl f

theorem sld (f : Fields) : Statement (.sld f) :=
  of_cell (c := .sld) (row := rowSld) (opc := 0xB0) (fn := 0x02) (fun _ => rfl) (fun _ => rfl) (fun _ => rfl) (by decide) rfl f

theorem vldbc (f : Fields) : Statement (.vldbc f) :=
  of_cell (c := .vldbc) (row := rowVldbc) (opc := 0xB0) (fn := 0x03) (fun _ => rfl) (fun _ => rfl) (fun _ => rfl) (by decide) rfl f

theorem vldscr (f : Fields) : Statement (.vldscr f) :=
  of_cell (c := .vldscr) (row := rowVldscr) (opc := 0xB0) (fn := 0x04) (fun _ => rfl) (fun _ => rfl) (fun _ => rfl) (by decide) rfl f

theorem vldcw (f : Fields) : Statement (.vldcw f) :=
  of_cell (c := .vldcw) (row := rowVldcw) (opc := 0xB0) (fn := 0x05) (fun _ => rfl) (fun _ => rfl) (fun _ => rfl) (by decide) rfl f

theorem vst (f : Fields) : Statement (.vst f) :=
  of_cell (c := .vst) (row := rowVst) (opc := 0xB1) (fn := 0x00) (fun _ => rfl) (fun _ => rfl) (fun _ => rfl) (by decide) rfl f

theorem sst (f : Fields) : Statement (.sst f) :=
  of_cell (c := .sst) (row := rowSst) (opc := 0xB1) (fn := 0x01) (fun _ => rfl) (fun _ => rfl) (fun _ => rfl) (by decide) rfl f

theorem vstscr (f : Fields) : Statement (.vstscr f) :=
  of_cell (c := .vstscr) (row := rowVstscr) (opc := 0xB1) (fn := 0x02) (fun _ => rfl) (fun _ => rfl) (fun _ => rfl) (by decide) rfl f

theorem vstcw (f : Fields) : Statement (.vstcw f) :=
  of_cell (c := .vstcw) (row := rowVstcw) (opc := 0xB1) (fn := 0x03) (fun _ => rfl) (fun _ => rfl) (fun _ => rfl) (by decide) rfl f

theorem vstmc (f : Fields) : Statement (.vstmc f) :=
  of_cell (c := .vstmc) (row := rowVstmc) (opc := 0xB1) (fn := 0x04) (fun _ => rfl) (fun _ => rfl) (fun _ => rfl) (by decide) rfl f

theorem wcfl (f : Fields) : Statement (.wcfl f) :=
  of_cell (c := .wcfl) (row := rowWcfl) (opc := 0xB2) (fn := 0x00) (fun _ => rfl) (fun _ => rfl) (fun _ => rfl) (by decide) rfl f

theorem rbinv (f : Fields) : Statement (.rbinv f) :=
  of_cell (c := .rbinv) (row := rowRbinv) (opc := 0xB2) (fn := 0x01) (fun _ => rfl) (fun _ => rfl) (fun _ => rfl) (by decide) rfl f

theorem vpref (f : Fields) : Statement (.vpref f) :=
  of_cell (c := .vpref) (row := rowVpref) (opc := 0xB2) (fn := 0x02) (fun _ => rfl) (fun _ => rfl) (fun _ => rfl) (by decide) rfl f

theorem vldp (f : Fields) : Statement (.vldp f) :=
  of_cell (c := .vldp) (row := rowVldp) (opc := 0xB3) (fn := 0x00) (fun _ => rfl) (fun _ => rfl) (fun _ => rfl) (by decide) rfl f

theorem vstp (f : Fields) : Statement (.vstp f) :=
  of_cell (c := .vstp) (row := rowVstp) (opc := 0xB3) (fn := 0x01) (fun _ => rfl) (fun _ => rfl) (fun _ => rfl) (by decide) rfl f

theorem vatom (f : Fields) : Statement (.vatom f) :=
  of_cell (c := .vatom) (row := rowVatom) (opc := 0xB8) (fn := 0x00) (fun _ => rfl) (fun _ => rfl) (fun _ => rfl) (by decide) rfl f

theorem vcas (f : Fields) : Statement (.vcas f) :=
  of_cell (c := .vcas) (row := rowVcas) (opc := 0xB8) (fn := 0x01) (fun _ => rfl) (fun _ => rfl) (fun _ => rfl) (by decide) rfl f

theorem satom (f : Fields) : Statement (.satom f) :=
  of_cell (c := .satom) (row := rowSatom) (opc := 0xB8) (fn := 0x02) (fun _ => rfl) (fun _ => rfl) (fun _ => rfl) (by decide) rfl f

theorem scas (f : Fields) : Statement (.scas f) :=
  of_cell (c := .scas) (row := rowScas) (opc := 0xB8) (fn := 0x03) (fun _ => rfl) (fun _ => rfl) (fun _ => rfl) (by decide) rfl f

theorem vred (f : Fields) : Statement (.vred f) :=
  of_cell (c := .vred) (row := rowVred) (opc := 0xB8) (fn := 0x04) (fun _ => rfl) (fun _ => rfl) (fun _ => rfl) (by decide) rfl f

theorem vatom64 (f : Fields) : Statement (.vatom64 f) :=
  of_cell (c := .vatom64) (row := rowVatom64) (opc := 0xB9) (fn := 0x00) (fun _ => rfl) (fun _ => rfl) (fun _ => rfl) (by decide) rfl f

theorem vcas64 (f : Fields) : Statement (.vcas64 f) :=
  of_cell (c := .vcas64) (row := rowVcas64) (opc := 0xB9) (fn := 0x01) (fun _ => rfl) (fun _ => rfl) (fun _ => rfl) (by decide) rfl f

theorem wwait (f : Fields) : Statement (.wwait f) :=
  of_cell (c := .wwait) (row := rowWwait) (opc := 0xBC) (fn := 0x00) (fun _ => rfl) (fun _ => rfl) (fun _ => rfl) (by decide) rfl f

theorem wwaitt (f : Fields) : Statement (.wwaitt f) :=
  of_cell (c := .wwaitt) (row := rowWwaitt) (opc := 0xBC) (fn := 0x01) (fun _ => rfl) (fun _ => rfl) (fun _ => rfl) (by decide) rfl f

theorem wwake (f : Fields) : Statement (.wwake f) :=
  of_cell (c := .wwake) (row := rowWwake) (opc := 0xBC) (fn := 0x02) (fun _ => rfl) (fun _ => rfl) (fun _ => rfl) (by decide) rfl f

theorem faddt (f : Fields) : Statement (.faddt f) :=
  of_cell (c := .faddt) (row := rowFaddt) (opc := 0xBC) (fn := 0x03) (fun _ => rfl) (fun _ => rfl) (fun _ => rfl) (by decide) rfl f

theorem sleep (f : Fields) : Statement (.sleep f) :=
  of_cell (c := .sleep) (row := rowSleep) (opc := 0xBC) (fn := 0x04) (fun _ => rfl) (fun _ => rfl) (fun _ => rfl) (by decide) rfl f

theorem wcancel (f : Fields) : Statement (.wcancel f) :=
  of_cell (c := .wcancel) (row := rowWcancel) (opc := 0xBC) (fn := 0x05) (fun _ => rfl) (fun _ => rfl) (fun _ => rfl) (by decide) rfl f

theorem fence (f : Fields) : Statement (.fence f) :=
  of_cell (c := .fence) (row := rowFence) (opc := 0xC0) (fn := 0x00) (fun _ => rfl) (fun _ => rfl) (fun _ => rfl) (by decide) rfl f

theorem fenceh (f : Fields) : Statement (.fenceh f) :=
  of_cell (c := .fenceh) (row := rowFenceh) (opc := 0xC0) (fn := 0x01) (fun _ => rfl) (fun _ => rfl) (fun _ => rfl) (by decide) rfl f

theorem fencep (f : Fields) : Statement (.fencep f) :=
  of_cell (c := .fencep) (row := rowFencep) (opc := 0xC0) (fn := 0x02) (fun _ => rfl) (fun _ => rfl) (fun _ => rfl) (by decide) rfl f

theorem xfer (f : Fields) : Statement (.xfer f) :=
  of_cell (c := .xfer) (row := rowXfer) (opc := 0xC8) (fn := 0x00) (fun _ => rfl) (fun _ => rfl) (fun _ => rfl) (by decide) rfl f

theorem vldf (f : Fields) : Statement (.vldf f) :=
  of_cell (c := .vldf) (row := rowVldf) (opc := 0xC9) (fn := 0x00) (fun _ => rfl) (fun _ => rfl) (fun _ => rfl) (by decide) rfl f

theorem sldf (f : Fields) : Statement (.sldf f) :=
  of_cell (c := .sldf) (row := rowSldf) (opc := 0xC9) (fn := 0x01) (fun _ => rfl) (fun _ => rfl) (fun _ => rfl) (by decide) rfl f

theorem ftot (f : Fields) : Statement (.ftot f) :=
  of_cell (c := .ftot) (row := rowFtot) (opc := 0xCA) (fn := 0x00) (fun _ => rfl) (fun _ => rfl) (fun _ => rfl) (by decide) rfl f

theorem fdecl (f : Fields) : Statement (.fdecl f) :=
  of_cell (c := .fdecl) (row := rowFdecl) (opc := 0xCB) (fn := 0x00) (fun _ => rfl) (fun _ => rfl) (fun _ => rfl) (by decide) rfl f

theorem fdrop (f : Fields) : Statement (.fdrop f) :=
  of_cell (c := .fdrop) (row := rowFdrop) (opc := 0xCB) (fn := 0x01) (fun _ => rfl) (fun _ => rfl) (fun _ => rfl) (by decide) rfl f

theorem fattr (f : Fields) : Statement (.fattr f) :=
  of_cell (c := .fattr) (row := rowFattr) (opc := 0xCB) (fn := 0x02) (fun _ => rfl) (fun _ => rfl) (fun _ => rfl) (by decide) rfl f

theorem fgup (f : Fields) : Statement (.fgup f) :=
  of_cell (c := .fgup) (row := rowFgup) (opc := 0xCB) (fn := 0x03) (fun _ => rfl) (fun _ => rfl) (fun _ => rfl) (by decide) rfl f

theorem mma (f : Fields) : Statement (.mma f) :=
  of_cell (c := .mma) (row := rowMma) (opc := 0xD0) (fn := 0x00) (fun _ => rfl) (fun _ => rfl) (fun _ => rfl) (by decide) rfl f

theorem mmac (f : Fields) : Statement (.mmac f) :=
  of_cell (c := .mmac) (row := rowMmac) (opc := 0xD0) (fn := 0x01) (fun _ => rfl) (fun _ => rfl) (fun _ => rfl) (by decide) rfl f

theorem mopf (f : Fields) : Statement (.mopf f) :=
  of_cell (c := .mopf) (row := rowMopf) (opc := 0xD1) (fn := 0x00) (fun _ => rfl) (fun _ => rfl) (fun _ => rfl) (by decide) rfl f

theorem mwait (f : Fields) : Statement (.mwait f) :=
  of_cell (c := .mwait) (row := rowMwait) (opc := 0xD1) (fn := 0x01) (fun _ => rfl) (fun _ => rfl) (fun _ => rfl) (by decide) rfl f

theorem mzero (f : Fields) : Statement (.mzero f) :=
  of_cell (c := .mzero) (row := rowMzero) (opc := 0xD2) (fn := 0x00) (fun _ => rfl) (fun _ => rfl) (fun _ => rfl) (by decide) rfl f

theorem mlda (f : Fields) : Statement (.mlda f) :=
  of_cell (c := .mlda) (row := rowMlda) (opc := 0xD2) (fn := 0x01) (fun _ => rfl) (fun _ => rfl) (fun _ => rfl) (by decide) rfl f

theorem msta (f : Fields) : Statement (.msta f) :=
  of_cell (c := .msta) (row := rowMsta) (opc := 0xD2) (fn := 0x02) (fun _ => rfl) (fun _ => rfl) (fun _ => rfl) (by decide) rfl f

theorem mrd (f : Fields) : Statement (.mrd f) :=
  of_cell (c := .mrd) (row := rowMrd) (opc := 0xD2) (fn := 0x03) (fun _ => rfl) (fun _ => rfl) (fun _ => rfl) (by decide) rfl f

theorem mwr (f : Fields) : Statement (.mwr f) :=
  of_cell (c := .mwr) (row := rowMwr) (opc := 0xD2) (fn := 0x04) (fun _ => rfl) (fun _ => rfl) (fun _ => rfl) (by decide) rfl f

theorem mspill (f : Fields) : Statement (.mspill f) :=
  of_cell (c := .mspill) (row := rowMspill) (opc := 0xD3) (fn := 0x00) (fun _ => rfl) (fun _ => rfl) (fun _ => rfl) (by decide) rfl f

theorem mfill (f : Fields) : Statement (.mfill f) :=
  of_cell (c := .mfill) (row := rowMfill) (opc := 0xD3) (fn := 0x01) (fun _ => rfl) (fun _ => rfl) (fun _ => rfl) (by decide) rfl f

theorem mtag (f : Fields) : Statement (.mtag f) :=
  of_cell (c := .mtag) (row := rowMtag) (opc := 0xD3) (fn := 0x02) (fun _ => rfl) (fun _ => rfl) (fun _ => rfl) (by decide) rfl f

theorem tcopy (f : Fields) : Statement (.tcopy f) :=
  of_cell (c := .tcopy) (row := rowTcopy) (opc := 0xE0) (fn := 0x00) (fun _ => rfl) (fun _ => rfl) (fun _ => rfl) (by decide) rfl f

theorem tcopys (f : Fields) : Statement (.tcopys f) :=
  of_cell (c := .tcopys) (row := rowTcopys) (opc := 0xE0) (fn := 0x01) (fun _ => rfl) (fun _ => rfl) (fun _ => rfl) (by decide) rfl f

theorem gather (f : Fields) : Statement (.gather f) :=
  of_cell (c := .gather) (row := rowGather) (opc := 0xE0) (fn := 0x02) (fun _ => rfl) (fun _ => rfl) (fun _ => rfl) (by decide) rfl f

theorem trf (f : Fields) : Statement (.trf f) :=
  of_cell (c := .trf) (row := rowTrf) (opc := 0xE1) (fn := 0x00) (fun _ => rfl) (fun _ => rfl) (fun _ => rfl) (by decide) rfl f

theorem bclose (f : Fields) : Statement (.bclose f) :=
  of_cell (c := .bclose) (row := rowBclose) (opc := 0xE1) (fn := 0x01) (fun _ => rfl) (fun _ => rfl) (fun _ => rfl) (by decide) rfl f

theorem bwait (f : Fields) : Statement (.bwait f) :=
  of_cell (c := .bwait) (row := rowBwait) (opc := 0xE1) (fn := 0x02) (fun _ => rfl) (fun _ => rfl) (fun _ => rfl) (by decide) rfl f

theorem abinit (f : Fields) : Statement (.abinit f) :=
  of_cell (c := .abinit) (row := rowAbinit) (opc := 0xE2) (fn := 0x00) (fun _ => rfl) (fun _ => rfl) (fun _ => rfl) (by decide) rfl f

theorem abarv (f : Fields) : Statement (.abarv f) :=
  of_cell (c := .abarv) (row := rowAbarv) (opc := 0xE2) (fn := 0x01) (fun _ => rfl) (fun _ => rfl) (fun _ => rfl) (by decide) rfl f

theorem abexp (f : Fields) : Statement (.abexp f) :=
  of_cell (c := .abexp) (row := rowAbexp) (opc := 0xE2) (fn := 0x02) (fun _ => rfl) (fun _ => rfl) (fun _ => rfl) (by decide) rfl f

theorem abwait (f : Fields) : Statement (.abwait f) :=
  of_cell (c := .abwait) (row := rowAbwait) (opc := 0xE2) (fn := 0x03) (fun _ => rfl) (fun _ => rfl) (fun _ => rfl) (by decide) rfl f

theorem gset (f : Fields) : Statement (.gset f) :=
  of_cell (c := .gset) (row := rowGset) (opc := 0xE3) (fn := 0x00) (fun _ => rfl) (fun _ => rfl) (fun _ => rfl) (by decide) rfl f

theorem bar (f : Fields) : Statement (.bar f) :=
  of_cell (c := .bar) (row := rowBar) (opc := 0xE4) (fn := 0x00) (fun _ => rfl) (fun _ => rfl) (fun _ => rfl) (by decide) rfl f

theorem barc (f : Fields) : Statement (.barc f) :=
  of_cell (c := .barc) (row := rowBarc) (opc := 0xE4) (fn := 0x01) (fun _ => rfl) (fun _ => rfl) (fun _ => rfl) (by decide) rfl f

theorem barh (f : Fields) : Statement (.barh f) :=
  of_cell (c := .barh) (row := rowBarh) (opc := 0xE4) (fn := 0x02) (fun _ => rfl) (fun _ => rfl) (fun _ => rfl) (by decide) rfl f

theorem coll (f : Fields) : Statement (.coll f) :=
  of_cell (c := .coll) (row := rowColl) (opc := 0xE8) (fn := 0x00) (fun _ => rfl) (fun _ => rfl) (fun _ => rfl) (by decide) rfl f

theorem crem (f : Fields) : Statement (.crem f) :=
  of_cell (c := .crem) (row := rowCrem) (opc := 0xE8) (fn := 0x01) (fun _ => rfl) (fun _ => rfl) (fun _ => rfl) (by decide) rfl f

theorem trpost (f : Fields) : Statement (.trpost f) :=
  of_cell (c := .trpost) (row := rowTrpost) (opc := 0xE9) (fn := 0x00) (fun _ => rfl) (fun _ => rfl) (fun _ => rfl) (by decide) rfl f

theorem trcan (f : Fields) : Statement (.trcan f) :=
  of_cell (c := .trcan) (row := rowTrcan) (opc := 0xE9) (fn := 0x01) (fun _ => rfl) (fun _ => rfl) (fun _ => rfl) (by decide) rfl f

theorem ecinc (f : Fields) : Statement (.ecinc f) :=
  of_cell (c := .ecinc) (row := rowEcinc) (opc := 0xEA) (fn := 0x00) (fun _ => rfl) (fun _ => rfl) (fun _ => rfl) (by decide) rfl f

theorem ecdec (f : Fields) : Statement (.ecdec f) :=
  of_cell (c := .ecdec) (row := rowEcdec) (opc := 0xEA) (fn := 0x01) (fun _ => rfl) (fun _ => rfl) (fun _ => rfl) (by decide) rfl f

theorem ecrd (f : Fields) : Statement (.ecrd f) :=
  of_cell (c := .ecrd) (row := rowEcrd) (opc := 0xEA) (fn := 0x02) (fun _ => rfl) (fun _ => rfl) (fun _ => rfl) (by decide) rfl f

theorem ecset (f : Fields) : Statement (.ecset f) :=
  of_cell (c := .ecset) (row := rowEcset) (opc := 0xEA) (fn := 0x03) (fun _ => rfl) (fun _ => rfl) (fun _ => rfl) (by decide) rfl f

theorem cqpost (f : Fields) : Statement (.cqpost f) :=
  of_cell (c := .cqpost) (row := rowCqpost) (opc := 0xEB) (fn := 0x00) (fun _ => rfl) (fun _ => rfl) (fun _ => rfl) (by decide) rfl f

theorem cqpoll (f : Fields) : Statement (.cqpoll f) :=
  of_cell (c := .cqpoll) (row := rowCqpoll) (opc := 0xEB) (fn := 0x01) (fun _ => rfl) (fun _ => rfl) (fun _ => rfl) (by decide) rfl f

theorem tqenq (f : Fields) : Statement (.tqenq f) :=
  of_cell (c := .tqenq) (row := rowTqenq) (opc := 0xEC) (fn := 0x00) (fun _ => rfl) (fun _ => rfl) (fun _ => rfl) (by decide) rfl f

theorem tqdeq (f : Fields) : Statement (.tqdeq f) :=
  of_cell (c := .tqdeq) (row := rowTqdeq) (opc := 0xEC) (fn := 0x01) (fun _ => rfl) (fun _ => rfl) (fun _ => rfl) (by decide) rfl f

theorem tqtry (f : Fields) : Statement (.tqtry f) :=
  of_cell (c := .tqtry) (row := rowTqtry) (opc := 0xEC) (fn := 0x02) (fun _ => rfl) (fun _ => rfl) (fun _ => rfl) (by decide) rfl f

theorem tqdone (f : Fields) : Statement (.tqdone f) :=
  of_cell (c := .tqdone) (row := rowTqdone) (opc := 0xEC) (fn := 0x03) (fun _ => rfl) (fun _ => rfl) (fun _ => rfl) (by decide) rfl f

theorem tqatt (f : Fields) : Statement (.tqatt f) :=
  of_cell (c := .tqatt) (row := rowTqatt) (opc := 0xEC) (fn := 0x04) (fun _ => rfl) (fun _ => rfl) (fun _ => rfl) (by decide) rfl f

theorem tqstat (f : Fields) : Statement (.tqstat f) :=
  of_cell (c := .tqstat) (row := rowTqstat) (opc := 0xEC) (fn := 0x05) (fun _ => rfl) (fun _ => rfl) (fun _ => rfl) (by decide) rfl f

theorem migr (f : Fields) : Statement (.migr f) :=
  of_cell (c := .migr) (row := rowMigr) (opc := 0xF0) (fn := 0x00) (fun _ => rfl) (fun _ => rfl) (fun _ => rfl) (by decide) rfl f

theorem mret (f : Fields) : Statement (.mret f) :=
  of_cell (c := .mret) (row := rowMret) (opc := 0xF0) (fn := 0x01) (fun _ => rfl) (fun _ => rfl) (fun _ => rfl) (by decide) rfl f

theorem mjoin (f : Fields) : Statement (.mjoin f) :=
  of_cell (c := .mjoin) (row := rowMjoin) (opc := 0xF0) (fn := 0x02) (fun _ => rfl) (fun _ => rfl) (fun _ => rfl) (by decide) rfl f

theorem mowner (f : Fields) : Statement (.mowner f) :=
  of_cell (c := .mowner) (row := rowMowner) (opc := 0xF0) (fn := 0x03) (fun _ => rfl) (fun _ => rfl) (fun _ => rfl) (by decide) rfl f

theorem mtest (f : Fields) : Statement (.mtest f) :=
  of_cell (c := .mtest) (row := rowMtest) (opc := 0xF0) (fn := 0x04) (fun _ => rfl) (fun _ => rfl) (fun _ => rfl) (by decide) rfl f

theorem sysrd (f : Fields) : Statement (.sysrd f) :=
  of_cell (c := .sysrd) (row := rowSysrd) (opc := 0xF8) (fn := 0x00) (fun _ => rfl) (fun _ => rfl) (fun _ => rfl) (by decide) rfl f

theorem syswr (f : Fields) : Statement (.syswr f) :=
  of_cell (c := .syswr) (row := rowSyswr) (opc := 0xF8) (fn := 0x01) (fun _ => rfl) (fun _ => rfl) (fun _ => rfl) (by decide) rfl f

theorem trap (f : Fields) : Statement (.trap f) :=
  of_cell (c := .trap) (row := rowTrap) (opc := 0xF9) (fn := 0x00) (fun _ => rfl) (fun _ => rfl) (fun _ => rfl) (by decide) rfl f

theorem rft (f : Fields) : Statement (.rft f) :=
  of_cell (c := .rft) (row := rowRft) (opc := 0xF9) (fn := 0x01) (fun _ => rfl) (fun _ => rfl) (fun _ => rfl) (by decide) rfl f

theorem brk (f : Fields) : Statement (.brk f) :=
  of_cell (c := .brk) (row := rowBrk) (opc := 0xF9) (fn := 0x02) (fun _ => rfl) (fun _ => rfl) (fun _ => rfl) (by decide) rfl f

theorem scall (f : Fields) : Statement (.scall f) :=
  of_cell (c := .scall) (row := rowScall) (opc := 0xF9) (fn := 0x03) (fun _ => rfl) (fun _ => rfl) (fun _ => rfl) (by decide) rfl f

theorem sret (f : Fields) : Statement (.sret f) :=
  of_cell (c := .sret) (row := rowSret) (opc := 0xF9) (fn := 0x04) (fun _ => rfl) (fun _ => rfl) (fun _ => rfl) (by decide) rfl f

theorem cka (f : Fields) : Statement (.cka f) :=
  of_cell (c := .cka) (row := rowCka) (opc := 0xFA) (fn := 0x00) (fun _ => rfl) (fun _ => rfl) (fun _ => rfl) (by decide) rfl f

theorem chk (f : Fields) : Statement (.chk f) :=
  of_cell (c := .chk) (row := rowChk) (opc := 0xFA) (fn := 0x01) (fun _ => rfl) (fun _ => rfl) (fun _ => rfl) (by decide) rfl f

theorem rndk (f : Fields) : Statement (.rndk f) :=
  of_cell (c := .rndk) (row := rowRndk) (opc := 0xFB) (fn := 0x00) (fun _ => rfl) (fun _ => rfl) (fun _ => rfl) (by decide) rfl f

theorem srndk (f : Fields) : Statement (.srndk f) :=
  of_cell (c := .srndk) (row := rowSrndk) (opc := 0xFB) (fn := 0x01) (fun _ => rfl) (fun _ => rfl) (fun _ => rfl) (by decide) rfl f

theorem tlbinv (f : Fields) : Statement (.tlbinv f) :=
  of_cell (c := .tlbinv) (row := rowTlbinv) (opc := 0xFC) (fn := 0x00) (fun _ => rfl) (fun _ => rfl) (fun _ => rfl) (by decide) rfl f

theorem tlbsync (f : Fields) : Statement (.tlbsync f) :=
  of_cell (c := .tlbsync) (row := rowTlbsync) (opc := 0xFC) (fn := 0x01) (fun _ => rfl) (fun _ => rfl) (fun _ => rfl) (by decide) rfl f

theorem icinv (f : Fields) : Statement (.icinv f) :=
  of_cell (c := .icinv) (row := rowIcinv) (opc := 0xFD) (fn := 0x00) (fun _ => rfl) (fun _ => rfl) (fun _ => rfl) (by decide) rfl f

theorem einj (f : Fields) : Statement (.einj f) :=
  of_cell (c := .einj) (row := rowEinj) (opc := 0xFE) (fn := 0x00) (fun _ => rfl) (fun _ => rfl) (fun _ => rfl) (by decide) rfl f

theorem escrub (f : Fields) : Statement (.escrub f) :=
  of_cell (c := .escrub) (row := rowEscrub) (opc := 0xFE) (fn := 0x01) (fun _ => rfl) (fun _ => rfl) (fun _ => rfl) (by decide) rfl f

theorem loadReply (req part : Nat) : Statement (.loadReply req part) := of_step rfl

theorem storeAtHome (req part : Nat) : Statement (.storeAtHome req part) := of_step rfl

theorem atomicAtHome (req part : Nat) : Statement (.atomicAtHome req part) := of_step rfl

theorem waitRegistration (req part : Nat) : Statement (.waitRegistration req part) := of_step rfl

theorem waitAnswer (entry : Nat) : Statement (.waitAnswer entry) := of_step rfl

theorem wwaittTimeout (entry : Nat) : Statement (.wwaittTimeout entry) := of_step rfl

theorem sleepExpiry (gid : Nat) : Statement (.sleepExpiry gid) := of_step rfl

theorem coreWake (core : Nat) : Statement (.coreWake core) := of_step rfl

theorem joinwExpiry (gid : Nat) : Statement (.joinwExpiry gid) := of_step rfl

theorem wcLineAgeDrain (core line : Nat) : Statement (.wcLineAgeDrain core line) := of_step rfl

theorem wcLineAck (core line status : Nat) : Statement (.wcLineAck core line status) := of_step rfl

theorem recordFetch (core : Nat) : Statement (.recordFetch core) := of_step rfl

theorem copyEngineIssue (gid : Nat) : Statement (.copyEngineIssue gid) := of_step rfl

theorem pieceDelivery (cmd piece : Nat) : Statement (.pieceDelivery cmd piece) := of_step rfl

theorem commandComplete (cmd : Nat) : Statement (.commandComplete cmd) := of_step rfl

theorem matrixComplete (op : Nat) : Statement (.matrixComplete op) := of_step rfl

theorem firedRecordEntry (queue core : Nat) : Statement (.firedRecordEntry queue core) := of_step rfl

theorem recordDelivery (queue core : Nat) : Statement (.recordDelivery queue core) := of_step rfl

theorem hostEnqueue (queue : Nat) (data : List (BitVec 8)) : Statement (.hostEnqueue queue data) := of_step rfl

theorem hostMemoryAccess (addr count : Nat) (data : Option (List (BitVec 8))) : Statement (.hostMemoryAccess addr count data) := of_step rfl

theorem launchAcceptance (queue core prio : Nat) : Statement (.launchAcceptance queue core prio) := of_step rfl

theorem blockPlacement (die : Nat) : Statement (.blockPlacement die) := of_step rfl

theorem blockedHead (core : Nat) : Statement (.blockedHead core) := of_step rfl

theorem partialEviction (core : Nat) : Statement (.partialEviction core) := of_step rfl

theorem eviction (block : Nat) : Statement (.eviction block) := of_step rfl

theorem restoration (block : Nat) : Statement (.restoration block) := of_step rfl

theorem gridEnd (grid : Nat) : Statement (.gridEnd grid) := of_step rfl

theorem carveEffect (core : Nat) : Statement (.carveEffect core) := of_step rfl

theorem pendingMove (core part : Nat) : Statement (.pendingMove core part) := of_step rfl

theorem continuationArrival (cont : Nat) : Statement (.continuationArrival cont) := of_step rfl

theorem visitorStart (owner : Nat) : Statement (.visitorStart owner) := of_step rfl

theorem migrationRefusal (cont : Nat) : Statement (.migrationRefusal cont) := of_step rfl

theorem migrationReturn (ret : Nat) : Statement (.migrationReturn ret) := of_step rfl

theorem debit (m : Nat) : Statement (.debit m) := of_step rfl

theorem go (m : Nat) : Statement (.go m) := of_step rfl

theorem returnAmount (m : Nat) : Statement (.returnAmount m) := of_step rfl

theorem offer (m : Nat) : Statement (.offer m) := of_step rfl

theorem accept (m : Nat) : Statement (.accept m) := of_step rfl

theorem ovf (m : Nat) : Statement (.ovf m) := of_step rfl

theorem refuse (m : Nat) : Statement (.refuse m) := of_step rfl

theorem busy (m : Nat) : Statement (.busy m) := of_step rfl

theorem offerResend (mseq : Nat) : Statement (.offerResend mseq) := of_step rfl

theorem credit (m : Nat) : Statement (.credit m) := of_step rfl

theorem done (m : Nat) : Statement (.done m) := of_step rfl

theorem ack (m : Nat) : Statement (.ack m) := of_step rfl

theorem cancel (m : Nat) : Statement (.cancel m) := of_step rfl

theorem status (m : Nat) : Statement (.status m) := of_step rfl

theorem giveUp (mseq : Nat) : Statement (.giveUp mseq) := of_step rfl

theorem answerResend (dev mseq : Nat) : Statement (.answerResend dev mseq) := of_step rfl

theorem hold (snap owner : Nat) : Statement (.hold snap owner) := of_step rfl

theorem snapshotRelease (snap : Nat) : Statement (.snapshotRelease snap) := of_step rfl

theorem snapshotTimeout (snap : Nat) : Statement (.snapshotTimeout snap) := of_step rfl

theorem holdSelfResume (snap owner : Nat) : Statement (.holdSelfResume snap owner) := of_step rfl

theorem domainActivation (did : Nat) (reports : List (Nat × BitVec 64)) : Statement (.domainActivation did reports) := of_step rfl

theorem fdeclTimeout (did : Nat) : Statement (.fdeclTimeout did) := of_step rfl

theorem packetArrival (p : Packet) : Statement (.packetArrival p) := of_step rfl

theorem deliveryAck (peer cls ctxno pseq status : Nat) : Statement (.deliveryAck peer cls ctxno pseq status) := of_step rfl

theorem packetResend (peer cls pseq : Nat) : Statement (.packetResend peer cls pseq) := of_step rfl

theorem stale (peer cls ctxno pseq : Nat) : Statement (.stale peer cls ctxno pseq) := of_step rfl

theorem retry (peer cls ctxno pseq : Nat) : Statement (.retry peer cls ctxno pseq) := of_step rfl

theorem contextClose (sending : Bool) (peer cls : Nat) : Statement (.contextClose sending peer cls) := of_step rfl

theorem deliveryGiveUp (peer cls pseq : Nat) : Statement (.deliveryGiveUp peer cls pseq) := of_step rfl

theorem contextFetch (sending : Bool) (peer cls : Nat) : Statement (.contextFetch sending peer cls) := of_step rfl

theorem resp (peer msg : Nat) (data : List (BitVec 8)) : Statement (.resp peer msg data) := of_step rfl

theorem complete (peer msg : Nat) : Statement (.complete peer msg) := of_step rfl

theorem mcast (p : Packet) : Statement (.mcast p) := of_step rfl

theorem aggack (group ctxno pseq : Nat) (bits : BitVec 512) : Statement (.aggack group ctxno pseq bits) := of_step rfl

theorem rollback (block : Nat) : Statement (.rollback block) := of_step rfl

theorem walk (core gid : Nat) (va : BitVec 64) : Statement (.walk core gid va) := of_step rfl

theorem tlbinvAck (inv : Nat) : Statement (.tlbinvAck inv) := of_step rfl

theorem refreshManagement (bank : Nat) : Statement (.refreshManagement bank) := of_step rfl

theorem erasureMark (rank pos : Nat) : Statement (.erasureMark rank pos) := of_step rfl

theorem healthFlush : Statement (.healthFlush) := of_step rfl

theorem faultRetry (unit kind : Nat) (again : Bool) : Statement (.faultRetry unit kind again) := of_step rfl

theorem fatalError (source : Nat) : Statement (.fatalError source) := of_step rfl

theorem powerOn (i : StartInfo) : Statement (.powerOn i) := of_step rfl

theorem coldStart (i : StartInfo) : Statement (.coldStart i) := of_step rfl

theorem warmStart (i : StartInfo) : Statement (.warmStart i) := of_step rfl

theorem flushHealthLog : Statement (.flushHealthLog) := of_step rfl

theorem lock (port : Nat) (accepted : Option (BitVec 64)) : Statement (.lock port accepted) := of_step rfl

theorem start (port : Nat) : Statement (.start port) := of_step rfl

theorem stop (port : Nat) : Statement (.stop port) := of_step rfl

theorem portConfigWrite (port : Nat) (value : BitVec 64) (swid : Bool) : Statement (.portConfigWrite port value swid) := of_step rfl

theorem tagFailureFault (port : Nat) : Statement (.tagFailureFault port) := of_step rfl

theorem linkDown (port : Nat) : Statement (.linkDown port) := of_step rfl

theorem measurementChange (port : Nat) : Statement (.measurementChange port) := of_step rfl

theorem joinDomain (dev self : Nat) (members : BitVec 512) : Statement (.joinDomain dev self members) := of_step rfl

theorem rekey : Statement (.rekey) := of_step rfl

theorem arrive (dev : Nat) : Statement (.arrive dev) := of_step rfl

theorem release (gen : BitVec 32) : Statement (.release gen) := of_step rfl

theorem rekeyTimeout (dev : Nat) : Statement (.rekeyTimeout dev) := of_step rfl

theorem breakpoint (gid : Nat) : Statement (.breakpoint gid) := of_step rfl

theorem debugResume (block : Nat) : Statement (.debugResume block) := of_step rfl

theorem contextEntryWrite (offset : Nat) (data : List (BitVec 8)) : Statement (.contextEntryWrite offset data) := of_step rfl

theorem queueConfigWrite (queue : Nat) (value : BitVec 128) : Statement (.queueConfigWrite queue value) := of_step rfl

theorem ownerEntryWrite (owner : Nat) (value : BitVec 64) : Statement (.ownerEntryWrite owner value) := of_step rfl

theorem regionRegisterWrite (index : Nat) (value : BitVec 64) : Statement (.regionRegisterWrite index value) := of_step rfl

theorem cqRegistration (index : Nat) (header : BitVec 64) (ctx : Nat) (valid : Bool) : Statement (.cqRegistration index header ctx valid) := of_step rfl

theorem registerWrite (offset : Nat) (value : BitVec 64) : Statement (.registerWrite offset value) := of_step rfl

theorem unassignedCell (cause : Nat) (aux : BitVec 64) (addr : BitVec 64) : Statement (.unassignedCell cause aux addr) := of_step rfl

theorem powerFailure : Statement (.powerFailure) := of_step rfl

theorem memberRemoval (dev : Nat) : Statement (.memberRemoval dev) := of_step rfl

theorem bankRefresh (bank : Nat) : Statement (.bankRefresh bank) := of_step rfl

theorem linkLoss (port : Nat) : Statement (.linkLoss port) := of_step rfl

theorem linkReturn (port : Nat) : Statement (.linkReturn port) := of_step rfl

theorem cydbAttach (ctx : Nat) (breaks : List (Nat × Option (Nat × Nat) × Option Nat)) : Statement (.cydbAttach ctx breaks) := of_step rfl

theorem cydbDetach (ctx : Nat) : Statement (.cydbDetach ctx) := of_step rfl

theorem cydbStep (gid : Nat) : Statement (.cydbStep gid) := of_step rfl

theorem latchStalledLong (gid : Nat) : Statement (.latchStalledLong gid) := of_step rfl

end Sys2Proof.Laws.Encoding
end

