-- ==== Sys2Proof/Tests/Slice0.lean ====
section
/-! SUPPORT. Tests: words written out from the encodings of spec 02 and the worked encodings of spec 05 to 12, ill-formed terms that
the checks of R57 refuse, single steps, and for every statement states that meet its hypotheses. -/

namespace Sys2Proof.Tests

set_option Elab.async false

open Sys2Proof Sys2Proof.Machine Sys2Proof.Claims

/-! ### Sample states -/

/-- Fields that are all zero, in the 64-bit length. -/
def F : Fields := word .w64 0 0 0 0 0 0

/-- The sample kernel: every register, one group, 256 bytes of private memory a lane, a handler at 0x20000. -/
def kern : Kernel := { placedKernel with handler := 0x20000, priv := 256 }

/-- The sample block and group. -/
def blk : Block := { placedBlock with k := kern }
def g0 : Group := Group.start 1 0 0 0 1 0x10000 0 0 true

/-- Its core, with the relocation entry of its allocation. -/
def core0 : Node := { Node.reset with relocs := [(0, { save := 0, st := 1, pages := 2, basepg := 0, block := 1 })] }

/-- The device with the one group `g` of block `b`. -/
def dev (b : Block) (g : Group) : State :=
  { State.reset with
    own := { State.reset.own with cur := 1 }
    groups := [(1, g)], blocks := [(1, b)], grids := [(1, placedGrid 0)], nodes := [(0, core0)] }

def base (g : Group) : State := dev blk g

/-- The group with other masks, stack, scalar registers or mode. -/
def masked (g : Group) (exm livem : Word) : Group := { g with ctl := { g.ctl with exm := exm, livem := livem } }
def stacked (g : Group) (st : List Entry) : Group := { g with ctl := { g.ctl with stack := st } }
def scal (g : Group) (l : List (Nat × Word)) : Group := { g with regs := { g.regs with s := l } }
def vect (g : Group) (l : List (Nat × Word)) : Group := { g with regs := { g.regs with v := l } }

/-- A stack entry, and a group in supervisor mode. -/
def ent (k : SKind) (mask : Word) (pc : BitVec 56) : Entry := { waiting := false, tmo := 0, kind := k, mask := mask, pc := pc }
def supG : Group := { g0 with ctl := { g0.ctl with stack := [ent .trap 0xFFFFFFFF 0x10000], supAt := some 1 } }

/-- A group whose scalar pair at 0 is the own scratchpad window's base. -/
def gS : Group := scal g0 [(1, 0x00FE0000)]

/-- `Ready` as a check. -/
def readyB (i : Instr) (s : State) (g : Group) : Bool :=
  decide (s.group s.own.cur = some g) &&
  match i.row with
  | none => true
  | some (f, r) =>
    (namedRegs r f).all (fun n => s.owns g n.scalar n.reg && (n.role == .peek || !g.isEmpty n.scalar n.reg) &&
      (n.role == .dst || decide (if n.scalar then n.reg ∉ g.regs.sbad else ∀ k ∈ g.regs.vbad, k / 32 ≠ n.reg))) && (!r.sup || g.priv)

theorem ready_of {i : Instr} {s : State} {g : Group} (h : readyB i s g = true) : Ready i s g := by
  unfold readyB at h
  rw [Bool.and_eq_true, decide_eq_true_eq] at h
  refine ⟨h.1, fun f r hr => ?_⟩
  have h2 := h.2
  rw [hr] at h2
  simp only [Bool.and_eq_true, List.all_eq_true, Bool.or_eq_true, Bool.not_eq_true', beq_iff_eq, decide_eq_true_eq] at h2
  refine ⟨fun n hn => ⟨(h2.1 n hn).1.1, fun hp => ?_, fun hp => ?_⟩, fun hs => ?_⟩
  · exact (h2.1 n hn).1.2.resolve_left hp
  · exact (h2.1 n hn).2.resolve_left hp
  · exact h2.2.resolve_left (by simp [hs])

/-- `Ready` for every row of a table. -/
theorem ready_all {α : Type} {l : List α} {c : α → Instr} {s : State} {g : Group}
    (h : l.all (fun p => readyB (c p) s g) = true) : ∀ p ∈ l, Ready (c p) s g :=
  fun p hp => ready_of (List.all_eq_true.mp h p hp)

/-- What an option holds satisfies what holds of its one value. -/
theorem only {α : Type} {o : Option α} {x : α} (e : o = some x) {P : α → Prop} (h : P x) : ∀ b, o = some b → P b := by
  intro b hb; cases e.symm.trans hb; exact h

theorem node_dev (b : Block) (g : Group) (n : Nat) : (dev b g).node n = core0 ∨ (dev b g).node n = Node.reset := by
  unfold State.node Sparse.get dev
  by_cases h : n = 0
  · left; subst h; rfl
  · right; simp [Sparse.find, Ne.symm h]

theorem quiet_dev {b : Block} {g : Group} (h : g.out.storeFail = [] ∧ g.block = 1 ∧ b.contain = false) :
    Quiet (dev b g) g := by
  refine ⟨fun n => ?_, fun a ha => by simp [dev, State.reset] at ha, rfl, h.1, ?_, ?_⟩
  · rcases node_dev b g n with h | h <;> rw [h] <;> rfl
  · unfold State.holding; split <;> rfl
  · rw [h.2.1]; exact only rfl h.2.2

/-- `Here` as a check. -/
def hereB (l : List (Nat × List Piece)) : Bool := l.all (fun x => x.2.all (fun p => match p.tgt with | .here _ _ => true | _ => false))

theorem here_of {l : List (Nat × List Piece)} (h : hereB l = true) : Here l := by
  intro x hx p hp
  have h1 := List.all_eq_true.mp h x hx
  have h2 := List.all_eq_true.mp h1 p hp
  revert h2
  cases p.tgt with
  | here a b => intro _; exact ⟨a, b, rfl⟩
  | _ => intro h; simp at h

/-- The pieces of a check that succeeds. -/
def okOf {ε α : Type} (d : α) (r : Except ε α) : α := match r with | .ok l => l | .error _ => d
theorem ok_of {ε α : Type} {r : Except ε α} (d : α) (h : r.isOk = true) : r = .ok (okOf d r) := by
  cases r with
  | ok l => rfl
  | error e => simp [Except.isOk, Except.toBool] at h

/-! ### Witnesses: scalar and control instructions -/

theorem witness_ScalarArithmetic : (∀ p ∈ scalarTable, Ready (p.1 F) (base g0) g0 ∧ ScalarDst F.d) ∧
    ((0x0080000000000040 : Nat) % 4 < 2 ∧ 0x0080000000000040 / 4 % 256 = 0x10 ∧ 0x0080000000000040 / 1024 % 64 ∈ [0, 1, 2, 4, 5, 6, 7] ∧
      0x0080000000000040 / 2 ^ 55 % 2 = 1) :=
  ⟨fun p hp => ⟨ready_all (c := fun p => p.1 F) (by decide +kernel) p hp, .inl (by decide)⟩, by decide⟩

/-- R104: UNS 1 in sadd is reason 5 with the field code of MOD. -/
theorem test_sadd_uns : decode 0x0080000000000040 = .error (.illop 5 8) := by rfl

theorem witness_ScalarMovesAndFields : ∀ p ∈ scalarTable2, Ready (p.1 F) (base g0) g0 ∧ ScalarDst F.d :=
  fun p hp => ⟨ready_all (c := fun p => p.1 F) (by decide +kernel) p hp, .inl (by decide)⟩

/-- EXM as a destination is the other side of `ScalarDst`. -/
theorem witness_ScalarDst_exm : ScalarDst 138 ∧ Ready (.sadd { F with d := 138 }) (base g0) g0 :=
  ⟨.inr rfl, ready_of (by decide +kernel)⟩

theorem witness_ScalarPairs : (∀ p ∈ pairTable, Ready (p.1 F) (base g0) g0) ∧ Ready (.smov64 F) (base g0) g0 ∧ Ready (.slea F) (base g0) g0 :=
  ⟨fun p hp => ready_all (c := fun p => p.1 F) (by decide +kernel) p hp, ready_of (by decide +kernel), ready_of (by decide +kernel)⟩

theorem witness_UniformBranches : ∀ p ∈ branchTable, Ready (p.1 F) (base g0) g0 ∧ (branchTarget g0 F).toNat % 4 = 0 :=
  fun p hp => ⟨ready_all (c := fun p => p.1 F) (by decide +kernel) p hp, by decide +kernel⟩

/-- Both outcomes of a condition: s0 is 0, so bz goes and bnz does not. -/
theorem witness_UniformBranches_both : (base g0).readS g0 F.a = 0 ∧ ¬ (base g0).readS g0 F.a ≠ 0 := by decide +kernel

theorem witness_StructuredDivergence : ∀ p ∈ divergeTable, Ready (p.1 F) (base g0) g0 ∧ branchTarget g0 F ≠ 0 ∧
    (branchTarget g0 F).toNat % 4 = 0 ∧ g0.ctl.stack.length + 2 ≤ g0.stackMax :=
  fun p hp => ⟨ready_all (c := fun p => p.1 F) (by decide +kernel) p hp, by decide +kernel, by decide +kernel, by decide +kernel⟩

/-- bdivs with some lanes taken, with none and with all: s0 is 5, s1 is 0 and s2 has every bit set. -/
theorem witness_StructuredDivergence_sets :
    (let g := scal g0 [(0, 5), (2, 0xFFFFFFFF)]
     ((base g).readS g 0).getLsbD 0 = true ∧ ((base g).readS g 0).getLsbD 1 = false ∧ (base g).readS g 1 = 0 ∧
       (base g).readS g 2 = 0xFFFFFFFF ∧ ∀ x ∈ [0, 1, 2], readyB (.bdivs { F with a := x }) (base g) g = true) := by decide +kernel

def gDiv : Group := stacked g0 [ent .div 0xF 0x100]
def gCall : Group := stacked g0 [ent .call 0xF 0x100]
def gUni : Group := stacked g0 [ent .divw 0xF 0]
def gPath : Group := stacked g0 [ent .divw 0xF 0x100, ent .divw 0xFF 0]
def gHere : Group := stacked g0 [{ ent .divw 0xF 0x10000 with waiting := true }, ent .divw 0xFF 0]

theorem witness_StackReturns :
    (Ready (.join F) (base gDiv) gDiv ∧ (ent .div 0xF 0x100).kind ≠ .call ∧ (ent .div 0xF 0x100).kind ≠ .trap) ∧
    (Ready (.ret F) (base gCall) gCall ∧ (ent .call 0xF 0x100).kind = .call) ∧
    (Ready (.joinw F) (base gUni) gUni ∧ gUni.ctl.stack = [ent .divw 0xF 0]) ∧
    (Ready (.joinw F) (base gPath) gPath ∧ (0x100#56).zeroExtend 64 ≠ gPath.ctl.pc) ∧
    (Ready (.joinw F) (base gHere) gHere ∧ (0x10000#56).zeroExtend 64 = gHere.ctl.pc) :=
  ⟨⟨ready_of (by decide +kernel), by decide, by decide⟩, ⟨ready_of (by decide +kernel), rfl⟩, ⟨ready_of (by decide +kernel), rfl⟩,
    ⟨ready_of (by decide +kernel), by decide⟩, ready_of (by decide +kernel), by decide⟩

theorem witness_StackTraps :
    (∀ c ∈ [Instr.join, Instr.joinw, Instr.ret, Instr.rft, Instr.sret], Ready (c F) (base supG) supG) ∧
    (∀ c ∈ [Instr.join, Instr.joinw, Instr.ret, Instr.rft], Ready (c F) (base g0) g0 ∧ g0.ctl.stack = []) ∧
    (∀ c ∈ [Instr.joinw, Instr.rft], Ready (c F) (base gCall) gCall) ∧ Ready (.ret F) (base gDiv) gDiv :=
  ⟨ready_all (c := fun (c : Fields → Instr) => c F) (by decide +kernel), fun c hc => ⟨ready_all (c := fun c => c F) (by decide +kernel) c hc, rfl⟩,
    ready_all (c := fun (c : Fields → Instr) => c F) (by decide +kernel), ready_of (by decide +kernel)⟩

/-- sret in supervisor mode with an empty stack, and with an entry of another kind on top of its TRAP entry. -/
theorem witness_StackTraps_sret :
    (let g := stacked supG []
     Ready (.sret F) (base g) g ∧ g.ctl.stack = []) ∧
    (let g := stacked supG (ent .div 1 0 :: supG.ctl.stack)
     Ready (.sret F) (base g) g) := ⟨⟨ready_of (by decide +kernel), rfl⟩, ready_of (by decide +kernel)⟩

theorem witness_ControlTraps :
    (∀ c ∈ [Instr.br, Instr.bz, Instr.bnz, Instr.bmz, Instr.bmnz, Instr.bvany, Instr.bvall, Instr.bdiv, Instr.bdivw, Instr.bdivs,
      Instr.call], Ready (c { F with imm := 2 }) (base g0) g0 ∧ (branchTarget g0 { F with imm := 2 }).toNat % 4 ≠ 0) ∧
    (let g := scal g0 [(0, 2)]
     ∀ c ∈ [Instr.jmp, Instr.calli], Ready (c F) (base g) g ∧ ((base g).readSP g F.a).toNat % 4 ≠ 0) :=
  ⟨fun c hc => ⟨ready_all (c := fun c => c { F with imm := 2 }) (by decide +kernel) c hc, by decide +kernel⟩,
    fun c hc => ⟨ready_all (c := fun c => c F) (by decide +kernel) c hc, by decide +kernel⟩⟩

/-- A device whose next fetch at 0x10000 gives an instruction marked LAND, with v0 of every lane at that address. -/
def gJ : Group := vect g0 ((List.range 32).map (fun L => (L, 0x10000#32)))
def landing : State := (State.reset.withFetchWord 64 0x0040000000000400).setGroup 1 gJ
def fJ : Fields := { F with a := 0, b := 1 }

theorem witness_JumpsCallsAndTargets :
    (Ready (.jmp F) (base g0) g0 ∧ ((base g0).readSP g0 F.a).toNat % 4 = 0) ∧
    (∀ p ∈ [(Instr.call, branchTarget g0 F), (Instr.calli, (base g0).readSP g0 F.a)], Ready (p.1 F) (base g0) g0 ∧ p.2.toNat % 4 = 0 ∧
      g0.ctl.stack.length < g0.stackMax ∧ g0.visitor = none) ∧
    (let g := stacked g0 (List.replicate 256 (ent .call 1 0))
     Ready (.call F) (base g) g ∧ g.visitor = none ∧ 256 ≤ g.ctl.stack.length) ∧
    (Ready (.jmpi fJ) landing gJ ∧ (∀ L, L < 32 → (pairOf (landing.readV gJ fJ.a.toNat L) (landing.readV gJ fJ.b.toNat L)) = 0x10000) ∧
      (∃ w, landing.fetch gJ 0x10000 = .ok w) ∧ landing.landBit gJ 0x10000 = true ∧ gJ.ctl.stack.length + 32 ≤ gJ.stackMax) :=
  ⟨⟨ready_of (by decide +kernel), by decide +kernel⟩,
    fun p hp => ⟨ready_all (c := fun p => p.1 F) (by decide +kernel) p hp,
      (by decide +kernel : ∀ p ∈ [(Instr.call, branchTarget g0 F), (Instr.calli, (base g0).readSP g0 F.a)], p.2.toNat % 4 = 0) p hp,
      by decide +kernel, rfl⟩,
    ⟨ready_of (by decide +kernel), rfl, by decide +kernel⟩, ready_of (by decide +kernel), by decide +kernel, by
      have h : (match landing.fetch gJ 0x10000 with | .ok _ => true | .error _ => false) = true := by
        decide +kernel
      revert h
      cases landing.fetch gJ 0x10000 with
      | ok w => intro _; exact ⟨w, rfl⟩
      | error e => intro h; simp at h, by decide +kernel, by decide +kernel⟩

/-- jmpi with no active lane. -/
theorem witness_jmpi_none :
    (let g := masked gJ 0 0xFFFFFFFF
     Ready (.jmpi fJ) (landing.setGroup 1 g) g ∧ g.ctl.exm = 0) := ⟨ready_of (by decide +kernel), rfl⟩

theorem witness_LeavingLanes :
    (∀ c ∈ [Instr.nop, .exit, .exitm], Ready (c F) (base g0) g0 ∧ g0.visitor = none) ∧
    (let g := masked g0 1 3
     Ready (.exit F) (base g) g ∧ g.ctl.livem &&& ~~~g.ctl.exm ≠ 0) ∧
    (g0.ctl.livem &&& ~~~g0.ctl.exm = 0 ∧ (base g0).producing 1 = false) ∧
    (∀ g ∈ [g0, masked g0 1 3], NoMatrixWaits (base g) g.owner) :=
  ⟨fun c hc => ⟨ready_all (c := fun c => c F) (by decide +kernel) c hc, rfl⟩, ⟨ready_of (by decide +kernel), by decide⟩, by decide +kernel,
    fun g hg p hp _ => by
      rw [List.mem_singleton.mp hp]
      simp only [List.mem_cons, List.not_mem_nil, or_false] at hg
      rcases hg with rfl | rfl <;> exact ⟨rfl, rfl, fun h => absurd rfl h⟩⟩

/-! ### Witnesses: vector instructions -/

theorem witness_VectorElements : ∀ p ∈ vectorTable, Ready (p.1 F) (base g0) g0 :=
  fun p hp => ready_all (c := fun p => p.1 F) (by decide +kernel) p hp

theorem witness_VectorWordsAndPairs : (∀ p ∈ vectorTable2, Ready (p.1 F) (base g0) g0) ∧ Ready (.vadd64 F) (base g0) g0 ∧
    Ready (.vmulw F) (base g0) g0 :=
  ⟨fun p hp => ready_all (c := fun p => p.1 F) (by decide +kernel) p hp, ready_of (by decide +kernel), ready_of (by decide +kernel)⟩

theorem witness_VectorFloats : ∀ p ∈ floatTable, Ready (p.1 F) (base g0) g0 :=
  fun p hp => ready_all (c := fun p => p.1 F) (by decide +kernel) p hp

theorem witness_FloatCases : isNan 0x7FC00000 = true ∧ isNan 0 = false ∧ (1 < 8 ∧ (isNan 0x7FC00000 || isNan 0) = true) := by decide +kernel

theorem witness_Conversions :
    (Ready (.vcvti F) (base g0) g0 ∧ F.mf 9 7 / 2 ≠ 1) ∧
    (Ready (.vcvti { F with mod := 128 }) (base g0) g0 ∧ ({ F with mod := 128 } : Fields).mf 9 7 / 2 = 1) ∧
    (Ready (.vcvtf F) (base g0) g0 ∧ F.mf 6 4 / 2 = 0) ∧
    (Ready (.vcvtf { F with mod := 16 }) (base g0) g0 ∧ ({ F with mod := 16 } : Fields).mf 6 4 / 2 = 1 ∧ F.len = .w64) ∧
    (Ready (.vcvtn { F with mod := 8 }) (base g0) g0 ∧ 2 * ({ F with mod := 8 } : Fields).mf 9 7 * (floatCode (({ F with mod := 8 } : Fields).mf 6 4)).bits = 0 ∧
      (2 * ({ F with mod := 8 } : Fields).mf 9 7 + 2) * (floatCode (({ F with mod := 8 } : Fields).mf 6 4)).bits ≤ 32) :=
  ⟨⟨ready_of (by decide +kernel), by decide⟩, ⟨ready_of (by decide +kernel), by decide⟩, ⟨ready_of (by decide +kernel), by decide⟩,
    ⟨ready_of (by decide +kernel), by decide, rfl⟩, ready_of (by decide +kernel), by decide +kernel, by decide +kernel⟩

theorem witness_PackedElements :
    (∀ c ∈ [Instr.vadd2, .vmul2, .vfma2], Ready (c F) (base g0) g0) ∧ (∀ p ∈ packTable, Ready (p.1 F) (base g0) g0) ∧
    (∀ p ∈ [(Instr.vdot8, 8), (Instr.vdot4, 4)], Ready (p.1 F) (base g0) g0 ∧ F.mf 2 1 < 2) :=
  ⟨ready_all (c := fun (c : Fields → Instr) => c F) (by decide +kernel),
    fun p hp => ready_all (c := fun p => p.1 F) (by decide +kernel) p hp,
    fun p hp => ⟨ready_all (c := fun p => p.1 F) (by decide +kernel) p hp, by decide⟩⟩

/-- vamax with a NaN in an active lane and with none; vscale and vdeq with the NaN scale; vsc8 of zero; vqnt outside its slot; vhad with EXM zero and not. -/
theorem witness_Quantising :
    (∀ c ∈ [Instr.vamax, .vscale, .vsc8, .vqnt, .vdeq, .vhad], Ready (c F) (base g0) g0) ∧
    (let g := vect g0 [(0, 0x7FC00000)]
     g.ctl.exm.getLsbD 0 = true ∧ isNan ((base g).readV g 0 0) = true) ∧
    (∀ L, L < 32 → isNan ((base g0).readV g0 0 L) = false) ∧
    (let g := vect g0 [(0, 255)]
     ((base g).opB g (rowVscale F) F 0).toNat % 256 = 255 ∧ ((base g).opB g (rowVdeq F) F 0).toNat % 256 = 255) ∧
    ((base g0).readV g0 0 0).toNat % 2 ^ 31 = 0 ∧ (F.mf 7 5 + 1) * codeWidth (F.mf 4 1) ≤ 31 ∧ g0.ctl.exm ≠ 0 ∧
    (let g := masked g0 0 1
     Ready (.vhad F) (base g) g ∧ g.ctl.exm = 0) :=
  ⟨ready_all (c := fun (c : Fields → Instr) => c F) (by decide +kernel), by decide +kernel, by decide +kernel, by decide +kernel, by decide +kernel,
    by decide +kernel, by decide +kernel, ready_of (by decide +kernel), rfl⟩

theorem witness_LaneExchange : F.mf 4 2 < 5 ∧ (∀ p ∈ exchangeTable, Ready (p.1 F) (base g0) g0) ∧ Ready (.qxch F) (base g0) g0 :=
  ⟨by decide, fun p hp => ready_all (c := fun p => p.1 F) (by decide +kernel) p hp, ready_of (by decide +kernel)⟩

theorem witness_MasksCountsAndPrefixes :
    ScalarDst F.d ∧ (∀ c ∈ [Instr.vcmpm, .vcmpmF32, .vballot, .vreduce, .vpopm, .vprefix], Ready (c F) (base g0) g0) ∧
    F.m 5 = false ∧ F.mf 7 6 = 0 ∧ g0.ctl.exm.getLsbD 0 = true ∧
    (let g := masked g0 0 1
     Ready (.vreduce F) (base g) g ∧ Ready (.vprefix F) (base g) g ∧ g.ctl.exm = 0) :=
  ⟨.inl (by decide), ready_all (c := fun (c : Fields → Instr) => c F) (by decide +kernel), by decide, by decide, by decide,
    ready_of (by decide +kernel), ready_of (by decide +kernel), rfl⟩

/-! ### Witnesses: memory access -/

theorem witness_EffectiveAddresses : (0xFE : Nat) < 256 := by decide

/-- The pieces of a check that passes, none of which leaves the device. -/
def pieces (r : Except Raise (List (Nat × List Piece))) : List (Nat × List Piece) := okOf [] r

theorem witness_LoadsIssue :
    (∀ p ∈ loadTable, Ready (p.1 F) (base gS) gS) ∧ gS.ctl.exm ≠ 0 ∧ Quiet (base gS) gS ∧
    (∀ p ∈ loadTable, ∃ l, (base gS).check gS {} (accSize (F.mf 5 3)).1 ((lanesOf gS.ctl.exm).map (fun L => (L, p.2 (base gS) gS F L))) = .ok l ∧
      Here (l ++ (base gS).checkHelpers gS {} (accSize (F.mf 5 3)).1 ((lanesOf gS.helpers).map (fun L => (L, p.2 (base gS) gS F L))))) ∧
    (∀ c ∈ [Instr.sld, .vldbc], Ready (c F) (base gS) gS) ∧
    (∃ l, (base gS).check gS { priv := false } (accSize (F.mf 5 3)).1 [(0, addrS (base gS) gS F)] = .ok l ∧ Here l) := by
  refine ⟨fun p hp => ready_all (c := fun p => p.1 F) (by decide +kernel) p hp, by decide, quiet_dev ⟨rfl, rfl, rfl⟩, fun p hp => ?_,
    ready_all (c := fun (c : Fields → Instr) => c F) (by decide +kernel), _, ok_of [] (by decide +kernel), here_of (by decide +kernel)⟩
  have h := List.all_eq_true.mp (by decide +kernel : loadTable.all (fun p =>
    ((base gS).check gS {} (accSize (F.mf 5 3)).1 ((lanesOf gS.ctl.exm).map (fun L => (L, p.2 (base gS) gS F L)))).isOk &&
    hereB (pieces ((base gS).check gS {} (accSize (F.mf 5 3)).1 ((lanesOf gS.ctl.exm).map (fun L => (L, p.2 (base gS) gS F L)))) ++
      (base gS).checkHelpers gS {} (accSize (F.mf 5 3)).1 ((lanesOf gS.helpers).map (fun L => (L, p.2 (base gS) gS F L))))) = true) p hp
  rw [Bool.and_eq_true] at h
  exact ⟨_, ok_of [] h.1, here_of h.2⟩

/-- With a helper lane: lane 1 has left and lane 0 of its quad is active. -/
theorem witness_LoadsIssue_helper :
    (let g := masked gS 1 0xFFFFFFFD
     Ready (.vld F) (base g) g ∧ g.helpers = 2) := ⟨ready_of (by decide +kernel), by decide +kernel⟩

theorem witness_StoresIssue :
    (∀ p ∈ storeTable, Ready (p.1 F) (base gS) gS) ∧ (base gS).block gS.block = some blk ∧ gS.ctl.exm ≠ 0 ∧ Quiet (base gS) gS ∧
    (∀ p ∈ storeTable, ∃ l, (base gS).check gS { write := true, noField := true } (accSize (F.mf 5 3)).1
      ((lanesOf gS.ctl.exm).map (fun L => (L, p.2 (base gS) gS F L))) = .ok l ∧ Here l ∧ ∃ x ∈ l, x.2 ≠ []) ∧
    Ready (.sst F) (base gS) gS ∧ F.mf 5 3 ≤ 4 ∧
    (∃ l, (base gS).check gS { write := true, noField := true, priv := false } (accSize (F.mf 5 3)).1 [(0, addrS (base gS) gS F)] = .ok l ∧ Here l ∧
      ∃ x ∈ l, x.2 ≠ []) := by
  refine ⟨fun p hp => ready_all (c := fun p => p.1 F) (by decide +kernel) p hp, rfl, by decide, quiet_dev ⟨rfl, rfl, rfl⟩, fun p hp => ?_,
    ready_of (by decide +kernel), by decide, _, ok_of [] (by decide +kernel), here_of (by decide +kernel), by decide +kernel⟩
  have h := List.all_eq_true.mp (by decide +kernel : storeTable.all (fun p =>
    let r := (base gS).check gS { write := true, noField := true } (accSize (F.mf 5 3)).1 ((lanesOf gS.ctl.exm).map (fun L => (L, p.2 (base gS) gS F L)))
    r.isOk && hereB (pieces r) && (pieces r).any (fun x => !x.2.isEmpty)) = true) p hp
  rw [Bool.and_eq_true, Bool.and_eq_true] at h
  obtain ⟨x, hx, hy⟩ := List.any_eq_true.mp h.2
  exact ⟨_, ok_of [] h.1.1, here_of h.1.2, x, hx, by intro he; simp [he] at hy⟩

theorem witness_AtomicsIssue :
    (∀ p ∈ [(Instr.vatom, 4), (Instr.vcas, 4), (Instr.vred, 4), (Instr.vatom64, 8), (Instr.vcas64, 8)], Ready (p.1 F) (base gS) gS ∧
      ∃ l, (base gS).check gS { write := true, noField := true, align := p.2, priv := false } p.2
        ((lanesOf gS.ctl.exm).map (fun L => (L, atomicAddr (base gS) gS F p.2 L))) = .ok l ∧ Here l) ∧ gS.ctl.exm ≠ 0 ∧ Quiet (base gS) gS ∧
    (∀ c ∈ [Instr.satom, .scas, .faddt], Ready (c F) (base gS) gS) ∧
    (∃ l, (base gS).check gS { write := true, noField := true, align := 4, priv := false } 4
      [(0, BitVec.ofInt 64 (((base gS).readSP gS F.a).toInt + ((base gS).readS gS F.b).toInt))] = .ok l ∧ Here l) ∧
    (∃ l, (base gS).check gS { write := true, noField := true, align := 4, priv := false, peer := false } 4 [(0, (base gS).readSP gS F.a)] = .ok l ∧
      Here l) := by
  refine ⟨fun p hp => ⟨ready_all (c := fun p => p.1 F) (by decide +kernel) p hp, ?_⟩, by decide, quiet_dev ⟨rfl, rfl, rfl⟩,
    ready_all (c := fun (c : Fields → Instr) => c F) (by decide +kernel), ⟨_, ok_of [] (by decide +kernel), here_of (by decide +kernel)⟩,
    _, ok_of [] (by decide +kernel), here_of (by decide +kernel)⟩
  have h := List.all_eq_true.mp (by decide +kernel : [(Instr.vatom, 4), (Instr.vcas, 4), (Instr.vred, 4), (Instr.vatom64, 8), (Instr.vcas64, 8)].all (fun p =>
    let r := (base gS).check gS { write := true, noField := true, align := p.2, priv := false } p.2
        ((lanesOf gS.ctl.exm).map (fun L => (L, atomicAddr (base gS) gS F p.2 L)))
    r.isOk && hereB (pieces r)) = true) p hp
  rw [Bool.and_eq_true] at h
  exact ⟨_, ok_of [] h.1, here_of h.2⟩

/-- EXM zero; and an atomic at the odd offset 1 of the own scratchpad. -/
def gOdd : Group := scal g0 [(0, 1), (1, 0x00FE0000)]
theorem witness_AccessEdges :
    (let g := masked g0 0 1
     ∀ c ∈ [Instr.vld, Instr.vldrb, Instr.vldbc, Instr.vldscr, Instr.vldcw, Instr.vldp, Instr.vst, Instr.vstscr, Instr.vstcw, Instr.vstp, Instr.vatom,
        Instr.vcas, Instr.vred, Instr.vatom64, Instr.vcas64, Instr.wwait, Instr.wwaitt, Instr.wwake], Ready (c F) (base g) g ∧ g.ctl.exm = 0) ∧
    (∀ p ∈ [(Instr.vatom, 4), (Instr.vcas, 4), (Instr.vred, 4), (Instr.vatom64, 8), (Instr.vcas64, 8)], Ready (p.1 F) (base gOdd) gOdd ∧
      gOdd.visitor = none ∧ ((base gOdd).block gOdd.block).isSome ∧ gOdd.ctl.exm.getLsbD 0 = true ∧
      (atomicAddr (base gOdd) gOdd F p.2 0).toNat % p.2 ≠ 0 ∧
      ∀ M, M < 32 → gOdd.ctl.exm.getLsbD M = true → bitsAt (atomicAddr (base gOdd) gOdd F p.2 M) 55 48 ≠ 0xFD) :=
  ⟨fun c hc => ⟨ready_all (c := fun (c : Fields → Instr) => c F) (by decide +kernel) c hc, rfl⟩,
    fun p hp => ⟨ready_all (c := fun p => p.1 F) (by decide +kernel) p hp, rfl, rfl, by decide,
      (by decide +kernel : ∀ p ∈ [(Instr.vatom, 4), (Instr.vcas, 4), (Instr.vred, 4), (Instr.vatom64, 8), (Instr.vcas64, 8)],
        (atomicAddr (base gOdd) gOdd F p.2 0).toNat % p.2 ≠ 0) p hp,
      (by decide +kernel : ∀ p ∈ [(Instr.vatom, 4), (Instr.vcas, 4), (Instr.vred, 4), (Instr.vatom64, 8), (Instr.vcas64, 8)],
        ∀ M, M < 32 → gOdd.ctl.exm.getLsbD M = true → bitsAt (atomicAddr (base gOdd) gOdd F p.2 M) 55 48 ≠ 0xFD) p hp⟩⟩

theorem witness_AtomicOperations : (32 : Nat) ∈ [32, 64] ∧ 64 ∈ [32, 64] := by decide

theorem witness_WaitsIssue :
    (∀ c ∈ [Instr.wwait, .wwaitt, .wwake, .wcancel, .sleep], Ready (c F) (base gS) gS) ∧ gS.ctl.exm ≠ 0 ∧ Quiet (base gS) gS ∧
    (∃ l, (base gS).check gS { align := 4, priv := false, peer := false } 4
      ((lanesOf gS.ctl.exm).map (fun L => (L, atomicAddr (base gS) gS F 4 L))) = .ok l ∧ Here l) ∧
    (∃ l, (base gS).check gS { align := 4, priv := false, peer := false, noField := true } 4
      ((lanesOf gS.ctl.exm).map (fun L => (L, atomicAddr (base gS) gS F 4 L))) = .ok l) ∧
    (∃ l, (base gS).check gS { align := 4, priv := false, peer := false } 4 [(0, (base gS).readSP gS F.a)] = .ok l) :=
  ⟨ready_all (c := fun (c : Fields → Instr) => c F) (by decide +kernel), by decide, quiet_dev ⟨rfl, rfl, rfl⟩,
    ⟨_, ok_of [] (by decide +kernel), here_of (by decide +kernel)⟩, ⟨_, ok_of [] (by decide +kernel)⟩, _, ok_of [] (by decide +kernel)⟩

/-- An access of group 1 with one part. -/
def part1 (loc : Loc) (data cmp : List Byte) : Part :=
  { id := 1, vis := 0, lane := 0, lanes := 1, loc := loc, il := 0, peer := none, msg := none, addr := 0, off := 0, len := 4, data := data, cmp := cmp }
def acc1 (k : AKind) (p : Part) (regs : Nat) : Access :=
  { id := 1, once := false, helpers := 0, corAt := 0, gid := 1, node := 0, ctx := 1, kind := k, acq := false, rel := false, scope := 0, rmt := false, rb := false, vec := true, dst := 4,
    regs := regs, lanes := 1, parts := [p], got := [], fails := [] }
def withAcc (s : State) (a : Access) : State := { s with accs := [a], own := { s.own with ids := 2 } }

/-- A store to far memory that is still on its way holds a fence at .dev. -/
def pending : State := withAcc (base g0) (acc1 .store (part1 (.mem 0x5000) [1, 2, 3, 4] []) 0)

theorem quiet_pending : Quiet pending g0 := by
  refine ⟨fun n => ?_, fun a ha => ?_, rfl, rfl, rfl, only rfl rfl⟩
  · rcases node_dev blk g0 n with h | h <;> (show ((base g0).node n).wc = []) <;> unfold base <;> rw [h] <;> rfl
  · simp only [pending, withAcc, List.mem_singleton] at ha
    subst ha; intro p hp; simp only [acc1, List.mem_singleton] at hp; subst hp; rfl

theorem witness_FencesAndBuffers :
    Quiet (base g0) g0 ∧ (∀ c ∈ [Instr.fence, .fenceh, .fencep, .rbinv, .vpref, .wcfl], Ready (c F) (base g0) g0) ∧ F.mf 3 1 < 6 ∧ 5 < 6 ∧
    (∀ n ∈ [0, 3, 5], (base g0).unreleased (base g0).own.cur (base g0).own.ids n = false) ∧
    (base g0).peersOwing (base g0).own.cur (base g0).own.ids (some (((base g0).readS g0 F.a).toNat % 512)) = false ∧
    (Quiet pending g0 ∧ Ready (.fence { F with mod := 3 }) pending g0 ∧ Ready (.fenceh F) pending g0 ∧
      ({ F with mod := 3 } : Fields).mf 3 1 = 3 ∧ pending.unreleased pending.own.cur pending.own.ids 3 = true ∧
      pending.unreleased pending.own.cur pending.own.ids 5 = true) :=
  ⟨quiet_dev ⟨rfl, rfl, rfl⟩, ready_all (c := fun (c : Fields → Instr) => c F) (by decide +kernel), by decide, by decide, by decide +kernel,
    by decide +kernel, quiet_pending, ready_of (by decide +kernel), ready_of (by decide +kernel), by decide +kernel, by decide +kernel, by decide +kernel⟩

/-! ### Witnesses: accesses at their homes, events of a core -/

/-- Offset 0x100 of the slice of core 0. -/
def slice0 : Nat := 0x8000000100

theorem clean_of {s : State} {il key : Nat}
    (h : (decide (2 ^ 39 ≤ key) || (decide (s.ecc (s.scheme il key) (key / 32) = .clean) && !(s.reach il key).mixed key)) = true) {n : Nat} (hn : s.dram.sram = []) :
    Clean s il key n := by
  have hw : s.wordBad key n = false := by simp [State.wordBad, hn]
  rw [Bool.or_eq_true, decide_eq_true_eq, Bool.and_eq_true, decide_eq_true_eq, Bool.not_eq_true'] at h
  by_cases hk : 2 ^ 39 ≤ key
  · exact .inl ⟨hk, hw⟩
  · exact .inr ⟨by omega, h.resolve_left hk⟩

theorem wc_dev (b : Block) (g : Group) (n : Nat) : ((dev b g).node n).wc = [] := by
  rcases node_dev b g n with h | h <;> rw [h] <;> rfl

theorem noPeers {b : Block} {g : Group} {a : Access} {p : Part} (h : a.parts = [p]) (hp : p.peer = none) : NoPeers (withAcc (dev b g) a) := by
  refine ⟨wc_dev b g, fun x hx q hq => ?_, rfl⟩
  have hx : x = a := by simpa [withAcc] using hx
  rw [hx, h, List.mem_singleton] at hq
  rw [hq, hp]

/-- A vldrb of a far-memory word, and the read buffer of its core with the sector of that word. -/
def rbPart : Part := part1 (.mem 0x5000) [] []
def rbAcc : Access := { acc1 (.load 4) rbPart 1 with rb := true }
def rbSector : RbSector := { key := 0x280, ctx := 1, data := List.replicate 32 7 }

theorem witness_LoadsAndStoresAtHome :
    (let p := part1 (.mem slice0) [] []
     let a := acc1 (.load 4) p 1
     let s := withAcc (base g0) a
     s.partAt 1 1 = some (a, p, slice0) ∧ p.off + p.len ≤ 16 ∧ s.remote a.rmt a.node [(slice0, p.len)] = none ∧ ¬ Buffered a p slice0 ∧
       Clean s p.il slice0 p.len ∧ s.unsettledByte a.gid slice0 = false ∧ a.homeOnly = false ∧
       (∀ q ∈ a.parts, q.id = p.id) ∧ a.vec = true ∧ a.fails = [] ∧ a.rel = false ∧ s.group a.gid = some g0 ∧ s.imageOf g0 = none ∧
       g0.ctl.livem ≠ 0 ∧ { a with acq := true, scope := 3 }.homeOnly = true) ∧
    (∀ l ∈ [[rbSector], []], let s := (withAcc (base g0) rbAcc).modNode 0 (fun n => { n with rb := l })
     s.partAt 1 1 = some (rbAcc, rbPart, 0x5000) ∧ s.remote rbAcc.rmt rbAcc.node [(0x5000, rbPart.len)] = none ∧
       (s.node rbAcc.node).rb.find? (fun e => e.key = 0x5000 / 32 && e.ctx = rbAcc.ctx) = l.head?) ∧
    Buffered rbAcc rbPart 0x5000 ∧ Clean (withAcc (base g0) rbAcc) rbPart.il (0x5000 / 32 * 32) 32 ∧
    (let p := part1 (.mem slice0) [1, 2, 3, 4] []
     let a := acc1 .store p 0
     let s := withAcc (base g0) a
     s.partAt 1 1 = some (a, p, slice0) ∧ a.regs = 0 ∧ Clean s p.il slice0 p.data.length ∧ NoPeers s) :=
  ⟨⟨by decide +kernel, by decide, by decide +kernel, fun h => by simp [Buffered, acc1] at h, .inl ⟨by decide, rfl⟩, by decide +kernel, rfl,
      by decide +kernel, rfl, rfl, rfl, rfl, by decide +kernel, by decide, rfl⟩,
    by decide +kernel, ⟨rfl, by decide, 0x5000, rfl⟩, clean_of (by decide +kernel) rfl,
    by decide +kernel, rfl, .inl ⟨by decide, rfl⟩, noPeers rfl rfl⟩

theorem witness_AtomicAtHome : ∀ k ∈ [(AKind.atomic 0 false false), (.atomic 0 false true), .faddt],
    (let p := part1 (.mem slice0) [1, 0, 0, 0] [0, 0, 0, 0]
     let a := acc1 k p 1
     let s := withAcc (base g0) a
     s.partAt 1 1 = some (a, p, slice0) ∧ s.remote a.rmt a.node [(slice0, p.len)] = none ∧ s.group a.gid = some g0 ∧ s.imageOf g0 = none ∧
       p.len = 4 ∧ Clean s p.il slice0 p.len ∧ NoPeers s) := by
  intro k hk
  have h := (by decide +kernel : ∀ k ∈ [(AKind.atomic 0 false false), (.atomic 0 false true), .faddt],
    (let p := part1 (.mem slice0) [1, 0, 0, 0] [0, 0, 0, 0]
     let a := acc1 k p 1
     let s := withAcc (base g0) a
     s.partAt 1 1 = some (a, p, slice0) ∧ s.remote a.rmt a.node [(slice0, p.len)] = none ∧ s.group a.gid = some g0 ∧ s.imageOf g0 = none)) k hk
  exact ⟨h.1, h.2.1, h.2.2.1, h.2.2.2, rfl, .inl ⟨by decide, rfl⟩, noPeers rfl rfl⟩

/-- An entry of the wait table of core 0: answered, or waiting until cycle 0. -/
def waitEnt (ans : Option Word) : WaitEntry :=
  { id := 5, loc := slice0, il := 0, bad := false, mask := 0xFFFFFFFF, cmp := 0, e := 1, gid := 1, acc := 1, part := 1, deadline := some 0, ans := ans }

def waitDev (ans : Option Word) : State := (base g0).modNode 0 (fun n => { n with waits := [waitEnt ans] })

def waitAcc : Access := acc1 (.wait 0 none) (part1 (.mem slice0) [255, 255, 255, 255] [1, 0, 0, 0]) 1

theorem witness_WaitTables :
    ((withAcc (base g0) waitAcc).partAt 1 1 = some (waitAcc, part1 (.mem slice0) [255, 255, 255, 255] [1, 0, 0, 0], slice0) ∧
      condWait 0 (BitVec.ofNat 32 (Mem.num (base g0).mem slice0 4) &&& 0xFFFFFFFF) (1 &&& 0xFFFFFFFF) = false ∧
      ((base g0).node (homeOf 0 slice0)).waits.length < 256 ∧ Clean (withAcc (base g0) waitAcc) 0 slice0 4) ∧
    ((waitDev (some 7)).waitEntry 5 = some (waitEnt (some 7)) ∧ (waitEnt (some 7)).ans = some 7) ∧
    (waitDev none).waitEntry 5 = some (waitEnt none) ∧ (waitEnt none).ans = none ∧ (waitEnt none).deadline = some 0 ∧
      0 ≤ (waitDev none).clock.toNat :=
  ⟨⟨by decide +kernel, by decide +kernel, by decide +kernel, .inl ⟨by decide, rfl⟩⟩, ⟨by decide +kernel, rfl⟩, by decide +kernel, rfl, rfl, Nat.zero_le _⟩

def line0 : WcLine :=
  { id := 4, oldest := 1, peer := 3, addr := 0, mask := 0xF, data := [], writers := [1], ctx := 1, since := 0, closed := false, pkt := none }

/-- A packet of this device to device 3 in context 7 of a class, and its sending context. -/
def pkt (typ cls : Nat) (body : PBody) : Packet :=
  { typ := typ, cls := cls, kg := false, src := 0, dst := 3, mcast := false, plane := 0, hop := 256, dctx := 1, ctxno := 7, pseq := 0,
    msg := 0, offset := 0, msgLen := 1, asks := false, tagOk := true, body := body }
def sent (typ cls : Nat) (body : PBody) (p : Purpose) : Sent := { p := pkt typ cls body, purpose := p, sent := true, first := 0, last := 0 }
def ctxOf (cls : Nat) (l : List Sent) : SendCtx :=
  { peer := 3, cls := cls, gen := 0, ctxno := 7, next := 1, plane := 0, last := 0, cached := true, pkts := l }

/-- A group asleep until cycle 0, a gated core that an event has readied, a group whose joinw has waited long enough. -/
def asleep : Group := { g0 with sched := { g0.sched with hold := .sleep 0 } }
def gatedDev : State := (base g0).modNode 0 (fun n => { n with gated := true, waking := some 1 })
def late : Group :=
  { masked g0 0xF 0xFF with
    ctl := { (masked g0 0xF 0xFF).ctl with pc := 0x10040, stack := [{ ent .divw 0xF0 0x10000 with waiting := true }, ent .divw 0xFF 0] } }

/-- A line of core 0's write-combining buffer at the age at which it drains, and one whose packet is on its way. -/
def agedDev : State := { (base g0).modNode 0 (fun n => { n with wc := [line0] }) with clock := 1024 }
def lineSent : Sent := sent 1 0 (.write 0 []) (.line 0 4)
def lineDev : State := { base g0 with fab := { (base g0).fab with sctx := [ctxOf 0 [lineSent]] } }

theorem witness_CoreEvents :
    ((base asleep).group 1 = some asleep ∧ asleep.sched.hold = .sleep 0 ∧ 0 ≤ (base asleep).clock.toNat) ∧
    ((gatedDev.node 0).gated = true ∧ (gatedDev.node 0).waking = some 1) ∧
    ((base late).group 1 = some late ∧ (base late).joinwDue late = true) ∧
    (agedDev.accs = [] ∧ lineDev.accs = []) ∧ (line0 ∈ (agedDev.node 0).wc ∧ line0.closed = false ∧ line0.since + 1024 ≤ agedDev.clock.toNat) ∧
    (ctxOf 0 [lineSent] ∈ lineDev.fab.sctx ∧ lineSent ∈ (ctxOf 0 [lineSent]).pkts ∧ lineSent.purpose = .line 0 4 ∧ lineSent.sent = true) :=
  ⟨⟨rfl, rfl, Nat.zero_le _⟩, by decide +kernel, ⟨rfl, by decide +kernel⟩, ⟨rfl, rfl⟩, by decide +kernel, by simp [lineDev], by simp [ctxOf], rfl, rfl⟩

/-! ### Witnesses: conserved fields -/

/-- Context 1 with page tables: 0x10000 code, 0x20000 a field page, 0x30000 a plain page, each its own frame. -/
def tables : Mem :=
  Mem.wrBytes (Mem.wrBytes (placedTables []) 0x131010 (leBytes (0x20002 + 2 ^ 49) 8)) 0x131018 (leBytes 0x30002 8)

/-- Its entry in the context table. -/
def entry1 (flags : Byte) : List (Nat × Byte) :=
  Mem.wrBytes [] 64 (leBytes 0x100000 8 ++ leBytes 0x10000 8 ++ List.replicate 40 0 ++ [flags])

/-- A declared domain of 16 cells at 0x20000. -/
def dom : Domain :=
  { desc := [], base := 0x20000, ncell := 16, q64 := false, c := 5, lseed := 0, floor := 0, shadow := 0x30000, gup := 0, owner := 1, cq := 0,
    members := 1, kinds := [], pages := [2], keys := [], state := .active, fdecl := none, since := 0, dropping := false, dropped := [], asked := false }

def fieldDev (g : Group) : State :=
  { base g with
    mem := tables
    mgmt := { (base g).mgmt with ctxs := entry1 1 }
    fld := { (base g).fld with domains := [(0, dom)] } }

/-- Lane 0 active; pairs at 2 and 4 name cells 0 and 1, s6 and s7 the bounds of the give-up time, the pair at 8 the own scratchpad. -/
def gF : Group := scal (masked g0 1 1) [(2, 0x20000), (4, 0x20004), (6, 64), (7, 1000000), (9, 0x00FE0000)]
def fX (mod : BitVec 9) : Fields := { F with len := .w128, mod := mod, a := 2, e := 4, d := 5 }

theorem quiet_like {s : State} {g : Group} (h1 : ∀ n, (s.node n).wc = []) (h2 : s.accs = []) (h3 : s.fab.sctx = []) (h4 : g.out.storeFail = [])
    (h5 : s.block g.block = some blk) : Quiet s g :=
  ⟨h1, fun a ha => by simp [h2] at ha, h3, h4, by unfold State.holding; rw [h2]; split <;> rfl, only h5 rfl⟩

theorem quiet_field (g : Group) (h : g.out.storeFail = [] ∧ g.block = 1) : Quiet (fieldDev g) g :=
  quiet_like (wc_dev blk g) rfl rfl h.1 (by rw [h.2]; rfl)

theorem witness_FieldAccessIssue :
    (∀ m ∈ [0, 2], Ready (.xfer (fX m)) (fieldDev gF) gF ∧ fieldVerdict ((lanesOf gF.ctl.exm).map (xferCheck (fieldDev gF) gF (fX m))) = none ∧
      ∃ l, xferLane (fieldDev gF) gF (fX m) 0 = some l ∧ l.fabric = false ∧ l.okey ≠ l.dkey) ∧
    gF.ctl.exm = 1 ∧ Quiet (fieldDev gF) gF ∧ ((fieldDev gF).freeItag gF.owner).isSome = true ∧ (fX 0).m 2 = false ∧ (fX 2).m 2 = true ∧
    (let g := masked g0 0 1
     Ready (.xfer (fX 0)) (fieldDev g) g ∧ Ready (.vldf F) (fieldDev g) g ∧ g.ctl.exm = 0) ∧
    (∀ c ∈ [Instr.vldf, .sldf], Ready (c { F with a := 2, d := 12 }) (fieldDev gF) gF) ∧
    (∃ c, (fieldDev gF).cellAt gF false false true ((fieldDev gF).readSP gF 2) = (some c, []) ∧ c.fabric = false) := by
  refine ⟨fun m hm => ⟨ready_all (c := fun m => .xfer (fX m)) (by decide +kernel) m hm,
      (by decide +kernel : ∀ m ∈ [0, 2], fieldVerdict ((lanesOf gF.ctl.exm).map (xferCheck (fieldDev gF) gF (fX m))) = none) m hm, ?_⟩,
    rfl, quiet_field _ ⟨rfl, rfl⟩, by decide +kernel, by decide +kernel, by decide +kernel, ⟨ready_of (by decide +kernel), ready_of (by decide +kernel), rfl⟩,
    ready_all (c := fun (c : Fields → Instr) => c { F with a := 2, d := 12 }) (by decide +kernel), ?_⟩
  · have h := (by decide +kernel : ∀ m ∈ [0, 2], ((xferLane (fieldDev gF) gF (fX m) 0).any (fun l => !l.fabric && l.okey ≠ l.dkey)) = true) m hm
    revert h
    cases xferLane (fieldDev gF) gF (fX m) 0 with
    | none => simp
    | some l => intro h; exact ⟨l, rfl, by simpa using h⟩
  · refine ⟨{ addr := 0x20000, key := 0x20000, il := 0, dev := 0, fabric := false, did := 0 }, by decide +kernel, rfl⟩

theorem pair_of {α β : Type} (d : β) {r : α × Option β} (h : r.2.isSome = true) : r = (r.1, some (r.2.getD d)) := by
  obtain ⟨a, b⟩ := r
  cases b with
  | none => simp at h
  | some x => rfl

theorem pair_some {α β : Type} {r : α × Option β} {b : β} (h : r.2 = some b) : r = (r.1, some b) := by
  obtain ⟨a, c⟩ := r; simp at h; simp [h]

/-- The same group in supervisor mode. -/
def gP : Group := { gF with ctl := { gF.ctl with supAt := some 1, stack := [ent .trap 1 0x10000] } }

/-- The domain with member 1 beside this device; a result on its way. -/
def domM : Domain := { dom with members := 3 }
def landing0 (vals : List (Nat × Word)) : Landing := { id := 4, gid := 1, vec := false, dst := 8, vals := vals }

theorem witness_DomainInstructions :
    (∀ v ∈ [[(0, 7)], [(0, 7), (1, 8)]], let s := { base g0 with lands := [landing0 v] }
      s.lands.find? (fun l => l.id = (landing0 v).id) = some (landing0 v) ∧ s.group 1 = some g0 ∧ s.imageOf g0 = none ∧ g0.ctl.livem ≠ 0) ∧
    (∀ c ∈ [Instr.ftot, .fgup, .fdrop], Ready (c F) (fieldDev gP) gP) ∧ Declared (fieldDev gP) gP ((fieldDev gP).readS gP 0).toNat dom ∧
    F.mf 2 1 = 0 ∧ (Ready (.ftot { F with mod := 1 }) (fieldDev gP) gP ∧ ({ F with mod := 1 } : Fields).mf 2 1 ≠ 0 ∧ (fieldDev gP).fld.snaps = []) ∧
    (∀ p ∈ [(0, 0), (6, 64), (7, 1000000)], Ready (.fgup { F with b := p.1 }) (fieldDev gP) gP ∧ ((fieldDev gP).readS gP p.1).toNat = p.2) ∧
    ((fieldDev gP).domainBusy 0 = false ∧ (∀ m ∈ dom.devs, m ≠ (fieldDev gP).devid → m ∈ dom.dropped) ∧ dom.state ≠ .declaring) ∧
    (let s := { fieldDev gP with fld := { (fieldDev gP).fld with domains := [(0, domM)] } }
     Ready (.fdrop F) s gP ∧ s.domain (s.readS gP 0).toNat = some domM ∧ 1 ∈ domM.devs ∧ 1 ≠ s.devid ∧ 1 ∉ domM.dropped) ∧
    (∀ c ∈ [Instr.ftot, .fgup, .fdrop, .fattr], Ready (c { F with a := 6 }) (fieldDev gP) gP ∧ (fieldDev gP).domain ((fieldDev gP).readS gP 6).toNat = none) :=
  ⟨by decide +kernel, ready_all (c := fun (c : Fields → Instr) => c F) (by decide +kernel), ⟨by decide +kernel, rfl, rfl⟩, by decide,
    ⟨ready_of (by decide +kernel), by decide, rfl⟩,
    fun p hp => ⟨ready_all (c := fun p => .fgup { F with b := p.1 }) (by decide +kernel) p hp,
      (by decide +kernel : ∀ p ∈ [((0 : BitVec 8), 0), (6, 64), (7, 1000000)], ((fieldDev gP).readS gP p.1).toNat = p.2) p hp⟩,
    by decide +kernel, ⟨ready_of (by decide +kernel), by decide +kernel⟩,
    fun c hc => ⟨ready_all (c := fun c => c { F with a := 6 }) (by decide +kernel) c hc, by decide +kernel⟩⟩

/-- fattr of cell 0 with the kind in s0: every condition of the statement holds. -/
def fA : Fields := { F with b := 2 }
def cell0 : CellAt := { addr := 0x20000, key := 0x20000, il := 0, dev := 0, fabric := false, did := 0 }
theorem witness_fattr :
    Ready (.fattr fA) (fieldDev gP) gP ∧ (fieldDev gP).cellAt gP false true false ((fieldDev gP).readSP gP fA.b) = (some cell0, []) ∧
    cell0.did = ((fieldDev gP).readS gP fA.a).toNat ∧ ((fieldDev gP).readS gP fA.c).toNat ≤ 2 ∧
    ∃ l s2 s3, ((fieldDev gP).unclean gP.block).run noNode gP.ctx gP.priv true (BitVec.ofNat 64 (dom.shadow + dom.cell cell0.addr / 4)) 1 = some l ∧
      noFields l = true ∧ ((fieldDev gP).unclean gP.block).readPieces l = (s2, some [0]) ∧ s2.readCell 0 0x20000 dom.width = (s3, some 0) ∧
      s3.inFlight 0 (some (0x20000, 0x20000)) = false ∧ (dom.kinds.filter (fun x => x.1 ≠ dom.cell cell0.addr && x.2 = 0)).length < 16 := by
  refine ⟨ready_of (by decide +kernel), by decide +kernel, by decide +kernel, by decide +kernel,
    (((fieldDev gP).unclean gP.block).run noNode gP.ctx gP.priv true (BitVec.ofNat 64 (dom.shadow + dom.cell cell0.addr / 4)) 1).getD [], _, _,
    ?_, by decide +kernel, pair_some (by decide +kernel), pair_some (by decide +kernel), by decide +kernel, by decide +kernel⟩
  have h : (((fieldDev gP).unclean gP.block).run noNode gP.ctx gP.priv true (BitVec.ofNat 64 (dom.shadow + dom.cell cell0.addr / 4)) 1).isSome = true := by
    decide +kernel
  revert h
  cases ((fieldDev gP).unclean gP.block).run noNode gP.ctx gP.priv true (BitVec.ofNat 64 (dom.shadow + dom.cell cell0.addr / 4)) 1 <;> simp

/-- fdecl of a descriptor in scratchpad: two cells at 0x20100 as domain 5, and an empty one. -/
def descr (ncell : Nat) : List Byte :=
  leBytes 0x20100 8 ++ leBytes ncell 4 ++ leBytes 5 2 ++ [0, 32] ++ List.replicate 24 0 ++ leBytes 0x30000 8 ++ leBytes 0 4 ++ [1, 0, 0, 0] ++
    List.replicate 8 0 ++ leBytes 1 64
def declDev (ncell : Nat) : State := { fieldDev gP with mem := Mem.wrBytes tables (sliceKey 0 0) (descr ncell) }
theorem witness_fdecl : ∀ n ∈ [0, 2], Ready (.fdecl { F with a := 8 }) (declDev n) gP ∧ (declDev n).unsettled 1 = false ∧
    ∃ l s1 bs, (declDev n).check gP { priv := false, peer := false } 128 [(0, (declDev n).readSP gP 8)] = .ok l ∧
      ((declDev n).lookUps gP [(declDev n).readSP gP 8]).readOwn 1 gP (l.flatMap (·.2)) = (s1, some bs) ∧ field bs 52 1 = gP.ctx.toNat ∧ ((s1.declare gP.ctx bs).2.1 = 0 ↔ n = 2) := by
  intro n hn
  refine ⟨ready_all (c := fun n => .fdecl { F with a := 8 }) (s := declDev n) (l := [n]) (by
      revert n; decide +kernel) n (by simp), by revert n; decide +kernel,
    _, _, _, ok_of [] (by revert n; decide +kernel), pair_of [] (by revert n; decide +kernel), by revert n; decide +kernel, by revert n; decide +kernel⟩

/-! ### Witnesses: field homes -/

def lane (amt : Int) : FLane :=
  { lane := 0, amt := amt, oaddr := 0, okey := slice0, oil := 0, daddr := 4, dkey := slice0 + 4, dil := 0, ddev := 0, fabric := false, dva := 4, did := 9 }
def xf : Xfer :=
  { id := 3, gid := 1, node := 0, ctx := 1, dst := 5, wd := false, acq := false, rel := false, scope := 0, rmt := false, corAt := 0, itag := 0, q64 := false, lanes := [lane 0],
    waiting := [0], short := [], status := [], lost := 0, dead := false }
def msg (k : FKind) : FMsg := { FMsg.blank with kind := k, did := 9 }
def debitMsg (amt : Int) : FMsg := { msg .debit with xid := 3, lanes := [lane amt] }

/-- A device on which one field message stands before its home, with records and entries at core 0. -/
def msgDev (m : FMsg) (p : Option Packet) (ms : List Mortar) (ds : List Dedup) : State :=
  { base g0 with
    own := { (base g0).own with ids := 8 }
    nodes := [(0, { core0 with home := { Home.reset with mortars := ms, dedups := ds } })]
    fld := { (base g0).fld with msgs := [(7, m, p)], xfers := [xf] } }

def rec0 (st : MState) (busy : Option Nat) : Mortar :=
  { amt := 1, daddr := 4, oaddr := 0, okey := slice0, oil := 0, dkey := slice0 + 4, dil := 0, seq := 0, ddev := 0, did := 9, lane := 0, icore := 0,
    xid := 3, itag := 0, gup := 0, state := st, fabric := false, deadline := 0, lmask := 0, busyAt := busy, q64 := false }
def dd (st : DState) : Dedup :=
  { odev := 2, seq := 0, state := st, key := slice0, il := 0, q64 := false, amt := 1, did := 9, xid := 3, lane := 0, sentAt := 0 }

/-- `Stands` as a check. -/
def standsB (s : State) (m : Nat) (k : FKind) (d : FMsg) (p : Option Packet) : Bool :=
  decide (s.fieldMsg m k = some (d, p)) && !s.waitsHere m d p.isSome && decide (m < s.own.ids)
theorem stands_of {s : State} {m : Nat} {k : FKind} {d : FMsg} {p : Option Packet} (h : standsB s m k d p = true) : Stands s m k d p := by
  simp only [standsB, Bool.and_eq_true, decide_eq_true_eq, Bool.not_eq_true'] at h
  exact ⟨h.1.1, h.1.2, h.2⟩

theorem noQueue {s : State} {did : Nat} (h : s.domain did = none) : NoQueue s did := by
  intro d hd; rw [h] at hd; cases hd

/-- Debits of 0, which the content 0 can give, and of 5, which it cannot; credits that fit, and one past the largest number. -/
theorem witness_HomesConserve :
    (∀ n ∈ [(0 : Int), 5], let s := msgDev (debitMsg n) none [] []
      standsB s 7 .debit (debitMsg n) none = true ∧ s.fld.xfers.find? (fun y => y.id = (debitMsg n).xid) = some xf ∧
      s.debitWaits xf (debitMsg n) = false ∧ s.heldBefore xf.gid xf.releaseBound = false ∧ s.remote xf.rmt xf.node [(slice0, xf.bytes)] = none ∧ 2 ^ 39 ≤ slice0 ∧ xf.short = [] ∧ xf.status = [] ∧
      s.group xf.gid = some g0 ∧ s.imageOf g0 = none ∧ g0.ctl.stack.length < 16 ∧ Mem.num s.mem slice0 xf.bytes = 0 ∧ s.domain 9 = none) ∧
    (∀ n ∈ [(1 : Int), 2 ^ 31], let c := { msg .credit with amt := n }
      let s := msgDev c none [rec0 .crediting none] []
      standsB s 7 .credit c none = true ∧ s.mortar (seqHome c.mseq) c.mseq = some (rec0 .crediting none) ∧ s.turnOf c = true ∧
      s.bankFull 0 (slice0 + 4) = false ∧ s.remote ((s.fld.xfers.find? (fun x => x.id = 3)).any (·.rmt)) 0 [(slice0 + 4, 4)] = none ∧
      Mem.num s.mem (slice0 + 4) 4 = 0 ∧ s.reserved (homeOf 0 (slice0 + 4)) (slice0 + 4) = 0) := by decide +kernel

def atClock (s : State) (n : Nat) : State := { s with clock := BitVec.ofNat 64 n }

/-- The messages of a transfer at its origin home, each with the record that the statement asks for. -/
theorem witness_OriginMessages :
    (let s := msgDev { msg .go with xid := 3 } none [rec0 .held none] []
     standsB s 7 .go { msg .go with xid := 3 } none = true ∧ seqHome (rec0 .held none).seq = 0 ∧ (s.node 0).home.mortars = [rec0 .held none]) ∧
    (let d := { msg .giveBack with xid := 3 }
     let s := msgDev d none [rec0 .held none] []
     standsB s 7 .giveBack d none = true ∧ (s.node d.home).home.mortars.filter (fun r => r.xid = d.xid) = [rec0 .held none]) ∧
    (∀ p ∈ [(FKind.accept, MState.offered), (.done, .crediting), (.busy, .offered), (.ovf, .crediting), (.refuse, .offered)],
      let s := msgDev (msg p.1) none [rec0 p.2 none] []
      standsB s 7 p.1 (msg p.1) none = true ∧ s.mortar (seqHome 0) 0 = some (rec0 p.2 none)) ∧
    (let r := { rec0 .offered none with fabric := true }
     let s := msgDev (msg .ovf) none [r] []
     standsB s 7 .ovf (msg .ovf) none = true ∧ s.mortar (seqHome 0) 0 = some r ∧ r.state = (if r.fabric then .offered else .crediting)) ∧
    (let s := msgDev (msg .go) none [rec0 .offered none] []
     s.mortar (seqHome 0) 0 = some (rec0 .offered none) ∧ s.gupDue (rec0 .offered none) = true ∧ s.cellHeld (seqHome 0) 9 0 = false) ∧
    (let s := atClock (msgDev (msg .go) none [rec0 .offered (some 0)] []) 1600
     s.mortar (seqHome 0) 0 = some (rec0 .offered (some 0)) ∧ 0 + 1600 ≤ s.clock.toNat) ∧
    (∀ k ∈ [FKind.accept, .done, .ovf, .refuse], let s := msgDev (msg k) (some (pkt 4 2 .other)) [] []
      standsB s 7 k (msg k) (some (pkt 4 2 .other)) = true ∧ s.mortar (seqHome 0) 0 = none) ∧
    (msgDev (msg .refuse) none [rec0 .offered none] []).domain 9 = none ∧ 2 ^ 39 ≤ slice0 := by decide +kernel

/-- An OFFER of 1, and one past the largest number, from device 2 for cell 0 of the domain; an OFFER whose tag binds no context. -/
def offerMsg (amt : Int) : FMsg := { msg .offer with did := 0, addr := 0x20000, dctx := 1, odev := 2, amt := amt }
def offerDev (m : FMsg) : State :=
  { fieldDev g0 with
    own := { (fieldDev g0).own with ids := 8 }
    fld := { (fieldDev g0).fld with msgs := [(7, m, none)] }, fab := { (fieldDev g0).fab with dctxmap := [(1, 0x10001)] } }

/-- The same at the destination home. -/
theorem witness_DestinationMessages :
    (∀ st ∈ [DState.accepted, .applied, .overflowed, .refused 2], ∀ k ∈ [FKind.offer, .credit, .ack, .cancel],
      let d := { msg k with odev := 2 }
      let s := atClock (msgDev d (some (pkt 4 2 .other)) [] [dd st]) 102400
      standsB s 7 k d (some (pkt 4 2 .other)) = true ∧ s.findDedup 2 0 = some (0, dd st) ∧ s.bankFull 0 slice0 = false ∧
      (dd st).sentAt + 64 * 1600 ≤ s.clock.toNat) ∧
    (let d := { msg .offer with odev := 2 }
     let s := msgDev d none [] []
     standsB s 7 .offer d none = true ∧ s.findDedup 2 0 = none ∧ (match s.offerAt d with | .error _ => true | .ok _ => false) = true ∧
       (s.node (s.offerHome d)).home.dedups.length < homeCap (s.offerHome d)) ∧
    (∀ n ∈ [(1 : Int), 2 ^ 31], let d := offerMsg n
     let s := offerDev d
     standsB s 7 .offer d none = true ∧ s.findDedup 2 0 = none ∧
       (match s.offerAt d with | .ok (key, il, e) => decide (key = 0x20000) && decide (il = 0) && decide (e = dom) | .error _ => false) = true ∧
       s.turnOf d = true ∧ s.bankFull 0 0x20000 = false ∧ (s.node (homeOf 0 0x20000)).home.dedups.length < homeCap (homeOf 0 0x20000) ∧
       Mem.num s.mem 0x20000 4 = 0 ∧ s.reserved (homeOf 0 0x20000) 0x20000 = 0) ∧
    (let d := { msg .cancel with odev := 2, lmask := 3 }
     let s := msgDev d none [] []
     standsB s 7 .cancel d none = true ∧ s.findDedup 2 0 = none ∧ d.lane < 32 ∧ d.lmask &&& ~~~(s.decided d ||| (1#32 <<< d.lane)) ≠ 0) := by
  decide +kernel

theorem clean_offer : Clean (offerDev (offerMsg 1)) 0 0x20000 4 := clean_of (by decide +kernel) rfl

/-- A lane's status arrives: of a transfer with no lane left, and with one. -/
theorem witness_StatusArrives : ∀ l ∈ [[lane 0], [lane 0, { lane 0 with lane := 1 }]],
    let x := { xf with lanes := l }
    let d := { msg .status with xid := 3 }
    let s := { msgDev d none [] [] with fld := { (msgDev d none [] []).fld with xfers := [x] } }
    standsB s 7 .status d none = true ∧ s.fld.xfers.find? (fun y => y.id = d.xid) = some x ∧ d.reason % 16 ≠ 9 ∧ x.dead = false ∧ d.lane < 32 ∧
      s.group x.gid = some g0 ∧ g0.visitor = none ∧ s.imageOf g0 = none ∧ g0.busy x.dst = false ∧ x.dst < 255 := by decide +kernel

/-- A snapshot of domain 0 for an ftot of group 1, which has begun at cycle 0: not answered, and answered. -/
def snap (ans : List (Nat × Dword × Dword)) : Snap :=
  { id := 6, did := 0, asker := .group 1 8, figure := 1, begun := true, h0 := 0, homes := [0], answers := ans }
def snapDev (ans : List (Nat × Dword × Dword)) (clock : Nat) (d : Domain) (held : List (Nat × Nat × Nat)) : State :=
  { fieldDev g0 with
    clock := BitVec.ofNat 64 clock
    nodes := [(0, { core0 with home := { Home.reset with holds := held } })]
    fld := { (fieldDev g0).fld with domains := [(0, d)], snaps := [snap ans] } }

/-- The domain while it is declared by an fdecl of group 1, with a sum that the empty reports give and one that they do not. -/
def declaring (c : Dword) : Domain := { dom with state := .declaring, c := c, fdecl := some (1, 4) }

theorem witness_Snapshots :
    (∀ n ∈ [0, 2000000], let s := snapDev [] n dom []
     s.fld.snaps.find? (fun y => y.id = (snap []).id) = some (snap []) ∧ s.domain 0 = some dom ∧ 0 ∈ (snap []).homes ∧ (s.node 0).home.holds = []) ∧
    (let x := snap [(0, 0, 0)]
     let s := snapDev [(0, 0, 0)] 1 dom [(6, 0, 0)]
     s.fld.snaps.find? (fun y => y.id = x.id) = some x ∧ s.domain x.did = some dom ∧ snapDone x = true ∧ x.figure ≠ 0 ∧
       s.group 1 = some g0 ∧ s.imageOf g0 = none ∧ g0.ctl.livem ≠ 0) ∧
    (let s := snapDev [] 2000000 dom [(6, 0, 0)]
     snapDone (snap []) = false ∧ (snap []).h0 + gupCycles dom.gup / 2 < s.clock.toNat ∧ s.group 1 = some g0 ∧ g0.visitor = none) ∧
    ((6, 0, 0) ∈ ((snapDev [] 0 dom [(6, 0, 0)]).node 0).home.holds) ∧
    (∀ c, (snapDev [] 3200000 (declaring c) []).domain 0 = some (declaring c)) ∧
    ([] : List (Nat × Dword)).map (·.1) = dom.devs.filter (· ≠ (snapDev [] 3200000 (declaring 0) []).devid) ∧
    (declaring 0).lseed = 0 ∧ (declaring 0).since + gupCycles (declaring 0).gup ≤ (snapDev [] 3200000 (declaring 0) []).clock.toNat :=
  ⟨by decide +kernel, by decide +kernel, by decide +kernel, by decide +kernel, fun _ => rfl, by decide +kernel, rfl, by decide +kernel⟩

/-! ### Witnesses: reset, steps, decoding, operands, traps -/

/-- Whether a turn answers a next state. -/
def isNext (r : Res) : Bool := match r with | .next _ => true | _ => false
theorem next_of {r : Res} (h : isNext r = true) : ∃ t, r = .next t := by
  cases r with
  | next t => exact ⟨t, rfl⟩
  | _ => simp [isNext] at h

/-- A device about to fetch at `pc` the bits `w` that lie at 0x10000. -/
def fetching (w : Nat) (pc : Dword) : State :=
  let s := State.reset.withFetchWord 64 w
  s.setGroup 1 { g0 with ctl := { g0.ctl with pc := pc } }
def atPc (pc : Dword) : Group := { g0 with ctl := { g0.ctl with pc := pc } }

/-- What every clause of the statement asks of the state. -/
def mayGo (s : State) (pc : Dword) : Prop :=
  s.power = true ∧ s.own.agenda = .issue 1 :: [] ∧ (turned s []).group 1 = some (atPc pc) ∧ (turned s []).canIssue (atPc pc) = true ∧
    (atPc pc).out.imprecise = [] ∧ (turned s []).chosen 1 (atPc pc) = true ∧ (turned s []).joinwDue (atPc pc) = false ∧ (turned s []).breakHere (atPc pc) = false ∧
    (turned s []).fetchBad (atPc pc) pc = false

theorem witness_StepRunsDecoded :
    (mayGo (fetching 0 0x10002) 0x10002 ∧ (0x10002 : Dword).toNat % 4 ≠ 0) ∧
    (mayGo (fetching 0 0x40000) 0x40000 ∧ (0x40000 : Dword).toNat % 4 = 0 ∧
      (match (turned (fetching 0 0x40000) []).fetch (atPc 0x40000) 0x40000 with | .error _ => true | .ok _ => false) = true) ∧
    (mayGo (fetching 3 0x10000) 0x10000 ∧ (turned (fetching 3 0x10000) []).fetch (atPc 0x10000) 0x10000 = .ok 3 ∧ 3 % 4 = 3) ∧
    (mayGo (fetching 0 0x1001C) 0x1001C ∧ (turned (fetching 0 0x1001C) []).fetch (atPc 0x1001C) 0x1001C = .ok 0 ∧ 32 < 0x1001C % 32 + lengthOf 0) ∧
    (mayGo (fetching 0x000000C705040040 0x10000) 0x10000 ∧
      (turned (fetching 0x000000C705040040 0x10000) []).fetch (atPc 0x10000) 0x10000 = .ok 0x000000C705040040 ∧
      0x10000 % 32 + lengthOf 0x000000C705040040 ≤ 32 ∧ decode 0x000000C705040040 = .ok (.sadd (word .w64 0 4 5 0xC7 0 0))) ∧
    (mayGo (fetching 0x10 0x10000) 0x10000 ∧ (turned (fetching 0x10 0x10000) []).fetch (atPc 0x10000) 0x10000 = .ok 0x10 ∧
      decode 0x10 = .error (.illop 2 0)) := by
  refine ⟨⟨?_, by decide⟩, ⟨?_, by decide, by decide +kernel⟩, ⟨?_, by decide +kernel, rfl⟩, ⟨?_, by decide +kernel, by decide⟩,
    ⟨?_, by decide +kernel, by decide, by rfl⟩, ?_, by decide +kernel, by rfl⟩ <;> (unfold mayGo; decide +kernel)

theorem witness_DecodeWords :
    (3 % 4 = 3 ∧ decode 3 = .error (.illop 1 0)) ∧ (0x10 % 4 ≠ 3 ∧ ∀ p ∈ cellTable, p.1 ≠ 0x10 / 4 % 256) ∧
    (0xFC00 % 4 ≠ 3 ∧ (∃ p ∈ cellTable, p.1 = 0xFC00 / 4 % 256) ∧ (∀ p ∈ cellTable, p.1 = 0xFC00 / 4 % 256 → p.2.1 ≠ 0xFC00 / 1024 % 64)) :=
  ⟨⟨rfl, rfl⟩, ⟨by decide, fun p hp => of_decide_eq_true (List.all_eq_true.mp (by decide +kernel :
      cellTable.all (fun p => decide (p.1 ≠ 0x10 / 4 % 256)) = true) p hp)⟩, by decide,
    (by
      obtain ⟨p, hp, h⟩ := List.any_eq_true.mp (by decide +kernel : cellTable.any (fun p => decide (p.1 = 0xFC00 / 4 % 256)) = true)
      exact ⟨p, hp, of_decide_eq_true h⟩),
    fun p hp => of_decide_eq_true (List.all_eq_true.mp (by decide +kernel :
      cellTable.all (fun p => decide (p.1 = 0xFC00 / 4 % 256 → p.2.1 ≠ 0xFC00 / 1024 % 64)) = true) p hp)⟩

theorem witness_DecodeEncode :
    ((Instr.sadd (word .w64 0 4 5 0xC7 0 0)).isCell = true ∧ (Instr.sadd (word .w64 0 4 5 0xC7 0 0)).wf = true) ∧
    decode 0x000000C705040040 = .ok (.sadd (word .w64 0 4 5 0xC7 0 0)) := ⟨by decide +kernel, by rfl⟩

theorem witness_MemoryCanonical :
    (∃ t, step (fetching 0x000000C705040040 0x10000) = .next t) ∧ Mem.wf (fetching 0x000000C705040040 0x10000).mem = true ∧
      Sparse.sorted (fetching 0x000000C705040040 0x10000).groups = true :=
  ⟨next_of (by decide +kernel), by decide +kernel, by decide +kernel⟩

theorem witness_LanesOnlyLeave :
    (Instr.exit F).isCell = true ∧ Sparse.sorted (base (masked g0 1 3)).groups = true ∧
      ∃ t g', exec (.exit F) (base (masked g0 1 3)) = .next t ∧ (base (masked g0 1 3)).group 1 = some (masked g0 1 3) ∧ t.group 1 = some g' ∧
        (masked g0 1 3).ctl.exm &&& ~~~(masked g0 1 3).ctl.livem = 0 := by
  refine ⟨rfl, rfl, ?_⟩
  have h : (match exec (.exit F) (base (masked g0 1 3)) with | .next t => (t.group 1).isSome | _ => false) = true := by decide +kernel
  revert h
  cases exec (.exit F) (base (masked g0 1 3)) with
  | next t =>
    intro h
    obtain ⟨g', hg⟩ := Option.isSome_iff_exists.mp h
    exact ⟨t, g', rfl, rfl, hg, rfl⟩
  | _ => intro h; simp at h

theorem witness_OperandValues :
    (127 : BitVec 8).toNat < 128 ∧ 192 ≤ (223 : BitVec 8).toNat ∧ (223 : BitVec 8).toNat < 224 ∧ 224 ≤ (239 : BitVec 8).toNat ∧
    (239 : BitVec 8).toNat < 240 ∧ (base g0).block g0.block = some blk ∧ (base g0).grid blk.grid = some (placedGrid 0) ∧
    0 < (placedGrid 0).gx ∧ 0 < (placedGrid 0).gy := by decide +kernel

/-- sadd of s127 in a kernel of 8 scalar registers; icinv in user mode; sadd with s0 empty, with and without its wait bit. -/
def small : Block := { blk with k := { kern with sregs := 1, vregs := 1 } }
def emptyS0 : Group := { g0 with regs := { g0.regs with sempty := 1 } }
theorem witness_IssueChecks :
    ((Instr.sadd { F with b := 127 }).row = some ({ F with b := 127 }, rowSadd { F with b := 127 }) ∧ (dev small g0).group 1 = some g0 ∧
      ((namedRegs (rowSadd { F with b := 127 }) { F with b := 127 }).find? (fun n => !(dev small g0).owns g0 n.scalar n.reg)).isSome = true) ∧
    ((Instr.icinv F).row = some (F, rowIcinv F) ∧ (∀ n ∈ namedRegs (rowIcinv F) F, (base g0).owns g0 n.scalar n.reg = true) ∧ (rowIcinv F).sup = true ∧
      g0.ctl.supAt = none) ∧
    (let f := { F with wa := true }
     (∀ n ∈ namedRegs (rowSadd f) f, (base emptyS0).owns emptyS0 n.scalar n.reg = true) ∧ (rowSadd f).sup = false ∧
       ((namedRegs (rowSadd f) f).find? (fun n => (n.role = .src || n.role = .both) && n.wait && emptyS0.isEmpty n.scalar n.reg)).isSome = true) ∧
    ((∀ n ∈ namedRegs (rowSadd F) F, n.wait = false) ∧
      ((namedRegs (rowSadd F) F).find? (fun n => n.role ≠ .peek && emptyS0.isEmpty n.scalar n.reg)).isSome = true) :=
  ⟨⟨rfl, rfl, by decide +kernel⟩, ⟨rfl, by decide +kernel, rfl, rfl⟩, by decide +kernel, by decide +kernel⟩

/-- mma under a GANG word of two groups, and mmac: a source beyond the allocation, and an empty one with its wait bit. -/
def ganged (g : Group) : Group := { g with sys := { g.sys with gang := 3 } }
def emptyV0 : Group := ganged { g0 with regs := { g0.regs with vempty := 1, sempty := 1 } }
theorem witness_IssueChecks_matrix :
    (∀ p ∈ [gangNamed .mma (rowMma { F with a := 127 }) { F with a := 127 } (ganged g0) 0, ([], namedRegs (rowMmac { F with a := 127 }) { F with a := 127 })],
      ((p.1 ++ p.2).find? (fun n => !(dev small (ganged g0)).owns (ganged g0) n.scalar n.reg || (p.1.contains n && 255 ≤ n.reg))).isSome = true) ∧
    (let f := { F with wa := true }
     ∀ p ∈ [gangNamed .mma (rowMma f) f emptyV0 0, ([], namedRegs (rowMmac f) f)],
      (∀ n ∈ p.1 ++ p.2, (base emptyV0).owns emptyV0 n.scalar n.reg = true) ∧ (∀ n ∈ p.1, n.reg < 255) ∧
      ((p.1 ++ p.2).find? (fun n => n.wait && emptyV0.isEmpty n.scalar n.reg)).isSome = true) ∧ popcount (ganged g0).sys.gang = 2 := by decide +kernel

/-- A visitor of core 0 from group 2, with its listed registers. -/
def guest : Group :=
  { g0 with visitor := some { origin := 2, token := 9, vlist := 0xFF, slist := 0xFF, slot := 0 } }
def full : Group := stacked g0 (List.replicate 256 (ent .call 1 0))
def noHandler : Block := { blk with k := { kern with handler := 0 } }

theorem witness_TrapEntry :
    (∀ c ∈ [1, 4, 38], (fieldDev g0).group 1 = some g0 ∧ g0.visitor = none ∧ (fieldDev g0).block 1 = some blk ∧ g0.ctl.stack.length < 256 ∧
      ((c = 4 ∨ c = 24 ∨ c = 37) → (fieldDev g0).suph g0.ctx ≠ 0) ∧ (¬ (c = 4 ∨ c = 24 ∨ c = 37) → blk.k.handler ≠ 0)) ∧
    blk.thalt = false ∧ full.ctl.stack.length = 256 ∧ (base g0).suph g0.ctx = 0 ∧ noHandler.k.handler = 0 ∧ guest.visitor.isSome = true ∧
    g0.sched.skidLeft = none ∧ (let g := { g0 with sched := { g0.sched with skidLeft := some 3 } }
      (base g).group 1 = some g ∧ g.sched.skidLeft = some 3 ∧ (base g).onlyEvicting g = false ∧
        (dev { blk with evicting := true } g).onlyEvicting g = true) := by decide +kernel

theorem witness_SystemRegisters :
    (∀ p ∈ sysTable, Ready (.sysrd { F with len := .w96, imm := BitVec.ofNat 64 p.1 }) (base g0) g0 ∧ (BitVec.ofNat 64 p.1).toNat = p.1) ∧
    (∀ p ∈ sysTable, Ready (.sysrd { F with len := .w96, mod := 1, imm := BitVec.ofNat 64 p.1 }) (base g0) g0) ∧ ScalarDst 0 ∧
    (3 ∈ [3, 4, 6, 10, 0x13] ∧ 0 ∉ [3, 4, 6, 10, 0x13]) ∧
    (∀ n ∈ [(0x00B : BitVec 64), 0x00D, 0x013, 0x008, 0x00F, 0x001], Ready (.syswr { F with len := .w96, imm := n }) (base supG) supG) ∧
    (((base supG).readS supG 0).toNat < 2 ∧ supG.ctl.stack = [] ++ ent .trap 0xFFFFFFFF 0x10000 :: [] ∧ ((base supG).readSP supG 0).toNat < 2 ^ 56) ∧
    (let g := scal supG [(0, 256), (1, 0x01000000)]
     256 ≤ ((base g).readS g 0).toNat ∧ 2 ≤ ((base g).readS g 0).toNat ∧ 2 ^ 56 ≤ ((base g).readSP g 0).toNat) ∧
    (let g := { g0 with ctl := { g0.ctl with supAt := some 1 } }
     Ready (.syswr { F with len := .w96, imm := 1 }) (base g) g ∧ ∀ x ∈ g.ctl.stack, x.kind ≠ .trap) := by
  refine ⟨fun p hp => ⟨ready_all (c := fun p => .sysrd { F with len := .w96, imm := BitVec.ofNat 64 p.1 }) (by decide +kernel) p hp,
      of_decide_eq_true (List.all_eq_true.mp (by decide +kernel : sysTable.all (fun p => decide ((BitVec.ofNat 64 p.1).toNat = p.1)) = true) p hp)⟩,
    fun p hp => ready_all (c := fun p => .sysrd { F with len := .w96, mod := 1, imm := BitVec.ofNat 64 p.1 }) (by decide +kernel) p hp,
    .inl (by decide), by decide,
    fun n hn => ready_all (c := fun n => .syswr { F with len := .w96, imm := n }) (by decide +kernel) n hn, by decide +kernel, by decide +kernel,
    ready_of (by decide +kernel), by decide +kernel⟩

theorem witness_TrapInstructions :
    g0.sched.skidLeft = none ∧ (∀ c ∈ [Instr.trap, .scall, .brk], Ready (c F) (base g0) g0) ∧ g0.ctx.toNat ∉ (base g0).mgmt.debug ∧
    (let s := { base g0 with mgmt := { (base g0).mgmt with debug := [1] } }
     Ready (.brk F) s g0 ∧ g0.ctx.toNat ∈ s.mgmt.debug ∧ s.block g0.block = some blk) ∧
    (supG.sched.skidLeft = none ∧ (∀ c ∈ [Instr.rft, .sret], Ready (c F) (base supG) supG) ∧ supG.ctl.stack = [ent .trap 0xFFFFFFFF 0x10000] ∧
      supG.ctl.supAt = some 1 ∧ (base supG).refillBad supG [] = false) ∧
    (let g := stacked supG (ent .trap 1 0 :: supG.ctl.stack)
     Ready (.sret F) (base g) g ∧ g.ctl.supAt ≠ some 2) :=
  ⟨rfl, ready_all (c := fun (c : Fields → Instr) => c F) (by decide +kernel), by decide, ⟨ready_of (by decide +kernel), by decide, rfl⟩,
    ⟨rfl, ready_all (c := fun (c : Fields → Instr) => c F) (by decide +kernel), rfl, rfl, by decide +kernel⟩, ready_of (by decide +kernel), by decide⟩

/-- An invalidation of context 1 that is not yet acknowledged. -/
def inv0 : Inval := { id := 4, gid := 1, ctx := 1, size := 3, addr := 0 }
def invDev : State := { base supG with invals := [inv0] }
def waitsInv : Group := { supG with out := { supG.out with invs := [4] } }
/-- Pairs: 2 names far memory at 0x10000; s4 is a bad size, s5 plants an error of kind 1 in symbol 3, s6 scrubs 4 KiB. -/
def gM : Group := scal supG [(2, 0x10000), (4, 1024), (5, 49), (6, 4096)]

theorem witness_ChecksumsAndMaintenance :
    (∀ c ∈ [Instr.cka, .chk, .rndk, .srndk], Ready (c F) (base g0) g0) ∧ g0.sys.cks = (base g0).readSP g0 F.a ∧ ScalarDst F.d ∧
    (let g := scal g0 [(0, 1)]
     Ready (.chk F) (base g) g ∧ g.sys.cks ≠ (base g).readSP g F.a) ∧
    (∀ c ∈ [Instr.tlbinv, .tlbsync, .icinv], Ready (c F) (base supG) supG) ∧ ((base supG).readS supG F.b).toNat < 1024 ∧
    (Ready (.tlbinv { F with b := 4 }) (base gM) gM ∧ 1024 ≤ ((base gM).readS gM 4).toNat) ∧
    invDev.invals.find? (fun j => j.id = inv0.id) = some inv0 ∧ supG.out.invs = [] ∧
    (let s := { base waitsInv with invals := [inv0] }
     Ready (.tlbsync F) s waitsInv ∧ inv0.id ∈ waitsInv.out.invs ∧ inv0 ∈ s.invals) ∧
    (∃ k x, (base supG).grid k = some x) ∧
    (Ready (.einj { F with a := 2, b := 5 }) (fieldDev gM) gM ∧ ((fieldDev gM).readS gM 5).toNat < 1024 ∧ ((fieldDev gM).readS gM 5).toNat % 16 ∈ [1, 2, 3] ∧
      ((fieldDev gM).readS gM 5).toNat / 16 < 36 ∧ ∃ p, (fieldDev gM).sectors gM ((fieldDev gM).readSP gM 2) 1 = .ok [p]) ∧
    (Ready (.escrub { F with a := 2, b := 6 }) (fieldDev gM) gM ∧ 0 < ((fieldDev gM).readS gM 6).toNat ∧ ((fieldDev gM).readS gM 6).toNat ≤ 2 ^ 20 ∧
      ∃ l, (fieldDev gM).sectors gM ((fieldDev gM).readSP gM 2) 4096 = .ok l) ∧
    ((fieldDev g0).group 1 = some g0 ∧ (0x20000 : Dword).toNat < 2 ^ 56 ∧ (fieldDev g0).ptroot g0.ctx ≠ 0 ∧
      ((fieldDev g0).walkReads 0x20000 walkLevels ((fieldDev g0).ptroot g0.ctx)).any ((fieldDev g0).badAt ownIl) = false ∧
      ∃ e, walkFrom (fieldDev g0).entryAt 0x20000 walkLevels ((fieldDev g0).ptroot g0.ctx) = .ok e) := by
  refine ⟨ready_all (c := fun (c : Fields → Instr) => c F) (by decide +kernel), by decide +kernel, .inl (by decide), ⟨ready_of (by decide +kernel), by decide +kernel⟩,
    ready_all (c := fun (c : Fields → Instr) => c F) (by decide +kernel), by decide +kernel, ⟨ready_of (by decide +kernel), by decide +kernel⟩, rfl, rfl,
    ⟨ready_of (by decide +kernel), by decide, by simp⟩, ⟨1, placedGrid 0, rfl⟩,
    ⟨ready_of (by decide +kernel), by decide +kernel, by decide +kernel, by decide +kernel, ?_⟩,
    ⟨ready_of (by decide +kernel), by decide +kernel, by decide +kernel, _, ok_of [] (by decide +kernel)⟩,
    rfl, by decide, by decide +kernel, by decide +kernel, _, ok_of (0, 0) (by decide +kernel)⟩
  have h : (match (fieldDev gM).sectors gM ((fieldDev gM).readSP gM 2) 1 with | .ok [_] => true | _ => false) = true := by decide +kernel
  revert h
  match (fieldDev gM).sectors gM ((fieldDev gM).readSP gM 2) 1 with
  | .ok [p] => intro _; exact ⟨p, rfl⟩
  | .ok [] => simp
  | .ok (_ :: _ :: _) => simp
  | .error _ => simp

/-! ### Witnesses: matrix unit -/

/-- Two groups of one block with GANG 3, the second waiting at the latch or not. -/
def fM : Fields := word .w96 3 0 0x10 0x30 8 0
def gMat (i : Nat) : Group :=
  { vect g0 ((List.range 32).map (fun L => (256 + L, 0x11))) with index := i, sys := { g0.sys with gang := 3 } }
def blkM : Block := { blk with k := { kern with ngrp := 2 }, gids := [1, 2], live := [1, 2] }
def present (k : MatKind) (f : Fields) : MatEntry :=
  { id := 9, kind := k, f := f, pc := 0x10000, gang := 3, opA := 0, opB := 0, words := (lanesOf 0xFFFFFFFF).map (fun L => (L, 0x11)) }
def waitsAt (e : MatEntry) (g : Group) : Group :=
  { g with sched := { g.sched with hold := .latch 0 false }, eng := { g.eng with latch := some e } }
def pairDev (h : Group) : State := { dev blkM (gMat 0) with groups := [(1, gMat 0), (2, h)] }

/-- A cluster of four blocks, each with such a pair; the three peers and the last group of block 1 have arrived. -/
def kernC : Kernel := { kern with ngrp := 2, clsz := 4 }
def blkC (i : Nat) : Block := { blk with k := kernC, lin := i, gids := [2 * i + 1, 2 * i + 2], live := [2 * i + 1, 2 * i + 2] }
def fC : Fields := word .w64 1 0 0 0 8 0
def arrived (i j : Nat) : Group := waitsAt (present .mmac fC) { gMat j with block := i + 1 }
def clusterDev : State :=
  { base g0 with
    groups := [(1, gMat 0), (2, arrived 0 1), (3, arrived 1 0), (4, arrived 1 1), (5, arrived 2 0), (6, arrived 2 1), (7, arrived 3 0), (8, arrived 3 1)]
    blocks := [(1, blkC 0), (2, blkC 1), (3, blkC 2), (4, blkC 3)] }

/-- The last clause of `Arrives` as a check. -/
def latchB (s : State) (g : Group) (b : Block) (e : MatEntry) : Bool :=
  (s.arrivals b).all (fun p => p.1 == s.own.cur || decide ((p.2.1.gang = g.sys.gang ∧ sameInstr p.2.1 e = true) ∨
    (p.2.1.gang ≠ g.sys.gang ∧ p.2.1.gang.getLsbD g.index = false)))
theorem latch_of {s : State} {g : Group} {b : Block} {e : MatEntry} (h : latchB s g b e = true) :
    ∀ p ∈ s.arrivals b, p.1 ≠ s.own.cur → (p.2.1.gang = g.sys.gang ∧ sameInstr p.2.1 e = true) ∨
      (p.2.1.gang ≠ g.sys.gang ∧ p.2.1.gang.getLsbD g.index = false) := by
  intro p hp h1
  have := List.all_eq_true.mp h p hp
  simpa [h1] using this

/-- The format word of the sample entries. -/
def word11 {ε : Type} (r : Except ε Word) : Bool := match r with | .ok w => w == 0x11 | .error _ => false
theorem word11_of {ε : Type} {r : Except ε Word} (h : word11 r = true) : r = .ok 0x11 := by
  cases r with
  | ok w => simpa [word11] using h
  | error e => simp [word11] at h

/-- The gang that is complete, with its word. -/
def gangB (s : State) (b : Block) (e : MatEntry) : Bool :=
  match s.assembled b e false with
  | none => false
  | some l => decide (l.map (·.1)).Nodup && word11 (s.checkGang b l false)
theorem gang_of {s : State} {b : Block} {e : MatEntry} (h : gangB s b e = true) :
    ∃ l, s.assembled b e false = some l ∧ (l.map (·.1)).Nodup ∧ s.checkGang b l false = .ok 0x11 := by
  unfold gangB at h
  cases h1 : s.assembled b e false with
  | none => simp [h1] at h
  | some l =>
    simp only [h1, Bool.and_eq_true, decide_eq_true_eq] at h
    exact ⟨l, rfl, h.1, word11_of h.2⟩

theorem arrives_pair : Arrives .mma fM (pairDev (gMat 1)) (gMat 0) blkM ∧
    Arrives .mma fM (pairDev (waitsAt (present .mma fM) (gMat 1))) (gMat 0) blkM := by
  refine ⟨⟨rfl, rfl, rfl, by decide, by decide, by decide, by decide +kernel, by decide, by decide +kernel, by decide +kernel,
    by decide, by decide +kernel, latch_of (by decide +kernel)⟩, ⟨rfl, rfl, rfl, by decide, by decide, by decide, by decide +kernel, by decide,
    by decide +kernel, by decide +kernel, by decide, by decide +kernel, latch_of (by decide +kernel)⟩⟩

theorem arrives_cluster : Arrives .mmac fC clusterDev (gMat 0) (blkC 0) :=
  ⟨rfl, rfl, rfl, by decide, by decide, by decide, by decide +kernel, fun _ => ⟨by decide, by decide +kernel⟩, by decide +kernel, by decide +kernel,
    fun _ => by decide +kernel, by decide +kernel, latch_of (by decide +kernel)⟩

theorem witness_Gangs :
    (∀ c ∈ [Instr.mma, .mmac], Ready (c F) (base g0) g0) ∧ (base g0).block g0.block = some blk ∧ g0.sys.gang.getLsbD g0.index = false ∧
    (Ready (.mma fM) (pairDev (gMat 1)) (gMat 0) ∧ ((latched .mma fM (pairDev (gMat 1)) (gMat 0)).assembled blkM (entryOf .mma fM (pairDev (gMat 1)) (gMat 0))
      false).isNone = true) ∧
    (let s := pairDev (waitsAt (present .mma fM) (gMat 1))
     Ready (.mma fM) s (gMat 0) ∧ s.matRoom blkM.core ≠ 0 ∧ (∀ q ∈ s.groups, q.2.eng.matQ = []) ∧ ∃ l, (latched .mma fM s (gMat 0)).assembled blkM (entryOf .mma fM s (gMat 0)) false = some l ∧
      (l.map (·.1)).Nodup ∧ (latched .mma fM s (gMat 0)).checkGang blkM l false = .ok 0x11) ∧
    (let t := latched .mmac fC clusterDev (gMat 0)
     Ready (.mmac fC) clusterDev (gMat 0) ∧ (∃ l, t.assembled (blkC 0) (entryOf .mmac fC clusterDev (gMat 0)) false = some l ∧
        (l.map (·.1)).Nodup ∧ t.checkGang (blkC 0) l false = .ok 0x11) ∧ (∀ q ∈ clusterDev.groups, q.2.eng.matQ = []) ∧
      (t.participants (blkC 0)).length = 4 ∧ ∀ q ∈ t.participants (blkC 0), 4 ≤ clusterDev.matRoom q.2.core ∧
        ((t.mmacGang q.2 (entryOf .mmac fC clusterDev (gMat 0))).any (fun k =>
          !k.2 && k.1.all (fun m => sameInstr m.2.2 (entryOf .mmac fC clusterDev (gMat 0))) && word11 (t.checkGang q.2 k.1 false))) = true) ∧
    (let f := { fM with gs := 1 }
     Ready (.mma f) (pairDev (gMat 1)) (gMat 0) ∧ f.gs ≠ 0 ∧ NoMatrixWaits (pairDev (gMat 1)) (gMat 0).owner ∧
      (gangOf blkM (gMat 0).sys.gang).head? = some 1 ∧ (pairDev (gMat 1)).group 1 = some (gMat 0) ∧ (gMat 0).sched.skidLeft = none ∧
        (gMat 0).ctl.livem ≠ 0 ∧ (gMat 0).guard 1 = 0) := by
  refine ⟨ready_all (c := fun (c : Fields → Instr) => c F) (by decide +kernel), rfl, by decide, ⟨ready_of (by decide +kernel), by decide +kernel⟩,
    ⟨ready_of (by decide +kernel), by decide +kernel, by decide, gang_of (by decide +kernel)⟩,
    ⟨ready_of (by decide +kernel), gang_of (by decide +kernel), by decide +kernel, by decide +kernel, by decide +kernel⟩,
    ready_of (by decide +kernel), by decide, ?_, by decide, rfl, rfl, by decide, by decide⟩
  unfold NoMatrixWaits; decide +kernel

/-- An operation of each kind of core 0, on block 0, by group 1. -/
def mop (k : MatKind) : MatOp :=
  { id := 5, since := [(1, 5)], joint := 5, node := 0, block := 1, kind := k, f := { fM with mod := 0 }, members := [1],
    blocks := match k with | .mma => [0, 1, 2, 3] | .mmac => List.range 24 | _ => [0], fmt := 0, inputs := if k = .mwr then [(3, 7)] else [], taint := [], off := 0, lanes := 1, peers := if k = .mmac then [(2, 0, 0), (3, 0, 0), (4, 0, 0), (1, 0, 0)] else [], seq := 0 }
def opDev (k : MatKind) : State := { base g0 with mops := [mop k] }

def gAsync : Group := { g0 with eng := { g0.eng with async := [{ op := 5, blocks := 1, regs := 0, out := none }] } }
def row0 (g : Group) : Bool := decide (g.visitor = none ∧ g.regs.vempty = 0 ∧ g.regs.sempty = 0)

theorem witness_AccCells :
    (∀ c ∈ [Instr.mopf, .mwait, .mzero, .mlda, .msta, .mrd, .mwr], Ready (c F) (base g0) g0) ∧ g0.regs.vempty = 0 ∧ g0.regs.sempty = 0 ∧
    (base g0).accs = [] ∧ g0.eng.async = [] ∧ g0.eng.matQ = [] ∧ F.d.toNat < (base g0).accn g0 ∧
    (let s := { base gAsync with mops := [mop .mzero] }
     Ready (.mwait { F with mod := 1 }) s gAsync ∧ ∃ a ∈ gAsync.eng.async, s.jointPending a.op = true) ∧
    (∀ p ∈ [(Instr.mzero, MatKind.mzero), (.mlda, .mlda), (.msta, .msta)], (∀ x ∈ namedBlocks p.2 F, x < (base g0).accn g0) ∧
      (base g0).foreign g0.owner g0.ctx ((namedBlocks p.2 F).map (· + (base g0).accBase g0)) = none) ∧
    ((base g0).readS g0 F.a).toNat % 128 = 0 ∧ ((base g0).readS g0 F.a).toNat + 4096 * (F.mf 6 1 + 1) ≤ (base g0).scrSize g0 ∧
    (base g0).matRoom g0.owner ≠ 0 ∧
    (∀ k ∈ [MatKind.mzero, .mlda, .msta], (base g0).accQueued g0.owner ((namedBlocks k F).map (· + (base g0).accBase g0)) (base g0).own.ids = false) ∧
    (F.a.toNat < (base g0).accn g0 ∧ (base g0).foreign g0.owner g0.ctx [F.a.toNat + (base g0).accBase g0] = none) ∧
    (∀ p ∈ [(Instr.mzero, MatKind.mzero), (.mlda, .mlda), (.msta, .msta)], Ready (p.1 { F with d := 63, mod := 0x1C0 }) (base g0) g0 ∧
      (namedBlocks p.2 { F with d := 64 }).find? (fun n => (base g0).accn g0 ≤ n) = some 64) ∧
    ((base g0).readS g0 F.b).toNat + (F.mf 5 1 + 1) ≤ 32 ∧ g0.ctl.exm ≠ 0 ∧ (Ready (.mrd F) (base (masked g0 0 1)) (masked g0 0 1) ∧ (masked g0 0 1).ctl.exm = 0) ∧
    (Ready (.mtag F) (base supG) supG ∧ (base supG).accBusy supG.owner F.d.toNat = false) := by
  refine ⟨ready_all (c := fun (c : Fields → Instr) => c F) (by decide +kernel), rfl, rfl, rfl, rfl, rfl, by decide, ⟨ready_of (by decide +kernel), by decide +kernel⟩,
    by decide +kernel, by decide +kernel, by decide +kernel, by decide +kernel, by decide +kernel, by decide +kernel, fun p hp => ⟨?_, ?_⟩, by decide +kernel, by decide,
    ⟨ready_of (by decide +kernel), rfl⟩, ready_of (by decide +kernel), by decide +kernel⟩
  · exact ready_all (c := fun (p : (Fields → Instr) × MatKind) => p.1 { F with d := 63, mod := 0x1C0 }) (by decide +kernel) p hp
  · exact (by decide +kernel : ∀ p ∈ [MatKind.mzero, .mlda, .msta], (namedBlocks p { F with d := 64 }).find? (fun n => (base g0).accn g0 ≤ n) = some 64) p.2
      (by fin_cases hp <;> decide)

/-- A block of 4 KiB at 0x10000 for mspill and mfill, in supervisor mode. -/
def fSp : Fields := { F with a := 2 }
def runOf (w : Bool) : List (Nat × List Piece) :=
  okOf [] ((fieldDev gM).check gM { write := w, noField := w, align := 128, scr := false, clu := false, priv := false, peer := false } 4096
    [(0, (fieldDev gM).readSP gM 2)])
def spillDev : State := (fieldDev gM).lookUps gM [(fieldDev gM).readSP gM 2]
theorem spillDev_sram : spillDev.dram.sram = [] := by decide +kernel
theorem witness_AccCells_far : ∀ w ∈ [true, false],
    (fieldDev gM).check gM { write := w, noField := w, align := 128, scr := false, clu := false, priv := false, peer := false } 4096
      [(0, (fieldDev gM).readSP gM 2)] = .ok (runOf w) ∧
    ((runOf w).flatMap (·.2)).map (fun p => (p.off, p.len, (match p.tgt with | .here (.mem _) _ => true | _ => false), p.at_.1)) =
      (List.range 128).map (fun i => (32 * i, 32, true, 0x10000 + 32 * i)) ∧
    (∀ p ∈ (runOf w).flatMap (·.2), p.at_.2 = 0 ∧ (fieldDev gM).unlanded 1 gM.owner p.at_.1 p.len = false) ∧
    (∀ p ∈ (runOf w).flatMap (·.2), Clean spillDev 0 p.at_.1 p.len) ∧ (fieldDev gM).accBusy gM.owner 0 = false ∧
    (fieldDev gM).accSpoilt gM.owner [0] = false :=
  fun w hw => ⟨ok_of [] ((by decide +kernel : ∀ w ∈ [true, false],
      ((fieldDev gM).check gM { write := w, noField := w, align := 128, scr := false, clu := false, priv := false, peer := false } 4096
        [(0, (fieldDev gM).readSP gM 2)]).isOk = true) w hw),
    (by decide +kernel : ∀ w ∈ [true, false], ((runOf w).flatMap (·.2)).map (fun p => (p.off, p.len, (match p.tgt with | .here (.mem _) _ => true | _ => false), p.at_.1)) =
      (List.range 128).map (fun i => (32 * i, 32, true, 0x10000 + 32 * i))) w hw,
    (by decide +kernel : ∀ w ∈ [true, false], ∀ p ∈ (runOf w).flatMap (·.2), p.at_.2 = 0 ∧ (fieldDev gM).unlanded 1 gM.owner p.at_.1 p.len = false) w hw,
    fun p hp => clean_of (List.all_eq_true.mp ((by decide +kernel : ∀ w ∈ [true, false], ((runOf w).flatMap (·.2)).all (fun p =>
      decide (2 ^ 39 ≤ p.at_.1) || (decide (spillDev.ecc (spillDev.scheme 0 p.at_.1) (p.at_.1 / 32) = .clean) &&
        !(spillDev.reach 0 p.at_.1).mixed p.at_.1)) = true) w hw) p hp) spillDev_sram, rfl, rfl⟩
theorem witness_AccCells_spill : Ready (.mspill fSp) (fieldDev gM) gM ∧ Ready (.mfill fSp) (fieldDev gM) gM :=
  ⟨ready_of (by decide +kernel), ready_of (by decide +kernel)⟩

theorem witness_MatrixCompletion :
    (∀ k ∈ [MatKind.mzero, .mma, .mmac, .mwr, .mlda, .msta, .mrd], (opDev k).mops.find? (fun p => p.id = (mop k).id) = some (mop k) ∧
      (opDev k).mopWaits (mop k) = false ∧ (mop k).blocks.Nodup ∧ ∀ q ∈ (opDev k).groups, q.2.eng.matQ = [] ∧ q.2.atLatch = none ∧ q.2.ctl.livem ≠ 0) ∧
    (mop .mma).blocks.length = (shapeOf (mop .mma).f).1 / 32 * ((shapeOf (mop .mma).f).2 / 32) ∧
    ((mop .mmac).blocks.length = 24 ∧ ((mop .mmac).peers.getD 3 (0, 0, 0)).1 = (mop .mmac).block ∧
      ∀ p, p < 3 → ((mop .mmac).peers.getD p (0, 0, 0)).1 ≠ (mop .mmac).block) ∧
    ((opDev .msta).block 1 = some blk ∧ ((opDev .msta).place (.scr blk.grid blk.lin 0)).any (2 ^ 39 ≤ ·) = true) ∧
    ((mop .mrd).members = [1] ∧ (mop .mrd).blocks = [0] ∧ (opDev .mrd).group 1 = some g0 ∧ (opDev .mrd).imageOf g0 = none ∧ g0.ctl.livem ≠ 0 ∧
      (mop .mrd).lanes.getLsbD 0 = true ∧ (mop .mrd).f.d.toNat + 0 < 255 ∧ g0.busy ((mop .mrd).f.d.toNat + 0) = false) ∧
    ((mop .mwr).off + ((mop .mwr).f.mf 5 1 + 1) ≤ 32 ∧ ((mop .mwr).inputs.map (·.1)).Nodup ∧ ∀ p ∈ (mop .mwr).inputs, p.1 / 32 < (mop .mwr).f.mf 5 1 + 1) ∧
    (let g := waitsAt (present .mma fM) g0
     (atClock (base g) 33).group 1 = some g ∧ g.sched.hold = .latch 0 false ∧ 0 + 32 < (atClock (base g) 33).clock.toNat) := by decide +kernel
/-! ### Witnesses: copies, objects, barriers -/

/-- A box of one row of 128 bytes at 0x10000, as tcopy, tcopys and gather take it. -/
def box128 : List Byte :=
  leBytes 0x10000 8 ++ leBytes 10 2 ++ leBytes 0 6 ++ leBytes 128 4 ++ leBytes 1 4 ++ List.replicate 16 0 ++ leBytes 128 8 ++ List.replicate 24 0 ++
    leBytes 128 2 ++ leBytes 1 2 ++ List.replicate 116 0
def line128 : RecLine := { addr := 0x10000, ctx := 1, rcd := box128, used := 0 }

/-- The pair at 2 names the record, s9 is 8. -/
def gBox : Group := scal g0 [(2, 0x10000), (9, 8)]
def fBox : Fields := word .w96 0 8 2 8 8 8
def obj0 (phase count left : Nat) (bytes : Int) : List Byte :=
  ({ valid := true, phase := BitVec.ofNat 32 phase, count := count, left := left, bytes := bytes } : Obj).toBytes

/-- The device with the record, and object 0 of the block. -/
def boxDev (recs : List RecLine) : State :=
  { fieldDev gBox with
    mem := Mem.wrBytes (Mem.wrBytes tables 0x10000 box128) (sliceKey 0 7936) (obj0 0 1 1 0)
    nodes := [(0, { core0 with recs := recs })] }
def boxRun : List (Nat × List Piece) := okOf [] ((boxDev [line128]).check gBox recordUse 192 [(0, (boxDev [line128]).readSP gBox 2)])

theorem mix_same (n : Nat) (l : List Byte) : mixWords n l l = (List.range 24).flatMap (fun i => (l.drop (8 * i)).take 8) := by simp [mixWords]

theorem boxRun_bytes : (boxDev [line128]).viewNow 1 gBox (boxRun.flatMap (·.2)) = box128 := by decide +kernel

/-- What the statement asks of the record's shape. -/
def shapeB (f : Fields) (k : CmdKind) : Bool :=
  let s := boxDev [line128]
  let h := shapeOfBytes ((List.range 24).flatMap (fun i => (box128.drop (8 * i)).take 8))
  s.baseSpace gBox (BitVec.ofNat 64 h.base) == 0 && h.bad (k = .load) (k = .gather []) (s.readS gBox f.b).toInt == 0 &&
    decide (f.b.toNat < 128) && decide ((s.readS gBox f.e).toNat + h.last ≤ s.scrSize gBox) && !s.baseField gBox (BitVec.ofNat 64 h.base) &&
    (List.range 32).all (fun L => decide ((s.readS gBox f.e).toNat + (L * h.sp + h.rb) ≤ s.scrSize gBox))

theorem witness_CopyIssue :
    (∀ c ∈ [Instr.tcopy, .tcopys, .gather], Ready (c fBox) (boxDev []) gBox ∧ Ready (c fBox) (boxDev [line128]) gBox) ∧
    (∃ l, (boxDev []).check gBox recordUse 192 [(0, (boxDev []).readSP gBox fBox.a)] = .ok l) ∧
    (Ready (.tcopy { fBox with e := 9 }) (boxDev []) gBox ∧ ((boxDev []).readS gBox 9).toNat % 16 ≠ 0) ∧
    (((boxDev []).readS gBox fBox.e).toNat % 16 = 0 ∧ (boxDev []).cachedRec gBox.owner gBox.ctx ((boxDev []).readSP gBox fBox.a).toNat = none) ∧
    ((boxDev [line128]).check gBox recordUse 192 [(0, (boxDev [line128]).readSP gBox fBox.a)] = .ok boxRun ∧
      (boxDev [line128]).cachedRec gBox.owner gBox.ctx ((boxDev [line128]).readSP gBox fBox.a).toNat = some line128 ∧
      record (boxDev [line128]) gBox line128 (boxRun.flatMap (·.2)) =
        (List.range 24).flatMap (fun i => (box128.drop (8 * i)).take 8) ∧
      (∀ k ∈ [CmdKind.load, .store, .gather []], shapeB fBox k = true) ∧
      ((boxDev [line128]).obj gBox.block fBox.h.toNat).any (·.valid) = true ∧ gBox.eng.copyQ.length < 8) ∧
    (∀ c ∈ [Instr.trf, .bclose, .bwait], Ready (c F) (base g0) g0) ∧ g0.eng.batches.length < 32 ∧ F.d.toNat < 128 ∧ (Ready (.bclose { F with d := 127 }) (base g0) g0 ∧ (127 : BitVec 8).toNat < 128) ∧
    (wrapGt ((base g0).opA g0 (rowBwait F) F 0) g0.sys.batchseq = false ∧ wrapGe g0.sys.batchdone ((base g0).opA g0 (rowBwait F) F 0) = true) ∧
    (let g := { scal g0 [(0, 1)] with sys := { g0.sys with batchseq := 1 } }
     Ready (.bwait F) (base g) g ∧ wrapGt ((base g).opA g (rowBwait F) F 0) g.sys.batchseq = false ∧
      wrapGe g.sys.batchdone ((base g).opA g (rowBwait F) F 0) = false) ∧
    (let g := scal g0 [(0, 1)]
     Ready (.bwait F) (base g) g ∧ wrapGt ((base g).opA g (rowBwait F) F 0) g.sys.batchseq = true) := by
  refine ⟨fun c hc => ⟨?_, ?_⟩, ⟨_, ok_of [] (by decide +kernel)⟩, ⟨ready_of (by decide +kernel), by decide +kernel⟩, by decide +kernel,
    ⟨ok_of [] (by decide +kernel), by decide +kernel, by unfold record; rw [show (boxDev [line128]).own.cur = 1 from rfl, boxRun_bytes, if_pos (by decide +kernel)]; exact mix_same _ _, by decide +kernel, by decide +kernel, by decide⟩,
    ready_all (c := fun (c : Fields → Instr) => c F) (by decide +kernel), by decide, by decide,
    ⟨ready_of (by decide +kernel), by decide⟩, by decide +kernel, ⟨ready_of (by decide +kernel), by decide +kernel, by decide +kernel⟩, ready_of (by decide +kernel), by decide +kernel⟩
  · exact ready_all (c := fun (c : Fields → Instr) => c fBox) (s := boxDev []) (g := gBox) (by decide +kernel) c hc
  · exact ready_all (c := fun (c : Fields → Instr) => c fBox) (s := boxDev [line128]) (g := gBox) (by decide +kernel) c hc

/-- A load of the box by group 1, in its FIFO or under way; slot 1 discards it where it is guarded. -/
def cmd (gs : Nat) (run : Bool) (left : List Nat) : Cmd :=
  { cmdOf 1 g0 .load F with id := 6, rcd := box128, org := [0, 0, 0, 0, 0], n := 128, gs := gs, run := run, left := left }
def gCmd (gs : Nat) : Group := { g0 with ctl := { g0.ctl with guards := 4 }, eng := { g0.eng with copyQ := [cmd gs false [0]] } }

theorem witness_CopyEngine :
    (let s := (fieldDev g0).modNode 0 (fun n => { n with fetching := [(0x10000, 1, 1)] })
     (s.node 0).fetching = (0x10000, 1, 1) :: [] ∧ s.acquiring 1 s.own.ids = false) ∧
    (∀ n ∈ [0, 1], (base (gCmd n)).group 1 = some (gCmd n) ∧ (gCmd n).visitor = none ∧ (gCmd n).eng.copyQ = cmd n false [0] :: [] ∧
      (∀ d ∈ (base (gCmd n)).cmds, d.gid = 1 → d.run = true)) ∧
    ((base (gCmd 1)).guardOf (cmd 1 false [0]) = 2 ∧ ∀ d ∈ ([] : List Cmd), d.id ≠ (cmd 1 false [0]).id) ∧
    ((base (gCmd 0)).guardOf (cmd 0 false [0]) ≠ 2 ∧ (base (gCmd 0)).nextServed g0.owner = some 1 ∧
      ((base (gCmd 0)).cmds.filter (fun d => d.node = g0.owner && d.run)).length < 64) ∧
    (let s := { fieldDev g0 with cmds := [cmd 0 true [0]] }
     s.cmds.find? (fun d => d.id = (cmd 0 true [0]).id) = some (cmd 0 true [0]) ∧ (cmd 0 true [0]).run = true ∧ 0 ∈ (cmd 0 true [0]).left ∧
       s.pieceReady (cmd 0 true [0]) 0 = true) ∧
    (let s := { base g0 with cmds := [cmd 0 true []] }
     s.cmds.find? (fun d => d.id = (cmd 0 true []).id) = some (cmd 0 true []) ∧ (cmd 0 true []).run = true ∧ (cmd 0 true []).left = []) :=
  ⟨⟨rfl, by decide +kernel⟩, fun n hn => ⟨rfl, rfl, rfl, fun d hd => by simp [base, dev, State.reset] at hd⟩, ⟨by decide +kernel, fun d hd => by simp at hd⟩, by decide +kernel,
    ⟨rfl, rfl, by decide, by decide +kernel⟩, rfl, rfl, rfl⟩

/-- The device with object 0 valid, in a phase, with a count of 2 and arrivals and bytes left. -/
def objDev (g : Group) (phase left : Nat) (bytes : Int) : State := { base g with mem := Mem.wrBytes [] (sliceKey 0 7936) (obj0 phase 2 left bytes) }
def theObj (phase left : Nat) (bytes : Int) : Obj := { valid := true, phase := BitVec.ofNat 32 phase, count := 2, left := left, bytes := bytes }
/-- s1 is 1, s2 the largest count of bytes that abexp takes, s3 a count that abinit refuses. -/
def gO : Group := scal g0 [(1, 1), (2, 0x7FFFFFFF), (3, 65536), (4, 65535)]

theorem witness_Objects :
    gO.visitor = none ∧ (objDev gO 1 1 0).block gO.block = some blk ∧ (objDev gO 1 1 0).obj gO.block 0 = some (theObj 1 1 0) ∧
    (objDev gO 1 0 (-1)).obj gO.block 0 = some (theObj 1 0 (-1)) ∧ (objDev gO 1 2 0).obj gO.block 0 = some (theObj 1 2 0) ∧
    (∀ p ∈ [(4, 65535), (1, 1)], Ready (.abinit { F with b := p.1 }) (objDev gO 1 2 0) gO ∧
      ((objDev gO 1 2 0).opB gO (rowAbinit { F with b := p.1 }) { F with b := p.1 } 0).toNat = p.2) ∧
    (∀ p ∈ [(3, 65536), (0, 0)], Ready (.abinit { F with b := p.1 }) (objDev gO 1 2 0) gO ∧
      ((objDev gO 1 2 0).opB gO (rowAbinit { F with b := p.1 }) { F with b := p.1 } 0).toNat = p.2) ∧
    (∀ s ∈ [objDev gO 1 1 0, objDev gO 1 0 (-1)], Ready (.abarv F) s gO ∧ s.unreleased s.own.cur s.own.ids 1 = false) ∧
    (Ready (.abexp { F with b := 2 }) (objDev gO 1 2 0) gO ∧
      (0 : Int) + (((objDev gO 1 2 0).opB gO (rowAbexp { F with b := 2 }) { F with b := 2 } 0).toNat : Int) < 2 ^ 31) ∧
    (∀ p ∈ [(0, true), (1, false)], Ready (.abwait { F with b := p.1 }) (objDev gO 1 2 0) gO ∧ wrapGt (theObj 1 2 0).phase ((objDev gO 1 2 0).readS gO p.1) = p.2) ∧
    blk.badObj.getLsbD 0 = false ∧
    (∀ c ∈ [Instr.abarv, .abexp, .abwait], Ready (c F) (base gO) gO) ∧ ((base gO).obj gO.block 0).any (fun o => !o.valid) = true ∧
    (Ready (.gset { F with a := 7, b := 1 }) (base gO) gO ∧ (7 : BitVec 8).toNat < 8 ∧ NoMatrixWaits (base gO) gO.owner ∧ gO.ctl.livem ≠ 0 ∧
      (gO.settleHead gO.eng.copyQ).1 = []) := by
  refine ⟨rfl, by decide +kernel, by decide +kernel, by decide +kernel, by decide +kernel, fun p hp => ⟨?_, ?_⟩, fun p hp => ⟨?_, ?_⟩,
    fun s hs => ⟨?_, ?_⟩, ⟨ready_of (by decide +kernel), by decide +kernel⟩, fun p hp => ⟨?_, ?_⟩, by decide, ready_all (c := fun (c : Fields → Instr) => c F) (by decide +kernel),
    by decide +kernel, ready_of (by decide +kernel), by decide, (by unfold NoMatrixWaits; decide +kernel), by decide, by decide +kernel⟩
  · exact ready_all (c := fun (p : BitVec 8 × Nat) => Instr.abinit { F with b := p.1 }) (s := objDev gO 1 2 0) (g := gO) (by decide +kernel) p hp
  · exact (by decide +kernel : ∀ p ∈ [((4 : BitVec 8), 65535), (1, 1)], ((objDev gO 1 2 0).opB gO (rowAbinit { F with b := p.1 }) { F with b := p.1 } 0).toNat = p.2) p hp
  · exact ready_all (c := fun (p : BitVec 8 × Nat) => Instr.abinit { F with b := p.1 }) (s := objDev gO 1 2 0) (g := gO) (by decide +kernel) p hp
  · exact (by decide +kernel : ∀ p ∈ [((3 : BitVec 8), 65536), (0, 0)], ((objDev gO 1 2 0).opB gO (rowAbinit { F with b := p.1 }) { F with b := p.1 } 0).toNat = p.2) p hp
  · rcases List.mem_cons.mp hs with h | h
    · rw [h]; exact ready_of (by decide +kernel)
    · rw [List.mem_singleton.mp h]; exact ready_of (by decide +kernel)
  · rcases List.mem_cons.mp hs with h | h
    · rw [h]; decide +kernel
    · rw [List.mem_singleton.mp h]; decide +kernel
  · exact ready_all (c := fun (p : BitVec 8 × Bool) => Instr.abwait { F with b := p.1 }) (s := objDev gO 1 2 0) (g := gO) (by decide +kernel) p hp
  · exact (by decide +kernel : ∀ p ∈ [((0 : BitVec 8), true), (1, false)], wrapGt (theObj 1 2 0).phase ((objDev gO 1 2 0).readS gO p.1) = p.2) p hp

/-- Two groups of a block, the second waiting at a barrier or not; the grid is co-resident. -/
def barDev (h : Hold) : State :=
  { dev blkM g0 with
    groups := [(1, g0), (2, { gMat 1 with sched := { g0.sched with hold := h } })], grids := [(1, { placedGrid 0 with flags := 2 })] }
def coGrid : Grid := { placedGrid 0 with flags := 2 }

theorem witness_Barriers :
    (∀ c ∈ [Instr.bar, .barc, .barh], ∀ h ∈ [Hold.none, .bar, .barc, .barh 0], Ready (c F) (barDev h) g0) ∧
    (∀ h ∈ [Hold.none, .bar, .barc, .barh 0], (barDev h).block g0.block = some blkM ∧ (barDev h).grid blkM.grid = some coGrid ∧
      (∀ p ∈ (barDev h).blocks, p.2.saved = none) ∧ (barDev h).notYet 1 g0 1 true = false ∧ (barDev h).notYet 1 g0 2 false = false ∧
      (barDev h).notYet 1 g0 3 false = false ∧ (barDev h).clusterPlaced blkM = true ∧ liveOf ((barDev h).cluster blkM) = [1, 2] ∧
      liveOf ((barDev h).level blkM 0).1 = [1, 2] ∧ ((barDev h).level blkM 0).2 = true ∧ ((barDev h).group 2).any (fun g => g.sched.hold = h) = true) ∧
    g0.sched.skidLeft = none ∧ g0.sched.dhalt = false ∧ coGrid.flags.getLsbD 1 = true ∧
    (Ready (.barh F) (base g0) g0 ∧ (placedGrid 0).flags.getLsbD 1 = false) := by
  refine ⟨fun c hc h hh => ready_all (c := fun (c : Fields → Instr) => c F) ?_ c hc, by decide +kernel, rfl, rfl, rfl, ready_of (by decide +kernel), rfl⟩
  exact (by decide +kernel : ∀ h ∈ [Hold.none, .bar, .barc, .barh 0], [Instr.bar, .barc, .barh].all (fun c => readyB (c F) (barDev h) g0) = true) h hh
/-! ### Witnesses: multicast, collectives, counters, queues -/

/-- A member of the communication domain; 0x40000 is a page in the window of device 3; the table at 0 holds multicast group 1 and communicator 0
of this device alone. -/
def peerDev (b : Block) (g : Group) : State :=
  { fieldDev g with
    mem := Mem.wrBytes (Mem.wrBytes (Mem.wrBytes tables 0x131020 (leBytes (2 + 2 ^ 54 + 3 * 2 ^ 55) 8)) 0 (leBytes 0x200 8 ++ [1, 0, 1, 0, 1])) 392 [1]
    blocks := [(1, b)]
    fab := { (fieldDev g).fab with domst := 1, dctxmap := [(1, 0x10001)] } }

/-- The pair at 2 is the window, s7 is 1, the quad at 8 a GET of 16 bytes, the quad at 12 a reserved bit, the quad at 16 a collective of 256 bytes. -/
def gW : Group := scal g0 [(2, 0x40000), (7, 1), (8, 0x40000), (11, 16), (15, 0x2000000), (16, 1), (19, 256)]
def fW (c : BitVec 8) : Fields := { word .w96 0 0 2 0 c 0 with mod := 0 }
def otherComm : Block := { blk with k := { kern with commg := 1 } }
/-- A block in which another group has issued a collective of 512 bytes. -/
def coll0 : Coll :=
  { id := 5, block := 1, desc := BitVec.ofNat 128 (1 + 512 * 2 ^ 96), obj := 0, gids := [(2, 3)], gs := 0, gneg := false, sup := false, differ := false,
    started := false, k := 0, n := 0, rank := 0, devs := [], cq := 0, steps := 0, sig := 0 }
def blkO : Block := { blkM with colls := [coll0] }
def collD (d : BitVec 128) : Nat := (peerDev blk gW).collBad (collDesc d) blk false

theorem witness_Collectives :
    (Ready (.vstmc (fW 0)) (peerDev blk (masked gW 0 1)) (masked gW 0 1) ∧ (masked gW 0 1).ctl.exm = 0) ∧
    (∀ c ∈ [(0, 0), (7, 1)], Ready (.vstmc (fW c.1)) (peerDev blk gW) gW ∧ (peerDev blk gW).mcastFl (((peerDev blk gW).readS gW c.1).toNat % 4096) % 2 = c.2) ∧
    gW.ctl.exm ≠ 0 ∧ (peerDev blk gW).egressFault gW.ctx = none ∧
    (let r := (peerDev blk gW).check gW (peerUse true) 1 ((lanesOf gW.ctl.exm).map (fun L => (L, BitVec.ofInt 64 (((peerDev blk gW).readSP gW 2).toInt +
        ((peerDev blk gW).readV gW 0 L).toInt * 2 ^ 0))))
     r.isOk = true ∧ (pieces r).all (fun x => x.2.all (fun p => match p.tgt with | .peer _ _ => true | _ => false)) = true) ∧
    (Ready (.coll (fW 0)) (peerDev blk gW) gW ∧ collD (quadOf (gW.readSQ 12)) ≠ 0) ∧
    (let f := { fW 0 with a := 16 }
     Ready (.coll f) (peerDev blk gW) gW ∧ collD (quadOf (gW.readSQ 16)) = 0 ∧ (peerDev blkM gW).collBad (collDesc (quadOf (gW.readSQ 16))) blkM false = 0 ∧
      2 ∈ blkM.live ∧ blkM.colls = [] ∧
      (Ready (.coll f) (peerDev blkO gW) gW ∧ blkO.openColl 1 = some coll0 ∧ coll0.desc ≠ quadOf (gW.readSQ 16) ∧
        (peerDev blkO gW).collBad (collDesc (quadOf (gW.readSQ 16))) blkO true ≠ 0)) ∧
    (∀ a ∈ [8, 12], Ready (.crem { fW 0 with a := a }) (peerDev blk gW) gW ∧ a.toNat < 128) ∧ 2 ^ 25 ≤ (gW.rdS 15).toNat ∧ (gW.rdS 11).toNat < 2 ^ 25 ∧
    gW.index ≠ otherComm.k.commg ∧ Ready (.crem { fW 0 with a := 8 }) (peerDev otherComm gW) gW ∧
    (gW.index = blk.k.commg ∧ (gW.rdS 11).toNat % 2 ^ 24 = 16 ∧ (gW.rdS 10).toNat + 16 ≤ blk.k.scr ∧
      (peerDev blk gW).inPeer gW (pairOf (gW.rdS 8) (gW.rdS 9)) 16 = true ∧ gW.eng.copyQ.length < 8) := by
  refine ⟨⟨ready_of (by decide +kernel), rfl⟩, fun c hc => ⟨?_, ?_⟩, by decide, by decide +kernel, ⟨by decide +kernel, by decide +kernel⟩,
    ⟨ready_of (by decide +kernel), by decide +kernel⟩, ⟨ready_of (by decide +kernel), by decide +kernel, by decide +kernel, by decide, rfl,
      ready_of (by decide +kernel), by decide +kernel, by decide +kernel, by decide +kernel⟩, fun a ha => ⟨?_, ?_⟩, by decide +kernel,
    by decide +kernel, by decide, ready_of (by decide +kernel), rfl, by decide +kernel, by decide +kernel, by decide +kernel, by decide⟩
  · exact ready_all (c := fun (p : BitVec 8 × Nat) => Instr.vstmc (fW p.1)) (s := peerDev blk gW) (g := gW) (by decide +kernel) c hc
  · exact (by decide +kernel : ∀ c ∈ [((0 : BitVec 8), 0), (7, 1)], (peerDev blk gW).mcastFl (((peerDev blk gW).readS gW c.1).toNat % 4096) % 2 = c.2) c hc
  · exact ready_all (c := fun (a : BitVec 8) => Instr.crem { fW 0 with a := a }) (s := peerDev blk gW) (g := gW) (by decide +kernel) a ha
  · exact (by decide : ∀ a ∈ [(8 : BitVec 8), 12], a.toNat < 128) a ha

/-- Counter 0 belongs to context 1, or to none; queue 0 is of a class, open or closed, with one record in core 0's shard or none. -/
def qDev (cls : Nat) (owner : BitVec 8) (closed : Bool) (l : List Rec) (data : List Byte) : State :=
  { fieldDev gB0 with
    mem := Mem.wrBytes tables 0x10000 data
    dist := { (fieldDev gB0).dist with
      owners := [(0, owner)]
      queues := [(0, BitVec.ofNat 128 (cls + (if closed then 8 else 0) + 2 ^ 56 * owner.toNat))]
      shards := if l.isEmpty then [] else [(0, l)] } }
where gB0 : Group := scal g0 [(2, 0x10000), (5, 1)]
def gQ : Group := scal g0 [(2, 0x10000), (5, 1)]

/-- What a read of its own returns. -/
theorem read_of {r : State × Option (List Byte)} {p : List Byte → Bool} (h : r.2.any p = true) : ∃ bs, r = (r.1, some bs) ∧ p bs = true := by
  obtain ⟨s, o⟩ := r
  cases o with
  | none => simp at h
  | some bs => exact ⟨bs, rfl, by simpa using h⟩

def op3 : List Byte := [3]
def fQ : Fields := { F with a := 2, b := 0, d := 6 }
def readP (s : State) (u : Use) : State × Option (List Byte) := s.readOwn 1 gQ ((okOf [] (s.check gQ u 64 [(0, s.readSP gQ 2)])).flatMap (·.2))
def trUse : Use := { align := 64, priv := false, peer := false }
def tqUse : Use := { align := 1, priv := false, peer := false }

theorem witness_EventCounters :
    (∀ c ∈ [Instr.ecinc, .ecdec, .ecrd], Ready (c F) (qDev 1 0 false [] []) gQ ∧ Ready (c F) (qDev 1 1 false [] []) gQ) ∧
    Sparse.get 0 (qDev 1 0 false [] []).dist.owners 0 ≠ gQ.ctx ∧ Sparse.get 0 (qDev 1 1 false [] []).dist.owners 0 = gQ.ctx ∧
    (qDev 1 1 false [] []).unreleased 1 (qDev 1 1 false [] []).own.ids 3 = false ∧ (qDev 1 1 false [] []).dist.attaches = [] ∧
    (∀ m ∈ [(0, false), (1, true)], (Ready (.ecset { F with mod := m.1 }) (base supG) supG ∧ ({ F with mod := m.1 } : Fields).m 1 = m.2)) ∧
    (Ready (.trpost fQ) (qDev 1 1 false [] op3) gQ ∧ ((qDev 1 1 false [] op3).check gQ trUse 64 [(0, (qDev 1 1 false [] op3).readSP gQ 2)]).isOk = true ∧
      (qDev 1 1 false [] op3).unsettled 1 = false ∧ (∃ bs, readP (qDev 1 1 false [] op3) trUse = ((readP (qDev 1 1 false [] op3) trUse).1, some bs) ∧ opBad bs = false) ∧
      (readP (qDev 1 1 false [] op3) trUse).1.attachCount < 262144 ∧
      Sparse.get 0 (qDev 1 1 false [] op3).dist.owners (((qDev 1 1 false [] op3).readS gQ fQ.b).toNat % 65536) = gQ.ctx) ∧
    Ready (.trcan fQ) (qDev 1 1 false [] []) gQ := by
  refine ⟨fun c hc => ⟨?_, ?_⟩, by decide +kernel, by decide +kernel, by decide +kernel, rfl, fun m hm => ⟨?_, ?_⟩,
    ⟨ready_of (by decide +kernel), by decide +kernel, by decide +kernel, ?_, by decide +kernel, by decide +kernel⟩, ready_of (by decide +kernel)⟩
  · exact ready_all (c := fun (c : Fields → Instr) => c F) (s := qDev 1 0 false [] []) (g := gQ) (by decide +kernel) c hc
  · exact ready_all (c := fun (c : Fields → Instr) => c F) (s := qDev 1 1 false [] []) (g := gQ) (by decide +kernel) c hc
  · exact ready_all (c := fun (m : BitVec 9 × Bool) => Instr.ecset { F with mod := m.1 }) (s := base supG) (g := supG) (by decide +kernel) m hm
  · exact (by decide +kernel : ∀ m ∈ [((0 : BitVec 9), false), (1, true)], ({ F with mod := m.1 } : Fields).m 1 = m.2) m hm
  · obtain ⟨bs, h1, h2⟩ := read_of (p := fun b => !opBad b) (by decide +kernel : ((readP (qDev 1 1 false [] op3) trUse).2.any (fun b => !opBad b)) = true)
    exact ⟨bs, h1, by simpa using h2⟩

def rec1 : Rec := { prio := 0, slot := 0, junk := none, gridid := 0, grid := none }
/-- A valid launch record, and one that is not. -/
def launch1 : List Byte := 1 :: List.replicate 63 0
def fR : Fields := { F with a := 0, b := 2, c := 0, d := 6 }
def takers (p : (Fields → Instr) × Bool) : Instr := p.1 F
def cqE : CqEntry := { header := 0x10000, valid := true, ctx := 1, dropped := false }
/-- A completion queue with TAIL `n` and HEAD 0. -/
def cqDev (n : Byte) : State := { qDev 1 1 false [] (List.replicate 20 0 ++ [n]) with mgmt := { (qDev 1 1 false [] []).mgmt with cqs := [(0, cqE)] } }
def headB (n : Byte) (m : Bool) : Bool := ((cqDev n).cqHeader cqE).any (fun p => decide (field p.2 20 4 ≠ field p.2 16 4) == m)

theorem witness_QueueInstructions :
    (∀ c ∈ [Instr.tqenq, .tqdeq, .tqtry, .tqdone, .tqatt, .tqstat], Ready (c F) (qDev 0 1 false [] []) gQ) ∧ qKind ((qDev 0 1 false [] []).qcfg 0) ∉ [1, 2] ∧
    qOwner ((qDev 2 0 false [] []).qcfg 0) ≠ gQ.ctx ∧
    (∀ k ∈ [1, 2], qKind ((qDev k 1 false [] launch1).qcfg 0) = k ∧ qOwner ((qDev k 1 false [] launch1).qcfg 0) = gQ.ctx ∧
      ((qDev k 1 false [] launch1).check gQ tqUse 64 [(0, (qDev k 1 false [] launch1).readSP gQ 2)]).isOk = true ∧ (qDev k 1 false [] launch1).unsettled 1 = false ∧
      (readP (qDev k 1 false [] launch1) tqUse).2.any (fun b => !launchBad b) = true ∧ (qDev k 1 false [] launch1).shardFull 0 gQ.owner = false ∧
      (readP (qDev k 1 false [] launch1) tqUse).1.unreleased 1 (qDev k 1 false [] launch1).own.ids 3 = false ∧
      (readP (qDev k 1 false [] launch1) tqUse).1.attachCount < 262144 ∧
      ∀ c ∈ [Instr.tqenq, .tqatt], readyB (c fR) (qDev k 1 false [] launch1) gQ = true) ∧
    (∀ p ∈ [(Instr.tqdeq, false), (.tqtry, true)], Ready (takers p) (qDev 2 1 false [rec1] []) gQ ∧ Ready (takers p) (qDev 2 1 true [] []) gQ ∧
      Ready (takers p) (qDev 2 1 false [] []) gQ) ∧
    ((qDev 2 1 false [] []).readS gQ 0).toNat % 64 = 0 ∧ ((qDev 2 1 false [] []).readS gQ 0).toNat + 64 ≤ (qDev 2 1 false [] []).scrSize gQ ∧
    (((qDev 2 1 false [rec1] []).dist.requests.filter (fun r => !r.cq && r.queue = 0)).length < (qDev 2 1 false [rec1] []).inShards 0 ∧
      (qDev 2 1 false [rec1] []).block gQ.block = some blk ∧ ((qDev 2 1 false [rec1] []).place (.scr blk.grid blk.lin 0)).any (2 ^ 39 ≤ ·) = true ∧ (qDev 2 1 false [rec1] []).takeFrom 0 gQ.owner = some 0 ∧
      topRec ((qDev 2 1 false [rec1] []).shard 0 0) = some rec1) ∧
    (∀ b ∈ [true, false], (qDev 2 1 b [] []).inShards 0 = 0 ∧ qClosed ((qDev 2 1 b [] []).qcfg 0) = b) ∧
    (let g := { gQ with out := { gQ.out with items := [(0, 1)] } }
     Ready (.tqdone F) (dev blk g) g ∧ 0 < Sparse.get 0 g.out.items 0) ∧ Sparse.get 0 gQ.out.items 0 = 0 ∧
    (Ready (.cqpost fQ) (qDev 1 1 false [] []) gQ ∧ (qDev 1 1 false [] []).cqOf gQ.ctx ((qDev 1 1 false [] []).readSP gQ 2) = none) ∧
    (Ready (.cqpost fQ) (cqDev 0) gQ ∧ (cqDev 0).cqOf gQ.ctx ((cqDev 0).readSP gQ 2) = some (0, cqE) ∧ Quiet (cqDev 0) gQ ∧
      (cqDev 0).unreleased 1 (cqDev 0).own.ids 5 = false ∧ (cqDev 0).dist.requests = []) ∧
    (∀ m ∈ [(0, false), (1, true)], Ready (.cqpoll { F with mod := m.1 }) (cqDev 0) gQ ∧ ({ F with mod := m.1 } : Fields).m 1 = m.2) ∧
    Sparse.find (cqDev 0).mgmt.cqs 0 = some cqE ∧ headB 0 false = true ∧ headB 1 true = true := by
  refine ⟨ready_all (c := fun (c : Fields → Instr) => c F) (by decide +kernel), by decide +kernel, by decide +kernel, by decide +kernel, fun p hp => ⟨?_, ?_, ?_⟩,
    by decide +kernel, by decide +kernel, ⟨by decide +kernel, by decide +kernel, by decide +kernel, by decide +kernel, by decide +kernel⟩, by decide +kernel, ⟨ready_of (by decide +kernel), by decide⟩, rfl,
    ⟨ready_of (by decide +kernel), by decide +kernel⟩,
    ⟨ready_of (by decide +kernel), by decide +kernel, quiet_like (wc_dev blk gQ) rfl rfl rfl rfl, by decide +kernel, rfl⟩, fun m hm => ⟨?_, ?_⟩, by decide +kernel, by decide +kernel, by decide +kernel⟩
  · exact ready_all (c := takers) (s := qDev 2 1 false [rec1] []) (g := gQ) (by decide +kernel) p hp
  · exact ready_all (c := takers) (s := qDev 2 1 true [] []) (g := gQ) (by decide +kernel) p hp
  · exact ready_all (c := takers) (s := qDev 2 1 false [] []) (g := gQ) (by decide +kernel) p hp
  · exact ready_all (c := fun (m : BitVec 9 × Bool) => Instr.cqpoll { F with mod := m.1 }) (s := cqDev 0) (g := gQ) (by decide +kernel) m hm
  · exact (by decide +kernel : ∀ m ∈ [((0 : BitVec 9), false), (1, true)], ({ F with mod := m.1 } : Fields).m 1 = m.2) m hm

def req1 : Request := { id := 4, gid := 1, queue := 0, core := 0, dst := 6, off := 0, cq := false }
def fired1 : Fired :=
  { queue := 0, core := 0, att := { id := 3, counter := 0, rel := 0, dep := false, ctx := 1, core := 0, sup := false, task := some (0, 0), addr := 0, rcd := List.replicate 64 0 } }
def askedDev : State := { qDev 2 1 false [rec1] [] with dist := { (qDev 2 1 false [rec1] []).dist with requests := [req1] } }
def firedDev : State := { qDev 2 1 false [] [] with dist := { (qDev 2 1 false [] []).dist with fired := [fired1] } }
theorem witness_QueueEvents :
    (topRec (askedDev.shard 0 0) = some rec1 ∧ askedDev.eligible 0 0 = some req1 ∧ qKind (askedDev.qcfg 0) = 2) ∧
    ((firedDev.slotKey 0 0 0 % 64 = 0 ∧ fired1.att.rcd.length = 64) ∧ firedDev.waitingFired 0 0 = fired1 :: [] ∧ (firedDev.shard 0 0).length < qCap (firedDev.qcfg 0)) ∧
    ((qDev 1 1 false [] []).mgmt.devstat.toNat % 8 = 1 ∧ launch1.length = 64 ∧ qKind ((qDev 1 1 false [] []).qcfg 0) = 1 ∧ launchBad launch1 = false ∧
      (qDev 1 1 false [] []).shardFull 0 (hostCore ((qDev 1 1 false [] []).qcfg 0) (Sparse.get 0 (qDev 1 1 false [] []).dist.hostNext 0)) = false) ∧
    (firedDev.shardFull 0 (hostCore (firedDev.qcfg 0) (Sparse.get 0 firedDev.dist.hostNext 0)) = true ∧ qKind (firedDev.qcfg 0) ≠ 0) :=
  ⟨⟨by decide +kernel, by decide +kernel, by decide +kernel⟩, ⟨by decide +kernel, by decide +kernel, by decide +kernel⟩,
    ⟨by decide +kernel, by decide, by decide +kernel, by decide +kernel, by decide +kernel⟩, by decide +kernel, by decide +kernel⟩
/-! ### Witnesses: migration, placement, residence -/

/-- A migr whose lists name v16, v17 and s4, its token v30, over the own scratchpad. -/
def gMig : Group := scal g0 [(1, 0x00FE0000), (8, 3), (9, 1)]
def fMig : Fields := { word .w128 0 0 0 0 8 0 with e := 9, h := 30, xmod := 0x110 }
def withV0 (w : Word) : Group := vect g0 (if w = 0 then [] else [(0, w)])

theorem witness_MigrationInstructions :
    (Ready (.migr fMig) (base gMig) gMig ∧ gMig.visitor = none ∧ listedRegs (fMig.xmod.toNat % 256) ((base gMig).readS gMig fMig.c) = [16, 17] ∧
      listedRegs (4 * (fMig.xmod.toNat / 256)) ((base gMig).readS gMig fMig.e) = [4] ∧
      (∀ r ∈ [16, 17], r < 255 ∧ (base gMig).owns gMig false r = true ∧ gMig.isEmpty false r = false) ∧
      (∀ r ∈ [4], r < 128 ∧ (base gMig).owns gMig true r = true ∧ gMig.isEmpty true r = false) ∧ fMig.h.toNat ∉ [16, 17] ∧ fMig.h.toNat < 255 ∧
      ((base gMig).check gMig {} 1 ((lanesOf gMig.ctl.exm).map (fun L => (L, BitVec.ofInt 64 (((base gMig).readSP gMig fMig.a).toInt +
        ((base gMig).readV gMig fMig.b.toNat L).toInt * 2 ^ fMig.mf 2 1))))).isOk = true ∧
      (base gMig).unreleased (base gMig).own.cur (base gMig).own.ids 3 = false) ∧
    (∀ c ∈ [Instr.mret, .mjoin, .mtest], Ready (c F) (base g0) g0) ∧
    (Ready (.mret F) (base guest) guest ∧ guest.visitor = some { origin := 2, token := 9, vlist := 0xFF, slist := 0xFF, slot := 0 } ∧
      (base guest).unreleased (base guest).own.cur (base guest).own.ids 3 = false ∧ guest.ctl.livem ≠ 0) ∧
    (∀ L, L < 32 → ((base g0).readV g0 0 L).toNat % 256 ≠ 3 ∧ ((base g0).readV g0 0 L).toNat % 256 ≠ 2) ∧
    (Ready (.mjoin F) (base (withV0 3)) (withV0 3) ∧ ((base (withV0 3)).readV (withV0 3) 0 0).toNat % 256 = 3) ∧ ScalarDst 0 ∧
    (let g := masked g0 0 0xFFFFFFFF
     Ready (.mowner F) (base g) g ∧ g.ctl.exm = 0 ∧ g.ctl.livem = 0xFFFFFFFF) ∧
    (Ready (.mowner F) (base gS) gS ∧ gS.ctl.exm ≠ 0 ∧ Quiet (base gS) gS ∧ ((base gS).locate gS 0 {} 1 ((base gS).readSP gS 0)).2 = [] ∧
      ((base gS).ownerAt gS ((base gS).locate gS 0 {} 1 ((base gS).readSP gS 0)).1) = some 0) :=
  ⟨⟨ready_of (by decide +kernel), rfl, by decide +kernel, by decide +kernel, by decide +kernel, by decide +kernel, by decide, by decide, by decide +kernel, by decide +kernel⟩,
    ready_all (c := fun (c : Fields → Instr) => c F) (by decide +kernel), ⟨ready_of (by decide +kernel), rfl, by decide +kernel, by decide⟩, by decide +kernel,
    ⟨ready_of (by decide +kernel), by decide +kernel⟩, .inl (by decide), ⟨ready_of (by decide +kernel), rfl, rfl⟩,
    ready_of (by decide +kernel), by decide, quiet_dev ⟨rfl, rfl, rfl⟩, by decide +kernel, by decide +kernel⟩

/-- A continuation on its way to core 1, or arrived there; a return to group 1. -/
def cont1 (arrived : Option Nat) : Cont :=
  { id := 7, owner := 1, origin := 1, block := 1, token := 30, lanes := 1, pc := 0x10010, vlist := 0, slist := 0, v := [], s := [], ctx := 1, index := 0, arrived := arrived }
def ret1 : Ret := { id := 8, slot := some (1, 0), origin := 1, block := 1, token := 30, lanes := 1, code := 1, reason := 0, addr := 0, vlist := 0, v := [] }
def contDev (a : Option Nat) (n : Node) (clock : Nat) : State :=
  { base g0 with conts := [cont1 a], rets := [{ ret1 with slot := none }], nodes := [(0, core0), (1, n)], clock := BitVec.ofNat 64 clock }
/-- Every slot of core 1 holds registers that have not been sent. -/
def slotsDev : State := { contDev (some 0) Node.reset 4096 with rets := (List.range 8).map (fun n => { ret1 with id := 10 + n, slot := some (1, n) }) }
def contSt : State := { contDev none Node.reset 0 with conts := [{ cont1 (some 0) with owner := 195 }] }

theorem witness_MigrationEvents :
    (contDev none Node.reset 0).conts.find? (fun d => d.id = 7 && d.arrived.isNone) = some (cont1 none) ∧
    ((contDev none Node.reset 0).node 1).vopen.getLsbD ((contDev none Node.reset 0).tlevel 1) = true ∧
    ((contDev none { Node.reset with vopen := 0 } 0).node 1).vopen.getLsbD ((contDev none Node.reset 0).tlevel 1) = false ∧
    ((contDev (some 0) Node.reset 4096).firstCont 1 = some (cont1 (some 0)) ∧ (contDev (some 0) Node.reset 4096).freeSlot 1 = some 0 ∧ (cont1 (some 0)).owner < 192) ∧
    (contSt.firstCont 195 = some { cont1 (some 0) with owner := 195 } ∧ contSt.freeSlot 195 = some 0) ∧
    (slotsDev.conts.find? (fun d => d.id = 7) = some (cont1 (some 0)) ∧ 0 + 4096 ≤ slotsDev.clock.toNat ∧ slotsDev.freeSlot 1 = none) ∧
    ({ ret1 with id := 17, slot := some (1, 7) } ∈ slotsDev.rets) ∧
    (let r := { ret1 with slot := none }
     (contDev none Node.reset 0).rets.find? (fun q => q.id = 8) = some r ∧ (contDev none Node.reset 0).group 1 = some g0 ∧
      (contDev none Node.reset 0).imageOf g0 = none ∧ g0.visitor = none ∧ r.token < 255 ∧ g0.busy r.token = false ∧ r.vlist.getLsbD r.token = false) := by
  decide +kernel

/-- A launch record at 0x50000 with its description at an address; the description of a kernel of one group with eight registers of each kind. -/
def launchAt (a : Nat) : List Byte := [1] ++ List.replicate 11 0 ++ leBytes a 8 ++ List.replicate 44 0
def kdesc : List Byte := leBytes 0x10000 8 ++ leBytes 0x20000 8 ++ leBytes 0 4 ++ [1, 1, 1, 0] ++ leBytes 0 4 ++ [1, 0, 1, 0] ++ List.replicate 32 0
def storing (s : State) (bs : List Byte) : State :=
  { s with mem := Mem.wrBytes s.mem 0x50000 bs, dist := { s.dist with queues := [(0, BitVec.ofNat 128 (1 + 2 ^ 56 + 0x50000 * 2 ^ 64))] } }
def launchDev (a : Nat) : State := storing (qDev 1 1 false [rec1] kdesc) (launchAt a)
def descB : Bool :=
  let r := (launchDev 0x10000).readThrough (qOwner ((launchDev 0x10000).qcfg 0)) 0x10000 64
  r.2.any (fun d => !r.1.launchRefused (qOwner ((launchDev 0x10000).qcfg 0)) d 0 1)

theorem witness_Acceptance :
    (∀ a ∈ [0x10000, 0x10001], ((launchDev a).shard 0 0).find? (fun x => x.prio = 0) = some rec1 ∧ rec1.grid = none ∧
      qKind ((launchDev a).qcfg 0) = 1 ∧ (launchDev a).recBytes 0 0 rec1 = launchAt a ∧ field (launchAt a) 12 8 = a) ∧ 0x10000 % 64 = 0 ∧ 0x10001 % 64 ≠ 0 ∧ descB = true ∧
    field (launchAt 0x10000) 2 2 = 0 ∧ launchBlocks (launchAt 0x10000) = 1 ∧ field (launchAt 0x10001) 30 2 < 2 ^ 15 := by decide +kernel

/-- Grid 1 with its one block still to be placed; nothing is on the device. -/
def kern8 : Kernel := { kern with vregs := 1, sregs := 1, accn := 0, priv := 0 }
def toPlace (k : Kernel) : Grid := { placedGrid 0 with todo := [0], k := k }
def placeDev (k : Kernel) : State :=
  { qDev 1 1 false [{ rec1 with grid := some 1 }] kdesc with groups := [], blocks := [], nodes := [], grids := [(1, toPlace k)] }
theorem witness_PlacementOfBlocks : 0 < 4 ∧ (∃ n rest, (placeDev kern8).reap.visits 0 = n :: rest ∧ n = 0) ∧
    (∃ c x gr passed, (placeDev kern8).reap.choose 0 ((placeDev kern8).reap.candidates 0) [] = (some (c, x, gr), passed) ∧ (placeDev kern8).grid c.grid = some x) := by
  refine ⟨by decide, ⟨0, _, List.eq_cons_of_mem_head? (by decide +kernel), rfl⟩, ?_⟩
  have h : ((placeDev kern8).reap.choose 0 ((placeDev kern8).reap.candidates 0) []).1.any (fun r => decide ((placeDev kern8).grid r.1.grid = some r.2.1)) = true := by
    decide +kernel
  revert h
  generalize (placeDev kern8).reap.choose 0 ((placeDev kern8).reap.candidates 0) [] = q
  obtain ⟨o, passed⟩ := q
  cases o with
  | none => intro h; simp at h
  | some r => intro h; exact ⟨r.1, r.2.1, r.2.2, passed, rfl, by simpa using h⟩

/-- A grid whose block fits on no core, passed over at cycle 0; the end of a grid; a CARVE that waits. -/
def tooBig : Kernel := { kern with vregs := 32, ngrp := 32 }
def lateDev : State := { placeDev tooBig with nodes := [(0, { Node.reset with skipped := [(1, 0, 0)] })], clock := 4096 }
def endedGrid : Grid := { placedGrid 0 with ended := 1 }
def idle (a : Bool) (h : Hold) : Group := { g0 with sched := { g0.sched with active := a, hold := h, ready := h = .none } }
def mine0 (s : State) : List (Nat × Group) :=
  s.groups.filter (fun p => p.2.owner = 0 && p.2.part = 0 && (match s.blockOf p.2 with | none => false | some b => p.2.visitor.isSome || b.saved.isNone))
def fullDev : State :=
  { base g0 with groups := (List.range 8).map (fun i => (i + 1, idle true (.sleep 5))) ++ [(9, idle false .none)] }
theorem witness_DistributorWork :
    (Late lateDev 0 (1, 0, 0) (toPlace tooBig) ∧ (lateDev.node 0).blocked = none) ∧
    (let s := { placeDev kern8 with grids := [(1, endedGrid)] }
     s.grid 1 = some endedGrid ∧ endedGrid.total ≤ endedGrid.ended ∧ endedGrid.todo = [] ∧ (∀ p ∈ s.reap.blocks, p.2.grid ≠ 1) ∧ s.reap.owing endedGrid.gone = false) ∧
    (let s := { base g0 with nodes := [(1, { Node.reset with carveNew := 1 })] }
     (s.node 1).carve ≠ (s.node 1).carveNew ∧ s.reap.occupied 1 = false) ∧
    (longest ((mine0 (base (idle false .none))).filter (fun p => !p.2.sched.active && p.2.sched.ready)) = some (1, idle false .none) ∧
      ((base (idle false .none)).node 0).moves = [] ∧ ((mine0 (base (idle false .none))).filter (fun p => p.2.sched.active)).length < 8) ∧
    (longest ((mine0 fullDev).filter (fun p => !p.2.sched.active && p.2.sched.ready)) = some (9, idle false .none) ∧
      8 ≤ ((mine0 fullDev).filter (fun p => p.2.sched.active)).length ∧ (fullDev.node 0).moves = [] ∧
      (longest (((mine0 fullDev).filter (fun p => p.2.sched.active)).filter (fun p => p.2.isLong))).any (fun p => p.1 != 9) = true) := by
  refine ⟨⟨⟨by decide +kernel, by decide +kernel, by decide +kernel, by decide, by decide +kernel⟩, rfl⟩,
    ⟨by decide +kernel, by decide, rfl, ?_, by decide +kernel⟩, ⟨by decide +kernel, by decide +kernel⟩, ⟨by decide +kernel, rfl, by decide +kernel⟩,
    by decide +kernel, by decide +kernel, rfl, by decide +kernel⟩
  exact fun p hp => of_decide_eq_true (List.all_eq_true.mp (by decide +kernel :
    ({ placeDev kern8 with grids := [(1, endedGrid)] } : State).reap.blocks.all (fun p => decide (p.2.grid ≠ 1)) = true) p hp)

/-- Context 1 with regions for save images at 0x400000 and private areas at 0x1000000; grid 2 of priority 1 that needs the accumulator blocks of block 1. -/
def ctx1 : List (Nat × Byte) :=
  Mem.wrBytes [] 64 (leBytes 0x100000 8 ++ leBytes 0x10000 8 ++ List.replicate 8 0 ++ leBytes 0x400000 8 ++ leBytes 0x400000 8 ++
    leBytes 0x1000000 8 ++ leBytes 0x1000000 8 ++ [1])
def blkFar : Block := { blk with areas := [0x1000000] }
def urgent : Grid := { toPlace kern with prio := 1 }
def savingDev (b : Block) (n : Node) (clock : Nat) (m : Mem) : State :=
  { base g0 with mem := m, blocks := [(1, b)], nodes := [(0, n)], grids := [(1, placedGrid 0), (2, urgent)], clock := BitVec.ofNat 64 clock
                 mgmt := { (base g0).mgmt with ctxs := ctx1 } }
def headed : Node := { core0 with blocked := some (2, 0, 0) }

theorem witness_Evictions :
    (let s := savingDev blk headed 2048 []
     s.headOf 0 = some (2, urgent) ∧ (s.node 0).blocked = some (2, 0, 0) ∧ 0 + 2048 ≤ s.clock.toNat ∧ s.grantOn 0 urgent = none ∧
      (∀ p ∈ s.blocks, p.2.core = 0 → p.2.evicting = false) ∧ (s.wouldFit 0 urgent 128 s).isSome = true ∧ s.blocks.any (fun p => s.victim 0 urgent.prio p.2) = true ∧
      s.group 1 = some g0 ∧ g0.block = 1 ∧ g0.visitor = none ∧ g0.sched.skidLeft = none) ∧
    (let s := savingDev blkFar core0 0 []
     s.block 1 = some blkFar ∧ s.grid blkFar.grid = some (placedGrid 0) ∧ s.savePlace blkFar = some 0x400000 ∧ s.farAreas blkFar = some blkFar.areas ∧
      (Sparse.find (s.node blkFar.core).relocs blkFar.reloc).isSome = true ∧ blkFar.live = [1] ∧ g0.index < blkFar.k.ngrp ∧ blkFar.saved = none ∧
      blkFar.uncorr = false ∧ (placedGrid 0).flags.getLsbD 3 = false ∧ (∀ n, g0.sched.hold ≠ .checks n) ∧ blkFar.evicting = false) := by
  refine ⟨⟨by decide +kernel, by decide +kernel, by decide +kernel, by decide +kernel, ?_, by decide +kernel, by decide +kernel, rfl, rfl, rfl, rfl⟩,
    rfl, rfl, by decide +kernel, by decide +kernel, by decide +kernel, rfl, by decide, rfl, rfl, by decide, fun n => (by rw [show g0.sched.hold = .none from rfl]; exact Hold.noConfusion), rfl⟩
  intro p hp _
  rw [show (savingDev blk headed 2048 []).blocks = [(1, blk)] from rfl, List.mem_singleton] at hp
  rw [hp]; rfl

/-- The evicted block, its image at 0x400000 with LIVEM 1 in its one record, or with a reserved bit set. -/
def blkOut : Block := { blkFar with saved := some 0x400000 }
def relocOut : Reloc := { save := 0x400000, st := 2, pages := 2, basepg := 0, block := 1 }
def nodeOut : Node := { core0 with relocs := [(0, relocOut)] }
def image (bad : Bool) : Mem :=
  if bad then Mem.wrBytes [] (0x400000 + 8192 + 9) [255] else Mem.wrBytes [] (recordAt 0x400000 2 0 + 540) [1]

/-- Memory without an error, and without frames of two schemes. -/
def Plain (s : State) : Prop := s.dram.errors = [] ∧ s.dram.lanes = [] ∧ s.dram.bad = [] ∧ s.dram.schemes = [] ∧ s.dram.sram = [] ∧ s.fab.spilled = false

theorem pieces_aligned (a m : Nat) : unitPieces 32 (32 * a) (32 * m) = (List.range m).map (fun i => (32 * i, 32)) := by
  unfold unitPieces
  rw [show 32 * m / 32 + 2 = m + 1 + 1 by omega, List.range_succ, List.range_succ, List.filterMap_append, List.filterMap_append]
  have h : ∀ i ∈ List.range m, (if max (32 * a) ((32 * a / 32 + i) * 32) < min (32 * a + 32 * m) ((32 * a / 32 + i + 1) * 32)
      then some (max (32 * a) ((32 * a / 32 + i) * 32) - 32 * a, min (32 * a + 32 * m) ((32 * a / 32 + i + 1) * 32) - max (32 * a) ((32 * a / 32 + i) * 32))
      else none) = some (32 * i, 32) := by
    intro i hi
    have hi := List.mem_range.mp hi
    rw [if_pos (by omega)]
    congr 2 <;> omega
  rw [List.filterMap_congr h, List.filterMap_eq_map']
  rw [List.filterMap_cons_none (by dsimp only; rw [if_neg (by omega)]), List.filterMap_cons_none (by dsimp only; rw [if_neg (by omega)])]
  simp

theorem plain_activate {s : State} (h : Plain s) (il key : Nat) :
    Plain (s.activate il key) ∧ (s.activate il key).mem = s.mem ∧ (s.activate il key).groups = s.groups := by
  unfold State.activate
  split
  · dsimp only
    split <;> exact ⟨⟨h.1, h.2.1, h.2.2.1, h.2.2.2.1, h.2.2.2.2.1, h.2.2.2.2.2⟩, rfl, rfl⟩
  · exact ⟨h, rfl, rfl⟩

theorem plain_readAt {s : State} (h : Plain s) (key n : Nat) :
    ∃ t, s.readAt ownIl key n = (t, some (Mem.bytes s.mem key n)) ∧ Plain t ∧ t.mem = s.mem ∧ t.groups = s.groups := by
  unfold State.readAt
  split
  · exact ⟨s, by simp [State.wordBad, h.2.2.2.2.1], h, rfl, rfl⟩
  · have hr : s.reach ownIl key = s := by unfold State.reach; exact if_pos (by simp [ownIl])
    obtain ⟨h1, h2, h3⟩ := plain_activate h (s.scheme ownIl key) key
    have he : ∀ t il sec, Plain t → t.ecc il sec = .clean := by
      intro t il sec ht
      unfold State.ecc State.wrongAt
      simp [ht.1, ht.2.1, ht.2.2.1, Sparse.get, Sparse.find]
    have hm : ∀ t : State, Plain t → t.mixed key = false := by
      intro t ht
      unfold State.mixed State.schemesOf State.inDelivery
      simp [ht.2.2.2.1, ht.2.2.2.2.2, Sparse.get, Sparse.find]
    simp only [hr]
    rw [he _ _ _ h1]
    refine ⟨_, ?_, h1, h2, h3⟩
    simp only [State.stored, hm _ h1, h2]
    rfl

theorem bytes_add (m : Mem) (k a b : Nat) : Mem.bytes m k (a + b) = Mem.bytes m k a ++ Mem.bytes m (k + a) b := by
  induction a generalizing k with
  | zero => simp [Mem.bytes]
  | succ a ih => rw [Nat.succ_add]; simp only [Mem.bytes, ih (k + 1), List.cons_append]; rw [show k + 1 + a = k + (a + 1) by omega]

theorem plain_readRun {s : State} (h : Plain s) (a m : Nat) :
    ∃ t, s.readRun ownIl (32 * a) (32 * m) = (t, some (Mem.bytes s.mem (32 * a) (32 * m))) ∧ t.mem = s.mem ∧ t.groups = s.groups := by
  unfold State.readRun
  rw [pieces_aligned]
  suffices ∀ m, ∃ t, ((List.range m).map (fun i => (32 * i, 32))).foldl (fun (r : State × Option (List Byte)) p =>
      let (s, x) := r.1.readAt ownIl (32 * a + p.1) p.2
      (s, match r.2, x with | some a, some b => some (a ++ b) | _, _ => none)) (s, some []) = (t, some (Mem.bytes s.mem (32 * a) (32 * m))) ∧
      Plain t ∧ t.mem = s.mem ∧ t.groups = s.groups by
    obtain ⟨t, h1, -, h2⟩ := this m
    exact ⟨t, h1, h2⟩
  intro m
  induction m with
  | zero => exact ⟨s, rfl, h, rfl, rfl⟩
  | succ m ih =>
    obtain ⟨t, h1, h2, h3, h4⟩ := ih
    obtain ⟨u, h5, h6, h7, h8⟩ := plain_readAt h2 (32 * a + 32 * m) 32
    refine ⟨u, ?_, h6, h7.trans h3, h8.trans h4⟩
    rw [List.range_succ, List.map_append, List.foldl_append, h1]
    simp only [List.map_cons, List.map_nil, List.foldl_cons, List.foldl_nil, h5, h3]
    rw [show 32 * (m + 1) = 32 * m + 32 by omega, bytes_add]

/-- Writing back what stands there changes no byte. -/
theorem rd_wrBytes_bytes (m : Mem) (k n j : Nat) : Mem.rd (Mem.wrBytes m k (Mem.bytes m k n)) j = Mem.rd m j := by
  have hl : ∀ k n, (Mem.bytes m k n).length = n := by
    intro k n; induction n generalizing k with
    | zero => rfl
    | succ n ih => simp [Mem.bytes, ih]
  have hg : ∀ k n i (h : i < (Mem.bytes m k n).length), (Mem.bytes m k n)[i] = Mem.rd m (k + i) := by
    intro k n; induction n generalizing k with
    | zero => intro i h; simp [Mem.bytes] at h
    | succ n ih =>
      intro i h
      cases i with
      | zero => rfl
      | succ i => simp only [Mem.bytes, List.getElem_cons_succ]; rw [ih]; congr 1; omega
  by_cases h : j < k ∨ k + n ≤ j
  · exact Mem.rd_wrBytes_outside m k _ (by rw [hl]; exact h)
  · have hi : j - k < (Mem.bytes m k n).length := by rw [hl]; omega
    have := Mem.rd_wrBytes_inside m k (Mem.bytes m k n) hi
    rw [show k + (j - k) = j by omega] at this
    rw [this, hg, show k + (j - k) = j by omega]

theorem bytes_congr {m m' : Mem} (h : ∀ j, Mem.rd m j = Mem.rd m' j) (k n : Nat) : Mem.bytes m k n = Mem.bytes m' k n := by
  induction n generalizing k with
  | zero => rfl
  | succ n ih => simp only [Mem.bytes, h, ih]

/-- What the restoration reads is what stands there. -/
theorem image_read {s : State} (h : Plain s) (b : Block) {n : Nat} (hn : s.imageSize b = 32 * n) :
    ∃ t image, s.readRun ownIl 0x400000 (s.imageSize b) = (t, some image) ∧
      t.imageGood (Mem.wrBytes t.mem 0x400000 image) b 0x400000 2 = s.imageGood s.mem b 0x400000 2 ∧
      ∀ k, Mem.num (Mem.wrBytes t.mem 0x400000 image) k 4 = Mem.num s.mem k 4 := by
  obtain ⟨t, h1, h2, h3⟩ := plain_readRun h 0x20000 n
  refine ⟨t, _, by rw [hn]; exact h1, ?_, fun k => ?_⟩
  · rw [h2]
    unfold State.imageGood State.group
    simp only [bytes_congr (rd_wrBytes_bytes s.mem _ _), h3]
  · rw [h2]
    unfold Mem.num
    rw [bytes_congr (rd_wrBytes_bytes s.mem _ _)]

/-- A run with a sector that cannot be read. -/
theorem none_stays (il key : Nat) (l : List (Nat × Nat)) (t : State) : (l.foldl (fun (r : State × Option (List Byte)) p =>
    let (s, x) := r.1.readAt il (key + p.1) p.2
    (s, match r.2, x with | some a, some b => some (a ++ b) | _, _ => none)) (t, none)).2 = none := by
  induction l generalizing t with
  | nil => rfl
  | cons p l ih => rw [List.foldl_cons]; exact ih _

/-- The image's first sector is uncorrectable. -/
def badImage : State :=
  let s := savingDev blkOut nodeOut 0 (image false)
  { s with dram := { s.dram with bad := [0x20000] } }

theorem bad_read : (badImage.readRun ownIl 0x400000 (badImage.imageSize blkOut)).2 = none := by
  obtain ⟨n, hn⟩ : ∃ n, badImage.imageSize blkOut = 32 * (n + 1) := ⟨badImage.imageSize blkOut / 32 - 1, by decide +kernel⟩
  unfold State.readRun
  rw [hn, show (0x400000 : Nat) = 32 * 0x20000 from rfl, pieces_aligned, List.range_succ_eq_map, List.map_cons, List.foldl_cons]
  have h : (badImage.readAt ownIl (32 * 0x20000 + 32 * 0) 32).2 = none := by decide +kernel
  revert h
  dsimp only
  cases badImage.readAt ownIl (32 * 0x20000 + 32 * 0) 32 with
  | mk t x => intro h; dsimp only at h; rw [h]; exact none_stays _ _ _ _

theorem witness_Restorations :
    (∀ b ∈ [true, false], let s := savingDev blkOut nodeOut 0 (image b)
      s.block 1 = some blkOut ∧ blkOut.saved = some 0x400000 ∧ s.restoreAt 1 blkOut = some (0, 0) ∧
      Sparse.find (s.node blkOut.core).relocs blkOut.reloc = some relocOut ∧ s.keptFrom blkOut = false ∧
      ∃ t m, s.readRun ownIl 0x400000 (s.imageSize blkOut) = (t, some m) ∧ t.imageGood (Mem.wrBytes t.mem 0x400000 m) blkOut 0x400000 2 = !b ∧
        (b = false → Mem.num (Mem.wrBytes t.mem 0x400000 m) (recordAt 0x400000 2 g0.index + 540) 4 ≠ 0)) ∧
    (blkOut.live = [1] ∧ (savingDev blkOut nodeOut 0 (image false)).group 1 = some g0) ∧
    (badImage.block 1 = some blkOut ∧ badImage.restoreAt 1 blkOut = some (0, 0) ∧ Sparse.find (badImage.node blkOut.core).relocs blkOut.reloc = some relocOut ∧
      badImage.keptFrom blkOut = false ∧ (badImage.readRun ownIl 0x400000 (badImage.imageSize blkOut)).2 = none) := by
  refine ⟨fun b hb => ?_, ⟨rfl, rfl⟩, rfl, by decide +kernel, rfl, by decide +kernel, bad_read⟩
  have hs : ∀ b, (savingDev blkOut nodeOut 0 (image b)).imageSize blkOut = 32 * ((savingDev blkOut nodeOut 0 (image true)).imageSize blkOut / 32) :=
    fun b => by cases b <;> decide +kernel
  obtain ⟨t, m, h1, h2, h3⟩ := image_read (s := savingDev blkOut nodeOut 0 (image b)) ⟨rfl, rfl, rfl, rfl, rfl, rfl⟩ blkOut (hs b)
  rcases List.mem_cons.mp hb with h | h
  · subst h
    exact ⟨rfl, rfl, by decide +kernel, rfl, by decide +kernel, t, m, h1, h2.trans (by decide +kernel), fun h => by simp at h⟩
  · rw [List.mem_singleton] at h; subst h
    exact ⟨rfl, rfl, by decide +kernel, rfl, by decide +kernel, t, m, h1, h2.trans (by decide +kernel), fun _ => by rw [h3]; decide +kernel⟩

/-- A block that has consumed an uncorrectable word, without a shadow and with one. -/
def cleanSh : Shadow := { since := 1, groups := [(1, g0)], log := [(1, .line slice0, List.replicate 32 7)], clean := true, rolled := false }
def hurt (sh : Option Shadow) : Block := { blk with uncorr := true, shadow := sh }
theorem witness_Rollbacks :
    ((dev (hurt none) g0).block 1 = some (hurt none) ∧ (hurt none).uncorr = true ∧ (hurt none).live ≠ [] ∧ (hurt none).shadow = none) ∧
    ((dev (hurt (some cleanSh)) g0).block 1 = some (hurt (some cleanSh)) ∧ (hurt (some cleanSh)).shadow = some cleanSh ∧ cleanSh.clean = true ∧ cleanSh.rolled = false ∧ cleanSh.bad = false ∧
      (dev (hurt (some cleanSh)) g0).rollbackWaits 1 cleanSh.since = false ∧ (cleanSh.groups.map (·.1)).Nodup ∧ 2 ^ 39 ≤ slice0 ∧
      (∀ q ∈ cleanSh.groups, q.2.ctl.stack.length ≤ 16) ∧ (List.replicate 32 (7 : Word)).length = 32) :=
  ⟨⟨rfl, rfl, by decide, rfl⟩, rfl, rfl, rfl, rfl, rfl, by decide +kernel, by decide, by decide, by decide, rfl⟩
/-! ### Witnesses: DRAM, health, fatal errors -/

def tired : State :=
  { base g0 with
    dram := { (base g0).dram with bac := [(5, 16), (7, 1)], due := [7], rfm := [5], fixed := [(35, List.range 16)] }
    mgmt := { (base g0).mgmt with faults := [64] }
    fab := { (base g0).fab with ports := [(31, { Port.reset with state := 3 })] } }
def marked : State := { tired with dram := { tired.dram with erase := [(0, 15)] } }

theorem witness_DramAndHealth :
    tired.power = true ∧ 5 ∈ tired.dram.rfm ∧ 7 ∈ tired.dram.due ∧ (9 ∉ tired.dram.rfm ∧ 9 ∉ tired.dram.due) ∧
    (35 < 36 ∧ 16 ≤ (Sparse.get [] tired.dram.fixed (0 * 64 + 35)).length) ∧
    symbols (Sparse.get 0 tired.dram.erase 0) < 4 ∧ 16 ≤ (Sparse.get [] marked.dram.fixed (0 * 64 + 35)).length ∧ 4 ≤ symbols (Sparse.get 0 marked.dram.erase 0) ∧
    (tired.mgmt.healthNew.map (·.1)).Nodup ∧ tired.mgmt.devstat.toNat % 8 < 3 ∧ 3 ≤ ({ tired.mgmt with devstat := 4 } : Mgmt).devstat.toNat % 8 ∧
    (64 ∈ tired.mgmt.faults ∧ 65 ∉ tired.mgmt.faults ∧ tired.badAt ownIl (32 * 64) = false ∧
      ({ tired with dram := { tired.dram with bad := [64] } } : State).badAt ownIl (32 * 64) = true) ∧
    (31 < 32 ∧ (tired.port 31).state = 3) ∧ (tired.port 0).state ≠ 3 := by decide +kernel

theorem witness_FatalErrors :
    (base g0).power = true ∧ (base g0).operating = true ∧ (Sparse.get 0 (base g0).mgmt.regions 3).toNat % 2 ^ 39 = 0 ∧
    (let s := { base g0 with mgmt := { (base g0).mgmt with regions := [(3, 0x100000)] } }
     s.power = true ∧ s.operating = true ∧ (Sparse.get 0 s.mgmt.regions 3).toNat % 2 ^ 39 ≠ 0) := by decide +kernel

/-! ### Witnesses: fabric -/

/-- Device 0, a member beside device 3, with port 0 RUNNING and tag 1 for context 1. -/
def fabWith (r : List RecvCtx) (opened : List (Nat × Nat)) (m : Mem) : State :=
  { fieldDev g0 with
    mem := m
    fab := { (fieldDev g0).fab with domst := 1, members := 9, dctxmap := [(1, 0x10001)], ports := [(0, { Port.reset with state := 2 })], rctx := r, opened := opened } }
def fabDev : State := fabWith [] [] tables
def loneDev : State := { fabDev with fab := { fabDev.fab with domst := 0 } }
def inPkt (typ cls : Nat) (body : PBody) : Packet :=
  { typ := typ, cls := cls, kg := false, src := 3, dst := 0, mcast := cls = 3, plane := 0, hop := 256, dctx := 1, ctxno := 1, pseq := 255,
    msg := 0, offset := 0, msgLen := 1, asks := false, tagOk := true, body := body }
def ansPkt (typ : Nat) (body : PBody) : Packet := { inPkt typ 0 body with ctxno := 7, pseq := 0 }
def wr : PBody := .write 0x30000 [(0, 7)]
def heard : RecvCtx := { peer := 3, cls := 0, gen := 0, ctxno := 1, low := 0, got := [(255, 0)], last := 0, cached := true }
def groupTable : Mem := Mem.wrBytes tables 136 [3]
def passesB (s : State) (p : Packet) : Bool :=
  packetFits p && s.portRuns p.plane && s.isMember && p.hop != 0 &&
    (if p.typ = 8 ∨ p.typ = 10 then p.mcast else !p.mcast && p.dst == s.devid) && p.kg == s.fab.kgen.getLsbD 0 && p.tagOk
theorem passes_of {s : State} {p : Packet} (h : passesB s p = true) : Passes s p := by
  simp only [passesB, Bool.and_eq_true, bne_iff_ne, beq_iff_eq] at h
  refine ⟨h.1.1.1.1.1.1, h.1.1.1.1.1.2, h.1.1.1.1.2, h.1.1.1.2, ?_, h.1.2, h.2⟩
  have := h.1.1.2
  unfold ForUs
  split <;> rename_i hc
  · rwa [if_pos hc] at this
  · rw [if_neg hc] at this; simpa using this

/-- A device with one sending context, and one receiving context. -/
def sendDev (c : SendCtx) (clock : Nat) : State :=
  { fabDev with fab := { fabDev.fab with sctx := [c], rctx := [{ heard with cached := c.cached }] }, clock := BitVec.ofNat 64 clock }
def storeCtx : SendCtx := ctxOf 0 [sent 1 0 (.write 0 []) (.store 1)]
def opensB (s : State) (p : Packet) : Bool :=
  decide (p.pseq ≤ 255) && (s.fab.rctx.find? (sameCtx p)).isNone && decide (Sparse.get 0 s.fab.opened (4 * rctxKey p + p.cls) < p.ctxno) &&
    decide ((s.fab.sctx.filter (·.cached)).length + (s.fab.rctx.filter (·.cached)).length < 4096) && s.fab.ingress.isEmpty
theorem opens_of {s : State} {p : Packet} (h : opensB s p = true) : OpensCtx s p := by
  simp only [opensB, Bool.and_eq_true, decide_eq_true_eq, List.isEmpty_iff, Option.isNone_iff_eq_none] at h
  exact ⟨h.1.1.1.1, h.1.1.1.2, h.1.1.2, h.1.2, h.2⟩

theorem witness_Arrivals :
    (fabDev.portOpen 0 = true ∧ fabDev.isMember = true ∧ ∀ p ∈ [inPkt 1 0 wr, inPkt 8 3 wr], packetFits p = true ∧ ForUs fabDev p ∧ ({ p with hop := 0 } : Packet).hop = 0 ∧
      ({ p with kg := true } : Packet).kg ≠ fabDev.fab.kgen.getLsbD 0 ∧ ({ p with tagOk := false } : Packet).tagOk = false) ∧
    (¬ ForUs fabDev { inPkt 1 0 wr with dst := 5 } ∧ ¬ ForUs fabDev { inPkt 8 3 wr with mcast := false }) ∧
    (loneDev.portOpen 0 = true ∧ loneDev.isMember = false ∧ ForUs loneDev (inPkt 1 0 wr)) ∧ (base g0).portOpen 0 = false ∧
    (∀ p ∈ [ansPkt 9 (.resp [3]), ansPkt 11 .other, ansPkt 12 .other], Passes (sendDev storeCtx 0) p) ∧
    ((∀ c ∈ (sendDev storeCtx 0).fab.sctx, c.cached = true) ∧ (sendDev storeCtx 0).sctxOf 3 0 = some storeCtx ∧ ∃ x ∈ storeCtx.pkts, x.sent = true ∧ x.p.pseq = 0) ∧
    (Passes fabDev (inPkt 1 0 wr) ∧ OpensCtx fabDev (inPkt 1 0 wr) ∧ (fabDev.peerWrite (inPkt 1 0 wr) 0x30000 [(0, 7)]).2 = 0) ∧
    (Passes (fabWith [heard] [] tables) (inPkt 1 0 wr) ∧ (fabWith [heard] [] tables).fab.rctx.find? (sameCtx (inPkt 1 0 wr)) = some heard ∧
      heard.quiet (fabWith [heard] [] tables).clock.toNat = false ∧ heard.cached = true ∧ Sparse.find heard.got 255 = some 0) ∧
    (Passes (fabWith [] [(12, 1)] tables) (inPkt 1 0 wr) ∧ (fabWith [] [(12, 1)] tables).fab.rctx = [] ∧
      1 ≤ Sparse.get 0 (fabWith [] [(12, 1)] tables).fab.opened (4 * rctxKey (inPkt 1 0 wr) + 0)) ∧
    (Passes fabDev (inPkt 8 3 wr) ∧ OpensCtx fabDev (inPkt 8 3 wr) ∧ fabDev.mcastFl 0 % 4 ≠ 3) ∧
    (Passes (fabWith [] [] groupTable) (inPkt 8 3 wr) ∧ OpensCtx (fabWith [] [] groupTable) (inPkt 8 3 wr) ∧ (fabWith [] [] groupTable).mcastFl 0 % 4 = 3 ∧
      ((fabWith [] [] groupTable).peerWrite (inPkt 8 3 wr) 0x30000 [(0, 7)]).2 = 0) := by
  refine ⟨⟨by decide +kernel, by decide +kernel, ?_⟩, ⟨?_, ?_⟩, ⟨by decide +kernel, by decide +kernel, ?_⟩, by decide +kernel, ?_,
    ⟨by decide, by decide +kernel, by decide⟩, ⟨passes_of (by decide +kernel), opens_of (by decide +kernel), by decide +kernel⟩,
    ⟨passes_of (by decide +kernel), by decide +kernel, by decide +kernel, rfl, by decide +kernel⟩, ⟨passes_of (by decide +kernel), rfl, by decide +kernel⟩,
    ⟨passes_of (by decide +kernel), opens_of (by decide +kernel), by decide +kernel⟩, passes_of (by decide +kernel), opens_of (by decide +kernel),
    by decide +kernel, by decide +kernel⟩
  · unfold ForUs; decide +kernel
  · unfold ForUs; decide +kernel
  · unfold ForUs; decide +kernel
  · unfold ForUs; decide +kernel
  · exact fun p hp => passes_of (List.all_eq_true.mp (by decide +kernel :
      [ansPkt 9 (.resp [3]), ansPkt 11 .other, ansPkt 12 .other].all (passesB (sendDev storeCtx 0)) = true) p hp)

def lineCtx0 : SendCtx := ctxOf 0 [sent 1 0 (.write 0 []) (.line 0 4)]
def lineDev0 (clock : Nat) : State := { sendDev lineCtx0 clock with nodes := [(0, { core0 with wc := [line0] })] }
theorem wc_line (clock m : Nat) : ∀ k ∈ ((lineDev0 clock).node m).wc, m = 0 ∧ k = line0 := by
  intro k hk
  by_cases h : m = 0
  · subst h
    have h1 : ((lineDev0 clock).node 0).wc = [line0] := rfl
    rw [h1, List.mem_singleton] at hk
    exact ⟨rfl, hk⟩
  · have h1 : ((lineDev0 clock).node m).wc = [] := by
      unfold State.node Sparse.get lineDev0
      simp [Sparse.find, Ne.symm h, Node.reset]
    rw [h1] at hk; simp at hk
/-- A store to device 3 that a packet carries. -/
def sentPart : Part := { part1 (.mem 0) [1, 2, 3, 4] [] with peer := some 3, msg := some 0 }
def sentStore : Access := acc1 .store sentPart 0
def storeDev (c : SendCtx) : State := withAcc (sendDev c 0) sentStore

theorem witness_SenderEvents :
    (fabDev.sctxOf 3 0 = none ∧ fabDev.hearsFor 3 0 = false) ∧
    ((lineDev0 0).sctxOf 3 0 = some lineCtx0 ∧ lineCtx0.ctxno = 7 ∧ (lineDev0 0).hearsFor 3 0 = true ∧ (lineDev0 0).accs = [] ∧
      lineCtx0.pkts.find? (fun x => x.sent && x.p.pseq = 0) = some (sent 1 0 (.write 0 []) (.line 0 4)) ∧
      ((lineDev0 0).node 0).wc.find? (fun w => w.id = 4) = some line0 ∧ (∀ m, ∀ k ∈ ((lineDev0 0).node m).wc, k.closed = false) ∧
      1 ∈ line0.writers ∧ (∃ g, (lineDev0 0).group 1 = some g)) ∧
    (∀ p ∈ [Purpose.store 1, .mcast 1], let c := ctxOf 0 [sent 1 0 (.write 0 []) p]
      (storeDev c).sctxOf 3 0 = some c ∧ (storeDev c).hearsFor 3 0 = true ∧ c.pkts.find? (fun x => x.sent && x.p.pseq = 0) = some (sent 1 0 (.write 0 []) p) ∧
      (storeDev c).accs = [sentStore] ∧ sentStore.id = 1 ∧ sentStore.parts = [sentPart] ∧ sentPart.msg = some 0 ∧ sentStore.kind = .store ∧ sentStore.regs = 0 ∧
      sentStore.fails = [] ∧ sentStore.helpers = 0 ∧ sentStore.rel = false ∧ (storeDev c).isMember = true ∧ (storeDev c).group sentStore.gid = some g0 ∧
      g0.ctl.livem ≠ 0) ∧
    ((∀ x ∈ lineCtx0.pkts, x.sent = true ∧ ∃ n l, x.purpose = .line n l) ∧ (lineDev0 3200000).sctxOf 3 0 = some lineCtx0 ∧
      (lineDev0 3200000).hearsFor 3 0 = true ∧ (lineDev0 3200000).rekeying = false ∧
      (∃ x ∈ lineCtx0.pkts, x.p.pseq = 0 ∧ x.first + (lineDev0 3200000).dgup ≤ (lineDev0 3200000).clock.toNat)) ∧
    ((sent 1 0 (.write 0 []) (.store 1)).last + 6400 ≤ (sendDev storeCtx 6400).clock.toNat ∧ storeCtx.cached = true ∧ (sendDev storeCtx 6400).plane (0 + 1) = some 0) ∧
    ((sendDev (ctxOf 0 []) 102400).sctxOf 3 0 = some (ctxOf 0 []) ∧ (ctxOf 0 []).last + 102400 ≤ (sendDev (ctxOf 0 []) 102400).clock.toNat ∧ (ctxOf 0 []).pkts = []) ∧
    ((sendDev storeCtx 102400).fab.rctx.find? (fun c => c.peer = 3 && c.cls = 0) = some heard ∧ heard.last + 102400 ≤ (sendDev storeCtx 102400).clock.toNat) ∧
    (let c := { storeCtx with cached := false }
     (sendDev c 0).sctxOf 3 0 = some c ∧ (sendDev c 0).fab.rctx.find? (fun c => c.peer = 3 && c.cls = 0) = some { heard with cached := false } ∧
      (sendDev c 0).fab.ingress = []) := by
  refine ⟨by decide +kernel, ⟨by decide +kernel, rfl, by decide +kernel, rfl, by decide +kernel, by decide +kernel, fun m k hk => by rw [(wc_line 0 m k hk).2]; rfl,
      by decide, g0, rfl⟩, by decide +kernel, ⟨fun x hx => ?_, by decide +kernel, by decide +kernel, by decide +kernel, by decide +kernel⟩, by decide +kernel,
    by decide +kernel, by decide +kernel, by decide +kernel, by decide +kernel, rfl⟩
  rw [show lineCtx0.pkts = [sent 1 0 (.write 0 []) (.line 0 4)] from rfl, List.mem_singleton] at hx
  rw [hx]; exact ⟨rfl, 0, 4, rfl⟩

/-- A load of four bytes from device 3 in message 5; messages of the kinds that a COMPLETE ends and that a give-up ends; a multicast line. -/
def farPart : Part := { part1 (.mem 0) [] [] with peer := some 3, msg := some 5 }
def farLoad : Access := { acc1 (.load 4) farPart 1 with vec := false }
def loadDev : State := withAcc fabDev farLoad
def out5 (kind : Nat) : OutMsg := { id := 5, peer := 3, total := 0, first := some 0, kind := kind, att := none, cmd := none, done := false, status := 0 }
def msgs (kind clock : Nat) : State :=
  { fabDev with fab := { fabDev.fab with outmsgs := [out5 kind] }, clock := BitVec.ofNat 64 clock }
def lineCtx : SendCtx := { ctxOf 3 [sent 8 3 (.write 0 []) (.mcast 1)] with peer := 0 }
def mcPart : Part := { part1 (.mem 0) [1, 2, 3, 4] [] with msg := some 0, mc := some { group := 0, members := 9, bytes := [] } }
def mcStore : Access := acc1 .store mcPart 0
def mcDev : State := withAcc (sendDev lineCtx 0) mcStore

theorem witness_Results :
    (fabDev.partOfMsg 3 5 = none ∧ fabDev.findMsg 3 5 = none ∧ (base g0).receives = false) ∧
    (loadDev.receives = true ∧ loadDev.accs = [farLoad] ∧ farLoad.parts = [farPart] ∧ farPart.peer = some 3 ∧ farPart.msg = some 5 ∧ farPart.off = 0 ∧ farPart.lanes = 1 ∧
      farLoad.got = [] ∧ farLoad.fails = [] ∧ farLoad.kind = .load 4 ∧ farLoad.rel = false ∧ farLoad.vec = false ∧ farLoad.regs = 1 ∧ farLoad.dst < 128 ∧
      loadDev.group farLoad.gid = some g0 ∧ loadDev.imageOf g0 = none ∧ g0.ctl.livem ≠ 0) ∧
    ((msgs 0x10 0).receives = true ∧ (msgs 0x10 0).findMsg 3 5 = some (out5 0x10) ∧ (out5 0x10).done = false ∧ (out5 0x10).cmd = none ∧ (out5 0x10).att = none) ∧
    ((msgs 3 3200000).findMsg 3 5 = some (out5 3) ∧ (msgs 3 3200000).sending (.piece 5) = [] ∧ (msgs 3 3200000).rekeying = false ∧ (out5 3).first = some 0 ∧
      0 + (msgs 3 3200000).dgup ≤ (msgs 3 3200000).clock.toNat ∧ (msgs 3 3200000).partOfMsg 3 5 = none) ∧
    (mcDev.hearsFor 0 3 = true ∧ mcDev.sctxOf 0 3 = some lineCtx ∧ lineCtx.ctxno = 7 ∧
      lineCtx.pkts.find? (fun x => x.sent && x.p.pseq = 0) = some (sent 8 3 (.write 0 []) (.mcast 1)) ∧ mcDev.accs = [mcStore] ∧ mcStore.id = 1 ∧ mcStore.parts = [mcPart] ∧
      mcPart.msg = some 0 ∧ mcPart.mc = some { group := 0, members := 9, bytes := [] } ∧ mcStore.kind = .store ∧ mcStore.regs = 0 ∧ mcStore.fails = [] ∧
      mcStore.rel = false ∧ mcDev.group mcStore.gid = some g0 ∧ g0.ctl.livem ≠ 0 ∧ mcDev.region 1 % 32 = 0 ∧
      (∀ i, 64 ≤ i → i < 136 → Clean mcDev ownIl (mcDev.mcastAt 0 + i) 1) ∧ Mem.num mcDev.mem (mcDev.mcastAt 0 + 128) 8 = 0) := by
  refine ⟨by decide +kernel, ⟨by decide +kernel, rfl, rfl, rfl, rfl, rfl, rfl, rfl, rfl, rfl, rfl, rfl, rfl, by decide, rfl, by decide +kernel, by decide⟩,
    ⟨by decide +kernel, by decide +kernel, rfl, rfl, rfl⟩, by decide +kernel, by decide +kernel, by decide +kernel, rfl, by decide +kernel, rfl, rfl, rfl, rfl, rfl, rfl, rfl, rfl,
    rfl, rfl, by decide, by decide +kernel, fun i _ hi => clean_of (List.all_eq_true.mp (by decide +kernel : (List.range 136).all (fun i =>
      decide (2 ^ 39 ≤ mcDev.mcastAt 0 + i) || (decide (mcDev.ecc (mcDev.scheme ownIl (mcDev.mcastAt 0 + i)) ((mcDev.mcastAt 0 + i) / 32) = .clean) &&
        !(mcDev.reach ownIl (mcDev.mcastAt 0 + i)).mixed (mcDev.mcastAt 0 + i))) = true) i (List.mem_range.mpr hi)) rfl, by decide +kernel⟩

/-! ### Witnesses: ports, trust, host, start-up, debugger -/

def portDev (x : Port) (clock : Nat) : State :=
  { fabDev with fab := { fabDev.fab with ports := [(31, x)] }, clock := BitVec.ofNat 64 clock }
theorem witness_Ports : 31 < 32 ∧ (∀ st ∈ [0, 1, 2, 3], ∀ up ∈ [true, false],
      let x := { Port.reset with state := st, up := up }
      (portDev x 1600000).power = true ∧ ((portDev x 1600000).port 31).state = st ∧ ((portDev x 1600000).port 31).up = up ∧ (portDev x 1600000).isMember = true ∧
        (portDev x 1600000).secured 31 = (st = 1 || st = 2) ∧ ((portDev x 1600000).port 31).downAt + 1600000 ≤ (portDev x 1600000).clock.toNat ∧
        ((portDev x 1600000).port 31).live (portDev x 1600000).clock.toNat = up ∧ ((portDev x 1600000).port 31).swid = 0) ∧
    (base g0).isMember = false ∧
    (let x := { Port.reset with state := 2, held := some 0 }
     (portDev x 1600000).secured 31 = true ∧ ((portDev x 1600000).port 31).up = true ∧ ((portDev x 1600000).port 31).held = some 0 ∧
       ((portDev x 1600000).port 31).live (portDev x 1600000).clock.toNat = false ∧ 0 + 1600000 ≤ (portDev x 1600000).clock.toNat) ∧
    (let x := { Port.reset with state := 2, fails := List.replicate 16 0 }
     (portDev x 1600000).secured 31 = true ∧
       16 ≤ (((portDev x 1600000).port 31).fails.filter (fun c => (portDev x 1600000).clock.toNat ≤ c + 1600000)).length) := by decide +kernel

/-- Re-keying, with ARRIVE sent or not, with device 3 arrived or not, and packets held or not. -/
def keyDev (domst : Word) (sent : Bool) (arr : List Nat) (h : List (Nat × Nat × Packet × Purpose)) (clock : Nat) : State :=
  { fabDev with fab := { fabDev.fab with domst := domst, arriveSent := sent, arrived := arr, held := h }, clock := BitVec.ofNat 64 clock }
theorem witness_Membership :
    ((base g0).isMember = false ∧ (1 : BitVec 512).getLsbD 0 = true ∧ (∀ d, d < 0 → (1 : BitVec 512).getLsbD d = false)) ∧
    (loneDev.isMember = false ∧ loneDev.hears = true ∧ (3 : BitVec 512).getLsbD 1 = true ∧ 1 < 512) ∧
    (fabDev.isMember = true ∧ fabDev.devid = 0 ∧ (9 : BitVec 512).getLsbD 0 = true ∧
      (9 : BitVec 512).getLsbD 3 = true ∧ fabDev.fab.members = 9 ∧ fabDev.rekeying = false ∧ fabDev.isManager = true ∧ fabDev.hears = true) ∧
    (let s := { fabDev with nodes := [(0, { core0 with home := { Home.reset with dedups := [{ dd .accepted with odev := 3, did := 0 }] } })] }
     s.isManager = true ∧ s.fab.members.getLsbD 3 = true ∧ 3 ≠ s.devid ∧ 0 ∈ s.tiedTo 3 ∧ s.domain 0 = some dom) ∧
    ((keyDev 3 false [] [] 0).isMember = true ∧ (keyDev 3 false [] [] 0).rekeying = true ∧ (keyDev 3 false [] [] 0).fab.members.getLsbD 0 = true ∧
      (keyDev 3 false [] [] 0).devid = 0 ∧ (keyDev 3 false [] [] 0).fab.sctx = [] ∧ (keyDev 3 false [] [] 0).isManager = true ∧
      (keyDev 3 false [] [] 0).fab.members.getLsbD 3 = true ∧ (keyDev 3 false [] [] 0).hears = true) ∧
    (∀ h ∈ [[], [(3, 0, inPkt 1 0 wr, .store 1)]], (keyDev 3 true [0, 3] h 0).isMember = true ∧ (keyDev 3 true [0, 3] h 0).rekeying = true ∧
      (keyDev 3 true [0, 3] h 0).isManager = true ∧ (keyDev 3 true [0, 3] h 0).fab.sctx = [] ∧
      (keyDev 3 true [0, 3] h 0).allArrived = true ∧ (keyDev 3 true [0, 3] h 0).fab.held = h ∧ (keyDev 3 true [0, 3] h 0).fab.kgen = 0) ∧
    ((keyDev 3 true [0] [] 160000000).isManager = true ∧ 3 ∉ (keyDev 3 true [0] [] 160000000).fab.arrived ∧ 3 ≠ (keyDev 3 true [0] [] 160000000).devid ∧
      (keyDev 3 true [0] [] 160000000).fab.rekeyAt + 160000000 ≤ (keyDev 3 true [0] [] 160000000).clock.toNat) := by
  refine ⟨⟨by decide +kernel, by decide +kernel, fun d hd => absurd hd (Nat.not_lt_zero d)⟩, by decide +kernel, by decide +kernel, ⟨by decide +kernel, by decide +kernel, by decide +kernel, by decide +kernel, rfl⟩,
    by decide +kernel, fun h hh => ?_, by decide +kernel⟩
  rcases List.mem_cons.mp hh with e | e
  · rw [e]; exact ⟨by decide +kernel, by decide +kernel, by decide +kernel, rfl, by decide +kernel, rfl, rfl⟩
  · rw [List.mem_singleton.mp e]; exact ⟨by decide +kernel, by decide +kernel, by decide +kernel, rfl, by decide +kernel, rfl, rfl⟩

def withStat (n : Word) : State := { fieldDev g0 with mgmt := { (fieldDev g0).mgmt with devstat := n } }
theorem witness_HostAccesses :
    ((fieldDev g0).power = true ∧ (fieldDev g0).operating = true ∧ (withStat 4).mgmt.devstat.toNat % 8 = 4 ∧ (withStat 4).power = true ∧
      Sparse.get 0 (fieldDev g0).mgmt.regions 2 = 0) ∧
    (∀ a ∈ [0, 0x1FFFC, 0x20000, 549755813884], a + 4 ≤ 549755813888) ∧
    (∀ a ∈ [0, 0x1FFFC, 0x20000, 549755813884], ∀ i, i < 4 → Clean (fieldDev g0) ownIl (a + i) 1) ∧
    (∀ i, i < 4 → (fieldDev g0).recorded (0x1FFFC + i) = false ∧ (fieldDev g0).recorded (0x20000 + i) = true) :=
  ⟨by decide +kernel, by decide, fun a ha i hi => clean_of (List.all_eq_true.mp (List.all_eq_true.mp (by decide +kernel :
      [0, 0x1FFFC, 0x20000, 549755813884].all (fun a => (List.range 4).all (fun i => decide (2 ^ 39 ≤ a + i) ||
        (decide ((fieldDev g0).ecc ((fieldDev g0).scheme ownIl (a + i)) ((a + i) / 32) = .clean) && !((fieldDev g0).reach ownIl (a + i)).mixed (a + i)))) = true)
      a ha) i (List.mem_range.mpr hi)) rfl, by decide +kernel⟩

def freeDev : State := { fieldDev g0 with groups := [], blocks := [], grids := [] }
theorem witness_ManagementWrites :
    (fieldDev g0).power = true ∧ (fieldDev g0).operating = true ∧ (16380 < 16384 ∧ 16380 % 64 + 4 ≤ 64) ∧ (fieldDev g0).ctxField 255 56 1 % 2 = 0 ∧
    ((fieldDev g0).ctxField 1 56 1 % 2 = 1 ∧ (fieldDev g0).contextUsed 1 = true ∧ freeDev.ctxField 1 56 1 % 2 = 1 ∧ freeDev.contextUsed 1 = false ∧
      (64 + 56) % 64 ≤ 56 ∧ 56 < (64 + 56) % 64 + 1 ∧ ((0 : BitVec 8).getLsbD 0 = false ∧ (1 : BitVec 8).getLsbD 0 = true)) ∧
    (2 : BitVec 128) &&& 0xFFF4 = 0 ∧ (191 < 192 ∧ (22 : Word).toNat % 32 ≤ 22 ∧ 22 < (23 : Word).toNat % 32) ∧ (fieldDev g0).grids ≠ [] ∧ freeDev.grids = [] := by
  refine ⟨rfl, rfl, by decide, by decide +kernel, by decide +kernel, by decide, by decide, ?_, rfl⟩
  simp [fieldDev, base, dev]

def info (fail : Nat) : StartInfo :=
  { failStep := fail, tests := [], deadLinks := [], magic := 0x52434B53, enmap := List.replicate 4 (2 ^ 48 - 1), clktab := List.replicate 64 0,
    certLen := 1, cert := [0], sigLen := 1, sig := [0], gaps := true, version := 7, serial := 5, idpub := 0, lvl := 16, dec := 1, erase := [], marks := [] }
def markDev : State := { base g0 with mgmt := { (base g0).mgmt with healthNew := [(hcFailMark, 1)] } }
theorem witness_Starts :
    (∀ w ∈ [true, false], (base g0).failingStep (info 0) w = 0 ∧ (base g0).failingStep (info 2) w = 2 ∧ (base g0).failingStep (info 7) w = 7) ∧
    ((base g0).failingStep (info 4) false = 4 ∧ (base g0).failingStep (info 4) true = 0) ∧
    ((base g0).failingStep { info 0 with tests := [(0, true)] } false = 6 ∧ (base g0).failingStep { info 0 with tests := [(0, true)] } true = 0 ∧
      markDev.failingStep { info 0 with tests := [(0, true)] } true = 6) ∧
    (∀ i ∈ [{ info 0 with lvl := 15 }, { info 0 with lvl := 256 }, { info 0 with dec := 0 }, { info 0 with dec := 256 }, { info 0 with erase := [(0, 31)] }, { info 0 with magic := 0 },
        { info 0 with enmap := List.replicate 4 (2 ^ 47 - 1) }, { info 0 with enmap := List.replicate 4 (2 ^ 53 - 2 ^ 5) }, { info 0 with certLen := 0, cert := [] },
        { info 0 with sigLen := 2 }, { info 0 with gaps := false }],
      (base g0).failingStep i false = 3) ∧
    (∀ i ∈ [{ info 0 with lvl := 16 }, { info 0 with lvl := 255 }, { info 0 with dec := 1 }, { info 0 with dec := 255 }, { info 0 with erase := [(0, 15)] },
        { info 0 with enmap := List.replicate 4 (2 ^ 52 - 2 ^ 4) }],
      (base g0).failingStep i false = 0) ∧
    (base g0).power = true ∧ { base g0 with power := false }.power = false := by
  decide +kernel

/-- A breakpoint at 0x10000; a block that the debugger has halted; a context that may be debugged. -/
def bpDev : State := { base g0 with mgmt := { (base g0).mgmt with breaks := [(0x10000, none, some 0)], debug := [1] } }
def gHalt : Group := { g0 with sched := { g0.sched with dhalt := true } }
def haltDev : State := dev { blk with dhalt := true } gHalt
theorem witness_Debugger :
    (bpDev.group 1 = some g0 ∧ bpDev.canIssue g0 = true ∧ bpDev.breakHere g0 = true) ∧
    (haltDev.block 1 = some { blk with dhalt := true } ∧ haltDev.operating = true ∧ haltDev.stepOver = true ∧ blk.saved = none ∧ haltDev.group 1 = some gHalt ∧ gHalt.visitor = none ∧
      gHalt.sched.dhalt = true) ∧
    (let s := { haltDev with mgmt := { haltDev.mgmt with stepping := some (1, 1600000, 0, 0) } }
     s.stepOver = true) ∧
    (let s := { base g0 with mgmt := { (base g0).mgmt with ctxs := entry1 5 } }
     s.operating = true ∧ s.ctxField 1 56 1 % 2 = 1 ∧ s.ctxField 1 56 1 / 4 % 2 = 1) ∧
    (let s := { base g0 with mgmt := { (base g0).mgmt with debug := [1] } }
     1 ∈ s.mgmt.debug) := by decide +kernel
/-! ### Every cell: a word with the length, OPC and FN of spec 03 and small operands -/

def cellWords0 : List (Nat × Instr) :=
  [(0x400, .nop (word .w64 0 0 0 0 0 0)),
   (0x800, .exit (word .w64 0 0 0 0 0 0)),
   (0x8000C00, .exitm (word .w64 0 0 8 0 0 0)),
   (0x400000000000000005, .br (word .w96 0 0 0 0 0 64)),
   (0x400000000008000405, .bz (word .w96 0 0 8 0 0 64)),
   (0x400000000008000805, .bnz (word .w96 0 0 8 0 0 64)),
   (0x400000000008000C05, .bmz (word .w96 0 0 8 0 0 64)),
   (0x400000000008001005, .bmnz (word .w96 0 0 8 0 0 64)),
   (0x400000000008001405, .bvany (word .w96 0 0 8 0 0 64)),
   (0x400000000008001805, .bvall (word .w96 0 0 8 0 0 64)),
   (0x400000000008000009, .bdiv (word .w96 0 0 8 0 0 64)),
   (0x400000000008000409, .bdivw (word .w96 0 0 8 0 0 64)),
   (0x400000000008000809, .bdivs (word .w96 0 0 8 0 0 64)),
   (0xC08, .join (word .w64 0 0 0 0 0 0)),
   (0x400000000000001009, .joinw (word .w96 0 0 0 0 0 64)),
   (0x800000C, .jmp (word .w64 0 0 8 0 0 0)),
   (0xC0800040C, .jmpi (word .w64 0 0 8 12 0 0)),
   (0x40000000000000080D, .call (word .w96 0 0 0 0 0 64)),
   (0x8000C0C, .calli (word .w64 0 0 8 0 0 0)),
   (0x100C, .ret (word .w64 0 0 0 0 0 0)),
   (0xC08040040, .sadd (word .w64 0 4 8 12 0 0)),
   (0xC08040440, .ssub (word .w64 0 4 8 12 0 0)),
   (0xC08040840, .smul (word .w64 0 4 8 12 0 0)),
   (0xC08040C40, .smulh (word .w64 0 4 8 12 0 0)),
   (0xC08041040, .sand (word .w64 0 4 8 12 0 0)),
   (0xC08041440, .sor (word .w64 0 4 8 12 0 0)),
   (0xC08041840, .sxor (word .w64 0 4 8 12 0 0)),
   (0xC08041C40, .sshl (word .w64 0 4 8 12 0 0)),
   (0xC08042040, .sshr (word .w64 0 4 8 12 0 0)),
   (0xC08042440, .smin (word .w64 0 4 8 12 0 0)),
   (0xC08042840, .smax (word .w64 0 4 8 12 0 0)),
   (0xC08042C40, .sdiv (word .w64 0 4 8 12 0 0)),
   (0xC08043040, .srem (word .w64 0 4 8 12 0 0)),
   (0x8040044, .smov (word .w64 0 4 8 0 0 0)),
   (0x8040444, .snot (word .w64 0 4 8 0 0 0)),
   (0x8040844, .sclz (word .w64 0 4 8 0 0 0)),
   (0x8040C44, .spopc (word .w64 0 4 8 0 0 0)),
   (0x8041044, .sbrev (word .w64 0 4 8 0 0 0)),
   (0x8041444, .sext (word .w64 0 4 8 0 0 0)),
   (0xC08040048, .scmp (word .w64 0 4 8 12 0 0))]
def cellWords1 : List (Nat × Instr) :=
  [(0x100C08040448, .ssel (word .w64 0 4 8 12 16 0)),
   (0xC0804004C, .sadd64 (word .w64 0 4 8 12 0 0)),
   (0xC0804044C, .ssub64 (word .w64 0 4 8 12 0 0)),
   (0xC0804084C, .smul64 (word .w64 0 4 8 12 0 0)),
   (0xC08040C4C, .sshl64 (word .w64 0 4 8 12 0 0)),
   (0xC0804104C, .sshr64 (word .w64 0 4 8 12 0 0)),
   (0x804144C, .smov64 (word .w64 0 4 8 0 0 0)),
   (0x100C08040050, .sbfe (word .w64 0 4 8 12 16 0)),
   (0x100C08040450, .sbfi (word .w64 0 4 8 12 16 0)),
   (0xC08040054, .slea (word .w64 0 4 8 12 0 0)),
   (0xC080400C0, .vadd (word .w64 0 4 8 12 0 0)),
   (0xC080404C0, .vsub (word .w64 0 4 8 12 0 0)),
   (0xC080408C0, .vmul (word .w64 0 4 8 12 0 0)),
   (0xC08040CC0, .vmulh (word .w64 0 4 8 12 0 0)),
   (0xC080410C0, .vand (word .w64 0 4 8 12 0 0)),
   (0xC080414C0, .vor (word .w64 0 4 8 12 0 0)),
   (0xC080418C0, .vxor (word .w64 0 4 8 12 0 0)),
   (0xC08041CC0, .vshl (word .w64 0 4 8 12 0 0)),
   (0xC080420C0, .vshr (word .w64 0 4 8 12 0 0)),
   (0xC080424C0, .vmin (word .w64 0 4 8 12 0 0)),
   (0xC080428C0, .vmax (word .w64 0 4 8 12 0 0)),
   (0xC08042CC0, .vabsd (word .w64 0 4 8 12 0 0)),
   (0xC080430C0, .vadds (word .w64 0 4 8 12 0 0)),
   (0xC080434C0, .vsubs (word .w64 0 4 8 12 0 0)),
   (0x100C080400C4, .vmad (word .w64 0 4 8 12 16 0)),
   (0x100C080404C4, .vsel (word .w64 0 4 8 12 16 0)),
   (0x100C080408C4, .vbfe (word .w64 0 4 8 12 16 0)),
   (0x100C08040CC4, .vbfi (word .w64 0 4 8 12 16 0)),
   (0x80400C8, .vmov (word .w64 0 4 8 0 0 0)),
   (0x80404C8, .vnot (word .w64 0 4 8 0 0 0)),
   (0x80408C8, .vneg (word .w64 0 4 8 0 0 0)),
   (0x8040CC8, .vabs (word .w64 0 4 8 0 0 0)),
   (0x80410C8, .vclz (word .w64 0 4 8 0 0 0)),
   (0x80414C8, .vpopc (word .w64 0 4 8 0 0 0)),
   (0x80418C8, .vbrev (word .w64 0 4 8 0 0 0)),
   (0x200000008041CC8, .vext (word .w64 4 4 8 0 0 0)),
   (0xC080400CC, .vcmp (word .w64 0 4 8 12 0 0)),
   (0xC080404CC, .vcmpm (word .w64 0 4 8 12 0 0)),
   (0xC080400D0, .vadd64 (word .w64 0 4 8 12 0 0)),
   (0xC080404D0, .vmulw (word .w64 0 4 8 12 0 0))]
def cellWords2 : List (Nat × Instr) :=
  [(0xC08040180, .vaddF32 (word .w64 0 4 8 12 0 0)),
   (0xC08040580, .vsubF32 (word .w64 0 4 8 12 0 0)),
   (0xC08040980, .vmulF32 (word .w64 0 4 8 12 0 0)),
   (0xC08040D80, .vminF32 (word .w64 0 4 8 12 0 0)),
   (0xC08041180, .vmaxF32 (word .w64 0 4 8 12 0 0)),
   (0xC08041580, .vdiv (word .w64 0 4 8 12 0 0)),
   (0x100C08040184, .vfma (word .w64 0 4 8 12 16 0)),
   (0x100C08040584, .vfms (word .w64 0 4 8 12 16 0)),
   (0x8040188, .vabsF32 (word .w64 0 4 8 0 0 0)),
   (0x8040588, .vnegF32 (word .w64 0 4 8 0 0 0)),
   (0x8040988, .vsqrt (word .w64 0 4 8 0 0 0)),
   (0x8040D88, .vrcp (word .w64 0 4 8 0 0 0)),
   (0x8041188, .vrsq (word .w64 0 4 8 0 0 0)),
   (0x8041588, .vexp2 (word .w64 0 4 8 0 0 0)),
   (0x8041988, .vlog2 (word .w64 0 4 8 0 0 0)),
   (0x8041D88, .vrnd (word .w64 0 4 8 0 0 0)),
   (0x8042188, .vclass (word .w64 0 4 8 0 0 0)),
   (0xC0804018C, .vcmpF32 (word .w64 0 4 8 12 0 0)),
   (0xC0804058C, .vcmpmF32 (word .w64 0 4 8 12 0 0)),
   (0xC08040190, .vadd2 (word .w64 0 4 8 12 0 0)),
   (0xC08040590, .vmul2 (word .w64 0 4 8 12 0 0)),
   (0x100C08040990, .vfma2 (word .w64 0 4 8 12 16 0)),
   (0x80401A0, .vcvt (word .w64 0 4 8 0 0 0)),
   (0x80405A0, .vcvti (word .w64 0 4 8 0 0 0)),
   (0x80409A0, .vcvtf (word .w64 0 4 8 0 0 0)),
   (0x8040DA0, .vcvtq (word .w64 0 4 8 0 0 0)),
   (0x80411A0, .vcvtqf (word .w64 0 4 8 0 0 0)),
   (0x400000C080415A0, .vcvtn (word .w64 8 4 8 12 0 0)),
   (0x100C08040240, .vdot8 (word .w64 0 4 8 12 16 0)),
   (0x100C08040640, .vdot4 (word .w64 0 4 8 12 16 0)),
   (0xC08040A40, .vscale (word .w64 0 4 8 12 0 0)),
   (0x80100C08040244, .vqnt (word .w64 1 4 8 12 16 0)),
   (0x100000C08040644, .vdeq (word .w64 2 4 8 12 0 0)),
   (0xC08040248, .vhad (word .w64 0 4 8 12 0 0)),
   (0xC0804024C, .vpk8 (word .w64 0 4 8 12 0 0)),
   (0xC0804064C, .vupk8 (word .w64 0 4 8 12 0 0)),
   (0xC08040A4C, .vpk4 (word .w64 0 4 8 12 0 0)),
   (0xC08040E4C, .vupk4 (word .w64 0 4 8 12 0 0)),
   (0x8040250, .vamax (word .w64 0 4 8 0 0 0)),
   (0x180000008040650, .vsc8 (word .w64 3 4 8 0 0 0))]
def cellWords3 : List (Nat × Instr) :=
  [(0xC08040280, .vshfl (word .w64 0 4 8 12 0 0)),
   (0xC08040680, .vshup (word .w64 0 4 8 12 0 0)),
   (0xC08040A80, .vshdn (word .w64 0 4 8 12 0 0)),
   (0xC08040E80, .vshxor (word .w64 0 4 8 12 0 0)),
   (0xC08041280, .vbcast (word .w64 0 4 8 12 0 0)),
   (0x8040284, .vballot (word .w64 0 4 8 0 0 0)),
   (0x8040684, .vpopm (word .w64 0 4 8 0 0 0)),
   (0x8040A84, .vprefix (word .w64 0 4 8 0 0 0)),
   (0x8040E84, .vreduce (word .w64 0 4 8 0 0 0)),
   (0x8040288, .qxch (word .w64 0 4 8 0 0 0)),
   (0xC080402C0, .vld (word .w64 0 4 8 12 0 0)),
   (0xC080406C0, .vldrb (word .w64 0 4 8 12 0 0)),
   (0xC08040AC0, .sld (word .w64 0 4 8 12 0 0)),
   (0xC08040EC0, .vldbc (word .w64 0 4 8 12 0 0)),
   (0xC080412C0, .vldscr (word .w64 0 4 8 12 0 0)),
   (0xC080416C0, .vldcw (word .w64 0 4 8 12 0 0)),
   (0xC080402C4, .vst (word .w64 0 4 8 12 0 0)),
   (0xC080406C4, .sst (word .w64 0 4 8 12 0 0)),
   (0xC08040AC4, .vstscr (word .w64 0 4 8 12 0 0)),
   (0xC08040EC4, .vstcw (word .w64 0 4 8 12 0 0)),
   (0x100C080412C4, .vstmc (word .w64 0 4 8 12 16 0)),
   (0x80002C8, .wcfl (word .w64 0 0 8 0 0 0)),
   (0x6C8, .rbinv (word .w64 0 0 0 0 0 0)),
   (0xC08000AC8, .vpref (word .w64 0 0 8 12 0 0)),
   (0x80402CC, .vldp (word .w64 0 4 8 0 0 0)),
   (0x80406CC, .vstp (word .w64 0 4 8 0 0 0)),
   (0x100C080402E0, .vatom (word .w64 0 4 8 12 16 0)),
   (0x100C080406E0, .vcas (word .w64 0 4 8 12 16 0)),
   (0x100C08040AE0, .satom (word .w64 0 4 8 12 16 0)),
   (0x100C08040EE0, .scas (word .w64 0 4 8 12 16 0)),
   (0x100C080012E0, .vred (word .w64 0 0 8 12 16 0)),
   (0x100C080402E4, .vatom64 (word .w64 0 4 8 12 16 0)),
   (0x100C080406E4, .vcas64 (word .w64 0 4 8 12 16 0)),
   (0x100C080402F0, .wwait (word .w64 0 4 8 12 16 0)),
   (0x100C080406F2, .wwaitt (word .w128 0 4 8 12 16 0)),
   (0xC08000AF0, .wwake (word .w64 0 0 8 12 0 0)),
   (0x100C08040EF0, .faddt (word .w64 0 4 8 12 16 0)),
   (0x80012F0, .sleep (word .w64 0 0 8 0 0 0)),
   (0x80016F0, .wcancel (word .w64 0 0 8 0 0 0)),
   (0x300, .fence (word .w64 0 0 0 0 0 0))]
def cellWords4 : List (Nat × Instr) :=
  [(0x700, .fenceh (word .w64 0 0 0 0 0 0)),
   (0x8000B00, .fencep (word .w64 0 0 8 0 0 0)),
   (0x18140000100C08040322, .xfer { word .w128 0 4 8 12 16 0 with e := 20, h := 24 }),
   (0xC08040324, .vldf (word .w64 0 4 8 12 0 0)),
   (0xC08040724, .sldf (word .w64 0 4 8 12 0 0)),
   (0x8040328, .ftot (word .w64 0 4 8 0 0 0)),
   (0x804032C, .fdecl (word .w64 0 4 8 0 0 0)),
   (0x800072C, .fdrop (word .w64 0 0 8 0 0 0)),
   (0x100C08000B2C, .fattr (word .w64 0 0 8 12 16 0)),
   (0xC08000F2C, .fgup (word .w64 0 0 8 12 0 0)),
   (0x181008000340, .mma (word .w64 0 0 8 16 24 0)),
   (0x100C08000740, .mmac (word .w64 0 0 8 12 16 0)),
   (0x344, .mopf (word .w64 0 0 0 0 0 0)),
   (0x744, .mwait (word .w64 0 0 0 0 0 0)),
   (0x348, .mzero (word .w64 0 0 0 0 0 0)),
   (0x8000748, .mlda (word .w64 0 0 8 0 0 0)),
   (0x8000B48, .msta (word .w64 0 0 8 0 0 0)),
   (0xC00040F48, .mrd (word .w64 0 4 0 12 0 0)),
   (0xC08001348, .mwr (word .w64 0 0 8 12 0 0)),
   (0x800034C, .mspill (word .w64 0 0 8 0 0 0)),
   (0x800074C, .mfill (word .w64 0 0 8 0 0 0)),
   (0x8000B4C, .mtag (word .w64 0 0 8 0 0 0)),
   (0x140000100C08000382, .tcopy { word .w128 0 0 8 12 16 0 with e := 20, h := 0 }),
   (0x140000100C08000782, .tcopys { word .w128 0 0 8 12 16 0 with e := 20, h := 0 }),
   (0x140000000C08000B82, .gather { word .w128 0 0 8 12 0 0 with e := 20, h := 0 }),
   (0x8000384, .trf (word .w64 0 0 8 0 0 0)),
   (0x40784, .bclose (word .w64 0 4 0 0 0 0)),
   (0x8000B84, .bwait (word .w64 0 0 8 0 0 0)),
   (0xC00000388, .abinit (word .w64 0 0 0 12 0 0)),
   (0x788, .abarv (word .w64 0 0 0 0 0 0)),
   (0xC00000B88, .abexp (word .w64 0 0 0 12 0 0)),
   (0xC00000F88, .abwait (word .w64 0 0 0 12 0 0)),
   (0xC0100038C, .gset (word .w64 0 0 1 12 0 0)),
   (0x390, .bar (word .w64 0 0 0 0 0 0)),
   (0x790, .barc (word .w64 0 0 0 0 0 0)),
   (0xB90, .barh (word .w64 0 0 0 0 0 0)),
   (0x80003A0, .coll (word .w64 0 0 8 0 0 0)),
   (0x80007A0, .crem (word .w64 0 0 8 0 0 0)),
   (0xC080003A4, .trpost (word .w64 0 0 8 12 0 0)),
   (0x80007A4, .trcan (word .w64 0 0 8 0 0 0))]
def cellWords5 : List (Nat × Instr) :=
  [(0xC080403A8, .ecinc (word .w64 0 4 8 12 0 0)),
   (0xC080407A8, .ecdec (word .w64 0 4 8 12 0 0)),
   (0x8040BA8, .ecrd (word .w64 0 4 8 0 0 0)),
   (0xC08000FA8, .ecset (word .w64 0 0 8 12 0 0)),
   (0xC080003AC, .cqpost (word .w64 0 0 8 12 0 0)),
   (0x80407AC, .cqpoll (word .w64 0 4 8 0 0 0)),
   (0xC080003B0, .tqenq (word .w64 0 0 8 12 0 0)),
   (0xC080407B0, .tqdeq (word .w64 0 4 8 12 0 0)),
   (0xC08040BB0, .tqtry (word .w64 0 4 8 12 0 0)),
   (0x8000FB0, .tqdone (word .w64 0 0 8 0 0 0)),
   (0x100C080013B0, .tqatt (word .w64 0 0 8 12 16 0)),
   (0x80417B0, .tqstat (word .w64 0 4 8 0 0 0)),
   (0x18140000100C080003C2, .migr { word .w128 0 0 8 12 16 0 with e := 20, h := 24 }),
   (0x7C0, .mret (word .w64 0 0 0 0 0 0)),
   (0x8000BC0, .mjoin (word .w64 0 0 8 0 0 0)),
   (0xC08040FC0, .mowner (word .w64 0 4 8 12 0 0)),
   (0x80413C0, .mtest (word .w64 0 4 8 0 0 0)),
   (0x4200000000000403E1, .sysrd (word .w96 0 4 0 0 0 66)),
   (0xB00000000080007E1, .syswr (word .w96 0 0 8 0 0 11)),
   (0x4000000000000003E5, .trap (word .w96 0 0 0 0 0 64)),
   (0x7E4, .rft (word .w64 0 0 0 0 0 0)),
   (0xBE4, .brk (word .w64 0 0 0 0 0 0)),
   (0x400000000000000FE5, .scall (word .w96 0 0 0 0 0 64)),
   (0x13E4, .sret (word .w64 0 0 0 0 0 0)),
   (0x80003E8, .cka (word .w64 0 0 8 0 0 0)),
   (0x80007E8, .chk (word .w64 0 0 8 0 0 0)),
   (0xC080403EC, .rndk (word .w64 0 4 8 12 0 0)),
   (0xC080407EC, .srndk (word .w64 0 4 8 12 0 0)),
   (0xC080003F0, .tlbinv (word .w64 0 0 8 12 0 0)),
   (0x7F0, .tlbsync (word .w64 0 0 0 0 0 0)),
   (0x80003F4, .icinv (word .w64 0 0 8 0 0 0)),
   (0xC080003F8, .einj (word .w64 0 0 8 12 0 0)),
   (0xC080007F8, .escrub (word .w64 0 0 8 12 0 0))]

theorem test_decode_every_cell :
    (cellWords0 ++ cellWords1 ++ cellWords2 ++ cellWords3 ++ cellWords4 ++ cellWords5).all (fun p => decodeTableWord 128 p.1 == some p.2) = true := by decide +kernel
/-! ### Words that the spec prints -/

-- spec 02: sadd s4, s5, 7; the 96-bit form; A with its wait bit; spec 05: a branch
theorem test_decode_sadd : decodeTableWord 64 0x000000C705040040 = some (.sadd (word .w64 0 4 5 0xC7 0 0)) := by rfl
theorem test_decode_sadd96 : decodeTableWord 96 0x000186A00000000005040041 = some (.sadd (word .w96 0 4 5 0 0 0x186A0)) := by rfl
theorem test_decode_sadd_wait : decodeTableWord 64 0x000100C705040040 = some (.sadd { word .w64 0 4 5 0xC7 0 0 with wa := true }) := by rfl
theorem test_decode_bdiv : decodeTableWord 96 0x0000002C0000000002000009 = some (.bdiv (word .w96 0 0 2 0 0 0x2C)) := by rfl
theorem test_decode_bnz : decodeTableWord 96 0x00000060000000000F000805 = some (.bnz (word .w96 0 0 15 0 0 0x60)) := by rfl
-- spec 06 to 08: a rounding mode in MOD, a load with its size and scale, the fields of an extension
theorem test_decode_vfma : decodeTableWord 64 0x0380070605040184 = some (.vfma (word .w64 7 4 5 6 7 0)) := by rfl
theorem test_decode_vld : decodeTableWord 64 0x090040020A0502C0 = some (.vld (word .w64 0x12 5 10 2 0x40 0)) := by rfl
theorem test_decode_xfer : decodeTableWord 128 0x000000000000040A010003020A090322 =
    some (.xfer { word .w128 2 9 10 2 3 0 with e := 10, h := 4 }) := by rfl
-- spec 09 to 12
theorem test_decode_mma : decodeTableWord 64 0x0180083010040340 = some (.mma (word .w64 3 4 0x10 0x30 8 0)) := by rfl
theorem test_decode_vdot8 : decodeTableWord 64 0x0000070605040240 = some (.vdot8 (word .w64 0 4 5 6 7 0)) := by rfl
theorem test_decode_gset : decodeTableWord 64 0x000000050200038C = some (.gset (word .w64 0 0 2 5 0 0)) := by rfl
theorem test_decode_ecdec : decodeTableWord 64 0x000000C10A0407A8 = some (.ecdec (word .w64 0 4 10 0xC1 0 0)) := by rfl
theorem test_decode_migr : decodeTableWord 128 0x0000000008801E0601000502080003C2 =
    some (.migr { word .w128 2 0 8 2 5 0 with e := 6, h := 30, xmod := 0x110 }) := by rfl
theorem test_decode_sysrd : decodeTableWord 96 0x0000004000800000000103E1 = some (.sysrd (word .w96 1 1 0 0 0 0x40)) := by rfl
theorem test_decode_syswr : decodeTableWord 96 0x0000000B00000000040007E1 = some (.syswr (word .w96 0 0 4 0 0 0xB)) := by rfl

-- spec 02, R57: cleared memory, set memory, an OPC and an FN that are not assigned, an UNS bit where it must be 0
theorem test_refuse_words : decode 0 = .error (.illop 3 0) ∧ decode 0xFFFFFFFFFFFFFFFFFFFFFFFFFFFFFFFF = .error (.illop 1 0) ∧ decode 0x10 = .error (.illop 2 0) ∧
    decode 0x0080000000000040 = .error (.illop 5 8) := ⟨by rfl, by rfl, by rfl, by rfl⟩

/-! ### Ill-formed terms: one for each check of R57 -/

theorem smoke_length : (Instr.exit { F with len := .w96 }).wf = false ∧ (Instr.exit { F with len := .w96 }).violation = some (4, 0) := by decide +kernel
theorem smoke_mod : (Instr.sadd { F with mod := 1 }).wf = false ∧ (Instr.sadd { F with mod := 1 }).violation = some (5, 8) := by decide +kernel
theorem smoke_xmod : (Instr.tcopy { fBox with xmod := 1 }).wf = false ∧ (Instr.tcopy { fBox with len := .w128, xmod := 1 }).violation = some (5, 8) := by decide +kernel
theorem smoke_guard : (Instr.sadd { F with gs := 1 }).violation = some (6, 9) ∧ (Instr.mma (word .w64 0x103 4 0x10 0x30 8 0)).violation = some (6, 9) ∧
    (Instr.mma { word .w64 0x103 4 0x10 0x30 8 0 with gs := 7 }).violation = none := by decide +kernel
theorem smoke_unused : (Instr.nop { F with d := 1 }).wf = false ∧ (Instr.nop { F with d := 1 }).violation = some (7, 1) := by decide +kernel
theorem smoke_wait : (Instr.sadd { F with len := .w96, wb := true }).wf = false ∧ (Instr.sadd { F with len := .w96, wb := true }).violation = some (8, 3) := by decide +kernel
theorem smoke_special : (Instr.sadd { F with a := 157 }).wf = false ∧ (Instr.sadd { F with a := 157 }).violation = some (9, 2) ∧
    (Instr.sadd { F with a := 156 }).violation = none ∧ (Instr.sadd { F with a := 191 }).violation = some (9, 2) ∧ (Instr.sadd { F with a := 192 }).violation = none := by
  decide +kernel
theorem smoke_destination : (Instr.sadd { F with d := 128 }).wf = false ∧ (Instr.sadd { F with d := 128 }).violation = some (10, 1) ∧
    (Instr.sadd { F with d := 138 }).violation = none := by decide +kernel
theorem smoke_pair : (Instr.sadd64 { F with d := 1 }).violation = some (11, 1) ∧ (Instr.gset { F with a := 8 }).violation = some (11, 2) ∧
    (Instr.gset { F with a := 7 }).violation = none := by decide +kernel
theorem smoke_immediate : (Instr.nop { F with len := .w96, imm := 1 }).violation = some (12, 7) ∧ (Instr.sadd { F with len := .w96, b := 1 }).violation = some (12, 3) ∧
    (Instr.sadd { F with imm := 5 }).wf = false := by decide +kernel
theorem smoke_sysreg : (Instr.syswr { F with len := .w96, imm := 0xFFF }).violation = some (13, 7) ∧
    (Instr.sysrd { F with len := .w96, imm := 0x40 }).violation = some (13, 1) := by decide +kernel
theorem smoke_own : (Instr.mma { F with a := 4 }).wf = false ∧ (Instr.mma { F with a := 4 }).violation = some (14, 2) := by decide +kernel

/-! ### Worked values -/

-- spec 04, R98, R99: gen(0, 0), and the transform of 1, 0, …, 0
theorem test_gen : gen 0 0 = 0x4031C426 := by decide +kernel
theorem test_hadamard : hadamard 0 (0x3F800000 :: List.replicate 127 0) = List.replicate 128 0x3E000000 := by decide +kernel

-- spec 14, R334: the 36 symbols, as a polynomial, are zero at the four roots 1, 2, 4 and 8 of the generator, and at no other power near them
def at_ (x : Nat) (l : List Byte) : Nat := l.foldl (fun r d => gfMul r x ^^^ d.toNat) 0
theorem test_check_symbols : (let l := (List.range 32).map (fun i => BitVec.ofNat 8 (7 * i + 3))
    [1, 2, 4, 8].map (fun x => at_ x (l ++ checkSymbols l)) = [0, 0, 0, 0] ∧ at_ 16 (l ++ checkSymbols l) ≠ 0) := by decide +kernel

/-- spec 04, worked example: a row and a column over K = 64, in chunks of 32. -/
def exA (k : Nat) : Elem :=
  { bits := 0, v := match k with | 0 => .fin false 1 12 | 1 => .fin false 1 0 | 2 => .fin true 1 12 | 32 => .fin false 1 (-12) | _ => .fin false 0 0 }
def exB (k : Nat) : Elem :=
  { bits := 0, v := match k with | 0 => .fin false 1 12 | 1 => .fin false 1 0 | 2 => .fin false 1 12 | 32 => .fin false 1 (-12) | _ => .fin false 0 0 }
def exAt (w : Word) : Word := matElem w (matElem w 0 exA exB) (fun k => exA (32 + k)) (fun k => exB (32 + k))
theorem test_chunks : matElem 0x11 0 exA exB = 0x3F800000 ∧ exAt 0x11 = 0x3F800000 ∧ exAt 0xC11 = 0x3F800001 := by decide +kernel

/-- A register of the group after one instruction, and its PC. -/
def sAfter (r : Res) (n : Nat) : Option (Word × Dword) := match r with
  | .next t => (t.group 1).map (fun g => (g.rdS n, g.ctl.pc))
  | _ => none
def vAfter (r : Res) (n : Nat) (l : List Nat) : Option (List Word) := match r with
  | .next t => (t.group 1).map (fun g => l.map (g.rdV n))
  | _ => none

-- spec 06, R142: the orders of the prefix and of the reduction
def gPre : Group := vect (masked g0 0xF 0xFFFFFFFF) [(256, 0x4B800000), (257, 0x3F800000), (258, 0x3F800000), (259, 0x3F800000)]
theorem test_vprefix : vAfter (exec (.vprefix (word .w64 16 4 8 0 0 0)) (base gPre)) 4 [0, 1, 2, 3] = some [0x4B800000, 0x4B800000, 0x4B800001, 0x4B800001] := by
  decide +kernel
theorem test_vreduce : sAfter (exec (.vreduce (word .w64 16 4 8 0 0 0)) (base gPre)) 4 = some (0x4B800001, 0x10008) := by decide +kernel

-- spec 09: vdot8.i8.i8 v4, v5, v6, v7
theorem test_vdot8 : vAfter (exec (.vdot8 (word .w64 0 4 5 6 7 0)) (base (vect g0 [(160, 0x80FF0102), (192, 0x02030405), (224, 1000)]))) 4 [0] = some [755] := by
  decide +kernel

-- spec 05, R104, by hand: a wrap, a source that is the destination, a quotient toward zero, no divisor, the most negative number
theorem test_sadd_wraps : sAfter (exec (.sadd (word .w64 0 5 5 0xC7 0 0)) (base (scal g0 [(5, 0xFFFFFFFF)]))) 5 = some (6, 0x10008) := by decide +kernel
theorem test_sdiv : sAfter (exec (.sdiv (word .w64 0 4 5 6 0 0)) (base (scal g0 [(5, 0xFFFFFFF9), (6, 2)]))) 4 = some (0xFFFFFFFD, 0x10008) ∧
    sAfter (exec (.sdiv (word .w64 0 4 5 6 0 0)) (base (scal g0 [(5, 9)]))) 4 = some (0xFFFFFFFF, 0x10008) := by decide +kernel
theorem test_srem : sAfter (exec (.srem (word .w64 0 4 5 6 0 0)) (base (scal g0 [(5, 0xFFFFFFF9), (6, 2)]))) 4 = some (0xFFFFFFFF, 0x10008) ∧
    sAfter (exec (.srem (word .w64 0 4 5 6 0 0)) (base (scal g0 [(5, 0x80000000), (6, 0xFFFFFFFF)]))) 4 = some (0, 0x10008) := by decide +kernel
theorem test_sshr : sAfter (exec (.sshr (word .w64 0 4 5 6 0 0)) (base (scal g0 [(5, 0x80000000), (6, 32)]))) 4 = some (0xFFFFFFFF, 0x10008) := by decide +kernel

-- spec 05, worked example: bdiv at K + 0x14 with the odd lanes taken, and the join that follows it
def parity (pc : Dword) (exm : Word) (st : List Entry) : Group :=
  { vect g0 ((List.range 32).map (fun L => (64 + L, BitVec.ofNat 32 (L % 2)))) with ctl := { g0.ctl with pc := pc, exm := exm, stack := st } }
def ctlAfter (r : Res) : Option (Word × List (Word × BitVec 56) × Dword) := match r with
  | .next t => (t.group 1).map (fun g => (g.ctl.exm, g.ctl.stack.map (fun e => (e.mask, e.pc)), g.ctl.pc))
  | _ => none
theorem test_bdiv : ctlAfter (exec (.bdiv (word .w96 0 0 2 0 0 0x2C)) (base (parity 0x10014 0xFFFFFFFF []))) =
    some (0x55555555, [(0xAAAAAAAA, 0x10040), (0xFFFFFFFF, 0)], 0x10020) := by decide +kernel
theorem test_join : ctlAfter (exec (.join F) (base (parity 0x1004C 0x55555555 [ent .div 0xAAAAAAAA 0x10040, ent .div 0xFFFFFFFF 0]))) =
    some (0xAAAAAAAA, [(0xFFFFFFFF, 0)], 0x10040) := by decide +kernel

-- spec 10, the worked box: COUNT 1, half of 256 bytes delivered, then the expect with an arrival
def ab3 : Obj := { valid := true, phase := 0, count := 1, left := 1, bytes := 0 }
theorem test_object : ab3.update (-128) false = { ab3 with bytes := -128 } ∧ (ab3.update (-128) false).update 256 true = { ab3 with left := 0, bytes := 128 } ∧
    ((ab3.update (-128) false).update 256 true).update (-128) false = { ab3 with phase := 1 } := by decide +kernel

/-! ### Steps from reset with one instruction placed -/

def stepOn (n w : Nat) : Res := step (State.reset.withFetchWord n w)
/-- TRAPCAUSE, TRAPAUX and PC. -/
def trapAfter (r : Res) : Option (Word × Dword × Dword) := match r with
  | .next t => (t.group 1).map (fun g => (g.sys.tcause, g.sys.taux, g.ctl.pc))
  | _ => none
theorem test_step_sadd : sAfter (stepOn 64 0x000000C705040040) 4 = some (7, 0x10008) := by decide +kernel
theorem test_step_srndk : sAfter (stepOn 64 0x000000C0C00407EC) 4 = some (0x4031C426, 0x10008) := by decide +kernel
theorem test_step_br : sAfter (stepOn 96 0x000000200000000000000005) 0 = some (0, 0x10020) := by decide +kernel
-- ILLOP with reason 3 at a word of zeros; reason 1 at a word of ones; the handler of the placed kernel is 0x10000
theorem test_step_zero : trapAfter (stepOn 64 0) = some (1, 3, 0x10000) := by decide +kernel
theorem test_step_ones : trapAfter (stepOn 64 0xFFFFFFFFFFFFFFFF) = some (1, 1, 0x10000) := by decide +kernel
-- every lane leaves: the group retires
theorem test_step_exit : (match stepOn 64 0x800 with | .next t => (t.group 1).isNone | _ => false) = true := by decide +kernel
-- spec 12, R277: a group whose next instruction waits for a register takes its pending imprecise trap at that instruction
def waitingTrap : Group := { g0 with
  sched := { g0.sched with hold := .vreg 3, ready := true }
  out := { g0.out with imprecise := [{ cause := 16, lanes := 1, addr := 0x40, aux := 5 }] } }
theorem test_imprecise_waiting : (match (base waitingTrap).groupTurn 1 with | .done r => trapAfter r | .run _ _ => none) = some (16, 5, 0x20000) ∧
    (base waitingTrap).isReady 1 waitingTrap = true := by decide +kernel

end Sys2Proof.Tests
end

section
/-! Scalar instructions of spec 05: one register written (R104), uniform branches (R113). -/

namespace Sys2Proof.Proofs

open Sys2Proof Sys2Proof.Machine Sys2Proof.Claims

/-! ### Issue and the end of an instruction -/

/-- `Ready` gives each check of issue (spec 02, R56 steps 6 to 8; spec 18, R399). -/
theorem state_ready_of_ready {i : Instr} {f : Fields} {r : Row} {s : State} {g : Group} (h : Ready i s g)
    (hrow : i.row = some (f, r)) : s.ready r f g = true := by
  obtain ⟨hregs, hsup⟩ := h.2 f r hrow
  have howned : (s.unowned g (namedRegs r f)).isNone = true := by
    simp only [State.unowned, Option.isNone_iff_eq_none, List.find?_eq_none]
    intro n hn
    simp [(hregs n hn).1]
  have hmode : (!r.sup || g.priv) = true := by
    cases hs : r.sup with
    | false => rfl
    | true => simpa using hsup hs
  have hfull : ∀ n ∈ namedRegs r f, n.role ≠ .peek → g.isEmpty n.scalar n.reg = false :=
    fun n hn => (hregs n hn).2.1
  have hwaited : (g.emptyWaited (namedRegs r f)).isNone = true := by
    simp only [Group.emptyWaited, Option.isNone_iff_eq_none, List.find?_eq_none]
    intro n hn
    by_cases hp : n.role = .peek
    · simp [hp]
    · simp [hfull n hn hp]
  have hstall : (g.emptyStall (namedRegs r f)).isNone = true := by
    simp only [Group.emptyStall, Option.isNone_iff_eq_none, List.find?_eq_none]
    intro n hn
    by_cases hp : n.role = .peek
    · simp [hp]
    · simp [hfull n hn hp]
  have hgood : (g.spoilt (namedRegs r f)).isNone = true := by
    simp only [Group.spoilt, Option.isNone_iff_eq_none, List.find?_eq_none]
    intro n hn
    by_cases hp : n.role = .dst
    · simp [hp]
    · have hn' := (hregs n hn).2.2 hp
      cases hsc : n.scalar <;> simpa [hsc, hp] using hn'
  simp [State.ready, howned, hmode, hwaited, hstall, hgood]

/-- An instruction that is ready runs its meaning with the current group. -/
theorem issue_of_ready {i : Instr} {f : Fields} {r : Row} {s : State} {g : Group} (h : Ready i s g)
    (hrow : i.row = some (f, r)) (k : Nat → Group → Res) : issue r f s k = k s.own.cur g :=
  issue_ready k h.1 (state_ready_of_ready h hrow)

theorem onlyGroup_setGroup (s : State) (g' : Group) : OnlyGroup s (s.setGroup s.own.cur g') g' where
  now := State.group_setGroup ..
  others _ hj := State.group_setGroup_other s g' hj
  memory _ := rfl
  rest := rfl

/-- An instruction that has written at most EXM, register values and engine state is over once its group has gone on. -/
theorem over_goto {g g1 : Group} (pc : Dword)
    (hctl : { g1.ctl with exm := g.ctl.exm } = g.ctl)
    (hempty : g1.regs.vempty = g.regs.vempty ∧ g1.regs.sempty = g.regs.sempty)
    (hbad : (∀ k ∈ g1.regs.vbad, k ∈ g.regs.vbad) ∧ (∀ k ∈ g1.regs.sbad, k ∈ g.regs.sbad))
    (hkept : { g1 with ctl := g.ctl, regs := g.regs, eng := g.eng } = g) : Over g (g1.goto pc) pc where
  pc := rfl
  free := rfl
  stack := (congrArg Ctl.stack hctl :)
  live := (congrArg Ctl.livem hctl :)
  guards := (congrArg Ctl.guards hctl :)
  mode := (congrArg Ctl.supAt hctl :)
  sys hskid := by
    have hsched : g1.sched = g.sched := (congrArg Group.sched hkept :)
    have hsys : g1.sys = g.sys := (congrArg Group.sys hkept :)
    simp [Group.goto, hsched, hskid, hsys]
  empties := hempty
  spoilt := hbad
  out := (congrArg Group.out hkept :)
  kept := by
    rw [← hkept]
    rfl

theorem over_goto_self (g : Group) (pc : Dword) : Over g (g.goto pc) pc :=
  over_goto pc rfl ⟨rfl, rfl⟩ ⟨fun _ h => h, fun _ h => h⟩ rfl

/-! ### A scalar destination -/

theorem over_putDst_goto (g : Group) {d : BitVec 8} (hd : ScalarDst d) (v : Word) (pc : Dword) :
    Over g ((g.putDst d v).goto pc) pc := by
  rcases hd with hreg | rfl
  · have hne : d ≠ 138#8 := by rintro rfl; exact absurd hreg (by decide)
    have hput : g.putDst d v = g.putS d.toNat v := by simp [Group.putDst, hne, hreg]
    rw [hput]
    exact over_goto pc rfl ⟨rfl, rfl⟩ ⟨fun _ h => h, fun _ h => (List.mem_filter.mp h).1⟩ rfl
  · exact over_goto pc rfl ⟨rfl, rfl⟩ ⟨fun _ h => h, fun _ h => h⟩ rfl

/-- A value put in a scalar destination, then a new PC, is the one effect (spec 01, R20; spec 02, R53). -/
theorem scalarWrite_setGroup (s : State) (g : Group) {d : BitVec 8} (hd : ScalarDst d) (v : Word) (pc : Dword) :
    ScalarWrite s (s.setGroup s.own.cur ((g.putDst d v).goto pc)) g d v pc := by
  refine ⟨_, onlyGroup_setGroup s _, over_putDst_goto g hd v pc, ?_⟩
  rcases hd with hreg | rfl
  · have hne : d ≠ 138#8 := by rintro rfl; exact absurd hreg (by decide)
    have hput : g.putDst d v = g.putS d.toNat v := by simp [Group.putDst, hne, hreg]
    rw [hput]
    exact ⟨rfl, rfl, fun r hr => Group.rdS_putS_other g v hr, fun _ => ⟨Group.rdS_putS_same g _ v, rfl⟩,
      fun h => absurd h hne⟩
  · exact ⟨rfl, rfl, fun _ _ => rfl, fun h => absurd h (by decide), fun _ => ⟨rfl, rfl⟩⟩

/-- What a two-operand scalar instruction does once issued: its value in D. -/
theorem scalar2_writes {i : Instr} {f : Fields} {r : Row} {s : State} {g : Group} (h : Ready i s g)
    (hrow : i.row = some (f, r)) (hd : ScalarDst f.d) (op : Word → Word → Word) :
    ∃ t, scalar2 r op f s = .next t ∧
      ScalarWrite s t g f.d (op (s.opA g r f 0) (s.opB g r f 0)) (nextPc g f) := by
  refine ⟨_, ?_, scalarWrite_setGroup s g hd _ _⟩
  rw [scalar2, issue_of_ready h hrow, State.putDst_advance h.1 _ _ hd]
  rfl

/-! ### Values of R104 -/

theorem view_eq_viewInt {w : Nat} (uns : Bool) (x : BitVec w) : view uns x = viewInt uns x := rfl

@[simp] theorem ofInt_viewInt {w : Nat} (uns : Bool) (x : BitVec w) : BitVec.ofInt w (viewInt uns x) = x := by
  cases uns with
  | false => exact BitVec.ofInt_toInt
  | true => simp [viewInt]

theorem add_eq_ofInt {w : Nat} (a b : BitVec w) : a + b = BitVec.ofInt w (a.toInt + b.toInt) := by
  rw [BitVec.ofInt_add, BitVec.ofInt_toInt, BitVec.ofInt_toInt]

theorem sub_eq_ofInt {w : Nat} (a b : BitVec w) : a - b = BitVec.ofInt w (a.toInt - b.toInt) := by
  rw [← BitVec.toInt_inj, BitVec.toInt_sub, BitVec.toInt_ofInt]

theorem mul_eq_ofInt {w : Nat} (a b : BitVec w) : a * b = BitVec.ofInt w (a.toInt * b.toInt) := by
  rw [BitVec.ofInt_mul, BitVec.ofInt_toInt, BitVec.ofInt_toInt]

theorem shiftL_eq {w : Nat} (a : BitVec w) (n : Nat) :
    shiftL a n = if n < w then BitVec.ofNat w (a.toNat * 2 ^ n) else 0 := by
  unfold shiftL
  congr 1
  apply BitVec.eq_of_toNat_eq
  rw [BitVec.toNat_shiftLeft, BitVec.toNat_ofNat, Nat.shiftLeft_eq]

/-- An arithmetic shift divides the signed value, rounding down. -/
theorem sshiftRight_eq_ofInt {w : Nat} (a : BitVec w) (n : Nat) : a.sshiftRight n = BitVec.ofInt w (a.toInt / 2 ^ n) := by
  rw [BitVec.sshiftRight, Int.shiftRight_eq_div_pow]
  norm_cast

/-- A logical shift divides the unsigned value, rounding down. -/
theorem ushiftRight_eq_ofInt {w : Nat} (a : BitVec w) (n : Nat) :
    a >>> n = BitVec.ofInt w ((a.toNat : Int) / 2 ^ n) := by
  have hcast : (a.toNat : Int) / 2 ^ n = ((a.toNat / 2 ^ n : Nat) : Int) := by push_cast; rfl
  rw [hcast, BitVec.ofInt_natCast]
  apply BitVec.eq_of_toNat_eq
  rw [BitVec.toNat_ushiftRight, Nat.shiftRight_eq_div_pow, BitVec.toNat_ofNat,
    Nat.mod_eq_of_lt (lt_of_le_of_lt (Nat.div_le_self _ _) a.isLt)]

/-- A shift by the whole width leaves copies of the sign. -/
theorem sshiftRight_width {w : Nat} (a : BitVec w) : a.sshiftRight w = if a.toInt < 0 then BitVec.ofInt w (-1) else 0 := by
  have hlo : -2 ^ w ≤ 2 * a.toInt := BitVec.le_two_mul_toInt
  have hhi : 2 * a.toInt < 2 ^ w := BitVec.two_mul_toInt_lt
  rw [sshiftRight_eq_ofInt]
  by_cases hneg : a.toInt < 0
  · have hdiv : a.toInt / 2 ^ w = -1 := Int.ediv_eq_neg_one_of_neg_of_le hneg (by omega)
    rw [if_pos hneg, hdiv]
  · have hdiv : a.toInt / 2 ^ w = 0 := Int.ediv_eq_zero_of_lt (by omega) (by omega)
    rw [if_neg hneg, hdiv, BitVec.ofInt_ofNat]
    rfl

theorem shiftR_eq {w : Nat} (uns : Bool) (a : BitVec w) (n : Nat) :
    shiftR uns a n = if w ≤ n then (if !uns && a.toInt < 0 then BitVec.ofInt w (-1) else 0)
      else BitVec.ofInt w (viewInt uns a / 2 ^ n) := by
  by_cases hn : w ≤ n
  · have hlt : ¬ n < w := by omega
    cases uns with
    | true => simp [shiftR, hn, hlt]
    | false => simp [shiftR, hn, sshiftRight_width]
  · have hlt : n < w := by omega
    cases uns with
    | true => simp [shiftR, viewInt, hn, hlt, ushiftRight_eq_ofInt]
    | false => simp [shiftR, viewInt, hn, Nat.min_eq_left hlt.le, sshiftRight_eq_ofInt]

theorem minMax_min {w : Nat} (uns : Bool) (a b : BitVec w) :
    minMax uns false a b = BitVec.ofInt w (min (viewInt uns a) (viewInt uns b)) := by
  by_cases h : viewInt uns a ≤ viewInt uns b
  · simp [minMax, h]
  · simp [minMax, h, min_eq_right (le_of_not_ge h)]

theorem minMax_max {w : Nat} (uns : Bool) (a b : BitVec w) :
    minMax uns true a b = BitVec.ofInt w (max (viewInt uns a) (viewInt uns b)) := by
  by_cases h : viewInt uns a ≤ viewInt uns b
  · simp [minMax, h]
  · simp [minMax, h, max_eq_left (le_of_not_ge h)]

theorem remT_eq (uns : Bool) (a b : Word) :
    remT uns a b = if b = 0 then a
      else BitVec.ofInt 32 (viewInt uns a - viewInt uns b * (viewInt uns a).tdiv (viewInt uns b)) := by
  rw [remT, Int.tmod_def, wrapInt]

/-! ### R104: the table and the decoder -/

/-- The statement of R104 for one row of its table. -/
def WritesTableValue (p : (Fields → Instr) × (Fields → Row) × (Fields → Word → Word → Word)) : Prop :=
  ∀ (f : Fields) (s : State) (g : Group), Ready (p.1 f) s g → ScalarDst f.d →
    ∃ t, exec (p.1 f) s = .next t ∧
      ScalarWrite s t g f.d (p.2.2 f (s.opA g (p.2.1 f) f 0) (s.opB g (p.2.1 f) f 0)) (nextPc g f)

/-- A row holds when its instruction is `scalar2` of an operation that computes the row's value. -/
theorem writesTableValue_of_scalar2 {c : Fields → Instr} {row : Fields → Row} {val op : Fields → Word → Word → Word}
    (hrow : ∀ f, (c f).row = some (f, row f)) (hexec : ∀ f s, exec (c f) s = scalar2 (row f) (op f) f s)
    (hval : ∀ f a b, op f a b = val f a b) : WritesTableValue (c, row, val) := by
  intro f s g h hd
  simp only [hexec, ← hval]
  exact scalar2_writes h (hrow f) hd (op f)

theorem scalarTable_writesTableValue : ∀ p ∈ scalarTable, WritesTableValue p := by
  simp only [scalarTable, List.forall_mem_cons, List.not_mem_nil, false_imp_iff, implies_true, and_true, view_eq_viewInt]
  refine ⟨?sadd, ?ssub, ?smul, ?smulh, ?sand, ?sor, ?sxor, ?sshl, ?sshr, ?smin, ?smax, ?sdiv, ?srem⟩
  case sadd => exact writesTableValue_of_scalar2 (fun _ => rfl) (fun _ _ => rfl) fun _ => add_eq_ofInt
  case ssub => exact writesTableValue_of_scalar2 (fun _ => rfl) (fun _ _ => rfl) fun _ => sub_eq_ofInt
  case smul => exact writesTableValue_of_scalar2 (fun _ => rfl) (fun _ _ => rfl) fun _ => mul_eq_ofInt
  case smulh => exact writesTableValue_of_scalar2 (fun _ => rfl) (fun _ _ => rfl) fun _ _ _ => rfl
  case sand => exact writesTableValue_of_scalar2 (fun _ => rfl) (fun _ _ => rfl) fun _ _ _ => rfl
  case sor => exact writesTableValue_of_scalar2 (fun _ => rfl) (fun _ _ => rfl) fun _ _ _ => rfl
  case sxor => exact writesTableValue_of_scalar2 (fun _ => rfl) (fun _ _ => rfl) fun _ _ _ => rfl
  case sshl =>
    exact writesTableValue_of_scalar2 (op := fun _ a b => shiftL a b.toNat) (fun _ => rfl) (fun _ _ => rfl)
      fun _ a b => shiftL_eq a b.toNat
  case sshr =>
    exact writesTableValue_of_scalar2 (op := fun f a b => shiftR (f.m 1) a b.toNat) (fun _ => rfl) (fun _ _ => rfl)
      fun f a b => shiftR_eq (f.m 1) a b.toNat
  case smin => exact writesTableValue_of_scalar2 (fun _ => rfl) (fun _ _ => rfl) fun f => minMax_min (f.m 1)
  case smax => exact writesTableValue_of_scalar2 (fun _ => rfl) (fun _ _ => rfl) fun f => minMax_max (f.m 1)
  case sdiv => exact writesTableValue_of_scalar2 (fun _ => rfl) (fun _ _ => rfl) fun _ _ _ => rfl
  case srem => exact writesTableValue_of_scalar2 (fun _ => rfl) (fun _ _ => rfl) fun f => remT_eq (f.m 1)

theorem mem_of_lowest_eq {l : List (Nat × Nat)} {p : Nat × Nat} (h : lowest l = some p) : p ∈ l := by
  induction l generalizing p with
  | nil => simp [lowest] at h
  | cons q l ih =>
    obtain ⟨r, c⟩ := q
    cases hl : lowest l with
    | none => simp_all [lowest]
    | some q' =>
      simp only [lowest, hl] at h
      split at h
      · simp_all
      · exact List.mem_cons_of_mem _ (ih (hl.trans h))

/-- The violation reported is one of the list that no other comes before (spec 02, R57). -/
theorem lowest_eq_of_least {l : List (Nat × Nat)} {p : Nat × Nat} (hp : p ∈ l)
    (hleast : ∀ q ∈ l, p.1 < q.1 ∨ q = p) : lowest l = some p := by
  induction l with
  | nil => simp at hp
  | cons q l ih =>
    have hq := hleast q List.mem_cons_self
    have htail : ∀ q ∈ l, p.1 < q.1 ∨ q = p := fun q hq => hleast q (List.mem_cons_of_mem _ hq)
    by_cases hmem : p ∈ l
    · have hl := ih hmem htail
      rcases hq with hlt | rfl
      · simp [lowest, hl, Nat.not_lt.mpr hlt.le, hlt.ne']
      · simp [lowest, hl]
    · have hpq : p = q := (List.mem_cons.mp hp).resolve_right hmem
      subst hpq
      cases hl : lowest l with
      | none => simp [lowest, hl]
      | some q' =>
        rcases htail q' (mem_of_lowest_eq hl) with hlt | rfl
        · simp [lowest, hl, hlt]
        · exact absurd (mem_of_lowest_eq hl) hmem

/-- An operand field's violations have reasons 7 to 14. -/
theorem reason_of_mem_fieldViolations {code x n : Nat} {k : Kind} {w replaced run sysrd : Bool} {role : Role} {q : Nat × Nat}
    (hq : q ∈ fieldViolations code k x w replaced role n run sysrd) : 7 ≤ q.1 := by
  cases replaced with
  | true =>
    simp only [fieldViolations, if_true, List.mem_append, List.mem_ite_nil_right, List.mem_singleton] at hq
    rcases hq with ⟨-, rfl⟩ | ⟨-, rfl⟩
    · simp
    · simp
  | false =>
    simp only [fieldViolations, Bool.false_eq_true, if_false, List.mem_append, List.mem_ite_nil_right,
      List.mem_singleton] at hq
    rcases hq with (⟨-, rfl⟩ | ⟨-, rfl⟩) | hkind
    · simp
    · simp
    · cases k with
      | no | U8 => simp at hkind
      | V | S | SP | SQ | GN => grind

/-- In a length that its cell has, an instruction violates nothing before reason 5 with the field code of MOD. -/
theorem reason_of_mem_violations {r : Row} {f : Fields} (hlen : f.len ∈ r.lens) {q : Nat × Nat} (hq : q ∈ violations r f) :
    5 < q.1 ∨ q = (5, 8) := by
  have hfield : ∀ {code x n : Nat} {k : Kind} {w replaced run sysrd : Bool} {role : Role},
      q ∈ fieldViolations code k x w replaced role n run sysrd → 5 < q.1 :=
    fun h => lt_of_lt_of_le (by decide) (reason_of_mem_fieldViolations h)
  have hcontains : r.lens.contains f.len = true := List.contains_iff_mem.mpr hlen
  simp only [violations, hcontains, if_true, List.mem_append, List.mem_ite_nil_right, List.mem_singleton,
    List.not_mem_nil, false_or] at hq
  rcases hq with (((((((((((hmod | hxmod) | hbad5) | hslot) | hneg) | hD) | hA) | hB) | hC) | hEH) | himm) | h13) | h14
  · exact .inr hmod.2
  · exact .inr hxmod.2
  · exact .inr hbad5.2
  · simp [hslot.2]
  · simp [hneg.2]
  · exact .inl (hfield hD)
  · exact .inl (hfield hA)
  · exact .inl (hfield hB)
  · exact .inl (hfield hC)
  · exact .inl (hEH.2.elim hfield hfield)
  · simp [himm.2]
  · simp [h13.2]
  · simp [h14.2]

/-- A MOD bit outside the cell's MOD rules violates reason 5 with the field code of MOD. -/
theorem mem_violations_of_mod {r : Row} {f : Fields} (hmod : (f.mod.toNat * 2) &&& (1023 - r.mods) ≠ 0) :
    (5, 8) ∈ violations r f := by
  simp [violations, hmod]

/-- Decoding refuses a MOD bit outside its cell's MOD rules, in a length that the cell has (spec 02, R57). -/
theorem decode_mod_reserved {c : Fields → Instr} {row : Fields → Row} {w : Nat} {len : Len} (hlen : lenOf w = some len)
    (hcell : findCell cellTable (bitsOf w 2 8) (bitsOf w 10 6) = some c) (hrow : ∀ f, (c f).row = some (f, row f))
    (hlens : ∀ f, len ∈ (row f).lens) (hmod : ∀ f, (bitsOf w 55 9 * 2) &&& (1023 - (row f).mods) ≠ 0) :
    decode w = .error (.illop 5 8) := by
  have hviol : ∀ ext, (c (fieldsOf len ext w)).violation = some (5, 8) := by
    intro ext
    have hnat : (fieldsOf len ext w).mod.toNat = bitsOf w 55 9 := by
      simp [fieldsOf, bitsOf]
    simp only [Instr.violation, hrow]
    exact lowest_eq_of_least (mem_violations_of_mod (hnat ▸ hmod _)) fun q => reason_of_mem_violations (hlens _)
  simp only [decode, hlen, hcell, hviol]

/-- R104: decoding refuses UNS 1 in a two-operand scalar cell whose UNS must be 0. -/
theorem decode_uns_reserved {c : Fields → Instr} {row : Fields → Row} {w fn : Nat} (hlen : w % 4 < 2) (hopc : w / 4 % 256 = 0x10)
    (hfn : w / 1024 % 64 = fn) (huns : w / 2 ^ 55 % 2 = 1) (hcell : findCell cellTable 0x10 fn = some c)
    (hrow : ∀ f, (c f).row = some (f, row f)) (hlens : ∀ f, (row f).lens = [.w64, .w96]) (hmods : ∀ f, (row f).mods = 0) :
    decode w = .error (.illop 5 8) := by
  have hcell' : findCell cellTable (bitsOf w 2 8) (bitsOf w 10 6) = some c := by
    rw [show bitsOf w 2 8 = 0x10 from hopc, show bitsOf w 10 6 = fn from hfn, hcell]
  have hmod : ∀ f, (bitsOf w 55 9 * 2) &&& (1023 - (row f).mods) ≠ 0 := by
    intro f
    rw [hmods, show 1023 - 0 = 2 ^ 10 - 1 from rfl, Nat.and_two_pow_sub_one_eq_mod, bitsOf]
    omega
  obtain h0 | h1 : w % 4 = 0 ∨ w % 4 = 1 := by omega
  · exact decode_mod_reserved (len := .w64) (by simp [lenOf, h0]) hcell' hrow (fun f => by simp [hlens]) hmod
  · exact decode_mod_reserved (len := .w96) (by simp [lenOf, h1]) hcell' hrow (fun f => by simp [hlens]) hmod

/-- Settles O1: each row of the table by its operation's value, and the seven cells whose UNS must be 0 at the decoder. -/
theorem scalarArithmetic : Obligations.ScalarArithmetic := by
  refine ⟨scalarTable_writesTableValue, fun w hlen hopc hfn huns => ?_⟩
  simp only [List.mem_cons, List.not_mem_nil, or_false] at hfn
  rcases hfn with sadd | ssub | smul | sand | sor | sxor | sshl
  · exact decode_uns_reserved hlen hopc sadd huns rfl (fun _ => rfl) (fun _ => rfl) fun _ => rfl
  · exact decode_uns_reserved hlen hopc ssub huns rfl (fun _ => rfl) (fun _ => rfl) fun _ => rfl
  · exact decode_uns_reserved hlen hopc smul huns rfl (fun _ => rfl) (fun _ => rfl) fun _ => rfl
  · exact decode_uns_reserved hlen hopc sand huns rfl (fun _ => rfl) (fun _ => rfl) fun _ => rfl
  · exact decode_uns_reserved hlen hopc sor huns rfl (fun _ => rfl) (fun _ => rfl) fun _ => rfl
  · exact decode_uns_reserved hlen hopc sxor huns rfl (fun _ => rfl) (fun _ => rfl) fun _ => rfl
  · exact decode_uns_reserved hlen hopc sshl huns rfl (fun _ => rfl) (fun _ => rfl) fun _ => rfl

/-! ### R113: the uniform branches -/

theorem mem_laneList {L : Nat} : L ∈ laneList ↔ L < 32 := by
  rw [show laneList = List.range 32 from rfl, List.mem_range]

theorem mem_lanesOf {w : Word} {L : Nat} : L ∈ lanesOf w ↔ L < 32 ∧ w.getLsbD L = true := by
  rw [lanesOf, List.mem_filter, mem_laneList]

theorem homeWrites_setGroup (s : State) (gid : Nat) (g' : Group) : HomeWrites s (s.setGroup gid g') where
  rest := rfl
  own := rfl
  nodes _ := rfl
  waits _ := rfl
  counts := rfl
  dram := rfl

/-- A stack left as it is spills nothing. -/
theorem spilled_setGroup_same_stack (s : State) (gid : Nat) (g g' : Group) : Spilled s (s.setGroup gid g') g g.ctl.stack where
  shallow _ := rfl
  quiet _ _ := rfl
  outside _ _ _ _ _ := rfl
  entries _ _ _ _ _ _ _ _ := by omega

/-- A new PC alone leaves EXM, registers, stack and memory as they are. -/
theorem controlWrite_goto (s : State) (g : Group) (pc : Dword) :
    ControlWrite s (s.setGroup s.own.cur (g.goto pc)) g pc g.ctl.exm g.ctl.stack :=
  ⟨g.goto pc, State.group_setGroup .., fun _ hj => State.group_setGroup_other s _ hj, homeWrites_setGroup .., spilled_setGroup_same_stack ..,
    over_goto_self g pc, rfl, rfl, rfl⟩

/-- The statement of R113 for one row of its table. -/
def BranchesOn (p : (Fields → Instr) × (Fields → State → Group → Prop)) : Prop :=
  ∀ (f : Fields) (s : State) (g : Group), Ready (p.1 f) s g → (branchTarget g f).toNat % 4 = 0 →
    ∃ t, exec (p.1 f) s = .next t ∧
      (p.2 f s g → ControlWrite s t g (branchTarget g f) g.ctl.exm g.ctl.stack) ∧
      (¬ p.2 f s g → ControlWrite s t g (nextPc g f) g.ctl.exm g.ctl.stack)

/-- A branch to an aligned target only changes the PC (spec 05, R111, R113). -/
theorem branch_eq {f : Fields} {s : State} {g : Group} (hg : s.group s.own.cur = some g)
    (halign : (branchTarget g f).toNat % 4 = 0) (c : Bool) :
    branch f s s.own.cur g c = .next (s.setGroup s.own.cur (g.goto (if c then branchTarget g f else nextPc g f))) := by
  have halign' : ¬ (target g f).toNat % 4 ≠ 0 := not_not.mpr halign
  rw [branch, aligned, if_neg halign']
  cases c with
  | true => rw [if_pos rfl, if_pos rfl, State.jump_eq hg]; rfl
  | false => rw [if_neg Bool.false_ne_true, if_neg Bool.false_ne_true, State.advance_eq hg]; rfl

/-- A row holds when its instruction is `branch` on a flag that decides the row's condition. -/
theorem branchesOn_of_branch {c : Fields → Instr} {row : Fields → Row} {cond : Fields → State → Group → Prop}
    {flag : Fields → State → Group → Bool} (hrow : ∀ f, (c f).row = some (f, row f))
    (hexec : ∀ f s, exec (c f) s = issue (row f) f s fun gid g => branch f s gid g (flag f s g))
    (hflag : ∀ f s g, flag f s g = true ↔ cond f s g) : BranchesOn (c, cond) := by
  intro f s g h halign
  refine ⟨_, by rw [hexec, issue_of_ready h (hrow f), branch_eq h.1 halign], fun hc => ?_, fun hc => ?_⟩
  · rw [if_pos ((hflag f s g).mpr hc)]
    exact controlWrite_goto s g _
  · rw [if_neg (fun ht => hc ((hflag f s g).mp ht))]
    exact controlWrite_goto s g _

theorem branchTable_branchesOn : ∀ p ∈ branchTable, BranchesOn p := by
  simp only [branchTable, List.forall_mem_cons, List.not_mem_nil, false_imp_iff, implies_true, and_true]
  refine ⟨?br, ?bz, ?bnz, ?bmz, ?bmnz, ?bvany, ?bvall⟩
  case br => exact branchesOn_of_branch (fun _ => rfl) (fun _ _ => rfl) fun _ _ _ => iff_of_true rfl trivial
  case bz => exact branchesOn_of_branch (fun _ => rfl) (fun _ _ => rfl) fun _ _ _ => decide_eq_true_iff
  case bnz => exact branchesOn_of_branch (fun _ => rfl) (fun _ _ => rfl) fun _ _ _ => decide_eq_true_iff
  case bmz => exact branchesOn_of_branch (fun _ => rfl) (fun _ _ => rfl) fun _ _ _ => decide_eq_true_iff
  case bmnz => exact branchesOn_of_branch (fun _ => rfl) (fun _ _ => rfl) fun _ _ _ => decide_eq_true_iff
  case bvany =>
    refine branchesOn_of_branch (fun _ => rfl) (fun _ _ => rfl) fun f s g => ?_
    simp only [List.any_eq_true, mem_lanesOf, decide_eq_true_iff, and_assoc]
  case bvall =>
    refine branchesOn_of_branch (fun _ => rfl) (fun _ _ => rfl) fun f s g => ?_
    simp only [List.all_eq_true, mem_lanesOf, decide_eq_true_iff, and_imp]

/-- Settles O4: every row of the branch table goes to the target exactly when its flag, which decides its condition, is set. -/
theorem uniformBranches : Obligations.UniformBranches := branchTable_branchesOn

end Sys2Proof.Proofs
end

section
/-! Decoding and encoding (spec 02, R40 to R57; spec 03): the fields and the bits of a word determine each other, cell by cell. -/

namespace Sys2Proof.Proofs

open Sys2Proof Sys2Proof.Machine Sys2Proof.Claims

/-! ### The bits of a word and its fields -/

/-- LEN of a length (spec 02, R40). -/
def lenCode : Len → Nat
  | .w64 => 0
  | .w96 => 1
  | .w128 => 2

/-- The bits of a length. -/
def lenBits : Len → Nat
  | .w64 => 64
  | .w96 => 96
  | .w128 => 128

theorem lenCode_lt (l : Len) : lenCode l < 3 := by cases l <;> decide

theorem lenOf_of_mod {w : Nat} {l : Len} (h : w % 4 = lenCode l) : lenOf w = some l := by
  cases l <;> simp [lenOf, h, lenCode]

theorem mod_of_lenOf {w : Nat} {l : Len} (h : lenOf w = some l) : w % 4 = lenCode l := by
  have hlt : w % 4 < 4 := Nat.mod_lt _ (by decide)
  unfold lenOf at h
  split at h <;> simp_all [lenCode] <;> (subst h; rfl)

/-- The base word of a cell as the sum of its fields at their places (spec 02, R46). -/
theorem encodeBase_eq (opc fn : Nat) (f : Fields) :
    encodeBase opc fn f = lenCode f.len + 4 * opc + 1024 * fn + 65536 * f.d.toNat + 2 ^ 24 * f.a.toNat + 2 ^ 32 * f.b.toNat +
      2 ^ 40 * f.c.toNat + 2 ^ 48 * f.wa.toNat + 2 ^ 49 * f.wb.toNat + 2 ^ 50 * f.wc.toNat + 2 ^ 51 * f.gs.toNat +
      2 ^ 54 * f.land.toNat + 2 ^ 55 * f.mod.toNat := rfl

theorem toNat_lt_two (b : Bool) : b.toNat < 2 := b.toNat_lt

theorem ofNat_toNat_eq {w n : Nat} {x : BitVec w} (h : n = x.toNat) : BitVec.ofNat w n = x := by
  rw [h, BitVec.ofNat_toNat, BitVec.setWidth_eq]

theorem bitOf_eq {w lo : Nat} {b : Bool} (h : w / 2 ^ lo % 2 = b.toNat) : bitOf w lo = b := by
  cases b <;> simp [bitOf, h]

theorem toNat_bitOf (w lo : Nat) : (bitOf w lo).toNat = w / 2 ^ lo % 2 := by
  have hlt : w / 2 ^ lo % 2 < 2 := Nat.mod_lt _ (by decide)
  obtain h | h : w / 2 ^ lo % 2 = 0 ∨ w / 2 ^ lo % 2 = 1 := by omega
  · simp [bitOf, h]
  · simp [bitOf, h]

theorem toNat_ofNat_bitsOf (w lo n : Nat) : (BitVec.ofNat n (bitsOf w lo n)).toNat = bitsOf w lo n := by
  rw [BitVec.toNat_ofNat, bitsOf, Nat.mod_mod]

theorem toNat_ofNat_bitsOf_64 (w lo : Nat) {n : Nat} (h : n ≤ 64) : (BitVec.ofNat 64 (bitsOf w lo n)).toNat = bitsOf w lo n := by
  have hlt : bitsOf w lo n < 2 ^ n := Nat.mod_lt _ (by positivity)
  rw [BitVec.toNat_ofNat, Nat.mod_eq_of_lt (lt_of_lt_of_le hlt (Nat.pow_le_pow_right (by decide) h))]

/-- What the extension set and the immediate leave zero where a length, with or without the set, does not hold them (spec 02, R49). -/
def HeldIn (ext : Bool) (f : Fields) : Prop :=
  (ext = false → f.e = 0 ∧ f.h = 0 ∧ f.we = false ∧ f.wh = false ∧ f.rsv = false ∧ f.xmod = 0) ∧
  (ext = true → f.len = .w128) ∧
  (match f.len with
    | .w64 => f.imm = 0
    | .w96 => f.imm.toNat < 2 ^ 32
    | .w128 => ext = true → f.imm.toNat < 2 ^ 32)

/-- The word of a cell with its fields, followed by any bits. -/
def wordWith (ext : Bool) (opc fn : Nat) (f : Fields) (x : Nat) : Nat :=
  encodeBase opc fn f + 2 ^ 64 * encodeTail ext f + 2 ^ lenBits f.len * x

section Word

variable {opc fn : Nat} (hopc : opc < 256) (hfn : fn < 64)
include hopc hfn

/-- The base word is the remainder by 2^64 of all that follows it. -/
theorem wordWith_eq (ext : Bool) (f : Fields) (x : Nat) :
    encodeBase opc fn f < 2 ^ 64 ∧ ∃ y, wordWith ext opc fn f x = encodeBase opc fn f + 2 ^ 64 * y := by
  constructor
  · have hl := lenCode_lt f.len
    have hd := f.d.isLt
    have ha := f.a.isLt
    have hb := f.b.isLt
    have hc := f.c.isLt
    have hwa := f.wa.toNat_lt
    have hwb := f.wb.toNat_lt
    have hwc := f.wc.toNat_lt
    have hgs := f.gs.isLt
    have hland := f.land.toNat_lt
    have hmod := f.mod.isLt
    rw [encodeBase_eq]
    omega
  · cases h : f.len with
    | w64 => exact ⟨encodeTail ext f + x, by rw [wordWith, h, lenBits]; ring⟩
    | w96 => exact ⟨encodeTail ext f + 2 ^ 32 * x, by rw [wordWith, h, lenBits]; ring⟩
    | w128 => exact ⟨encodeTail ext f + 2 ^ 64 * x, by rw [wordWith, h, lenBits]; ring⟩

theorem lenOf_wordWith (ext : Bool) (f : Fields) (x : Nat) : lenOf (wordWith ext opc fn f x) = some f.len := by
  obtain ⟨-, y, hy⟩ := wordWith_eq hopc hfn ext f x
  have hl := lenCode_lt f.len
  exact lenOf_of_mod (by rw [hy, encodeBase_eq]; omega)

theorem opc_wordWith (ext : Bool) (f : Fields) (x : Nat) : bitsOf (wordWith ext opc fn f x) 2 8 = opc := by
  obtain ⟨-, y, hy⟩ := wordWith_eq hopc hfn ext f x
  have hl := lenCode_lt f.len
  rw [hy, encodeBase_eq, bitsOf]
  omega

theorem fn_wordWith (ext : Bool) (f : Fields) (x : Nat) : bitsOf (wordWith ext opc fn f x) 10 6 = fn := by
  obtain ⟨-, y, hy⟩ := wordWith_eq hopc hfn ext f x
  have hl := lenCode_lt f.len
  rw [hy, encodeBase_eq, bitsOf]
  omega

/-- The bits after the base word hold the extension set and the immediate of the length (spec 02, R40, R49). -/
theorem tail_wordWith (ext : Bool) (f : Fields) (x : Nat) :
    wordWith ext opc fn f x / 2 ^ 64 % 2 ^ (lenBits f.len - 64) = encodeTail ext f % 2 ^ (lenBits f.len - 64) := by
  have hlt := (wordWith_eq hopc hfn ext f x).1
  unfold wordWith
  cases f.len with
  | w64 => simp [lenBits, Nat.mod_one]
  | w96 => simp only [lenBits]; omega
  | w128 => simp only [lenBits]; omega

/-- The fields of the base word stand in their bits (spec 02, R46). -/
theorem base_fieldsOf_wordWith (ext : Bool) (f : Fields) (x : Nat) :
    { fieldsOf f.len ext (wordWith ext opc fn f x) with
      e := f.e, h := f.h, we := f.we, wh := f.wh, rsv := f.rsv, xmod := f.xmod, imm := f.imm } = f := by
  obtain ⟨-, y, hy⟩ := wordWith_eq hopc hfn ext f x
  have hl := lenCode_lt f.len
  have hd := f.d.isLt
  have ha := f.a.isLt
  have hb := f.b.isLt
  have hc := f.c.isLt
  have hwa := f.wa.toNat_lt
  have hwb := f.wb.toNat_lt
  have hwc := f.wc.toNat_lt
  have hgs := f.gs.isLt
  have hland := f.land.toNat_lt
  have hmod := f.mod.isLt
  rw [encodeBase_eq] at hy
  have hand : bitOf (wordWith ext opc fn f x) 54 = f.land := bitOf_eq (by omega)
  have hmod' : BitVec.ofNat 9 (bitsOf (wordWith ext opc fn f x) 55 9) = f.mod := ofNat_toNat_eq (by unfold bitsOf; omega)
  have hgs' : BitVec.ofNat 3 (bitsOf (wordWith ext opc fn f x) 51 3) = f.gs := ofNat_toNat_eq (by unfold bitsOf; omega)
  have hwa' : bitOf (wordWith ext opc fn f x) 48 = f.wa := bitOf_eq (by omega)
  have hwb' : bitOf (wordWith ext opc fn f x) 49 = f.wb := bitOf_eq (by omega)
  have hwc' : bitOf (wordWith ext opc fn f x) 50 = f.wc := bitOf_eq (by omega)
  have hd' : BitVec.ofNat 8 (bitsOf (wordWith ext opc fn f x) 16 8) = f.d := ofNat_toNat_eq (by unfold bitsOf; omega)
  have ha' : BitVec.ofNat 8 (bitsOf (wordWith ext opc fn f x) 24 8) = f.a := ofNat_toNat_eq (by unfold bitsOf; omega)
  have hb' : BitVec.ofNat 8 (bitsOf (wordWith ext opc fn f x) 32 8) = f.b := ofNat_toNat_eq (by unfold bitsOf; omega)
  have hc' : BitVec.ofNat 8 (bitsOf (wordWith ext opc fn f x) 40 8) = f.c := ofNat_toNat_eq (by unfold bitsOf; omega)
  simp only [fieldsOf, hand, hmod', hgs', hwa', hwb', hwc', hd', ha', hb', hc']

/-- The bits after the base word give the extension set and the immediate that a length holds (spec 02, R40, R49). -/
theorem tail_fieldsOf_wordWith {ext : Bool} {f : Fields} (h : HeldIn ext f) (x : Nat) :
    { f with
      e := (fieldsOf f.len ext (wordWith ext opc fn f x)).e, h := (fieldsOf f.len ext (wordWith ext opc fn f x)).h
      we := (fieldsOf f.len ext (wordWith ext opc fn f x)).we, wh := (fieldsOf f.len ext (wordWith ext opc fn f x)).wh
      rsv := (fieldsOf f.len ext (wordWith ext opc fn f x)).rsv, xmod := (fieldsOf f.len ext (wordWith ext opc fn f x)).xmod
      imm := (fieldsOf f.len ext (wordWith ext opc fn f x)).imm } = f := by
  have htail := tail_wordWith hopc hfn ext f x
  obtain ⟨hnone, hlen, himm⟩ := h
  generalize wordWith ext opc fn f x = w at htail
  cases ext with
  | false =>
    obtain ⟨he, hh, hwe, hwh, hrsv, hxmod⟩ := hnone rfl
    obtain ⟨len, land, mod, gs, wa, wb, wc, d, a, b, c, e, h, we, wh, rsv, xmod, imm⟩ := f
    subst he hh hwe hwh hrsv hxmod
    cases len with
    | w64 =>
      subst himm
      rfl
    | w96 =>
      have hbits : BitVec.ofNat 64 (bitsOf w 64 32) = imm := ofNat_toNat_eq (by
        simp only [lenBits, encodeTail] at htail himm
        unfold bitsOf
        omega)
      simp [fieldsOf, hbits]
    | w128 =>
      have hbits : BitVec.ofNat 64 (bitsOf w 64 64) = imm := ofNat_toNat_eq (by
        have hlt := imm.isLt
        simp only [lenBits, encodeTail, Bool.false_eq_true, if_false] at htail
        unfold bitsOf
        omega)
      simp [fieldsOf, hbits]
  | true =>
    have hlen' := hlen rfl
    rw [hlen'] at himm
    have himm' := himm rfl
    have he := f.e.isLt
    have hh := f.h.isLt
    have hwe := f.we.toNat_lt
    have hwh := f.wh.toNat_lt
    have hrsv := f.rsv.toNat_lt
    have hxmod := f.xmod.isLt
    simp only [hlen', lenBits, encodeTail, if_true] at htail
    have he' : BitVec.ofNat 8 (bitsOf w 64 8) = f.e := ofNat_toNat_eq (by unfold bitsOf; omega)
    have hh' : BitVec.ofNat 8 (bitsOf w 72 8) = f.h := ofNat_toNat_eq (by unfold bitsOf; omega)
    have hwe' : bitOf w 80 = f.we := bitOf_eq (by omega)
    have hwh' : bitOf w 81 = f.wh := bitOf_eq (by omega)
    have hrsv' : bitOf w 82 = f.rsv := bitOf_eq (by omega)
    have hxmod' : BitVec.ofNat 13 (bitsOf w 83 13) = f.xmod := ofNat_toNat_eq (by unfold bitsOf; omega)
    have himm'' : BitVec.ofNat 64 (bitsOf w 96 32) = f.imm := ofNat_toNat_eq (by unfold bitsOf; omega)
    simp [fieldsOf, hlen', he', hh', hwe', hwh', hrsv', hxmod', himm'']
    rw [← hlen']

theorem fieldsOf_wordWith {ext : Bool} {f : Fields} (h : HeldIn ext f) (x : Nat) :
    fieldsOf f.len ext (wordWith ext opc fn f x) = f := by
  have hbase := base_fieldsOf_wordWith hopc hfn ext f x
  have htail := tail_fieldsOf_wordWith hopc hfn h x
  generalize fieldsOf f.len ext (wordWith ext opc fn f x) = f' at hbase htail
  cases f
  cases f'
  simp_all

end Word

/-! ### Every word is made of its fields -/

/-- What follows the base word, of the fields that a word is read as. -/
theorem encodeTail_fieldsOf {w : Nat} {l : Len} (ext : Bool) (hext : ext = true → l = .w128) :
    encodeTail ext (fieldsOf l ext w) = w / 2 ^ 64 % 2 ^ (lenBits l - 64) := by
  cases l with
  | w64 => simp [encodeTail, fieldsOf, lenBits, Nat.mod_one]
  | w96 =>
    simp only [encodeTail, fieldsOf, lenBits, toNat_ofNat_bitsOf_64 w 64 (show 32 ≤ 64 by decide)]
    simp [bitsOf]
  | w128 =>
    cases ext with
    | false =>
      simp only [encodeTail, fieldsOf, lenBits, Bool.false_eq_true, if_false, toNat_ofNat_bitsOf_64 w 64 (le_refl 64)]
      rfl
    | true =>
      simp only [encodeTail, fieldsOf, lenBits, if_true, Bool.true_and, toNat_ofNat_bitsOf, toNat_bitOf,
        toNat_ofNat_bitsOf_64 w 96 (show 32 ≤ 64 by decide)]
      unfold bitsOf
      omega

theorem encodeBase_fieldsOf {w : Nat} {l : Len} (hl : lenOf w = some l) (ext : Bool) :
    encodeBase (bitsOf w 2 8) (bitsOf w 10 6) (fieldsOf l ext w) = w % 2 ^ 64 := by
  have hlen : lenCode (fieldsOf l ext w).len = w % 4 := (mod_of_lenOf hl).symm
  rw [encodeBase_eq, hlen]
  simp only [fieldsOf, toNat_ofNat_bitsOf, toNat_bitOf]
  unfold bitsOf
  omega

/-- The word of a cell with the fields that a word is read as is the word, within its length. -/
theorem encode_fieldsOf {w : Nat} {l : Len} (hl : lenOf w = some l) {ext : Bool} (hext : ext = true → l = .w128) :
    encodeBase (bitsOf w 2 8) (bitsOf w 10 6) (fieldsOf l ext w) + 2 ^ 64 * encodeTail ext (fieldsOf l ext w) = w % 2 ^ lenBits l := by
  rw [encodeBase_fieldsOf hl, encodeTail_fieldsOf ext hext]
  cases l with
  | w64 => simp [lenBits, Nat.mod_one]
  | w96 => simp only [lenBits]; omega
  | w128 => simp only [lenBits]; omega

/-! ### The cells of the opcode map -/

/-- Whether a cell with a 128-bit form has it without the extension set exactly where it stands at OPC 0x13 (spec 02, R49). -/
def extAgrees (opc : Nat) (r : Row) : Bool :=
  !r.lens.contains .w128 || decide (opc = 0x13) == decide (r.rep = .a64)

/-- What the row of a cell says of the cell's place in the map (spec 03, R58). -/
def CellRow (opc fn : Nat) (c : Fields → Instr) : Prop :=
  ∀ f, ∃ r, (c f).row = some (f, r) ∧ r.opc = opc ∧ r.fn = fn ∧ extAgrees opc r = true

theorem findCell_mem {t : List (Nat × Nat × (Fields → Instr))} {opc fn : Nat} {c : Fields → Instr}
    (h : findCell t opc fn = some c) : (opc, fn, c) ∈ t := by
  induction t with
  | nil => simp [findCell] at h
  | cons p t ih =>
    obtain ⟨o, n, c'⟩ := p
    by_cases hp : (decide (o = opc) && decide (n = fn)) = true
    · rw [findCell, if_pos hp] at h
      simp_all
    · rw [findCell, if_neg hp] at h
      exact List.mem_cons_of_mem _ (ih h)

theorem cellTable_cellRow : ∀ p ∈ cellTable, CellRow p.1 p.2.1 p.2.2 := by
  simp only [cellTable, List.forall_mem_append, cellTable0, cellTable1, cellTable2, cellTable3, cellTable4, cellTable5,
    List.forall_mem_cons, List.not_mem_nil, false_imp_iff, implies_true, and_true]
  and_intros <;> exact fun _ => ⟨_, rfl, rfl, rfl, rfl⟩

/-- The instruction of a row names its own cell of the map. -/
theorem names_own_cell : ∀ i : Instr, Laws.Encoding.Statement i
  | .nop f => Laws.Encoding.nop f
  | .exit f => Laws.Encoding.exit f
  | .exitm f => Laws.Encoding.exitm f
  | .br f => Laws.Encoding.br f
  | .bz f => Laws.Encoding.bz f
  | .bnz f => Laws.Encoding.bnz f
  | .bmz f => Laws.Encoding.bmz f
  | .bmnz f => Laws.Encoding.bmnz f
  | .bvany f => Laws.Encoding.bvany f
  | .bvall f => Laws.Encoding.bvall f
  | .bdiv f => Laws.Encoding.bdiv f
  | .bdivw f => Laws.Encoding.bdivw f
  | .bdivs f => Laws.Encoding.bdivs f
  | .join f => Laws.Encoding.join f
  | .joinw f => Laws.Encoding.joinw f
  | .jmp f => Laws.Encoding.jmp f
  | .jmpi f => Laws.Encoding.jmpi f
  | .call f => Laws.Encoding.call f
  | .calli f => Laws.Encoding.calli f
  | .ret f => Laws.Encoding.ret f
  | .sadd f => Laws.Encoding.sadd f
  | .ssub f => Laws.Encoding.ssub f
  | .smul f => Laws.Encoding.smul f
  | .smulh f => Laws.Encoding.smulh f
  | .sand f => Laws.Encoding.sand f
  | .sor f => Laws.Encoding.sor f
  | .sxor f => Laws.Encoding.sxor f
  | .sshl f => Laws.Encoding.sshl f
  | .sshr f => Laws.Encoding.sshr f
  | .smin f => Laws.Encoding.smin f
  | .smax f => Laws.Encoding.smax f
  | .sdiv f => Laws.Encoding.sdiv f
  | .srem f => Laws.Encoding.srem f
  | .smov f => Laws.Encoding.smov f
  | .snot f => Laws.Encoding.snot f
  | .sclz f => Laws.Encoding.sclz f
  | .spopc f => Laws.Encoding.spopc f
  | .sbrev f => Laws.Encoding.sbrev f
  | .sext f => Laws.Encoding.sext f
  | .scmp f => Laws.Encoding.scmp f
  | .ssel f => Laws.Encoding.ssel f
  | .sadd64 f => Laws.Encoding.sadd64 f
  | .ssub64 f => Laws.Encoding.ssub64 f
  | .smul64 f => Laws.Encoding.smul64 f
  | .sshl64 f => Laws.Encoding.sshl64 f
  | .sshr64 f => Laws.Encoding.sshr64 f
  | .smov64 f => Laws.Encoding.smov64 f
  | .sbfe f => Laws.Encoding.sbfe f
  | .sbfi f => Laws.Encoding.sbfi f
  | .slea f => Laws.Encoding.slea f
  | .vadd f => Laws.Encoding.vadd f
  | .vsub f => Laws.Encoding.vsub f
  | .vmul f => Laws.Encoding.vmul f
  | .vmulh f => Laws.Encoding.vmulh f
  | .vand f => Laws.Encoding.vand f
  | .vor f => Laws.Encoding.vor f
  | .vxor f => Laws.Encoding.vxor f
  | .vshl f => Laws.Encoding.vshl f
  | .vshr f => Laws.Encoding.vshr f
  | .vmin f => Laws.Encoding.vmin f
  | .vmax f => Laws.Encoding.vmax f
  | .vabsd f => Laws.Encoding.vabsd f
  | .vadds f => Laws.Encoding.vadds f
  | .vsubs f => Laws.Encoding.vsubs f
  | .vmad f => Laws.Encoding.vmad f
  | .vsel f => Laws.Encoding.vsel f
  | .vbfe f => Laws.Encoding.vbfe f
  | .vbfi f => Laws.Encoding.vbfi f
  | .vmov f => Laws.Encoding.vmov f
  | .vnot f => Laws.Encoding.vnot f
  | .vneg f => Laws.Encoding.vneg f
  | .vabs f => Laws.Encoding.vabs f
  | .vclz f => Laws.Encoding.vclz f
  | .vpopc f => Laws.Encoding.vpopc f
  | .vbrev f => Laws.Encoding.vbrev f
  | .vext f => Laws.Encoding.vext f
  | .vcmp f => Laws.Encoding.vcmp f
  | .vcmpm f => Laws.Encoding.vcmpm f
  | .vadd64 f => Laws.Encoding.vadd64 f
  | .vmulw f => Laws.Encoding.vmulw f
  | .vaddF32 f => Laws.Encoding.vaddF32 f
  | .vsubF32 f => Laws.Encoding.vsubF32 f
  | .vmulF32 f => Laws.Encoding.vmulF32 f
  | .vminF32 f => Laws.Encoding.vminF32 f
  | .vmaxF32 f => Laws.Encoding.vmaxF32 f
  | .vdiv f => Laws.Encoding.vdiv f
  | .vfma f => Laws.Encoding.vfma f
  | .vfms f => Laws.Encoding.vfms f
  | .vabsF32 f => Laws.Encoding.vabsF32 f
  | .vnegF32 f => Laws.Encoding.vnegF32 f
  | .vsqrt f => Laws.Encoding.vsqrt f
  | .vrcp f => Laws.Encoding.vrcp f
  | .vrsq f => Laws.Encoding.vrsq f
  | .vexp2 f => Laws.Encoding.vexp2 f
  | .vlog2 f => Laws.Encoding.vlog2 f
  | .vrnd f => Laws.Encoding.vrnd f
  | .vclass f => Laws.Encoding.vclass f
  | .vcmpF32 f => Laws.Encoding.vcmpF32 f
  | .vcmpmF32 f => Laws.Encoding.vcmpmF32 f
  | .vadd2 f => Laws.Encoding.vadd2 f
  | .vmul2 f => Laws.Encoding.vmul2 f
  | .vfma2 f => Laws.Encoding.vfma2 f
  | .vcvt f => Laws.Encoding.vcvt f
  | .vcvti f => Laws.Encoding.vcvti f
  | .vcvtf f => Laws.Encoding.vcvtf f
  | .vcvtq f => Laws.Encoding.vcvtq f
  | .vcvtqf f => Laws.Encoding.vcvtqf f
  | .vcvtn f => Laws.Encoding.vcvtn f
  | .vdot8 f => Laws.Encoding.vdot8 f
  | .vdot4 f => Laws.Encoding.vdot4 f
  | .vscale f => Laws.Encoding.vscale f
  | .vqnt f => Laws.Encoding.vqnt f
  | .vdeq f => Laws.Encoding.vdeq f
  | .vhad f => Laws.Encoding.vhad f
  | .vpk8 f => Laws.Encoding.vpk8 f
  | .vupk8 f => Laws.Encoding.vupk8 f
  | .vpk4 f => Laws.Encoding.vpk4 f
  | .vupk4 f => Laws.Encoding.vupk4 f
  | .vamax f => Laws.Encoding.vamax f
  | .vsc8 f => Laws.Encoding.vsc8 f
  | .vshfl f => Laws.Encoding.vshfl f
  | .vshup f => Laws.Encoding.vshup f
  | .vshdn f => Laws.Encoding.vshdn f
  | .vshxor f => Laws.Encoding.vshxor f
  | .vbcast f => Laws.Encoding.vbcast f
  | .vballot f => Laws.Encoding.vballot f
  | .vpopm f => Laws.Encoding.vpopm f
  | .vprefix f => Laws.Encoding.vprefix f
  | .vreduce f => Laws.Encoding.vreduce f
  | .qxch f => Laws.Encoding.qxch f
  | .vld f => Laws.Encoding.vld f
  | .vldrb f => Laws.Encoding.vldrb f
  | .sld f => Laws.Encoding.sld f
  | .vldbc f => Laws.Encoding.vldbc f
  | .vldscr f => Laws.Encoding.vldscr f
  | .vldcw f => Laws.Encoding.vldcw f
  | .vst f => Laws.Encoding.vst f
  | .sst f => Laws.Encoding.sst f
  | .vstscr f => Laws.Encoding.vstscr f
  | .vstcw f => Laws.Encoding.vstcw f
  | .vstmc f => Laws.Encoding.vstmc f
  | .wcfl f => Laws.Encoding.wcfl f
  | .rbinv f => Laws.Encoding.rbinv f
  | .vpref f => Laws.Encoding.vpref f
  | .vldp f => Laws.Encoding.vldp f
  | .vstp f => Laws.Encoding.vstp f
  | .vatom f => Laws.Encoding.vatom f
  | .vcas f => Laws.Encoding.vcas f
  | .satom f => Laws.Encoding.satom f
  | .scas f => Laws.Encoding.scas f
  | .vred f => Laws.Encoding.vred f
  | .vatom64 f => Laws.Encoding.vatom64 f
  | .vcas64 f => Laws.Encoding.vcas64 f
  | .wwait f => Laws.Encoding.wwait f
  | .wwaitt f => Laws.Encoding.wwaitt f
  | .wwake f => Laws.Encoding.wwake f
  | .faddt f => Laws.Encoding.faddt f
  | .sleep f => Laws.Encoding.sleep f
  | .wcancel f => Laws.Encoding.wcancel f
  | .fence f => Laws.Encoding.fence f
  | .fenceh f => Laws.Encoding.fenceh f
  | .fencep f => Laws.Encoding.fencep f
  | .xfer f => Laws.Encoding.xfer f
  | .vldf f => Laws.Encoding.vldf f
  | .sldf f => Laws.Encoding.sldf f
  | .ftot f => Laws.Encoding.ftot f
  | .fdecl f => Laws.Encoding.fdecl f
  | .fdrop f => Laws.Encoding.fdrop f
  | .fattr f => Laws.Encoding.fattr f
  | .fgup f => Laws.Encoding.fgup f
  | .mma f => Laws.Encoding.mma f
  | .mmac f => Laws.Encoding.mmac f
  | .mopf f => Laws.Encoding.mopf f
  | .mwait f => Laws.Encoding.mwait f
  | .mzero f => Laws.Encoding.mzero f
  | .mlda f => Laws.Encoding.mlda f
  | .msta f => Laws.Encoding.msta f
  | .mrd f => Laws.Encoding.mrd f
  | .mwr f => Laws.Encoding.mwr f
  | .mspill f => Laws.Encoding.mspill f
  | .mfill f => Laws.Encoding.mfill f
  | .mtag f => Laws.Encoding.mtag f
  | .tcopy f => Laws.Encoding.tcopy f
  | .tcopys f => Laws.Encoding.tcopys f
  | .gather f => Laws.Encoding.gather f
  | .trf f => Laws.Encoding.trf f
  | .bclose f => Laws.Encoding.bclose f
  | .bwait f => Laws.Encoding.bwait f
  | .abinit f => Laws.Encoding.abinit f
  | .abarv f => Laws.Encoding.abarv f
  | .abexp f => Laws.Encoding.abexp f
  | .abwait f => Laws.Encoding.abwait f
  | .gset f => Laws.Encoding.gset f
  | .bar f => Laws.Encoding.bar f
  | .barc f => Laws.Encoding.barc f
  | .barh f => Laws.Encoding.barh f
  | .coll f => Laws.Encoding.coll f
  | .crem f => Laws.Encoding.crem f
  | .trpost f => Laws.Encoding.trpost f
  | .trcan f => Laws.Encoding.trcan f
  | .ecinc f => Laws.Encoding.ecinc f
  | .ecdec f => Laws.Encoding.ecdec f
  | .ecrd f => Laws.Encoding.ecrd f
  | .ecset f => Laws.Encoding.ecset f
  | .cqpost f => Laws.Encoding.cqpost f
  | .cqpoll f => Laws.Encoding.cqpoll f
  | .tqenq f => Laws.Encoding.tqenq f
  | .tqdeq f => Laws.Encoding.tqdeq f
  | .tqtry f => Laws.Encoding.tqtry f
  | .tqdone f => Laws.Encoding.tqdone f
  | .tqatt f => Laws.Encoding.tqatt f
  | .tqstat f => Laws.Encoding.tqstat f
  | .migr f => Laws.Encoding.migr f
  | .mret f => Laws.Encoding.mret f
  | .mjoin f => Laws.Encoding.mjoin f
  | .mowner f => Laws.Encoding.mowner f
  | .mtest f => Laws.Encoding.mtest f
  | .sysrd f => Laws.Encoding.sysrd f
  | .syswr f => Laws.Encoding.syswr f
  | .trap f => Laws.Encoding.trap f
  | .rft f => Laws.Encoding.rft f
  | .brk f => Laws.Encoding.brk f
  | .scall f => Laws.Encoding.scall f
  | .sret f => Laws.Encoding.sret f
  | .cka f => Laws.Encoding.cka f
  | .chk f => Laws.Encoding.chk f
  | .rndk f => Laws.Encoding.rndk f
  | .srndk f => Laws.Encoding.srndk f
  | .tlbinv f => Laws.Encoding.tlbinv f
  | .tlbsync f => Laws.Encoding.tlbsync f
  | .icinv f => Laws.Encoding.icinv f
  | .einj f => Laws.Encoding.einj f
  | .escrub f => Laws.Encoding.escrub f
  | .loadReply req part => Laws.Encoding.loadReply req part
  | .storeAtHome req part => Laws.Encoding.storeAtHome req part
  | .atomicAtHome req part => Laws.Encoding.atomicAtHome req part
  | .waitRegistration req part => Laws.Encoding.waitRegistration req part
  | .waitAnswer entry => Laws.Encoding.waitAnswer entry
  | .wwaittTimeout entry => Laws.Encoding.wwaittTimeout entry
  | .sleepExpiry gid => Laws.Encoding.sleepExpiry gid
  | .coreWake core => Laws.Encoding.coreWake core
  | .joinwExpiry gid => Laws.Encoding.joinwExpiry gid
  | .wcLineAgeDrain core line => Laws.Encoding.wcLineAgeDrain core line
  | .wcLineAck core line status => Laws.Encoding.wcLineAck core line status
  | .recordFetch core => Laws.Encoding.recordFetch core
  | .copyEngineIssue gid => Laws.Encoding.copyEngineIssue gid
  | .pieceDelivery cmd piece => Laws.Encoding.pieceDelivery cmd piece
  | .commandComplete cmd => Laws.Encoding.commandComplete cmd
  | .matrixComplete op => Laws.Encoding.matrixComplete op
  | .firedRecordEntry queue core => Laws.Encoding.firedRecordEntry queue core
  | .recordDelivery queue core => Laws.Encoding.recordDelivery queue core
  | .hostEnqueue queue data => Laws.Encoding.hostEnqueue queue data
  | .hostMemoryAccess addr count data => Laws.Encoding.hostMemoryAccess addr count data
  | .launchAcceptance queue core prio => Laws.Encoding.launchAcceptance queue core prio
  | .blockPlacement die => Laws.Encoding.blockPlacement die
  | .blockedHead core => Laws.Encoding.blockedHead core
  | .partialEviction core => Laws.Encoding.partialEviction core
  | .eviction block => Laws.Encoding.eviction block
  | .restoration block => Laws.Encoding.restoration block
  | .gridEnd grid => Laws.Encoding.gridEnd grid
  | .carveEffect core => Laws.Encoding.carveEffect core
  | .pendingMove core part => Laws.Encoding.pendingMove core part
  | .continuationArrival cont => Laws.Encoding.continuationArrival cont
  | .visitorStart owner => Laws.Encoding.visitorStart owner
  | .migrationRefusal cont => Laws.Encoding.migrationRefusal cont
  | .migrationReturn ret => Laws.Encoding.migrationReturn ret
  | .debit m => Laws.Encoding.debit m
  | .go m => Laws.Encoding.go m
  | .returnAmount m => Laws.Encoding.returnAmount m
  | .offer m => Laws.Encoding.offer m
  | .accept m => Laws.Encoding.accept m
  | .ovf m => Laws.Encoding.ovf m
  | .refuse m => Laws.Encoding.refuse m
  | .busy m => Laws.Encoding.busy m
  | .offerResend mseq => Laws.Encoding.offerResend mseq
  | .credit m => Laws.Encoding.credit m
  | .done m => Laws.Encoding.done m
  | .ack m => Laws.Encoding.ack m
  | .cancel m => Laws.Encoding.cancel m
  | .status m => Laws.Encoding.status m
  | .giveUp mseq => Laws.Encoding.giveUp mseq
  | .answerResend dev mseq => Laws.Encoding.answerResend dev mseq
  | .hold snap owner => Laws.Encoding.hold snap owner
  | .snapshotRelease snap => Laws.Encoding.snapshotRelease snap
  | .snapshotTimeout snap => Laws.Encoding.snapshotTimeout snap
  | .holdSelfResume snap owner => Laws.Encoding.holdSelfResume snap owner
  | .domainActivation did reports => Laws.Encoding.domainActivation did reports
  | .fdeclTimeout did => Laws.Encoding.fdeclTimeout did
  | .packetArrival p => Laws.Encoding.packetArrival p
  | .deliveryAck peer cls ctxno pseq status => Laws.Encoding.deliveryAck peer cls ctxno pseq status
  | .packetResend peer cls pseq => Laws.Encoding.packetResend peer cls pseq
  | .stale peer cls ctxno pseq => Laws.Encoding.stale peer cls ctxno pseq
  | .retry peer cls ctxno pseq => Laws.Encoding.retry peer cls ctxno pseq
  | .contextClose sending peer cls => Laws.Encoding.contextClose sending peer cls
  | .deliveryGiveUp peer cls pseq => Laws.Encoding.deliveryGiveUp peer cls pseq
  | .contextFetch sending peer cls => Laws.Encoding.contextFetch sending peer cls
  | .resp peer msg data => Laws.Encoding.resp peer msg data
  | .complete peer msg => Laws.Encoding.complete peer msg
  | .mcast p => Laws.Encoding.mcast p
  | .aggack group ctxno pseq bits => Laws.Encoding.aggack group ctxno pseq bits
  | .rollback block => Laws.Encoding.rollback block
  | .walk core gid va => Laws.Encoding.walk core gid va
  | .tlbinvAck inv => Laws.Encoding.tlbinvAck inv
  | .refreshManagement bank => Laws.Encoding.refreshManagement bank
  | .erasureMark rank pos => Laws.Encoding.erasureMark rank pos
  | .healthFlush => Laws.Encoding.healthFlush
  | .faultRetry unit kind again => Laws.Encoding.faultRetry unit kind again
  | .fatalError source => Laws.Encoding.fatalError source
  | .powerOn i => Laws.Encoding.powerOn i
  | .coldStart i => Laws.Encoding.coldStart i
  | .warmStart i => Laws.Encoding.warmStart i
  | .flushHealthLog => Laws.Encoding.flushHealthLog
  | .lock port accepted => Laws.Encoding.lock port accepted
  | .start port => Laws.Encoding.start port
  | .stop port => Laws.Encoding.stop port
  | .portConfigWrite port value swid => Laws.Encoding.portConfigWrite port value swid
  | .tagFailureFault port => Laws.Encoding.tagFailureFault port
  | .linkDown port => Laws.Encoding.linkDown port
  | .measurementChange port => Laws.Encoding.measurementChange port
  | .joinDomain dev self members => Laws.Encoding.joinDomain dev self members
  | .rekey => Laws.Encoding.rekey
  | .arrive dev => Laws.Encoding.arrive dev
  | .release gen => Laws.Encoding.release gen
  | .rekeyTimeout dev => Laws.Encoding.rekeyTimeout dev
  | .breakpoint gid => Laws.Encoding.breakpoint gid
  | .debugResume block => Laws.Encoding.debugResume block
  | .contextEntryWrite offset data => Laws.Encoding.contextEntryWrite offset data
  | .queueConfigWrite queue value => Laws.Encoding.queueConfigWrite queue value
  | .ownerEntryWrite owner value => Laws.Encoding.ownerEntryWrite owner value
  | .regionRegisterWrite index value => Laws.Encoding.regionRegisterWrite index value
  | .cqRegistration index header ctx valid => Laws.Encoding.cqRegistration index header ctx valid
  | .registerWrite offset value => Laws.Encoding.registerWrite offset value
  | .unassignedCell cause aux addr => Laws.Encoding.unassignedCell cause aux addr
  | .powerFailure => Laws.Encoding.powerFailure
  | .memberRemoval dev => Laws.Encoding.memberRemoval dev
  | .bankRefresh bank => Laws.Encoding.bankRefresh bank
  | .linkLoss port => Laws.Encoding.linkLoss port
  | .linkReturn port => Laws.Encoding.linkReturn port
  | .cydbAttach ctx breaks => Laws.Encoding.cydbAttach ctx breaks
  | .cydbDetach ctx => Laws.Encoding.cydbDetach ctx
  | .cydbStep gid => Laws.Encoding.cydbStep gid
  | .latchStalledLong gid => Laws.Encoding.latchStalledLong gid

/-- What an instruction of the map has: its cell, whose place and row are the ones it names. -/
theorem cell_of_row {i : Instr} {f : Fields} {r : Row} (h : i.row = some (f, r)) :
    r.opc < 256 ∧ r.fn < 64 ∧ extAgrees r.opc r = true ∧ ∃ c, findCell cellTable r.opc r.fn = some c ∧ c f = i := by
  obtain ⟨hopc, hfn, c, hfind, hc⟩ := names_own_cell i f r h
  obtain ⟨r', hr', -, -, hext⟩ := cellTable_cellRow _ (findCell_mem hfind) f
  obtain rfl : r = r' := by simp_all
  exact ⟨hopc, hfn, hext, c, hfind, hc⟩

theorem encode_of_row {i : Instr} {f : Fields} {r : Row} (h : i.row = some (f, r)) :
    encode i = some (encodeBase r.opc r.fn f + 2 ^ 64 * encodeTail (f.len = .w128 && r.opc ≠ 0x13) f) := by
  rw [encode, h]

theorem bitLength_of_row {i : Instr} {f : Fields} {r : Row} (h : i.row = some (f, r)) : bitLength i = lenBits f.len := by
  rw [bitLength, h]
  rfl

theorem wf_of_row {i : Instr} {f : Fields} {r : Row} (h : i.row = some (f, r)) :
    i.wf = true ↔ f.tight r = true ∧ violations r f = [] := by
  rw [Instr.wf, h]
  simp

theorem lowest_eq_none {l : List (Nat × Nat)} : lowest l = none ↔ l = [] := by
  cases l with
  | nil => simp [lowest]
  | cons p l =>
    simp only [lowest, reduceCtorEq, iff_false]
    split
    · simp
    · split <;> simp

theorem violation_of_row {i : Instr} {f : Fields} {r : Row} (h : i.row = some (f, r)) :
    i.violation = none ↔ violations r f = [] := by
  rw [Instr.violation, h]
  exact lowest_eq_none

theorem len_mem_of_violations {r : Row} {f : Fields} (h : violations r f = []) : f.len ∈ r.lens := by
  by_contra hlen
  simp [violations, hlen] at h

/-- In a length that its cell has, the extension set is there by the cell's OPC as by its row (spec 02, R49). -/
theorem ext_eq {r : Row} {f : Fields} (hlen : f.len ∈ r.lens) (hagree : extAgrees r.opc r = true) :
    (decide (f.len = .w128) && decide (r.rep ≠ .a64)) = (decide (f.len = .w128) && decide (r.opc ≠ 0x13)) := by
  cases h : f.len with
  | w64 => rfl
  | w96 => rfl
  | w128 =>
    have hmem : Len.w128 ∈ r.lens := h ▸ hlen
    have hiff : r.opc = 0x13 ↔ r.rep = .a64 := by simpa [extAgrees, hmem] using hagree
    simp [hiff]

/-- A tight instruction holds nothing outside its length, and the reverse. -/
theorem tight_iff_heldIn {r : Row} {f : Fields} (hlen : f.len ∈ r.lens) (hagree : extAgrees r.opc r = true) :
    f.tight r = true ↔ HeldIn (f.len = .w128 && r.opc ≠ 0x13) f := by
  have hext := ext_eq hlen hagree
  cases h : f.len with
  | w64 => simp [Fields.tight, HeldIn, h, and_assoc]
  | w96 => simp [Fields.tight, HeldIn, h, and_assoc]
  | w128 =>
    by_cases hrep : r.rep = .a64
    · have hopc : r.opc = 0x13 := by simpa [h, hrep] using hext
      simp [Fields.tight, HeldIn, h, hrep, hopc, and_assoc]
    · have hopc : r.opc ≠ 0x13 := by simpa [h, hrep] using hext
      simp [Fields.tight, HeldIn, h, hrep, hopc]

theorem heldIn_fieldsOf (l : Len) {ext : Bool} (hext : ext = true → l = .w128) (w : Nat) : HeldIn ext (fieldsOf l ext w) := by
  refine ⟨fun h => by simp [fieldsOf, h], hext, ?_⟩
  cases l with
  | w64 => rfl
  | w96 =>
    simp only [fieldsOf, toNat_ofNat_bitsOf_64 w 64 (show 32 ≤ 64 by decide)]
    exact Nat.mod_lt _ (by decide)
  | w128 =>
    rintro rfl
    simp only [fieldsOf, if_true, toNat_ofNat_bitsOf_64 w 96 (show 32 ≤ 64 by decide)]
    exact Nat.mod_lt _ (by decide)

/-! ### R56, R57: decoding and encoding -/

/-- What decodes is the cell that its OPC and FN name, with the fields of its bits, none of which violates a rule. -/
theorem row_of_decode {w : Nat} {i : Instr} (h : decode w = .ok i) :
    ∃ l r, lenOf w = some l ∧ r.opc = bitsOf w 2 8 ∧ r.fn = bitsOf w 10 6 ∧
      i.row = some (fieldsOf l (l = .w128 && r.opc ≠ 0x13) w, r) ∧
      violations r (fieldsOf l (l = .w128 && r.opc ≠ 0x13) w) = [] := by
  unfold decode at h
  cases hl : lenOf w with
  | none => simp [hl] at h
  | some l =>
    cases hc : findCell cellTable (bitsOf w 2 8) (bitsOf w 10 6) with
    | none => simp [hl, hc] at h
    | some c =>
      simp only [hl, hc] at h
      obtain ⟨r, hr, hopc, hfn, -⟩ := cellTable_cellRow _ (findCell_mem hc) (fieldsOf l (l = .w128 && bitsOf w 2 8 ≠ 0x13) w)
      simp only at hopc hfn
      cases hv : (c (fieldsOf l (l = .w128 && bitsOf w 2 8 ≠ 0x13) w)).violation with
      | some p => simp only [hv, reduceCtorEq] at h
      | none =>
        simp only [hv, Except.ok.injEq] at h
        rw [← hopc] at h hr hv
        exact ⟨l, r, rfl, hopc, hfn, h ▸ hr, (violation_of_row hr).mp hv⟩

/-- Decoding the word of a well-formed instruction, whatever follows it, gives the instruction. -/
theorem decode_wordWith {i : Instr} {f : Fields} {r : Row} (h : i.row = some (f, r)) (hwf : i.wf = true) (x : Nat) :
    decode (wordWith (f.len = .w128 && r.opc ≠ 0x13) r.opc r.fn f x) = .ok i := by
  obtain ⟨hopc, hfn, hagree, c, hc, hcf⟩ := cell_of_row h
  obtain ⟨htight, hviol⟩ := (wf_of_row h).mp hwf
  have hheld := (tight_iff_heldIn (len_mem_of_violations hviol) hagree).mp htight
  simp only [decode, lenOf_wordWith hopc hfn, opc_wordWith hopc hfn, fn_wordWith hopc hfn, hc, fieldsOf_wordWith hopc hfn hheld, hcf,
    (violation_of_row h).mpr hviol]

theorem encode_lt {i : Instr} {f : Fields} {r : Row} (h : i.row = some (f, r)) :
    encodeBase r.opc r.fn f + 2 ^ 64 * encodeTail (f.len = .w128 && r.opc ≠ 0x13) f < 2 ^ lenBits f.len := by
  obtain ⟨hopc, hfn, -⟩ := cell_of_row h
  have hbase := (wordWith_eq hopc hfn false f 0).1
  have he := f.e.isLt
  have hh := f.h.isLt
  have hwe := f.we.toNat_lt
  have hwh := f.wh.toNat_lt
  have hrsv := f.rsv.toNat_lt
  have hxmod := f.xmod.isLt
  have himm := f.imm.isLt
  cases hl : f.len with
  | w64 =>
    simp only [encodeTail, hl, lenBits]
    omega
  | w96 =>
    simp only [encodeTail, hl, lenBits]
    omega
  | w128 =>
    simp only [encodeTail, hl, lenBits]
    split <;> omega

theorem decode_encode {i : Instr} (hcell : i.isCell = true) (hwf : i.wf = true) :
    ∃ w, encode i = some w ∧ w < 2 ^ bitLength i ∧ ∀ x, decode (w + 2 ^ bitLength i * x) = .ok i := by
  obtain ⟨⟨f, r⟩, h⟩ := Option.isSome_iff_exists.mp hcell
  rw [bitLength_of_row h]
  exact ⟨_, encode_of_row h, encode_lt h, fun x => decode_wordWith h hwf x⟩

theorem encode_of_decode {w : Nat} {i : Instr} (h : decode w = .ok i) : encode i = some (w % 2 ^ bitLength i) := by
  obtain ⟨l, r, hl, hopc, hfn, hrow, -⟩ := row_of_decode h
  have hext : (decide (l = .w128) && decide (r.opc ≠ 0x13)) = true → l = .w128 := by simp +contextual
  have hlen : (fieldsOf l (l = .w128 && r.opc ≠ 0x13) w).len = l := rfl
  rw [encode_of_row hrow, bitLength_of_row hrow, hlen]
  nth_rw 1 [hopc]
  rw [hfn, encode_fieldsOf hl hext]

/-- Settles O39: each direction by the fields at their places and the place of every cell in the map. -/
theorem decodeEncode : Obligations.DecodeEncode :=
  ⟨fun _ => decode_encode, fun _ _ => encode_of_decode⟩

theorem decode_eq_illop_one {w : Nat} (h : w % 4 = 3) : decode w = .error (.illop 1 0) := by
  simp [decode, lenOf, h]

theorem lenOf_isSome {w : Nat} (h : w % 4 ≠ 3) : ∃ l, lenOf w = some l := by
  obtain h0 | h1 | h2 : w % 4 = 0 ∨ w % 4 = 1 ∨ w % 4 = 2 := by omega
  · exact ⟨.w64, by simp [lenOf, h0]⟩
  · exact ⟨.w96, by simp [lenOf, h1]⟩
  · exact ⟨.w128, by simp [lenOf, h2]⟩

/-- A word that no cell of the map takes is refused, by whether its OPC has any cell. -/
theorem decode_of_no_cell {w : Nat} (hlen : w % 4 ≠ 3)
    (hno : ∀ p ∈ cellTable, p.1 = w / 4 % 256 → p.2.1 ≠ w / 1024 % 64) :
    decode w = .error (if opcKnown cellTable (w / 4 % 256) then .illop 3 0 else .illop 2 0) := by
  obtain ⟨l, hl⟩ := lenOf_isSome hlen
  have hfind : findCell cellTable (bitsOf w 2 8) (bitsOf w 10 6) = none := by
    cases hc : findCell cellTable (bitsOf w 2 8) (bitsOf w 10 6) with
    | none => rfl
    | some c => exact absurd rfl (hno _ (findCell_mem hc) rfl)
  simp only [decode, hl, hfind]
  rfl

theorem decode_eq_illop_two {w : Nat} (hlen : w % 4 ≠ 3) (hno : ∀ p ∈ cellTable, p.1 ≠ w / 4 % 256) :
    decode w = .error (.illop 2 0) := by
  have hunknown : opcKnown cellTable (w / 4 % 256) = false := by simpa [opcKnown] using fun a b c h => hno _ h
  rw [decode_of_no_cell hlen fun p hp h => absurd h (hno p hp), hunknown]
  rfl

theorem decode_eq_illop_three {w : Nat} (hlen : w % 4 ≠ 3) (hknown : ∃ p ∈ cellTable, p.1 = w / 4 % 256)
    (hno : ∀ p ∈ cellTable, p.1 = w / 4 % 256 → p.2.1 ≠ w / 1024 % 64) : decode w = .error (.illop 3 0) := by
  have hany : opcKnown cellTable (w / 4 % 256) = true := by simpa only [opcKnown, List.any_eq_true, decide_eq_true_eq] using hknown
  rw [decode_of_no_cell hlen hno, hany]
  rfl

theorem wf_of_decode {w : Nat} {i : Instr} (h : decode w = .ok i) : i.isCell = true ∧ i.wf = true := by
  obtain ⟨l, r, hl, hopc, hfn, hrow, hviol⟩ := row_of_decode h
  have hagree := (cell_of_row hrow).2.2.1
  have hext : (decide (l = .w128) && decide (r.opc ≠ 0x13)) = true → l = .w128 := by simp +contextual
  refine ⟨by rw [Instr.isCell, hrow]; rfl, (wf_of_row hrow).mpr ⟨?_, hviol⟩⟩
  exact (tight_iff_heldIn (len_mem_of_violations hviol) hagree).mpr (heldIn_fieldsOf l hext w)

/-- Settles O38: the words by evaluation, the refusals by the cells of the map. -/
theorem decodeWords : Obligations.DecodeWords :=
  ⟨rfl, rfl, rfl, rfl, rfl, rfl, rfl, rfl, rfl, rfl, rfl, fun _ => decode_eq_illop_one, fun _ => decode_eq_illop_two,
    fun _ => decode_eq_illop_three, fun _ _ => wf_of_decode⟩

/-- Settles O36: the fields of the reset state, whose tables list nothing. -/
theorem resetState : Obligations.ResetState :=
  ⟨rfl, rfl, rfl, rfl, rfl, rfl, rfl, rfl, rfl, fun _ => rfl, fun _ => ⟨rfl, rfl, rfl, fun _ => ⟨rfl, fun _ _ => rfl⟩⟩,
    fun _ => ⟨rfl, rfl⟩, fun _ => rfl, rfl⟩

end Sys2Proof.Proofs
end

section
/-! Scalar instructions of spec 05 beside those of R104: moves, fields and pairs (R105 to R110). -/

namespace Sys2Proof.Proofs

open Sys2Proof Sys2Proof.Machine Sys2Proof.Claims

/-! ### Bits of masks -/

/-- The sum of the powers of two that a condition selects has exactly the bits that satisfy it. -/
theorem foldl_pow_range (p : Nat → Bool) (n : Nat) :
    (List.range n).foldl (fun m L => if p L then m + 2 ^ L else m) 0 < 2 ^ n ∧
      ∀ i, ((List.range n).foldl (fun m L => if p L then m + 2 ^ L else m) 0).testBit i = (decide (i < n) && p i) := by
  induction n with
  | zero => simp
  | succ n ih =>
    obtain ⟨hlt, hbit⟩ := ih
    rw [List.range_succ, List.foldl_append, List.foldl_cons, List.foldl_nil]
    generalize (List.range n).foldl (fun m L => if p L then m + 2 ^ L else m) 0 = m at hlt hbit
    have hpow : 2 ^ (n + 1) = 2 ^ n + 2 ^ n := by ring
    cases hp : p n with
    | false =>
      refine ⟨by simp only [Bool.false_eq_true, if_false]; omega, fun i => ?_⟩
      rw [if_neg Bool.false_ne_true, hbit]
      by_cases hi : i = n
      · subst hi
        simp [hp]
      · congr 1
        exact decide_eq_decide.mpr (by omega)
    | true =>
      refine ⟨by simp only [if_true]; omega, fun i => ?_⟩
      rw [if_pos rfl, Nat.add_comm]
      rcases lt_trichotomy i n with hi | rfl | hi
      · rw [Nat.testBit_two_pow_add_gt hi, hbit]
        simp [hi, Nat.lt_succ_of_lt hi]
      · rw [Nat.testBit_two_pow_add_eq, hbit]
        simp [hp]
      · have hz : 2 ^ n + m < 2 ^ i := lt_of_lt_of_le (by omega) (Nat.pow_le_pow_right (by decide) hi)
        rw [Nat.testBit_lt_two_pow hz]
        simp [Nat.not_lt.mpr hi]

@[simp] theorem getLsbD_maskOf (p : Nat → Bool) (i : Nat) : (maskOf p).getLsbD i = (decide (i < 32) && p i) := by
  rw [maskOf, show laneList = List.range 32 from rfl, BitVec.getLsbD_ofNat, (foldl_pow_range p 32).2]
  simp

/-! ### Values of R105 -/

theorem isClz_clz (a : Word) : IsClz a (clz a) := by
  by_cases h : a = 0
  · subst h
    simp [IsClz, clz]
  · have hne : a.toNat ≠ 0 := fun h0 => h (BitVec.eq_of_toNat_eq (by simpa using h0))
    have hlog : Nat.log2 a.toNat < 32 := (Nat.log2_lt hne).mpr a.isLt
    have hval : (clz a).toNat = 31 - Nat.log2 a.toNat := by
      rw [clz, if_neg h, BitVec.toNat_ofNat, Nat.mod_eq_of_lt (by omega)]
    rw [IsClz, hval]
    refine ⟨by omega, fun i hi hle => ?_, fun _ => ?_⟩
    · have hlt : a.toNat < 2 ^ i := (Nat.log2_lt hne).mp (by omega)
      rw [BitVec.getLsbD, Nat.testBit_lt_two_pow hlt]
    · rw [show 31 - (31 - Nat.log2 a.toNat) = Nat.log2 a.toNat by omega, BitVec.getLsbD]
      exact Nat.testBit_log2 hne

theorem isPopc_popcount (a : Word) : IsPopc a (BitVec.ofNat 32 (popcount a)) := by
  have hle : popcount a ≤ 32 := (List.length_filter_le _ _).trans (by simp [laneList])
  rw [IsPopc, BitVec.toNat_ofNat, Nat.mod_eq_of_lt (by omega)]
  rfl

theorem isBrev_brev (a : Word) : IsBrev a (brev a) := by
  intro i hi
  rw [brev, getLsbD_maskOf, show 31 - (31 - i) = i by omega]
  simp [show 31 - i < 32 by omega]

theorem isInsert_bitInsert (d a b c : Word) : IsInsert d a b c (bitInsert d a b c) := by
  intro i hi
  simp only [bitInsert, getLsbD_maskOf, hi, decide_true, Bool.true_and, Bool.and_eq_true, decide_eq_true_eq]

/-- The bits of a number of `w` bits extended to 32. -/
theorem getLsbD_extended (uns : Bool) {w : Nat} (x : BitVec w) {i : Nat} (hi : i < 32) :
    (if uns then BitVec.ofNat 32 x.toNat else BitVec.ofInt 32 x.toInt).getLsbD i =
      if i < w then x.getLsbD i else !uns && x.msb := by
  cases uns with
  | true =>
    rw [if_pos rfl, BitVec.ofNat_toNat, BitVec.getLsbD_setWidth]
    by_cases hw : i < w
    · simp [hi, hw]
    · simp [hw, BitVec.getLsbD_of_ge x i (Nat.le_of_not_lt hw)]
  | false =>
    rw [if_neg Bool.false_ne_true, ← BitVec.signExtend, BitVec.getLsbD_signExtend]
    simp [hi]

theorem msb_ofNat {w : Nat} (hw : 0 < w) (n : Nat) : (BitVec.ofNat w n).msb = n.testBit (w - 1) := by
  rw [BitVec.msb_eq_getLsbD_last, BitVec.getLsbD_ofNat]
  simp [hw]

theorem isExt_extend (uns : Bool) {w : Nat} (hw : 0 < w) (a : Word) : IsExt uns w a (extend uns w a) := by
  intro i hi
  have hval : extend uns w a = if uns then BitVec.ofNat 32 (BitVec.ofNat w a.toNat).toNat else BitVec.ofInt 32 (BitVec.ofNat w a.toNat).toInt := by
    rw [extend, BitVec.toNat_ofNat]
  rw [hval, getLsbD_extended uns _ hi, msb_ofNat hw, BitVec.getLsbD_ofNat]
  by_cases h : i < w
  · simp [h, BitVec.getLsbD]
  · simp [h, BitVec.getLsbD]

/-- Bit j of the word that bit-field extraction reads from (spec 05, R109). -/
theorem testBit_wide (uns : Bool) (a : Word) {j : Nat} (hj : j < 64) :
    (if uns then a.toNat else (a.signExtend 64).toNat).testBit j = wideBit uns a j := by
  cases uns with
  | true =>
    by_cases h : j < 32
    · simp [wideBit, h, BitVec.getLsbD]
    · simp only [wideBit, h, if_true, if_false, Bool.not_true, Bool.false_and]
      exact Nat.testBit_lt_two_pow (lt_of_lt_of_le a.isLt (Nat.pow_le_pow_right (by decide) (Nat.le_of_not_lt h)))
  | false =>
    have hbit : (a.signExtend 64).toNat.testBit j = (a.signExtend 64).getLsbD j := rfl
    rw [if_neg Bool.false_ne_true, hbit, BitVec.getLsbD_signExtend, BitVec.msb_eq_getLsbD_last]
    simp [hj, wideBit]

theorem isExtract_bitExtract (uns : Bool) (a b c : Word) : IsExtract uns a b c (bitExtract uns a b c) := by
  intro i hi
  by_cases hw : min c.toNat 32 = 0
  · simp [bitExtract, hw]
  · have hpos : 0 < min c.toNat 32 := Nat.pos_of_ne_zero hw
    have hle : min c.toNat 32 ≤ 32 := Nat.min_le_right ..
    have hoff : min b.toNat 32 ≤ 32 := Nat.min_le_right ..
    simp only [bitExtract, hw, if_false]
    generalize min c.toNat 32 = w at hpos hle
    generalize min b.toNat 32 = o at hoff
    have hx : ∀ n : Nat, (if uns then BitVec.ofNat 32 (n % 2 ^ w) else BitVec.ofInt 32 (BitVec.ofNat w (n % 2 ^ w)).toInt) =
        if uns then BitVec.ofNat 32 (BitVec.ofNat w (n % 2 ^ w)).toNat else BitVec.ofInt 32 (BitVec.ofNat w (n % 2 ^ w)).toInt := by
      intro n
      rw [BitVec.toNat_ofNat, Nat.mod_mod]
    rw [hx, getLsbD_extended uns _ hi, msb_ofNat hpos, BitVec.getLsbD_ofNat, Nat.testBit_mod_two_pow, Nat.testBit_mod_two_pow,
      Nat.testBit_div_two_pow, Nat.testBit_div_two_pow, testBit_wide uns a (show w - 1 + o < 64 by omega)]
    by_cases h : i < w
    · rw [testBit_wide uns a (show i + o < 64 by omega)]
      simp [h, Nat.add_comm]
    · simp [h, hpos, show o + w - 1 = w - 1 + o by omega]

/-! ### R106: conditions -/

/-- The integer conditions hold as they are named (spec 05, R106). -/
theorem condInt_iff_holds (cc : Nat) (x y : Int) : condInt cc x y = true ↔ Holds cc x y := by
  unfold condInt Holds
  split
  · simp
  · simp
  · simp
  · simp
  · simp
  · rename_i h0 h1 h2 h3 h4
    have hne : cc ≠ 0 ∧ cc ≠ 1 ∧ cc ≠ 2 ∧ cc ≠ 3 ∧ cc ≠ 4 := ⟨h0, h1, h2, h3, h4⟩
    simp [hne, show 5 ≤ cc by omega]

/-! ### R105, R106, R109 -/

/-- What the statement of R105, R106 and R109 says of one row of its table. -/
def WritesRelated (p : (Fields → Instr) × (Fields → Row) × (Fields → Word → Word → Word → Word → Word → Prop)) : Prop :=
  ∀ (f : Fields) (s : State) (g : Group), Ready (p.1 f) s g → ScalarDst f.d →
    ∃ t v, exec (p.1 f) s = .next t ∧ ScalarWrite s t g f.d v (nextPc g f) ∧
      p.2.2 f (s.readS g f.d) (s.opA g (p.2.1 f) f 0) (s.opB g (p.2.1 f) f 0) (s.opC g (p.2.1 f) f 0) v

/-- An instruction that puts a value of D and its operands into D is a row whose relation that value satisfies. -/
theorem writesRelated_of {c : Fields → Instr} {row : Fields → Row} {rel : Fields → Word → Word → Word → Word → Word → Prop}
    {val : Fields → Word → Word → Word → Word → Word} (hrow : ∀ f, (c f).row = some (f, row f))
    (hexec : ∀ f s, exec (c f) s = issue (row f) f s fun gid g => .next ((s.putDst gid f.d
      (val f (s.readS g f.d) (s.opA g (row f) f 0) (s.opB g (row f) f 0) (s.opC g (row f) f 0))).advance gid f.bytes))
    (hrel : ∀ f d x y z, rel f d x y z (val f d x y z)) : WritesRelated (c, row, rel) := by
  intro f s g h hd
  refine ⟨_, _, ?_, scalarWrite_setGroup s g hd _ _, hrel f _ _ _ _⟩
  rw [hexec, issue_of_ready h (hrow f), State.putDst_advance h.1 _ _ hd]
  rfl

theorem scalarTable2_writesRelated : ∀ p ∈ scalarTable2, WritesRelated p := by
  simp only [scalarTable2, List.forall_mem_cons, List.not_mem_nil, false_imp_iff, implies_true, and_true, view_eq_viewInt]
  refine ⟨?smov, ?snot, ?sclz, ?spopc, ?sbrev, ?sext, ?scmp, ?ssel, ?sbfe, ?sbfi⟩
  case smov => exact writesRelated_of (val := fun _ _ a _ _ => a) (fun _ => rfl) (fun _ _ => rfl) fun _ _ _ _ _ => rfl
  case snot =>
    exact writesRelated_of (val := fun _ _ a _ _ => ~~~a) (fun _ => rfl) (fun _ _ => rfl) fun _ _ _ _ _ i hi => by
      rw [BitVec.getLsbD_not]
      simp [hi]
  case sclz => exact writesRelated_of (val := fun _ _ a _ _ => clz a) (fun _ => rfl) (fun _ _ => rfl) fun _ _ a _ _ => isClz_clz a
  case spopc =>
    exact writesRelated_of (val := fun _ _ a _ _ => BitVec.ofNat 32 (popcount a)) (fun _ => rfl) (fun _ _ => rfl)
      fun _ _ a _ _ => isPopc_popcount a
  case sbrev => exact writesRelated_of (val := fun _ _ a _ _ => brev a) (fun _ => rfl) (fun _ _ => rfl) fun _ _ a _ _ => isBrev_brev a
  case sext =>
    exact writesRelated_of (val := fun f _ a _ _ => extend (f.m 1) (if f.mf 3 2 = 0 then 8 else 16) a) (fun _ => rfl) (fun _ _ => rfl)
      fun f _ a _ _ => isExt_extend (f.m 1) (by split <;> decide) a
  case scmp =>
    refine writesRelated_of (val := fun f _ a b _ => if condInt (f.mf 4 2) (viewInt (f.m 1) a) (viewInt (f.m 1) b) then 1 else 0)
      (fun _ => rfl) (fun _ _ => rfl) fun f _ a b _ => ?_
    rw [← condInt_iff_holds]
    cases condInt (f.mf 4 2) (viewInt (f.m 1) a) (viewInt (f.m 1) b) with
    | true => simp
    | false => simp
  case ssel =>
    exact writesRelated_of (val := fun _ _ a b c => if a ≠ 0 then b else c) (fun _ => rfl) (fun _ _ => rfl) fun _ _ _ _ _ => rfl
  case sbfe =>
    exact writesRelated_of (val := fun f _ a b c => bitExtract (f.m 1) a b c) (fun _ => rfl) (fun _ _ => rfl)
      fun f _ a b c => isExtract_bitExtract (f.m 1) a b c
  case sbfi =>
    exact writesRelated_of (val := fun _ d a b c => bitInsert d a b c) (fun _ => rfl) (fun _ _ => rfl)
      fun _ d a b c => isInsert_bitInsert d a b c

/-- Settles O2: each row's instruction puts a value in D that satisfies the row's relation. -/
theorem scalarMovesAndFields : Obligations.ScalarMovesAndFields := scalarTable2_writesRelated

/-! ### R107, R108, R110: pairs -/

theorem pairWrite_setGroup (s : State) (g : Group) (d : BitVec 8) (v : Dword) (pc : Dword) :
    PairWrite s (s.setGroup s.own.cur (((g.putS d.toNat (v.truncate 32)).putS (d.toNat + 1) ((v >>> 32).truncate 32)).goto pc)) g d v pc := by
  refine ⟨_, onlyGroup_setGroup s _, over_goto pc rfl ⟨rfl, rfl⟩ ⟨fun _ h => h, fun k h => ?_⟩ rfl, rfl, rfl, rfl, fun r hr hr1 => ?_, ?_, ?_⟩
  · exact (List.mem_filter.mp (List.mem_filter.mp h).1).1
  · rw [Group.rdS_goto, Group.rdS_putS_other _ _ hr1, Group.rdS_putS_other _ _ hr]
  · rw [Group.rdS_goto, Group.rdS_putS_other _ _ (Nat.succ_ne_self _).symm, Group.rdS_putS_same]
  · rw [Group.rdS_goto, Group.rdS_putS_same]

/-- An instruction that puts a value into the pair D and advances writes the pair and nothing else. -/
theorem pairWrite_of {i : Instr} {f : Fields} {r : Row} {s : State} {g : Group} (h : Ready i s g) (hrow : i.row = some (f, r))
    {v : State → Group → Dword}
    (hexec : exec i s = issue r f s fun gid g => .next ((s.putPair gid f.d (v s g)).advance gid f.bytes)) :
    ∃ t, exec i s = .next t ∧ PairWrite s t g f.d (v s g) (nextPc g f) := by
  refine ⟨_, ?_, pairWrite_setGroup s g f.d _ _⟩
  rw [hexec, issue_of_ready h hrow, State.putPair_advance h.1]
  rfl

/-- What the statement of R107 says of one row of its table. -/
def WritesPair (p : (Fields → Instr) × (Fields → Row) × (Fields → Dword → Dword → Dword)) : Prop :=
  ∀ (f : Fields) (s : State) (g : Group), Ready (p.1 f) s g →
    ∃ t, exec (p.1 f) s = .next t ∧
      PairWrite s t g f.d (p.2.2 f (s.readSP g f.a)
        (if (p.2.1 f).repB f then (f.imm.truncate 32 : Word).signExtend 64 else s.readSP g f.b)) (nextPc g f)

theorem writesPair_of_scalarPair {c : Fields → Instr} {row : Fields → Row} {val op : Fields → Dword → Dword → Dword}
    (hrow : ∀ f, (c f).row = some (f, row f)) (hexec : ∀ f s, exec (c f) s = scalarPair (row f) (op f) f s)
    (hval : ∀ f a b, op f a b = val f a b) : WritesPair (c, row, val) := by
  intro f s g h
  simp only [← hval]
  exact pairWrite_of h (hrow f) (v := fun s g => op f (s.readSP g f.a) (s.opPairB g (row f) f)) (hexec f s)

theorem pairTable_writesPair : ∀ p ∈ pairTable, WritesPair p := by
  simp only [pairTable, List.forall_mem_cons, List.not_mem_nil, false_imp_iff, implies_true, and_true]
  refine ⟨?sadd64, ?ssub64, ?smul64, ?sshl64, ?sshr64⟩
  case sadd64 => exact writesPair_of_scalarPair (fun _ => rfl) (fun _ _ => rfl) fun _ => add_eq_ofInt
  case ssub64 => exact writesPair_of_scalarPair (fun _ => rfl) (fun _ _ => rfl) fun _ => sub_eq_ofInt
  case smul64 => exact writesPair_of_scalarPair (fun _ => rfl) (fun _ _ => rfl) fun _ => mul_eq_ofInt
  case sshl64 =>
    exact writesPair_of_scalarPair (op := fun _ a b => shiftL a b.toNat) (fun _ => rfl) (fun _ _ => rfl) fun _ a b => shiftL_eq a b.toNat
  case sshr64 =>
    exact writesPair_of_scalarPair (op := fun f a b => shiftR (f.m 1) a b.toNat) (fun _ => rfl) (fun _ _ => rfl)
      fun f a b => shiftR_eq (f.m 1) a b.toNat

theorem ofInt_add_ofInt (x y z : Int) : BitVec.ofInt 64 x + BitVec.ofInt 64 y + BitVec.ofInt 64 z = BitVec.ofInt 64 (x + y + z) := by
  rw [BitVec.ofInt_add, BitVec.ofInt_add]

/-- A word extended in a view and shifted left. -/
theorem extend_shiftLeft (uns : Bool) (b : Word) (n : Nat) :
    (if uns then b.zeroExtend 64 else b.signExtend 64) <<< n = BitVec.ofInt 64 (view uns b * 2 ^ n) := by
  have hval : (if uns then b.zeroExtend 64 else b.signExtend 64) = BitVec.ofInt 64 (view uns b) := by
    cases uns with
    | true => simp [view]
    | false => rfl
  rw [hval, BitVec.shiftLeft_eq_mul_twoPow, BitVec.ofInt_mul]
  congr 1
  apply BitVec.eq_of_toNat_eq
  rw [BitVec.toNat_twoPow, show (2 : Int) ^ n = ((2 ^ n : Nat) : Int) by push_cast; rfl, BitVec.ofInt_natCast, BitVec.toNat_ofNat]

theorem slea_value (s : State) (g : Group) (f : Fields) :
    s.readSP g f.a + (if f.m 1 then (s.readS g f.b).zeroExtend 64 else (s.readS g f.b).signExtend 64) <<<
        (if f.len = .w64 then f.c.toNat else f.imm.toNat % 256) +
        (if f.len = .w64 then (0 : Dword) else (BitVec.ofNat 24 (f.imm.toNat / 256)).signExtend 64) =
      BitVec.ofInt 64 ((s.readSP g f.a).toInt + view (f.m 1) (s.readS g f.b) * 2 ^ (if f.len = .w64 then f.c.toNat else f.imm.toNat % 256) +
        (if f.len = .w64 then 0 else (BitVec.ofNat 24 (f.imm.toNat / 256)).toInt)) := by
  have hdisp : (if f.len = .w64 then (0 : Dword) else (BitVec.ofNat 24 (f.imm.toNat / 256)).signExtend 64) =
      BitVec.ofInt 64 (if f.len = .w64 then 0 else (BitVec.ofNat 24 (f.imm.toNat / 256)).toInt) := by
    split <;> rfl
  rw [hdisp, extend_shiftLeft, ← ofInt_add_ofInt, BitVec.ofInt_toInt]

/-- Settles O3: each instruction puts the stated value into the pair D. -/
theorem scalarPairs : Obligations.ScalarPairs := by
  refine ⟨pairTable_writesPair, fun f s g h => ?_, fun f s g h => ?_⟩
  · exact pairWrite_of h rfl (v := fun s g => if f.len = .w128 then f.imm else s.readSP g f.a) rfl
  · rw [← slea_value]
    exact pairWrite_of h rfl (v := fun s g => s.readSP g f.a + (if f.m 1 then (s.readS g f.b).zeroExtend 64 else (s.readS g f.b).signExtend 64) <<<
        (if f.len = .w64 then f.c.toNat else f.imm.toNat % 256) +
        (if f.len = .w64 then (0 : Dword) else (BitVec.ofNat 24 (f.imm.toNat / 256)).signExtend 64)) rfl

end Sys2Proof.Proofs
end

section
/-! Homes of bytes (spec 14): what a read and a write at a home change, and what they leave. -/

namespace Sys2Proof.Proofs

open Sys2Proof Sys2Proof.Machine Sys2Proof.Claims

/-! ### The relations between states -/

/-- `t` differs from `s` in nothing but what a read at a home does: the counts of the banks and the symbol code, the schemes that a frame
has been reached through, and health counters (spec 14, R331, R333, R335; spec 25, R464). -/
structure ReadHome (s t : State) : Prop where
  rest : { t with dram := s.dram, mgmt := s.mgmt } = s
  counts : { t.mgmt with faults := s.mgmt.faults, healthNew := s.mgmt.healthNew } = s.mgmt
  dram : { t.dram with bac := s.dram.bac, rfm := s.dram.rfm, due := s.dram.due, errors := s.dram.errors, bad := s.dram.bad,
                       schemes := s.dram.schemes, fixed := s.dram.fixed } = s.dram

theorem ReadHome.refl (s : State) : ReadHome s s := ⟨rfl, rfl, rfl⟩

theorem ReadHome.trans {s t u : State} (h : ReadHome s t) (k : ReadHome t u) : ReadHome s u where
  rest := (congrArg (fun x : State => { x with dram := s.dram, mgmt := s.mgmt }) k.rest).trans h.rest
  counts := (congrArg (fun m : Mgmt => { m with faults := s.mgmt.faults, healthNew := s.mgmt.healthNew }) k.counts).trans h.counts
  dram := (congrArg (fun d : Dram => { d with
    bac := s.dram.bac, rfm := s.dram.rfm, due := s.dram.due, errors := s.dram.errors, bad := s.dram.bad,
    schemes := s.dram.schemes, fixed := s.dram.fixed }) k.dram).trans h.dram

theorem ReadHome.mem_eq {s t : State} (h : ReadHome s t) : t.mem = s.mem := (congrArg State.mem h.rest :)
theorem ReadHome.groups_eq {s t : State} (h : ReadHome s t) : t.groups = s.groups := (congrArg State.groups h.rest :)
theorem ReadHome.nodes_eq {s t : State} (h : ReadHome s t) : t.nodes = s.nodes := (congrArg State.nodes h.rest :)
theorem ReadHome.own_eq {s t : State} (h : ReadHome s t) : t.own = s.own := (congrArg State.own h.rest :)
theorem ReadHome.node_eq {s t : State} (h : ReadHome s t) (n : Nat) : t.node n = s.node n := by rw [State.node, State.node, h.nodes_eq]

theorem ReadHome.homesOnly {s t : State} (h : ReadHome s t) : HomesOnly s t where
  rest := (congrArg (fun x : State => { x with nodes := s.nodes, l2 := s.l2 }) h.rest :)
  nodes n := by rw [h.node_eq]
  counts := h.counts
  dram := h.dram

theorem ReadHome.homeWrites {s t : State} (h : ReadHome s t) : HomeWrites s t where
  rest := (congrArg (fun x : State => { x with groups := s.groups, mem := s.mem, own := s.own, nodes := s.nodes }) h.rest :)
  own := by rw [h.own_eq]
  nodes n := by rw [h.node_eq]
  waits n := by rw [h.node_eq]
  counts := h.counts
  dram := (congrArg (fun d : Dram => { d with sram := s.dram.sram }) h.dram :)

theorem homesOnly_refl (s : State) : HomesOnly s s := (ReadHome.refl s).homesOnly

theorem homesOnly_trans {s t u : State} (h : HomesOnly s t) (k : HomesOnly t u) : HomesOnly s u where
  rest := (congrArg (fun x : State => { x with nodes := s.nodes, l2 := s.l2, dram := s.dram, mgmt := s.mgmt }) k.rest).trans h.rest
  nodes n := (congrArg (fun x : Node => { x with tlb := (s.node n).tlb }) (k.nodes n)).trans (h.nodes n)
  counts := (congrArg (fun m : Mgmt => { m with faults := s.mgmt.faults, healthNew := s.mgmt.healthNew }) k.counts).trans h.counts
  dram := (congrArg (fun d : Dram => { d with
    bac := s.dram.bac, rfm := s.dram.rfm, due := s.dram.due, errors := s.dram.errors, bad := s.dram.bad,
    schemes := s.dram.schemes, fixed := s.dram.fixed }) k.dram).trans h.dram

theorem homeWrites_refl (s : State) : HomeWrites s s := (ReadHome.refl s).homeWrites

theorem homeWrites_trans {s t u : State} (h : HomeWrites s t) (k : HomeWrites t u) : HomeWrites s u where
  rest := (congrArg (fun x : State => { x with
    groups := s.groups, mem := s.mem, own := s.own, nodes := s.nodes, dram := s.dram, mgmt := s.mgmt }) k.rest).trans h.rest
  own := (congrArg (fun o : Own => { o with
    seq := s.own.seq, storeLog := s.own.storeLog, touched := s.own.touched, corRel := s.own.corRel }) k.own).trans h.own
  nodes n := (congrArg (fun x : Node => { x with waits := (s.node n).waits }) (k.nodes n)).trans (h.nodes n)
  waits n := (k.waits n).trans (h.waits n)
  counts := (congrArg (fun m : Mgmt => { m with faults := s.mgmt.faults, healthNew := s.mgmt.healthNew }) k.counts).trans h.counts
  dram := (congrArg (fun d : Dram => { d with
    bac := s.dram.bac, rfm := s.dram.rfm, due := s.dram.due, errors := s.dram.errors, bad := s.dram.bad,
    schemes := s.dram.schemes, fixed := s.dram.fixed, sram := s.dram.sram }) k.dram).trans h.dram

/-! ### Reads -/

theorem count_readHome (s : State) (k : Nat) : ReadHome s (s.count k) := ⟨rfl, rfl, rfl⟩

theorem reach_readHome (s : State) (il key : Nat) : ReadHome s (s.reach il key) := by
  unfold State.reach
  split
  · exact .refl s
  · exact ⟨rfl, rfl, rfl⟩

theorem manage_readHome (s : State) (bank : Nat) : ReadHome s (s.manage bank) := ⟨rfl, rfl, rfl⟩

theorem activate_readHome (s : State) (il key : Nat) : ReadHome s (s.activate il key) := by
  unfold State.activate
  split
  · dsimp only
    split
    · exact (manage_readHome s _).trans ⟨rfl, rfl, rfl⟩
    · exact ⟨rfl, rfl, rfl⟩
  · exact .refl s

/-- A fold of steps each of which a relation holds across. -/
theorem foldl_rel {σ α : Type} {R : σ → σ → Prop} (hrefl : ∀ s, R s s) (htrans : ∀ {s t u}, R s t → R t u → R s u)
    {f : σ → α → σ} (l : List α) (hstep : ∀ s, ∀ a ∈ l, R s (f s a)) (s : σ) : R s (l.foldl f s) := by
  induction l generalizing s with
  | nil => exact hrefl s
  | cons a l ih =>
    exact htrans (hstep s a List.mem_cons_self) (ih (fun s a ha => hstep s a (List.mem_cons_of_mem _ ha)) (f s a))

theorem countFixed_readHome (s : State) (il sector : Nat) (p : BitVec 36) : ReadHome s (s.countFixed il sector p) := by
  unfold State.countFixed
  dsimp only
  refine ReadHome.trans (t := { s with dram := { s.dram with errors := Sparse.set 0 s.dram.errors sector 0 } }) ⟨rfl, rfl, rfl⟩ ?_
  refine foldl_rel ReadHome.refl ReadHome.trans _ (fun t i _ => ?_) _
  split
  · exact ⟨rfl, rfl, rfl⟩
  · exact ⟨rfl, rfl, rfl⟩

theorem foundBad_readHome (s : State) (rank sector : Nat) : ReadHome s (s.foundBad rank sector) := ⟨rfl, rfl, rfl⟩

theorem encoded_readHome (s : State) (sector : Nat) : ReadHome s (s.encoded sector) := ⟨rfl, rfl, rfl⟩

theorem readAt_readHome (s : State) (il key n : Nat) : ReadHome s (s.readAt il key n).1 := by
  unfold State.readAt
  split
  · exact .refl s
  · have h := (reach_readHome s il key).trans (activate_readHome _ (s.scheme il key) key)
    dsimp only
    split
    · exact h
    · exact h.trans (countFixed_readHome _ _ _ _)
    · exact h
    · exact h.trans (foundBad_readHome _ _ _)

theorem readRun_readHome (s : State) (il key n : Nat) : ReadHome s (s.readRun il key n).1 := by
  unfold State.readRun
  exact foldl_rel (R := fun r q : State × Option (List Byte) => ReadHome r.1 q.1) (fun r => .refl r.1) (fun h k => h.trans k) _
    (fun r p _ => readAt_readHome r.1 il (key + p.1) p.2) (s, some [])

/-! ### Answering waits -/

theorem node_mapNodes {f : Node → Node} (hf : f Node.reset = Node.reset) (s : State) (n : Nat) :
    (s.mapNodes f).node n = f (s.node n) := by
  simp only [State.node, State.mapNodes, Sparse.get]
  generalize s.nodes = l
  induction l with
  | nil => simp [Sparse.find, hf]
  | cons p l ih =>
    obtain ⟨j, x⟩ := p
    simp only [List.map_cons, Sparse.find]
    split
    · rfl
    · exact ih

/-- A change of the answers of waits alone. -/
theorem homeWrites_mapWaits (s : State) {f : WaitEntry → WaitEntry}
    (hf : ∀ w, { f w with ans := none, bad := false } = { w with ans := none, bad := false }) :
    HomeWrites s (s.mapNodes fun n => { n with waits := n.waits.map f }) where
  rest := rfl
  own := rfl
  nodes n := by rw [node_mapNodes rfl]
  waits n := by
    rw [node_mapNodes rfl, List.map_map]
    exact List.map_congr_left fun w _ => hf w
  counts := rfl
  dram := rfl

/-- `t` is `s` after writes at homes, which touch no group. -/
structure WroteHome (s t : State) : Prop where
  writes : HomeWrites s t
  groups : t.groups = s.groups

theorem WroteHome.refl (s : State) : WroteHome s s := ⟨homeWrites_refl s, rfl⟩

theorem WroteHome.trans {s t u : State} (h : WroteHome s t) (k : WroteHome t u) : WroteHome s u :=
  ⟨homeWrites_trans h.writes k.writes, k.groups.trans h.groups⟩

theorem ReadHome.wroteHome {s t : State} (h : ReadHome s t) : WroteHome s t := ⟨h.homeWrites, h.groups_eq⟩

theorem answerEntry_wroteHome (s : State) (w : WaitEntry) : WroteHome s (s.answerEntry w) := by
  refine (readAt_readHome s w.il w.loc 4).wroteHome.trans ⟨homeWrites_mapWaits _ fun v => ?_, rfl⟩
  split <;> rfl

theorem answerEntry_mem (s : State) (w : WaitEntry) : (s.answerEntry w).mem = s.mem := (readAt_readHome s w.il w.loc 4).mem_eq

theorem answerAll_wroteHome (s : State) (p : WaitEntry → Bool) : WroteHome s (s.answerAll p) :=
  foldl_rel WroteHome.refl WroteHome.trans _ (fun t w _ => answerEntry_wroteHome t w) s

theorem answerAll_mem (s : State) (p : WaitEntry → Bool) : (s.answerAll p).mem = s.mem :=
  foldl_rel (R := fun s t : State => t.mem = s.mem) (fun _ => rfl) (fun h k => k.trans h) _ (fun t w _ => answerEntry_mem t w) s

/-! ### Writes -/

theorem land_wroteHome (s : State) (key : Nat) (bs : List Byte) (rel : Option (Nat × Nat)) : WroteHome s (s.land key bs rel) := by
  unfold State.land State.answerWaits
  refine WroteHome.trans ?_ (answerAll_wroteHome _ _)
  exact ⟨⟨rfl, rfl, fun _ => rfl, fun _ => rfl, rfl, rfl⟩, rfl⟩

theorem land_mem (s : State) (key : Nat) (bs : List Byte) (rel : Option (Nat × Nat)) :
    (s.land key bs rel).mem = Mem.wrBytes s.mem key bs := by
  unfold State.land State.answerWaits
  exact answerAll_mem _ _

theorem mended_wroteHome (s : State) (key n : Nat) : WroteHome s (s.mended key n) := by
  unfold State.mended
  split
  · exact .refl s
  · exact ⟨⟨rfl, rfl, fun _ => rfl, fun _ => rfl, rfl, rfl⟩, rfl⟩

theorem mended_mem (s : State) (key n : Nat) : (s.mended key n).mem = s.mem := by
  unfold State.mended
  split <;> rfl

end Sys2Proof.Proofs
end

section
/-! Control instructions of spec 05: misaligned targets (R111), nop and the leaving of lanes (R122). -/

namespace Sys2Proof.Proofs

open Sys2Proof Sys2Proof.Machine Sys2Proof.Claims

/-! ### R111: misaligned targets -/

theorem aligned_of_misaligned {s : State} {gid : Nat} {g : Group} {t : Dword} (h : t.toNat % 4 ≠ 0) (k : Res) :
    aligned s gid g t k = .next (s.trap gid .ialign g.ctl.exm t 0) := if_pos h

theorem branch_of_misaligned {f : Fields} {s : State} {gid : Nat} {g : Group} (h : (branchTarget g f).toNat % 4 ≠ 0) (c : Bool) :
    branch f s gid g c = .next (s.trap gid .ialign g.ctl.exm (branchTarget g f) 0) := aligned_of_misaligned h _

theorem diverge_of_misaligned {f : Fields} {s : State} {gid : Nat} {g : Group} (h : (branchTarget g f).toNat % 4 ≠ 0) (k : SKind) (t : Word) :
    diverge f s gid g k t = .next (s.trap gid .ialign g.ctl.exm (branchTarget g f) 0) := by
  have hne : target g f ≠ 0 := fun h0 => h (by rw [show branchTarget g f = target g f from rfl, h0]; rfl)
  rw [diverge, if_neg hne]
  exact aligned_of_misaligned h _

theorem callTo_of_misaligned {f : Fields} {s : State} {gid : Nat} {g : Group} {t : Dword} (h : t.toNat % 4 ≠ 0) :
    callTo f s gid g t = .next (s.trap gid .ialign g.ctl.exm t 0) := aligned_of_misaligned h _

/-- An instruction that is ready does what its meaning does. -/
theorem exec_of_ready {i : Instr} {f : Fields} {r : Row} {s : State} {g : Group} (h : Ready i s g) (hrow : i.row = some (f, r))
    {k : Nat → Group → Res} (hexec : exec i s = issue r f s k) : exec i s = k s.own.cur g :=
  hexec.trans (issue_of_ready h hrow k)

/-- The instructions of `c` trap at a target `tgt` that is not aligned. -/
def TrapsMisaligned (tgt : State → Group → Fields → Dword) (c : Fields → Instr) : Prop :=
  ∀ (f : Fields) (s : State) (g : Group), Ready (c f) s g → (tgt s g f).toNat % 4 ≠ 0 →
    exec (c f) s = .next (s.trap s.own.cur .ialign g.ctl.exm (tgt s g f) 0)

theorem trapsMisaligned_of {tgt : State → Group → Fields → Dword} {c : Fields → Instr} {row : Fields → Row}
    {k : Fields → State → Nat → Group → Res} (hrow : ∀ f, (c f).row = some (f, row f)) (hexec : ∀ f s, exec (c f) s = issue (row f) f s (k f s))
    (hk : ∀ f s gid g, (tgt s g f).toNat % 4 ≠ 0 → k f s gid g = .next (s.trap gid .ialign g.ctl.exm (tgt s g f) 0)) :
    TrapsMisaligned tgt c :=
  fun f s g h ht => (exec_of_ready h (hrow f) (hexec f s)).trans (hk f s _ g ht)

/-- A transfer to a PC-relative target checks its alignment before it does anything else. -/
theorem relative_trapsMisaligned : ∀ c ∈ [Instr.br, Instr.bz, Instr.bnz, Instr.bmz, Instr.bmnz, Instr.bvany, Instr.bvall, Instr.bdiv,
    Instr.bdivw, Instr.bdivs, Instr.call], TrapsMisaligned (fun _ g f => branchTarget g f) c := by
  simp only [List.forall_mem_cons, List.not_mem_nil, false_imp_iff, implies_true, and_true]
  refine ⟨?br, ?bz, ?bnz, ?bmz, ?bmnz, ?bvany, ?bvall, ?bdiv, ?bdivw, ?bdivs, ?call⟩
  case br =>
    exact trapsMisaligned_of (k := fun f s gid g => branch f s gid g true) (fun _ => rfl) (fun _ _ => rfl)
      fun _ _ _ _ ht => branch_of_misaligned ht _
  case bz =>
    exact trapsMisaligned_of (k := fun f s gid g => branch f s gid g (s.readS g f.a = 0)) (fun _ => rfl) (fun _ _ => rfl)
      fun _ _ _ _ ht => branch_of_misaligned ht _
  case bnz =>
    exact trapsMisaligned_of (k := fun f s gid g => branch f s gid g (s.readS g f.a ≠ 0)) (fun _ => rfl) (fun _ _ => rfl)
      fun _ _ _ _ ht => branch_of_misaligned ht _
  case bmz =>
    exact trapsMisaligned_of (k := fun f s gid g => branch f s gid g (s.readS g f.a &&& g.ctl.livem = 0)) (fun _ => rfl) (fun _ _ => rfl)
      fun _ _ _ _ ht => branch_of_misaligned ht _
  case bmnz =>
    exact trapsMisaligned_of (k := fun f s gid g => branch f s gid g (s.readS g f.a &&& g.ctl.livem ≠ 0)) (fun _ => rfl) (fun _ _ => rfl)
      fun _ _ _ _ ht => branch_of_misaligned ht _
  case bvany =>
    exact trapsMisaligned_of (k := fun f s gid g => branch f s gid g ((lanesOf g.ctl.exm).any (fun L => s.readV g f.a.toNat L ≠ 0))) (fun _ => rfl) (fun _ _ => rfl)
      fun _ _ _ _ ht => branch_of_misaligned ht _
  case bvall =>
    exact trapsMisaligned_of (k := fun f s gid g => branch f s gid g ((lanesOf g.ctl.exm).all (fun L => s.readV g f.a.toNat L ≠ 0))) (fun _ => rfl) (fun _ _ => rfl)
      fun _ _ _ _ ht => branch_of_misaligned ht _
  case bdiv =>
    exact trapsMisaligned_of (k := fun f s gid g => diverge f s gid g .div (takenV s g f)) (fun _ => rfl) (fun _ _ => rfl)
      fun _ _ _ _ ht => diverge_of_misaligned ht _ _
  case bdivw =>
    exact trapsMisaligned_of (k := fun f s gid g => diverge f s gid g .divw (takenV s g f)) (fun _ => rfl) (fun _ _ => rfl)
      fun _ _ _ _ ht => diverge_of_misaligned ht _ _
  case bdivs =>
    exact trapsMisaligned_of (k := fun f s gid g => diverge f s gid g .div (g.ctl.exm &&& s.readS g f.a)) (fun _ => rfl) (fun _ _ => rfl)
      fun _ _ _ _ ht => diverge_of_misaligned ht _ _
  case call =>
    exact trapsMisaligned_of (k := fun f s gid g => callTo f s gid g (target g f)) (fun _ => rfl) (fun _ _ => rfl)
      fun _ _ _ _ ht => callTo_of_misaligned ht

/-- So does a transfer to the target in a pair. -/
theorem paired_trapsMisaligned : ∀ c ∈ [Instr.jmp, Instr.calli], TrapsMisaligned (fun s g f => s.readSP g f.a) c := by
  simp only [List.forall_mem_cons, List.not_mem_nil, false_imp_iff, implies_true, and_true]
  refine ⟨?jmp, ?calli⟩
  case jmp =>
    exact trapsMisaligned_of (k := fun f s gid g => aligned s gid g (s.readSP g f.a) (.next (s.jump gid (s.readSP g f.a)))) (fun _ => rfl) (fun _ _ => rfl)
      fun _ _ _ _ ht => aligned_of_misaligned ht _
  case calli =>
    exact trapsMisaligned_of (k := fun f s gid g => callTo f s gid g (s.readSP g f.a)) (fun _ => rfl) (fun _ _ => rfl)
      fun _ _ _ _ ht => callTo_of_misaligned ht

/-- Settles O7: each transfer checks its target's alignment before it does anything else. -/
theorem controlTraps : Obligations.ControlTraps := ⟨relative_trapsMisaligned, paired_trapsMisaligned⟩

/-! ### R122: lanes that leave, in a list of groups that is not canonical -/

/-- The sample group: lane 0 active, lanes 0 and 1 live. -/
def twoLanes : Group :=
  let g := Group.start 1 0 0 0 1 0x10000 0 0 true
  { g with ctl := { g.ctl with exm := 1, livem := 3 } }

/-- A group of core 1 whose matrix FIFO holds a command, of a block that is not there. -/
def queuedElsewhere : Group :=
  let g := Group.start 99 0 1 0 1 0x10000 0 0 true
  { g with eng := { g.eng with matQ := [{ id := 0, kind := .mma, f := word .w64 0 0 0 0 0 0, pc := 0, gang := 0, opA := 0, opB := 0, words := [] }] } }

/-- Two groups under the identity 2, which no step lists: the first of core 1, the other of core 0. -/
def doubled : State :=
  { State.reset with
    own := { State.reset.own with cur := 1 }
    groups := [(1, twoLanes), (2, queuedElsewhere), (2, twoLanes)]
    blocks := [(1, placedBlock)], grids := [(1, placedGrid 0)] }

/-- What an instruction leaves; the state itself where it does not end in one. -/
def after (i : Instr) (s : State) : State :=
  match exec i s with
  | .next t => t
  | _ => s

theorem eq_after {i : Instr} {s t : State} (h : exec i s = .next t) : t = after i s := by
  rw [after, h]

theorem ready_nil {i : Instr} {s : State} {g : Group} (hg : s.group s.own.cur = some g)
    (hrow : ∀ f r, i.row = some (f, r) → namedRegs r f = [] ∧ r.sup = false) : Ready i s g := by
  refine ⟨hg, fun f r hr => ?_⟩
  obtain ⟨hnil, hsup⟩ := hrow f r hr
  simp [hnil, hsup]

/-- Refutes O9: exit moves on the matrix FIFO of every identity that a group of its core is listed under. In `doubled` the identity 2 is listed
twice, so that a FIFO of core 1 loses its head although a lane stays. -/
theorem not_leavingLanes : ¬ Obligations.LeavingLanes := by
  intro h
  have hready : Ready (.exit (word .w64 0 0 0 0 0 0)) doubled twoLanes := by
    refine ready_nil (by decide +kernel) fun f r hr => ?_
    cases hr
    decide +kernel
  have hquiet : NoMatrixWaits doubled twoLanes.owner := by
    intro p hp
    fin_cases hp <;> decide +kernel
  obtain ⟨t, ht, hothers, -⟩ := (h (word .w64 0 0 0 0 0 0) doubled twoLanes).2 (.exit, twoLanes.ctl.exm) List.mem_cons_self hready (by decide +kernel) hquiet
  have hkept : (after (.exit (word .w64 0 0 0 0 0 0)) doubled).group 2 = doubled.group 2 := by
    rw [← eq_after ht]
    exact hothers 2 (by decide +kernel) (by decide +kernel)
  exact absurd hkept (by decide +kernel)

end Sys2Proof.Proofs
end

section
/-! Structured divergence and indirect jumps on a deep stack (R114, R120): what a home may do to the entries that leave the chip. A wait on a byte of
the stack area, reached through a page of another interleave scheme, is answered by the first piece of an entry; from then on the frame has that
scheme, and the symbol code finds another rank. -/

namespace Sys2Proof.Proofs

open Sys2Proof Sys2Proof.Machine Sys2Proof.Claims

/-! ### Writes in a sector that the symbol code does not find clean -/

theorem activate_ecc (s : State) (il key : Nat) : (s.activate il key).ecc = s.ecc := by
  unfold State.activate
  split
  · dsimp only
    split <;> rfl
  · rfl

theorem reach_ownIl (s : State) (key : Nat) : s.reach ownIl key = s := rfl

theorem activate_mem (s : State) (il key : Nat) : (s.activate il key).mem = s.mem := (activate_readHome s il key).mem_eq
theorem activate_own (s : State) (il key : Nat) : (s.activate il key).own = s.own := (activate_readHome s il key).own_eq

/-- A partial write of an uncorrectable sector is discarded (spec 14, R336). -/
theorem writeAt_mem_of_bad {s : State} {key : Nat} {bs : List Byte} (hfar : key < 2 ^ 39) (hpart : bs.length ≠ 32)
    (hecc : s.ecc (s.scheme ownIl key) (key / 32) = .bad) : (s.writeAt ownIl key bs none).1.mem = s.mem := by
  unfold State.writeAt
  rw [if_neg (Nat.not_le.mpr hfar)]
  simp only [if_neg hpart, reach_ownIl, activate_ecc, hecc]
  exact activate_mem s _ _

/-- A partial write of a sector that the code miscorrects leaves the sector's other bytes free (spec 14, R335, R336). -/
theorem writeAt_mem_of_wrong {s : State} {key : Nat} {bs : List Byte} (hfar : key < 2 ^ 39) (hpart : bs.length ≠ 32)
    (hecc : s.ecc (s.scheme ownIl key) (key / 32) = .wrong) :
    (s.writeAt ownIl key bs none).1.mem = Mem.wrBytes (Mem.wrBytes s.mem (key / 32 * 32)
      ((List.range 32).map (fun i => Config.freeByte s.own.fresh (key / 32 * 32 + i)))) key bs := by
  unfold State.writeAt
  rw [if_neg (Nat.not_le.mpr hfar)]
  simp only [if_neg hpart, reach_ownIl, activate_ecc, hecc]
  rw [land_mem, activate_mem, activate_own]

/-- No wait of the device is without an answer. -/
def NoneWaits (s : State) : Prop := (s.nodes.flatMap (fun n => n.2.waits)).filter (fun w => w.ans.isNone) = []

theorem answerAll_of_noneWaits {s : State} (h : NoneWaits s) (p : WaitEntry → Bool) : s.answerAll p = s := by
  have hnil : (s.nodes.flatMap (fun n => n.2.waits)).filter (fun w => w.ans.isNone && p w) = [] := by
    rw [List.filter_eq_nil_iff]
    intro w hw hand
    exact List.filter_eq_nil_iff.mp h w hw (Bool.and_eq_true_iff.mp hand).1
  rw [State.answerAll, hnil, List.foldl_nil]

theorem land_of_noneWaits {s : State} (h : NoneWaits s) (key : Nat) (bs : List Byte) (rel : Option (Nat × Nat)) :
    (s.land key bs rel).own.fresh = s.own.fresh ∧ (s.land key bs rel).nodes = s.nodes ∧ (s.land key bs rel).dram = s.dram := by
  unfold State.land State.answerWaits
  rw [answerAll_of_noneWaits (by exact h)]
  exact ⟨rfl, rfl, rfl⟩

/-- The outcome of reading a sector, in terms of what it depends on. -/
theorem ecc_eq_of_wrongAt {s : State} {il sec : Nat} {err marks : BitVec 36} (hgood : s.dram.bad.contains sec = false)
    (herr : s.wrongAt (rankOf (s.scheme il (sec * 32)) (sec * 32)) sec = err)
    (hmarks : Sparse.get 0 s.dram.erase (rankOf (s.scheme il (sec * 32)) (sec * 32)) = marks) (hne : err ≠ 0)
    (hmany : ¬ 2 * symbols (err &&& ~~~marks) + symbols marks ≤ 4) :
    s.ecc il sec = if Config.freeBool s.own.fresh sec then .wrong else .bad := by
  simp only [State.ecc, hgood, herr, hmarks, hne, hmany, Bool.false_eq_true, if_false]

/-- An activation changes the counts of banks alone (spec 14, R333). -/
theorem activate_dram (s : State) (il key : Nat) :
    { (s.activate il key).dram with bac := s.dram.bac, rfm := s.dram.rfm, due := s.dram.due } = s.dram := by
  unfold State.activate
  split
  · dsimp only
    split <;> rfl
  · rfl

/-- The frame of the second sector of the sample stack area has been reached through a page of scheme 3 alone; under it the sector's rank is 64,
three of whose byte lanes have failed. No wait of the device is without an answer. -/
structure Fragile (u : State) : Prop where
  fresh : u.own.fresh = 0
  quiet : NoneWaits u
  schemes : Sparse.get 0 u.dram.schemes 0 = 8
  lanes : Sparse.get 0 u.dram.lanes 64 = 7
  erase : Sparse.get 0 u.dram.erase 64 = 0
  errors : Sparse.get 0 u.dram.errors 128 = 0
  good : u.dram.bad.contains 128 = false

theorem Fragile.scheme {u : State} (h : Fragile u) {key : Nat} (hkey : key < 2 ^ 30) : u.scheme ownIl key = 3 := by
  have hof : u.schemesOf key = 8 := by
    rw [State.schemesOf, Nat.div_eq_of_lt hkey, h.schemes]
  rw [State.scheme, hof]
  decide

/-- The code finds 12 wrong symbols in the sector: it decodes to a wrong word or not at all, which the spec leaves open (spec 14, R335). -/
theorem Fragile.ecc {u : State} (h : Fragile u) : u.ecc 3 128 = if Config.freeBool 0 128 then .wrong else .bad := by
  have hrank : rankOf (u.scheme 3 (128 * 32)) (128 * 32) = 64 := by
    rw [show u.scheme 3 (128 * 32) = 3 from rfl]
    decide
  rw [← h.fresh]
  refine ecc_eq_of_wrongAt (err := 0x7070707#36) h.good ?_ (by rw [hrank, h.erase]) (by decide) (by decide)
  rw [hrank, State.wrongAt, h.lanes, h.errors]
  decide

theorem Fragile.activate {u : State} (h : Fragile u) (il key : Nat) : Fragile (u.activate il key) where
  fresh := (congrArg Own.fresh (activate_own u il key)).trans h.fresh
  quiet := by
    have hn : (u.activate il key).nodes = u.nodes := (activate_readHome u il key).nodes_eq
    rw [NoneWaits, hn]
    exact h.quiet
  schemes := (congrArg (fun d : Dram => Sparse.get 0 d.schemes 0) (activate_dram u il key)).trans h.schemes
  lanes := (congrArg (fun d : Dram => Sparse.get 0 d.lanes 64) (activate_dram u il key)).trans h.lanes
  erase := (congrArg (fun d : Dram => Sparse.get 0 d.erase 64) (activate_dram u il key)).trans h.erase
  errors := (congrArg (fun d : Dram => Sparse.get 0 d.errors 128) (activate_dram u il key)).trans h.errors
  good := (congrArg (fun d : Dram => d.bad.contains 128) (activate_dram u il key)).trans h.good

theorem Fragile.encoded {u : State} (h : Fragile u) : Fragile (u.encoded 128) where
  fresh := h.fresh
  quiet := h.quiet
  schemes := h.schemes
  lanes := h.lanes
  erase := h.erase
  errors := Sparse.get_set_same 0 u.dram.errors 128 0
  good := by simp [State.encoded]

theorem Fragile.withMem {u : State} (h : Fragile u) (m : Mem) : Fragile { u with mem := m } :=
  ⟨h.fresh, h.quiet, h.schemes, h.lanes, h.erase, h.errors, h.good⟩

theorem Fragile.land {u : State} (h : Fragile u) (key : Nat) (bs : List Byte) (rel : Option (Nat × Nat)) : Fragile (u.land key bs rel) := by
  obtain ⟨hf, hn, hd⟩ := land_of_noneWaits h.quiet key bs rel
  refine ⟨hf.trans h.fresh, ?_, ?_, ?_, ?_, ?_, ?_⟩
  · rw [NoneWaits, hn]
    exact h.quiet
  · rw [hd, h.schemes]
  · rw [hd, h.lanes]
  · rw [hd, h.erase]
  · rw [hd, h.errors]
  · rw [hd, h.good]

/-- An incomplete write of the sector, where the code decodes it to a wrong word, leaves it as fragile. -/
theorem Fragile.write {u : State} (h : Fragile u) (hwrong : Config.freeBool 0 128 = true) {key : Nat} {bs : List Byte} (hkey : key / 32 = 128)
    (hpart : bs.length ≠ 32) : Fragile (u.writeAt ownIl key bs none).1 := by
  have hecc : u.ecc 3 128 = .wrong := by rw [h.ecc, hwrong, if_pos rfl]
  unfold State.writeAt
  rw [if_neg (show ¬ 2 ^ 39 ≤ key by omega)]
  simp only [if_neg hpart, reach_ownIl, activate_ecc, h.scheme (show key < 2 ^ 30 by omega), hkey, hecc]
  exact ((h.activate 3 key).encoded.withMem _).land key bs none

/-- An incomplete write of the sector, where the code finds it uncorrectable, changes no byte and lets it stay uncorrectable. -/
theorem Fragile.write_bad {u : State} (h : Fragile u) (hbad : Config.freeBool 0 128 = false) {key key' : Nat} {bs bs' : List Byte}
    (hkey : key / 32 = 128) (hkey' : key' / 32 = 128) (hpart : bs.length ≠ 32) (hpart' : bs'.length ≠ 32) :
    ((u.writeAt ownIl key bs none).1.writeAt ownIl key' bs' none).1.mem = u.mem := by
  have hscheme := h.scheme (show key < 2 ^ 30 by omega)
  have hecc : u.ecc (u.scheme ownIl key) (key / 32) = .bad := by rw [hscheme, hkey, h.ecc, hbad, if_neg Bool.false_ne_true]
  have hmem := writeAt_mem_of_bad (bs := bs) (show key < 2 ^ 39 by omega) hpart hecc
  have hfound : (u.writeAt ownIl key bs none).1.dram.bad.contains 128 = true := by
    unfold State.writeAt
    rw [if_neg (show ¬ 2 ^ 39 ≤ key by omega)]
    rw [hscheme, hkey] at hecc
    simp only [if_neg hpart, reach_ownIl, activate_ecc, hscheme, hkey, hecc, State.count, State.foundBad]
    by_cases hin : (u.activate 3 key).dram.bad.contains 128 = true
    · simp only [hin, if_true]
    · rw [if_neg hin, List.contains_cons, beq_self_eq_true, Bool.true_or]
  have hecc' : ∀ il, (u.writeAt ownIl key bs none).1.ecc il (key' / 32) = .bad := by
    intro il
    rw [hkey']
    simp only [State.ecc, hfound, if_true]
  rw [writeAt_mem_of_bad (show key' < 2 ^ 39 by omega) hpart' (hecc' _), hmem]

/-! ### Two entries that leave the chip -/

theorem leBytes_length (x n : Nat) : (leBytes x n).length = n := by
  induction n generalizing x with
  | zero => rfl
  | succ n ih => rw [leBytes, List.length_cons, ih]

theorem entry_bytes_length (e : Entry) : e.bytes.length = 16 := leBytes_length _ _

/-- Byte i of a run of bytes of memory. -/
theorem bytes_getElem? (m : Mem) (k n : Nat) {i : Nat} (hi : i < n) : (Mem.bytes m k n)[i]? = some (Mem.rd m (k + i)) := by
  induction n generalizing k i with
  | zero => omega
  | succ n ih =>
    cases i with
    | zero => rfl
    | succ i =>
      rw [Mem.bytes, List.getElem?_cons_succ, ih (k + 1) (by omega)]
      congr 2
      omega

/-- The first of the two entries lies across the boundary of the fragile sector; its second part is discarded where the code finds the sector
uncorrectable, and overwritten with the second entry's write where the code miscorrects it. -/
theorem spill_loses_entry {s : State} {g : Group} {e0 e1 : Entry} (harea : s.stackArea g = some 0xFF8) (hlen : g.ctl.stack.length = 18)
    (h0 : g.ctl.stack.reverse[0]? = some e0) (h1 : g.ctl.stack.reverse[1]? = some e1)
    (hfragile : Fragile (s.writeAt ownIl 0xFF8 (e0.bytes.take 8) none).1)
    (hzero : Mem.rd (s.writeAt ownIl 0xFF8 (e0.bytes.take 8) none).1.mem 0x1004 = 0)
    (hkind : e0.bytes[12]? ≠ some 0) (hmask : e0.bytes[8]? ≠ some (Config.freeByte 0 0x1000)) :
    Mem.bytes (s.spill 16 g).mem 0xFF8 16 ≠ e0.bytes := by
  intro heq
  have hl0 := entry_bytes_length e0
  have hl1 := entry_bytes_length e1
  have hp0 : unitPieces 32 0xFF8 16 = [(0, 8), (8, 8)] := by decide
  have hp1 : unitPieces 32 0x1008 16 = [(0, 16)] := by decide
  have hnear0 : ¬ 2 ^ 39 ≤ 4088 := by decide
  have hnear1 : ¬ 2 ^ 39 ≤ 4104 := by decide
  have hspill : s.spill 16 g = (((s.writeAt ownIl 0xFF8 (e0.bytes.take 8) none).1.writeAt ownIl 0x1000 (e0.bytes.drop 8) none).1.writeAt
      ownIl 0x1008 e1.bytes none).1 := by
    simp only [State.spill, harea, hlen, State.writeStack, State.writeRun]
    rw [show (List.range (18 - 16)).drop (16 - 16) = [0, 1] from rfl]
    simp only [List.foldl_cons, List.foldl_nil, h0, h1, hl0, hl1, Nat.mul_zero, Nat.mul_one, Nat.add_zero, Nat.reduceAdd,
      hnear0, hnear1, if_false, hp0, hp1, List.drop_zero, List.take_of_length_le (show (e0.bytes.drop 8).length ≤ 8 by simp [hl0]),
      List.take_of_length_le (show e1.bytes.length ≤ 16 by simp [hl1])]
  have hbyte : ∀ i, i < 16 → e0.bytes[i]? = some (Mem.rd (s.spill 16 g).mem (0xFF8 + i)) := by
    intro i hi
    rw [← heq, bytes_getElem? _ _ _ hi]
  generalize (s.writeAt ownIl 0xFF8 (e0.bytes.take 8) none).1 = u at hfragile hzero hspill
  cases hfree : Config.freeBool 0 128 with
  | false =>
    have hmem := hfragile.write_bad hfree (key := 0x1000) (bs := e0.bytes.drop 8) (key' := 0x1008) (bs' := e1.bytes) (by decide) (by decide)
      (by simp [hl0]) (by simp [hl1])
    refine hkind ?_
    rw [hbyte 12 (by decide), hspill, hmem, hzero]
  | true =>
    have hfragile' := hfragile.write hfree (key := 0x1000) (bs := e0.bytes.drop 8) (by decide) (by simp [hl0])
    generalize (u.writeAt ownIl 0x1000 (e0.bytes.drop 8) none).1 = v at hfragile' hspill
    have hecc : v.ecc (v.scheme ownIl 0x1008) (0x1008 / 32) = .wrong := by
      rw [hfragile'.scheme (by decide), show 0x1008 / 32 = 128 from rfl, hfragile'.ecc, hfree, if_pos rfl]
    have hmem := writeAt_mem_of_wrong (bs := e1.bytes) (by decide) (by simp [hl1]) hecc
    refine hmask ?_
    rw [hbyte 8 (by decide), hspill, hmem, Mem.rd_wrBytes_outside _ _ _ (.inl (by decide)), hfragile'.fresh]
    have hin := Mem.rd_wrBytes_inside v.mem 0x1000 ((List.range 32).map (fun i => Config.freeByte 0 (0x1000 + i))) (i := 0) (by simp)
    simpa using hin

/-! ### R114 on a deep stack -/

/-- Two entries at the bottom of a stack, whose masks are `m`. -/
def bottomEntry (m : Word) : Entry := { waiting := false, tmo := 0, kind := .div, mask := m, pc := 0 }

/-- The sample group: every lane active, 16 entries, bit 0 of s0 set. -/
def deepGroup (m : Word) : Group :=
  let g := Group.start 1 0 0 0 1 0x10000 0 0 true
  { g with ctl := { g.ctl with stack := List.replicate 16 (bottomEntry m) }, regs := { g.regs with s := [(0, 1)] } }

/-- A wait on the first word of the stack area, of any value, that a page of scheme 3 has led to. -/
def schemeWait : WaitEntry :=
  { id := 1, loc := 0xFF8, il := 3, mask := 0, cmp := 0, e := 0, gid := 9, acc := 0, part := 0, deadline := none, ans := none, bad := false }

/-- A device whose group's stack area lies in far memory from 0xFF8 on; `schemeWait` waits there, and under its scheme the next sector's rank has failed byte lanes. -/
def deep (m : Word) : State :=
  { State.reset with
    own := { State.reset.own with cur := 1 }
    groups := [(1, deepGroup m)], blocks := [(1, { placedBlock with areas := [0xFF8] })], grids := [(1, placedGrid 0)]
    nodes := [(0, { Node.reset with waits := [schemeWait] })]
    dram := { State.reset.dram with lanes := [(64, 7)] } }

/-- The device when the first piece of the lowest entry has been written, and the wait answered. -/
def deepWritten (m : Word) : State := ((deep m).writeAt ownIl 0xFF8 ((bottomEntry m).bytes.take 8) none).1

theorem fragile_deepWritten {m : Word} (hm : m = 0 ∨ m = 1) : Fragile (deepWritten m) := by
  obtain rfl | rfl := hm
  · exact ⟨by decide +kernel, by unfold NoneWaits; decide +kernel, by decide +kernel, by decide +kernel, by decide +kernel, by decide +kernel, by decide +kernel⟩
  · exact ⟨by decide +kernel, by unfold NoneWaits; decide +kernel, by decide +kernel, by decide +kernel, by decide +kernel, by decide +kernel, by decide +kernel⟩

theorem deepWritten_zero {m : Word} (hm : m = 0 ∨ m = 1) : Mem.rd (deepWritten m).mem 0x1004 = 0 := by
  obtain rfl | rfl := hm <;> decide +kernel

/-- A mask of which the free byte of the sector is no copy. -/
def oddMask : Word := if Config.freeByte 0 0x1000 = 0 then 1 else 0

theorem oddMask_cases : oddMask = 0 ∨ oddMask = 1 := by
  unfold oddMask
  split
  · exact .inr rfl
  · exact .inl rfl

theorem oddMask_lost : (bottomEntry oddMask).bytes[8]? ≠ some (Config.freeByte 0 0x1000) := by
  unfold oddMask
  split
  case isTrue h => rw [h]; decide
  case isFalse h =>
    rw [show (bottomEntry 0).bytes[8]? = some 0 from by decide]
    exact fun heq => h (Option.some.inj heq).symm

theorem bottomEntry_kind {m : Word} (hm : m = 0 ∨ m = 1) : (bottomEntry m).bytes[12]? ≠ some 0 := by
  obtain rfl | rfl := hm <;> decide

/-- What pushes of two entries onto the sample stack leave of the entry at its bottom. -/
theorem deep_loses_entry {g : Group} (harea : (deep oddMask).stackArea g = some 0xFF8) (hlen : g.ctl.stack.length = 18)
    (hbottom : g.ctl.stack.drop 2 = List.replicate 16 (bottomEntry oddMask)) :
    Mem.bytes ((deep oddMask).spill 16 g).mem 0xFF8 16 ≠ (bottomEntry oddMask).bytes := by
  have hrev : ∀ i, i < 2 → g.ctl.stack.reverse[i]? = some (bottomEntry oddMask) := by
    intro i hi
    rw [List.getElem?_reverse (by omega), hlen, show 18 - 1 - i = 2 + (15 - i) by omega, ← List.getElem?_drop, hbottom,
      List.getElem?_replicate, if_pos (by omega)]
  exact spill_loses_entry harea hlen (hrev 0 (by decide)) (hrev 1 (by decide)) (fragile_deepWritten oddMask_cases)
    (deepWritten_zero oddMask_cases) (bottomEntry_kind oddMask_cases) oddMask_lost

/-- `Ready` by evaluation. -/
def isReady (i : Instr) (s : State) (g : Group) : Bool :=
  decide (s.group s.own.cur = some g) &&
  match i.row with
  | none => true
  | some (f, r) => decide (∀ n ∈ namedRegs r f, s.owns g n.scalar n.reg = true ∧ (n.role ≠ .peek → g.isEmpty n.scalar n.reg = false) ∧
      (n.role ≠ .dst → if n.scalar then n.reg ∉ g.regs.sbad else ∀ k ∈ g.regs.vbad, k / 32 ≠ n.reg)) && (!r.sup || g.priv)

theorem ready_of_isReady {i : Instr} {s : State} {g : Group} (h : isReady i s g = true) : Ready i s g := by
  rw [isReady, Bool.and_eq_true, decide_eq_true_eq] at h
  refine ⟨h.1, fun f r hr => ?_⟩
  have hnamed := h.2
  simp only [hr, Bool.and_eq_true, decide_eq_true_eq, Bool.or_eq_true, Bool.not_eq_true'] at hnamed
  exact ⟨hnamed.1, fun hsup => hnamed.2.resolve_left (by simp [hsup])⟩

/-- The sample bdivs: lane 0 goes to the target 16 bytes on. -/
def splitFields : Fields := word .w64 0 0 0 0 0 0x10

theorem deep_ready {m : Word} (hm : m = 0 ∨ m = 1) : Ready (.bdivs splitFields) (deep m) (deepGroup m) := by
  obtain rfl | rfl := hm
  · exact ready_of_isReady (by decide +kernel)
  · exact ready_of_isReady (by decide +kernel)

theorem deep_inPlace {m : Word} (hm : m = 0 ∨ m = 1) : InPlace (deep m) 0xFF8 := by
  obtain rfl | rfl := hm
  · exact .inr (by decide +kernel)
  · exact .inr (by decide +kernel)

theorem deepGroup_taken {m : Word} (hm : m = 0 ∨ m = 1) : (deepGroup m).ctl.exm &&& (deep m).readS (deepGroup m) splitFields.a = 1 := by
  obtain rfl | rfl := hm <;> decide +kernel

/-- The group when the lanes of `t` have gone to the target `tgt`: the restore entry and the path entry on its stack. -/
def divided (g : Group) (k : SKind) (t : Word) (tgt : Dword) : Group :=
  let g2 := (g.push k g.ctl.exm 0 0).push k t tgt 0
  { g2 with ctl := { g2.ctl with exm := g.ctl.exm &&& ~~~t } }

/-- A divergence with room for its two entries pushes both. -/
theorem diverge_of_split {f : Fields} {s : State} {gid : Nat} {g : Group} {k : SKind} {t : Word} (htgt : target g f ≠ 0)
    (halign : (target g f).toNat % 4 = 0) (hroom : g.ctl.stack.length + 2 ≤ g.stackMax) (ht : t ≠ 0) (hn : g.ctl.exm &&& ~~~t ≠ 0) :
    diverge f s gid g k t = .next ((s.pushed gid g.ctl.stack.length (divided g k t (target g f))).advance gid f.bytes) := by
  unfold diverge aligned
  rw [if_neg htgt, if_neg (not_not.mpr halign)]
  simp only [ht, hn, ne_eq, not_false_eq_true, and_self, if_true]
  rw [if_neg (Nat.not_lt.mpr hroom)]
  rfl

theorem exec_bdivs {f : Fields} {s : State} {g : Group} (h : Ready (.bdivs f) s g) :
    exec (.bdivs f) s = diverge f s s.own.cur g .div (g.ctl.exm &&& s.readS g f.a) :=
  exec_of_ready (f := f) (r := rowBdivs f) (k := fun gid g => diverge f s gid g .div (g.ctl.exm &&& s.readS g f.a)) h rfl rfl

theorem pushed_mem (s : State) (gid old : Nat) (g : Group) : (s.pushed gid old g).mem = (s.spill old g).mem := rfl

theorem advance_mem (s : State) (gid n : Nat) : (s.advance gid n).mem = s.mem := by
  unfold State.advance State.modGroup
  split <;> rfl

/-- Refutes O5: of the two entries that a bdivs pushes out of the 16 on chip, the first is answered to a wait through a page of another scheme, and
its second part then lies in a sector that the symbol code does not find clean. -/
theorem not_structuredDivergence : ¬ Obligations.StructuredDivergence := by
  intro h
  have hm := oddMask_cases
  have hready := deep_ready hm
  have htaken := deepGroup_taken hm
  obtain ⟨t, tk, hexec, htk, hsplit, -⟩ := h (.bdivs, .div, fun f s g L => (s.readS g f.a).getLsbD L = true) (by simp [divergeTable])
    splitFields _ _ hready (show (0x10010#64 : Dword) ≠ 0 by decide) (show (0x10010#64 : Dword).toNat % 4 = 0 by decide)
    (show 16 + 2 ≤ 256 by decide)
  have hone : tk = 1 := by
    rw [← htaken]
    refine BitVec.eq_of_getLsbD_eq fun L hL => Bool.eq_iff_iff.mpr ?_
    rw [htk L hL, BitVec.getLsbD_and, Bool.and_eq_true]
  subst hone
  obtain ⟨g', -, -, -, hspilled, -⟩ := hsplit (by decide) (show (0xFFFFFFFF &&& ~~~1 : Word) ≠ 0 by decide)
  have hkept := hspilled.entries 0xFF8 rfl 0 (bottomEntry oddMask) (Nat.zero_le _) (show 0 + 16 < 18 by decide) rfl (deep_inPlace hm)
  have hstep := exec_bdivs hready
  have hdiv := diverge_of_split (f := splitFields) (s := deep oddMask) (gid := (deep oddMask).own.cur) (g := deepGroup oddMask) (k := .div) (t := 1)
    (show (0x10010#64 : Dword) ≠ 0 by decide) (show (0x10010#64 : Dword).toNat % 4 = 0 by decide) (show 16 + 2 ≤ 256 by decide) (by decide)
    (show (0xFFFFFFFF &&& ~~~1 : Word) ≠ 0 by decide)
  have ht : t = ((deep oddMask).pushed (deep oddMask).own.cur (deepGroup oddMask).ctl.stack.length
      (divided (deepGroup oddMask) .div 1 (target (deepGroup oddMask) splitFields))).advance (deep oddMask).own.cur splitFields.bytes := by
    rw [htaken, hdiv] at hstep
    exact Host.Outcome.next.inj (hexec.symm.trans hstep)
  rw [ht, advance_mem] at hkept
  rw [pushed_mem, show (deepGroup oddMask).ctl.stack.length = 16 from rfl] at hkept
  exact deep_loses_entry rfl rfl rfl hkept

end Sys2Proof.Proofs
end

section
/-! Indirect jumps on a deep stack (R120): the entries of a jmpi leave the chip as those of a divergence do. -/

namespace Sys2Proof.Proofs

open Sys2Proof Sys2Proof.Machine Sys2Proof.Claims

/-- The sample group of `deep` with two active lanes, whose targets the pairs of v0 and v1 give. -/
def jumpGroup (m : Word) : Group :=
  let g := deepGroup m
  { g with ctl := { g.ctl with exm := 3 }, regs := { g.regs with v := [(0, 0x20000), (1, 0x20010)] } }

/-- The device of `deep` with code in core 0's carve-out, at virtual address 0x20000: both targets are marked LAND. -/
def jumpDevice (m : Word) : State :=
  { deep m with
    groups := [(1, jumpGroup m)]
    nodes := [(0, { Node.reset with waits := [schemeWait], carve := 1, tlb := [{ ctx := 1, base := 2, bits := 16, pte := 0x200000160002 }] })]
    mem := Mem.wrBytes (Mem.wrBytes (deep m).mem (sliceKey 0 0x160006) [0x40]) (sliceKey 0 0x160016) [0x40]
    mgmt := { (deep m).mgmt with ctxs := Mem.wrBytes (deep m).mgmt.ctxs 64 (leBytes 0x100000 8) } }

/-- The sample jmpi. -/
def jumpFields : Fields := word .w64 0 0 0 1 0 0

/-- Its device after the code of both targets has been looked at. -/
def jumpLooked (m : Word) : State := looked jumpFields (jumpDevice m) (jumpGroup m)

/-- The device when the first piece of the lowest entry has been written, and the wait answered. -/
def jumpWritten (m : Word) : State := ((jumpLooked m).writeAt ownIl 0xFF8 ((bottomEntry m).bytes.take 8) none).1

theorem fragile_jumpWritten {m : Word} (hm : m = 0 ∨ m = 1) : Fragile (jumpWritten m) := by
  obtain rfl | rfl := hm
  · exact ⟨by decide +kernel, by unfold NoneWaits; decide +kernel, by decide +kernel, by decide +kernel, by decide +kernel, by decide +kernel, by decide +kernel⟩
  · exact ⟨by decide +kernel, by unfold NoneWaits; decide +kernel, by decide +kernel, by decide +kernel, by decide +kernel, by decide +kernel, by decide +kernel⟩

theorem jump_ready {m : Word} (hm : m = 0 ∨ m = 1) : Ready (.jmpi jumpFields) (jumpDevice m) (jumpGroup m) := by
  obtain rfl | rfl := hm
  · exact ready_of_isReady (by decide +kernel)
  · exact ready_of_isReady (by decide +kernel)

theorem jump_inPlace {m : Word} (hm : m = 0 ∨ m = 1) : InPlace (jumpLooked m) 0xFF8 := by
  obtain rfl | rfl := hm
  · exact .inr (by decide +kernel)
  · exact .inr (by decide +kernel)

/-- Whether a fetch gives bits. -/
def fetches (u : State) (g : Group) (t : Dword) : Bool := (u.fetch g t).isOk

theorem exists_of_isOk {ε α : Type} {r : Except ε α} (h : r.isOk = true) : ∃ a, r = .ok a := by
  cases r with
  | ok a => exact ⟨a, rfl⟩
  | error e => exact absurd h Bool.false_ne_true

theorem jump_targets {m : Word} (hm : m = 0 ∨ m = 1) : ∀ L, L < 32 → (jumpGroup m).ctl.exm.getLsbD L = true →
    (jmpiTarget jumpFields (jumpDevice m) (jumpGroup m) L).toNat % 4 = 0 ∧ jmpiTarget jumpFields (jumpDevice m) (jumpGroup m) L ≠ 0 ∧
      (jumpDevice m).landBad (jumpGroup m) (jmpiTarget jumpFields (jumpDevice m) (jumpGroup m) L) = false ∧
      (∃ w, (looked jumpFields (jumpDevice m) (jumpGroup m)).fetch (jumpGroup m) (jmpiTarget jumpFields (jumpDevice m) (jumpGroup m) L) = .ok w) ∧
      (looked jumpFields (jumpDevice m) (jumpGroup m)).landBit (jumpGroup m) (jmpiTarget jumpFields (jumpDevice m) (jumpGroup m) L) = true := by
  have hall : ∀ L, L < 32 → (jumpGroup m).ctl.exm.getLsbD L = true →
    (jmpiTarget jumpFields (jumpDevice m) (jumpGroup m) L).toNat % 4 = 0 ∧ jmpiTarget jumpFields (jumpDevice m) (jumpGroup m) L ≠ 0 ∧
      (jumpDevice m).landBad (jumpGroup m) (jmpiTarget jumpFields (jumpDevice m) (jumpGroup m) L) = false ∧
      ((looked jumpFields (jumpDevice m) (jumpGroup m)).fetch (jumpGroup m) (jmpiTarget jumpFields (jumpDevice m) (jumpGroup m) L)).isOk = true ∧
      (looked jumpFields (jumpDevice m) (jumpGroup m)).landBit (jumpGroup m) (jmpiTarget jumpFields (jumpDevice m) (jumpGroup m) L) = true := by
    obtain rfl | rfl := hm <;> decide +kernel
  intro L hL hact
  obtain ⟨h1, h2, h3, h4, h5⟩ := hall L hL hact
  exact ⟨h1, h2, h3, exists_of_isOk h4, h5⟩

/-- The group when its lanes of `u` have gone to the lowest of two targets. -/
def jumped (g : Group) (u p : Nat × Word) : Group :=
  let g2 := (g.push .ind g.ctl.exm 0 0).push .ind p.2 (BitVec.ofNat 64 p.1) 0
  { g2 with ctl := { g2.ctl with exm := u.2 } }

/-- A jmpi to two targets that pass their checks pushes two entries. -/
theorem exec_jmpi_of_two {f : Fields} {s : State} {g : Group} {u p : Nat × Word} (h : Ready (.jmpi f) s g)
    (hbad : (lanesOf g.ctl.exm).any (fun L => s.landBad g (jmpiTarget f s g L)) = false)
    (hfails : ((lanesOf g.ctl.exm).map (fun L => (L, landing (looked f s g) g (jmpiTarget f s g L)))).filter (fun p => p.2.1 ≠ 0) = [])
    (hus : targetsOf ((lanesOf g.ctl.exm).map (fun L => (L, (jmpiTarget f s g L).toNat))) = [u, p])
    (hroom : g.ctl.stack.length + 2 ≤ g.stackMax) :
    exec (.jmpi f) s = .next (((looked f s g).pushed s.own.cur g.ctl.stack.length (jumped g u p)).jump s.own.cur (BitVec.ofNat 64 u.1)) := by
  change execJmpi f s = _
  unfold execJmpi
  rw [issue_of_ready h rfl]
  unfold jmpiTarget at hbad hus
  dsimp only
  rw [hbad, if_neg Bool.false_ne_true]
  split
  case h_1 p' ps heq => exact absurd (hfails.symm.trans heq) (List.cons_ne_nil _ _).symm
  case h_2 =>
    rw [hus]
    rw [if_neg (show ¬ g.stackMax < g.ctl.stack.length + 1 + ([u, p].length - 1) from Nat.not_lt.mpr hroom)]
    rfl

theorem jump_mem (s : State) (gid : Nat) (pc : Dword) : (s.jump gid pc).mem = s.mem := by
  unfold State.jump State.modGroup
  split <;> rfl

theorem jumpWritten_zero {m : Word} (hm : m = 0 ∨ m = 1) : Mem.rd (jumpWritten m).mem 0x1004 = 0 := by
  obtain rfl | rfl := hm <;> decide +kernel

/-- The sample jmpi finds nothing wrong with its two targets. -/
theorem jump_exec {m : Word} (hm : m = 0 ∨ m = 1) : exec (.jmpi jumpFields) (jumpDevice m) =
    .next (((jumpLooked m).pushed (jumpDevice m).own.cur (jumpGroup m).ctl.stack.length (jumped (jumpGroup m) (0x20000, 1) (0x20010, 2))).jump
      (jumpDevice m).own.cur (BitVec.ofNat 64 0x20000)) := by
  refine exec_jmpi_of_two (jump_ready hm) ?_ ?_ ?_ (show 16 + 2 ≤ 256 by decide)
  all_goals obtain rfl | rfl := hm
  all_goals decide +kernel

/-- Refutes O8: of the two entries that a jmpi pushes out of the 16 on chip, the first is answered to a wait through a page of another scheme, and
its second part then lies in a sector that the symbol code does not find clean. -/
theorem not_jumpsCallsAndTargets : ¬ Obligations.JumpsCallsAndTargets := by
  rintro ⟨-, h⟩
  have hm := oddMask_cases
  have hready := jump_ready hm
  obtain ⟨-, t, hexec, -, hjump⟩ := h jumpFields _ _ hready (jump_targets hm) (show 16 + 32 ≤ 256 by decide)
  obtain ⟨us, u, -, -, -, -, g', -, -, -, hspilled, -⟩ := hjump (show (3 : Word) ≠ 0 by decide)
  have hkept := hspilled.entries 0xFF8 rfl 0 (bottomEntry oddMask) (Nat.zero_le _) (by simp [jumpGroup, deepGroup]) (by simp [jumpGroup, deepGroup]) (jump_inPlace hm)
  have ht := Host.Outcome.next.inj (hexec.symm.trans (jump_exec hm))
  rw [ht, jump_mem, pushed_mem, show (jumpGroup oddMask).ctl.stack.length = 16 from rfl] at hkept
  exact spill_loses_entry rfl rfl rfl rfl (fragile_jumpWritten hm) (jumpWritten_zero hm)
    (bottomEntry_kind hm) oddMask_lost hkept

end Sys2Proof.Proofs
end

section
/-! Writes of vector registers: what `writeV`, `putW` and `putW2` leave, and the element operations of spec 04 (R81). -/

namespace Sys2Proof.Proofs

open Sys2Proof Sys2Proof.Machine Sys2Proof.Claims

/-! ### Values of a lane -/

/-- Lanes written one after another in a map of registers. -/
theorem get_foldl_set_lanes (v : Nat → Word) (r : Nat) (ls : List Nat) (m : List (Nat × Word)) (k : Nat) :
    Sparse.get 0 ((ls.map (fun L => (L, v L))).foldl (fun m p => Sparse.set 0 m (32 * r + p.1) p.2) m) k =
      if 32 * r ≤ k ∧ k - 32 * r ∈ ls then v (k - 32 * r) else Sparse.get 0 m k := by
  induction ls generalizing m with
  | nil => simp
  | cons L ls ih =>
    rw [List.map_cons, List.foldl_cons, ih]
    by_cases hin : 32 * r ≤ k ∧ k - 32 * r ∈ ls
    · rw [if_pos hin, if_pos ⟨hin.1, List.mem_cons_of_mem _ hin.2⟩]
    · rw [if_neg hin]
      by_cases hk : k = 32 * r + L
      · subst hk
        rw [if_pos ⟨Nat.le_add_right _ _, by simp⟩, Sparse.get_set_same]
        simp
      · rw [Sparse.get_set_other _ _ _ hk, if_neg]
        rintro ⟨hle, hmem⟩
        rcases List.mem_cons.mp hmem with heq | hmem
        · omega
        · exact hin ⟨hle, hmem⟩

/-- A lane of a register after lanes of one have been written. -/
theorem rdV_putV (g : Group) (r : Nat) (ls : List Nat) (hls : ∀ L ∈ ls, L < 32) (v : Nat → Word) (j L : Nat) (hL : L < 32) :
    (g.putV r (ls.map (fun L => (L, v L)))).rdV j L = if j = r ∧ j ≠ 255 ∧ L ∈ ls then v L else g.rdV j L := by
  unfold Group.putV Group.rdV
  by_cases hr : r = 255
  · subst hr
    rw [if_pos rfl, if_neg (show ¬ (j = 255 ∧ j ≠ 255 ∧ L ∈ ls) from fun h => h.2.1 h.1)]
  · rw [if_neg hr]
    by_cases hj : j = 255
    · rw [if_pos hj, if_pos hj, if_neg (fun h => h.2.1 hj)]
    · rw [if_neg hj, if_neg hj, get_foldl_set_lanes]
      by_cases hjr : j = r
      · subst hjr
        simp [hj]
      · have hout : ¬ (32 * r ≤ 32 * j + L ∧ 32 * j + L - 32 * r ∈ ls) := by
          rintro ⟨hle, hmem⟩
          have := hls _ hmem
          omega
        rw [if_neg hout, if_neg (fun h => hjr h.1)]

/-! ### The frame of a write -/

/-- Of the group, `g'` differs from `g` in vector registers and in what waits to be fenced alone; no word of it has become uncorrectable. -/
structure LanesOf (g g' : Group) : Prop where
  same : { g' with regs := { g'.regs with v := g.regs.v, vbad := g.regs.vbad }, eng := { g'.eng with unfenced := g.eng.unfenced } } = g
  spoilt : ∀ k ∈ g'.regs.vbad, k ∈ g.regs.vbad

theorem LanesOf.refl (g : Group) : LanesOf g g := ⟨rfl, fun _ h => h⟩

theorem LanesOf.trans {g g1 g2 : Group} (h : LanesOf g g1) (k : LanesOf g1 g2) : LanesOf g g2 where
  same := by rw [← h.same, ← k.same]
  spoilt x hx := h.spoilt x (k.spoilt x hx)

theorem LanesOf.putV (g : Group) (r : Nat) (vals : List (Nat × Word)) : LanesOf g (g.putV r vals) := by
  unfold Group.putV
  split
  · exact LanesOf.refl g
  · exact ⟨rfl, fun _ h => (List.mem_filter.mp h).1⟩

theorem LanesOf.unfenced (g : Group) (x : BitVec 256) : LanesOf g { g with eng := { g.eng with unfenced := x } } := ⟨rfl, fun _ h => h⟩

theorem LanesOf.eng_eq {g g' : Group} (h : LanesOf g g') : { g'.eng with unfenced := g.eng.unfenced } = g.eng := (congrArg Group.eng h.same :)

theorem LanesOf.busy_eq {g g' : Group} (h : LanesOf g g') (r : Nat) : g'.busy r = g.busy r := by
  have hasync : g'.eng.async = g.eng.async := (congrArg (fun x => x.eng.async) h.same :)
  rw [Group.busy, Group.busy, hasync]

theorem LanesOf.over_goto {g g' : Group} (h : LanesOf g g') (pc : Dword) : Over g (g'.goto pc) pc := by
  have hctl : g'.ctl = g.ctl := (congrArg Group.ctl h.same :)
  have hregs : { g'.regs with v := g.regs.v, vbad := g.regs.vbad } = g.regs := (congrArg Group.regs h.same :)
  have hvempty : g'.regs.vempty = g.regs.vempty := (congrArg Regs.vempty hregs :)
  have hsempty : g'.regs.sempty = g.regs.sempty := (congrArg Regs.sempty hregs :)
  have hsbad : g'.regs.sbad = g.regs.sbad := (congrArg Regs.sbad hregs :)
  refine Proofs.over_goto pc (by rw [hctl]) ⟨hvempty, hsempty⟩ ⟨h.spoilt, fun k hk => hsbad ▸ hk⟩ ?_
  rw [← h.same]

/-- What a write of vector registers of the group `gid` may change: that group, the rollback log of blocks, and the log of matrix inputs. -/
structure LanesWritten (s t : State) (gid : Nat) (g g' : Group) : Prop where
  before : s.group gid = some g
  now : t.group gid = some g'
  others : ∀ j, j ≠ gid → t.group j = s.group j
  rest : { t with groups := s.groups, blocks := s.blocks, mops := s.mops } = s
  blocks : ∀ b, (t.block b).map (fun x => { x with shadow := none }) = (s.block b).map (fun x => { x with shadow := none })
  mops : t.mops.map (fun o => { o with taint := [] }) = s.mops.map (fun o => { o with taint := [] })
  lanes : LanesOf g g'

theorem LanesWritten.refl {s : State} {gid : Nat} {g : Group} (h : s.group gid = some g) : LanesWritten s s gid g g :=
  ⟨h, h, fun _ _ => rfl, rfl, fun _ => rfl, rfl, LanesOf.refl g⟩

theorem LanesWritten.trans {s t u : State} {gid : Nat} {g g1 g2 : Group} (h : LanesWritten s t gid g g1) (k : LanesWritten t u gid g1 g2) :
    LanesWritten s u gid g g2 where
  before := h.before
  now := k.now
  others j hj := (k.others j hj).trans (h.others j hj)
  rest := by rw [← h.rest, ← k.rest]
  blocks b := (k.blocks b).trans (h.blocks b)
  mops := k.mops.trans h.mops
  lanes := h.lanes.trans k.lanes

theorem LanesWritten.setGroup {s : State} {gid : Nat} {g g' : Group} (h : s.group gid = some g) (hg : LanesOf g g') :
    LanesWritten s (s.setGroup gid g') gid g g' :=
  ⟨h, State.group_setGroup .., fun _ hj => State.group_setGroup_other s g' hj, rfl, fun _ => rfl, rfl, hg⟩

theorem LanesWritten.logLine {s : State} {gid : Nat} {g : Group} (h : s.group gid = some g) (b gid' : Nat) (tag : LineTag) (image : List Word) :
    LanesWritten s (s.logLine b gid' tag image) gid g g := by
  refine ⟨h, ?_, fun j _ => ?_, ?_, fun j => ?_, ?_, LanesOf.refl g⟩
  · rw [State.logLine, State.group_modBlock, h]
  · rw [State.logLine, State.group_modBlock]
  · unfold State.logLine State.modBlock
    split <;> rfl
  · unfold State.logLine
    by_cases hj : j = b
    · subst hj
      rw [State.block_modBlock, Option.map_map]
      congr 1
      funext x
      dsimp only [Function.comp_apply]
      split <;> rfl
    · rw [State.block_modBlock_other _ _ hj]
  · unfold State.logLine State.modBlock
    split <;> rfl

theorem LanesWritten.taint {s : State} {gid : Nat} {g : Group} (h : s.group gid = some g) (p : MatOp → Bool) (x : List Nat) :
    LanesWritten s { s with mops := s.mops.map (fun o => if p o then { o with taint := x ++ o.taint } else o) } gid g g := by
  refine ⟨h, h, fun _ _ => rfl, rfl, fun _ => rfl, ?_, LanesOf.refl g⟩
  dsimp only
  rw [List.map_map]
  refine List.map_congr_left fun o _ => ?_
  dsimp only [Function.comp_apply]
  split <;> rfl

/-! ### The rules of a write -/

/-- What a write of lanes `ls` of register `r` leaves. -/
theorem lanesWritten_writeV {s : State} {gid : Nat} {g : Group} (hg : s.group gid = some g) (r : Nat) {ls : List Nat} (hls : ∀ L ∈ ls, L < 32)
    (v : Nat → Word) : ∃ g', LanesWritten s (s.writeV gid r (ls.map (fun L => (L, v L)))) gid g g' ∧
      (∀ j L, L < 32 → (j ≠ r ∨ j = 255 ∨ L ∉ ls) → g'.rdV j L = g.rdV j L) ∧
      (∀ L ∈ ls, r ≠ 255 → g.busy r = false → g'.rdV r L = v L) := by
  have hput : ∀ v : Nat → Word, ∀ j L, L < 32 → (j ≠ r ∨ j = 255 ∨ L ∉ ls) → (g.putV r (ls.map (fun L => (L, v L)))).rdV j L = g.rdV j L := by
    intro v j L hL hout
    rw [rdV_putV g r ls hls v j L hL, if_neg]
    rintro ⟨hj, h255, hin⟩
    exact hout.elim (fun h => h hj) (fun h => h.elim h255 (fun h => h hin))
  unfold State.writeV
  simp only [hg]
  by_cases hnone : (r = 255 || (ls.map (fun L => (L, v L))).isEmpty) = true
  · rw [if_pos hnone]
    refine ⟨g, .refl hg, fun _ _ _ _ => rfl, fun L hL h255 _ => ?_⟩
    rw [Bool.or_eq_true, decide_eq_true_eq] at hnone
    rcases hnone with hr | hnil
    · exact absurd hr h255
    · rw [List.isEmpty_iff, List.map_eq_nil_iff] at hnil
      rw [hnil] at hL
      exact absurd hL List.not_mem_nil
  rw [if_neg hnone]
  have hlog : LanesWritten s (if g.visitor.isSome = true then s else s.logLine g.block gid (.vreg gid r) (laneList.map (g.rdV r))) gid g g := by
    split
    · exact .refl hg
    · exact .logLine hg _ _ _ _
  generalize (if g.visitor.isSome = true then s else s.logLine g.block gid (.vreg gid r) (laneList.map (g.rdV r))) = s1 at hlog
  by_cases hbusy : g.busy r = true
  · rw [if_pos hbusy, State.modGroup_eq hlog.now, List.map_map]
    refine ⟨_, (hlog.trans (.setGroup hlog.now (LanesOf.putV g r _))).trans (.taint (State.group_setGroup ..) _ _), ?_, fun _ _ _ hfree => ?_⟩
    · exact hput (fun L => Config.freeWord s1.own.fresh (0x10000 + 32 * r + L))
    · rw [hbusy] at hfree
      exact absurd hfree (by decide)
  · rw [if_neg hbusy, State.modGroup_eq hlog.now]
    refine ⟨_, hlog.trans (.setGroup hlog.now ((LanesOf.putV g r _).trans (LanesOf.unfenced _ _))), hput v, fun L hL h255 _ => ?_⟩
    exact (rdV_putV g r ls hls v r L (hls L hL)).trans (if_pos ⟨rfl, h255, hL⟩)

/-- A write of vector registers, then a new PC, is the one effect. -/
theorem LanesWritten.vectorWrite {s t : State} {g g' : Group} (h : LanesWritten s t s.own.cur g g') {w : Word} {ds : List Nat}
    {v : Nat → Nat → Word} (hkept : ∀ r L, L < 32 → (r ∉ ds ∨ r = 255 ∨ w.getLsbD L = false) → g'.rdV r L = g.rdV r L)
    (hval : ∀ r L, L < 32 → r ∈ ds → r ≠ 255 → w.getLsbD L = true → g.busy r = false → g'.rdV r L = v r L) (pc : Dword) :
    VectorWrite s (t.setGroup s.own.cur (g'.goto pc)) g w ds v pc := by
  refine ⟨g'.goto pc, State.group_setGroup .., fun j hj => ?_, fun k => ?_, h.rest, h.blocks, h.mops, h.lanes.over_goto pc, h.lanes.eng_eq, ?_, ?_,
    hkept, hval⟩
  · rw [State.group_setGroup_other _ _ hj, h.others j hj]
  · have hmem : t.mem = s.mem := (congrArg State.mem h.rest :)
    rw [State.setGroup_mem, hmem]
  · exact (congrArg (fun x => x.ctl.exm) h.lanes.same :)
  · exact (congrArg (fun x => x.regs.s) h.lanes.same :)

/-- The same, for the state in which the group goes on by `n` bytes. -/
theorem LanesWritten.vectorWrite_advance {s t : State} {g g' : Group} (h : LanesWritten s t s.own.cur g g') {w : Word} {ds : List Nat}
    {v : Nat → Nat → Word} (hkept : ∀ r L, L < 32 → (r ∉ ds ∨ r = 255 ∨ w.getLsbD L = false) → g'.rdV r L = g.rdV r L)
    (hval : ∀ r L, L < 32 → r ∈ ds → r ≠ 255 → w.getLsbD L = true → g.busy r = false → g'.rdV r L = v r L) (f : Fields) :
    VectorWrite s (t.advance s.own.cur f.bytes) g w ds v (nextPc g f) := by
  have hctl : g'.ctl = g.ctl := (congrArg Group.ctl h.lanes.same :)
  rw [State.advance_eq h.now, hctl]
  exact h.vectorWrite hkept hval _

theorem lanesOf_lt {w : Word} : ∀ L ∈ lanesOf w, L < 32 := fun _ h => (mem_lanesOf.mp h).1

theorem not_mem_lanesOf {w : Word} {L : Nat} (h : w.getLsbD L = false) : L ∉ lanesOf w := by
  intro hin
  rw [(mem_lanesOf.mp hin).2] at h
  exact absurd h (by decide)

/-- One vector result, in the lanes of W. -/
theorem vectorWrite_putW {s : State} {g : Group} (hg : s.group s.own.cur = some g) (d : Nat) (v : Nat → Word) (f : Fields) :
    VectorWrite s ((s.putW s.own.cur g d v).advance s.own.cur f.bytes) g g.wset [d] (fun _ L => v L) (nextPc g f) := by
  obtain ⟨g', hw, hkept, hval⟩ := lanesWritten_writeV hg d (lanesOf_lt (w := g.wset)) v
  refine hw.vectorWrite_advance (fun r L hL hout => hkept r L hL ?_) (fun r L hL hin h255 hlane hfree => ?_) f
  · exact hout.imp List.ne_of_not_mem_cons (fun h => h.imp id not_mem_lanesOf)
  · cases List.mem_singleton.mp hin
    exact hval L (mem_lanesOf.mpr ⟨hL, hlane⟩) h255 hfree

/-- Two vector results, in the lanes of W. -/
theorem vectorWrite_putW2 {s : State} {g : Group} (hg : s.group s.own.cur = some g) (d : Nat) (v : Nat → Dword) (f : Fields) :
    VectorWrite s ((s.putW2 s.own.cur g d v).advance s.own.cur f.bytes) g g.wset [d, d + 1]
      (fun r L => if r = d then (v L).truncate 32 else (v L >>> 32).truncate 32) (nextPc g f) := by
  obtain ⟨g1, hw1, hkept1, hval1⟩ := lanesWritten_writeV hg d (lanesOf_lt (w := g.wset)) (fun L => (v L).truncate 32)
  obtain ⟨g2, hw2, hkept2, hval2⟩ := lanesWritten_writeV hw1.now (d + 1) (lanesOf_lt (w := g.wset)) (fun L => (v L >>> 32).truncate 32)
  refine (hw1.trans hw2).vectorWrite_advance (fun r L hL hout => ?_) (fun r L hL hin h255 hlane hfree => ?_) f
  · have hout' : (r ≠ d ∧ r ≠ d + 1) ∨ r = 255 ∨ L ∉ lanesOf g.wset := by
      refine hout.imp (fun h => ?_) (fun h => h.imp id not_mem_lanesOf)
      simpa using h
    exact (hkept2 r L hL (hout'.imp And.right id)).trans (hkept1 r L hL (hout'.imp And.left id))
  · have hlane' : L ∈ lanesOf g.wset := mem_lanesOf.mpr ⟨hL, hlane⟩
    rcases List.mem_cons.mp hin with rfl | hin
    · rw [if_pos rfl, hkept2 r L hL (.inl (by omega)), hval1 L hlane' h255 hfree]
    · cases List.mem_singleton.mp hin
      rw [if_neg (by omega), hval2 L hlane' h255 (by rw [hw1.lanes.busy_eq, hfree])]

/-- The statement of a vector instruction of one destination, whose new value of a lane satisfies `p`. -/
def WritesLanes (i : Instr) (f : Fields) (s : State) (g : Group) (p : Nat → Word → Prop) : Prop :=
  ∃ t, ∃ v : Nat → Word, exec i s = .next t ∧ VectorWrite s t g g.wset [f.d.toNat] (fun _ L => v L) (nextPc g f) ∧ ∀ L, L < 32 → p L (v L)

/-- An instruction whose meaning is to write `v` in the lanes of W. -/
theorem exec_putW {i : Instr} {f : Fields} {r : Row} {s : State} {g : Group} (h : Ready i s g) (hrow : i.row = some (f, r))
    {v : State → Group → Nat → Word}
    (hexec : exec i s = issue r f s fun gid g => .next ((s.putW gid g f.d.toNat (v s g)).advance gid f.bytes)) :
    ∃ t, exec i s = .next t ∧ VectorWrite s t g g.wset [f.d.toNat] (fun _ L => v s g L) (nextPc g f) :=
  ⟨_, hexec.trans (issue_of_ready h hrow _), vectorWrite_putW h.1 f.d.toNat (v s g) f⟩

theorem writesLanes_of_putW {i : Instr} {f : Fields} {r : Row} {s : State} {g : Group} (h : Ready i s g) (hrow : i.row = some (f, r))
    {v : State → Group → Nat → Word}
    (hexec : exec i s = issue r f s fun gid g => .next ((s.putW gid g f.d.toNat (v s g)).advance gid f.bytes))
    {p : Nat → Word → Prop} (hp : ∀ L, L < 32 → p L (v s g L)) : WritesLanes i f s g p := by
  obtain ⟨t, ht, hw⟩ := exec_putW h hrow hexec
  exact ⟨t, v s g, ht, hw, hp⟩

end Sys2Proof.Proofs
end

section
/-! Integer vector instructions (spec 06, R127 to R130). -/

namespace Sys2Proof.Proofs

open Sys2Proof Sys2Proof.Machine Sys2Proof.Claims

/-! ### Elements (spec 04, R81) -/

theorem elem_eq_el (w : Nat) (x : Word) (i : Nat) : elem w x i = el w x i := by
  apply BitVec.eq_of_toNat_eq
  rw [elem, el, BitVec.toNat_ofNat, BitVec.extractLsb'_toNat, Nat.shiftRight_eq_div_pow]

/-- The number that elements below `n` make. -/
def elemSum (w : Nat) (e : Nat → BitVec w) (n : Nat) : Nat := (List.range n).foldl (fun acc i => acc + (e i).toNat * 2 ^ (w * i)) 0

theorem elemSum_succ (w : Nat) (e : Nat → BitVec w) (n : Nat) : elemSum w e (n + 1) = elemSum w e n + (e n).toNat * 2 ^ (w * n) := by
  rw [elemSum, List.range_succ, List.foldl_append]
  rfl

theorem elemSum_lt (w : Nat) (e : Nat → BitVec w) (n : Nat) : elemSum w e n < 2 ^ (w * n) := by
  induction n with
  | zero => simp [elemSum]
  | succ n ih =>
    rw [elemSum_succ, Nat.mul_succ, Nat.pow_add]
    have hle : (e n).toNat + 1 ≤ 2 ^ w := (e n).isLt
    calc elemSum w e n + (e n).toNat * 2 ^ (w * n) < 2 ^ (w * n) + (e n).toNat * 2 ^ (w * n) := by omega
      _ = ((e n).toNat + 1) * 2 ^ (w * n) := by ring
      _ ≤ 2 ^ w * 2 ^ (w * n) := Nat.mul_le_mul_right _ hle
      _ = 2 ^ (w * n) * 2 ^ w := Nat.mul_comm _ _

theorem elemSum_div (w : Nat) (e : Nat → BitVec w) {n i : Nat} (hi : i < n) : elemSum w e n / 2 ^ (w * i) % 2 ^ w = (e i).toNat := by
  induction n with
  | zero => omega
  | succ n ih =>
    rw [elemSum_succ]
    by_cases h : i = n
    · subst h
      rw [Nat.add_mul_div_right _ _ (Nat.two_pow_pos _), Nat.div_eq_of_lt (elemSum_lt w e i), Nat.zero_add, Nat.mod_eq_of_lt (e i).isLt]
    · have hlt : i < n := by omega
      obtain ⟨m, rfl⟩ := Nat.exists_eq_add_of_lt hlt
      have hsplit : (e (i + m + 1)).toNat * 2 ^ (w * (i + m + 1)) = 2 ^ w * ((e (i + m + 1)).toNat * 2 ^ (w * m)) * 2 ^ (w * i) := by
        rw [Nat.mul_succ, Nat.mul_add, Nat.pow_add, Nat.pow_add]
        ring
      rw [hsplit, Nat.add_mul_div_right _ _ (Nat.two_pow_pos _), Nat.add_mul_mod_self_left, ih hlt]

theorem toNat_ofElems {w : Nat} (e : Nat → BitVec w) : (ofElems w e).toNat = elemSum w e (32 / w) :=
  Nat.mod_eq_of_lt ((elemSum_lt w e _).trans_le (Nat.pow_le_pow_right (by decide) (Nat.mul_div_le 32 w)))

/-- An element of a word made from its elements. -/
theorem el_ofElems {w : Nat} (e : Nat → BitVec w) {i : Nat} (hi : i < 32 / w) : el w (ofElems w e) i = e i := by
  apply BitVec.eq_of_toNat_eq
  rw [el, BitVec.extractLsb'_toNat, Nat.shiftRight_eq_div_pow, toNat_ofElems, elemSum_div w e hi]

theorem width_eq_widOf (f : Fields) : width f = widOf f := by
  unfold width widOf
  rcases f.mf 4 3 with _ | _ | n <;> rfl

/-! ### R128: two sources, element by element -/

/-- The statement of R128 for one row of its table. -/
def WritesElements (p : (Fields → Instr) × (Fields → Row) × (Fields → (w : Nat) → BitVec w → BitVec w → Int)) : Prop :=
  ∀ (f : Fields) (s : State) (g : Group), Ready (p.1 f) s g → WritesLanes (p.1 f) f s g fun L v => ∀ i, i < 32 / width f →
    el (width f) v i = BitVec.ofInt (width f) (p.2.2 f (width f)
      (el (width f) (s.opA g (p.2.1 f) f L) i) (el (width f) (s.opB g (p.2.1 f) f L) i))

/-- A row holds when its instruction applies to each element an operation that computes the row's value. -/
theorem writesElements_of_elem2 {c : Fields → Instr} {row : Fields → Row} {val : Fields → (w : Nat) → BitVec w → BitVec w → Int}
    {op : Fields → (w : Nat) → BitVec w → BitVec w → BitVec w} (hrow : ∀ f, (c f).row = some (f, row f))
    (hexec : ∀ f s, exec (c f) s = vector2 (row f) (elem2 (widOf f) (op f (widOf f))) f s)
    (hval : ∀ f w, ∀ a b : BitVec w, op f w a b = BitVec.ofInt w (val f w a b)) : WritesElements (c, row, val) := by
  intro f s g h
  refine writesLanes_of_putW h (hrow f)
    (v := fun s g L => elem2 (widOf f) (op f (widOf f)) (s.opA g (row f) f L) (s.opB g (row f) f L)) (hexec f s) fun L _ i hi => ?_
  rw [← width_eq_widOf, elem2, el_ofElems _ hi, hval f, elem_eq_el, elem_eq_el]

theorem saturate_eq {w : Nat} (uns : Bool) (x : Int) : saturate uns w x = BitVec.ofInt w (sat uns w x) := by
  have hclamp : ∀ lo hi : Int, lo ≤ hi → (if x < lo then lo else if hi < x then hi else x) = max lo (min x hi) := by
    intro lo hi hle
    split
    · rw [max_eq_left ((min_le_left _ _).trans (le_of_lt ‹_›))]
    · split
      · rw [min_eq_right (le_of_lt ‹_›), max_eq_right hle]
      · rw [min_eq_left (not_lt.mp ‹_›), max_eq_right (not_lt.mp ‹_›)]
  refine congrArg (BitVec.ofInt w) (hclamp _ _ ?_)
  have hpow : (0 : Int) < 2 ^ (w - 1) := by positivity
  have hpow' : (0 : Int) < 2 ^ w := by positivity
  split <;> omega

theorem absDiff_eq {w : Nat} (x : Int) : BitVec.ofNat w x.natAbs = BitVec.ofInt w |x| := by
  rw [← Int.natCast_natAbs, BitVec.ofInt_natCast]

theorem shiftL_eq_ofInt {w : Nat} (a b : BitVec w) :
    shiftL a b.toNat = BitVec.ofInt w (if b.toNat < w then a.toInt * 2 ^ b.toNat else 0) := by
  rw [shiftL_eq]
  split
  · rw [BitVec.ofNat_mul, BitVec.ofNat_toNat, BitVec.setWidth_eq, BitVec.ofInt_mul, BitVec.ofInt_toInt, ← BitVec.ofInt_natCast w (2 ^ b.toNat),
      Nat.cast_pow, Nat.cast_ofNat]
  · rfl

theorem shiftR_eq_ofInt {w : Nat} (uns : Bool) (a b : BitVec w) : shiftR uns a b.toNat =
    BitVec.ofInt w (if b.toNat < w then viewInt uns a / 2 ^ b.toNat else if viewInt uns a < 0 then -1 else 0) := by
  rw [shiftR_eq]
  by_cases hb : w ≤ b.toNat
  · rw [if_pos hb, if_neg (Nat.not_lt.mpr hb)]
    cases uns
    · simp only [Bool.not_false, Bool.true_and, decide_eq_true_eq, viewInt, Bool.false_eq_true, if_false]
      split <;> rfl
    · simp only [Bool.not_true, Bool.false_and, Bool.false_eq_true, if_false, viewInt, if_true]
      rw [if_neg (by omega)]
      rfl
  · rw [if_neg hb, if_pos (Nat.not_le.mp hb)]

theorem vectorTable_writesElements : ∀ p ∈ vectorTable, WritesElements p := by
  simp only [vectorTable, List.forall_mem_cons, List.not_mem_nil, false_imp_iff, implies_true, and_true, view_eq_viewInt]
  refine ⟨?vadd, ?vsub, ?vmul, ?vmulh, ?vshl, ?vshr, ?vmin, ?vmax, ?vabsd, ?vadds, ?vsubs⟩
  case vadd => exact writesElements_of_elem2 (op := fun _ _ => (· + ·)) (fun _ => rfl) (fun _ _ => rfl) fun _ _ => add_eq_ofInt
  case vsub => exact writesElements_of_elem2 (op := fun _ _ => (· - ·)) (fun _ => rfl) (fun _ _ => rfl) fun _ _ => sub_eq_ofInt
  case vmul => exact writesElements_of_elem2 (op := fun _ _ => (· * ·)) (fun _ => rfl) (fun _ _ => rfl) fun _ _ => mul_eq_ofInt
  case vmulh => exact writesElements_of_elem2 (op := fun f _ => mulHigh (f.m 2)) (fun _ => rfl) (fun _ _ => rfl) fun _ _ _ _ => rfl
  case vshl => exact writesElements_of_elem2 (op := fun _ _ a b => shiftL a b.toNat) (fun _ => rfl) (fun _ _ => rfl) fun _ _ => shiftL_eq_ofInt
  case vshr => exact writesElements_of_elem2 (op := fun f _ a b => shiftR (f.m 2) a b.toNat) (fun _ => rfl) (fun _ _ => rfl) fun f _ => shiftR_eq_ofInt (f.m 2)
  case vmin => exact writesElements_of_elem2 (op := fun f _ => minMax (f.m 2) false) (fun _ => rfl) (fun _ _ => rfl) fun f _ => minMax_min (f.m 2)
  case vmax => exact writesElements_of_elem2 (op := fun f _ => minMax (f.m 2) true) (fun _ => rfl) (fun _ _ => rfl) fun f _ => minMax_max (f.m 2)
  case vabsd =>
    exact writesElements_of_elem2 (op := fun f w a b => BitVec.ofNat w (viewInt (f.m 2) a - viewInt (f.m 2) b).natAbs) (fun _ => rfl)
      (fun _ _ => rfl) fun _ _ _ _ => absDiff_eq _
  case vadds =>
    exact writesElements_of_elem2 (op := fun f w a b => saturate (f.m 2) w (viewInt (f.m 2) a + viewInt (f.m 2) b)) (fun _ => rfl)
      (fun _ _ => rfl) fun _ _ _ _ => saturate_eq _ _
  case vsubs =>
    exact writesElements_of_elem2 (op := fun f w a b => saturate (f.m 2) w (viewInt (f.m 2) a - viewInt (f.m 2) b)) (fun _ => rfl)
      (fun _ _ => rfl) fun _ _ _ _ => saturate_eq _ _

/-- Settles O10. -/
theorem vectorElements : Obligations.VectorElements := vectorTable_writesElements

/-! ### R128 to R130: the other integer instructions -/

/-- The statement of R128 for one row of the second table. -/
def LanesRelated (p : (Fields → Instr) × (Fields → Row) × (Fields → Word → Word → Word → Word → Word → Prop)) : Prop :=
  ∀ (f : Fields) (s : State) (g : Group), Ready (p.1 f) s g → WritesLanes (p.1 f) f s g fun L v =>
    p.2.2 f (s.readV g f.d.toNat L) (s.opA g (p.2.1 f) f L) (s.opB g (p.2.1 f) f L) (s.opC g (p.2.1 f) f L) v

theorem lanesRelated_of_vector3 {c : Fields → Instr} {row : Fields → Row} {rel : Fields → Word → Word → Word → Word → Word → Prop}
    {op : Fields → Word → Word → Word → Word} (hrow : ∀ f, (c f).row = some (f, row f))
    (hexec : ∀ f s, exec (c f) s = vector3 (row f) (op f) f s) (hrel : ∀ f d a b c, rel f d a b c (op f a b c)) : LanesRelated (c, row, rel) := by
  intro f s g h
  exact writesLanes_of_putW h (hrow f) (v := fun s g L => op f (s.opA g (row f) f L) (s.opB g (row f) f L) (s.opC g (row f) f L)) (hexec f s)
    fun L _ => hrel f _ _ _ _

theorem lanesRelated_of_vector2 {c : Fields → Instr} {row : Fields → Row} {rel : Fields → Word → Word → Word → Word → Word → Prop}
    {op : Fields → Word → Word → Word} (hrow : ∀ f, (c f).row = some (f, row f)) (hexec : ∀ f s, exec (c f) s = vector2 (row f) (op f) f s)
    (hrel : ∀ f d a b c, rel f d a b c (op f a b)) : LanesRelated (c, row, rel) := by
  intro f s g h
  exact writesLanes_of_putW h (hrow f) (v := fun s g L => op f (s.opA g (row f) f L) (s.opB g (row f) f L)) (hexec f s)
    fun L _ => hrel f _ _ _ _

theorem lanesRelated_of_vector1 {c : Fields → Instr} {row : Fields → Row} {rel : Fields → Word → Word → Word → Word → Word → Prop}
    {op : Fields → Word → Word} (hrow : ∀ f, (c f).row = some (f, row f)) (hexec : ∀ f s, exec (c f) s = vector1 (row f) (op f) f s)
    (hrel : ∀ f d a b c, rel f d a b c (op f a)) : LanesRelated (c, row, rel) := by
  intro f s g h
  exact writesLanes_of_putW h (hrow f) (v := fun s g L => op f (s.opA g (row f) f L)) (hexec f s) fun L _ => hrel f _ _ _ _

theorem neg_eq_ofInt {w : Nat} (a : BitVec w) : -a = BitVec.ofInt w (-a.toInt) := by
  rw [BitVec.ofInt_neg, BitVec.ofInt_toInt]

theorem abs_eq_ofInt {w : Nat} (a : BitVec w) : (if a.msb then -a else a) = BitVec.ofInt w |a.toInt| := by
  simp only [BitVec.msb_eq_toInt, decide_eq_true_eq]
  split
  · rw [abs_of_neg ‹_›, neg_eq_ofInt]
  · rw [abs_of_nonneg (not_lt.mp ‹_›), BitVec.ofInt_toInt]

theorem one_ne_zero_of_pos {w : Nat} (hw : 0 < w) : (1 : BitVec w) ≠ 0 := by
  intro h
  have hnat := congrArg BitVec.toNat h
  change (1#w).toNat = (0#w).toNat at hnat
  rw [BitVec.toNat_one hw, BitVec.toNat_zero] at hnat
  exact absurd hnat (by decide)

theorem width_pos (f : Fields) : 0 < width f := by
  unfold width
  split
  · decide
  · split <;> decide

theorem vectorTable2_lanesRelated : ∀ p ∈ vectorTable2, LanesRelated p := by
  simp only [vectorTable2, List.forall_mem_cons, List.not_mem_nil, false_imp_iff, implies_true, and_true]
  refine ⟨?vand, ?vor, ?vxor, ?vmad, ?vsel, ?vbfe, ?vbfi, ?vmov, ?vnot, ?vneg, ?vabs, ?vclz, ?vpopc, ?vbrev, ?vext, ?vcmp⟩
  case vand => exact lanesRelated_of_vector2 (fun _ => rfl) (fun _ _ => rfl) fun _ _ _ _ _ => rfl
  case vor => exact lanesRelated_of_vector2 (fun _ => rfl) (fun _ _ => rfl) fun _ _ _ _ _ => rfl
  case vxor => exact lanesRelated_of_vector2 (fun _ => rfl) (fun _ _ => rfl) fun _ _ _ _ _ => rfl
  case vmad =>
    refine lanesRelated_of_vector3 (op := fun _ a b c => a * b + c) (fun _ => rfl) (fun _ _ => rfl) fun _ _ a b c => ?_
    rw [BitVec.ofNat_add, BitVec.ofNat_mul, BitVec.ofNat_toNat, BitVec.ofNat_toNat, BitVec.ofNat_toNat, BitVec.setWidth_eq, BitVec.setWidth_eq,
      BitVec.setWidth_eq]
  case vsel => exact lanesRelated_of_vector3 (op := fun _ a b c => if a ≠ 0 then b else c) (fun _ => rfl) (fun _ _ => rfl) fun _ _ _ _ _ => rfl
  case vbfe => exact lanesRelated_of_vector3 (op := fun f => bitExtract (f.m 2)) (fun _ => rfl) (fun _ _ => rfl) fun f _ _ _ _ => isExtract_bitExtract _ _ _ _
  case vbfi =>
    intro f s g h
    exact writesLanes_of_putW h rfl (v := fun s g L => bitInsert (s.opD g (rowVbfi f) f L) (s.opA g (rowVbfi f) f L) (s.opB g (rowVbfi f) f L)
      (s.opC g (rowVbfi f) f L)) rfl fun L _ => isInsert_bitInsert _ _ _ _
  case vmov => exact lanesRelated_of_vector1 (op := fun _ => id) (fun _ => rfl) (fun _ _ => rfl) fun _ _ _ _ _ => rfl
  case vnot =>
    refine lanesRelated_of_vector1 (op := fun _ a => ~~~a) (fun _ => rfl) (fun _ _ => rfl) fun _ _ a _ _ i hi => ?_
    rw [BitVec.getLsbD_not, decide_eq_true hi, Bool.true_and]
  case vneg =>
    refine lanesRelated_of_vector1 (op := fun f a => ofElems (widOf f) (fun i => -(elem _ a i))) (fun _ => rfl) (fun _ _ => rfl)
      fun f _ a _ _ i hi => ?_
    rw [← width_eq_widOf, el_ofElems _ hi, elem_eq_el, neg_eq_ofInt]
  case vabs =>
    refine lanesRelated_of_vector1 (op := fun f a => ofElems (widOf f) (fun i => if (elem (widOf f) a i).msb then -(elem _ a i) else elem _ a i))
      (fun _ => rfl) (fun _ _ => rfl) fun f _ a _ _ i hi => ?_
    rw [← width_eq_widOf, el_ofElems _ hi, elem_eq_el, abs_eq_ofInt]
  case vclz => exact lanesRelated_of_vector1 (op := fun _ => clz) (fun _ => rfl) (fun _ _ => rfl) fun _ _ _ _ _ => isClz_clz _
  case vpopc => exact lanesRelated_of_vector1 (op := fun _ a => BitVec.ofNat 32 (popcount a)) (fun _ => rfl) (fun _ _ => rfl) fun _ _ _ _ _ => isPopc_popcount _
  case vbrev => exact lanesRelated_of_vector1 (op := fun _ => brev) (fun _ => rfl) (fun _ _ => rfl) fun _ _ _ _ _ => isBrev_brev _
  case vext =>
    refine lanesRelated_of_vector1 (op := fun f => extend (f.m 2) (widOf f)) (fun _ => rfl) (fun _ _ => rfl) fun f _ a _ _ => ?_
    rw [← width_eq_widOf]
    exact isExt_extend _ (width_pos f) a
  case vcmp =>
    refine lanesRelated_of_vector2 (op := fun f => elem2 (widOf f) (fun a b => if condInt (f.mf 7 5) (viewInt (f.m 2) a) (viewInt (f.m 2) b) then 1 else 0))
      (fun _ => rfl) (fun _ _ => rfl) fun f _ a b _ i hi => ?_
    rw [← width_eq_widOf, elem2, el_ofElems _ hi, elem_eq_el, elem_eq_el, view_eq_viewInt, view_eq_viewInt, ← condInt_iff_holds]
    split
    · exact ⟨.inr rfl, iff_of_true rfl ‹_›⟩
    · exact ⟨.inl rfl, iff_of_false (one_ne_zero_of_pos (width_pos f)).symm ‹_›⟩

/-- An instruction whose meaning is to write `v` in the lanes of W of a pair. -/
theorem exec_putW2 {i : Instr} {f : Fields} {r : Row} {s : State} {g : Group} (h : Ready i s g) (hrow : i.row = some (f, r))
    {v : State → Group → Nat → Dword}
    (hexec : exec i s = issue r f s fun gid g => .next ((s.putW2 gid g f.d.toNat (v s g)).advance gid f.bytes)) :
    ∃ t, exec i s = .next t ∧ VectorWrite s t g g.wset [f.d.toNat, f.d.toNat + 1]
      (fun r L => if r = f.d.toNat then (v s g L).truncate 32 else (v s g L >>> 32).truncate 32) (nextPc g f) :=
  ⟨_, hexec.trans (issue_of_ready h hrow _), vectorWrite_putW2 h.1 f.d.toNat (v s g) f⟩

theorem vectorPairs : VectorPairs := by
  intro f s g
  constructor
  case left =>
    intro h
    obtain ⟨t, ht, hw⟩ := exec_putW2 h (r := rowVadd64 f) (v := fun s g L => s.readV2 g f.a.toNat L + s.readV2 g f.b.toNat L) rfl rfl
    refine ⟨t, _, ht, hw, fun L => ?_⟩
    rw [BitVec.ofNat_add, BitVec.ofNat_toNat, BitVec.ofNat_toNat, BitVec.setWidth_eq, BitVec.setWidth_eq]
  case right =>
    intro h
    obtain ⟨t, ht, hw⟩ := exec_putW2 h (r := rowVmulw f)
      (v := fun s g L => wrapInt 64 (viewInt (f.m 2) (s.readV g f.a.toNat L) * viewInt (f.m 2) (s.readV g f.b.toNat L))) rfl rfl
    exact ⟨t, _, ht, hw, fun L => rfl⟩

/-- Settles O11. -/
theorem vectorWordsAndPairs : Obligations.VectorWordsAndPairs := ⟨vectorTable2_lanesRelated, vectorPairs⟩

end Sys2Proof.Proofs
end

section
/-! Float, conversion and packed vector instructions (spec 06, R131 to R139; spec 09, R214 to R220). -/

namespace Sys2Proof.Proofs

open Sys2Proof Sys2Proof.Machine Sys2Proof.Claims

/-! ### R131 to R138: one float or conversion result -/

/-- The statement of R131 for one row of its table. -/
def WritesFloat (p : (Fields → Instr) × (Fields → Row) × (Fields → Word → Word → Word → Word)) : Prop :=
  ∀ (f : Fields) (s : State) (g : Group), Ready (p.1 f) s g → ∃ t, exec (p.1 f) s = .next t ∧
    VectorWrite s t g g.wset [f.d.toNat]
      (fun _ L => p.2.2 f (s.opA g (p.2.1 f) f L) (s.opB g (p.2.1 f) f L) (s.opC g (p.2.1 f) f L)) (nextPc g f)

theorem writesFloat_of_vector3 {c : Fields → Instr} {row : Fields → Row} {op : Fields → Word → Word → Word → Word}
    (hrow : ∀ f, (c f).row = some (f, row f)) (hexec : ∀ f s, exec (c f) s = vector3 (row f) (op f) f s) : WritesFloat (c, row, op) := by
  intro f s g h
  exact exec_putW h (hrow f) (v := fun s g L => op f (s.opA g (row f) f L) (s.opB g (row f) f L) (s.opC g (row f) f L)) (hexec f s)

theorem writesFloat_of_vector2 {c : Fields → Instr} {row : Fields → Row} {op : Fields → Word → Word → Word}
    (hrow : ∀ f, (c f).row = some (f, row f)) (hexec : ∀ f s, exec (c f) s = vector2 (row f) (op f) f s) :
    WritesFloat (c, row, fun f a b _ => op f a b) := by
  intro f s g h
  exact exec_putW h (hrow f) (v := fun s g L => op f (s.opA g (row f) f L) (s.opB g (row f) f L)) (hexec f s)

theorem writesFloat_of_vector1 {c : Fields → Instr} {row : Fields → Row} {val : Fields → Word → Word} {op : Fields → Word → Word}
    (hrow : ∀ f, (c f).row = some (f, row f)) (hexec : ∀ f s, exec (c f) s = vector1 (row f) (op f) f s)
    (hval : ∀ f a, op f a = val f a) : WritesFloat (c, row, fun f a _ _ => val f a) := by
  intro f s g h
  simp only [← hval]
  exact exec_putW h (hrow f) (v := fun s g L => op f (s.opA g (row f) f L)) (hexec f s)

theorem clear_sign (a : Word) : a &&& 0x7FFFFFFF = BitVec.ofNat 32 (a.toNat % 2 ^ 31) := by
  apply BitVec.eq_of_toNat_eq
  rw [BitVec.toNat_and, BitVec.toNat_ofNat, show (0x7FFFFFFF : Word).toNat = 2 ^ 31 - 1 from rfl, Nat.and_two_pow_sub_one_eq_mod]
  omega

/-- Flipping bit 31 of a number below it adds 2^31. -/
theorem xor_sign_of_lt {n : Nat} (h : n < 2 ^ 31) : n ^^^ 2 ^ 31 = n + 2 ^ 31 := by
  apply Nat.eq_of_testBit_eq
  intro i
  rw [Nat.testBit_xor, Nat.testBit_two_pow, Nat.add_comm]
  rcases Nat.lt_trichotomy i 31 with hi | rfl | hi
  · rw [Nat.testBit_two_pow_add_gt hi, decide_eq_false (by omega), Bool.xor_false]
  · rw [Nat.testBit_two_pow_add_eq, decide_eq_true rfl, Bool.xor_true]
  · have hle : 2 ^ 32 ≤ 2 ^ i := Nat.pow_le_pow_right (by decide) hi
    rw [Nat.testBit_lt_two_pow (by omega), Nat.testBit_lt_two_pow (by omega), decide_eq_false (by omega), Bool.xor_false]

theorem flip_sign (a : Word) : a ^^^ 0x80000000 =
    if a.toNat < 2 ^ 31 then BitVec.ofNat 32 (a.toNat + 2 ^ 31) else BitVec.ofNat 32 (a.toNat - 2 ^ 31) := by
  have hlt := a.isLt
  apply BitVec.eq_of_toNat_eq
  rw [BitVec.toNat_xor, show (0x80000000 : Word).toNat = 2 ^ 31 from rfl]
  split
  case isTrue h => rw [BitVec.toNat_ofNat, xor_sign_of_lt h, Nat.mod_eq_of_lt (by omega)]
  case isFalse h =>
    have hback := xor_sign_of_lt (n := a.toNat - 2 ^ 31) (by omega)
    rw [Nat.sub_add_cancel (Nat.not_lt.mp h)] at hback
    rw [BitVec.toNat_ofNat, Nat.mod_eq_of_lt (by omega), ← hback, Nat.xor_xor_cancel_right]
    exact hback.symm ▸ rfl

theorem floatTable_writesFloat : ∀ p ∈ floatTable, WritesFloat p := by
  simp only [floatTable, List.forall_mem_cons, List.not_mem_nil, false_imp_iff, implies_true, and_true]
  refine ⟨?vadd, ?vsub, ?vmul, ?vmin, ?vmax, ?vdiv, ?vfma, ?vfms, ?vabs, ?vneg, ?vsqrt, ?vrcp, ?vrsq, ?vexp2, ?vlog2, ?vrnd, ?vclass, ?vcmp,
    ?vcvt, ?vcvtq, ?vcvtqf⟩
  case vadd => exact writesFloat_of_vector2 (op := fun f => fadd (rnd f)) (fun _ => rfl) fun _ _ => rfl
  case vsub => exact writesFloat_of_vector2 (op := fun f => fsub (rnd f)) (fun _ => rfl) fun _ _ => rfl
  case vmul => exact writesFloat_of_vector2 (op := fun f => fmul (rnd f)) (fun _ => rfl) fun _ _ => rfl
  case vmin => exact writesFloat_of_vector2 (op := fun _ => fminmax false) (fun _ => rfl) fun _ _ => rfl
  case vmax => exact writesFloat_of_vector2 (op := fun _ => fminmax true) (fun _ => rfl) fun _ _ => rfl
  case vdiv => exact writesFloat_of_vector2 (op := fun f => fdiv (rnd f)) (fun _ => rfl) fun _ _ => rfl
  case vfma => exact writesFloat_of_vector3 (op := fun f => fma (rnd f)) (fun _ => rfl) fun _ _ => rfl
  case vfms => exact writesFloat_of_vector3 (op := fun f => fms (rnd f)) (fun _ => rfl) fun _ _ => rfl
  case vabs => exact writesFloat_of_vector1 (op := fun _ a => a &&& 0x7FFFFFFF) (fun _ => rfl) (fun _ _ => rfl) fun _ => clear_sign
  case vneg => exact writesFloat_of_vector1 (op := fun _ a => a ^^^ 0x80000000) (fun _ => rfl) (fun _ _ => rfl) fun _ => flip_sign
  case vsqrt => exact writesFloat_of_vector1 (op := fun f a => BitVec.ofNat 32 (fp32.sqrt (rnd f) (fval a))) (fun _ => rfl) (fun _ _ => rfl) fun _ _ => rfl
  case vrcp => exact writesFloat_of_vector1 (op := fun f a => fdiv (rnd f) 0x3F800000 a) (fun _ => rfl) (fun _ _ => rfl) fun _ _ => rfl
  case vrsq => exact writesFloat_of_vector1 (op := fun f a => BitVec.ofNat 32 (fp32.rsq (rnd f) (fval a))) (fun _ => rfl) (fun _ _ => rfl) fun _ _ => rfl
  case vexp2 => exact writesFloat_of_vector1 (op := fun f a => BitVec.ofNat 32 (fexp2 (rnd f) a)) (fun _ => rfl) (fun _ _ => rfl) fun _ _ => rfl
  case vlog2 => exact writesFloat_of_vector1 (op := fun f a => BitVec.ofNat 32 (flog2 (rnd f) a)) (fun _ => rfl) (fun _ _ => rfl) fun _ _ => rfl
  case vrnd => exact writesFloat_of_vector1 (op := fun f a => BitVec.ofNat 32 (frnd (rnd f) a)) (fun _ => rfl) (fun _ _ => rfl) fun _ _ => rfl
  case vclass => exact writesFloat_of_vector1 (op := fun _ => fclass) (fun _ => rfl) (fun _ _ => rfl) fun _ _ => rfl
  case vcmp =>
    exact writesFloat_of_vector2 (op := fun f a b => if condFloat (f.mf 6 4) a b then 1 else 0) (fun _ => rfl) fun _ _ => rfl
  case vcvt =>
    exact writesFloat_of_vector1 (op := fun f a => BitVec.ofNat 32 ((floatCode (f.mf 9 7)).enc (rnd f) ((floatCode (f.mf 6 4)).val a.toNat)))
      (fun _ => rfl) (fun _ _ => rfl) fun _ _ => rfl
  case vcvtq =>
    exact writesFloat_of_vector1 (op := fun f a => BitVec.ofInt 32 (toIntSat (rnd f) (f.mf 9 4) false 32 (fval a))) (fun _ => rfl) (fun _ _ => rfl)
      fun _ _ => rfl
  case vcvtqf =>
    exact writesFloat_of_vector1 (op := fun f a => BitVec.ofNat 32 (fp32.ofInt (rnd f) a.toInt (f.mf 9 4))) (fun _ => rfl) (fun _ _ => rfl) fun _ _ => rfl

/-- Settles O12. -/
theorem vectorFloats : Obligations.VectorFloats := floatTable_writesFloat

/-! ### R133 to R135: special cases -/

/-- A word is a NaN when its magnitude lies above infinity's. -/
theorem isNan_iff (x : Word) : isNan x = true ↔ 0x7F800000 < x.toNat % 2 ^ 31 := by
  rw [isNan, decide_eq_true_eq, fval, Fmt.val]
  have hlt := x.isLt
  simp only [fp32, Nat.mod_eq_of_lt hlt, Bool.true_and, decide_eq_true_eq]
  constructor
  · intro h
    split at h
    · split at h
      · cases h
      · omega
    · split at h <;> cases h
  · intro h
    rw [if_pos (by omega), if_neg (by omega)]

theorem condFloat_of_nan {cc : Nat} (hcc : cc < 8) {a b : Word} (h : (isNan a || isNan b) = true) :
    condFloat cc a b = true ↔ cc = 1 ∨ cc = 6 := by
  unfold condFloat
  simp only [h]
  interval_cases cc <;> simp

/-- The number of the class of R135 that a word falls into. -/
theorem fclass_eq (a : Word) : ∃ n, n < 10 ∧ fclass a = BitVec.ofNat 32 (2 ^ n) ∧ (isNan a = true ↔ n = 8 ∨ n = 9) := by
  have hlt := a.isLt
  rw [isNan_iff]
  unfold fclass
  refine ⟨_, ?_, rfl, ?_⟩
  · split_ifs <;> decide
  · split_ifs
    · rw [or_self, iff_false]
      omega
    all_goals omega

/-- Settles O13. -/
theorem floatCases : Obligations.FloatCases := by
  refine ⟨fun mx a b ha hb => ?_, fun mx a b ha hb => ⟨?_, ?_⟩, by decide, fun cc a b hcc h => condFloat_of_nan hcc h, by decide, fclass_eq, by decide⟩
  · rw [fminmax, ha, hb, if_pos rfl, if_pos rfl]
  · rw [fminmax, ha, hb, if_pos rfl, if_neg Bool.false_ne_true]
  · rw [fminmax, ha, hb, if_neg Bool.false_ne_true, if_pos rfl]

/-! ### R137, R139: conversions -/

/-- The bits of a word in which a run of bits has been replaced. -/
theorem getLsbD_setBits (x : Word) (lo n v : Nat) {i : Nat} (hi : i < 32) :
    (setBits x lo n v).getLsbD i = if lo ≤ i ∧ i < lo + n then v.testBit (i - lo) else x.getLsbD i := by
  have hlow : x.toNat % 2 ^ lo < 2 ^ lo := Nat.mod_lt _ (Nat.two_pow_pos lo)
  have hmid : v % 2 ^ n < 2 ^ n := Nat.mod_lt _ (Nat.two_pow_pos n)
  have hsum : x.toNat % 2 ^ lo + v % 2 ^ n * 2 ^ lo + x.toNat / 2 ^ (lo + n) * 2 ^ (lo + n) =
      2 ^ (lo + n) * (x.toNat / 2 ^ (lo + n)) + (2 ^ lo * (v % 2 ^ n) + x.toNat % 2 ^ lo) := by ring
  have hsmall : 2 ^ lo * (v % 2 ^ n) + x.toNat % 2 ^ lo < 2 ^ (lo + n) := by
    rw [Nat.pow_add]
    calc 2 ^ lo * (v % 2 ^ n) + x.toNat % 2 ^ lo < 2 ^ lo * (v % 2 ^ n) + 2 ^ lo := by omega
      _ = 2 ^ lo * (v % 2 ^ n + 1) := by ring
      _ ≤ 2 ^ lo * 2 ^ n := Nat.mul_le_mul_left _ hmid
  rw [setBits, BitVec.getLsbD_ofNat, decide_eq_true hi, Bool.true_and, hsum, Nat.testBit_two_pow_mul_add _ hsmall, Nat.testBit_two_pow_mul_add _ hlow,
    Nat.testBit_mod_two_pow, Nat.testBit_mod_two_pow, Nat.testBit_div_two_pow, ← BitVec.testBit_toNat]
  by_cases hlo : i < lo
  · rw [if_pos (by omega), if_pos hlo, if_neg (by omega), decide_eq_true hlo, Bool.true_and]
  · by_cases hhi : i < lo + n
    · rw [if_pos hhi, if_neg hlo, if_pos ⟨by omega, hhi⟩, decide_eq_true (by omega), Bool.true_and]
    · rw [if_neg hhi, if_neg (by omega)]
      congr 1
      omega

theorem icWidth_eq : ∀ c, icWidth c = if c / 2 = 0 then 32 else if c / 2 = 1 then 64 else if c / 2 = 2 then 16 else 8
  | 0 | 1 | 2 | 3 | 4 | 5 => rfl
  | c + 6 => by rw [if_neg (by omega), if_neg (by omega), if_neg (by omega)]; rfl

/-- A 64-bit number's words. -/
theorem low_word (x : Int) : (BitVec.ofInt 64 x).truncate 32 = BitVec.ofInt 32 x := by
  apply BitVec.eq_of_toNat_eq
  rw [BitVec.truncate_eq_setWidth, BitVec.toNat_setWidth, BitVec.toNat_ofInt, BitVec.toNat_ofInt]
  omega

theorem high_word (x : Int) : (BitVec.ofInt 64 x >>> 32).truncate 32 = BitVec.ofInt 32 (x / 2 ^ 32) := by
  apply BitVec.eq_of_toNat_eq
  rw [BitVec.truncate_eq_setWidth, BitVec.toNat_setWidth, BitVec.toNat_ushiftRight, BitVec.toNat_ofInt, BitVec.toNat_ofInt, Nat.shiftRight_eq_div_pow]
  omega

theorem viewInt_ofNat_toNat {w : Nat} (hw : w = 32) (uns : Bool) (x : Word) : viewInt uns (BitVec.ofNat w x.toNat) = view uns x := by
  subst hw
  rw [BitVec.ofNat_toNat, BitVec.setWidth_eq]
  rfl

theorem repA_of_w64 {r : Row} {f : Fields} (h : f.len = .w64) (hrep : r.rep = .a) : r.repA f = false := by
  simp [Row.repA, Row.immUsed, h, hrep]

/-- The value of a conversion to an integer. -/
def toInteger (f : Fields) (s : State) (g : Group) (L : Nat) : Int :=
  toIntSat (rnd f) 0 (icUns (f.mf 9 7)) (icWidth (f.mf 9 7)) ((floatCode (f.mf 6 4)).val (s.opA g (rowVcvti f) f L).toNat)

theorem vcvti_writes {f : Fields} {s : State} {g : Group} (h : Ready (.vcvti f) s g) :
    ∃ t, exec (.vcvti f) s = .next t ∧
      (f.mf 9 7 / 2 ≠ 1 → VectorWrite s t g g.wset [f.d.toNat] (fun _ L => BitVec.ofInt 32 (toInteger f s g L)) (nextPc g f)) ∧
      (f.mf 9 7 / 2 = 1 → VectorWrite s t g g.wset [f.d.toNat, f.d.toNat + 1]
        (fun r L => if r = f.d.toNat then BitVec.ofInt 32 (toInteger f s g L) else BitVec.ofInt 32 (toInteger f s g L / 2 ^ 32)) (nextPc g f)) := by
  have hwide : icWidth (f.mf 9 7) = 64 ↔ f.mf 9 7 / 2 = 1 := by
    rw [icWidth_eq]
    split_ifs <;> omega
  refine ⟨_, exec_of_ready (r := rowVcvti f) (f := f) (k := fun gid g => .next ((if icWidth (f.mf 9 7) = 64 then
    s.putW2 gid g f.d.toNat (fun L => BitVec.ofInt 64 (toInteger f s g L))
    else s.putW gid g f.d.toNat (fun L => BitVec.ofInt 32 (toInteger f s g L))).advance gid f.bytes)) h rfl rfl, fun hn => ?_, fun hn => ?_⟩
  · rw [if_neg (mt hwide.mp hn)]
    exact vectorWrite_putW h.1 _ _ f
  · rw [if_pos (hwide.mpr hn)]
    have hpair := vectorWrite_putW2 h.1 f.d.toNat (fun L => BitVec.ofInt 64 (toInteger f s g L)) f
    simp only [low_word, high_word] at hpair
    exact hpair

/-- The value of a conversion from an integer. -/
def fromInteger (f : Fields) (s : State) (g : Group) (L : Nat) : Int :=
  if icWidth (f.mf 6 4) = 64 then
    viewInt (icUns (f.mf 6 4)) (if (rowVcvtf f).repA f then pairOf (f.imm.truncate 32) (Config.freeWord s.own.fresh 0x20000) else s.readV2 g f.a.toNat L)
  else viewInt (icUns (f.mf 6 4)) (BitVec.ofNat (icWidth (f.mf 6 4)) (s.opA g (rowVcvtf f) f L).toNat)

theorem fromInteger_word {f : Fields} (h : f.mf 6 4 / 2 = 0) (s : State) (g : Group) (L : Nat) :
    fromInteger f s g L = view (f.mf 6 4 % 2 = 1) (s.opA g (rowVcvtf f) f L) := by
  have hw : icWidth (f.mf 6 4) = 32 := by rw [icWidth_eq, if_pos h]
  rw [fromInteger, if_neg (by omega), viewInt_ofNat_toNat hw]
  rfl

theorem fromInteger_pair {f : Fields} (h : f.mf 6 4 / 2 = 1) (hlen : f.len = .w64) (s : State) (g : Group) (L : Nat) :
    fromInteger f s g L = view (f.mf 6 4 % 2 = 1) (s.readV2 g f.a.toNat L) := by
  have hw : icWidth (f.mf 6 4) = 64 := by rw [icWidth_eq, if_neg (by omega), if_pos h]
  rw [fromInteger, if_pos hw, repA_of_w64 hlen rfl, if_neg Bool.false_ne_true]
  rfl

/-- Settles O14. -/
theorem conversions : Obligations.Conversions := by
  intro f s g
  refine ⟨fun h => ?vcvti, fun h => ?vcvtf, fun h => ?vcvtn⟩
  case vcvti =>
    obtain ⟨t, ht, hword, hpair⟩ := vcvti_writes h
    refine ⟨t, _, ht, fun L => ?_, hword, hpair⟩
    rw [toInteger, icWidth_eq]
    rfl
  case vcvtf =>
    obtain ⟨t, ht, hw⟩ := exec_putW h (r := rowVcvtf f) (v := fun s g L => BitVec.ofNat 32 ((floatCode (f.mf 9 7)).ofInt (rnd f) (fromInteger f s g L) 0)) rfl rfl
    refine ⟨t, _, ht, hw, fun hword L => ?_, fun hpair hlen L => ?_⟩
    · rw [fromInteger_word hword]
      rfl
    · rw [fromInteger_pair hpair hlen]
      rfl
  case vcvtn =>
    obtain ⟨t, ht, hw⟩ := exec_putW h (r := rowVcvtn f) (v := fun s g L => setBits (s.readV g f.d.toNat L) (2 * f.mf 9 7 * (floatCode (f.mf 6 4)).bits)
      (2 * (floatCode (f.mf 6 4)).bits) ((floatCode (f.mf 6 4)).enc (rnd f) (fval (s.readV g f.a.toNat L)) +
        (floatCode (f.mf 6 4)).enc (rnd f) (fval (s.readV g f.b.toNat L)) * 2 ^ (floatCode (f.mf 6 4)).bits)) rfl rfl
    refine ⟨t, _, ht, hw, fun L _ i hi hout => ?_⟩
    rw [getLsbD_setBits _ _ _ _ hi, if_neg]
    rintro ⟨hlo, hhi⟩
    rw [← Nat.add_mul] at hhi
    omega

end Sys2Proof.Proofs
end

section
/-! Packed elements, quantisation and the Hadamard transform (spec 06, R136; spec 09, R214 to R220). -/

namespace Sys2Proof.Proofs

open Sys2Proof Sys2Proof.Machine Sys2Proof.Claims

/-! ### R136: two halves -/

theorem halfVal_eq (f : Fields) (x : Word) (i : Nat) : halfVal f x i = (if f.m 4 then fp16 else bf16).val (el 16 x i).toNat := by
  rw [halfVal, half, elem_eq_el]

theorem toNat_el_halves (f : Fields) (v : Nat → FVal) {i : Nat} (hi : i < 2) :
    (el 16 (halves f v) i).toNat = (if f.m 4 then fp16 else bf16).enc (f.mf 3 2) (v i) % 2 ^ 16 := by
  rw [halves, el_ofElems _ hi, BitVec.toNat_ofNat]
  rfl

theorem packedHalves : PackedHalves := by
  simp only [PackedHalves, List.forall_mem_cons, List.not_mem_nil, false_imp_iff, implies_true, and_true]
  refine ⟨fun f s g h => ?vadd2, fun f s g h => ?vmul2, fun f s g h => ?vfma2⟩
  case vadd2 =>
    obtain ⟨t, ht, hw⟩ := exec_putW h (r := rowVadd2 f) (v := fun s g L =>
      halves f (fun i => (halfVal f (s.opA g (rowVadd2 f) f L) i).add (rnd f) (halfVal f (s.opB g (rowVadd2 f) f L) i))) rfl rfl
    refine ⟨t, _, ht, hw, fun L _ i hi => ?_⟩
    rw [toNat_el_halves f _ hi, halfVal_eq, halfVal_eq]
    rfl
  case vmul2 =>
    obtain ⟨t, ht, hw⟩ := exec_putW h (r := rowVmul2 f) (v := fun s g L =>
      halves f (fun i => (halfVal f (s.opA g (rowVmul2 f) f L) i).mul (halfVal f (s.opB g (rowVmul2 f) f L) i))) rfl rfl
    refine ⟨t, _, ht, hw, fun L _ i hi => ?_⟩
    rw [toNat_el_halves f _ hi, halfVal_eq, halfVal_eq]
  case vfma2 =>
    obtain ⟨t, ht, hw⟩ := exec_putW h (r := rowVfma2 f) (v := fun s g L =>
      halves f (fun i => ((halfVal f (s.opA g (rowVfma2 f) f L) i).mul (halfVal f (s.opB g (rowVfma2 f) f L) i)).add (rnd f)
        (halfVal f (s.opC g (rowVfma2 f) f L) i))) rfl rfl
    refine ⟨t, _, ht, hw, fun L _ i hi => ?_⟩
    rw [toNat_el_halves f _ hi, halfVal_eq, halfVal_eq, halfVal_eq]
    rfl

/-! ### R214, R219: packing and integer dot products -/

/-- The statement of R219 for one row of its table. -/
def WritesPacked (p : (Fields → Instr) × (Fields → Row) × Nat × (Fields → Word → Word → Nat → Int)) : Prop :=
  ∀ (f : Fields) (s : State) (g : Group), Ready (p.1 f) s g → ∃ t, ∃ v : Nat → Word, exec (p.1 f) s = .next t ∧
    VectorWrite s t g g.wset [f.d.toNat] (fun _ L => v L) (nextPc g f) ∧
    ∀ L, L < 32 → ∀ i, i < 32 / p.2.2.1 → el p.2.2.1 (v L) i =
      BitVec.ofInt p.2.2.1 (p.2.2.2 f (s.opA g (p.2.1 f) f L) (s.opB g (p.2.1 f) f L) i)

theorem writesPacked_of_vector2 {c : Fields → Instr} {row : Fields → Row} {w : Nat} {val : Fields → Word → Word → Nat → Int}
    {e : Fields → Word → Word → Nat → BitVec w} (hrow : ∀ f, (c f).row = some (f, row f))
    (hexec : ∀ f s, exec (c f) s = vector2 (row f) (fun a b => ofElems w (e f a b)) f s)
    (hval : ∀ f a b i, e f a b i = BitVec.ofInt w (val f a b i)) : WritesPacked (c, row, w, val) := by
  intro f s g h
  obtain ⟨t, ht, hw⟩ := exec_putW h (hrow f) (v := fun s g L => ofElems w (e f (s.opA g (row f) f L) (s.opB g (row f) f L))) (hexec f s)
  exact ⟨t, _, ht, hw, fun L _ i hi => (el_ofElems _ hi).trans (hval _ _ _ _)⟩

theorem packTable_writesPacked : ∀ p ∈ packTable, WritesPacked p := by
  simp only [packTable, List.forall_mem_cons, List.not_mem_nil, false_imp_iff, implies_true, and_true]
  refine ⟨?vpk8, ?vupk8, ?vpk4, ?vupk4⟩
  case vpk8 =>
    refine writesPacked_of_vector2 (e := fun f a b i => saturate (f.m 3) 8 (viewInt (f.m 2) (elem 16 (if i < 2 then a else b) (i % 2))))
      (fun _ => rfl) (fun _ _ => rfl) fun f a b i => ?_
    rw [saturate_eq, elem_eq_el]
    rfl
  case vupk8 =>
    refine writesPacked_of_vector2 (e := fun f a b i => BitVec.ofInt 16 (viewInt (f.m 2) (elem 8 a (2 * (b.toNat % 2) + i))))
      (fun _ => rfl) (fun _ _ => rfl) fun f a b i => ?_
    rw [elem_eq_el]
    rfl
  case vpk4 =>
    refine writesPacked_of_vector2 (e := fun f a b i => saturate (f.m 3) 4 (viewInt (f.m 2) (elem 8 (if i < 4 then a else b) (i % 4))))
      (fun _ => rfl) (fun _ _ => rfl) fun f a b i => ?_
    rw [saturate_eq, elem_eq_el]
    rfl
  case vupk4 =>
    refine writesPacked_of_vector2 (e := fun f a b i => BitVec.ofInt 8 (viewInt (f.m 2) (elem 4 a (4 * (b.toNat % 2) + i))))
      (fun _ => rfl) (fun _ _ => rfl) fun f a b i => ?_
    rw [elem_eq_el]
    rfl

theorem dot_of_integers {f : Fields} {w : Nat} {ta tb : Nat} (h : ta < 2) (fl : Nat → Fmt) (a b c : Word) :
    dot f w ta tb fl a b c = BitVec.ofInt 32 (c.toInt + ((List.range (32 / w)).map (fun i => view (ta = 1) (el w a i) * view (tb = 1) (el w b i))).sum) := by
  rw [dot, if_pos h]
  simp only [elem_eq_el, view_eq_viewInt]

theorem packedIntegers : PackedIntegers := by
  refine ⟨packTable_writesPacked, ?_⟩
  simp only [List.forall_mem_cons, List.not_mem_nil, false_imp_iff, implies_true, and_true]
  refine ⟨fun f s g h => ?vdot8, fun f s g h => ?vdot4⟩
  case vdot8 =>
    obtain ⟨t, ht, hw⟩ := exec_putW h (r := rowVdot8 f) (v := fun s g L => dot f 8 (f.mf 2 1) (f.mf 4 3) (fun t => if t = 2 then e4m3 else e5m2)
      (s.opA g (rowVdot8 f) f L) (s.opB g (rowVdot8 f) f L) (s.opC g (rowVdot8 f) f L)) rfl rfl
    refine ⟨t, _, ht, hw, fun hint L _ => ?_⟩
    rw [dot_of_integers hint]
    rfl
  case vdot4 =>
    obtain ⟨t, ht, hw⟩ := exec_putW h (r := rowVdot4 f) (v := fun s g L => dot f 4 (f.mf 2 1) (f.mf 4 3) (fun _ => e2m1)
      (s.opA g (rowVdot4 f) f L) (s.opB g (rowVdot4 f) f L) (s.opC g (rowVdot4 f) f L)) rfl rfl
    refine ⟨t, _, ht, hw, fun hint L _ => ?_⟩
    rw [dot_of_integers hint]
    rfl

/-- Settles O15. -/
theorem packedElements : Obligations.PackedElements := ⟨packedHalves, packedIntegers⟩

end Sys2Proof.Proofs
end

section
/-! Scaling, quantising and the Hadamard transform (spec 09, R215 to R220). -/

namespace Sys2Proof.Proofs

open Sys2Proof Sys2Proof.Machine Sys2Proof.Claims

/-! ### R216: scale bytes -/

theorem clamp_eq {lo hi : Int} (h : lo ≤ hi) (x : Int) : clamp lo hi x = max lo (min hi x) := by
  unfold clamp
  split_ifs <;> omega

theorem log2_normal {m : Nat} (h : m < 2 ^ 23) : Nat.log2 (m + 2 ^ 23) = 23 := by
  rw [Nat.log2_eq_iff (by omega)]
  omega

/-- The value of a magnitude. -/
theorem val_of_magnitude {mag : Nat} (h : mag < 2 ^ 31) : fp32.val mag =
    if 0x7F800000 ≤ mag then (if mag % 2 ^ 23 = 0 then .inf false else .nan)
    else if mag < 2 ^ 23 then .fin false mag (-149) else .fin false (mag % 2 ^ 23 + 2 ^ 23) ((mag / 2 ^ 23 : Nat) - 150) := by
  have hneg : ¬ mag / 2 ^ 31 = 1 := by omega
  unfold Fmt.val
  simp only [fp32, Nat.mod_eq_of_lt (show mag < 2 ^ 32 by omega), Nat.mod_eq_of_lt h, hneg, decide_false, Bool.true_and, decide_eq_true_eq,
    Nat.add_one_sub_one]
  by_cases hinf : 0x7F800000 ≤ mag
  · rw [if_pos (by omega), if_pos hinf]
  · rw [if_neg (by omega), if_neg hinf]
    by_cases hsub : mag < 2 ^ 23
    · rw [if_pos (by omega), if_pos hsub, Nat.mod_eq_of_lt hsub]
      rfl
    · rw [if_neg (by omega), if_neg hsub]
      congr 1
      omega

theorem toNat_clear_sign (a : Word) : (a &&& 0x7FFFFFFF).toNat = a.toNat % 2 ^ 31 := by
  rw [clear_sign, BitVec.toNat_ofNat]
  omega

theorem scaleByte_eq (em : Nat) (a : Word) : scaleByte em a =
    if a.toNat % 2 ^ 31 = 0 then 0 else if 0x7F800000 ≤ a.toNat % 2 ^ 31 then 255
    else BitVec.ofInt 32 (max 0 (min 254 (floorLog2 (a.toNat % 2 ^ 31) - em + 127))) := by
  have hlt : a.toNat % 2 ^ 31 < 2 ^ 31 := Nat.mod_lt _ (by decide)
  rw [scaleByte, fval, toNat_clear_sign, val_of_magnitude hlt]
  generalize a.toNat % 2 ^ 31 = mag at hlt
  by_cases hzero : mag = 0
  · subst hzero
    rfl
  rw [if_neg hzero]
  by_cases hinf : 0x7F800000 ≤ mag
  · rw [if_pos hinf, if_pos hinf]
    split_ifs <;> rfl
  rw [if_neg hinf, if_neg hinf, floorLog2]
  by_cases hsub : mag < 2 ^ 23
  · rw [if_pos hsub, if_pos hsub]
    dsimp only
    rw [if_neg hzero, clamp_eq (by decide)]
    congr 5
  · rw [if_neg hsub, if_neg hsub]
    dsimp only
    rw [if_neg (by omega), clamp_eq (by decide), log2_normal (Nat.mod_lt _ (by decide))]
    congr 5
    omega

/-! ### R215, R218: a scale byte of 0xFF -/

@[simp] theorem mul_nan (x : FVal) : x.mul .nan = .nan := by
  cases x <;> rfl

@[simp] theorem nan_mul (x : FVal) : FVal.nan.mul x = .nan := by
  cases x <;> rfl

/-! ### R217: one quantised element -/

theorem quantise_of_nearest (c r : Nat) (a : Word) : quantise c false r a =
    if codeInt c then (BitVec.ofInt (codeWidth c) (toIntSat 0 0 false (codeWidth c) (fval a))).toNat else (codeFmt c).enc 0 (fval a) := by
  unfold quantise
  cases fval a <;> rfl

/-! ### R216: the largest magnitude -/

/-- The largest magnitude of a list of words, beginning with `m`. -/
def largest (m : Word) (l : List Word) : Word :=
  l.foldl (fun m x => if m.toNat < x.toNat % 2 ^ 31 then BitVec.ofNat 32 (x.toNat % 2 ^ 31) else m) m

theorem largest_spec (m : Word) (l : List Word) : m.toNat ≤ (largest m l).toNat ∧ (∀ x ∈ l, x.toNat % 2 ^ 31 ≤ (largest m l).toNat) ∧
    (largest m l = m ∨ ∃ x ∈ l, (largest m l).toNat = x.toNat % 2 ^ 31) := by
  induction l generalizing m with
  | nil => exact ⟨le_rfl, fun _ h => absurd h List.not_mem_nil, .inl rfl⟩
  | cons y l ih =>
    have hy : (BitVec.ofNat 32 (y.toNat % 2 ^ 31)).toNat = y.toNat % 2 ^ 31 := by
      rw [BitVec.toNat_ofNat]
      omega
    have hcons : largest m (y :: l) = largest (if m.toNat < y.toNat % 2 ^ 31 then BitVec.ofNat 32 (y.toNat % 2 ^ 31) else m) l := rfl
    rw [hcons]
    obtain ⟨hle, hall, hone⟩ := ih (if m.toNat < y.toNat % 2 ^ 31 then BitVec.ofNat 32 (y.toNat % 2 ^ 31) else m)
    by_cases hlt : m.toNat < y.toNat % 2 ^ 31
    · rw [if_pos hlt] at hle hall hone ⊢
      rw [hy] at hle
      refine ⟨by omega, List.forall_mem_cons.mpr ⟨hle, hall⟩, .inr ?_⟩
      rcases hone with heq | ⟨x, hx, heq⟩
      · exact ⟨y, List.mem_cons_self, by rw [heq, hy]⟩
      · exact ⟨x, List.mem_cons_of_mem _ hx, heq⟩
    · rw [if_neg hlt] at hle hall hone ⊢
      refine ⟨hle, List.forall_mem_cons.mpr ⟨by omega, hall⟩, hone.imp id ?_⟩
      rintro ⟨x, hx, heq⟩
      exact ⟨x, List.mem_cons_of_mem _ hx, heq⟩

/-- The largest magnitude of words one of which there is, is the magnitude of one of them. -/
theorem exists_largest {l : List Word} (h : l ≠ []) : ∃ x ∈ l, (largest 0 l).toNat = x.toNat % 2 ^ 31 := by
  obtain ⟨-, hall, hzero | hone⟩ := largest_spec 0 l
  · obtain ⟨x, hx⟩ := List.exists_mem_of_ne_nil l h
    refine ⟨x, hx, ?_⟩
    have hle := hall x hx
    rw [hzero] at hle ⊢
    exact (Nat.le_zero.mp hle).symm
  · exact hone

/-- The values of A in the active lanes. -/
def activeValues (s : State) (g : Group) (r : Nat) : List Word := (lanesOf g.ctl.exm).map (fun L => s.readV g r L)

theorem mem_activeValues {s : State} {g : Group} {r : Nat} {x : Word} :
    x ∈ activeValues s g r ↔ ∃ L, L < 32 ∧ g.ctl.exm.getLsbD L = true ∧ s.readV g r L = x := by
  simp [activeValues, mem_lanesOf, and_assoc]

theorem exists_lane_of_ne_zero {w : Word} (h : w ≠ 0) : ∃ L, L < 32 ∧ w.getLsbD L = true := by
  by_contra hnone
  refine h (BitVec.eq_of_getLsbD_eq fun L hL => ?_)
  rw [show (0 : Word) = 0#32 from rfl, BitVec.getLsbD_zero]
  exact Bool.eq_false_iff.mpr fun hbit => hnone ⟨L, hL, hbit⟩

/-- What vamax gives every lane. -/
def amax (s : State) (g : Group) (r : Nat) : Word := if (activeValues s g r).any isNan then 0x7FC00000 else largest 0 (activeValues s g r)

theorem amax_of_nan {s : State} {g : Group} {r L : Nat} (hL : L < 32) (hact : g.ctl.exm.getLsbD L = true) (hnan : isNan (s.readV g r L) = true) :
    amax s g r = 0x7FC00000 :=
  if_pos (List.any_eq_true.mpr ⟨_, mem_activeValues.mpr ⟨L, hL, hact, rfl⟩, hnan⟩)

theorem amax_of_numbers {s : State} {g : Group} {r : Nat} (h : ∀ L, L < 32 → g.ctl.exm.getLsbD L = true → isNan (s.readV g r L) = false) :
    amax s g r = largest 0 (activeValues s g r) := by
  refine if_neg fun hany => ?_
  obtain ⟨x, hx, hnan⟩ := List.any_eq_true.mp hany
  obtain ⟨L, hL, hact, rfl⟩ := mem_activeValues.mp hx
  rw [h L hL hact] at hnan
  exact Bool.false_ne_true hnan

theorem vamax_writes {f : Fields} {s : State} {g : Group} (h : Ready (.vamax f) s g) : ∃ t m, exec (.vamax f) s = .next t ∧
    VectorWrite s t g g.wset [f.d.toNat] (fun _ _ => m) (nextPc g f) ∧
    ((∃ L, L < 32 ∧ g.ctl.exm.getLsbD L = true ∧ isNan (s.readV g f.a.toNat L) = true) → m = 0x7FC00000) ∧
    (g.ctl.exm ≠ 0 → (∀ L, L < 32 → g.ctl.exm.getLsbD L = true → isNan (s.readV g f.a.toNat L) = false) →
      (∃ L, L < 32 ∧ g.ctl.exm.getLsbD L = true ∧ m.toNat = (s.readV g f.a.toNat L).toNat % 2 ^ 31) ∧
      ∀ L, L < 32 → g.ctl.exm.getLsbD L = true → (s.readV g f.a.toNat L).toNat % 2 ^ 31 ≤ m.toNat) := by
  obtain ⟨t, ht, hw⟩ := exec_putW h (r := rowVamax f) (v := fun s g _ => amax s g f.a.toNat) rfl rfl
  refine ⟨t, _, ht, hw, fun ⟨L, hL, hact, hnan⟩ => amax_of_nan hL hact hnan, fun hsome hnum => ?_⟩
  rw [amax_of_numbers hnum]
  constructor
  · obtain ⟨L0, hL0, hact0⟩ := exists_lane_of_ne_zero hsome
    obtain ⟨x, hx, heq⟩ := exists_largest (List.ne_nil_of_mem (mem_activeValues (s := s) (r := f.a.toNat).mpr ⟨L0, hL0, hact0, rfl⟩))
    obtain ⟨L, hL, hact, rfl⟩ := mem_activeValues.mp hx
    exact ⟨L, hL, hact, heq⟩
  · intro L hL hact
    exact (largest_spec 0 _).2.1 _ (mem_activeValues.mpr ⟨L, hL, hact, rfl⟩)

/-! ### R220: the transform of 128 values -/

theorem helpers_of_no_lane {g : Group} (h : g.ctl.exm = 0) : g.helpers = 0 := by
  unfold Group.helpers
  split
  · rfl
  · refine BitVec.eq_of_getLsbD_eq fun L hL => ?_
    rw [getLsbD_maskOf, h]
    simp

theorem wset_eq_zero_iff {g : Group} : g.wset = 0 ↔ g.ctl.exm = 0 := by
  constructor
  · intro h
    have hor : g.ctl.exm ||| g.helpers = 0#32 := h
    exact (BitVec.or_eq_zero_iff.mp hor).1
  · intro h
    rw [Group.wset, h, helpers_of_no_lane h]
    rfl

/-- Writes of `n` registers, one after another, in lanes `ls`. -/
def putRegs (s : State) (gid d n : Nat) (ls : List Nat) (v : Nat → Nat → Word) : State :=
  (List.range n).foldl (fun s i => s.writeV gid (d + i) (ls.map (fun L => (L, v i L)))) s

theorem lanesWritten_putRegs {s : State} {gid : Nat} {g : Group} (hg : s.group gid = some g) (d n : Nat) {ls : List Nat} (hls : ∀ L ∈ ls, L < 32)
    (v : Nat → Nat → Word) : ∃ g', LanesWritten s (putRegs s gid d n ls v) gid g g' ∧
      (∀ j L, L < 32 → (j < d ∨ d + n ≤ j ∨ j = 255 ∨ L ∉ ls) → g'.rdV j L = g.rdV j L) ∧
      (∀ i, i < n → ∀ L ∈ ls, d + i ≠ 255 → g.busy (d + i) = false → g'.rdV (d + i) L = v i L) := by
  induction n with
  | zero => exact ⟨g, .refl hg, fun _ _ _ _ => rfl, fun i hi => absurd hi (Nat.not_lt_zero i)⟩
  | succ n ih =>
    obtain ⟨g1, hw1, hkept1, hval1⟩ := ih
    obtain ⟨g2, hw2, hkept2, hval2⟩ := lanesWritten_writeV hw1.now (d + n) hls (v n)
    have hsucc : putRegs s gid d (n + 1) ls v = (putRegs s gid d n ls v).writeV gid (d + n) (ls.map (fun L => (L, v n L))) := by
      rw [putRegs, List.range_succ, List.foldl_append]
      rfl
    rw [hsucc]
    refine ⟨g2, hw1.trans hw2, fun j L hL hout => ?_, fun i hi L hin h255 hfree => ?_⟩
    · have hout2 : j ≠ d + n ∨ j = 255 ∨ L ∉ ls := by
        rcases hout with hlo | hhi | hrest
        · exact .inl (by omega)
        · exact .inl (by omega)
        · exact .inr hrest
      have hout1 : j < d ∨ d + n ≤ j ∨ j = 255 ∨ L ∉ ls := hout.imp id (fun h => h.imp (fun hhi => by omega) id)
      rw [hkept2 j L hL hout2, hkept1 j L hL hout1]
    · by_cases hlast : i = n
      · subst hlast
        exact hval2 L hin h255 (by rw [hw1.lanes.busy_eq, hfree])
      · rw [hkept2 _ L (hls L hin) (.inl (by omega)), hval1 i (by omega) L hin h255 hfree]

theorem present_lt {g : Group} : ∀ L ∈ g.present, L < 32 := by
  unfold Group.present
  split
  · exact lanesOf_lt
  · exact fun L h => mem_laneList.mp h

theorem mem_present {g : Group} {L : Nat} (hL : L < 32) : L ∈ g.present ↔ (if g.visitor.isSome then g.ctl.livem else 0xFFFFFFFF : Word).getLsbD L = true := by
  unfold Group.present
  split
  · rw [mem_lanesOf, and_iff_right hL]
  · rw [mem_laneList, iff_true_left hL]
    decide +revert

/-- The transformed values of a vhad. -/
def transformed (f : Fields) (s : State) (g : Group) : List Word :=
  (if f.m 1 then hadamardInv else hadamard) ((s.readSP g f.b).truncate 32)
    ((List.range 128).map (fun j => s.readLane g (f.a.toNat + j / 32) (j % 32)))

theorem exec_vhad {f : Fields} {s : State} {g : Group} (h : Ready (.vhad f) s g) : exec (.vhad f) s =
    if g.wset = 0 then .next (s.advance s.own.cur f.bytes)
    else .next ((putRegs s s.own.cur f.d.toNat 4 g.present (fun i L => (transformed f s g).getD (32 * i + L) 0)).advance s.own.cur f.bytes) := by
  change execVhad f s = _
  rw [execVhad, issue_of_ready h rfl]
  unfold transformed putRegs
  cases f.m 1 <;> rfl

theorem vhad_writes {f : Fields} {s : State} {g : Group} (h : Ready (.vhad f) s g) : ∃ t, exec (.vhad f) s = .next t ∧
    (g.ctl.exm = 0 → VectorWrite s t g 0 [] (fun _ _ => 0) (nextPc g f)) ∧
    (g.ctl.exm ≠ 0 → VectorWrite s t g (if g.visitor.isSome then g.ctl.livem else 0xFFFFFFFF)
      [f.d.toNat, f.d.toNat + 1, f.d.toNat + 2, f.d.toNat + 3]
      (fun r L => (transformed f s g).getD (32 * (r - f.d.toNat) + L) 0) (nextPc g f)) := by
  rw [exec_vhad h]
  by_cases hnone : g.ctl.exm = 0
  · rw [if_pos (wset_eq_zero_iff.mpr hnone)]
    refine ⟨_, rfl, fun _ => ?_, fun hsome => absurd hnone hsome⟩
    exact (LanesWritten.refl h.1).vectorWrite_advance (fun _ _ _ _ => rfl) (fun _ _ _ hin => absurd hin List.not_mem_nil) f
  · rw [if_neg (mt wset_eq_zero_iff.mp hnone)]
    obtain ⟨g', hw, hkept, hval⟩ := lanesWritten_putRegs h.1 f.d.toNat 4 present_lt (fun i L => (transformed f s g).getD (32 * i + L) 0)
    have hds : ∀ r, r ∈ [f.d.toNat, f.d.toNat + 1, f.d.toNat + 2, f.d.toNat + 3] ↔ f.d.toNat ≤ r ∧ r < f.d.toNat + 4 := by
      intro r
      simp only [List.mem_cons, List.not_mem_nil, or_false]
      omega
    refine ⟨_, rfl, fun hzero => absurd hzero hnone, fun _ => ?_⟩
    refine hw.vectorWrite_advance (fun r L hL hout => hkept r L hL ?_) (fun r L hL hin h255 hlane hfree => ?_) f
    · rcases hout with hout | hout | hlane
      · rw [hds] at hout
        have hor : r < f.d.toNat ∨ f.d.toNat + 4 ≤ r := by omega
        exact hor.imp id .inl
      · exact .inr (.inr (.inl hout))
      · exact .inr (.inr (.inr (by rw [mem_present hL, hlane]; exact Bool.false_ne_true)))
    · obtain ⟨hlo, hhi⟩ := (hds r).mp hin
      have hreg : f.d.toNat + (r - f.d.toNat) = r := by omega
      have hr := hval (r - f.d.toNat) (by omega) L ((mem_present hL).mpr hlane)
      rw [hreg] at hr
      exact hr h255 hfree

/-! ### The table of R215 -/

/-- The statement of R215 for one row of its table. -/
def WritesScaled (p : (Fields → Instr) × (Fields → Row) × (Fields → Word → Word → Word)) : Prop :=
  ∀ (f : Fields) (s : State) (g : Group), Ready (p.1 f) s g → ∃ t, exec (p.1 f) s = .next t ∧
    VectorWrite s t g g.wset [f.d.toNat] (fun _ L => p.2.2 f (s.opA g (p.2.1 f) f L) (s.opB g (p.2.1 f) f L)) (nextPc g f)

/-- The exponent of the largest value of a format code (spec 09, R216). -/
def largestExp (c : Nat) : Nat := match c with | 3 => 8 | 4 => 15 | 5 => 2 | _ => 6

theorem largestExp_eq : ∀ c : Nat, (largestExp c : Int) = if c = 3 then 8 else if c = 4 then 15 else if c = 5 then 2 else 6
  | 0 | 1 | 2 | 3 | 4 | 5 => rfl
  | c + 6 => by rw [if_neg (by omega), if_neg (by omega), if_neg (by omega)]; rfl

theorem scaleTable_writesScaled : ∀ p ∈ scaleTable, WritesScaled p := by
  simp only [scaleTable, List.forall_mem_cons, List.not_mem_nil, false_imp_iff, implies_true, and_true]
  refine ⟨fun f s g h => ?vscale, fun f s g h => ?vsc8, fun f s g h => ?vdeq⟩
  case vscale =>
    have hval : ∀ a b : Word, fenc (rnd f) (if f.m 4 then ((fval a).mul (e8m0 (b.toNat % 256))).mul (e8m0 (b.toNat / 256 % 256))
      else (fval a).mul (e8m0 (b.toNat % 256))) = fenc (f.mf 3 2) (if f.m 4 then ((fval a).mul (e8m0 (b.toNat % 256))).mul (e8m0 (b.toNat / 256 % 256))
      else (fval a).mul (e8m0 (b.toNat % 256))) := fun _ _ => rfl
    simp only [← hval]
    exact exec_putW h (r := rowVscale f) (v := fun s g L => fenc (rnd f) (if f.m 4 then
      ((fval (s.opA g (rowVscale f) f L)).mul (e8m0 ((s.opB g (rowVscale f) f L).toNat % 256))).mul (e8m0 ((s.opB g (rowVscale f) f L).toNat / 256 % 256))
      else (fval (s.opA g (rowVscale f) f L)).mul (e8m0 ((s.opB g (rowVscale f) f L).toNat % 256)))) rfl rfl
  case vsc8 =>
    obtain ⟨t, ht, hw⟩ := exec_putW h (r := rowVsc8 f) (v := fun s g L =>
      scaleByte (largestExp (f.mf 4 1)) (s.opA g (rowVsc8 f) f L)) rfl rfl
    refine ⟨t, ht, ?_⟩
    simp only [scaleByte_eq, largestExp_eq] at hw
    exact hw
  case vdeq =>
    exact exec_putW h (r := rowVdeq f) (v := fun s g L => fenc 0 ((codeVal (f.mf 5 2) ((s.opA g (rowVdeq f) f L).toNat / 2 ^ (f.mf 8 6 * codeWidth (f.mf 5 2)) %
      2 ^ codeWidth (f.mf 5 2))).mul (e8m0 ((s.opB g (rowVdeq f) f L).toNat % 256)))) rfl rfl

theorem scaleTable_nan {f : Fields} {a b : Word} (hb : b.toNat % 256 = 255) : ∀ p ∈ scaleTable, p.1 f ≠ .vsc8 f → p.2.2 f a b = 0x7FC00000 := by
  simp only [scaleTable, List.forall_mem_cons, List.not_mem_nil, false_imp_iff, implies_true, and_true, hb, show e8m0 255 = .nan from rfl, mul_nan,
    nan_mul, ne_eq, not_true_eq_false, true_and, ite_self]
  exact ⟨fun _ => rfl, fun _ => rfl⟩

theorem vqnt_writes {f : Fields} {s : State} {g : Group} (h : Ready (.vqnt f) s g) : ∃ t, ∃ v : Nat → Word, exec (.vqnt f) s = .next t ∧
    VectorWrite s t g g.wset [f.d.toNat] (fun _ L => v L) (nextPc g f) ∧
    ∀ L, L < 32 → ∀ i, i < 32 → (v L).getLsbD i =
      if f.mf 7 5 * codeWidth (f.mf 4 1) ≤ i ∧ i < (f.mf 7 5 + 1) * codeWidth (f.mf 4 1) then
        (quantise (f.mf 4 1) (f.m 8) (gen (s.readV g f.c.toNat L) (s.readV g f.b.toNat L)).toNat (s.readV g f.a.toNat L)).testBit
          (i - f.mf 7 5 * codeWidth (f.mf 4 1))
      else (s.readV g f.d.toNat L).getLsbD i := by
  obtain ⟨t, ht, hw⟩ := exec_putW h (r := rowVqnt f) (v := fun s g L => setBits (s.readV g f.d.toNat L) (f.mf 7 5 * codeWidth (f.mf 4 1))
    (codeWidth (f.mf 4 1)) (quantise (f.mf 4 1) (f.m 8) (gen (s.readV g f.c.toNat L) (s.readV g f.b.toNat L)).toNat (s.readV g f.a.toNat L))) rfl rfl
  refine ⟨t, _, ht, hw, fun L _ i hi => ?_⟩
  rw [getLsbD_setBits _ _ _ _ hi, Nat.succ_mul]

/-- Settles O16. -/
theorem quantising : Obligations.Quantising := by
  intro f s g
  refine ⟨fun p hp => scaleTable_writesScaled p hp f s g, fun a b hb => scaleTable_nan hb, vamax_writes, vqnt_writes, quantise_of_nearest, fun h => ?_⟩
  obtain ⟨t, ht, hnone, hsome⟩ := vhad_writes h
  exact ⟨t, _, ht, rfl, hnone, hsome⟩

end Sys2Proof.Proofs
end

section
/-! Lane exchange, masks, counts, reductions and prefixes (spec 06, R129, R134, R140 to R144). -/

namespace Sys2Proof.Proofs

open Sys2Proof Sys2Proof.Machine Sys2Proof.Claims

/-! ### R140, R144: exchanges -/

/-- Values outside the 32 lanes do not matter. -/
theorem vectorWrite_congr {s t : State} {g : Group} {w : Word} {ds : List Nat} {v v' : Nat → Nat → Word} {pc : Dword}
    (h : VectorWrite s t g w ds v pc) (hv : ∀ r L, L < 32 → v r L = v' r L) : VectorWrite s t g w ds v' pc := by
  obtain ⟨g', h1, h2, h3, h4, h5, h6, h7, h8, h9, h10, h11, hval⟩ := h
  exact ⟨g', h1, h2, h3, h4, h5, h6, h7, h8, h9, h10, h11, fun r L hL hin h255 hlane hfree => (hval r L hL hin h255 hlane hfree).trans (hv r L hL)⟩

theorem allLanes_getLsbD : ∀ L, L < 32 → (0xFFFFFFFF : Word).getLsbD L = true := by
  decide

theorem readLane_eq (s : State) (g : Group) (r : Nat) {L : Nat} (hL : L < 32) :
    s.readLane g r L = if g.visitor.isSome && !g.ctl.livem.getLsbD L then 0 else s.readV g r L := by
  unfold State.readLane
  rw [List.contains_eq_mem]
  have hin := mem_present (g := g) hL
  cases hv : g.visitor.isSome
  · rw [hv, if_neg Bool.false_ne_true] at hin
    rw [decide_eq_true (hin.mpr (allLanes_getLsbD L hL)), if_pos rfl, Bool.false_and, if_neg Bool.false_ne_true]
  · rw [hv, if_pos rfl] at hin
    cases hlive : g.ctl.livem.getLsbD L
    · rw [hlive] at hin
      rw [decide_eq_false (mt hin.mp Bool.false_ne_true)]
      rfl
    · rw [decide_eq_true (hin.mpr hlive)]
      rfl

theorem exchange_writes {i : Instr} {f : Fields} {r : Row} {s : State} {g : Group} (h : Ready i s g) (hrow : i.row = some (f, r))
    (src : State → Group → Nat → Nat) (hexec : exec i s = exchange r f s src) (tgt : Nat → Nat)
    (hsrc : ∀ L, L < 32 → src s g L = tgt L ∧ tgt L < 32) : ∃ t, exec i s = .next t ∧
      VectorWrite s t g g.wset [f.d.toNat] (fun _ L =>
        if g.visitor.isSome && !g.ctl.livem.getLsbD (tgt L) then 0 else s.readV g f.a.toNat (tgt L)) (nextPc g f) := by
  obtain ⟨t, ht, hw⟩ := exec_putW h hrow (v := fun s g L => s.readLane g f.a.toNat (src s g L)) hexec
  refine ⟨t, ht, vectorWrite_congr hw fun _ L hL => ?_⟩
  obtain ⟨heq, hlt⟩ := hsrc L hL
  rw [heq, readLane_eq s g _ hlt]

/-- The segment widths. -/
theorem segment_cases {c : Nat} (hc : c < 5) : 32 / 2 ^ c = 32 ∨ 32 / 2 ^ c = 16 ∨ 32 / 2 ^ c = 8 ∨ 32 / 2 ^ c = 4 ∨ 32 / 2 ^ c = 2 := by
  interval_cases c <;> decide

theorem div_mul_eq_sub_mod (L w : Nat) : L / w * w = L - L % w := by
  have := Nat.div_add_mod' L w
  omega

/-- The statement of R140 for one row of its table. -/
def Exchanges (p : (Fields → Instr) × (Fields → Row) × (Nat → Nat → Nat → Nat)) : Prop :=
  ∀ (f : Fields) (s : State) (g : Group), f.mf 4 2 < 5 → Ready (p.1 f) s g → ∃ t, exec (p.1 f) s = .next t ∧
    VectorWrite s t g g.wset [f.d.toNat] (fun _ L =>
      if g.visitor.isSome && !g.ctl.livem.getLsbD (p.2.2 (32 / 2 ^ f.mf 4 2) L (s.opB g (p.2.1 f) f L).toNat) then 0
      else s.readV g f.a.toNat (p.2.2 (32 / 2 ^ f.mf 4 2) L (s.opB g (p.2.1 f) f L).toNat)) (nextPc g f)

theorem exchangeTable_exchanges : ∀ p ∈ exchangeTable, Exchanges p := by
  simp only [exchangeTable, List.forall_mem_cons, List.not_mem_nil, false_imp_iff, implies_true, and_true]
  refine ⟨fun f s g hseg h => ?vshfl, fun f s g hseg h => ?vshup, fun f s g hseg h => ?vshdn, fun f s g hseg h => ?vshxor, fun f s g hseg h => ?vbcast⟩
  all_goals have hw := segment_cases hseg
  case vshfl =>
    refine exchange_writes h rfl (fun s g L => L / segOf f * segOf f + (s.opB g (rowVshfl f) f L).toNat % segOf f) rfl
      (fun L => L - L % (32 / 2 ^ f.mf 4 2) + (s.opB g (rowVshfl f) f L).toNat % (32 / 2 ^ f.mf 4 2)) fun L hL => ⟨?_, ?_⟩
    · rw [segOf, div_mul_eq_sub_mod]
    · rcases hw with hw | hw | hw | hw | hw <;> rw [hw] <;> omega
  case vshup =>
    refine exchange_writes h rfl (fun s g L =>
      if (s.opB g (rowVshup f) f L).toNat < segOf f && L / segOf f * segOf f + (s.opB g (rowVshup f) f L).toNat ≤ L
      then L - (s.opB g (rowVshup f) f L).toNat else L) rfl
      (fun L => if (s.opB g (rowVshup f) f L).toNat < 32 / 2 ^ f.mf 4 2 ∧ L - L % (32 / 2 ^ f.mf 4 2) + (s.opB g (rowVshup f) f L).toNat ≤ L
      then L - (s.opB g (rowVshup f) f L).toNat else L) fun L hL => ⟨?_, ?_⟩
    · simp only [Bool.and_eq_true, decide_eq_true_eq]
      rw [segOf, div_mul_eq_sub_mod]
    · split <;> omega
  case vshdn =>
    refine exchange_writes h rfl (fun s g L =>
      if (s.opB g (rowVshdn f) f L).toNat < segOf f && L + (s.opB g (rowVshdn f) f L).toNat < L / segOf f * segOf f + segOf f
      then L + (s.opB g (rowVshdn f) f L).toNat else L) rfl
      (fun L => if (s.opB g (rowVshdn f) f L).toNat < 32 / 2 ^ f.mf 4 2 ∧
        L + (s.opB g (rowVshdn f) f L).toNat < L - L % (32 / 2 ^ f.mf 4 2) + 32 / 2 ^ f.mf 4 2
      then L + (s.opB g (rowVshdn f) f L).toNat else L) fun L hL => ⟨?_, ?_⟩
    · simp only [Bool.and_eq_true, decide_eq_true_eq]
      rw [segOf, div_mul_eq_sub_mod]
    · rcases hw with hw | hw | hw | hw | hw <;> rw [hw] <;> split <;> omega
  case vshxor =>
    refine exchange_writes h rfl (fun s g L => L ^^^ ((s.opB g (rowVshxor f) f L).toNat % segOf f)) rfl
      (fun L => L ^^^ ((s.opB g (rowVshxor f) f L).toNat % (32 / 2 ^ f.mf 4 2))) fun L hL => ⟨rfl, Nat.xor_lt_two_pow (n := 5) hL ?_⟩
    rcases hw with hw | hw | hw | hw | hw <;> rw [hw] <;> omega
  case vbcast =>
    refine exchange_writes h rfl (fun s g L => L / segOf f * segOf f + (s.opB g (rowVbcast f) f 0).toNat % segOf f) rfl
      (fun L => L - L % (32 / 2 ^ f.mf 4 2) + (s.opB g (rowVbcast f) f L).toNat % (32 / 2 ^ f.mf 4 2)) fun L hL => ⟨?_, ?_⟩
    · rw [segOf, div_mul_eq_sub_mod]
      rfl
    · rcases hw with hw | hw | hw | hw | hw <;> rw [hw] <;> omega

/-- Settles O17. -/
theorem laneExchange : Obligations.LaneExchange := by
  intro f s g
  refine ⟨fun hseg p hp => exchangeTable_exchanges p hp f s g hseg, fun h => ?_⟩
  have hmod : f.mf 3 2 < 4 := Nat.mod_lt _ (by decide)
  have hquad : f.mf 5 4 < 4 := Nat.mod_lt _ (by decide)
  refine exchange_writes h (r := rowQxch f) rfl (fun _ _ L => match f.mf 3 2 with | 0 => L ^^^ 1 | 1 => L ^^^ 2 | 2 => L ^^^ 3 | _ => L / 4 * 4 + f.mf 5 4)
    rfl (fun L => if f.mf 3 2 = 3 then L - L % 4 + f.mf 5 4 else L ^^^ (f.mf 3 2 + 1)) fun L hL => ⟨?_, ?_⟩
  · generalize f.mf 3 2 = m at hmod ⊢
    interval_cases m
    · rfl
    · rfl
    · rfl
    · exact congrArg (· + f.mf 5 4) (div_mul_eq_sub_mod L 4)
  · split
    · omega
    · exact Nat.xor_lt_two_pow (n := 5) hL (by omega)

end Sys2Proof.Proofs
end

section
/-! Masks, counts, reductions and prefixes (spec 06, R129, R134, R141 to R143). -/

namespace Sys2Proof.Proofs

open Sys2Proof Sys2Proof.Machine Sys2Proof.Claims

/-! ### Masks -/

/-- An instruction whose meaning is to write `v` to the scalar D. -/
theorem exec_putDst {i : Instr} {f : Fields} {r : Row} {s : State} {g : Group} (h : Ready i s g) (hrow : i.row = some (f, r)) (hd : ScalarDst f.d)
    {v : State → Group → Word}
    (hexec : exec i s = issue r f s fun gid g => .next ((s.putDst gid f.d (v s g)).advance gid f.bytes)) :
    ∃ t, exec i s = .next t ∧ ScalarWrite s t g f.d (v s g) (nextPc g f) := by
  refine ⟨_, hexec.trans (issue_of_ready h hrow _), ?_⟩
  rw [State.putDst_advance h.1 _ _ hd]
  exact scalarWrite_setGroup s g hd _ _

theorem activeMask_getLsbD (g : Group) (p : Nat → Bool) {L : Nat} (hL : L < 32) :
    (g.ctl.exm &&& maskOf p).getLsbD L = true ↔ g.ctl.exm.getLsbD L = true ∧ p L = true := by
  rw [BitVec.getLsbD_and, getLsbD_maskOf, decide_eq_true hL, Bool.true_and, Bool.and_eq_true]

/-! ### Sums of words -/

theorem sum_range_eq (n : Nat) (y : Nat → Word) : ((List.range n).map y).sum = ∑ i ∈ Finset.range n, y i := by
  induction n with
  | zero => rfl
  | succ n ih => rw [List.range_succ, List.map_append, List.sum_append, ih, Finset.sum_range_succ]; simp

theorem ofNat_sum_filter (p : Nat → Bool) (r : Nat → Word) (l : List Nat) :
    BitVec.ofNat 32 (((l.filter p).map (fun L => (r L).toNat)).sum) = (l.map (fun L => if p L then r L else 0)).sum := by
  induction l with
  | nil => rfl
  | cons a l ih =>
    rw [List.map_cons, List.sum_cons, ← ih]
    by_cases ha : p a = true
    · rw [List.filter_cons_of_pos ha, List.map_cons, List.sum_cons, BitVec.ofNat_add, if_pos ha, BitVec.ofNat_toNat, BitVec.setWidth_eq]
    · rw [List.filter_cons_of_neg ha, if_neg ha, zero_add]

/-- The value of a lane in which an absent operand counts as zero. -/
def valueAt (x : List (Option Word)) (L : Nat) : Word := (x.getD L none).getD 0

theorem getD_laneList_map {α : Type} (v : Nat → α) (d : α) (L : Nat) : (laneList.map v).getD L d = if L < 32 then v L else d := by
  rw [List.getD_eq_getElem?_getD, List.getElem?_map, show laneList = List.range 32 from rfl]
  by_cases h : L < 32
  · rw [List.getElem?_range h, if_pos h]
    rfl
  · rw [List.getElem?_eq_none (by simpa using h), if_neg h]
    rfl

theorem valueAt_combineOpt {op : Word → Word → Word} (hop : ∀ a b, op a b = a + b) (x y : Option Word) :
    (combineOpt op x y).getD 0 = x.getD 0 + y.getD 0 := by
  cases x <;> cases y <;> simp [combineOpt, hop]

theorem valueAt_present (s : State) (g : Group) (r L : Nat) :
    valueAt (present s g r) L = if L < 32 ∧ g.ctl.exm.getLsbD L = true then s.readV g r L else 0 := by
  rw [valueAt, present, getD_laneList_map]
  by_cases hL : L < 32
  · by_cases hb : g.ctl.exm.getLsbD L = true
    · rw [if_pos hL, if_pos hb, if_pos ⟨hL, hb⟩]
      rfl
    · rw [if_pos hL, if_neg hb, if_neg (fun h => hb h.2)]
      rfl
  · rw [if_neg hL, if_neg (fun h => hL h.1)]
    rfl

/-! ### R142, R143: reduction -/

theorem valueAt_reduceStage {op : Word → Word → Word} (hop : ∀ a b, op a b = a + b) (x : List (Option Word)) (d L : Nat) :
    valueAt (reduceStage op x d) L = if L < 32 then (if L % (2 * d) = 0 then valueAt x L + valueAt x (L + d) else valueAt x L) else 0 := by
  rw [valueAt, reduceStage, getD_laneList_map]
  split
  · split
    · exact valueAt_combineOpt hop _ _
    · rfl
  · rfl

/-- At multiples of `d` the lanes of `x` hold the sum of `d` lanes of `y`. -/
def SumsFrom (y : Nat → Word) (d : Nat) (x : List (Option Word)) : Prop := ∀ L, L % d = 0 → valueAt x L = ∑ k ∈ Finset.range d, y (L + k)

theorem sumsFrom_reduceStage {op : Word → Word → Word} (hop : ∀ a b, op a b = a + b) {y : Nat → Word} (hy : ∀ L, 32 ≤ L → y L = 0) {d : Nat}
    {x : List (Option Word)} (h : SumsFrom y d x) : SumsFrom y (2 * d) (reduceStage op x d) := by
  intro L hL
  rw [valueAt_reduceStage hop]
  split
  · have hd : L % d = 0 := Nat.mod_eq_zero_of_dvd ((Nat.dvd_mul_left d 2).trans (Nat.dvd_of_mod_eq_zero hL))
    rw [h L hd, h (L + d) (by rw [Nat.add_mod_right, hd]), two_mul, Finset.sum_range_add]
    simp only [Nat.add_assoc]
  · exact (Finset.sum_eq_zero fun k _ => hy _ (by omega)).symm

/-- The value of the reduction. -/
def reduced (f : Fields) (s : State) (g : Group) : Word :=
  valueAt (([1, 2, 4, 8, 16] : List Nat).foldl (reduceStage (combine f)) (present s g f.a.toNat)) 0

theorem combine_of_integer_sum {f : Fields} (hint : f.m 5 = false) (hsum : f.mf 7 6 = 0) (a b : Word) : combine f a b = a + b := by
  rw [combine, hint, if_neg Bool.false_ne_true, hsum]
  rfl

theorem reduced_of_integer_sum {f : Fields} (hint : f.m 5 = false) (hsum : f.mf 7 6 = 0) (s : State) (g : Group) :
    reduced f s g = BitVec.ofNat 32 (((List.range 32).filter (fun L => g.ctl.exm.getLsbD L)).map (fun L => (s.readV g f.a.toNat L).toNat)).sum := by
  have hop := combine_of_integer_sum hint hsum
  have hy : ∀ L, 32 ≤ L → valueAt (present s g f.a.toNat) L = 0 := fun L hL => by
    rw [valueAt_present, if_neg (fun h => Nat.not_lt.mpr hL h.1)]
  have h1 : SumsFrom (valueAt (present s g f.a.toNat)) 1 (present s g f.a.toNat) := fun L _ => by simp
  have h32 := sumsFrom_reduceStage hop hy (sumsFrom_reduceStage hop hy (sumsFrom_reduceStage hop hy (sumsFrom_reduceStage hop hy
    (sumsFrom_reduceStage hop hy h1))))
  rw [ofNat_sum_filter, sum_range_eq]
  refine (h32 0 rfl).trans (Finset.sum_congr rfl fun k hk => ?_)
  rw [Nat.zero_add, valueAt_present]
  simp only [Finset.mem_range.mp hk, true_and]

theorem reduceStage_of_none (op : Word → Word → Word) (d : Nat) :
    reduceStage op (laneList.map (fun _ => none)) d = laneList.map (fun _ => none) := by
  unfold reduceStage
  refine List.map_congr_left fun L _ => ?_
  simp only [getD_laneList_map, ite_self, combineOpt]

theorem reduced_of_no_lane {g : Group} (h : g.ctl.exm = 0) (f : Fields) (s : State) : reduced f s g = 0 := by
  have hnone : present s g f.a.toNat = laneList.map (fun _ => none) := by
    unfold present
    refine List.map_congr_left fun L _ => ?_
    rw [h]
    simp
  rw [reduced, hnone]
  simp only [List.foldl_cons, List.foldl_nil, reduceStage_of_none]
  rfl

theorem maskResults : MaskResults := by
  intro f s g hd
  simp only [List.forall_mem_cons, List.not_mem_nil, false_imp_iff, implies_true, and_true]
  refine ⟨⟨fun h => ?vcmpm, fun h => ?vcmpmF32, fun h => ?vballot⟩, fun h => ?vreduce⟩
  case vcmpm =>
    obtain ⟨t, ht, hw⟩ := exec_putDst h (r := rowVcmpm f) rfl hd (v := fun s g => g.ctl.exm &&& maskOf (fun L =>
      condInt (f.mf 7 5) (viewInt (f.m 2) (s.opA g (rowVcmpm f) f L)) (viewInt (f.m 2) (s.opB g (rowVcmpm f) f L)))) rfl
    exact ⟨t, _, ht, hw, fun L hL => by rw [activeMask_getLsbD g _ hL, condInt_iff_holds]; rfl⟩
  case vcmpmF32 =>
    obtain ⟨t, ht, hw⟩ := exec_putDst h (r := rowVcmpmF32 f) rfl hd (v := fun s g => g.ctl.exm &&& maskOf (fun L =>
      condFloat (f.mf 6 4) (s.opA g (rowVcmpmF32 f) f L) (s.opB g (rowVcmpmF32 f) f L))) rfl
    exact ⟨t, _, ht, hw, fun L hL => activeMask_getLsbD g _ hL⟩
  case vballot =>
    obtain ⟨t, ht, hw⟩ := exec_putDst h (r := rowVballot f) rfl hd (v := fun s g => g.ctl.exm &&& maskOf (fun L => s.readV g f.a.toNat L ≠ 0)) rfl
    exact ⟨t, _, ht, hw, fun L hL => by rw [activeMask_getLsbD g _ hL, decide_eq_true_eq]⟩
  case vreduce =>
    obtain ⟨t, ht, hw⟩ := exec_putDst h (r := rowVreduce f) rfl hd (v := reduced f) rfl
    exact ⟨t, _, ht, hw, fun hnone => reduced_of_no_lane hnone f s, fun hint hsum => reduced_of_integer_sum hint hsum s g⟩

/-! ### R141 to R143: counts and prefixes -/

theorem length_lanesOf_and (a : Word) (p : Nat → Bool) :
    popcount (a &&& maskOf p) = ((List.range 32).filter (fun M => a.getLsbD M && p M)).length := by
  rw [popcount, lanesOf, show laneList = List.range 32 from rfl]
  congr 1
  refine List.filter_congr fun M hM => ?_
  rw [BitVec.getLsbD_and, getLsbD_maskOf, decide_eq_true (List.mem_range.mp hM), Bool.true_and]

theorem valueAt_prefixStage {op : Word → Word → Word} (hop : ∀ a b, op a b = a + b) (x : List (Option Word)) (d L : Nat) :
    valueAt (prefixStage op x d) L = if L < 32 then (if d ≤ L then valueAt x (L - d) + valueAt x L else valueAt x L) else 0 := by
  rw [valueAt, prefixStage, getD_laneList_map]
  split
  · split
    · exact valueAt_combineOpt hop _ _
    · rfl
  · rfl

/-- The lanes of `x` hold the sum of `d` lanes of `y` that end there. -/
def SumsTo (y : Nat → Word) (d : Nat) (x : List (Option Word)) : Prop :=
  ∀ L, L < 32 → valueAt x L = ∑ k ∈ Finset.range d, if k ≤ L then y (L - k) else 0

theorem sumsTo_prefixStage {op : Word → Word → Word} (hop : ∀ a b, op a b = a + b) {y : Nat → Word} {d : Nat} {x : List (Option Word)}
    (h : SumsTo y d x) : SumsTo y (2 * d) (prefixStage op x d) := by
  intro L hL
  rw [valueAt_prefixStage hop, if_pos hL, two_mul, Finset.sum_range_add, ← h L hL]
  split
  case isTrue hd =>
    rw [h (L - d) (by omega), add_comm]
    congr 1
    refine Finset.sum_congr rfl fun k _ => ?_
    rw [show L - d - k = L - (d + k) by omega]
    exact if_congr (by omega) rfl rfl
  case isFalse hd =>
    rw [Finset.sum_eq_zero (fun k _ => if_neg (by omega)), add_zero]

/-- The lanes of the prefixes. -/
def prefixes (f : Fields) (s : State) (g : Group) : List (Option Word) :=
  ([1, 2, 4, 8, 16] : List Nat).foldl (prefixStage (combine f)) (present s g f.a.toNat)

/-- The value of A in a lane, where it is active. -/
def activeValue (s : State) (g : Group) (r L : Nat) : Word := if g.ctl.exm.getLsbD L = true then s.readV g r L else 0

theorem valueAt_prefixes {f : Fields} (hint : f.m 5 = false) (hsum : f.mf 7 6 = 0) (s : State) (g : Group) {L : Nat} (hL : L < 32) :
    valueAt (prefixes f s g) L = ∑ M ∈ Finset.range (L + 1), activeValue s g f.a.toNat M := by
  have hop := combine_of_integer_sum hint hsum
  have h1 : SumsTo (activeValue s g f.a.toNat) 1 (present s g f.a.toNat) := fun L hL => by
    simp [valueAt_present, hL, activeValue]
  have h32 := sumsTo_prefixStage hop (sumsTo_prefixStage hop (sumsTo_prefixStage hop (sumsTo_prefixStage hop (sumsTo_prefixStage hop h1))))
  refine (h32 L hL).trans ?_
  rw [← Finset.sum_range_reflect (activeValue s g f.a.toNat) (L + 1), ← Finset.sum_filter]
  refine Finset.sum_congr ?_ fun k _ => ?_
  · ext k
    simp only [Finset.mem_filter, Finset.mem_range]
    omega
  · rw [Nat.add_sub_cancel]

/-- The sum over active lanes that the statement writes. -/
theorem sum_active_eq (s : State) (g : Group) (r : Nat) (p : Nat → Bool) :
    BitVec.ofNat 32 (((List.range 32).filter (fun M => g.ctl.exm.getLsbD M && p M)).map (fun M => (s.readV g r M).toNat)).sum =
      ∑ M ∈ Finset.range 32, if p M = true then activeValue s g r M else 0 := by
  rw [ofNat_sum_filter, sum_range_eq]
  refine Finset.sum_congr rfl fun M _ => ?_
  rw [activeValue]
  by_cases hp : p M = true
  · simp [hp]
  · simp [hp]

theorem sum_below_eq (y : Nat → Word) {n : Nat} (hn : n ≤ 32) : (∑ M ∈ Finset.range 32, if M < n then y M else 0) = ∑ M ∈ Finset.range n, y M := by
  rw [← Finset.sum_filter]
  refine Finset.sum_congr ?_ fun _ _ => rfl
  ext M
  simp only [Finset.mem_filter, Finset.mem_range]
  omega

/-- What vprefix gives a lane. -/
def prefixValue (f : Fields) (s : State) (g : Group) (L : Nat) : Word :=
  if !g.ctl.exm.getLsbD L then 0
  else if f.m 8 then (match ((lanesOf g.ctl.exm).filter (· < L)).getLast? with | none => 0 | some M => valueAt (prefixes f s g) M)
  else valueAt (prefixes f s g) L

theorem last_below {w : Word} {L M : Nat} (h : ((lanesOf w).filter (· < L)).getLast? = some M) :
    M < L ∧ ∀ x, x < L → x < 32 → w.getLsbD x = true → x ≤ M := by
  obtain ⟨init, hinit⟩ := List.getLast?_eq_some_iff.mp h
  have hsorted : ((lanesOf w).filter (· < L)).Pairwise (· < ·) := by
    rw [lanesOf, show laneList = List.range 32 from rfl]
    exact (List.pairwise_lt_range.filter _).filter _
  rw [hinit, List.pairwise_append] at hsorted
  have hM : M ∈ (lanesOf w).filter (· < L) := by rw [hinit]; simp
  refine ⟨of_decide_eq_true (List.mem_filter.mp hM).2, fun x hx hx32 hbit => ?_⟩
  have hin : x ∈ (lanesOf w).filter (· < L) := List.mem_filter.mpr ⟨mem_lanesOf.mpr ⟨hx32, hbit⟩, decide_eq_true hx⟩
  rw [hinit, List.mem_append, List.mem_singleton] at hin
  rcases hin with hin | rfl
  · exact le_of_lt (hsorted.2.2 x hin M (List.mem_singleton.mpr rfl))
  · exact le_rfl

theorem none_below {w : Word} {L : Nat} (h : ((lanesOf w).filter (· < L)).getLast? = none) :
    ∀ x, x < L → x < 32 → w.getLsbD x = false := by
  intro x hx hx32
  rw [List.getLast?_eq_none_iff, List.filter_eq_nil_iff] at h
  refine Bool.eq_false_iff.mpr fun hbit => h x (mem_lanesOf.mpr ⟨hx32, hbit⟩) (decide_eq_true hx)

theorem prefixValue_of_active {f : Fields} (hint : f.m 5 = false) (hsum : f.mf 7 6 = 0) (s : State) {g : Group} {L : Nat} (hL : L < 32)
    (hact : g.ctl.exm.getLsbD L = true) : prefixValue f s g L = ∑ M ∈ Finset.range (if f.m 8 then L else L + 1), activeValue s g f.a.toNat M := by
  rw [prefixValue, hact, Bool.not_true, if_neg Bool.false_ne_true]
  by_cases hex : f.m 8 = true
  · rw [if_pos hex, if_pos hex]
    split
    case h_1 hlast =>
      refine (Finset.sum_eq_zero fun M hM => ?_).symm
      have hM := Finset.mem_range.mp hM
      rw [activeValue, none_below hlast M hM (by omega), if_neg Bool.false_ne_true]
    case h_2 M hlast =>
      obtain ⟨hM, hmax⟩ := last_below hlast
      rw [valueAt_prefixes hint hsum s g (by omega)]
      refine Finset.sum_subset (Finset.range_subset_range.mpr hM) fun x hx hout => ?_
      rw [Finset.mem_range] at hx hout
      refine if_neg fun hbit => ?_
      have := hmax x hx (by omega) hbit
      omega
  · rw [if_neg hex, if_neg hex, valueAt_prefixes hint hsum s g hL]

theorem countsAndPrefixes : CountsAndPrefixes := by
  intro f s g
  constructor
  case left =>
    intro h
    obtain ⟨t, ht, hw⟩ := exec_putW h (r := rowVpopm f) (v := fun s g L =>
      BitVec.ofNat 32 (popcount (s.readS g f.a &&& maskOf (fun M => M < L || (f.m 2 && M = L))))) rfl rfl
    refine ⟨t, _, ht, hw, fun L _ => ?_⟩
    have hle : ((List.range 32).filter (fun M => (s.readS g f.a).getLsbD M && (M < L || (f.m 2 && M = L)))).length ≤ 32 :=
      (List.length_filter_le _ _).trans (by simp)
    rw [length_lanesOf_and, BitVec.toNat_ofNat, Nat.mod_eq_of_lt (by omega)]
  case right =>
    intro h
    obtain ⟨t, ht, hw⟩ := exec_putW h (r := rowVprefix f) (v := prefixValue f) rfl rfl
    refine ⟨t, _, ht, hw, fun L _ hout => ?_, fun hint hsum L hL hact => ?_⟩
    · rw [prefixValue, hout]
      rfl
    · rw [prefixValue_of_active hint hsum s hL hact, sum_active_eq s g f.a.toNat (fun M => M < L || (!f.m 8 && M = L)),
        ← sum_below_eq _ (show (if f.m 8 then L else L + 1) ≤ 32 by split <;> omega)]
      refine Finset.sum_congr rfl fun M _ => if_congr ?_ rfl rfl
      cases f.m 8
      · simp only [Bool.not_false, Bool.true_and, Bool.or_eq_true, decide_eq_true_eq, Bool.false_eq_true, if_false]
        omega
      · simp only [Bool.not_true, Bool.false_and, Bool.or_false, decide_eq_true_eq, if_true]

/-- Settles O18. -/
theorem masksCountsAndPrefixes : Obligations.MasksCountsAndPrefixes := ⟨maskResults, countsAndPrefixes⟩

end Sys2Proof.Proofs
end

section
/-! The address of each access (spec 07, R146, R148), and the new word of each atomic operation (R160). -/

namespace Sys2Proof.Proofs

open Sys2Proof Sys2Proof.Machine Sys2Proof.Claims

/-! ### Addresses -/

theorem signExtend_eq_ofInt {v : Nat} (x : BitVec v) (w : Nat) : x.signExtend w = BitVec.ofInt w x.toInt := rfl

theorem scaled_eq_ofInt (x : Word) (k : Nat) : scaled x (2 ^ k) = BitVec.ofInt 64 (x.toInt * 2 ^ k) := by
  rw [scaled, signExtend_eq_ofInt, BitVec.ofInt_mul, ← BitVec.ofInt_natCast, Nat.cast_pow]
  rfl

theorem offOf_eq_ofInt (f : Fields) : offOf f = BitVec.ofInt 64 (offset f) := by
  unfold offOf offset
  by_cases h : f.len = .w64
  · rw [if_pos h, if_pos h, BitVec.ofInt_natCast]
    exact (BitVec.ofNat_toNat 64 f.c).symm
  · rw [if_neg h, if_neg h, signExtend_eq_ofInt]

theorem truncate_ofInt_dword (x : Int) : (BitVec.ofInt 64 x).truncate 32 = BitVec.ofInt 32 x := by
  apply BitVec.eq_of_toNat_eq
  rw [BitVec.truncate_eq_setWidth, BitVec.toNat_setWidth, BitVec.toNat_ofInt, BitVec.toNat_ofInt]
  omega

theorem windowVa_toNat {w : Nat} (hw : w < 256) (x : Word) : (windowVa w x).toNat = w * 2 ^ 48 + x.toNat := by
  have hx := x.isLt
  rw [windowVa, BitVec.toNat_add, BitVec.toNat_ofNat, BitVec.zeroExtend_eq_setWidth, BitVec.toNat_setWidth]
  omega

/-- Settles O19: each address is a sum of values read as integers, taken modulo its width once. -/
theorem effectiveAddresses : Obligations.EffectiveAddresses := by
  unfold Obligations.EffectiveAddresses
  intro s g f L w
  refine ⟨?_, ?_, fun hw => ?_, ?_⟩
  · rw [BitVec.ofInt_add, BitVec.ofInt_add, BitVec.ofInt_toInt, ← scaled_eq_ofInt, ← offOf_eq_ofInt]
    rfl
  · rw [BitVec.ofInt_add, BitVec.ofInt_add, BitVec.ofInt_toInt, ← scaled_eq_ofInt, ← offOf_eq_ofInt]
    rfl
  · rw [addrW, windowVa_toNat hw, sclOf, scaled_eq_ofInt, offOf_eq_ofInt, truncate_ofInt_dword, truncate_ofInt_dword, BitVec.ofInt_add,
      BitVec.ofInt_add, BitVec.ofInt_toInt]
  · rw [addrP, windowVa_toNat (by omega), offOf_eq_ofInt, truncate_ofInt_dword, BitVec.ofInt_add, BitVec.ofInt_toInt]

/-! ### Atomic operations -/

/-- The signed reading of a word's number, as `atomicOp` makes it. -/
theorem signed_toNat {w : Nat} (hw : 0 < w) (x : BitVec w) :
    (if x.toNat < 2 ^ (w - 1) then (x.toNat : Int) else (x.toNat : Int) - ((2 ^ w : Nat) : Int)) = x.toInt := by
  have hp := Nat.two_pow_pred_add_two_pow_pred hw
  rw [BitVec.toInt_eq_toNat_cond]
  by_cases h : x.toNat < 2 ^ (w - 1)
  · rw [if_pos h, if_pos (by omega)]
  · rw [if_neg h, if_neg (by omega)]

theorem atomicOp_min {w : Nat} (hw : 0 < w) (old v : BitVec w) :
    atomicOp 1 w old.toNat v.toNat = (if old.toInt ≤ v.toInt then old else v).toNat := by
  rw [apply_ite BitVec.toNat, ← signed_toNat hw old, ← signed_toNat hw v]
  rfl

theorem atomicOp_max {w : Nat} (hw : 0 < w) (old v : BitVec w) :
    atomicOp 2 w old.toNat v.toNat = (if v.toInt ≤ old.toInt then old else v).toNat := by
  rw [apply_ite BitVec.toNat, ← signed_toNat hw old, ← signed_toNat hw v, ← ite_not]
  simp only [not_le]
  rfl

/-- Settles O24, operation by operation. -/
theorem atomicOperations : Obligations.AtomicOperations := by
  unfold Obligations.AtomicOperations
  intro w hw old v
  have hpos : 0 < w := by
    simp only [List.mem_cons, List.not_mem_nil, or_false] at hw
    omega
  refine ⟨(BitVec.toNat_add old v).symm, atomicOp_min hpos old v, atomicOp_max hpos old v, ?_, ?_, (BitVec.toNat_and old v).symm,
    (BitVec.toNat_or old v).symm, (BitVec.toNat_xor old v).symm, rfl, fun _ => rfl, rfl, ?_⟩
  · rw [apply_ite BitVec.toNat]
    exact Nat.min_def
  · rw [apply_ite BitVec.toNat]
    change max old.toNat v.toNat = _
    rw [Nat.max_def]
    by_cases h : old.toNat ≤ v.toNat
    · rw [if_pos h]
      split <;> omega
    · rw [if_neg h, if_pos (by omega)]
  · simp only [atomicOp, Bool.or_eq_true, decide_eq_true_eq]

end Sys2Proof.Proofs
end

section
/-! Accesses that are not made: without an active lane, and at misaligned addresses (spec 07, R149, R153, R161). -/

namespace Sys2Proof.Proofs

open Sys2Proof Sys2Proof.Machine Sys2Proof.Claims

/-! ### No active lane -/

/-- Without an active lane an instruction only advances. -/
def IdleWithoutLanes (c : Fields → Instr) : Prop :=
  ∀ (f : Fields) (s : State) (g : Group), Ready (c f) s g → g.ctl.exm = 0 → exec (c f) s = .next (s.advance s.own.cur f.bytes)

theorem idle_of_issue {c : Fields → Instr} {row : Fields → Row} {k : Fields → State → Nat → Group → Res}
    (hrow : ∀ f, (c f).row = some (f, row f)) (hexec : ∀ f s, exec (c f) s = issue (row f) f s (k f s))
    (hk : ∀ f s gid g, g.ctl.exm = 0 → k f s gid g = .next (s.advance gid f.bytes)) : IdleWithoutLanes c :=
  fun f s g h hexm => (exec_of_ready h (hrow f) (hexec f s)).trans (hk f s _ g hexm)

theorem idle_of_loadV {c : Fields → Instr} {row : Fields → Row} {u : Use} {rb w : Bool} {addr : Fields → State → Group → Nat → Dword}
    (hrow : ∀ f, (c f).row = some (f, row f)) (hexec : ∀ f s, exec (c f) s = loadV (row f) f s u rb w (addr f)) : IdleWithoutLanes c :=
  idle_of_issue hrow hexec fun _ _ _ _ h => if_pos h

theorem idle_of_storeV {c : Fields → Instr} {row : Fields → Row} {w : Bool} {addr : Fields → State → Group → Nat → Dword}
    (hrow : ∀ f, (c f).row = some (f, row f)) (hexec : ∀ f s, exec (c f) s = storeV (row f) f s w (addr f)) : IdleWithoutLanes c :=
  idle_of_issue hrow hexec fun _ _ _ _ h => if_pos h

theorem idle_of_atomicV {c : Fields → Instr} {row : Fields → Row} {wide cas ret : Bool}
    (hrow : ∀ f, (c f).row = some (f, row f)) (hexec : ∀ f s, exec (c f) s = atomicV (row f) f s wide cas ret) : IdleWithoutLanes c :=
  idle_of_issue hrow hexec fun _ _ _ _ h => if_pos h

theorem idle_of_waitOn {c : Fields → Instr} {row : Fields → Row} {limit : Fields → State → Option Nat}
    (hrow : ∀ f, (c f).row = some (f, row f)) (hexec : ∀ f s, exec (c f) s = waitOn (row f) f s (limit f s)) : IdleWithoutLanes c :=
  idle_of_issue hrow hexec fun _ _ _ _ h => if_pos h

theorem vldbc_idle : IdleWithoutLanes Instr.vldbc := by
  intro f s g h hexm
  change loadS (rowVldbc f) f s true = _
  rw [loadS, issue_of_ready h rfl, hexm]
  rfl

theorem wwake_idle : IdleWithoutLanes Instr.wwake := by
  intro f s g h hexm
  change execWwake f s = _
  rw [execWwake, issue_of_ready h rfl, if_pos hexm]

theorem noActiveLane : NoActiveLane := by
  have key : ∀ c ∈ [Instr.vld, Instr.vldrb, Instr.vldbc, Instr.vldscr, Instr.vldcw, Instr.vldp, Instr.vst, Instr.vstscr, Instr.vstcw,
      Instr.vstp, Instr.vatom, Instr.vcas, Instr.vred, Instr.vatom64, Instr.vcas64, Instr.wwait, Instr.wwaitt, Instr.wwake],
      IdleWithoutLanes c := by
    simp only [List.forall_mem_cons, List.not_mem_nil, false_imp_iff, implies_true, and_true]
    exact ⟨idle_of_loadV (fun _ => rfl) fun _ _ => rfl, idle_of_loadV (fun _ => rfl) fun _ _ => rfl, vldbc_idle,
      idle_of_loadV (fun _ => rfl) fun _ _ => rfl, idle_of_loadV (fun _ => rfl) fun _ _ => rfl, idle_of_loadV (fun _ => rfl) fun _ _ => rfl,
      idle_of_storeV (fun _ => rfl) fun _ _ => rfl, idle_of_storeV (fun _ => rfl) fun _ _ => rfl,
      idle_of_storeV (fun _ => rfl) fun _ _ => rfl, idle_of_storeV (fun _ => rfl) fun _ _ => rfl,
      idle_of_atomicV (fun _ => rfl) fun _ _ => rfl, idle_of_atomicV (fun _ => rfl) fun _ _ => rfl,
      idle_of_atomicV (fun _ => rfl) fun _ _ => rfl, idle_of_atomicV (fun _ => rfl) fun _ _ => rfl,
      idle_of_atomicV (fun _ => rfl) fun _ _ => rfl,
      idle_of_waitOn (fun _ => rfl) fun _ _ => rfl, idle_of_waitOn (fun _ => rfl) fun _ _ => rfl, wwake_idle⟩
  intro c hc f s g h hexm
  refine ⟨_, key c hc f s g h hexm, ?_⟩
  rw [State.advance_eq h.1, ← hexm]
  exact controlWrite_goto s g _

/-! ### Misaligned addresses -/

/-- The failure of an address that is not aligned, as a check lists it. -/
def misaligned (align : Nat) (va : Dword) : List (Nat × Nat) := if align > 1 && va.toNat % align ≠ 0 then [(2, 0)] else []

theorem mem_misaligned {w : Nat} (hw : 1 < w) {va : Dword} {e : Nat × Nat} : e ∈ misaligned w va ↔ e = (2, 0) ∧ va.toNat % w ≠ 0 := by
  unfold misaligned
  by_cases h : va.toNat % w = 0 <;> simp [h, hw]

/-- A list of failures that begins with `al` and goes on with ones that come after DALIGN. -/
def AfterAlignment (al l : List (Nat × Nat)) : Prop := ∃ tail, l = al ++ tail ∧ ∀ e ∈ tail, 2 < e.1

theorem AfterAlignment.append {al l : List (Nat × Nat)} (h : AfterAlignment al l) {m : List (Nat × Nat)} (hm : ∀ e ∈ m, 2 < e.1) :
    AfterAlignment al (l ++ m) := by
  obtain ⟨tail, rfl, ht⟩ := h
  exact ⟨tail ++ m, List.append_assoc .., fun e he => (List.mem_append.mp he).elim (ht e) (hm e)⟩

theorem AfterAlignment.refl (al : List (Nat × Nat)) : AfterAlignment al al := ⟨[], (List.append_nil al).symm, fun _ h => absurd h List.not_mem_nil⟩

theorem forall_gt_of_ite {c : Prop} [Decidable c] {k x : Nat} (hk : 2 < k) : ∀ e ∈ (if c then [] else [(k, x)]), 2 < e.1 := by
  intro e he
  split at he
  · exact absurd he List.not_mem_nil
  · rw [List.mem_singleton.mp he]
    exact hk

theorem pageFails_nil {s : State} {g : Group} {u : Use} (hp : u.peer = true) (hf : u.far = true) (va : Dword) : s.pageFails g u va = [] := by
  unfold State.pageFails
  rw [hp, hf]
  split <;> rfl

/-- What the check of one lane finds where the instruction takes every space but the private window: first the alignment. -/
theorem locate_afterAlignment {s : State} {g : Group} {b : Block} (hv : g.visitor = none) (hb : s.blockOf g = some b) (L w : Nat) {va : Dword}
    (hva : bitsAt va 55 48 ≠ 0xFD) :
    AfterAlignment (misaligned w va) (s.locate g L (atomicUse w) w va).2 := by
  have hwin : windowOf va ≠ 3 := by
    unfold windowOf
    simp only [if_neg hva]
    split_ifs <;> decide
  unfold State.locate
  simp only [hv, hb, Option.isSome_none, Bool.and_false, Bool.false_eq_true, if_false, atomicUse, if_true, List.nil_append]
  split
  next h => exact absurd h hwin
  next => exact (AfterAlignment.refl _).append (forall_gt_of_ite (by decide))
  next => exact (AfterAlignment.refl _).append (forall_gt_of_ite (by decide))
  next =>
    refine List.foldlRecOn (motive := fun (r : List Piece × List (Nat × Nat)) => AfterAlignment (misaligned w va) r.2) _ _ (AfterAlignment.refl _) ?_
    intro r hr p _
    simp only [pageFails_nil (u := { write := true, noField := true, align := w, priv := false }) rfl rfl, List.append_nil]
    split_ifs
    · exact hr.append (by simp)
    · split
      · exact hr.append (by simp)
      · split_ifs
        · exact hr
        · exact hr.append (by simp)
        · exact hr.append (by simp)

theorem foldl_min_eq {m : Nat} {l : List Nat} (hl : ∀ x ∈ l, m ≤ x) : ∀ {d : Nat}, m ≤ d → (d = m ∨ m ∈ l) → l.foldl min d = m := by
  induction l with
  | nil => intro d _ h; exact h.resolve_right List.not_mem_nil
  | cons a l ih =>
    intro d hd h
    have ha := hl a List.mem_cons_self
    refine ih (fun x hx => hl x (List.mem_cons_of_mem _ hx)) (le_min hd ha) ?_
    rcases h with rfl | h
    · exact .inl (min_eq_left ha)
    · rcases List.mem_cons.mp h with rfl | h
      · exact .inl (min_eq_right hd)
      · exact .inr h

/-- A check whose first failure is an alignment: it raises DALIGN for the lanes that are misaligned, with the lowest one's address. -/
theorem verdict_misaligned {w : Nat} (hw : 1 < w) {l : List (Nat × Dword × List Piece × List (Nat × Nat))} {lo : Nat × Dword × List Piece × List (Nat × Nat)}
    (hl : ∀ x ∈ l, AfterAlignment (misaligned w x.2.1) x.2.2.2) (hlo : (l.filter (fun x => x.2.1.toNat % w ≠ 0)).head? = some lo) :
    verdict l = .error { cause := .dalign, lanes := maskOf (fun L => (l.filter (fun x => x.2.1.toNat % w ≠ 0)).any (fun x => x.1 = L)),
                         addr := lo.2.1, aux := 0 } := by
  obtain ⟨rest, hfilter⟩ : ∃ rest, l.filter (fun x => x.2.1.toNat % w ≠ 0) = lo :: rest := by
    cases h : l.filter (fun x => x.2.1.toNat % w ≠ 0) with
    | nil => rw [h] at hlo; cases hlo
    | cons a m => rw [h] at hlo; cases hlo; exact ⟨m, rfl⟩
  have hmem : lo ∈ l ∧ lo.2.1.toNat % w ≠ 0 := by
    simpa using (List.mem_filter.mp (hfilter ▸ List.mem_cons_self : lo ∈ l.filter (fun x => x.2.1.toNat % w ≠ 0)))
  have hany : ∀ x ∈ l, x.2.2.2.any (fun e => decide (e.1 = 2)) = decide (x.2.1.toNat % w ≠ 0) := by
    intro x hx
    obtain ⟨tail, heq, ht⟩ := hl x hx
    rw [Bool.eq_iff_iff, List.any_eq_true, decide_eq_true_iff]
    constructor
    · rintro ⟨e, he, h2⟩
      rw [decide_eq_true_iff] at h2
      rw [heq] at he
      rcases List.mem_append.mp he with he | he
      · exact ((mem_misaligned hw).mp he).2
      · have := ht e he; omega
    · intro h
      exact ⟨(2, 0), by rw [heq]; exact List.mem_append_left _ ((mem_misaligned hw).mpr ⟨rfl, h⟩), rfl⟩
  have hin : (2 : Nat) ∈ l.flatMap (fun x => x.2.2.2.map (·.1)) := by
    obtain ⟨e, he, h2⟩ := List.any_eq_true.mp ((hany lo hmem.1).trans (decide_eq_true hmem.2))
    exact List.mem_flatMap.mpr ⟨lo, hmem.1, List.mem_map.mpr ⟨e, he, by simpa using h2⟩⟩
  have hleast : least 9 (l.flatMap (fun x => x.2.2.2.map (·.1))) = 2 := by
    refine foldl_min_eq (fun k hk => ?_) (by omega) (.inr hin)
    obtain ⟨x, hx, hk⟩ := List.mem_flatMap.mp hk
    obtain ⟨e, he, rfl⟩ := List.mem_map.mp hk
    obtain ⟨tail, heq, ht⟩ := hl x hx
    rw [heq] at he
    rcases List.mem_append.mp he with he | he
    · rw [((mem_misaligned hw).mp he).1]
    · exact (ht e he).le
  have haux : lo.2.2.2.find? (fun e => decide (e.1 = 2)) = some (2, 0) := by
    obtain ⟨tail, heq, -⟩ := hl lo hmem.1
    rw [heq, show misaligned w lo.2.1 = [(2, 0)] by simp [misaligned, hw, hmem.2]]
    rfl
  have hne : (l.flatMap (fun x => x.2.2.2.map (·.1))).isEmpty = false := by
    rw [List.isEmpty_eq_false_iff]
    exact List.ne_nil_of_mem hin
  have hmine : l.filter (fun x => x.2.2.2.any (fun e => decide (e.1 = 2))) = lo :: rest := by
    rw [List.filter_congr hany, hfilter]
  unfold verdict
  simp only [hne, Bool.false_eq_true, if_false, hleast, hmine, hfilter, haux, Option.map_some, Option.getD_some]
  rfl

theorem head_filter_lanes {w : Word} {p : Nat → Bool} {L : Nat} (hL : L < 32) (hw : w.getLsbD L = true) (hp : p L = true)
    (hlow : ∀ M, M < L → w.getLsbD M = true → p M = false) : ((lanesOf w).filter p).head? = some L := by
  rw [List.head?_filter, lanesOf, List.find?_filter, show laneList = List.range 32 from rfl, List.find?_range_eq_some]
  refine ⟨by simp [hw, hp], List.mem_range.mpr hL, fun M hM => ?_⟩
  cases hM' : w.getLsbD M with
  | false => simp
  | true => simp [hlow M hM hM']

/-- The check of an atomic in which lane L is the lowest active one with a misaligned address. -/
theorem check_misaligned {s : State} {g : Group} {b : Block} {w L : Nat} {addr : Nat → Dword} (hw : 1 < w) (hv : g.visitor = none)
    (hb : s.blockOf g = some b) (hL : L < 32) (hact : g.ctl.exm.getLsbD L = true) (hmis : (addr L).toNat % w ≠ 0)
    (hlow : ∀ M, M < L → g.ctl.exm.getLsbD M = true → (addr M).toNat % w = 0)
    (hpriv : ∀ M, M < 32 → g.ctl.exm.getLsbD M = true → bitsAt (addr M) 55 48 ≠ 0xFD) :
    s.check g (atomicUse w) w ((lanesOf g.ctl.exm).map (fun L => (L, addr L))) =
      .error { cause := .dalign, lanes := maskOf (fun M => decide (M ∈ lanesOf g.ctl.exm ∧ (addr M).toNat % w ≠ 0)), addr := addr L, aux := 0 } := by
  have hhead := head_filter_lanes (p := fun M => decide ((addr M).toNat % w ≠ 0)) hL hact (decide_eq_true hmis)
    fun M hM hM' => decide_eq_false (not_not.mpr (hlow M hM hM'))
  rw [State.check, List.map_map, verdict_misaligned hw (lo := (L, addr L, s.locate g L (atomicUse w) w (addr L)))]
  · congr 3
    refine funext fun M => ?_
    rw [List.filter_map, List.any_map, Bool.eq_iff_iff, List.any_eq_true, decide_eq_true_iff]
    simp only [Function.comp_def, decide_eq_true_iff, List.mem_filter]
    exact ⟨fun ⟨_, h, hM⟩ => hM ▸ h, fun h => ⟨M, h, rfl⟩⟩
  · intro x hx
    obtain ⟨M, hM, rfl⟩ := List.mem_map.mp hx
    exact locate_afterAlignment hv hb M w (hpriv M (mem_lanesOf.mp hM).1 (mem_lanesOf.mp hM).2)
  · rw [List.filter_map, List.head?_map]
    exact congrArg (Option.map _) hhead

theorem atomicAddr_eq (s : State) (g : Group) (f : Fields) (k L : Nat) :
    s.readSP g f.a + scaled (s.readV g f.b.toNat L) (2 ^ k) = atomicAddr s g f (2 ^ k) L := by
  rw [atomicAddr, BitVec.ofInt_add, BitVec.ofInt_toInt, scaled_eq_ofInt, Nat.cast_pow]
  rfl

/-- The statement of R161 for one atomic. -/
def TrapsDalign (p : (Fields → Instr) × Nat) : Prop :=
  ∀ (f : Fields) (s : State) (g : Group) (L : Nat), Ready (p.1 f) s g → g.visitor = none → (s.block g.block).isSome →
    L < 32 → g.ctl.exm.getLsbD L = true → (atomicAddr s g f p.2 L).toNat % p.2 ≠ 0 →
    (∀ M, M < L → g.ctl.exm.getLsbD M = true → (atomicAddr s g f p.2 M).toNat % p.2 = 0) →
    (∀ M, M < 32 → g.ctl.exm.getLsbD M = true → bitsAt (atomicAddr s g f p.2 M) 55 48 ≠ 0xFD) →
    ∃ lanes : Word, exec (p.1 f) s = .next (s.trap s.own.cur .dalign lanes (atomicAddr s g f p.2 L) 0) ∧
      ∀ M, M < 32 → (lanes.getLsbD M = true ↔ g.ctl.exm.getLsbD M = true ∧ (atomicAddr s g f p.2 M).toNat % p.2 ≠ 0)

theorem trapsDalign_of_atomicV {c : Fields → Instr} {row : Fields → Row} {wide cas ret : Bool}
    (hrow : ∀ f, (c f).row = some (f, row f)) (hexec : ∀ f s, exec (c f) s = atomicV (row f) f s wide cas ret) :
    TrapsDalign (c, if wide then 8 else 4) := by
  intro f s g L h hv hblk hL hact hmis hlow hpriv
  obtain ⟨b, hb⟩ := Option.isSome_iff_exists.mp hblk
  obtain ⟨k, hk, hk1⟩ : ∃ k, (if wide then 8 else 4) = 2 ^ k ∧ 1 < 2 ^ k := by
    cases wide
    · exact ⟨2, rfl, by decide⟩
    · exact ⟨3, rfl, by decide⟩
  simp only [hk] at hmis hlow hpriv ⊢
  have hne : ¬ g.ctl.exm = 0 := fun h0 => by rw [h0, show (0 : Word) = 0#32 from rfl, BitVec.getLsbD_zero] at hact; cases hact
  refine ⟨maskOf fun M => decide (M ∈ lanesOf g.ctl.exm ∧ (atomicAddr s g f (2 ^ k) M).toNat % 2 ^ k ≠ 0), ?_, fun M hM => ?_⟩
  · rw [hexec, atomicV, issue_of_ready h (hrow f), if_neg hne]
    simp only [hk, atomicAddr_eq]
    rw [check_misaligned hk1 hv hb hL hact hmis hlow hpriv]
    rfl
  · rw [getLsbD_maskOf, decide_eq_true hM, Bool.true_and, decide_eq_true_iff, mem_lanesOf]
    exact and_congr_left fun _ => and_iff_right hM

theorem atomicAlignment : AtomicAlignment := by
  unfold AtomicAlignment
  change ∀ p ∈ [(Instr.vatom, 4), (Instr.vcas, 4), (Instr.vred, 4), (Instr.vatom64, 8), (Instr.vcas64, 8)], TrapsDalign p
  simp only [List.forall_mem_cons, List.not_mem_nil, false_imp_iff, implies_true, and_true]
  exact ⟨trapsDalign_of_atomicV (wide := false) (fun _ => rfl) fun _ _ => rfl, trapsDalign_of_atomicV (wide := false) (fun _ => rfl) fun _ _ => rfl,
    trapsDalign_of_atomicV (wide := false) (fun _ => rfl) fun _ _ => rfl, trapsDalign_of_atomicV (wide := true) (fun _ => rfl) fun _ _ => rfl,
    trapsDalign_of_atomicV (wide := true) (fun _ => rfl) fun _ _ => rfl⟩

/-- Settles O23: an access without an active lane returns before its checks, and DALIGN precedes every failure that the premises leave. -/
theorem accessEdges : Obligations.AccessEdges := ⟨noActiveLane, atomicAlignment⟩

end Sys2Proof.Proofs
end

section
/-! An access at its issue: what the translations leave behind, a device with nothing on the way to a peer, and the access that is queued
(spec 07, R149; spec 18, R403). -/

namespace Sys2Proof.Proofs

open Sys2Proof Sys2Proof.Machine Sys2Proof.Claims

/-! ### Translations -/

theorem fillTlb_homesOnly (s : State) (node : Nat) (t : TlbLine) : HomesOnly s (s.fillTlb node t) := by
  unfold State.fillTlb
  split
  · exact homesOnly_refl s
  · refine ⟨rfl, fun n => ?_, rfl, rfl⟩
    dsimp only [State.node, State.modNode, State.setNode]
    by_cases h : n = node
    · rw [h, Sparse.get_set_same]
    · rw [Sparse.get_set_other _ _ _ h]

theorem walked_homesOnly (s : State) (node : Nat) (c : BitVec 8) (va : Dword) : HomesOnly s (s.walked node c va) := by
  have hread : HomesOnly s ((s.walkReads va.toNat walkLevels (s.ptroot c)).foldl (fun s k => (s.readAt ownIl k 8).1) s) :=
    foldl_rel homesOnly_refl homesOnly_trans _ (fun t k _ => (readAt_readHome t ownIl k 8).homesOnly) s
  unfold State.walked
  dsimp only
  split
  · exact hread
  · split
    · exact hread
    · exact homesOnly_trans hread (fillTlb_homesOnly _ _ _)

theorem lookUp_homesOnly (s : State) (node : Nat) (c : BitVec 8) (va : Dword) : HomesOnly s (s.lookUp node c va) := by
  unfold State.lookUp
  split
  · exact homesOnly_refl s
  · split
    · exact fillTlb_homesOnly _ _ _
    · exact walked_homesOnly _ _ _ _

theorem lookUps_homesOnly (s : State) (g : Group) (vas : List Dword) : HomesOnly s (s.lookUps g vas) :=
  foldl_rel homesOnly_refl homesOnly_trans vas (fun t va _ => lookUp_homesOnly t _ _ va) s

theorem homesOnly_groups {s t : State} (h : HomesOnly s t) : t.groups = s.groups := (congrArg State.groups h.rest :)
theorem homesOnly_blocks {s t : State} (h : HomesOnly s t) : t.blocks = s.blocks := (congrArg State.blocks h.rest :)
theorem homesOnly_accs {s t : State} (h : HomesOnly s t) : t.accs = s.accs := (congrArg State.accs h.rest :)
theorem homesOnly_own {s t : State} (h : HomesOnly s t) : t.own = s.own := (congrArg State.own h.rest :)
theorem homesOnly_mem {s t : State} (h : HomesOnly s t) : t.mem = s.mem := (congrArg State.mem h.rest :)
theorem homesOnly_fab {s t : State} (h : HomesOnly s t) : t.fab = s.fab := (congrArg State.fab h.rest :)

/-- The pages of an access's parts enter the TLBs. -/
def lookedFor (s : State) (a : Access) (parts : List Part) : State :=
  parts.foldl (fun s p => match p.loc with
    | .mem _ => s.lookUp a.node a.ctx (p.addr + BitVec.ofNat 64 p.off)
    | _ => s) s

theorem lookedFor_homesOnly (s : State) (a : Access) (parts : List Part) : HomesOnly s (lookedFor s a parts) := by
  refine foldl_rel homesOnly_refl homesOnly_trans parts (fun t p _ => ?_) s
  split
  · exact lookUp_homesOnly _ _ _ _
  · exact homesOnly_refl t

/-! ### Nothing on the way to a peer -/

/-- Nothing waits to be sent to a peer: no line, no part of an access and no packet. -/
structure Silent (s : State) : Prop where
  lines : ∀ n, (s.node n).wc = []
  parts : ∀ a ∈ s.accs, ∀ p ∈ a.parts, p.peer = none
  packets : s.fab.sctx = []

theorem foldl_fixed {σ α : Type} {f : σ → α → σ} (s : σ) (l : List α) (h : ∀ a ∈ l, f s a = s) : l.foldl f s = s :=
  List.foldlRecOn (motive := fun t => t = s) l f rfl fun _ ht a ha => ht ▸ h a ha

/-- An access with its identity and parts. -/
def identified (s : State) (a : Access) (parts : List Part) : Access :=
  let fence := match s.group a.gid with | none => 0 | some g => g.out.corFence
  { a with id := s.own.ids, corAt := if a.rel && a.scope = 1 then s.own.ids else fence, parts := parts }

/-- The access is the newest of all. -/
def queued (s : State) (a : Access) (parts : List Part) : State := { s with accs := s.accs ++ [identified s a parts] }.newId

/-- What issuing the access `a` under the identity `id` sends to peers, and what of it fails. -/
def dispatched (s : State) (a : Access) (id : Nat) (parts : List Part) : State :=
  let s := parts.foldl (fun s p => match p.peer, s.place p.loc with
    | some d, some addr => if a.combines p || p.mc.isSome then s else s.closeLines a.node ({ a with id := id }.drains d addr)
    | _, _ => s) s
  (parts.foldl (fun s p => match s.partFault a p, s.accs.find? (fun b => b.id = id) with
    | some r, some b => s.failPart b p r
    | _, _ => s) s).pump

theorem startAccess_eq (s : State) (a : Access) (parts : List Part) :
    s.startAccess a parts = dispatched (queued (lookedFor s a parts) a parts) a (lookedFor s a parts).own.ids parts := rfl

section silent

variable {s : State} (h : Silent s)

include h

theorem Silent.closeLines (n : Nat) (p : WcLine → Bool) : s.closeLines n p = s := by
  rw [State.closeLines, h.lines n]
  rfl

theorem Silent.drain (n : Nat) : s.drain n = s := by
  rw [State.drain, h.lines n]
  rfl

theorem Silent.failLines (n : Nat) : s.failLines n = s := by
  rw [State.failLines, h.lines n]
  rfl

theorem Silent.drains : s.drains = s :=
  foldl_fixed s _ fun n _ => by rw [h.failLines, h.drain]

theorem Silent.sendParts : s.sendParts = s := by
  refine foldl_fixed s _ fun a ha => foldl_fixed s _ fun p hp => ?_
  split
  · rfl
  · rw [State.sendPart, h.parts a ha p hp]

theorem Silent.flush : s.flush = s := by
  rw [State.flush, h.packets]
  rfl

theorem Silent.pump : s.pump = s := by
  rw [State.pump, h.drains, h.sendParts, h.drains, h.flush]

theorem Silent.dispatched (a : Access) (id : Nat) {parts : List Part} (hpeer : ∀ p ∈ parts, p.peer = none) (hmc : ∀ p ∈ parts, p.mc = none) :
    dispatched s a id parts = s := by
  unfold Proofs.dispatched
  rw [foldl_fixed s parts fun p hp => by rw [hpeer p hp]]
  dsimp only
  rw [foldl_fixed s parts fun p hp => by rw [State.partFault, hmc p hp, hpeer p hp], h.pump]

theorem Silent.queued (a : Access) {parts : List Part} (hpeer : ∀ p ∈ parts, p.peer = none) : Silent (queued s a parts) := by
  refine ⟨h.lines, fun b hb p hp => ?_, h.packets⟩
  rcases List.mem_append.mp hb with hb | hb
  · exact h.parts b hb p hp
  · rw [List.mem_singleton.mp hb] at hp
    exact hpeer p hp

theorem Silent.lookedFor (a : Access) (parts : List Part) : Silent (lookedFor s a parts) := by
  have hlook := lookedFor_homesOnly s a parts
  refine ⟨fun n => (congrArg Node.wc (hlook.nodes n) :).trans (h.lines n), ?_, (congrArg Fab.sctx (homesOnly_fab hlook)).trans h.packets⟩
  rw [homesOnly_accs hlook]
  exact h.parts

/-- With nothing on the way to a peer, an access to this device is queued once its pages have entered the TLBs. -/
theorem Silent.startAccess (a : Access) {parts : List Part} (hpeer : ∀ p ∈ parts, p.peer = none) (hmc : ∀ p ∈ parts, p.mc = none) :
    s.startAccess a parts = Proofs.queued (Proofs.lookedFor s a parts) a parts := by
  rw [startAccess_eq, ((h.lookedFor a parts).queued a hpeer).dispatched a _ hpeer hmc]

end silent

end Sys2Proof.Proofs
end

section
/-! The loads, stores and atomics of a group at their issue (spec 07, R147 to R153, R160, R161). -/

namespace Sys2Proof.Proofs

open Sys2Proof Sys2Proof.Machine Sys2Proof.Claims

/-! ### What precedes an access -/

/-- `t` is `s` but for what translations do, for the order in which the groups are listed, and for intervals that have become unclean. -/
structure Prelude (s t : State) : Prop where
  home : HomesOnly s { t with groups := s.groups, blocks := s.blocks, accs := s.accs, own := s.own }
  accs : t.accs = s.accs
  own : t.own = s.own
  group : ∀ j, t.group j = s.group j
  shadow : ∀ b, (t.block b).map (fun x => { x with shadow := none }) = (s.block b).map (fun x => { x with shadow := none })

/-- The fields that no home step reads may be replaced on both sides. -/
theorem homesOnly_reset {s t : State} (h : HomesOnly s t) (gs : List (Nat × Group)) (bs : List (Nat × Block)) (as : List Access) (o : Own) :
    HomesOnly { s with groups := gs, blocks := bs, accs := as, own := o } { t with groups := gs, blocks := bs, accs := as, own := o } where
  rest := (congrArg (fun x : State => { x with groups := gs, blocks := bs, accs := as, own := o }) h.rest :)
  nodes := h.nodes
  counts := h.counts
  dram := h.dram

theorem Prelude.refl (s : State) : Prelude s s := ⟨homesOnly_refl s, rfl, rfl, fun _ => rfl, fun _ => rfl⟩

theorem Prelude.trans {s t u : State} (h : Prelude s t) (k : Prelude t u) : Prelude s u where
  home := homesOnly_trans h.home (homesOnly_reset k.home s.groups s.blocks s.accs s.own)
  accs := k.accs.trans h.accs
  own := k.own.trans h.own
  group j := (k.group j).trans (h.group j)
  shadow b := (k.shadow b).trans (h.shadow b)

theorem Prelude.silent {s t : State} (h : Prelude s t) (hs : Silent s) : Silent t where
  lines n := (congrArg Node.wc (h.home.nodes n) :).trans (hs.lines n)
  parts := h.accs ▸ hs.parts
  packets := (congrArg (fun x : State => x.fab.sctx) h.home.rest :).trans hs.packets

theorem prelude_of_homesOnly {s t : State} (h : HomesOnly s t) : Prelude s t where
  home := by
    have h' := homesOnly_reset h s.groups s.blocks s.accs s.own
    exact h'
  accs := homesOnly_accs h
  own := homesOnly_own h
  group j := congrArg (Sparse.find · j) (homesOnly_groups h)
  shadow b := congrArg (fun bs => (Sparse.find bs b).map (fun x : Block => { x with shadow := none })) (homesOnly_blocks h)

theorem prelude_unclean (s : State) (b : Nat) : Prelude s (s.unclean b) := by
  refine ⟨?_, ?_, ?_, fun j => ?_, fun j => ?_⟩
  · unfold State.unclean State.modBlock
    split <;> exact homesOnly_refl s
  · unfold State.unclean State.modBlock
    split <;> rfl
  · unfold State.unclean State.modBlock
    split <;> rfl
  · rw [State.unclean, State.group_modBlock]
  · rw [State.unclean]
    by_cases h : j = b
    · rw [h, State.block_modBlock, Option.map_map]
      rfl
    · rw [State.block_modBlock_other _ _ h]

theorem prelude_setGroup_same {s : State} {gid : Nat} {g : Group} (h : s.group gid = some g) : Prelude s (s.setGroup gid g) := by
  refine ⟨homesOnly_refl s, rfl, rfl, fun j => ?_, fun _ => rfl⟩
  by_cases hj : j = gid
  · rw [hj, State.group_setGroup, h]
  · rw [State.group_setGroup_other _ _ hj]

/-! ### Registers marked empty -/

/-- The registers of a destination marked empty, one by one. -/
def marked (g : Group) (vec : Bool) (dst n : Nat) : Group :=
  (List.range n).foldl (fun g i => if vec then g.markV (dst + i) true else g.markS (dst + i) true) g

theorem marked_succ (g : Group) (vec : Bool) (dst n : Nat) :
    marked g vec dst (n + 1) = if vec then (marked g vec dst n).markV (dst + n) true else (marked g vec dst n).markS (dst + n) true := by
  rw [marked, List.range_succ, List.foldl_append]
  rfl

theorem marked_kept (g : Group) (vec : Bool) (dst n : Nat) :
    { marked g vec dst n with regs := { (marked g vec dst n).regs with vempty := g.regs.vempty, sempty := g.regs.sempty } } = g := by
  induction n with
  | zero => rfl
  | succ n ih =>
    rw [marked_succ]
    cases vec
    · exact ih
    · unfold Group.markV
      simp only [if_true]
      split <;> exact ih

theorem isEmpty_markV (g : Group) (q : Nat) (sc : Bool) {r : Nat} (hr : r < if sc then 128 else 256) :
    (g.markV q true).isEmpty sc r = (g.isEmpty sc r || (!sc && decide (r = q) && decide (r ≠ 255))) := by
  unfold Group.markV
  by_cases hq : q = 255
  · rw [if_pos hq, hq]
    by_cases h : r = 255 <;> simp [h]
  · rw [if_neg hq, if_pos rfl]
    cases sc
    · simp only [Bool.false_eq_true, if_false] at hr
      simp only [Group.isEmpty, Bool.false_eq_true, if_false, BitVec.getLsbD_or, BitVec.getLsbD_shiftLeft, BitVec.getLsbD_one, Bool.not_false,
        Bool.true_and]
      by_cases h : r = q
      · subst h
        simp [hr, hq]
      · have : ¬ (q ≤ r ∧ r - q = 0) := by omega
        by_cases hle : r < q
        · simp [hle, h]
        · simp [hle, h, show ¬ r - q = 0 by omega]
    · simp [Group.isEmpty]

theorem isEmpty_markS (g : Group) (q : Nat) (sc : Bool) {r : Nat} (hr : r < if sc then 128 else 256) :
    (g.markS q true).isEmpty sc r = (g.isEmpty sc r || (sc && decide (r = q))) := by
  cases sc
  · simp [Group.isEmpty, Group.markS]
  · simp only [if_true] at hr
    simp only [Group.isEmpty, Group.markS, if_true, BitVec.getLsbD_or, BitVec.getLsbD_shiftLeft, BitVec.getLsbD_one, Bool.true_and]
    by_cases h : r = q
    · subst h
      simp [hr]
    · by_cases hle : r < q
      · simp [hle, h]
      · simp [hle, h, show ¬ r - q = 0 by omega]

theorem isEmpty_marked (g : Group) (vec : Bool) (dst n : Nat) (sc : Bool) {r : Nat} (hr : r < if sc then 128 else 256) :
    (marked g vec dst n).isEmpty sc r =
      (g.isEmpty sc r || (decide (sc = !vec) && decide (dst ≤ r) && decide (r < dst + n) && (sc || decide (r ≠ 255)))) := by
  induction n with
  | zero =>
    have : ¬ (dst ≤ r ∧ r < dst) := by omega
    rw [show marked g vec dst 0 = g from rfl, Nat.add_zero]
    by_cases h : dst ≤ r <;> simp [h]
  | succ n ih =>
    have hsplit : decide (r < dst + (n + 1)) = (decide (r < dst + n) || decide (r = dst + n)) := by
      rw [← Bool.decide_or]
      exact decide_eq_decide.mpr (by omega)
    have hle : (decide (dst ≤ r) && decide (r = dst + n)) = decide (r = dst + n) := by
      rw [← Bool.decide_and]
      exact decide_eq_decide.mpr (by omega)
    rw [marked_succ]
    cases vec
    · rw [if_neg (by decide), isEmpty_markS _ _ _ hr, ih, hsplit, ← hle]
      cases sc <;> cases decide (dst ≤ r) <;> cases decide (r < dst + n) <;> cases decide (r = dst + n) <;> simp
    · rw [if_pos rfl, isEmpty_markV _ _ _ hr, ih, hsplit, ← hle]
      cases sc <;> cases decide (dst ≤ r) <;> cases decide (r < dst + n) <;> cases decide (r = dst + n) <;> simp

theorem markEmpty_eq {s : State} {gid : Nat} {g : Group} (h : s.group gid = some g) (vec : Bool) (dst n : Nat) :
    s.markEmpty gid vec dst n = s.setGroup gid (marked g vec dst n) := State.modGroup_eq h _

/-! ### The access -/

/-- `t` is `s` before an access is queued: what precedes an access, and its destination registers marked empty. -/
structure Marked (s t : State) (g : Group) (vec : Bool) (dst n : Nat) : Prop where
  home : HomesOnly s { t with groups := s.groups, blocks := s.blocks, accs := s.accs, own := s.own }
  accs : t.accs = s.accs
  own : t.own = s.own
  now : t.group s.own.cur = some (marked g vec dst n)
  others : ∀ j, j ≠ s.own.cur → t.group j = s.group j
  shadow : ∀ b, (t.block b).map (fun x => { x with shadow := none }) = (s.block b).map (fun x => { x with shadow := none })

theorem Prelude.markEmpty {s u : State} {g : Group} (h : Prelude s u) (hg : s.group s.own.cur = some g) (vec : Bool) (dst n : Nat) :
    Marked s (u.markEmpty s.own.cur vec dst n) g vec dst n := by
  rw [markEmpty_eq ((h.group _).trans hg)]
  exact ⟨h.home, h.accs, h.own, State.group_setGroup .., fun j hj => (State.group_setGroup_other _ _ hj).trans (h.group j), h.shadow⟩

/-- An access that has no destination marks nothing. -/
theorem Prelude.unmarked {s u : State} {g : Group} (h : Prelude s u) (hg : s.group s.own.cur = some g) (vec : Bool) (dst : Nat) :
    Marked s u g vec dst 0 := ⟨h.home, h.accs, h.own, (h.group _).trans hg, fun j _ => h.group j, h.shadow⟩

theorem Marked.silent {s t : State} {g : Group} {vec : Bool} {dst n : Nat} (h : Marked s t g vec dst n) (hs : Silent s) : Silent t where
  lines n := (congrArg Node.wc (h.home.nodes n) :).trans (hs.lines n)
  parts := h.accs ▸ hs.parts
  packets := (congrArg (fun x : State => x.fab.sctx) h.home.rest :).trans hs.packets

/-- An access to this device, issued where nothing is on the way to a peer. -/
theorem accessIssued_advance {s u : State} {g : Group} {a : Access} {n : Nat} (hu : Marked s u g a.vec a.dst n) (hs : Silent s)
    {parts : List Part} (hpeer : ∀ p ∈ parts, p.peer = none) (hmc : ∀ p ∈ parts, p.mc = none)
    (hgid : a.gid = s.own.cur) (hnode : a.node = g.owner) (k : Nat) (hregs : a.regs = n) :
    AccessIssued s ((u.startAccess a parts).advance s.own.cur k) g a.vec a.dst n a.kind a.lanes parts (g.ctl.pc + BitVec.ofNat 64 k) := by
  have hkept := marked_kept g a.vec a.dst n
  have hctl : (marked g a.vec a.dst n).ctl = g.ctl := (congrArg Group.ctl hkept :)
  rw [(hu.silent hs).startAccess a hpeer hmc]
  have hlook := lookedFor_homesOnly u a parts
  have hown : (lookedFor u a parts).own = s.own := (homesOnly_own hlook).trans hu.own
  have haccs : (lookedFor u a parts).accs = s.accs := (homesOnly_accs hlook).trans hu.accs
  have hgroup (j : Nat) : (queued (lookedFor u a parts) a parts).group j = u.group j :=
    congrArg (Sparse.find · j) ((homesOnly_groups hlook :) : (queued (lookedFor u a parts) a parts).groups = u.groups)
  have hblock (b : Nat) : (queued (lookedFor u a parts) a parts).block b = u.block b :=
    congrArg (Sparse.find · b) ((homesOnly_blocks hlook :) : (queued (lookedFor u a parts) a parts).blocks = u.blocks)
  rw [State.advance_eq ((hgroup _).trans hu.now), hctl]
  refine ⟨_, (marked g a.vec a.dst n).goto (g.ctl.pc + BitVec.ofNat 64 k), identified (lookedFor u a parts) a parts, ?home, State.group_setGroup ..,
    fun j hj => ?others, fun k => ?mem, rfl, ?own, fun b => ?blocks, ?queue, ?id, hgid, hnode, rfl, rfl, rfl, rfl, hregs, rfl, ?ctl, ?v, ?sreg, ?eng,
    ?out, fun sc r hr => ?empty⟩
  case home => exact homesOnly_trans hu.home (homesOnly_reset hlook s.groups s.blocks s.accs s.own)
  case others => rw [State.group_setGroup_other _ _ hj, hgroup, hu.others j hj]
  case mem => exact congrArg (Mem.rd · k) ((homesOnly_mem hlook).trans (congrArg State.mem hu.home.rest :))
  case own => exact congrArg (fun o : Own => { o with ids := s.own.ids }) hown
  case blocks =>
    rw [State.block_setGroup, hblock]
    exact hu.shadow b
  case queue => exact congrArg (· ++ _) haccs
  case id => exact congrArg Own.ids hown
  case ctl => exact congrArg (fun c : Ctl => { c with pc := g.ctl.pc + BitVec.ofNat 64 k }) hctl
  case v => exact (congrArg (fun g : Group => g.regs.v) hkept :)
  case sreg => exact (congrArg (fun g : Group => g.regs.s) hkept :)
  case eng => exact (congrArg Group.eng hkept :)
  case out => exact (congrArg Group.out hkept :)
  case empty => exact isEmpty_marked g a.vec a.dst n sc hr

end Sys2Proof.Proofs
end

section
/-! The loads, stores, atomics and waits of a group at their issue (spec 07, R147 to R167). -/

namespace Sys2Proof.Proofs

open Sys2Proof Sys2Proof.Machine Sys2Proof.Claims

/-! ### Parts and sizes -/

theorem silent_of_quiet {s : State} {g : Group} (h : Quiet s g) : Silent s := ⟨h.1, h.2.1, h.2.2.1⟩

theorem partsFor_spec {l : List (Nat × List Piece)} {lanes : Nat → Word} {data cmp : Nat → List Byte} {addr : Nat → Dword} {p : Part}
    (h : p ∈ partsFor l lanes data cmp addr) :
    p.mc = none ∧ p.hold = false ∧ ∃ x ∈ l, ∃ q ∈ x.2, p.peer = match q.tgt with | .here .. => none | .peer d _ => some d := by
  obtain ⟨i, -, hi⟩ := List.mem_filterMap.mp h
  obtain ⟨y, hy, rfl⟩ := Option.map_eq_some_iff.mp hi
  obtain ⟨x, hx, hxy⟩ := List.mem_flatMap.mp (List.mem_of_getElem? hy)
  obtain ⟨q, hq, rfl⟩ := List.mem_map.mp hxy
  refine ⟨rfl, rfl, x, hx, q, hq, ?_⟩
  dsimp only
  cases q.tgt <;> rfl

theorem partsFor_mc {l : List (Nat × List Piece)} {lanes : Nat → Word} {data cmp : Nat → List Byte} {addr : Nat → Dword} :
    ∀ p ∈ partsFor l lanes data cmp addr, p.mc = none := fun _ h => (partsFor_spec h).1

theorem partsFor_peer {l : List (Nat × List Piece)} (hl : Here l) {lanes : Nat → Word} {data cmp : Nat → List Byte} {addr : Nat → Dword} :
    ∀ p ∈ partsFor l lanes data cmp addr, p.peer = none := by
  intro p h
  obtain ⟨-, -, x, hx, q, hq, hp⟩ := partsFor_spec h
  obtain ⟨loc, pte, ht⟩ := hl x hx q hq
  rw [hp, ht]

theorem szBytes_eq (sz : Nat) : szBytes sz = (accSize sz).1 := by
  match sz with
  | 0 | 1 | 2 | 3 | 4 | 5 | 6 => rfl
  | n + 7 => simp [szBytes, accSize]

theorem szCount_eq (sz : Nat) : szCount sz = (accSize sz).2 := by
  match sz with
  | 0 | 1 | 2 | 3 | 4 | 5 | 6 => rfl
  | n + 7 => simp [szCount, accSize]

/-! ### Loads -/

/-- The statement of R149 and R152 for one per-lane load. -/
def LoadIssues (p : (Fields → Instr) × (State → Group → Fields → Nat → Dword)) : Prop :=
  ∀ (f : Fields) (s : State) (g : Group) (l : List (Nat × List Piece)), Ready (p.1 f) s g → g.ctl.exm ≠ 0 →
    s.check g {} (accSize (f.mf 5 3)).1 ((lanesOf g.ctl.exm).map (fun L => (L, p.2 s g f L))) = .ok l →
    ∃ t, exec (p.1 f) s = .next t ∧
      (Quiet s g → Here (l ++ s.checkHelpers g {} (accSize (f.mf 5 3)).1 ((lanesOf g.helpers).map (fun L => (L, p.2 s g f L)))) →
        AccessIssued s t g true f.d.toNat (accSize (f.mf 5 3)).2 (.load (f.mf 5 3)) g.wset
          (partsFor (l ++ s.checkHelpers g {} (accSize (f.mf 5 3)).1 ((lanesOf g.helpers).map (fun L => (L, p.2 s g f L))))
            (fun L => 1#32 <<< L) (fun _ => []) (fun _ => []) (p.2 s g f)) (nextPc g f))

theorem loadIssues_of_loadV {c : Fields → Instr} {row : Fields → Row} {addr : State → Group → Fields → Nat → Dword} {rb w : Bool}
    (hrow : ∀ f, (c f).row = some (f, row f)) (hexec : ∀ f s, exec (c f) s = loadV (row f) f s {} rb w (fun s g L => addr s g f L)) :
    LoadIssues (c, addr) := by
  intro f s g l h hexm hcheck
  rw [hexec, loadV, issue_of_ready h (hrow f), if_neg hexm]
  dsimp only
  simp only [szBytes_eq, szCount_eq]
  rw [hcheck]
  exact ⟨_, rfl, fun hq hl => accessIssued_advance ((Prelude.refl s).markEmpty h.1 _ _ _) (silent_of_quiet hq) (partsFor_peer hl) partsFor_mc rfl rfl _ rfl⟩

/-- The statement of R149 for the loads of one access per group. -/
def GroupLoadIssues (p : (Fields → Instr) × Bool) : Prop :=
  ∀ (f : Fields) (s : State) (g : Group) (l : List (Nat × List Piece)), Ready (p.1 f) s g → (p.2 = true → g.ctl.exm ≠ 0) →
    s.check g { priv := false } (accSize (f.mf 5 3)).1 [(0, addrS s g f)] = .ok l →
    ∃ t, exec (p.1 f) s = .next t ∧
      (Quiet s g → Here l → AccessIssued s t g p.2 f.d.toNat (accSize (f.mf 5 3)).2 (.load (f.mf 5 3))
        (if p.2 then g.wset else 1)
        (partsFor l (fun _ => if p.2 then g.wset else 1) (fun _ => []) (fun _ => []) (fun _ => addrS s g f)) (nextPc g f))

theorem groupLoadIssues_of_loadS {c : Fields → Instr} {row : Fields → Row} {bc : Bool}
    (hrow : ∀ f, (c f).row = some (f, row f)) (hexec : ∀ f s, exec (c f) s = loadS (row f) f s bc) : GroupLoadIssues (c, bc) := by
  intro f s g l h hexm hcheck
  have hidle : ¬ (bc && decide (g.ctl.exm = 0)) = true := by
    rw [Bool.and_eq_true, decide_eq_true_iff]
    exact fun h0 => hexm h0.1 h0.2
  rw [hexec, loadS, issue_of_ready h (hrow f), if_neg hidle]
  dsimp only
  simp only [szBytes_eq, szCount_eq]
  rw [hcheck]
  exact ⟨_, rfl, fun hq hl => accessIssued_advance ((Prelude.refl s).markEmpty h.1 _ _ _) (silent_of_quiet hq) (partsFor_peer hl) partsFor_mc rfl rfl _ rfl⟩

/-- Settles O20: each load is `loadV` or `loadS` with its address, and what it queues is one access. -/
theorem loadsIssue : Obligations.LoadsIssue := by
  unfold Obligations.LoadsIssue
  change (∀ p ∈ loadTable, LoadIssues p) ∧ ∀ p ∈ [(Instr.sld, false), (Instr.vldbc, true)], GroupLoadIssues p
  simp only [loadTable, List.forall_mem_cons, List.not_mem_nil, false_imp_iff, implies_true, and_true]
  exact ⟨⟨loadIssues_of_loadV (fun _ => rfl) fun _ _ => rfl, loadIssues_of_loadV (fun _ => rfl) fun _ _ => rfl,
    loadIssues_of_loadV (fun _ => rfl) fun _ _ => rfl, loadIssues_of_loadV (fun _ => rfl) fun _ _ => rfl,
    loadIssues_of_loadV (fun _ => rfl) fun _ _ => rfl⟩,
    groupLoadIssues_of_loadS (fun _ => rfl) fun _ _ => rfl, groupLoadIssues_of_loadS (fun _ => rfl) fun _ _ => rfl⟩

/-! ### What a release starts -/

section quiet

variable {s : State} {g : Group} (h : Quiet s g)

include h

theorem drainHeld_of_quiet (scope : Nat) : s.drainHeld g scope = s := by
  obtain ⟨-, -, -, -, hhold, -⟩ := h
  rw [State.drainHeld, hhold, if_pos (by simp)]

theorem beginRelease_of_quiet (gid scope : Nat) : s.beginRelease gid g scope = s := by
  rw [State.beginRelease]
  simp only [drainHeld_of_quiet h, (silent_of_quiet h).closeLines, (silent_of_quiet h).pump, ite_self]

theorem raiseStores_of_quiet {gid : Nat} (hg : s.group gid = some g) (peer : Option Nat) : s.raiseStores gid peer = s.setGroup gid g := by
  obtain ⟨-, -, -, hfail, -, -⟩ := h
  have hout : { g with out := { g.out with storeFail := [] } } = g := by rw [← hfail]
  rw [State.raiseStores, hg]
  simp only [hfail, List.filter_nil, List.foldl_nil]
  rw [hout]

theorem prelude_raiseStores_of_quiet {gid : Nat} (hg : s.group gid = some g) (peer : Option Nat) : Prelude s (s.raiseStores gid peer) := by
  rw [raiseStores_of_quiet h hg]
  exact prelude_setGroup_same hg

end quiet

/-- A quiet group stays quiet through what precedes its access. -/
theorem Prelude.quiet {s t : State} (h : Prelude s t) {g : Group} (hq : Quiet s g) : Quiet t g := by
  have hs := h.silent (silent_of_quiet hq)
  obtain ⟨-, -, -, hfail, hhold, hcontain⟩ := hq
  have hgids : (t.block g.block).map Block.gids = (s.block g.block).map Block.gids := by
    have := congrArg (Option.map Block.gids) (h.shadow g.block)
    rwa [Option.map_map, Option.map_map] at this
  refine ⟨hs.lines, hs.parts, hs.packets, hfail, ?_, fun b hb => ?_⟩
  · unfold State.holding at hhold ⊢
    rw [h.accs]
    cases hs' : s.block g.block with
    | none =>
      rw [hs', Option.map_none, Option.map_eq_none_iff] at hgids
      rw [hgids]
    | some b' =>
      rw [hs', Option.map_some, Option.map_eq_some_iff] at hgids
      obtain ⟨b, hb, hbg⟩ := hgids
      rw [hb]
      dsimp only
      rw [hbg]
      rw [hs'] at hhold
      exact hhold
  · have := h.shadow g.block
    rw [hb, Option.map_some] at this
    obtain ⟨b', hb', heq⟩ := Option.map_eq_some_iff.mp this.symm
    rw [show b.contain = b'.contain from (congrArg Block.contain heq :).symm]
    exact hcontain b' hb'

theorem prelude_beginAtomic {s : State} {g : Group} {gid : Nat} (hq : Quiet s g) (hg : s.group gid = some g) (f : Fields) :
    Prelude s (s.beginAtomic gid g f) := by
  have h1 : Prelude s (if g.visitor.isNone then s.unclean g.block else s) := by
    split
    · exact prelude_unclean s g.block
    · exact .refl s
  unfold State.beginAtomic
  generalize (if g.visitor.isNone then s.unclean g.block else s) = u at h1 ⊢
  have hqu := h1.quiet hq
  dsimp only
  rw [beginRelease_of_quiet hqu]
  split
  · split
    · exact h1.trans (prelude_raiseStores_of_quiet hqu ((h1.group _).trans hg) none)
    · exact h1
  · exact h1

end Sys2Proof.Proofs
end

section
/-! Atomics and stores at their issue (spec 07, R149, R153, R160, R161, R166). -/

namespace Sys2Proof.Proofs

open Sys2Proof Sys2Proof.Machine Sys2Proof.Claims

/-! ### Atomics -/

/-- The statement of R160 and R161 for one atomic of the lanes: its width, whether it compares, and how many registers it fills. -/
def AtomicIssues (p : (Fields → Instr) × Nat × Bool × Nat) : Prop :=
  ∀ (f : Fields) (s : State) (g : Group) (l : List (Nat × List Piece)), Ready (p.1 f) s g → g.ctl.exm ≠ 0 →
    s.check g { write := true, noField := true, align := p.2.1, priv := false } p.2.1
      ((lanesOf g.ctl.exm).map (fun L => (L, atomicAddr s g f p.2.1 L))) = .ok l →
    ∃ t, exec (p.1 f) s = .next t ∧
      (Quiet s g → Here l → AccessIssued s t g true f.d.toNat p.2.2.2 (.atomic (f.mf 4 1) (p.2.1 = 8) p.2.2.1) g.ctl.exm
        (partsFor l (fun L => 1#32 <<< L)
          (fun L => leBytes ((s.readV g f.c.toNat L).toNat +
            (if p.2.1 = 8 then (s.readV g (f.c.toNat + 1) L).toNat * 2 ^ 32 else 0)) p.2.1)
          (fun L => leBytes ((s.readV g f.d.toNat L).toNat +
            (if p.2.1 = 8 then (s.readV g (f.d.toNat + 1) L).toNat * 2 ^ 32 else 0)) p.2.1)
          (atomicAddr s g f p.2.1)) (nextPc g f))

theorem wordAddr_eq (s : State) (g : Group) (f : Fields) (wide : Bool) (L : Nat) :
    s.readSP g f.a + scaled (s.readV g f.b.toNat L) (if wide then 8 else 4) = atomicAddr s g f (if wide then 8 else 4) L := by
  cases wide
  · exact atomicAddr_eq s g f 2 L
  · exact atomicAddr_eq s g f 3 L

theorem atomicIssues_of_atomicV {c : Fields → Instr} {row : Fields → Row} {wide cas ret : Bool}
    (hrow : ∀ f, (c f).row = some (f, row f)) (hexec : ∀ f s, exec (c f) s = atomicV (row f) f s wide cas ret) :
    AtomicIssues (c, if wide then 8 else 4, cas, if !ret then 0 else if wide then 2 else 1) := by
  intro f s g l h hexm hcheck
  have hwide : ((if wide then 8 else 4) = 8) = (wide = true) := by cases wide <;> simp
  dsimp only at hcheck ⊢
  rw [hexec, atomicV, issue_of_ready h (hrow f), if_neg hexm]
  simp only [wordAddr_eq, atomicUse, hcheck, hwide, Bool.decide_eq_true]
  exact ⟨_, rfl, fun hq hl => accessIssued_advance ((prelude_beginAtomic hq h.1 f).markEmpty h.1 _ _ _) (silent_of_quiet hq) (partsFor_peer hl)
    partsFor_mc rfl rfl _ rfl⟩

/-- The statement of R160 and R161 for one atomic of the group. -/
def GroupAtomicIssues (p : (Fields → Instr) × (Fields → Row) × Bool) : Prop :=
  ∀ (f : Fields) (s : State) (g : Group) (l : List (Nat × List Piece)), Ready (p.1 f) s g →
    s.check g { write := true, noField := true, align := 4, priv := false } 4
      [(0, BitVec.ofInt 64 ((s.readSP g f.a).toInt + (s.readS g f.b).toInt))] = .ok l →
    ∃ t, exec (p.1 f) s = .next t ∧
      (Quiet s g → Here l → AccessIssued s t g false f.d.toNat 1 (.atomic (f.mf 4 1) false p.2.2) 1
        (partsFor l (fun _ => 1) (fun _ => leBytes (s.opC g (p.2.1 f) f 0).toNat 4) (fun _ => leBytes (s.readS g f.d).toNat 4)
          (fun _ => BitVec.ofInt 64 ((s.readSP g f.a).toInt + (s.readS g f.b).toInt))) (nextPc g f))

theorem groupAddr_eq (s : State) (g : Group) (f : Fields) :
    s.readSP g f.a + (s.readS g f.b).signExtend 64 = BitVec.ofInt 64 ((s.readSP g f.a).toInt + (s.readS g f.b).toInt) := by
  rw [BitVec.ofInt_add, BitVec.ofInt_toInt, signExtend_eq_ofInt]

theorem groupAtomicIssues_of_atomicS {c : Fields → Instr} {row : Fields → Row} {cas : Bool}
    (hrow : ∀ f, (c f).row = some (f, row f)) (hexec : ∀ f s, exec (c f) s = atomicS (row f) f s cas) : GroupAtomicIssues (c, row, cas) := by
  intro f s g l h hcheck
  dsimp only at hcheck ⊢
  rw [hexec, atomicS, issue_of_ready h (hrow f)]
  simp only [groupAddr_eq, atomicUse, hcheck]
  exact ⟨_, rfl, fun hq hl => accessIssued_advance ((prelude_beginAtomic hq h.1 f).markEmpty h.1 _ _ _) (silent_of_quiet hq) (partsFor_peer hl)
    partsFor_mc rfl rfl _ rfl⟩

/-- Settles O22: every atomic queues one access after its release has begun, and marks what it returns to empty. -/
theorem atomicsIssue : Obligations.AtomicsIssue := by
  unfold Obligations.AtomicsIssue
  refine ⟨?lanes, ?group, fun f s g l h hcheck => ?faddt⟩
  case lanes =>
    change ∀ p ∈ [(Instr.vatom, 4, false, 1), (Instr.vcas, 4, true, 1), (Instr.vred, 4, false, 0), (Instr.vatom64, 8, false, 2),
      (Instr.vcas64, 8, true, 2)], AtomicIssues p
    simp only [List.forall_mem_cons, List.not_mem_nil, false_imp_iff, implies_true, and_true]
    exact ⟨atomicIssues_of_atomicV (wide := false) (ret := true) (fun _ => rfl) fun _ _ => rfl,
      atomicIssues_of_atomicV (wide := false) (ret := true) (fun _ => rfl) fun _ _ => rfl,
      atomicIssues_of_atomicV (wide := false) (ret := false) (fun _ => rfl) fun _ _ => rfl,
      atomicIssues_of_atomicV (wide := true) (ret := true) (fun _ => rfl) fun _ _ => rfl,
      atomicIssues_of_atomicV (wide := true) (ret := true) (fun _ => rfl) fun _ _ => rfl⟩
  case group =>
    change ∀ p ∈ [(Instr.satom, rowSatom, false), (Instr.scas, rowScas, true)], GroupAtomicIssues p
    simp only [List.forall_mem_cons, List.not_mem_nil, false_imp_iff, implies_true, and_true]
    exact ⟨groupAtomicIssues_of_atomicS (fun _ => rfl) fun _ _ => rfl, groupAtomicIssues_of_atomicS (fun _ => rfl) fun _ _ => rfl⟩
  case faddt =>
    change ∃ t, execFaddt f s = .next t ∧ _
    rw [execFaddt, issue_of_ready h rfl]
    simp only [hcheck]
    exact ⟨_, rfl, fun hq hl => accessIssued_advance ((prelude_beginAtomic hq h.1 f).markEmpty h.1 _ _ _) (silent_of_quiet hq) (partsFor_peer hl)
      partsFor_mc rfl rfl _ rfl⟩

/-! ### Stores -/

theorem here_filter_peer {l : List (Nat × List Piece)} (hl : Here l) (c : Bool) :
    l.map (fun x => (x.1, x.2.filter (fun p => match p.tgt with | .peer .. => c | _ => false))) = l.map (fun x => (x.1, [])) := by
  refine List.map_congr_left fun x hx => congrArg (Prod.mk x.1) (List.filter_eq_nil_iff.mpr fun p hp => ?_)
  obtain ⟨loc, pte, ht⟩ := hl x hx p hp
  rw [ht]
  exact Bool.false_ne_true

theorem here_filter_here {l : List (Nat × List Piece)} (hl : Here l) (c : Bool) :
    l.map (fun x => (x.1, x.2.filter (fun p => match p.tgt with | .peer .. => c | .here .. => true))) = l := by
  refine (List.map_congr_left fun x hx => congrArg (Prod.mk x.1) (List.filter_eq_self.mpr fun p hp => ?_)).trans (List.map_id l)
  obtain ⟨loc, pte, ht⟩ := hl x hx p hp
  rw [ht]

theorem here_any_peer {l : List (Nat × List Piece)} (hl : Here l) :
    l.any (fun x => x.2.any (fun p => match p.tgt with | .peer .. => true | _ => false)) = false := by
  refine List.any_eq_false.mpr fun x hx => ?_
  rw [Bool.not_eq_true]
  refine List.any_eq_false.mpr fun p hp => ?_
  obtain ⟨loc, pte, ht⟩ := hl x hx p hp
  rw [ht]
  exact Bool.false_ne_true

/-- A block that holds nothing has no bytes held. -/
theorem heldSize_eq_zero {s : State} {b : Block} (h : ∀ a ∈ s.accs, b.gids.contains a.gid = true → a.anyHeld = false) : s.heldSize b = 0 := by
  rw [State.heldSize, List.sum_eq_zero_iff]
  intro n hn
  obtain ⟨a, ha, hn⟩ := List.mem_flatMap.mp hn
  obtain ⟨ha, hg⟩ := List.mem_filter.mp ha
  obtain ⟨p, hp, -⟩ := List.mem_map.mp hn
  obtain ⟨hp, hhold⟩ := List.mem_filter.mp hp
  exact absurd hhold (List.any_eq_false.mp (h a ha hg) p hp)

theorem not_anyHeld_of_quiet {s : State} {g : Group} {b : Block} (hq : Quiet s g) (hb : s.block g.block = some b) :
    ∀ a ∈ s.accs, b.gids.contains a.gid = true → a.anyHeld = false := by
  obtain ⟨-, -, -, -, hhold, -⟩ := hq
  rw [State.holding, hb] at hhold
  intro a ha hgid
  have := List.any_eq_false.mp hhold a ha
  rw [hgid, Bool.and_true, Bool.not_eq_true] at this
  exact this

theorem partsFor_ne_nil {l : List (Nat × List Piece)} (h : ∃ x ∈ l, x.2 ≠ []) {lanes : Nat → Word} {data cmp : Nat → List Byte} {addr : Nat → Dword} :
    partsFor l lanes data cmp addr ≠ [] := by
  obtain ⟨x, hx, hne⟩ := h
  obtain ⟨q, qs, hq⟩ := List.exists_cons_of_ne_nil hne
  have hmem : (x.1, q) ∈ l.flatMap (fun x => x.2.map (fun p => (x.1, p))) :=
    List.mem_flatMap.mpr ⟨x, hx, List.mem_map.mpr ⟨q, hq ▸ List.mem_cons_self, rfl⟩⟩
  obtain ⟨i, hi, hget⟩ := List.mem_iff_getElem.mp hmem
  exact List.ne_nil_of_mem (List.mem_filterMap.mpr ⟨i, List.mem_range.mpr hi, by rw [List.getElem?_eq_getElem hi, hget]; rfl⟩)

/-- What a store to this device is, where nothing is on the way to a peer and no store is held: its release has begun, its interval is unclean,
and its access is queued. -/
theorem storePieces_here {s : State} {g : Group} {b : Block} {l : List (Nat × List Piece)} (hq : Quiet s g) (hg : s.group s.own.cur = some g)
    (hb : s.block g.block = some b) (hl : Here l) (hsome : ∃ x ∈ l, x.2 ≠ []) (f : Fields) (data : Nat → List Byte) (addr : Nat → Dword) (vec : Bool) :
    ∃ u a, Prelude s u ∧ a.vec = vec ∧ a.dst = 0 ∧ a.kind = .store ∧ a.lanes = 0 ∧ a.gid = s.own.cur ∧ a.node = g.owner ∧ a.regs = 0 ∧
      storePieces s s.own.cur g f l data addr vec =
        .next ((u.startAccess a (partsFor l (fun _ => 0) data (fun _ => []) addr)).advance s.own.cur f.bytes) := by
  have hcontain : b.contain = false := hq.2.2.2.2.2 b hb
  unfold storePieces
  rw [hb]
  extract_lets rel scope pick later toPeer rest lines oldest s1 peerRel s2 s3 s4 s5 a0 a
  have htoPeer : toPeer = l.map (fun x => (x.1, [])) := here_filter_peer hl _
  have hrest : rest = l := here_filter_here hl _
  have hlines : lines = [] := by
    change toPeer.flatMap _ = []
    rw [htoPeer, List.flatMap_map]
    exact List.flatMap_eq_nil_iff.mpr fun _ _ => rfl
  have hs1 : s1 = s := by
    change (if rel then s.beginRelease s.own.cur g scope else s) = s
    rw [beginRelease_of_quiet hq, ite_self]
  have hs2 : s2 = s := by
    have hpeerRel : peerRel = false := by
      change (rel && rest.any _) = false
      rw [hrest]
      exact (congrArg (rel && ·) (here_any_peer hl)).trans (Bool.and_false rel)
    change (if peerRel = true then _ else s1) = s
    rw [hpeerRel, if_neg Bool.false_ne_true, hs1]
  have hs3 : Prelude s s3 := by
    change Prelude s (if (rel && decide (4 ≤ scope)) = true then s2.raiseStores s.own.cur none else s2)
    rw [hs2]
    split
    · exact prelude_raiseStores_of_quiet hq hg none
    · exact .refl s
  have hs5 : s5 = s3 := by
    have h4 : s4 = s3 := by
      change s3.lookUps g ((toPeer.filter _).map _) = s3
      have hnil : (l.filter ((fun x => !x.2.isEmpty) ∘ fun x : Nat × List Piece => (x.1, ([] : List Piece)))) = [] :=
        List.filter_eq_nil_iff.mpr fun _ _ => Bool.false_ne_true
      rw [htoPeer, List.filter_map, hnil]
      rfl
    change toPeer.foldl _ s4 = s3
    rw [htoPeer, List.foldl_map, h4]
    exact foldl_fixed s3 l fun _ _ => rfl
  clear_value toPeer rest lines s5 s4 s3 s2 s1
  subst htoPeer hlines hs5
  rw [hrest]
  have hwc : ¬ 64 < (s.node g.owner).wc.length + s.newLines g.owner g.ctx [] := by
    rw [hq.1 g.owner]
    exact (by decide : ¬ 64 < 0 + 0)
  dsimp -zeta only
  rw [if_neg hwc]
  extract_lets dirty s6 parts s7 s8
  have hheld (pte : Dword) : (heldHere b g pte && !(rel && decide (3 ≤ scope))) = false := by
    rw [heldHere, hcontain]
    rfl
  have hparts : parts = partsFor l (fun _ => 0) data (fun _ => []) addr := by
    refine (List.map_congr_left fun p hp => ?_).trans (List.map_id _)
    refine (congrArg (fun c => ({ p with hold := c } : Part)) (List.any_eq_false.mpr fun x _ hx => ?_ : _ = false)).trans ?_
    · obtain ⟨q, -, hq⟩ := List.any_eq_true.mp (Bool.and_eq_true_iff.mp hx).2
      have hq2 := (Bool.and_eq_true_iff.mp hq).2
      cases ht : q.tgt with
      | here loc pte =>
        rw [ht] at hq2
        exact absurd ((hheld pte).symm.trans hq2) Bool.false_ne_true
      | peer d addr =>
        rw [ht] at hq2
        exact absurd hq2 Bool.false_ne_true
    · rw [← (partsFor_spec hp).2.1]
      rfl
  have hs6 : Prelude s s6 := by
    change Prelude s (if dirty = true then s5.unclean g.block else s5)
    split
    · exact hs3.trans (prelude_unclean _ _)
    · exact hs3
  have hs7 : s7 = s6.startAccess a parts := by
    refine if_neg ?_
    rw [hparts, List.isEmpty_iff]
    exact partsFor_ne_nil hsome
  have hs8 : s8 = s7 := by
    refine if_neg ?_
    rw [heldSize_eq_zero, Nat.not_le]
    · decide
    · rw [hs7, ((hs6.silent (silent_of_quiet hq))).startAccess a (hparts ▸ partsFor_peer hl) (hparts ▸ partsFor_mc)]
      intro c hc hgid
      rcases List.mem_append.mp hc with hc | hc
      · rw [homesOnly_accs (lookedFor_homesOnly s6 a parts), hs6.accs] at hc
        exact not_anyHeld_of_quiet hq hb c hc hgid
      · rw [List.mem_singleton.mp hc]
        refine List.any_eq_false.mpr fun p hp => ?_
        change p ∈ parts at hp
        rw [hparts] at hp
        rw [(partsFor_spec hp).2.1]
        exact Bool.false_ne_true
  rw [hs8, hs7, hparts]
  exact ⟨s6, a, hs6, rfl, rfl, rfl, rfl, rfl, rfl, rfl, rfl⟩
theorem storePieces_next (s : State) (gid : Nat) (g : Group) (f : Fields) (l : List (Nat × List Piece)) (data : Nat → List Byte)
    (addr : Nat → Dword) (vec : Bool) : ∃ t, storePieces s gid g f l data addr vec = .next t := by
  unfold storePieces
  split
  · exact ⟨_, rfl⟩
  · exact ⟨_, (apply_ite Host.Outcome.next _ _ _).symm⟩

/-- A store whose pieces lie on this device issues its access where the group is quiet. -/
theorem storePieces_issues {s : State} {g : Group} {b : Block} {l : List (Nat × List Piece)} (hg : s.group s.own.cur = some g)
    (hb : s.block g.block = some b) (hl : Here l) (f : Fields) (data : Nat → List Byte) (addr : Nat → Dword) (vec : Bool) :
    ∃ t, storePieces s s.own.cur g f l data addr vec = .next t ∧ (Quiet s g → (∃ x ∈ l, x.2 ≠ []) →
      AccessIssued s t g vec 0 0 .store 0 (partsFor l (fun _ => 0) data (fun _ => []) addr) (nextPc g f)) := by
  by_cases hq : Quiet s g ∧ ∃ x ∈ l, x.2 ≠ []
  · obtain ⟨u, a, hpre, rfl, hdst, hkind, hlanes, hgid, hnode, hregs, heq⟩ := storePieces_here hq.1 hg hb hl hq.2 f data addr vec
    refine ⟨_, heq, fun _ _ => ?_⟩
    rw [← hdst, ← hkind, ← hlanes]
    exact accessIssued_advance (hdst ▸ hpre.unmarked hg a.vec a.dst) (silent_of_quiet hq.1) (partsFor_peer hl) partsFor_mc hgid hnode _
      (hregs.trans hdst.symm)
  · obtain ⟨t, ht⟩ := storePieces_next s s.own.cur g f l data addr vec
    exact ⟨t, ht, fun h1 h2 => absurd ⟨h1, h2⟩ hq⟩

/-- The statement of R149 and R153 for one per-lane store. -/
def StoreIssues (p : (Fields → Instr) × (State → Group → Fields → Nat → Dword)) : Prop :=
  ∀ (f : Fields) (s : State) (g : Group) (b : Block) (l : List (Nat × List Piece)), Ready (p.1 f) s g →
    s.block g.block = some b → g.ctl.exm ≠ 0 →
    s.check g { write := true, noField := true } (accSize (f.mf 5 3)).1
      ((lanesOf g.ctl.exm).map (fun L => (L, p.2 s g f L))) = .ok l → Here l →
    ∃ t, exec (p.1 f) s = .next t ∧
      (Quiet s g → (∃ x ∈ l, x.2 ≠ []) → AccessIssued s t g true 0 0 .store 0 (partsFor l (fun _ => 0)
        (fun L => leBytes ((List.range (accSize (f.mf 5 3)).2).foldl
          (fun x i => x + (s.readV g (f.d.toNat + i) L).toNat * 2 ^ (32 * i)) 0) (accSize (f.mf 5 3)).1)
        (fun _ => []) (p.2 s g f)) (nextPc g f))

theorem storeData_eq (s : State) (g : Group) (f : Fields) : storeData s g f = fun L =>
    leBytes ((List.range (accSize (f.mf 5 3)).2).foldl (fun x i => x + (s.readV g (f.d.toNat + i) L).toNat * 2 ^ (32 * i)) 0)
      (accSize (f.mf 5 3)).1 := by
  rw [← szBytes_eq, ← szCount_eq]
  rfl

theorem storeIssues_of_storeV {c : Fields → Instr} {row : Fields → Row} {addr : State → Group → Fields → Nat → Dword} {w : Bool}
    (hrow : ∀ f, (c f).row = some (f, row f)) (hexec : ∀ f s, exec (c f) s = storeV (row f) f s w (fun s g L => addr s g f L)) :
    StoreIssues (c, addr) := by
  intro f s g b l h hb hexm hcheck hl
  have hcheck' : s.check g storeUse (szBytes (f.mf 5 3)) ((lanesOf g.ctl.exm).map (fun L => (L, addr s g f L))) = .ok l := by
    rw [szBytes_eq]
    exact hcheck
  rw [hexec, storeV, issue_of_ready h (hrow f), if_neg hexm]
  simp only [hcheck', storeData_eq]
  exact storePieces_issues h.1 hb hl f _ _ true

/-- Settles O21: a checked store to this device is `storePieces`, which queues its one access. -/
theorem storesIssue : Obligations.StoresIssue := by
  unfold Obligations.StoresIssue
  refine ⟨?lanes, fun f s g b l h hb hcheck hl => ?group⟩
  case lanes =>
    change ∀ p ∈ storeTable, StoreIssues p
    simp only [storeTable, List.forall_mem_cons, List.not_mem_nil, false_imp_iff, implies_true, and_true]
    exact ⟨storeIssues_of_storeV (fun _ => rfl) fun _ _ => rfl, storeIssues_of_storeV (fun _ => rfl) fun _ _ => rfl,
      storeIssues_of_storeV (fun _ => rfl) fun _ _ => rfl, storeIssues_of_storeV (fun _ => rfl) fun _ _ => rfl⟩
  case group =>
    have hcheck' : s.check g { storeUse with priv := false } (szBytes (f.mf 5 3)) [(0, addrS s g f)] = .ok l := by
      rw [szBytes_eq]
      exact hcheck
    change ∃ t, execSst f s = .next t ∧ _
    rw [execSst, issue_of_ready h rfl]
    simp only [hcheck']
    obtain ⟨t, ht, hissue⟩ := storePieces_issues h.1 hb hl f (fun _ => scalarData s g f) (fun _ => addrS s g f) false
    refine ⟨t, ht, fun hq hsome hsz => ?_⟩
    have hdata : scalarData s g f = leBytes (s.readS g f.d).toNat (accSize (f.mf 5 3)).1 := by
      rw [scalarData, szBytes_eq]
      generalize f.mf 5 3 = sz at hsz
      match sz, hsz with
      | 0, _ | 1, _ | 2, _ | 3, _ | 4, _ => rfl
    rw [← hdata]
    exact hissue hq hsome

end Sys2Proof.Proofs
end

section
/-! Waiting instructions, fences and hints to the buffers of a core (spec 07, R155, R159, R164 to R167; spec 11, R244). -/

namespace Sys2Proof.Proofs

open Sys2Proof Sys2Proof.Machine Sys2Proof.Claims

/-! ### Waits -/

/-- The statement of R164 for one waiting instruction. -/
def WaitIssues (c : Fields → Instr) : Prop :=
  ∀ (f : Fields) (s : State) (g : Group) (l : List (Nat × List Piece)), Ready (c f) s g → g.ctl.exm ≠ 0 →
    s.check g { align := 4, priv := false, peer := false } 4 ((lanesOf g.ctl.exm).map (fun L => (L, atomicAddr s g f 4 L))) = .ok l →
    ∃ t, exec (c f) s = .next t ∧ (Quiet s g → Here l → ∃ parts timeout, AccessIssued s t g true f.d.toNat 1
      (.wait (f.mf 4 2) timeout) g.ctl.exm parts (nextPc g f))

theorem waitIssues_of_waitOn {c : Fields → Instr} {row : Fields → Row} {limit : Fields → State → Option Nat}
    (hrow : ∀ f, (c f).row = some (f, row f)) (hexec : ∀ f s, exec (c f) s = waitOn (row f) f s (limit f s)) : WaitIssues c := by
  intro f s g l h hexm hcheck
  have haddr (L : Nat) : s.readSP g f.a + scaled (s.readV g f.b.toNat L) 4 = atomicAddr s g f 4 L := atomicAddr_eq s g f 2 L
  rw [hexec, waitOn, issue_of_ready h (hrow f), if_neg hexm]
  simp only [haddr, waitUse, hcheck]
  exact ⟨_, rfl, fun hq hl => ⟨_, _, accessIssued_advance ((Prelude.refl s).markEmpty h.1 _ _ _) (silent_of_quiet hq)
    (partsFor_peer fun x hx => hl x (List.mem_filter.mp hx).1) partsFor_mc rfl rfl _ rfl⟩⟩

/-- The waits of `t` that have no answer are waits of `s` that have none, and `p` selects none of them. -/
def AnsweredWhere (p : WaitEntry → Bool) (t : State) : Prop := ∀ n, ∀ w ∈ (t.node n).waits, w.ans = none → p w = false

theorem unanswered_answerEntry {s : State} {w v : WaitEntry} {n : Nat} (hv : v ∈ ((s.answerEntry w).node n).waits) (hans : v.ans = none) :
    v ∈ (s.node n).waits ∧ v.id ≠ w.id := by
  rw [State.answerEntry, node_mapNodes rfl, (readAt_readHome s w.il w.loc 4).node_eq] at hv
  obtain ⟨x, hx, rfl⟩ := List.mem_map.mp hv
  by_cases hid : x.id = w.id
  · rw [if_pos hid] at hans
    cases hans
  · rw [if_neg hid]
    exact ⟨hx, hid⟩

theorem unanswered_foldl {l : List WaitEntry} {s : State} {v : WaitEntry} {n : Nat} (hv : v ∈ ((l.foldl State.answerEntry s).node n).waits)
    (hans : v.ans = none) : v ∈ (s.node n).waits ∧ ∀ w ∈ l, v.id ≠ w.id := by
  induction l generalizing s with
  | nil => exact ⟨hv, fun _ h => absurd h List.not_mem_nil⟩
  | cons w l ih =>
    obtain ⟨hmem, hids⟩ := ih hv
    obtain ⟨hmem, hid⟩ := unanswered_answerEntry hmem hans
    exact ⟨hmem, fun u hu => (List.mem_cons.mp hu).elim (fun h => h ▸ hid) (hids u)⟩

theorem mem_nodes_waits {s : State} {n : Nat} {w : WaitEntry} (h : w ∈ (s.node n).waits) : w ∈ s.nodes.flatMap (fun n => n.2.waits) := by
  rw [State.node, Sparse.get] at h
  generalize s.nodes = l at h ⊢
  induction l with
  | nil => cases h
  | cons p l ih =>
    obtain ⟨j, x⟩ := p
    rw [List.flatMap_cons, List.mem_append]
    rw [Sparse.find] at h
    split at h
    · exact .inl h
    · exact .inr (ih h)

/-- Once the entries that `p` selects have been answered, it selects none without an answer. -/
theorem answerAll_answers (s : State) (p : WaitEntry → Bool) : AnsweredWhere p (s.answerAll p) := by
  intro n w hw hans
  obtain ⟨hmem, hids⟩ := unanswered_foldl hw hans
  by_contra hp
  rw [Bool.not_eq_false] at hp
  exact hids w (List.mem_filter.mpr ⟨mem_nodes_waits hmem, by rw [hans, hp]; rfl⟩) rfl

/-- What `wwake` and `wcancel` do once their addresses are checked: they answer entries and go on. -/
theorem answers_and_advances {s u : State} {g : Group} (hu : Prelude s u) (hg : s.group s.own.cur = some g) (p : WaitEntry → Bool) (k : Nat) :
    let t := (u.answerAll p).advance s.own.cur k
    (∀ j, Mem.rd t.mem j = Mem.rd s.mem j) ∧ AnsweredWhere p t ∧
      ∃ g', t.group s.own.cur = some g' ∧ g'.regs = g.regs ∧ g'.ctl = { g.ctl with pc := g.ctl.pc + BitVec.ofNat 64 k } := by
  have hgroup : (u.answerAll p).group s.own.cur = some g := by
    rw [State.group, (answerAll_wroteHome u p).groups]
    exact (hu.group _).trans hg
  dsimp only
  rw [State.advance_eq hgroup]
  refine ⟨fun j => congrArg (Mem.rd · j) ((answerAll_mem u p).trans (congrArg State.mem hu.home.rest :)), answerAll_answers u p, _,
    State.group_setGroup .., rfl, rfl⟩

theorem wwake_spec {f : Fields} {s : State} {g : Group} {l : List (Nat × List Piece)} (h : Ready (.wwake f) s g) (hexm : g.ctl.exm ≠ 0)
    (hcheck : s.check g { align := 4, priv := false, peer := false, noField := true } 4
      ((lanesOf g.ctl.exm).map (fun L => (L, atomicAddr s g f 4 L))) = .ok l) :
    ∃ t, exec (.wwake f) s = .next t ∧ (∀ k, Mem.rd t.mem k = Mem.rd s.mem k) ∧
      (∀ n, ∀ w ∈ (t.node n).waits, w.ans = none → w.loc ∉ s.wordKeys l) ∧
      ∃ g', t.group s.own.cur = some g' ∧ g'.regs = g.regs ∧ g'.ctl = { g.ctl with pc := nextPc g f } := by
  have haddr (L : Nat) : s.readSP g f.a + scaled (s.readV g f.b.toNat L) 4 = atomicAddr s g f 4 L := atomicAddr_eq s g f 2 L
  change ∃ t, execWwake f s = .next t ∧ _
  rw [execWwake, issue_of_ready h rfl, if_neg hexm]
  simp only [haddr, waitUse, hcheck]
  generalize hu : (if g.visitor.isNone = true then _ else _) = u
  have hpre : Prelude s u := by
    rw [← hu]
    have hlook := prelude_of_homesOnly (lookUps_homesOnly s g ((lanesOf g.ctl.exm).map fun L => atomicAddr s g f 4 L))
    split
    · exact hlook.trans (prelude_unclean _ _)
    · exact hlook
  obtain ⟨hmem, hans, hgroup⟩ := answers_and_advances hpre h.1 (fun w => (s.wordKeys l).contains w.loc) f.bytes
  refine ⟨_, rfl, hmem, fun n w hw hnone hin => ?_, hgroup⟩
  exact absurd (hans n w hw hnone) (by simpa using hin)

theorem wcancel_spec {f : Fields} {s : State} {g : Group} {l : List (Nat × List Piece)} (h : Ready (.wcancel f) s g)
    (hcheck : s.check g { align := 4, priv := false, peer := false } 4 [(0, s.readSP g f.a)] = .ok l) :
    ∃ t, exec (.wcancel f) s = .next t ∧ (∀ k, Mem.rd t.mem k = Mem.rd s.mem k) ∧
      (∀ n, ∀ w ∈ (t.node n).waits, w.ans = none → w.gid = s.own.cur → w.loc ∉ s.wordKeys l) ∧
      ∃ g', t.group s.own.cur = some g' ∧ g'.regs = g.regs ∧ g'.ctl = { g.ctl with pc := nextPc g f } := by
  change ∃ t, execWcancel f s = .next t ∧ _
  rw [execWcancel, issue_of_ready h rfl]
  simp only [waitUse, hcheck]
  have hpre := prelude_of_homesOnly (lookUps_homesOnly s g [s.readSP g f.a])
  obtain ⟨hmem, hans, hgroup⟩ := answers_and_advances hpre h.1 (fun w => w.gid = s.own.cur && (s.wordKeys l).contains w.loc) f.bytes
  refine ⟨_, rfl, hmem, fun n w hw hnone hgid hin => ?_, hgroup⟩
  exact absurd (hans n w hw hnone) (by simpa [hgid] using hin)

theorem stall_eq {s : State} {gid : Nat} {g : Group} (h : s.group gid = some g) (hold : Hold) :
    s.stall gid hold = ((s.setGroup gid { g with sched := { g.sched with hold := hold, skidLeft := g.sched.skidLeft.map (fun _ => 0) } }).gate g.owner) := by
  rw [State.stall, h]
  dsimp only
  rw [State.park, State.modGroup_eq h]

theorem group_gate (s : State) (n j : Nat) : (s.gate n).group j = s.group j := by
  rw [State.group, State.group, State.gate_groups]

theorem sleep_spec {f : Fields} {s : State} {g : Group} (h : Ready (.sleep f) s g) :
    ∃ t g', exec (.sleep f) s = .next t ∧ (∀ k, Mem.rd t.mem k = Mem.rd s.mem k) ∧ t.group s.own.cur = some g' ∧
      (∀ j, j ≠ s.own.cur → t.group j = s.group j) ∧ g'.regs = g.regs ∧ g'.ctl = { g.ctl with pc := nextPc g f } ∧
      g'.sched.hold = if s.opA g (rowSleep f) f 0 = 0 then .none
        else .sleep (s.clock.toNat + (s.opA g (rowSleep f) f 0).toNat) := by
  have hzero : (s.opA g (rowSleep f) f 0).toNat = 0 ↔ s.opA g (rowSleep f) f 0 = 0 :=
    ⟨fun h0 => BitVec.eq_of_toNat_eq (by rw [h0]; rfl), fun h0 => by rw [h0]; rfl⟩
  change ∃ t g', execSleep f s = .next t ∧ _
  rw [execSleep, issue_of_ready h rfl]
  dsimp only
  rw [State.advance_eq h.1]
  by_cases h0 : s.opA g (rowSleep f) f 0 = 0
  · rw [if_pos (hzero.mpr h0), if_pos h0]
    exact ⟨_, _, rfl, fun _ => rfl, State.group_setGroup .., fun j hj => State.group_setGroup_other _ _ hj, rfl, rfl, rfl⟩
  · rw [if_neg (fun h1 => h0 (hzero.mp h1)), if_neg h0, stall_eq (State.group_setGroup ..), State.setGroup_setGroup]
    refine ⟨_, _, rfl, fun k => by rw [State.gate_mem]; rfl, (group_gate _ _ _).trans (State.group_setGroup ..), fun j hj => ?_, rfl, rfl, rfl⟩
    rw [group_gate, State.group_setGroup_other _ _ hj]

/-- Settles O25: a wait queues its access, wwake and wcancel answer every entry that they select, and sleep holds the group for its cycles. -/
theorem waitsIssue : Obligations.WaitsIssue := by
  unfold Obligations.WaitsIssue
  refine ⟨?waits, fun f s g l h hexm hcheck => wwake_spec h hexm hcheck, fun f s g l h hcheck => wcancel_spec h hcheck, fun f s g h => sleep_spec h⟩
  change ∀ c ∈ [Instr.wwait, Instr.wwaitt], WaitIssues c
  simp only [List.forall_mem_cons, List.not_mem_nil, false_imp_iff, implies_true, and_true]
  exact ⟨waitIssues_of_waitOn (fun _ => rfl) fun _ _ => rfl, waitIssues_of_waitOn (fun _ => rfl) fun _ _ => rfl⟩

/-! ### Fences -/

/-- `t` is `s` after a fence has come so far: memory and every other group as they were, the group with its registers and its control state. -/
structure AtFence (s t : State) (g : Group) : Prop where
  mem : t.mem = s.mem
  others : ∀ j, j ≠ s.own.cur → t.group j = s.group j
  now : ∃ g', t.group s.own.cur = some g' ∧ g'.regs = g.regs ∧ g'.ctl = g.ctl

theorem AtFence.of_raiseStores {s : State} {g : Group} (hq : Quiet s g) (hg : s.group s.own.cur = some g) (peer : Option Nat) :
    AtFence s (s.raiseStores s.own.cur peer) g := by
  rw [raiseStores_of_quiet hq hg]
  exact ⟨rfl, fun j hj => State.group_setGroup_other _ _ hj, g, State.group_setGroup .., rfl, rfl⟩

theorem AtFence.acquired {s t : State} {g : Group} (h : AtFence s t g) (n scope : Nat) : AtFence s (t.acquired n scope) g := by
  unfold State.acquired
  split
  · exact ⟨h.mem, h.others, h.now⟩
  · exact h

theorem pointHere_mem (s : State) (gid : Nat) : (s.pointHere gid).mem = s.mem := by
  unfold State.pointHere
  split <;> rfl

theorem pointHere_group (s : State) (gid j : Nat) : (s.pointHere gid).group j = s.group j := by
  unfold State.pointHere
  split <;> rfl

theorem pointHere_node (s : State) (gid n : Nat) : (s.pointHere gid).node n = s.node n := by
  unfold State.pointHere
  split <;> rfl

theorem fenced_node (s : State) (gid scope n : Nat) : (s.fenced gid scope).node n = s.node n := by
  unfold State.fenced
  split
  · rfl
  · rw [pointHere_node]
    unfold State.modGroup
    split <;> rfl

theorem AtFence.fenced {s t : State} {g : Group} (h : AtFence s t g) (scope : Nat) : AtFence s (t.fenced s.own.cur scope) g := by
  obtain ⟨hmem, hothers, g', hnow, hregs, hctl⟩ := h
  unfold State.fenced
  split
  · exact ⟨hmem, hothers, g', hnow, hregs, hctl⟩
  · rw [State.modGroup_eq hnow]
    refine ⟨(pointHere_mem _ _).trans hmem, fun j hj => ?_, _, (pointHere_group _ _ _).trans (State.group_setGroup ..), hregs, hctl⟩
    rw [pointHere_group, State.group_setGroup_other _ _ hj, hothers j hj]

/-- The fence is over: the group goes on. -/
theorem AtFence.advance {s t : State} {g : Group} (h : AtFence s t g) (k : Nat) :
    ∃ g', (t.advance s.own.cur k).group s.own.cur = some g' ∧ (∀ j, j ≠ s.own.cur → (t.advance s.own.cur k).group j = s.group j) ∧
      (t.advance s.own.cur k).mem = s.mem ∧ g'.regs = g.regs ∧ g'.ctl = { g.ctl with pc := g.ctl.pc + BitVec.ofNat 64 k } := by
  obtain ⟨hmem, hothers, g', hnow, hregs, hctl⟩ := h
  rw [State.advance_eq hnow, hctl]
  exact ⟨_, State.group_setGroup .., fun j hj => (State.group_setGroup_other _ _ hj).trans (hothers j hj), hmem, hregs,
    congrArg (fun c : Ctl => { c with pc := g.ctl.pc + BitVec.ofNat 64 k }) hctl⟩

theorem node_advance (s : State) (gid k n : Nat) : (s.advance gid k).node n = s.node n := by
  unfold State.advance State.modGroup
  split <;> rfl

theorem node_clearRb (s : State) (n : Nat) : ((s.clearRb n).node n).rb = [] := by
  rw [State.clearRb, State.node_modNode]

/-- A fence that waits keeps its place. -/
theorem stall_stays {s : State} {g : Group} (hg : s.group s.own.cur = some g) (hold : Hold) :
    ∃ t g', Host.Outcome.next (s.stall s.own.cur hold) = (.next t : Res) ∧ t.group s.own.cur = some g' ∧ g'.ctl = g.ctl ∧ g'.regs = g.regs ∧
      t.mem = s.mem := by
  rw [stall_eq hg]
  exact ⟨_, _, rfl, (group_gate _ _ _).trans (State.group_setGroup ..), rfl, rfl, State.gate_mem _ _⟩

/-- The statement of R159 for a fence at a scope. -/
def FenceAt (i : Instr) (f : Fields) (scope : Nat) (s : State) (g : Group) : Prop :=
  Ready i s g → scope < 6 →
    (s.unreleased s.own.cur s.own.ids scope = false → ∃ t g', exec i s = .next t ∧
      t.group s.own.cur = some g' ∧ (∀ j, j ≠ s.own.cur → t.group j = s.group j) ∧ t.mem = s.mem ∧
      g'.regs = g.regs ∧ g'.ctl = { g.ctl with pc := nextPc g f } ∧ (3 ≤ scope → (t.node g.owner).rb = [])) ∧
    (s.unreleased s.own.cur s.own.ids scope = true → ∃ t g', exec i s = .next t ∧
      t.group s.own.cur = some g' ∧ g'.ctl = g.ctl ∧ g'.regs = g.regs ∧ t.mem = s.mem)

theorem fence_fenceAt {f : Fields} {s : State} {g : Group} (hq : Quiet s g) : FenceAt (.fence f) f (f.mf 3 1) s g := by
  intro h hscope
  change (_ → ∃ t g', execFence f s = .next t ∧ _) ∧ (_ → ∃ t g', execFence f s = .next t ∧ _)
  rw [execFence, issue_of_ready h rfl]
  dsimp only
  rw [beginRelease_of_quiet hq]
  constructor
  · intro hdone
    rw [hdone, if_neg Bool.false_ne_true]
    generalize hu : (if (decide (f.mf 3 1 = 4) || decide (f.mf 3 1 = 5)) = true then s.raiseStores s.own.cur none else s) = u
    have hat : AtFence s u g := by
      rw [← hu]
      split
      · exact .of_raiseStores hq h.1 none
      · exact ⟨rfl, fun _ _ => rfl, g, h.1, rfl, rfl⟩
    obtain ⟨g', hnow, hothers, hmem, hregs, hctl⟩ := ((hat.acquired g.owner (f.mf 3 1)).fenced (f.mf 3 1)).advance f.bytes
    refine ⟨_, g', rfl, hnow, hothers, hmem, hregs, hctl, fun h3 => ?_⟩
    have hclears : (decide (f.mf 3 1 = 3) || decide (f.mf 3 1 = 4) || decide (f.mf 3 1 = 5) || decide (f.mf 3 1 = 7)) = true := by
      simp only [Bool.or_eq_true, decide_eq_true_eq]
      omega
    rw [node_advance, fenced_node, State.acquired, if_pos hclears, node_clearRb]
  · intro hwait
    rw [hwait, if_pos rfl]
    exact stall_stays h.1 _

theorem fenceh_fenceAt {f : Fields} {s : State} {g : Group} (hq : Quiet s g) : FenceAt (.fenceh f) f 5 s g := by
  intro h _
  change (_ → ∃ t g', execFenceh f s = .next t ∧ _) ∧ (_ → ∃ t g', execFenceh f s = .next t ∧ _)
  rw [execFenceh, issue_of_ready h rfl]
  dsimp only
  rw [beginRelease_of_quiet hq]
  constructor
  · intro hdone
    rw [hdone, if_neg Bool.false_ne_true]
    obtain ⟨g', hnow, hothers, hmem, hregs, hctl⟩ := (((AtFence.of_raiseStores hq h.1 none).acquired g.owner 5).fenced 5).advance f.bytes
    refine ⟨_, g', rfl, hnow, hothers, hmem, hregs, hctl, fun _ => ?_⟩
    rw [node_advance, fenced_node, node_clearRb]
  · intro hwait
    rw [hwait, if_pos rfl]
    exact stall_stays h.1 _

theorem fencep_goes_on {f : Fields} {s : State} {g : Group} (hq : Quiet s g) (h : Ready (.fencep f) s g)
    (hdone : s.unreleased s.own.cur s.own.ids 3 = false) (hpeer : s.peersOwing s.own.cur s.own.ids (some ((s.readS g f.a).toNat % 512)) = false) :
    ∃ t g', exec (.fencep f) s = .next t ∧ t.group s.own.cur = some g' ∧ t.mem = s.mem ∧
        (∀ j, j ≠ s.own.cur → t.group j = s.group j) ∧ g'.regs = g.regs ∧ g'.ctl = { g.ctl with pc := nextPc g f } := by
  change ∃ t g', execFencep f s = .next t ∧ _
  rw [execFencep, issue_of_ready h rfl]
  dsimp only
  rw [drainHeld_of_quiet hq, (silent_of_quiet hq).closeLines, (silent_of_quiet hq).pump, hdone, hpeer, Bool.or_false, if_neg Bool.false_ne_true]
  obtain ⟨g', hnow, hothers, hmem, hregs, hctl⟩ := ((AtFence.of_raiseStores hq h.1 (some ((s.readS g f.a).toNat % 512))).fenced 4).advance f.bytes
  exact ⟨_, g', rfl, hnow, hmem, hothers, hregs, hctl⟩

theorem fences : Fences := by
  unfold Fences
  intro f s g hq
  refine ⟨?_, fun h hdone hpeer => fencep_goes_on hq h hdone hpeer⟩
  change ∀ p ∈ [(Instr.fence, f.mf 3 1), (Instr.fenceh, 5)], FenceAt (p.1 f) f p.2 s g
  simp only [List.forall_mem_cons, List.not_mem_nil, false_imp_iff, implies_true, and_true]
  exact ⟨fence_fenceAt hq, fenceh_fenceAt hq⟩

/-! ### Hints to the buffers -/

/-- `t` is `s` after hints: memory and the groups as they were, and in the cores only the read buffer and the TLB changed. -/
structure Hinted (s t : State) : Prop where
  mem : t.mem = s.mem
  groups : t.groups = s.groups
  nodes : ∀ n, { t.node n with rb := [], tlb := [] } = { s.node n with rb := [], tlb := [] }

theorem Hinted.refl (s : State) : Hinted s s := ⟨rfl, rfl, fun _ => rfl⟩

theorem Hinted.trans {s t u : State} (h : Hinted s t) (k : Hinted t u) : Hinted s u :=
  ⟨k.mem.trans h.mem, k.groups.trans h.groups, fun n => (k.nodes n).trans (h.nodes n)⟩

theorem hinted_of_homesOnly {s t : State} (h : HomesOnly s t) : Hinted s t :=
  ⟨homesOnly_mem h, homesOnly_groups h, fun n => (congrArg (fun x : Node => { x with rb := [], tlb := [] }) (h.nodes n) :)⟩

theorem fillRb_hinted (s : State) (n : Nat) (c : BitVec 8) (sector : Nat) (data : List Byte) : Hinted s (s.fillRb n c sector data) := by
  refine ⟨rfl, rfl, fun j => ?_⟩
  unfold State.fillRb
  by_cases h : j = n
  · rw [h, State.node_modNode]
  · rw [State.modNode, State.node_setNode_other _ _ h]

/-- The group goes on after a step that has left memory and the groups as they were. -/
theorem advance_of_same {s t : State} {g : Group} (hmem : t.mem = s.mem) (hgroups : t.groups = s.groups) (hg : s.group s.own.cur = some g) (k : Nat) :
    ∃ g', (t.advance s.own.cur k).group s.own.cur = some g' ∧ (t.advance s.own.cur k).mem = s.mem ∧
      (∀ j, j ≠ s.own.cur → (t.advance s.own.cur k).group j = s.group j) ∧ g'.regs = g.regs ∧
      g'.ctl = { g.ctl with pc := g.ctl.pc + BitVec.ofNat 64 k } := by
  have hsame (j : Nat) : t.group j = s.group j := congrArg (Sparse.find · j) hgroups
  rw [State.advance_eq ((hsame _).trans hg)]
  exact ⟨_, State.group_setGroup .., hmem, fun j hj => (State.group_setGroup_other _ _ hj).trans (hsame j), rfl, rfl⟩

theorem bufferHints : BufferHints := by
  unfold BufferHints
  intro f s g
  refine ⟨fun h => ?rbinv, fun h => ?vpref, fun h => ?wcfl⟩
  case rbinv =>
    change ∃ t g', execRbinv f s = .next t ∧ _
    rw [execRbinv, issue_of_ready h rfl]
    obtain ⟨g', hnow, hmem, hothers, hregs, hctl⟩ := advance_of_same (s := s) (t := s.clearRb g.owner) rfl rfl h.1 f.bytes
    refine ⟨_, g', rfl, hnow, hmem, hothers, hregs, hctl, ?_, fun n hn => ?_⟩
    · rw [node_advance, node_clearRb]
    · rw [node_advance, State.clearRb, State.modNode, State.node_setNode_other _ _ hn]
  case vpref =>
    change ∃ t g', execVpref f s = .next t ∧ _
    rw [execVpref, issue_of_ready h rfl]
    dsimp only
    generalize hu : (lanesOf g.ctl.exm).foldl _ s = u
    have hhint : Hinted s u := by
      rw [← hu]
      refine foldl_rel Hinted.refl Hinted.trans _ (fun t L _ => ?_) s
      split
      · split
        · split
          · exact .refl t
          · have hread (il key n : Nat) : Hinted t ((t.lookUps g [addrV t g f L]).readAt il key n).1 :=
              (hinted_of_homesOnly (lookUps_homesOnly t g [addrV t g f L])).trans (hinted_of_homesOnly (readAt_readHome _ il key n).homesOnly)
            split
            · exact hread _ _ _
            · exact (hread _ _ _).trans (fillRb_hinted _ _ _ _ _)
        · exact .refl t
      · exact .refl t
    obtain ⟨g', hnow, hmem, hothers, hregs, hctl⟩ := advance_of_same hhint.mem hhint.groups h.1 f.bytes
    exact ⟨_, g', rfl, hnow, hmem, hothers, hregs, hctl, fun n => by rw [node_advance]; exact hhint.nodes n⟩
  case wcfl =>
    change ∃ t, execWcfl f s = .next t ∧ _
    rw [execWcfl, issue_of_ready h rfl]
    refine ⟨_, rfl, fun hq => ?_⟩
    rw [(silent_of_quiet hq).closeLines, (silent_of_quiet hq).pump]
    exact advance_of_same rfl rfl h.1 f.bytes

/-- Settles O26: a quiet group's fence is the test of what is left, and the hints touch only the buffers. -/
theorem fencesAndBuffers : Obligations.FencesAndBuffers := ⟨fences, bufferHints⟩

end Sys2Proof.Proofs
end

section
/-! What a scalar operand field reads (spec 02, R52 to R55). -/

namespace Sys2Proof.Proofs

open Sys2Proof Sys2Proof.Machine Sys2Proof.Claims

theorem readS_const (s : State) (g : Group) {x : BitVec 8} (h : 192 ≤ x.toNat) : s.readS g x = inlineConst x.toNat := by
  rw [State.readS, if_neg (by omega), if_neg (by omega)]

theorem readS_special (s : State) (g : Group) {x : BitVec 8} (h : 128 ≤ x.toNat) (h' : x.toNat < 192) : s.readS g x = s.special g x.toNat := by
  rw [State.readS, if_neg (by omega), if_pos h']

/-- A pair field sign-extends an inline constant. -/
theorem readSP_const (s : State) (g : Group) {x : BitVec 8} (h : 192 ≤ x.toNat) : s.readSP g x = (inlineConst x.toNat).signExtend 64 := by
  rw [State.readSP, if_neg (by omega), if_neg (by omega)]

theorem inlineConst_toInt_of_lt {n : Nat} (h : n < 224) (h0 : 192 ≤ n) : (inlineConst n).toInt = (n : Int) - 192 := by
  rw [show inlineConst n = BitVec.ofNat 32 (n - 192) from if_pos h, BitVec.toInt_ofNat', Int.bmod_def]
  omega

theorem inlineConst_toInt_of_ge {n : Nat} (h : n < 240) (h0 : 224 ≤ n) : (inlineConst n).toInt = 223 - (n : Int) := by
  have hneg : inlineConst n = BitVec.ofInt 32 (223 - (n : Int)) := by
    rw [show inlineConst n = 0 - BitVec.ofNat 32 (n - 223) from (if_neg (by omega)).trans (if_pos h), zero_sub, ← BitVec.ofInt_natCast,
      ← BitVec.ofInt_neg, show -((n - 223 : Nat) : Int) = 223 - (n : Int) by omega]
  rw [hneg, BitVec.toInt_ofInt, Int.bmod_def]
  omega

/-- The two halves of a double word, read as a pair. -/
theorem pairOf_halves (x : Dword) : pairOf (x.truncate 32) ((x >>> 32).truncate 32) = x := by
  refine BitVec.eq_of_getLsbD_eq fun i hi => ?_
  rw [pairOf, BitVec.getLsbD_append]
  by_cases h : i < 32
  · simp [h]
  · simp [h, show i - 32 < 32 by omega, show 32 + (i - 32) = i by omega]

/-- A linear number is its coordinates', if they fit their registers. -/
theorem linear_of_coordinates {lin gx gy : Nat} (hlin : lin < 2 ^ 32) :
    (BitVec.ofNat 32 (lin % gx)).toNat + gx * ((BitVec.ofNat 32 (lin / gx % gy)).toNat + gy * (BitVec.ofNat 32 (lin / gx / gy)).toNat) = lin := by
  have h1 : lin % gx < 2 ^ 32 := (Nat.mod_le _ _).trans_lt hlin
  have h2 : lin / gx % gy < 2 ^ 32 := ((Nat.mod_le _ _).trans (Nat.div_le_self _ _)).trans_lt hlin
  have h3 : lin / gx / gy < 2 ^ 32 := ((Nat.div_le_self _ _).trans (Nat.div_le_self _ _)).trans_lt hlin
  rw [BitVec.toNat_ofNat, BitVec.toNat_ofNat, BitVec.toNat_ofNat, Nat.mod_eq_of_lt h1, Nat.mod_eq_of_lt h2, Nat.mod_eq_of_lt h3,
    Nat.mod_add_div, Nat.mod_add_div]

/-- The special values of a group whose block and grid exist. -/
theorem special_of_grid {s : State} {g : Group} {b : Block} {x : Grid} (hb : s.block g.block = some b) (hx : s.grid b.grid = some x) :
    s.readS g 128 = BitVec.ofNat 32 g.index ∧
      ((s.readS g 129).toNat + x.gx * ((s.readS g 130).toNat + x.gy * (s.readS g 131).toNat) = b.lin ∨ 2 ^ 32 ≤ b.lin ∨ 2 ^ 32 ≤ x.gx ∨ 2 ^ 32 ≤ x.gy) ∧
      s.readS g 132 = BitVec.ofNat 32 (b.lin / b.k.clsz) ∧ s.readS g 133 = BitVec.ofNat 32 (b.lin % b.k.clsz) ∧
      s.readS g 134 = x.gridid ∧ s.readS g 135 = BitVec.ofNat 32 g.owner ∧ s.readSP g 148 = x.args ∧
      s.readS g 150 = BitVec.ofNat 32 b.k.scr ∧ s.readS g 151 = BitVec.ofNat 32 b.k.ngrp ∧
      s.readS g 155 = BitVec.ofNat 32 b.k.clsz ∧ s.readS g 156 = BitVec.ofNat 32 b.k.accn := by
  have hgrid : s.gridOf g = some x := by rw [State.gridOf, hb]; exact hx
  have hkernel : s.kernelOf g = some b.k := by rw [State.kernelOf, hb]; rfl
  have hidentity (n : Nat) : s.identity g n = BitVec.ofNat 32 (match n with
    | 0 => g.index | 1 => b.lin % x.gx | 2 => b.lin / x.gx % x.gy | 3 => b.lin / x.gx / x.gy | 4 => b.lin / b.k.clsz | 5 => b.lin % b.k.clsz
    | 6 => x.gridid.toNat | 7 => g.owner | 8 => dieOf g.owner | _ => s.devid) := by
    unfold State.identity
    simp only [hgrid, State.blockOf, hb] <;> rfl
  have hcoord (n : Nat) (h : n < 10) : s.readS g (BitVec.ofNat 8 (128 + n)) = s.identity g n := by
    have hn : (BitVec.ofNat 8 (128 + n)).toNat = 128 + n := by
      rw [BitVec.toNat_ofNat]
      omega
    have hspecial : s.special g (128 + n) = s.identity g (128 + n - 128) := if_pos (by omega)
    rw [readS_special s g (by omega) (by omega), hn, hspecial, Nat.add_sub_cancel_left]
  refine ⟨(hcoord 0 (by decide)).trans (hidentity 0), ?lin, (hcoord 4 (by decide)).trans (hidentity 4), (hcoord 5 (by decide)).trans (hidentity 5),
    ?gridid, (hcoord 7 (by decide)).trans (hidentity 7), ?args, ?scr, ?ngrp, ?clsz, ?accn⟩
  case lin =>
    by_cases hlin : b.lin < 2 ^ 32
    · left
      rw [show (129 : BitVec 8) = BitVec.ofNat 8 (128 + 1) from rfl, show (130 : BitVec 8) = BitVec.ofNat 8 (128 + 2) from rfl,
        show (131 : BitVec 8) = BitVec.ofNat 8 (128 + 3) from rfl, hcoord 1 (by decide), hcoord 2 (by decide), hcoord 3 (by decide), hidentity,
        hidentity, hidentity]
      exact linear_of_coordinates hlin
    · exact .inr (.inl (Nat.not_lt.mp hlin))
  case gridid => exact ((hcoord 6 (by decide)).trans (hidentity 6)).trans (by simp)
  case args =>
    change pairOf (s.special g 148) (s.special g 149) = x.args
    simp only [State.special, hgrid]
    exact pairOf_halves x.args
  case scr =>
    change s.special g 150 = _
    simp only [State.special, hkernel]
    rfl
  case ngrp =>
    change s.special g 151 = _
    simp only [State.special, hkernel]
    rfl
  case clsz =>
    change s.special g 155 = _
    simp only [State.special, hkernel]
    rfl
  case accn =>
    change s.special g 156 = _
    simp only [State.special, hkernel]
    rfl

/-- Settles O42, range by range of the field. -/
theorem operandValues : Obligations.OperandValues := by
  unfold Obligations.OperandValues
  intro s g x
  refine ⟨fun h => ⟨if_pos h, if_pos h⟩, fun h h' => ?_, fun h h' => ?_, fun h => ?_, rfl, ⟨rfl, rfl, rfl, rfl, rfl, rfl, ?_, rfl, rfl⟩,
    fun b y hb hy _ _ => special_of_grid hb hy⟩
  · rw [readS_const s g h, inlineConst_toInt_of_lt h' h]
  · rw [readS_const s g (by omega), inlineConst_toInt_of_ge h' h]
  · rw [readS_const s g h, readSP_const s g h, BitVec.toInt_signExtend_of_le (by decide)]
  · exact pairOf_halves s.clock

end Sys2Proof.Proofs
end

section
/-! What an instruction of the opcode map checks before its meaning (spec 02, R56; spec 09, R193 to R197). -/

namespace Sys2Proof.Proofs

open Sys2Proof Sys2Proof.Machine Sys2Proof.Claims

/-! ### Every cell but three is an `issue` -/

/-- A result that the checks of issue precede. -/
def Issues (r : Row) (f : Fields) (s : State) (x : Res) : Prop := ∃ k, x = issue r f s k

section wrappers

variable (r : Row) (f : Fields) (s : State)

theorem issues_scalar1 (op : Word → Word) : Issues r f s (scalar1 r op f s) := ⟨_, rfl⟩
theorem issues_scalar2 (op : Word → Word → Word) : Issues r f s (scalar2 r op f s) := ⟨_, rfl⟩
theorem issues_scalar3 (op : Word → Word → Word → Word) : Issues r f s (scalar3 r op f s) := ⟨_, rfl⟩
theorem issues_scalarPair (op : Dword → Dword → Dword) : Issues r f s (scalarPair r op f s) := ⟨_, rfl⟩
theorem issues_vector1 (op : Word → Word) : Issues r f s (vector1 r op f s) := ⟨_, rfl⟩
theorem issues_vector2 (op : Word → Word → Word) : Issues r f s (vector2 r op f s) := ⟨_, rfl⟩
theorem issues_vector3 (op : Word → Word → Word → Word) : Issues r f s (vector3 r op f s) := ⟨_, rfl⟩
theorem issues_exchange (src : State → Group → Nat → Nat) : Issues r f s (exchange r f s src) := ⟨_, rfl⟩
theorem issues_loadV (u : Use) (rb w : Bool) (addr : State → Group → Nat → Dword) : Issues r f s (loadV r f s u rb w addr) := ⟨_, rfl⟩
theorem issues_loadS (bc : Bool) : Issues r f s (loadS r f s bc) := ⟨_, rfl⟩
theorem issues_storeV (w : Bool) (addr : State → Group → Nat → Dword) : Issues r f s (storeV r f s w addr) := ⟨_, rfl⟩
theorem issues_atomicV (wide cas ret : Bool) : Issues r f s (atomicV r f s wide cas ret) := ⟨_, rfl⟩
theorem issues_atomicS (cas : Bool) : Issues r f s (atomicS r f s cas) := ⟨_, rfl⟩
theorem issues_waitOn (timeout : Option Nat) : Issues r f s (waitOn r f s timeout) := ⟨_, rfl⟩
theorem issues_readCells (vec : Bool) (addr : State → Group → Nat → Dword) : Issues r f s (readCells r f s vec addr) := ⟨_, rfl⟩
theorem issues_accCommand (k : MatKind) : Issues r f s (accCommand k r f s) := ⟨_, rfl⟩
theorem issues_boxCommand (k : CmdKind) : Issues r f s (boxCommand k r f s) := ⟨_, rfl⟩
theorem issues_counterAdd (sub : Bool) : Issues r f s (counterAdd r f s sub) := ⟨_, rfl⟩
theorem issues_execDequeue (try_ : Bool) : Issues r f s (execDequeue r f s try_) := ⟨_, rfl⟩
theorem issues_leaveTrap (sret : Bool) : Issues r f s (leaveTrap r f s sret) := ⟨_, rfl⟩

end wrappers

/-- The meaning of every instruction of the opcode map but mma, mmac and mjoin follows the checks of issue. -/
theorem exec_issues {i : Instr} {f : Fields} {r : Row} (h : i.row = some (f, r)) (hmma : i ≠ .mma f) (hmmac : i ≠ .mmac f) (hjoin : i ≠ .mjoin f)
    (s : State) : Issues r f s (exec i s) := by
  cases i
  case mma => cases h; exact absurd rfl hmma
  case mmac => cases h; exact absurd rfl hmmac
  case mjoin => cases h; exact absurd rfl hjoin
  all_goals cases h
  all_goals dsimp only [exec]
  case sadd | ssub | smul | smulh | sand | sor | sxor | sshl | sshr | smin | smax | sdiv | srem | scmp | srndk => exact issues_scalar2 ..
  case smov | snot | sclz | spopc | sbrev | sext => exact issues_scalar1 ..
  case ssel | sbfe => exact issues_scalar3 ..
  case sadd64 | ssub64 | smul64 | sshl64 | sshr64 => exact issues_scalarPair ..
  case vadd | vsub | vmul | vmulh | vand | vor | vxor | vshl | vshr | vmin | vmax | vabsd | vadds | vsubs | vcmp | vaddF32 | vsubF32 | vmulF32
      | vminF32 | vmaxF32 | vdiv | vcmpF32 | vadd2 | vmul2 | vscale | vdeq | vpk8 | vupk8 | vpk4 | vupk4 | rndk => exact issues_vector2 ..
  case vmad | vsel | vbfe | vfma | vfms | vfma2 | vdot8 | vdot4 => exact issues_vector3 ..
  case vmov | vnot | vneg | vabs | vclz | vpopc | vbrev | vext | vabsF32 | vnegF32 | vsqrt | vrcp | vrsq | vexp2 | vlog2 | vrnd | vclass | vcvt
      | vcvtq | vcvtqf | vsc8 => exact issues_vector1 ..
  case vshfl | vshup | vshdn | vshxor | vbcast | qxch => exact issues_exchange ..
  case vld | vldrb | vldscr | vldcw | vldp => exact issues_loadV ..
  case sld | vldbc => exact issues_loadS ..
  case vst | vstscr | vstcw | vstp => exact issues_storeV ..
  case vatom | vcas | vred | vatom64 | vcas64 => exact issues_atomicV ..
  case satom | scas => exact issues_atomicS ..
  case wwait | wwaitt => exact issues_waitOn ..
  case vldf | sldf => exact issues_readCells ..
  case mzero | mlda | msta => exact issues_accCommand ..
  case tcopy | tcopys | gather => exact issues_boxCommand ..
  case ecinc | ecdec => exact issues_counterAdd ..
  case tqdeq | tqtry => exact issues_execDequeue ..
  case rft | sret => exact issues_leaveTrap ..
  all_goals exact ⟨_, rfl⟩

/-- What a group waits for at an instruction that names an empty register. -/
def holdOf (i : Instr) (f : Fields) (n : Named) : Hold := if i = .mjoin f then .mjoin n.reg else n.hold

/-- The meaning of every instruction of the opcode map but mma and mmac follows the checks of issue; mjoin waits for the register in its own way. -/
theorem exec_issueHold {i : Instr} {f : Fields} {r : Row} (h : i.row = some (f, r)) (hmma : i ≠ .mma f) (hmmac : i ≠ .mmac f) (s : State) :
    ∃ k, exec i s = issueHold (holdOf i f) r f s k := by
  by_cases hjoin : i = .mjoin f
  · subst hjoin
    cases h
    have hhold : holdOf (.mjoin f) f = fun n => .mjoin n.reg := funext fun n => if_pos rfl
    rw [hhold]
    dsimp only [exec]
    exact ⟨_, by rw [execMjoin]⟩
  · obtain ⟨k, hk⟩ := exec_issues h hmma hmmac hjoin s
    have hhold : holdOf i f = Named.hold := funext fun n => if_neg hjoin
    rw [hhold]
    exact ⟨k, hk⟩

/-! ### The checks of issue -/

section checks

variable {s : State} {g : Group} (hg : s.group s.own.cur = some g)

include hg

theorem trapPlain_eq (c : Cause) (aux : Dword) : s.trapPlain s.own.cur c aux = s.trap s.own.cur c g.ctl.exm 0 aux := by
  rw [State.trapPlain, hg]

variable {r : Row} {f : Fields} {h : Named → Hold} {k : Nat → Group → Res}

theorem issueHold_of_unowned {n : Named} (hn : s.unowned g (namedRegs r f) = some n) :
    issueHold h r f s k = .next (s.trap s.own.cur .regbound g.ctl.exm 0 (regAux n.scalar n.reg)) := by
  rw [issueHold]
  simp only [hg, hn, trapPlain_eq hg]

variable (hown : s.unowned g (namedRegs r f) = none)

include hown

theorem issueHold_of_user (hsup : (r.sup && !g.priv) = true) : issueHold h r f s k = .next (s.trap s.own.cur .priv g.ctl.exm 0 0) := by
  rw [issueHold]
  simp only [hg, hown, hsup, if_true, trapPlain_eq hg]

variable (hsup : (r.sup && !g.priv) = false)

include hsup

theorem issueHold_of_emptyWaited {n : Named} (hn : g.emptyWaited (namedRegs r f) = some n) :
    issueHold h r f s k = .next (s.trap s.own.cur .emptyreg g.ctl.exm 0 (regAux n.scalar n.reg)) := by
  rw [issueHold]
  simp only [hg, hown, hsup, hn, Bool.false_eq_true, if_false, trapPlain_eq hg]

theorem issueHold_of_emptyStall (hwait : g.emptyWaited (namedRegs r f) = none) {n : Named} (hn : g.emptyStall (namedRegs r f) = some n) :
    issueHold h r f s k = .next (s.stall s.own.cur (h n)) := by
  rw [issueHold]
  simp only [hg, hown, hsup, hwait, hn, Bool.false_eq_true, if_false]

end checks

theorem unowned_eq_none {s : State} {g : Group} {l : List Named} (h : ∀ n ∈ l, s.owns g n.scalar n.reg = true) : s.unowned g l = none :=
  List.find?_eq_none.mpr fun n hn => by rw [h n hn]; decide

/-- The statement for one instruction that is neither mma nor mmac. -/
theorem issue_checks {i : Instr} {f : Fields} {r : Row} {s : State} {g : Group} (hrow : i.row = some (f, r)) (hmma : i ≠ .mma f) (hmmac : i ≠ .mmac f)
    (hg : s.group s.own.cur = some g) :
    (∀ n, (namedRegs r f).find? (fun n => !s.owns g n.scalar n.reg) = some n →
      exec i s = .next (s.trap s.own.cur .regbound g.ctl.exm 0 (BitVec.ofNat 64 (n.reg % 256 + if n.scalar then 256 else 0)))) ∧
    ((∀ n ∈ namedRegs r f, s.owns g n.scalar n.reg = true) →
      (r.sup = true → g.ctl.supAt = none → exec i s = .next (s.trap s.own.cur .priv g.ctl.exm 0 0)) ∧
      ((r.sup = true → g.ctl.supAt ≠ none) →
        (∀ n, (namedRegs r f).find? (fun n => (n.role = .src || n.role = .both) && n.wait && g.isEmpty n.scalar n.reg) = some n →
          exec i s = .next (s.trap s.own.cur .emptyreg g.ctl.exm 0
            (BitVec.ofNat 64 (n.reg % 256 + if n.scalar then 256 else 0)))) ∧
        ((∀ n ∈ namedRegs r f, (n.role = .src ∨ n.role = .both) → n.wait = true → g.isEmpty n.scalar n.reg = false) →
          ∀ n, (namedRegs r f).find? (fun n => n.role ≠ .peek && g.isEmpty n.scalar n.reg) = some n →
            ∃ t g', exec i s = .next t ∧ t.group s.own.cur = some g' ∧ t.mem = s.mem ∧ (∀ j, j ≠ s.own.cur → t.group j = s.group j) ∧
              g'.ctl = g.ctl ∧ g'.regs = g.regs ∧ g'.sys = g.sys ∧ g'.eng = g.eng ∧ g'.out = g.out ∧
              g'.sched.hold = (if i = .mjoin f then .mjoin n.reg else if n.scalar then .sreg n.reg else .vreg n.reg)))) := by
  obtain ⟨k, hk⟩ := exec_issueHold hrow hmma hmmac s
  rw [hk]
  refine ⟨fun n hn => issueHold_of_unowned hg hn, fun howns => ?_⟩
  have hown := unowned_eq_none howns
  refine ⟨fun hsup huser => issueHold_of_user hg hown ?_, fun hmode => ?_⟩
  · rw [hsup, Group.priv, huser]
    rfl
  have hsup : (r.sup && !g.priv) = false := by
    cases hr : r.sup with
    | false => rfl
    | true => rw [Group.priv, Option.isSome_iff_ne_none.mpr (hmode hr)]; rfl
  refine ⟨fun n hn => issueHold_of_emptyWaited hg hown hsup hn, fun hfull n hn => ?_⟩
  have hwait : g.emptyWaited (namedRegs r f) = none := by
    refine List.find?_eq_none.mpr fun m hm hand => ?_
    simp only [Bool.and_eq_true, Bool.or_eq_true, decide_eq_true_eq] at hand
    obtain ⟨⟨hrole, hw⟩, hempty⟩ := hand
    rw [hfull m hm hrole hw] at hempty
    exact Bool.false_ne_true hempty
  rw [issueHold_of_emptyStall hg hown hsup hwait hn, stall_eq hg]
  refine ⟨_, _, rfl, (group_gate _ _ _).trans (State.group_setGroup ..), State.gate_mem _ _, fun j hj => ?_, rfl, rfl, rfl, rfl, rfl, rfl⟩
  rw [group_gate, State.group_setGroup_other _ _ hj]

/-! ### The checks of mma and mmac -/

theorem gangNamed_mmac (r : Row) (f : Fields) (g : Group) (w : Word) : gangNamed .mmac r f g w = ([], namedRegs r f) := by
  rw [gangNamed]
  rfl

/-- The operand ranges of an mma are vector registers. -/
theorem gangNamed_range {k : MatKind} {r : Row} {f : Fields} {g : Group} {w : Word} : ∀ n ∈ (gangNamed k r f g w).1, n.scalar = false := by
  intro n hn
  unfold gangNamed at hn
  dsimp only at hn
  split at hn
  · rcases List.mem_append.mp hn with hn | hn <;>
    · obtain ⟨x, -, rfl⟩ := List.mem_map.mp hn
      rfl
  · exact absurd hn List.not_mem_nil

/-- The first register that REGBOUND names: of the ranges, which end at v254, then of the others. -/
theorem gangUnowned_eq {s : State} {g : Group} {l : List Named × List Named} (hl : ∀ n ∈ l.1, n.scalar = false) :
    s.gangUnowned g l = (l.1 ++ l.2).find? (fun n => !s.owns g n.scalar n.reg || (l.1.contains n && 255 ≤ n.reg)) := by
  have hfirst : l.1.find? (fun n => decide (255 ≤ n.reg) || !s.owns g false n.reg) =
      l.1.find? (fun n => !s.owns g n.scalar n.reg || (l.1.contains n && 255 ≤ n.reg)) := by
    refine List.find?_congr fun n hn => ?_
    rw [hl n hn, List.contains_iff_mem.mpr hn, Bool.true_and, Bool.or_comm]
  rw [State.gangUnowned, List.find?_append, hfirst]
  cases hnone : l.1.find? (fun n => !s.owns g n.scalar n.reg || (l.1.contains n && 255 ≤ n.reg)) with
  | some n => rfl
  | none =>
    rw [Option.none_or, Option.none_or]
    refine List.find?_congr fun n _ => ?_
    by_cases hin : n ∈ l.1
    · have := List.find?_eq_none.mp hnone n hin
      rw [Bool.not_eq_true, Bool.or_eq_false_iff] at this
      rw [this.2, Bool.or_false]
    · rw [Bool.eq_false_iff.mpr (fun h => hin (List.contains_iff_mem.mp h)), Bool.false_and, Bool.or_false]

/-- Every register with a wait bit is a source. -/
theorem emptyWaited_eq_of_roles {g : Group} {l : List Named} (h : ∀ n ∈ l, n.wait = true → n.role = .src ∨ n.role = .both) :
    g.emptyWaited l = l.find? (fun n => n.wait && g.isEmpty n.scalar n.reg) := by
  refine List.find?_congr fun n hn => ?_
  cases hw : n.wait with
  | false => rw [Bool.and_false, Bool.false_and]
  | true =>
    have hrole : (decide (n.role = .src) || decide (n.role = .both)) = true := by
      rw [Bool.or_eq_true, decide_eq_true_iff, decide_eq_true_iff]
      exact h n hn hw
    rw [hrole, Bool.true_and]

theorem role_of_fieldRegs {k : Kind} {x c : Nat} {role : Role} {w : Bool} {n : Named} (h : n ∈ fieldRegs k x c role w) : n.role = role ∧ n.wait = w := by
  unfold fieldRegs at h
  split at h
  · obtain ⟨i, -, rfl⟩ := List.mem_map.mp h
    exact ⟨rfl, rfl⟩
  · split at h
    · rw [List.mem_singleton.mp h]
      exact ⟨rfl, rfl⟩
    · exact absurd h List.not_mem_nil
  · split at h
    · rcases List.mem_pair.mp h with rfl | rfl <;> exact ⟨rfl, rfl⟩
    · exact absurd h List.not_mem_nil
  · simp only [List.mem_cons, List.not_mem_nil, or_false] at h
    rcases h with rfl | rfl | rfl | rfl <;> exact ⟨rfl, rfl⟩
  · exact absurd h List.not_mem_nil

/-- The fields of a row whose A and H are sources, and whose D has no wait bit. -/
theorem role_of_namedRegs {r : Row} {f : Fields} (ha : r.aRole = .src) (hh : r.hRole = .src) : ∀ n ∈ namedRegs r f, n.wait = true → n.role = .src := by
  have hrep {c : Prop} [Decidable c] {l : List Named} {n : Named} (h : n ∈ if c then [] else l) : n ∈ l := by
    split at h
    · exact absurd h List.not_mem_nil
    · exact h
  intro n hn hw
  simp only [namedRegs, List.mem_append] at hn
  rcases hn with ((((hn | hn) | hn) | hn) | hn) | hn
  · rw [(role_of_fieldRegs (hrep hn)).1, ha]
  · exact (role_of_fieldRegs (hrep hn)).1
  · exact (role_of_fieldRegs (hrep hn)).1
  · rw [(role_of_fieldRegs hn).2] at hw
    exact absurd hw Bool.false_ne_true
  · exact (role_of_fieldRegs hn).1
  · rw [(role_of_fieldRegs hn).1, hh]

theorem role_of_gangNamed {k : MatKind} {r : Row} {f : Fields} {g : Group} {w : Word} (ha : r.aRole = .src) (hh : r.hRole = .src) :
    ∀ n ∈ (gangNamed k r f g w).1 ++ (gangNamed k r f g w).2, n.wait = true → n.role = .src ∨ n.role = .both := by
  intro n hn hw
  left
  unfold gangNamed at hn
  dsimp only at hn
  split at hn
  · rcases List.mem_append.mp hn with hn | hn
    · rcases List.mem_append.mp hn with hn | hn <;>
      · obtain ⟨x, -, rfl⟩ := List.mem_map.mp hn
        rfl
    · exact (role_of_fieldRegs hn).1
  · exact role_of_namedRegs ha hh n hn hw

/-- What the C register of an mma tells of its format, where it is full. -/
def formatWord (f : Fields) (s : State) (g : Group) : Word :=
  if g.isEmpty false f.c.toNat then 0 else match lanesOf g.ctl.exm with | [] => 0 | L :: _ => s.readV g f.c.toNat L

theorem gangIssue_of_unowned {k : MatKind} {r : Row} {f : Fields} {s : State} {g : Group} (hg : s.group s.own.cur = some g) {n : Named}
    (hn : s.gangUnowned g (gangNamed k r f g (formatWord f s g)) = some n) :
    gangIssue k r f s = .next (s.trap s.own.cur .regbound g.ctl.exm 0 (regAux n.scalar n.reg)) := by
  rw [formatWord] at hn
  rw [gangIssue]
  cases hl : lanesOf g.ctl.exm <;>
  · rw [hl] at hn
    simp only [hg, hl, List.map, hn, trapPlain_eq hg]

theorem gangIssue_of_emptyWaited {k : MatKind} {r : Row} {f : Fields} {s : State} {g : Group} (hg : s.group s.own.cur = some g)
    (hown : s.gangUnowned g (gangNamed k r f g (formatWord f s g)) = none) {n : Named}
    (hn : g.emptyWaited ((gangNamed k r f g (formatWord f s g)).1 ++ (gangNamed k r f g (formatWord f s g)).2) = some n) :
    gangIssue k r f s = .next (s.trap s.own.cur .emptyreg g.ctl.exm 0 (regAux n.scalar n.reg)) := by
  rw [formatWord] at hn hown
  rw [gangIssue]
  cases hl : lanesOf g.ctl.exm <;>
  · rw [hl] at hn hown
    simp only [hg, hl, List.map, hown, hn, trapPlain_eq hg]

/-- The statement for mma and mmac, where `named` are their ranges and their other registers. -/
def GangChecks (i : Instr) (s : State) (g : Group) (named : List Named × List Named) : Prop :=
  (∀ n, (named.1 ++ named.2).find? (fun n => !s.owns g n.scalar n.reg || (named.1.contains n && 255 ≤ n.reg)) = some n →
    exec i s = .next (s.trap s.own.cur .regbound g.ctl.exm 0 (BitVec.ofNat 64 (n.reg % 256 + if n.scalar then 256 else 0)))) ∧
  ((∀ n ∈ named.1 ++ named.2, s.owns g n.scalar n.reg = true) → (∀ n ∈ named.1, n.reg < 255) →
    ∀ n, (named.1 ++ named.2).find? (fun n => n.wait && g.isEmpty n.scalar n.reg) = some n →
      exec i s = .next (s.trap s.own.cur .emptyreg g.ctl.exm 0 (BitVec.ofNat 64 (n.reg % 256 + if n.scalar then 256 else 0))))

theorem gangChecks_of_gangIssue {i : Instr} {k : MatKind} {r : Row} {f : Fields} {s : State} {g : Group} (hg : s.group s.own.cur = some g)
    (hexec : exec i s = gangIssue k r f s) (ha : r.aRole = .src) (hh : r.hRole = .src) : GangChecks i s g (gangNamed k r f g (formatWord f s g)) := by
  rw [GangChecks, hexec, ← gangUnowned_eq gangNamed_range, ← emptyWaited_eq_of_roles (role_of_gangNamed ha hh)]
  refine ⟨fun n hn => gangIssue_of_unowned hg hn, fun howns hlow n hn => gangIssue_of_emptyWaited hg ?_ hn⟩
  rw [gangUnowned_eq gangNamed_range]
  refine List.find?_eq_none.mpr fun m hm hor => ?_
  rw [howns m hm, Bool.not_true, Bool.false_or, Bool.and_eq_true, decide_eq_true_iff] at hor
  exact absurd (hlow m (List.contains_iff_mem.mp hor.1)) (Nat.not_lt.mpr hor.2)

/-- Settles O43: every cell but mma and mmac is an `issue`, whose checks come in this order, and those two begin with their own. -/
theorem issueChecks : Obligations.IssueChecks := by
  unfold Obligations.IssueChecks
  refine ⟨fun f s g hg => ?_, fun i f r s g hrow hmma hmmac hg => issue_checks hrow hmma hmmac hg⟩
  change ∀ p ∈ [(Instr.mma f, gangNamed .mma (rowMma f) f g (formatWord f s g)), (Instr.mmac f, ([], namedRegs (rowMmac f) f))], GangChecks p.1 s g p.2
  simp only [List.forall_mem_cons, List.not_mem_nil, false_imp_iff, implies_true, and_true]
  refine ⟨gangChecks_of_gangIssue hg rfl rfl rfl, ?_⟩
  rw [← gangNamed_mmac (rowMmac f) f g (formatWord f s g)]
  exact gangChecks_of_gangIssue hg rfl rfl rfl

end Sys2Proof.Proofs
end

section
/-! The turn of a group: what a step fetches and runs (spec 02, R56; spec 17, R372). -/

namespace Sys2Proof.Proofs

open Sys2Proof Sys2Proof.Machine Sys2Proof.Claims

/-! ### The fetch -/

theorem fetched_homesOnly (s : State) (g : Group) (pc : Dword) : HomesOnly s (s.fetched g pc) := by
  unfold State.fetched
  extract_lets t
  split
  · exact lookUp_homesOnly ..
  · exact homesOnly_trans (lookUp_homesOnly ..) (readAt_readHome ..).homesOnly

/-- The state after the fetch at the PC of a group. -/
def codeRead (s : State) (g : Group) : State := if g.ctl.pc.toNat % 4 = 0 then s.fetched g g.ctl.pc else s

theorem codeRead_homesOnly (s : State) (g : Group) : HomesOnly s (codeRead s g) := by
  rw [codeRead]
  split
  · exact fetched_homesOnly ..
  · exact homesOnly_refl s

/-- The debugger's note touches nothing but itself. -/
theorem noteStep_eq (s : State) (gid : Nat) (g : Group) :
    s.noteStep gid g = { s with mgmt := { s.mgmt with stepping := (s.noteStep gid g).mgmt.stepping } } := by
  unfold State.noteStep
  split
  · split <;> rfl
  · rfl

theorem issuing_eq (s : State) (gid : Nat) (g : Group) : s.issuing gid g =
    { codeRead s g with
      mgmt := { (codeRead s g).mgmt with stepping := ((codeRead s g).noteStep gid g).mgmt.stepping }
      own := { (codeRead s g).own with cur := gid, tried := some (gid, if g.sched.hold.issued then none else some g.ctl.pc) } } := by
  rw [State.issuing]
  dsimp only
  rw [show (if g.ctl.pc.toNat % 4 = 0 then s.fetched g g.ctl.pc else s) = codeRead s g from rfl, noteStep_eq]

/-! ### The turn -/

section turn

variable {s : State} {gid : Nat} {g : Group} (hg : s.group gid = some g)

include hg

/-- A group that may not issue, or that is not chosen, lets its turn pass. -/
theorem groupTurn_of_passed (h : s.canIssue g = false ∨ s.chosen gid g = false) : s.groupTurn gid = .done (.next s) := by
  have hpass : (!s.canIssue g || !s.chosen gid g) = true := by
    rcases h with h | h <;> rw [h] <;> simp
  rw [State.groupTurn]
  simp only [hg, hpass, if_true]

variable (hcan : s.canIssue g = true) (hchosen : s.chosen gid g = true) (himp : g.out.imprecise = [])
  (hjoin : s.joinwDue g = false ∨ g.atJoin = true) (hbreak : s.breakHere g = false) (hbad : g.ctl.pc.toNat % 4 = 0 → s.fetchBad g g.ctl.pc = false)

include hcan hchosen himp hjoin hbreak hbad

/-- A group whose turn it is runs the instruction at its PC, or takes the decode trap. -/
theorem groupTurn_of_chosen : s.groupTurn gid =
    match s.nextInstr g with
    | .ok i => .run i (s.issuing gid g)
    | .error (c, aux, addr) => .done (execUnassignedCell c aux addr (s.issuing gid g)) := by
  have hturn : (!s.canIssue g || !s.chosen gid g) = false := by rw [hcan, hchosen]; rfl
  have hdue : (s.joinwDue g && !g.atJoin) = false := by
    rcases hjoin with h | h <;> rw [h] <;> simp
  have hgood : (decide (g.ctl.pc.toNat % 4 = 0) && s.fetchBad g g.ctl.pc) = false := by
    by_cases h : g.ctl.pc.toNat % 4 = 0
    · rw [hbad h, Bool.and_false]
    · rw [decide_eq_false h, Bool.false_and]
  have hnone : (if g.sched.hold = .roused then [] else g.out.imprecise) = [] := by rw [himp, ite_self]
  rw [State.groupTurn]
  simp only [hg, hturn, hdue, hnone, hbreak, hgood, Bool.false_eq_true, if_false] <;> cases s.nextInstr g <;> rfl

end turn

/-- A step whose agenda gives a group its turn. -/
theorem step_of_issue {s : State} {gid : Nat} {ts : List Turn} (hpower : s.power = true) (hagenda : s.own.agenda = .issue gid :: ts) :
    step s = match (turned s ts).groupTurn gid with | .done r => settled r | .run i t => settled (exec i t) := by
  have hturn : s.turn = (turned s ts).groupTurn gid := by
    rcases s with ⟨own, power⟩
    cases own
    cases hpower
    cases hagenda
    rfl
  rw [step, hturn] <;> rfl

/-! ### Fetching and decoding -/

section fetch

variable {s : State} {g : Group}

theorem nextInstr_of_misaligned (h : g.ctl.pc.toNat % 4 ≠ 0) : s.nextInstr g = .error (3, 0, 0) := by
  rw [State.nextInstr]
  exact if_pos h

variable (haligned : g.ctl.pc.toNat % 4 = 0)

include haligned

theorem nextInstr_of_unmapped {aux : Nat} (h : s.fetch g g.ctl.pc = .error aux) : s.nextInstr g = .error (4, BitVec.ofNat 64 aux, g.ctl.pc) := by
  rw [State.nextInstr]
  simp only [haligned, ne_eq, not_true_eq_false, if_false, h]

variable {w : Nat} (hw : s.fetch g g.ctl.pc = .ok w)

include hw

theorem nextInstr_of_badLength (h : w % 4 = 3) : s.nextInstr g = .error (1, 1, 0) := by
  have hlen : lenOf w = none := by rw [lenOf, h]; rfl
  rw [State.nextInstr]
  simp only [haligned, ne_eq, not_true_eq_false, if_false, hw, hlen]

/-- Bits whose LEN is good are decoded, if the instruction lies within its unit. -/
theorem nextInstr_of_length (h : w % 4 ≠ 3) : s.nextInstr g =
    if 32 < g.ctl.pc.toNat % 32 + lengthOf w then .error (2, 0, g.ctl.pc)
    else match decode w with
      | .ok i => .ok i
      | .error (.illop r c) => .error (1, illopAux (r, c), 0) := by
  have hcases : w % 4 = 0 ∨ w % 4 = 1 ∨ w % 4 = 2 := by omega
  rw [State.nextInstr, lengthOf]
  rcases hcases with hmod | hmod | hmod <;>
    simp only [haligned, ne_eq, not_true_eq_false, if_false, hw, lenOf, hmod] <;> rfl

end fetch

/-- Settles O37: the turn of a group that is chosen runs what `nextInstr` gives, in the state that `issuing` describes. -/
theorem stepRunsDecoded : Obligations.StepRunsDecoded := by
  unfold Obligations.StepRunsDecoded
  intro s gid ts g hpower hagenda hg
  rw [step_of_issue hpower hagenda]
  generalize turned s ts = t at hg
  refine ⟨fun h => by rw [groupTurn_of_passed hg h], fun hcan hchosen himp hjoin hbreak hbad => ?_⟩
  rw [groupTurn_of_chosen hg hcan hchosen himp hjoin hbreak hbad]
  have hv := codeRead_homesOnly t g
  refine ⟨t.issuing gid g, rfl, ?_, ⟨codeRead t g, hv, ?_⟩, fun h => ?_, fun h aux hfetch => ?_, fun h w hfetch => ⟨fun hlen => ?_, fun hlen hunit => ?_, fun hlen hunit => ?_⟩⟩
  · rw [issuing_eq]
    exact (homesOnly_groups hv :)
  · rw [issuing_eq]
    exact ⟨rfl, rfl, rfl⟩
  · rw [nextInstr_of_misaligned h]
    rfl
  · rw [nextInstr_of_unmapped h hfetch]
    rfl
  · rw [nextInstr_of_badLength h hfetch hlen]
    rfl
  · rw [nextInstr_of_length h hfetch hlen, if_pos hunit]
    rfl
  · rw [nextInstr_of_length h hfetch hlen, if_neg (Nat.not_lt.mpr hunit)]
    refine ⟨fun i hi => by rw [hi], fun r c hrc => ?_⟩
    rw [hrc]
    rfl

end Sys2Proof.Proofs
end

section
/-! What every operation of the machine keeps: memory is changed by writing bytes, and groups by replacing one of the list, whose lanes only leave. -/

namespace Sys2Proof.Proofs

open Sys2Proof Sys2Proof.Machine Sys2Proof.Claims

theorem mem_of_find {α : Type} {m : List (Nat × α)} {k : Nat} {v : α} (h : Sparse.find m k = some v) : (k, v) ∈ m := by
  induction m with
  | nil => cases h
  | cons p m ih =>
    obtain ⟨j, w⟩ := p
    unfold Sparse.find at h
    split at h
    · rename_i hj
      cases h
      cases hj
      exact List.mem_cons_self
    · exact List.mem_cons_of_mem _ (ih h)

/-- The identities of some wait entries. -/
def waitIds (l : List WaitEntry) : List Nat := l.map (·.id)

/-- A property of states that lasts while memory is written byte by byte, while a group is replaced by one whose LIVEM and EXM (the two words of
`Ok`) are in order, while groups leave, and while wait entries leave their tables. -/
structure Inv where
  P : State → Prop
  Ok : Nat → Word → Word → Prop
  rest : ∀ {s t : State}, P s → t.mem = s.mem → t.groups = s.groups → t.nodes = s.nodes → P t
  node : ∀ {s : State}, P s → ∀ {n : Nat} {x : Node}, waitIds x.waits ⊆ waitIds (s.node n).waits → P (s.setNode n x)
  nodes : ∀ {s : State}, P s → ∀ {f : Node → Node}, (∀ x, waitIds (f x).waits ⊆ waitIds x.waits) → P (s.mapNodes f)
  write : ∀ {s : State}, P s → ∀ (k : Nat) (bs : List Byte), P { s with mem := Mem.wrBytes s.mem k bs }
  ok : ∀ {s : State} {i : Nat} {g : Group}, s.group i = some g → P s → Ok i g.ctl.livem g.ctl.exm
  put : ∀ {s : State}, P s → ∀ {i : Nat} {g : Group}, Ok i g.ctl.livem g.ctl.exm → P (s.setGroup i g)
  map : ∀ {s : State}, P s → ∀ {f : Nat × Group → Group}, (∀ p, Ok p.1 p.2.ctl.livem p.2.ctl.exm → Ok p.1 (f p).ctl.livem (f p).ctl.exm) →
    P { s with groups := s.groups.map (fun p => (p.1, f p)) }
  drop : ∀ {s : State}, P s → ∀ (i : Nat), P (s.dropGroup i)
  filter : ∀ {s : State}, P s → ∀ (q : Nat × Group → Bool), P { s with groups := s.groups.filter q }
  less : ∀ {i : Nat} {l e l' e' : Word}, Ok i l e → l' &&& ~~~l = 0 → (e &&& ~~~l = 0 → e' &&& ~~~l' = 0) → Ok i l' e'
  keys : ∀ {s : State}, P s → Sparse.sorted s.groups = true ∨ ∀ i l e, Ok i l e

/-! ### Lists of groups, and the lanes of their groups -/

theorem sorted_map {α β : Type} (f : Nat × α → β) {m : List (Nat × α)} (h : Sparse.sorted m = true) :
    Sparse.sorted (m.map (fun p => (p.1, f p))) = true := by
  induction m with
  | nil => rfl
  | cons p m ih =>
    obtain ⟨hp, hm⟩ := Sparse.sorted_cons.mp h
    refine Sparse.sorted_cons.mpr ⟨fun q hq => ?_, ih hm⟩
    obtain ⟨r, hr, rfl⟩ := List.mem_map.mp hq
    exact hp r hr

theorem sorted_filter {α : Type} (q : Nat × α → Bool) {m : List (Nat × α)} (h : Sparse.sorted m = true) :
    Sparse.sorted (m.filter q) = true := by
  induction m with
  | nil => rfl
  | cons p m ih =>
    obtain ⟨hp, hm⟩ := Sparse.sorted_cons.mp h
    rw [List.filter_cons]
    split
    · exact Sparse.sorted_cons.mpr ⟨fun r hr => hp r (List.mem_of_mem_filter hr), ih hm⟩
    · exact ih hm

theorem find_of_mem {α : Type} {m : List (Nat × α)} {k : Nat} {v : α} (hs : Sparse.sorted m = true) (h : (k, v) ∈ m) :
    Sparse.find m k = some v := by
  induction m with
  | nil => cases h
  | cons p m ih =>
    obtain ⟨hp, hm⟩ := Sparse.sorted_cons.mp hs
    unfold Sparse.find
    rcases List.mem_cons.mp h with rfl | h
    · simp
    · rw [if_neg (Nat.ne_of_lt (hp _ h))]
      exact ih hm h

/-- A subset of a subset, of lanes. -/
theorem and_not_trans {a b c : Word} (h : a &&& ~~~b = 0) (h' : b &&& ~~~c = 0) : a &&& ~~~c = 0 := by
  ext j hj
  have h1 := congrArg (fun w : Word => w[j]) h
  have h2 := congrArg (fun w : Word => w[j]) h'
  simp at h1 h2 ⊢
  exact fun ha => h2 (h1 ha)

/-- The lanes of a group as against those that it had in an earlier state: LIVEM names no new one, and EXM lies within LIVEM if it did. -/
def Fewer (s : State) (i : Nat) (l e : Word) : Prop :=
  ∃ g, (i, g) ∈ s.groups ∧ l &&& ~~~g.ctl.livem = 0 ∧ (g.ctl.exm &&& ~~~g.ctl.livem = 0 → e &&& ~~~l = 0)

/-- Since a state no lane has come back to a group. -/
def lanesSince (s₀ : State) : Inv where
  P s := Sparse.sorted s.groups = true ∧ ∀ p ∈ s.groups, Fewer s₀ p.1 p.2.ctl.livem p.2.ctl.exm
  Ok := Fewer s₀
  rest h _ hg _ := by rwa [hg]
  node h _ _ _ := h
  nodes h _ _ := h
  write h _ _ := h
  ok hg h := h.2 _ (mem_of_find hg)
  put h _ _ hok := ⟨Sparse.sorted_put _ _ _ h.1, fun p hp => (Sparse.mem_put hp).elim (fun e => e ▸ hok) (h.2 p)⟩
  map h f hf := by
    refine ⟨sorted_map f h.1, fun p hp => ?_⟩
    obtain ⟨q, hq, rfl⟩ := List.mem_map.mp hp
    exact hf q (h.2 q hq)
  drop h _ := ⟨Sparse.sorted_del _ _ h.1, fun p hp => h.2 p (Sparse.mem_del hp)⟩
  filter h q := ⟨sorted_filter q h.1, fun p hp => h.2 p (List.mem_of_mem_filter hp)⟩
  less h hl he := by
    obtain ⟨g, hg, hlg, heg⟩ := h
    exact ⟨g, hg, and_not_trans hl hlg, fun h => he (heg h)⟩
  keys h := .inl h.1

theorem lanesSince_self {s : State} (h : Sparse.sorted s.groups = true) : (lanesSince s).P s :=
  ⟨h, fun p hp => ⟨p.2, hp, BitVec.and_not_self _, id⟩⟩


namespace Inv

variable (I : Inv)

/-- The property of the state of a result. -/
def R : Res → Prop
  | .next t => I.P t
  | _ => True

variable {I}

theorem ok_livem {i : Nat} {l e : Word} (hok : I.Ok i l e) : I.Ok i l l := I.less hok (BitVec.and_not_self l) fun _ => BitVec.and_not_self l

theorem ok_and_livem {i : Nat} {l e : Word} (hok : I.Ok i l e) (x : Word) : I.Ok i l (x &&& l) :=
  I.less hok (BitVec.and_not_self l) fun _ => by rw [BitVec.and_assoc, BitVec.and_not_self]; exact BitVec.and_zero

/-- Lanes that leave, in LIVEM and in EXM. -/
theorem ok_leave {i : Nat} {l e : Word} (hok : I.Ok i l e) (x : Word) : I.Ok i (l &&& ~~~x) (e &&& ~~~x) := by
  refine I.less hok (by ext j; simp; exact fun h _ => h) fun h => ?_
  ext j hj
  have := congrArg (fun w : Word => w[j]) h
  simp at this ⊢
  exact fun he hx => ⟨this he, hx⟩

/-- Fewer active lanes. -/
theorem ok_fewer {i : Nat} {l e e' : Word} (hok : I.Ok i l e) (hsub : ∀ L, L < 32 → e'.getLsbD L = true → e.getLsbD L = true) : I.Ok i l e' := by
  refine I.less hok (BitVec.and_not_self l) fun h => ?_
  ext j hj
  have hl := congrArg (fun w : Word => w[j]) h
  have he := hsub j hj
  simp [BitVec.getLsbD_eq_getElem hj] at hl he ⊢
  exact fun h' => hl (he h')

theorem ite_keeps {c : Prop} {_ : Decidable c} {t u : State} (ht : I.P t) (hu : I.P u) : I.P (if c then t else u) := by
  split
  · exact ht
  · exact hu

@[simp] theorem R_next {t : State} : I.R (.next t) ↔ I.P t := Iff.rfl

variable {s : State} (hs : I.P s)

include hs

/-- The lanes of a group that is there are in order. -/
theorem oks {i : Nat} {g : Group} (hg : s.group i = some g) : I.Ok i g.ctl.livem g.ctl.exm := I.ok hg hs

theorem setGroup_keeps {i : Nat} {g : Group} (hok : I.Ok i g.ctl.livem g.ctl.exm) : I.P (s.setGroup i g) := I.put hs hok

theorem modGroup_less (i : Nat) {f : Group → Group}
    (hf : ∀ g, I.Ok i g.ctl.livem g.ctl.exm → I.Ok i (f g).ctl.livem (f g).ctl.exm) : I.P (s.modGroup i f) := by
  unfold State.modGroup
  split
  · exact hs
  · exact I.put hs (hf _ (I.ok ‹_› hs))

theorem modGroup_keeps (i : Nat) {f : Group → Group} (hf : ∀ g, (f g).ctl.livem = g.ctl.livem ∧ (f g).ctl.exm = g.ctl.exm) : I.P (s.modGroup i f) :=
  modGroup_less hs i fun g hok => by rwa [(hf g).1, (hf g).2]

theorem dropGroup_keeps (i : Nat) : I.P (s.dropGroup i) := I.drop hs i

theorem mapGroups_keeps {f : Nat → Group → Group} (hl : ∀ i g, (f i g).ctl.livem = g.ctl.livem) (he : ∀ i g, (f i g).ctl.exm = g.ctl.exm) :
    I.P (s.mapGroups f) := I.map hs fun p hok => by rwa [hl, he]

theorem setNode_keeps {n : Nat} {x : Node} (hx : waitIds x.waits ⊆ waitIds (s.node n).waits) : I.P (s.setNode n x) := I.node hs hx

theorem modNode_fewer (n : Nat) {f : Node → Node} (hf : ∀ x, waitIds (f x).waits ⊆ waitIds x.waits) : I.P (s.modNode n f) := I.node hs (hf _)

theorem modNode_keeps (n : Nat) {f : Node → Node} (hf : ∀ x, (f x).waits = x.waits) : I.P (s.modNode n f) :=
  modNode_fewer hs n fun x => by rw [hf]; exact List.Subset.refl _

theorem mapNodes_keeps {f : Node → Node} (hf : ∀ x, waitIds (f x).waits ⊆ waitIds x.waits) : I.P (s.mapNodes f) := I.nodes hs hf

section fields

variable {own : Own} {power : Bool} {clock : Dword} {blocks : List (Nat × Block)} {grids : List (Nat × Grid)} {l2 : List (Nat × List TlbLine)}
  {accs : List Access} {cmds : List Cmd} {mops : List MatOp} {conts : List Cont} {rets : List Ret} {lands : List Landing} {invals : List Inval}
  {dist : Dist} {fld : Fld} {fab : Fab} {mgmt : Mgmt} {dram : Dram}

/-- A state that differs elsewhere. -/
theorem mk_keeps :
    I.P ⟨own, power, clock, s.mem, s.groups, blocks, grids, s.nodes, l2, accs, cmds, mops, conts, rets, lands, invals, dist, fld, fab, mgmt, dram⟩ :=
  I.rest hs rfl rfl rfl

/-- A state that differs elsewhere, and in groups whose lanes are in order. -/
theorem mkMap_keeps {f : Nat × Group → Group} (hf : ∀ p, I.Ok p.1 p.2.ctl.livem p.2.ctl.exm → I.Ok p.1 (f p).ctl.livem (f p).ctl.exm) :
    I.P ⟨own, power, clock, s.mem, s.groups.map (fun p => (p.1, f p)), blocks, grids, s.nodes, l2, accs, cmds, mops, conts, rets, lands, invals, dist, fld, fab, mgmt, dram⟩ :=
  I.rest (I.map hs hf) rfl rfl rfl

/-- A state that differs elsewhere, and that some groups have left. -/
theorem mkFilter_keeps (q : Nat × Group → Bool) :
    I.P ⟨own, power, clock, s.mem, s.groups.filter q, blocks, grids, s.nodes, l2, accs, cmds, mops, conts, rets, lands, invals, dist, fld, fab, mgmt, dram⟩ :=
  I.rest (I.filter hs q) rfl rfl rfl

/-- A state that differs elsewhere, and in bytes that are written. -/
theorem mkWrite_keeps (k : Nat) (bs : List Byte) :
    I.P ⟨own, power, clock, Mem.wrBytes s.mem k bs, s.groups, blocks, grids, s.nodes, l2, accs, cmds, mops, conts, rets, lands, invals, dist, fld, fab, mgmt, dram⟩ :=
  I.rest (I.write hs k bs) rfl rfl rfl

end fields

theorem setBlock_keeps (k : Nat) (x : Block) : I.P (s.setBlock k x) := I.rest hs rfl rfl rfl

theorem modBlock_keeps (k : Nat) (f : Block → Block) : I.P (s.modBlock k f) := by
  unfold State.modBlock
  split
  · exact hs
  · exact setBlock_keeps hs _ _

theorem setGrid_keeps (k : Nat) (x : Grid) : I.P (s.setGrid k x) := I.rest hs rfl rfl rfl

theorem modGrid_keeps (k : Nat) (f : Grid → Grid) : I.P (s.modGrid k f) := by
  unfold State.modGrid
  split
  · exact hs
  · exact setGrid_keeps hs _ _

theorem foldl_keeps {α : Type} {f : State → α → State} (hf : ∀ t a, I.P t → I.P (f t a)) (l : List α) : I.P (l.foldl f s) := by
  induction l generalizing s with
  | nil => exact hs
  | cons a l ih => exact ih (hf s a hs)

end Inv

@[simp] theorem past_livem (g : Group) (n : Nat) : (g.past n).ctl.livem = g.ctl.livem := rfl
@[simp] theorem push_livem (g : Group) (k : SKind) (m : Word) (pc : Dword) (t : BitVec 24) : (g.push k m pc t).ctl.livem = g.ctl.livem := rfl
@[simp] theorem push_exm (g : Group) (k : SKind) (m : Word) (pc : Dword) (t : BitVec 24) : (g.push k m pc t).ctl.exm = g.ctl.exm := rfl
@[simp] theorem past_exm (g : Group) (n : Nat) : (g.past n).ctl.exm = g.ctl.exm := rfl

end Sys2Proof.Proofs
end

section
/-! What is kept by groups, blocks, nodes and their schedulers: one lemma per operation of the model. -/

namespace Sys2Proof.Proofs.Inv

open Sys2Proof Sys2Proof.Machine Sys2Proof.Claims

variable {I : Inv} {s : State} (hs : I.P s)

include hs

theorem newId_keeps  : I.P (s.newId) := by
  unfold State.newId
  exact I.rest hs rfl rfl rfl

theorem newSeq_keeps  : I.P (s.newSeq) := by
  unfold State.newSeq
  exact I.rest hs rfl rfl rfl

theorem emit_keeps (e : Effect) : I.P (s.emit e) := by
  unfold State.emit
  exact I.rest hs rfl rfl rfl

theorem count_keeps (k : Nat) : I.P (s.count k) := by
  unfold State.count
  exact I.rest hs rfl rfl rfl

theorem rouse_keeps (n : Nat) (bits : Word) : I.P (s.rouse n bits) := by
  unfold State.rouse
  repeat' split
  all_goals simp [*, modNode_keeps]

theorem wake_keeps (n : Nat) : I.P (s.wake n) := by
  unfold State.wake
  simp [modNode_keeps, hs]

theorem gate_keeps (n : Nat) : I.P (s.gate n) := by
  unfold State.gate
  repeat' split
  all_goals simp [*, modNode_keeps]

theorem park_keeps (gid : Nat) (h : Hold) : I.P (s.park gid h) := by
  unfold State.park
  exact modGroup_keeps hs _ (by exact fun _ => ⟨rfl, rfl⟩)

theorem stall_keeps (gid : Nat) (h : Hold) : I.P (s.stall gid h) := by
  unfold State.stall
  repeat' split
  all_goals simp [*, gate_keeps, park_keeps]

theorem unpark_keeps (gid : Nat) (bits : Word) : I.P (s.unpark gid bits) := by
  grind [State.unpark, mk_keeps, setGroup_keeps, rouse_keeps, oks]

theorem jump_keeps (gid : Nat) (pc : Dword) : I.P (s.jump gid pc) := by
  unfold State.jump
  exact modGroup_keeps hs _ (by exact fun _ => ⟨rfl, rfl⟩)

theorem advance_keeps (gid : Nat) (n : Nat) : I.P (s.advance gid n) := by
  unfold State.advance
  exact modGroup_keeps hs _ (by exact fun _ => ⟨rfl, rfl⟩)

theorem logLine_keeps (b gid : Nat) (t : LineTag) (image : List Word) : I.P (s.logLine b gid t image) := by
  unfold State.logLine
  simp [modBlock_keeps, hs]

theorem unclean_keeps (b : Nat) : I.P (s.unclean b) := by
  unfold State.unclean
  simp [modBlock_keeps, hs]

theorem writeV_keeps (gid r : Nat) (vals : List (Nat × Word)) : I.P (s.writeV gid r vals) := by
  grind [State.writeV, mk_keeps, modGroup_keeps, logLine_keeps, Group.putV_ctl, oks]

theorem writeS_keeps (gid r : Nat) (x : Word) : I.P (s.writeS gid r x) := by
  unfold State.writeS
  exact modGroup_keeps hs _ (by exact fun _ => ⟨rfl, rfl⟩)

theorem endVisitor_keeps (gid code reason : Nat) (addr : Dword) : I.P (s.endVisitor gid code reason addr) := by
  grind [State.endVisitor, mk_keeps, dropGroup_keeps, newId_keeps, oks]

theorem reapBlock_keeps (k : Nat) : I.P (s.reapBlock k) := by
  grind [State.reapBlock, mk_keeps, modNode_keeps, oks]

theorem reap_keeps  : I.P (s.reap) := by
  unfold State.reap
  refine foldl_keeps hs (fun s a hs => ?_) _
  simp [*, reapBlock_keeps]

theorem unhold_keeps (mine : Nat → Bool) : I.P (s.unhold mine) := by
  unfold State.unhold
  exact I.rest hs rfl rfl rfl

theorem dropHeld_keeps (mine : Nat → Bool) : I.P (s.dropHeld mine) := by
  unfold State.dropHeld
  exact I.rest hs rfl rfl rfl

theorem releaseHeld_keeps (blk : Nat) : I.P (s.releaseHeld blk) := by
  unfold State.releaseHeld
  repeat' split
  all_goals simp [*, unhold_keeps]

/-- The groups of an ended block leave, and the waits of a terminated one. -/
theorem endBlock_keeps (k : Nat) (cause : Option Nat) : I.P (s.endBlock k cause) := by
  unfold State.endBlock
  split
  · exact hs
  · rename_i b _
    refine reap_keeps (modGrid_keeps ?_ _ _)
    have hnode : I.P (s.modNode b.core fun n => { n with holders := n.holders.filter (fun h => h.2 ≠ k) }) :=
      modNode_fewer hs _ fun x => List.Subset.refl _
    have hblock (x : Block) := setBlock_keeps hnode k x
    cases cause with
    | none => exact mkFilter_keeps (unhold_keeps (hblock _) _) _
    | some c =>
      have hwaits (x : Node) : waitIds (x.waits.filter fun w => !b.gids.contains w.gid) ⊆ waitIds x.waits :=
        List.map_subset _ (List.filter_subset_self _)
      exact mkFilter_keeps (mapNodes_keeps (dropHeld_keeps (hblock _) _)
        (f := fun n => { n with waits := n.waits.filter fun w => !b.gids.contains w.gid }) hwaits) _

theorem terminate_keeps (k cause : Nat) : I.P (s.terminate k cause) := by
  unfold State.terminate
  repeat' split
  all_goals simp [*, count_keeps, endBlock_keeps]

theorem endHalt_keeps (k : Nat) : I.P (s.endHalt k) := by
  unfold State.endHalt State.modBlock
  cases s.block k <;>
  · refine mkMap_keeps hs fun p hok => ?_
    dsimp only
    split <;> exact hok

theorem tryRetire_keeps (gid : Nat) : I.P (s.tryRetire gid) := by
  unfold State.tryRetire
  split
  · exact hs
  · split
    · exact hs
    · extract_lets _ _ t
      have ht : I.P t := I.rest (dropGroup_keeps hs gid) rfl rfl rfl
      split
      · exact ht
      · grind [setBlock_keeps, endHalt_keeps, modGrid_keeps, endBlock_keeps]

end Sys2Proof.Proofs.Inv
end

section
/-! What is kept by sectors, the homes of memory, the stack and traps: one lemma per operation of the model. -/

namespace Sys2Proof.Proofs.Inv

open Sys2Proof Sys2Proof.Machine Sys2Proof.Claims

variable {I : Inv} {s : State} (hs : I.P s)

include hs

theorem reach_keeps (il key : Nat) : I.P (s.reach il key) := by
  unfold State.reach
  repeat' split
  all_goals simp only [*, mk_keeps]

theorem countFixed_keeps (il sector : Nat) (p : BitVec 36) : I.P (s.countFixed il sector p) := by
  grind [State.countFixed, foldl_keeps, mk_keeps, count_keeps, oks]

theorem manage_keeps (bank : Nat) : I.P (s.manage bank) := by
  unfold State.manage
  exact I.rest hs rfl rfl rfl

theorem activate_keeps (il key : Nat) : I.P (s.activate il key) := by
  unfold State.activate
  split
  · dsimp only
    split
    · exact mk_keeps (manage_keeps hs _)
    · exact mk_keeps hs
  · exact hs

theorem foundBad_keeps (rank sector : Nat) : I.P (s.foundBad rank sector) := by
  unfold State.foundBad
  exact I.rest hs rfl rfl rfl

theorem encoded_keeps (sector : Nat) : I.P (s.encoded sector) := by
  unfold State.encoded
  exact I.rest hs rfl rfl rfl

theorem readAt_keeps (il key n : Nat) : I.P (s.readAt il key n).1 := by
  grind [State.readAt, reach_keeps, countFixed_keeps, activate_keeps, foundBad_keeps, oks]

/-- The answer of an entry keeps its identity. -/
theorem answerEntry_keeps (w : WaitEntry) : I.P (s.answerEntry w) := by
  unfold State.answerEntry
  refine mapNodes_keeps (readAt_keeps hs ..) fun x i hi => ?_
  obtain ⟨v', hv', rfl⟩ := List.mem_map.mp hi
  obtain ⟨v, hv, rfl⟩ := List.mem_map.mp hv'
  refine List.mem_map.mpr ⟨v, hv, ?_⟩
  split <;> rfl

theorem answerAll_keeps (p : WaitEntry → Bool) : I.P (s.answerAll p) := by
  unfold State.answerAll
  refine foldl_keeps hs (fun s a hs => ?_) _
  simp [*, answerEntry_keeps]

theorem answerWaits_keeps (key n : Nat) : I.P (s.answerWaits key n) := by
  unfold State.answerWaits
  simp [answerAll_keeps, hs]

theorem land_keeps (key : Nat) (bs : List Byte) (rel : Option (Nat × Nat)) : I.P (s.land key bs rel) := by
  unfold State.land
  exact answerWaits_keeps (mkWrite_keeps (newSeq_keeps hs) key bs) key bs.length

theorem mended_keeps (key n : Nat) : I.P (s.mended key n) := by
  unfold State.mended
  repeat' split
  all_goals simp only [*, mk_keeps]

theorem writeAt_keeps (il key : Nat) (bs : List Byte) (rel : Option (Nat × Nat)) : I.P (s.writeAt il key bs rel).1 := by
  have hreach := activate_keeps (reach_keeps hs il key) (s.scheme il key) key
  unfold State.writeAt
  split
  · exact land_keeps (mended_keeps hs ..) ..
  · dsimp only
    split
    · exact land_keeps (encoded_keeps hreach _) ..
    · split
      · exact land_keeps hreach ..
      · exact land_keeps (countFixed_keeps hreach ..) ..
      · exact land_keeps (mkWrite_keeps (encoded_keeps hreach _) ..) ..
      · exact count_keeps (foundBad_keeps hreach ..) _

theorem writeRun_keeps (il key : Nat) (bs : List Byte) : I.P (s.writeRun il key bs) := by
  unfold State.writeRun
  refine foldl_keeps hs (fun s a hs => ?_) _
  simp [*, writeAt_keeps]

/-- A fold of steps that carry a value along. -/
theorem foldlPair_keeps {α β : Type} {f : State × β → α → State × β} (hf : ∀ r a, I.P r.1 → I.P (f r a).1) (l : List α) (b : β) :
    I.P (l.foldl f (s, b)).1 := by
  induction l generalizing s b with
  | nil => exact hs
  | cons a l ih => exact ih (hf (s, b) a hs) _

theorem readRun_keeps (il key n : Nat) : I.P (s.readRun il key n).1 := by
  unfold State.readRun
  refine foldlPair_keeps hs (fun r p hr => ?_) _ _
  exact readAt_keeps hr il (key + p.1) p.2

theorem writeStack_keeps (key : Nat) (bs : List Byte) : I.P (s.writeStack key bs) := by
  unfold State.writeStack State.mended
  split
  · split <;> exact mkWrite_keeps hs key bs
  · exact writeRun_keeps hs ..

theorem spill_keeps (old : Nat) (g : Group) : I.P (s.spill old g) := by
  unfold State.spill
  repeat' split
  all_goals simp +contextual [*, foldl_keeps, writeStack_keeps]

theorem pushed_keeps {gid old : Nat} {g : Group} (hok : I.Ok gid g.ctl.livem g.ctl.exm) : I.P (s.pushed gid old g) :=
  setGroup_keeps (spill_keeps hs old g) hok

theorem unspill_keeps (g : Group) (st : List Entry) : I.P (s.unspill g st) := by
  unfold State.unspill
  repeat' split
  all_goals simp [*, readAt_keeps]

theorem broadcastHalt_keeps (gid : Nat) (g : Group) : I.P (s.broadcastHalt gid g) := by
  refine mkMap_keeps hs fun p hok => ?_
  dsimp only
  split <;> exact hok

/-- At a trap every live lane becomes active; a terminated block's groups leave. -/
theorem takeTrap_keeps (gid : Nat) (c : Nat) (lanes : Word) (addr aux p : Dword) : I.P (s.takeTrap gid c lanes addr aux p) := by
  unfold State.takeTrap
  split
  · exact hs
  · have hok := oks hs ‹_›
    have hcount : I.P (if c = 33 then s.count hcSdc else s) := by
      split
      · exact count_keeps hs _
      · exact hs
    split
    · exact endVisitor_keeps hs ..
    · dsimp only
      generalize (if c = 33 then s.count hcSdc else s) = t at hcount ⊢
      split
      · exact terminate_keeps (setGroup_keeps hcount (by exact hok)) ..
      · have hspill (old : Nat) (g : Group) := spill_keeps hcount old g
        split
        · exact terminate_keeps (setGroup_keeps (hspill ..) (by exact ok_livem hok)) ..
        · split
          · exact terminate_keeps (setGroup_keeps (hspill ..) (by exact ok_livem hok)) ..
          · have hset {old : Nat} {g g' : Group} (h : I.Ok gid g'.ctl.livem g'.ctl.exm) := setGroup_keeps (hspill old g) h
            split
            · exact hset (by exact ok_livem hok)
            · split
              · exact hset (by exact ok_livem hok)
              · exact broadcastHalt_keeps (setBlock_keeps (hset (by exact ok_livem hok)) ..) ..

theorem trapTo_keeps (gid : Nat) (c : Cause) (lanes : Word) (addr aux p : Dword) : I.P (s.trapTo gid c lanes addr aux p) := by
  unfold State.trapTo
  repeat' split
  all_goals simp [*, setGroup_keeps, modGroup_keeps, takeTrap_keeps, oks hs]

theorem trap_keeps (gid : Nat) (c : Cause) (lanes : Word) (addr aux : Dword) : I.P (s.trap gid c lanes addr aux) := by
  unfold State.trap
  repeat' split
  all_goals simp [*, trapTo_keeps]

theorem trapPlain_keeps (gid : Nat) (c : Cause) (aux : Dword) : I.P (s.trapPlain gid c aux) := by
  unfold State.trapPlain
  repeat' split
  all_goals simp [*, trap_keeps]

theorem consume_keeps (gid : Nat) : I.P (s.consume gid) := by
  unfold State.consume
  repeat' split
  all_goals simp [*, modBlock_keeps, endVisitor_keeps]

theorem consumeBlock_keeps (bid : Nat) : I.P (s.consumeBlock bid) := by
  unfold State.consumeBlock
  simp [modBlock_keeps, hs]

theorem popping_keeps {gid : Nat} {g : Group} {st : List Entry} {k : State → List Entry → State} (hk : ∀ t st, I.P t → I.P (k t st)) :
    I.P (s.popping gid g st k) := by
  unfold State.popping
  split
  · exact consume_keeps (unspill_keeps hs ..) _
  · exact hk _ _ (unspill_keeps hs ..)

theorem popTrap_keeps {gid : Nat} {g : Group} {e : Entry} {rest : List Entry} (hok : I.Ok gid g.ctl.livem g.ctl.exm) :
    I.P (s.popTrap gid g e rest) := by
  unfold State.popTrap
  refine popping_keeps hs fun t st ht => ?_
  have hset {g' : Group} (h : I.Ok gid g'.ctl.livem g'.ctl.exm) := setGroup_keeps ht h
  dsimp only
  split
  · exact hset (by exact ok_and_livem hok _)
  · split
    · exact endHalt_keeps (hset (by exact ok_and_livem hok _)) _
    · exact hset (by exact ok_and_livem hok _)

end Sys2Proof.Proofs.Inv
end

section
/-! What is kept by operands, wait tables and results that land: one lemma per operation of the model. -/

namespace Sys2Proof.Proofs.Inv

open Sys2Proof Sys2Proof.Machine Sys2Proof.Claims

variable {I : Inv} {s : State} (hs : I.P s)

include hs

theorem putDst_keeps (gid : Nat) (x : BitVec 8) (v : Word) : I.P (s.putDst gid x v) := by
  unfold State.putDst
  split
  · exact modGroup_less hs gid fun g hok => ok_and_livem hok v
  · split
    · exact writeS_keeps hs ..
    · exact hs

theorem putPair_keeps (gid : Nat) (x : BitVec 8) (v : Dword) : I.P (s.putPair gid x v) := by
  unfold State.putPair
  simp [writeS_keeps, hs]

theorem issueHold_keeps {w : Named → Hold} {r : Row} {f : Fields} {k : Nat → Group → Res}
    (hk : ∀ g, s.group s.own.cur = some g → I.R (k s.own.cur g)) : I.R (issueHold w r f s k) := by
  unfold issueHold
  dsimp only
  split
  · exact hs
  · rename_i g hg
    repeat' split
    · exact trapPlain_keeps hs ..
    · exact trapPlain_keeps hs ..
    · exact trapPlain_keeps hs ..
    · exact stall_keeps hs ..
    · exact consume_keeps hs _
    · exact hk g hg

theorem issue_keeps {r : Row} {f : Fields} {k : Nat → Group → Res} (hk : ∀ g, s.group s.own.cur = some g → I.R (k s.own.cur g)) :
    I.R (issue r f s k) := issueHold_keeps hs hk

theorem illop14_keeps (gid : Nat) (code : Nat) : I.R (s.illop14 gid code) := by
  unfold State.illop14
  simp [trapPlain_keeps, hs]

theorem notVisitor_keeps (gid : Nat) (g : Group) {k : Res} (hk : I.R k) : I.R (notVisitor s gid g k) := by
  unfold notVisitor
  split
  · exact illop14_keeps hs ..
  · exact hk

theorem putW_keeps (gid : Nat) (g : Group) (r : Nat) (v : Nat → Word) : I.P (s.putW gid g r v) := by
  unfold State.putW
  simp [writeV_keeps, hs]

theorem putW2_keeps (gid : Nat) (g : Group) (r : Nat) (v : Nat → Dword) : I.P (s.putW2 gid g r v) := by
  unfold State.putW2
  simp [putW_keeps, hs]

theorem logBytes_keeps (blk gid key n : Nat) : I.P (s.logBytes blk gid key n) := by
  grind [State.logBytes, foldl_keeps, logLine_keeps, oks]

theorem fillTlb_keeps (node : Nat) (t : TlbLine) : I.P (s.fillTlb node t) := by
  grind [State.fillTlb, mk_keeps, modNode_keeps, oks]

theorem walked_keeps (node : Nat) (c : BitVec 8) (va : Dword) : I.P (s.walked node c va) := by
  grind [State.walked, foldl_keeps, readAt_keeps, fillTlb_keeps, oks]

theorem lookUp_keeps (node : Nat) (c : BitVec 8) (va : Dword) : I.P (s.lookUp node c va) := by
  unfold State.lookUp
  repeat' split
  all_goals simp [*, fillTlb_keeps, walked_keeps]

theorem lookUps_keeps (g : Group) (vas : List Dword) : I.P (s.lookUps g vas) := by
  unfold State.lookUps
  refine foldl_keeps hs (fun s a hs => ?_) _
  simp [*, lookUp_keeps]

theorem fetched_keeps (g : Group) (pc : Dword) : I.P (s.fetched g pc) := by
  grind [State.fetched, readAt_keeps, lookUp_keeps, oks]

theorem foundIn_keeps (key n : Nat) : I.P (s.foundIn key n) := by
  unfold State.foundIn
  repeat' split
  all_goals simp [*, writeAt_keeps]

theorem imageV_keeps (record r : Nat) (vals : List (Nat × Word)) (full : Bool) : I.P (s.imageV record r vals full) := by
  unfold State.imageV
  extract_lets base fb place t lanes p after
  have ht : I.P t := foldl_keeps hs (fun t p ht => writeRun_keeps ht ..) vals
  split
  · exact foundIn_keeps hs ..
  · split
    · exact hs
    · split
      · split
        · exact writeRun_keeps ht ..
        · exact ht
      · split
        · exact foundIn_keeps hs ..
        · exact writeRun_keeps (writeRun_keeps hs ..) ..

theorem imageS_keeps (record r : Nat) (x : Word) (full : Bool) : I.P (s.imageS record r x full) := by
  unfold State.imageS
  repeat' split
  all_goals simp [*, writeRun_keeps]

theorem deliverV_keeps (gid r : Nat) (vals : List (Nat × Word)) (full : Bool) (why : Word) : I.P (s.deliverV gid r vals full why) := by
  grind [State.deliverV, modGroup_keeps, unpark_keeps, writeV_keeps, imageV_keeps, Group.markV_ctl, oks]

theorem deliverS_keeps (gid r : Nat) (x : Word) (full : Bool) (why : Word) : I.P (s.deliverS gid r x full why) := by
  grind [State.deliverS, modGroup_keeps, unpark_keeps, putDst_keeps, imageS_keeps, Group.markS_ctl, oks]

theorem markEmpty_keeps (gid : Nat) (vec : Bool) (dst n : Nat) : I.P (s.markEmpty gid vec dst n) := by
  have hctl (g : Group) : ((List.range n).foldl (fun g i => if vec then g.markV (dst + i) true else g.markS (dst + i) true) g).ctl = g.ctl := by
    generalize List.range n = l
    induction l generalizing g with
    | nil => rfl
    | cons i l ih =>
      rw [List.foldl_cons, ih]
      split
      · exact Group.markV_ctl ..
      · exact Group.markS_ctl ..
  exact modGroup_keeps hs gid fun g => by rw [hctl]; exact ⟨rfl, rfl⟩

theorem later_keeps (gid : Nat) (vec : Bool) (dst : Nat) (vals : List (Nat × Word)) : I.P (s.later gid vec dst vals) := by
  grind [State.later, mk_keeps, newId_keeps, markEmpty_keeps, oks]

theorem landResult_keeps (id : Nat) : I.P (s.landResult id) := by
  grind [State.landResult, foldl_keeps, mk_keeps, tryRetire_keeps, deliverV_keeps, deliverS_keeps, oks]

theorem fillV_keeps (gid r : Nat) : I.P (s.fillV gid r) := by
  unfold State.fillV
  simp [deliverV_keeps, hs]

theorem raise_keeps (gid : Nat) (t : Imprecise) : I.P (s.raise gid t) := by
  grind [State.raise, mk_keeps, setGroup_keeps, rouse_keeps, endVisitor_keeps, oks]

theorem setRekey_keeps  : I.P (s.setRekey) := by
  unfold State.setRekey
  exact I.rest hs rfl rfl rfl

theorem setPort_keeps (p : Nat) (x : Port) : I.P (s.setPort p x) := by
  unfold State.setPort
  exact I.rest hs rfl rfl rfl

theorem flush_keeps  : I.P (s.flush) := by
  grind [State.flush, foldl_keeps, mk_keeps, emit_keeps, oks]

theorem roomForCtx_keeps  : I.P (s.roomForCtx) := by
  grind [State.roomForCtx, foldl_keeps, mk_keeps, oks]

theorem openCtx_keeps (peer cls : Nat) : I.P (s.openCtx peer cls) := by
  unfold State.openCtx
  repeat' split
  all_goals simp only [*, mk_keeps, roomForCtx_keeps]

theorem letIn_keeps (peer cls : Nat) (p : Packet) (why : Purpose) : I.P (s.letIn peer cls p why) := by
  grind [State.letIn, mk_keeps, emit_keeps, setRekey_keeps, openCtx_keeps, oks]

theorem closeCtx_keeps (c : SendCtx) : I.P (s.closeCtx c) := by
  grind [State.closeCtx, foldl_keeps, mk_keeps, letIn_keeps, oks]

theorem enqueue_keeps (peer cls : Nat) (p : Packet) (why : Purpose) : I.P (s.enqueue peer cls p why) := by
  unfold State.enqueue
  repeat' split
  all_goals simp [*, letIn_keeps, closeCtx_keeps]

theorem newMsg_keeps  : I.P (s.newMsg) := by
  unfold State.newMsg
  exact I.rest hs rfl rfl rfl

theorem request_keeps (c : BitVec 8) (peer typ len : Nat) (b : PBody) (why : Purpose) : I.P (s.request c peer typ len b why) := by
  grind [State.request, flush_keeps, enqueue_keeps, newMsg_keeps, oks]

theorem ackPacket_keeps (p : Packet) (status : Nat) : I.P (s.ackPacket p status) := by
  grind [State.ackPacket, mk_keeps, emit_keeps, oks]

theorem closeLines_keeps (n : Nat) (p : WcLine → Bool) : I.P (s.closeLines n p) := by
  unfold State.closeLines
  repeat' split
  all_goals simp [*, modNode_keeps]

theorem drain_keeps (n : Nat) : I.P (s.drain n) := by
  unfold State.drain
  refine foldl_keeps hs (fun s a hs => ?_) _
  repeat' split
  all_goals simp [*, modNode_keeps, request_keeps]

theorem combine_keeps (n gid id : Nat) (c : BitVec 8) (peer addr : Nat) (bs : List Byte) : I.P (s.combine n gid id c peer addr bs) := by
  unfold State.combine
  refine foldl_keeps hs (fun t p ht => ?_) _
  dsimp only
  split
  · exact modNode_keeps ht _ (by exact fun _ => rfl)
  · exact modNode_keeps (modNode_keeps (newId_keeps ht) _ (by exact fun _ => rfl)) _ (by exact fun _ => rfl)

end Sys2Proof.Proofs.Inv
end

section
/-! What is kept by translation, packets that are sent, and the parts of an access: one lemma per operation of the model. -/

namespace Sys2Proof.Proofs.Inv

open Sys2Proof Sys2Proof.Machine Sys2Proof.Claims

variable {I : Inv} {s : State} (hs : I.P s)

include hs

theorem raiseNow_keeps (gid : Nat) (g : Group) (once : Bool) (r : Raise) : I.R (s.raiseNow gid g once r) := by
  unfold State.raiseNow
  repeat' split
  all_goals simp [*, trap_keeps, consume_keeps]

theorem addPoint_keeps (node gid id : Nat) : I.P (s.addPoint node gid id) := by
  unfold State.addPoint
  exact I.rest hs rfl rfl rfl

theorem pointHere_keeps (gid : Nat) : I.P (s.pointHere gid) := by
  unfold State.pointHere
  repeat' split
  all_goals simp [*, newSeq_keeps, addPoint_keeps]

theorem fenced_keeps (gid scope : Nat) : I.P (s.fenced gid scope) := by
  unfold State.fenced
  repeat' split
  all_goals simp [*, modGroup_keeps, pointHere_keeps]

theorem seeStore_keeps (req part : Nat) : I.P (s.seeStore req part) := by
  grind [State.seeStore, mk_keeps, newSeq_keeps, addPoint_keeps, oks]

theorem addDeps_keeps (gid id : Nat) (l : List Nat) : I.P (s.addDeps gid id l) := by
  unfold State.addDeps
  repeat' split
  all_goals simp only [*, mk_keeps]

theorem storeFail_keeps (gid : Nat) (t : Imprecise) : I.P (s.storeFail gid t) := by
  unfold State.storeFail
  repeat' split
  · exact modGroup_keeps hs _ (by exact fun _ => ⟨rfl, rfl⟩)
  · exact modGrid_keeps hs ..
  · exact mk_keeps hs

theorem raiseStores_keeps (gid : Nat) (peer : Option Nat) : I.P (s.raiseStores gid peer) := by
  grind [State.raiseStores, foldl_keeps, mk_keeps, setGroup_keeps, raise_keeps, storeFail_keeps, oks]

theorem landAccess_keeps (a : Access) : I.P (s.landAccess a) := by
  unfold State.landAccess
  extract_lets s1 hurt bad full value s2 s3 s4
  clear_value hurt
  have h1 : I.P s1 := mk_keeps hs
  have h2 : I.P s2 := foldl_keeps h1 (fun t i ht => ite_keeps (deliverV_keeps ht ..) (ite_keeps (deliverS_keeps ht ..) ht)) _
  have h3 : I.P s3 := by
    unfold s3
    split
    · exact h2
    · exact ite_keeps (storeFail_keeps h2 ..) (raise_keeps h2 ..)
  exact tryRetire_keeps (ite_keeps (raiseStores_keeps h3 ..) h3) _

theorem partDone_keeps (a : Access) (p : Part) (data : List Byte) : I.P (s.partDone a p data) := by
  grind [State.partDone, foldl_keeps, mk_keeps, landAccess_keeps, oks]

theorem failPart_keeps (a : Access) (p : Part) (reason : Nat) : I.P (s.failPart a p reason) := by
  grind [State.failPart, mk_keeps, landAccess_keeps, oks]

theorem storeFault_keeps (gid peer reason : Nat) (addr : Dword) : I.P (s.storeFault gid peer reason addr) := by
  unfold State.storeFault
  simp [storeFail_keeps, hs]

theorem sendAs_keeps (a : Access) (p : Part) {f : State → State} (hf : ∀ t, I.P t → I.P (f t)) : I.P (s.sendAs a p f) := hf _ (mk_keeps hs)

theorem sendPart_keeps (a : Access) (p : Part) : I.P (s.sendPart a p) := by
  unfold State.sendPart
  split
  · refine ite_keeps hs ?_
    split
    · exact failPart_keeps hs ..
    · refine ite_keeps (ite_keeps (closeLines_keeps hs ..) (partDone_keeps (combine_keeps hs ..) ..)) ?_
      split
      · exact ite_keeps (closeLines_keeps hs ..) (sendAs_keeps hs a p fun t ht => enqueue_keeps (newMsg_keeps ht) ..)
      · exact ite_keeps hs (ite_keeps (closeLines_keeps hs ..) (sendAs_keeps hs a p fun t ht => request_keeps ht ..))
  · exact hs

theorem sendParts_keeps  : I.P (s.sendParts) := by
  grind [State.sendParts, foldl_keeps, sendPart_keeps, oks]

theorem endLine_keeps (core : Nat) (l : WcLine) (reason : Nat) : I.P (s.endLine core l reason) := by
  unfold State.endLine
  repeat' split
  all_goals simp +contextual [*, foldl_keeps, modNode_keeps, storeFault_keeps]

theorem failLines_keeps (core : Nat) : I.P (s.failLines core) := by
  unfold State.failLines
  refine foldl_keeps hs (fun s a hs => ?_) _
  repeat' split
  all_goals simp [*, endLine_keeps]

theorem drains_keeps  : I.P (s.drains) := by
  unfold State.drains
  refine foldl_keeps hs (fun s a hs => ?_) _
  simp [*, drain_keeps, failLines_keeps]

theorem pump_keeps  : I.P (s.pump) := by
  grind [State.pump, flush_keeps, sendParts_keeps, drains_keeps, oks]

theorem resume_keeps  : I.P (s.resume) := by
  unfold State.resume
  repeat' split
  all_goals simp [*, pump_keeps]

theorem lookedFor_keeps (a : Access) (parts : List Part) : I.P (lookedFor s a parts) := by
  refine foldl_keeps hs (fun t p ht => ?_) _
  split
  · exact lookUp_keeps ht ..
  · exact ht

theorem dispatched_keeps (a : Access) (id : Nat) (parts : List Part) : I.P (dispatched s a id parts) := by
  refine pump_keeps (foldl_keeps (foldl_keeps hs (fun t p ht => ?_) _) (fun t p ht => ?_) _)
  · split
    · exact ite_keeps ht (closeLines_keeps ht ..)
    · exact ht
  · split
    · exact failPart_keeps ht ..
    · exact ht

theorem startAccess_keeps (a : Access) (parts : List Part) : I.P (s.startAccess a parts) := by
  rw [startAccess_eq]
  exact dispatched_keeps (newId_keeps (mk_keeps (lookedFor_keeps hs ..))) ..

theorem clearRb_keeps (n : Nat) : I.P (s.clearRb n) := by
  unfold State.clearRb
  simp [modNode_keeps, hs]

theorem acquired_keeps (n scope : Nat) : I.P (s.acquired n scope) := by
  unfold State.acquired
  repeat' split
  all_goals simp [*, clearRb_keeps]

theorem remote_keeps (rmt : Bool) (node : Nat) (words : List (Nat × Nat)) : ∀ t ∈ s.remote rmt node words, I.P t := by
  unfold State.remote
  repeat' split
  all_goals simp [*]

theorem remotely_keeps (rmt : Bool) (node key len : Nat) {k : Res} (hk : I.R k) : I.R (remotely s rmt node key len k) := by
  unfold remotely State.remote
  split
  · rename_i t h
    split at h
    · cases h
      exact hs
    · cases h
  · exact hk

theorem drainHeld_keeps (g : Group) (scope : Nat) : I.P (s.drainHeld g scope) := by
  unfold State.drainHeld
  repeat' split
  all_goals simp [*, unclean_keeps, releaseHeld_keeps]

theorem beginRelease_keeps (gid : Nat) (g : Group) (scope : Nat) : I.P (s.beginRelease gid g scope) := by
  grind [State.beginRelease, closeLines_keeps, pump_keeps, drainHeld_keeps, oks]

theorem loadV_keeps (r : Row) (f : Fields) (u : Use) (rb w : Bool) (addr : State → Group → Nat → Dword) : I.R (loadV r f s u rb w addr) := by
  unfold loadV
  refine issue_keeps hs fun g _ => ?_
  dsimp only
  split
  · exact advance_keeps hs ..
  · split
    · exact raiseNow_keeps hs ..
    · exact advance_keeps (startAccess_keeps (markEmpty_keeps hs ..) ..) ..

theorem loadS_keeps (r : Row) (f : Fields) (bc : Bool) : I.R (loadS r f s bc) := by
  unfold loadS
  refine issue_keeps hs fun g _ => ?_
  dsimp only
  split
  · exact advance_keeps hs ..
  · split
    · exact raiseNow_keeps hs ..
    · exact advance_keeps (startAccess_keeps (markEmpty_keeps hs ..) ..) ..

theorem vld_keeps (f : Fields) : I.R (execVld f s) := by
  unfold execVld
  simp [loadV_keeps, hs]

theorem vldrb_keeps (f : Fields) : I.R (execVldrb f s) := by
  unfold execVldrb
  simp [loadV_keeps, hs]

theorem sld_keeps (f : Fields) : I.R (execSld f s) := by
  unfold execSld
  simp [loadS_keeps, hs]

theorem vldbc_keeps (f : Fields) : I.R (execVldbc f s) := by
  unfold execVldbc
  simp [loadS_keeps, hs]

theorem vldscr_keeps (f : Fields) : I.R (execVldscr f s) := by
  unfold execVldscr
  simp [loadV_keeps, hs]

theorem vldcw_keeps (f : Fields) : I.R (execVldcw f s) := by
  unfold execVldcw
  simp [loadV_keeps, hs]

theorem vldp_keeps (f : Fields) : I.R (execVldp f s) := by
  unfold execVldp
  simp [loadV_keeps, hs]

theorem storePieces_keeps (gid : Nat) (g : Group) (f : Fields) (l : List (Nat × List Piece)) (data : Nat → List Byte)
    (addr : Nat → Dword) (vec : Bool) : I.R (storePieces s gid g f l data addr vec) := by
  unfold storePieces
  split
  · exact hs
  · extract_lets rel scope pick later toPeer held rest contained lines oldest s1 peerRel s2 s3 s4 s5 dirty s6 parts _ a s7 s8
    have h1 : I.P s1 := ite_keeps (beginRelease_keeps hs ..) hs
    have h2 : I.P s2 := ite_keeps (closeLines_keeps h1 ..) h1
    have h3 : I.P s3 := ite_keeps (raiseStores_keeps h2 ..) h2
    have h4 : I.P s4 := lookUps_keeps h3 ..
    have h5 : I.P s5 := by
      refine foldl_keeps h4 (fun t x ht => foldl_keeps ht (fun t p ht => ?_) _) _
      split
      · split
        · exact combine_keeps ht ..
        · exact ite_keeps (storeFault_keeps ht ..) (raise_keeps ht ..)
      · exact ht
    have h6 : I.P s6 := ite_keeps (unclean_keeps h5 _) h5
    have h7 : I.P s7 := ite_keeps (pump_keeps h6) (startAccess_keeps h6 ..)
    have h8 : I.P s8 := ite_keeps (unclean_keeps (releaseHeld_keeps h7 _) _) h7
    split
    · exact stall_keeps (pump_keeps (closeLines_keeps hs ..)) ..
    · exact advance_keeps h8 ..

theorem storeV_keeps (r : Row) (f : Fields) (w : Bool) (addr : State → Group → Nat → Dword) : I.R (storeV r f s w addr) := by
  unfold storeV
  refine issue_keeps hs fun g _ => ?_
  split
  · exact advance_keeps hs ..
  · split
    · exact raiseNow_keeps hs ..
    · exact storePieces_keeps hs ..

theorem vst_keeps (f : Fields) : I.R (execVst f s) := by
  unfold execVst
  simp [storeV_keeps, hs]

theorem vstscr_keeps (f : Fields) : I.R (execVstscr f s) := by
  unfold execVstscr
  simp [storeV_keeps, hs]

theorem vstcw_keeps (f : Fields) : I.R (execVstcw f s) := by
  unfold execVstcw
  simp [storeV_keeps, hs]

theorem vstp_keeps (f : Fields) : I.R (execVstp f s) := by
  unfold execVstp
  simp [storeV_keeps, hs]

theorem sst_keeps (f : Fields) : I.R (execSst f s) := by
  grind [execSst, mk_keeps, issue_keeps, raiseNow_keeps, storePieces_keeps, oks]

theorem rbinv_keeps (f : Fields) : I.R (execRbinv f s) := by
  unfold execRbinv
  refine issue_keeps hs fun g hg => ?_
  have hok := oks hs hg
  simp [*, advance_keeps, clearRb_keeps]

theorem fillRb_keeps (n : Nat) (c : BitVec 8) (sector : Nat) (data : List Byte) : I.P (s.fillRb n c sector data) := by
  unfold State.fillRb
  simp [modNode_keeps, hs]

theorem vpref_keeps (f : Fields) : I.R (execVpref f s) := by
  unfold execVpref
  refine issue_keeps hs fun g _ => advance_keeps (foldl_keeps hs (fun t L ht => ?_) _) ..
  have hread (il key : Nat) := readAt_keeps (lookUps_keeps ht g [addrV t g f L]) il key 32
  split
  · split
    · refine ite_keeps ht ?_
      dsimp only
      split
      · exact hread ..
      · exact fillRb_keeps (hread ..) ..
    · exact ht
  · exact ht

theorem wcfl_keeps (f : Fields) : I.R (execWcfl f s) := by
  unfold execWcfl
  refine issue_keeps hs fun g hg => ?_
  have hok := oks hs hg
  dsimp only
  grind [advance_keeps, closeLines_keeps, pump_keeps, R_next, oks]

end Sys2Proof.Proofs.Inv
end

section
/-! What is kept by loads, stores, atomics, waits, and the scalar and vector instructions: one lemma per operation of the model. -/

namespace Sys2Proof.Proofs.Inv

open Sys2Proof Sys2Proof.Machine Sys2Proof.Claims

variable {I : Inv} {s : State} (hs : I.P s)

include hs

theorem beginAtomic_keeps (gid : Nat) (g : Group) (f : Fields) : I.P (s.beginAtomic gid g f) := by
  grind [State.beginAtomic, unclean_keeps, raiseStores_keeps, beginRelease_keeps, oks]

theorem atomicV_keeps (r : Row) (f : Fields) (wide cas : Bool) (ret : Bool) : I.R (atomicV r f s wide cas ret) := by
  unfold atomicV
  refine issue_keeps hs fun g hg => ?_
  have hok := oks hs hg
  dsimp only
  repeat' split
  all_goals grind [mk_keeps, advance_keeps, markEmpty_keeps, raiseNow_keeps, startAccess_keeps, beginAtomic_keeps, R_next, oks]

theorem atomicS_keeps (r : Row) (f : Fields) (cas : Bool) : I.R (atomicS r f s cas) := by
  unfold atomicS
  refine issue_keeps hs fun g hg => ?_
  have hok := oks hs hg
  dsimp only
  repeat' split
  all_goals grind [mk_keeps, advance_keeps, markEmpty_keeps, raiseNow_keeps, startAccess_keeps, beginAtomic_keeps, R_next, oks]

theorem vatom_keeps (f : Fields) : I.R (execVatom f s) := by
  unfold execVatom
  simp [atomicV_keeps, hs]

theorem vcas_keeps (f : Fields) : I.R (execVcas f s) := by
  unfold execVcas
  simp [atomicV_keeps, hs]

theorem vred_keeps (f : Fields) : I.R (execVred f s) := by
  unfold execVred
  simp [atomicV_keeps, hs]

theorem vatom64_keeps (f : Fields) : I.R (execVatom64 f s) := by
  unfold execVatom64
  simp [atomicV_keeps, hs]

theorem vcas64_keeps (f : Fields) : I.R (execVcas64 f s) := by
  unfold execVcas64
  simp [atomicV_keeps, hs]

theorem satom_keeps (f : Fields) : I.R (execSatom f s) := by
  unfold execSatom
  simp [atomicS_keeps, hs]

theorem scas_keeps (f : Fields) : I.R (execScas f s) := by
  unfold execScas
  simp [atomicS_keeps, hs]

theorem waitOn_keeps (r : Row) (f : Fields) (timeout : Option Nat) : I.R (waitOn r f s timeout) := by
  unfold waitOn
  refine issue_keeps hs fun g hg => ?_
  have hok := oks hs hg
  dsimp only
  repeat' split
  all_goals grind [mk_keeps, advance_keeps, markEmpty_keeps, raiseNow_keeps, startAccess_keeps, R_next, oks]

theorem wwait_keeps (f : Fields) : I.R (execWwait f s) := by
  unfold execWwait
  simp [waitOn_keeps, hs]

theorem wwaitt_keeps (f : Fields) : I.R (execWwaitt f s) := by
  unfold execWwaitt
  simp [waitOn_keeps, hs]

theorem wwake_keeps (f : Fields) : I.R (execWwake f s) := by
  unfold execWwake
  refine issue_keeps hs fun g hg => ?_
  have hok := oks hs hg
  dsimp only
  repeat' split
  all_goals grind [mk_keeps, advance_keeps, unclean_keeps, answerAll_keeps, lookUps_keeps, raiseNow_keeps, R_next, oks]

theorem wcancel_keeps (f : Fields) : I.R (execWcancel f s) := by
  unfold execWcancel
  refine issue_keeps hs fun g hg => ?_
  have hok := oks hs hg
  dsimp only
  repeat' split
  all_goals grind [advance_keeps, answerAll_keeps, lookUps_keeps, raiseNow_keeps, R_next, oks]

theorem faddt_keeps (f : Fields) : I.R (execFaddt f s) := by
  unfold execFaddt
  refine issue_keeps hs fun g hg => ?_
  have hok := oks hs hg
  dsimp only
  repeat' split
  all_goals grind [mk_keeps, advance_keeps, markEmpty_keeps, raiseNow_keeps, startAccess_keeps, beginAtomic_keeps, R_next, oks]

theorem sleep_keeps (f : Fields) : I.R (execSleep f s) := by
  unfold execSleep
  refine issue_keeps hs fun g hg => ?_
  have hok := oks hs hg
  dsimp only
  repeat' split
  all_goals simp [*, stall_keeps, advance_keeps]

theorem fence_keeps (f : Fields) : I.R (execFence f s) := by
  unfold execFence
  refine issue_keeps hs fun g hg => ?_
  have hok := oks hs hg
  dsimp only
  repeat' split
  all_goals grind [stall_keeps, advance_keeps, fenced_keeps, raiseStores_keeps, acquired_keeps, beginRelease_keeps, R_next, oks]

theorem fenceh_keeps (f : Fields) : I.R (execFenceh f s) := by
  unfold execFenceh
  refine issue_keeps hs fun g _ => ?_
  have hrel := beginRelease_keeps hs s.own.cur g 5
  dsimp only
  split
  · exact stall_keeps hrel ..
  · exact advance_keeps (fenced_keeps (clearRb_keeps (raiseStores_keeps hrel ..) _) ..) ..

theorem fencep_keeps (f : Fields) : I.R (execFencep f s) := by
  unfold execFencep
  refine issue_keeps hs fun g _ => ?_
  extract_lets peer t
  have ht : I.P t := pump_keeps (closeLines_keeps (drainHeld_keeps hs ..) ..)
  split
  · exact stall_keeps ht ..
  · exact advance_keeps (fenced_keeps (raiseStores_keeps ht ..) ..) ..

theorem readPieces_keeps (l : List (Nat × Nat × Nat × Dword)) : I.P (s.readPieces l).1 := by
  unfold State.readPieces
  refine foldlPair_keeps hs (fun r p hr => ?_) _ _
  exact readAt_keeps hr p.2.2.1 p.1 p.2.1

theorem writePieces_keeps (l : List (Nat × Nat × Nat × Dword)) (bs : List Byte) : I.P (s.writePieces l bs) := by
  unfold State.writePieces
  refine foldlPair_keeps hs (fun r p hr => ?_) _ _
  exact writeAt_keeps hr ..

theorem readThrough_keeps (c : BitVec 8) (va : Dword) (n : Nat) : I.P (s.readThrough c va n).1 := by
  unfold State.readThrough
  repeat' split
  all_goals simp [*, readPieces_keeps]

theorem setCq_keeps (k : Nat) (e : CqEntry) : I.P (s.setCq k e) := by
  unfold State.setCq
  exact I.rest hs rfl rfl rfl

theorem readHeader_keeps (e : CqEntry) : I.P (s.readHeader e).1 := by
  unfold State.readHeader
  repeat' split
  all_goals simp [*, readPieces_keeps]

theorem pollAnswers_keeps (k : Nat) : I.P (s.pollAnswers k) := by
  unfold State.pollAnswers
  repeat' split
  all_goals grind [foldl_keeps, mk_keeps, tryRetire_keeps, deliverS_keeps, acquired_keeps, readHeader_keeps, oks]

theorem cqDrop_keeps (k : Nat) (e : CqEntry) (l : List (Nat × Nat × Nat × Dword)) (bs : List Byte) : I.P (s.cqDrop k e l bs) := by
  unfold State.cqDrop
  simp [writePieces_keeps, setCq_keeps, hs]

theorem record_keeps (c : BitVec 8) (header : Dword) (status kind : Nat) (irq defer : Bool) (tag sig count : Nat) :
    I.P (s.record c header status kind irq defer tag sig count).1 := by
  unfold State.record
  split
  · exact hs
  · rename_i k e _
    have hr := readHeader_keeps hs e
    generalize s.readHeader e = r at hr ⊢
    obtain ⟨t, x⟩ := r
    cases x with
    | none => exact count_keeps hr _
    | some x =>
      obtain ⟨l, bs⟩ := x
      dsimp only
      split
      · exact cqDrop_keeps hr ..
      · split
        · exact cqDrop_keeps hr ..
        · split
          · exact cqDrop_keeps hr ..
          · exact pollAnswers_keeps (setCq_keeps (writePieces_keeps (writePieces_keeps hr ..) ..) ..) _

omit hs in
theorem raiseMsix_keeps {r : State × Option Nat} (hr : I.P r.1) : I.P (State.raiseMsix r) := by
  unfold State.raiseMsix
  split
  · exact hr
  · exact emit_keeps hr _

theorem complete_keeps (c : BitVec 8) (header : Dword) (status kind : Nat) (irq defer : Bool) (tag sig count : Nat) :
    I.P (s.complete c header status kind irq defer tag sig count) := ite_keeps hs (raiseMsix_keeps (record_keeps hs ..))

theorem readOwn_keeps (gid : Nat) (g : Group) (l : List Piece) : I.P (s.readOwn gid g l).1 := by
  unfold State.readOwn
  refine foldlPair_keeps hs (fun r p hr => ?_) _ _
  dsimp only
  split
  · exact hr
  · rename_i loc pte _
    split
    · exact hr
    · rename_i key _
      have ht := readAt_keeps hr (pteIl pte) key p.len
      generalize r.1.readAt (pteIl pte) key p.len = q at ht ⊢
      obtain ⟨t, x⟩ := q
      dsimp only
      split
      · exact addDeps_keeps ht ..
      · exact ht

theorem withBytes_keeps (gid : Nat) (g : Group) (u : Use) (n : Nat) (va : Dword) {k : State → List Byte → Res}
    (hk : ∀ t bs, I.P t → I.R (k t bs)) : I.R (withBytes s gid g u n va k) := by
  unfold withBytes
  split
  · exact raiseNow_keeps hs ..
  · rename_i l _
    split
    · exact stall_keeps hs ..
    · have ht := readOwn_keeps (lookUps_keeps hs g [va]) gid g (l.flatMap (·.2))
      generalize (s.lookUps g [va]).readOwn gid g (l.flatMap (·.2)) = q at ht ⊢
      obtain ⟨t, x⟩ := q
      cases x with
      | none => exact consume_keeps ht _
      | some bs => exact hk t bs ht

theorem scalar2_keeps (r : Row) (op : Word → Word → Word) (f : Fields) : I.R (scalar2 r op f s) := by
  unfold scalar2
  refine issue_keeps hs fun g hg => ?_
  have hok := oks hs hg
  simp [*, advance_keeps, putDst_keeps]

theorem scalar1_keeps (r : Row) (op : Word → Word) (f : Fields) : I.R (scalar1 r op f s) := by
  unfold scalar1
  refine issue_keeps hs fun g hg => ?_
  have hok := oks hs hg
  simp [*, advance_keeps, putDst_keeps]

theorem scalar3_keeps (r : Row) (op : Word → Word → Word → Word) (f : Fields) : I.R (scalar3 r op f s) := by
  unfold scalar3
  refine issue_keeps hs fun g hg => ?_
  have hok := oks hs hg
  simp [*, advance_keeps, putDst_keeps]

theorem scalarPair_keeps (r : Row) (op : Dword → Dword → Dword) (f : Fields) : I.R (scalarPair r op f s) := by
  unfold scalarPair
  refine issue_keeps hs fun g hg => ?_
  have hok := oks hs hg
  simp [*, advance_keeps, putPair_keeps]

theorem sadd_keeps (f : Fields) : I.R (execSadd f s) := by
  unfold execSadd
  simp [scalar2_keeps, hs]

theorem ssub_keeps (f : Fields) : I.R (execSsub f s) := by
  unfold execSsub
  simp [scalar2_keeps, hs]

theorem smul_keeps (f : Fields) : I.R (execSmul f s) := by
  unfold execSmul
  simp [scalar2_keeps, hs]

theorem smulh_keeps (f : Fields) : I.R (execSmulh f s) := by
  unfold execSmulh
  simp [scalar2_keeps, hs]

theorem sand_keeps (f : Fields) : I.R (execSand f s) := by
  unfold execSand
  simp [scalar2_keeps, hs]

theorem sor_keeps (f : Fields) : I.R (execSor f s) := by
  unfold execSor
  simp [scalar2_keeps, hs]

theorem sxor_keeps (f : Fields) : I.R (execSxor f s) := by
  unfold execSxor
  simp [scalar2_keeps, hs]

theorem sshl_keeps (f : Fields) : I.R (execSshl f s) := by
  unfold execSshl
  simp [scalar2_keeps, hs]

theorem sshr_keeps (f : Fields) : I.R (execSshr f s) := by
  unfold execSshr
  simp [scalar2_keeps, hs]

theorem smin_keeps (f : Fields) : I.R (execSmin f s) := by
  unfold execSmin
  simp [scalar2_keeps, hs]

theorem smax_keeps (f : Fields) : I.R (execSmax f s) := by
  unfold execSmax
  simp [scalar2_keeps, hs]

theorem sdiv_keeps (f : Fields) : I.R (execSdiv f s) := by
  unfold execSdiv
  simp [scalar2_keeps, hs]

theorem srem_keeps (f : Fields) : I.R (execSrem f s) := by
  unfold execSrem
  simp [scalar2_keeps, hs]

theorem smov_keeps (f : Fields) : I.R (execSmov f s) := by
  unfold execSmov
  simp [scalar1_keeps, hs]

theorem snot_keeps (f : Fields) : I.R (execSnot f s) := by
  unfold execSnot
  simp [scalar1_keeps, hs]

theorem sclz_keeps (f : Fields) : I.R (execSclz f s) := by
  unfold execSclz
  simp [scalar1_keeps, hs]

theorem spopc_keeps (f : Fields) : I.R (execSpopc f s) := by
  unfold execSpopc
  simp [scalar1_keeps, hs]

theorem sbrev_keeps (f : Fields) : I.R (execSbrev f s) := by
  unfold execSbrev
  simp [scalar1_keeps, hs]

theorem sext_keeps (f : Fields) : I.R (execSext f s) := by
  unfold execSext
  simp [scalar1_keeps, hs]

theorem scmp_keeps (f : Fields) : I.R (execScmp f s) := by
  unfold execScmp
  simp [scalar2_keeps, hs]

theorem ssel_keeps (f : Fields) : I.R (execSsel f s) := by
  unfold execSsel
  simp [scalar3_keeps, hs]

theorem sadd64_keeps (f : Fields) : I.R (execSadd64 f s) := by
  unfold execSadd64
  simp [scalarPair_keeps, hs]

theorem ssub64_keeps (f : Fields) : I.R (execSsub64 f s) := by
  unfold execSsub64
  simp [scalarPair_keeps, hs]

theorem smul64_keeps (f : Fields) : I.R (execSmul64 f s) := by
  unfold execSmul64
  simp [scalarPair_keeps, hs]

theorem sshl64_keeps (f : Fields) : I.R (execSshl64 f s) := by
  unfold execSshl64
  simp [scalarPair_keeps, hs]

theorem sshr64_keeps (f : Fields) : I.R (execSshr64 f s) := by
  unfold execSshr64
  simp [scalarPair_keeps, hs]

theorem smov64_keeps (f : Fields) : I.R (execSmov64 f s) := by
  unfold execSmov64
  refine issue_keeps hs fun g hg => ?_
  have hok := oks hs hg
  repeat' split
  all_goals simp [*, advance_keeps, putPair_keeps]

theorem sbfe_keeps (f : Fields) : I.R (execSbfe f s) := by
  unfold execSbfe
  simp [scalar3_keeps, hs]

theorem sbfi_keeps (f : Fields) : I.R (execSbfi f s) := by
  unfold execSbfi
  refine issue_keeps hs fun g hg => ?_
  have hok := oks hs hg
  simp [*, advance_keeps, putDst_keeps]

theorem slea_keeps (f : Fields) : I.R (execSlea f s) := by
  unfold execSlea
  refine issue_keeps hs fun g hg => ?_
  have hok := oks hs hg
  repeat' split
  all_goals simp [*, advance_keeps, putPair_keeps]

theorem vector2_keeps (r : Row) (op : Word → Word → Word) (f : Fields) : I.R (vector2 r op f s) := by
  unfold vector2
  refine issue_keeps hs fun g hg => ?_
  have hok := oks hs hg
  simp [*, advance_keeps, putW_keeps]

theorem vector1_keeps (r : Row) (op : Word → Word) (f : Fields) : I.R (vector1 r op f s) := by
  unfold vector1
  refine issue_keeps hs fun g hg => ?_
  have hok := oks hs hg
  simp [*, advance_keeps, putW_keeps]

theorem vector3_keeps (r : Row) (op : Word → Word → Word → Word) (f : Fields) : I.R (vector3 r op f s) := by
  unfold vector3
  refine issue_keeps hs fun g hg => ?_
  have hok := oks hs hg
  simp [*, advance_keeps, putW_keeps]

theorem vadd_keeps (f : Fields) : I.R (execVadd f s) := by
  unfold execVadd
  simp [vector2_keeps, hs]

theorem vsub_keeps (f : Fields) : I.R (execVsub f s) := by
  unfold execVsub
  simp [vector2_keeps, hs]

theorem vmul_keeps (f : Fields) : I.R (execVmul f s) := by
  unfold execVmul
  simp [vector2_keeps, hs]

theorem vmulh_keeps (f : Fields) : I.R (execVmulh f s) := by
  unfold execVmulh
  simp [vector2_keeps, hs]

theorem vand_keeps (f : Fields) : I.R (execVand f s) := by
  unfold execVand
  simp [vector2_keeps, hs]

theorem vor_keeps (f : Fields) : I.R (execVor f s) := by
  unfold execVor
  simp [vector2_keeps, hs]

theorem vxor_keeps (f : Fields) : I.R (execVxor f s) := by
  unfold execVxor
  simp [vector2_keeps, hs]

theorem vshl_keeps (f : Fields) : I.R (execVshl f s) := by
  unfold execVshl
  simp [vector2_keeps, hs]

theorem vshr_keeps (f : Fields) : I.R (execVshr f s) := by
  unfold execVshr
  simp [vector2_keeps, hs]

theorem vmin_keeps (f : Fields) : I.R (execVmin f s) := by
  unfold execVmin
  simp [vector2_keeps, hs]

theorem vmax_keeps (f : Fields) : I.R (execVmax f s) := by
  unfold execVmax
  simp [vector2_keeps, hs]

theorem vabsd_keeps (f : Fields) : I.R (execVabsd f s) := by
  unfold execVabsd
  simp [vector2_keeps, hs]

theorem vadds_keeps (f : Fields) : I.R (execVadds f s) := by
  unfold execVadds
  simp [vector2_keeps, hs]

theorem vsubs_keeps (f : Fields) : I.R (execVsubs f s) := by
  unfold execVsubs
  simp [vector2_keeps, hs]

theorem vmad_keeps (f : Fields) : I.R (execVmad f s) := by
  unfold execVmad
  simp [vector3_keeps, hs]

theorem vsel_keeps (f : Fields) : I.R (execVsel f s) := by
  unfold execVsel
  simp [vector3_keeps, hs]

theorem vbfe_keeps (f : Fields) : I.R (execVbfe f s) := by
  unfold execVbfe
  simp [vector3_keeps, hs]

theorem vbfi_keeps (f : Fields) : I.R (execVbfi f s) := by
  unfold execVbfi
  refine issue_keeps hs fun g hg => ?_
  have hok := oks hs hg
  simp [*, advance_keeps, putW_keeps]

theorem vmov_keeps (f : Fields) : I.R (execVmov f s) := by
  unfold execVmov
  simp [vector1_keeps, hs]

theorem vnot_keeps (f : Fields) : I.R (execVnot f s) := by
  unfold execVnot
  simp [vector1_keeps, hs]

theorem vneg_keeps (f : Fields) : I.R (execVneg f s) := by
  unfold execVneg
  simp [vector1_keeps, hs]

theorem vabs_keeps (f : Fields) : I.R (execVabs f s) := by
  unfold execVabs
  simp [vector1_keeps, hs]

theorem vclz_keeps (f : Fields) : I.R (execVclz f s) := by
  unfold execVclz
  simp [vector1_keeps, hs]

theorem vpopc_keeps (f : Fields) : I.R (execVpopc f s) := by
  unfold execVpopc
  simp [vector1_keeps, hs]

theorem vbrev_keeps (f : Fields) : I.R (execVbrev f s) := by
  unfold execVbrev
  simp [vector1_keeps, hs]

theorem vext_keeps (f : Fields) : I.R (execVext f s) := by
  unfold execVext
  simp [vector1_keeps, hs]

theorem vcmp_keeps (f : Fields) : I.R (execVcmp f s) := by
  unfold execVcmp
  simp [vector2_keeps, hs]

theorem vcmpm_keeps (f : Fields) : I.R (execVcmpm f s) := by
  unfold execVcmpm
  refine issue_keeps hs fun g hg => ?_
  have hok := oks hs hg
  simp [*, advance_keeps, putDst_keeps]

theorem vadd64_keeps (f : Fields) : I.R (execVadd64 f s) := by
  unfold execVadd64
  refine issue_keeps hs fun g hg => ?_
  have hok := oks hs hg
  simp [*, advance_keeps, putW2_keeps]

theorem vmulw_keeps (f : Fields) : I.R (execVmulw f s) := by
  unfold execVmulw
  refine issue_keeps hs fun g hg => ?_
  have hok := oks hs hg
  simp [*, advance_keeps, putW2_keeps]

theorem vaddF32_keeps (f : Fields) : I.R (execVaddF32 f s) := by
  unfold execVaddF32
  simp [vector2_keeps, hs]

theorem vsubF32_keeps (f : Fields) : I.R (execVsubF32 f s) := by
  unfold execVsubF32
  simp [vector2_keeps, hs]

theorem vmulF32_keeps (f : Fields) : I.R (execVmulF32 f s) := by
  unfold execVmulF32
  simp [vector2_keeps, hs]

theorem vminF32_keeps (f : Fields) : I.R (execVminF32 f s) := by
  unfold execVminF32
  simp [vector2_keeps, hs]

theorem vmaxF32_keeps (f : Fields) : I.R (execVmaxF32 f s) := by
  unfold execVmaxF32
  simp [vector2_keeps, hs]

theorem vdiv_keeps (f : Fields) : I.R (execVdiv f s) := by
  unfold execVdiv
  simp [vector2_keeps, hs]

theorem vfma_keeps (f : Fields) : I.R (execVfma f s) := by
  unfold execVfma
  simp [vector3_keeps, hs]

theorem vfms_keeps (f : Fields) : I.R (execVfms f s) := by
  unfold execVfms
  simp [vector3_keeps, hs]

theorem vabsF32_keeps (f : Fields) : I.R (execVabsF32 f s) := by
  unfold execVabsF32
  simp [vector1_keeps, hs]

theorem vnegF32_keeps (f : Fields) : I.R (execVnegF32 f s) := by
  unfold execVnegF32
  simp [vector1_keeps, hs]

theorem vsqrt_keeps (f : Fields) : I.R (execVsqrt f s) := by
  unfold execVsqrt
  simp [vector1_keeps, hs]

theorem vrcp_keeps (f : Fields) : I.R (execVrcp f s) := by
  unfold execVrcp
  simp [vector1_keeps, hs]

theorem vrsq_keeps (f : Fields) : I.R (execVrsq f s) := by
  unfold execVrsq
  simp [vector1_keeps, hs]

theorem vexp2_keeps (f : Fields) : I.R (execVexp2 f s) := by
  unfold execVexp2
  simp [vector1_keeps, hs]

theorem vlog2_keeps (f : Fields) : I.R (execVlog2 f s) := by
  unfold execVlog2
  simp [vector1_keeps, hs]

theorem vrnd_keeps (f : Fields) : I.R (execVrnd f s) := by
  unfold execVrnd
  simp [vector1_keeps, hs]

theorem vclass_keeps (f : Fields) : I.R (execVclass f s) := by
  unfold execVclass
  simp [vector1_keeps, hs]

theorem vcmpF32_keeps (f : Fields) : I.R (execVcmpF32 f s) := by
  unfold execVcmpF32
  simp [vector2_keeps, hs]

theorem vcmpmF32_keeps (f : Fields) : I.R (execVcmpmF32 f s) := by
  unfold execVcmpmF32
  refine issue_keeps hs fun g hg => ?_
  have hok := oks hs hg
  simp [*, advance_keeps, putDst_keeps]

theorem vadd2_keeps (f : Fields) : I.R (execVadd2 f s) := by
  unfold execVadd2
  simp [vector2_keeps, hs]

theorem vmul2_keeps (f : Fields) : I.R (execVmul2 f s) := by
  unfold execVmul2
  simp [vector2_keeps, hs]

theorem vfma2_keeps (f : Fields) : I.R (execVfma2 f s) := by
  unfold execVfma2
  simp [vector3_keeps, hs]

theorem vcvt_keeps (f : Fields) : I.R (execVcvt f s) := by
  unfold execVcvt
  simp [vector1_keeps, hs]

theorem vcvti_keeps (f : Fields) : I.R (execVcvti f s) := by
  unfold execVcvti
  refine issue_keeps hs fun g hg => ?_
  have hok := oks hs hg
  dsimp only
  repeat' split
  all_goals simp [*, advance_keeps, putW_keeps, putW2_keeps]

theorem vcvtf_keeps (f : Fields) : I.R (execVcvtf f s) := by
  unfold execVcvtf
  refine issue_keeps hs fun g hg => ?_
  have hok := oks hs hg
  simp [*, advance_keeps, putW_keeps]

theorem vcvtq_keeps (f : Fields) : I.R (execVcvtq f s) := by
  unfold execVcvtq
  simp [vector1_keeps, hs]

theorem vcvtqf_keeps (f : Fields) : I.R (execVcvtqf f s) := by
  unfold execVcvtqf
  simp [vector1_keeps, hs]

theorem vcvtn_keeps (f : Fields) : I.R (execVcvtn f s) := by
  unfold execVcvtn
  refine issue_keeps hs fun g hg => ?_
  have hok := oks hs hg
  simp [*, advance_keeps, putW_keeps]

end Sys2Proof.Proofs.Inv
end

section
/-! What is kept by matrix instructions and barriers: one lemma per operation of the model. -/

namespace Sys2Proof.Proofs.Inv

open Sys2Proof Sys2Proof.Machine Sys2Proof.Claims

variable {I : Inv} {s : State} (hs : I.P s)

include hs

theorem putAcc_keeps (n : Nat) (l : List (Nat × Word)) : I.P (s.putAcc n l) := by
  unfold State.putAcc
  simp [modNode_keeps, hs]

theorem setTags_keeps (n : Nat) (blks : List Nat) (c : BitVec 8) : I.P (s.setTags n blks c) := by
  unfold State.setTags
  simp [modNode_keeps, hs]

theorem fillAcc_keeps (n blk : Nat) (bs : List Byte) : I.P (s.fillAcc n blk bs) := putAcc_keeps hs ..

theorem releaseAcc_keeps (gid : Nat) (g : Group) (id : Nat) (k : MatKind) (f : Fields) (blks : List Nat) (off : Nat)
    (lanes : Word) (inputs : List (Nat × Word)) : I.P (s.releaseAcc gid g id k f blks off lanes inputs) := by
  unfold State.releaseAcc
  exact setTags_keeps (modGroup_keeps (mk_keeps hs) gid (by exact fun _ => ⟨rfl, rfl⟩)) ..

theorem headArrives_keeps (gid : Nat) (yes : Bool) : I.P (s.headArrives gid yes) := by
  unfold State.headArrives
  exact modGroup_keeps hs _ (by exact fun _ => ⟨rfl, rfl⟩)

theorem dropHead_keeps (gid : Nat) : I.P (s.dropHead gid) := by
  unfold State.dropHead
  exact modGroup_keeps hs _ (by exact fun _ => ⟨rfl, rfl⟩)

theorem trapAmong_keeps (gids : List (Nat × MatEntry × Bool)) (reason : Nat) : I.P (s.trapAmong gids reason) := by
  unfold State.trapAmong
  dsimp only
  split
  · exact hs
  · split
    · exact foldl_keeps hs (fun t q ht => ite_keeps (dropHead_keeps ht _) (modGroup_keeps ht _ (by exact fun _ => ⟨rfl, rfl⟩))) _
    · exact foldl_keeps (rouse_keeps (takeTrap_keeps
        (foldl_keeps hs (fun t q ht => ite_keeps (dropHead_keeps ht _) (modGroup_keeps ht _ (by exact fun _ => ⟨rfl, rfl⟩))) _) ..) ..)
        (fun u q hu => ite_keeps hu (modGroup_keeps hu _ (by exact fun _ => ⟨rfl, rfl⟩))) _

theorem latchConflict_keeps (b : Block) (gid index : Nat) (e : MatEntry) (queued : Bool) {t : State} (h : s.latchConflict b gid index e queued = some t) :
    I.P t := by
  unfold State.latchConflict at h
  dsimp only at h
  split at h
  · cases h
    exact trapAmong_keeps hs ..
  · split at h
    · cases h
      exact trapAmong_keeps hs ..
    · cases h

theorem trapIssuer_keeps (l : List (Nat × Group × MatEntry)) (queued : Bool) (c : Cause) (lanes : Word) (aux : Dword) :
    I.P (s.trapIssuer l queued c lanes aux) := by
  unfold State.trapIssuer
  have hl (t : State) (ht : I.P t) (i : Nat) : I.P (t.modGroup i fun g =>
      if queued then { g with eng := { g.eng with matQ := g.eng.matQ.drop 1 } } else { g with sched := { g.sched with hold := .none } }) :=
    modGroup_keeps ht i (fun g => by cases queued <;> exact ⟨rfl, rfl⟩)
  have ht := foldl_keeps (f := fun t (m : Nat × Group × MatEntry) => t.modGroup m.1 _) hs (fun t m ht => hl t ht m.1) l
  dsimp only
  split
  · exact hs
  · exact rouse_keeps (takeTrap_keeps ht ..) ..

theorem agree_keeps (l : List (Nat × Group × MatEntry)) (w : Word) : I.P (s.agree l w) := by
  unfold State.agree
  refine foldl_keeps hs (fun s a hs => ?_) _
  simp [*, modGroup_keeps]

theorem checkGang_keeps (b : Block) (l : List (Nat × Group × MatEntry)) (queued : Bool) {t : State} (h : s.checkGang b l queued = .error t) :
    I.P t := by
  unfold State.checkGang at h
  split at h
  · cases h
    exact hs
  · split at h
    · cases h
      exact trapIssuer_keeps hs ..
    · split at h
      · cases h
        exact trapIssuer_keeps (agree_keeps hs ..) ..
      · cases h

theorem passGang_keeps (m : Nat × Group × MatEntry) (queued : Bool) : I.P (s.passGang m queued) :=
  ite_keeps (modGroup_keeps hs _ (by exact fun _ => ⟨rfl, rfl⟩))
    (rouse_keeps (advance_keeps (modGroup_keeps hs _ (by exact fun _ => ⟨rfl, rfl⟩)) ..) ..)

theorem releaseGang_keeps (bid : Nat) (b : Block) (l : List (Nat × Group × MatEntry)) (w : Word) (joint : Nat)
    (peers : List (Nat × Nat × Nat)) (queued : Bool) : I.P (s.releaseGang bid b l w joint peers queued) := by
  unfold State.releaseGang
  split
  · exact hs
  · exact foldl_keeps (unclean_keeps (setTags_keeps (newId_keeps (mk_keeps hs)) ..) _)
      (fun t m ht => passGang_keeps (modGroup_keeps ht _ (by exact fun _ => ⟨rfl, rfl⟩)) ..) _

theorem tryJoint_keeps (bid : Nat) (e : MatEntry) (queued : Bool) : I.P (s.tryJoint bid e queued) := by
  unfold State.tryJoint
  split
  · exact hs
  · split
    · exact hs
    · rename_i l _
      split
      · exact checkGang_keeps hs _ _ _ ‹_›
      · rename_i w _
        have ha := agree_keeps hs l w
        generalize s.agree l w = t at ha
        extract_lets ps gangs votes words w0 peers joint
        refine ite_keeps (ite_keeps (releaseGang_keeps ha ..) ha) (ite_keeps (foldl_keeps ha (fun t p ht => trapAmong_keeps ht ..) _) (ite_keeps ha ?_))
        split
        · rename_i u hu
          obtain ⟨v, hv, hvu⟩ := List.exists_of_findSome?_eq_some hu
          obtain ⟨p, -, rfl⟩ := List.mem_map.mp hv
          split at hvu
          · cases hvu
            exact checkGang_keeps ha _ _ _ ‹_›
          · cases hvu
        · exact ite_keeps (foldl_keeps ha (fun t p ht => trapIssuer_keeps ht ..) _)
            (ite_keeps (foldl_keeps ha (fun t p ht => releaseGang_keeps ht ..) _) ha)

theorem pumpHead_keeps (gid : Nat) : I.P (s.pumpHead gid) := by
  have hjoint (bid : Nat) (b : Block) (g : Group) (e : MatEntry) : I.P (match s.latchConflict b gid g.index e true with
      | some t => t
      | none => (s.headArrives gid true).tryJoint bid e true) := by
    split
    · exact latchConflict_keeps hs _ _ _ _ _ ‹_›
    · exact tryJoint_keeps (headArrives_keeps hs ..) ..
  have hdrop := dropHead_keeps hs gid
  unfold State.pumpHead
  split
  · exact hs
  · split
    · exact hs
    · split
      case h_3 => exact ite_keeps hs (releaseAcc_keeps hdrop ..)
      all_goals
        split
        · exact hdrop
        · split
          · exact hdrop
          · exact ite_keeps hs (ite_keeps (ite_keeps hdrop (ite_keeps (headArrives_keeps hs ..) hs))
              (ite_keeps hdrop (ite_keeps (tryJoint_keeps hs ..) (hjoint ..))))

theorem pumpMatrix_keeps (n : Nat) : I.P (s.pumpMatrix n) := by
  unfold State.pumpMatrix
  exact foldl_keeps (foldl_keeps (foldl_keeps hs (fun t _ ht => foldl_keeps ht (fun u i hu => pumpHead_keeps hu i) _) _)
    (fun t x ht => ite_keeps (tryJoint_keeps ht ..) ht) _) (fun t i ht => tryRetire_keeps ht i) _

theorem arrive_keeps {gid : Nat} {g : Group} (hok : I.Ok gid g.ctl.livem g.ctl.exm) (b : Block) (e : MatEntry) : I.R (arrive s gid g b e) := by
  unfold arrive
  split
  · split
    · exact stall_keeps hs ..
    · exact pumpMatrix_keeps (advance_keeps (setGroup_keeps (newId_keeps hs) (by exact hok)) ..) _
  · split
    · exact setGroup_keeps hs (by exact hok)
    · split
      · exact latchConflict_keeps hs _ _ _ _ _ ‹_›
      · exact gate_keeps (tryJoint_keeps (park_keeps (setGroup_keeps (newId_keeps hs) (by exact hok)) ..) ..) _

theorem accBound_keeps (gid : Nat) (n : Nat) : I.R (accBound s gid n) := by
  unfold accBound
  simp [trapPlain_keeps, hs]

theorem gangIssue_keeps (k : MatKind) (r : Row) (f : Fields) : I.R (gangIssue k r f s) := by
  unfold gangIssue
  dsimp only
  split
  · exact hs
  · rename_i g hg
    have hok := oks hs hg
    have htrap (c : Cause) (aux : Dword) := trapPlain_keeps hs s.own.cur c aux
    split
    · exact htrap ..
    · split
      · exact htrap ..
      · refine notVisitor_keeps hs _ _ ?_
        split
        · exact hs
        · repeat' split
          all_goals simp [trapPlain_keeps hs, illop14_keeps hs, stall_keeps hs, trap_keeps hs, accBound_keeps hs, consume_keeps hs, arrive_keeps hs hok]

theorem mma_keeps (f : Fields) : I.R (execMma f s) := by
  unfold execMma
  simp [gangIssue_keeps, hs]

theorem mmac_keeps (f : Fields) : I.R (execMmac f s) := by
  unfold execMmac
  simp [gangIssue_keeps, hs]

theorem mopf_keeps (f : Fields) : I.R (execMopf f s) := by
  unfold execMopf
  refine issue_keeps hs fun g _ => notVisitor_keeps hs _ _ ?_
  dsimp only
  split
  · exact stall_keeps hs ..
  · exact advance_keeps (modGroup_keeps hs _ (by exact fun _ => ⟨rfl, rfl⟩)) ..

theorem mwait_keeps (f : Fields) : I.R (execMwait f s) := by
  unfold execMwait
  refine issue_keeps hs fun g hg => ?_
  have hok := oks hs hg
  dsimp only
  repeat' split
  all_goals grind [mk_keeps, setGroup_keeps, stall_keeps, advance_keeps, notVisitor_keeps, accBound_keeps, R_next, oks]

theorem owned_keeps (gid : Nat) (g : Group) (blks : List Nat) {k : List Nat → Res} (hk : ∀ l, I.R (k l)) : I.R (owned s gid g blks k) := by
  unfold owned
  dsimp only
  split
  · exact trapPlain_keeps hs ..
  · exact hk _

theorem accCommand_keeps (k : MatKind) (r : Row) (f : Fields) : I.R (accCommand k r f s) := by
  unfold accCommand
  refine issue_keeps hs fun g hg => notVisitor_keeps hs _ _ ?_
  have hok := oks hs hg
  extract_lets off t e
  have ht : I.P t := ite_keeps hs (unclean_keeps hs _)
  split
  · exact accBound_keeps hs ..
  · split
    · exact trap_keeps hs ..
    · split
      · exact trap_keeps hs ..
      · refine owned_keeps hs _ _ _ fun phys => ?_
        split
        · exact advance_keeps (releaseAcc_keeps (newId_keeps ht) ..) ..
        · split
          · exact stall_keeps ht ..
          · exact pumpMatrix_keeps (advance_keeps (setGroup_keeps (newId_keeps ht) (by exact hok)) ..) _

theorem mzero_keeps (f : Fields) : I.R (execMzero f s) := by
  unfold execMzero
  simp [accCommand_keeps, hs]

theorem mlda_keeps (f : Fields) : I.R (execMlda f s) := by
  unfold execMlda
  simp [accCommand_keeps, hs]

theorem msta_keeps (f : Fields) : I.R (execMsta f s) := by
  unfold execMsta
  simp [accCommand_keeps, hs]

theorem rowsBeyond_keeps (gid b : Nat) : I.R (rowsBeyond s gid b) := by
  unfold rowsBeyond
  simp [trapPlain_keeps, hs]

theorem mrd_keeps (f : Fields) : I.R (execMrd f s) := by
  unfold execMrd
  refine issue_keeps hs fun g _ => notVisitor_keeps hs _ _ ?_
  dsimp only
  split
  · exact accBound_keeps hs ..
  · split
    · exact rowsBeyond_keeps hs ..
    · refine owned_keeps hs _ _ _ fun phys => ?_
      split
      · exact advance_keeps hs ..
      · exact advance_keeps (releaseAcc_keeps (newId_keeps (markEmpty_keeps hs ..)) ..) ..

theorem mwr_keeps (f : Fields) : I.R (execMwr f s) := by
  unfold execMwr
  refine issue_keeps hs fun g _ => notVisitor_keeps hs _ _ ?_
  dsimp only
  split
  · exact accBound_keeps hs ..
  · split
    · exact rowsBeyond_keeps hs ..
    · refine owned_keeps hs _ _ _ fun phys => ?_
      split
      · exact advance_keeps hs ..
      · exact advance_keeps (releaseAcc_keeps (newId_keeps (unclean_keeps hs _)) ..) ..

theorem farRun_keeps (gid : Nat) (g : Group) (write : Bool) (va : Dword) (n : Nat) {k : List Piece → Res} (hk : ∀ l, I.R (k l)) :
    I.R (farRun s gid g write va n k) := by
  unfold farRun
  split
  · exact raiseNow_keeps hs ..
  · dsimp only
    split
    · exact trap_keeps hs ..
    · exact hk _

theorem mspill_keeps (f : Fields) : I.R (execMspill f s) := by
  unfold execMspill
  refine issue_keeps hs fun g _ => notVisitor_keeps hs _ _ (farRun_keeps hs _ _ _ _ _ fun ps => ?_)
  dsimp only
  split
  · exact stall_keeps hs ..
  · split
    · exact consume_keeps hs _
    · exact advance_keeps (foldl_keeps (unclean_keeps (lookUps_keeps hs ..) _) (fun t p ht => writeAt_keeps ht ..) _) ..

theorem mfill_keeps (f : Fields) : I.R (execMfill f s) := by
  unfold execMfill
  refine issue_keeps hs fun g _ => notVisitor_keeps hs _ _ (farRun_keeps hs _ _ _ _ _ fun ps => ?_)
  extract_lets d
  split
  · exact stall_keeps hs ..
  · split
    rename_i t x hread
    have ht : I.P t := by
      have hfold := congrArg (fun q : State × Option (List Byte) => I.P q.1) hread
      refine hfold.mp (foldlPair_keeps (lookUps_keeps hs ..) (fun r p hr => ?_) _ _)
      exact readAt_keeps hr p.at_.2 p.at_.1 p.len
    split
    · exact consume_keeps ht _
    · exact advance_keeps (fillAcc_keeps ht ..) ..

theorem mtag_keeps (f : Fields) : I.R (execMtag f s) := by
  unfold execMtag
  refine issue_keeps hs fun g hg => ?_
  have hok := oks hs hg
  dsimp only
  repeat' split
  all_goals grind [stall_keeps, advance_keeps, notVisitor_keeps, setTags_keeps, R_next, oks]

theorem readFor_keeps (bid : Nat) (keys : List Nat) : I.P (s.readFor bid keys) := by
  unfold State.readFor
  refine foldl_keeps hs (fun t k ht => ?_) _
  have hr := readAt_keeps ht ownIl k 32
  generalize t.readAt ownIl k 32 = q at hr ⊢
  obtain ⟨u, x⟩ := q
  cases x with
  | none => exact consumeBlock_keeps hr _
  | some bs => exact hr

theorem matrixComplete_keeps (op : Nat) : I.R (execMatrixComplete op s) := by
  unfold execMatrixComplete
  split
  · exact hs
  · rename_i o _
    split
    · exact hs
    · extract_lets gid s1 s2 place t
      have h1 : I.P s1 := readFor_keeps (mk_keeps hs) ..
      have h2 : I.P s2 := ite_keeps (consumeBlock_keeps h1 _) h1
      have ht : I.P t := by
        change I.P (match o.kind with | .mma => _ | .mmac => _ | .mzero => _ | .mlda => _ | .msta => _ | .mrd => _ | .mwr => _)
        split
        · exact putAcc_keeps h2 ..
        · exact putAcc_keeps h2 ..
        · exact putAcc_keeps h2 ..
        · exact foldl_keeps h2 (fun u m hu => fillAcc_keeps hu ..) _
        · refine foldl_keeps (ite_keeps (unclean_keeps h2 _) h2) (fun u m hu => ?_) _
          split
          · exact hu
          · exact writeRun_keeps (logBytes_keeps hu ..) ..
        · exact foldl_keeps h2 (fun u m hu => deliverV_keeps hu ..) _
        · exact putAcc_keeps h2 ..
      exact reap_keeps (tryRetire_keeps (pumpMatrix_keeps ht _) _)

theorem latchStalledLong_keeps (gid : Nat) : I.R (execLatchStalledLong gid s) := by
  unfold execLatchStalledLong
  repeat' split
  all_goals simp [*, setGroup_keeps, oks hs]

theorem putObj_keeps (bid gid k : Nat) (o : Obj) : I.P (s.putObj bid gid k o) := by
  unfold State.putObj
  repeat' split
  all_goals simp [*, writeStack_keeps, logBytes_keeps]

theorem rousePhase_keeps (bid k : Nat) (o : Obj) (why : Word) : I.P (s.rousePhase bid k o why) := by
  unfold State.rousePhase
  refine foldl_keeps hs (fun s a hs => ?_) _
  repeat' split
  all_goals simp [*, unpark_keeps]

theorem objDeliver_keeps (bid gid k : Nat) (add : Int) : I.P (s.objDeliver bid gid k add) := by
  grind [State.objDeliver, mk_keeps, modBlock_keeps, putObj_keeps, rousePhase_keeps, oks]

theorem syncBad_keeps (gid reason k : Nat) : I.R (syncBad s gid reason k) := by
  unfold syncBad
  simp [trapPlain_keeps, hs]

theorem objOp_keeps (gid : Nat) (g : Group) (k : Nat) (n : Nat) (add : Int) (arrive big : Bool) : I.R (objOp s gid g k n add arrive big) := by
  unfold objOp
  split
  · exact hs
  · split
    · exact syncBad_keeps hs ..
    · split
      · exact syncBad_keeps hs ..
      · split
        · exact syncBad_keeps hs ..
        · split
          · exact stall_keeps hs ..
          · exact advance_keeps (rousePhase_keeps (putObj_keeps (ite_keeps (pointHere_keeps hs _) hs) ..) ..) ..

theorem abinit_keeps (f : Fields) : I.R (execAbinit f s) := by
  unfold execAbinit
  refine issue_keeps hs fun g hg => ?_
  have hok := oks hs hg
  dsimp only
  repeat' split
  all_goals grind [count_keeps, advance_keeps, notVisitor_keeps, putObj_keeps, syncBad_keeps, R_next, oks]

theorem abarv_keeps (f : Fields) : I.R (execAbarv f s) := by
  unfold execAbarv
  refine issue_keeps hs fun g hg => ?_
  have hok := oks hs hg
  simp [*, notVisitor_keeps, objOp_keeps]

theorem abexp_keeps (f : Fields) : I.R (execAbexp f s) := by
  unfold execAbexp
  refine issue_keeps hs fun g hg => ?_
  have hok := oks hs hg
  simp [*, notVisitor_keeps, objOp_keeps]

theorem raiseDeferred_keeps (gid : Nat) (p : Nat → Bool) : I.P (s.raiseDeferred gid p) := by
  grind [State.raiseDeferred, foldl_keeps, mk_keeps, setGroup_keeps, raise_keeps, oks]

theorem abwait_keeps (f : Fields) : I.R (execAbwait f s) := by
  unfold execAbwait
  refine issue_keeps hs fun g hg => ?_
  have hok := oks hs hg
  dsimp only
  repeat' split
  all_goals grind [foldl_keeps, mk_keeps, setBlock_keeps, stall_keeps, advance_keeps, notVisitor_keeps, raise_keeps, syncBad_keeps,
      raiseDeferred_keeps, R_next, oks]

theorem passBarrier_keeps (gid n : Nat) : I.P (s.passBarrier gid n) := by
  grind [State.passBarrier, mk_keeps, setGroup_keeps, rouse_keeps, writeRun_keeps, past_livem, past_exm, oks]

theorem checkpoint_keeps (bid : Nat) : I.P (s.checkpoint bid) := by
  unfold State.checkpoint
  simp [modBlock_keeps, newId_keeps, hs]

theorem barrierDone_keeps (bid : Nat) (h : Hold) (blocks : List (Nat × Block)) : I.P (s.barrierDone bid h blocks) := by
  unfold State.barrierDone
  repeat' split
  all_goals simp +contextual [*, foldl_keeps, acquired_keeps, checkpoint_keeps]

theorem openBarrier_keeps (gid : Nat) {t : State} (h : s.openBarrier gid = some t) : I.P t := by
  unfold State.openBarrier at h
  split at h
  · cases h
  · split at h
    · cases h
    · split at h
      · cases h
      · split at h
        · cases h
          exact barrierDone_keeps (foldl_keeps hs (fun t i ht => passBarrier_keeps ht ..) _) ..
        · cases h

theorem openBarrier_getD_keeps (gid : Nat) {t : State} (ht : I.P t) : I.P ((s.openBarrier gid).getD t) := by
  cases h : s.openBarrier gid with
  | none => exact ht
  | some u => exact openBarrier_keeps hs gid h

theorem openBarriers_keeps : I.P s.openBarriers := by
  unfold State.openBarriers
  exact foldl_keeps hs (fun t p ht => openBarrier_getD_keeps ht p.1 ht) _

theorem arriveBarrier_keeps (gid : Nat) (w : Hold) : I.P (s.arriveBarrier gid w) :=
  openBarrier_getD_keeps (park_keeps hs ..) gid (stall_keeps hs ..)

theorem bar_keeps (f : Fields) : I.R (execBar f s) := by
  unfold execBar
  refine issue_keeps hs fun g hg => ?_
  have hok := oks hs hg
  dsimp only
  repeat' split
  all_goals grind [stall_keeps, unhold_keeps, notVisitor_keeps, pointHere_keeps, arriveBarrier_keeps, R_next, oks]

theorem barc_keeps (f : Fields) : I.R (execBarc f s) := by
  unfold execBarc
  refine issue_keeps hs fun g hg => ?_
  have hok := oks hs hg
  dsimp only
  repeat' split
  all_goals grind [stall_keeps, notVisitor_keeps, pointHere_keeps, drainHeld_keeps, arriveBarrier_keeps, R_next, oks]

theorem barh_keeps (f : Fields) : I.R (execBarh f s) := by
  unfold execBarh
  refine issue_keeps hs fun g hg => ?_
  have hok := oks hs hg
  dsimp only
  repeat' split
  all_goals grind [stall_keeps, notVisitor_keeps, pointHere_keeps, drainHeld_keeps, syncBad_keeps, arriveBarrier_keeps, R_next, oks]

end Sys2Proof.Proofs.Inv
end

section
/-! What is kept by barrier objects, copies and batches, and field domains: one lemma per operation of the model. -/

namespace Sys2Proof.Proofs.Inv

open Sys2Proof Sys2Proof.Machine Sys2Proof.Claims

variable {I : Inv} {s : State} (hs : I.P s)

include hs

theorem cacheRec_keeps (n : Nat) (c : BitVec 8) (addr : Nat) (bs : List Byte) : I.P (s.cacheRec n c addr bs) := by
  unfold State.cacheRec
  simp [modNode_keeps, hs]

theorem trf_keeps (f : Fields) : I.R (execTrf f s) := by
  unfold execTrf
  refine issue_keeps hs fun g hg => ?_
  have hok := oks hs hg
  dsimp only
  grind [mk_keeps, modNode_keeps, advance_keeps, notVisitor_keeps, R_next, oks]

theorem settleBatches_keeps (gid : Nat) : I.P (s.settleBatches gid) := by
  unfold State.settleBatches
  repeat' split
  all_goals simp [*, setGroup_keeps, writeRun_keeps, oks hs]

theorem rouseBatch_keeps (gid : Nat) : I.P (s.rouseBatch gid) := by
  unfold State.rouseBatch
  repeat' split
  all_goals simp [*, unpark_keeps]

theorem discard_keeps (gid : Nat) (l : List Cmd) : I.P (s.discard gid l) := by
  grind [State.discard, foldl_keeps, mk_keeps, modBlock_keeps, settleBatches_keeps, rouseBatch_keeps, oks]

theorem settleCopy_keeps (gid : Nat) : I.P (s.settleCopy gid) := by
  grind [State.settleCopy, mk_keeps, setGroup_keeps, discard_keeps, oks]

theorem gset_keeps (f : Fields) : I.R (execGset f s) := by
  unfold execGset
  exact issue_keeps hs fun g _ => notVisitor_keeps hs _ _ (advance_keeps (pumpMatrix_keeps (modGroup_keeps (settleCopy_keeps hs _) _ (by exact fun _ => ⟨rfl, rfl⟩)) _) ..)

theorem engTrap_keeps (gid : Nat) (g : Group) (c : Cause) (addr aux : Nat) : I.R (engTrap s gid g c addr aux) := by
  unfold engTrap
  simp [trap_keeps, hs]

theorem enqueueCmd_keeps {gid : Nat} {g : Group} (hok : I.Ok gid g.ctl.livem g.ctl.exm) (n : Nat) (batch : Bool) (c : Cmd) :
    I.R (enqueueCmd s gid g n batch c) := by
  unfold enqueueCmd
  split
  · exact stall_keeps hs ..
  · exact advance_keeps (setGroup_keeps (newId_keeps hs) (by exact hok)) ..

theorem boxIssue_keeps (k : CmdKind) (f : Fields) {gid : Nat} {g : Group} (hok : I.Ok gid g.ctl.livem g.ctl.exm) (rcd : List Byte) :
    I.R (boxIssue k f s gid g rcd) := by
  unfold boxIssue
  extract_lets addr e h base store gather lanes org o0 n last space valid kind pieces c
  split
  · exact engTrap_keeps hs ..
  · split
    · exact engTrap_keeps hs ..
    · split
      · exact engTrap_keeps hs ..
      · split
        · exact engTrap_keeps hs ..
        · split
          · exact engTrap_keeps hs ..
          · exact enqueueCmd_keeps (ite_keeps (unclean_keeps hs _) hs) hok ..

theorem boxCommand_keeps (k : CmdKind) (r : Row) (f : Fields) : I.R (boxCommand k r f s) := by
  unfold boxCommand
  refine issue_keeps hs fun g hg => notVisitor_keeps hs _ _ ?_
  have hok := oks hs hg
  extract_lets addr e cached hit
  have hhit (line : RecLine) (now : List Byte) : I.R (hit line now) := boxIssue_keeps (modNode_keeps hs _ (by exact fun _ => rfl)) k f hok _
  clear_value cached hit
  split
  · split
    · exact raiseNow_keeps hs ..
    · split
      · exact engTrap_keeps hs ..
      · split
        · exact raiseNow_keeps hs ..
        · exact hhit ..
  · split
    · exact engTrap_keeps hs ..
    · split
      · exact stall_keeps (ite_keeps hs (modNode_keeps hs _ (by exact fun _ => rfl))) ..
      · exact hhit ..

theorem tcopy_keeps (f : Fields) : I.R (execTcopy f s) := by
  unfold execTcopy
  simp [boxCommand_keeps, hs]

theorem tcopys_keeps (f : Fields) : I.R (execTcopys f s) := by
  unfold execTcopys
  simp [boxCommand_keeps, hs]

theorem gather_keeps (f : Fields) : I.R (execGather f s) := by
  unfold execGather
  simp [boxCommand_keeps, hs]

theorem bclose_keeps (f : Fields) : I.R (execBclose f s) := by
  unfold execBclose
  refine issue_keeps hs fun g hg => notVisitor_keeps hs _ _ ?_
  have hok := oks hs hg
  dsimp only
  split
  · exact stall_keeps hs ..
  · exact advance_keeps (putDst_keeps (settleBatches_keeps (setGroup_keeps hs (by exact hok)) _) ..) ..

theorem bwait_keeps (f : Fields) : I.R (execBwait f s) := by
  unfold execBwait
  refine issue_keeps hs fun g hg => ?_
  have hok := oks hs hg
  dsimp only
  repeat' split
  all_goals grind [stall_keeps, advance_keeps, notVisitor_keeps, syncBad_keeps, raiseDeferred_keeps, R_next, oks]

theorem vstmc_keeps (f : Fields) : I.R (execVstmc f s) := by
  unfold execVstmc
  refine issue_keeps hs fun g hg => ?_
  have hok := oks hs hg
  dsimp only
  repeat' split
  all_goals grind [mk_keeps, advance_keeps, unclean_keeps, trapPlain_keeps, consume_keeps, raiseNow_keeps, raiseStores_keeps, startAccess_keeps,
      beginRelease_keeps, R_next, oks]

theorem startColl_keeps (bid : Nat) (b : Block) (x : Coll) (ctx : BitVec 8) : I.P (s.startColl bid b x ctx) := by
  unfold State.startColl
  extract_lets d m word size cg
  have hr := readRun_keeps hs ownIl word 4
  generalize s.readRun ownIl word 4 = q at hr ⊢
  obtain ⟨t, old⟩ := q
  dsimp -zeta only at hr ⊢
  extract_lets t1 k t2 y t3 t4 c _ t5 t6
  have h1 : I.P t1 := ite_keeps (consumeBlock_keeps hr _) hr
  have h2 : I.P t2 := writeRun_keeps h1 ..
  have h3 : I.P t3 := foldl_keeps h2 (fun u e hu => emit_keeps hu _) _
  have h4 : I.P t4 := modBlock_keeps h3 ..
  have h5 : I.P t5 := mk_keeps h4
  have h6 : I.P t6 := ite_keeps (objDeliver_keeps h5 ..) h5
  clear_value t6
  split
  · exact mk_keeps (newId_keeps h6)
  · rename_i g hg
    have hok := oks h6 hg
    exact setGroup_keeps (newId_keeps h6) (by exact hok)

theorem startColls_keeps (bid : Nat) : I.P (s.startColls bid) := by
  grind [State.startColls, foldl_keeps, complete_keeps, startColl_keeps, oks]

theorem coll_keeps (f : Fields) : I.R (execColl f s) := by
  unfold execColl
  refine issue_keeps hs fun g hg => notVisitor_keeps hs _ _ ?_
  split
  · exact hs
  · extract_lets desc other differs why t id u
    split
    · refine trapPlain_keeps (s := t) ?_ _ _ _
      unfold t
      split
      · exact ite_keeps (setBlock_keeps hs ..) hs
      · exact hs
    · exact advance_keeps (startColls_keeps (modBlock_keeps (unclean_keeps (newId_keeps hs) _) ..) _) ..

theorem crem_keeps (f : Fields) : I.R (execCrem f s) := by
  unfold execCrem
  refine issue_keeps hs fun g hg => notVisitor_keeps hs _ _ ?_
  split
  · exact hs
  · extract_lets x remote off len put why
    split
    · exact trapPlain_keeps hs ..
    · exact enqueueCmd_keeps (unclean_keeps hs _) (oks hs hg) ..

theorem nop_keeps (f : Fields) : I.R (execNop f s) := by
  unfold execNop
  refine issue_keeps hs fun g hg => ?_
  have hok := oks hs hg
  simp [*, advance_keeps]

theorem leave_keeps {gid : Nat} {g : Group} (hok : I.Ok gid g.ctl.livem g.ctl.exm) (x : Word) (n : Nat) : I.P (leave s gid g x n) := by
  unfold leave
  exact tryRetire_keeps (pumpMatrix_keeps (advance_keeps (setGroup_keeps hs (by exact ok_leave hok x)) ..) _) _

theorem exit_keeps (f : Fields) : I.R (execExit f s) := by
  unfold execExit
  exact issue_keeps hs fun g hg => notVisitor_keeps hs _ _ (leave_keeps hs (oks hs hg) ..)

theorem exitm_keeps (f : Fields) : I.R (execExitm f s) := by
  unfold execExitm
  exact issue_keeps hs fun g hg => notVisitor_keeps hs _ _ (leave_keeps hs (oks hs hg) ..)

theorem aligned_keeps (gid : Nat) (g : Group) (t : Dword) {k : Res} (hk : I.R k) : I.R (aligned s gid g t k) := by
  unfold aligned
  split
  · exact trap_keeps hs ..
  · exact hk

theorem branch_keeps (f : Fields) (gid : Nat) (g : Group) (c : Bool) : I.R (branch f s gid g c) :=
  aligned_keeps hs _ _ _ (ite_keeps (jump_keeps hs ..) (advance_keeps hs ..))

theorem br_keeps (f : Fields) : I.R (execBr f s) := by
  unfold execBr
  refine issue_keeps hs fun g hg => ?_
  have hok := oks hs hg
  simp [*, branch_keeps]

theorem bz_keeps (f : Fields) : I.R (execBz f s) := by
  unfold execBz
  refine issue_keeps hs fun g hg => ?_
  have hok := oks hs hg
  simp [*, branch_keeps]

theorem bnz_keeps (f : Fields) : I.R (execBnz f s) := by
  unfold execBnz
  refine issue_keeps hs fun g hg => ?_
  have hok := oks hs hg
  simp [*, branch_keeps]

theorem bmz_keeps (f : Fields) : I.R (execBmz f s) := by
  unfold execBmz
  refine issue_keeps hs fun g hg => ?_
  have hok := oks hs hg
  simp [*, branch_keeps]

theorem bmnz_keeps (f : Fields) : I.R (execBmnz f s) := by
  unfold execBmnz
  refine issue_keeps hs fun g hg => ?_
  have hok := oks hs hg
  simp [*, branch_keeps]

theorem bvany_keeps (f : Fields) : I.R (execBvany f s) := by
  unfold execBvany
  refine issue_keeps hs fun g hg => ?_
  have hok := oks hs hg
  simp [*, branch_keeps]

theorem bvall_keeps (f : Fields) : I.R (execBvall f s) := by
  unfold execBvall
  refine issue_keeps hs fun g hg => ?_
  have hok := oks hs hg
  simp [*, branch_keeps]

theorem noRoom_keeps (gid : Nat) (g : Group) : I.P (noRoom s gid g) := by
  unfold noRoom
  repeat' split
  all_goals simp [*, trapPlain_keeps]

theorem diverge_keeps (f : Fields) {gid : Nat} {g : Group} (hok : I.Ok gid g.ctl.livem g.ctl.exm) (k : SKind) (t : Word) :
    I.R (diverge f s gid g k t) := by
  have hless : I.Ok gid g.ctl.livem (g.ctl.exm &&& ~~~t) := ok_fewer hok fun L _ h => by simp at h; exact h.1
  unfold diverge
  extract_lets tgt n pushes old g1 g2
  split
  · exact illop14_keeps hs ..
  · refine aligned_keeps hs _ _ _ ?_
    split
    · exact noRoom_keeps hs ..
    · split
      · exact advance_keeps (pushed_keeps hs (by exact hless)) ..
      · split
        · exact jump_keeps (pushed_keeps hs (by exact hok)) ..
        · exact advance_keeps (pushed_keeps hs (by exact hok)) ..

theorem bdiv_keeps (f : Fields) : I.R (execBdiv f s) := by
  unfold execBdiv
  exact issue_keeps hs fun g hg => diverge_keeps hs f (oks hs hg) ..

theorem bdivw_keeps (f : Fields) : I.R (execBdivw f s) := by
  unfold execBdivw
  exact issue_keeps hs fun g hg => diverge_keeps hs f (oks hs hg) ..

theorem bdivs_keeps (f : Fields) : I.R (execBdivs f s) := by
  unfold execBdivs
  exact issue_keeps hs fun g hg => diverge_keeps hs f (oks hs hg) ..

theorem badKind_keeps (gid : Nat) (e : Entry) : I.R (badKind s gid e) := by
  unfold badKind
  simp [trapPlain_keeps, hs]

theorem join_keeps (f : Fields) : I.R (execJoin f s) := by
  unfold execJoin
  refine issue_keeps hs fun g hg => ?_
  have hok := oks hs hg
  split
  · exact trapPlain_keeps hs ..
  · split
    · exact badKind_keeps hs ..
    · refine popping_keeps hs fun t st ht => ?_
      have hset (x : Word) := setGroup_keeps (g := g.withStack st (x &&& g.ctl.livem)) ht (ok_and_livem hok x)
      exact ite_keeps (jump_keeps (hset _) ..) (advance_keeps (hset _) ..)

theorem joinw_keeps (f : Fields) : I.R (execJoinw f s) := by
  unfold execJoinw
  refine issue_keeps hs fun g hg => ?_
  have hok := oks hs hg
  split
  · exact trapPlain_keeps hs ..
  · split
    · exact badKind_keeps hs ..
    · split
      · exact advance_keeps hs ..
      · split
        · split
          · exact trapPlain_keeps hs ..
          · exact popping_keeps hs fun t st ht => advance_keeps (setGroup_keeps (g := g.withStack st _) ht (ok_and_livem hok _)) ..
        · exact jump_keeps (setGroup_keeps (g := g.withStack _ _) hs (ok_and_livem hok _)) ..

theorem joinwExpiry_keeps (gid : Nat) : I.R (execJoinwExpiry gid s) := by
  unfold execJoinwExpiry
  split
  · exact hs
  · rename_i g hg
    split
    · exact hs
    · dsimp only
      split
      · exact rouse_keeps (setGroup_keeps hs (by exact ok_and_livem (oks hs hg) _)) ..
      · exact hs

theorem jmp_keeps (f : Fields) : I.R (execJmp f s) := by
  unfold execJmp
  refine issue_keeps hs fun g hg => ?_
  have hok := oks hs hg
  simp [*, jump_keeps, aligned_keeps]

theorem callTo_keeps (f : Fields) {gid : Nat} {g : Group} (hok : I.Ok gid g.ctl.livem g.ctl.exm) (t : Dword) : I.R (callTo f s gid g t) := by
  unfold callTo
  refine aligned_keeps hs _ _ _ ?_
  split
  · exact noRoom_keeps hs ..
  · exact jump_keeps (pushed_keeps hs (by exact hok)) ..

theorem call_keeps (f : Fields) : I.R (execCall f s) := by
  unfold execCall
  exact issue_keeps hs fun g hg => callTo_keeps hs f (oks hs hg) ..

theorem calli_keeps (f : Fields) : I.R (execCalli f s) := by
  unfold execCalli
  exact issue_keeps hs fun g hg => callTo_keeps hs f (oks hs hg) ..

theorem ret_keeps (f : Fields) : I.R (execRet f s) := by
  unfold execRet
  refine issue_keeps hs fun g hg => ?_
  have hok := oks hs hg
  split
  · exact trapPlain_keeps hs ..
  · split
    · exact badKind_keeps hs ..
    · exact popping_keeps hs fun t st ht => jump_keeps (setGroup_keeps (g := g.withStack st _) ht (ok_and_livem hok _)) ..

theorem landed_keeps (g : Group) (t : Dword) : I.P (s.landed g t) := by
  unfold State.landed
  repeat' split
  all_goals simp [*, fetched_keeps]

omit hs in
/-- The lanes of a target are lanes whose target it is. -/
theorem targetsOf_lanes (l : List (Nat × Nat)) : ∀ p ∈ targetsOf l, ∀ L, L < 32 → p.2.getLsbD L = true → ∃ q ∈ l, q.1 = L := by
  have hfold (l' : List (Nat × Nat)) (hl' : ∀ q ∈ l', q ∈ l) (m : List (Nat × Word))
      (hm : ∀ p ∈ m, ∀ L, L < 32 → p.2.getLsbD L = true → ∃ q ∈ l, q.1 = L) :
      ∀ p ∈ l'.foldl (fun (m : List (Nat × Word)) q => Sparse.put m q.2 (Sparse.get 0 m q.2 ||| (1#32 <<< q.1))) m,
        ∀ L, L < 32 → p.2.getLsbD L = true → ∃ q ∈ l, q.1 = L := by
    induction l' generalizing m with
    | nil => exact hm
    | cons a l' ih =>
      refine ih (fun q hq => hl' q (List.mem_cons_of_mem _ hq)) _ fun p hp L hlt hL => ?_
      rcases Sparse.mem_put hp with rfl | hp
      · rw [BitVec.getLsbD_or, Bool.or_eq_true] at hL
        rcases hL with hL | hL
        · unfold Sparse.get at hL
          cases hf : Sparse.find m a.2 with
          | none => rw [hf] at hL; simp at hL
          | some w =>
            rw [hf] at hL
            exact hm _ (mem_of_find hf) L hlt hL
        · refine ⟨a, hl' a List.mem_cons_self, ?_⟩
          simp [hlt] at hL
          omega
      · exact hm p hp L hlt hL
  exact hfold l (fun q hq => hq) [] fun p hp => absurd hp List.not_mem_nil

theorem jmpi_keeps (f : Fields) : I.R (execJmpi f s) := by
  unfold execJmpi
  refine issue_keeps hs fun g hg => ?_
  have hok := oks hs hg
  extract_lets tgt act t fails bad all us old g1
  have ht : I.P t := foldl_keeps hs (fun u L hu => landed_keeps hu ..) _
  have hus : ∀ u ∈ us, I.Ok s.own.cur g.ctl.livem u.2 := fun u hu => ok_fewer hok fun L hlt hL => by
    obtain ⟨q, hq, rfl⟩ := targetsOf_lanes _ u hu L hlt hL
    obtain ⟨L', hL', rfl⟩ := List.mem_map.mp hq
    exact (mem_lanesOf.mp (show L' ∈ lanesOf g.ctl.exm from hL')).2
  have hpush (l : List (Nat × Word)) : (l.foldl (fun g p => g.push .ind p.2 (BitVec.ofNat 64 p.1) 0) g1).ctl.livem = g.ctl.livem := by
    have hl : g1.ctl.livem = g.ctl.livem := rfl
    generalize g1 = g2 at hl
    induction l generalizing g2 with
    | nil => exact hl
    | cons p l ih => exact ih _ hl
  clear_value bad us
  split
  · exact consume_keeps hs _
  · split
    · exact trap_keeps ht ..
    · split
      · exact noRoom_keeps ht ..
      · split
        · exact advance_keeps (pushed_keeps ht (by exact hok)) ..
        · rename_i u rest _
          refine jump_keeps (pushed_keeps ht ?_) ..
          change I.Ok s.own.cur (List.foldl _ g1 rest.reverse).ctl.livem u.2
          rw [hpush]
          exact hus u List.mem_cons_self

theorem unassignedCell_keeps (cause : Nat) (aux addr : BitVec 64) : I.R (execUnassignedCell cause aux addr s) := by
  unfold execUnassignedCell
  dsimp only
  split
  · exact hs
  · exact trap_keeps hs ..

end Sys2Proof.Proofs.Inv
end

section
/-! What is kept by control transfers, collectives and the messages of a transfer: one lemma per operation of the model. -/

namespace Sys2Proof.Proofs.Inv

open Sys2Proof Sys2Proof.Machine Sys2Proof.Claims

variable {I : Inv} {s : State} (hs : I.P s)

include hs

omit hs in
theorem ite_R {c : Prop} {_ : Decidable c} {r q : Res} (hr : I.R r) (hq : I.R q) : I.R (if c then r else q) := by
  split
  · exact hr
  · exact hq

theorem setDomain_keeps (did : Nat) (d : Domain) : I.P (s.setDomain did d) := by
  unfold State.setDomain
  exact I.rest hs rfl rfl rfl

theorem modHome_keeps (n : Nat) (f : Home → Home) : I.P (s.modHome n f) := by
  unfold State.modHome
  simp [modNode_keeps, hs]

theorem send_keeps (m : FMsg) : I.P (s.send m) := by
  unfold State.send
  exact I.rest hs rfl rfl rfl

theorem sendField_keeps (fabric : Bool) (dev home tag : Nat) (m : FMsg) : I.P (s.sendField fabric dev home tag m) := by
  grind [State.sendField, mk_keeps, flush_keeps, enqueue_keeps, newMsg_keeps, send_keeps, oks]

theorem readCell_keeps (il key n : Nat) : I.P (s.readCell il key n).1 := by
  unfold State.readCell
  simp [readAt_keeps, hs]

theorem writeCell_keeps (il key n : Nat) (x : Int) (rel : Option (Nat × Nat)) : I.P (s.writeCell il key n x rel) := by
  unfold State.writeCell
  simp [writeAt_keeps, hs]

theorem addCell_keeps (il key n : Nat) (x : Int) (rel : Option (Nat × Nat)) : I.P (s.addCell il key n x rel) := by
  grind [State.addCell, readCell_keeps, writeCell_keeps, oks]

theorem freeMortar_keeps (mseq : Nat) : I.P (s.freeMortar mseq) := by
  unfold State.freeMortar
  simp [modHome_keeps, hs]

theorem setMortar_keeps (mseq : Nat) (f : Mortar → Mortar) : I.P (s.setMortar mseq f) := by
  unfold State.setMortar
  simp [modHome_keeps, hs]

theorem sendStatus_keeps (m : Mortar) (code reason : Nat) : I.P (s.sendStatus m code reason) := by
  unfold State.sendStatus
  exact I.rest hs rfl rfl rfl

theorem withdrawn_keeps (m : Mortar) (code : Nat) : I.P (s.withdrawn m code) := by
  unfold State.withdrawn
  repeat' split
  all_goals simp [*, complete_keeps]

theorem giveBack_keeps (m : Mortar) : I.P (s.giveBack m) := by
  unfold State.giveBack
  simp [addCell_keeps, hs]

theorem sendOffer_keeps (m : Mortar) (k : FKind) : I.P (s.sendOffer m k) := by
  unfold State.sendOffer
  simp [sendField_keeps, hs]

theorem decide_keeps (m : FMsg) : I.P (s.decide m) := by
  unfold State.decide
  exact I.rest hs rfl rfl rfl

theorem setDedup_keeps (n : Nat) (d : Dedup) : I.P (s.setDedup n d) := by
  unfold State.setDedup
  simp [modHome_keeps, hs]

theorem dropDedup_keeps (n odev mseq : Nat) : I.P (s.dropDedup n odev mseq) := by
  unfold State.dropDedup
  simp [modHome_keeps, hs]

theorem reply_keeps (m : FMsg) (k : FKind) (reason : Nat) : I.P (s.reply m k reason) := by
  unfold State.reply
  simp [sendField_keeps, hs]

theorem endXfer_keeps (x : Xfer) : I.P (s.endXfer x) := by
  unfold State.endXfer
  extract_lets _ s1 s2 s3 s4 pick lanes low addr s5 s6
  have h1 : I.P s1 := mk_keeps hs
  have h2 : I.P s2 := ite_keeps (acquired_keeps h1 ..) h1
  have h3 : I.P s3 := ite_keeps (fillV_keeps h2 ..) h2
  have h4 : I.P s4 := ite_keeps (raiseStores_keeps h3 ..) h3
  have h5 : I.P s5 := by
    refine ite_keeps h4 ?_
    split
    · exact h4
    · exact ite_keeps h4 (raise_keeps h4 ..)
  refine ite_keeps h1 (tryRetire_keeps (ite_keeps h5 ?_) _)
  split
  · exact h5
  · exact ite_keeps h5 (raise_keeps h5 ..)

theorem resolve_keeps (xid lane code reason : Nat) : I.P (s.resolve xid lane code reason) := by
  unfold State.resolve
  split
  · exact hs
  · have h1 : ∀ xs, I.P { s with fld := { s.fld with xfers := xs } } := fun _ => mk_keeps hs
    have h2 : ∀ (x : Xfer) (xs : List Xfer), I.P (if x.dead || code = 9 then { s with fld := { s.fld with xfers := xs } }
        else State.deliverV { s with fld := { s.fld with xfers := xs } } x.gid x.dst [(lane, BitVec.ofNat 32 code)] false 0) :=
      fun x xs => ite_keeps (h1 xs) (deliverV_keeps (h1 xs) ..)
    exact ite_keeps (endXfer_keeps (h2 _ _) _) (h2 _ _)

theorem settle_keeps (x : Xfer) : I.P (s.settle x) := by
  unfold State.settle
  refine ite_keeps ?_ ?_
  · have h1 : I.P ((s.recordHomes x.id).foldl (fun s h => s.send { FMsg.blank with kind := .giveBack, home := h, xid := x.id }) s) :=
      foldl_keeps hs (fun t _ ht => send_keeps ht _) _
    exact ite_keeps (mk_keeps h1) (trap_keeps (modGroup_keeps (fillV_keeps (mk_keeps h1) ..) _ (by exact fun _ => ⟨rfl, rfl⟩)) ..)
  · extract_lets go _ s1 s2 unsent s3 s4 s5
    have h1 : I.P s1 := foldl_keeps hs (fun t _ ht => send_keeps ht _) _
    have h2 : I.P s2 := by
      dsimp only [s2]
      split
      · exact h1
      · rename_i g hg
        have hok := oks h1 hg
        exact ite_keeps (setGroup_keeps h1 (by exact hok)) h1
    have h3 : I.P s3 := by
      dsimp only [s3]
      split
      · exact raise_keeps h2 ..
      · exact h2
    have h4 : I.P s4 := foldl_keeps h3 (fun t _ ht => resolve_keeps ht ..) _
    have h5 : I.P s5 := foldl_keeps h4 (fun t _ ht => resolve_keeps ht ..) _
    exact ite_keeps (endXfer_keeps h5 _) h5

theorem xfer_keeps (f : Fields) : I.R (execXfer f s) := by
  unfold execXfer
  refine issue_keeps hs fun g hg => ?_
  extract_lets -underBinder soil act
  have h0 : I.P (soil s) := ite_keeps (unclean_keeps hs _) hs
  split
  · exact advance_keeps h0 ..
  · split
    · exact raiseNow_keeps hs ..
    · split
      · exact stall_keeps hs ..
      · extract_lets -underBinder lanes bad id rel scope y x s1 s2 _ s3 s4 s5 s6
        have h1 : I.P s1 := lookUps_keeps h0 ..
        have h2 : I.P s2 := ite_keeps (beginRelease_keeps h1 ..) h1
        have h3 : I.P s3 := newId_keeps (mk_keeps h2)
        have h4 : I.P s4 := markEmpty_keeps h3 ..
        have h5 : I.P s5 := foldl_keeps h4 (fun t _ ht => send_keeps ht _) _
        have h6 : I.P s6 := ite_keeps (advance_keeps h5 ..) (stall_keeps h5 ..)
        exact ite_keeps (settle_keeps h6 _) h6

theorem readCells_keeps (r : Row) (f : Fields) (vec : Bool) (addr : State → Group → Nat → Dword) : I.R (readCells r f s vec addr) := by
  unfold readCells
  refine issue_keeps hs fun g hg => ?_
  have hok := oks hs hg
  dsimp only
  repeat' split
  all_goals grind [mk_keeps, advance_keeps, markEmpty_keeps, raiseNow_keeps, startAccess_keeps, R_next, oks]

theorem vldf_keeps (f : Fields) : I.R (execVldf f s) := by
  unfold execVldf
  simp [readCells_keeps, hs]

theorem sldf_keeps (f : Fields) : I.R (execSldf f s) := by
  unfold execSldf
  simp [readCells_keeps, hs]

theorem fdom_keeps (gid : Nat) (g : Group) (reason : Nat) (addr : Dword) : I.R (fdom s gid g reason addr) := by
  unfold fdom
  simp [trap_keeps, hs]

theorem withDomain_keeps (gid : Nat) (g : Group) (did : Nat) (active : Bool) {k : Domain → Res} (hk : ∀ d, I.R (k d)) :
    I.R (withDomain s gid g did active k) := by
  unfold withDomain
  split
  · exact fdom_keeps hs ..
  · split
    · exact fdom_keeps hs ..
    · split
      · exact fdom_keeps hs ..
      · split
        · exact fdom_keeps hs ..
        · exact hk _

theorem askHomes_keeps (d : Domain) (did : Nat) : I.P (s.askHomes d did) := by
  unfold State.askHomes
  exact ite_keeps (foldl_keeps hs (fun t _ ht => emit_keeps ht _) _) (emit_keeps hs _)

theorem beginSnaps_keeps  : I.P (s.beginSnaps) := by
  grind [State.beginSnaps, foldl_keeps, mk_keeps, askHomes_keeps, oks]

theorem askTotal_keeps (did figure : Nat) (who : Asker) : I.P (s.askTotal did figure who) := by
  grind [State.askTotal, mk_keeps, newId_keeps, beginSnaps_keeps, oks]

theorem ftot_keeps (f : Fields) : I.R (execFtot f s) := by
  unfold execFtot
  refine issue_keeps hs fun g hg => withDomain_keeps hs _ _ _ _ fun d => ?_
  split
  · exact advance_keeps (later_keeps hs ..) ..
  · exact advance_keeps (askTotal_keeps (markEmpty_keeps hs ..) ..) ..

theorem bitmap_keeps (c : BitVec 8) (va n : Nat) : I.P (s.bitmap c va n).1 := by
  unfold State.bitmap
  repeat' split
  all_goals simp [*, readPieces_keeps]

theorem declare_keeps (c : BitVec 8) (b : List Byte) : I.P (s.declare c b).1 := by
  grind [State.declare, foldl_keeps, mk_keeps, bitmap_keeps, oks]

theorem fdecl_keeps (f : Fields) : I.R (execFdecl f s) := by
  unfold execFdecl
  refine issue_keeps hs fun g hg => withBytes_keeps hs _ _ _ _ _ fun t b ht => ?_
  split
  · exact fdom_keeps ht ..
  · dsimp -zeta only
    extract_lets -underBinder did s1 s2 s3 s4
    have h1 : I.P s1 := ite_keeps (unclean_keeps (declare_keeps ht ..) _) (declare_keeps ht ..)
    have h3 : I.P s3 := setDomain_keeps (markEmpty_keeps h1 ..) ..
    have h4 : I.P s4 := ite_keeps h3 (emit_keeps h3 _)
    split
    · exact advance_keeps (later_keeps h1 ..) ..
    · exact advance_keeps h4 ..

theorem endDomain_keeps (did : Nat) : I.P (s.endDomain did) := by
  unfold State.endDomain
  exact I.rest hs rfl rfl rfl

theorem fdrop_keeps (f : Fields) : I.R (execFdrop f s) := by
  unfold execFdrop
  refine issue_keeps hs fun g hg => withDomain_keeps hs _ _ _ _ fun d => ?_
  extract_lets -underBinder others s1 s2
  have h1 : I.P s1 := ite_keeps (unclean_keeps hs _) hs
  have h2 : I.P s2 := ite_keeps h1 (emit_keeps (setDomain_keeps h1 ..) _)
  split
  · exact stall_keeps h2 ..
  · exact advance_keeps (endDomain_keeps h2 _) ..

theorem fattr_keeps (f : Fields) : I.R (execFattr f s) := by
  unfold execFattr
  refine issue_keeps hs fun g hg => withDomain_keeps hs _ _ _ _ fun d => ?_
  extract_lets -underBinder look
  split
  · exact raiseNow_keeps hs ..
  · split
    · exact fdom_keeps hs ..
    · rename_i c _
      extract_lets -underBinder j at_ others s1
      have h1 : I.P s1 := ite_keeps (unclean_keeps hs _) hs
      clear_value s1
      split
      · exact fdom_keeps h1 ..
      · rename_i l _
        have hr := readPieces_keeps h1 l
        dsimp -zeta only
        generalize s1.readPieces l = q at hr ⊢
        obtain ⟨t1, byte⟩ := q
        have hv := readCell_keeps hr c.il c.key d.width
        dsimp -zeta only
        generalize t1.readCell c.il c.key d.width = q at hv ⊢
        obtain ⟨t2, val⟩ := q
        dsimp -zeta only
        split
        · split
          · exact fdom_keeps hv ..
          · split
            · exact fdom_keeps hv ..
            · exact advance_keeps (setDomain_keeps (writePieces_keeps hv ..) ..) ..
        · exact consume_keeps hv _

theorem fgup_keeps (f : Fields) : I.R (execFgup f s) := by
  unfold execFgup
  refine issue_keeps hs fun g hg => withDomain_keeps hs _ _ _ _ fun d => ?_
  split
  · exact fdom_keeps hs ..
  · exact advance_keeps (setDomain_keeps (ite_keeps (unclean_keeps hs _) hs) ..) ..

theorem acted_keeps (m : Nat) (p : Option Packet) : I.P (s.acted m p) := by
  unfold State.acted
  repeat' split
  all_goals simp only [*, mk_keeps, ackPacket_keeps]

theorem parkMsg_keeps (m : Nat) : I.P (s.parkMsg m) := by
  unfold State.parkMsg
  repeat' split
  all_goals simp only [*, mk_keeps]

theorem onMsg_keeps (m : Nat) (k : FKind) (ready : State → FMsg → Option Packet → Bool)
    {f : State → FMsg → Option Packet → Option (State × Bool)} (hf : ∀ x p, ∀ q ∈ f s x p, I.P q.1) : I.R (onMsg s m k ready f) := by
  unfold onMsg
  split
  · exact hs
  · split
    · exact hs
    · split
      · exact parkMsg_keeps hs _
      · split
        · exact hs
        · rename_i h
          have ht := hf _ _ _ h
          exact ite_keeps (acted_keeps ht ..) (parkMsg_keeps ht _)

theorem acts_keeps : ∀ q ∈ acts s, I.P q.1 := by
  rintro _ ⟨⟩
  exact hs

theorem debitLane_keeps (x : Xfer) (m : FMsg) (l : FLane) : I.P (s.debitLane x m l) := by
  grind [State.debitLane, mk_keeps, consume_keeps, modHome_keeps, readCell_keeps, writeCell_keeps, resolve_keeps, oks]

theorem debit_keeps (m : Nat) : I.R (execDebit m s) := by
  unfold execDebit
  refine onMsg_keeps hs _ _ _ fun d p => ?_
  split
  · exact acts_keeps hs
  · rename_i x _
    extract_lets now
    split
    · split
      · rintro _ ⟨⟩
      · rintro _ ⟨⟩
        exact unclean_keeps (releaseHeld_keeps hs _) _
    · split
      · rename_i t ht
        rintro _ ⟨⟩
        exact remote_keeps hs _ _ _ t ht
      · have h1 : I.P (if x.rel && x.scope = 1 then s.addPoint x.node x.gid x.id else s) := ite_keeps (addPoint_keeps hs ..) hs
        have h2 := foldl_keeps h1 (fun t l ht => debitLane_keeps ht x d l) now
        dsimp only
        split
        · rintro _ ⟨⟩
          exact mk_keeps h2
        · split
          · exact acts_keeps h2
          · exact acts_keeps (ite_keeps (settle_keeps (mk_keeps h2) _) (mk_keeps h2))

theorem go_keeps (m : Nat) : I.R (execGo m s) := by
  unfold execGo
  exact onMsg_keeps hs _ _ _ fun d _ => acts_keeps (foldl_keeps hs (fun t _ ht => sendOffer_keeps (setMortar_keeps ht ..) ..) _)

theorem returnAmount_keeps (m : Nat) : I.R (execReturnAmount m s) := by
  unfold execReturnAmount
  refine onMsg_keeps hs _ _ _ fun d _ => ?_
  rintro _ ⟨⟩
  exact foldl_keeps hs (fun t _ ht => freeMortar_keeps (giveBack_keeps ht _) _) _

theorem decideOffer_keeps (n : Nat) (o : FMsg) (key il : Nat) (st : DState) : I.P (s.decideOffer n o key il st) := by
  grind [State.decideOffer, decide_keeps, setDedup_keeps, reply_keeps, oks]

theorem offer_keeps (m : Nat) : I.R (execOffer m s) := by
  unfold execOffer
  refine onMsg_keeps hs _ _ _ fun o _ => ?_
  split
  · exact acts_keeps (reply_keeps hs ..)
  · split
    · exact acts_keeps (decideOffer_keeps hs ..)
    · rename_i key il d _
      dsimp only
      split
      · rintro _ ⟨⟩
      · have hr := readCell_keeps hs il key d.width
        generalize s.readCell il key d.width = q at hr ⊢
        obtain ⟨t, c⟩ := q
        dsimp only
        split
        · exact acts_keeps (reply_keeps hr ..)
        · exact acts_keeps (decideOffer_keeps hr ..)

theorem accept_keeps (m : Nat) : I.R (execAccept m s) := by
  unfold execAccept
  refine onMsg_keeps hs _ _ _ fun a _ => ?_
  split
  · exact acts_keeps (sendField_keeps hs ..)
  · split
    · exact acts_keeps (sendOffer_keeps (setMortar_keeps hs ..) ..)
    · exact acts_keeps (sendOffer_keeps hs ..)
    · exact acts_keeps hs

theorem sendAck_keeps (dev mseq tag did : Nat) : I.P (s.sendAck dev mseq tag did) := by
  unfold State.sendAck
  simp [sendField_keeps, hs]

theorem refund_keeps (r : Mortar) (code reason : Nat) : I.P (s.refund r code reason) := by
  grind [State.refund, freeMortar_keeps, sendStatus_keeps, withdrawn_keeps, giveBack_keeps, sendAck_keeps, oks]

theorem ovf_keeps (m : Nat) : I.R (execOvf m s) := by
  unfold execOvf
  refine onMsg_keeps hs _ _ _ fun a _ => ?_
  split
  · exact acts_keeps (sendAck_keeps hs ..)
  · exact acts_keeps (ite_keeps (refund_keeps hs ..) hs)

theorem refuse_keeps (m : Nat) : I.R (execRefuse m s) := by
  unfold execRefuse
  refine onMsg_keeps hs _ _ _ fun a _ => ?_
  split
  · exact acts_keeps (sendAck_keeps hs ..)
  · exact acts_keeps (ite_keeps (refund_keeps hs ..) hs)

theorem busy_keeps (m : Nat) : I.R (execBusy m s) := by
  unfold execBusy
  exact onMsg_keeps hs _ _ _ fun a _ => acts_keeps (setMortar_keeps hs ..)

theorem offerResend_keeps (mseq : Nat) : I.R (execOfferResend mseq s) := by
  unfold execOfferResend
  repeat' split
  all_goals simp [*, setMortar_keeps, sendOffer_keeps]

theorem creditLocal_keeps (c : FMsg) (r : Mortar) : I.P (s.creditLocal c r) := by
  grind [State.creditLocal, mk_keeps, consume_keeps, send_keeps, readCell_keeps, writeCell_keeps, decide_keeps, oks]

theorem credit_keeps (m : Nat) : I.R (execCredit m s) := by
  unfold execCredit
  refine onMsg_keeps hs _ _ _ fun c p => ?_
  split
  · split
    · exact acts_keeps hs
    · split
      · rintro _ ⟨⟩
      · dsimp only
        split
        · rename_i t ht
          rintro _ ⟨⟩
          exact remote_keeps hs _ _ _ t ht
        · exact acts_keeps (creditLocal_keeps hs ..)
  · split
    · exact acts_keeps hs
    · split
      · split
        · rintro _ ⟨⟩
        · exact acts_keeps (reply_keeps (setDedup_keeps (addCell_keeps hs ..) ..) ..)
      · exact acts_keeps (reply_keeps hs ..)

theorem done_keeps (m : Nat) : I.R (execDone m s) := by
  unfold execDone
  refine onMsg_keeps hs _ _ _ fun a p => ?_
  split
  · exact acts_keeps (ite_keeps (sendAck_keeps hs ..) hs)
  · split
    · have h1 := fun (r : Mortar) => sendStatus_keeps (freeMortar_keeps hs r.seq) r 0 0
      exact acts_keeps (ite_keeps (sendAck_keeps (h1 _) ..) (h1 _))
    · exact acts_keeps hs

theorem ack_keeps (m : Nat) : I.R (execAck m s) := by
  unfold execAck
  refine onMsg_keeps hs _ _ _ fun a _ => ?_
  split
  · exact acts_keeps hs
  · exact acts_keeps (dropDedup_keeps hs ..)

theorem cancel_keeps (m : Nat) : I.R (execCancel m s) := by
  unfold execCancel
  refine onMsg_keeps hs _ _ _ fun a _ => ?_
  split
  · exact acts_keeps (ite_keeps hs (dropDedup_keeps hs ..))
  · exact acts_keeps (decide_keeps hs _)

theorem status_keeps (m : Nat) : I.R (execStatus m s) := by
  unfold execStatus
  exact onMsg_keeps hs _ _ _ fun a _ => acts_keeps (resolve_keeps hs ..)

theorem giveUp_keeps (r : Mortar) : I.P (s.giveUp r) := by
  unfold State.giveUp
  grind [mk_keeps, setMortar_keeps, sendStatus_keeps, withdrawn_keeps, giveBack_keeps, sendOffer_keeps, oks]

theorem execGiveUp_keeps (mseq : Nat) : I.R (execGiveUp mseq s) := by
  unfold execGiveUp
  repeat' split
  all_goals simp [*, giveUp_keeps]

theorem fieldArrives_keeps (m : FMsg) (p : Packet) : I.P (s.fieldArrives m p) := by
  grind [State.fieldArrives, mk_keeps, newId_keeps, ackPacket_keeps, giveUp_keeps, oks]

theorem answerResend_keeps (dev mseq : Nat) : I.R (execAnswerResend dev mseq s) := by
  unfold execAnswerResend
  repeat' split
  all_goals simp [*, setDedup_keeps, reply_keeps]

theorem holdHome_keeps (owner snap did : Nat) (d : Domain) : I.P (s.holdHome owner snap did d) := by
  unfold State.holdHome
  simp [modHome_keeps, hs]

theorem hold_keeps (snap owner : Nat) : I.R (execHold snap owner s) := by
  unfold execHold
  split
  · split
    · exact hs
    · extract_lets -underBinder held late a s1
      have h1 : I.P s1 := ite_keeps (holdHome_keeps hs ..) hs
      clear_value s1
      split
      · exact hs
      · exact ite_keeps h1 (mk_keeps h1)
  · extract_lets -underBinder did
    clear_value did
    split
    · exact hs
    · generalize (_ || _) = c
      refine ite_R hs ?_
      exact emit_keeps (holdHome_keeps hs _ _ _ _) _

theorem endSnap_keeps (x : Snap) : I.P (s.endSnap x) := by
  unfold State.endSnap
  extract_lets -underBinder s1 _ s2 others s3
  have h1 : I.P s1 := mapNodes_keeps hs fun _ => List.Subset.refl _
  have h2 : I.P s2 := mk_keeps h1
  have h3 : I.P s3 := by
    dsimp only [s3]
    split
    · exact h2
    · exact ite_keeps (foldl_keeps h2 (fun t _ ht => emit_keeps ht _) _) h2
  exact beginSnaps_keeps h3

theorem answerSnap_keeps (x : Snap) (d : Domain) (late : Option Nat) : I.P (s.answerSnap x d late) := by
  unfold State.answerSnap
  repeat' split
  all_goals grind [emit_keeps, tryRetire_keeps, deliverS_keeps, raise_keeps, oks]

theorem snapshotRelease_keeps (snap : Nat) : I.R (execSnapshotRelease snap s) := by
  unfold execSnapshotRelease
  repeat' split
  all_goals simp [*, mapNodes_keeps, endSnap_keeps, answerSnap_keeps]

theorem snapshotTimeout_keeps (snap : Nat) : I.R (execSnapshotTimeout snap s) := by
  unfold execSnapshotTimeout
  repeat' split
  all_goals simp [*, endSnap_keeps, answerSnap_keeps]

theorem holdSelfResume_keeps (snap owner : Nat) : I.R (execHoldSelfResume snap owner s) := by
  unfold execHoldSelfResume
  repeat' split
  all_goals simp [*, modHome_keeps]

theorem endDecl_keeps (d : Domain) (status : Nat) : I.P (s.endDecl d status) := by
  unfold State.endDecl
  repeat' split
  all_goals simp [*, tryRetire_keeps, deliverS_keeps]

theorem domainActivation_keeps (did : Nat) (reports : List (Nat × BitVec 64)) : I.R (execDomainActivation did reports s) := by
  unfold execDomainActivation
  split
  · exact hs
  · split
    · exact hs
    · exact endDecl_keeps (setDomain_keeps (ite_keeps (foldl_keeps hs (fun t _ ht => emit_keeps ht _) _) hs) ..) ..

theorem fdeclTimeout_keeps (did : Nat) : I.R (execFdeclTimeout did s) := by
  unfold execFdeclTimeout
  split
  · exact hs
  · split
    · exact hs
    · exact endDecl_keeps (mk_keeps hs) ..

end Sys2Proof.Proofs.Inv
end

section
/-! What is kept by snapshots, counters and queues: one lemma per operation of the model. -/

namespace Sys2Proof.Proofs.Inv

open Sys2Proof Sys2Proof.Machine Sys2Proof.Claims

variable {I : Inv} {s : State} (hs : I.P s)

include hs

theorem unready_keeps (req part : Nat) : I.R (s.unready req part) := by
  unfold State.unready
  repeat' split
  all_goals simp [*, unclean_keeps, releaseHeld_keeps]

theorem acquiredBy_keeps (a : Access) : I.P (s.acquiredBy a) := by
  unfold State.acquiredBy
  repeat' split
  all_goals simp [*, acquired_keeps]

theorem lost_keeps (a : Access) (p : Part) : I.P (s.lost a p) := by
  unfold State.lost
  repeat' split
  all_goals simp only [*, mk_keeps, consume_keeps, failPart_keeps]

theorem readRb_keeps (a : Access) (p : Part) (key : Nat) : I.P (s.readRb a p key).1 := by
  grind [State.readRb, readAt_keeps, fillRb_keeps, oks]

theorem loadReply_keeps (req part : Nat) : I.R (execLoadReply req part s) := by
  unfold execLoadReply
  split
  · exact unready_keeps hs ..
  · rename_i a p key _
    have hr := readAt_keeps hs p.il key p.len
    extract_lets -underBinder buffered
    clear_value buffered
    split
    · refine remotely_keeps hs _ _ _ _ (ite_R ?_ ?_)
      · have hb := readRb_keeps hs a p key
        dsimp -zeta only
        generalize s.readRb a p key = r at hb ⊢
        split
        · exact lost_keeps hb ..
        · exact partDone_keeps hb ..
      · dsimp -zeta only
        generalize s.readAt p.il key p.len = r at hr ⊢
        split
        · exact lost_keeps hr ..
        · exact partDone_keeps (acquiredBy_keeps (addDeps_keeps hr ..) _) ..
    · refine remotely_keeps hs _ _ _ _ ?_
      dsimp -zeta only
      generalize s.readAt p.il key p.len = r at hr ⊢
      split
      · exact lost_keeps hr ..
      · exact partDone_keeps (acquiredBy_keeps hr _) ..
    · exact partDone_keeps hs ..
    · exact hs

theorem homePoint_keeps (a : Access) (p : Part) : I.P (s.homePoint a p) := by
  unfold State.homePoint
  repeat' split
  all_goals simp [*, addPoint_keeps]

theorem storeAtHome_keeps (req part : Nat) : I.R (execStoreAtHome req part s) := by
  unfold execStoreAtHome
  split
  · exact unready_keeps hs ..
  · split
    · refine pump_keeps (partDone_keeps (homePoint_keeps (writeAt_keeps ?_ ..) ..) ..)
      split
      · exact hs
      · exact logBytes_keeps hs ..
    · exact hs

theorem atomicAtHome_keeps (req part : Nat) : I.R (execAtomicAtHome req part s) := by
  unfold execAtomicAtHome
  split
  · exact unready_keeps hs ..
  · rename_i a p key _
    extract_lets -underBinder go v c
    have hgo : ∀ new crossed, I.R (go new crossed) := by
      intro new crossed
      have hr := readAt_keeps hs p.il key p.len
      dsimp -zeta only [go]
      generalize s.readAt p.il key p.len = r at hr ⊢
      split
      · exact lost_keeps hr ..
      · rename_i bs _
        extract_lets -underBinder old t1 t2
        have h1 : I.P t1 := by
          dsimp only [t1]
          split
          · exact hr
          · exact homePoint_keeps (writeAt_keeps hr ..) ..
        clear_value t1
        have h2 : I.P t2 := ite_keeps (answerAll_keeps h1 _) h1
        clear_value t2
        exact pump_keeps (partDone_keeps (acquiredBy_keeps h2 _) ..)
    clear_value go
    refine remotely_keeps hs _ _ _ _ ?_
    split
    · exact hgo ..
    · exact hgo ..
    · exact hs

theorem endSleep_keeps (gid : Nat) : I.P (s.endSleep gid) := by
  grind [State.endSleep, mk_keeps, setGroup_keeps, rouse_keeps, oks]

/-- A registration enters a wait: it keeps what the lists of waits do not matter to. -/
theorem waitRegistration_keeps (hn : ∀ {t : State}, I.P t → ∀ (n : Nat) (x : Node), I.P (t.setNode n x)) (req part : Nat) :
    I.R (execWaitRegistration req part s) := by
  unfold execWaitRegistration
  split
  · exact unready_keeps hs ..
  · rename_i a p key _
    have hr := readAt_keeps hs p.il key 4
    split
    · dsimp -zeta only
      generalize s.readAt p.il key 4 = r at hr ⊢
      split
      · exact lost_keeps hr ..
      · exact ite_keeps (partDone_keeps (acquiredBy_keeps (endSleep_keeps hr _) _) ..) (hn (newId_keeps (mk_keeps hr)) _ _)
    · exact hs

theorem answer_keeps (w : WaitEntry) (x : Option Word) : I.P (s.answer w x) := by
  unfold State.answer
  have h1 : I.P (s.mapNodes (fun n => { n with waits := n.waits.filter (fun v => v.id ≠ w.id) })) :=
    mapNodes_keeps hs fun n => List.map_subset _ (List.filter_subset_self _)
  dsimp only
  split
  · exact h1
  · split
    · exact h1
    · split
      · exact lost_keeps h1 ..
      · exact partDone_keeps (acquiredBy_keeps (endSleep_keeps h1 _) _) ..

theorem waitAnswer_keeps (entry : Nat) : I.R (execWaitAnswer entry s) := by
  unfold execWaitAnswer
  repeat' split
  all_goals simp [*, answer_keeps]

theorem wwaittTimeout_keeps (entry : Nat) : I.R (execWwaittTimeout entry s) := by
  unfold execWwaittTimeout
  repeat' split
  all_goals simp [*, readAt_keeps, answer_keeps]

theorem sleepExpiry_keeps (gid : Nat) : I.R (execSleepExpiry gid s) := by
  unfold execSleepExpiry
  split
  · exact hs
  · rename_i g hg
    have hok := oks hs hg
    split
    · exact ite_R (rouse_keeps (setGroup_keeps hs (by exact hok)) ..) hs
    · exact hs

theorem coreWake_keeps (core : Nat) : I.R (execCoreWake core s) := by
  unfold execCoreWake
  repeat' split
  all_goals simp [*, wake_keeps]

theorem wcLineAgeDrain_keeps (core line : Nat) : I.R (execWcLineAgeDrain core line s) := by
  unfold execWcLineAgeDrain
  repeat' split
  all_goals simp [*, closeLines_keeps, pump_keeps]

theorem lineAcked_keeps (core line reason : Nat) : I.P (s.lineAcked core line reason) := by
  unfold State.lineAcked
  repeat' split
  all_goals simp [*, endLine_keeps, pump_keeps]

theorem setShard_keeps (q core : Nat) (l : List Rec) : I.P (s.setShard q core l) := by
  unfold State.setShard
  exact I.rest hs rfl rfl rfl

theorem takeRec_keeps (q core : Nat) (r : Rec) : I.P (s.takeRec q core r) := by
  unfold State.takeRec
  exact I.rest hs rfl rfl rfl

theorem setGot_keeps (id : Nat) (got : Option (Nat × Nat × List Byte)) : I.P (s.setGot id got) := by
  unfold State.setGot
  exact I.rest hs rfl rfl rfl

theorem assign_keeps (q core : Nat) : I.P (s.assign q core) := by
  unfold State.assign
  repeat' split
  all_goals simp [*, takeRec_keeps, setGot_keeps]

theorem appendRec_keeps (q core prio : Nat) (b : List Byte) : I.P (s.appendRec q core prio b) := by
  grind [State.appendRec, mk_keeps, writeRun_keeps, setShard_keeps, assign_keeps, oks]

theorem opDone_keeps (a : Attach) (status count : Nat) : I.P (s.opDone a status count) := by
  unfold State.opDone
  repeat' split
  all_goals simp [*, complete_keeps]

theorem addMsg_keeps (m : OutMsg) : I.P (s.addMsg m) := by
  unfold State.addMsg
  exact I.rest hs rfl rfl rfl

theorem fireOp_keeps (a : Attach) : I.P (s.fireOp a) := by
  unfold State.fireOp
  repeat' split
  all_goals simp only [*, mk_keeps, newId_keeps, request_keeps, opDone_keeps, addMsg_keeps]

theorem fire_keeps (a : Attach) : I.P (s.fire a) := by
  unfold State.fire
  repeat' split
  all_goals simp only [*, mk_keeps, appendRec_keeps, fireOp_keeps]

theorem fireAll_keeps (n : Nat) : I.P (s.fireAll n) := by
  grind [State.fireAll, foldl_keeps, mk_keeps, fire_keeps, oks]

theorem setCounter_keeps (n : Nat) (v : Word) : I.P (s.setCounter n v) := by
  unfold State.setCounter
  simp only [*, mk_keeps, fireAll_keeps]

theorem post_keeps (a : Attach) : I.P (s.post a) := by
  grind [State.post, mk_keeps, newId_keeps, fireAll_keeps, oks]

theorem qBad_keeps (gid reason q : Nat) : I.R (qBad s gid reason q) := by
  unfold qBad
  simp [trapPlain_keeps, hs]

theorem releasing_keeps (gid : Nat) (g : Group) (scope : Nat) {k : State → Res} (hk : ∀ t, I.P t → I.R (k t)) :
    I.R (releasing s gid g scope k) := by
  unfold releasing
  have h1 := beginRelease_keeps hs gid g scope
  exact ite_R (stall_keeps h1 ..) (hk _ (ite_keeps (raiseStores_keeps h1 ..) h1))

theorem counterAdd_keeps (r : Row) (f : Fields) (sub : Bool) : I.R (counterAdd r f s sub) := by
  unfold counterAdd
  refine issue_keeps hs fun g _ => ite_R (qBad_keeps hs ..) (releasing_keeps hs _ _ _ fun t ht => ?_)
  exact advance_keeps (later_keeps (setCounter_keeps (unclean_keeps ht _) ..) ..) ..

theorem ecinc_keeps (f : Fields) : I.R (execEcinc f s) := by
  unfold execEcinc
  simp [counterAdd_keeps, hs]

theorem ecdec_keeps (f : Fields) : I.R (execEcdec f s) := by
  unfold execEcdec
  simp [counterAdd_keeps, hs]

theorem ecrd_keeps (f : Fields) : I.R (execEcrd f s) := by
  unfold execEcrd
  refine issue_keeps hs fun g hg => ?_
  have hok := oks hs hg
  dsimp only
  repeat' split
  all_goals grind [advance_keeps, later_keeps, acquired_keeps, qBad_keeps, R_next, oks]

theorem ecset_keeps (n : Nat) (v : Word) (own : Bool) : I.P (s.ecset n v own) := by
  unfold State.ecset
  repeat' split
  all_goals simp only [*, mk_keeps, setCounter_keeps]

theorem execEcset_keeps (f : Fields) : I.R (execEcset f s) := by
  unfold execEcset
  refine issue_keeps hs fun g hg => ?_
  have hok := oks hs hg
  dsimp only
  grind [advance_keeps, unclean_keeps, ecset_keeps, R_next, oks]

theorem trpost_keeps (f : Fields) : I.R (execTrpost f s) := by
  unfold execTrpost
  refine issue_keeps hs fun g _ => withBytes_keeps hs _ _ _ _ _ fun t b ht => ?_
  exact ite_R (qBad_keeps ht ..) (ite_R (qBad_keeps ht ..) (ite_R (qBad_keeps ht ..) (advance_keeps (post_keeps (unclean_keeps ht _) _) ..)))

theorem trcan_keeps (f : Fields) : I.R (execTrcan f s) := by
  unfold execTrcan
  refine issue_keeps hs fun g hg => ?_
  have hok := oks hs hg
  dsimp only
  grind [mk_keeps, advance_keeps, unclean_keeps, R_next, oks]

theorem cqpost_keeps (f : Fields) : I.R (execCqpost f s) := by
  unfold execCqpost
  refine issue_keeps hs fun g _ => ite_R (qBad_keeps hs ..) (releasing_keeps hs _ _ _ fun t ht => ?_)
  exact advance_keeps (raiseMsix_keeps (record_keeps (unclean_keeps ht _) ..)) ..

theorem cqpoll_keeps (f : Fields) : I.R (execCqpoll f s) := by
  unfold execCqpoll
  refine issue_keeps hs fun g _ => ?_
  dsimp -zeta only
  extract_lets -underBinder k
  split
  · exact qBad_keeps hs ..
  · rename_i e _
    have hr := readHeader_keeps hs e
    refine ite_R (qBad_keeps hs ..) ?_
    generalize s.readHeader e = r at hr ⊢
    exact ite_R (advance_keeps (markEmpty_keeps (newId_keeps (mk_keeps hr)) ..) ..) (advance_keeps (acquired_keeps (later_keeps hr ..) ..) ..)

theorem tqenq_keeps (f : Fields) : I.R (execTqenq f s) := by
  unfold execTqenq
  refine issue_keeps hs fun g _ => notVisitor_keeps hs _ _ (ite_R (qBad_keeps hs ..) (withBytes_keeps hs _ _ _ _ _ fun t b ht => ?_))
  refine ite_R (qBad_keeps ht ..) (ite_R (qBad_keeps ht ..) (releasing_keeps ht _ _ _ fun u hu => ?_))
  exact advance_keeps (appendRec_keeps (unclean_keeps hu _) ..) ..

theorem giveRec_keeps (gid q off : Nat) (bs : List Byte) : I.P (s.giveRec gid q off bs) := by
  unfold State.giveRec
  split
  · exact hs
  · split
    · exact hs
    · refine acquired_keeps (modGroup_keeps ?_ _ (by exact fun _ => ⟨rfl, rfl⟩)) ..
      split
      · exact hs
      · exact writeRun_keeps (logBytes_keeps hs ..) ..

theorem closeAnswers_keeps (q : Nat) : I.P (s.closeAnswers q) := by
  grind [State.closeAnswers, foldl_keeps, mk_keeps, tryRetire_keeps, deliverS_keeps, acquired_keeps, oks]

theorem dequeue_keeps (r : Row) (f : Fields) (try_ : Bool) : I.R (execDequeue r f s try_) := by
  unfold execDequeue
  refine issue_keeps hs fun g _ => notVisitor_keeps hs _ _ (ite_R (qBad_keeps hs ..) (ite_R (qBad_keeps hs ..) ?_))
  extract_lets -underBinder t answer rq found
  have h1 : I.P t := unclean_keeps hs g.block
  clear_value t
  have ha : ∀ t x, I.P t → I.R (answer t x) := fun t x ht => advance_keeps (acquired_keeps (later_keeps ht ..) ..) ..
  split
  · exact ha _ _ (closeAnswers_keeps (giveRec_keeps (takeRec_keeps h1 ..) ..) _)
  · exact ha _ _ (closeAnswers_keeps (giveRec_keeps (setGot_keeps h1 ..) ..) _)
  · refine ite_R (ha _ _ h1) (ite_R (ha _ _ h1) ?_)
    exact advance_keeps (markEmpty_keeps (newId_keeps (mk_keeps h1)) ..) ..

theorem tqdeq_keeps (f : Fields) : I.R (execTqdeq f s) := by
  unfold execTqdeq
  simp [dequeue_keeps, hs]

theorem tqtry_keeps (f : Fields) : I.R (execTqtry f s) := by
  unfold execTqtry
  simp [dequeue_keeps, hs]

theorem tqdone_keeps (f : Fields) : I.R (execTqdone f s) := by
  unfold execTqdone
  refine issue_keeps hs fun g hg => notVisitor_keeps hs _ _ (ite_R (qBad_keeps hs ..) (ite_R (qBad_keeps hs ..) ?_))
  have hok := oks hs hg
  exact advance_keeps (unclean_keeps (setGroup_keeps hs (by exact hok)) _) ..

theorem tqatt_keeps (f : Fields) : I.R (execTqatt f s) := by
  unfold execTqatt
  refine issue_keeps hs fun g _ => notVisitor_keeps hs _ _ (ite_R (qBad_keeps hs ..) (withBytes_keeps hs _ _ _ _ _ fun t b ht => ?_))
  exact ite_R (qBad_keeps ht ..) (ite_R (qBad_keeps ht ..) (ite_R (qBad_keeps ht ..) (advance_keeps (post_keeps (unclean_keeps ht _) _) ..)))

theorem tqstat_keeps (f : Fields) : I.R (execTqstat f s) := by
  unfold execTqstat
  refine issue_keeps hs fun g hg => notVisitor_keeps hs _ _ (ite_R (qBad_keeps hs ..) ?_)
  exact advance_keeps (unclean_keeps (putDst_keeps hs ..) _) ..

theorem recordDelivery_keeps (queue core : Nat) : I.R (execRecordDelivery queue core s) := by
  unfold execRecordDelivery
  have h1 := assign_keeps hs queue core
  dsimp only
  split
  · exact closeAnswers_keeps (tryRetire_keeps (deliverS_keeps (giveRec_keeps (mk_keeps h1) ..) ..) _) _
  · exact h1

theorem firedRecordEntry_keeps (queue core : Nat) : I.R (execFiredRecordEntry queue core s) := by
  unfold execFiredRecordEntry
  split
  · exact hs
  · exact ite_R hs (appendRec_keeps (mk_keeps hs) ..)

theorem hostEnqueue_keeps (queue : Nat) (data : List (BitVec 8)) : I.R (execHostEnqueue queue data s) := by
  unfold execHostEnqueue
  exact ite_R hs (ite_R (mk_keeps hs) (mk_keeps (appendRec_keeps hs ..)))

end Sys2Proof.Proofs.Inv
end

section
/-! What is kept by accesses at their homes: one lemma per operation of the model. -/

namespace Sys2Proof.Proofs.Inv

open Sys2Proof Sys2Proof.Machine Sys2Proof.Claims

variable {I : Inv} {s : State} (hs : I.P s)

include hs

theorem recordFetch_keeps (core : Nat) : I.R (execRecordFetch core s) := by
  unfold execRecordFetch
  split
  · exact hs
  · rename_i addr ctx gid rest _
    extract_lets -underBinder drop
    have hd : I.P drop := modNode_keeps hs _ (by exact fun _ => rfl)
    clear_value drop
    split
    · exact hd
    · rename_i g _
      split
      · exact hd
      · rename_i l _
        refine ite_R hs ?_
        have hr := readOwn_keeps (lookUps_keeps hd g [BitVec.ofNat 64 addr]) gid g (l.flatMap (·.2))
        generalize (drop.lookUps g [BitVec.ofNat 64 addr]).readOwn gid g (l.flatMap (·.2)) = r at hr ⊢
        dsimp -zeta only
        split
        · exact consume_keeps hr _
        · exact cacheRec_keeps hr ..

theorem modCmd_keeps (id : Nat) (f : Cmd → Cmd) : I.P (s.modCmd id f) := by
  unfold State.modCmd
  exact I.rest hs rfl rfl rfl

theorem scrWrite_keeps (c : Cmd) (off : Nat) (bs : List Byte) : I.P (s.scrWrite c off bs) := by
  grind [State.scrWrite, unclean_keeps, writeRun_keeps, logBytes_keeps, oks]

theorem scrRead_keeps (c : Cmd) (off n : Nat) : I.P (s.scrRead c off n).1 := by
  grind [State.scrRead, readRun_keeps, consumeBlock_keeps, oks]

theorem ackPieces_keeps (id : Nat) (ps : List Nat) : I.P (s.ackPieces id ps) := by
  unfold State.ackPieces
  exact I.rest hs rfl rfl rfl

theorem remoteAt_keeps (c : Cmd) (put : Bool) (va : Nat) : I.P (s.remoteAt c put va).1 := by
  unfold State.remoteAt
  repeat' split
  all_goals simp [*, modCmd_keeps]

theorem remoteMsg_keeps (c : Cmd) (i kind d total : Nat) : I.P (s.remoteMsg c i kind d total) := by
  unfold State.remoteMsg
  exact I.rest hs rfl rfl rfl

theorem sendGets_keeps (c : Cmd) (remote : Nat) (ps : List (Nat × Nat × Nat)) : I.P (s.sendGets c remote ps) := by
  induction ps generalizing s with
  | nil => exact hs
  | cons p ps ih =>
    obtain ⟨i, off, len⟩ := p
    unfold State.sendGets
    have hr := remoteAt_keeps hs c false (remote + off)
    refine ih ?_
    split
    · rename_i t h
      rw [h] at hr
      exact ackPieces_keeps hr ..
    · rename_i t d a h
      rw [h] at hr
      exact enqueue_keeps (remoteMsg_keeps hr ..) ..

theorem sendPuts_keeps (c : Cmd) (remote len : Nat) : I.P (s.sendPuts c remote len) := by
  unfold State.sendPuts
  extract_lets -underBinder r
  have hr : I.P r.1 := by
    refine foldlPair_keeps hs (fun r p hr => ?_) _ _
    exact remoteAt_keeps hr ..
  refine foldl_keeps hr (fun t q ht => ?_) _
  split
  · exact ackPieces_keeps ht ..
  · dsimp only
    refine foldl_keeps (remoteMsg_keeps ht ..) (fun u p hu => ?_) _
    exact enqueue_keeps (scrRead_keeps hu ..) ..

theorem takeCmd_keeps (c : Cmd) : I.P (s.takeCmd c) := by
  unfold State.takeCmd
  extract_lets -underBinder s1
  have h1 : I.P s1 := by
    dsimp only [s1]
    split
    · exact ite_keeps (objDeliver_keeps hs ..) hs
    · exact hs
  split
  · exact flush_keeps (sendGets_keeps h1 ..)
  · exact flush_keeps (sendPuts_keeps h1 ..)
  · exact h1

theorem copyEngineIssue_keeps (gid : Nat) : I.R (execCopyEngineIssue gid s) := by
  unfold execCopyEngineIssue
  extract_lets -underBinder cores free found
  split
  · exact hs
  · rename_i n c _
    extract_lets -underBinder pop s1 s2
    have h1 : I.P s1 := modNode_keeps (modGroup_keeps hs _ (by exact fun _ => ⟨rfl, rfl⟩)) _ (by exact fun _ => rfl)
    have h2 : I.P s2 := ite_keeps (modCmd_keeps h1 ..) (mk_keeps h1)
    exact ite_R (ite_keeps (settleCopy_keeps hs _) (discard_keeps (mk_keeps hs) ..)) (takeCmd_keeps h2 _)

theorem engineRead_keeps (c : Cmd) (va n : Nat) : I.P (s.engineRead c va n).1 := by
  unfold State.engineRead
  refine foldlPair_keeps hs (fun r p hr => ?_) _ _
  extract_lets a
  split
  · exact modCmd_keeps hr ..
  · rename_i t _
    split
    · exact consumeBlock_keeps (walked_keeps hr ..) _
    · have h1 := readAt_keeps (lookUp_keeps hr c.node c.ctx (BitVec.ofNat 64 a)) (pteIl t.pte) t.key p.2
      split
      · rename_i h
        rw [h] at h1
        exact h1
      · rename_i h
        rw [h] at h1
        exact consumeBlock_keeps h1 _

theorem engineWrite_keeps (c : Cmd) (va : Nat) (bs : List Byte) (low : Bool) : I.P (s.engineWrite c va bs low) := by
  grind [State.engineWrite, foldl_keeps, writeAt_keeps, consumeBlock_keeps, walked_keeps, lookUp_keeps, modCmd_keeps, oks]

theorem loadRun_keeps (c : Cmd) (h : Shape) (o0 : Int) (r : RowRun) : I.P (s.loadRun c h o0 r).1 := by
  grind [State.loadRun, engineRead_keeps, oks]

theorem storeRun_keeps (c : Cmd) (h : Shape) (o0 : Int) (r : RowRun) : I.P (s.storeRun c h o0 r) := by
  grind [State.storeRun, scrRead_keeps, engineWrite_keeps, oks]

theorem moveScales_keeps (c : Cmd) (h : Shape) (lo n : Nat) : I.P (s.moveScales c h lo n) := by
  grind [State.moveScales, foldl_keeps, scrWrite_keeps, scrRead_keeps, engineRead_keeps, engineWrite_keeps, oks]

theorem contribution_keeps (c : Cmd) (x : Coll) (d : CollDesc) (rank off n : Nat) : I.P (s.contribution c x d rank off n).1 := by
  unfold State.contribution
  repeat' split
  all_goals simp [*, scrRead_keeps]

theorem collBytes_keeps (c : Cmd) (x : Coll) (d : CollDesc) (off n : Nat) : I.P (s.collBytes c x d off n).1 := by
  unfold State.collBytes
  split
  · exact contribution_keeps hs ..
  · exact contribution_keeps hs ..
  · dsimp only
    refine foldlPair_keeps (contribution_keeps hs ..) (fun r i hr => ?_) _ _
    exact contribution_keeps hr ..

theorem collPiece_keeps (c : Cmd) (x : Coll) (p : Nat) : I.P (s.collPiece c x p) := by
  grind [State.collPiece, mk_keeps, modBlock_keeps, modCmd_keeps, scrWrite_keeps, collBytes_keeps, oks]

theorem firedPiece_keeps (c : Cmd) (p : Nat) : I.P (s.firedPiece c p) := by
  unfold State.firedPiece
  extract_lets -underBinder src dst n
  cases s.run noNode c.ctx c.sup false (BitVec.ofNat 64 src) n with
  | none => exact modCmd_keeps hs ..
  | some l =>
    have hr := readPieces_keeps hs l
    dsimp -zeta only
    generalize s.readPieces l = r at hr ⊢
    split
    · exact modCmd_keeps hr ..
    · split
      · split
        · exact ite_keeps (writePieces_keeps hr ..) (modCmd_keeps hr ..)
        · exact modCmd_keeps hr ..
      · refine ite_keeps (modCmd_keeps hr ..) ?_
        exact flush_keeps (enqueue_keeps (ite_keeps (newMsg_keeps (addMsg_keeps hr _)) hr) ..)
      · exact modCmd_keeps hr ..

theorem engineFails_keeps (c : Cmd) : I.P (s.engineFails c) := by
  grind [State.engineFails, mk_keeps, setGroup_keeps, setBlock_keeps, modGrid_keeps, lost_keeps, oks]

theorem collRecord_keeps (c : Cmd) (x : Coll) : I.P (s.collRecord c x) := by
  unfold State.collRecord
  repeat' split
  all_goals simp [*, complete_keeps]

theorem boxPiece_keeps (c : Cmd) (p : Nat) : I.P (s.boxPiece c p) := by
  grind [State.boxPiece, scrWrite_keeps, loadRun_keeps, storeRun_keeps, moveScales_keeps, oks]

theorem pieceDelivery_keeps (cmd piece : Nat) : I.R (execPieceDelivery cmd piece s) := by
  unfold execPieceDelivery
  split
  · exact hs
  · rename_i c _
    extract_lets -underBinder ps s1 s2 now last x now' s3 s4
    have h1 : I.P s1 := by
      dsimp only [s1]
      split
      · exact hs
      · exact hs
      · cases s.block c.block with
        | none => exact hs
        | some b =>
          dsimp only
          split
          · exact hs
          · exact collPiece_keeps hs ..
      · exact firedPiece_keeps hs ..
      · exact boxPiece_keeps hs ..
    have h2 : I.P s2 := modCmd_keeps h1 ..
    have h3 : I.P s3 := engineFails_keeps h2 _
    have h4 : I.P s4 := by
      dsimp only [s4]
      clear_value x now'
      refine ite_keeps ?_ h2
      split
      · exact collRecord_keeps h3 ..
      · exact h3
    clear_value s4
    refine ite_R hs ?_
    show I.P _
    split
    · exact h4
    · exact ite_keeps h4 (foldl_keeps h4 (fun t q ht => objDeliver_keeps ht ..) _)

theorem commandComplete_keeps (cmd : Nat) : I.R (execCommandComplete cmd s) := by
  unfold execCommandComplete
  split
  · exact hs
  · rename_i c _
    extract_lets -underBinder s1 s2 msg drop s3
    have h1 : I.P s1 := mk_keeps hs
    have h2 : I.P s2 := by
      dsimp only [s2]
      split
      · exact modBlock_keeps (mk_keeps h1) ..
      · exact h1
    have hd : I.P (drop s2) := mk_keeps h2
    have h3 : I.P s3 := by
      dsimp only [s3]
      split
      · exact opDone_keeps h2 ..
      · exact ite_keeps hd (opDone_keeps hd ..)
      · exact opDone_keeps h2 ..
      · exact ite_keeps hd h2
      · exact h2
    exact ite_R hs (reap_keeps (rouseBatch_keeps (settleBatches_keeps h3 _) _))

theorem wcLineAck_keeps (core line status : Nat) : I.R (execWcLineAck core line status s) := by
  unfold execWcLineAck
  exact ite_R hs (flush_keeps (lineAcked_keeps (mk_keeps hs) ..))

end Sys2Proof.Proofs.Inv
end

section
/-! What is kept by engines, migration and the system instructions: one lemma per operation of the model. -/

namespace Sys2Proof.Proofs.Inv

open Sys2Proof Sys2Proof.Machine Sys2Proof.Claims

variable {I : Inv} {s : State} (hs : I.P s)

include hs

theorem mowner_keeps (f : Fields) : I.R (execMowner f s) := by
  unfold execMowner
  refine issue_keeps hs fun g hg => ?_
  have hok := oks hs hg
  dsimp only
  repeat' split
  all_goals grind [foldl_keeps, mk_keeps, advance_keeps, markEmpty_keeps, startAccess_keeps, R_next, oks]

theorem mtest_keeps (f : Fields) : I.R (execMtest f s) := by
  unfold execMtest
  refine issue_keeps hs fun g hg => ?_
  have hok := oks hs hg
  simp [*, advance_keeps, putDst_keeps]

theorem mjoin_keeps (f : Fields) : I.R (execMjoin f s) := by
  unfold execMjoin
  refine issueHold_keeps hs fun g hg => notVisitor_keeps hs _ _ ?_
  have hok := oks hs hg
  exact ite_R (trap_keeps hs ..) (ite_R (trap_keeps hs ..) (advance_keeps (setGroup_keeps hs (by exact ok_and_livem hok _)) ..))

omit hs in
theorem and_not_subset (a x : Word) : (a &&& ~~~x) &&& ~~~a = 0 := by
  ext j hj
  simp
  exact fun h _ => h

omit hs in
/-- The same lanes leave the smaller set and the larger one. -/
theorem and_not_mono {a b : Word} (h : a &&& ~~~b = 0) (x : Word) : (a &&& ~~~x) &&& ~~~(b &&& ~~~x) = 0 := by
  ext j hj
  have h1 := congrArg (fun w : Word => w[j]) h
  simp at h1 ⊢
  exact fun ha hx => ⟨h1 ha, hx⟩

/-- What the lanes of a group can have become in the course of an instruction. -/
theorem ok_since {t : State} (ht : ∀ J : Inv, J.P s → J.P t) {i : Nat} {g g' : Group} (hg : s.group i = some g) (hg' : t.group i = some g')
    {l e : Word} (h : g'.ctl.livem &&& ~~~g.ctl.livem = 0 → (g.ctl.exm &&& ~~~g.ctl.livem = 0 → g'.ctl.exm &&& ~~~g'.ctl.livem = 0) → I.Ok i l e) :
    I.Ok i l e := by
  rcases I.keys hs with hk | hk
  · obtain ⟨g₀, hg₀, hl, he⟩ := (ht _ (lanesSince_self hk)).2 _ (mem_of_find hg')
    have h0 := find_of_mem hk hg₀
    rw [show Sparse.find s.groups i = some g from hg] at h0
    cases h0
    exact h hl he
  · exact hk ..

theorem migr_keeps (f : Fields) : I.R (execMigr f s) := by
  unfold execMigr
  refine issue_keeps hs fun g hg => ?_
  have hok := oks hs hg
  extract_lets -underBinder vs ss
  refine ite_R (illop14_keeps hs ..) ?_
  split
  · exact trapPlain_keeps hs ..
  · exact trapPlain_keeps hs ..
  · split
    · exact stall_keeps hs ..
    · exact stall_keeps hs ..
    · refine ite_R (consume_keeps hs _) ?_
      split
      · exact raiseNow_keeps hs ..
      · unfold releasing
        have h1 : ∀ J : Inv, J.P s → J.P (s.beginRelease s.own.cur g 3) := fun J hs => beginRelease_keeps hs ..
        generalize s.beginRelease s.own.cur g 3 = u at h1 ⊢
        refine ite_R (stall_keeps (h1 I hs) ..) ?_
        dsimp -zeta only
        extract_lets -underBinder s1 away gone next shipped origin token vlist slist s2 s3 r s4 left s5 bit s6
        have h1 : ∀ J : Inv, J.P s → J.P s1 := fun J hs => lookUps_keeps (h1 J hs) ..
        have h2 : ∀ J : Inv, J.P s → J.P s2 := fun J hs => ite_keeps (h1 J hs) (unclean_keeps (h1 J hs) _)
        have h3 : ∀ J : Inv, J.P s → J.P s3 := fun J hs => foldl_keeps (h2 J hs) (fun t _ ht => newId_keeps (mk_keeps ht)) _
        have h4 : ∀ J : Inv, J.P s → J.P s4 := fun J hs => ite_keeps (h3 J hs) (newId_keeps (mk_keeps (h3 J hs)))
        have h5 : I.P s5 := writeV_keeps (h3 I hs) ..
        have h6 : I.P s6 := by
          refine modGroup_less h5 _ fun g' hok' => ?_
          show I.Ok _ (if away = 0 then g' else g'.markV f.h.toNat true).ctl.livem ((if away = 0 then g' else g'.markV f.h.toNat true).ctl.exm &&& ~~~gone)
          have hc : (if away = 0 then g' else g'.markV f.h.toNat true).ctl = g'.ctl := by split <;> simp
          rw [hc]
          exact ok_fewer hok' fun L _ h => by simp at h; exact h.1
        refine ite_R (ite_R (dropGroup_keeps (h4 I hs) _) (advance_keeps ?_ ..)) (advance_keeps h6 ..)
        unfold State.modGroup
        split
        · exact h4 I hs
        · rename_i g' hg'
          exact I.put (h4 I hs) (ok_since hs h4 hg hg' fun hl he =>
            I.less hok (and_not_subset ..) fun h => and_not_mono (and_not_trans (he h) hl) gone)

theorem mret_keeps (f : Fields) : I.R (execMret f s) := by
  unfold execMret
  exact issue_keeps hs fun g hg => ite_R (advance_keeps hs ..) (releasing_keeps hs _ _ _ fun t ht => endVisitor_keeps ht ..)

theorem fillSlot_keeps (slot : Nat) (c : Cont) : I.P (s.fillSlot slot c) := by
  unfold State.fillSlot
  exact ite_keeps hs (mkWrite_keeps hs ..)

theorem refuseCont_keeps (c : Cont) (reason : Nat) : I.P (s.refuseCont c reason) := by
  unfold State.refuseCont
  exact I.rest hs rfl rfl rfl

theorem continuationArrival_keeps (cont : Nat) : I.R (execContinuationArrival cont s) := by
  unfold execContinuationArrival
  split
  · exact hs
  · exact ite_R (refuseCont_keeps hs ..) (mk_keeps hs)

/-- A visitor is a new group: it keeps what new groups do not matter to. -/
theorem visitorStart_keeps (hn : ∀ {t : State}, I.P t → ∀ (i : Nat) (g : Group), I.P (t.setGroup i g)) (owner : Nat) :
    I.R (execVisitorStart owner s) := by
  unfold execVisitorStart
  split
  · extract_lets -underBinder g s1 s2
    have h1 : I.P s1 := fillSlot_keeps (mk_keeps hs) ..
    have h2 : I.P s2 := by
      dsimp only [s2]
      split
      · exact h1
      · exact modGrid_keeps h1 ..
    exact rouse_keeps (acquired_keeps (newSeq_keeps (newId_keeps (hn h2 ..))) ..) ..
  · exact hs

theorem migrationRefusal_keeps (cont : Nat) : I.R (execMigrationRefusal cont s) := by
  unfold execMigrationRefusal
  repeat' split
  all_goals simp [*, refuseCont_keeps]

theorem sendRet_keeps (id : Nat) : I.P (s.sendRet id) := by
  unfold State.sendRet
  exact I.rest hs rfl rfl rfl

theorem migrationReturn_keeps (ret : Nat) : I.R (execMigrationReturn ret s) := by
  unfold execMigrationReturn
  split
  · exact hs
  · rename_i r _
    extract_lets -underBinder s1
    have h1 : I.P s1 := mk_keeps hs
    clear_value s1
    split
    · exact h1
    · extract_lets -underBinder regs s2 s3 noted s4 word t
      have h2 : I.P s2 := foldl_keeps h1 (fun u i hu => deliverV_keeps hu ..) _
      have h3 : I.P s3 := acquired_keeps h2 ..
      have h4 : I.P s4 := modGroup_keeps h3 _ (by exact fun _ => ⟨rfl, rfl⟩)
      exact tryRetire_keeps (deliverV_keeps h4 ..) _

theorem sysrd_keeps (f : Fields) : I.R (execSysrd f s) := by
  unfold execSysrd
  refine issue_keeps hs fun g hg => ?_
  have hok := oks hs hg
  dsimp only
  repeat' split
  all_goals simp [*, advance_keeps, putDst_keeps, putPair_keeps, putW_keeps, putW2_keeps]

theorem syswr_keeps (f : Fields) : I.R (execSyswr f s) := by
  unfold execSyswr
  refine issue_keeps hs fun g hg => ?_
  have hok := oks hs hg
  extract_lets -underBinder v x put
  have hput : ∀ g' : Group, I.Ok s.own.cur g'.ctl.livem g'.ctl.exm → I.R (put g') := fun g' h => advance_keeps (setGroup_keeps hs h) ..
  clear_value put
  split
  · exact ite_R (illop14_keeps hs ..) (advance_keeps (pushed_keeps hs (by exact hok)) ..)
  · exact ite_R (illop14_keeps hs ..) (hput _ (by exact hok))
  · exact hput _ (by exact hok)
  · exact hput _ (by exact ok_and_livem hok x)
  · exact ite_R (illop14_keeps hs ..) (hput _ (by exact hok))
  · exact hput _ (by exact hok)

theorem trapAfter_keeps (gid : Nat) (g : Group) (n : Nat) (c : Cause) (aux : Dword) : I.R (trapAfter s gid g n c aux) := by
  unfold trapAfter
  simp [trapTo_keeps, hs]

theorem execTrap_keeps (f : Fields) : I.R (execTrap f s) := by
  unfold execTrap
  refine issue_keeps hs fun g hg => ?_
  have hok := oks hs hg
  simp [*, trapAfter_keeps]

theorem scall_keeps (f : Fields) : I.R (execScall f s) := by
  unfold execScall
  refine issue_keeps hs fun g hg => ?_
  have hok := oks hs hg
  simp [*, trapAfter_keeps]

theorem debugHalt_keeps {gid : Nat} {g : Group} (hok : I.Ok gid g.ctl.livem g.ctl.exm) (pc : Dword) : I.P (s.debugHalt gid g pc) := by
  unfold State.debugHalt
  extract_lets -underBinder _ _ _ g'
  have hok' : I.Ok gid g'.ctl.livem g'.ctl.exm := hok
  split
  · exact hs
  · exact ite_keeps (setBlock_keeps (setGroup_keeps hs hok') ..) (broadcastHalt_keeps (setBlock_keeps (setGroup_keeps hs hok') ..) ..)

theorem brk_keeps (f : Fields) : I.R (execBrk f s) := by
  unfold execBrk
  exact issue_keeps hs fun g hg => ite_R (debugHalt_keeps hs (oks hs hg) _) (trapAfter_keeps hs ..)

theorem leaveTrap_keeps (r : Row) (f : Fields) (sret : Bool) : I.R (leaveTrap r f s sret) := by
  unfold leaveTrap
  refine issue_keeps hs fun g hg => ?_
  have hok := oks hs hg
  repeat' split
  all_goals simp [*, trapPlain_keeps, popTrap_keeps, badKind_keeps]

theorem rft_keeps (f : Fields) : I.R (execRft f s) := by
  unfold execRft
  simp [leaveTrap_keeps, hs]

theorem sret_keeps (f : Fields) : I.R (execSret f s) := by
  unfold execSret
  simp [leaveTrap_keeps, hs]

theorem cka_keeps (f : Fields) : I.R (execCka f s) := by
  unfold execCka
  refine issue_keeps hs fun g hg => ?_
  have hok := oks hs hg
  simp [*, setGroup_keeps, advance_keeps]

theorem chk_keeps (f : Fields) : I.R (execChk f s) := by
  unfold execChk
  refine issue_keeps hs fun g hg => ?_
  have hok := oks hs hg
  repeat' split
  all_goals simp [*, setGroup_keeps, advance_keeps, trap_keeps]

theorem tlbinv_keeps (f : Fields) : I.R (execTlbinv f s) := by
  unfold execTlbinv
  refine issue_keeps hs fun g hg => ?_
  have hok := oks hs hg
  dsimp only
  repeat' split
  all_goals grind [mk_keeps, setGroup_keeps, newId_keeps, advance_keeps, illop14_keeps, R_next, oks]

theorem tlbinvAck_keeps (inv : Nat) : I.R (execTlbinvAck inv s) := by
  unfold execTlbinvAck
  split
  · exact hs
  · extract_lets -underBinder t s1 at_ s2
    have ht : I.P t := mapNodes_keeps hs fun _ => List.Subset.refl _
    have h2 : I.P s2 := newId_keeps (mk_keeps (mk_keeps ht))
    exact modGroup_keeps h2 _ (by exact fun _ => ⟨rfl, rfl⟩)

theorem tlbsync_keeps (f : Fields) : I.R (execTlbsync f s) := by
  unfold execTlbsync
  refine issue_keeps hs fun g hg => ?_
  have hok := oks hs hg
  dsimp only
  repeat' split
  all_goals grind [mk_keeps, setGroup_keeps, stall_keeps, advance_keeps, drainHeld_keeps, R_next, oks]

theorem icinv_keeps (f : Fields) : I.R (execIcinv f s) := by
  unfold execIcinv
  refine issue_keeps hs fun g hg => ?_
  have hok := oks hs hg
  simp [*, advance_keeps]

theorem walk_keeps (core gid : Nat) (va : BitVec 64) : I.R (execWalk core gid va s) := by
  unfold execWalk
  split
  · exact hs
  · exact ite_R hs (ite_keeps (consume_keeps (walked_keeps hs ..) _) (walked_keeps hs ..))

theorem reportRank_keeps (rank : Nat) : I.P (s.reportRank rank) := by
  unfold State.reportRank
  repeat' split
  all_goals simp only [*, mk_keeps, emit_keeps]

theorem addMark_keeps (rank pos : Nat) : I.P (s.addMark rank pos) := by
  grind [State.addMark, mk_keeps, count_keeps, reportRank_keeps, oks]

theorem einj_keeps (f : Fields) : I.R (execEinj f s) := by
  unfold execEinj
  refine issue_keeps hs fun g hg => ?_
  have hok := oks hs hg
  dsimp only
  repeat' split
  all_goals grind [mk_keeps, advance_keeps, illop14_keeps, lookUps_keeps, raiseNow_keeps, addMark_keeps, R_next, oks]

theorem scrub_keeps (key il : Nat) : I.P (s.scrub key il) := by
  unfold State.scrub
  repeat' split
  all_goals simp [*, count_keeps, readAt_keeps]

theorem escrub_keeps (f : Fields) : I.R (execEscrub f s) := by
  unfold execEscrub
  refine issue_keeps hs fun g hg => ?_
  have hok := oks hs hg
  dsimp only
  repeat' split
  all_goals grind [foldl_keeps, advance_keeps, illop14_keeps, lookUps_keeps, raiseNow_keeps, scrub_keeps, R_next, oks]

end Sys2Proof.Proofs.Inv
end

section
/-! What is kept by eviction and restoration: one lemma per operation of the model. -/

namespace Sys2Proof.Proofs.Inv

open Sys2Proof Sys2Proof.Machine Sys2Proof.Claims

variable {I : Inv} {s : State} (hs : I.P s)

include hs

theorem withoutBlock_keeps (p : Nat × Block) : I.P (s.withoutBlock p) := by
  unfold State.withoutBlock
  simp [setBlock_keeps, modNode_keeps, hs]

theorem copy_keeps (src dst n : Nat) : I.P (s.copy src dst n) := by
  unfold State.copy
  simp [writeRun_keeps, readRun_keeps, hs]

theorem evict_keeps (bid : Nat) (cand : Option Grid) : ∀ t ∈ s.evict bid cand, I.P t := by
  unfold State.evict
  split
  · rintro t ⟨⟩
  · split
    · rename_i b _ _ _ _ x save areas r _ _ _ _
      intro t ht
      extract_lets -underBinder groups needed same busy s1 G here s2 accsAt bits s3 s4 s5 s6 s7 run holding s8 s9 s10 at ht
      have h2 : I.P s2 := answerAll_keeps (releaseHeld_keeps hs _) _
      have h4 : I.P s4 := writeRun_keeps (copy_keeps h2 ..) ..
      have h5 : I.P s5 := foldl_keeps h4 (fun u _ hu => writeRun_keeps hu ..) _
      have h6 : I.P s6 := ite_keeps (foldl_keeps h5 (fun u _ hu => writeRun_keeps hu ..) _) h5
      have h7 : I.P s7 := foldl_keeps h6 (fun u _ hu => ite_keeps hu (copy_keeps hu ..)) _
      have h8 : I.P s8 := ite_keeps (setTags_keeps h7 ..) h7
      have h10 : I.P s10 := modBlock_keeps (modNode_keeps h8 _ (by exact fun _ => rfl)) ..
      clear_value s10
      split at ht
      · cases ht
      · cases ht
        refine foldl_keeps h10 (fun u i hu => modGroup_less hu _ fun g hok => ?_) _
        have hc : g.haltHere.ctl = g.ctl := by unfold Group.haltHere; split <;> rfl
        show I.Ok _ g.haltHere.ctl.livem g.haltHere.ctl.exm
        rwa [hc]
    · rintro t ⟨⟩

theorem haltFor_keeps (bid : Nat) : I.P (s.haltFor bid) := by
  unfold State.haltFor
  refine I.rest (I.map hs (f := _) fun p hok => ?_) (State.modBlock_mem ..) rfl (State.modBlock_nodes ..)
  dsimp only
  split
  · exact hok
  · exact hok

theorem eviction_keeps (block : Nat) : I.R (execEviction block s) := by
  unfold execEviction
  split
  · exact hs
  · rename_i b _
    extract_lets -underBinder named cand s1
    have h1 : I.P s1 := ite_keeps (modBlock_keeps hs ..) hs
    have he := evict_keeps h1 block cand
    clear_value s1
    split
    · rename_i t ht
      exact he t ht
    · exact ite_R h1 (rouse_keeps (haltFor_keeps h1 _) ..)

/-- A restored group has the lanes of its record: it keeps what the lanes of groups do not matter to. -/
theorem restoration_keeps (hn : ∀ {t : State}, I.P t → ∀ (i : Nat) (g : Group), I.P (t.setGroup i g)) (block : Nat) :
    I.R (execRestoration block s) := by
  unfold execRestoration
  split
  · exact hs
  · rename_i b _
    split
    · rename_i save p page r _ _ _
      extract_lets -underBinder pages
      refine ite_R hs ?_
      have hr := readRun_keeps hs ownIl save (s.imageSize b)
      split
      · rename_i t h
        rw [h] at hr
        exact terminate_keeps hr ..
      · rename_i t image h
        rw [h] at hr
        extract_lets -underBinder m G s1 rec_ thalt dhalt hgrp s2 saved filled accsAt s3 s4 s5 s6 s7
        have h1 : I.P s1 := answerAll_keeps hr _
        have h2 : I.P s2 := writeRun_keeps h1 ..
        have h3 : I.P s3 := foldl_keeps h2 (fun u _ hu => fillAcc_keeps hu ..) _
        have h4 : I.P s4 := setTags_keeps h3 ..
        have h5 : I.P s5 := modNode_keeps h4 _ (by exact fun _ => rfl)
        have h6 : I.P s6 := setBlock_keeps h5 ..
        have h7 : I.P s7 := by
          refine foldl_keeps h6 (fun u i hu => ?_) _
          split
          · exact hu
          · exact newSeq_keeps (hn hu ..)
        exact ite_R (terminate_keeps hr ..) (rouse_keeps (foldl_keeps h7 (fun u i hu => tryRetire_keeps hu _) _) ..)
    · exact ite_keeps (setBlock_keeps hs ..) hs
    · exact hs

end Sys2Proof.Proofs.Inv
end

section
/-! What is kept by launches, placement and the active set: one lemma per operation of the model. -/

namespace Sys2Proof.Proofs.Inv

open Sys2Proof Sys2Proof.Machine Sys2Proof.Claims

variable {I : Inv} {s : State} (hs : I.P s)

include hs

/-- What only events beside the groups' own instructions do: new waits, new or restored groups, and memory that is cleared. -/
structure Free (I : Inv) : Prop where
  wait : ∀ {t : State}, I.P t → ∀ (n : Nat) (x : Node), I.P (t.setNode n x)
  group : ∀ {t : State}, I.P t → ∀ (i : Nat) (g : Group), I.P (t.setGroup i g)
  clear : ∀ {t : State}, I.P t → ∀ (q : Nat × Byte → Bool), I.P { t with mem := t.mem.filter q }
  fresh : ∀ {t u : State}, I.P t → u.groups = [] → (u.mem = [] ∨ ∃ q : Nat × Byte → Bool, u.mem = t.mem.filter q) → I.P u

theorem countEnd_keeps (dfl : Bool) (dctr : Nat) : I.P (s.countEnd dfl dctr) := by
  unfold State.countEnd
  exact ite_keeps (setCounter_keeps hs ..) hs

theorem launchAcceptance_keeps (queue core prio : Nat) : I.R (execLaunchAcceptance queue core prio s) := by
  unfold execLaunchAcceptance
  split
  · exact hs
  · rename_i r _
    refine ite_R hs ?_
    dsimp -zeta only
    extract_lets -underBinder c b kd refused s2 r' key g s3
    have h1 : I.P (if kd.toNat % 64 = 0 then s.readThrough c kd 64 else (s, none)).1 := by
      split
      · exact readThrough_keeps hs ..
      · exact hs
    have h2 : I.P s2 := takeRec_keeps h1 ..
    have h3 : I.P r'.1 := by
      dsimp only [r']
      split
      · exact h2
      · exact record_keeps h2 ..
    have h4 : I.P s3 := setShard_keeps h1 ..
    clear_value refused
    exact ite_R (raiseMsix_keeps (countEnd_keeps h3 ..)) (newId_keeps (setGrid_keeps h4 ..))

theorem placeBlock_keeps (hI : I.Free) (core : Nat) (c : Cand) (x : Grid) (g : Grant) : I.P (s.placeBlock core c x g) := by
  unfold State.placeBlock
  extract_lets -underBinder bid gids shadow b reloc _ s1 s2 unblock s3 s4 s5 s6
  have h1 : I.P s1 := I.rest (hI.clear hs _) rfl rfl rfl
  have h2 : I.P s2 := modNode_keeps h1 _ (by exact fun _ => rfl)
  have h3 : I.P s3 := mapNodes_keeps h2 fun _ => List.Subset.refl _
  have h4 : I.P s4 := foldl_keeps h3 (fun t i ht => newSeq_keeps (hI.group ht ..)) _
  have h5 : I.P s5 := ite_keeps (checkpoint_keeps h4 _) h4
  have h6 : I.P s6 := ite_keeps (setShard_keeps h5 ..) h5
  exact rouse_keeps h6 ..

theorem passOver_keeps (core : Nat) (l : List Cand) : I.P (s.passOver core l) := by
  unfold State.passOver
  exact foldl_keeps hs (fun t c ht => ite_keeps ht (modNode_keeps ht _ (by exact fun _ => rfl))) _

theorem visit_keeps (hI : I.Free) (die : Nat) (ns : List Nat) : I.P (s.visit die ns) := by
  induction ns generalizing s with
  | nil => exact hs
  | cons n ns ih =>
    unfold State.visit
    split
    · exact ih (passOver_keeps hs ..)
    · exact mk_keeps (placeBlock_keeps (passOver_keeps hs ..) hI ..)

theorem blockPlacement_keeps (hI : I.Free) (die : Nat) : I.R (execBlockPlacement die s) := by
  unfold execBlockPlacement
  exact ite_R hs (visit_keeps (reap_keeps hs) hI ..)

theorem blockedHead_keeps (core : Nat) : I.R (execBlockedHead core s) := by
  unfold execBlockedHead
  repeat' split
  all_goals simp [*, modNode_keeps]

theorem partialEviction_keeps (core : Nat) : I.R (execPartialEviction core s) := by
  unfold execPartialEviction
  split
  · refine ite_R hs ?_
    split
    · exact hs
    · exact rouse_keeps (haltFor_keeps hs _) ..
  · exact hs

theorem gridEnd_keeps (grid : Nat) : I.R (execGridEnd grid s) := by
  unfold execGridEnd
  extract_lets -underBinder t s1
  have h1 : I.P s1 := reap_keeps hs
  clear_value s1
  split
  · exact hs
  · rename_i x _
    extract_lets -underBinder s2 tag r
    have h2 : I.P s2 := mk_keeps h1
    have h3 : I.P r.1 := by
      dsimp only [r]
      split
      · exact h2
      · exact record_keeps h2 ..
    exact ite_R hs (raiseMsix_keeps (countEnd_keeps h3 ..))

theorem carveEffect_keeps (core : Nat) : I.R (execCarveEffect core s) := by
  unfold execCarveEffect
  exact ite_R hs (modNode_keeps (reap_keeps hs) _ (by exact fun _ => rfl))

theorem pendingMove_keeps (core part : Nat) : I.R (execPendingMove core part s) := by
  unfold execPendingMove
  extract_lets -underBinder mine free active set
  have hset : ∀ t i a, I.P t → I.P (set t i a) := fun t i a ht => modGroup_keeps ht _ (by exact fun _ => ⟨rfl, rfl⟩)
  split
  · rename_i i p out _
    extract_lets -underBinder room s1
    have h1 : I.P s1 := by
      refine ite_keeps hs ?_
      split
      · exact hset _ _ _ hs
      · exact hs
    exact ite_R hs (modNode_keeps (hset _ _ _ h1) _ (by exact fun _ => rfl))
  · exact hs

end Sys2Proof.Proofs.Inv
end

section
/-! What is kept by rollback, packets and delivery contexts: one lemma per operation of the model. -/

namespace Sys2Proof.Proofs.Inv

open Sys2Proof Sys2Proof.Machine Sys2Proof.Claims

variable {I : Inv} {s : State} (hs : I.P s)

include hs

theorem rollBack_keeps (hI : I.Free) (bid : Nat) (b : Block) (sh : Shadow) : I.P (s.rollBack bid b sh) := by
  unfold State.rollBack
  extract_lets -underBinder mine _ s1 s2 s3 images s4 s5
  have h1 : I.P s1 := mk_keeps hs
  have h2 : I.P s2 := mapNodes_keeps h1 fun n => List.map_subset _ (List.filter_subset_self _)
  have h3 : I.P s3 := by
    refine foldl_keeps h2 (fun t e ht => ?_) _
    split
    · exact ht
    · exact writeRun_keeps ht ..
  have h4 : I.P s4 := foldl_keeps h3 (fun t p ht => hI.group ht ..) _
  have h5 : I.P s5 := foldl_keeps h4 (fun t p ht => spill_keeps ht ..) _
  exact count_keeps (setBlock_keeps h5 ..) _

theorem rollback_keeps (hI : I.Free) (block : Nat) : I.R (execRollback block s) := by
  unfold execRollback
  split
  · exact hs
  · refine ite_R hs ?_
    split
    · exact terminate_keeps hs ..
    · exact ite_R (terminate_keeps hs ..) (ite_R hs (rollBack_keeps hs hI ..))

omit hs in
theorem getD_keeps {o : Option State} (ho : ∀ t ∈ o, I.P t) (hs : I.P s) : I.P (o.getD s) := by
  cases o with
  | none => exact hs
  | some t => exact ho t rfl

theorem modPort_keeps (p : Nat) (f : Port → Port) : I.P (s.modPort p f) := by
  unfold State.modPort
  exact setPort_keeps hs ..

theorem peerWrite_keeps (p : Packet) (addr : Nat) (bytes : List (Nat × Byte)) : I.P (s.peerWrite p addr bytes).1 := by
  grind [State.peerWrite, foldl_keeps, writeAt_keeps, oks]

theorem respond_keeps (p : Packet) (typ : Nat) (len : Nat) (b : PBody) : I.P (s.respond p typ len b) := by
  unfold State.respond
  simp [flush_keeps, enqueue_keeps, hs]

theorem countMessage_keeps (p : Packet) (n : Nat) : I.P (s.countMessage p n) := by
  grind [State.countMessage, mk_keeps, complete_keeps, respond_keeps, oks]

theorem dropMsg_keeps (peer id : Nat) : I.P (s.dropMsg peer id) := by
  unfold State.dropMsg
  exact I.rest hs rfl rfl rfl

theorem msgDone_keeps (m : OutMsg) (status count : Nat) : I.P (s.msgDone m status count) := by
  unfold State.msgDone
  repeat' split
  all_goals simp only [*, mk_keeps, opDone_keeps, dropMsg_keeps]

theorem getLands_keeps (m : OutMsg) (data : Option (List Byte)) : I.P (s.getLands m data) := by
  unfold State.getLands
  repeat' split
  all_goals grind [scrWrite_keeps, ackPieces_keeps, dropMsg_keeps, oks]

theorem respArrives_keeps (peer msg : Nat) (data : List Byte) : I.P (s.respArrives peer msg data) := by
  grind [State.respArrives, partDone_keeps, pump_keeps, acquiredBy_keeps, dropMsg_keeps, getLands_keeps, oks]

theorem completeArrives_keeps (peer msg : Nat) : I.P (s.completeArrives peer msg) := by
  unfold State.completeArrives
  repeat' split
  all_goals simp [*, msgDone_keeps]

theorem requestFails_keeps (peer msg reason : Nat) : I.P (s.requestFails peer msg reason) := by
  grind [State.requestFails, failPart_keeps, pump_keeps, dropMsg_keeps, oks]

theorem pieceOutcome_keeps (m : OutMsg) (reason : Nat) : I.P (s.pieceOutcome m reason) := by
  grind [State.pieceOutcome, modCmd_keeps, ackPieces_keeps, dropMsg_keeps, msgDone_keeps, getLands_keeps, oks]

theorem outcome_keeps (peer : Nat) (x : Sent) (reason : Nat) : I.P (s.outcome peer x reason) := by
  unfold State.outcome
  repeat' split
  all_goals simp [*, flush_keeps, enqueue_keeps, partDone_keeps, failPart_keeps, pump_keeps, freeMortar_keeps, lineAcked_keeps, addMsg_keeps,
      msgDone_keeps, requestFails_keeps, pieceOutcome_keeps]

theorem modSctx_keeps (peer cls : Nat) (f : SendCtx → SendCtx) : I.P (s.modSctx peer cls f) := by
  unfold State.modSctx
  exact I.rest hs rfl rfl rfl

theorem ackIn_keeps (peer cls ctxno pseq status : Nat) : I.P (s.ackIn peer cls ctxno pseq status) := by
  grind [State.ackIn, mk_keeps, flush_keeps, outcome_keeps, modSctx_keeps, oks]

theorem giveUpCtx_keeps (peer cls : Nat) : I.P (s.giveUpCtx peer cls) := by
  grind [State.giveUpCtx, foldl_keeps, flush_keeps, closeCtx_keeps, outcome_keeps, oks]

theorem staleIn_keeps (peer cls ctxno : Nat) : I.P (s.staleIn peer cls ctxno) := by
  unfold State.staleIn
  repeat' split
  all_goals simp [*, giveUpCtx_keeps]

theorem retryIn_keeps (peer cls ctxno pseq : Nat) : I.P (s.retryIn peer cls ctxno pseq) := by
  unfold State.retryIn
  exact I.rest hs rfl rfl rfl

theorem deliveryAck_keeps (peer cls ctxno pseq status : Nat) : I.R (execDeliveryAck peer cls ctxno pseq status s) := by
  unfold execDeliveryAck
  repeat' split
  all_goals simp [*, ackIn_keeps]

theorem stale_keeps (peer cls ctxno pseq : Nat) : I.R (execStale peer cls ctxno pseq s) := by
  unfold execStale
  repeat' split
  all_goals simp [*, staleIn_keeps]

theorem retry_keeps (peer cls ctxno pseq : Nat) : I.R (execRetry peer cls ctxno pseq s) := by
  unfold execRetry
  repeat' split
  all_goals simp [*, retryIn_keeps]

theorem packetResend_keeps (peer cls pseq : Nat) : I.R (execPacketResend peer cls pseq s) := by
  unfold execPacketResend
  repeat' split
  all_goals simp [*, emit_keeps, modSctx_keeps]

theorem deliveryGiveUp_keeps (peer cls pseq : Nat) : I.R (execDeliveryGiveUp peer cls pseq s) := by
  unfold execDeliveryGiveUp
  refine ite_R hs (ite_R ?_ ?_)
  · split
    · exact hs
    · refine ite_R hs ?_
      split
      · exact requestFails_keeps hs ..
      · refine getLands_keeps ?_ ..
        split
        · exact modCmd_keeps hs ..
        · exact hs
      · exact msgDone_keeps hs ..
      · exact hs
  · split
    · exact hs
    · exact ite_R (giveUpCtx_keeps hs ..) hs

theorem resp_keeps (peer msg : Nat) (data : List (BitVec 8)) : I.R (execResp peer msg data s) := by
  unfold execResp
  repeat' split
  all_goals simp [*, respArrives_keeps]

theorem execComplete_keeps (peer msg : Nat) : I.R (execComplete peer msg s) := by
  unfold execComplete
  repeat' split
  all_goals simp [*, completeArrives_keeps]

theorem aggack_keeps (group ctxno pseq : Nat) (bits : BitVec 512) : I.R (execAggack group ctxno pseq bits s) := by
  unfold execAggack
  split
  · exact hs
  · split
    · exact hs
    · extract_lets -underBinder s1
      have h1 : I.P s1 := modSctx_keeps hs ..
      clear_value s1
      split
      · split
        · exact flush_keeps h1
        · exact pump_keeps (partDone_keeps (ite_keeps h1 (complete_keeps (writeRun_keeps h1 ..) ..)) ..)
      · exact h1

theorem screen_keeps (p : Packet) : ∀ t ∈ s.screen p, I.P t := by
  grind [State.screen, mk_keeps, count_keeps, modPort_keeps, oks]

theorem answerWith_keeps (p : Packet) (typ : Nat) : I.P (s.answerWith p typ) := by
  unfold State.answerWith
  repeat' split
  all_goals simp [*, emit_keeps]

theorem performLine_keeps (p : Packet) (accept : Bool) : I.P (s.performLine p accept) := by
  grind [State.performLine, mk_keeps, emit_keeps, peerWrite_keeps, oks]

theorem perform_keeps (p : Packet) (accept : Bool) : I.P (s.perform p accept) := by
  unfold State.perform
  split
  · have h := fun addr bytes => peerWrite_keeps hs p addr bytes
    exact ite_keeps (ackPacket_keeps (countMessage_keeps (h ..) ..) ..) (ackPacket_keeps (h ..) ..)
  · split
    · exact ackPacket_keeps hs ..
    · split
      · exact ackPacket_keeps hs ..
      · extract_lets -underBinder r
        have hr : I.P r.1 := by
          refine foldlPair_keeps hs (fun r q hr => ?_) _ _
          exact readAt_keeps hr ..
        split
        · exact hr
        · exact respond_keeps (ackPacket_keeps hr ..) ..
  · split
    · exact ackPacket_keeps hs ..
    · extract_lets -underBinder n
      split
      · exact ackPacket_keeps hs ..
      · rename_i key len il _
        have hr := readAt_keeps hs il key n
        dsimp -zeta only
        generalize s.readAt il key n = r at hr ⊢
        split
        · exact hr
        · exact respond_keeps (ackPacket_keeps (ite_keeps hr (writeAt_keeps hr ..)) ..) ..
      · exact ackPacket_keeps hs ..
  · exact fieldArrives_keeps hs ..
  · split
    · exact ackPacket_keeps hs ..
    · exact ite_keeps (ackPacket_keeps hs ..) (respond_keeps (ackPacket_keeps (setCounter_keeps hs ..) ..) ..)
  · exact respArrives_keeps (ackPacket_keeps hs ..) ..
  · exact completeArrives_keeps (ackPacket_keeps hs ..) ..
  · exact performLine_keeps hs ..
  · exact hs

theorem windowed_keeps (p : Packet) (accept : Bool) (c : RecvCtx) : I.P (s.windowed p accept c) := by
  unfold State.windowed
  repeat' split
  all_goals simp only [*, mk_keeps, emit_keeps, ackPacket_keeps, perform_keeps]

theorem intoIngress_keeps (p : Packet) (accept : Bool) : ∀ t ∈ s.intoIngress p accept, I.P t := by
  grind [State.intoIngress, mk_keeps, oks]

theorem receive_keeps (p : Packet) (accept : Bool) : I.P (s.receive p accept) := by
  unfold State.receive
  extract_lets -underBinder key high heard
  clear_value heard
  split
  · refine ite_keeps (windowed_keeps hs ..) ?_
    exact getD_keeps (intoIngress_keeps (mk_keeps hs) _ _) (answerWith_keeps (mk_keeps hs) ..)
  · refine ite_keeps (answerWith_keeps hs ..) (windowed_keeps (foldl_keeps (mk_keeps (roomForCtx_keeps hs)) (fun t e ht => ?_) _) ..)
    exact answerWith_keeps ht ..

theorem answerIn_keeps (p : Packet) : I.P (s.answerIn p) := by
  unfold State.answerIn
  repeat' split
  all_goals simp [*, ackIn_keeps, staleIn_keeps, retryIn_keeps]

theorem takeIn_keeps (p : Packet) : I.P (s.takeIn p) := by
  unfold State.takeIn
  refine ite_keeps (ite_keeps (getD_keeps (intoIngress_keeps hs _ _) hs) (answerIn_keeps hs _)) ?_
  split
  · exact hs
  · exact hs
  · exact receive_keeps hs ..

theorem packetArrival_keeps (p : Packet) : I.R (execPacketArrival p s) := by
  unfold execPacketArrival
  refine ite_R hs ?_
  have h1 := screen_keeps hs p
  split
  · rename_i t h
    exact h1 t h
  · exact ite_keeps (takeIn_keeps hs _) hs

theorem mcast_keeps (p : Packet) : I.R (execMcast p s) := by
  unfold execMcast
  repeat' split
  all_goals simp [*, packetArrival_keeps]

theorem contextClose_keeps (sending : Bool) (peer cls : Nat) : I.R (execContextClose sending peer cls s) := by
  unfold execContextClose
  refine ite_R ?_ ?_
  · split
    · exact hs
    · exact ite_R hs (flush_keeps (closeCtx_keeps hs _))
  · split
    · exact hs
    · exact ite_R hs (mk_keeps hs)

theorem contextFetch_keeps (sending : Bool) (peer cls : Nat) : I.R (execContextFetch sending peer cls s) := by
  unfold execContextFetch
  refine ite_R ?_ ?_
  · split
    · exact hs
    · refine ite_R hs (foldl_keeps (mk_keeps (flush_keeps (modSctx_keeps (roomForCtx_keeps hs) ..))) (fun t e ht => ?_) _)
      exact answerIn_keeps ht _
  · split
    · exact hs
    · refine ite_R hs (foldl_keeps (mk_keeps (roomForCtx_keeps hs)) (fun t e ht => ?_) _)
      exact receive_keeps ht ..

end Sys2Proof.Proofs.Inv
end

section
/-! What is kept by ports, membership and the host: one lemma per operation of the model. -/

namespace Sys2Proof.Proofs.Inv

open Sys2Proof Sys2Proof.Machine Sys2Proof.Claims

variable {I : Inv} {s : State} (hs : I.P s)

include hs

theorem faultPort_keeps (p reason : Nat) : I.P (s.faultPort p reason) := by
  unfold State.faultPort
  exact I.rest hs rfl rfl rfl

theorem onPort_keeps (p : Nat) {f : State} (hf : I.P f) : I.R (onPort s p f) := by
  unfold onPort
  exact ite_R hs (ite_keeps hf hs)

theorem lock_keeps (port : Nat) (accepted : Option (BitVec 64)) : I.R (execLock port accepted s) := by
  unfold execLock
  exact onPort_keeps hs _ (ite_keeps hs (ite_keeps (modPort_keeps hs ..) (modPort_keeps hs ..)))

theorem start_keeps (port : Nat) : I.R (execStart port s) := by
  unfold execStart
  exact onPort_keeps hs _ (ite_keeps (flush_keeps (modPort_keeps hs ..)) hs)

theorem stop_keeps (port : Nat) : I.R (execStop port s) := by
  unfold execStop
  exact onPort_keeps hs _ (modPort_keeps hs ..)

theorem portConfigWrite_keeps (port : Nat) (value : BitVec 64) (swid : Bool) : I.R (execPortConfigWrite port value swid s) := by
  unfold execPortConfigWrite
  exact onPort_keeps hs _ (ite_keeps (modPort_keeps hs ..) (ite_keeps (faultPort_keeps hs ..) hs))

theorem tagFailureFault_keeps (port : Nat) : I.R (execTagFailureFault port s) := by
  unfold execTagFailureFault
  exact ite_R hs (faultPort_keeps hs ..)

theorem linkLoss_keeps (port : Nat) : I.R (execLinkLoss port s) := by
  unfold execLinkLoss
  exact onPort_keeps hs _ (ite_keeps (modPort_keeps hs ..) hs)

theorem linkReturn_keeps (port : Nat) : I.R (execLinkReturn port s) := by
  unfold execLinkReturn
  exact onPort_keeps hs _ (modPort_keeps hs ..)

theorem linkDown_keeps (port : Nat) : I.R (execLinkDown port s) := by
  unfold execLinkDown
  exact ite_R hs (faultPort_keeps hs ..)

theorem measurementChange_keeps (port : Nat) : I.R (execMeasurementChange port s) := by
  unfold execMeasurementChange
  exact onPort_keeps hs _ (ite_keeps (faultPort_keeps hs ..) hs)

theorem failDomain_keeps (did : Nat) : I.P (s.failDomain did) := by
  unfold State.failDomain
  repeat' split
  all_goals simp [*, emit_keeps, setDomain_keeps]

theorem loseMember_keeps (dev : Nat) : I.P (s.loseMember dev) := by
  grind [State.loseMember, foldl_keeps, mk_keeps, failDomain_keeps, oks]

theorem joinDomain_keeps (dev self : Nat) (members : BitVec 512) : I.R (execJoinDomain dev self members s) := by
  unfold execJoinDomain
  refine ite_R hs ?_
  extract_lets -underBinder _ s1 s2
  have h1 : I.P s1 := mk_keeps hs
  have h2 : I.P s2 := ite_keeps (emit_keeps h1 _) h1
  exact ite_keeps h2 (setRekey_keeps h2)

theorem memberRemoval_keeps (dev : Nat) : I.R (execMemberRemoval dev s) := by
  unfold execMemberRemoval
  refine ite_R hs (ite_R (mk_keeps hs) ?_)
  extract_lets -underBinder s1 s2
  have h1 : I.P s1 := loseMember_keeps hs _
  have h2 : I.P s2 := ite_keeps (emit_keeps h1 _) h1
  exact ite_keeps h2 (setRekey_keeps h2)

theorem rekey_keeps  : I.R (execRekey s) := by
  unfold execRekey
  repeat' split
  all_goals simp [*, emit_keeps, setRekey_keeps]

theorem execArrive_keeps (dev : Nat) : I.R (execArrive dev s) := by
  unfold execArrive
  refine ite_R hs ?_
  extract_lets -underBinder note
  have hn : ∀ t, I.P t → I.P (note t) := fun t ht => ite_keeps (mk_keeps ht) ht
  clear_value note
  exact ite_R (ite_R hs (emit_keeps (hn _ (mk_keeps hs)) _)) (ite_R (hn _ hs) hs)

theorem unpause_keeps : I.P s.unpause := by
  unfold State.unpause
  extract_lets -underBinder by_ _ s1
  have h1 : I.P s1 := mk_keeps hs
  exact mapNodes_keeps h1 fun _ => List.Subset.refl _

theorem release_keeps (gen : BitVec 32) : I.P (s.release gen) := by
  unfold State.release
  extract_lets -underBinder s1 open_ _ s2 s3 unsent held _ s4
  have h1 : I.P s1 := unpause_keeps hs
  have h2 : I.P s2 := mk_keeps h1
  have h3 : I.P s3 := foldl_keeps h2 (fun t c ht => foldl_keeps ht (fun u x hu => ite_keeps (outcome_keeps hu ..) hu) _) _
  have h4 : I.P s4 := mk_keeps h3
  exact pump_keeps (foldl_keeps h4 (fun t h ht => enqueue_keeps ht ..) _)

theorem execRelease_keeps (gen : BitVec 32) : I.R (execRelease gen s) := by
  unfold execRelease
  exact ite_R hs (release_keeps (ite_keeps (emit_keeps hs _) hs) _)

theorem rekeyTimeout_keeps (dev : Nat) : I.R (execRekeyTimeout dev s) := by
  unfold execRekeyTimeout
  exact ite_R hs (setRekey_keeps (release_keeps (emit_keeps (foldl_keeps hs (fun t d ht => emit_keeps (loseMember_keeps ht _) _) _) _) _))

theorem hostWrite_keeps (ok : Bool) {t : State} (ht : I.P t) : I.R (hostWrite s ok t) := by
  unfold hostWrite
  exact ite_R hs (ite_keeps ht hs)

theorem startComm_keeps (entry : Nat) : I.P (s.startComm entry) := by
  unfold State.startComm
  simp [answerWaits_keeps, writeRun_keeps, hs]

theorem hostStore_keeps (addr : Nat) (bs : List Byte) : I.P (s.hostStore addr bs) := by
  unfold State.hostStore
  extract_lets -underBinder t u
  have ht : I.P t.1 := by
    refine foldlPair_keeps hs (fun r p hr => ?_) _ _
    split
    · exact hr
    · exact writeAt_keeps hr ..
  have hu : I.P u := ite_keeps (count_keeps ht _) ht
  exact foldl_keeps hu (fun v e hv => startComm_keeps hv _) _

theorem hostMemoryAccess_keeps (addr count : Nat) (data : Option (List (BitVec 8))) : I.R (execHostMemoryAccess addr count data s) := by
  unfold execHostMemoryAccess
  refine ite_R hs ?_
  cases data with
  | none => exact emit_keeps (readRun_keeps hs ..) _
  | some bs => exact ite_keeps hs (hostStore_keeps hs ..)

theorem contextEntryWrite_keeps (offset : Nat) (data : List (BitVec 8)) : I.R (execContextEntryWrite offset data s) := by
  unfold execContextEntryWrite
  exact hostWrite_keeps hs _ (ite_keeps hs (mk_keeps hs))

theorem scramble_keeps (q : Nat) : I.P (s.scramble q) := by
  unfold State.scramble
  exact foldl_keeps hs (fun t c ht => ite_keeps ht (setShard_keeps ht ..)) _

theorem queueConfigWrite_keeps (queue : Nat) (value : BitVec 128) : I.R (execQueueConfigWrite queue value s) := by
  unfold execQueueConfigWrite
  exact hostWrite_keeps hs _ (closeAnswers_keeps (mk_keeps (ite_keeps (scramble_keeps hs _) hs)) _)

theorem ownerEntryWrite_keeps (owner : Nat) (value : BitVec 64) : I.R (execOwnerEntryWrite owner value s) := by
  unfold execOwnerEntryWrite
  have h1 : I.P (s.modNode owner (fun n => { n with vopen := (value >>> 8).truncate 8 })) := modNode_keeps hs _ (by exact fun _ => rfl)
  exact hostWrite_keeps hs _ (ite_keeps (modNode_keeps (reap_keeps h1) _ (by exact fun _ => rfl)) h1)

theorem regionRegisterWrite_keeps (index : Nat) (value : BitVec 64) : I.R (execRegionRegisterWrite index value s) := by
  unfold execRegionRegisterWrite
  exact hostWrite_keeps hs _ (ite_keeps (mk_keeps hs) hs)

theorem cqRegistration_keeps (index : Nat) (header : BitVec 64) (ctx : Nat) (valid : Bool) : I.R (execCqRegistration index header ctx valid s) := by
  unfold execCqRegistration
  extract_lets -underBinder e t u
  have ht : I.P t := setCq_keeps hs ..
  have hu : I.P u := by
    refine ite_keeps ht ?_
    split
    · exact ht
    · exact pollAnswers_keeps (writePieces_keeps ht ..) _
  exact hostWrite_keeps hs _ hu

theorem registerWrite_keeps (offset : Nat) (value : BitVec 64) : I.R (execRegisterWrite offset value s) := by
  unfold execRegisterWrite
  exact hostWrite_keeps hs _ (ite_keeps (mk_keeps hs) (ite_keeps (mk_keeps hs) hs))

end Sys2Proof.Proofs.Inv
end

section
/-! What is kept by health, dumps, the debugger and lane exchange: one lemma per operation of the model. -/

namespace Sys2Proof.Proofs.Inv

open Sys2Proof Sys2Proof.Machine Sys2Proof.Claims

variable {I : Inv} {s : State} (hs : I.P s)

include hs

theorem flushHealth_keeps  : I.P (s.flushHealth) := by
  unfold State.flushHealth
  exact I.rest hs rfl rfl rfl

theorem healthFlush_keeps  : I.R (execHealthFlush s) := by
  unfold execHealthFlush
  repeat' split
  all_goals simp [*, flushHealth_keeps]

theorem flushHealthLog_keeps  : I.R (execFlushHealthLog s) := by
  unfold execFlushHealthLog
  repeat' split
  all_goals simp [*, flushHealth_keeps]

theorem classed_keeps (unit : Nat) (lasting : Bool) : I.P (s.classed unit lasting) := by
  unfold State.classed
  repeat' split
  all_goals simp [*, count_keeps]

theorem faultRetry_keeps (unit kind : Nat) (again : Bool) : I.R (execFaultRetry unit kind again s) := by
  unfold execFaultRetry
  refine ite_R hs (ite_R (ite_R hs (classed_keeps (mk_keeps hs) ..)) (ite_R (ite_R hs (flush_keeps (modPort_keeps (classed_keeps hs ..) ..))) hs))

theorem refreshManagement_keeps (bank : Nat) : I.R (execRefreshManagement bank s) := by
  unfold execRefreshManagement
  exact ite_R (manage_keeps hs _) hs

theorem bankRefresh_keeps (bank : Nat) : I.R (execBankRefresh bank s) := by
  unfold execBankRefresh
  exact ite_R hs (mk_keeps hs)

theorem erasureMark_keeps (rank pos : Nat) : I.R (execErasureMark rank pos s) := by
  unfold execErasureMark
  exact ite_R hs (mk_keeps (addMark_keeps hs ..))

theorem restart_keeps (hI : I.Free) (i : StartInfo) (warm : Bool) : I.P (s.restart i warm) := by
  unfold State.restart
  extract_lets -underBinder fail s1 keep marks got base toTrain ports s2
  have h1 : I.P s1 := foldl_keeps hs (fun t d ht => failDomain_keeps ht _) _
  have h2 : I.P s2 := ite_keeps (foldl_keeps h1 (fun t p ht => classed_keeps ht ..) _) h1
  refine hI.fresh h2 rfl ?_
  dsimp only
  split
  · exact .inr ⟨_, rfl⟩
  · exact .inl rfl

theorem powerOn_keeps (hI : I.Free) (i : StartInfo) : I.R (execPowerOn i s) := by
  unfold execPowerOn
  exact ite_R hs (restart_keeps hs hI ..)

theorem coldStart_keeps (hI : I.Free) (i : StartInfo) : I.R (execColdStart i s) := by
  unfold execColdStart
  exact ite_R hs (restart_keeps hs hI ..)

theorem warmStart_keeps (hI : I.Free) (i : StartInfo) : I.R (execWarmStart i s) := by
  unfold execWarmStart
  exact ite_R hs (restart_keeps hs hI ..)

theorem powerFailure_keeps : I.R (execPowerFailure s) := by
  unfold execPowerFailure
  exact ite_R (mk_keeps hs) hs

/-- Runs of bytes that are written one after the other. -/
theorem writes_keeps (k : Nat) (l : List (Nat × List Byte)) :
    I.P { s with mem := l.foldl (fun (m : Mem) p => Mem.wrBytes m (k + p.1) p.2) s.mem } := by
  induction l generalizing s with
  | nil => exact hs
  | cons p l ih => exact ih (I.write hs (k + p.1) p.2)

theorem dump_keeps (hI : I.Free) (frame source : Nat) : I.P (s.dump frame source) :=
  I.rest (writes_keeps (hI.clear hs _) frame _) rfl rfl rfl

theorem fatal_keeps (hI : I.Free) (source : Nat) : I.P (s.fatal source) := by
  unfold State.fatal
  extract_lets -underBinder status s1 frame
  have hst : ∀ n t, I.P t → I.P (status n t) := fun n t ht => mk_keeps ht
  have h1 : I.P s1 := hst _ _ (flushHealth_keeps hs)
  exact hst _ _ (ite_keeps h1 (dump_keeps h1 hI ..))

theorem fatalError_keeps (hI : I.Free) (source : Nat) : I.R (execFatalError source s) := by
  unfold execFatalError
  exact ite_keeps (fatal_keeps hs hI _) hs

theorem breakpoint_keeps (gid : Nat) : I.R (execBreakpoint gid s) := by
  unfold execBreakpoint
  split
  · exact hs
  · rename_i g hg
    exact ite_R (debugHalt_keeps hs (oks hs hg) _) hs

theorem debugResume_keeps (block : Nat) : I.R (execDebugResume block s) := by
  unfold execDebugResume
  split
  · exact hs
  · rename_i b _
    refine ite_R hs ?_
    extract_lets -underBinder left s1 _ s2
    have h1 : I.P s1 := by
      refine mapGroups_keeps hs (fun i g => ?_) fun i g => ?_
      · dsimp only
        split
        · rfl
        · split <;> rfl
      · dsimp only
        split
        · rfl
        · split <;> rfl
    have h2 : I.P s2 := setBlock_keeps (mk_keeps h1) ..
    exact modNode_keeps h2 _ (by exact fun _ => rfl)

theorem cydbAttach_keeps (ctx : Nat) (breaks : List (Nat × Option (Nat × Nat) × Option Nat)) : I.R (execCydbAttach ctx breaks s) := by
  unfold execCydbAttach
  exact ite_R hs (mk_keeps hs)

theorem cydbDetach_keeps (ctx : Nat) : I.R (execCydbDetach ctx s) := by
  unfold execCydbDetach
  exact ite_R hs (mk_keeps hs)

theorem cydbStep_keeps (gid : Nat) : I.R (execCydbStep gid s) := by
  unfold execCydbStep
  split
  · exact hs
  · rename_i g hg
    have hok := oks hs hg
    split
    · exact hs
    · exact ite_R hs (modNode_keeps (mk_keeps (setGroup_keeps hs (by exact hok))) _ (by exact fun _ => rfl))

theorem noteStep_keeps (gid : Nat) (g : Group) : I.P (s.noteStep gid g) := by
  unfold State.noteStep
  repeat' split
  all_goals simp only [*, mk_keeps]

theorem endStep_keeps : I.P s.endStep := by
  unfold State.endStep
  split
  · exact hs
  · split
    · exact mk_keeps hs
    · rename_i g hg
      have hok := oks hs hg
      exact ite_keeps hs (setGroup_keeps hs (by exact hok))

theorem exchange_keeps (r : Row) (f : Fields) (src : State → Group → Nat → Nat) : I.R (exchange r f s src) := by
  unfold exchange
  refine issue_keeps hs fun g hg => ?_
  have hok := oks hs hg
  simp [*, advance_keeps, putW_keeps]

theorem vshfl_keeps (f : Fields) : I.R (execVshfl f s) := by
  unfold execVshfl
  simp [exchange_keeps, hs]

theorem vshup_keeps (f : Fields) : I.R (execVshup f s) := by
  unfold execVshup
  simp [exchange_keeps, hs]

theorem vshdn_keeps (f : Fields) : I.R (execVshdn f s) := by
  unfold execVshdn
  simp [exchange_keeps, hs]

theorem vshxor_keeps (f : Fields) : I.R (execVshxor f s) := by
  unfold execVshxor
  simp [exchange_keeps, hs]

theorem vbcast_keeps (f : Fields) : I.R (execVbcast f s) := by
  unfold execVbcast
  simp [exchange_keeps, hs]

theorem qxch_keeps (f : Fields) : I.R (execQxch f s) := by
  unfold execQxch
  simp [exchange_keeps, hs]

theorem vballot_keeps (f : Fields) : I.R (execVballot f s) := by
  unfold execVballot
  refine issue_keeps hs fun g hg => ?_
  have hok := oks hs hg
  simp [*, advance_keeps, putDst_keeps]

theorem vpopm_keeps (f : Fields) : I.R (execVpopm f s) := by
  unfold execVpopm
  refine issue_keeps hs fun g hg => ?_
  have hok := oks hs hg
  simp [*, advance_keeps, putW_keeps]

theorem vprefix_keeps (f : Fields) : I.R (execVprefix f s) := by
  unfold execVprefix
  refine issue_keeps hs fun g hg => ?_
  have hok := oks hs hg
  repeat' split
  all_goals simp [*, advance_keeps, putW_keeps]

theorem vreduce_keeps (f : Fields) : I.R (execVreduce f s) := by
  unfold execVreduce
  refine issue_keeps hs fun g hg => ?_
  have hok := oks hs hg
  simp [*, advance_keeps, putDst_keeps]

theorem rndk_keeps (f : Fields) : I.R (execRndk f s) := by
  unfold execRndk
  simp [vector2_keeps, hs]

theorem srndk_keeps (f : Fields) : I.R (execSrndk f s) := by
  unfold execSrndk
  simp [scalar2_keeps, hs]

theorem vdot8_keeps (f : Fields) : I.R (execVdot8 f s) := by
  unfold execVdot8
  simp [vector3_keeps, hs]

theorem vdot4_keeps (f : Fields) : I.R (execVdot4 f s) := by
  unfold execVdot4
  simp [vector3_keeps, hs]

theorem vscale_keeps (f : Fields) : I.R (execVscale f s) := by
  unfold execVscale
  simp [vector2_keeps, hs]

theorem vamax_keeps (f : Fields) : I.R (execVamax f s) := by
  unfold execVamax
  refine issue_keeps hs fun g hg => ?_
  have hok := oks hs hg
  simp [*, advance_keeps, putW_keeps]

theorem vsc8_keeps (f : Fields) : I.R (execVsc8 f s) := by
  unfold execVsc8
  simp [vector1_keeps, hs]

theorem vqnt_keeps (f : Fields) : I.R (execVqnt f s) := by
  unfold execVqnt
  refine issue_keeps hs fun g hg => ?_
  have hok := oks hs hg
  simp [*, advance_keeps, putW_keeps]

theorem vdeq_keeps (f : Fields) : I.R (execVdeq f s) := by
  unfold execVdeq
  simp [vector2_keeps, hs]

theorem vpk8_keeps (f : Fields) : I.R (execVpk8 f s) := by
  unfold execVpk8
  simp [vector2_keeps, hs]

theorem vupk8_keeps (f : Fields) : I.R (execVupk8 f s) := by
  unfold execVupk8
  simp [vector2_keeps, hs]

theorem vpk4_keeps (f : Fields) : I.R (execVpk4 f s) := by
  unfold execVpk4
  simp [vector2_keeps, hs]

theorem vupk4_keeps (f : Fields) : I.R (execVupk4 f s) := by
  unfold execVupk4
  simp [vector2_keeps, hs]

theorem vhad_keeps (f : Fields) : I.R (execVhad f s) := by
  unfold execVhad
  refine issue_keeps hs fun g hg => ?_
  have hok := oks hs hg
  dsimp only
  repeat' split
  all_goals grind [foldl_keeps, advance_keeps, writeV_keeps, R_next, oks]

end Sys2Proof.Proofs.Inv
end

section
/-! What is kept by every instruction of the opcode map, every event and the step itself: one lemma per operation of the model. -/

namespace Sys2Proof.Proofs.Inv

open Sys2Proof Sys2Proof.Machine Sys2Proof.Claims

variable {I : Inv} {s : State} (hs : I.P s)

include hs

/-- An instruction, or an event, keeps the property; one that is no cell of the opcode map where the property is free. -/
theorem exec_keeps (i : Instr) (hI : i.isCell = true ∨ I.Free) : I.R (exec i s) := by
  cases i with
  | nop f => exact nop_keeps hs f
  | exit f => exact exit_keeps hs f
  | exitm f => exact exitm_keeps hs f
  | br f => exact br_keeps hs f
  | bz f => exact bz_keeps hs f
  | bnz f => exact bnz_keeps hs f
  | bmz f => exact bmz_keeps hs f
  | bmnz f => exact bmnz_keeps hs f
  | bvany f => exact bvany_keeps hs f
  | bvall f => exact bvall_keeps hs f
  | bdiv f => exact bdiv_keeps hs f
  | bdivw f => exact bdivw_keeps hs f
  | bdivs f => exact bdivs_keeps hs f
  | join f => exact join_keeps hs f
  | joinw f => exact joinw_keeps hs f
  | jmp f => exact jmp_keeps hs f
  | jmpi f => exact jmpi_keeps hs f
  | call f => exact call_keeps hs f
  | calli f => exact calli_keeps hs f
  | ret f => exact ret_keeps hs f
  | sadd f => exact sadd_keeps hs f
  | ssub f => exact ssub_keeps hs f
  | smul f => exact smul_keeps hs f
  | smulh f => exact smulh_keeps hs f
  | sand f => exact sand_keeps hs f
  | sor f => exact sor_keeps hs f
  | sxor f => exact sxor_keeps hs f
  | sshl f => exact sshl_keeps hs f
  | sshr f => exact sshr_keeps hs f
  | smin f => exact smin_keeps hs f
  | smax f => exact smax_keeps hs f
  | sdiv f => exact sdiv_keeps hs f
  | srem f => exact srem_keeps hs f
  | smov f => exact smov_keeps hs f
  | snot f => exact snot_keeps hs f
  | sclz f => exact sclz_keeps hs f
  | spopc f => exact spopc_keeps hs f
  | sbrev f => exact sbrev_keeps hs f
  | sext f => exact sext_keeps hs f
  | scmp f => exact scmp_keeps hs f
  | ssel f => exact ssel_keeps hs f
  | sadd64 f => exact sadd64_keeps hs f
  | ssub64 f => exact ssub64_keeps hs f
  | smul64 f => exact smul64_keeps hs f
  | sshl64 f => exact sshl64_keeps hs f
  | sshr64 f => exact sshr64_keeps hs f
  | smov64 f => exact smov64_keeps hs f
  | sbfe f => exact sbfe_keeps hs f
  | sbfi f => exact sbfi_keeps hs f
  | slea f => exact slea_keeps hs f
  | vadd f => exact vadd_keeps hs f
  | vsub f => exact vsub_keeps hs f
  | vmul f => exact vmul_keeps hs f
  | vmulh f => exact vmulh_keeps hs f
  | vand f => exact vand_keeps hs f
  | vor f => exact vor_keeps hs f
  | vxor f => exact vxor_keeps hs f
  | vshl f => exact vshl_keeps hs f
  | vshr f => exact vshr_keeps hs f
  | vmin f => exact vmin_keeps hs f
  | vmax f => exact vmax_keeps hs f
  | vabsd f => exact vabsd_keeps hs f
  | vadds f => exact vadds_keeps hs f
  | vsubs f => exact vsubs_keeps hs f
  | vmad f => exact vmad_keeps hs f
  | vsel f => exact vsel_keeps hs f
  | vbfe f => exact vbfe_keeps hs f
  | vbfi f => exact vbfi_keeps hs f
  | vmov f => exact vmov_keeps hs f
  | vnot f => exact vnot_keeps hs f
  | vneg f => exact vneg_keeps hs f
  | vabs f => exact vabs_keeps hs f
  | vclz f => exact vclz_keeps hs f
  | vpopc f => exact vpopc_keeps hs f
  | vbrev f => exact vbrev_keeps hs f
  | vext f => exact vext_keeps hs f
  | vcmp f => exact vcmp_keeps hs f
  | vcmpm f => exact vcmpm_keeps hs f
  | vadd64 f => exact vadd64_keeps hs f
  | vmulw f => exact vmulw_keeps hs f
  | vaddF32 f => exact vaddF32_keeps hs f
  | vsubF32 f => exact vsubF32_keeps hs f
  | vmulF32 f => exact vmulF32_keeps hs f
  | vminF32 f => exact vminF32_keeps hs f
  | vmaxF32 f => exact vmaxF32_keeps hs f
  | vdiv f => exact vdiv_keeps hs f
  | vfma f => exact vfma_keeps hs f
  | vfms f => exact vfms_keeps hs f
  | vabsF32 f => exact vabsF32_keeps hs f
  | vnegF32 f => exact vnegF32_keeps hs f
  | vsqrt f => exact vsqrt_keeps hs f
  | vrcp f => exact vrcp_keeps hs f
  | vrsq f => exact vrsq_keeps hs f
  | vexp2 f => exact vexp2_keeps hs f
  | vlog2 f => exact vlog2_keeps hs f
  | vrnd f => exact vrnd_keeps hs f
  | vclass f => exact vclass_keeps hs f
  | vcmpF32 f => exact vcmpF32_keeps hs f
  | vcmpmF32 f => exact vcmpmF32_keeps hs f
  | vadd2 f => exact vadd2_keeps hs f
  | vmul2 f => exact vmul2_keeps hs f
  | vfma2 f => exact vfma2_keeps hs f
  | vcvt f => exact vcvt_keeps hs f
  | vcvti f => exact vcvti_keeps hs f
  | vcvtf f => exact vcvtf_keeps hs f
  | vcvtq f => exact vcvtq_keeps hs f
  | vcvtqf f => exact vcvtqf_keeps hs f
  | vcvtn f => exact vcvtn_keeps hs f
  | vdot8 f => exact vdot8_keeps hs f
  | vdot4 f => exact vdot4_keeps hs f
  | vscale f => exact vscale_keeps hs f
  | vqnt f => exact vqnt_keeps hs f
  | vdeq f => exact vdeq_keeps hs f
  | vhad f => exact vhad_keeps hs f
  | vpk8 f => exact vpk8_keeps hs f
  | vupk8 f => exact vupk8_keeps hs f
  | vpk4 f => exact vpk4_keeps hs f
  | vupk4 f => exact vupk4_keeps hs f
  | vamax f => exact vamax_keeps hs f
  | vsc8 f => exact vsc8_keeps hs f
  | vshfl f => exact vshfl_keeps hs f
  | vshup f => exact vshup_keeps hs f
  | vshdn f => exact vshdn_keeps hs f
  | vshxor f => exact vshxor_keeps hs f
  | vbcast f => exact vbcast_keeps hs f
  | vballot f => exact vballot_keeps hs f
  | vpopm f => exact vpopm_keeps hs f
  | vprefix f => exact vprefix_keeps hs f
  | vreduce f => exact vreduce_keeps hs f
  | qxch f => exact qxch_keeps hs f
  | vld f => exact vld_keeps hs f
  | vldrb f => exact vldrb_keeps hs f
  | sld f => exact sld_keeps hs f
  | vldbc f => exact vldbc_keeps hs f
  | vldscr f => exact vldscr_keeps hs f
  | vldcw f => exact vldcw_keeps hs f
  | vst f => exact vst_keeps hs f
  | sst f => exact sst_keeps hs f
  | vstscr f => exact vstscr_keeps hs f
  | vstcw f => exact vstcw_keeps hs f
  | vstmc f => exact vstmc_keeps hs f
  | wcfl f => exact wcfl_keeps hs f
  | rbinv f => exact rbinv_keeps hs f
  | vpref f => exact vpref_keeps hs f
  | vldp f => exact vldp_keeps hs f
  | vstp f => exact vstp_keeps hs f
  | vatom f => exact vatom_keeps hs f
  | vcas f => exact vcas_keeps hs f
  | satom f => exact satom_keeps hs f
  | scas f => exact scas_keeps hs f
  | vred f => exact vred_keeps hs f
  | vatom64 f => exact vatom64_keeps hs f
  | vcas64 f => exact vcas64_keeps hs f
  | wwait f => exact wwait_keeps hs f
  | wwaitt f => exact wwaitt_keeps hs f
  | wwake f => exact wwake_keeps hs f
  | faddt f => exact faddt_keeps hs f
  | sleep f => exact sleep_keeps hs f
  | wcancel f => exact wcancel_keeps hs f
  | fence f => exact fence_keeps hs f
  | fenceh f => exact fenceh_keeps hs f
  | fencep f => exact fencep_keeps hs f
  | xfer f => exact xfer_keeps hs f
  | vldf f => exact vldf_keeps hs f
  | sldf f => exact sldf_keeps hs f
  | ftot f => exact ftot_keeps hs f
  | fdecl f => exact fdecl_keeps hs f
  | fdrop f => exact fdrop_keeps hs f
  | fattr f => exact fattr_keeps hs f
  | fgup f => exact fgup_keeps hs f
  | mma f => exact mma_keeps hs f
  | mmac f => exact mmac_keeps hs f
  | mopf f => exact mopf_keeps hs f
  | mwait f => exact mwait_keeps hs f
  | mzero f => exact mzero_keeps hs f
  | mlda f => exact mlda_keeps hs f
  | msta f => exact msta_keeps hs f
  | mrd f => exact mrd_keeps hs f
  | mwr f => exact mwr_keeps hs f
  | mspill f => exact mspill_keeps hs f
  | mfill f => exact mfill_keeps hs f
  | mtag f => exact mtag_keeps hs f
  | tcopy f => exact tcopy_keeps hs f
  | tcopys f => exact tcopys_keeps hs f
  | gather f => exact gather_keeps hs f
  | trf f => exact trf_keeps hs f
  | bclose f => exact bclose_keeps hs f
  | bwait f => exact bwait_keeps hs f
  | abinit f => exact abinit_keeps hs f
  | abarv f => exact abarv_keeps hs f
  | abexp f => exact abexp_keeps hs f
  | abwait f => exact abwait_keeps hs f
  | gset f => exact gset_keeps hs f
  | bar f => exact bar_keeps hs f
  | barc f => exact barc_keeps hs f
  | barh f => exact barh_keeps hs f
  | coll f => exact coll_keeps hs f
  | crem f => exact crem_keeps hs f
  | trpost f => exact trpost_keeps hs f
  | trcan f => exact trcan_keeps hs f
  | ecinc f => exact ecinc_keeps hs f
  | ecdec f => exact ecdec_keeps hs f
  | ecrd f => exact ecrd_keeps hs f
  | ecset f => exact execEcset_keeps hs f
  | cqpost f => exact cqpost_keeps hs f
  | cqpoll f => exact cqpoll_keeps hs f
  | tqenq f => exact tqenq_keeps hs f
  | tqdeq f => exact tqdeq_keeps hs f
  | tqtry f => exact tqtry_keeps hs f
  | tqdone f => exact tqdone_keeps hs f
  | tqatt f => exact tqatt_keeps hs f
  | tqstat f => exact tqstat_keeps hs f
  | migr f => exact migr_keeps hs f
  | mret f => exact mret_keeps hs f
  | mjoin f => exact mjoin_keeps hs f
  | mowner f => exact mowner_keeps hs f
  | mtest f => exact mtest_keeps hs f
  | sysrd f => exact sysrd_keeps hs f
  | syswr f => exact syswr_keeps hs f
  | trap f => exact execTrap_keeps hs f
  | rft f => exact rft_keeps hs f
  | brk f => exact brk_keeps hs f
  | scall f => exact scall_keeps hs f
  | sret f => exact sret_keeps hs f
  | cka f => exact cka_keeps hs f
  | chk f => exact chk_keeps hs f
  | rndk f => exact rndk_keeps hs f
  | srndk f => exact srndk_keeps hs f
  | tlbinv f => exact tlbinv_keeps hs f
  | tlbsync f => exact tlbsync_keeps hs f
  | icinv f => exact icinv_keeps hs f
  | einj f => exact einj_keeps hs f
  | escrub f => exact escrub_keeps hs f
  | loadReply req part => exact loadReply_keeps hs req part
  | storeAtHome req part => exact storeAtHome_keeps hs req part
  | atomicAtHome req part => exact atomicAtHome_keeps hs req part
  | waitRegistration req part => exact waitRegistration_keeps hs (hI.resolve_left Bool.false_ne_true).wait req part
  | waitAnswer entry => exact waitAnswer_keeps hs entry
  | wwaittTimeout entry => exact wwaittTimeout_keeps hs entry
  | sleepExpiry gid => exact sleepExpiry_keeps hs gid
  | coreWake core => exact coreWake_keeps hs core
  | joinwExpiry gid => exact joinwExpiry_keeps hs gid
  | wcLineAgeDrain core line => exact wcLineAgeDrain_keeps hs core line
  | wcLineAck core line status => exact wcLineAck_keeps hs core line status
  | recordFetch core => exact recordFetch_keeps hs core
  | copyEngineIssue gid => exact copyEngineIssue_keeps hs gid
  | pieceDelivery cmd piece => exact pieceDelivery_keeps hs cmd piece
  | commandComplete cmd => exact commandComplete_keeps hs cmd
  | matrixComplete op => exact matrixComplete_keeps hs op
  | firedRecordEntry queue core => exact firedRecordEntry_keeps hs queue core
  | recordDelivery queue core => exact recordDelivery_keeps hs queue core
  | hostEnqueue queue data => exact hostEnqueue_keeps hs queue data
  | hostMemoryAccess addr count data => exact hostMemoryAccess_keeps hs addr count data
  | launchAcceptance queue core prio => exact launchAcceptance_keeps hs queue core prio
  | blockPlacement die => exact blockPlacement_keeps hs (hI.resolve_left Bool.false_ne_true) die
  | blockedHead core => exact blockedHead_keeps hs core
  | partialEviction core => exact partialEviction_keeps hs core
  | eviction block => exact eviction_keeps hs block
  | restoration block => exact restoration_keeps hs (hI.resolve_left Bool.false_ne_true).group block
  | gridEnd grid => exact gridEnd_keeps hs grid
  | carveEffect core => exact carveEffect_keeps hs core
  | pendingMove core part => exact pendingMove_keeps hs core part
  | continuationArrival cont => exact continuationArrival_keeps hs cont
  | visitorStart owner => exact visitorStart_keeps hs (hI.resolve_left Bool.false_ne_true).group owner
  | migrationRefusal cont => exact migrationRefusal_keeps hs cont
  | migrationReturn ret => exact migrationReturn_keeps hs ret
  | debit m => exact debit_keeps hs m
  | go m => exact go_keeps hs m
  | returnAmount m => exact returnAmount_keeps hs m
  | offer m => exact offer_keeps hs m
  | accept m => exact accept_keeps hs m
  | ovf m => exact ovf_keeps hs m
  | refuse m => exact refuse_keeps hs m
  | busy m => exact busy_keeps hs m
  | offerResend mseq => exact offerResend_keeps hs mseq
  | credit m => exact credit_keeps hs m
  | done m => exact done_keeps hs m
  | ack m => exact ack_keeps hs m
  | cancel m => exact cancel_keeps hs m
  | status m => exact status_keeps hs m
  | giveUp mseq => exact execGiveUp_keeps hs mseq
  | answerResend dev mseq => exact answerResend_keeps hs dev mseq
  | hold snap owner => exact hold_keeps hs snap owner
  | snapshotRelease snap => exact snapshotRelease_keeps hs snap
  | snapshotTimeout snap => exact snapshotTimeout_keeps hs snap
  | holdSelfResume snap owner => exact holdSelfResume_keeps hs snap owner
  | domainActivation did reports => exact domainActivation_keeps hs did reports
  | fdeclTimeout did => exact fdeclTimeout_keeps hs did
  | packetArrival p => exact packetArrival_keeps hs p
  | deliveryAck peer cls ctxno pseq status => exact deliveryAck_keeps hs peer cls ctxno pseq status
  | packetResend peer cls pseq => exact packetResend_keeps hs peer cls pseq
  | stale peer cls ctxno pseq => exact stale_keeps hs peer cls ctxno pseq
  | retry peer cls ctxno pseq => exact retry_keeps hs peer cls ctxno pseq
  | contextClose sending peer cls => exact contextClose_keeps hs sending peer cls
  | deliveryGiveUp peer cls pseq => exact deliveryGiveUp_keeps hs peer cls pseq
  | contextFetch sending peer cls => exact contextFetch_keeps hs sending peer cls
  | resp peer msg data => exact resp_keeps hs peer msg data
  | complete peer msg => exact execComplete_keeps hs peer msg
  | mcast p => exact mcast_keeps hs p
  | aggack group ctxno pseq bits => exact aggack_keeps hs group ctxno pseq bits
  | rollback block => exact rollback_keeps hs (hI.resolve_left Bool.false_ne_true) block
  | walk core gid va => exact walk_keeps hs core gid va
  | tlbinvAck inv => exact tlbinvAck_keeps hs inv
  | refreshManagement bank => exact refreshManagement_keeps hs bank
  | erasureMark rank pos => exact erasureMark_keeps hs rank pos
  | healthFlush => exact healthFlush_keeps hs
  | faultRetry unit kind again => exact faultRetry_keeps hs unit kind again
  | fatalError source => exact fatalError_keeps hs (hI.resolve_left Bool.false_ne_true) source
  | powerOn info => exact powerOn_keeps hs (hI.resolve_left Bool.false_ne_true) info
  | coldStart info => exact coldStart_keeps hs (hI.resolve_left Bool.false_ne_true) info
  | warmStart info => exact warmStart_keeps hs (hI.resolve_left Bool.false_ne_true) info
  | flushHealthLog => exact flushHealthLog_keeps hs
  | lock port accepted => exact lock_keeps hs port accepted
  | start port => exact start_keeps hs port
  | stop port => exact stop_keeps hs port
  | portConfigWrite port value swid => exact portConfigWrite_keeps hs port value swid
  | tagFailureFault port => exact tagFailureFault_keeps hs port
  | linkDown port => exact linkDown_keeps hs port
  | measurementChange port => exact measurementChange_keeps hs port
  | joinDomain dev self members => exact joinDomain_keeps hs dev self members
  | rekey => exact rekey_keeps hs
  | arrive dev => exact execArrive_keeps hs dev
  | release gen => exact execRelease_keeps hs gen
  | rekeyTimeout dev => exact rekeyTimeout_keeps hs dev
  | breakpoint gid => exact breakpoint_keeps hs gid
  | debugResume block => exact debugResume_keeps hs block
  | contextEntryWrite offset data => exact contextEntryWrite_keeps hs offset data
  | queueConfigWrite queue value => exact queueConfigWrite_keeps hs queue value
  | ownerEntryWrite owner value => exact ownerEntryWrite_keeps hs owner value
  | regionRegisterWrite index value => exact regionRegisterWrite_keeps hs index value
  | cqRegistration index header ctx valid => exact cqRegistration_keeps hs index header ctx valid
  | registerWrite offset value => exact registerWrite_keeps hs offset value
  | unassignedCell cause aux addr => exact unassignedCell_keeps hs cause aux addr
  | powerFailure => exact powerFailure_keeps hs
  | memberRemoval dev => exact memberRemoval_keeps hs dev
  | bankRefresh bank => exact bankRefresh_keeps hs bank
  | linkLoss port => exact linkLoss_keeps hs port
  | linkReturn port => exact linkReturn_keeps hs port
  | cydbAttach ctx breaks => exact cydbAttach_keeps hs ctx breaks
  | cydbDetach ctx => exact cydbDetach_keeps hs ctx
  | cydbStep gid => exact cydbStep_keeps hs gid
  | latchStalledLong gid => exact latchStalledLong_keeps hs gid

theorem dropAsked_keeps  : I.P (s.dropAsked) := by
  unfold State.dropAsked
  refine foldl_keeps hs (fun s a hs => ?_) _
  repeat' split
  all_goals simp [*, emit_keeps, endDomain_keeps]

theorem spoil_keeps (w : SramWord) : I.P (s.spoil w) := by
  cases w with
  | vreg gid key => exact modGroup_keeps hs _ (by exact fun _ => ⟨rfl, rfl⟩)
  | sreg gid r => exact modGroup_keeps hs _ (by exact fun _ => ⟨rfl, rfl⟩)
  | acc core key => exact modNode_keeps hs core (f := fun n => { n with accBad := key :: n.accBad.filter (· ≠ key) }) fun _ => rfl
  | slice key => exact ite_keeps hs (mk_keeps hs)
  | shadow block => exact modBlock_keeps hs ..

theorem outside_keeps (hI : I.Free) (o : Outside) : I.P (s.outside o) := by
  unfold State.outside
  split
  · split
    · exact emit_keeps hs _
    · exact setDomain_keeps hs ..
  · split
    · exact hs
    · exact setDomain_keeps hs ..
  · split
    · exact hs
    · exact setDomain_keeps hs ..
  · exact fatal_keeps (foldl_keeps hs (fun t d ht => failDomain_keeps ht _) _) hI _
  · split
    · exact emit_keeps hs _
    · exact ite_keeps (askTotal_keeps hs ..) hs
  · split
    · exact emit_keeps hs _
    · exact ite_keeps (askTotal_keeps hs ..) (emit_keeps hs _)
  · split
    · exact emit_keeps hs _
    · exact emit_keeps hs _
  · exact ecset_keeps hs ..
  · exact ite_keeps (mk_keeps hs) hs
  · exact ite_keeps hs (mk_keeps hs)
  · exact ite_keeps hs (modPort_keeps (mk_keeps hs) ..)
  · exact ite_keeps hs (count_keeps (modPort_keeps hs ..) _)
  · exact ite_keeps hs (count_keeps hs _)
  · exact spoil_keeps hs _
  · exact emit_keeps hs _
  · exact mk_keeps hs

theorem tick_keeps (n : Nat) : I.P (s.tick n) := by
  unfold State.tick
  refine mkMap_keeps hs (f := fun p => if s.isAway p.2 then p.2 else _) fun p hok => ?_
  dsimp only
  split
  · exact hok
  · exact hok

theorem issuing_keeps (gid : Nat) (g : Group) : I.P (s.issuing gid g) := by
  unfold State.issuing
  exact mk_keeps (noteStep_keeps (ite_keeps (fetched_keeps hs ..) hs) ..)

/-- The property of what a step does: of its result, or of the state in which an instruction runs. -/
def N (I : Inv) : Next → Prop
  | .done r => I.R r
  | .run _ t => I.P t

theorem groupTurn_keeps (gid : Nat) : I.N (s.groupTurn gid) := by
  unfold State.groupTurn
  split
  · exact hs
  · rename_i g hg
    have hok := oks hs hg
    split
    · exact hs
    · split
      · exact joinwExpiry_keeps hs gid
      · split
        · exact takeTrap_keeps (setGroup_keeps hs (by exact hok)) ..
        · split
          · exact breakpoint_keeps hs gid
          · have ht := issuing_keeps hs gid g
            dsimp only
            split
            · exact consume_keeps ht _
            · split
              · exact ht
              · exact unassignedCell_keeps ht ..

theorem refresh_keeps : I.P s.refresh := by
  unfold State.refresh
  refine mk_keeps (mapGroups_keeps hs (fun i g => ?_) fun i g => ?_)
  · dsimp only
    split <;> rfl
  · dsimp only
    split <;> rfl

theorem fireFaults_keeps : I.P s.fireFaults := by
  unfold State.fireFaults
  split
  · exact ite_keeps (foldl_keeps (mk_keeps hs) (fun t a ht => modPort_keeps ht ..) _) hs
  · exact hs

omit hs in
theorem firstChange_keeps (l : List Res) (hl : ∀ r ∈ l, I.R r) : ∀ r ∈ s.firstChange l, I.R r := by
  induction l with
  | nil => rintro r ⟨⟩
  | cons q l ih =>
    have hl' := fun r hr => hl r (List.mem_cons_of_mem _ hr)
    cases q with
    | next t =>
      unfold State.firstChange
      split
      · exact ih hl'
      · rintro r ⟨⟩
        exact hl _ List.mem_cons_self
    | fault f => exact ih hl'
    | refused x => exact ih hl'

theorem partStep_keeps (hI : I.Free) (a : Access) (p : Part) : I.R (partStep a p s) := by
  unfold partStep
  split
  · exact loadReply_keeps hs ..
  · exact loadReply_keeps hs ..
  · exact loadReply_keeps hs ..
  · exact storeAtHome_keeps hs ..
  · exact atomicAtHome_keeps hs ..
  · exact atomicAtHome_keeps hs ..
  · exact waitRegistration_keeps hs hI.wait ..

section lists

/-! ### Lists of results -/

variable {α : Type} {l m : List Res} {q : Res}

omit hs in
theorem ite_all {c : Prop} {_ : Decidable c} (hl : ∀ r ∈ l, I.R r) (hm : ∀ r ∈ m, I.R r) : ∀ r ∈ (if c then l else m), I.R r := by
  split
  · exact hl
  · exact hm

omit hs in
theorem nil_all : ∀ r ∈ ([] : List Res), I.R r := by
  rintro r ⟨⟩

omit hs in
theorem cons_all (hq : I.R q) (hl : ∀ r ∈ l, I.R r) : ∀ r ∈ q :: l, I.R r := List.forall_mem_cons.mpr ⟨hq, hl⟩

omit hs in
theorem one_all (hq : I.R q) : ∀ r ∈ [q], I.R r := cons_all hq nil_all

omit hs in
theorem append_all (hl : ∀ r ∈ l, I.R r) (hm : ∀ r ∈ m, I.R r) : ∀ r ∈ l ++ m, I.R r := List.forall_mem_append.mpr ⟨hl, hm⟩

omit hs in
theorem map_all {f : α → Res} (hf : ∀ a, I.R (f a)) (l : List α) : ∀ r ∈ l.map f, I.R r := List.forall_mem_map.mpr fun a _ => hf a

omit hs in
theorem flatMap_all {f : α → List Res} (hf : ∀ a, ∀ r ∈ f a, I.R r) (l : List α) : ∀ r ∈ l.flatMap f, I.R r :=
  List.forall_mem_flatMap.mpr fun a _ => hf a

end lists

theorem fieldStep_keeps (m : Nat) (k : FKind) : I.R (fieldStep m k s) := by
  cases k with
  | debit => exact debit_keeps hs m
  | go => exact go_keeps hs m
  | giveBack => exact returnAmount_keeps hs m
  | offer => exact offer_keeps hs m
  | accept => exact accept_keeps hs m
  | ovf => exact ovf_keeps hs m
  | refuse => exact refuse_keeps hs m
  | busy => exact busy_keeps hs m
  | credit => exact credit_keeps hs m
  | done => exact done_keeps hs m
  | ack => exact ack_keeps hs m
  | cancel => exact cancel_keeps hs m
  | status => exact status_keeps hs m

theorem nodeSteps_keeps (n : Nat) (x : Node) : ∀ r ∈ nodeSteps n x s, I.R r := by
  unfold nodeSteps
  refine append_all (append_all (append_all (append_all (append_all (append_all ?_ ?_) ?_) ?_) ?_) ?_) ?_
  · exact map_all (fun w => ite_R (waitAnswer_keeps hs _) (wwaittTimeout_keeps hs _)) _
  · exact map_all (fun _ => recordFetch_keeps hs _) _
  · exact map_all (fun l => wcLineAgeDrain_keeps hs ..) _
  · exact ite_all (one_all (coreWake_keeps hs _)) nil_all
  · exact ite_all nil_all (one_all (carveEffect_keeps hs _))
  · exact ite_all nil_all (one_all (blockedHead_keeps hs _))
  · exact ite_all nil_all (one_all (partialEviction_keeps hs _))

theorem groupSteps_keeps (i : Nat) (g : Group) : ∀ r ∈ groupSteps i g s, I.R r := by
  unfold groupSteps
  refine append_all (append_all (append_all ?_ ?_) ?_) ?_
  · exact ite_all (one_all (joinwExpiry_keeps hs _)) nil_all
  · split
    · exact one_all (sleepExpiry_keeps hs _)
    · exact one_all (latchStalledLong_keeps hs _)
    · exact nil_all
  · exact ite_all nil_all (one_all (copyEngineIssue_keeps hs _))
  · exact ite_all nil_all (one_all (pendingMove_keeps hs ..))

theorem distSteps_keeps (hI : I.Free) : ∀ r ∈ distSteps s, I.R r := by
  unfold distSteps
  refine append_all (append_all (append_all (append_all (append_all ?_ ?_) ?_) ?_) ?_) ?_
  · exact map_all (fun f => firedRecordEntry_keeps hs ..) _
  · intro r hr
    obtain ⟨q, -, hq⟩ := List.mem_filterMap.mp hr
    obtain ⟨x, -, rfl⟩ := Option.map_eq_some_iff.mp hq
    exact recordDelivery_keeps hs ..
  · exact flatMap_all (fun k => cons_all (recordDelivery_keeps hs ..) (map_all (fun p => launchAcceptance_keeps hs ..) _)) _
  · exact ite_all (map_all (fun d => blockPlacement_keeps hs hI _) _) nil_all
  · refine flatMap_all (fun b => append_all (append_all ?_ ?_) ?_) _
    · exact ite_all (one_all (rollback_keeps hs hI _)) nil_all
    · exact ite_all (one_all (eviction_keeps hs _)) nil_all
    · exact ite_all (one_all (restoration_keeps hs hI.group _)) nil_all
  · exact map_all (fun g => gridEnd_keeps hs _) _

theorem homeSteps_keeps (n : Nat) (h : Home) : ∀ r ∈ homeSteps n h s, I.R r := by
  unfold homeSteps
  refine append_all (append_all ?_ ?_) ?_
  · exact flatMap_all (fun m => cons_all (execGiveUp_keeps hs _) (one_all (offerResend_keeps hs _))) _
  · exact map_all (fun e => answerResend_keeps hs ..) _
  · exact map_all (fun x => holdSelfResume_keeps hs ..) _

theorem fabricSteps_keeps : ∀ r ∈ fabricSteps s, I.R r := by
  unfold fabricSteps
  refine append_all (append_all (append_all (append_all ?_ ?_) ?_) ?_) ?_
  · refine flatMap_all (fun c => append_all (append_all (ite_all nil_all (one_all (contextFetch_keeps hs ..))) ?_)
      (one_all (contextClose_keeps hs ..))) _
    exact flatMap_all (fun x => ite_all (cons_all (deliveryGiveUp_keeps hs ..) (one_all (packetResend_keeps hs ..))) nil_all) _
  · exact flatMap_all (fun c => append_all (ite_all (one_all (contextFetch_keeps hs ..)) nil_all) (one_all (contextClose_keeps hs ..))) _
  · exact map_all (fun m => deliveryGiveUp_keeps hs ..) _
  · exact flatMap_all (fun n => append_all (ite_all nil_all (one_all (tagFailureFault_keeps hs _)))
      (ite_all nil_all (one_all (linkDown_keeps hs _)))) _
  · refine ite_all (cons_all (execArrive_keeps hs _) ?_) nil_all
    exact ite_all (cons_all (execRelease_keeps hs _) (map_all (fun d => rekeyTimeout_keeps hs _) _)) nil_all

theorem markSteps_keeps : ∀ r ∈ markSteps s, I.R r := by
  unfold markSteps
  exact map_all (fun p => ite_R (R_next.mpr hs) (erasureMark_keeps hs _ _)) _

theorem pending_keeps (hI : I.Free) : ∀ r ∈ s.pending, I.R r := by
  unfold State.pending
  refine append_all (append_all (append_all (append_all (append_all (append_all (append_all (append_all (append_all (append_all (append_all
    (append_all (append_all (append_all (append_all (append_all (append_all (append_all ?_ ?_) ?_) ?_) ?_) ?_) ?_) ?_) ?_) ?_) ?_) ?_) ?_) ?_)
    ?_) ?_) ?_) ?_) ?_
  · exact flatMap_all (fun a => flatMap_all (fun p => cons_all (partStep_keeps hs hI ..) (one_all (R_next.mpr (seeStore_keeps hs _ _)))) _) _
  · exact map_all (fun l => R_next.mpr (landResult_keeps hs _)) _
  · exact flatMap_all (fun n => nodeSteps_keeps hs _ _) _
  · exact flatMap_all (fun g => groupSteps_keeps hs _ _) _
  · refine map_all (fun c => ?_) _
    split
    · exact commandComplete_keeps hs _
    · exact pieceDelivery_keeps hs ..
  · exact map_all (fun o => matrixComplete_keeps hs _) _
  · exact map_all (fun m => fieldStep_keeps hs ..) _
  · exact flatMap_all (fun x => append_all (map_all (fun h => hold_keeps hs ..) _)
      (cons_all (snapshotRelease_keeps hs _) (one_all (snapshotTimeout_keeps hs _)))) _
  · exact flatMap_all (fun n => homeSteps_keeps hs _ _) _
  · exact flatMap_all (fun d => cons_all (domainActivation_keeps hs ..) (one_all (fdeclTimeout_keeps hs _))) _
  · exact flatMap_all (fun c => ite_all (one_all (continuationArrival_keeps hs _))
      (cons_all (visitorStart_keeps hs hI.group _) (one_all (migrationRefusal_keeps hs _)))) _
  · exact flatMap_all (fun r => cons_all (R_next.mpr (sendRet_keeps hs _)) (one_all (migrationReturn_keeps hs _))) _
  · exact map_all (fun i => tlbinvAck_keeps hs _) _
  · exact map_all (fun b => refreshManagement_keeps hs _) _
  · exact map_all (fun b => refreshManagement_keeps hs _) _
  · exact map_all (fun c => copyEngineIssue_keeps hs _) _
  · exact distSteps_keeps hs hI
  · exact fabricSteps_keeps hs
  · exact markSteps_keeps hs

theorem due_keeps (hI : I.Free) : ∀ r ∈ s.due, I.R r := by
  unfold State.due
  split
  · exact firstChange_keeps _ (pending_keeps hs hI)
  · rintro r ⟨⟩

theorem idleEvent_keeps (i : Instr) : I.N (idleEvent i s) := by
  unfold idleEvent
  split <;> exact hs

theorem turn_keeps (hI : I.Free) : I.N s.turn := by
  have ht : ∀ ts n, I.P (State.tick { s with own := { s.own with agenda := ts } } n) := fun ts n => tick_keeps (mk_keeps hs) n
  unfold State.turn
  split
  · exact ht ..
  · trivial
  · dsimp only
    split
    · exact ht ..
    · exact idleEvent_keeps (ht ..) _
  · exact ht ..
  · exact groupTurn_keeps (ht ..) _
  · exact ite_keeps (sendRet_keeps (landResult_keeps (ht ..) _) _) (ht ..)
  · exact ite_keeps (seeStore_keeps (ht ..) ..) (ht ..)
  · exact ite_keeps (outside_keeps (ht ..) hI _) (ht ..)
  · have h1 := tick_keeps hs 1
    have hd := due_keeps h1 hI
    dsimp only
    split
    · rename_i r h
      exact hd r h
    · exact groupTurn_keeps h1 _

theorem gateStalled_keeps : I.P s.gateStalled := by
  unfold State.gateStalled
  exact foldl_keeps hs (fun t p ht => ite_keeps (gate_keeps ht _) ht) _

theorem ensue_keeps : I.P s.ensue := by
  unfold State.ensue
  have h1 := gateStalled_keeps (openBarriers_keeps (resume_keeps (endStep_keeps hs)))
  exact refresh_keeps (fireFaults_keeps (dropAsked_keeps (foldl_keeps h1 (fun t b ht => startColls_keeps ht _) _)))

omit hs in
theorem settled_keeps {r : Res} (hr : I.R r) : I.R (settled r) := by
  cases r with
  | next t => exact ensue_keeps hr
  | fault f => trivial
  | refused x => trivial

/-- What every step keeps. -/
theorem step_keeps (hI : I.Free) : I.R (step s) := by
  have ht := turn_keeps hs hI
  unfold step
  split
  · rename_i r h
    rw [h] at ht
    exact settled_keeps ht
  · rename_i i t h
    rw [h] at ht
    exact settled_keeps (exec_keeps ht i (.inr hI))

end Sys2Proof.Proofs.Inv
end

section
/-! The canonical forms of memory and of the list of groups, and the lanes of the groups. -/

namespace Sys2Proof.Proofs

open Sys2Proof Sys2Proof.Machine Sys2Proof.Claims

theorem wf_filter (q : Nat × Byte → Bool) {m : Mem} (h : Mem.wf m = true) : Mem.wf (m.filter q) = true := by
  unfold Mem.wf Sparse.wf at h ⊢
  rw [Bool.and_eq_true] at h ⊢
  exact ⟨sorted_filter q h.1, List.all_eq_true.mpr fun p hp => List.all_eq_true.mp h.2 p (List.mem_of_mem_filter hp)⟩

/-- Memory is in its canonical form. -/
def memoryWf : Inv where
  P s := Mem.wf s.mem = true
  Ok _ _ _ := True
  rest h hm _ _ := by rwa [hm]
  node h _ _ _ := h
  nodes h _ _ := h
  write h _ _ := Mem.wf_wrBytes _ _ _ h
  ok _ _ := trivial
  put h _ _ _ := h
  map h _ _ := h
  drop h _ := h
  filter h _ := h
  less _ _ _ := trivial
  keys _ := .inr fun _ _ _ => trivial

theorem memoryWf_free : memoryWf.Free where
  wait h _ _ := h
  group h _ _ := h
  clear h q := wf_filter q h
  fresh h _ hm := by
    show Mem.wf _ = true
    rcases hm with hm | ⟨q, hm⟩
    · rw [hm]
      rfl
    · rw [hm]
      exact wf_filter q h

/-- The list of groups is in its canonical form. -/
def groupsSorted : Inv where
  P s := Sparse.sorted s.groups = true
  Ok _ _ _ := True
  rest h _ hg _ := by rwa [hg]
  node h _ _ _ := h
  nodes h _ _ := h
  write h _ _ := h
  ok _ _ := trivial
  put h _ _ _ := Sparse.sorted_put _ _ _ h
  map h _ _ := sorted_map _ h
  drop h _ := Sparse.sorted_del _ _ h
  filter h q := sorted_filter q h
  less _ _ _ := trivial
  keys h := .inl h

theorem groupsSorted_free : groupsSorted.Free where
  wait h _ _ := h
  group h _ _ := Sparse.sorted_put _ _ _ h
  clear h _ := h
  fresh _ hg _ := by
    show Sparse.sorted _ = true
    rw [hg]
    rfl

/-- A step keeps every property that the basic operations keep. -/
theorem next_keeps {I : Inv} (hI : I.Free) {s t : State} (h : step s = .next t) (hs : I.P s) : I.P t := by
  have := Inv.step_keeps hs hI
  rwa [h] at this

/-- Settles O40: every step writes memory byte by byte, or clears it, and puts groups into their list, replaces them or takes them out. -/
theorem memoryCanonical : Obligations.MemoryCanonical :=
  fun _ _ h => ⟨next_keeps memoryWf_free h, next_keeps groupsSorted_free h⟩

/-- Settles O41: no cell replaces a group by one with a lane that the group had not, nor by one whose EXM leaves LIVEM. -/
theorem lanesOnlyLeave : Obligations.LanesOnlyLeave := by
  intro i s t hi hs ht j g g' hg hg'
  have h : (lanesSince s).P t := by
    have := Inv.exec_keeps (lanesSince_self hs) i (.inl hi)
    rwa [ht] at this
  obtain ⟨g₀, hg₀, hl, he⟩ := h.2 _ (mem_of_find hg')
  obtain rfl : g₀ = g := Option.some.inj ((find_of_mem hs hg₀).symm.trans hg)
  exact ⟨hl, he⟩

end Sys2Proof.Proofs
end

section
/-! Reads of bytes that stand as they were written, and the tables of waits. -/

namespace Sys2Proof.Proofs

open Sys2Proof Sys2Proof.Machine Sys2Proof.Claims

/-! ### A clean read answers the bytes of memory -/

theorem scheme_lt (s : State) (il key : Nat) : s.scheme il key < 8 := by
  unfold State.scheme
  split
  · assumption
  · cases h : (List.range 8).find? (fun i => (s.schemesOf key).getLsbD i) with
    | none => exact Nat.zero_lt_succ _
    | some i => exact List.mem_range.mp (List.mem_of_find?_eq_some h)

theorem scheme_of_lt {il : Nat} (h : il < 8) (s : State) (key : Nat) : s.scheme il key = il := if_pos h

/-- What the symbol code finds depends on the scheme named, and not on those of the frame. -/
theorem reach_ecc {il : Nat} (h : il < 8) (s : State) (il' key sector : Nat) : (s.reach il' key).ecc il sector = s.ecc il sector := by
  simp only [State.ecc, scheme_of_lt h]
  unfold State.reach
  split <;> rfl

theorem activate_mixed (s : State) (il key k : Nat) : (s.activate il key).mixed k = s.mixed k := by
  unfold State.activate
  split
  · dsimp only
    split <;> rfl
  · rfl

theorem stored_of_not_mixed {s : State} {key : Nat} (h : s.mixed key = false) (n : Nat) : s.stored key n = Mem.bytes s.mem key n := by
  rw [State.stored, h]
  exact if_neg Bool.false_ne_true

/-- A clean read answers the bytes of memory. -/
theorem readAt_clean {s : State} {il key n : Nat} (h : Clean s il key n) : (s.readAt il key n).2 = some (Mem.bytes s.mem key n) := by
  unfold State.readAt
  rcases h with ⟨hkey, hbad⟩ | ⟨hkey, hecc, hmixed⟩
  · rw [if_pos hkey, hbad]
    rfl
  · have hread : ((s.reach il key).activate (s.scheme il key) key).ecc (s.scheme il key) (key / 32) = .clean := by
      rw [activate_ecc, reach_ecc (scheme_lt s il key), hecc]
    have hmem : ((s.reach il key).activate (s.scheme il key) key).mem = s.mem :=
      (activate_mem _ _ _).trans (reach_readHome s il key).mem_eq
    simp only [if_neg (Nat.not_le.mpr hkey), hread]
    rw [stored_of_not_mixed (by rw [activate_mixed, hmixed]), hmem]

/-! ### The tables of waits -/

theorem mapNodes_node (s : State) (f : Node → Node) (n : Nat) :
    (s.mapNodes f).node n = f (s.node n) ∨ (s.mapNodes f).node n = Node.reset := by
  simp only [State.node, State.mapNodes, Sparse.get]
  generalize s.nodes = l
  induction l with
  | nil => exact .inr rfl
  | cons p l ih =>
    simp only [List.map_cons, Sparse.find]
    split
    · exact .inl rfl
    · exact ih

/-- Every table is without an entry: only what records a wait adds one. -/
def withoutWait (id : Nat) : Inv where
  P s := ∀ n, id ∉ waitIds (s.node n).waits
  Ok _ _ _ := True
  rest h _ _ hn n := by
    have := h n
    rwa [State.node, ← hn] at this
  node {s} h n x hx m := by
    by_cases hm : m = n
    · rw [hm, State.node_setNode]
      exact fun hid => h n (hx hid)
    · rw [State.node_setNode_other s x hm]
      exact h m
  nodes {s} h f hf n := by
    rcases mapNodes_node s f n with heq | heq
    · rw [heq]
      exact fun hid => h n (hf _ hid)
    · rw [heq]
      exact List.not_mem_nil
  write h _ _ := h
  ok _ _ := trivial
  put h _ _ _ := h
  map h _ _ := h
  drop h _ := h
  filter h _ := h
  less _ _ _ := trivial
  keys _ := .inr fun _ _ _ => trivial

/-- An entry that is answered has left every table. -/
theorem answer_withoutWait (s : State) (w : WaitEntry) (x : Option Word) : (withoutWait w.id).P (s.answer w x) := by
  have h : (withoutWait w.id).P (s.mapNodes (fun n => { n with waits := n.waits.filter (fun v => v.id ≠ w.id) })) := by
    intro n
    rw [node_mapNodes rfl]
    simp [waitIds]
  unfold State.answer
  dsimp only
  split
  · exact h
  · split
    · exact h
    · split
      · exact Inv.lost_keeps h _ _
      · exact Inv.partDone_keeps (Inv.acquiredBy_keeps (Inv.endSleep_keeps h _) _) _ _ _

theorem waitEntry_gone {id : Nat} {t : State} (h : (withoutWait id).P t) (n : Nat) : ∀ v ∈ (t.node n).waits, v.id ≠ id :=
  fun _ hv he => h n (List.mem_map.mpr ⟨_, hv, he⟩)

/-- A registration whose word is read: it is answered, or recorded at the end of its home's table. -/
theorem waitRegistration_eq {req part : Nat} {s : State} {a : Access} {p : Part} {key cmp : Nat} {dl : Option Nat} {bs : List Byte}
    (hpart : s.partAt req part = some (a, p, key)) (hkind : a.kind = .wait cmp dl) (hread : (s.readAt p.il key 4).2 = some bs) :
    ∃ t, exec (.waitRegistration req part) s = .next t ∧
      (condWait cmp (BitVec.ofNat 32 (leNat bs) &&& BitVec.ofNat 32 (leNat p.data))
          (BitVec.ofNat 32 (leNat p.cmp) &&& BitVec.ofNat 32 (leNat p.data)) = false →
        (s.node (homeOf p.il key)).waits.length < 256 → (∀ d, dl = some d → s.clock.toNat < d) →
        ∃ w, (t.node (homeOf p.il key)).waits = (s.node (homeOf p.il key)).waits ++ [w] ∧ w.loc = key ∧ w.acc = a.id ∧
          w.ans = none ∧ t.mem = s.mem) := by
  have hhome := readAt_readHome s p.il key 4
  have hnode (n : Nat) : (s.readAt p.il key 4).1.node n = s.node n := congrArg (fun m => Sparse.get Node.reset m n) hhome.nodes_eq
  have hclock : (s.readAt p.il key 4).1.clock = s.clock := congrArg (·.clock) hhome.rest
  simp only [exec, execWaitRegistration, hpart, hkind, hread]
  generalize hnow : (_ || _ || _) = now
  cases now with
  | true =>
    refine ⟨_, rfl, fun hcond hroom htime => ?_⟩
    simp only [hnode, hclock, WaitEntry.holds, hcond, Bool.false_or, Bool.or_eq_true, decide_eq_true_eq] at hnow
    rcases hnow with hfull | hlate
    · exact absurd hroom (Nat.not_lt.mpr hfull)
    · cases dl with
      | none => exact absurd hlate Bool.false_ne_true
      | some d => exact absurd (htime d rfl) (Nat.not_lt.mpr (of_decide_eq_true hlate))
  | false =>
    simp only [Bool.false_eq_true, if_false]
    refine ⟨_, rfl, fun _ _ _ => ?_⟩
    rw [State.node_modNode]
    exact ⟨_, congrArg (fun n : Node => n.waits ++ [_]) (hnode _), rfl, rfl, rfl, hhome.mem_eq⟩

/-- Settles O29: a registration reads its word at the home, and an answer takes the entry out of the tables before it reaches the access. -/
theorem waitTables : Obligations.WaitTables := by
  refine ⟨fun req part s a p key cmp dl hpart hkind hclean => ?_, fun entry s w x hw hans => ?_, fun entry s w d hw hans hd hdue => ?_⟩
  · exact waitRegistration_eq hpart hkind (readAt_clean hclean)
  · simp only [exec, execWaitAnswer, hw, hans]
    exact ⟨_, rfl, waitEntry_gone (answer_withoutWait _ _ _)⟩
  · simp only [exec, execWwaittTimeout, hw, hans, hd, if_pos hdue]
    exact ⟨_, rfl, waitEntry_gone (answer_withoutWait _ _ _)⟩

end Sys2Proof.Proofs
end

section
/-! Sending over the fabric, and the lines of the write-combining buffers. -/

namespace Sys2Proof.Proofs

open Sys2Proof Sys2Proof.Machine Sys2Proof.Claims

/-! ### What a device sends changes the fabric's state and the outbox alone -/

/-- `t` is `s` but for the state of the fabric and what has been sent. -/
structure SentOnly (s t : State) : Prop where
  rest : { t with own := { t.own with outbox := s.own.outbox }, fab := s.fab } = s

theorem SentOnly.refl (s : State) : SentOnly s s := ⟨rfl⟩

theorem SentOnly.trans {s t u : State} (h : SentOnly s t) (k : SentOnly t u) : SentOnly s u :=
  ⟨(congrArg (fun x : State => { x with own := { x.own with outbox := s.own.outbox }, fab := s.fab }) k.rest).trans h.rest⟩

theorem SentOnly.fab (s : State) (f : Fab) : SentOnly s { s with fab := f } := ⟨rfl⟩

theorem SentOnly.then_fab {s t : State} (h : SentOnly s t) (f : Fab) : SentOnly s { t with fab := f } := h.trans (.fab t f)

theorem emit_sent (s : State) (e : Effect) : SentOnly s (s.emit e) := ⟨rfl⟩

theorem roomForCtx_sent (s : State) : SentOnly s s.roomForCtx := by
  unfold State.roomForCtx
  extract_lets full _ s' sending receiving old
  have h : SentOnly s s' := by
    unfold s'
    split
    · exact ⟨rfl⟩
    · exact .refl s
  split
  · exact h
  · split
    · exact h.then_fab _
    · exact h.then_fab _
    · exact h

theorem openCtx_sent (s : State) (peer cls : Nat) : SentOnly s (s.openCtx peer cls) := by
  unfold State.openCtx
  split
  · exact .refl s
  · exact (roomForCtx_sent s).then_fab _

theorem letIn_sent (s : State) (peer cls : Nat) (p : Packet) (why : Purpose) : SentOnly s (s.letIn peer cls p why) := by
  unfold State.letIn
  extract_lets full s'
  have h : SentOnly s s' := by
    unfold s'
    split
    · exact ⟨rfl⟩
    · exact .refl s
  split
  · exact h.then_fab _
  · exact (h.trans (openCtx_sent s' peer cls)).then_fab _

theorem closeCtx_sent (s : State) (c : SendCtx) : SentOnly s (s.closeCtx c) := by
  refine SentOnly.trans (.fab s _) (foldl_rel SentOnly.refl SentOnly.trans c.pkts (fun t x _ => ?_) _)
  split
  · exact .refl t
  · exact letIn_sent t ..

theorem enqueue_sent (s : State) (peer cls : Nat) (p : Packet) (why : Purpose) : SentOnly s (s.enqueue peer cls p why) := by
  unfold State.enqueue
  split
  · exact letIn_sent s ..
  · dsimp only
    split
    · exact (closeCtx_sent s _).trans (letIn_sent _ ..)
    · exact letIn_sent s ..

theorem flush_sent (s : State) : SentOnly s s.flush := by
  refine foldl_rel SentOnly.refl SentOnly.trans _ (fun t c _ => ?_) s
  split
  · exact .refl t
  · exact (foldl_rel SentOnly.refl SentOnly.trans _ (fun u p _ => emit_sent u _) t).then_fab _

theorem request_sent (s : State) (c : BitVec 8) (peer typ len : Nat) (b : PBody) (why : Purpose) : SentOnly s (s.request c peer typ len b why) :=
  SentOnly.trans (SentOnly.trans (.fab s _) (enqueue_sent s.newMsg ..)) (flush_sent _)

/-! ### What drains from the write-combining buffers -/

/-- From `s` to `t` memory, the read buffers and the homes stay, and accesses, their parts, lines of the write-combining buffers and waits only leave: those that are left keep what
names them, and the peer of a part. -/
structure Lessens (s t : State) : Prop where
  mem : t.mem = s.mem
  accs : ∀ b ∈ t.accs, ∃ a ∈ s.accs, b.id = a.id ∧ ∀ q ∈ b.parts, ∃ p ∈ a.parts, q.id = p.id ∧ q.peer = p.peer
  lines : ∀ n, ∀ k ∈ (t.node n).wc, ∃ l ∈ (s.node n).wc, k.id = l.id ∧ k.closed = l.closed
  waits : ∀ n, (t.node n).waits ⊆ (s.node n).waits
  rb : ∀ n, (t.node n).rb = (s.node n).rb
  home : ∀ n, (t.node n).home = (s.node n).home

theorem Lessens.refl (s : State) : Lessens s s :=
  ⟨rfl, fun b hb => ⟨b, hb, rfl, fun q hq => ⟨q, hq, rfl, rfl⟩⟩, fun _ k hk => ⟨k, hk, rfl, rfl⟩, fun _ => List.Subset.refl _, fun _ => rfl, fun _ => rfl⟩

theorem Lessens.trans {s t u : State} (h : Lessens s t) (k : Lessens t u) : Lessens s u where
  mem := k.mem.trans h.mem
  accs c hc := by
    obtain ⟨b, hb, hid, hparts⟩ := k.accs c hc
    obtain ⟨a, ha, hid', hparts'⟩ := h.accs b hb
    refine ⟨a, ha, hid.trans hid', fun q hq => ?_⟩
    obtain ⟨p, hp, hpid, hpeer⟩ := hparts q hq
    obtain ⟨o, ho, hoid, hopeer⟩ := hparts' p hp
    exact ⟨o, ho, hpid.trans hoid, hpeer.trans hopeer⟩
  lines n x hx := by
    obtain ⟨y, hy, hid, hc⟩ := k.lines n x hx
    obtain ⟨z, hz, hid', hc'⟩ := h.lines n y hy
    exact ⟨z, hz, hid.trans hid', hc.trans hc'⟩
  waits n := List.Subset.trans (k.waits n) (h.waits n)
  rb n := (k.rb n).trans (h.rb n)
  home n := (k.home n).trans (h.home n)

/-- Memory, the accesses and the nodes stay. -/
theorem lessens_of_same {s t : State} (hmem : t.mem = s.mem) (haccs : t.accs = s.accs) (hnodes : t.nodes = s.nodes) : Lessens s t where
  mem := hmem
  accs := by rw [haccs]; exact (Lessens.refl s).accs
  lines n := by rw [State.node, hnodes]; exact (Lessens.refl s).lines n
  waits n := by rw [State.node, hnodes]; exact List.Subset.refl _
  rb n := by rw [State.node, hnodes]; rfl
  home n := by rw [State.node, hnodes]; rfl

theorem SentOnly.lessens {s t : State} (h : SentOnly s t) : Lessens s t :=
  lessens_of_same (congrArg (·.mem) h.rest) (congrArg (·.accs) h.rest) (congrArg (·.nodes) h.rest)

/-- A core's node changes, and neither a line nor a wait is new. -/
theorem modNode_lessens (s : State) (n : Nat) (f : Node → Node)
    (hlines : ∀ k ∈ (f (s.node n)).wc, ∃ l ∈ (s.node n).wc, k.id = l.id ∧ k.closed = l.closed)
    (hwaits : (f (s.node n)).waits ⊆ (s.node n).waits) (hrb : (f (s.node n)).rb = (s.node n).rb)
    (hhome : (f (s.node n)).home = (s.node n).home) : Lessens s (s.modNode n f) := by
  refine ⟨rfl, (Lessens.refl s).accs, fun m k hk => ?_, fun m => ?_, fun m => ?_, fun m => ?_⟩
  · by_cases hm : m = n
    · rw [hm, State.node_modNode] at hk
      rw [hm]
      exact hlines k hk
    · rw [State.modNode, State.node_setNode_other s _ hm] at hk
      exact ⟨k, hk, rfl, rfl⟩
  · by_cases hm : m = n
    · rw [hm, State.node_modNode]
      exact hwaits
    · rw [State.modNode, State.node_setNode_other s _ hm]
      exact List.Subset.refl _
  · by_cases hm : m = n
    · rw [hm, State.node_modNode, hrb]
    · rw [State.modNode, State.node_setNode_other s _ hm]
  · by_cases hm : m = n
    · rw [hm, State.node_modNode, hhome]
    · rw [State.modNode, State.node_setNode_other s _ hm]

theorem modGroup_lessens (s : State) (gid : Nat) (f : Group → Group) : Lessens s (s.modGroup gid f) := by
  unfold State.modGroup
  split
  · exact .refl s
  · exact lessens_of_same rfl rfl rfl

theorem modGrid_lessens (s : State) (id : Nat) (f : Grid → Grid) : Lessens s (s.modGrid id f) := by
  unfold State.modGrid
  split
  · exact .refl s
  · exact lessens_of_same rfl rfl rfl

theorem storeFault_lessens (s : State) (gid peer reason : Nat) (addr : Dword) : Lessens s (s.storeFault gid peer reason addr) := by
  unfold State.storeFault State.storeFail
  dsimp only
  split
  · exact modGroup_lessens s ..
  · split
    · exact modGrid_lessens s ..
    · exact lessens_of_same rfl rfl rfl

theorem endLine_lessens (s : State) (core : Nat) (l : WcLine) (reason : Nat) : Lessens s (s.endLine core l reason) := by
  have h : Lessens s (s.modNode core (fun n => { n with wc := n.wc.filter (fun k => k.id ≠ l.id) })) :=
    modNode_lessens s core _ (fun k hk => ⟨k, List.mem_of_mem_filter hk, rfl, rfl⟩) (List.Subset.refl _) rfl rfl
  unfold State.endLine
  dsimp only
  split
  · exact h
  · exact h.trans (foldl_rel Lessens.refl Lessens.trans _ (fun t g _ => storeFault_lessens t ..) _)

theorem failLines_lessens (s : State) (core : Nat) : Lessens s (s.failLines core) := by
  refine foldl_rel Lessens.refl Lessens.trans _ (fun t l _ => ?_) s
  split
  · exact .refl t
  · split
    · exact .refl t
    · exact endLine_lessens t ..

theorem drain_lessens (s : State) (n : Nat) : Lessens s (s.drain n) := by
  refine foldl_rel Lessens.refl Lessens.trans _ (fun t l _ => ?_) s
  split
  · refine (modNode_lessens t n _ (fun k hk => ?_) (List.Subset.refl _) rfl rfl).trans (request_sent _ ..).lessens
    obtain ⟨k', hk', rfl⟩ := List.mem_map.mp hk
    refine ⟨k', hk', ?_⟩
    split
    · exact ⟨rfl, rfl⟩
    · exact ⟨rfl, rfl⟩
  · exact .refl t

theorem drains_lessens (s : State) : Lessens s s.drains :=
  foldl_rel Lessens.refl Lessens.trans _ (fun t n _ => (failLines_lessens t n).trans (drain_lessens _ n)) s

/-- No part of an access is for a peer. -/
def NoPeerParts (s : State) : Prop := ∀ b ∈ s.accs, ∀ q ∈ b.parts, q.peer = none

theorem Lessens.noPeerParts {s t : State} (h : Lessens s t) (hs : NoPeerParts s) : NoPeerParts t := by
  intro b hb q hq
  obtain ⟨a, ha, -, hparts⟩ := h.accs b hb
  obtain ⟨p, hp, -, hpeer⟩ := hparts q hq
  exact hpeer.trans (hs a ha p hp)

theorem sendParts_of_noPeerParts {s : State} (h : NoPeerParts s) : s.sendParts = s := by
  refine foldl_fixed s _ fun a ha => foldl_fixed s _ fun p hp => ?_
  split
  · rfl
  · rw [State.sendPart, h a ha p hp]

theorem pump_lessens {s : State} (h : NoPeerParts s) : Lessens s s.pump := by
  have hd := drains_lessens s
  have hs : s.drains.sendParts = s.drains := sendParts_of_noPeerParts (hd.noPeerParts h)
  rw [State.pump, hs]
  exact (hd.trans (drains_lessens _)).trans (flush_sent _).lessens

end Sys2Proof.Proofs
end

section
/-! Events of a core: sleeps, wakes, late joins and the lines of the write-combining buffer. -/

namespace Sys2Proof.Proofs

open Sys2Proof Sys2Proof.Machine Sys2Proof.Claims

theorem rouse_mem (s : State) (n : Nat) (bits : Word) : (s.rouse n bits).mem = s.mem := by
  unfold State.rouse
  split <;> rfl

theorem rouse_group (s : State) (n : Nat) (bits : Word) (i : Nat) : (s.rouse n bits).group i = s.group i := by
  unfold State.rouse
  split <;> rfl

/-- A group is replaced, and its core roused. -/
theorem group_rouse_setGroup (s : State) (i n : Nat) (bits : Word) (g : Group) : ((s.setGroup i g).rouse n bits).group i = some g := by
  rw [rouse_group, State.group_setGroup]

theorem closeLines_closed (s : State) (n id : Nat) {k : WcLine} (hk : k ∈ ((s.closeLines n (fun l => l.id = id)).node n).wc) (hid : k.id = id) :
    k.closed = true := by
  unfold State.closeLines at hk
  split at hk
  · rw [State.node_modNode] at hk
    obtain ⟨l, hl, rfl⟩ := List.mem_map.mp hk
    split
    · rfl
    · rename_i hne
      rw [if_neg hne] at hid
      exact absurd (decide_eq_true hid) hne
  · rename_i hany
    by_contra hopen
    refine hany (List.any_eq_true.mpr ⟨k, hk, ?_⟩)
    simp [hid, Bool.eq_false_iff.mpr hopen]

theorem closeLines_accs (s : State) (n : Nat) (p : WcLine → Bool) : (s.closeLines n p).accs = s.accs := by
  unfold State.closeLines
  split <;> rfl

/-- A line leaves the buffer before its writers hear of a failure. -/
theorem endLine_after (s : State) (core : Nat) (l : WcLine) (reason : Nat) :
    Lessens (s.modNode core (fun n => { n with wc := n.wc.filter (fun k => k.id ≠ l.id) })) (s.endLine core l reason) := by
  unfold State.endLine
  dsimp only
  split
  · exact .refl _
  · exact foldl_rel Lessens.refl Lessens.trans _ (fun t g _ => storeFault_lessens t ..) _

/-- A line that has been answered is in no buffer of its core. -/
theorem lineAcked_gone {s : State} (hpeer : NoPeerParts s) (core line reason : Nat) :
    ∀ k ∈ ((s.lineAcked core line reason).node core).wc, k.id ≠ line := by
  intro k hk
  unfold State.lineAcked at hk
  split at hk
  · rename_i hnone
    exact fun h => by simpa [h] using List.find?_eq_none.mp hnone k hk
  · rename_i l hl
    have hid : l.id = line := by simpa using List.find?_some hl
    obtain ⟨k', hk', hid', -⟩ := (pump_lessens ((endLine_lessens s core l reason).noPeerParts hpeer)).lines core k hk
    obtain ⟨k'', hk'', hid'', -⟩ := (endLine_after s core l reason).lines core k' hk'
    rw [State.node_modNode] at hk''
    rw [hid', hid'', ← hid]
    simpa using (List.mem_filter.mp hk'').2

/-- Settles O30. -/
theorem coreEvents : Obligations.CoreEvents := by
  refine ⟨fun s gid g d hg hhold hdue => ?_, fun s n w hgated hwaking => ?_, fun s gid g e st hg hst hdue => ?_,
    fun s n l hl hopen hage hpeer => ?_, fun s n line status c x hc hcached hrec hx hpurp hsent hstatus hpeer => ?_⟩
  · simp only [exec, execSleepExpiry, hg, hhold, if_pos hdue]
    exact ⟨_, _, rfl, group_rouse_setGroup .., rfl, rouse_mem ..⟩
  · simp only [exec, execCoreWake, hgated, hwaking, Option.isSome_some, Bool.and_self, if_true]
    refine ⟨_, rfl, ?_, fun m hm => State.node_setNode_other s _ hm, rfl⟩
    rw [State.wake, State.node_modNode, hwaking]
    rfl
  · simp only [exec, execJoinwExpiry, hg, hst, hdue, if_true]
    refine ⟨_, _, rfl, group_rouse_setGroup .., rouse_mem .., fun j hj => ?_, rfl, rfl, rfl, rfl, rfl⟩
    rw [rouse_group, State.group_setGroup_other _ _ hj]
  · have hany : ((s.node n).wc.any (fun k => k.id = l.id && !k.closed && k.since + 1024 ≤ s.clock.toNat)) = true :=
      List.any_eq_true.mpr ⟨l, hl, by simp [hopen, hage]⟩
    simp only [exec, execWcLineAgeDrain, hany, if_true]
    refine ⟨_, rfl, fun k hk hid => ?_⟩
    obtain ⟨k', hk', hid', hclosed⟩ := (pump_lessens (by rw [NoPeerParts, closeLines_accs]; exact hpeer)).lines n k hk
    exact hclosed.trans (closeLines_closed s n l.id hk' (hid'.symm.trans hid))
  · have hmine : s.fab.sctx.any (fun c => c.cached && c.pkts.any (fun x => x.purpose = .line n line && x.sent)) = true := by
      refine List.any_eq_true.mpr ⟨c, hc, ?_⟩
      rw [hcached, Bool.true_and]
      exact List.any_eq_true.mpr ⟨x, hx, by simp [hpurp, hsent]⟩
    have hlow : decide (3 < status) = false := decide_eq_false (Nat.not_lt.mpr hstatus)
    simp only [exec, execWcLineAck, hmine, hrec, hlow, Bool.not_true, Bool.or_self, Bool.false_eq_true, if_false]
    refine ⟨_, rfl, fun k hk => ?_⟩
    obtain ⟨k', hk', hid, -⟩ := (flush_sent _).lessens.lines n k hk
    rw [hid]
    exact lineAcked_gone (by exact hpeer) n line _ k' hk'

end Sys2Proof.Proofs
end

section
/-! Parts of accesses that are performed: what lands, and what retires with it, takes nothing from memory and adds no access, line or wait. -/

namespace Sys2Proof.Proofs

open Sys2Proof Sys2Proof.Machine Sys2Proof.Claims

/-! ### Groups and blocks -/

theorem setGroup_lessens (s : State) (gid : Nat) (g : Group) : Lessens s (s.setGroup gid g) := lessens_of_same rfl rfl rfl

theorem setBlock_lessens (s : State) (k : Nat) (b : Block) : Lessens s (s.setBlock k b) := lessens_of_same rfl rfl rfl

/-- A core's node changes beside its lines and waits. -/
theorem modNode_lessens_of_same (s : State) (n : Nat) {f : Node → Node} (hwc : (f (s.node n)).wc = (s.node n).wc)
    (hwaits : (f (s.node n)).waits = (s.node n).waits) (hrb : (f (s.node n)).rb = (s.node n).rb)
    (hhome : (f (s.node n)).home = (s.node n).home) : Lessens s (s.modNode n f) :=
  modNode_lessens s n f (fun k hk => ⟨k, hwc ▸ hk, rfl, rfl⟩) (hwaits ▸ List.Subset.refl _) hrb hhome

theorem modBlock_lessens (s : State) (k : Nat) (f : Block → Block) : Lessens s (s.modBlock k f) := by
  unfold State.modBlock
  split
  · exact .refl s
  · exact lessens_of_same rfl rfl rfl

theorem rouse_lessens (s : State) (n : Nat) (bits : Word) : Lessens s (s.rouse n bits) := by
  unfold State.rouse
  split
  · exact modNode_lessens_of_same s n rfl rfl rfl rfl
  · exact .refl s

theorem unpark_lessens (s : State) (gid : Nat) (bits : Word) : Lessens s (s.unpark gid bits) := by
  unfold State.unpark
  split
  · exact .refl s
  · dsimp only
    split
    · exact lessens_of_same rfl rfl rfl
    · exact (setGroup_lessens s gid _).trans (rouse_lessens _ ..)

theorem endVisitor_lessens (s : State) (gid code reason : Nat) (addr : Dword) : Lessens s (s.endVisitor gid code reason addr) := by
  unfold State.endVisitor
  split
  · exact .refl s
  · split
    · exact .refl s
    · exact lessens_of_same rfl rfl rfl

theorem raise_lessens (s : State) (gid : Nat) (t : Imprecise) : Lessens s (s.raise gid t) := by
  unfold State.raise
  split
  · exact .refl s
  · dsimp only
    split
    · exact endVisitor_lessens s ..
    · split
      · exact lessens_of_same rfl rfl rfl
      · exact (setGroup_lessens s gid _).trans (rouse_lessens _ ..)

theorem storeFail_lessens (s : State) (gid : Nat) (t : Imprecise) : Lessens s (s.storeFail gid t) := by
  unfold State.storeFail
  split
  · exact modGroup_lessens s ..
  · split
    · exact modGrid_lessens s ..
    · exact lessens_of_same rfl rfl rfl

theorem raiseStores_lessens (s : State) (gid : Nat) (peer : Option Nat) : Lessens s (s.raiseStores gid peer) := by
  unfold State.raiseStores
  split
  · exact .refl s
  · exact (setGroup_lessens s gid _).trans (foldl_rel Lessens.refl Lessens.trans _ (fun t x _ => raise_lessens t ..) _)

/-! ### The end of a group and of its block -/

theorem reapBlock_lessens (s : State) (k : Nat) : Lessens s (s.reapBlock k) := by
  unfold State.reapBlock
  split
  · exact .refl s
  · split
    · exact .refl s
    · split
      · have h : Lessens s { s with blocks := Sparse.del s.blocks k } := lessens_of_same rfl rfl rfl
        exact h.trans (modNode_lessens_of_same _ _ rfl rfl rfl rfl)
      · exact modNode_lessens_of_same _ _ rfl rfl rfl rfl

theorem reap_lessens (s : State) : Lessens s s.reap :=
  foldl_rel Lessens.refl Lessens.trans _ (fun t k _ => reapBlock_lessens t k) s

/-- The accesses change part by part. -/
theorem lessens_of_accs {s t : State} (hmem : t.mem = s.mem) (hnodes : t.nodes = s.nodes)
    (h : ∀ b ∈ t.accs, ∃ a ∈ s.accs, b.id = a.id ∧ ∀ q ∈ b.parts, ∃ p ∈ a.parts, q.id = p.id ∧ q.peer = p.peer) : Lessens s t where
  mem := hmem
  accs := h
  lines n := by rw [State.node, hnodes]; exact (Lessens.refl s).lines n
  waits n := by rw [State.node, hnodes]; exact List.Subset.refl _
  rb n := by rw [State.node, hnodes]; rfl
  home n := by rw [State.node, hnodes]; rfl

theorem unhold_lessens (s : State) (mine : Nat → Bool) : Lessens s (s.unhold mine) := by
  refine lessens_of_accs rfl rfl fun b hb => ?_
  obtain ⟨a, ha, rfl⟩ := List.mem_map.mp hb
  refine ⟨a, ha, ?_⟩
  split
  · refine ⟨rfl, fun q hq => ?_⟩
    obtain ⟨p, hp, rfl⟩ := List.mem_map.mp hq
    refine ⟨p, hp, ?_⟩
    split
    · exact ⟨rfl, rfl⟩
    · exact ⟨rfl, rfl⟩
  · exact ⟨rfl, fun q hq => ⟨q, hq, rfl, rfl⟩⟩

theorem dropHeld_lessens (s : State) (mine : Nat → Bool) : Lessens s (s.dropHeld mine) := by
  refine lessens_of_accs rfl rfl fun b hb => ?_
  obtain ⟨a, ha, rfl⟩ := List.mem_map.mp (List.mem_of_mem_filter hb)
  refine ⟨a, ha, ?_⟩
  split
  · exact ⟨rfl, fun q hq => ⟨q, List.mem_of_mem_filter hq, rfl, rfl⟩⟩
  · exact ⟨rfl, fun q hq => ⟨q, hq, rfl, rfl⟩⟩

theorem mapNodes_lessens (s : State) {f : Node → Node} (hwc : ∀ x, (f x).wc = x.wc) (hwaits : ∀ x, (f x).waits ⊆ x.waits)
    (hrb : ∀ x, (f x).rb = x.rb) (hhome : ∀ x, (f x).home = x.home) (hreset : f Node.reset = Node.reset) : Lessens s (s.mapNodes f) := by
  refine ⟨rfl, (Lessens.refl s).accs, fun n k hk => ?_, fun n => ?_, fun n => by rw [node_mapNodes hreset, hrb],
    fun n => by rw [node_mapNodes hreset, hhome]⟩
  · rcases mapNodes_node s f n with heq | heq
    · rw [heq, hwc] at hk
      exact ⟨k, hk, rfl, rfl⟩
    · rw [heq] at hk
      cases hk
  · rcases mapNodes_node s f n with heq | heq
    · rw [heq]
      exact hwaits _
    · rw [heq]
      exact List.nil_subset _

theorem endBlock_lessens (s : State) (k : Nat) (cause : Option Nat) : Lessens s (s.endBlock k cause) := by
  unfold State.endBlock
  split
  · exact .refl s
  · rename_i b _
    extract_lets gone s1 s2 _ _ s3
    have h1 : Lessens s s1 := (modNode_lessens_of_same s b.core rfl rfl rfl rfl).trans (setBlock_lessens _ ..)
    have h2 : Lessens s1 s2 := by
      unfold s2
      split
      · exact dropHeld_lessens s1 _
      · exact unhold_lessens s1 _
    have h3 : Lessens s2 s3 := by
      by_cases hc : cause.isSome = true
      · have hmap : Lessens s2 (s2.mapNodes fun n => { n with waits := n.waits.filter (fun w => !gone.contains w.gid) }) :=
          mapNodes_lessens s2 (fun _ => rfl) (fun _ => List.filter_subset_self _) (fun _ => rfl) (fun _ => rfl) rfl
        exact hmap.trans (lessens_of_same rfl rfl (if_pos hc))
      · exact lessens_of_same rfl rfl (if_neg hc)
    exact ((h1.trans h2).trans h3).trans ((modGrid_lessens s3 ..).trans (reap_lessens _))

theorem endHalt_lessens (s : State) (k : Nat) : Lessens s (s.endHalt k) :=
  (modBlock_lessens s k _).trans (lessens_of_same rfl rfl rfl)

theorem tryRetire_lessens (s : State) (gid : Nat) : Lessens s (s.tryRetire gid) := by
  unfold State.tryRetire
  split
  · exact .refl s
  · rename_i g _
    split
    · exact .refl s
    · extract_lets _ _ s1
      have h1 : Lessens s s1 := lessens_of_same rfl rfl rfl
      split
      · exact h1
      · rename_i b _
        extract_lets slots s2 s3 s4
        have h2 : Lessens s1 s2 := lessens_of_same rfl rfl rfl
        have h3 : Lessens s2 s3 := by
          unfold s3
          split
          · exact endHalt_lessens s2 _
          · exact .refl s2
        have h4 : Lessens s3 s4 := by
          unfold s4
          split
          · exact .refl s3
          · exact modGrid_lessens s3 ..
        have h := ((h1.trans h2).trans h3).trans h4
        split
        · exact h.trans (endBlock_lessens s4 ..)
        · exact h

/-! ### What lands in registers -/

/-- The results of a group go to its registers, and not to the image of an evicted block. -/
def Resident (s : State) (gid : Nat) : Prop := ∀ g, s.group gid = some g → s.imageOf g = none

/-- Groups keep what says where they are, and blocks whether they have been saved. -/
structure Stays (s t : State) (gid : Nat) : Prop where
  group : ∀ g', t.group gid = some g' → ∃ g, s.group gid = some g ∧ g'.visitor = g.visitor ∧ g'.block = g.block
  block : ∀ k b', t.block k = some b' → ∃ b, s.block k = some b ∧ b'.saved = b.saved

theorem Stays.refl (s : State) (gid : Nat) : Stays s s gid := ⟨fun g h => ⟨g, h, rfl, rfl⟩, fun _ b h => ⟨b, h, rfl⟩⟩

theorem Stays.trans {s t u : State} {gid : Nat} (h : Stays s t gid) (k : Stays t u gid) : Stays s u gid where
  group g hg := by
    obtain ⟨g1, hg1, hv, hb⟩ := k.group g hg
    obtain ⟨g2, hg2, hv', hb'⟩ := h.group g1 hg1
    exact ⟨g2, hg2, hv.trans hv', hb.trans hb'⟩
  block n b hb := by
    obtain ⟨b1, hb1, hs⟩ := k.block n b hb
    obtain ⟨b2, hb2, hs'⟩ := h.block n b1 hb1
    exact ⟨b2, hb2, hs.trans hs'⟩

theorem Stays.resident {s t : State} {gid : Nat} (h : Stays s t gid) (hs : Resident s gid) : Resident t gid := by
  intro g' hg'
  obtain ⟨g, hg, hv, hb⟩ := h.group g' hg'
  have himage := hs g hg
  unfold State.imageOf at himage ⊢
  rw [hv, hb]
  split
  · rfl
  · rename_i hvis
    rw [if_neg hvis] at himage
    split
    · rfl
    · rename_i b' hb'
      obtain ⟨b, hblock, hsaved⟩ := h.block g.block b' hb'
      rw [hblock] at himage
      rw [hsaved, Option.map_eq_none_iff.mp himage]
      rfl

theorem stays_of_same {s t : State} (gid : Nat) (hg : t.groups = s.groups) (hb : t.blocks = s.blocks) : Stays s t gid where
  group g h := by rw [State.group, hg] at h; exact ⟨g, h, rfl, rfl⟩
  block k b h := by rw [State.block, hb] at h; exact ⟨b, h, rfl⟩

theorem setGroup_stays {s : State} {gid : Nat} {g g' : Group} (hg : s.group gid = some g) (hv : g'.visitor = g.visitor) (hb : g'.block = g.block) :
    Stays s (s.setGroup gid g') gid := by
  refine ⟨fun x hx => ?_, fun k b h => ⟨b, h, rfl⟩⟩
  rw [State.group_setGroup] at hx
  cases hx
  exact ⟨g, hg, hv, hb⟩

theorem modGroup_stays (s : State) (gid : Nat) {f : Group → Group} (hv : ∀ g, (f g).visitor = g.visitor) (hb : ∀ g, (f g).block = g.block) :
    Stays s (s.modGroup gid f) gid := by
  unfold State.modGroup
  split
  · exact .refl s gid
  · rename_i g hg
    exact setGroup_stays hg (hv g) (hb g)

theorem rouse_stays (s : State) (gid n : Nat) (bits : Word) : Stays s (s.rouse n bits) gid := by
  unfold State.rouse
  split
  · exact stays_of_same gid rfl rfl
  · exact .refl s gid

theorem unpark_stays (s : State) (gid : Nat) (bits : Word) : Stays s (s.unpark gid bits) gid := by
  unfold State.unpark
  split
  · exact .refl s gid
  · rename_i g hg
    dsimp only
    split
    · exact setGroup_stays hg rfl rfl
    · refine Stays.trans ?_ (rouse_stays _ gid _ _)
      exact setGroup_stays hg rfl rfl

theorem modBlock_stays (s : State) (gid k : Nat) {f : Block → Block} (hf : ∀ b, (f b).saved = b.saved) : Stays s (s.modBlock k f) gid := by
  unfold State.modBlock
  split
  · exact .refl s gid
  · rename_i b hb
    refine ⟨fun g h => ⟨g, h, rfl, rfl⟩, fun j x hx => ?_⟩
    by_cases hj : j = k
    · rw [hj, State.block, State.setBlock, Sparse.find_put_same] at hx
      cases hx
      exact ⟨b, hj ▸ hb, hf b⟩
    · rw [State.block, State.setBlock, Sparse.find_put_other _ _ hj] at hx
      exact ⟨x, hx, rfl⟩

theorem logLine_lessens (s : State) (b gid : Nat) (t : LineTag) (image : List Word) : Lessens s (s.logLine b gid t image) :=
  modBlock_lessens s b _

theorem logLine_stays (s : State) (b gid' : Nat) (t : LineTag) (image : List Word) (gid : Nat) : Stays s (s.logLine b gid' t image) gid := by
  refine modBlock_stays s gid b fun x => ?_
  split <;> rfl

theorem writeV_lessens (s : State) (gid r : Nat) (vals : List (Nat × Word)) : Lessens s (s.writeV gid r vals) := by
  unfold State.writeV
  split
  · exact .refl s
  · rename_i g _
    split
    · exact .refl s
    · extract_lets s1 ops
      have h1 : Lessens s s1 := by
        unfold s1
        split
        · exact .refl s
        · exact logLine_lessens s ..
      split
      · exact h1.trans ((modGroup_lessens s1 ..).trans (lessens_of_same rfl rfl rfl))
      · exact h1.trans (modGroup_lessens s1 ..)

theorem writeV_stays (s : State) (gid r : Nat) (vals : List (Nat × Word)) : Stays s (s.writeV gid r vals) gid := by
  unfold State.writeV
  split
  · exact .refl s gid
  · rename_i g _
    split
    · exact .refl s gid
    · extract_lets s1 ops
      have h1 : Stays s s1 gid := by
        unfold s1
        split
        · exact .refl s gid
        · exact logLine_stays s ..
      split
      · exact h1.trans ((modGroup_stays s1 gid (fun g => Group.putV_visitor g ..) fun g => Group.putV_block g ..).trans (stays_of_same gid rfl rfl))
      · exact h1.trans (modGroup_stays s1 gid (fun g => Group.putV_visitor g ..) fun g => Group.putV_block g ..)

theorem deliverV_resident {s : State} {gid : Nat} (h : Resident s gid) (r : Nat) (vals : List (Nat × Word)) (full : Bool) (why : Word) :
    Lessens s (s.deliverV gid r vals full why) ∧ Stays s (s.deliverV gid r vals full why) gid := by
  unfold State.deliverV
  split
  · exact ⟨.refl s, .refl s gid⟩
  · rename_i g hg
    simp only [h g hg]
    have hl := writeV_lessens s gid r vals
    have hs := writeV_stays s gid r vals
    have hl' := hl.trans (modGroup_lessens _ gid fun g => g.markV r false)
    have hs' := hs.trans (modGroup_stays _ gid (f := fun g => g.markV r false) (fun g => Group.markV_visitor g ..) fun g => Group.markV_block g ..)
    split
    · split
      · exact ⟨hl'.trans (unpark_lessens _ ..), hs'.trans (unpark_stays _ ..)⟩
      · exact ⟨hl', hs'⟩
    · exact ⟨hl, hs⟩

theorem putDst_lessens (s : State) (gid : Nat) (x : BitVec 8) (v : Word) : Lessens s (s.putDst gid x v) := by
  unfold State.putDst State.writeS
  split
  · exact modGroup_lessens s ..
  · split
    · exact modGroup_lessens s ..
    · exact .refl s

theorem putDst_stays (s : State) (gid : Nat) (x : BitVec 8) (v : Word) : Stays s (s.putDst gid x v) gid := by
  unfold State.putDst State.writeS
  split
  · exact modGroup_stays s gid (fun _ => rfl) fun _ => rfl
  · split
    · exact modGroup_stays s gid (fun _ => rfl) fun _ => rfl
    · exact .refl s gid

theorem deliverS_resident {s : State} {gid : Nat} (h : Resident s gid) (r : Nat) (x : Word) (full : Bool) (why : Word) :
    Lessens s (s.deliverS gid r x full why) ∧ Stays s (s.deliverS gid r x full why) gid := by
  unfold State.deliverS
  split
  · exact ⟨.refl s, .refl s gid⟩
  · rename_i g hg
    simp only [h g hg]
    have hl := putDst_lessens s gid (BitVec.ofNat 8 r) x
    have hs := putDst_stays s gid (BitVec.ofNat 8 r) x
    have hl' := hl.trans (modGroup_lessens _ gid fun g => g.markS r false)
    have hs' := hs.trans (modGroup_stays _ gid (f := fun g => g.markS r false) (fun _ => rfl) fun _ => rfl)
    split
    · split
      · exact ⟨hl'.trans (unpark_lessens _ ..), hs'.trans (unpark_stays _ ..)⟩
      · exact ⟨hl', hs'⟩
    · exact ⟨hl, hs⟩

/-! ### An access lands -/

theorem landAccess_lessens {s : State} {a : Access} (h : a.regs = 0 ∨ Resident s a.gid) : Lessens s (s.landAccess a) ∧
    ∀ b ∈ (s.landAccess a).accs, b.id ≠ a.id := by
  unfold State.landAccess
  extract_lets s1 hurt bad full value s2 s3 s4
  have h1 : Lessens s s1 := lessens_of_accs rfl rfl fun b hb => ⟨b, List.mem_of_mem_filter hb, rfl, fun q hq => ⟨q, hq, rfl, rfl⟩⟩
  have h2 : Lessens s1 s2 := by
    rcases h with h | h
    · rw [show s2 = s1 by unfold s2; rw [h]; rfl]
      exact .refl s1
    refine (foldl_rel (R := fun t u => Resident t a.gid → Lessens t u ∧ Stays t u a.gid) (fun t _ => ⟨.refl t, .refl t a.gid⟩)
      (fun h k ht => ?_) _ (fun t i _ ht => ?_) s1 h).1
    · obtain ⟨hl, hs⟩ := h ht
      obtain ⟨hl', hs'⟩ := k (hs.resident ht)
      exact ⟨hl.trans hl', hs.trans hs'⟩
    · split
      · exact deliverV_resident ht ..
      · split
        · exact deliverS_resident ht ..
        · exact ⟨.refl t, .refl t a.gid⟩
  have h3 : Lessens s2 s3 := by
    unfold s3
    clear_value s2 hurt
    split
    · exact .refl s2
    · dsimp only
      split
      · exact storeFail_lessens s2 ..
      · exact raise_lessens s2 ..
  have h4 : Lessens s3 s4 := by
    unfold s4
    split
    · exact raiseStores_lessens s3 ..
    · exact .refl s3
  have h := ((h2.trans h3).trans h4).trans (tryRetire_lessens s4 a.gid)
  refine ⟨h1.trans h, fun b hb => ?_⟩
  obtain ⟨b', hb', hid, -⟩ := h.accs b hb
  rw [hid]
  simpa using (List.mem_filter.mp hb').2

/-- Once a part of an access has been performed, the access has it no more. -/
theorem partDone_lessens {s : State} {a : Access} (ha : a ∈ s.accs) (h : a.regs = 0 ∨ Resident s a.gid) (p : Part) (data : List Byte) :
    Lessens s (s.partDone a p data) ∧ ∀ b ∈ (s.partDone a p data).accs, b.id = a.id → p.id ∉ b.parts.map (·.id) := by
  unfold State.partDone
  extract_lets put a' s'
  have hmine : ∀ b ∈ s'.accs, b = a' ∨ b ∈ s.accs ∧ b.id ≠ a.id := by
    intro b hb
    obtain ⟨c, hc, rfl⟩ := List.mem_map.mp hb
    split
    · exact .inl rfl
    · rename_i hne
      exact .inr ⟨hc, fun hid => hne (decide_eq_true hid)⟩
  have h' : Lessens s s' := lessens_of_accs rfl rfl fun b hb => by
    rcases hmine b hb with rfl | ⟨hb, -⟩
    · exact ⟨a, ha, rfl, fun q hq => ⟨q, List.mem_of_mem_filter hq, rfl, rfl⟩⟩
    · exact ⟨b, hb, rfl, fun q hq => ⟨q, hq, rfl, rfl⟩⟩
  split
  · obtain ⟨hl, hgone⟩ := landAccess_lessens (s := s') (a := a') h
    exact ⟨h'.trans hl, fun b hb hid => absurd hid (hgone b hb)⟩
  · refine ⟨h', fun b hb hid hp => ?_⟩
    rcases hmine b hb with rfl | ⟨-, hne⟩
    · obtain ⟨q, hq, hqid⟩ := List.mem_map.mp hp
      exact absurd hqid (by simpa using (List.mem_filter.mp hq).2)
    · exact hne hid

theorem acquiredBy_mem (s : State) (a : Access) : (s.acquiredBy a).mem = s.mem := by
  unfold State.acquiredBy State.acquired State.clearRb
  split
  · split <;> rfl
  · rfl

theorem acquiredBy_accs (s : State) (a : Access) : (s.acquiredBy a).accs = s.accs := by
  unfold State.acquiredBy State.acquired State.clearRb
  split
  · split <;> rfl
  · rfl

theorem acquiredBy_stays (s : State) (a : Access) (gid : Nat) : Stays s (s.acquiredBy a) gid := by
  unfold State.acquiredBy State.acquired State.clearRb
  split
  · split
    · exact stays_of_same gid rfl rfl
    · exact .refl s gid
  · exact .refl s gid

end Sys2Proof.Proofs
end

section
/-! Atomics at their homes: one read and one write of a word. -/

namespace Sys2Proof.Proofs

open Sys2Proof Sys2Proof.Machine Sys2Proof.Claims

/-! ### Numbers in bytes -/

theorem leNat_leBytes (x n : Nat) : leNat (leBytes x n) = x % 2 ^ (8 * n) := by
  induction n generalizing x with
  | zero => rw [Nat.mul_zero, pow_zero, Nat.mod_one]; rfl
  | succ n ih =>
    rw [leBytes, leNat, ih, BitVec.toNat_ofNat, show 8 * (n + 1) = 8 + 8 * n by omega, pow_add, Nat.mod_mul]
    rfl

theorem bytes_length (m : Mem) (k n : Nat) : (Mem.bytes m k n).length = n := by
  induction n generalizing k with
  | zero => rfl
  | succ n ih => rw [Mem.bytes, List.length_cons, ih]

theorem bytes_wrBytes (m : Mem) (k : Nat) (bs : List Byte) : Mem.bytes (Mem.wrBytes m k bs) k bs.length = bs := by
  induction bs generalizing m k with
  | nil => rfl
  | cons b bs ih =>
    have hhead := Mem.rd_wrBytes_inside m k (b :: bs) (i := 0) (Nat.zero_lt_succ _)
    exact List.cons_eq_cons.mpr ⟨hhead, ih (Mem.wr m k b) (k + 1)⟩

theorem num_wrBytes (m : Mem) (k x n : Nat) : Mem.num (Mem.wrBytes m k (leBytes x n)) k n = x % 2 ^ (8 * n) := by
  have h := bytes_wrBytes m k (leBytes x n)
  rw [leBytes_length] at h
  rw [Mem.num, h, leNat_leBytes]

/-! ### Writes in bytes that stand as they were written -/

theorem mem_wroteHome (s : State) (m : Mem) : WroteHome s { s with mem := m } := ⟨⟨rfl, rfl, fun _ => rfl, fun _ => rfl, rfl, rfl⟩, rfl⟩

theorem writeAt_wroteHome (s : State) (il key : Nat) (bs : List Byte) (rel : Option (Nat × Nat)) : WroteHome s (s.writeAt il key bs rel).1 := by
  unfold State.writeAt
  split
  · exact (mended_wroteHome s ..).trans (land_wroteHome _ ..)
  · have h : WroteHome s ((s.reach il key).activate (s.scheme il key) key) :=
      ((reach_readHome s il key).trans (activate_readHome _ _ key)).wroteHome
    dsimp only
    split
    · exact (h.trans (encoded_readHome _ _).wroteHome).trans (land_wroteHome _ ..)
    · split
      · exact h.trans (land_wroteHome _ ..)
      · exact (h.trans (countFixed_readHome _ ..).wroteHome).trans (land_wroteHome _ ..)
      · have h' := h.trans (encoded_readHome ((s.reach il key).activate (s.scheme il key) key) (key / 32)).wroteHome
        exact (h'.trans (mem_wroteHome _ _)).trans (land_wroteHome _ ..)
      · exact h.trans ((foundBad_readHome _ ..).trans (count_readHome _ _)).wroteHome

/-- The state in which a clean sector is read or written. -/
theorem reached_clean {s : State} {il key : Nat} (hecc : s.ecc (s.scheme il key) (key / 32) = .clean) :
    ((s.reach il key).activate (s.scheme il key) key).ecc (s.scheme il key) (key / 32) = .clean := by
  rw [activate_ecc, reach_ecc (scheme_lt s il key), hecc]

theorem reached_mem (s : State) (il key : Nat) : ((s.reach il key).activate (s.scheme il key) key).mem = s.mem :=
  (activate_mem _ _ _).trans (reach_readHome s il key).mem_eq

/-- Bytes written where the symbol code finds no error stand in memory. -/
theorem writeAt_clean {s : State} {il key n : Nat} (h : Clean s il key n) (bs : List Byte) (rel : Option (Nat × Nat)) :
    (s.writeAt il key bs rel).1.mem = Mem.wrBytes s.mem key bs := by
  unfold State.writeAt
  rcases h with ⟨hkey, -⟩ | ⟨hkey, hecc, -⟩
  · rw [if_pos hkey, land_mem, mended_mem]
  · simp only [if_neg (Nat.not_le.mpr hkey), reached_clean hecc]
    split
    · rw [land_mem]
      exact congrArg (Mem.wrBytes · key bs) (reached_mem s il key)
    · rw [land_mem, reached_mem]

theorem scheme_reach (s : State) (il key : Nat) : (s.reach il key).scheme il key = s.scheme il key := by
  by_cases hil : il < 8
  · rw [scheme_of_lt hil, scheme_of_lt hil]
  · rw [State.reach, if_pos (by simp; omega)]

theorem schemesOf_reach {il key : Nat} (hil : il < 8) (hkey : key < 2 ^ 39) (s : State) :
    (s.reach il key).schemesOf key = s.schemesOf key ||| (1#8 <<< il) := by
  rw [State.reach, if_neg (by simp; omega)]
  exact Sparse.get_set_same ..

theorem activate_schemesOf (s : State) (il key k : Nat) : (s.activate il key).schemesOf k = s.schemesOf k := by
  unfold State.activate
  split
  · dsimp only
    split <;> rfl
  · rfl

theorem activate_scheme (s : State) (il key il' k : Nat) : (s.activate il key).scheme il' k = s.scheme il' k := by
  simp only [State.scheme, activate_schemesOf]

/-- Whether a frame is mixed depends on its schemes. -/
theorem mixed_congr {s t : State} {key : Nat} (hschemes : t.schemesOf key = s.schemesOf key) (hfab : t.fab = s.fab) (hregions : t.mgmt.regions = s.mgmt.regions) :
    t.mixed key = s.mixed key := by
  simp only [State.mixed, State.inDelivery, hschemes, hfab, hregions]

/-- A page that has been reached is not reached anew. -/
theorem reach_mixed_again {s : State} {il key : Nat} (hkey : key < 2 ^ 39) (k : Nat) :
    (((s.reach il key).activate k key).reach il key).mixed key = (s.reach il key).mixed key := by
  by_cases hil : il < 8
  · have hall {u : State} (hu : u.schemesOf key = (s.reach il key).schemesOf key) : (u.reach il key).schemesOf key = (s.reach il key).schemesOf key := by
      rw [schemesOf_reach hil hkey, hu, schemesOf_reach hil hkey, BitVec.or_assoc, BitVec.or_self]
    have hhome : ReadHome (s.reach il key) (((s.reach il key).activate k key).reach il key) := (activate_readHome _ k key).trans (reach_readHome _ il key)
    exact mixed_congr (hall (activate_schemesOf ..)) (congrArg State.fab hhome.rest :) (congrArg Mgmt.regions hhome.counts :)
  · rw [show ∀ u : State, u.reach il key = u from fun u => by rw [State.reach, if_pos (by simp; omega)], activate_mixed]

/-- What stands as it was written does so once it has been read. -/
theorem clean_readAt {s : State} {il key n : Nat} (h : Clean s il key n) (n' : Nat) : Clean (s.readAt il key n').1 il key n := by
  unfold State.readAt
  rcases h with ⟨hkey, hbad⟩ | ⟨hkey, hecc, hmixed⟩
  · rw [if_pos hkey]
    exact .inl ⟨hkey, hbad⟩
  · simp only [if_neg (Nat.not_le.mpr hkey), reached_clean hecc]
    refine .inr ⟨hkey, ?_, (reach_mixed_again hkey _).trans hmixed⟩
    rw [activate_scheme, scheme_reach]
    exact reached_clean hecc

/-! ### What a write at a home leaves of the rest -/

theorem WroteHome.accs_eq {s t : State} (h : WroteHome s t) : t.accs = s.accs := (congrArg State.accs h.writes.rest :)
theorem WroteHome.blocks_eq {s t : State} (h : WroteHome s t) : t.blocks = s.blocks := (congrArg State.blocks h.writes.rest :)

/-- The accesses, the groups and the blocks stay. -/
structure Runs (s t : State) : Prop where
  accs : t.accs = s.accs
  groups : t.groups = s.groups
  blocks : t.blocks = s.blocks

theorem Runs.trans {s t u : State} (h : Runs s t) (k : Runs t u) : Runs s u :=
  ⟨k.accs.trans h.accs, k.groups.trans h.groups, k.blocks.trans h.blocks⟩

theorem WroteHome.runs {s t : State} (h : WroteHome s t) : Runs s t := ⟨h.accs_eq, h.groups, h.blocks_eq⟩

theorem homePoint_runs (s : State) (a : Access) (p : Part) : Runs s (s.homePoint a p) := by
  unfold State.homePoint State.addPoint
  split <;> exact ⟨rfl, rfl, rfl⟩

theorem homePoint_mem (s : State) (a : Access) (p : Part) : (s.homePoint a p).mem = s.mem := by
  unfold State.homePoint State.addPoint
  split <;> rfl

theorem acquiredBy_runs (s : State) (a : Access) : Runs s (s.acquiredBy a) := by
  unfold State.acquiredBy State.acquired State.clearRb
  split
  · split <;> exact ⟨rfl, rfl, rfl⟩
  · exact ⟨rfl, rfl, rfl⟩

theorem Runs.resident {s t : State} (h : Runs s t) {gid : Nat} (hs : Resident s gid) : Resident t gid :=
  (stays_of_same gid h.groups h.blocks).resident hs

theorem Runs.noPeerParts {s t : State} (h : Runs s t) (hs : NoPeerParts s) : NoPeerParts t := by
  rw [NoPeerParts, h.accs]
  exact hs

/-- A part that is performed at its home, once what it writes is written: memory is as that left it, and the part has gone. -/
theorem performed_lessens {s : State} {a : Access} (ha : a ∈ s.accs) (hres : a.regs = 0 ∨ Resident s a.gid) (hpeer : NoPeerParts s) (p : Part) (data : List Byte) :
    Lessens s ((s.partDone a p data).pump) ∧ ∀ b ∈ ((s.partDone a p data).pump).accs, b.id = a.id → p.id ∉ b.parts.map (·.id) := by
  obtain ⟨hl, hgone⟩ := partDone_lessens ha hres p data
  have hp := pump_lessens (hl.noPeerParts hpeer)
  refine ⟨hl.trans hp, fun b hb hid hmem => ?_⟩
  obtain ⟨c, hc, hbc, hparts⟩ := hp.accs b hb
  obtain ⟨q, hq, hqid⟩ := List.mem_map.mp hmem
  obtain ⟨o, ho, hoid, -⟩ := hparts q hq
  exact hgone c hc (hbc.symm.trans hid) (List.mem_map.mpr ⟨o, ho, hoid.symm.trans hqid⟩)

/-- Once an atomic has written its word, what it starts leaves memory. -/
theorem acquired_performed_mem {s t : State} (h : Runs s t) {a : Access} (ha : a ∈ s.accs) (hres : Resident s a.gid) (hpeer : NoPeerParts s) (p : Part)
    (data : List Byte) : (((t.acquiredBy a).partDone a p data).pump).mem = t.mem := by
  have h' := h.trans (acquiredBy_runs t a)
  have hdone := (performed_lessens (by rw [h'.accs]; exact ha) (.inr (h'.resident hres)) (h'.noPeerParts hpeer) p data).1
  exact hdone.mem.trans (acquiredBy_mem t a)

theorem partAt_mem {s : State} {req part : Nat} {a : Access} {p : Part} {key : Nat} (h : s.partAt req part = some (a, p, key)) : a ∈ s.accs ∧ p ∈ a.parts := by
  unfold State.partAt at h
  split at h
  · cases h
  · rename_i b hb
    split at h
    · cases h
    · rename_i q hq
      split at h
      · cases h
      · split at h
        · cases h
        · split at h
          · cases h
          · cases h
            exact ⟨List.mem_of_find?_eq_some hb, List.mem_of_find?_eq_some hq⟩

theorem remotely_of_none {s : State} {rmt : Bool} {node key len : Nat} (h : s.remote rmt node [(key, len)] = none) (k : Res) :
    remotely s rmt node key len k = k := by
  rw [remotely, h]

/-- The word that an atomic or faddt leaves at its home, from the word that stood there. -/
def newWord (a : Access) (p : Part) (old : Nat) : Option Nat :=
  match a.kind with
  | .atomic op wide cas => if cas then (if old = leNat p.cmp then some (leNat p.data) else none) else some (atomicOp op (if wide then 64 else 32) old (leNat p.data))
  | .faddt => some ((old + leNat p.data) % 2 ^ 32)
  | _ => none

/-- An atomic at its home that nothing holds back writes its word, or leaves memory. -/
theorem atomicAtHome_mem {req part : Nat} {s : State} {a : Access} {p : Part} {key : Nat} (hpart : s.partAt req part = some (a, p, key))
    (hremote : s.remote a.rmt a.node [(key, p.len)] = none) (hclean : Clean s p.il key p.len) (hres : Resident s a.gid) (hpeer : NoPeerParts s)
    (hkind : (∃ op wide cas, a.kind = .atomic op wide cas) ∨ a.kind = .faddt) :
    ∃ t, exec (.atomicAtHome req part) s = .next t ∧
      t.mem = (newWord a p (leNat (Mem.bytes s.mem key p.len))).elim s.mem (fun n => Mem.wrBytes s.mem key (leBytes n p.len)) := by
  obtain ⟨ha, -⟩ := partAt_mem hpart
  have hread := readAt_readHome s p.il key p.len
  have hwritten (n : Nat) (rel : Option (Nat × Nat)) : Runs s (((s.readAt p.il key p.len).1.writeAt p.il key (leBytes n p.len) rel).1.homePoint a p) ∧
      (((s.readAt p.il key p.len).1.writeAt p.il key (leBytes n p.len) rel).1.homePoint a p).mem = Mem.wrBytes s.mem key (leBytes n p.len) :=
    ⟨(hread.wroteHome.runs.trans (writeAt_wroteHome ..).runs).trans (homePoint_runs ..),
      (homePoint_mem ..).trans ((writeAt_clean (clean_readAt hclean _) ..).trans (congrArg (Mem.wrBytes · key _) hread.mem_eq))⟩
  simp only [exec, execAtomicAtHome, hpart, remotely_of_none hremote, readAt_clean hclean]
  rcases hkind with ⟨op, wide, cas, hk⟩ | hk
  · simp only [newWord, hk, Bool.false_eq_true, if_false]
    refine ⟨_, rfl, ?_⟩
    have hstored (n : Nat) := (acquired_performed_mem (hwritten n ((s.readAt p.il key p.len).1.released a p)).1 ha hres hpeer p
      (if a.regs = 0 then [] else Mem.bytes s.mem key p.len)).trans (hwritten n _).2
    have hleft := (acquired_performed_mem hread.wroteHome.runs ha hres hpeer p (if a.regs = 0 then [] else Mem.bytes s.mem key p.len)).trans hread.mem_eq
    cases cas with
    | false => exact hstored _
    | true =>
      simp only [if_true]
      by_cases heq : leNat (Mem.bytes s.mem key p.len) = leNat p.cmp
      · simp only [if_pos heq]
        exact hstored _
      · simp only [if_neg heq]
        exact hleft
  · simp only [newWord, hk]
    refine ⟨_, rfl, ?_⟩
    obtain ⟨hruns, hmem⟩ := hwritten ((leNat (Mem.bytes s.mem key p.len) + leNat p.data) % 2 ^ 32) ((s.readAt p.il key p.len).1.released a p)
    split
    · exact (acquired_performed_mem (hruns.trans (answerAll_wroteHome _ _).runs) ha hres hpeer p _).trans ((answerAll_mem _ _).trans hmem)
    · exact (acquired_performed_mem hruns ha hres hpeer p _).trans hmem

/-- Settles O28: the word is read and written in one step, and what the step starts afterwards leaves memory. -/
theorem atomicAtHome : Obligations.AtomicAtHome := by
  intro req part s a p key hpart hremote hclean himage hpeers
  have hres : Resident s a.gid := himage
  have hparts : NoPeerParts s := hpeers.2.1
  have hout (n : Nat) {k : Nat} (hk : k < key ∨ key + p.len ≤ k) : Mem.rd (Mem.wrBytes s.mem key (leBytes n p.len)) k = Mem.rd s.mem k :=
    Mem.rd_wrBytes_outside _ _ _ (by rwa [leBytes_length])
  refine ⟨fun op wide hkind hlen => ?_, fun op wide hkind hlen => ?_, fun hkind hlen => ?_⟩
  · obtain ⟨t, ht, hmem⟩ := atomicAtHome_mem hpart hremote hclean hres hparts (.inl ⟨op, wide, false, hkind⟩)
    simp only [newWord, hkind, Bool.false_eq_true, if_false, Option.elim_some] at hmem
    refine ⟨t, ht, ?_, fun k hk => by rw [hmem, hout _ hk]⟩
    rw [hmem, num_wrBytes, show (if wide = true then 64 else 32) = 8 * p.len by rw [hlen]; split <;> rfl]
    rfl
  · obtain ⟨t, ht, hmem⟩ := atomicAtHome_mem hpart hremote hclean hres hparts (.inl ⟨op, wide, true, hkind⟩)
    simp only [newWord, hkind, if_true] at hmem
    refine ⟨t, ht, ?_⟩
    split
    · rename_i heq
      rw [if_pos (show leNat _ = _ from heq)] at hmem
      exact ⟨by rw [hmem, Option.elim_some, num_wrBytes], fun k hk => by rw [hmem, Option.elim_some, hout _ hk]⟩
    · rename_i heq
      rw [if_neg (show ¬ leNat _ = _ from heq)] at hmem
      exact ⟨congrArg (Mem.num · key p.len) hmem, fun k _ => congrArg (Mem.rd · k) hmem⟩
  · obtain ⟨t, ht, hmem⟩ := atomicAtHome_mem hpart hremote hclean hres hparts (.inr hkind)
    simp only [newWord, hkind, Option.elim_some] at hmem
    rw [hlen] at hmem hout
    exact ⟨t, ht, by rw [hmem, num_wrBytes]; exact Nat.mod_mod _ _, fun k hk => by rw [hmem, hout _ hk]⟩

end Sys2Proof.Proofs
end

section
/-! Stores at their homes. -/

namespace Sys2Proof.Proofs

open Sys2Proof Sys2Proof.Machine Sys2Proof.Claims

/-- No wait on bytes that have landed holds and goes without an answer. -/
theorem land_answers (s : State) (key : Nat) (bs : List Byte) (rel : Option (Nat × Nat)) {n : Nat} {w : WaitEntry}
    (hw : w ∈ ((s.land key bs rel).node n).waits) (hans : w.ans = none) (hlo : w.loc < key + bs.length) (hhi : key < w.loc + 4) :
    w.holds (BitVec.ofNat 32 (Mem.num (s.land key bs rel).mem w.loc 4)) = false := by
  rw [land_mem]
  unfold State.land State.answerWaits at hw
  simpa [hlo, hhi] using answerAll_answers _ _ n w hw hans

/-- A write in bytes that stand as they were written is a landing there. -/
theorem writeAt_clean_land {s : State} {il key n : Nat} (h : Clean s il key n) (bs : List Byte) (rel : Option (Nat × Nat)) :
    ∃ u : State, (s.writeAt il key bs rel).1 = u.land key bs rel := by
  unfold State.writeAt
  rcases h with ⟨hkey, -⟩ | ⟨hkey, hecc, -⟩
  · rw [if_pos hkey]
    exact ⟨_, rfl⟩
  · simp only [if_neg (Nat.not_le.mpr hkey), reached_clean hecc]
    split
    · exact ⟨_, rfl⟩
    · exact ⟨_, rfl⟩

/-- Only the rollback logs of blocks change. -/
structure Logged (s t : State) : Prop where
  rest : { t with blocks := s.blocks } = s

theorem Logged.accs {s t : State} (h : Logged s t) : t.accs = s.accs := (congrArg State.accs h.rest :)
theorem Logged.mem {s t : State} (h : Logged s t) : t.mem = s.mem := (congrArg State.mem h.rest :)

theorem logLine_logged (s : State) (b gid : Nat) (t : LineTag) (image : List Word) : Logged s (s.logLine b gid t image) := by
  unfold State.logLine State.modBlock
  split <;> exact ⟨rfl⟩

theorem logBytes_logged (s : State) (blk gid key n : Nat) : Logged s (s.logBytes blk gid key n) := by
  unfold State.logBytes
  split
  · exact ⟨rfl⟩
  · split
    · exact ⟨rfl⟩
    · refine foldl_rel (R := Logged) (fun _ => ⟨rfl⟩) (fun {s t u} h k => ⟨?_⟩) _ (fun t p _ => ?_) s
      · exact (congrArg (fun x : State => { x with blocks := s.blocks }) k.rest).trans h.rest
      · dsimp only
        split
        · exact logLine_logged t ..
        · exact ⟨rfl⟩

theorem reach_dram_congr {s t : State} (h : t.dram = s.dram) (il key : Nat) : (t.reach il key).dram = (s.reach il key).dram := by
  unfold State.reach
  split
  · exact h
  · simp only [State.schemesOf, h]

theorem ecc_congr {s t : State} (hdram : t.dram = s.dram) (hown : t.own = s.own) (il sector : Nat) : t.ecc il sector = s.ecc il sector := by
  unfold State.ecc State.wrongAt State.scheme State.schemesOf
  rw [hdram, hown]

/-- What stands as it was written does so in a state of the same memory devices. -/
theorem clean_congr {s t : State} (hdram : t.dram = s.dram) (hown : t.own = s.own) (hfab : t.fab = s.fab) (hmgmt : t.mgmt = s.mgmt) {il key n : Nat}
    (h : Clean s il key n) : Clean t il key n := by
  have hscheme : t.scheme = s.scheme := by
    funext i k
    simp only [State.scheme, State.schemesOf, hdram]
  rcases h with ⟨hkey, hbad⟩ | ⟨hkey, hecc, hmixed⟩
  · exact .inl ⟨hkey, by rwa [State.wordBad, hdram]⟩
  · refine .inr ⟨hkey, ?_, (mixed_congr ?_ ?_ ?_).trans hmixed⟩
    · rw [hscheme, ecc_congr hdram hown, hecc]
    · rw [State.schemesOf, reach_dram_congr hdram, State.schemesOf]
    · have hreach (u : State) : (u.reach il key).fab = u.fab := (congrArg State.fab (reach_readHome u il key).rest :)
      rw [hreach, hreach, hfab]
    · have hreach (u : State) : (u.reach il key).mgmt.regions = u.mgmt.regions := (congrArg Mgmt.regions (reach_readHome u il key).counts :)
      rw [hreach, hreach, hmgmt]

/-- A store's part at its home, after what it replaces has been logged. -/
theorem stored_spec {s : State} {a : Access} {p : Part} {key : Nat} (ha : a ∈ s.accs) (hregs : a.regs = 0) (hclean : Clean s p.il key p.data.length)
    (hpeer : NoPeerParts s) (rel : Option (Nat × Nat)) :
    let t := ((((s.writeAt p.il key p.data rel).1.homePoint a p).partDone a p []).pump)
    t.mem = Mem.wrBytes s.mem key p.data ∧ (∀ b ∈ t.accs, b.id = a.id → p.id ∉ b.parts.map (·.id)) ∧
      (∀ n, ∀ w ∈ (t.node n).waits, w.ans = none → w.loc < key + p.data.length → key < w.loc + 4 →
        w.holds (BitVec.ofNat 32 (Mem.num t.mem w.loc 4)) = false) := by
  have hruns := (writeAt_wroteHome s p.il key p.data rel).runs.trans (homePoint_runs _ a p)
  have hnode (n : Nat) : ((s.writeAt p.il key p.data rel).1.homePoint a p).node n = (s.writeAt p.il key p.data rel).1.node n := by
    unfold State.homePoint State.addPoint
    split <;> rfl
  obtain ⟨hless, hgone⟩ := performed_lessens (s := (s.writeAt p.il key p.data rel).1.homePoint a p) (by rw [hruns.accs]; exact ha) (.inl hregs)
    (hruns.noPeerParts hpeer) p []
  have hmem := hless.mem.trans (homePoint_mem ..)
  refine ⟨hmem.trans (writeAt_clean hclean ..), hgone, fun n w hw hans hlo hhi => ?_⟩
  have hw' := hless.waits n hw
  rw [hnode] at hw'
  rw [hmem]
  obtain ⟨u, hu⟩ := writeAt_clean_land hclean p.data rel
  rw [hu] at hw' ⊢
  exact land_answers u key p.data rel hw' hans hlo hhi

/-- The bytes of a store's part stand at its home, the part has gone, and no wait that they meet goes without an answer. -/
theorem stored_after {s s1 : State} (h : Logged s s1) {a : Access} {p : Part} {key : Nat} (ha : a ∈ s.accs) (hregs : a.regs = 0)
    (hclean : Clean s p.il key p.data.length) (hpeer : NoPeerParts s) (rel : Option (Nat × Nat)) :
    let t := ((((s1.writeAt p.il key p.data rel).1.homePoint a p).partDone a p []).pump)
    (∀ i, i < p.data.length → Mem.rd t.mem (key + i) = p.data.getD i 0) ∧
      (∀ k, (k < key ∨ key + p.data.length ≤ k) → Mem.rd t.mem k = Mem.rd s.mem k) ∧
      (∀ b ∈ t.accs, b.id = a.id → p.id ∉ b.parts.map (·.id)) ∧
      (∀ n, ∀ w ∈ (t.node n).waits, w.ans = none → w.loc < key + p.data.length → key < w.loc + 4 →
        w.holds (BitVec.ofNat 32 (Mem.num t.mem w.loc 4)) = false) := by
  have hdram : s1.dram = s.dram := (congrArg State.dram h.rest :)
  have hown : s1.own = s.own := (congrArg State.own h.rest :)
  have hfab : s1.fab = s.fab := (congrArg State.fab h.rest :)
  have hmgmt : s1.mgmt = s.mgmt := (congrArg State.mgmt h.rest :)
  obtain ⟨hmem, hgone, hwaits⟩ := stored_spec (s := s1) (by rw [h.accs]; exact ha) hregs (clean_congr hdram hown hfab hmgmt hclean)
    (by rw [NoPeerParts, h.accs]; exact hpeer) rel
  rw [h.mem] at hmem
  refine ⟨fun i hi => ?_, fun k hk => ?_, hgone, hwaits⟩
  · rw [hmem, Mem.rd_wrBytes_inside _ _ _ hi, List.getD_eq_getElem _ _ hi]
  · rw [hmem, Mem.rd_wrBytes_outside _ _ _ hk]

/-- Settles the part of O27 on stores: its bytes land, and what the step starts afterwards leaves memory and answers to waits. -/
theorem storeAtHome : StoreAtHome := by
  intro req part s a p key hpart hkind hregs hclean hpeers
  obtain ⟨ha, -⟩ := partAt_mem hpart
  simp only [exec, execStoreAtHome, hpart, hkind]
  refine ⟨_, rfl, stored_after (s := s) ?_ ha hregs hclean hpeers.2.1 _⟩
  split
  · exact ⟨rfl⟩
  · exact logBytes_logged s ..

end Sys2Proof.Proofs
end

section
/-! What arrives for a load, and the registers that it fills. -/

namespace Sys2Proof.Proofs

open Sys2Proof Sys2Proof.Machine Sys2Proof.Claims

/-! ### The bytes that have arrived -/

theorem get_put_same {α : Type} (d : α) (m : List (Nat × α)) (k : Nat) (v : α) : Sparse.get d (Sparse.put m k v) k = v := by
  rw [Sparse.get, Sparse.find_put_same]
  rfl

theorem get_put_other {α : Type} (d : α) (m : List (Nat × α)) {k j : Nat} (v : α) (h : j ≠ k) : Sparse.get d (Sparse.put m k v) j = Sparse.get d m j := by
  rw [Sparse.get, Sparse.find_put_other _ _ h, Sparse.get]

/-- Bytes put in a row. -/
theorem get_putRow (m : List (Nat × Byte)) (at_ : Nat) (v : Nat → Byte) (n k : Nat) :
    Sparse.get 0 ((List.range n).foldl (fun m i => Sparse.put m (at_ + i) (v i)) m) k =
      if at_ ≤ k ∧ k < at_ + n then v (k - at_) else Sparse.get 0 m k := by
  induction n with
  | zero => rw [if_neg (by omega)]; rfl
  | succ n ih =>
    rw [List.range_succ, List.foldl_append, List.foldl_cons, List.foldl_nil]
    by_cases hk : k = at_ + n
    · rw [hk, get_put_same, if_pos (by omega), Nat.add_sub_cancel_left]
    · rw [get_put_other _ _ _ hk, ih]
      by_cases hin : at_ ≤ k ∧ k < at_ + n
      · rw [if_pos hin, if_pos (by omega)]
      · rw [if_neg hin, if_neg (by omega)]

/-- Bytes put in the rows of some lanes. -/
theorem get_putLanes (m : List (Nat × Byte)) (ls : List Nat) (off : Nat) (data : List Byte) (hoff : off + data.length ≤ 16) (k : Nat) :
    Sparse.get 0 (ls.foldl (fun got L => (List.range data.length).foldl (fun m i => Sparse.put m (16 * L + off + i) (data.getD i 0)) got) m) k =
      if k / 16 ∈ ls ∧ off ≤ k % 16 ∧ k % 16 < off + data.length then data.getD (k % 16 - off) 0 else Sparse.get 0 m k := by
  induction ls generalizing m with
  | nil => rw [if_neg (by simp)]; rfl
  | cons L ls ih =>
    rw [List.foldl_cons, ih, get_putRow]
    by_cases hin : k / 16 ∈ ls ∧ off ≤ k % 16 ∧ k % 16 < off + data.length
    · rw [if_pos hin, if_pos ⟨List.mem_cons_of_mem _ hin.1, hin.2⟩]
    · rw [if_neg hin]
      by_cases hrow : 16 * L + off ≤ k ∧ k < 16 * L + off + data.length
      · rw [if_pos hrow, if_pos ⟨List.mem_cons.mpr (.inl (by omega)), by omega⟩]
        congr 1
        omega
      · rw [if_neg hrow, if_neg]
        rintro ⟨hmem, hlo, hhi⟩
        rcases List.mem_cons.mp hmem with hL | hL
        · exact hrow (by omega)
        · exact hin ⟨hL, hlo, hhi⟩

/-- An access with the bytes of a part. -/
def arrived (a : Access) (p : Part) (data : List Byte) : Access :=
  { a with
    parts := a.parts.filter (fun q => q.id ≠ p.id)
    got := (lanesOf p.lanes).foldl (fun got L => (List.range data.length).foldl (fun m i => Sparse.put m (16 * L + p.off + i) (data.getD i 0)) got) a.got }

theorem partDone_eq (s : State) (a : Access) (p : Part) (data : List Byte) :
    s.partDone a p data = (let t := { s with accs := updWhere s.accs (fun b => b.id = a.id) (fun _ => arrived a p data) }
      if (arrived a p data).parts.isEmpty then t.landAccess (arrived a p data) else t) := rfl

theorem arrived_got (a : Access) (p : Part) {data : List Byte} (hoff : p.off + data.length ≤ 16) (k : Nat) :
    Sparse.get 0 (arrived a p data).got k = received a p data k := by
  rw [arrived, get_putLanes _ _ _ _ hoff, received]
  have hiff : (k / 16 ∈ lanesOf p.lanes ∧ p.off ≤ k % 16 ∧ k % 16 < p.off + data.length) ↔
      (p.lanes.getLsbD (k / 16) && decide (p.off ≤ k % 16) && decide (k % 16 < p.off + data.length)) = true := by
    simp only [mem_lanesOf, Bool.and_eq_true, decide_eq_true_eq, and_assoc]
    exact ⟨fun h => h.2, fun h => ⟨BitVec.lt_of_getLsbD h.1, h⟩⟩
  simp only [hiff]

theorem arrived_value (a : Access) (p : Part) {data : List Byte} (hoff : p.off + data.length ≤ 16) (L : Nat) :
    (arrived a p data).value L = laneValue a p data L := by
  have hlane : (arrived a p data).lane L = leNat ((List.range 16).map (fun j => received a p data (16 * L + j))) := by
    simp only [Access.lane, arrived_got a p hoff]
  unfold Access.value laneValue
  rw [hlane]
  rfl

/-! ### Results in registers -/

/-- A result of the group `gid` has landed: what it leaves of the groups. -/
structure Landed (s t : State) (gid : Nat) (g g' : Group) : Prop where
  now : t.group gid = some g'
  others : ∀ j, j ≠ gid → t.group j = s.group j
  ctl : g'.ctl = g.ctl
  busy : ∀ r, g'.busy r = g.busy r
  stays : Stays s t gid

theorem Landed.refl {s : State} {gid : Nat} {g : Group} (h : s.group gid = some g) : Landed s s gid g g :=
  ⟨h, fun _ _ => rfl, rfl, fun _ => rfl, .refl s gid⟩

theorem Landed.trans {s t u : State} {gid : Nat} {g g1 g2 : Group} (h : Landed s t gid g g1) (k : Landed t u gid g1 g2) : Landed s u gid g g2 where
  now := k.now
  others j hj := (k.others j hj).trans (h.others j hj)
  ctl := k.ctl.trans h.ctl
  busy r := (k.busy r).trans (h.busy r)
  stays := h.stays.trans k.stays

/-- A change of the group alone. -/
theorem landed_modGroup {s : State} {gid : Nat} {g : Group} (hg : s.group gid = some g) {f : Group → Group} (hctl : (f g).ctl = g.ctl)
    (hbusy : ∀ r, (f g).busy r = g.busy r) (hv : ∀ g, (f g).visitor = g.visitor) (hb : ∀ g, (f g).block = g.block) :
    Landed s (s.modGroup gid f) gid g (f g) where
  now := by rw [State.modGroup_eq hg, State.group_setGroup]
  others j hj := by rw [State.modGroup_eq hg, State.group_setGroup_other _ _ hj]
  ctl := hctl
  busy := hbusy
  stays := modGroup_stays s gid hv hb

/-- What waits for a register goes on; its registers stay. -/
theorem landed_unpark {s : State} {gid : Nat} {g : Group} (hg : s.group gid = some g) (why : Word) :
    ∃ g', Landed s (s.unpark gid why) gid g g' ∧ g'.regs = g.regs := by
  refine ⟨{ g with sched := { g.sched with hold := if g.sched.hold.issued then .roused else .none } }, ⟨?_, fun j hj => ?_, rfl, fun _ => rfl, unpark_stays s gid why⟩, rfl⟩
  · simp only [State.unpark, hg]
    split
    · rw [State.group_setGroup]
    · rw [rouse_group, State.group_setGroup]
  · simp only [State.unpark, hg]
    split
    · rw [State.group_setGroup_other _ _ hj]
    · rw [rouse_group, State.group_setGroup_other _ _ hj]

theorem LanesWritten.landed {s t : State} {gid : Nat} {g g' : Group} (h : LanesWritten s t gid g g') (hs : Stays s t gid) : Landed s t gid g g' :=
  ⟨h.now, h.others, (congrArg Group.ctl h.lanes.same :), h.lanes.busy_eq, hs⟩

theorem markV_busy (g : Group) (r : Nat) (e : Bool) (j : Nat) : (g.markV r e).busy j = g.busy j := by
  rw [Group.busy, Group.markV_eng, Group.busy]

theorem markV_v (g : Group) (r : Nat) (e : Bool) : (g.markV r e).regs.v = g.regs.v := by
  unfold Group.markV
  split <;> rfl

theorem markV_s (g : Group) (r : Nat) (e : Bool) : (g.markV r e).regs.s = g.regs.s := by
  unfold Group.markV
  split <;> rfl

/-- A register that is marked full is full, and those that were stay so. -/
theorem markV_isEmpty (g : Group) (r j : Nat) : (g.markV r false).isEmpty false j = (g.isEmpty false j && decide (j ≠ r)) := by
  by_cases h255 : r = 255
  · rw [Group.markV, if_pos h255]
    by_cases hj : j = r
    · simp [Group.isEmpty, hj, h255]
    · simp [hj]
  · rw [Group.markV, if_neg h255]
    by_cases hj : j = r
    · simp [Group.isEmpty, hj]
    · have hbit : (decide (j < r) || !decide (j - r = 0)) = true := by
        simp
        omega
      by_cases hlt : j < 256
      · simp [Group.isEmpty, hj, hlt]
        rw [hbit, Bool.and_true]
      · simp [Group.isEmpty, BitVec.getLsbD_of_ge _ _ (Nat.not_lt.mp hlt)]

theorem markV_full (g : Group) (r : Nat) : (g.markV r false).isEmpty false r = false := by
  rw [markV_isEmpty]
  simp

theorem markV_full_of {g : Group} {r j : Nat} (h : g.isEmpty false j = false) : (g.markV r false).isEmpty false j = false := by
  rw [markV_isEmpty, h]
  rfl

/-- A vector register's lanes land in a resident group, and the register is full. -/
theorem deliverV_landed {s : State} {gid : Nat} {g : Group} (hg : s.group gid = some g) (himage : s.imageOf g = none) (r : Nat) {ls : List Nat}
    (hls : ∀ L ∈ ls, L < 32) (v : Nat → Word) (why : Word) :
    ∃ g', Landed s (s.deliverV gid r (ls.map (fun L => (L, v L))) true why) gid g g' ∧ g'.regs.s = g.regs.s ∧ g'.isEmpty false r = false ∧
      (∀ j, g.isEmpty false j = false → g'.isEmpty false j = false) ∧
      (∀ j L, L < 32 → (j ≠ r ∨ j = 255 ∨ L ∉ ls) → g'.rdV j L = g.rdV j L) ∧ (∀ L ∈ ls, r ≠ 255 → g.busy r = false → g'.rdV r L = v L) := by
  obtain ⟨g1, hw, hkept, hval⟩ := lanesWritten_writeV hg r hls v
  have hregs : { g1.regs with v := g.regs.v, vbad := g.regs.vbad } = g.regs := (congrArg Group.regs hw.lanes.same :)
  have hscalars : g1.regs.s = g.regs.s := (congrArg Regs.s hregs :)
  have hempty (j : Nat) : g1.isEmpty false j = g.isEmpty false j := by
    have hv : g1.regs.vempty = g.regs.vempty := (congrArg Regs.vempty hregs :)
    simp only [Group.isEmpty, hv, Bool.false_eq_true, if_false]
  have h1 := hw.landed (writeV_stays s gid r _)
  have h2 := h1.trans (landed_modGroup hw.now (f := fun g => g.markV r false) (Group.markV_ctl g1 ..) (markV_busy g1 r false)
    (fun g => Group.markV_visitor g ..) fun g => Group.markV_block g ..)
  have hfilled (g' : Group) (hr : g'.regs = (g1.markV r false).regs) : g'.regs.s = g.regs.s ∧ g'.isEmpty false r = false ∧
      (∀ j, g.isEmpty false j = false → g'.isEmpty false j = false) ∧
      (∀ j L, L < 32 → (j ≠ r ∨ j = 255 ∨ L ∉ ls) → g'.rdV j L = g.rdV j L) ∧ (∀ L ∈ ls, r ≠ 255 → g.busy r = false → g'.rdV r L = v L) := by
    have hrd (j L : Nat) : g'.rdV j L = g1.rdV j L := by
      rw [Group.rdV, hr, markV_v, Group.rdV]
    have hem (j : Nat) : g'.isEmpty false j = (g1.markV r false).isEmpty false j := by
      rw [Group.isEmpty, hr, Group.isEmpty]
    refine ⟨by rw [hr, markV_s, hscalars], by rw [hem, markV_full], fun j hj => ?_, fun j L hL hout => (hrd j L).trans (hkept j L hL hout),
      fun L hL hr hb => (hrd r L).trans (hval L hL hr hb)⟩
    rw [hem]
    exact markV_full_of (by rw [hempty, hj])
  simp only [State.deliverV, hg, himage, if_true]
  split
  · obtain ⟨g', h3, hr⟩ := landed_unpark h2.now why
    exact ⟨g', h2.trans h3, hfilled g' hr⟩
  · exact ⟨_, h2, hfilled _ rfl⟩

/-- A scalar register's result lands in a resident group, and the register is full. -/
theorem deliverS_landed {s : State} {gid : Nat} {g : Group} (hg : s.group gid = some g) (himage : s.imageOf g = none) {r : Nat} (hr : r < 128)
    (x : Word) (why : Word) :
    ∃ g', Landed s (s.deliverS gid r x true why) gid g g' ∧ g'.regs.v = g.regs.v ∧ g'.isEmpty true r = false ∧
      (∀ j, g.isEmpty true j = false → g'.isEmpty true j = false) ∧ g'.rdS r = x ∧ ∀ j, j ≠ r → g'.rdS j = g.rdS j := by
  have hnum : (BitVec.ofNat 8 r).toNat = r := by rw [BitVec.toNat_ofNat]; omega
  have hdst : BitVec.ofNat 8 r ≠ 138#8 := by
    intro h
    have := congrArg BitVec.toNat h
    rw [hnum] at this
    simp at this
    omega
  have hput : s.putDst gid (BitVec.ofNat 8 r) x = s.modGroup gid (fun g => g.putS r x) := by
    rw [State.putDst, if_neg hdst, hnum, if_pos hr, State.writeS]
  have h1 : Landed s (s.modGroup gid (fun g => g.putS r x)) gid g (g.putS r x) :=
    landed_modGroup hg rfl (fun _ => rfl) (fun _ => rfl) fun _ => rfl
  have h2 := h1.trans (landed_modGroup h1.now (f := fun g => g.markS r false) rfl (fun _ => rfl) (fun _ => rfl) fun _ => rfl)
  have hfilled (g' : Group) (hr' : g'.regs = ((g.putS r x).markS r false).regs) : g'.regs.v = g.regs.v ∧ g'.isEmpty true r = false ∧
      (∀ j, g.isEmpty true j = false → g'.isEmpty true j = false) ∧ g'.rdS r = x ∧ ∀ j, j ≠ r → g'.rdS j = g.rdS j := by
    have hem (j : Nat) : g'.isEmpty true j = (g.regs.sempty &&& ~~~(1#128 <<< r)).getLsbD j := by
      rw [Group.isEmpty, hr']
      rfl
    have hrd (j : Nat) : g'.rdS j = Sparse.get 0 (Sparse.set 0 g.regs.s r x) j := by
      rw [Group.rdS, hr']
      rfl
    refine ⟨by rw [hr']; rfl, ?_, fun j hj => ?_, by rw [hrd, Sparse.get_set_same], fun j hj => by rw [hrd, Sparse.get_set_other _ _ _ hj]; rfl⟩
    · rw [hem]
      simp [hr]
    · have hj' : g.regs.sempty.getLsbD j = false := hj
      rw [hem, BitVec.getLsbD_and, hj', Bool.false_and]
  simp only [State.deliverS, hg, himage, if_true, hput]
  split
  · obtain ⟨g', h3, hregs⟩ := landed_unpark h2.now why
    exact ⟨g', h2.trans h3, hfilled g' hregs⟩
  · exact ⟨_, h2, hfilled _ rfl⟩

/-! ### All registers of an access -/

/-- The vector registers of an access land one by one. -/
theorem deliverV_all {s : State} {gid : Nat} {g : Group} (hg : s.group gid = some g) (hres : Resident s gid) (dst : Nat) (lanes : Word)
    (v : Nat → Nat → Word) (why : Word) (n : Nat) :
    ∃ g', Landed s ((List.range n).foldl (fun s i => s.deliverV gid (dst + i) ((lanesOf lanes).map (fun L => (L, v i L))) true why) s) gid g g' ∧
      g'.regs.s = g.regs.s ∧ (∀ i, i < n → g'.isEmpty false (dst + i) = false) ∧
      (∀ i L, i < n → L < 32 → dst + i ≠ 255 → lanes.getLsbD L = true → g.busy (dst + i) = false → g'.rdV (dst + i) L = v i L) ∧
      (∀ r L, L < 32 → (r < dst ∨ dst + n ≤ r ∨ lanes.getLsbD L = false) → g'.rdV r L = g.rdV r L) := by
  induction n with
  | zero => exact ⟨g, .refl hg, rfl, fun i hi => absurd hi (Nat.not_lt_zero i), fun i _ hi => absurd hi (Nat.not_lt_zero i), fun _ _ _ _ => rfl⟩
  | succ n ih =>
    obtain ⟨g1, h1, hs1, hem1, hval1, hkept1⟩ := ih
    rw [List.range_succ, List.foldl_append, List.foldl_cons, List.foldl_nil]
    obtain ⟨g2, h2, hs2, hfull, hmono, hkept2, hval2⟩ := deliverV_landed h1.now (h1.stays.resident hres g1 h1.now) (dst + n)
      (ls := lanesOf lanes) lanesOf_lt (v n) why
    refine ⟨g2, h1.trans h2, hs2.trans hs1, fun i hi => ?_, fun i L hi hL h255 hlane hbusy => ?_, fun r L hL hout => ?_⟩
    · rcases Nat.lt_succ_iff_lt_or_eq.mp hi with hi | rfl
      · exact hmono _ (hem1 i hi)
      · exact hfull
    · rcases Nat.lt_succ_iff_lt_or_eq.mp hi with hi | rfl
      · rw [hkept2 _ L hL (.inl (by omega)), hval1 i L hi hL h255 hlane hbusy]
      · exact hval2 L (mem_lanesOf.mpr ⟨hL, hlane⟩) h255 (by rw [h1.busy, hbusy])
    · have hr : r ≠ dst + n ∨ r = 255 ∨ L ∉ lanesOf lanes := by
        rcases hout with h | h | h
        · exact .inl (by omega)
        · exact .inl (by omega)
        · exact .inr (.inr fun hm => by rw [(mem_lanesOf.mp hm).2] at h; cases h)
      rw [hkept2 r L hL hr]
      exact hkept1 r L hL (hout.imp_right (Or.imp_left (by omega)))

/-- The scalar registers of an access land one by one. -/
theorem deliverS_all {s : State} {gid : Nat} {g : Group} (hg : s.group gid = some g) (hres : Resident s gid) (dst : Nat)
    (v : Nat → Word) (why : Word) (n : Nat) (hn : dst + n ≤ 128) :
    ∃ g', Landed s ((List.range n).foldl (fun s i => s.deliverS gid (dst + i) (v i) true why) s) gid g g' ∧
      g'.regs.v = g.regs.v ∧ (∀ i, i < n → g'.isEmpty true (dst + i) = false ∧ g'.rdS (dst + i) = v i) ∧
      (∀ r, r < dst ∨ dst + n ≤ r → g'.rdS r = g.rdS r) := by
  induction n with
  | zero => exact ⟨g, .refl hg, rfl, fun i hi => absurd hi (Nat.not_lt_zero i), fun _ _ => rfl⟩
  | succ n ih =>
    obtain ⟨g1, h1, hv1, hval1, hkept1⟩ := ih (by omega)
    rw [List.range_succ, List.foldl_append, List.foldl_cons, List.foldl_nil]
    obtain ⟨g2, h2, hv2, hfull, hmono, hval2, hkept2⟩ := deliverS_landed h1.now (h1.stays.resident hres g1 h1.now) (r := dst + n) (by omega) (v n) why
    refine ⟨g2, h1.trans h2, hv2.trans hv1, fun i hi => ?_, fun r hout => ?_⟩
    · rcases Nat.lt_succ_iff_lt_or_eq.mp hi with hi | rfl
      · exact ⟨hmono _ (hval1 i hi).1, by rw [hkept2 _ (by omega), (hval1 i hi).2]⟩
      · exact ⟨hfull, hval2⟩
    · rw [hkept2 r (by omega)]
      exact hkept1 r (by omega)

end Sys2Proof.Proofs
end

section
/-! Replies of loads. -/

namespace Sys2Proof.Proofs

open Sys2Proof Sys2Proof.Machine Sys2Proof.Claims

/-! ### The image of an evicted group -/

theorem writeRun_wroteHome (s : State) (il key : Nat) (bs : List Byte) : WroteHome s (s.writeRun il key bs) :=
  foldl_rel WroteHome.refl WroteHome.trans _ (fun t _ _ => writeAt_wroteHome t ..) s

theorem foundIn_wroteHome (s : State) (key n : Nat) : WroteHome s (s.foundIn key n) := by
  unfold State.foundIn
  split
  · exact .refl s
  · exact writeAt_wroteHome s ..

theorem imageV_wroteHome (s : State) (record r : Nat) (vals : List (Nat × Word)) (full : Bool) : WroteHome s (s.imageV record r vals full) := by
  unfold State.imageV
  extract_lets base fb at_ s1 lanes q after
  split
  · exact foundIn_wroteHome s ..
  · split
    · exact .refl s
    · split
      · have h1 : WroteHome s s1 := foldl_rel WroteHome.refl WroteHome.trans _ (fun t _ _ => writeRun_wroteHome t ..) s
        split
        · exact h1.trans (writeRun_wroteHome s1 ..)
        · exact h1
      · split
        · exact foundIn_wroteHome s ..
        · exact (writeRun_wroteHome s ..).trans (writeRun_wroteHome _ ..)

theorem imageS_wroteHome (s : State) (record r : Nat) (x : Word) (full : Bool) : WroteHome s (s.imageS record r x full) := by
  unfold State.imageS
  split
  · exact writeRun_wroteHome s ..
  · dsimp only
    split
    · exact (writeRun_wroteHome s ..).trans (writeRun_wroteHome _ ..)
    · exact writeRun_wroteHome s ..

/-! ### The accesses that are left -/

/-- No access is new. -/
structure AccsFrom (s t : State) : Prop where
  mem : ∀ b ∈ t.accs, ∃ a ∈ s.accs, b.id = a.id

theorem AccsFrom.refl (s : State) : AccsFrom s s := ⟨fun b hb => ⟨b, hb, rfl⟩⟩

theorem AccsFrom.trans {s t u : State} (h : AccsFrom s t) (k : AccsFrom t u) : AccsFrom s u := by
  refine ⟨fun c hc => ?_⟩
  obtain ⟨b, hb, hcb⟩ := k.mem c hc
  obtain ⟨a, ha, hba⟩ := h.mem b hb
  exact ⟨a, ha, hcb.trans hba⟩

theorem Lessens.accsFrom {s t : State} (h : Lessens s t) : AccsFrom s t := ⟨fun b hb => by
  obtain ⟨a, ha, hid, -⟩ := h.accs b hb
  exact ⟨a, ha, hid⟩⟩

theorem WroteHome.accsFrom {s t : State} (h : WroteHome s t) : AccsFrom s t := ⟨fun b hb => ⟨b, h.accs_eq ▸ hb, rfl⟩⟩

theorem deliverV_accsFrom (s : State) (gid r : Nat) (vals : List (Nat × Word)) (full : Bool) (why : Word) : AccsFrom s (s.deliverV gid r vals full why) := by
  by_cases h : Resident s gid
  · exact (deliverV_resident h ..).1.accsFrom
  · unfold State.deliverV
    split
    · exact .refl s
    · rename_i g hg
      split
      · exact (imageV_wroteHome s ..).accsFrom
      · rename_i hnone
        exact absurd (fun x hx => by rw [hg] at hx; cases hx; exact hnone) h

theorem deliverS_accsFrom (s : State) (gid r : Nat) (x : Word) (full : Bool) (why : Word) : AccsFrom s (s.deliverS gid r x full why) := by
  by_cases h : Resident s gid
  · exact (deliverS_resident h ..).1.accsFrom
  · unfold State.deliverS
    split
    · exact .refl s
    · rename_i g hg
      split
      · exact (imageS_wroteHome s ..).accsFrom
      · rename_i hnone
        exact absurd (fun x hx => by rw [hg] at hx; cases hx; exact hnone) h

/-- An access that has landed is over, wherever its results go. -/
theorem landAccess_over (s : State) (a : Access) : ∀ b ∈ (s.landAccess a).accs, b.id ≠ a.id := by
  unfold State.landAccess
  extract_lets s1 hurt bad full value s2 s3 s4
  have h2 : AccsFrom s1 s2 := by
    refine foldl_rel AccsFrom.refl AccsFrom.trans _ (fun t i _ => ?_) s1
    split
    · exact deliverV_accsFrom t ..
    · split
      · exact deliverS_accsFrom t ..
      · exact .refl t
  have h3 : AccsFrom s2 s3 := by
    unfold s3
    clear_value s2 hurt
    split
    · exact .refl s2
    · dsimp only
      split
      · exact (storeFail_lessens s2 ..).accsFrom
      · exact (raise_lessens s2 ..).accsFrom
  have h4 : AccsFrom s3 s4 := by
    unfold s4
    split
    · exact (raiseStores_lessens s3 ..).accsFrom
    · exact .refl s3
  intro b hb
  obtain ⟨c, hc, hid⟩ := (((h2.trans h3).trans h4).trans (tryRetire_lessens s4 a.gid).accsFrom).mem b hb
  rw [hid]
  simpa using (List.mem_filter.mp hc).2

/-! ### Nothing of an access has failed -/

theorem tryRetire_of_live {s : State} {gid : Nat} {g : Group} (hg : s.group gid = some g) (hlive : g.ctl.livem ≠ 0) : s.tryRetire gid = s := by
  simp only [State.tryRetire, hg]
  rw [if_pos]
  have h : decide (g.ctl.livem ≠ 0) = true := decide_eq_true hlive
  rw [h]
  rfl

/-- What lands of an access none of whose requests has failed, and that releases nothing to peers: its registers alone. -/
theorem landAccess_of_whole {s : State} {a : Access} (hfails : a.fails = []) (hrel : a.rel = false ∨ a.scope < 4) :
    s.landAccess a = ((List.range a.regs).foldl (fun (s : State) i =>
      if a.vec then s.deliverV a.gid (a.dst + i) ((lanesOf a.lanes).map (fun L => (L, BitVec.ofNat 32 (a.value L / 2 ^ (32 * i))))) true a.wakes
      else s.deliverS a.gid (a.dst + i) (BitVec.ofNat 32 (a.value 0 / 2 ^ (32 * i))) true a.wakes)
      { s with accs := s.accs.filter (fun b => b.id ≠ a.id) }).tryRetire a.gid := by
  have hquiet : (a.rel && (decide (a.scope = 4) || decide (a.scope = 5))) = false := by
    rcases hrel with h | h
    · rw [h, Bool.false_and]
    · simp
      omega
  have hfailed (L : Nat) : a.failed.getLsbD L = false := by
    simp [Access.failed, hfails]
  have hnone : maskOf (fun _ => false) = 0 := by decide
  have hall : a.lanes &&& ~~~(0 : Word) = a.lanes := BitVec.and_allOnes
  simp only [State.landAccess, hfails, hquiet, hfailed, List.filter_nil, List.isEmpty_nil, List.any_nil, hnone, hall, Bool.false_eq_true, if_false, if_true]

/-! ### The data of a part reaches its access -/

theorem find_updWhere {l : List Access} {a a' : Access} (hid : a'.id = a.id) (h : (l.find? (fun b => b.id = a.id)).isSome = true) :
    (updWhere l (fun b => b.id = a.id) (fun _ => a')).find? (fun b => b.id = a.id) = some a' := by
  induction l with
  | nil => cases h
  | cons b l ih =>
    by_cases hb : b.id = a.id
    · simp [updWhere, hb, hid]
    · have htail : (l.find? (fun b => b.id = a.id)).isSome = true := by simpa [hb] using h
      have := ih htail
      unfold updWhere at this ⊢
      simpa [hb] using this

/-- The last part of an access has been performed. -/
theorem arrived_parts_nil {a : Access} {p : Part} {data : List Byte} (h : ∀ q ∈ a.parts, q.id = p.id) : (arrived a p data).parts.isEmpty = true := by
  rw [List.isEmpty_iff]
  exact List.filter_eq_nil_iff.mpr fun q hq => by simpa using h q hq

/-- The state in which the registers of an access are written. -/
def landing (u : State) (a : Access) (p : Part) (data : List Byte) : State :=
  { u with accs := (updWhere u.accs (fun b => b.id = a.id) (fun _ => arrived a p data)).filter (fun b => b.id ≠ a.id) }

/-- The data of a part reaches its access, from a state with the accesses, groups and blocks of `s`. -/
theorem partDone_delivers {s u : State} (hu : Runs s u) {a : Access} {p : Part} {data : List Byte} (hfind : s.accs.find? (fun b => b.id = a.id) = some a)
    (hoff : p.off + data.length ≤ 16) : Delivers s (u.partDone a p data) a p data := by
  have hlast (hall : ∀ q ∈ a.parts, q.id = p.id) : u.partDone a p data =
      ({ u with accs := updWhere u.accs (fun b => b.id = a.id) (fun _ => arrived a p data) } : State).landAccess (arrived a p data) := by
    rw [partDone_eq]
    exact if_pos (arrived_parts_nil hall)
  have hwhole (hall : ∀ q ∈ a.parts, q.id = p.id) (hfails : a.fails = []) (hrel : a.rel = false ∨ a.scope < 4) :=
    (hlast hall).trans (landAccess_of_whole (a := arrived a p data) hfails hrel)
  have hgroup (j : Nat) : u.group j = s.group j := congrArg (Sparse.find · j) hu.groups
  have hres {g : Group} (hg : s.group a.gid = some g) (himage : s.imageOf g = none) : Resident u a.gid :=
    hu.resident fun x hx => by rw [hg] at hx; cases hx; exact himage
  refine ⟨fun ⟨q, hq, hne⟩ => ?_, fun hall b hb => ?_, fun hall hvec hfails hrel g hg himage hlive => ?_, fun hall hvec hfails hrel hdst g hg himage hlive => ?_⟩
  · have hmore : ¬ (arrived a p data).parts.isEmpty = true := by
      rw [List.isEmpty_iff]
      exact List.ne_nil_of_mem (List.mem_filter.mpr ⟨hq, by simpa using hne⟩)
    have hfind' : (u.accs.find? (fun b => b.id = a.id)).isSome = true := by rw [hu.accs, hfind]; rfl
    refine ⟨arrived a p data, ?_, rfl, arrived_got a p hoff⟩
    rw [partDone_eq]
    dsimp only
    rw [if_neg hmore]
    exact find_updWhere (a' := arrived a p data) rfl hfind'
  · rw [hlast hall] at hb
    exact landAccess_over _ (arrived a p data) b hb
  · obtain ⟨g', hl, hs, hfull, hval, hkept⟩ := deliverV_all (s := landing u a p data) ((hgroup a.gid).trans hg)
      ((stays_of_same a.gid rfl rfl).resident (hres hg himage)) a.dst a.lanes
      (fun i L => BitVec.ofNat 32 ((arrived a p data).value L / 2 ^ (32 * i))) (arrived a p data).wakes a.regs
    have hdone := hwhole hall hfails hrel
    simp only [show (arrived a p data).vec = true from hvec, if_true] at hdone
    rw [hdone.trans (tryRetire_of_live hl.now (by rw [hl.ctl]; exact hlive))]
    refine ⟨g', hl.now, fun j hj => (hl.others j hj).trans (hgroup j), hl.ctl, hs, hfull, fun i L hi hL h255 hlane hbusy => ?_, hkept⟩
    rw [← arrived_value a p hoff]
    exact hval i L hi hL h255 hlane hbusy
  · obtain ⟨g', hl, hv, hval, hkept⟩ := deliverS_all (s := landing u a p data) ((hgroup a.gid).trans hg)
      ((stays_of_same a.gid rfl rfl).resident (hres hg himage)) a.dst
      (fun i => BitVec.ofNat 32 ((arrived a p data).value 0 / 2 ^ (32 * i))) (arrived a p data).wakes a.regs hdst
    have hdone := hwhole hall hfails hrel
    simp only [show (arrived a p data).vec = false from hvec, Bool.false_eq_true, if_false] at hdone
    rw [hdone.trans (tryRetire_of_live hl.now (by rw [hl.ctl]; exact hlive))]
    refine ⟨g', hl.now, fun j hj => (hl.others j hj).trans (hgroup j), hl.ctl, hv, fun i hi => ⟨(hval i hi).1, ?_⟩, hkept⟩
    rw [← arrived_value a p hoff]
    exact (hval i hi).2

end Sys2Proof.Proofs
end

section
/-! Loads at their homes. -/

namespace Sys2Proof.Proofs

open Sys2Proof Sys2Proof.Machine Sys2Proof.Claims

/-! ### What a load reads -/

/-- A byte of a load, from the home's. -/
def loadByte (s : State) (a : Access) (key : Nat) (home : List Byte) (i : Nat) : Byte :=
  if s.unsettledByte a.gid (key + i) then Config.freeByte s.own.fresh (key + i)
  else if a.homeOnly then home.getD i 0
  else match s.overlay a (key + i) with
    | none => home.getD i 0
    | some x => x.2

theorem loadBytes_fst (s : State) (a : Access) (key : Nat) (home : List Byte) :
    (s.loadBytes a key home).1 = (List.range home.length).map (loadByte s a key home) := by
  unfold State.loadBytes
  generalize home.length = n
  induction n with
  | zero => rfl
  | succ n ih =>
    rw [List.range_succ, List.foldl_append, List.foldl_cons, List.foldl_nil, List.map_append, ← ih, List.map_cons, List.map_nil]
    unfold loadByte
    split
    · rfl
    · split
      · rfl
      · cases s.overlay a (key + n) with
        | none => rfl
        | some x => rfl

/-- A read at a home is none of what a load sees of its core's stores. -/
theorem readAt_overlay (s : State) (il key n : Nat) (a : Access) (k : Nat) :
    (s.readAt il key n).1.overlay a k = s.overlay a k ∧ (s.readAt il key n).1.unsettledByte a.gid k = s.unsettledByte a.gid k := by
  obtain ⟨rest, -, -⟩ := readAt_readHome s il key n
  generalize (s.readAt il key n).1 = t at rest ⊢
  rw [← rest]
  exact ⟨rfl, rfl⟩

theorem addDeps_runs (s : State) (gid id : Nat) (l : List Nat) : Runs s (s.addDeps gid id l) := by
  unfold State.addDeps
  split <;> exact ⟨rfl, rfl, rfl⟩

theorem addDeps_mem (s : State) (gid id : Nat) (l : List Nat) : (s.addDeps gid id l).mem = s.mem := by
  unfold State.addDeps
  split <;> rfl

theorem bytes_getD (m : Mem) (k n i : Nat) (hi : i < n) : (Mem.bytes m k n).getD i 0 = Mem.rd m (k + i) := by
  induction n generalizing k i with
  | zero => exact absurd hi (Nat.not_lt_zero i)
  | succ n ih =>
    rw [Mem.bytes]
    cases i with
    | zero => rfl
    | succ i =>
      rw [List.getD_cons_succ, ih (k + 1) i (Nat.lt_of_succ_lt_succ hi)]
      congr 1
      omega

/-- An access that an event names is the first of its identity. -/
theorem partAt_find {s : State} {req part : Nat} {a : Access} {p : Part} {key : Nat} (h : s.partAt req part = some (a, p, key)) :
    s.accs.find? (fun b => b.id = a.id) = some a := by
  unfold State.partAt at h
  split at h
  · cases h
  · rename_i b hb
    have hid : b.id = req := by simpa using List.find?_some hb
    split at h
    · cases h
    · split at h
      · cases h
      · split at h
        · cases h
        · split at h
          · cases h
          · cases h
            rw [hid]
            exact hb

/-- The reply of a load that does not read through the read buffer. -/
theorem loadReply_of_direct {req part : Nat} {s : State} {a : Access} {p : Part} {key sz : Nat} (hpart : s.partAt req part = some (a, p, key))
    (hkind : a.kind = .load sz) (hremote : s.remote a.rmt a.node [(key, p.len)] = none) (hdirect : ¬ Buffered a p key) (hclean : Clean s p.il key p.len) :
    let t := (s.readAt p.il key p.len).1
    let r := t.loadBytes a key (Mem.bytes s.mem key p.len)
    exec (.loadReply req part) s = .next (((t.addDeps a.gid a.id r.2).acquiredBy a).partDone a p r.1) := by
  simp only [exec, execLoadReply, hpart, hkind, remotely_of_none hremote, readAt_clean hclean]
  cases hloc : p.loc with
  | mem k =>
    have hb : (a.rb && decide (key < 2 ^ 39)) = false := by
      rw [← Bool.not_eq_true, Bool.and_eq_true, decide_eq_true_eq]
      exact fun ⟨hrb, hkey⟩ => hdirect ⟨hrb, hkey, k, hloc⟩
    exact if_neg (by rw [hb]; exact Bool.false_ne_true)
  | _ => rfl

/-- The reply of a load that reads through the read buffer. -/
theorem loadReply_of_buffered {req part : Nat} {s : State} {a : Access} {p : Part} {key sz : Nat} (hpart : s.partAt req part = some (a, p, key))
    (hkind : a.kind = .load sz) (hremote : s.remote a.rmt a.node [(key, p.len)] = none) (hbuf : Buffered a p key) {bs : List Byte}
    (hread : (s.readRb a p key).2 = some bs) : exec (.loadReply req part) s = .next ((s.readRb a p key).1.partDone a p bs) := by
  obtain ⟨hrb, hkey, k, hloc⟩ := hbuf
  simp only [exec, execLoadReply, hpart, hkind, remotely_of_none hremote, hloc, hrb, decide_eq_true hkey, Bool.and_self, if_true, hread]

/-- What reaches an access changes no byte of memory while its group is resident. -/
theorem partDone_mem {s u : State} (hu : Runs s u) (hmem : u.mem = s.mem) {a : Access} (ha : a ∈ s.accs)
    (hres : ∀ g, s.group a.gid = some g → s.imageOf g = none) (p : Part) (data : List Byte) : (u.partDone a p data).mem = s.mem :=
  (partDone_lessens (by rw [hu.accs]; exact ha) (.inr (hu.resident hres)) p data).1.mem.trans hmem

/-- Settles the part of O27 on loads. -/
theorem loadReply : LoadReply := by
  intro req part s a p key sz hpart hkind hoff hremote
  obtain ⟨ha, -⟩ := partAt_mem hpart
  have hfind := partAt_find hpart
  refine ⟨fun hdirect hclean => ?_, fun hbuf e he => ?_, fun hbuf hmiss hclean => ?_⟩
  · rw [loadReply_of_direct hpart hkind hremote hdirect hclean]
    have hread := readAt_readHome s p.il key p.len
    generalize hbytes : (s.readAt p.il key p.len).1.loadBytes a key (Mem.bytes s.mem key p.len) = r
    have hr : r.1 = (List.range p.len).map (loadByte (s.readAt p.il key p.len).1 a key (Mem.bytes s.mem key p.len)) := by
      rw [← hbytes, loadBytes_fst, bytes_length]
    have hlen : r.1.length = p.len := by rw [hr, List.length_map, List.length_range]
    have hruns := (hread.wroteHome.runs.trans (addDeps_runs _ a.gid a.id r.2)).trans (acquiredBy_runs _ a)
    refine ⟨_, r.1, rfl, partDone_delivers hruns hfind (by rw [hlen]; exact hoff), hlen, fun i hi hsettled => ?_, fun himage => ?_⟩
    · have hbyte : r.1.getD i 0 = loadByte (s.readAt p.il key p.len).1 a key (Mem.bytes s.mem key p.len) i := by
        rw [hr, List.getD_eq_getElem _ _ (by simpa using hi), List.getElem_map, List.getElem_range]
      obtain ⟨hover, hun⟩ := readAt_overlay s p.il key p.len a (key + i)
      rw [hbyte, loadByte, hun, hsettled, hover]
      refine ⟨fun hhome => ?_, fun hhome => ?_⟩
      · simp only [hhome, Bool.false_eq_true, if_false, if_true]
        exact bytes_getD _ _ _ _ hi
      · simp only [hhome, Bool.false_eq_true, if_false]
        cases s.overlay a (key + i) with
        | none => exact bytes_getD _ _ _ _ hi
        | some x => rfl
    · exact partDone_mem hruns ((acquiredBy_mem ..).trans ((addDeps_mem ..).trans hread.mem_eq)) ha himage p _
  · have hrb : s.readRb a p key = (s, some ((e.data.drop (key % 32)).take p.len)) := by simp only [State.readRb, he]
    rw [loadReply_of_buffered hpart hkind hremote hbuf (congrArg (·.2) hrb), hrb]
    refine ⟨_, rfl, partDone_delivers ⟨rfl, rfl, rfl⟩ hfind ?_, fun himage => partDone_mem ⟨rfl, rfl, rfl⟩ rfl ha himage p _⟩
    have := List.length_take_le p.len (e.data.drop (key % 32))
    omega
  · have hrb : s.readRb a p key = ((s.readAt p.il (key / 32 * 32) 32).1.fillRb a.node a.ctx (key / 32) (Mem.bytes s.mem (key / 32 * 32) 32),
        some (((Mem.bytes s.mem (key / 32 * 32) 32).drop (key % 32)).take p.len)) := by
      simp only [State.readRb, hmiss, readAt_clean hclean]
    rw [loadReply_of_buffered hpart hkind hremote hbuf (congrArg (·.2) hrb), hrb]
    have hread := readAt_readHome s p.il (key / 32 * 32) 32
    have hruns : Runs s ((s.readAt p.il (key / 32 * 32) 32).1.fillRb a.node a.ctx (key / 32) (Mem.bytes s.mem (key / 32 * 32) 32)) :=
      hread.wroteHome.runs.trans ⟨rfl, rfl, rfl⟩
    refine ⟨_, rfl, partDone_delivers hruns hfind ?_, fun himage => ⟨partDone_mem hruns hread.mem_eq ha himage p _, ?_⟩⟩
    · have := List.length_take_le p.len ((Mem.bytes s.mem (key / 32 * 32) 32).drop (key % 32))
      omega
    · rw [(partDone_lessens (by rw [hruns.accs]; exact ha) (.inr (hruns.resident himage)) p _).1.rb, State.fillRb, State.node_modNode]
      exact ⟨_, List.mem_append_right _ (List.mem_singleton.mpr rfl), rfl, rfl, rfl⟩

/-- Settles O27: what a load reads at its home, and what a store puts there. -/
theorem loadsAndStoresAtHome : Obligations.LoadsAndStoresAtHome := ⟨loadReply, storeAtHome⟩

end Sys2Proof.Proofs
end

section
/-! The issue of transfers and of reads of cells (spec 08, R174 to R184). -/

namespace Sys2Proof.Proofs

open Sys2Proof Sys2Proof.Machine Sys2Proof.Claims

/-! ### Checks that find nothing -/

theorem fieldVerdict_of_clean {l : List LaneCheck} (h : ∀ x ∈ l, ∀ y ∈ x.sides, y.2.2 = []) : fieldVerdict l = none := by
  have hnil : l.flatMap (fun x => x.sides.flatMap (fun y => y.2.2.map (·.1))) = [] := by
    rw [List.flatMap_eq_nil_iff]
    intro x hx
    rw [List.flatMap_eq_nil_iff]
    intro y hy
    rw [h x hx y hy]
    rfl
  rw [fieldVerdict, hnil]
  rfl

/-! ### Transfers -/

theorem homesOf_eq_foldl_append (l : List FLane) (x : FLane) :
    homesOf (l ++ [x]) = if (homesOf l).contains (homeOf x.oil x.okey) then homesOf l else homesOf l ++ [homeOf x.oil x.okey] := by
  rw [homesOf, List.foldl_append]
  rfl

theorem mem_homesOf {l : List FLane} {x : FLane} (hx : x ∈ l) : homeOf x.oil x.okey ∈ homesOf l := by
  induction l using List.reverseRecOn with
  | nil => cases hx
  | append_singleton l y ih =>
    rw [homesOf_eq_foldl_append]
    rcases List.mem_append.mp hx with hin | hlast
    · have hold := ih hin
      split
      · exact hold
      · exact List.mem_append_left _ hold
    · obtain rfl := List.mem_singleton.mp hlast
      split
      next hc => exact List.contains_iff_mem.mp hc
      next => exact List.mem_append_right _ (List.mem_singleton.mpr rfl)

/-- Where no lane has a status and none is its own destination, every lane's debit is sent. -/
theorem debits_of_fresh {x : Xfer} (hstatus : x.status = []) (hself : ∀ l ∈ x.lanes, selfLane l = false) : x.debits = x.lanes := by
  rw [Xfer.debits, Xfer.left, hstatus]
  simp only [List.any_nil, Bool.not_false, List.filter_true]
  exact List.filter_eq_self.mpr fun l hl => by rw [hself l hl]; rfl

/-- The DEBIT of a transfer for one home. -/
def debitOf (x : Xfer) (h : Nat) : FMsg :=
  { FMsg.blank with kind := .debit, home := h, xid := x.id, lanes := x.debits.filter (fun l => homeOf l.oil l.okey = h) }

/-- A transfer that has passed its checks is under way: its destination is empty, its debits are sent, and the group waits for the checks at
the origin or goes on. -/
def underWay (s : State) (x : Xfer) (n : Nat) : State :=
  let s := { s with fld := { s.fld with xfers := s.fld.xfers ++ [x] } }.newId
  let s := s.markEmpty x.gid true x.dst 1
  let s := x.waiting.foldl (fun s h => s.send (debitOf x h)) s
  let s := if x.wd then s.advance x.gid n else s.stall x.gid (.checks x.id)
  if x.waiting.isEmpty then s.settle x else s

/-- Messages alone have been sent, one of each in a list. -/
structure MessagesSent (s t : State) (l : List FMsg) : Prop where
  mem : t.mem = s.mem
  groups : t.groups = s.groups
  kept : ∀ m ∈ s.fld.msgs, m ∈ t.fld.msgs
  sent : ∀ m ∈ l, ∃ y ∈ t.fld.msgs, y.2.1 = m

theorem foldl_send (l : List Nat) (f : Nat → FMsg) (s : State) : MessagesSent s (l.foldl (fun (s : State) h => s.send (f h)) s) (l.map f) := by
  induction l generalizing s with
  | nil => exact ⟨rfl, rfl, fun _ h => h, fun m h => nomatch h⟩
  | cons h l ih =>
    obtain ⟨hmem, hgroups, hkept, hsent⟩ := ih (s.send (f h))
    refine ⟨hmem, hgroups, fun m hm => hkept m (List.mem_append_left _ hm), ?_⟩
    rw [List.map_cons, List.forall_mem_cons]
    exact ⟨⟨_, hkept _ (List.mem_append_right _ (List.mem_singleton.mpr rfl)), rfl⟩, hsent⟩

/-- What a transfer under way has done: one group waits or has gone on with its destination empty, and each debit is on its way. -/
theorem underWay_spec {s : State} {x : Xfer} {g : Group} (hg : s.group x.gid = some g) (hne : x.waiting ≠ []) (n : Nat) :
    (underWay s x n).mem = s.mem ∧ (∀ j, j ≠ x.gid → (underWay s x n).group j = s.group j) ∧
    (∃ g', (underWay s x n).group x.gid = some g' ∧ g'.regs = (marked g true x.dst 1).regs ∧ g'.ctl.exm = g.ctl.exm ∧
      (x.wd = false → g'.ctl.pc = g.ctl.pc ∧ g'.sched.hold = .checks x.id) ∧
      (x.wd = true → g'.ctl.pc = g.ctl.pc + BitVec.ofNat 64 n ∧ g'.sched.hold = .none)) ∧
    ∀ h ∈ x.waiting, ∃ m ∈ (underWay s x n).fld.msgs, m.2.1 = debitOf x h := by
  have hwait : x.waiting.isEmpty = false := by rwa [List.isEmpty_eq_false_iff]
  rw [underWay]
  simp only [hwait, Bool.false_eq_true, if_false]
  rw [markEmpty_eq (s := ({ s with fld := { s.fld with xfers := s.fld.xfers ++ [x] } } : State).newId) hg]
  obtain ⟨hmem, hgroups, -, hsent⟩ := foldl_send x.waiting (debitOf x)
    (({ s with fld := { s.fld with xfers := s.fld.xfers ++ [x] } } : State).newId.setGroup x.gid (marked g true x.dst 1))
  rw [List.forall_mem_map] at hsent
  generalize x.waiting.foldl (fun (s : State) h => s.send (debitOf x h)) _ = u at hmem hgroups hsent
  have hgroup (j : Nat) : u.group j = (s.setGroup x.gid (marked g true x.dst 1)).group j := congrArg (Sparse.find · j) hgroups
  have hnow : u.group x.gid = some (marked g true x.dst 1) := (hgroup _).trans (State.group_setGroup ..)
  have hothers (j : Nat) (hj : j ≠ x.gid) : u.group j = s.group j := (hgroup j).trans (State.group_setGroup_other _ _ hj)
  have hctl : (marked g true x.dst 1).ctl = g.ctl := (congrArg Group.ctl (marked_kept g true x.dst 1) :)
  cases hwd : x.wd
  · simp only [Bool.false_eq_true, if_false]
    rw [stall_eq hnow]
    refine ⟨(State.gate_mem ..).trans hmem, fun j hj => ?_, ⟨_, (group_gate ..).trans (State.group_setGroup ..), rfl, ?_,
      fun _ => ⟨?_, rfl⟩, fun h => nomatch h⟩, fun h hh => ?_⟩
    · rw [group_gate, State.group_setGroup_other _ _ hj, hothers j hj]
    · exact congrArg Ctl.exm hctl
    · exact congrArg Ctl.pc hctl
    · rw [State.gate_fld]
      exact hsent h hh
  · simp only [if_true]
    rw [State.advance_eq hnow, hctl]
    exact ⟨hmem, fun j hj => (State.group_setGroup_other _ _ hj).trans (hothers j hj), ⟨_, State.group_setGroup .., rfl,
      (congrArg Ctl.exm hctl :), (fun h => nomatch h), fun _ => ⟨rfl, rfl⟩⟩, hsent⟩

/-- The transfer that an xfer issues with a tag, its destinations' devices having been asked whether they can be sent to. -/
def issuedXfer (f : Fields) (s : State) (g : Group) (tag : Nat) : Xfer :=
  let lanes := (lanesOf g.ctl.exm).filterMap (xferLane s g f)
  let bad := lanes.filterMap (fun l => (if l.fabric then s.peerFault g.ctx l.ddev else none).map (fun r => (l.lane, 9, r)))
  let rel := f.mf 4 3 = 2 || f.mf 4 3 = 3
  let x : Xfer :=
    { id := s.own.ids, gid := s.own.cur, node := g.owner, ctx := g.ctx, dst := f.d.toNat, wd := f.m 2,
      acq := f.mf 4 3 = 1 || f.mf 4 3 = 3, rel := rel, scope := acqScope (f.mf 7 5), rmt := 6 ≤ f.mf 7 5,
      corAt := if rel && acqScope (f.mf 7 5) = 1 then s.own.ids else g.out.corFence, itag := tag, q64 := f.m 1, lanes := lanes,
      waiting := [], short := [], status := bad, lost := maskOf (fun L => bad.any (fun b => b.1 = L)), dead := false }
  { x with waiting := homesOf x.debits }

/-- The state in which a transfer gets under way. -/
def beforeXfer (f : Fields) (s : State) (g : Group) : State :=
  let u := (if g.visitor.isNone then s.unclean g.block else s).lookUps g
    ((lanesOf g.ctl.exm).map (xferOrg s g f) ++ (lanesOf g.ctl.exm).map (xferDst s g f))
  if f.mf 4 3 = 2 || f.mf 4 3 = 3 then u.beginRelease s.own.cur g (acqScope (f.mf 7 5)) else u

theorem execXfer_of_checked {f : Fields} {s : State} {g : Group} (h : Ready (.xfer f) s g) (hexm : g.ctl.exm ≠ 0)
    (hcheck : fieldVerdict ((lanesOf g.ctl.exm).map (xferCheck s g f)) = none) :
    exec (.xfer f) s = match s.freeItag g.owner with
      | none => .next (s.stall s.own.cur .order)
      | some tag => .next (underWay (beforeXfer f s g) (issuedXfer f s g tag) f.bytes) := by
  change execXfer f s = _
  rw [execXfer, issue_of_ready h rfl, if_neg hexm]
  dsimp only
  rw [hcheck]
  rfl

theorem beforeXfer_prelude (f : Fields) {s : State} {g : Group} (hq : Quiet s g) : Prelude s (beforeXfer f s g) := by
  have hsoil : Prelude s (if g.visitor.isNone then s.unclean g.block else s) := by
    split
    · exact prelude_unclean s g.block
    · exact Prelude.refl s
  have hlook := hsoil.trans (prelude_of_homesOnly (lookUps_homesOnly _ g
    ((lanesOf g.ctl.exm).map (xferOrg s g f) ++ (lanesOf g.ctl.exm).map (xferDst s g f))))
  rw [beforeXfer]
  split
  · rwa [beginRelease_of_quiet (hlook.quiet hq)]
  · exact hlook

theorem lanesOf_ne_nil {w : Word} (h : w ≠ 0) : lanesOf w ≠ [] := by
  intro hnil
  refine h (BitVec.eq_of_getLsbD_eq fun L hL => ?_)
  rw [show (0 : Word).getLsbD L = false from BitVec.getLsbD_zero, Bool.eq_false_iff]
  intro hbit
  have hmem : L ∈ lanesOf w := mem_lanesOf.mpr ⟨hL, hbit⟩
  rw [hnil] at hmem
  exact nomatch hmem

/-- Where nothing but what precedes an access has happened, to go on is the one effect. -/
theorem controlWrite_advance {s u : State} {g : Group} (hu : Prelude s u) (hg : s.group s.own.cur = some g) (f : Fields) :
    ControlWrite u (u.advance s.own.cur f.bytes) g (nextPc g f) g.ctl.exm g.ctl.stack := by
  rw [State.advance_eq ((hu.group _).trans hg), ← hu.own]
  exact controlWrite_goto u g (nextPc g f)

/-- Settles the part of O31 on transfers. -/
theorem transferIssue : TransferIssue := by
  intro f s g h
  refine ⟨fun hidle => ?_, fun hexm hcheck => ?_⟩
  · change ∃ t, execXfer f s = .next t ∧ _
    rw [execXfer, issue_of_ready h rfl, if_pos hidle]
    have hpre : Prelude s (if g.visitor.isNone then s.unclean g.block else s) := by
      split
      · exact prelude_unclean s g.block
      · exact Prelude.refl s
    exact ⟨_, rfl, hidle ▸ controlWrite_advance hpre h.1 f⟩
  · rw [execXfer_of_checked h hexm hcheck]
    cases htag : s.freeItag g.owner with
    | none => exact ⟨_, rfl, fun _ _ hsome => nomatch hsome⟩
    | some tag =>
      refine ⟨_, rfl, fun hq hl _ => ?_⟩
      have hpre := beforeXfer_prelude f hq
      have hlanes : ∀ l ∈ (issuedXfer f s g tag).lanes, l.fabric = false ∧ selfLane l = false := by
        intro l hin
        obtain ⟨L, hL, hx⟩ := List.mem_filterMap.mp hin
        obtain ⟨hlt, hbit⟩ := mem_lanesOf.mp hL
        obtain ⟨l', hl', hfab, hkey⟩ := hl L hlt hbit
        obtain rfl := Option.some.inj (hx.symm.trans hl')
        exact ⟨hfab, by simp [selfLane, hfab, hkey]⟩
      have hstatus : (issuedXfer f s g tag).status = [] := by
        refine List.filterMap_eq_nil_iff.mpr fun l hin => ?_
        rw [(hlanes l hin).1]
        rfl
      have hdebits := debits_of_fresh hstatus fun l hin => (hlanes l hin).2
      have hwaiting : (issuedXfer f s g tag).waiting = homesOf (issuedXfer f s g tag).lanes := congrArg homesOf hdebits
      have hlane {L : Nat} (hlt : L < 32) (hbit : g.ctl.exm.getLsbD L = true) {l : FLane} (hx : xferLane s g f L = some l) :
          l ∈ (issuedXfer f s g tag).lanes := List.mem_filterMap.mpr ⟨L, mem_lanesOf.mpr ⟨hlt, hbit⟩, hx⟩
      have hne : (issuedXfer f s g tag).waiting ≠ [] := by
        obtain ⟨L, hL⟩ := List.exists_mem_of_ne_nil _ (lanesOf_ne_nil hexm)
        obtain ⟨hlt, hbit⟩ := mem_lanesOf.mp hL
        obtain ⟨l, hx, -⟩ := hl L hlt hbit
        rw [hwaiting]
        exact List.ne_nil_of_mem (mem_homesOf (hlane hlt hbit hx))
      obtain ⟨hmem, hothers, ⟨g', hnow, hregs, hexm', hstay, hgo⟩, hsent⟩ :=
        underWay_spec (x := issuedXfer f s g tag) ((hpre.group _).trans h.1) hne f.bytes
      have hkept := marked_kept g true f.d.toNat 1
      refine ⟨hmem.trans (congrArg State.mem hpre.home.rest :), fun j hj => (hothers j hj).trans (hpre.group j),
        ⟨g', hnow, ?_, ?_, hexm', fun hd => ?_, hstay, hgo⟩, fun L hlt hbit l hx => ?_⟩
      · rw [hregs]
        exact (congrArg (fun g : Group => g.regs.v) hkept :)
      · rw [hregs]
        exact (congrArg (fun g : Group => g.regs.s) hkept :)
      · have hempty := isEmpty_marked g true f.d.toNat 1 false (r := f.d.toNat) (by simp only [Bool.false_eq_true, if_false]; omega)
        simp only [Group.isEmpty, hregs] at hempty ⊢
        refine hempty.trans ?_
        simp [show f.d.toNat ≠ 255 by omega]
      · have hin := hlane hlt hbit hx
        obtain ⟨m, hm, hmsg⟩ := hsent (homeOf l.oil l.okey) (by rw [hwaiting]; exact mem_homesOf hin)
        refine ⟨m, hm, by rw [hmsg]; rfl, by rw [hmsg]; rfl, by rw [hmsg]; rfl, ?_⟩
        rw [hmsg]
        exact List.mem_filter.mpr ⟨by rw [hdebits]; exact hin, by simp⟩

/-! ### Reads of cells -/

/-- The addresses of the cells that vldf and sldf read (spec 08, R184). -/
def vldfAddr (f : Fields) (s : State) (g : Group) (L : Nat) : Dword :=
  s.readSP g f.a + scaled (s.readV g f.b.toNat L) (if f.m 1 then 8 else 4) + offOf f
def sldfAddr (f : Fields) (s : State) (g : Group) (_ : Nat) : Dword :=
  s.readSP g f.a + scaled (s.readS g f.b) (if f.m 1 then 8 else 4) + offOf f

/-- The statement of R184 for one read of cells. -/
def CellReadIssues (p : (Fields → Instr) × Bool × (Fields → State → Group → Nat → Dword)) : Prop :=
  ∀ (f : Fields) (s : State) (g : Group), Ready (p.1 f) s g → (p.2.1 = true → g.ctl.exm ≠ 0) →
    (∀ L, L < 32 → (if p.2.1 then g.ctl.exm.getLsbD L = true else L = 0) →
      ∃ c, s.cellAt g (f.m 1) false true (p.2.2 f s g L) = (some c, [])) →
    ∃ t, exec (p.1 f) s = .next t ∧
      (Quiet s g → (∀ L c, L < 32 → (s.cellAt g (f.m 1) false true (p.2.2 f s g L)).1 = some c → c.fabric = false) →
        ∃ parts, AccessIssued s t g p.2.1 f.d.toNat (if f.m 1 then 2 else 1) (.field (f.m 1))
          (if p.2.1 then g.wset else 1) parts (nextPc g f))

theorem cellReadIssues_of_readCells {c : Fields → Instr} {row : Fields → Row} {vec : Bool} {addr : Fields → State → Group → Nat → Dword}
    (hrow : ∀ f, (c f).row = some (f, row f)) (hexec : ∀ f s, exec (c f) s = readCells (row f) f s vec (addr f)) :
    CellReadIssues (c, vec, addr) := by
  intro f s g h hexm hcells
  have hidle : ¬ (vec && decide (g.ctl.exm = 0)) = true := by
    rw [Bool.and_eq_true, decide_eq_true_iff]
    exact fun h0 => hexm h0.1 h0.2
  have hact : ∀ L ∈ (if vec then lanesOf g.ctl.exm else [0]), L < 32 ∧ (if vec then g.ctl.exm.getLsbD L = true else L = 0) := by
    intro L hL
    cases vec
    · obtain rfl := List.mem_singleton.mp hL
      exact ⟨by omega, rfl⟩
    · exact mem_lanesOf.mp hL
  rw [hexec, readCells, issue_of_ready h (hrow f), if_neg hidle]
  dsimp only
  rw [fieldVerdict_of_clean]
  · generalize hparts : partsFor _ _ _ _ _ = parts
    refine ⟨_, rfl, fun hq hfab => ⟨parts, ?_⟩⟩
    have hn : (if f.m 1 then 8 else 4) / 4 = if f.m 1 then 2 else 1 := by split <;> rfl
    rw [← hn]
    refine accessIssued_advance ((Prelude.refl s).markEmpty h.1 _ _ _) (silent_of_quiet hq)
      (hparts ▸ partsFor_peer fun x hx q hq' => ?_) (hparts ▸ partsFor_mc) rfl rfl _ rfl
    obtain ⟨L, hL, hLx⟩ := List.mem_filterMap.mp hx
    obtain ⟨cell, hcell, rfl⟩ := Option.map_eq_some_iff.mp hLx
    have hlt : L < 32 := by
      rcases List.mem_append.mp hL with h1 | h2
      · exact (hact L h1).1
      · cases vec
        · exact nomatch h2
        · exact (mem_lanesOf.mp (List.mem_filter.mp h2).1).1
    obtain rfl := List.mem_singleton.mp hq'
    rw [hfab L cell hlt hcell]
    exact ⟨_, _, rfl⟩
  · intro x hx y hy
    obtain ⟨L, hL, rfl⟩ := List.mem_map.mp hx
    obtain rfl := List.mem_singleton.mp hy
    obtain ⟨hlt, hbit⟩ := hact L hL
    obtain ⟨cell, hcell⟩ := hcells L hlt hbit
    exact congrArg (·.2) hcell

/-- Settles the part of O31 on reads of cells. -/
theorem cellReads : CellReads := by
  intro f s g
  refine ⟨fun h hidle => ?_, ?_⟩
  · change ∃ t, execVldf f s = .next t ∧ _
    rw [execVldf, readCells, issue_of_ready h rfl, if_pos (by simp [hidle])]
    exact ⟨_, rfl, hidle ▸ controlWrite_advance (Prelude.refl s) h.1 f⟩
  · exact List.forall_mem_cons.mpr ⟨cellReadIssues_of_readCells (addr := vldfAddr) (fun _ => rfl) (fun _ _ => rfl) f s g,
      List.forall_mem_cons.mpr ⟨cellReadIssues_of_readCells (addr := sldfAddr) (fun _ => rfl) (fun _ _ => rfl) f s g,
        fun _ h => nomatch h⟩⟩

/-- Settles O31: a transfer that passes its checks is under way, and a read of cells is one access. -/
theorem fieldAccessIssue : Obligations.FieldAccessIssue := ⟨transferIssue, cellReads⟩

end Sys2Proof.Proofs
end

section
/-! Field domains: results that land, the totals, and what ftot, fgup, fdrop, fattr and fdecl do (spec 08, R184 to R191). -/

namespace Sys2Proof.Proofs

open Sys2Proof Sys2Proof.Machine Sys2Proof.Claims

/-! ### Results on their way -/

theorem unpark_lands (s : State) (gid : Nat) (bits : Word) : (s.unpark gid bits).lands = s.lands := by
  unfold State.unpark
  split
  · rfl
  · dsimp only
    split
    · rfl
    · exact State.rouse_lands ..

theorem putDst_lands (s : State) (gid : Nat) (x : BitVec 8) (v : Word) : (s.putDst gid x v).lands = s.lands := by
  unfold State.putDst
  split
  · exact State.modGroup_lands ..
  · split
    · exact State.writeS_lands ..
    · rfl

theorem deliverS_lands (s : State) (gid r : Nat) (x : Word) (full : Bool) (why : Word) : (s.deliverS gid r x full why).lands = s.lands := by
  unfold State.deliverS
  split
  · rfl
  · split
    · exact (congrArg State.lands (imageS_wroteHome s _ r x full).writes.rest :)
    · dsimp only
      split
      · split
        · rw [unpark_lands, State.modGroup_lands, putDst_lands]
        · rw [State.modGroup_lands, putDst_lands]
      · exact putDst_lands ..

theorem reapBlock_lands (s : State) (k : Nat) : (s.reapBlock k).lands = s.lands := by
  unfold State.reapBlock
  split
  · rfl
  · split
    · rfl
    · split <;> rfl

theorem reap_lands (s : State) : s.reap.lands = s.lands :=
  foldl_rel (R := fun s t : State => t.lands = s.lands) (fun _ => rfl) (fun h k => k.trans h) _ (fun t k _ => reapBlock_lands t k) s

theorem endBlock_lands (s : State) (k : Nat) (cause : Option Nat) : (s.endBlock k cause).lands ⊆ s.lands := by
  unfold State.endBlock
  split
  · exact List.Subset.refl _
  · rename_i b _
    extract_lets gone s1 s2 _ _ s3
    have h2 : s2.lands = s.lands := by
      unfold s2
      split <;> rfl
    rw [reap_lands, State.modGrid_lands]
    exact fun l hl => h2 ▸ List.mem_of_mem_filter hl

theorem tryRetire_lands (s : State) (gid : Nat) : (s.tryRetire gid).lands ⊆ s.lands := by
  unfold State.tryRetire
  split
  · exact List.Subset.refl _
  · split
    · exact List.Subset.refl _
    · extract_lets _ _ s1
      split
      · exact List.Subset.refl _
      · extract_lets slots s2 s3 s4
        have h3 : s3.lands = s.lands := by
          unfold s3
          split
          · exact State.modBlock_lands ..
          · rfl
        have h4 : s4.lands = s.lands := by
          unfold s4
          split
          · exact h3
          · rw [State.modGrid_lands, h3]
        split
        · exact fun l hl => h4 ▸ endBlock_lands s4 _ _ hl
        · exact fun l hl => h4 ▸ hl

/-- A result is on its way no more. -/
def withoutLanding (s : State) (id : Nat) : State := { s with lands := s.lands.filter (fun k => k.id ≠ id) }

theorem landResult_scalar {s : State} {x : Landing} (hfind : s.lands.find? (fun l => l.id = x.id) = some x) (hvec : x.vec = false) :
    s.landResult x.id =
      (x.vals.foldl (fun (s : State) p => s.deliverS x.gid (x.dst + p.1) p.2 true 0) (withoutLanding s x.id)).tryRetire x.gid := by
  rw [State.landResult, hfind]
  simp only [hvec, Bool.false_eq_true, if_false]
  rfl

theorem foldl_deliverS_lands (gid dst : Nat) (vals : List (Nat × Word)) (s : State) :
    (vals.foldl (fun (s : State) p => s.deliverS gid (dst + p.1) p.2 true 0) s).lands = s.lands :=
  foldl_rel (R := fun s t : State => t.lands = s.lands) (fun _ => rfl) (fun h k => k.trans h) vals (fun _ _ _ => deliverS_lands ..) s

/-- Two registers of a resident group with a lane receive their values one after the other. -/
theorem deliverS_both {s : State} {gid dst : Nat} {g : Group} (hg : s.group gid = some g) (himage : s.imageOf g = none) (hdst : dst + 1 < 128)
    (v w : Word) :
    ∃ g', Landed s ((s.deliverS gid dst v true 0).deliverS gid (dst + 1) w true 0) gid g g' ∧ (g'.rdS dst = v ∧ g'.isEmpty true dst = false) ∧
      g'.rdS (dst + 1) = w ∧ g'.isEmpty true (dst + 1) = false := by
  obtain ⟨g1, h1, -, hfull1, -, hval1, -⟩ := deliverS_landed hg himage (r := dst) (by omega) v 0
  have hres : s.imageOf g = none → Resident s gid := fun h g' hg' => Option.some.inj (hg.symm.trans hg') ▸ h
  obtain ⟨g2, h2, -, hfull2, hmono, hval2, hkept⟩ := deliverS_landed h1.now (h1.stays.resident (hres himage) g1 h1.now) hdst w 0
  exact ⟨g2, h1.trans h2, ⟨(hkept _ (by omega)).trans hval1, hmono _ hfull1⟩, hval2, hfull2⟩

/-- Settles the part of O32 on results that land. -/
theorem lands : Lands := by
  intro s x v w hfind hvec
  rw [landResult_scalar hfind hvec]
  refine ⟨fun l hl => ?_, fun hvals => ?_, fun hvals hdst => ?_⟩
  · have h := tryRetire_lands _ _ hl
    rw [foldl_deliverS_lands] at h
    simpa using (List.mem_filter.mp h).2
  · intro g hg himage hlive hr
    obtain ⟨g', h, -, hfull, -, hval, -⟩ := deliverS_landed (s := withoutLanding s x.id) hg himage hr v 0
    simp only [hvals, List.foldl_cons, List.foldl_nil, Nat.add_zero]
    rw [tryRetire_of_live h.now (by rwa [h.ctl])]
    exact ⟨g', h.now, h.ctl, hval, hfull⟩
  · simp only [hvals, List.foldl_cons, List.foldl_nil, Nat.add_zero]
    refine ⟨fun g hg himage hlive _ => ?_, fun g hg himage hlive _ => ?_⟩
    · obtain ⟨g', h, ⟨hval, hfull⟩, -⟩ := deliverS_both (s := withoutLanding s x.id) hg himage hdst v w
      rw [tryRetire_of_live h.now (by rwa [h.ctl])]
      exact ⟨g', h.now, h.ctl, hval, hfull⟩
    · obtain ⟨g', h, -, hval, hfull⟩ := deliverS_both (s := withoutLanding s x.id) hg himage hdst v w
      rw [tryRetire_of_live h.now (by rwa [h.ctl])]
      exact ⟨g', h.now, h.ctl, hval, hfull⟩

/-- A result is on its way. -/
def withLanding (s : State) (x : Landing) : State := ({ s with lands := s.lands ++ [x] } : State).newId

theorem later_eq {u : State} {gid : Nat} {g : Group} (hg : u.group gid = some g) (dst : Nat) (vals : List (Nat × Word)) :
    u.later gid false dst vals =
      withLanding (u.setGroup gid (marked g false dst vals.length)) { id := u.own.ids, gid := gid, vec := false, dst := dst, vals := vals } := by
  rw [State.later, markEmpty_eq hg]
  rfl

/-- The values of scalar registers from one on, as a result names them. -/
def inTurn (vals : List Word) : List (Nat × Word) := (List.range vals.length).map (fun i => (i, vals.getD i 0))

theorem inTurn_length (vals : List Word) : (inTurn vals).length = vals.length := by rw [inTurn, List.length_map, List.length_range]

/-- A result of some values from a register on is on its way, and the group goes on. -/
theorem later_advance {s u : State} {g : Group} (hg : u.group s.own.cur = some g) (hmem : u.mem = s.mem) (hlands : u.lands = s.lands)
    (dst n : Nat) (vals : List Word) :
    Later s ((u.later s.own.cur false dst (inTurn vals)).advance s.own.cur n) g dst vals (g.ctl.pc + BitVec.ofNat 64 n) := by
  have hkept := marked_kept g false dst vals.length
  have hctl : (marked g false dst vals.length).ctl = g.ctl := (congrArg Group.ctl hkept :)
  rw [later_eq hg, inTurn_length,
    State.advance_eq (s := withLanding (u.setGroup s.own.cur (marked g false dst vals.length)) _) (State.group_setGroup u ..), hctl]
  refine ⟨hmem, ⟨_, congrArg (· ++ _) hlands, rfl, rfl, rfl, rfl⟩, _, State.group_setGroup .., ?_, (congrArg (fun g : Group => g.regs.v) hkept :),
    (congrArg (fun g : Group => g.regs.s) hkept :), fun i hi hlt => ?_⟩
  · exact congrArg (fun c : Ctl => { c with pc := g.ctl.pc + BitVec.ofNat 64 n }) hctl
  · refine (isEmpty_marked g false dst vals.length true (r := dst + i) hlt).trans ?_
    simp [hi]

/-! ### Declared domains -/

theorem withDomain_of_declared {s : State} {g : Group} {did : Nat} {d : Domain} (h : Declared s g did d) (gid : Nat) (k : Domain → Res) :
    withDomain s gid g did true k = k d := by
  obtain ⟨hd, howner, hstate⟩ := h
  simp [withDomain, hd, howner, hstate]

theorem withDomain_of_past {s : State} {g : Group} {did : Nat} {d : Domain} (hd : s.domain did = some d) (howner : d.owner = g.ctx)
    (hstate : d.state ≠ .declaring) (gid : Nat) (k : Domain → Res) : withDomain s gid g did false k = k d := by
  simp [withDomain, hd, howner, hstate]

theorem withDomain_of_none {s : State} {did : Nat} (hd : s.domain did = none) (gid : Nat) (g : Group) (active : Bool) (k : Domain → Res) :
    withDomain s gid g did active k = fdom s gid g 7 0 := by
  simp only [withDomain, hd]

theorem domain_setDomain (s : State) (did : Nat) (d : Domain) : (s.setDomain did d).domain did = some d := Sparse.find_put_same ..

theorem domain_setDomain_other (s : State) (d : Domain) {did n : Nat} (h : n ≠ did) : (s.setDomain did d).domain n = s.domain n :=
  Sparse.find_put_other _ _ h

theorem domain_advance (s : State) (gid k n : Nat) : (s.advance gid k).domain n = s.domain n :=
  congrArg (fun x : Fld => Sparse.find x.domains n) (State.advance_fld ..)

/-- What ends a group's rollback interval's cleanness leaves its group, memory and domains. -/
def soiled (s : State) (g : Group) : State := if g.visitor.isNone then s.unclean g.block else s

theorem soiled_prelude (s : State) (g : Group) : Prelude s (soiled s g) := by
  unfold soiled
  split
  · exact prelude_unclean s g.block
  · exact Prelude.refl s

theorem soiled_mem (s : State) (g : Group) : (soiled s g).mem = s.mem := by
  unfold soiled
  split
  · exact State.modBlock_mem ..
  · rfl

theorem soiled_nodes (s : State) (g : Group) : (soiled s g).nodes = s.nodes := by
  unfold soiled
  split
  · exact State.modBlock_nodes ..
  · rfl

theorem soiled_fld (s : State) (g : Group) : (soiled s g).fld = s.fld := by
  unfold soiled
  split
  · exact State.modBlock_fld ..
  · rfl

theorem soiled_lands (s : State) (g : Group) : (soiled s g).lands = s.lands := by
  unfold soiled
  split
  · exact State.modBlock_lands ..
  · rfl

theorem soiled_own (s : State) (g : Group) : (soiled s g).own = s.own := (soiled_prelude s g).own

/-- A state with the memory and the issuing group of another. -/
structure Near (s t : State) (g : Group) : Prop where
  group : t.group s.own.cur = some g
  mem : t.mem = s.mem

theorem soiled_near {s : State} {g : Group} (hg : s.group s.own.cur = some g) : Near s (soiled s g) g :=
  ⟨((soiled_prelude s g).group _).trans hg, soiled_mem s g⟩

/-- What a group that goes on leaves. -/
theorem Near.advance {s u : State} {g : Group} (h : Near s u g) (n : Nat) :
    (u.advance s.own.cur n).mem = s.mem ∧ ∃ g', (u.advance s.own.cur n).group s.own.cur = some g' ∧ g'.regs = g.regs ∧
      g'.ctl = { g.ctl with pc := g.ctl.pc + BitVec.ofNat 64 n } := by
  rw [State.advance_eq h.group]
  exact ⟨h.mem, _, State.group_setGroup .., rfl, rfl⟩

/-! ### fgup and fdrop -/

theorem fgup_spec {f : Fields} {s : State} {g : Group} {d : Domain} (h : Ready (.fgup f) s g) (hd : Declared s g (s.readS g f.a).toNat d)
    (hus : (s.readS g f.b).toNat = 0 ∨ (64 ≤ (s.readS g f.b).toNat ∧ (s.readS g f.b).toNat ≤ 1000000)) :
    ∃ t, exec (.fgup f) s = .next t ∧ t.mem = s.mem ∧
      t.domain (s.readS g f.a).toNat = some { d with gup := (s.readS g f.b).toNat } ∧
      ∃ g', t.group s.own.cur = some g' ∧ g'.regs = g.regs ∧ g'.ctl = { g.ctl with pc := nextPc g f } := by
  have hgood : ¬ ((decide (1 ≤ (s.readS g f.b).toNat) && decide ((s.readS g f.b).toNat < 64)) || decide (1000000 < (s.readS g f.b).toNat)) = true := by
    simp only [Bool.or_eq_true, Bool.and_eq_true, decide_eq_true_iff]
    omega
  change ∃ t, execFgup f s = .next t ∧ _
  rw [execFgup, issue_of_ready h rfl]
  dsimp only
  rw [withDomain_of_declared hd, if_neg hgood]
  have hnear : Near s ((soiled s g).setDomain (s.readS g f.a).toNat { d with gup := (s.readS g f.b).toNat }) g :=
    ⟨(soiled_near h.1).group, (soiled_near h.1).mem⟩
  obtain ⟨hmem, hgroup⟩ := hnear.advance f.bytes
  exact ⟨_, rfl, hmem, (domain_advance ..).trans (domain_setDomain ..), hgroup⟩

theorem domainBusy_congr {s t : State} (hnodes : t.nodes = s.nodes) (hsnaps : t.fld.snaps = s.fld.snaps) (hmsgs : t.fld.msgs = s.fld.msgs)
    (did : Nat) : t.domainBusy did = s.domainBusy did := by
  simp only [State.domainBusy, State.inFlight, hnodes, hsnaps, hmsgs]

/-- An fdrop asks the other members of its domain, the first time. -/
def askedToDrop (s : State) (g : Group) (did : Nat) (d : Domain) : State :=
  if d.dropping || (d.devs.filter (· ≠ s.devid)).isEmpty then soiled s g
  else ((soiled s g).setDomain did { d with dropping := true }).emit (.fdrop did)

theorem askedToDrop_near {s : State} {g : Group} (hg : s.group s.own.cur = some g) (did : Nat) (d : Domain) : Near s (askedToDrop s g did d) g := by
  unfold askedToDrop
  split
  · exact soiled_near hg
  · exact ⟨(soiled_near hg).group, (soiled_near hg).mem⟩

theorem askedToDrop_busy (s : State) (g : Group) (did : Nat) (d : Domain) : (askedToDrop s g did d).domainBusy did = s.domainBusy did := by
  unfold askedToDrop
  split
  · exact domainBusy_congr (soiled_nodes s g) (by rw [soiled_fld]) (by rw [soiled_fld]) did
  · exact domainBusy_congr (soiled_nodes s g) (congrArg Fld.snaps (soiled_fld s g) :) (congrArg Fld.msgs (soiled_fld s g) :) did

theorem askedToDrop_other (s : State) (g : Group) (d : Domain) {did n : Nat} (h : n ≠ did) : (askedToDrop s g did d).domain n = s.domain n := by
  have hsoil : (soiled s g).domain n = s.domain n := by rw [State.domain, soiled_fld]; rfl
  unfold askedToDrop
  split
  · exact hsoil
  · exact (domain_setDomain_other (soiled s g) _ h).trans hsoil

theorem execFdrop_of_owned {f : Fields} {s : State} {g : Group} {d : Domain} (h : Ready (.fdrop f) s g)
    (hd : s.domain (s.readS g f.a).toNat = some d) (howner : d.owner = g.ctx) (hstate : d.state ≠ .declaring) :
    exec (.fdrop f) s =
      if s.domainBusy (s.readS g f.a).toNat || !(d.devs.filter (· ≠ s.devid)).all (d.dropped.contains) then
        .next ((askedToDrop s g (s.readS g f.a).toNat d).stall s.own.cur .order)
      else .next (((askedToDrop s g (s.readS g f.a).toNat d).endDomain (s.readS g f.a).toNat).advance s.own.cur f.bytes) := by
  rw [← askedToDrop_busy s g (s.readS g f.a).toNat d]
  change execFdrop f s = _
  rw [execFdrop, issue_of_ready h rfl]
  dsimp only
  rw [withDomain_of_past hd howner hstate]
  rfl

theorem fdrop_ends {f : Fields} {s : State} {g : Group} {d : Domain} (h : Ready (.fdrop f) s g)
    (hd : s.domain (s.readS g f.a).toNat = some d) (howner : d.owner = g.ctx) (hstate : d.state ≠ .declaring)
    (hidle : s.domainBusy (s.readS g f.a).toNat = false) (hall : ∀ m ∈ d.devs, m ≠ s.devid → m ∈ d.dropped) :
    ∃ t, exec (.fdrop f) s = .next t ∧ t.mem = s.mem ∧ t.domain (s.readS g f.a).toNat = none ∧
      (∀ n, n ≠ (s.readS g f.a).toNat → t.domain n = s.domain n) ∧
      ∃ g', t.group s.own.cur = some g' ∧ g'.regs = g.regs ∧ g'.ctl = { g.ctl with pc := nextPc g f } := by
  have hdropped : (d.devs.filter (· ≠ s.devid)).all (d.dropped.contains) = true := by
    rw [List.all_eq_true]
    intro m hm
    obtain ⟨hdev, hne⟩ := List.mem_filter.mp hm
    exact List.contains_iff_mem.mpr (hall m hdev (by simpa using hne))
  rw [execFdrop_of_owned h hd howner hstate, hidle, hdropped]
  have hnear := askedToDrop_near h.1 (s.readS g f.a).toNat d
  obtain ⟨hmem, hgroup⟩ := Near.advance (u := (askedToDrop s g (s.readS g f.a).toNat d).endDomain (s.readS g f.a).toNat)
    ⟨hnear.group, hnear.mem⟩ f.bytes
  refine ⟨_, rfl, hmem, (domain_advance ..).trans (Sparse.find_del_same ..), fun n hn => ?_, hgroup⟩
  exact (domain_advance ..).trans ((Sparse.find_del_other _ hn).trans (askedToDrop_other s g d hn))

theorem fdrop_asks {f : Fields} {s : State} {g : Group} {d : Domain} (h : Ready (.fdrop f) s g)
    (hd : s.domain (s.readS g f.a).toNat = some d) (howner : d.owner = g.ctx) (hstate : d.state ≠ .declaring) {m : Nat} (hm : m ∈ d.devs)
    (hself : m ≠ s.devid) (hleft : m ∉ d.dropped) :
    ∃ t, exec (.fdrop f) s = .next t ∧ t.mem = s.mem ∧ t.domain (s.readS g f.a).toNat = some { d with dropping := true } ∧
      t.own.outbox = s.own.outbox ++ (if d.dropping then [] else [.fdrop (s.readS g f.a).toNat]) ∧
      ∃ g', t.group s.own.cur = some g' ∧ g'.regs = g.regs ∧ g'.ctl = g.ctl ∧ g'.sched.hold = .order := by
  have hother : m ∈ d.devs.filter (· ≠ s.devid) := List.mem_filter.mpr ⟨hm, by simpa using hself⟩
  have hwait : (d.devs.filter (· ≠ s.devid)).all (d.dropped.contains) = false := by
    rw [List.all_eq_false]
    exact ⟨m, hother, by simpa using hleft⟩
  rw [execFdrop_of_owned h hd howner hstate, hwait, Bool.not_false, Bool.or_true, if_pos rfl]
  have hnear := askedToDrop_near h.1 (s.readS g f.a).toNat d
  have hdomain : (askedToDrop s g (s.readS g f.a).toNat d).domain (s.readS g f.a).toNat = some { d with dropping := true } ∧
      (askedToDrop s g (s.readS g f.a).toNat d).own.outbox = s.own.outbox ++ (if d.dropping then [] else [.fdrop (s.readS g f.a).toNat]) := by
    have hne : (d.devs.filter (· ≠ s.devid)).isEmpty = false := List.isEmpty_eq_false_iff.mpr (List.ne_nil_of_mem hother)
    unfold askedToDrop
    rw [hne, Bool.or_false]
    cases hdrop : d.dropping
    · exact ⟨domain_setDomain .., congrArg (fun o : Own => o.outbox ++ [Effect.fdrop (s.readS g f.a).toNat]) (soiled_own s g)⟩
    · have hsame : { d with dropping := true } = d := by rw [← hdrop]
      rw [hsame]
      refine ⟨by rw [if_pos rfl, State.domain, soiled_fld]; exact hd, ?_⟩
      rw [if_pos rfl, soiled_own, if_pos rfl, List.append_nil]
  rw [stall_eq hnear.group]
  refine ⟨_, rfl, (State.gate_mem ..).trans hnear.mem, ?_, ?_, _, (group_gate ..).trans (State.group_setGroup ..), rfl, rfl, rfl⟩
  · rw [State.domain, State.gate_fld]
    exact hdomain.1
  · rw [State.gate_own]
    exact hdomain.2

/-! ### ftot -/

/-- What a snapshot is of, and who has asked for it. -/
def wantedOf (x : Snap) : Nat × Nat × Asker × Nat := (x.id, x.did, x.asker, x.figure)

/-- Snapshots may have begun, and homes been asked. -/
structure SnapsBegun (s t : State) : Prop where
  rest : { t with own := { t.own with outbox := s.own.outbox }, fld := { t.fld with snaps := s.fld.snaps } } = s
  wanted : t.fld.snaps.map wantedOf = s.fld.snaps.map wantedOf

theorem SnapsBegun.refl (s : State) : SnapsBegun s s := ⟨rfl, rfl⟩

theorem SnapsBegun.trans {s t u : State} (h : SnapsBegun s t) (k : SnapsBegun t u) : SnapsBegun s u where
  rest := (congrArg (fun x : State => { x with own := { x.own with outbox := s.own.outbox }, fld := { x.fld with snaps := s.fld.snaps } })
    k.rest).trans h.rest
  wanted := k.wanted.trans h.wanted

theorem emit_begun (s : State) (e : Effect) : SnapsBegun s (s.emit e) := ⟨rfl, rfl⟩

theorem askHomes_begun (s : State) (d : Domain) (did : Nat) : SnapsBegun s (s.askHomes d did) := by
  unfold State.askHomes
  split
  · exact foldl_rel SnapsBegun.refl SnapsBegun.trans _ (fun t m _ => emit_begun t (.hold did m)) s
  · exact emit_begun s _

theorem askHomes_snaps (s : State) (d : Domain) (did : Nat) : (s.askHomes d did).fld.snaps = s.fld.snaps := by
  unfold State.askHomes
  split
  · exact foldl_rel (R := fun s t : State => t.fld.snaps = s.fld.snaps) (fun _ => rfl) (fun h k => k.trans h) _
      (fun t m _ => congrArg Fld.snaps (State.emit_fld t (.hold did m))) s
  · rfl

/-- A snapshot as it begins. -/
def begunAt (x : Snap) (now : Nat) (homes : List Nat) : Snap := { x with begun := true, h0 := now, homes := homes }

/-- The snapshots of an identity begin. -/
def startSnap (s : State) (id : Nat) (homes : List Nat) : State :=
  { s with fld := { s.fld with snaps := updWhere s.fld.snaps (fun y => y.id = id) (fun y => begunAt y s.clock.toNat homes) } }

theorem startSnap_begun (s : State) (id : Nat) (homes : List Nat) : SnapsBegun s (startSnap s id homes) := by
  refine ⟨rfl, ?_⟩
  rw [startSnap, updWhere, List.map_map]
  refine List.map_congr_left fun x _ => ?_
  simp only [Function.comp_apply]
  split <;> rfl

/-- One snapshot begins if it may. -/
def beginSnap (s : State) (x : Snap) : State :=
  match s.domain x.did with
  | none => s
  | some d =>
    if x.begun || !s.snapFirst x then s
    else (startSnap s x.id (if d.anchor = s.devid then s.snapHomes d else [256 + d.anchor])).askHomes d x.did

theorem beginSnaps_eq (s : State) : s.beginSnaps = s.fld.snaps.foldl beginSnap s := rfl

theorem beginSnap_begun (s : State) (x : Snap) : SnapsBegun s (beginSnap s x) := by
  unfold beginSnap
  split
  · exact SnapsBegun.refl s
  · split
    · exact SnapsBegun.refl s
    · exact (startSnap_begun ..).trans (askHomes_begun ..)

theorem beginSnaps_begun (s : State) : SnapsBegun s s.beginSnaps :=
  foldl_rel SnapsBegun.refl SnapsBegun.trans _ (fun t x _ => beginSnap_begun t x) s

/-- Every snapshot that a state lists stood before, as it was asked for. -/
theorem SnapsBegun.of_mem {s t : State} (h : SnapsBegun s t) {y : Snap} (hy : y ∈ t.fld.snaps) : ∃ x ∈ s.fld.snaps, wantedOf x = wantedOf y := by
  have hw : wantedOf y ∈ s.fld.snaps.map wantedOf := h.wanted ▸ List.mem_map_of_mem hy
  exact List.mem_map.mp hw

theorem SnapsBegun.mem_of {s t : State} (h : SnapsBegun s t) {x : Snap} (hx : x ∈ s.fld.snaps) : ∃ y ∈ t.fld.snaps, wantedOf y = wantedOf x := by
  have hw : wantedOf x ∈ t.fld.snaps.map wantedOf := h.wanted.symm ▸ List.mem_map_of_mem hx
  exact List.mem_map.mp hw

/-- A snapshot is the first where none of its domain and none of its group is listed before it. -/
theorem snapFirst_of_alone {t : State} {x : Snap} {gid r : Nat} (hasker : x.asker = .group gid r)
    (halone : ∀ y ∈ t.fld.snaps, y.id = x.id ∨ (y.did ≠ x.did ∧ ∀ r, y.asker ≠ .group gid r)) : t.snapFirst x = true := by
  rw [State.snapFirst, Bool.not_eq_true', List.any_eq_false]
  intro y hy
  rcases halone y hy with hid | ⟨hdid, hgroup⟩
  · simp [hid]
  · rw [hasker]
    cases hy' : y.asker with
    | group j r' =>
      have hne : gid ≠ j := fun h => hgroup r' (by rw [hy', h])
      simp [hdid, hne]
    | member m => simp [hdid]
    | debugger => simp [hdid]

/-- The newest snapshot begins where none of its domain and none of its group is left. -/
theorem beginSnaps_last {u : State} {l : List Snap} {x : Snap} {d : Domain} {gid r : Nat} (hl : u.fld.snaps = l ++ [x])
    (hd : u.domain x.did = some d) (hx : x.begun = false) (hasker : x.asker = .group gid r)
    (halone : ∀ y ∈ l, y.did ≠ x.did ∧ ∀ r, y.asker ≠ .group gid r) :
    ∃ y ∈ u.beginSnaps.fld.snaps, wantedOf y = wantedOf x ∧ y.begun = true ∧ y.h0 = u.clock.toNat := by
  rw [beginSnaps_eq, hl, List.foldl_append, List.foldl_cons, List.foldl_nil]
  have hbegun : SnapsBegun u (l.foldl beginSnap u) := foldl_rel SnapsBegun.refl SnapsBegun.trans l (fun t x _ => beginSnap_begun t x) u
  generalize l.foldl beginSnap u = t at hbegun
  have hdomain : t.domain x.did = some d := (congrArg (fun s : State => Sparse.find s.fld.domains x.did) hbegun.rest :) |>.trans hd
  have hclock : t.clock = u.clock := (congrArg State.clock hbegun.rest :)
  have hfirst : t.snapFirst x = true := by
    refine snapFirst_of_alone hasker fun y hy => ?_
    obtain ⟨y0, hy0, hw⟩ := hbegun.of_mem hy
    simp only [wantedOf, Prod.mk.injEq] at hw
    obtain ⟨hid, hdid, hask, -⟩ := hw
    rw [hl] at hy0
    rcases List.mem_append.mp hy0 with hin | hlast
    · exact .inr ⟨hdid ▸ (halone y0 hin).1, fun r => hask ▸ (halone y0 hin).2 r⟩
    · exact .inl (List.mem_singleton.mp hlast ▸ hid.symm)
  simp only [beginSnap, hdomain, hx, hfirst, Bool.not_true, Bool.or_self, Bool.false_eq_true, if_false]
  generalize (if d.anchor = t.devid then t.snapHomes d else [256 + d.anchor]) = homes
  obtain ⟨y, hy, hw⟩ := hbegun.mem_of (hl ▸ List.mem_append_right l (List.mem_singleton.mpr rfl))
  refine ⟨begunAt y t.clock.toNat homes, ?_, hw, rfl, congrArg BitVec.toNat hclock⟩
  rw [askHomes_snaps]
  refine List.mem_map.mpr ⟨y, hy, if_pos ?_⟩
  exact decide_eq_true (congrArg (·.1) hw)

/-- A figure as it is asked for. -/
def askedFor (s : State) (did figure : Nat) (who : Asker) : Snap :=
  { id := s.own.ids, did := did, asker := who, figure := figure, begun := false, h0 := 0, homes := [], answers := [] }

/-- A snapshot is queued as the newest. -/
def withSnap (s : State) (x : Snap) : State := ({ s with fld := { s.fld with snaps := s.fld.snaps ++ [x] } } : State).newId

theorem askTotal_eq (s : State) (did figure : Nat) (who : Asker) :
    s.askTotal did figure who = (withSnap s (askedFor s did figure who)).beginSnaps := rfl

theorem execFtot_of_declared {f : Fields} {s : State} {g : Group} {d : Domain} (h : Ready (.ftot f) s g)
    (hd : Declared s g (s.readS g f.a).toNat d) :
    exec (.ftot f) s = if f.mf 2 1 = 0 then
        .next ((s.later s.own.cur false f.d.toNat (inTurn [d.c.truncate 32, (d.c >>> 32).truncate 32])).advance s.own.cur f.bytes)
      else .next (((s.markEmpty s.own.cur false f.d.toNat 2).askTotal (s.readS g f.a).toNat (f.mf 2 1)
        (.group s.own.cur f.d.toNat)).advance s.own.cur f.bytes) := by
  change execFtot f s = _
  rw [execFtot, issue_of_ready h rfl]
  dsimp only
  rw [withDomain_of_declared hd]
  rfl

/-- An ftot of another figure than the constant. -/
theorem ftot_asks {f : Fields} {s : State} {g : Group} {d : Domain} (h : Ready (.ftot f) s g)
    (hd : Declared s g (s.readS g f.a).toNat d) (hfigure : f.mf 2 1 ≠ 0) :
    ∃ t g', exec (.ftot f) s = .next t ∧ t.mem = s.mem ∧
      t.fld.snaps.map (·.id) = s.fld.snaps.map (·.id) ++ [s.own.ids] ∧
      (∃ x ∈ t.fld.snaps, x.id = s.own.ids ∧ x.did = (s.readS g f.a).toNat ∧ x.asker = .group s.own.cur f.d.toNat ∧
        x.figure = f.mf 2 1 ∧
        ((∀ y ∈ s.fld.snaps, y.did ≠ (s.readS g f.a).toNat ∧ ∀ r, y.asker ≠ .group s.own.cur r) →
          x.begun = true ∧ x.h0 = s.clock.toNat)) ∧
      t.group s.own.cur = some g' ∧ g'.ctl = { g.ctl with pc := nextPc g f } ∧
      (f.d.toNat < 127 → g'.isEmpty true f.d.toNat = true ∧ g'.isEmpty true (f.d.toNat + 1) = true) := by
  have hkept := marked_kept g false f.d.toNat 2
  have hctl : (marked g false f.d.toNat 2).ctl = g.ctl := (congrArg Group.ctl hkept :)
  rw [execFtot_of_declared h hd, if_neg hfigure, markEmpty_eq h.1, askTotal_eq]
  have hsame : askedFor (s.setGroup s.own.cur (marked g false f.d.toNat 2)) (s.readS g f.a).toNat (f.mf 2 1) (.group s.own.cur f.d.toNat) =
    askedFor s (s.readS g f.a).toNat (f.mf 2 1) (.group s.own.cur f.d.toNat) := rfl
  rw [hsame]
  have hlast := beginSnaps_last (u := withSnap (s.setGroup s.own.cur (marked g false f.d.toNat 2))
    (askedFor s (s.readS g f.a).toNat (f.mf 2 1) (.group s.own.cur f.d.toNat))) rfl hd.1 rfl rfl
  have hbegun := beginSnaps_begun (withSnap (s.setGroup s.own.cur (marked g false f.d.toNat 2))
    (askedFor s (s.readS g f.a).toNat (f.mf 2 1) (.group s.own.cur f.d.toNat)))
  generalize (withSnap (s.setGroup s.own.cur (marked g false f.d.toNat 2))
    (askedFor s (s.readS g f.a).toNat (f.mf 2 1) (.group s.own.cur f.d.toNat))).beginSnaps = t at hlast hbegun ⊢
  have hgroup : t.group s.own.cur = some (marked g false f.d.toNat 2) :=
    (congrArg (fun s' : State => s'.group s.own.cur) hbegun.rest :) |>.trans (State.group_setGroup s s.own.cur _)
  have hsnaps : (t.advance s.own.cur f.bytes).fld.snaps = t.fld.snaps := congrArg Fld.snaps (State.advance_fld ..)
  refine ⟨t.advance s.own.cur f.bytes, (marked g false f.d.toNat 2).goto (g.ctl.pc + BitVec.ofNat 64 f.bytes), rfl, ?_, ?_, ?_, ?_, ?_, fun hlt => ?_⟩
  · rw [State.advance_mem]
    exact (congrArg State.mem hbegun.rest :)
  · rw [hsnaps]
    have hids := congrArg (List.map (·.1)) hbegun.wanted
    rw [List.map_map, List.map_map] at hids
    exact hids.trans List.map_append
  · rw [hsnaps]
    have hread {y : Snap} (hy : wantedOf y = wantedOf (askedFor s (s.readS g f.a).toNat (f.mf 2 1) (.group s.own.cur f.d.toNat))) :
        y.id = s.own.ids ∧ y.did = (s.readS g f.a).toNat ∧ y.asker = .group s.own.cur f.d.toNat ∧ y.figure = f.mf 2 1 := by
      simpa only [wantedOf, askedFor, Prod.mk.injEq] using hy
    by_cases halone : ∀ y ∈ s.fld.snaps, y.did ≠ (s.readS g f.a).toNat ∧ ∀ r, y.asker ≠ .group s.own.cur r
    · obtain ⟨y, hy, hw, hstart, hnow⟩ := hlast halone
      obtain ⟨hid, hdid, hask, hfig⟩ := hread hw
      exact ⟨y, hy, hid, hdid, hask, hfig, fun _ => ⟨hstart, hnow⟩⟩
    · obtain ⟨y, hy, hw⟩ := hbegun.mem_of (List.mem_append_right s.fld.snaps (List.mem_singleton.mpr rfl))
      obtain ⟨hid, hdid, hask, hfig⟩ := hread hw
      exact ⟨y, hy, hid, hdid, hask, hfig, fun h => absurd h halone⟩
  · rw [State.advance_eq hgroup, hctl, State.group_setGroup]
  · exact congrArg (fun c : Ctl => { c with pc := g.ctl.pc + BitVec.ofNat 64 f.bytes }) hctl
  · have hmarked (r : Nat) (hr : r < 128) : ((marked g false f.d.toNat 2).goto (g.ctl.pc + BitVec.ofNat 64 f.bytes)).isEmpty true r =
        (g.isEmpty true r || (decide (true = !false) && decide (f.d.toNat ≤ r) && decide (r < f.d.toNat + 2) && (true || decide (r ≠ 255)))) :=
      isEmpty_marked g false f.d.toNat 2 true (r := r) hr
    rw [hmarked _ (by omega), hmarked _ (by omega)]
    simp

/-! ### fattr and fdecl -/

theorem kind_put (d : Domain) (j kind : Nat) {ks : List (Nat × Nat × Nat)} :
    let e := { d with kinds := if kind = 0 then Sparse.del d.kinds j else Sparse.put d.kinds j kind, keys := ks }
    e.kind j = kind ∧ ∀ i, i ≠ j → e.kind i = d.kind i := by
  by_cases h : kind = 0
  · simp only [h, if_true]
    exact ⟨by rw [Domain.kind, Sparse.get, Sparse.find_del_same]; rfl, fun i hi => by rw [Domain.kind, Sparse.get, Sparse.find_del_other _ hi]; rfl⟩
  · simp only [h, if_false]
    exact ⟨get_put_same .., fun i hi => get_put_other _ _ _ hi⟩

theorem fattr_spec {f : Fields} {s : State} {g : Group} {d : Domain} {c : CellAt} {l : List (Nat × Nat × Nat × Dword)} {s2 s3 : State} {b : Byte}
    (h : Ready (.fattr f) s g) (hd : Declared s g (s.readS g f.a).toNat d) (hcell : s.cellAt g d.q64 true false (s.readSP g f.b) = (some c, []))
    (hdid : c.did = (s.readS g f.a).toNat) (hkind : (s.readS g f.c).toNat ≤ 2)
    (hrun : (soiled s g).run noNode g.ctx g.priv true (BitVec.ofNat 64 (d.shadow + d.cell c.addr / 4)) 1 = some l) (hno : noFields l = true)
    (hread : (soiled s g).readPieces l = (s2, some [b])) (hval : s2.readCell c.il c.key d.width = (s3, some 0))
    (hidle : s3.inFlight (s.readS g f.a).toNat (some (c.key, c.addr)) = false)
    (hroom : (d.kinds.filter (fun x => x.1 ≠ d.cell c.addr && x.2 = (s.readS g f.c).toNat)).length < 16) :
    ∃ t d', exec (.fattr f) s = .next t ∧ t.domain (s.readS g f.a).toNat = some d' ∧
      d'.kind (d.cell c.addr) = (s.readS g f.c).toNat ∧ (∀ j, j ≠ d.cell c.addr → d'.kind j = d.kind j) ∧
      { d' with kinds := d.kinds, keys := d.keys } = d := by
  change ∃ t d', execFattr f s = .next t ∧ _
  rw [execFattr, issue_of_ready h rfl]
  dsimp only
  rw [withDomain_of_declared hd, hcell, fieldVerdict_of_clean (by simp)]
  dsimp only
  unfold soiled at hrun hread
  rw [hrun]
  dsimp only
  rw [hread]
  dsimp only
  rw [hval]
  dsimp only
  have hgood : ¬ (!noFields l || decide (2 < (s.readS g f.c).toNat) || decide ((0 : Int) ≠ 0) ||
      s3.inFlight (s.readS g f.a).toNat (some (c.key, c.addr)) || decide ((s.readS g f.c).toNat ≠ 0) &&
        decide (16 ≤ (d.kinds.filter (fun x => decide (x.1 ≠ d.cell c.addr) && decide (x.2 = (s.readS g f.c).toNat))).length)) = true := by
    rw [hno, hidle, decide_eq_false (by omega : ¬ 2 < (s.readS g f.c).toNat), decide_eq_false (by omega : ¬ 16 ≤ _)]
    simp
  rw [if_neg (not_not_intro hdid), if_neg hgood]
  obtain ⟨hnew, hold⟩ := kind_put d (d.cell c.addr) (s.readS g f.c).toNat
    (ks := d.keys.filter (fun k => k.1 ≠ d.cell c.addr) ++ (if (s.readS g f.c).toNat = 0 then [] else [(d.cell c.addr, c.key, c.il)]))
  exact ⟨_, _, rfl, (domain_advance ..).trans (domain_setDomain ..), hnew, hold, rfl⟩

/-- What a read once per group leaves: memory, the groups, what is on its way, and the domains. -/
structure ReadsOnly (s t : State) : Prop where
  mem : t.mem = s.mem
  groups : t.groups = s.groups
  lands : t.lands = s.lands
  fld : t.fld = s.fld

theorem ReadsOnly.refl (s : State) : ReadsOnly s s := ⟨rfl, rfl, rfl, rfl⟩

theorem ReadsOnly.trans {s t u : State} (h : ReadsOnly s t) (k : ReadsOnly t u) : ReadsOnly s u :=
  ⟨k.mem.trans h.mem, k.groups.trans h.groups, k.lands.trans h.lands, k.fld.trans h.fld⟩

theorem ReadHome.readsOnly {s t : State} (h : ReadHome s t) : ReadsOnly s t :=
  ⟨h.mem_eq, h.groups_eq, (congrArg State.lands h.rest :), (congrArg State.fld h.rest :)⟩

theorem readsOnly_of_homesOnly {s t : State} (h : HomesOnly s t) : ReadsOnly s t :=
  ⟨homesOnly_mem h, homesOnly_groups h, (congrArg State.lands h.rest :), (congrArg State.fld h.rest :)⟩

theorem addDeps_readsOnly (s : State) (gid id : Nat) (l : List Nat) : ReadsOnly s (s.addDeps gid id l) := by
  unfold State.addDeps
  split
  · exact .refl s
  · exact ⟨rfl, rfl, rfl, rfl⟩

theorem readPieces_readHome (s : State) (l : List (Nat × Nat × Nat × Dword)) : ReadHome s (s.readPieces l).1 := by
  unfold State.readPieces
  refine List.foldlRecOn (motive := fun r : State × Option (List Byte) => ReadHome s r.1) l _ (ReadHome.refl s) fun r hr p _ => ?_
  exact hr.trans (readAt_readHome r.1 p.2.2.1 p.1 p.2.1)

theorem readOwn_readsOnly (s : State) (gid : Nat) (g : Group) (l : List Piece) : ReadsOnly s (s.readOwn gid g l).1 := by
  unfold State.readOwn
  refine List.foldlRecOn (motive := fun r : State × Option (List Byte) => ReadsOnly s r.1) l _ (ReadsOnly.refl s) fun r hr p _ => ?_
  dsimp only
  split
  · exact hr
  · split
    · exact hr
    · rename_i pte _ _ key _
      have hread := hr.trans (readAt_readHome r.1 (pteIl pte) key p.len).readsOnly
      split
      · exact hread.trans (addDeps_readsOnly ..)
      · exact hread

theorem bitmap_readHome (s : State) (c : BitVec 8) (va n : Nat) : ReadHome s (s.bitmap c va n).1 := by
  unfold State.bitmap
  split
  · exact ReadHome.refl s
  · split
    · exact readPieces_readHome ..
    · exact ReadHome.refl s

theorem declare_reads (s : State) (c : BitVec 8) (b : List Byte) :
    ReadHome s (s.declare c b).1 ∧ (s.declare c b).2.2.state = .declaring := by
  unfold State.declare
  extract_lets q64 w base n did d cells overlap
  have hbitmap : ReadHome s (s.bitmap c d.shadow n).1 := bitmap_readHome ..
  split
  · exact ⟨.refl s, rfl⟩
  · split
    · exact ⟨.refl s, rfl⟩
    · split
      rename_i s' bm hb
      rw [hb] at hbitmap
      split
      · exact ⟨hbitmap, rfl⟩
      · split
        · exact ⟨hbitmap, rfl⟩
        · extract_lets
          split
          · exact ⟨hbitmap, rfl⟩
          · split
            · exact ⟨hbitmap, rfl⟩
            · split
              · exact ⟨hbitmap, rfl⟩
              · exact ⟨hbitmap, rfl⟩

/-- A domain is being declared for a register of a group. -/
def beingDeclared (s : State) (gid did dst : Nat) (d : Domain) : State :=
  let s := (s.markEmpty gid false dst 1).setDomain did { d with fdecl := some (gid, dst) }
  if d.anchor = s.devid then s else s.emit (.report did d.lseed)

theorem beingDeclared_domain (s : State) (gid did dst : Nat) (d : Domain) :
    (beingDeclared s gid did dst d).domain did = some { d with fdecl := some (gid, dst) } := by
  unfold beingDeclared
  dsimp only
  split
  · exact domain_setDomain ..
  · exact domain_setDomain (s.markEmpty gid false dst 1) ..

theorem execFdecl_of_read {f : Fields} {s : State} {g : Group} {l : List (Nat × List Piece)} {s1 : State} {bs : List Byte} (h : Ready (.fdecl f) s g)
    (hcheck : s.check g { priv := false, peer := false } 128 [(0, s.readSP g f.a)] = .ok l) (hset : s.unsettled s.own.cur = false)
    (hread : (s.lookUps g [s.readSP g f.a]).readOwn s.own.cur g (l.flatMap (·.2)) = (s1, some bs)) (hctx : field bs 52 1 = g.ctx.toNat) :
    exec (.fdecl f) s = if (s1.declare g.ctx bs).2.1 ≠ 0 then
        .next (((soiled (s1.declare g.ctx bs).1 g).later s.own.cur false f.d.toNat (inTurn [BitVec.ofNat 32 (s1.declare g.ctx bs).2.1])).advance
          s.own.cur f.bytes)
      else .next ((beingDeclared (soiled (s1.declare g.ctx bs).1 g) s.own.cur (field bs 12 2 % 4096) f.d.toNat (s1.declare g.ctx bs).2.2).advance
        s.own.cur f.bytes) := by
  change execFdecl f s = _
  rw [execFdecl, issue_of_ready h rfl]
  dsimp only
  rw [withBytes, hcheck]
  dsimp only
  rw [hset, if_neg (by decide), hread]
  dsimp only
  rw [if_neg (not_not_intro hctx)]
  rfl

theorem fdecl_spec {f : Fields} {s : State} {g : Group} {l : List (Nat × List Piece)} {s1 : State} {bs : List Byte} (h : Ready (.fdecl f) s g)
    (hcheck : s.check g { priv := false, peer := false } 128 [(0, s.readSP g f.a)] = .ok l) (hset : s.unsettled s.own.cur = false)
    (hread : (s.lookUps g [s.readSP g f.a]).readOwn s.own.cur g (l.flatMap (·.2)) = (s1, some bs)) (hctx : field bs 52 1 = g.ctx.toNat) :
    ∃ t, exec (.fdecl f) s = .next t ∧
      ((s1.declare g.ctx bs).2.1 = 0 → ∃ e, t.domain (field bs 12 2 % 4096) = some e ∧ e.state = .declaring ∧
        e.fdecl = some (s.own.cur, f.d.toNat)) ∧
      ((s1.declare g.ctx bs).2.1 ≠ 0 → t.domain (field bs 12 2 % 4096) = s.domain (field bs 12 2 % 4096) ∧
        Later s t g f.d.toNat [BitVec.ofNat 32 (s1.declare g.ctx bs).2.1] (nextPc g f)) := by
  have hlook : ReadsOnly s s1 := by
    have hown := readOwn_readsOnly (s.lookUps g [s.readSP g f.a]) s.own.cur g (l.flatMap (·.2))
    rw [hread] at hown
    exact (readsOnly_of_homesOnly (lookUps_homesOnly ..)).trans hown
  obtain ⟨hdeclare, hstate⟩ := declare_reads s1 g.ctx bs
  have hall := hlook.trans hdeclare.readsOnly
  have hgroup : (soiled (s1.declare g.ctx bs).1 g).group s.own.cur = some g :=
    ((soiled_prelude ..).group _).trans ((congrArg (Sparse.find · s.own.cur) hall.groups :).trans h.1)
  rw [execFdecl_of_read h hcheck hset hread hctx]
  by_cases hst : (s1.declare g.ctx bs).2.1 = 0
  · rw [if_neg (not_not_intro hst)]
    exact ⟨_, rfl, fun _ => ⟨_, (domain_advance ..).trans (beingDeclared_domain ..), hstate, rfl⟩, fun h => absurd hst h⟩
  · rw [if_pos hst]
    refine ⟨_, rfl, fun h => absurd h hst, fun _ => ⟨?_, later_advance hgroup ((soiled_mem ..).trans hall.mem) ((soiled_lands ..).trans hall.lands) ..⟩⟩
    rw [domain_advance, later_eq hgroup]
    exact congrArg (fun x : Fld => Sparse.find x.domains (field bs 12 2 % 4096)) ((soiled_fld ..).trans hall.fld)

/-! ### Domains that are not declared -/

theorem undeclared {f : Fields} {s : State} {g : Group} (hd : s.domain (s.readS g f.a).toNat = none) :
    ∀ c ∈ [Instr.ftot, Instr.fgup, Instr.fdrop, Instr.fattr], Ready (c f) s g →
      exec (c f) s = .next (s.trap s.own.cur .fdom g.ctl.exm 0 7) := by
  simp only [List.forall_mem_cons, List.not_mem_nil, false_imp_iff, implies_true, and_true]
  refine ⟨fun h => ?_, fun h => ?_, fun h => ?_, fun h => ?_⟩
  · change execFtot f s = _
    rw [execFtot, issue_of_ready h rfl]
    exact withDomain_of_none hd ..
  · change execFgup f s = _
    rw [execFgup, issue_of_ready h rfl]
    exact withDomain_of_none hd ..
  · change execFdrop f s = _
    rw [execFdrop, issue_of_ready h rfl]
    exact withDomain_of_none hd ..
  · change execFattr f s = _
    rw [execFattr, issue_of_ready h rfl]
    exact withDomain_of_none hd ..

/-- Settles O32: each instruction acts on the declared domain that it names, and a result that it starts lands later. -/
theorem domainInstructions : Obligations.DomainInstructions := by
  refine ⟨lands, fun f s g d => ⟨fun h hd => ⟨fun hfig => ?_, fun hfig => ftot_asks h hd hfig⟩, fun h hd hus => fgup_spec h hd hus,
    fun h hd howner hstate => ⟨fun hidle hall => fdrop_ends h hd howner hstate hidle hall,
      fun m hm hself hleft => fdrop_asks h hd howner hstate hm hself hleft⟩,
    fun c l s2 s3 b h hd hcell hdid hkind hrun hno hread hval hidle hroom => fattr_spec h hd hcell hdid hkind hrun hno hread hval hidle hroom,
    fun l s1 bs h hcheck hset hread hctx => fdecl_spec h hcheck hset hread hctx, fun c hc h hd => undeclared hd c hc h⟩⟩
  rw [execFtot_of_declared h hd, if_pos hfig]
  exact ⟨_, rfl, later_advance h.1 rfl rfl ..⟩

end Sys2Proof.Proofs
end

section
/-! Field messages on their way: over the mesh, and in packets of class 2 over the fabric (spec 15, R338; spec 21, R420 to R429). -/

namespace Sys2Proof.Proofs

open Sys2Proof Sys2Proof.Machine Sys2Proof.Claims

/-! ### A field message in a packet -/

/-- Packets of a context carry a field message. -/
def Carries (l : List Sent) (y : FMsg) : Prop := ∃ x ∈ l, x.p.body = .field y

/-- A field message is in the sending contexts of class 2 of a device, or a re-key holds it. -/
def Posted (s : State) (dev : Nat) (y : FMsg) : Prop :=
  ((∃ c ∈ s.fab.sctx, c.peer = dev ∧ c.cls = 2) ∧ ∀ c ∈ s.fab.sctx, c.peer = dev → c.cls = 2 → Carries c.pkts y) ∨
    ∃ h ∈ s.fab.held, h.1 = dev ∧ h.2.1 = 2 ∧ h.2.2.1.body = .field y

/-- Every field message that has been posted stays so. -/
structure KeepsPosted (s t : State) : Prop where
  posted : ∀ dev y, Posted s dev y → Posted t dev y

theorem KeepsPosted.refl (s : State) : KeepsPosted s s := ⟨fun _ _ h => h⟩

theorem KeepsPosted.trans {s t u : State} (h : KeepsPosted s t) (k : KeepsPosted t u) : KeepsPosted s u :=
  ⟨fun dev y hy => k.posted dev y (h.posted dev y hy)⟩

theorem keepsPosted_of_fab {s t : State} (hsctx : t.fab.sctx = s.fab.sctx) (hheld : t.fab.held = s.fab.held) : KeepsPosted s t :=
  ⟨fun dev y h => by unfold Posted at h ⊢; rwa [hsctx, hheld]⟩

/-- Contexts that are changed one by one, each keeping its key and the messages that it carries. -/
theorem keepsPosted_of_map {s t : State} (f : SendCtx → SendCtx) (hsctx : t.fab.sctx = s.fab.sctx.map f) (hheld : t.fab.held = s.fab.held)
    (hpeer : ∀ c, (f c).peer = c.peer) (hcls : ∀ c, (f c).cls = c.cls) (hcarries : ∀ c y, Carries c.pkts y → Carries (f c).pkts y) :
    KeepsPosted s t := by
  refine ⟨fun dev y h => ?_⟩
  rcases h with ⟨⟨c, hc, hcp, hcc⟩, hall⟩ | hheld'
  · refine .inl ⟨⟨f c, ?_, (hpeer c).trans hcp, (hcls c).trans hcc⟩, fun d hd hdp hdc => ?_⟩
    · rw [hsctx]
      exact List.mem_map_of_mem hc
    · rw [hsctx] at hd
      obtain ⟨c', hc', rfl⟩ := List.mem_map.mp hd
      exact hcarries c' y (hall c' hc' ((hpeer c').symm.trans hdp) ((hcls c').symm.trans hdc))
  · exact .inr (by rwa [hheld])

theorem emit_keepsPosted (s : State) (e : Effect) : KeepsPosted s (s.emit e) := keepsPosted_of_fab rfl rfl

theorem roomForCtx_keepsPosted (s : State) : KeepsPosted s s.roomForCtx := by
  unfold State.roomForCtx
  extract_lets full _ s' sending receiving old
  have hs : s'.fab.sctx = s.fab.sctx ∧ s'.fab.held = s.fab.held := by
    unfold s'
    split <;> exact ⟨rfl, rfl⟩
  have h : KeepsPosted s s' := keepsPosted_of_fab hs.1 hs.2
  split
  · exact h
  · split
    · refine h.trans (keepsPosted_of_map _ rfl rfl (fun c => ?_) (fun c => ?_) fun c y hy => ?_)
      · split <;> rfl
      · split <;> rfl
      · split <;> exact hy
    · exact h.trans (keepsPosted_of_fab rfl rfl)
    · exact h

theorem roomForCtx_keys (s : State) : s.roomForCtx.fab.sctx.map (fun c => (c.peer, c.cls)) = s.fab.sctx.map (fun c => (c.peer, c.cls)) := by
  unfold State.roomForCtx
  extract_lets full _ s' sending receiving old
  have hs : s'.fab.sctx = s.fab.sctx := by
    unfold s'
    split <;> rfl
  split
  · rw [hs]
  · split
    · simp only [updWhere, List.map_map, hs]
      refine List.map_congr_left fun c _ => ?_
      simp only [Function.comp_apply]
      split <;> rfl
    · rw [hs]
    · rw [hs]

theorem openCtx_keepsPosted (s : State) (peer cls : Nat) : KeepsPosted s (s.openCtx peer cls) := by
  unfold State.openCtx
  split
  · exact .refl s
  · rename_i hnone
    refine ⟨fun dev y h => ?_⟩
    rcases (roomForCtx_keepsPosted s).posted dev y h with ⟨⟨c, hc, hcp, hcc⟩, hall⟩ | hheld
    · refine .inl ⟨⟨c, List.mem_append_left _ hc, hcp, hcc⟩, fun d hd hdp hdc => ?_⟩
      rcases List.mem_append.mp hd with hold | hnew
      · exact hall d hold hdp hdc
      · obtain rfl := List.mem_singleton.mp hnew
        refine absurd ?_ hnone
        have hkey : (c.peer, c.cls) ∈ s.fab.sctx.map (fun c => (c.peer, c.cls)) := roomForCtx_keys s ▸ List.mem_map_of_mem hc
        obtain ⟨c0, hc0, heq⟩ := List.mem_map.mp hkey
        rw [Prod.mk.injEq] at heq
        rw [List.any_eq_true]
        refine ⟨c0, hc0, ?_⟩
        rw [Bool.and_eq_true, decide_eq_true_iff, decide_eq_true_iff]
        exact ⟨heq.1.trans (hcp.trans hdp.symm), heq.2.trans (hcc.trans hdc.symm)⟩
    · exact .inr hheld

theorem openCtx_open (s : State) (peer cls : Nat) : ∃ c ∈ (s.openCtx peer cls).fab.sctx, c.peer = peer ∧ c.cls = cls := by
  unfold State.openCtx
  split
  · rename_i h
    rw [List.any_eq_true] at h
    obtain ⟨c, hc, hkey⟩ := h
    rw [Bool.and_eq_true, decide_eq_true_iff, decide_eq_true_iff] at hkey
    exact ⟨c, hc, hkey⟩
  · exact ⟨_, List.mem_append_right _ (List.mem_singleton.mpr rfl), rfl, rfl⟩

/-- A context with one more packet, where it is that of a receiver and class. -/
def withPacket (peer cls : Nat) (p : Packet) (why : Purpose) (now : Nat) (c : SendCtx) : SendCtx :=
  if c.peer = peer && c.cls = cls then
    { c with
      next := c.next + 1
      pkts := c.pkts ++ [{ p := { p with ctxno := c.ctxno, pseq := c.next, kg := c.gen % 2 = 1 }, purpose := why, sent := false,
                           first := now, last := now }] }
  else c

/-- What a spent counter makes of the state first. -/
def readied (s : State) (peer cls : Nat) : State :=
  if s.spent peer cls && !s.rekeying then s.setRekey.emit (.control ctlRekey s.fab.kgen.toNat) else s

theorem letIn_eq (s : State) (peer cls : Nat) (p : Packet) (why : Purpose) :
    s.letIn peer cls p why =
      if ((readied s peer cls).holdsClass cls && !(readied s peer cls).begun peer cls p) || s.spent peer cls then
        { readied s peer cls with fab := { (readied s peer cls).fab with held := (readied s peer cls).fab.held ++ [(peer, cls, p, why)] } }
      else
        { (readied s peer cls).openCtx peer cls with fab := { ((readied s peer cls).openCtx peer cls).fab with
          sctx := ((readied s peer cls).openCtx peer cls).fab.sctx.map
            (withPacket peer cls p why ((readied s peer cls).openCtx peer cls).clock.toNat) } } := rfl

theorem readied_keepsPosted (s : State) (peer cls : Nat) : KeepsPosted s (readied s peer cls) := by
  unfold readied
  split
  · exact keepsPosted_of_fab rfl rfl
  · exact .refl s

theorem letIn_keepsPosted (s : State) (peer cls : Nat) (p : Packet) (why : Purpose) : KeepsPosted s (s.letIn peer cls p why) := by
  rw [letIn_eq]
  have h := readied_keepsPosted s peer cls
  split
  · refine h.trans ⟨fun dev y hy => ?_⟩
    rcases hy with hctx | ⟨x, hx, hrest⟩
    · exact .inl hctx
    · exact .inr ⟨x, List.mem_append_left _ hx, hrest⟩
  · refine (h.trans (openCtx_keepsPosted _ peer cls)).trans (keepsPosted_of_map _ rfl rfl (fun c => ?_) (fun c => ?_) fun c y hy => ?_)
    · unfold withPacket
      split <;> rfl
    · unfold withPacket
      split <;> rfl
    · unfold withPacket
      split
      · obtain ⟨x, hx, hbody⟩ := hy
        exact ⟨x, List.mem_append_left _ hx, hbody⟩
      · exact hy

theorem letIn_posted (s : State) (dev : Nat) {p : Packet} {y : FMsg} (hbody : p.body = .field y) (why : Purpose) :
    Posted (s.letIn dev 2 p why) dev y := by
  rw [letIn_eq]
  split
  · exact .inr ⟨_, List.mem_append_right _ (List.mem_singleton.mpr rfl), rfl, rfl, hbody⟩
  · obtain ⟨c, hc, hcp, hcc⟩ := openCtx_open (readied s dev 2) dev 2
    refine .inl ⟨⟨withPacket dev 2 p why _ c, List.mem_map_of_mem hc, ?_, ?_⟩, fun d hd hdp hdc => ?_⟩
    · unfold withPacket
      split <;> exact hcp
    · unfold withPacket
      split <;> exact hcc
    · obtain ⟨c', -, rfl⟩ := List.mem_map.mp hd
      unfold withPacket at hdp hdc ⊢
      by_cases hkey : (c'.peer = dev && c'.cls = 2) = true
      · rw [if_pos hkey]
        exact ⟨_, List.mem_append_right _ (List.mem_singleton.mpr rfl), hbody⟩
      · rw [if_neg hkey] at hdp hdc
        exact absurd (by simp [hdp, hdc]) hkey

/-- What a list of packets that are let in one after the other carries is posted. -/
theorem foldl_letIn (dev : Nat) (l : List Sent) (hunsent : ∀ x ∈ l, x.sent = false) (s : State) :
    KeepsPosted s (l.foldl (fun (s : State) x => if x.sent then s else s.letIn dev 2 x.p x.purpose) s) ∧
      ∀ y, Carries l y → Posted (l.foldl (fun (s : State) x => if x.sent then s else s.letIn dev 2 x.p x.purpose) s) dev y := by
  induction l generalizing s with
  | nil => exact ⟨.refl s, fun y ⟨x, hx, _⟩ => nomatch hx⟩
  | cons x l ih =>
    obtain ⟨hkeeps, hposts⟩ := ih (fun z hz => hunsent z (List.mem_cons_of_mem _ hz)) (s.letIn dev 2 x.p x.purpose)
    rw [List.foldl_cons, hunsent x List.mem_cons_self, if_neg (by decide)]
    refine ⟨(letIn_keepsPosted ..).trans hkeeps, fun y ⟨z, hz, hbody⟩ => ?_⟩
    rcases List.mem_cons.mp hz with rfl | hz
    · exact hkeeps.posted _ _ (letIn_posted s dev hbody _)
    · exact hposts y ⟨z, hz, hbody⟩

theorem foldl_letIn_keepsPosted (peer cls : Nat) (l : List Sent) (s : State) :
    KeepsPosted s (l.foldl (fun (s : State) x => if x.sent then s else s.letIn peer cls x.p x.purpose) s) := by
  refine foldl_rel KeepsPosted.refl KeepsPosted.trans l (fun t x _ => ?_) s
  split
  · exact .refl t
  · exact letIn_keepsPosted ..

theorem closeCtx_keepsPosted {s : State} {c : SendCtx} (hc : c ∈ s.fab.sctx) (hunsent : ∀ x ∈ c.pkts, x.sent = false) :
    KeepsPosted s (s.closeCtx c) := by
  refine ⟨fun dev y h => ?_⟩
  unfold State.closeCtx
  by_cases hkey : c.peer = dev ∧ c.cls = 2
  · obtain ⟨rfl, hcls⟩ := hkey
    rw [hcls]
    rcases h with ⟨-, hall⟩ | hheld
    · exact (foldl_letIn c.peer c.pkts hunsent _).2 y (hall c hc rfl hcls)
    · exact (foldl_letIn c.peer c.pkts hunsent _).1.posted _ _ (.inr hheld)
  · refine (foldl_letIn_keepsPosted c.peer c.cls c.pkts _).posted dev y ?_
    rcases h with ⟨⟨d, hd, hdp, hdc⟩, hall⟩ | hheld
    · refine .inl ⟨⟨d, List.mem_filter.mpr ⟨hd, ?_⟩, hdp, hdc⟩, fun e he => hall e (List.mem_of_mem_filter he)⟩
      rw [Bool.not_eq_true', Bool.and_eq_false_iff, decide_eq_false_iff_not, decide_eq_false_iff_not, hdp, hdc]
      by_cases hpeer : dev = c.peer
      · exact .inr fun hcls => hkey ⟨hpeer.symm, hcls.symm⟩
      · exact .inl hpeer
    · exact .inr hheld

/-- A context that has been quiet is closed before a packet is let in. -/
def roomMade (s : State) (peer cls : Nat) : State :=
  match s.fab.sctx.find? (fun c => c.peer = peer && c.cls = cls) with
  | none => s
  | some c => if c.quiet s.clock.toNat && !(s.rekeying && !c.pkts.isEmpty) then s.closeCtx c else s

theorem enqueue_eq (s : State) (peer cls : Nat) (p : Packet) (why : Purpose) : s.enqueue peer cls p why = (roomMade s peer cls).letIn peer cls p why := by
  unfold State.enqueue roomMade
  rfl

theorem roomMade_keepsPosted (s : State) (peer cls : Nat) : KeepsPosted s (roomMade s peer cls) := by
  unfold roomMade
  split
  · exact .refl s
  · rename_i c hc
    split
    · rename_i hquiet
      refine closeCtx_keepsPosted (List.mem_of_find?_eq_some hc) fun x hx => ?_
      rw [Bool.and_eq_true, SendCtx.quiet, Bool.and_eq_true, Bool.not_eq_true', List.any_eq_false] at hquiet
      exact Bool.eq_false_iff.mpr (hquiet.1.2 x hx)
    · exact .refl s

theorem enqueue_keepsPosted (s : State) (peer cls : Nat) (p : Packet) (why : Purpose) : KeepsPosted s (s.enqueue peer cls p why) := by
  rw [enqueue_eq]
  exact (roomMade_keepsPosted s peer cls).trans (letIn_keepsPosted ..)

theorem enqueue_posted (s : State) (dev : Nat) {p : Packet} {y : FMsg} (hbody : p.body = .field y) (why : Purpose) :
    Posted (s.enqueue dev 2 p why) dev y := by
  rw [enqueue_eq]
  exact letIn_posted _ dev hbody why

theorem sendList_carries (s : State) (rot : Nat) (l : List Sent) (n : Nat) {y : FMsg} (h : Carries l y) :
    Carries (sendList s rot l n).2.1 y := by
  induction l generalizing rot n with
  | nil => exact h
  | cons x l ih =>
    obtain ⟨z, hz, hbody⟩ := h
    have hcons {x' : Sent} {rot' n' : Nat} (hx : x'.p.body = x.p.body) : Carries (x' :: (sendList s rot' l n').2.1) y := by
      rcases List.mem_cons.mp hz with rfl | hz
      · exact ⟨x', List.mem_cons_self, hx.trans hbody⟩
      · obtain ⟨w, hw, hwb⟩ := ih rot' n' ⟨z, hz, hbody⟩
        exact ⟨w, List.mem_cons_of_mem _ hw, hwb⟩
    unfold sendList
    split
    · exact hcons rfl
    · split
      · exact ⟨z, hz, hbody⟩
      · split
        · exact ⟨z, hz, hbody⟩
        · exact hcons rfl

/-- One context has sent what it may. -/
def flushOne (s : State) (c : SendCtx) : State :=
  if !c.cached then s else
  let r := sendList s c.plane c.pkts 0
  let t := r.1.foldl (fun (s : State) p => s.emit (.packet p.plane p)) s
  { t with fab := { t.fab with
      outmsgs := t.fab.outmsgs.map (fun m => m.started t.giveUpClock c.peer c.cls r.1)
      sctx := t.fab.sctx.map (fun d => if d.peer = c.peer && d.cls = c.cls then
        { d with pkts := r.2.1, plane := r.2.2, last := if r.1.isEmpty then d.last else t.clock.toNat } else d) } }

theorem flush_eq (s : State) : s.flush = s.fab.sctx.foldl flushOne s := rfl

theorem foldl_emit_fab (l : List Packet) (s : State) : (l.foldl (fun (s : State) p => s.emit (.packet p.plane p)) s).fab = s.fab :=
  foldl_rel (R := fun s t : State => t.fab = s.fab) (fun _ => rfl) (fun h k => k.trans h) l (fun t p _ => State.emit_fab t (.packet p.plane p)) s

theorem foldl_emit_clock (l : List Packet) (s : State) : (l.foldl (fun (s : State) p => s.emit (.packet p.plane p)) s).clock = s.clock :=
  foldl_rel (R := fun s t : State => t.clock = s.clock) (fun _ => rfl) (fun h k => k.trans h) l
    (fun t p _ => State.emit_clock t (.packet p.plane p)) s

/-- The contexts of a device carry a message. -/
def InContexts (s : State) (dev : Nat) (y : FMsg) : Prop :=
  (∃ c ∈ s.fab.sctx, c.peer = dev ∧ c.cls = 2) ∧ ∀ c ∈ s.fab.sctx, c.peer = dev → c.cls = 2 → Carries c.pkts y

theorem flushOne_inContexts {t : State} {c : SendCtx} {dev : Nat} {y : FMsg} (h : InContexts t dev y)
    (hc : c.peer = dev → c.cls = 2 → Carries c.pkts y) : InContexts (flushOne t c) dev y := by
  unfold flushOne
  split
  · exact h
  · obtain ⟨⟨d, hd, hdp, hdc⟩, hall⟩ := h
    unfold InContexts
    simp only [foldl_emit_fab]
    refine ⟨⟨_, List.mem_map_of_mem hd, ?_, ?_⟩, fun e he hep hec => ?_⟩
    · split <;> exact hdp
    · split <;> exact hdc
    · obtain ⟨e', he', rfl⟩ := List.mem_map.mp he
      by_cases hkey : (e'.peer = c.peer && e'.cls = c.cls) = true
      · rw [if_pos hkey] at hep hec ⊢
        rw [Bool.and_eq_true, decide_eq_true_iff, decide_eq_true_iff] at hkey
        exact sendList_carries _ _ _ _ (hc (hkey.1.symm.trans hep) (hkey.2.symm.trans hec))
      · rw [if_neg hkey] at hep hec ⊢
        exact hall e' he' hep hec

theorem flushOne_held (t : State) (c : SendCtx) : (flushOne t c).fab.held = t.fab.held := by
  unfold flushOne
  split
  · rfl
  · exact (congrArg Fab.held (foldl_emit_fab (sendList t c.plane c.pkts 0).1 t) :)

theorem flush_keepsPosted (s : State) : KeepsPosted s s.flush := by
  refine ⟨fun dev y h => ?_⟩
  rw [flush_eq]
  rcases h with hctx | hheld
  · exact .inl (List.foldlRecOn (motive := fun t => InContexts t dev y) s.fab.sctx flushOne hctx
      fun t ht c hc => flushOne_inContexts ht fun hp hcls => hctx.2 c hc hp hcls)
  · refine .inr ?_
    rw [foldl_rel (R := fun s t : State => t.fab.held = s.fab.held) (fun _ => rfl) (fun h k => k.trans h) s.fab.sctx
      (fun t c _ => flushOne_held t c) s]
    exact hheld

/-! ### The clock of the give-up time -/

theorem giveUpClock_congr {s t : State} (hdomst : t.fab.domst = s.fab.domst) (hat : t.fab.rekeyAt = s.fab.rekeyAt) (hclock : t.clock = s.clock) :
    t.giveUpClock = s.giveUpClock := by
  unfold State.giveUpClock State.rekeying
  rw [hdomst, hat, hclock]

/-- The device's state in the trust domain stays, and the clock. -/
structure SameDomst (s t : State) : Prop where
  domst : t.fab.domst = s.fab.domst
  rekeyAt : t.fab.rekeyAt = s.fab.rekeyAt
  clock : t.clock = s.clock

theorem SameDomst.refl (s : State) : SameDomst s s := ⟨rfl, rfl, rfl⟩

theorem SameDomst.giveUpClock {s t : State} (h : SameDomst s t) : t.giveUpClock = s.giveUpClock := giveUpClock_congr h.domst h.rekeyAt h.clock

theorem SameDomst.trans {s t u : State} (h : SameDomst s t) (k : SameDomst t u) : SameDomst s u :=
  ⟨k.domst.trans h.domst, k.rekeyAt.trans h.rekeyAt, k.clock.trans h.clock⟩

theorem roomForCtx_sameDomst (s : State) : SameDomst s s.roomForCtx := by
  unfold State.roomForCtx
  extract_lets full _ s' sending receiving old
  have hs : SameDomst s s' := by
    unfold s'
    split
    · exact ⟨rfl, rfl, rfl⟩
    · exact .refl s
  split
  · exact hs
  · split
    · exact hs.trans ⟨rfl, rfl, rfl⟩
    · exact hs.trans ⟨rfl, rfl, rfl⟩
    · exact hs

theorem openCtx_sameDomst (s : State) (peer cls : Nat) : SameDomst s (s.openCtx peer cls) := by
  unfold State.openCtx
  split
  · exact .refl s
  · exact (roomForCtx_sameDomst s).trans ⟨rfl, rfl, rfl⟩

/-- A re-key that begins stops the clock where it stands. -/
theorem readied_giveUpClock (s : State) (peer cls : Nat) : (readied s peer cls).giveUpClock = s.giveUpClock := by
  unfold readied
  split
  · rename_i h
    rw [Bool.and_eq_true, Bool.not_eq_true'] at h
    have hnow : (s.setRekey.emit (.control ctlRekey s.fab.kgen.toNat)).rekeying = true := by
      have hbit (x : Word) : (x ||| 2).getLsbD 1 = true := by simp
      exact hbit _
    rw [State.giveUpClock, State.giveUpClock, hnow, h.2]
    rfl
  · rfl

theorem letIn_giveUpClock (s : State) (peer cls : Nat) (p : Packet) (why : Purpose) : (s.letIn peer cls p why).giveUpClock = s.giveUpClock := by
  rw [letIn_eq]
  split
  · exact readied_giveUpClock s peer cls
  · exact (openCtx_sameDomst (readied s peer cls) peer cls).giveUpClock.trans (readied_giveUpClock s peer cls)

theorem closeCtx_giveUpClock (s : State) (c : SendCtx) : (s.closeCtx c).giveUpClock = s.giveUpClock := by
  unfold State.closeCtx
  refine (foldl_rel (R := fun s t : State => t.giveUpClock = s.giveUpClock) (fun _ => rfl) (fun h k => k.trans h) c.pkts (fun t x _ => ?_) _).trans rfl
  split
  · rfl
  · exact letIn_giveUpClock ..

theorem enqueue_giveUpClock (s : State) (peer cls : Nat) (p : Packet) (why : Purpose) : (s.enqueue peer cls p why).giveUpClock = s.giveUpClock := by
  rw [enqueue_eq, letIn_giveUpClock]
  unfold roomMade
  split
  · rfl
  · split
    · exact closeCtx_giveUpClock ..
    · rfl

theorem flush_giveUpClock (s : State) : s.flush.giveUpClock = s.giveUpClock := by
  rw [flush_eq]
  refine foldl_rel (R := fun s t : State => t.giveUpClock = s.giveUpClock) (fun _ => rfl) (fun h k => k.trans h) s.fab.sctx (fun t c _ => ?_) s
  unfold flushOne
  split
  · rfl
  · have hfab := foldl_emit_fab (sendList t c.plane c.pkts 0).1 t
    exact giveUpClock_congr (congrArg Fab.domst hfab :) (congrArg Fab.rekeyAt hfab :) (foldl_emit_clock _ t)

/-! ### Messages of a transfer -/

/-- The fields that messages change, as they were in `s`. -/
def unmailed (s t : State) : State :=
  { t with own := { t.own with ids := s.own.ids, outbox := s.own.outbox }, fab := s.fab, fld := { t.fld with msgs := s.fld.msgs } }

/-- The messages that were on their way are so still. -/
structure Onward (s t : State) : Prop where
  ids : s.own.ids ≤ t.own.ids
  msgs : s.fld.msgs ⊆ t.fld.msgs
  posted : KeepsPosted s t
  giveUp : t.giveUpClock = s.giveUpClock

theorem Onward.refl (s : State) : Onward s s := ⟨Nat.le_refl _, List.Subset.refl _, .refl s, rfl⟩

theorem Onward.trans {s t u : State} (h : Onward s t) (k : Onward t u) : Onward s u where
  ids := Nat.le_trans h.ids k.ids
  msgs := List.Subset.trans h.msgs k.msgs
  posted := h.posted.trans k.posted
  giveUp := k.giveUp.trans h.giveUp

/-- Messages are sent: what was on its way stays so, and nothing else of the device changes. -/
structure Mails (s t : State) : Prop extends Onward s t where
  rest : unmailed s t = s

theorem Mails.refl (s : State) : Mails s s := ⟨.refl s, rfl⟩

theorem Mails.trans {s t u : State} (h : Mails s t) (k : Mails t u) : Mails s u :=
  ⟨h.toOnward.trans k.toOnward, (congrArg (unmailed s) k.rest).trans h.rest⟩

theorem Mails.mem {s t : State} (h : Mails s t) : t.mem = s.mem := (congrArg State.mem h.rest :)
theorem Mails.nodes {s t : State} (h : Mails s t) : t.nodes = s.nodes := (congrArg State.nodes h.rest :)
theorem Mails.node {s t : State} (h : Mails s t) (n : Nat) : t.node n = s.node n := by rw [State.node, State.node, h.nodes]
theorem Mails.groups {s t : State} (h : Mails s t) : t.groups = s.groups := (congrArg State.groups h.rest :)
theorem Mails.clock {s t : State} (h : Mails s t) : t.clock = s.clock := (congrArg State.clock h.rest :)

theorem send_mails (s : State) (m : FMsg) : Mails s (s.send m) :=
  ⟨⟨Nat.le_succ _, List.subset_append_left _ _, keepsPosted_of_fab rfl rfl, rfl⟩, rfl⟩

/-- A message that `t` has on its way, sent since `s`: to a home of this device, or to another device. -/
def Mailed (s t : State) (fabric : Bool) (dev : Nat) (y : FMsg) : Prop :=
  if fabric then Posted t dev y else ∃ i p, s.own.ids ≤ i ∧ (i, y, p) ∈ t.fld.msgs

theorem mailed_send (s : State) (dev : Nat) (m : FMsg) : Mailed s (s.send m) false dev m :=
  ⟨s.own.ids, none, Nat.le_refl _, List.mem_append_right _ (List.mem_singleton.mpr rfl)⟩

theorem Mailed.later {s t u : State} {fabric : Bool} {dev : Nat} {y : FMsg} (h : Mailed s t fabric dev y) (k : Onward t u) :
    Mailed s u fabric dev y := by
  cases fabric
  · obtain ⟨i, p, hi, hin⟩ := h
    exact ⟨i, p, hi, k.msgs hin⟩
  · exact k.posted.posted dev y h

theorem Mailed.since {s t u : State} {fabric : Bool} {dev : Nat} {y : FMsg} (h : Mailed t u fabric dev y) (hids : s.own.ids ≤ t.own.ids) :
    Mailed s u fabric dev y := by
  cases fabric
  · obtain ⟨i, p, hi, hin⟩ := h
    exact ⟨i, p, Nat.le_trans hids hi, hin⟩
  · exact h

/-- A message as it leaves for a home. -/
def addressed (m : FMsg) (dev home tag : Nat) : FMsg := { m with dev := dev, home := home, dctx := tag }

theorem sendField_mails (s : State) (fabric : Bool) (dev home tag : Nat) (m : FMsg) : Mails s (s.sendField fabric dev home tag m) := by
  unfold State.sendField
  cases fabric
  · exact send_mails s _
  · have hsent : SentOnly s ((s.newMsg.enqueue dev 2 (s.packet 4 2 dev false tag s.fab.msgid 0 1 (.field (addressed m dev home tag))) .field).flush) :=
      SentOnly.trans (SentOnly.trans (.fab s _) (enqueue_sent s.newMsg ..)) (flush_sent _)
    refine ⟨⟨?_, ?_, ?_, ?_⟩, (congrArg (unmailed s) hsent.rest :)⟩
    · exact Nat.le_of_eq (congrArg (fun x : State => x.own.ids) hsent.rest :).symm
    · have hmsgs := (congrArg (fun x : State => x.fld.msgs) hsent.rest :)
      exact fun _ h => hmsgs ▸ h
    · exact ((keepsPosted_of_fab rfl rfl : KeepsPosted s s.newMsg).trans (enqueue_keepsPosted ..)).trans (flush_keepsPosted _)
    · exact (flush_giveUpClock _).trans ((enqueue_giveUpClock ..).trans rfl)

theorem sendField_mailed (s : State) (fabric : Bool) (dev home tag : Nat) (m : FMsg) :
    Mailed s (s.sendField fabric dev home tag m) fabric dev (addressed m dev home tag) := by
  unfold State.sendField
  cases fabric
  · exact mailed_send s dev _
  · exact (flush_keepsPosted _).posted _ _ (enqueue_posted s.newMsg dev rfl .field)

end Sys2Proof.Proofs
end

section
/-! The messages of a transfer at its homes (spec 15, R341 to R345, R477). -/

namespace Sys2Proof.Proofs

open Sys2Proof Sys2Proof.Machine Sys2Proof.Claims

/-! ### A message that has been acted on -/

theorem onMsg_acts {s u : State} {m : Nat} {k : FKind} {d : FMsg} {p : Option Packet} (h : Stands s m k d p)
    {ready : State → FMsg → Option Packet → Bool} (hready : ready s d p = true) {f : State → FMsg → Option Packet → Option (State × Bool)}
    (hf : f s d p = some (u, true)) : onMsg s m k ready f = .next (u.acted m p) := by
  simp only [onMsg, h.msg, hready, h.free, hf, Bool.not_true, Bool.false_eq_true, if_false, if_true]

theorem stands_kind {s : State} {m : Nat} {k : FKind} {d : FMsg} {p : Option Packet} (h : Stands s m k d p) : d.kind = k := by
  have hmsg := h.msg
  unfold State.fieldMsg at hmsg
  split at hmsg
  · cases hmsg
  · split at hmsg
    next x _ hk =>
      have hx : x.2 = (d, p) := Option.some.inj hmsg
      rwa [hx] at hk
    next => cases hmsg

theorem ackPacket_sent (s : State) (p : Packet) (status : Nat) : SentOnly s (s.ackPacket p status) := by
  unfold State.ackPacket
  extract_lets key note _ s1
  have h : SentOnly s s1 := .fab s _
  split
  · exact h
  · exact h.trans (emit_sent s1 _)

theorem ackPacket_keepsPosted (s : State) (p : Packet) (status : Nat) : KeepsPosted s (s.ackPacket p status) := by
  unfold State.ackPacket
  extract_lets key note _ s1
  have h : KeepsPosted s s1 := keepsPosted_of_fab rfl rfl
  split
  · exact h
  · exact h.trans (emit_keepsPosted s1 _)

/-- A message is gone. -/
def withoutMsg (s : State) (m : Nat) : State :=
  { s with fld := { s.fld with msgs := s.fld.msgs.filter (fun x => x.1 ≠ m), parked := s.fld.parked.filter (· ≠ m) } }

theorem acted_sent (s : State) (m : Nat) (p : Option Packet) : SentOnly (withoutMsg s m) (s.acted m p) := by
  cases p with
  | none => exact .refl _
  | some q => exact ackPacket_sent (withoutMsg s m) q 0

theorem acted_keepsPosted (s : State) (m : Nat) (p : Option Packet) : KeepsPosted s (s.acted m p) := by
  have h : KeepsPosted s (withoutMsg s m) := keepsPosted_of_fab rfl rfl
  cases p with
  | none => exact h
  | some q => exact h.trans (ackPacket_keepsPosted (withoutMsg s m) q 0)

theorem acted_fld (s : State) (m : Nat) (p : Option Packet) : (s.acted m p).fld = (withoutMsg s m).fld := (congrArg State.fld (acted_sent s m p).rest :)
theorem acted_mem (s : State) (m : Nat) (p : Option Packet) : (s.acted m p).mem = s.mem := (congrArg State.mem (acted_sent s m p).rest :)
theorem acted_nodes (s : State) (m : Nat) (p : Option Packet) : (s.acted m p).nodes = s.nodes := (congrArg State.nodes (acted_sent s m p).rest :)
theorem acted_groups (s : State) (m : Nat) (p : Option Packet) : (s.acted m p).groups = s.groups := (congrArg State.groups (acted_sent s m p).rest :)
theorem acted_node (s : State) (m : Nat) (p : Option Packet) (n : Nat) : (s.acted m p).node n = s.node n := by
  rw [State.node, State.node, acted_nodes]

theorem acted_gone (s : State) (m : Nat) (p : Option Packet) : Gone (s.acted m p) m := by
  intro y hy
  rw [acted_fld] at hy
  simpa using (List.mem_filter.mp hy).2

/-- A message that has been sent since `s`, whose identity is therefore another, is on its way when the message has been acted on. -/
theorem sends_of_mailed {s u : State} {fabric : Bool} {dev : Nat} {y : FMsg} (h : Mailed s u fabric dev y) {m : Nat} (hm : m < s.own.ids)
    (q : Option Packet) {P : FMsg → Prop} (hy : P y) : Sends (u.acted m q) fabric dev P := by
  unfold Sends
  cases fabric
  · obtain ⟨i, p, hi, hin⟩ := h
    refine ⟨(i, y, p), ?_, hy⟩
    rw [acted_fld]
    exact List.mem_filter.mpr ⟨hin, by simpa using (by omega : i ≠ m)⟩
  · rcases (acted_keepsPosted u m q).posted dev y h with ⟨⟨c, hc, hcp, hcc⟩, hall⟩ | ⟨x, hx, hxp, hxc, hbody⟩
    · obtain ⟨x, hx, hbody⟩ := hall c hc hcp hcc
      exact .inl ⟨c, hc, hcp, hcc, x, hx, y, hbody, hy⟩
    · exact .inr ⟨x, hx, hxp, hxc, y, hbody, hy⟩

/-- The same where no message has been acted on. -/
theorem sends_of_mailed_now {s u : State} {fabric : Bool} {dev : Nat} {y : FMsg} (h : Mailed s u fabric dev y) {P : FMsg → Prop} (hy : P y) :
    Sends u fabric dev P := by
  unfold Sends
  cases fabric
  · obtain ⟨i, p, -, hin⟩ := h
    exact ⟨(i, y, p), hin, hy⟩
  · rcases h with ⟨⟨c, hc, hcp, hcc⟩, hall⟩ | ⟨x, hx, hxp, hxc, hbody⟩
    · obtain ⟨x, hx, hbody⟩ := hall c hc hcp hcc
      exact .inl ⟨c, hc, hcp, hcc, x, hx, y, hbody, hy⟩
    · exact .inr ⟨x, hx, hxp, hxc, y, hbody, hy⟩

/-! ### Records -/

theorem mortar_congr {s t : State} {n : Nat} (h : (t.node n).home = (s.node n).home) (q : Nat) : t.mortar n q = s.mortar n q := by
  rw [State.mortar, State.mortar, h]

theorem acted_mortar (s : State) (m : Nat) (p : Option Packet) (n q : Nat) : (s.acted m p).mortar n q = s.mortar n q :=
  mortar_congr (by rw [acted_node]) q

theorem Mails.mortar {s t : State} (h : Mails s t) (n q : Nat) : t.mortar n q = s.mortar n q := mortar_congr (by rw [h.node]) q

theorem mortar_seq {s : State} {n q : Nat} {r : Mortar} (h : s.mortar n q = some r) : r.seq = q := by
  have := List.find?_some h
  simpa using this

theorem node_modHome (s : State) (n : Nat) (f : Home → Home) : ((s.modHome n f).node n).home = f (s.node n).home := by
  rw [State.modHome, State.node_modNode]

theorem node_modHome_other (s : State) {n j : Nat} (f : Home → Home) (h : j ≠ n) : (s.modHome n f).node j = s.node j := by
  rw [State.modHome, State.modNode, State.node_setNode_other _ _ h]

theorem find_updWhere_seq {l : List Mortar} {q : Nat} {r : Mortar} (h : l.find? (fun m => m.seq = q) = some r) {f : Mortar → Mortar}
    (hf : (f r).seq = q) : (updWhere l (fun m => m.seq = q) f).find? (fun m => m.seq = q) = some (f r) := by
  induction l with
  | nil => cases h
  | cons x l ih =>
    rw [List.find?_cons] at h
    by_cases hx : x.seq = q
    · rw [decide_eq_true hx] at h
      obtain rfl := Option.some.inj h
      simp [updWhere, hx, hf]
    · rw [decide_eq_false hx] at h
      have := ih h
      simp only [updWhere, List.map_cons, decide_eq_false hx, Bool.false_eq_true, if_false, List.find?_cons]
      exact this

theorem mortar_setMortar {s : State} {q : Nat} {r : Mortar} (h : s.mortar (seqHome q) q = some r) {f : Mortar → Mortar} (hf : (f r).seq = q) :
    (s.setMortar q f).mortar (seqHome q) q = some (f r) := by
  rw [State.mortar, State.setMortar, node_modHome]
  exact find_updWhere_seq h hf

/-- A record that takes another's place. -/
theorem mortar_replaced {s : State} {q : Nat} {r r' : Mortar} (h : s.mortar (seqHome q) q = some r) (hseq : r'.seq = r.seq) :
    (s.setMortar r.seq (fun _ => r')).mortar (seqHome q) q = some r' := by
  obtain rfl := mortar_seq h
  exact mortar_setMortar h (f := fun _ => r') hseq

theorem mortar_freeMortar (s : State) (q : Nat) : (s.freeMortar q).mortar (seqHome q) q = none := by
  rw [State.mortar, State.freeMortar, node_modHome, List.find?_eq_none]
  intro x hx
  simpa using (List.mem_filter.mp hx).2

/-- What stands before the homes, and is on its way, stays as it is. -/
theorem onward_of_same {s t : State} (hown : t.own = s.own) (hfld : t.fld = s.fld) (hfab : t.fab = s.fab) (hclock : t.clock = s.clock) : Onward s t :=
  ⟨by rw [hown], by rw [hfld]; exact List.Subset.refl _, keepsPosted_of_fab (by rw [hfab]) (by rw [hfab]),
    giveUpClock_congr (by rw [hfab]) (by rw [hfab]) hclock⟩

theorem modHome_onward (s : State) (n : Nat) (f : Home → Home) : Onward s (s.modHome n f) := onward_of_same rfl rfl rfl rfl

/-! ### Cells -/

theorem WroteHome.onward {s t : State} (h : WroteHome s t) : Onward s t := by
  have hids := (congrArg Own.ids h.writes.own :)
  have hfab := (congrArg State.fab h.writes.rest :)
  exact ⟨Nat.le_of_eq hids.symm, by rw [(congrArg State.fld h.writes.rest :)]; exact List.Subset.refl _,
    keepsPosted_of_fab (by rw [hfab]) (by rw [hfab]), giveUpClock_congr (by rw [hfab]) (by rw [hfab]) (congrArg State.clock h.writes.rest :)⟩

theorem WroteHome.home {s t : State} (h : WroteHome s t) (n : Nat) : (t.node n).home = (s.node n).home := (congrArg Node.home (h.writes.nodes n) :)

theorem WroteHome.fld {s t : State} (h : WroteHome s t) : t.fld = s.fld := (congrArg State.fld h.writes.rest :)

theorem readCell_clean {s : State} {il key n : Nat} (h : Clean s il key n) :
    s.readCell il key n = ((s.readAt il key n).1, some (signed n (Mem.num s.mem key n))) := by
  rw [State.readCell, readAt_clean h]
  rfl

theorem writeCell_wroteHome (s : State) (il key n : Nat) (x : Int) (rel : Option (Nat × Nat)) : WroteHome s (s.writeCell il key n x rel) :=
  writeAt_wroteHome ..

/-- A cell that is read and written in one step. -/
theorem writeCell_read_mem {s : State} {il key n : Nat} (h : Clean s il key n) (x : Int) (rel : Option (Nat × Nat)) :
    ((s.readAt il key n).1.writeCell il key n x rel).mem = Mem.wrBytes s.mem key (signedBytes n x) :=
  (writeAt_clean (clean_readAt h n) ..).trans (congrArg (Mem.wrBytes · key _) (readAt_readHome s il key n).mem_eq)

theorem num_wrBytes_signed (m : Mem) (key n : Nat) (x : Int) : (Mem.num (Mem.wrBytes m key (signedBytes n x)) key n : Int) = x % (2 ^ (8 * n) : Nat) := by
  have hpos : (0 : Int) < ((2 ^ (8 * n) : Nat) : Int) := by exact_mod_cast Nat.two_pow_pos (8 * n)
  have hnonneg := Int.emod_nonneg x (Int.ne_of_gt hpos)
  have hlt := Int.emod_lt_of_pos x hpos
  rw [signedBytes, num_wrBytes, Nat.mod_eq_of_lt (by omega), Int.toNat_of_nonneg hnonneg]

theorem rd_wrBytes_signed (m : Mem) {key n k : Nat} (x : Int) (h : k < key ∨ key + n ≤ k) :
    Mem.rd (Mem.wrBytes m key (signedBytes n x)) k = Mem.rd m k := by
  refine Mem.rd_wrBytes_outside _ _ _ ?_
  rw [signedBytes, leBytes_length]
  omega

theorem gains_of_mem {s t : State} {key n : Nat} {amt : Int}
    (h : t.mem = Mem.wrBytes s.mem key (signedBytes n (signed n (Mem.num s.mem key n) + amt))) : Gains s t key n amt := by
  refine ⟨by rw [h, num_wrBytes_signed], fun k hk => by rw [h, rd_wrBytes_signed _ _ hk]⟩

theorem addCell_spec {s : State} {il key n : Nat} (h : Clean s il key n) (x : Int) (rel : Option (Nat × Nat)) :
    WroteHome s (s.addCell il key n x rel) ∧
      (s.addCell il key n x rel).mem = Mem.wrBytes s.mem key (signedBytes n (signed n (Mem.num s.mem key n) + x)) := by
  rw [State.addCell, readCell_clean h]
  exact ⟨(readAt_readHome s il key n).wroteHome.trans (writeCell_wroteHome ..), writeCell_read_mem h _ rel⟩

/-! ### What a record sends -/

theorem sendOffer_mails (s : State) (r : Mortar) (k : FKind) : Mails s (s.sendOffer r k) := sendField_mails ..

/-- The OFFER, CREDIT or CANCEL of a record. -/
structure OfOffer (r : Mortar) (k : FKind) (y : FMsg) : Prop where
  kind : y.kind = k
  mseq : y.mseq = r.seq
  amt : y.amt = r.amt
  addr : y.addr = r.daddr
  lmask : y.lmask = r.lmask

theorem sendOffer_mailed (s : State) (r : Mortar) (k : FKind) : ∃ y, Mailed s (s.sendOffer r k) r.fabric r.ddev y ∧ OfOffer r k y :=
  ⟨_, sendField_mailed .., rfl, rfl, rfl, rfl, rfl⟩

theorem sendAck_mails (s : State) (dev mseq tag did : Nat) : Mails s (s.sendAck dev mseq tag did) := sendField_mails ..

/-- The status of a lane as it is sent. -/
structure OfStatus (r : Mortar) (reason : Nat) (y : FMsg) : Prop where
  kind : y.kind = .status
  home : y.home = r.icore
  xid : y.xid = r.xid
  lane : y.lane = r.lane
  reason : y.reason = reason

theorem sendStatus_mails (s : State) (r : Mortar) (code reason : Nat) : Mails s (s.sendStatus r code reason) := send_mails ..

theorem sendStatus_mailed (s : State) (r : Mortar) (code reason : Nat) :
    ∃ y, Mailed s (s.sendStatus r code reason) false 0 y ∧ OfStatus r (code + 16 * reason) y :=
  ⟨_, mailed_send .., rfl, rfl, rfl, rfl, rfl⟩

theorem withdrawn_of_noQueue {s : State} {r : Mortar} (h : NoQueue s r.did) (code : Nat) : s.withdrawn r code = s := by
  unfold State.withdrawn
  split
  · rfl
  · rename_i d hd
    rw [State.complete, h d hd, if_pos rfl]

theorem noQueue_congr {s t : State} (h : t.fld.domains = s.fld.domains) {did : Nat} (hs : NoQueue s did) : NoQueue t did := by
  intro d hd
  refine hs d ?_
  rw [State.domain, ← h]
  exact hd

/-- What a record gives back to its origin, freed or not. -/
theorem giveBack_spec {s : State} {r : Mortar} (h : Clean s r.oil r.okey (if r.q64 then 8 else 4)) :
    WroteHome s (s.giveBack r) ∧ (s.giveBack r).mem = Mem.wrBytes s.mem r.okey
      (signedBytes (if r.q64 then 8 else 4) (signed (if r.q64 then 8 else 4) (Mem.num s.mem r.okey (if r.q64 then 8 else 4)) + r.amt)) :=
  addCell_spec h r.amt none

/-- A record that gives its amount back with a status is freed. -/
theorem refund_spec {s : State} {r : Mortar} {code : Nat} (reason : Nat) (hclean : Clean s r.oil r.okey (if r.q64 then 8 else 4))
    (hcq : code = 3 ∨ NoQueue s r.did) :
    Onward s (s.refund r code reason) ∧ (s.refund r code reason).mem = (s.giveBack r).mem ∧
      (s.refund r code reason).mortar (seqHome r.seq) r.seq = none ∧
      ∃ y, Mailed s (s.refund r code reason) false 0 y ∧ OfStatus r (code + 16 * reason) y := by
  obtain ⟨hwrote, -⟩ := giveBack_spec hclean
  have hfreed : Onward s ((s.giveBack r).freeMortar r.seq) := hwrote.onward.trans (modHome_onward ..)
  have hstatus := sendStatus_mails ((s.giveBack r).freeMortar r.seq) r code reason
  obtain ⟨y, hy, hof⟩ := sendStatus_mailed ((s.giveBack r).freeMortar r.seq) r code reason
  have hnone : (((s.giveBack r).freeMortar r.seq).sendStatus r code reason).mortar (seqHome r.seq) r.seq = none :=
    (hstatus.mortar ..).trans (mortar_freeMortar ..)
  have hwithdrawn : (if code = 3 then ((s.giveBack r).freeMortar r.seq).sendStatus r code reason
      else (((s.giveBack r).freeMortar r.seq).sendStatus r code reason).withdrawn r code) =
      ((s.giveBack r).freeMortar r.seq).sendStatus r code reason := by
    rcases hcq with h3 | hq
    · rw [if_pos h3]
    · have hq' : NoQueue (((s.giveBack r).freeMortar r.seq).sendStatus r code reason) r.did :=
        noQueue_congr (congrArg Fld.domains hwrote.fld :) hq
      rw [withdrawn_of_noQueue hq', ite_self]
  rw [State.refund]
  simp only [hwithdrawn]
  split
  · have hack := sendAck_mails (((s.giveBack r).freeMortar r.seq).sendStatus r code reason) r.ddev r.seq
      ((((s.giveBack r).freeMortar r.seq).sendStatus r code reason).fieldTag r.did) r.did
    exact ⟨(hfreed.trans hstatus.toOnward).trans hack.toOnward, hack.mem.trans hstatus.mem,
      (hack.mortar ..).trans hnone, y, (hy.later hack.toOnward).since hfreed.ids, hof⟩
  · exact ⟨hfreed.trans hstatus.toOnward, hstatus.mem, hnone, y, hy.since hfreed.ids, hof⟩

/-! ### What the origin home does with an answer -/

section answers

variable {s : State} {m : Nat} {d : FMsg} {p : Option Packet} {r : Mortar} (hr : s.mortar (seqHome d.mseq) d.mseq = some r)

include hr

theorem accept_offered (h : Stands s m .accept d p) (hstate : r.state = .offered) :
    ∃ t, exec (.accept m) s = .next t ∧ Gone t m ∧ t.mem = s.mem ∧
      t.mortar (seqHome d.mseq) d.mseq = some { r with state := .crediting } ∧
      Sends t r.fabric r.ddev (fun y => y.kind = .credit ∧ y.mseq = r.seq ∧ y.amt = r.amt) := by
  change ∃ t, execAccept m s = .next t ∧ _
  rw [execAccept, onMsg_acts h (u := (s.setMortar r.seq (fun _ => { r with state := .crediting })).sendOffer { r with state := .crediting } .credit)
    rfl (by simp only [hr, hstate]; rfl)]
  have hmails := sendOffer_mails (s.setMortar r.seq (fun _ => { r with state := .crediting })) { r with state := .crediting } .credit
  obtain ⟨y, hy, hof⟩ := sendOffer_mailed (s.setMortar r.seq (fun _ => { r with state := .crediting })) { r with state := .crediting } .credit
  refine ⟨_, rfl, acted_gone _ _ _, (acted_mem ..).trans hmails.mem, ?_, sends_of_mailed (y := y) hy h.old p ⟨hof.kind, hof.mseq, hof.amt⟩⟩
  rw [acted_mortar, hmails.mortar]
  exact mortar_replaced hr rfl

theorem done_crediting (h : Stands s m .done d p) (hstate : r.state = .crediting) :
    ∃ t, exec (.done m) s = .next t ∧ Gone t m ∧ t.mem = s.mem ∧ t.mortar (seqHome d.mseq) d.mseq = none ∧
      Sends t false 0 (fun y => y.kind = .status ∧ y.home = r.icore ∧ y.xid = r.xid ∧ y.lane = r.lane ∧ y.reason = 0) := by
  have hstatus := sendStatus_mails (s.freeMortar r.seq) r 0 0
  obtain ⟨y, hy, hof⟩ := sendStatus_mailed (s.freeMortar r.seq) r 0 0
  have hrest (u : State) (hu : Mails ((s.freeMortar r.seq).sendStatus r 0 0) u) :
      Gone (u.acted m p) m ∧ (u.acted m p).mem = s.mem ∧ (u.acted m p).mortar (seqHome d.mseq) d.mseq = none ∧
      Sends (u.acted m p) false 0 (fun y => y.kind = .status ∧ y.home = r.icore ∧ y.xid = r.xid ∧ y.lane = r.lane ∧ y.reason = 0) := by
    refine ⟨acted_gone _ _ _, (acted_mem ..).trans (hu.mem.trans hstatus.mem), ?_,
      sends_of_mailed (hy.later hu.toOnward) h.old p ⟨hof.kind, hof.home, hof.xid, hof.lane, hof.reason⟩⟩
    rw [acted_mortar, hu.mortar, hstatus.mortar, ← mortar_seq hr]
    exact mortar_freeMortar s r.seq
  change ∃ t, execDone m s = .next t ∧ _
  cases hfab : r.fabric
  · rw [execDone, onMsg_acts h (u := (s.freeMortar r.seq).sendStatus r 0 0) rfl (by simp only [hr, hstate, hfab]; rfl)]
    exact ⟨_, rfl, hrest _ (.refl _)⟩
  · rw [execDone, onMsg_acts h (u := ((s.freeMortar r.seq).sendStatus r 0 0).sendAck r.ddev r.seq
      (((s.freeMortar r.seq).sendStatus r 0 0).fieldTag r.did) r.did) rfl (by simp only [hr, hstate, hfab]; rfl)]
    exact ⟨_, rfl, hrest _ (sendAck_mails ..)⟩

theorem busy_noted (h : Stands s m .busy d p) :
    ∃ t, exec (.busy m) s = .next t ∧ Gone t m ∧ t.mem = s.mem ∧
      t.mortar (seqHome d.mseq) d.mseq = some { r with busyAt := some s.clock.toNat } := by
  change ∃ t, execBusy m s = .next t ∧ _
  rw [execBusy, onMsg_acts h (u := s.setMortar d.mseq (fun r => { r with busyAt := some s.clock.toNat })) rfl rfl]
  refine ⟨_, rfl, acted_gone _ _ _, acted_mem .., ?_⟩
  rw [acted_mortar]
  exact mortar_setMortar hr (f := fun r => { r with busyAt := some s.clock.toNat }) (show r.seq = d.mseq from mortar_seq hr)

/-- What a refund leaves once the message is gone. -/
theorem refund_acted {code : Nat} (reason : Nat) (hm : m < s.own.ids) (hclean : Clean s r.oil r.okey (if r.q64 then 8 else 4))
    (hcq : code = 3 ∨ NoQueue s r.did) :
    Gone ((s.refund r code reason).acted m p) m ∧ Gains s ((s.refund r code reason).acted m p) r.okey (if r.q64 then 8 else 4) r.amt ∧
      ((s.refund r code reason).acted m p).mortar (seqHome d.mseq) d.mseq = none ∧
      Sends ((s.refund r code reason).acted m p) false 0 (fun y => y.kind = .status ∧ y.home = r.icore ∧ y.xid = r.xid ∧ y.lane = r.lane ∧
        y.reason = code + 16 * reason) := by
  obtain ⟨-, hmem, hnone, y, hy, hof⟩ := refund_spec reason hclean hcq
  refine ⟨acted_gone _ _ _, gains_of_mem ((acted_mem ..).trans (hmem.trans (giveBack_spec hclean).2)), ?_,
    sends_of_mailed hy hm p ⟨hof.kind, hof.home, hof.xid, hof.lane, hof.reason⟩⟩
  rw [acted_mortar, ← mortar_seq hr]
  exact hnone

theorem ovf_refunds (h : Stands s m .ovf d p) (hstate : r.state = (if r.fabric then .offered else .crediting))
    (hclean : Clean s r.oil r.okey (if r.q64 then 8 else 4)) :
    ∃ t, exec (.ovf m) s = .next t ∧ Gone t m ∧ Gains s t r.okey (if r.q64 then 8 else 4) r.amt ∧
      t.mortar (seqHome d.mseq) d.mseq = none ∧
      Sends t false 0 (fun y => y.kind = .status ∧ y.home = r.icore ∧ y.xid = r.xid ∧ y.lane = r.lane ∧ y.reason = 3) := by
  have hdue : ((r.fabric && decide (r.state = .offered)) || (!r.fabric && decide (r.state = .crediting))) = true := by
    rw [hstate]
    cases r.fabric <;> rfl
  change ∃ t, execOvf m s = .next t ∧ _
  rw [execOvf, onMsg_acts h (u := s.refund r 3 0) rfl (by simp only [hr, hdue]; rfl)]
  exact ⟨_, rfl, refund_acted hr 0 h.old hclean (.inl rfl)⟩

theorem refuse_refunds (h : Stands s m .refuse d p) (hstate : r.state = .offered)
    (hclean : Clean s r.oil r.okey (if r.q64 then 8 else 4)) (hcq : NoQueue s r.did) :
    ∃ t, exec (.refuse m) s = .next t ∧ Gone t m ∧ Gains s t r.okey (if r.q64 then 8 else 4) r.amt ∧
      t.mortar (seqHome d.mseq) d.mseq = none ∧
      Sends t false 0 (fun y => y.kind = .status ∧ y.home = r.icore ∧ y.xid = r.xid ∧ y.lane = r.lane ∧ y.reason = 4 + 16 * d.reason) := by
  change ∃ t, execRefuse m s = .next t ∧ _
  rw [execRefuse, onMsg_acts h (u := s.refund r 4 d.reason) rfl (by simp only [hr, hstate]; rfl)]
  exact ⟨_, rfl, refund_acted hr d.reason h.old hclean (.inr hcq)⟩

theorem giveUp_returns (hdue : s.gupDue r = true) (hheld : s.cellHeld (seqHome d.mseq) r.did r.oaddr = false)
    (hclean : Clean s r.oil r.okey (if r.q64 then 8 else 4)) (hcq : NoQueue s r.did) :
    ∃ t, exec (.giveUp d.mseq) s = .next t ∧ Gains s t r.okey (if r.q64 then 8 else 4) r.amt ∧
      t.mortar (seqHome d.mseq) d.mseq = some { r with state := .cancelling } ∧
      Sends t false 0 (fun y => y.kind = .status ∧ y.home = r.icore ∧ y.xid = r.xid ∧ y.lane = r.lane ∧ y.reason = 2) ∧
      Sends t r.fabric r.ddev (fun y => y.kind = .cancel ∧ y.mseq = r.seq) := by
  obtain ⟨hwrote, hmem⟩ := giveBack_spec hclean
  have hq : NoQueue ((s.giveBack r).sendStatus r 2 0) r.did := noQueue_congr (congrArg Fld.domains hwrote.fld :) hcq
  change ∃ t, execGiveUp d.mseq s = .next t ∧ _
  simp only [execGiveUp, hr, hdue, hheld, Bool.not_false, Bool.and_self, if_true, State.giveUp, withdrawn_of_noQueue hq]
  have hstatus := sendStatus_mails (s.giveBack r) r 2 0
  obtain ⟨y, hy, hof⟩ := sendStatus_mailed (s.giveBack r) r 2 0
  have hset : Onward ((s.giveBack r).sendStatus r 2 0) (((s.giveBack r).sendStatus r 2 0).setMortar r.seq (fun _ => { r with state := .cancelling })) :=
    modHome_onward ..
  have hmails := sendOffer_mails (((s.giveBack r).sendStatus r 2 0).setMortar r.seq (fun _ => { r with state := .cancelling }))
    { r with state := .cancelling } .cancel
  obtain ⟨z, hz, hoz⟩ := sendOffer_mailed (((s.giveBack r).sendStatus r 2 0).setMortar r.seq (fun _ => { r with state := .cancelling }))
    { r with state := .cancelling } .cancel
  refine ⟨_, rfl, gains_of_mem (hmails.mem.trans (hstatus.mem.trans hmem)), ?_,
    sends_of_mailed_now ((hy.later hset).later hmails.toOnward) ⟨hof.kind, hof.home, hof.xid, hof.lane, hof.reason⟩,
    sends_of_mailed_now hz ⟨hoz.kind, hoz.mseq⟩⟩
  rw [hmails.mortar]
  exact mortar_replaced ((hstatus.mortar ..).trans ((mortar_congr (hwrote.home _) _).trans hr)) rfl

theorem offer_resent {b : Nat} (hstate : r.state = .offered) (hbusy : r.busyAt = some b) (hdue : b + 1600 ≤ s.clock.toNat) :
    ∃ t, exec (.offerResend d.mseq) s = .next t ∧ t.mem = s.mem ∧
      t.mortar (seqHome d.mseq) d.mseq = some { r with busyAt := none } ∧
      Sends t r.fabric r.ddev (fun y => y.kind = .offer ∧ y.mseq = r.seq ∧ y.amt = r.amt) := by
  have hexec : exec (.offerResend d.mseq) s = .next ((s.setMortar d.mseq (fun r => { r with busyAt := none })).sendOffer r .offer) := by
    change execOfferResend d.mseq s = _
    simp only [execOfferResend, hr, hstate, hbusy, if_pos hdue]
  have hmails := sendOffer_mails (s.setMortar d.mseq (fun r => { r with busyAt := none })) r .offer
  obtain ⟨y, hy, hof⟩ := sendOffer_mailed (s.setMortar d.mseq (fun r => { r with busyAt := none })) r .offer
  refine ⟨_, hexec, hmails.mem, ?_, sends_of_mailed_now hy ⟨hof.kind, hof.mseq, hof.amt⟩⟩
  rw [hmails.mortar]
  exact mortar_setMortar hr (f := fun r => { r with busyAt := none }) (show r.seq = d.mseq from mortar_seq hr)

end answers

/-- An answer without a record to a packet: a CANCEL for an ACCEPT, an ACK for the others. -/
theorem answered_without_record {s : State} {m : Nat} {d : FMsg} (hnone : s.mortar (seqHome d.mseq) d.mseq = none) (q : Packet) :
    ∀ k ∈ [(FKind.accept, Instr.accept m, FKind.cancel), (.done, .done m, .ack), (.ovf, .ovf m, .ack), (.refuse, .refuse m, .ack)],
      Stands s m k.1 d (some q) → ∃ t, exec k.2.1 s = .next t ∧ Gone t m ∧ t.mem = s.mem ∧
        Sends t true q.src (fun y => y.kind = k.2.2 ∧ y.mseq = d.mseq) := by
  have hmailed {u : State} {k : FKind} {y : FMsg} (hmails : Mails s u) (hy : Mailed s u true q.src y) (hk : y.kind = k) (hseq : y.mseq = d.mseq)
      (hm : m < s.own.ids) : Gone (u.acted m (some q)) m ∧ (u.acted m (some q)).mem = s.mem ∧
      Sends (u.acted m (some q)) true q.src (fun y => y.kind = k ∧ y.mseq = d.mseq) :=
    ⟨acted_gone _ _ _, (acted_mem ..).trans hmails.mem, sends_of_mailed hy hm (some q) ⟨hk, hseq⟩⟩
  have hack {k : FKind} {i : Instr} (hexec : Stands s m k d (some q) → exec i s = .next ((s.sendAck q.src d.mseq d.dctx d.did).acted m (some q)))
      (h : Stands s m k d (some q)) : ∃ t, exec i s = .next t ∧ Gone t m ∧ t.mem = s.mem ∧
        Sends t true q.src (fun y => y.kind = .ack ∧ y.mseq = d.mseq) :=
    ⟨_, hexec h, hmailed (sendAck_mails ..) (sendField_mailed ..) rfl rfl h.old⟩
  simp only [List.forall_mem_cons, List.not_mem_nil, false_imp_iff, implies_true, and_true]
  refine ⟨fun h => ?_, hack fun h => ?_, hack fun h => ?_, hack fun h => ?_⟩
  · change ∃ t, execAccept m s = .next t ∧ _
    rw [execAccept, onMsg_acts h (u := s.sendField true q.src 0 d.dctx { FMsg.blank with kind := .cancel, odev := s.devid, mseq := d.mseq, did := d.did })
      rfl (by simp only [hnone]; rfl)]
    exact ⟨_, rfl, hmailed (sendField_mails ..) (sendField_mailed ..) rfl rfl h.old⟩
  · change execDone m s = _
    exact onMsg_acts h rfl (by simp only [hnone]; rfl)
  · change execOvf m s = _
    exact onMsg_acts h rfl (by simp only [hnone]; rfl)
  · change execRefuse m s = _
    exact onMsg_acts h rfl (by simp only [hnone]; rfl)

/-! ### GO and RETURN -/

/-- Records that take the places of those with their sequence numbers, one after the other. -/
theorem foldl_updWhere_seq (F : Mortar → Mortar) (hF : ∀ r, (F r).seq = r.seq) (l : List Mortar) (hl : (l.map (·.seq)).Nodup) (M : List Mortar) :
    l.foldl (fun M r => updWhere M (fun x => x.seq = r.seq) (fun _ => F r)) M =
      M.map (fun x => (l.find? (fun r => r.seq = x.seq)).elim x F) := by
  induction l generalizing M with
  | nil => simp
  | cons r l ih =>
    rw [List.map_cons, List.nodup_cons] at hl
    rw [List.foldl_cons, ih hl.2, updWhere, List.map_map]
    refine List.map_congr_left fun x _ => ?_
    simp only [Function.comp_apply, List.find?_cons]
    by_cases hx : x.seq = r.seq
    · have hnone : l.find? (fun z => z.seq = r.seq) = none := by
        rw [List.find?_eq_none]
        intro z hz
        simpa using fun h => hl.1 (List.mem_map.mpr ⟨z, hz, h⟩)
      simp [hx, hF, hnone]
    · have hx' : r.seq ≠ x.seq := fun h => hx h.symm
      simp [hx, hx']

/-- The record of a sequence number among those that a predicate selects. -/
theorem find_filter_seq {M : List Mortar} (hM : (M.map (·.seq)).Nodup) (P : Mortar → Bool) {x : Mortar} (hx : x ∈ M) :
    (M.filter P).find? (fun r => r.seq = x.seq) = if P x then some x else none := by
  induction M with
  | nil => cases hx
  | cons r M ih =>
    rw [List.map_cons, List.nodup_cons] at hM
    rcases List.mem_cons.mp hx with rfl | hx
    · by_cases hP : P x = true
      · simp [hP]
      · have hnone : (M.filter P).find? (fun r => r.seq = x.seq) = none := by
          rw [List.find?_eq_none]
          intro z hz
          simpa using fun h => hM.1 (List.mem_map.mpr ⟨z, List.mem_of_mem_filter hz, h⟩)
        simp only [List.filter_cons, hP]
        exact hnone
    · have hne : r.seq ≠ x.seq := fun h => hM.1 (List.mem_map.mpr ⟨x, hx, h.symm⟩)
      by_cases hP : P r = true
      · simp only [List.filter_cons, hP, if_true, List.find?_cons, decide_eq_false hne]
        exact ih hM.2 hx
      · simp only [List.filter_cons, hP]
        exact ih hM.2 hx

/-- A record as it starts at a time. -/
def startedAt (now : Nat) (d : FMsg) (r : Mortar) : Mortar :=
  { r with
    lmask := maskOf (fun L => d.lanes.any (fun l => l.lane = L && l.ddev = r.ddev && l.daddr = r.daddr))
    state := if r.fabric then .offered else .crediting
    deadline := now + r.gup }

/-- A record starts its path. -/
def startOne (d : FMsg) (s : State) (r : Mortar) : State :=
  (s.setMortar r.seq (fun _ => startedAt s.giveUpClock d r)).sendOffer (startedAt s.giveUpClock d r) (if r.fabric then .offer else .credit)

theorem startOne_onward (d : FMsg) (s : State) (r : Mortar) : Onward s (startOne d s r) :=
  Onward.trans (modHome_onward ..) (sendOffer_mails ..).toOnward

theorem startOne_mem (d : FMsg) (s : State) (r : Mortar) : (startOne d s r).mem = s.mem := (sendOffer_mails ..).mem

theorem startOne_mortars (d : FMsg) (s : State) {r : Mortar} {n : Nat} (hn : seqHome r.seq = n) :
    ((startOne d s r).node n).home.mortars =
      updWhere (s.node n).home.mortars (fun x => x.seq = r.seq) (fun _ => startedAt s.giveUpClock d r) := by
  unfold startOne
  rw [(sendOffer_mails ..).node, State.setMortar, hn, node_modHome]

theorem foldl_startOne (d : FMsg) {n : Nat} (l : List Mortar) (hn : ∀ r ∈ l, seqHome r.seq = n) (s : State) :
    Onward s (l.foldl (startOne d) s) ∧ (l.foldl (startOne d) s).mem = s.mem ∧
      ((l.foldl (startOne d) s).node n).home.mortars =
        l.foldl (fun M r => updWhere M (fun x => x.seq = r.seq) (fun _ => startedAt s.giveUpClock d r)) (s.node n).home.mortars ∧
      ∀ r ∈ l, ∃ y, Mailed s (l.foldl (startOne d) s) r.fabric r.ddev y ∧
        OfOffer (startedAt s.giveUpClock d r) (if r.fabric then .offer else .credit) y := by
  induction l generalizing s with
  | nil => exact ⟨.refl s, rfl, rfl, fun r hr => nomatch hr⟩
  | cons r l ih =>
    have h1 := startOne_onward d s r
    obtain ⟨hon, hmem, hmortars, hmailed⟩ := ih (fun x hx => hn x (List.mem_cons_of_mem _ hx)) (startOne d s r)
    rw [h1.giveUp] at hmortars hmailed
    rw [List.foldl_cons, List.foldl_cons, ← startOne_mortars d s (hn r List.mem_cons_self)]
    refine ⟨h1.trans hon, hmem.trans (startOne_mem d s r), hmortars, fun x hx => ?_⟩
    rcases List.mem_cons.mp hx with rfl | hx
    · obtain ⟨y, hy, hof⟩ := sendOffer_mailed (s.setMortar x.seq (fun _ => startedAt s.giveUpClock d x)) (startedAt s.giveUpClock d x)
        (if x.fabric then .offer else .credit)
      have hself : Mailed s (startOne d s x) x.fabric x.ddev y := hy
      exact ⟨y, hself.later hon, hof⟩
    · obtain ⟨y, hy, hof⟩ := hmailed x hx
      exact ⟨y, hy.since h1.ids, hof⟩

theorem go_starts {s : State} {m : Nat} {d : FMsg} {p : Option Packet} (h : Stands s m .go d p)
    (hhome : ∀ r ∈ (s.node d.home).home.mortars, seqHome r.seq = d.home) (hnodup : ((s.node d.home).home.mortars.map (·.seq)).Nodup) :
    ∃ t, exec (.go m) s = .next t ∧ Gone t m ∧ t.mem = s.mem ∧
      (t.node d.home).home.mortars = (s.node d.home).home.mortars.map (started s d) ∧
      ∀ r ∈ (s.node d.home).home.mortars, r.xid = d.xid → r.state = .held → Sends t r.fabric r.ddev (fun y =>
        y.kind = (if r.fabric then .offer else .credit) ∧ y.mseq = r.seq ∧ y.amt = r.amt ∧ y.addr = r.daddr ∧
        y.lmask = (started s d r).lmask) := by
  have hstarted (r : Mortar) (hx : r.xid = d.xid) (hs : r.state = .held) : started s d r = startedAt s.giveUpClock d r := if_pos ⟨hx, hs⟩
  have hsub : ∀ r ∈ (s.node d.home).home.mortars.filter (fun r => r.xid = d.xid && r.state = .held), seqHome r.seq = d.home :=
    fun r hr => hhome r (List.mem_of_mem_filter hr)
  obtain ⟨-, hmem, hmortars, hmailed⟩ := foldl_startOne d _ hsub s
  change ∃ t, execGo m s = .next t ∧ _
  rw [execGo, onMsg_acts h (u := ((s.node d.home).home.mortars.filter (fun r => r.xid = d.xid && r.state = .held)).foldl (startOne d) s) rfl rfl]
  refine ⟨_, rfl, acted_gone _ _ _, (acted_mem ..).trans hmem, ?_, fun r hr hx hs => ?_⟩
  · rw [acted_node, hmortars, foldl_updWhere_seq (startedAt s.giveUpClock d) (fun _ => rfl) _ (hnodup.sublist (List.filter_sublist.map _))]
    refine List.map_congr_left fun x hx => ?_
    rw [find_filter_seq hnodup _ hx]
    by_cases hP : x.xid = d.xid ∧ x.state = .held
    · rw [hstarted x hP.1 hP.2, hP.1, hP.2]
      simp
    · have hP' : (x.xid = d.xid && x.state = .held) = false := by
        rw [Bool.and_eq_false_iff, decide_eq_false_iff_not, decide_eq_false_iff_not]
        exact not_and_or.mp hP
      rw [started, if_neg hP, hP']
      rfl
  · obtain ⟨y, hy, hof⟩ := hmailed r (List.mem_filter.mpr ⟨hr, by simp [hx, hs]⟩)
    exact sends_of_mailed hy h.old p ⟨hof.kind, hof.mseq, hof.amt, hof.addr, by rw [hstarted r hx hs]; exact hof.lmask⟩

/-- A cell that alone a message updates, and that its home does not hold back, may be updated. -/
theorem goes_of_free {s : State} {id : Nat} {d : FMsg} {fabric : Bool} {c : Nat × Nat × Nat} (htouches : s.touches d fabric = [c])
    (hfree : s.waitsHere id d fabric = false) : s.goes id d fabric = [c] := by
  rw [State.waitsHere, Bool.or_eq_false_iff, htouches] at hfree
  have hne : (s.goes id d fabric).isEmpty = false := by
    rw [Bool.eq_false_iff]
    intro he
    rw [he] at hfree
    cases hfree.1
  unfold State.goes at hne ⊢
  rw [htouches] at hne ⊢
  rw [List.filter_cons] at hne ⊢
  split at hne
  · rename_i hkeep
    rw [if_pos hkeep]
    rfl
  · cases hne

theorem goes_congr {s : State} {d : FMsg} {fabric fabric' : Bool} (h : s.touches d fabric = s.touches d fabric') (id : Nat) :
    s.goes id d fabric = s.goes id d fabric' := by
  unfold State.goes
  rw [h]

theorem return_gives_back {s : State} {m : Nat} {d : FMsg} {p : Option Packet} (h : Stands s m .giveBack d p) {r : Mortar}
    (hmine : (s.node d.home).home.mortars.filter (fun r => r.xid = d.xid) = [r]) (hhome : seqHome r.seq = d.home)
    (hclean : Clean s r.oil r.okey (if r.q64 then 8 else 4)) :
    ∃ t, exec (.returnAmount m) s = .next t ∧ Gone t m ∧ Gains s t r.okey (if r.q64 then 8 else 4) r.amt ∧
      ∀ q ∈ (t.node d.home).home.mortars, q.seq ≠ r.seq := by
  have hkind := stands_kind h
  have htouches (fabric : Bool) : s.touches d fabric = [(d.home, r.did, r.oaddr)] := by
    simp only [State.touches, hkind, hmine, List.map_cons, List.map_nil]
  have hgoes : s.goes m d false = [(d.home, r.did, r.oaddr)] :=
    (goes_congr (by rw [htouches, htouches]) m).trans (goes_of_free (htouches p.isSome) h.free)
  obtain ⟨hwrote, hmem⟩ := giveBack_spec hclean
  have hmortars : (((s.giveBack r).freeMortar r.seq).node d.home).home.mortars = (s.node d.home).home.mortars.filter (fun q => q.seq ≠ r.seq) := by
    rw [State.freeMortar, hhome, node_modHome, hwrote.home]
  have hover : (((s.giveBack r).freeMortar r.seq).node d.home).home.mortars.filter (fun r => r.xid = d.xid) = [] := by
    rw [hmortars, List.filter_comm, hmine]
    simp
  change ∃ t, execReturnAmount m s = .next t ∧ _
  rw [execReturnAmount, onMsg_acts h (u := (s.giveBack r).freeMortar r.seq) rfl (by
    dsimp only
    simp only [hmine, hgoes, List.filter_cons, List.contains_cons, BEq.rfl, Bool.true_or, if_true, List.filter_nil, List.foldl_cons, List.foldl_nil, hover]
    rfl)]
  refine ⟨_, rfl, acted_gone _ _ _, gains_of_mem ((acted_mem ..).trans hmem), fun q hq => ?_⟩
  rw [acted_node, hmortars] at hq
  simpa using (List.mem_filter.mp hq).2

/-- Settles the part of O34 on the origin home. -/
theorem originMessages : OriginMessages := fun _ _ _ _ =>
  ⟨fun h hhome hnodup => go_starts h hhome hnodup, fun h _ hmine hhome hclean => return_gives_back h hmine hhome hclean,
    fun _ hr => ⟨accept_offered hr, done_crediting hr, busy_noted hr, ovf_refunds hr, refuse_refunds hr, giveUp_returns hr,
      fun _ hstate hbusy hdue => offer_resent hr hstate hbusy hdue⟩,
    fun hnone q => answered_without_record hnone q⟩

end Sys2Proof.Proofs
end

section
/-! What the destination home of a transfer does (spec 15, R342 to R345, R477). -/

namespace Sys2Proof.Proofs

open Sys2Proof Sys2Proof.Machine Sys2Proof.Claims

/-! ### Entries of the deduplication table -/

theorem dedup_congr {s t : State} {n : Nat} (h : (t.node n).home = (s.node n).home) (odev mseq : Nat) : t.dedup n odev mseq = s.dedup n odev mseq := by
  rw [State.dedup, State.dedup, h]

theorem acted_dedup (s : State) (m : Nat) (p : Option Packet) (n odev mseq : Nat) : (s.acted m p).dedup n odev mseq = s.dedup n odev mseq :=
  dedup_congr (by rw [acted_node]) ..

theorem Mails.dedup {s t : State} (h : Mails s t) (n odev mseq : Nat) : t.dedup n odev mseq = s.dedup n odev mseq :=
  dedup_congr (by rw [h.node]) ..

/-- What an entry is of. -/
theorem dedup_keys {s : State} {n odev mseq : Nat} {e : Dedup} (h : s.dedup n odev mseq = some e) : e.odev = odev ∧ e.seq = mseq := by
  have := List.find?_some h
  rwa [Bool.and_eq_true, decide_eq_true_iff, decide_eq_true_iff] at this

theorem dedup_of_findDedup {s : State} {odev mseq n : Nat} {e : Dedup} (h : s.findDedup odev mseq = some (n, e)) : s.dedup n odev mseq = some e := by
  have hmem := List.mem_of_mem_head? (Option.mem_def.mpr h)
  obtain ⟨x, -, hx⟩ := List.mem_filterMap.mp hmem
  obtain ⟨e', he', heq⟩ := Option.map_eq_some_iff.mp hx
  rw [Prod.mk.injEq] at heq
  rw [← heq.1, he', heq.2]

theorem dedup_setDedup (s : State) (n : Nat) (e : Dedup) : (s.setDedup n e).dedup n e.odev e.seq = some e := by
  rw [State.dedup, State.setDedup, node_modHome]
  simp only
  rw [List.find?_append, List.find?_eq_none.mpr]
  · simp
  · intro x hx heq
    have hkeep := (List.mem_filter.mp hx).2
    rw [heq] at hkeep
    cases hkeep

theorem dedup_dropDedup (s : State) (n odev mseq : Nat) : (s.dropDedup n odev mseq).dedup n odev mseq = none := by
  rw [State.dedup, State.dropDedup, node_modHome, List.find?_eq_none]
  intro x hx heq
  have hkeep := (List.mem_filter.mp hx).2
  rw [heq] at hkeep
  cases hkeep

theorem setDedup_mem (s : State) (n : Nat) (e : Dedup) : (s.setDedup n e).mem = s.mem := rfl

theorem setDedup_onward (s : State) (n : Nat) (e : Dedup) : Onward s (s.setDedup n e) := modHome_onward ..
theorem dropDedup_onward (s : State) (n odev mseq : Nat) : Onward s (s.dropDedup n odev mseq) := modHome_onward ..

/-! ### Answers -/

theorem reply_mails (s : State) (m : FMsg) (k : FKind) (reason : Nat) : Mails s (s.reply m k reason) := sendField_mails ..

/-- An answer to the origin home of a record. -/
structure OfReply (m : FMsg) (k : FKind) (reason : Nat) (y : FMsg) : Prop where
  kind : y.kind = k
  mseq : y.mseq = m.mseq
  reason : y.reason = reason

theorem reply_mailed (s : State) (m : FMsg) (k : FKind) (reason : Nat) :
    ∃ y, Mailed s (s.reply m k reason) true m.odev y ∧ OfReply m k reason y := ⟨_, sendField_mailed .., rfl, rfl, rfl⟩

theorem decide_onward (s : State) (m : FMsg) : Onward s (s.decide m) :=
  ⟨Nat.le_refl _, List.Subset.refl _, keepsPosted_of_fab rfl rfl, rfl⟩

/-- An answer that alone is sent before the message is gone. -/
theorem replied {s u : State} (hu : Onward s u) {m : Nat} (hm : m < s.own.ids) {d : FMsg} (k : FKind) (reason : Nat) (p : Option Packet) :
    Gone ((u.reply d k reason).acted m p) m ∧ ((u.reply d k reason).acted m p).mem = u.mem ∧
      (∀ n, ((u.reply d k reason).acted m p).node n = u.node n) ∧
      Sends ((u.reply d k reason).acted m p) true d.odev (fun y => y.kind = k ∧ y.mseq = d.mseq ∧ y.reason = reason) := by
  have hmails := reply_mails u d k reason
  obtain ⟨y, hy, hof⟩ := reply_mailed u d k reason
  exact ⟨acted_gone _ _ _, (acted_mem ..).trans hmails.mem, fun n => (acted_node ..).trans (hmails.node n),
    sends_of_mailed (hy.since hu.ids) hm p ⟨hof.kind, hof.mseq, hof.reason⟩⟩

/-- What a message sends under a weaker description. -/
theorem sends_mono {t : State} {fabric : Bool} {dev : Nat} {P Q : FMsg → Prop} (h : Sends t fabric dev P) (hPQ : ∀ y, P y → Q y) : Sends t fabric dev Q := by
  unfold Sends at h ⊢
  cases fabric
  · obtain ⟨y, hy, hp⟩ := h
    exact ⟨y, hy, hPQ _ hp⟩
  · rcases h with ⟨c, hc, hcp, hcc, x, hx, y, hbody, hp⟩ | ⟨x, hx, hxp, hxc, y, hbody, hp⟩
    · exact .inl ⟨c, hc, hcp, hcc, x, hx, y, hbody, hPQ y hp⟩
    · exact .inr ⟨x, hx, hxp, hxc, y, hbody, hPQ y hp⟩

/-! ### An entry whose answer stands -/

section entry

variable {s : State} {m : Nat} {d : FMsg} {p : Option Packet} {n : Nat} {e : Dedup} (he : s.findDedup d.odev d.mseq = some (n, e))

include he

theorem offer_answered_again (h : Stands s m .offer d p) :
    ∃ t, exec (.offer m) s = .next t ∧ Gone t m ∧ t.mem = s.mem ∧
      Sends t true d.odev (fun y => y.kind = (answerOf e).1 ∧ y.mseq = d.mseq ∧ y.reason = (answerOf e).2) := by
  change ∃ t, execOffer m s = .next t ∧ _
  rw [execOffer, onMsg_acts h (u := s.reply d (answerOf e).1 (answerOf e).2) (by simp only [he]; rfl) (by simp only [he]; rfl)]
  obtain ⟨hgone, hmem, -, hsends⟩ := replied (.refl s) h.old (answerOf e).1 (answerOf e).2 p
  exact ⟨_, rfl, hgone, hmem, hsends⟩

theorem credit_applied {q : Packet} (h : Stands s m .credit d (some q)) (hstate : e.state = .accepted) (hbank : s.bankFull e.il e.key = false)
    (hclean : Clean s e.il e.key (if e.q64 then 8 else 4)) :
    ∃ t, exec (.credit m) s = .next t ∧ Gone t m ∧ Gains s t e.key (if e.q64 then 8 else 4) e.amt ∧
      t.dedup n d.odev d.mseq = some { e with state := .applied, sentAt := s.clock.toNat } ∧
      Sends t true d.odev (fun y => y.kind = .done ∧ y.mseq = d.mseq) := by
  obtain ⟨hodev, hseq⟩ := dedup_keys (dedup_of_findDedup he)
  obtain ⟨hwrote, hmem⟩ := addCell_spec hclean e.amt none
  have hclock : (s.addCell e.il e.key (if e.q64 then 8 else 4) e.amt none).clock = s.clock := (congrArg State.clock hwrote.writes.rest :)
  change ∃ t, execCredit m s = .next t ∧ _
  rw [execCredit, onMsg_acts h (u := ((s.addCell e.il e.key (if e.q64 then 8 else 4) e.amt none).setDedup n
    { e with state := .applied, sentAt := s.clock.toNat }).reply d .done 0) rfl (by
      simp only [he, hstate, hbank, if_true, Bool.false_eq_true, if_false, hclock, acts])]
  obtain ⟨hgone, hmem', hnode, hsends⟩ := replied (d := d) (hwrote.onward.trans (setDedup_onward _ n { e with state := .applied, sentAt := s.clock.toNat }))
    h.old .done 0 (some q)
  refine ⟨_, rfl, hgone, gains_of_mem ((hmem'.trans (setDedup_mem ..)).trans hmem), ?_, sends_mono hsends fun y hy => ⟨hy.1, hy.2.1⟩⟩
  have hentry := dedup_congr (congrArg Node.home (hnode n)) d.odev d.mseq
  rw [hentry, ← hodev, ← hseq]
  exact dedup_setDedup _ n { e with state := .applied, sentAt := s.clock.toNat }

theorem credit_answered {q : Packet} (h : Stands s m .credit d (some q)) (hstate : e.state ≠ .accepted) :
    ∃ t, exec (.credit m) s = .next t ∧ Gone t m ∧ t.mem = s.mem ∧
      Sends t true d.odev (fun y => y.kind = (answerOf e).1 ∧ y.mseq = d.mseq) := by
  change ∃ t, execCredit m s = .next t ∧ _
  rw [execCredit, onMsg_acts h (u := s.reply d (answerOf e).1 (answerOf e).2) rfl (by simp only [he, if_neg hstate]; rfl)]
  obtain ⟨hgone, hmem, -, hsends⟩ := replied (.refl s) h.old (answerOf e).1 (answerOf e).2 (some q)
  exact ⟨_, rfl, hgone, hmem, sends_mono hsends fun y hy => ⟨hy.1, hy.2.1⟩⟩

theorem ack_frees (h : Stands s m .ack d p) :
    ∃ t, exec (.ack m) s = .next t ∧ Gone t m ∧ t.mem = s.mem ∧ t.dedup n d.odev d.mseq = none := by
  change ∃ t, execAck m s = .next t ∧ _
  rw [execAck, onMsg_acts h (u := s.dropDedup n d.odev d.mseq) rfl (by simp only [he]; rfl)]
  exact ⟨_, rfl, acted_gone _ _ _, acted_mem .., (acted_dedup ..).trans (dedup_dropDedup ..)⟩

theorem cancel_frees (h : Stands s m .cancel d p) :
    ∃ t, exec (.cancel m) s = .next t ∧ Gone t m ∧ t.mem = s.mem ∧
      t.dedup n d.odev d.mseq = if e.state = .applied then some e else none := by
  change ∃ t, execCancel m s = .next t ∧ _
  rw [execCancel, onMsg_acts h (u := if e.state = .applied then s else s.dropDedup n d.odev d.mseq) rfl (by simp only [he]; rfl)]
  refine ⟨_, rfl, acted_gone _ _ _, ?_, ?_⟩
  · rw [acted_mem]
    split <;> rfl
  · rw [acted_dedup]
    split
    · exact dedup_of_findDedup he
    · exact dedup_dropDedup ..

theorem answer_resent (hstate : e.state ≠ .accepted) (hdue : e.sentAt + 64 * 1600 ≤ s.clock.toNat) :
    ∃ t, exec (.answerResend d.odev d.mseq) s = .next t ∧ t.mem = s.mem ∧
      t.dedup n d.odev d.mseq = some { e with sentAt := s.clock.toNat } ∧
      Sends t true d.odev (fun y => y.kind = (answerOf e).1 ∧ y.mseq = d.mseq) := by
  obtain ⟨hodev, hseq⟩ := dedup_keys (dedup_of_findDedup he)
  have hnow : ¬ (decide (e.state = .accepted) || decide (s.clock.toNat < e.sentAt + 64 * 1600)) = true := by
    rw [Bool.or_eq_true, decide_eq_true_iff, decide_eq_true_iff]
    exact not_or.mpr ⟨hstate, by omega⟩
  have hexec : exec (.answerResend d.odev d.mseq) s = .next ((s.setDedup n { e with sentAt := s.clock.toNat }).reply
      { FMsg.blank with odev := d.odev, mseq := d.mseq, did := e.did, dctx := s.fieldTag e.did } (answerOf e).1 (answerOf e).2) := by
    change execAnswerResend d.odev d.mseq s = _
    simp only [execAnswerResend, he]
    rw [if_neg hnow]
  have hmails := reply_mails (s.setDedup n { e with sentAt := s.clock.toNat })
    { FMsg.blank with odev := d.odev, mseq := d.mseq, did := e.did, dctx := s.fieldTag e.did } (answerOf e).1 (answerOf e).2
  obtain ⟨y, hy, hof⟩ := reply_mailed (s.setDedup n { e with sentAt := s.clock.toNat })
    { FMsg.blank with odev := d.odev, mseq := d.mseq, did := e.did, dctx := s.fieldTag e.did } (answerOf e).1 (answerOf e).2
  refine ⟨_, hexec, hmails.mem, ?_, sends_of_mailed_now hy ⟨hof.kind, hof.mseq⟩⟩
  rw [hmails.dedup, ← hodev, ← hseq]
  exact dedup_setDedup s n { e with sentAt := s.clock.toNat }

end entry

/-! ### An offer or cancellation without an entry -/

/-- The entry of an offer that is decided now. -/
def entryFor (s : State) (o : FMsg) (key il : Nat) (st : DState) : Dedup :=
  { odev := o.odev, seq := o.mseq, state := st, key := key, il := il, q64 := o.q64, amt := o.amt, did := o.did, xid := o.xid, lane := o.lane,
    sentAt := s.clock.toNat }

theorem decideOffer_of_room {s : State} {n : Nat} (hroom : (s.node n).home.dedups.length < homeCap n) (o : FMsg) (key il : Nat) (st : DState) :
    s.decideOffer n o key il st =
      ((s.setDedup n (entryFor s o key il st)).decide o).reply o (answerOf (entryFor s o key il st)).1 (answerOf (entryFor s o key il st)).2 := by
  rw [State.decideOffer, if_neg (Nat.not_le.mpr hroom)]
  rfl

/-- What an offer that is decided leaves once the message is gone. -/
theorem decided_offer {s u : State} {m n key il : Nat} {o : FMsg} {st : DState} (hu : Onward s u) (hm : m < s.own.ids) (p : Option Packet) :
    Gone ((((u.setDedup n (entryFor u o key il st)).decide o).reply o (answerOf (entryFor u o key il st)).1
        (answerOf (entryFor u o key il st)).2).acted m p) m ∧
      ((((u.setDedup n (entryFor u o key il st)).decide o).reply o (answerOf (entryFor u o key il st)).1
        (answerOf (entryFor u o key il st)).2).acted m p).mem = u.mem ∧
      ((((u.setDedup n (entryFor u o key il st)).decide o).reply o (answerOf (entryFor u o key il st)).1
        (answerOf (entryFor u o key il st)).2).acted m p).dedup n o.odev o.mseq = some (entryFor u o key il st) ∧
      Sends ((((u.setDedup n (entryFor u o key il st)).decide o).reply o (answerOf (entryFor u o key il st)).1
        (answerOf (entryFor u o key il st)).2).acted m p) true o.odev
        (fun y => y.kind = (answerOf (entryFor u o key il st)).1 ∧ y.mseq = o.mseq ∧ y.reason = (answerOf (entryFor u o key il st)).2) := by
  obtain ⟨hgone, hmem, hnode, hsends⟩ := replied (d := o) ((hu.trans (setDedup_onward u n (entryFor u o key il st))).trans (decide_onward _ o)) hm
    (answerOf (entryFor u o key il st)).1 (answerOf (entryFor u o key il st)).2 p
  refine ⟨hgone, hmem, ?_, hsends⟩
  have hentry := dedup_congr (congrArg Node.home (hnode n)) o.odev o.mseq
  rw [hentry]
  exact dedup_setDedup u n (entryFor u o key il st)

section fresh

variable {s : State} {m : Nat} {d : FMsg} {p : Option Packet} (hnone : s.findDedup d.odev d.mseq = none)

include hnone

theorem offer_refused {r : Nat} (h : Stands s m .offer d p) (hat : s.offerAt d = .error r)
    (hroom : (s.node (s.offerHome d)).home.dedups.length < homeCap (s.offerHome d)) :
    ∃ t, exec (.offer m) s = .next t ∧ Gone t m ∧ t.mem = s.mem ∧
      (∃ e, t.dedup (s.offerHome d) d.odev d.mseq = some e ∧ e.state = .refused r) ∧
      Sends t true d.odev (fun y => y.kind = .refuse ∧ y.mseq = d.mseq ∧ y.reason = r) := by
  change ∃ t, execOffer m s = .next t ∧ _
  rw [execOffer, onMsg_acts h (u := s.decideOffer (s.offerHome d) d 0 0 (.refused r)) (by simp only [hnone, hat]; rfl) (by simp only [hnone, hat]; rfl),
    decideOffer_of_room hroom]
  obtain ⟨hgone, hmem, hentry, hsends⟩ := decided_offer (n := s.offerHome d) (key := 0) (il := 0) (o := d) (st := .refused r) (.refl s) h.old p
  exact ⟨_, rfl, hgone, hmem, ⟨_, hentry, rfl⟩, hsends⟩

theorem offer_decided {key il : Nat} {e : Domain} (h : Stands s m .offer d p) (hat : s.offerAt d = .ok (key, il, e)) (hturn : s.turnOf d = true)
    (hbank : s.bankFull il key = false) (hclean : Clean s il key e.width)
    (hroom : (s.node (homeOf il key)).home.dedups.length < homeCap (homeOf il key)) :
    ∃ t x, exec (.offer m) s = .next t ∧ Gone t m ∧ t.mem = s.mem ∧
      t.dedup (homeOf il key) d.odev d.mseq = some x ∧ x.key = key ∧ x.amt = d.amt ∧
      (let v := signed e.width (Mem.num s.mem key e.width) + s.reserved (homeOf il key) key + d.amt
       (v ≤ ((2 ^ (8 * e.width - 1) - 1 : Nat) : Int) → x.state = .accepted ∧
         Sends t true d.odev (fun y => y.kind = .accept ∧ y.mseq = d.mseq)) ∧
       (((2 ^ (8 * e.width - 1) - 1 : Nat) : Int) < v → x.state = .overflowed ∧
         Sends t true d.odev (fun y => y.kind = .ovf ∧ y.mseq = d.mseq))) := by
  have hread := readAt_readHome s il key e.width
  have hreserved : (s.readAt il key e.width).1.reserved (homeOf il key) key = s.reserved (homeOf il key) key := by
    rw [State.reserved, State.reserved, hread.node_eq]
  generalize hst : (if ceiling e.width < signed e.width (Mem.num s.mem key e.width) + s.reserved (homeOf il key) key + d.amt then DState.overflowed
    else .accepted) = st
  change ∃ t x, execOffer m s = .next t ∧ _
  rw [execOffer, onMsg_acts h (u := (s.readAt il key e.width).1.decideOffer (homeOf il key) d key il st)
    (by simp only [hnone, hat, hturn]; rfl) (by
      simp only [hnone, hat, hbank, Bool.false_eq_true, if_false, readCell_clean hclean, hreserved, hst]
      rfl), decideOffer_of_room (by rw [hread.node_eq]; exact hroom)]
  obtain ⟨hgone, hmem, hentry, hsends⟩ := decided_offer (n := homeOf il key) (key := key) (il := il) (o := d) (st := st) hread.wroteHome.onward h.old p
  refine ⟨_, _, rfl, hgone, hmem.trans hread.mem_eq, hentry, rfl, rfl, fun hle => ?_, fun hlt => ?_⟩
  · obtain rfl : DState.accepted = st := (if_neg (Int.not_lt.mpr hle)).symm.trans hst
    exact ⟨rfl, sends_mono hsends fun y hy => ⟨hy.1, hy.2.1⟩⟩
  · obtain rfl : DState.overflowed = st := (if_pos hlt).symm.trans hst
    exact ⟨rfl, sends_mono hsends fun y hy => ⟨hy.1, hy.2.1⟩⟩

theorem cancel_decides (h : Stands s m .cancel d p) (hlane : d.lane < 32)
    (hleft : d.lmask &&& ~~~(s.decided d ||| (1#32 <<< d.lane)) ≠ 0) :
    ∃ t, exec (.cancel m) s = .next t ∧ Gone t m ∧ t.mem = s.mem ∧ (t.decided d).getLsbD d.lane = true := by
  change ∃ t, execCancel m s = .next t ∧ _
  rw [execCancel, onMsg_acts h (u := s.decide d) rfl (by simp only [hnone]; rfl)]
  refine ⟨_, rfl, acted_gone _ _ _, acted_mem .., ?_⟩
  have hdecided : ((s.decide d).acted m p).decided d = s.decided d ||| (1#32 <<< d.lane) := by
    rw [State.decided, acted_fld]
    simp only [withoutMsg, State.decide, if_neg hleft]
    simp
  rw [hdecided]
  simp [hlane]

end fresh

/-- Settles the part of O34 on the destination home. -/
theorem destinationMessages : DestinationMessages := fun _ _ _ _ =>
  ⟨fun _ _ he => ⟨offer_answered_again he, fun _ h hstate hbank hclean => credit_applied he h hstate hbank hclean,
      fun _ h hstate => credit_answered he h hstate, ack_frees he, cancel_frees he, answer_resent he⟩,
    fun hnone => ⟨fun _ h hat hroom => offer_refused hnone h hat hroom,
      fun _ _ _ h hat hturn hbank hclean hroom => offer_decided hnone h hat hturn hbank hclean hroom, cancel_decides hnone⟩⟩

/-! ### Credits on the local path -/

/-- The answer to a credit on the local path. -/
def creditAnswer (s : State) (c : FMsg) (r : Mortar) (k : FKind) : State :=
  (s.decide c).send { FMsg.blank with kind := k, home := seqHome r.seq, odev := c.odev, mseq := r.seq, did := r.did }

theorem creditAnswer_acted {s u : State} (hu : Onward s u) {m : Nat} (hm : m < s.own.ids) (c : FMsg) (r : Mortar) (k : FKind) :
    Gone ((creditAnswer u c r k).acted m none) m ∧ ((creditAnswer u c r k).acted m none).mem = u.mem ∧
      Sends ((creditAnswer u c r k).acted m none) false 0 (fun a => a.kind = k ∧ a.mseq = r.seq) :=
  ⟨acted_gone _ _ _, acted_mem .., sends_of_mailed ((mailed_send (u.decide c) 0 _).since hu.ids) hm none ⟨rfl, rfl⟩⟩

/-- A credit to a cell that can be read. -/
theorem creditLocal_clean {s : State} {r : Mortar} (hclean : Clean s r.dil r.dkey (if r.q64 then 8 else 4)) (c : FMsg) :
    s.creditLocal c r =
      if ceiling (if r.q64 then 8 else 4) < signed (if r.q64 then 8 else 4) (Mem.num s.mem r.dkey (if r.q64 then 8 else 4)) +
          s.reserved (homeOf r.dil r.dkey) r.dkey + c.amt then
        creditAnswer (s.readAt r.dil r.dkey (if r.q64 then 8 else 4)).1 c r .ovf
      else creditAnswer ((s.readAt r.dil r.dkey (if r.q64 then 8 else 4)).1.writeCell r.dil r.dkey (if r.q64 then 8 else 4)
        (signed (if r.q64 then 8 else 4) (Mem.num s.mem r.dkey (if r.q64 then 8 else 4)) + c.amt)
        ((s.readAt r.dil r.dkey (if r.q64 then 8 else 4)).1.releasedBy r.xid)) c r .done := by
  have hreserved : (s.readAt r.dil r.dkey (if r.q64 then 8 else 4)).1.reserved (homeOf r.dil r.dkey) r.dkey = s.reserved (homeOf r.dil r.dkey) r.dkey := by
    rw [State.reserved, State.reserved, (readAt_readHome ..).node_eq]
  rw [State.creditLocal, readCell_clean hclean]
  dsimp only
  rw [hreserved]
  rfl

/-- Settles the part of O33 on credits. -/
theorem creditConserves : CreditConserves := by
  intro s m c r h hr hturn hbank hremote hclean
  have hread := readAt_readHome s r.dil r.dkey (if r.q64 then 8 else 4)
  have hexec : exec (.credit m) s = .next ((s.creditLocal c r).acted m none) := by
    change execCredit m s = _
    rw [execCredit]
    exact onMsg_acts h (by simp only [hr, hturn]; rfl) (by
      simp only [hr, hbank, Bool.false_eq_true, if_false, hremote]
      rfl)
  rw [creditLocal_clean hclean] at hexec
  refine ⟨_, hexec, acted_gone _ _ _, fun hle => ?_, fun hlt => ?_⟩
  · have hfits : ¬ ceiling (if r.q64 then 8 else 4) < signed (if r.q64 then 8 else 4) (Mem.num s.mem r.dkey (if r.q64 then 8 else 4)) +
        s.reserved (homeOf r.dil r.dkey) r.dkey + c.amt := Int.not_lt.mpr hle
    rw [if_neg hfits]
    have hwrote := hread.wroteHome.trans (writeCell_wroteHome (s.readAt r.dil r.dkey (if r.q64 then 8 else 4)).1 r.dil r.dkey (if r.q64 then 8 else 4)
      (signed (if r.q64 then 8 else 4) (Mem.num s.mem r.dkey (if r.q64 then 8 else 4)) + c.amt)
      ((s.readAt r.dil r.dkey (if r.q64 then 8 else 4)).1.releasedBy r.xid))
    obtain ⟨-, hmem, hsends⟩ := creditAnswer_acted hwrote.onward h.old c r .done
    exact ⟨gains_of_mem (hmem.trans (writeCell_read_mem hclean _ _)), hsends⟩
  · have hexceeds : ceiling (if r.q64 then 8 else 4) < signed (if r.q64 then 8 else 4) (Mem.num s.mem r.dkey (if r.q64 then 8 else 4)) +
        s.reserved (homeOf r.dil r.dkey) r.dkey + c.amt := hlt
    rw [if_pos hexceeds]
    obtain ⟨-, hmem, hsends⟩ := creditAnswer_acted hread.wroteHome.onward h.old c r .ovf
    exact ⟨hmem.trans hread.mem_eq, hsends⟩

end Sys2Proof.Proofs
end

section
/-! The issuing core's side of a transfer: the status of its lanes, and its end. -/

namespace Sys2Proof.Proofs

open Sys2Proof Sys2Proof.Machine Sys2Proof.Claims

/-! ### What changes of a group alone -/

/-- What has happened to the group `gid` alone: memory and the fields stay. -/
structure Touched (s t : State) (gid : Nat) (g g' : Group) : Prop extends Landed s t gid g g' where
  mem : t.mem = s.mem
  fld : t.fld = s.fld

theorem Touched.refl {s : State} {gid : Nat} {g : Group} (h : s.group gid = some g) : Touched s s gid g g := ⟨.refl h, rfl, rfl⟩

theorem Touched.trans {s t u : State} {gid : Nat} {g g1 g2 : Group} (h : Touched s t gid g g1) (k : Touched t u gid g1 g2) : Touched s u gid g g2 :=
  ⟨h.toLanded.trans k.toLanded, k.mem.trans h.mem, k.fld.trans h.fld⟩

theorem modGroup_fld (s : State) (gid : Nat) (f : Group → Group) : (s.modGroup gid f).fld = s.fld := by
  unfold State.modGroup
  split <;> rfl

theorem rouse_fld (s : State) (n : Nat) (bits : Word) : (s.rouse n bits).fld = s.fld := by
  unfold State.rouse
  split <;> rfl

theorem unpark_fld (s : State) (gid : Nat) (bits : Word) : (s.unpark gid bits).fld = s.fld := by
  unfold State.unpark
  split
  · rfl
  · dsimp only
    split
    · rfl
    · exact rouse_fld ..

theorem logLine_fld (s : State) (b gid : Nat) (t : LineTag) (image : List Word) : (s.logLine b gid t image).fld = s.fld := by
  unfold State.logLine State.modBlock
  split <;> rfl

theorem writeV_fld (s : State) (gid r : Nat) (vals : List (Nat × Word)) : (s.writeV gid r vals).fld = s.fld := by
  unfold State.writeV
  split
  · rfl
  · rename_i g _
    split
    · rfl
    · have hlog : (if g.visitor.isSome then s else s.logLine g.block gid (.vreg gid r) (laneList.map (g.rdV r))).fld = s.fld := by
        split
        · rfl
        · exact logLine_fld ..
      dsimp only
      split
      · exact (modGroup_fld ..).trans hlog
      · exact (modGroup_fld ..).trans hlog

theorem deliverV_fld {s : State} {gid : Nat} (h : Resident s gid) (r : Nat) (vals : List (Nat × Word)) (full : Bool) (why : Word) :
    (s.deliverV gid r vals full why).fld = s.fld := by
  unfold State.deliverV
  split
  · rfl
  · rename_i g hg
    simp only [h g hg]
    have hfull := (modGroup_fld (s.writeV gid r vals) gid fun g => g.markV r false).trans (writeV_fld s gid r vals)
    split
    · split
      · exact (unpark_fld ..).trans hfull
      · exact hfull
    · exact writeV_fld ..

theorem resident_of {s : State} {gid : Nat} {g : Group} (hg : s.group gid = some g) (h : s.imageOf g = none) : Resident s gid :=
  fun _ hg' => Option.some.inj (hg.symm.trans hg') ▸ h

/-- Some lanes of a vector register are written, which stays empty. -/
theorem deliverV_part {s : State} {gid : Nat} {g : Group} (hg : s.group gid = some g) (hres : Resident s gid) (r : Nat) {ls : List Nat}
    (hls : ∀ L ∈ ls, L < 32) (v : Nat → Word) (why : Word) :
    ∃ g', Touched s (s.deliverV gid r (ls.map (fun L => (L, v L))) false why) gid g g' ∧
      (∀ L ∈ ls, r ≠ 255 → g.busy r = false → g'.rdV r L = v L) := by
  obtain ⟨g', hw, -, hval⟩ := lanesWritten_writeV hg r hls v
  have hdeliver : s.deliverV gid r (ls.map (fun L => (L, v L))) false why = s.writeV gid r (ls.map (fun L => (L, v L))) := by
    simp only [State.deliverV, hg, hres g hg, Bool.false_eq_true, if_false]
  rw [hdeliver]
  exact ⟨g', ⟨hw.landed (writeV_stays s gid r _), (writeV_lessens ..).mem, writeV_fld ..⟩, hval⟩

/-- A register becomes full as it is. -/
theorem fillV_touched {s : State} {gid : Nat} {g : Group} (hg : s.group gid = some g) (hres : Resident s gid) (r : Nat) :
    ∃ g', Touched s (s.fillV gid r) gid g g' ∧ g'.isEmpty false r = false ∧ ∀ j L, L < 32 → g'.rdV j L = g.rdV j L := by
  obtain ⟨g', hl, -, hfull, -, hkept, -⟩ := deliverV_landed hg (hres g hg) r (ls := []) (fun L h => absurd h (List.not_mem_nil)) (fun _ => 0) 0
  exact ⟨g', ⟨hl, (deliverV_resident hres ..).1.mem, deliverV_fld hres ..⟩, hfull, fun j L hL => hkept j L hL (.inr (.inr List.not_mem_nil))⟩

theorem rouse_touched {s : State} {gid : Nat} {g : Group} (hg : s.group gid = some g) (n : Nat) (bits : Word) : Touched s (s.rouse n bits) gid g g :=
  ⟨⟨(rouse_group ..).trans hg, fun _ _ => rouse_group .., rfl, fun _ => rfl, rouse_stays s gid n bits⟩, (rouse_lessens ..).mem, rouse_fld ..⟩

/-- The group is replaced by one with the same registers. -/
theorem setGroup_touched {s : State} {gid : Nat} {g g' : Group} (hg : s.group gid = some g) (hctl : g'.ctl = g.ctl) (hbusy : ∀ r, g'.busy r = g.busy r)
    (hv : g'.visitor = g.visitor) (hb : g'.block = g.block) : Touched s (s.setGroup gid g') gid g g' :=
  ⟨⟨State.group_setGroup .., fun _ hj => State.group_setGroup_other _ _ hj, hctl, hbusy, setGroup_stays hg hv hb⟩, rfl, rfl⟩

/-- What leaves the group `gid` its registers, which is no visitor. -/
structure Raised (s t : State) (gid : Nat) (g g' : Group) : Prop extends Touched s t gid g g' where
  regs : g'.regs = g.regs
  visitor : g'.visitor = none

theorem Raised.refl {s : State} {gid : Nat} {g : Group} (h : s.group gid = some g) (hv : g.visitor = none) : Raised s s gid g g := ⟨.refl h, rfl, hv⟩

theorem Raised.trans {s t u : State} {gid : Nat} {g g1 g2 : Group} (h : Raised s t gid g g1) (k : Raised t u gid g1 g2) : Raised s u gid g g2 :=
  ⟨h.toTouched.trans k.toTouched, k.regs.trans h.regs, k.visitor⟩

theorem Raised.rdV {s t : State} {gid : Nat} {g g' : Group} (h : Raised s t gid g g') (j L : Nat) : g'.rdV j L = g.rdV j L := by
  rw [Group.rdV, h.regs, Group.rdV]

theorem Raised.isEmpty {s t : State} {gid : Nat} {g g' : Group} (h : Raised s t gid g g') (v : Bool) (j : Nat) : g'.isEmpty v j = g.isEmpty v j := by
  rw [Group.isEmpty, h.regs, Group.isEmpty]

/-- A group for which another imprecise trap is pending. -/
def withTrap (g : Group) (x : Imprecise) : Group := { g with out := { g.out with imprecise := g.out.imprecise ++ [x] } }

/-- A group with what its stores have met. -/
def withStoreFails (g : Group) (l : List Imprecise) : Group := { g with out := { g.out with storeFail := l } }

/-- An imprecise trap is pending for a group that is no visitor. -/
theorem raise_pending {s : State} {gid : Nat} {g : Group} (hg : s.group gid = some g) (hv : g.visitor = none) (x : Imprecise) :
    ∃ g', Raised s (s.raise gid x) gid g g' ∧ g'.out.imprecise = g.out.imprecise ++ [x] := by
  have hvis : g.visitor.isSome = false := by rw [hv]; rfl
  have h := setGroup_touched (g' := withTrap g x) hg rfl (fun _ => rfl) rfl rfl
  refine ⟨withTrap g x, ⟨?_, rfl, hv⟩, rfl⟩
  simp only [State.raise, hg, hvis, Bool.false_eq_true, if_false]
  split
  · exact h
  · exact h.trans (rouse_touched h.now ..)

theorem raise_raised {s : State} {gid : Nat} {g : Group} (hg : s.group gid = some g) (hv : g.visitor = none) (x : Imprecise) :
    ∃ g', Raised s (s.raise gid x) gid g g' := by
  obtain ⟨g', h, -⟩ := raise_pending hg hv x
  exact ⟨g', h⟩

theorem foldl_raise_raised {s : State} {gid : Nat} {g : Group} (hg : s.group gid = some g) (hv : g.visitor = none) (l : List Imprecise) :
    ∃ g', Raised s (l.foldl (fun s x => s.raise gid x) s) gid g g' := by
  induction l generalizing s g with
  | nil => exact ⟨g, .refl hg hv⟩
  | cons x l ih =>
    obtain ⟨g1, h1⟩ := raise_raised hg hv x
    obtain ⟨g2, h2⟩ := ih h1.now h1.visitor
    exact ⟨g2, h1.trans h2⟩

theorem raiseStores_raised {s : State} {gid : Nat} {g : Group} (hg : s.group gid = some g) (hv : g.visitor = none) (peer : Option Nat) :
    ∃ g', Raised s (s.raiseStores gid peer) gid g g' := by
  have h (l k : List Imprecise) : ∃ g', Raised s (k.foldl (fun s x => s.raise gid x) (s.setGroup gid (withStoreFails g l))) gid g g' := by
    have h := setGroup_touched (g' := withStoreFails g l) hg rfl (fun _ => rfl) rfl rfl
    obtain ⟨g', h'⟩ := foldl_raise_raised h.now hv k
    exact ⟨g', h.trans h'.toTouched, h'.regs, h'.visitor⟩
  simp only [State.raiseStores, hg]
  exact h _ _

theorem acquired_touched {s : State} {gid : Nat} {g : Group} (hg : s.group gid = some g) (n scope : Nat) : Touched s (s.acquired n scope) gid g g := by
  have h : Touched s (s.clearRb n) gid g g := ⟨⟨hg, fun _ _ => rfl, rfl, fun _ => rfl, stays_of_same gid rfl rfl⟩, rfl, rfl⟩
  unfold State.acquired
  split
  · exact h
  · exact .refl hg

/-! ### The end of a transfer -/

/-- The transfers without one of them. -/
def withoutXfer (s : State) (id : Nat) : State := { s with fld := { s.fld with xfers := s.fld.xfers.filter (fun y => y.id ≠ id) } }

/-- The end of a transfer of a live group touches the group alone. -/
theorem endXfer_live {s : State} {x : Xfer} {g : Group} (hdead : x.dead = false) (hg : s.group x.gid = some g) (himage : s.imageOf g = none)
    (hv : g.visitor = none) (hlive : g.ctl.livem ≠ 0) :
    ∃ g', Touched (withoutXfer s x.id) (s.endXfer x) x.gid g g' ∧ (∀ j L, L < 32 → g'.rdV j L = g.rdV j L) ∧
      (x.lost = 0 → g'.isEmpty false x.dst = false) := by
  unfold State.endXfer
  extract_lets _ s0 s1 s2 s3 pick lanes low addr s4 s5
  rw [if_neg (by rw [hdead]; decide)]
  have h1 : Touched s0 s1 x.gid g g := by
    unfold s1
    split
    · exact acquired_touched (s := s0) hg ..
    · exact .refl hg
  have hres : Resident s1 x.gid := h1.stays.resident (s := s0) (resident_of (s := s0) hg himage)
  obtain ⟨g2, h2, hread, hfull⟩ : ∃ g', Touched s1 s2 x.gid g g' ∧ (∀ j L, L < 32 → g'.rdV j L = g.rdV j L) ∧
      (x.lost = 0 → g'.isEmpty false x.dst = false) := by
    unfold s2
    split
    · obtain ⟨g', h, hfull, hread⟩ := fillV_touched h1.now hres x.dst
      exact ⟨g', h, hread, fun _ => hfull⟩
    · rename_i hlost
      exact ⟨g, .refl h1.now, fun _ _ _ => rfl, fun h => absurd h hlost⟩
  have hv2 : g2.visitor = none := by
    obtain ⟨a, ha, hvis, -⟩ := h2.stays.group g2 h2.now
    rw [hvis, Option.some.inj (ha.symm.trans h1.now), hv]
  obtain ⟨g3, h3⟩ : ∃ g', Raised s2 s3 x.gid g2 g' := by
    unfold s3
    split
    · exact raiseStores_raised h2.now hv2 none
    · exact ⟨g2, .refl h2.now hv2⟩
  obtain ⟨g4, h4⟩ : ∃ g', Raised s3 s4 x.gid g3 g' := by
    unfold s4
    split
    · exact ⟨g3, .refl h3.now h3.visitor⟩
    · split
      · exact ⟨g3, .refl h3.now h3.visitor⟩
      · split
        · exact ⟨g3, .refl h3.now h3.visitor⟩
        · exact raise_raised h3.now h3.visitor _
  obtain ⟨g5, h5⟩ : ∃ g', Raised s4 s5 x.gid g4 g' := by
    unfold s5
    split
    · exact ⟨g4, .refl h4.now h4.visitor⟩
    · split
      · exact ⟨g4, .refl h4.now h4.visitor⟩
      · split
        · exact ⟨g4, .refl h4.now h4.visitor⟩
        · exact raise_raised h4.now h4.visitor _
  have hraised := (h3.trans h4).trans h5
  have hall := (h1.trans h2).trans hraised.toTouched
  rw [tryRetire_of_live hall.now (by rw [hall.ctl]; exact hlive)]
  exact ⟨g5, hall, fun j L hL => (hraised.rdV j L).trans (hread j L hL), fun h => (hraised.isEmpty ..).trans (hfull h)⟩

/-! ### A status -/

/-- A transfer whose lane has another status. -/
def withStatus (x : Xfer) (lane code reason : Nat) : Xfer := { x with status := x.status ++ [(lane, code, reason)] }

theorem find_updWhere_id {l : List Xfer} {i : Nat} {x y : Xfer} (h : l.find? (fun z => z.id = i) = some x) (hy : y.id = i) :
    (updWhere l (fun z => z.id = i) (fun _ => y)).find? (fun z => z.id = i) = some y := by
  induction l with
  | nil => cases h
  | cons z l ih =>
    rw [updWhere, List.map_cons, List.find?_cons]
    rw [List.find?_cons] at h
    by_cases hz : z.id = i
    · simp [hz, hy]
    · simp only [hz, decide_false, Bool.false_eq_true, if_false] at h ⊢
      exact ih h

/-- The state in which a transfer has another status, of a lane of which the group has been told. -/
def told (s : State) (x : Xfer) (id lane code reason : Nat) : State :=
  ({ s with fld := { s.fld with xfers := updWhere s.fld.xfers (fun y => y.id = id) (fun _ => withStatus x lane code reason) } } : State).deliverV
    x.gid x.dst [(lane, BitVec.ofNat 32 code)] false 0

theorem resolve_eq {s : State} {x : Xfer} {id code : Nat} (lane reason : Nat) (hx : s.fld.xfers.find? (fun y => y.id = id) = some x)
    (hcode : code ≠ 9) (hdead : x.dead = false) : s.resolve id lane code reason =
      if (withStatus x lane code reason).left.isEmpty then (told s x id lane code reason).endXfer (withStatus x lane code reason)
      else told s x id lane code reason := by
  have hskip : ¬ (x.dead || decide (code = 9)) = true := by
    rw [hdead, decide_eq_false hcode]
    decide
  unfold State.resolve
  rw [hx]
  dsimp only
  rw [if_neg hcode, if_neg hskip]
  rfl

/-- The status of a lane of a transfer of a live group. -/
theorem resolve_live {s : State} {x : Xfer} {g : Group} {id lane code : Nat} (reason : Nat) (hx : s.fld.xfers.find? (fun y => y.id = id) = some x)
    (hcode : code ≠ 9) (hdead : x.dead = false) (hlane : lane < 32) (hg : s.group x.gid = some g) (hv : g.visitor = none) (hlive : g.ctl.livem ≠ 0)
    (himage : s.imageOf g = none) (hbusy : g.busy x.dst = false) (hdst : x.dst < 255) :
    ∃ g', (s.resolve id lane code reason).group x.gid = some g' ∧ (s.resolve id lane code reason).mem = s.mem ∧
      g'.rdV x.dst lane = BitVec.ofNat 32 code ∧
      ((withStatus x lane code reason).left ≠ [] →
        (s.resolve id lane code reason).fld.xfers.find? (fun z => z.id = id) = some (withStatus x lane code reason)) ∧
      ((withStatus x lane code reason).left = [] →
        (∀ z ∈ (s.resolve id lane code reason).fld.xfers, z.id ≠ id) ∧ (x.lost = 0 → g'.isEmpty false x.dst = false)) := by
  have hid : x.id = id := by simpa using List.find?_some hx
  obtain ⟨g1, h1, hval⟩ := deliverV_part
    (s := { s with fld := { s.fld with xfers := updWhere s.fld.xfers (fun y => y.id = id) (fun _ => withStatus x lane code reason) } })
    hg (resident_of (s := s) hg himage) x.dst (ls := [lane]) (fun L hL => by rw [List.mem_singleton.mp hL]; exact hlane) (fun _ => BitVec.ofNat 32 code) 0
  have hstatus : g1.rdV x.dst lane = BitVec.ofNat 32 code := hval lane (List.mem_singleton_self _) (Nat.ne_of_lt hdst) hbusy
  rw [resolve_eq lane reason hx hcode hdead]
  by_cases hleft : (withStatus x lane code reason).left = []
  · rw [if_pos (by rw [hleft]; rfl)]
    have hv1 : g1.visitor = none := by
      obtain ⟨a, ha, hvis, -⟩ := h1.stays.group g1 h1.now
      rw [hvis, Option.some.inj (ha.symm.trans hg), hv]
    have hres1 : Resident (told s x id lane code reason) x.gid := h1.stays.resident (resident_of (s := s) hg himage)
    obtain ⟨g2, h2, hread, hfull⟩ := endXfer_live (s := told s x id lane code reason) (x := withStatus x lane code reason) hdead h1.now (hres1 g1 h1.now)
      hv1 (by rw [h1.ctl]; exact hlive)
    refine ⟨g2, h2.now, h2.mem.trans h1.mem, (hread x.dst lane hlane).trans hstatus, fun h => absurd hleft h, fun _ => ⟨fun z hz => ?_, hfull⟩⟩
    rw [h2.fld] at hz
    have hne : ¬ z.id = x.id := of_decide_eq_true (List.mem_filter.mp hz).2
    rwa [hid] at hne
  · rw [if_neg (by rw [List.isEmpty_iff]; exact hleft)]
    refine ⟨g1, h1.now, h1.mem, hstatus, fun _ => ?_, fun h => absurd h hleft⟩
    rw [show (told s x id lane code reason).fld = _ from h1.fld]
    exact find_updWhere_id hx hid

/-- Settles the part of O34 on the issuing core. -/
theorem statusArrives : StatusArrives := by
  intro s m d p x g h hx hcode hdead hlane hg hv hlive himage hbusy hdst
  have hexec : exec (.status m) s = .next ((s.resolve d.xid d.lane (d.reason % 16) (d.reason / 16)).acted m p) := by
    change execStatus m s = _
    rw [execStatus]
    exact onMsg_acts h rfl rfl
  obtain ⟨g', hnow, hmem, hstatus, hleft, hover⟩ := resolve_live (lane := d.lane) (d.reason / 16) hx hcode hdead hlane hg hv hlive himage hbusy hdst
  refine ⟨_, g', hexec, acted_gone _ _ _, (acted_mem ..).trans hmem, ?_, hstatus, fun hne => ?_, fun he => ⟨fun z hz => ?_, (hover he).2⟩⟩
  · rw [State.group, acted_groups]
    exact hnow
  · rw [acted_fld]
    exact hleft hne
  · rw [acted_fld] at hz
    exact (hover he).1 z hz

/-- Settles O34, part by part: what the messages do at the origin, at the destination and at the issuing core. -/
theorem transferMessages : Obligations.TransferMessages := ⟨originMessages, destinationMessages, statusArrives⟩

end Sys2Proof.Proofs
end

section
/-! Debits at their homes: what the end of a transfer, and the trap of a withheld debit, leave of memory and of the records of the homes. -/

namespace Sys2Proof.Proofs

open Sys2Proof Sys2Proof.Machine Sys2Proof.Claims

/-! ### Groups that are gone -/

theorem find_map_none {α β : Type} {f : Nat × α → β} {m : List (Nat × α)} {k : Nat} (h : Sparse.find m k = none) :
    Sparse.find (m.map (fun p => (p.1, f p))) k = none := by
  induction m with
  | nil => rfl
  | cons p m ih =>
    simp only [Sparse.find] at h
    simp only [List.map_cons, Sparse.find]
    split at h
    · cases h
    · rename_i hne
      rw [if_neg hne]
      exact ih h

theorem find_filter_none {α : Type} (q : Nat × α → Bool) {m : List (Nat × α)} {k : Nat} (h : Sparse.find m k = none) :
    Sparse.find (m.filter q) k = none := by
  induction m with
  | nil => rfl
  | cons p m ih =>
    simp only [Sparse.find] at h
    split at h
    · cases h
    · rename_i hne
      rw [List.filter_cons]
      split
      · simp only [Sparse.find, if_neg hne]
        exact ih h
      · exact ih h

/-- A group that is gone stays so, and what a transfer is named by stays with it. -/
structure Leaves (s t : State) (gid : Nat) : Prop where
  gone : s.group gid = none → t.group gid = none
  xfers : ∀ z ∈ t.fld.xfers, ∃ w ∈ s.fld.xfers, z.id = w.id ∧ z.gid = w.gid

theorem leaves_of_same {s t : State} (gid : Nat) (hg : t.groups = s.groups) (hf : t.fld = s.fld) : Leaves s t gid :=
  ⟨fun h => by rw [State.group, hg]; exact h, fun z hz => ⟨z, hf ▸ hz, rfl, rfl⟩⟩

theorem Leaves.trans {s t u : State} {gid : Nat} (h : Leaves s t gid) (k : Leaves t u gid) : Leaves s u gid where
  gone hn := k.gone (h.gone hn)
  xfers z hz := by
    obtain ⟨w, hw, hid, hgid⟩ := k.xfers z hz
    obtain ⟨v, hv, hid', hgid'⟩ := h.xfers w hw
    exact ⟨v, hv, hid.trans hid', hgid.trans hgid'⟩

/-- Some transfers die. -/
theorem dies_xfers {l : List Xfer} (c : Xfer → Bool) : ∀ z ∈ l.map (fun x => if c x then { x with dead := true } else x), ∃ w ∈ l, z.id = w.id ∧ z.gid = w.gid := by
  intro z hz
  obtain ⟨w, hw, rfl⟩ := List.mem_map.mp hz
  refine ⟨w, hw, ?_⟩
  split <;> exact ⟨rfl, rfl⟩

theorem modGrid_leaves (s : State) (gid k : Nat) (f : Grid → Grid) : Leaves s (s.modGrid k f) gid := by
  unfold State.modGrid
  split <;> exact leaves_of_same gid rfl rfl

theorem reapBlock_leaves (s : State) (gid k : Nat) : Leaves s (s.reapBlock k) gid := by
  unfold State.reapBlock
  split
  · exact leaves_of_same gid rfl rfl
  · split
    · exact leaves_of_same gid rfl rfl
    · split <;> exact leaves_of_same gid rfl rfl

theorem reap_leaves (s : State) (gid : Nat) : Leaves s s.reap gid :=
  foldl_rel (R := fun s t => Leaves s t gid) (fun _ => leaves_of_same gid rfl rfl) Leaves.trans _ (fun t k _ => reapBlock_leaves t gid k) s

theorem endHalt_leaves (s : State) (gid k : Nat) : Leaves s (s.endHalt k) gid := by
  have hblock (f : Block → Block) : (s.modBlock k f).fld = s.fld := by
    unfold State.modBlock
    split <;> rfl
  exact ⟨fun h => find_map_none h, fun z hz => ⟨z, hblock _ ▸ hz, rfl, rfl⟩⟩

theorem endBlock_leaves (s : State) (gid k : Nat) (cause : Option Nat) : Leaves s (s.endBlock k cause) gid := by
  unfold State.endBlock
  split
  · exact leaves_of_same gid rfl rfl
  · rename_i b _
    extract_lets gone s1 s2 _ _ s3
    have h2 : s2.groups = s.groups ∧ s2.fld = s.fld := by
      unfold s2
      split <;> exact ⟨rfl, rfl⟩
    have h3 : Leaves s s3 gid := by
      refine ⟨fun h => ?_, fun z hz => ?_⟩
      · refine find_filter_none _ ?_
        rw [h2.1]
        exact h
      · rw [← h2.2]
        exact dies_xfers _ z hz
    exact (h3.trans (modGrid_leaves ..)).trans (reap_leaves ..)

/-- A group that may retire stays, or is gone. -/
theorem tryRetire_leaves (s : State) (gid : Nat) : Leaves s (s.tryRetire gid) gid ∧ (s.tryRetire gid = s ∨ (s.tryRetire gid).group gid = none) := by
  unfold State.tryRetire
  split
  · exact ⟨leaves_of_same gid rfl rfl, .inl rfl⟩
  · rename_i g _
    split
    · exact ⟨leaves_of_same gid rfl rfl, .inl rfl⟩
    · extract_lets _ _ s1
      have h1 : Leaves s s1 gid := ⟨fun _ => Sparse.find_del_same .., fun z hz => by
        refine dies_xfers (fun x => x.gid = gid) z ?_
        simpa only [decide_eq_true_eq] using hz⟩
      have hgone : s1.group gid = none := Sparse.find_del_same ..
      split
      · exact ⟨h1, .inr hgone⟩
      · rename_i b _
        extract_lets slots s2 s3 s4
        have h2 : Leaves s1 s2 gid := leaves_of_same gid rfl rfl
        have h3 : Leaves s2 s3 gid := by
          unfold s3
          split
          · exact endHalt_leaves ..
          · exact leaves_of_same gid rfl rfl
        have h4 : Leaves s3 s4 gid := by
          unfold s4
          split
          · exact leaves_of_same gid rfl rfl
          · exact modGrid_leaves ..
        have h := (h2.trans h3).trans h4
        split
        · have h5 := h.trans (endBlock_leaves s4 gid g.block none)
          exact ⟨h1.trans h5, .inr (h5.gone hgone)⟩
        · exact ⟨h1.trans h, .inr (h.gone hgone)⟩

/-! ### What does no harm to memory and the homes -/

/-- Memory and the homes stay, and a resident group is resident while it is there. -/
structure Harmless (s t : State) (gid : Nat) : Prop where
  mem : t.mem = s.mem
  home : ∀ n, (t.node n).home = (s.node n).home
  resident : Resident s gid → Resident t gid
  xfers : ∀ z ∈ t.fld.xfers, ∃ w ∈ s.fld.xfers, z.id = w.id ∧ z.gid = w.gid

theorem Harmless.refl (s : State) (gid : Nat) : Harmless s s gid := ⟨rfl, fun _ => rfl, id, fun z hz => ⟨z, hz, rfl, rfl⟩⟩

theorem Harmless.trans {s t u : State} {gid : Nat} (h : Harmless s t gid) (k : Harmless t u gid) : Harmless s u gid where
  mem := k.mem.trans h.mem
  home n := (k.home n).trans (h.home n)
  resident hs := k.resident (h.resident hs)
  xfers z hz := by
    obtain ⟨w, hw, hid, hgid⟩ := k.xfers z hz
    obtain ⟨v, hv, hid', hgid'⟩ := h.xfers w hw
    exact ⟨v, hv, hid.trans hid', hgid.trans hgid'⟩

theorem harmless_of_stays {s t : State} {gid : Nat} (hl : Lessens s t) (hs : Stays s t gid) (hf : t.fld = s.fld) : Harmless s t gid :=
  ⟨hl.mem, hl.home, hs.resident, fun z hz => ⟨z, hf ▸ hz, rfl, rfl⟩⟩

/-- Nothing but what is beside memory, the nodes, the groups and the blocks changes. -/
theorem harmless_of_same {s t : State} (gid : Nat) (hmem : t.mem = s.mem) (hnodes : t.nodes = s.nodes) (hg : t.groups = s.groups) (hb : t.blocks = s.blocks)
    (hf : ∀ z ∈ t.fld.xfers, ∃ w ∈ s.fld.xfers, z.id = w.id ∧ z.gid = w.gid) : Harmless s t gid :=
  ⟨hmem, fun n => by rw [State.node, hnodes]; rfl, (stays_of_same gid hg hb).resident, hf⟩

theorem deliverV_harmless {s : State} {gid : Nat} (h : Resident s gid) (r : Nat) (vals : List (Nat × Word)) (full : Bool) (why : Word) :
    Harmless s (s.deliverV gid r vals full why) gid :=
  harmless_of_stays (deliverV_resident h ..).1 (deliverV_resident h ..).2 (deliverV_fld h ..)

theorem endVisitor_harmless (s : State) (gid code reason : Nat) (addr : Dword) : Harmless s (s.endVisitor gid code reason addr) gid := by
  unfold State.endVisitor
  split
  · exact .refl s gid
  · split
    · exact .refl s gid
    · refine ⟨rfl, fun _ => rfl, fun _ g hg => ?_, fun z hz => ⟨z, hz, rfl, rfl⟩⟩
      rw [State.group, State.dropGroup, Sparse.find_del_same] at hg
      cases hg

theorem raise_harmless (s : State) (gid : Nat) (x : Imprecise) : Harmless s (s.raise gid x) gid := by
  unfold State.raise
  split
  · exact .refl s gid
  · rename_i g hg
    dsimp only
    split
    · exact endVisitor_harmless ..
    · have h := harmless_of_stays (setGroup_lessens s gid (withTrap g x)) (setGroup_stays (g' := withTrap g x) hg rfl rfl) rfl
      split
      · exact h
      · exact h.trans (harmless_of_stays (rouse_lessens ..) (rouse_stays ..) (rouse_fld ..))

theorem foldl_raise_harmless (gid : Nat) (l : List Imprecise) (s : State) : Harmless s (l.foldl (fun s x => s.raise gid x) s) gid := by
  induction l generalizing s with
  | nil => exact .refl s gid
  | cons x l ih => exact (raise_harmless s gid x).trans (ih _)

theorem raiseStores_harmless (s : State) (gid : Nat) (peer : Option Nat) : Harmless s (s.raiseStores gid peer) gid := by
  unfold State.raiseStores
  split
  · exact .refl s gid
  · rename_i g hg
    have h (l k : List Imprecise) : Harmless s (k.foldl (fun s x => s.raise gid x) (s.setGroup gid (withStoreFails g l))) gid := by
      have hset := harmless_of_stays (setGroup_lessens s gid (withStoreFails g l)) (setGroup_stays (g' := withStoreFails g l) hg rfl rfl) rfl
      exact hset.trans (foldl_raise_harmless gid k _)
    exact h _ _

theorem acquired_harmless (s : State) (gid n scope : Nat) : Harmless s (s.acquired n scope) gid := by
  unfold State.acquired
  split
  · refine ⟨rfl, fun j => ?_, (stays_of_same (s := s) (t := s.clearRb n) gid rfl rfl).resident, fun z hz => ⟨z, hz, rfl, rfl⟩⟩
    by_cases hj : j = n
    · rw [hj, State.clearRb, State.node_modNode]
    · rw [State.clearRb, State.modNode, State.node_setNode_other _ _ hj]
  · exact .refl s gid

theorem tryRetire_harmless (s : State) (gid : Nat) : Harmless s (s.tryRetire gid) gid := by
  obtain ⟨hl, hcase⟩ := tryRetire_leaves s gid
  refine ⟨(tryRetire_lessens ..).mem, (tryRetire_lessens ..).home, fun hs => ?_, hl.xfers⟩
  rcases hcase with h | h
  · rw [h]
    exact hs
  · intro g hg
    rw [h] at hg
    cases hg

theorem mails_harmless {s t : State} (h : Mails s t) (gid : Nat) : Harmless s t gid :=
  harmless_of_same gid h.mem h.nodes h.groups (congrArg State.blocks h.rest :) fun z hz => by
    have hx : t.fld.xfers = s.fld.xfers := (congrArg (fun u : State => u.fld.xfers) h.rest :)
    exact ⟨z, hx ▸ hz, rfl, rfl⟩

/-! ### The end of a transfer does no harm -/

theorem endXfer_harmless {s : State} {x : Xfer} (hres : Resident s x.gid) : Harmless s (s.endXfer x) x.gid := by
  unfold State.endXfer
  extract_lets _ s0 s1 s2 s3 pick lanes low addr s4 s5
  have h0 : Harmless s s0 x.gid := harmless_of_same x.gid rfl rfl rfl rfl fun z hz => ⟨z, List.mem_of_mem_filter hz, rfl, rfl⟩
  split
  · exact h0
  · have h1 : Harmless s0 s1 x.gid := by
      unfold s1
      split
      · exact acquired_harmless ..
      · exact .refl s0 x.gid
    have h2 : Harmless s1 s2 x.gid := by
      unfold s2
      split
      · exact deliverV_harmless ((h0.trans h1).resident hres) ..
      · exact .refl s1 x.gid
    have h3 : Harmless s2 s3 x.gid := by
      unfold s3
      split
      · exact raiseStores_harmless ..
      · exact .refl s2 x.gid
    have h4 : Harmless s3 s4 x.gid := by
      unfold s4
      split
      · exact .refl s3 x.gid
      · split
        · exact .refl s3 x.gid
        · split
          · exact .refl s3 x.gid
          · exact raise_harmless ..
    have h5 : Harmless s4 s5 x.gid := by
      unfold s5
      split
      · exact .refl s4 x.gid
      · split
        · exact .refl s4 x.gid
        · split
          · exact .refl s4 x.gid
          · exact raise_harmless ..
    exact (((((h0.trans h1).trans h2).trans h3).trans h4).trans h5).trans (tryRetire_harmless ..)

/-- The transfers with an identity are of one group. -/
def OwnedBy (s : State) (id gid : Nat) : Prop := ∀ z ∈ s.fld.xfers, z.id = id → z.gid = gid

theorem Harmless.owned {s t : State} {gid id : Nat} (h : Harmless s t gid) (hs : OwnedBy s id gid) : OwnedBy t id gid := by
  intro z hz hid
  obtain ⟨w, hw, hwid, hgid⟩ := h.xfers z hz
  rw [hgid]
  exact hs w hw (hwid ▸ hid)

/-- A transfer takes the place of some. -/
theorem replaced_xfers {l : List Xfer} {x y : Xfer} (hin : x ∈ l) (hid : y.id = x.id) (hgid : y.gid = x.gid) (p : Xfer → Bool) :
    ∀ z ∈ updWhere l p (fun _ => y), ∃ w ∈ l, z.id = w.id ∧ z.gid = w.gid := by
  intro z hz
  obtain ⟨w, hw, rfl⟩ := List.mem_map.mp hz
  split
  · exact ⟨x, hin, hid, hgid⟩
  · exact ⟨w, hw, rfl, rfl⟩

theorem resolve_harmless {s : State} {id gid : Nat} (hown : OwnedBy s id gid) (hres : Resident s gid) (lane code reason : Nat) :
    Harmless s (s.resolve id lane code reason) gid := by
  unfold State.resolve
  split
  · exact .refl s gid
  · rename_i x hx
    have hin := List.mem_of_find?_eq_some hx
    have hid : x.id = id := by simpa using List.find?_some hx
    obtain rfl := hown x hin hid
    extract_lets lost y _ s1 s2
    have h1 : Harmless s s1 x.gid := harmless_of_same x.gid rfl rfl rfl rfl (replaced_xfers (y := y) hin rfl rfl _)
    have h2 : Harmless s1 s2 x.gid := by
      unfold s2
      split
      · exact .refl s1 x.gid
      · exact deliverV_harmless (h1.resident hres) ..
    split
    · exact (h1.trans h2).trans (endXfer_harmless (x := y) ((h1.trans h2).resident hres))
    · exact h1.trans h2

/-- Some lanes of a transfer resolve one after the other. -/
theorem foldl_resolve_harmless {α : Type} {id gid : Nat} (lane code reason : α → Nat) (l : List α) {s : State} (hown : OwnedBy s id gid) (hres : Resident s gid) :
    Harmless s (l.foldl (fun s a => s.resolve id (lane a) (code a) (reason a)) s) gid := by
  induction l generalizing s with
  | nil => exact .refl s gid
  | cons a l ih =>
    have h := resolve_harmless hown hres (lane a) (code a) (reason a)
    exact h.trans (ih (h.owned hown) (h.resident hres))

/-! ### Traps of a shallow stack -/

theorem broadcastHalt_lessens (s : State) (gid : Nat) (g : Group) : Lessens s (s.broadcastHalt gid g) := lessens_of_same rfl rfl rfl

theorem count_lessens (s : State) (k : Nat) : Lessens s (s.count k) := lessens_of_same rfl rfl rfl

theorem terminate_lessens (s : State) (k cause : Nat) : Lessens s (s.terminate k cause) := by
  unfold State.terminate
  dsimp only
  split
  · exact (endBlock_lessens ..).trans (count_lessens ..)
  · exact endBlock_lessens ..

/-- A push that leaves the stack on chip writes nothing. -/
theorem spill_shallow (s : State) (old : Nat) {g : Group} (h : g.ctl.stack.length ≤ 16) : s.spill old g = s := by
  unfold State.spill
  split
  · rfl
  · rw [Nat.sub_eq_zero_of_le h, List.range_zero, List.drop_nil]
    rfl

theorem takeTrap_lessens {s : State} {gid : Nat} (hshallow : ∀ g, s.group gid = some g → g.ctl.stack.length < 16) (c : Nat) (lanes : Word) (addr aux p : Dword) :
    Lessens s (s.takeTrap gid c lanes addr aux p) := by
  unfold State.takeTrap
  split
  · exact .refl s
  · rename_i g hg
    have hlen := hshallow g hg
    split
    · exact endVisitor_lessens ..
    · extract_lets s1 _ g1 depth g2 s2 _ _ g3 handler _ g4 s3
      have h1 : Lessens s s1 := by
        unfold s1
        split
        · exact count_lessens ..
        · exact .refl s
      have h2 : s2 = s1 := spill_shallow s1 _ (show (g.ctl.stack.length + 1) ≤ 16 from hlen)
      have h3 : Lessens s1 s3 := by
        unfold s3
        rw [h2]
        exact setGroup_lessens ..
      rw [h2]
      split
      · exact h1.trans ((setGroup_lessens ..).trans (terminate_lessens ..))
      · split
        · exact h1.trans ((setGroup_lessens ..).trans (terminate_lessens ..))
        · split
          · exact h1.trans ((setGroup_lessens ..).trans (terminate_lessens ..))
          · split
            · exact h1.trans h3
            · split
              · exact h1.trans h3
              · exact h1.trans (h3.trans ((setBlock_lessens ..).trans (broadcastHalt_lessens ..)))

theorem trap_lessens {s : State} {gid : Nat} (hshallow : ∀ g, s.group gid = some g → g.ctl.stack.length < 16) (c : Cause) (lanes : Word) (addr aux : Dword) :
    Lessens s (s.trap gid c lanes addr aux) := by
  unfold State.trap State.trapTo
  split
  · exact .refl s
  · split
    · exact .refl s
    · split
      · split
        · exact (takeTrap_lessens hshallow ..).trans (modGroup_lessens ..)
        · exact setGroup_lessens ..
      · exact takeTrap_lessens hshallow ..

/-! ### Every origin check has been answered -/

/-- Messages that are sent one after the other, each in the state that those before it have left. -/
theorem foldl_send_mails {α : Type} (f : α → FMsg) (l : List α) (s : State) : Mails s (l.foldl (fun s a => s.send (f a)) s) :=
  foldl_rel Mails.refl Mails.trans l (fun t a _ => send_mails t (f a)) s

/-- The group, if it is there, has few entries on its stack. -/
def Shallow (s : State) (gid : Nat) : Prop := ∀ g, s.group gid = some g → g.ctl.stack.length < 16

theorem shallow_of_groups {s t : State} {gid : Nat} (h : t.groups = s.groups) (hs : Shallow s gid) : Shallow t gid := by
  intro g hg
  rw [State.group, h] at hg
  exact hs g hg

theorem shallow_of_landed {s t : State} {gid : Nat} {g g' : Group} (h : Landed s t gid g g') (hg : s.group gid = some g) (hs : Shallow s gid) : Shallow t gid := by
  intro a ha
  rw [Option.some.inj (ha.symm.trans h.now), h.ctl]
  exact hs g hg

theorem modGroup_shallow {s : State} {gid : Nat} (f : Group → Group) (hf : ∀ g, (f g).ctl = g.ctl) (hs : Shallow s gid) : Shallow (s.modGroup gid f) gid := by
  intro a ha
  unfold State.modGroup at ha
  split at ha
  · exact hs a ha
  · rename_i g hg
    rw [State.group_setGroup] at ha
    rw [← Option.some.inj ha, hf]
    exact hs g hg

theorem fillV_shallow {s : State} {gid : Nat} (hres : Resident s gid) (hs : Shallow s gid) (r : Nat) : Shallow (s.fillV gid r) gid := by
  cases hg : s.group gid with
  | none =>
    have hsame : s.fillV gid r = s := by simp only [State.fillV, State.deliverV, hg]
    rw [hsame]
    exact hs
  | some g =>
    obtain ⟨g', h, -, -⟩ := fillV_touched hg hres r
    exact shallow_of_landed h.toLanded hg hs

/-- What a transfer does once every origin check is answered leaves memory and the records of the homes. -/
theorem settle_kept {s : State} {x : Xfer} (hown : OwnedBy s x.id x.gid) (hres : Resident s x.gid) (hshallow : Shallow s x.gid) :
    (s.settle x).mem = s.mem ∧ ∀ n, ((s.settle x).node n).home = (s.node n).home := by
  unfold State.settle
  split
  · extract_lets _ s1 _ s2 low addr c
    have hmails : Mails s s1 := foldl_send_mails (fun h => { FMsg.blank with kind := .giveBack, home := h, xid := x.id }) _ s
    have h1 := mails_harmless hmails x.gid
    have h2 : Harmless s1 s2 x.gid := harmless_of_same x.gid rfl rfl rfl rfl fun z hz => ⟨z, List.mem_of_mem_filter hz, rfl, rfl⟩
    have h12 := h1.trans h2
    split
    · exact ⟨h12.mem, h12.home⟩
    · have hfill : Harmless s2 (s2.fillV x.gid x.dst) x.gid := deliverV_harmless (h12.resident hres) ..
      have hsh : Shallow s2 x.gid := shallow_of_groups (s := s) hmails.groups hshallow
      have htrap := trap_lessens (modGroup_shallow (fun g => { g with sched := { g.sched with hold := .none } }) (fun _ => rfl)
        (fillV_shallow (h12.resident hres) hsh x.dst)) .fneg (maskOf (fun L => x.short.any (fun q => q.1 = L))) (BitVec.ofNat 64 addr) (BitVec.ofInt 64 c)
      have hmod := modGroup_lessens (s2.fillV x.gid x.dst) x.gid fun g => { g with sched := { g.sched with hold := .none } }
      have h := h12.trans hfill
      exact ⟨htrap.mem.trans (hmod.mem.trans h.mem), fun n => (htrap.home n).trans ((hmod.home n).trans (h.home n))⟩
  · extract_lets go _ s1 s2 unsent s3 s4 s5
    have h1 : Harmless s s1 x.gid := mails_harmless (foldl_send_mails (fun h => { FMsg.blank with kind := .go, home := h, xid := x.id, lanes := go }) _ s) x.gid
    have h2 : Harmless s1 s2 x.gid := by
      unfold s2
      split
      · exact .refl s1 x.gid
      · rename_i g hg
        split
        · exact harmless_of_stays (setGroup_lessens ..) (setGroup_stays (g' := g.past 16) hg rfl rfl) rfl
        · exact .refl s1 x.gid
    have h3 : Harmless s2 s3 x.gid := by
      unfold s3
      split
      · exact raise_harmless ..
      · exact .refl s2 x.gid
    have h123 := (h1.trans h2).trans h3
    have h4 : Harmless s3 s4 x.gid := foldl_resolve_harmless (fun q : Nat × Int => q.1) (fun _ => 1) (fun _ => 0) x.short (h123.owned hown) (h123.resident hres)
    have h1234 := h123.trans h4
    have h5 : Harmless s4 s5 x.gid := foldl_resolve_harmless (fun l : FLane => l.lane) (fun _ => 0) (fun _ => 0) (x.left.filter selfLane) (h1234.owned hown)
      (h1234.resident hres)
    have h := h1234.trans h5
    split
    · have hend := h.trans (endXfer_harmless (h.resident hres))
      exact ⟨hend.mem, hend.home⟩
    · exact ⟨h.mem, h.home⟩

/-! ### A debit -/

/-- The floor of the cell of a lane. -/
def floorAt (s : State) (l : FLane) : Int := match s.domain l.did with | none => 0 | some d => d.floorOf (d.cell l.oaddr)

/-- The record into which a debit puts its amount. -/
def heldRecord (x : Xfer) (m : FMsg) (l : FLane) (h : Home) : Mortar :=
  { amt := l.amt, daddr := l.daddr, oaddr := l.oaddr, okey := l.okey, oil := l.oil, dkey := l.dkey, dil := l.dil,
    seq := m.home * 2 ^ 40 + h.counter % 2 ^ 40, ddev := l.ddev, did := l.did, lane := l.lane, icore := x.node, xid := x.id,
    itag := x.itag, gup := l.gup, state := .held, fabric := l.fabric, deadline := 0, lmask := 0, busyAt := none, q64 := x.q64 }

/-- A home with another record. -/
def withRecord (x : Xfer) (m : FMsg) (l : FLane) (h : Home) : Home := { h with mortars := h.mortars ++ [heldRecord x m l h], counter := h.counter + 1 }

/-- A transfer with a debit that was withheld. -/
def withShort (l : FLane) (c : Int) (y : Xfer) : Xfer := { y with short := y.short ++ [(l.lane, c)] }

/-- The debit of a lane whose cell can be read. -/
theorem debitLane_clean {s : State} {x : Xfer} {l : FLane} (hclean : Clean s l.oil l.okey x.bytes) (m : FMsg) :
    s.debitLane x m l =
      if signed x.bytes (Mem.num s.mem l.okey x.bytes) - l.amt < floorAt (s.readAt l.oil l.okey x.bytes).1 l then
        { (s.readAt l.oil l.okey x.bytes).1 with fld := { (s.readAt l.oil l.okey x.bytes).1.fld with
          xfers := updWhere (s.readAt l.oil l.okey x.bytes).1.fld.xfers (fun y => y.id = x.id) (withShort l (signed x.bytes (Mem.num s.mem l.okey x.bytes))) } }
      else ((s.readAt l.oil l.okey x.bytes).1.writeCell l.oil l.okey x.bytes (signed x.bytes (Mem.num s.mem l.okey x.bytes) - l.amt)
        ((s.readAt l.oil l.okey x.bytes).1.xferReleased x)).modHome m.home (withRecord x m l) := by
  rw [State.debitLane, readCell_clean hclean]
  rfl

/-- A transfer that a home has answered. -/
def answeredBy (home : Nat) (y : Xfer) : Xfer := { y with waiting := y.waiting.filter (· ≠ home) }

/-- The transfer stands with the answer of a home. -/
def withAnswer (u : State) (id home : Nat) (y : Xfer) : State :=
  { u with fld := { u.fld with xfers := updWhere u.fld.xfers (fun z => z.id = id) (fun _ => answeredBy home y) } }

/-- What a home's answer leads to. -/
def answered (u : State) (id home : Nat) (y : Xfer) : State :=
  if (answeredBy home y).waiting.isEmpty then (withAnswer u id home y).settle (answeredBy home y) else withAnswer u id home y

/-- A home's answer leaves memory and the records of the homes. -/
theorem answered_kept {u : State} {home : Nat} {y : Xfer} (hres : Resident u y.gid) (hshallow : Shallow u y.gid) :
    (answered u y.id home y).mem = u.mem ∧ ∀ n, ((answered u y.id home y).node n).home = (u.node n).home := by
  have hown : OwnedBy (withAnswer u y.id home y) y.id y.gid := by
    intro z hz hid
    obtain ⟨w, -, rfl⟩ := List.mem_map.mp hz
    by_cases hw : w.id = y.id
    · rw [if_pos (decide_eq_true hw)]
      rfl
    · rw [if_neg (by simpa using hw)] at hid
      exact absurd hid hw
  unfold answered
  split
  · exact settle_kept (s := withAnswer u y.id home y) (x := answeredBy home y) hown hres hshallow
  · exact ⟨rfl, fun _ => rfl⟩

/-- The core's order of releases has a place for the transfer. -/
def pointed (s : State) (x : Xfer) : State := if x.rel && x.scope = 1 then s.addPoint x.node x.gid x.id else s

/-- A debit of one lane that nothing holds back is made. -/
theorem debit_acts {s : State} {m : Nat} {d : FMsg} {p : Option Packet} {x y : Xfer} {l : FLane} (h : Stands s m .debit d p)
    (hx : s.fld.xfers.find? (fun y => y.id = d.xid) = some x) (hwaits : s.debitWaits x d = false) (hlanes : d.lanes = [l])
    (hheld : s.heldBefore x.gid x.releaseBound = false) (hremote : s.remote x.rmt x.node [(l.okey, x.bytes)] = none)
    (hy : ((pointed s x).debitLane x d l).fld.xfers.find? (fun y => y.id = x.id) = some y) :
    exec (.debit m) s = .next ((answered ((pointed s x).debitLane x d l) x.id d.home y).acted m p) := by
  have hkind := stands_kind h
  have htouches (fabric : Bool) : s.touches d fabric = [(d.home, l.did, l.oaddr)] := by
    simp only [State.touches, hkind, hlanes, List.map_cons, List.map_nil]
  have hgoes : s.goes m d false = [(d.home, l.did, l.oaddr)] :=
    (goes_congr (by rw [htouches, htouches]) m).trans (goes_of_free (htouches p.isSome) h.free)
  have hserved : servedLanes d (s.goes m d false) = [l] := by
    rw [servedLanes, hgoes, hlanes]
    simp
  change execDebit m s = _
  rw [execDebit]
  refine onMsg_acts h (by simp only [hx, hwaits]; rfl) ?_
  dsimp only
  rw [hx]
  dsimp only
  rw [hserved, if_neg (by rw [hheld]; decide), List.map_cons, List.map_nil, hremote]
  dsimp only
  have hrest : [l].filter (fun k => !([l] : List FLane).contains k) = [] := by simp
  rw [hlanes, hrest, if_neg (by decide)]
  have hone : [l].foldl (fun s l => s.debitLane x d l) (if x.rel && x.scope = 1 then s.addPoint x.node x.gid x.id else s) =
    (pointed s x).debitLane x d l := rfl
  rw [hone, hy]
  rfl

/-- The place in the order of releases is beside everything that a debit reads. -/
theorem pointed_kept (s : State) (x : Xfer) : (pointed s x).mem = s.mem ∧ (pointed s x).nodes = s.nodes ∧ (pointed s x).groups = s.groups ∧
    (pointed s x).blocks = s.blocks ∧ (pointed s x).fld = s.fld := by
  unfold pointed
  split <;> exact ⟨rfl, rfl, rfl, rfl, rfl⟩

theorem clean_pointed {s : State} {il key n : Nat} (h : Clean s il key n) (x : Xfer) : Clean (pointed s x) il key n := by
  unfold pointed
  split
  · unfold Clean State.reach at h ⊢
    by_cases hown : (8 ≤ il || 2 ^ 39 ≤ key) = true
    · rw [if_pos hown] at h ⊢
      exact h
    · rw [if_neg hown] at h ⊢
      exact h
  · exact h

theorem find_updWhere_some {l : List Xfer} {i : Nat} {x : Xfer} (h : l.find? (fun z => z.id = i) = some x) {f : Xfer → Xfer} (hf : ∀ z, (f z).id = z.id) :
    (updWhere l (fun z => z.id = i) f).find? (fun z => z.id = i) = some (f x) := by
  induction l with
  | nil => cases h
  | cons z l ih =>
    rw [updWhere, List.map_cons, List.find?_cons]
    rw [List.find?_cons] at h
    by_cases hz : z.id = i
    · simp only [hz, decide_true] at h
      cases h
      simp [hz, hf]
    · simp only [hz, decide_false, Bool.false_eq_true, if_false] at h ⊢
      exact ih h

/-- What a debit leaves before the home's answer is counted. -/
structure Debited (s u : State) (x : Xfer) (d : FMsg) (l : FLane) (c : Int) : Prop where
  groups : u.groups = s.groups
  blocks : u.blocks = s.blocks
  xfer : ∃ y, u.fld.xfers.find? (fun y => y.id = x.id) = some y ∧ y.gid = x.gid ∧ y.id = x.id
  taken : floorAt s l ≤ c - l.amt → u.mem = Mem.wrBytes s.mem l.okey (signedBytes x.bytes (c - l.amt)) ∧
    heldRecord x d l (s.node d.home).home ∈ (u.node d.home).home.mortars
  withheld : c - l.amt < floorAt s l → u.mem = s.mem ∧ (u.node d.home).home.mortars = (s.node d.home).home.mortars

theorem debitLane_debited {s : State} {x : Xfer} {l : FLane} (hclean : Clean s l.oil l.okey x.bytes)
    (hx : s.fld.xfers.find? (fun y => y.id = x.id) = some x) (d : FMsg) :
    Debited s (s.debitLane x d l) x d l (signed x.bytes (Mem.num s.mem l.okey x.bytes)) := by
  have hread := readAt_readHome s l.oil l.okey x.bytes
  have hfloor : floorAt (s.readAt l.oil l.okey x.bytes).1 l = floorAt s l := by
    rw [floorAt, floorAt, State.domain, State.domain, hread.wroteHome.fld]
  rw [debitLane_clean hclean, hfloor]
  by_cases hlt : signed x.bytes (Mem.num s.mem l.okey x.bytes) - l.amt < floorAt s l
  · rw [if_pos hlt]
    refine ⟨hread.groups_eq, hread.wroteHome.blocks_eq, ?_, fun h => absurd hlt (Int.not_lt.mpr h), fun _ => ⟨hread.mem_eq, ?_⟩⟩
    · refine ⟨withShort l (signed x.bytes (Mem.num s.mem l.okey x.bytes)) x, find_updWhere_some ?_ fun _ => rfl, rfl, rfl⟩
      exact (congrArg (fun f : Fld => f.xfers.find? (fun y => y.id = x.id)) hread.wroteHome.fld).trans hx
    · exact congrArg Home.mortars (hread.wroteHome.home d.home)
  · rw [if_neg hlt]
    have hwrote := hread.wroteHome.trans (writeCell_wroteHome (s.readAt l.oil l.okey x.bytes).1 l.oil l.okey x.bytes
      (signed x.bytes (Mem.num s.mem l.okey x.bytes) - l.amt) ((s.readAt l.oil l.okey x.bytes).1.xferReleased x))
    refine ⟨hwrote.groups, hwrote.blocks_eq, ⟨x, ?_, rfl, rfl⟩, fun _ => ⟨writeCell_read_mem hclean _ _, ?_⟩, fun h => absurd h hlt⟩
    · exact (congrArg (fun f : Fld => f.xfers.find? (fun y => y.id = x.id)) hwrote.fld).trans hx
    · rw [node_modHome, hwrote.home]
      exact List.mem_append_right _ (List.mem_singleton_self _)

/-- Settles the part of O33 on debits. -/
theorem debitConserves : DebitConserves := by
  intro s m d p x l h hx hwaits hlanes hheld hremote hclean hshort hstatus hgroup
  have hid : x.id = d.xid := by simpa using List.find?_some hx
  obtain ⟨hpmem, hpnodes, hpgroups, hpblocks, hpfld⟩ := pointed_kept s x
  have hx' : (pointed s x).fld.xfers.find? (fun y => y.id = x.id) = some x := by
    rw [hpfld, hid]
    exact hx
  have hdebit := debitLane_debited (clean_pointed hclean x) hx' d
  obtain ⟨y, hy, hgid, hyid⟩ := hdebit.xfer
  have hgroups : ((pointed s x).debitLane x d l).groups = s.groups := hdebit.groups.trans hpgroups
  have hblocks : ((pointed s x).debitLane x d l).blocks = s.blocks := hdebit.blocks.trans hpblocks
  have hres : Resident ((pointed s x).debitLane x d l) y.gid :=
    (stays_of_same y.gid hgroups hblocks).resident fun g hg => (hgroup g (hgid ▸ hg)).1
  have hshallow : Shallow ((pointed s x).debitLane x d l) y.gid := shallow_of_groups hgroups fun g hg => (hgroup g (hgid ▸ hg)).2
  obtain ⟨hmem, hhome⟩ := answered_kept (home := d.home) hres hshallow
  rw [hyid] at hmem hhome
  have htaken := hdebit.taken
  have hwithheld := hdebit.withheld
  have hfloor : floorAt (pointed s x) l = floorAt s l := by rw [floorAt, floorAt, State.domain, State.domain, hpfld]
  have hnode : (pointed s x).node d.home = s.node d.home := by rw [State.node, State.node, hpnodes]
  rw [hfloor, hpmem, hnode] at htaken hwithheld
  rw [← hmem, ← hhome] at htaken hwithheld
  refine ⟨_, debit_acts h hx hwaits hlanes hheld hremote hy, acted_gone _ _ _, fun k hk => ?_, fun hle => ?_, fun hlt => ?_⟩
  · rw [acted_mem]
    rcases Int.lt_or_le (signed x.bytes (Mem.num s.mem l.okey x.bytes) - l.amt) (floorAt s l) with hlt | hle
    · rw [(hwithheld hlt).1]
    · rw [(htaken hle).1, rd_wrBytes_signed _ _ hk]
  · obtain ⟨hm, hr⟩ := htaken hle
    rw [acted_mem, acted_node, hm]
    exact ⟨num_wrBytes_signed .., _, hr, rfl, rfl, rfl, rfl⟩
  · obtain ⟨hm, hr⟩ := hwithheld hlt
    rw [acted_mem, acted_node, hm]
    exact ⟨rfl, hr⟩

/-- Settles O33, for debits and for credits. -/
theorem homesConserve : Obligations.HomesConserve := ⟨debitConserves, creditConserves⟩

end Sys2Proof.Proofs
end

section
/-! Snapshots of a domain, and the activation of domains (spec 08, R185, R187; spec 15, R347). -/

namespace Sys2Proof.Proofs

open Sys2Proof Sys2Proof.Machine Sys2Proof.Claims

/-! ### What leaves the domains, the snapshots and the homes -/

theorem putDst_fld (s : State) (gid : Nat) (x : BitVec 8) (v : Word) : (s.putDst gid x v).fld = s.fld := by
  unfold State.putDst State.writeS
  split
  · exact modGroup_fld ..
  · split
    · exact modGroup_fld ..
    · rfl

/-- The field machinery is as it was but for its transfers. -/
def OnlyXfers (a b : Fld) : Prop := { b with xfers := a.xfers } = a

theorem onlyXfers_of_eq {a b : Fld} (h : b = a) : OnlyXfers a b := by rw [h]; rfl

theorem OnlyXfers.trans {a b c : Fld} (h : OnlyXfers a b) (k : OnlyXfers b c) : OnlyXfers a c := by
  have hk : { c with xfers := b.xfers } = b := k
  have hstep := congrArg (fun f : Fld => { f with xfers := a.xfers }) hk
  exact hstep.trans h

/-- Domains, snapshots and the homes stay. -/
structure FieldsKept (s t : State) : Prop where
  home : ∀ n, (t.node n).home = (s.node n).home
  fld : OnlyXfers s.fld t.fld

theorem FieldsKept.refl (s : State) : FieldsKept s s := ⟨fun _ => rfl, rfl⟩

theorem FieldsKept.trans {s t u : State} (h : FieldsKept s t) (k : FieldsKept t u) : FieldsKept s u :=
  ⟨fun n => (k.home n).trans (h.home n), h.fld.trans k.fld⟩

theorem FieldsKept.snaps {s t : State} (h : FieldsKept s t) : t.fld.snaps = s.fld.snaps := (congrArg Fld.snaps h.fld :)

theorem FieldsKept.domain {s t : State} (h : FieldsKept s t) (did : Nat) : t.domain did = s.domain did :=
  (congrArg (fun f : Fld => Sparse.find f.domains did) h.fld :)

theorem fieldsKept_of_fld {s t : State} (hhome : ∀ n, (t.node n).home = (s.node n).home) (hfld : t.fld = s.fld) : FieldsKept s t :=
  ⟨hhome, onlyXfers_of_eq hfld⟩

theorem WroteHome.fieldsKept {s t : State} (h : WroteHome s t) : FieldsKept s t := fieldsKept_of_fld h.home h.fld

theorem deliverS_fieldsKept (s : State) (gid r : Nat) (x : Word) (full : Bool) (why : Word) : FieldsKept s (s.deliverS gid r x full why) := by
  by_cases h : Resident s gid
  · refine fieldsKept_of_fld (deliverS_resident h ..).1.home ?_
    unfold State.deliverS
    split
    · rfl
    · rename_i g hg
      simp only [h g hg]
      have hput := putDst_fld s gid (BitVec.ofNat 8 r) x
      split
      · split
        · exact (unpark_fld ..).trans ((modGroup_fld ..).trans hput)
        · exact (modGroup_fld ..).trans hput
      · exact hput
  · unfold State.deliverS
    split
    · exact .refl s
    · rename_i g hg
      split
      · exact (imageS_wroteHome s ..).fieldsKept
      · rename_i hnone
        exact absurd (fun x hx => by rw [hg] at hx; cases hx; exact hnone) h

theorem modGrid_fld (s : State) (k : Nat) (f : Grid → Grid) : (s.modGrid k f).fld = s.fld := by
  unfold State.modGrid
  split <;> rfl

theorem reap_fld (s : State) : s.reap.fld = s.fld := by
  refine foldl_rel (R := fun s t : State => t.fld = s.fld) (fun _ => rfl) (fun h k => k.trans h) _ (fun t k _ => ?_) s
  unfold State.reapBlock
  split
  · rfl
  · split
    · rfl
    · split <;> rfl

theorem endBlock_onlyXfers (s : State) (k : Nat) (cause : Option Nat) : OnlyXfers s.fld (s.endBlock k cause).fld := by
  unfold State.endBlock
  split
  · rfl
  · extract_lets gone s1 s2 _ _ s3
    have h2 : s2.fld = s.fld := by
      unfold s2
      split <;> rfl
    have h3 : OnlyXfers s2.fld s3.fld := rfl
    exact ((onlyXfers_of_eq h2).trans h3).trans (onlyXfers_of_eq ((reap_fld _).trans (modGrid_fld ..)))

theorem endHalt_fld (s : State) (k : Nat) : (s.endHalt k).fld = s.fld := by
  change (s.modBlock k _).fld = s.fld
  unfold State.modBlock
  split <;> rfl

theorem tryRetire_fieldsKept (s : State) (gid : Nat) : FieldsKept s (s.tryRetire gid) := by
  refine ⟨(tryRetire_lessens ..).home, ?_⟩
  unfold State.tryRetire
  split
  · rfl
  · split
    · rfl
    · extract_lets _ _ s1
      split
      · rfl
      · extract_lets slots s2 s3 s4
        have h2 : OnlyXfers s.fld s2.fld := rfl
        have h3 : s3.fld = s2.fld := by
          unfold s3
          split
          · exact endHalt_fld ..
          · rfl
        have h4 : s4.fld = s3.fld := by
          unfold s4
          split
          · rfl
          · exact modGrid_fld ..
        have h := h2.trans (onlyXfers_of_eq (h4.trans h3))
        split
        · exact h.trans (endBlock_onlyXfers ..)
        · exact h

theorem raise_fieldsKept (s : State) (gid : Nat) (x : Imprecise) : FieldsKept s (s.raise gid x) := by
  refine fieldsKept_of_fld (raise_lessens ..).home ?_
  unfold State.raise
  split
  · rfl
  · dsimp only
    split
    · unfold State.endVisitor
      split
      · rfl
      · split <;> rfl
    · split
      · rfl
      · exact rouse_fld ..

/-! ### HOLD -/

/-- A home with the hold of a snapshot. -/
def heldFor (x : Snap) (until_ : Nat) (h : Home) : Home := { h with holds := h.holds ++ [(x.id, x.did, until_)] }

/-- A home's answer. -/
def answerOfHome (s : State) (d : Domain) (o : Nat) : Nat × Dword × Dword := (o, BitVec.ofInt 64 (s.sumAt d o 1), BitVec.ofInt 64 (s.sumAt d o 2))

/-- The snapshots of an identity have another answer. -/
def withHomeAnswer (s : State) (id : Nat) (a : Nat × Dword × Dword) : State :=
  { s with fld := { s.fld with snaps := updWhere s.fld.snaps (fun y => y.id = id) (fun y => { y with answers := y.answers ++ [a] }) } }

theorem hold_eq {s : State} {x : Snap} {d : Domain} {o : Nat} (hx : s.fld.snaps.find? (fun y => y.id = x.id) = some x) (hd : s.domain x.did = some d)
    (hbegun : x.begun = true) (hin : o ∈ x.homes) (hnew : ∀ a ∈ x.answers, a.1 ≠ o) (ho : o < 256) (hfree : ∀ h ∈ (s.node o).home.holds, h.1 ≠ x.id) :
    exec (.hold x.id o) s = .next (if x.h0 + gupCycles d.gup / 2 < s.clock.toNat then s.modHome o (heldFor x (s.clock.toNat + gupCycles d.gup))
      else withHomeAnswer (s.modHome o (heldFor x (s.clock.toNat + gupCycles d.gup))) x.id (answerOfHome s d o)) := by
  have hheld : (s.node o).home.holds.any (fun h => h.1 = x.id) = false := List.any_eq_false.mpr fun h hh => by simpa using hfree h hh
  have hanswered : x.answers.any (fun a => a.1 = o) = false := List.any_eq_false.mpr fun a ha => by simpa using hnew a ha
  have hcontains : x.homes.contains o = true := List.contains_iff_mem.mpr hin
  change execHold x.id o s = _
  simp only [execHold, hx, hd, hheld, hbegun, hcontains, hanswered, Bool.and_false, Bool.not_true, Bool.or_self, Bool.false_eq_true, if_false, if_pos ho]
  rfl

theorem hold_answers {s : State} {x : Snap} {d : Domain} {o : Nat} (hx : s.fld.snaps.find? (fun y => y.id = x.id) = some x) (hd : s.domain x.did = some d)
    (hbegun : x.begun = true) (hin : o ∈ x.homes) (hnew : ∀ a ∈ x.answers, a.1 ≠ o) (ho : o < 256) (hfree : ∀ h ∈ (s.node o).home.holds, h.1 ≠ x.id) :
    ∃ t, exec (.hold x.id o) s = .next t ∧ t.mem = s.mem ∧ (∃ h ∈ (t.node o).home.holds, h.1 = x.id ∧ h.2.1 = x.did) ∧
      (s.clock.toNat ≤ x.h0 + gupCycles d.gup / 2 → ∀ y ∈ t.fld.snaps, y.id = x.id → ∃ a ∈ y.answers, a.1 = o ∧
        a.2.1 = BitVec.ofInt 64 (s.sumAt d o 1) ∧ a.2.2 = BitVec.ofInt 64 (s.sumAt d o 2)) := by
  have hholds : ∃ h ∈ ((s.modHome o (heldFor x (s.clock.toNat + gupCycles d.gup))).node o).home.holds, h.1 = x.id ∧ h.2.1 = x.did := by
    rw [node_modHome]
    exact ⟨_, List.mem_append_right _ (List.mem_singleton_self _), rfl, rfl⟩
  refine ⟨_, hold_eq hx hd hbegun hin hnew ho hfree, ?_, ?_, fun hintime y hy hid => ?_⟩
  · split <;> rfl
  · split
    · exact hholds
    · exact hholds
  · rw [if_neg (Nat.not_lt.mpr hintime)] at hy
    obtain ⟨z, -, rfl⟩ := List.mem_map.mp hy
    by_cases hz : z.id = x.id
    · rw [if_pos (decide_eq_true hz)]
      exact ⟨answerOfHome s d o, List.mem_append_right _ (List.mem_singleton_self _), rfl, rfl, rfl⟩
    · rw [if_neg (by simpa using hz)] at hid
      exact absurd hid hz

/-! ### The end of a snapshot -/

/-- Every home has resumed. -/
structure Resumed (s t : State) (id : Nat) : Prop where
  groups : t.groups = s.groups
  blocks : t.blocks = s.blocks
  snaps : ∀ y ∈ t.fld.snaps, y.id ≠ id
  holds : ∀ n, ∀ h ∈ (t.node n).home.holds, h.1 ≠ id

/-- A node whose home a snapshot holds no more. -/
def resumed (id : Nat) (n : Node) : Node := { n with home := { n.home with holds := n.home.holds.filter (fun h => h.1 ≠ id) } }

theorem resumed_holds (s : State) (id n : Nat) : ∀ h ∈ ((s.mapNodes (resumed id)).node n).home.holds, h.1 ≠ id := by
  intro h hh
  rw [node_mapNodes (f := resumed id) rfl] at hh
  simpa using (List.mem_filter.mp hh).2

/-- The snapshots without one of them, whose homes have resumed. -/
def withoutSnap (s : State) (id : Nat) : State :=
  { s.mapNodes (resumed id) with fld := { s.fld with snaps := s.fld.snaps.filter (fun y => y.id ≠ id) } }

/-- The homes of the other members are told. -/
def othersTold (s : State) (x : Snap) : State :=
  match s.domain x.did with
  | none => s
  | some d => if d.anchor = s.devid then (x.homes.filter (fun h => 256 ≤ h)).foldl (fun s h => s.emit (.release x.did (h - 256))) s else s

theorem endSnap_eq (s : State) (x : Snap) : s.endSnap x = (othersTold (withoutSnap s x.id) x).beginSnaps := rfl

theorem othersTold_begun (s : State) (x : Snap) : SnapsBegun s (othersTold s x) := by
  unfold othersTold
  split
  · exact .refl s
  · split
    · exact foldl_rel SnapsBegun.refl SnapsBegun.trans _ (fun t h _ => emit_begun t (.release x.did (h - 256))) s
    · exact .refl s

theorem endSnap_resumed (s : State) (x : Snap) : Resumed s (s.endSnap x) x.id := by
  rw [endSnap_eq]
  have h := (othersTold_begun (withoutSnap s x.id) x).trans (beginSnaps_begun _)
  refine ⟨(congrArg State.groups h.rest :), (congrArg State.blocks h.rest :), fun y hy => ?_, fun n => ?_⟩
  · obtain ⟨z, hz, hw⟩ := h.of_mem hy
    have hid : z.id = y.id := (congrArg (·.1) hw :)
    have hne : z.id ≠ x.id := by simpa using (List.mem_filter.mp hz).2
    rwa [hid] at hne
  · have hnodes : (othersTold (withoutSnap s x.id) x).beginSnaps.nodes = (s.mapNodes (resumed x.id)).nodes := (congrArg State.nodes h.rest :)
    rw [State.node, hnodes]
    exact resumed_holds s x.id n

theorem FieldsKept.resumed {s t u : State} {id : Nat} (k : FieldsKept t u) (h : Resumed s t id) :
    (∀ y ∈ u.fld.snaps, y.id ≠ id) ∧ ∀ n, ∀ h ∈ (u.node n).home.holds, h.1 ≠ id :=
  ⟨by rw [k.snaps]; exact h.snaps, fun n => by rw [k.home]; exact h.holds n⟩

/-- Two scalar registers receive what a snapshot or a declaration answers, and the group may then retire. -/
theorem answered_landed {s t : State} (hgroups : t.groups = s.groups) (hblocks : t.blocks = s.blocks) {gid r : Nat} (v w : Word) (hr : r + 1 < 128) :
    Claims.Landed s (((t.deliverS gid r v true 0).deliverS gid (r + 1) w true 0).tryRetire gid) gid r v ∧
      Claims.Landed s (((t.deliverS gid r v true 0).deliverS gid (r + 1) w true 0).tryRetire gid) gid (r + 1) w := by
  have hboth (g : Group) (hg : s.group gid = some g) (himage : s.imageOf g = none) (hlive : g.ctl.livem ≠ 0) :
      ∃ g', (((t.deliverS gid r v true 0).deliverS gid (r + 1) w true 0).tryRetire gid).group gid = some g' ∧ g'.ctl = g.ctl ∧
        (g'.rdS r = v ∧ g'.isEmpty true r = false) ∧ g'.rdS (r + 1) = w ∧ g'.isEmpty true (r + 1) = false := by
    have hg' : t.group gid = some g := by rw [State.group, hgroups]; exact hg
    have himage' : t.imageOf g = none := (stays_of_same gid hgroups hblocks).resident (resident_of hg himage) g hg'
    obtain ⟨g', h, hlow, hhigh⟩ := deliverS_both hg' himage' hr v w
    rw [tryRetire_of_live h.now (by rwa [h.ctl])]
    exact ⟨g', h.now, h.ctl, hlow, hhigh⟩
  refine ⟨fun g hg himage hlive _ => ?_, fun g hg himage hlive _ => ?_⟩
  · obtain ⟨g', hnow, hctl, ⟨hval, hfull⟩, -⟩ := hboth g hg himage hlive
    exact ⟨g', hnow, hctl, hval, hfull⟩
  · obtain ⟨g', hnow, hctl, -, hval, hfull⟩ := hboth g hg himage hlive
    exact ⟨g', hnow, hctl, hval, hfull⟩

/-- The figure that a snapshot answers. -/
theorem value_eq {x : Snap} (d : Domain) (hfigure : x.figure ≠ 0) :
    x.value d = (if x.figure = 2 then (x.answers.map (·.2.1)).foldl (· + ·) 0 else if x.figure = 3 then (x.answers.map (·.2.2)).foldl (· + ·) 0
      else d.c - (x.answers.map (·.2.1)).foldl (· + ·) 0 - (x.answers.map (·.2.2)).foldl (· + ·) 0) := by
  have hsum : x.answers.foldl (fun v a => v + a.2.1) 0 = (x.answers.map (·.2.1)).foldl (· + ·) (0 : Dword) := (List.foldl_map ..).symm
  have hsink : x.answers.foldl (fun v a => v + a.2.2) 0 = (x.answers.map (·.2.2)).foldl (· + ·) (0 : Dword) := (List.foldl_map ..).symm
  rw [← hsum, ← hsink]
  unfold Snap.value
  dsimp only
  split
  · rename_i h
    exact absurd h hfigure
  · rename_i h
    rw [if_pos h]
  · rename_i h
    rw [h]
    rfl
  · rename_i h2 h3
    rw [if_neg h2, if_neg h3]

theorem answerSnap_fieldsKept (s : State) (x : Snap) (d : Domain) (late : Option Nat) : FieldsKept s (s.answerSnap x d late) := by
  unfold State.answerSnap
  split
  · exact ((deliverS_fieldsKept ..).trans (deliverS_fieldsKept ..)).trans (tryRetire_fieldsKept ..)
  · exact (raise_fieldsKept ..).trans (tryRetire_fieldsKept ..)
  all_goals exact ⟨fun _ => rfl, rfl⟩

theorem answerSnap_done (s : State) {x : Snap} {gid r : Nat} (hasker : x.asker = .group gid r) (d : Domain) :
    s.answerSnap x d none = ((s.deliverS gid r ((x.value d).truncate 32) true 0).deliverS gid (r + 1) ((x.value d >>> 32).truncate 32) true 0).tryRetire gid := by
  simp only [State.answerSnap, hasker]

theorem answerSnap_late (s : State) {x : Snap} {gid r : Nat} (hasker : x.asker = .group gid r) (d : Domain) (dev : Nat) :
    s.answerSnap x d (some dev) = (s.raise gid { cause := 16, lanes := 0, addr := 0, aux := BitVec.ofNat 64 (dev + 4096) }).tryRetire gid := by
  simp only [State.answerSnap, hasker]

theorem release_answers {s : State} {x : Snap} {d : Domain} (hx : s.fld.snaps.find? (fun y => y.id = x.id) = some x) (hd : s.domain x.did = some d)
    (hdone : snapDone x = true) :
    ∃ t, exec (.snapshotRelease x.id) s = .next t ∧ (∀ y ∈ t.fld.snaps, y.id ≠ x.id) ∧ (∀ n, ∀ h ∈ (t.node n).home.holds, h.1 ≠ x.id) ∧
      ∀ gid r, x.asker = .group gid r → r + 1 < 128 → x.figure ≠ 0 →
        (let sources := (x.answers.map (·.2.1)).foldl (· + ·) (0 : Dword)
         let sinks := (x.answers.map (·.2.2)).foldl (· + ·) (0 : Dword)
         let v := if x.figure = 2 then sources else if x.figure = 3 then sinks else d.c - sources - sinks
         Claims.Landed s t gid r (v.truncate 32) ∧ Claims.Landed s t gid (r + 1) ((v >>> 32).truncate 32)) := by
  have hexec : exec (.snapshotRelease x.id) s = .next ((s.endSnap x).answerSnap x d none) := by
    change execSnapshotRelease x.id s = _
    simp only [execSnapshotRelease, hx, hd, hdone, if_true]
  have hended := endSnap_resumed s x
  obtain ⟨hsnaps, hholds⟩ := (answerSnap_fieldsKept (s.endSnap x) x d none).resumed hended
  refine ⟨_, hexec, hsnaps, hholds, fun gid r hasker hr hfigure => ?_⟩
  dsimp only
  rw [← value_eq d hfigure, answerSnap_done _ hasker]
  exact answered_landed hended.groups hended.blocks _ _ hr

theorem timeout_fails {s : State} {x : Snap} {d : Domain} (hx : s.fld.snaps.find? (fun y => y.id = x.id) = some x) (hd : s.domain x.did = some d)
    (hbegun : x.begun = true) (hdone : snapDone x = false) (hlate : x.h0 + gupCycles d.gup / 2 < s.clock.toNat) :
    ∃ t, exec (.snapshotTimeout x.id) s = .next t ∧ (∀ y ∈ t.fld.snaps, y.id ≠ x.id) ∧
      ∀ gid r g, x.asker = .group gid r → s.group gid = some g → g.visitor = none → g.ctl.livem ≠ 0 → ∃ g' e, t.group gid = some g' ∧
        g'.out.imprecise = g.out.imprecise ++ [e] ∧ e.cause = 16 := by
  have hexec : exec (.snapshotTimeout x.id) s = .next ((s.endSnap x).answerSnap x d (some (s.lateMember x d))) := by
    change execSnapshotTimeout x.id s = _
    simp only [execSnapshotTimeout, hx, hd, hbegun, hdone, Bool.not_true, Bool.or_self, decide_eq_false (Nat.not_le.mpr hlate),
      Bool.false_eq_true, if_false]
  have hended := endSnap_resumed s x
  refine ⟨_, hexec, ((answerSnap_fieldsKept (s.endSnap x) x d _).resumed hended).1, fun gid r g hasker hg hv hlive => ?_⟩
  have hg' : (s.endSnap x).group gid = some g := by rw [State.group, hended.groups]; exact hg
  obtain ⟨g', hraised, hout⟩ := raise_pending hg' hv { cause := 16, lanes := 0, addr := 0, aux := BitVec.ofNat 64 (s.lateMember x d + 4096) }
  rw [answerSnap_late _ hasker, tryRetire_of_live hraised.now (by rwa [hraised.ctl])]
  exact ⟨g', _, hraised.now, hout, rfl⟩

/-! ### Declarations -/

/-- One scalar register receives the status of a declaration. -/
theorem status_landed {s t : State} (hgroups : t.groups = s.groups) (hblocks : t.blocks = s.blocks) {gid r : Nat} (v : Word) :
    Claims.Landed s ((t.deliverS gid r v true 0).tryRetire gid) gid r v := by
  intro g hg himage hlive hr
  have hg' : t.group gid = some g := by rw [State.group, hgroups]; exact hg
  have himage' : t.imageOf g = none := (stays_of_same gid hgroups hblocks).resident (resident_of hg himage) g hg'
  obtain ⟨g', h, -, hfull, -, hval, -⟩ := deliverS_landed hg' himage' hr v 0
  rw [tryRetire_of_live h.now (by rwa [h.ctl])]
  exact ⟨g', h.now, h.ctl, hval, hfull⟩

theorem endDecl_fieldsKept (s : State) (d : Domain) (status : Nat) : FieldsKept s (s.endDecl d status) := by
  unfold State.endDecl
  split
  · exact .refl s
  · exact (deliverS_fieldsKept ..).trans (tryRetire_fieldsKept ..)

theorem endDecl_landed {s t : State} (hgroups : t.groups = s.groups) (hblocks : t.blocks = s.blocks) {d : Domain} {gid r : Nat}
    (hdecl : d.fdecl = some (gid, r)) (status : Nat) : Claims.Landed s (t.endDecl d status) gid r (BitVec.ofNat 32 status) := by
  simp only [State.endDecl, hdecl]
  exact status_landed hgroups hblocks _

/-- A domain once its members have declared: active, or failed. -/
def settledDomain (d : Domain) (ok : Bool) : Domain := { d with state := if ok then .active else .failed, fdecl := none }

/-- The other members are told what has become of the domain. -/
def membersTold (s : State) (did : Nat) (d : Domain) (reports : List (Nat × Dword)) (ok : Bool) : State :=
  if d.anchor = s.devid then reports.foldl (fun s r => s.emit (.activation did r.1 ok)) s else s

theorem membersTold_same (s : State) (did : Nat) (d : Domain) (reports : List (Nat × Dword)) (ok : Bool) :
    (membersTold s did d reports ok).groups = s.groups ∧ (membersTold s did d reports ok).blocks = s.blocks := by
  unfold membersTold
  split
  · exact foldl_rel (R := fun s t : State => t.groups = s.groups ∧ t.blocks = s.blocks) (fun _ => ⟨rfl, rfl⟩)
      (fun h k => ⟨k.1.trans h.1, k.2.trans h.2⟩) reports
      (fun t r _ => ⟨State.emit_groups t (.activation did r.1 ok), State.emit_blocks t (.activation did r.1 ok)⟩) s
  · exact ⟨rfl, rfl⟩

theorem setDomain_same (s : State) (did : Nat) (d : Domain) : (s.setDomain did d).groups = s.groups ∧ (s.setDomain did d).blocks = s.blocks := ⟨rfl, rfl⟩

theorem activation_settles {s : State} {did : Nat} {d : Domain} {reports : List (Nat × Dword)} (hd : s.domain did = some d) (hstate : d.state = .declaring)
    (hreports : reports.map (·.1) = d.devs.filter (· ≠ s.devid)) :
    ∃ t e, exec (.domainActivation did reports) s = .next t ∧ t.domain did = some e ∧
      (e.state = .active ↔ (reports.map (·.2)).foldl (· + ·) d.lseed = d.c) ∧ (e.state = .active ∨ e.state = .failed) ∧
      ∀ gid r, d.fdecl = some (gid, r) → Claims.Landed s t gid r (if e.state = .active then 0 else 7) := by
  have hsum : reports.foldl (fun v r => v + r.2) d.lseed = (reports.map (·.2)).foldl (· + ·) d.lseed := (List.foldl_map ..).symm
  have hskip : ¬ (d.state ≠ .declaring || reports.map (·.1) ≠ d.devs.filter (· ≠ s.devid)) = true := by simp [hstate, hreports]
  obtain ⟨ok, hok, hexec⟩ : ∃ ok : Bool, (ok = true ↔ (reports.map (·.2)).foldl (· + ·) d.lseed = d.c) ∧ exec (.domainActivation did reports) s =
      .next (((membersTold s did d reports ok).setDomain did (settledDomain d ok)).endDecl d (if ok then 0 else 7)) := by
    change ∃ ok : Bool, _ ∧ execDomainActivation did reports s = _
    rw [execDomainActivation, hd]
    dsimp only
    rw [if_neg hskip, hsum]
    by_cases hc : (reports.map (·.2)).foldl (· + ·) d.lseed = d.c
    · refine ⟨true, ⟨fun _ => hc, fun _ => rfl⟩, ?_⟩
      simp only [hc, decide_true, if_true]
      rfl
    · refine ⟨false, ⟨fun h => (Bool.false_ne_true h).elim, fun h => absurd h hc⟩, ?_⟩
      simp only [if_neg hc, decide_eq_false hc]
      rfl
  have hkept := endDecl_fieldsKept ((membersTold s did d reports ok).setDomain did (settledDomain d ok)) d (if ok then 0 else 7)
  obtain ⟨hgroups, hblocks⟩ := membersTold_same s did d reports ok
  have hstates : (settledDomain d ok).state = .active ↔ ok = true := by cases ok <;> simp [settledDomain]
  refine ⟨_, settledDomain d ok, hexec, ?_, ?_, ?_, fun gid r hdecl => ?_⟩
  · rw [hkept.domain]
    exact domain_setDomain ..
  · rw [hstates, hok]
  · cases ok
    · exact .inr rfl
    · exact .inl rfl
  · have h := endDecl_landed (s := s) (t := (membersTold s did d reports ok).setDomain did (settledDomain d ok)) ((setDomain_same ..).1.trans hgroups)
      ((setDomain_same ..).2.trans hblocks) hdecl (if ok then 0 else 7)
    cases ok
    · exact h
    · exact h

theorem fdecl_times_out {s : State} {did : Nat} {d : Domain} (hd : s.domain did = some d) (hstate : d.state = .declaring)
    (hdue : d.since + gupCycles d.gup ≤ s.clock.toNat) :
    ∃ t, exec (.fdeclTimeout did) s = .next t ∧ t.domain did = none ∧ ∀ gid r, d.fdecl = some (gid, r) → Claims.Landed s t gid r 8 := by
  have hexec : exec (.fdeclTimeout did) s = .next (({ s with fld := { s.fld with domains := Sparse.del s.fld.domains did } } : State).endDecl d 8) := by
    change execFdeclTimeout did s = _
    simp only [execFdeclTimeout, hd, hstate, ne_eq, not_true, decide_false, Bool.false_or, decide_eq_true_eq, if_neg (Nat.not_lt.mpr hdue)]
  refine ⟨_, hexec, ?_, fun gid r hdecl => ?_⟩
  · rw [(endDecl_fieldsKept ..).domain]
    exact Sparse.find_del_same ..
  · exact endDecl_landed (s := s) (t := { s with fld := { s.fld with domains := Sparse.del s.fld.domains did } }) rfl rfl hdecl 8

theorem hold_resumes {s : State} {n : Nat} {h : Nat × Nat × Nat} (hin : h ∈ (s.node n).home.holds) (hdue : h.2.2 ≤ s.clock.toNat) :
    ∃ t, exec (.holdSelfResume h.1 n) s = .next t ∧ ∀ k ∈ (t.node n).home.holds, k.1 ≠ h.1 := by
  have hany : (s.node n).home.holds.any (fun k => k.1 = h.1 && k.2.2 ≤ s.clock.toNat) = true :=
    List.any_eq_true.mpr ⟨h, hin, by simp [hdue]⟩
  refine ⟨s.modHome n (fun x => { x with holds := x.holds.filter (fun y => y.1 ≠ h.1) }), ?_, fun k hk => ?_⟩
  · change execHoldSelfResume h.1 n s = _
    rw [execHoldSelfResume, if_pos hany]
  · rw [node_modHome] at hk
    simpa using (List.mem_filter.mp hk).2

/-- Settles O35: HOLD, the two ends of a snapshot, the homes that resume by themselves, and the two ends of a declaration. -/
theorem snapshots : Obligations.Snapshots :=
  ⟨fun _ _ _ _ hx hd hbegun hin hnew ho hfree => hold_answers hx hd hbegun hin hnew ho hfree,
    fun _ _ _ hx hd => ⟨release_answers hx hd, timeout_fails hx hd⟩, fun _ _ _ => hold_resumes,
    fun _ _ _ _ => activation_settles, fun _ _ _ => fdecl_times_out⟩

end Sys2Proof.Proofs
end

section
/-! syswr of TRAPPC on a deep stack (R22, R276): the entries from the innermost TRAP entry on that have left the chip are written again, and the
home may lose part of the first as it loses those that a push writes. -/

namespace Sys2Proof.Proofs

open Sys2Proof Sys2Proof.Machine Sys2Proof.Claims

/-- The TRAP entry at the bottom of the sample stack. -/
def bottomTrap (m : Word) : Entry := { waiting := false, tmo := 0, kind := .trap, mask := m, pc := 0 }

/-- The entries above it. -/
def aboveTrap : List Entry := List.replicate 17 (bottomEntry 0)

/-- The sample group: 18 entries, the lowest of them a TRAP entry. -/
def trappedGroup (m : Word) : Group :=
  let g := Group.start 1 0 0 0 1 0x10000 0 0 true
  { g with ctl := { g.ctl with stack := aboveTrap ++ [bottomTrap m] }, regs := { g.regs with s := [] } }

/-- The device of the sample group, whose stack area is that of `deep`. -/
def trapped (m : Word) : State := { deep m with groups := [(1, trappedGroup m)] }

/-- The sample syswr: TRAPPC from the pair s0, which is zero. -/
def trapPcFields : Fields := word .w96 2 0 0 0 0 1

theorem trapped_ready {m : Word} (hm : m = 0 ∨ m = 1) : Ready (.syswr trapPcFields) (trapped m) (trappedGroup m) := by
  obtain rfl | rfl := hm
  · exact ready_of_isReady (by decide +kernel)
  · exact ready_of_isReady (by decide +kernel)

theorem bottomTrap_bytes {m : Word} (hm : m = 0 ∨ m = 1) : (bottomTrap m).bytes.take 8 = (bottomEntry m).bytes.take 8 ∧
    (bottomTrap m).bytes[12]? ≠ some 0 ∧ (bottomTrap m).bytes[8]? = (bottomEntry m).bytes[8]? := by
  obtain rfl | rfl := hm <;> decide

/-- The device when the first piece of the TRAP entry has been written, and the wait answered. -/
def trappedWritten (m : Word) : State := ((trapped m).writeAt ownIl 0xFF8 ((bottomTrap m).bytes.take 8) none).1

theorem fragile_trappedWritten {m : Word} (hm : m = 0 ∨ m = 1) : Fragile (trappedWritten m) ∧ Mem.rd (trappedWritten m).mem 0x1004 = 0 := by
  have h : ∀ u : State, (u.own.fresh = 0 ∧ (u.nodes.flatMap (fun n => n.2.waits)).filter (fun w => w.ans.isNone) = [] ∧
      Sparse.get 0 u.dram.schemes 0 = 8 ∧ Sparse.get 0 u.dram.lanes 64 = 7 ∧ Sparse.get 0 u.dram.erase 64 = 0 ∧
      Sparse.get 0 u.dram.errors 128 = 0 ∧ u.dram.bad.contains 128 = false) ∧ Mem.rd u.mem 0x1004 = 0 → Fragile u ∧ Mem.rd u.mem 0x1004 = 0 :=
    fun u ⟨⟨h1, h2, h3, h4, h5, h6, h7⟩, h8⟩ => ⟨⟨h1, h2, h3, h4, h5, h6, h7⟩, h8⟩
  obtain rfl | rfl := hm
  · exact h _ (by decide +kernel)
  · exact h _ (by decide +kernel)

/-- What the sample syswr does. -/
theorem trapped_step {m : Word} (hm : m = 0 ∨ m = 1) : exec (.syswr trapPcFields) (trapped m) =
    .next (((trapped m).pushed 1 16 (trappedGroup m)).advance 1 12) := by
  change execSyswr trapPcFields (trapped m) = _
  rw [execSyswr, issue_of_ready (trapped_ready hm) rfl]
  obtain rfl | rfl := hm <;> rfl

/-- Refutes O45: of the two entries that a syswr of TRAPPC writes again on a stack of 18, the TRAP entry is answered to a wait through a page of
another scheme, and its second part then lies in a sector that the symbol code does not find clean. -/
theorem not_systemRegisters : ¬ Obligations.SystemRegisters := by
  intro h
  have hm := oddMask_cases
  obtain ⟨hfragile, hzero⟩ := fragile_trappedWritten hm
  obtain ⟨htake, hkind, hmask⟩ := bottomTrap_bytes hm
  obtain ⟨-, -, -, -, -, htrappc, -⟩ := h.2 trapPcFields (trapped oddMask) (trappedGroup oddMask) (trapped_ready hm)
  have hvalue : (trapped oddMask).readSP (trappedGroup oddMask) trapPcFields.a = 0 := by
    obtain hm | hm := hm <;> rw [hm] <;> decide +kernel
  obtain ⟨t, g', hexec, -, -, -, -, -, -, -, -, hbytes⟩ := htrappc aboveTrap (bottomTrap oddMask) [] rfl rfl rfl (by decide) (by rw [hvalue]; decide)
  have ht : t = ((trapped oddMask).pushed 1 16 (trappedGroup oddMask)).advance 1 12 :=
    Host.Outcome.next.inj (hexec.symm.trans (trapped_step hm))
  have hinplace : InPlace (trapped oddMask) 0xFF8 := deep_inPlace hm
  have hkept := (hbytes 0xFF8 rfl).2 (show 0 + 16 < 18 by decide) hinplace
  rw [hvalue, ht, advance_mem, pushed_mem] at hkept
  refine spill_loses_entry (s := trapped oddMask) (g := trappedGroup oddMask) (e0 := bottomTrap oddMask) (e1 := bottomEntry 0) rfl rfl rfl rfl hfragile hzero
    hkind (by rw [hmask]; exact oddMask_lost) hkept

end Sys2Proof.Proofs
end

section
/-! Traps by instruction, and the return from a trap (spec 12, R277, R278). -/

namespace Sys2Proof.Proofs

open Sys2Proof Sys2Proof.Machine Sys2Proof.Claims

/-! ### Traps whose resume address is the next instruction -/

theorem trapTo_unskidded {s : State} {gid : Nat} {g : Group} (hg : s.group gid = some g) (hskid : g.sched.skidLeft = none) (c : Cause) (lanes : Word)
    (addr aux p : Dword) : s.trapTo gid c lanes addr aux p = s.takeTrap gid (causeNo c) lanes addr aux p := by
  simp only [State.trapTo, hg, hskid, Option.isSome_none, Bool.false_eq_true, if_false]

theorem trapAfter_unskidded {s : State} {gid : Nat} {g : Group} (hg : s.group gid = some g) (hskid : g.sched.skidLeft = none) (n : Nat) (c : Cause)
    (aux : Dword) : trapAfter s gid g n c aux = .next (s.takeTrap gid (causeNo c) g.ctl.exm 0 aux (g.ctl.pc + BitVec.ofNat 64 n)) := by
  rw [trapAfter, trapTo_unskidded hg hskid]

/-- The code that an instruction puts into TRAPAUX. -/
theorem code_eq (x : BitVec 64) : ((x.truncate 32 : Word).zeroExtend 64 : Dword) = BitVec.ofNat 64 (x.toNat % 2 ^ 32) := by
  apply BitVec.eq_of_toNat_eq
  simp only [BitVec.toNat_setWidth, BitVec.toNat_ofNat, BitVec.truncate_eq_setWidth]

theorem contains_false_of_not_mem {l : List Nat} {x : Nat} (h : x ∉ l) : l.contains x = false := by
  rw [← Bool.not_eq_true, List.contains_iff_mem]
  exact h

/-! ### The debugger's halt -/

/-- A group as the debugger halts it. -/
def haltedAt (g : Group) (pc : Dword) : Group :=
  { g with
    ctl := { g.ctl with pc := pc }
    sys := { g.sys with skid := if g.sched.skidLeft.isSome then g.sys.skid else 0, haltpc := pc }
    sched := { g.sched with hold := .none, dhalt := true } }

theorem find_map_some {α : Type} {f : Nat × α → α} {m : List (Nat × α)} {k : Nat} {v : α} (h : Sparse.find m k = some v) :
    Sparse.find (m.map (fun p => (p.1, f p))) k = some (f (k, v)) := by
  induction m with
  | nil => cases h
  | cons p m ih =>
    simp only [Sparse.find] at h
    simp only [List.map_cons, Sparse.find]
    split at h
    · rename_i hk
      rw [if_pos hk]
      cases h
      rw [← hk]
    · rename_i hne
      rw [if_neg hne]
      exact ih h

/-- The broadcast leaves the group that it starts from. -/
theorem broadcastHalt_group {s : State} {gid : Nat} {g : Group} (hg : s.group gid = some g) (x : Group) : (s.broadcastHalt gid x).group gid = some g := by
  refine (find_map_some hg).trans ?_
  simp

theorem debugHalt_group {s : State} {gid : Nat} {g : Group} {b : Block} (hb : s.block g.block = some b) (pc : Dword) :
    (s.debugHalt gid g pc).group gid = some (haltedAt g pc) ∧ (s.debugHalt gid g pc).mem = s.mem ∧
      (s.debugHalt gid g pc).block g.block = some { b with dhalt := true } := by
  have hnow : ((s.setGroup gid (haltedAt g pc)).setBlock g.block { b with dhalt := true }).group gid = some (haltedAt g pc) := State.group_setGroup ..
  have hblock : ((s.setGroup gid (haltedAt g pc)).setBlock g.block { b with dhalt := true }).block g.block = some { b with dhalt := true } :=
    Sparse.find_put_same ..
  have heq : s.debugHalt gid g pc = if b.dhalt then (s.setGroup gid (haltedAt g pc)).setBlock g.block { b with dhalt := true }
      else ((s.setGroup gid (haltedAt g pc)).setBlock g.block { b with dhalt := true }).broadcastHalt gid (haltedAt g pc) := by
    unfold State.debugHalt
    dsimp only
    rw [hb]
    rfl
  rw [heq]
  split
  · exact ⟨hnow, rfl, hblock⟩
  · exact ⟨broadcastHalt_group hnow _, rfl, hblock⟩

/-! ### The return from a trap -/

theorem endHalt_group {s : State} {gid : Nat} {g : Group} (hg : s.group gid = some g) (k : Nat) :
    ∃ g', (s.endHalt k).group gid = some g' ∧ { g' with sched := g.sched } = g := by
  refine ⟨_, find_map_some hg, ?_⟩
  split <;> rfl

theorem endHalt_mem (s : State) (k : Nat) : (s.endHalt k).mem = s.mem := (endHalt_lessens s k).mem

theorem unspill_readHome (s : State) (g : Group) (st : List Entry) : ReadHome s (s.unspill g st) := by
  unfold State.unspill
  split
  · exact .refl s
  · exact readAt_readHome ..

/-- A group that has left the handler of the entry `e`. -/
def leftTrap (g : Group) (e : Entry) (st : List Entry) (depth : Nat) : Group :=
  { g with ctl := { g.ctl with
    stack := st, exm := e.mask &&& g.ctl.livem, supAt := if g.ctl.supAt = some depth then none else g.ctl.supAt } }

theorem popTrap_leaves {s : State} {gid : Nat} {g : Group} {e : Entry} {rest : List Entry} (hgood : s.refillBad g rest = false)
    (hskid : g.sched.skidLeft = none) :
    ∃ g', (s.popTrap gid g e rest).group gid = some g' ∧ (s.popTrap gid g e rest).mem = s.mem ∧ g'.regs = g.regs ∧ g'.sys = g.sys ∧ g'.eng = g.eng ∧
      g'.ctl = { (leftTrap g e (s.refill g rest) g.ctl.stack.length).ctl with pc := e.pc.zeroExtend 64 } := by
  have hread := unspill_readHome s g rest
  obtain ⟨a, ha⟩ : ∃ a, a = (leftTrap g e (s.refill g rest) g.ctl.stack.length).goto (e.pc.zeroExtend 64) := ⟨_, rfl⟩
  have hparts : a.regs = g.regs ∧ a.sys = g.sys ∧ a.eng = g.eng ∧
      a.ctl = { (leftTrap g e (s.refill g rest) g.ctl.stack.length).ctl with pc := e.pc.zeroExtend 64 } := by
    rw [ha]
    refine ⟨rfl, ?_, rfl, rfl⟩
    rw [Group.goto]
    exact if_neg (by rw [show (leftTrap g e (s.refill g rest) g.ctl.stack.length).sched.skidLeft = none from hskid]; decide)
  have hnow : ((s.unspill g rest).setGroup gid a).group gid = some a := State.group_setGroup ..
  have heq : s.popTrap gid g e rest = match (s.unspill g rest).block g.block with
      | none => (s.unspill g rest).setGroup gid a
      | some b => if b.thalt && b.hgrp = g.index && b.haltDepth = g.ctl.stack.length then ((s.unspill g rest).setGroup gid a).endHalt g.block
        else (s.unspill g rest).setGroup gid a := by
    rw [State.popTrap, State.popping, hgood, ha]
    rfl
  rw [heq]
  have hkept : ∃ g', ((s.unspill g rest).setGroup gid a).group gid = some g' ∧ ((s.unspill g rest).setGroup gid a).mem = s.mem ∧ g'.regs = g.regs ∧
      g'.sys = g.sys ∧ g'.eng = g.eng ∧ g'.ctl = { (leftTrap g e (s.refill g rest) g.ctl.stack.length).ctl with pc := e.pc.zeroExtend 64 } :=
    ⟨a, hnow, hread.mem_eq, hparts⟩
  split
  · exact hkept
  · split
    · obtain ⟨g', hg', hsched⟩ := endHalt_group hnow g.block
      refine ⟨g', hg', (endHalt_mem ..).trans hread.mem_eq, ?_⟩
      obtain ⟨hregs, hsys, heng, hctl⟩ := hparts
      exact ⟨(congrArg Group.regs hsched :).trans hregs, (congrArg Group.sys hsched :).trans hsys, (congrArg Group.eng hsched :).trans heng,
        (congrArg Group.ctl hsched :).trans hctl⟩
    · exact hkept

section
variable {f : Fields} {s : State} {g : Group}

theorem trap_takes (hskid : g.sched.skidLeft = none) (h : Ready (.trap f) s g) : exec (.trap f) s =
    .next (s.takeTrap s.own.cur 35 g.ctl.exm 0 (BitVec.ofNat 64 (f.imm.toNat % 2 ^ 32)) (nextPc g f)) := by
  change execTrap f s = _
  rw [execTrap, issue_of_ready h rfl, trapAfter_unskidded h.1 hskid, code_eq]
  rfl

theorem scall_takes (hskid : g.sched.skidLeft = none) (h : Ready (.scall f) s g) : exec (.scall f) s =
    .next (s.takeTrap s.own.cur 37 g.ctl.exm 0 (BitVec.ofNat 64 (f.imm.toNat % 2 ^ 32)) (nextPc g f)) := by
  change execScall f s = _
  rw [execScall, issue_of_ready h rfl, trapAfter_unskidded h.1 hskid, code_eq]
  rfl

theorem brk_takes (hskid : g.sched.skidLeft = none) (h : Ready (.brk f) s g) (hdebug : g.ctx.toNat ∉ s.mgmt.debug) : exec (.brk f) s =
    .next (s.takeTrap s.own.cur 36 g.ctl.exm 0 0 (nextPc g f)) := by
  change execBrk f s = _
  rw [execBrk, issue_of_ready h rfl, contains_false_of_not_mem hdebug]
  exact trapAfter_unskidded h.1 hskid ..

theorem brk_halts (hskid : g.sched.skidLeft = none) (h : Ready (.brk f) s g) (hdebug : g.ctx.toNat ∈ s.mgmt.debug) {b : Block}
    (hb : s.block g.block = some b) :
    ∃ t g', exec (.brk f) s = .next t ∧ t.group s.own.cur = some g' ∧ t.mem = s.mem ∧ g'.sched.dhalt = true ∧
      g'.ctl = { g.ctl with pc := nextPc g f } ∧ g'.regs = g.regs ∧ t.block g.block = some { b with dhalt := true } := by
  have hexec : exec (.brk f) s = .next (s.debugHalt s.own.cur g (nextPc g f)) := by
    change execBrk f s = _
    rw [execBrk, issue_of_ready h rfl, List.contains_iff_mem.mpr hdebug, hskid]
    rfl
  obtain ⟨hnow, hmem, hblock⟩ := debugHalt_group (gid := s.own.cur) hb (nextPc g f)
  exact ⟨_, _, hexec, hnow, hmem, rfl, rfl, rfl, hblock⟩

theorem leaveTrap_pops {r : Row} {i : Instr} (h : Ready i s g) (hrow : i.row = some (f, r)) {e : Entry} {st : List Entry} (sret : Bool)
    (hstack : g.ctl.stack = e :: st) (hkind : e.kind = .trap) (hsup : sret = true → g.ctl.supAt = some (st.length + 1)) :
    leaveTrap r f s sret = .next (s.popTrap s.own.cur g e st) := by
  have hlen : g.ctl.stack.length = st.length + 1 := by rw [hstack]; rfl
  rw [leaveTrap, issue_of_ready h hrow]
  simp only [hstack]
  rw [if_neg]
  cases sret
  · simp [hkind]
  · simp [hkind, hsup rfl]

theorem leaveTrap_refuses {r : Row} {i : Instr} (h : Ready i s g) (hrow : i.row = some (f, r)) {e : Entry} {st : List Entry}
    (hstack : g.ctl.stack = e :: st) (hkind : e.kind = .trap) (hsup : g.ctl.supAt ≠ some (st.length + 1)) :
    leaveTrap r f s true = .next (s.trap s.own.cur .stkkind g.ctl.exm 0 5) := by
  rw [leaveTrap, issue_of_ready h hrow]
  simp only [hstack]
  rw [if_pos (by simp [hsup])]
  simp only [badKind, State.trapPlain, h.1, hkind, kindNo]
  rfl

theorem return_leaves (hskid : g.sched.skidLeft = none) {e : Entry} {st : List Entry} (hstack : g.ctl.stack = e :: st) (hgood : s.refillBad g st = false)
    {i : Instr} (hexec : exec i s = .next (s.popTrap s.own.cur g e st)) :
    ∃ t g', exec i s = .next t ∧ t.group s.own.cur = some g' ∧ t.mem = s.mem ∧ g'.regs = g.regs ∧ g'.sys = g.sys ∧ g'.eng = g.eng ∧
      g'.ctl = { g.ctl with
        pc := e.pc.zeroExtend 64, exm := e.mask &&& g.ctl.livem, stack := s.refill g st
        supAt := if g.ctl.supAt = some (st.length + 1) then none else g.ctl.supAt } := by
  obtain ⟨g', hnow, hmem, hregs, hsys, heng, hctl⟩ := popTrap_leaves (gid := s.own.cur) (e := e) hgood hskid
  refine ⟨_, g', hexec, hnow, hmem, hregs, hsys, heng, hctl.trans ?_⟩
  rw [leftTrap, hstack]
  rfl

end

/-- Settles O46: the traps that instructions take, the debugger's halt, and the two returns. -/
theorem trapInstructions : Obligations.TrapInstructions := by
  intro f s g hskid
  refine ⟨trap_takes hskid, scall_takes hskid, brk_takes hskid, fun b h hdebug hb => brk_halts hskid h hdebug hb, fun p hp e st h hstack hkind hsup hgood => ?_,
    fun e st h hstack hkind hsup => leaveTrap_refuses h rfl hstack hkind hsup⟩
  rcases List.mem_cons.mp hp with rfl | hp
  · exact return_leaves hskid hstack hgood (leaveTrap_pops h rfl false hstack hkind hsup)
  · rw [List.mem_singleton.mp hp] at h hsup ⊢
    exact return_leaves hskid hstack hgood (leaveTrap_pops h rfl true hstack hkind hsup)

end Sys2Proof.Proofs
end

section
/-! Checksums, generators, and the supervisor's maintenance instructions (spec 12, R279 to R283). -/

namespace Sys2Proof.Proofs

open Sys2Proof Sys2Proof.Machine Sys2Proof.Claims

/-! ### One effect on the group -/

theorem groupWrite_goto (s : State) (g : Group) (pc : Dword) : GroupWrite s (s.setGroup s.own.cur (g.goto pc)) g pc :=
  ⟨_, onlyGroup_setGroup s _, over_goto_self g pc, rfl, rfl, rfl⟩

theorem setGroup_advance (s : State) (gid : Nat) (g : Group) (n : Nat) :
    (s.setGroup gid g).advance gid n = s.setGroup gid (g.goto (g.ctl.pc + BitVec.ofNat 64 n)) := by
  rw [State.advance_eq (State.group_setGroup ..), State.setGroup_setGroup]

/-- The group `g0` with the PC of `g` takes the place of `g`, and goes on. -/
theorem groupWrite_advance (s : State) {g g0 : Group} (hpc : g0.ctl.pc = g.ctl.pc) (f : Fields) :
    GroupWrite s ((s.setGroup s.own.cur g0).advance s.own.cur f.bytes) g0 (nextPc g f) := by
  rw [setGroup_advance, hpc]
  exact groupWrite_goto ..

theorem groupWrite_self {s : State} {g : Group} (hg : s.group s.own.cur = some g) (f : Fields) :
    GroupWrite s (s.advance s.own.cur f.bytes) g (nextPc g f) := by
  rw [State.advance_eq hg]
  exact groupWrite_goto ..

/-! ### Checksums and generators -/

/-- The sum of a list of values, added one after the other. -/
theorem foldl_add_ofNat {α : Type} (f : α → Dword) (v : α → Nat) (hf : ∀ a, f a = BitVec.ofNat 64 (v a)) (l : List α) (x : Dword) :
    l.foldl (fun x a => x + f a) x = x + BitVec.ofNat 64 (l.map v).sum := by
  induction l generalizing x with
  | nil => simp
  | cons a l ih => rw [List.foldl_cons, ih, List.map_cons, List.sum_cons, BitVec.ofNat_add, hf, BitVec.add_assoc]

theorem zeroExtend_eq_ofNat (x : Word) : (x.zeroExtend 64 : Dword) = BitVec.ofNat 64 x.toNat := by
  apply BitVec.eq_of_toNat_eq
  simp only [BitVec.toNat_setWidth, BitVec.toNat_ofNat]

theorem pairOf_eq_ofNat (lo hi : Word) : pairOf lo hi = BitVec.ofNat 64 (lo.toNat + 2 ^ 32 * hi.toNat) := by
  apply BitVec.eq_of_toNat_eq
  have h1 := lo.isLt
  have h2 := hi.isLt
  rw [pairOf, BitVec.toNat_append, BitVec.toNat_ofNat, Nat.mod_eq_of_lt (by omega), Nat.shiftLeft_eq, Nat.mul_comm, ← Nat.two_pow_add_eq_or_of_lt h1,
    Nat.add_comm]

theorem cka_sum (s : State) (g : Group) (f : Fields) : ckaSum s g f =
    (if f.m 1 then (if f.m 2 then s.readSP g f.a else BitVec.ofNat 64 (s.readS g f.a).toNat)
     else BitVec.ofNat 64 (((List.range 32).filter (fun L => g.ctl.exm.getLsbD L)).map (fun L =>
       (s.readV g f.a.toNat L).toNat + if f.m 2 then 2 ^ 32 * (s.readV g (f.a.toNat + 1) L).toNat else 0)).sum) := by
  unfold ckaSum
  cases hscalar : f.m 1 with
  | true => simp only [if_true, zeroExtend_eq_ofNat]
  | false =>
    simp only [Bool.false_eq_true, if_false]
    refine (foldl_add_ofNat _ (fun L => (s.readV g f.a.toNat L).toNat + if f.m 2 then 2 ^ 32 * (s.readV g (f.a.toNat + 1) L).toNat else 0)
      (fun L => ?_) _ 0).trans (BitVec.zero_add _)
    split
    · exact pairOf_eq_ofNat ..
    · exact zeroExtend_eq_ofNat ..

/-- Settles the part of O47 on checksums and generators. -/
theorem checksums : Checksums := by
  intro f s g
  refine ⟨fun h => ?_, fun h heq => ?_, fun h hne => ?_, fun h => ?_, fun h hd => ?_, by decide⟩
  · refine ⟨_, ?_, groupWrite_advance s (g := g) (g0 := { g with sys := { g.sys with cks := g.sys.cks + _ } }) rfl f⟩
    change execCka f s = _
    rw [execCka, issue_of_ready h rfl, cka_sum]
  · have hexec : exec (.chk f) s = .next ((if f.m 1 then s.setGroup s.own.cur { g with sys := { g.sys with cks := 0 } } else s).advance s.own.cur f.bytes) := by
      change execChk f s = _
      rw [execChk, issue_of_ready h rfl]
      dsimp only
      rw [if_neg (not_not.mpr heq)]
    refine ⟨_, hexec, ?_⟩
    cases f.m 1 with
    | true => exact groupWrite_advance s (g := g) (g0 := { g with sys := { g.sys with cks := 0 } }) rfl f
    | false => exact groupWrite_self h.1 f
  · change execChk f s = _
    rw [execChk, issue_of_ready h rfl]
    exact if_pos hne
  · refine ⟨_, ?_, vectorWrite_putW h.1 f.d.toNat (fun L => gen (s.opA g (rowRndk f) f L) (s.opB g (rowRndk f) f L)) f⟩
    change execRndk f s = _
    rw [execRndk, vector2, issue_of_ready h rfl]
  · exact scalar2_writes h rfl hd gen

/-! ### Invalidations -/

theorem illop14_eq {s : State} {gid : Nat} {g : Group} (hg : s.group gid = some g) (code : Nat) :
    s.illop14 gid code = .next (s.trap gid .illop g.ctl.exm 0 (illopAux (14, code))) := by
  simp only [State.illop14, State.trapPlain, hg]

section
variable {f : Fields} {s : State} {g : Group}

/-- The invalidation that a tlbinv sends. -/
def sentInval (s : State) (g : Group) (f : Fields) : Inval :=
  { id := s.own.ids, gid := s.own.cur, ctx := (s.readS g f.b).truncate 8, size := (s.readS g f.b).toNat / 256 % 4, addr := s.readSP g f.a }

theorem tlbinv_sends (h : Ready (.tlbinv f) s g) (hb : (s.readS g f.b).toNat < 1024) :
    ∃ t g' i, exec (.tlbinv f) s = .next t ∧ t.invals = s.invals ++ [i] ∧ t.group s.own.cur = some g' ∧ t.mem = s.mem ∧
      (∀ j, j ≠ s.own.cur → t.group j = s.group j) ∧ g'.regs = g.regs ∧ g'.ctl = { g.ctl with pc := nextPc g f } ∧ i.gid = s.own.cur ∧
      i.ctx = BitVec.ofNat 8 ((s.readS g f.b).toNat % 256) ∧ i.size = (s.readS g f.b).toNat / 256 ∧ i.addr = s.readSP g f.a := by
  have hexec : exec (.tlbinv f) s = .next ((({ s with invals := s.invals ++ [sentInval s g f] } : State).newId.setGroup s.own.cur
      { g with out := { g.out with invs := s.own.ids :: g.out.invs } }).advance s.own.cur f.bytes) := by
    change execTlbinv f s = _
    rw [execTlbinv, issue_of_ready h rfl]
    dsimp only
    rw [if_neg (by rw [not_not]; exact Nat.div_eq_of_lt hb)]
    rfl
  rw [setGroup_advance] at hexec
  refine ⟨_, _, sentInval s g f, hexec, rfl, State.group_setGroup .., rfl, fun j hj => State.group_setGroup_other _ _ hj, rfl, rfl, rfl, ?_, ?_, rfl⟩
  · apply BitVec.eq_of_toNat_eq
    simp [sentInval]
  · exact Nat.mod_eq_of_lt (by omega)

theorem tlbinv_refuses (h : Ready (.tlbinv f) s g) (hb : 1024 ≤ (s.readS g f.b).toNat) :
    exec (.tlbinv f) s = .next (s.trap s.own.cur .illop g.ctl.exm 0 (14 + 256 * 3)) := by
  change execTlbinv f s = _
  rw [execTlbinv, issue_of_ready h rfl]
  dsimp only
  rw [if_pos (by omega), illop14_eq h.1]
  rfl

/-- A node without what an invalidation names. -/
def invalidated (i : Inval) (n : Node) : Node :=
  { n with
    tlb := n.tlb.filter (fun t => !i.covers t)
    rb := []
    recs := if i.size = 3 then n.recs.filter (fun r => i.ctx ≠ 0 && r.ctx ≠ i.ctx) else n.recs }

/-- The TLBs and caches without what an invalidation names; it is on its way no more. -/
def dropped (s : State) (i : Inval) : State :=
  ({ s.mapNodes (invalidated i) with
    l2 := s.l2.map (fun (p : Nat × List TlbLine) => (p.1, p.2.filter (fun t => !i.covers t)))
    invals := s.invals.filter (fun j => j.id ≠ i.id) } : State).newId

theorem invalidated_reset (i : Inval) : invalidated i Node.reset = Node.reset := by
  unfold invalidated
  split <;> rfl

theorem covers_of_named {i : Inval} {l : TlbLine} (hctx : i.ctx = 0 ∨ l.ctx = i.ctx)
    (hsize : i.size = 3 ∨ i.size = 0 ∧ l.bits = 16 ∧ l.base = i.addr.toNat / 2 ^ 16) : i.covers l = true := by
  have hc : (decide (i.ctx = 0) || decide (l.ctx = i.ctx)) = true := by
    rcases hctx with h | h
    · simp [h]
    · simp [h]
  rw [Inval.covers, hc, Bool.true_and]
  rcases hsize with h | ⟨h, hbits, hbase⟩
  · simp [h]
  · simp [h, hbits, hbase]

theorem tlbinvAck_drops {i : Inval} (hi : s.invals.find? (fun j => j.id = i.id) = some i) : ∃ t, exec (.tlbinvAck i.id) s = .next t ∧
    (∀ j ∈ t.invals, j.id ≠ i.id) ∧ t.mem = s.mem ∧ (∀ p ∈ t.l2, ∀ l ∈ p.2,
      ¬ ((i.ctx = 0 ∨ l.ctx = i.ctx) ∧ (i.size = 3 ∨ i.size = 0 ∧ l.bits = 16 ∧ l.base = i.addr.toNat / 2 ^ 16))) ∧
    ∀ n, (t.node n).rb = [] ∧ ∀ l ∈ (t.node n).tlb, l ∈ (s.node n).tlb ∧
      ¬ ((i.ctx = 0 ∨ l.ctx = i.ctx) ∧ (i.size = 3 ∨ i.size = 0 ∧ l.bits = 16 ∧ l.base = i.addr.toNat / 2 ^ 16)) := by
  obtain ⟨F, hexec⟩ : ∃ F : Group → Group, exec (.tlbinvAck i.id) s = .next ((dropped s i).modGroup i.gid F) := by
    refine ⟨fun g => { g with out := { g.out with invs := g.out.invs.map (fun j => if j = i.id then s.own.ids else j) } }, ?_⟩
    change execTlbinvAck i.id s = _
    rw [execTlbinvAck, hi]
    rfl
  have hnode (n : Nat) : ((dropped s i).modGroup i.gid F).node n = invalidated i (s.node n) := by
    have hnodes : ((dropped s i).modGroup i.gid F).nodes = (s.mapNodes (invalidated i)).nodes := State.modGroup_nodes ..
    rw [State.node, hnodes]
    exact node_mapNodes (invalidated_reset i) s n
  refine ⟨_, hexec, fun j hj => ?_, State.modGroup_mem .., fun p hp l hl hnamed => ?_, fun n => ?_⟩
  · rw [State.modGroup_invals] at hj
    simpa using (List.mem_filter.mp hj).2
  · rw [State.modGroup_l2] at hp
    obtain ⟨q, -, rfl⟩ := List.mem_map.mp hp
    have hout := (List.mem_filter.mp hl).2
    rw [covers_of_named hnamed.1 hnamed.2] at hout
    cases hout
  · rw [hnode]
    refine ⟨rfl, fun l hl => ?_⟩
    obtain ⟨hin, hout⟩ := List.mem_filter.mp hl
    refine ⟨hin, fun hnamed => ?_⟩
    rw [covers_of_named hnamed.1 hnamed.2] at hout
    cases hout

theorem tlbsync_goes_on (h : Ready (.tlbsync f) s g) (hinvs : g.out.invs = []) :
    ∃ t, exec (.tlbsync f) s = .next t ∧ GroupWrite s t g (nextPc g f) := by
  have hself : { g with out := { g.out with invs := [] } } = g := by rw [← hinvs]
  refine ⟨_, ?_, groupWrite_advance s (g := g) (g0 := g) rfl f⟩
  change execTlbsync f s = _
  rw [execTlbsync, issue_of_ready h rfl]
  simp only [hinvs, List.isEmpty_nil, if_true, List.any_nil, Bool.false_eq_true, if_false]
  rw [hself]

theorem tlbsync_waits (h : Ready (.tlbsync f) s g) {i : Nat} (hi : i ∈ g.out.invs)
    (hleft : (∃ j ∈ s.invals, j.id = i) ∨ (∃ a ∈ s.accs, a.id < i ∧ ∃ p ∈ a.parts, a.entered p = false) ∨ (∃ x ∈ s.fld.xfers, x.id < i) ∨
      (∃ n ∈ s.nodes, ∃ l ∈ n.2.wc, l.oldest < i)) (hheld : s.holding g.block = false) :
    ∃ t g', exec (.tlbsync f) s = .next t ∧ t.group s.own.cur = some g' ∧ g'.ctl = g.ctl ∧ g'.regs = g.regs ∧ g'.sched.hold = .inv := by
  have hdrain : s.drainHeld g 3 = s := by
    rw [State.drainHeld, if_pos]
    rw [hheld]
    simp
  have hwaiting : g.out.invs.any (fun i => s.invals.any (fun j => j.id = i) || s.translatedBefore i) = true := by
    refine List.any_eq_true.mpr ⟨i, hi, ?_⟩
    rw [Bool.or_eq_true]
    rcases hleft with ⟨j, hj, hid⟩ | hused
    · exact .inl (List.any_eq_true.mpr ⟨j, hj, decide_eq_true hid⟩)
    · refine .inr ?_
      unfold State.translatedBefore
      simp only [Bool.or_eq_true]
      refine .inl (.inl ?_)
      rcases hused with ⟨a, ha, hlt, p, hp, hnot⟩ | ⟨x, hx, hlt⟩ | ⟨n, hn, l, hl, hlt⟩
      · exact .inl (.inl (List.any_eq_true.mpr ⟨a, ha, by simp only [hlt, decide_true, Bool.true_and]; exact List.any_eq_true.mpr ⟨p, hp, by rw [hnot]; rfl⟩⟩))
      · exact .inl (.inr (List.any_eq_true.mpr ⟨x, hx, decide_eq_true hlt⟩))
      · exact .inr (List.any_eq_true.mpr ⟨n, hn, List.any_eq_true.mpr ⟨l, hl, decide_eq_true hlt⟩⟩)
  have hexec : exec (.tlbsync f) s = .next (s.stall s.own.cur .inv) := by
    change execTlbsync f s = _
    rw [execTlbsync, issue_of_ready h rfl]
    simp only [hdrain, ite_self, hwaiting, if_true]
  rw [stall_eq h.1] at hexec
  exact ⟨_, _, hexec, (group_gate ..).trans (State.group_setGroup ..), rfl, rfl, rfl⟩

theorem icinv_goes_on (h : Ready (.icinv f) s g) : ∃ t, exec (.icinv f) s = .next t ∧ GroupWrite s t g (nextPc g f) := by
  refine ⟨_, ?_, groupWrite_self h.1 f⟩
  change execIcinv f s = _
  rw [execIcinv, issue_of_ready h rfl]

/-! ### Error maintenance -/

theorem homesOnly_erase {t : State} (h : HomesOnly s t) : t.dram.erase = s.dram.erase := (congrArg Dram.erase h.dram :)

/-- What an injection makes of the symbol code. -/
def corrupted (s : State) (key il kind sym : Nat) : State :=
  { s with dram := { s.dram with
    errors := Sparse.set 0 s.dram.errors (key / 32) (Sparse.get 0 s.dram.errors (key / 32) ||| injected s.own.fresh kind sym)
    bad := if kind = 2 && Sparse.get 0 s.dram.erase (rankOf il key) = 0 then key / 32 :: s.dram.bad else s.dram.bad } }

theorem addMark_same (s : State) (rank pos : Nat) : (s.addMark rank pos).groups = s.groups ∧ (s.addMark rank pos).mem = s.mem := by
  unfold State.addMark
  dsimp only
  split
  · exact ⟨rfl, rfl⟩
  · split
    · unfold State.reportRank
      split <;> exact ⟨rfl, rfl⟩
    · exact ⟨rfl, rfl⟩

/-- The state in which an injection leaves the device. -/
def injectedState (s : State) (key il kind sym : Nat) : State := if kind = 3 then s.addMark (rankOf il key) sym else corrupted s key il kind sym

theorem injectedState_same (s : State) (key il kind sym : Nat) : (injectedState s key il kind sym).groups = s.groups ∧ (injectedState s key il kind sym).mem = s.mem := by
  unfold injectedState
  split
  · exact addMark_same ..
  · exact ⟨rfl, rfl⟩

theorem injected_names (fresh kind : Nat) {sym : Nat} (h : sym < 36) : (injected fresh kind sym).getLsbD sym = true := by
  simp [injected, h]

theorem advance_dram (s : State) (gid n : Nat) : (s.advance gid n).dram = s.dram := by
  unfold State.advance State.modGroup
  split <;> rfl

theorem einj_injects {p : Nat × Nat} (h : Ready (.einj f) s g) (hb : (s.readS g f.b).toNat < 1024) (hkind : (s.readS g f.b).toNat % 16 ∈ [1, 2, 3])
    (hsym : (s.readS g f.b).toNat / 16 < 36) (hsectors : s.sectors g (s.readSP g f.a) 1 = .ok [p]) :
    ∃ t g', exec (.einj f) s = .next t ∧ t.group s.own.cur = some g' ∧ t.mem = s.mem ∧ (∀ j, j ≠ s.own.cur → t.group j = s.group j) ∧
      g'.regs = g.regs ∧ g'.ctl = { g.ctl with pc := nextPc g f } ∧
      ((s.readS g f.b).toNat % 16 ≠ 3 → (Sparse.get 0 t.dram.errors (p.1 / 32)).getLsbD ((s.readS g f.b).toNat / 16) = true) ∧
      ((s.readS g f.b).toNat % 16 = 2 → Sparse.get 0 s.dram.erase (rankOf p.2 p.1) = 0 → ∀ il, t.ecc il (p.1 / 32) = .bad) := by
  obtain ⟨kind, hk⟩ : ∃ k, k = (s.readS g f.b).toNat % 16 := ⟨_, rfl⟩
  obtain ⟨sym, hs⟩ : ∃ k, k = (s.readS g f.b).toNat / 16 := ⟨_, rfl⟩
  rw [← hk] at hkind ⊢
  rw [← hs] at hsym ⊢
  have hlook := lookUps_homesOnly s g [s.readSP g f.a]
  obtain ⟨u, hu⟩ : ∃ u, u = s.lookUps g [s.readSP g f.a] := ⟨_, rfl⟩
  rw [← hu] at hlook
  have hexec : exec (.einj f) s = .next ((injectedState u p.1 p.2 kind sym).advance s.own.cur f.bytes) := by
    have hsym' : (s.readS g f.b).toNat / 16 % 64 = sym := by omega
    have hfits : ¬ (decide (kind = 0) || decide (3 < kind) || decide (35 < sym) || decide ((s.readS g f.b).toNat / 1024 ≠ 0)) = true := by
      simp only [Bool.or_eq_true, decide_eq_true_eq]
      simp only [List.mem_cons, List.not_mem_nil, or_false] at hkind
      omega
    change execEinj f s = _
    rw [execEinj, issue_of_ready h rfl]
    dsimp only
    rw [hsym', ← hk, if_neg hfits, hsectors, hu]
    rfl
  obtain ⟨hgroups, hmem⟩ := injectedState_same u p.1 p.2 kind sym
  have hgroup (j : Nat) : (injectedState u p.1 p.2 kind sym).group j = s.group j := by
    rw [State.group, hgroups, homesOnly_groups hlook]
    rfl
  rw [State.advance_eq ((hgroup _).trans h.1)] at hexec
  refine ⟨_, _, hexec, State.group_setGroup .., hmem.trans (homesOnly_mem hlook), fun j hj => ?_, rfl, rfl, fun hne => ?_, fun htwo herase il => ?_⟩
  · rw [State.group_setGroup_other _ _ hj, hgroup]
  · have hcorrupt : injectedState u p.1 p.2 kind sym = corrupted u p.1 p.2 kind sym := if_neg hne
    rw [hcorrupt]
    change (Sparse.get 0 (Sparse.set 0 u.dram.errors (p.1 / 32) _) (p.1 / 32)).getLsbD sym = true
    rw [Sparse.get_set_same, BitVec.getLsbD_or, injected_names _ _ hsym, Bool.or_true]
  · have hcorrupt : injectedState u p.1 p.2 kind sym = corrupted u p.1 p.2 kind sym := if_neg (by omega)
    have hbad : (corrupted u p.1 p.2 kind sym).dram.bad = p.1 / 32 :: u.dram.bad := by
      refine if_pos ?_
      rw [homesOnly_erase hlook, htwo, herase]
      decide
    rw [hcorrupt]
    have hin : (corrupted u p.1 p.2 kind sym).dram.bad.contains (p.1 / 32) = true := by
      rw [hbad, List.contains_cons, BEq.rfl, Bool.true_or]
    exact if_pos hin

theorem scrub_readHome (s : State) (key il : Nat) : ReadHome s (s.scrub key il) := by
  have h := readAt_readHome s il key 32
  have hcount (k : Nat) : ReadHome s ((s.readAt il key 32).1.count k) := h.trans (count_readHome _ k)
  unfold State.scrub
  dsimp only
  split
  · exact h
  · exact hcount _
  · exact hcount _
  · exact hcount _

theorem escrub_scrubs {l : List (Nat × Nat)} (h : Ready (.escrub f) s g) (hpos : 0 < (s.readS g f.b).toNat) (hmax : (s.readS g f.b).toNat ≤ 2 ^ 20)
    (hsectors : s.sectors g (s.readSP g f.a) (s.readS g f.b).toNat = .ok l) :
    ∃ t g', exec (.escrub f) s = .next t ∧ t.group s.own.cur = some g' ∧ (∀ j, j ≠ s.own.cur → t.group j = s.group j) ∧
      g'.regs = g.regs ∧ g'.ctl = { g.ctl with pc := nextPc g f } ∧ t.mem = s.mem := by
  obtain ⟨vas, hexec⟩ : ∃ vas, exec (.escrub f) s =
      .next ((l.foldl (fun s p => s.scrub p.1 p.2) (s.lookUps g vas)).advance s.own.cur f.bytes) := by
    refine ⟨(unitPieces 65536 (s.readSP g f.a).toNat (32 * (s.readS g f.b).toNat)).map (fun p => s.readSP g f.a + BitVec.ofNat 64 p.1), ?_⟩
    have hfits : ¬ (decide ((s.readS g f.b).toNat = 0) || decide (2 ^ 20 < (s.readS g f.b).toNat)) = true := by
      simp only [Bool.or_eq_true, decide_eq_true_eq]
      omega
    change execEscrub f s = _
    rw [execEscrub, issue_of_ready h rfl]
    dsimp only
    rw [if_neg hfits, hsectors]
  have hlook := lookUps_homesOnly s g vas
  have hscrub : ReadHome (s.lookUps g vas) (l.foldl (fun s p => s.scrub p.1 p.2) (s.lookUps g vas)) :=
    foldl_rel ReadHome.refl ReadHome.trans l (fun t p _ => scrub_readHome t p.1 p.2) _
  have hgroup (j : Nat) : (l.foldl (fun s p => s.scrub p.1 p.2) (s.lookUps g vas)).group j = s.group j := by
    rw [State.group, hscrub.groups_eq, homesOnly_groups hlook]
    rfl
  rw [State.advance_eq ((hgroup _).trans h.1)] at hexec
  exact ⟨_, _, hexec, State.group_setGroup .., fun j hj => (State.group_setGroup_other _ _ hj).trans (hgroup j), rfl, rfl,
    hscrub.mem_eq.trans (homesOnly_mem hlook)⟩

end

/-! ### Walks -/

/-- A line that enters a TLB. -/
theorem fillTlb_node {s : State} {node : Nat} (h : node < 256) (t : TlbLine) :
    t ∈ ((s.fillTlb node t).node node).tlb ∧ ∀ n, n ≠ node → (s.fillTlb node t).node n = s.node n := by
  have hnodes (n : Nat) : (s.fillTlb node t).node n =
      (s.modNode node (fun x => { x with tlb := tlbWith s.own.fresh 64 (0xC000000 + node) x.tlb t })).node n := by
    rw [State.fillTlb, if_neg (Nat.not_le.mpr h)]
    rfl
  refine ⟨?_, fun n hn => ?_⟩
  · rw [hnodes, State.node_modNode]
    exact List.mem_cons_self
  · rw [hnodes, State.modNode, State.node_setNode_other _ _ hn]

theorem walk_fills {s : State} {gid : Nat} {g : Group} {va e : Dword} {bits : Nat} (hg : s.group gid = some g) (hva : va.toNat < 2 ^ 56)
    (hroot : s.ptroot g.ctx ≠ 0) (howner : g.owner < 256) (hgood : (s.walkReads va.toNat walkLevels (s.ptroot g.ctx)).any (s.badAt ownIl) = false)
    (hwalk : walkFrom s.entryAt va.toNat walkLevels (s.ptroot g.ctx) = .ok (e, bits)) :
    ∃ t, exec (.walk g.owner gid va) s = .next t ∧ t.mem = s.mem ∧ t.groups = s.groups ∧
      (∃ l ∈ (t.node g.owner).tlb, l.ctx = g.ctx ∧ l.bits = bits ∧ l.base = va.toNat / 2 ^ bits ∧ l.pte = e) ∧
      HomesOnly s t ∧ ∀ n, n ≠ g.owner → t.node n = s.node n := by
  have hbits : bitsAt va 63 56 = 0 := by
    simp only [bitsAt]
    omega
  have hexec : exec (.walk g.owner gid va) s = .next (s.walked g.owner g.ctx va) := by
    change execWalk g.owner gid va s = _
    simp only [execWalk, hg, hbits, hroot, hgood, ne_eq, not_true, decide_false, Bool.or_self, Bool.false_eq_true, if_false]
  have hhomes := walked_homesOnly s g.owner g.ctx va
  have hread : ReadHome s ((s.walkReads va.toNat walkLevels (s.ptroot g.ctx)).foldl (fun s k => (s.readAt ownIl k 8).1) s) :=
    foldl_rel ReadHome.refl ReadHome.trans _ (fun t k _ => readAt_readHome t ownIl k 8) s
  have hbad : s.walkBad g.owner g.ctx va = false := by
    rw [State.walkBad, hgood, Bool.and_false]
  have hfilled : s.walked g.owner g.ctx va = ((s.walkReads va.toNat walkLevels (s.ptroot g.ctx)).foldl (fun s k => (s.readAt ownIl k 8).1) s).fillTlb g.owner
      { ctx := g.ctx, base := va.toNat / 2 ^ bits, bits := bits, pte := e } := by
    rw [State.walked, hbad, hwalk]
    rfl
  refine ⟨_, hexec, homesOnly_mem hhomes, homesOnly_groups hhomes, ?_, hhomes, fun n hn => ?_⟩
  · rw [hfilled]
    exact ⟨_, (fillTlb_node howner _).1, rfl, rfl, rfl, rfl⟩
  · rw [hfilled, (fillTlb_node howner _).2 n hn, State.node, hread.nodes_eq]
    rfl

/-- Settles the part of O47 on the supervisor's maintenance. -/
theorem maintenance : Maintenance :=
  ⟨fun _ _ _ => tlbinv_sends, fun _ _ _ => tlbinv_refuses, fun _ _ => tlbinvAck_drops, fun _ _ _ => tlbsync_goes_on,
    fun _ _ _ _ h hi hleft hheld => tlbsync_waits h hi hleft hheld, fun _ _ _ => icinv_goes_on,
    fun _ _ _ _ h hb hkind hsym hsectors => einj_injects h hb hkind hsym hsectors,
    fun _ _ _ l h hpos hmax hsectors => by
      obtain ⟨t, g', hexec, hg, hothers, hregs, hctl, hmem⟩ := escrub_scrubs h hpos hmax hsectors
      exact ⟨t, g', hexec, hg, hothers, hregs, hctl, fun k _ => by rw [hmem], fun _ _ => hmem⟩,
    fun _ _ _ _ _ _ hg hva hroot howner hgood hwalk => walk_fills hg hva hroot howner hgood hwalk⟩

/-- Settles O47, part by part. -/
theorem checksumsAndMaintenance : Obligations.ChecksumsAndMaintenance := ⟨checksums, maintenance⟩

end Sys2Proof.Proofs
end

section
/-! The copy engine (R232, R238): a command of a group's FIFO that names another group. -/

namespace Sys2Proof.Proofs

open Sys2Proof Sys2Proof.Machine Sys2Proof.Claims

/-- A guarded command that lies in the FIFO of group 1 and names group 2. -/
def strayCmd : Cmd :=
  { id := 7, gid := 2, block := 1, node := 0, ctx := 0, kind := .load, rcd := [], org := [], e := 0, n := 0, obj := none, xpct := false, gs := 1,
    gneg := false, sup := false, run := false, left := [], acked := [], fail := none, lost := none }

/-- A group whose guard slot 1 is unresolved, with the command in its copy FIFO. -/
def undecided : Group :=
  let g := Group.start 1 0 0 0 1 0x10000 0 0 true
  { g with eng := { g.eng with copyQ := [strayCmd] } }

/-- A group whose guard slot 1 is false. -/
def discarding : Group :=
  let g := Group.start 1 1 0 1 1 0x10000 0 1 true
  { g with ctl := { g.ctl with guards := 4 } }

/-- The device of the two groups. -/
def strayDevice : State := { State.reset with groups := [(1, undecided), (2, discarding)] }

/-- Refutes O50: the slot of the group that the command names discards it, and the slot of the group whose FIFO it heads holds it there. -/
theorem not_copiesAndBatches : ¬ Obligations.CopiesAndBatches := by
  intro h
  obtain ⟨-, hissue, -, -⟩ := h.2
  obtain ⟨t, hexec, hgone⟩ := (hissue strayDevice 1 undecided strayCmd [] rfl rfl rfl (by decide)).1 (by decide) (by decide)
  have ht : t = after (.copyEngineIssue 1) strayDevice := eq_after hexec
  have hkept : (t.group 1).map (fun g => g.eng.copyQ) = some [strayCmd] := by
    rw [ht]
    decide
  obtain ⟨g', hg', hq⟩ := Option.map_eq_some_iff.mp hkept
  exact hgone g' hg' strayCmd (by rw [hq]; exact List.mem_singleton.mpr rfl) rfl

end Sys2Proof.Proofs
end

section
/-! gset (R238) in a list of groups that is not canonical. -/

namespace Sys2Proof.Proofs

open Sys2Proof Sys2Proof.Machine Sys2Proof.Claims

/-- The sample gset: the slot 0, from a scalar inline constant. -/
def gsetFields : Fields := word .w64 0 0 0 0 0 2

/-- `doubled`, with the allocation of its block in the slice. -/
def doubledPlaced : State :=
  { doubled with nodes := [(0, { Node.reset with relocs := [(0, { save := 0, st := 1, pages := 2, basepg := 0, block := 1 })] })] }

/-- Refutes O51: gset moves on the matrix FIFO of every identity that a group of its core is listed under. In `doubled` the identity 2 is listed
twice, so that a FIFO of core 1 loses its head although nothing waits at the group's core. -/
theorem not_barriersAndObjects : ¬ Obligations.BarriersAndObjects := by
  intro h
  have hready : Ready (.gset gsetFields) doubledPlaced twoLanes := ready_of_isReady (by decide +kernel)
  have hquiet : NoMatrixWaits doubledPlaced twoLanes.owner := by
    intro p hp
    fin_cases hp <;> decide +kernel
  obtain ⟨-, -, -, -, -, -, -, hgset⟩ := h.1 gsetFields doubledPlaced twoLanes placedBlock
    { valid := false, phase := 0, count := 0, left := 0, bytes := 0 } rfl rfl (by decide +kernel) (by decide +kernel)
  obtain ⟨t, gd, hexec, ⟨g', honly, -⟩, -⟩ := hgset hready (by decide +kernel) hquiet (by decide +kernel) (by decide +kernel)
  have hkept : (after (.gset gsetFields) doubledPlaced).group 2 = doubledPlaced.group 2 := by
    rw [← eq_after hexec]
    exact honly.2 2 (by decide +kernel)
  exact absurd hkept (by decide +kernel)

end Sys2Proof.Proofs
end

section
/-! Matrix operations in a list of groups that is not canonical: mma behind its slot (R196, R379), and the completion of an mrd (R210). -/

namespace Sys2Proof.Proofs

open Sys2Proof Sys2Proof.Machine Sys2Proof.Claims

/-! ### An mma that queues behind its slot -/

/-- The sample mma, 64 × 64, guarded by slot 1. -/
def guardedMma : Fields := { word .w96 0 0 0x10 0x30 8 0 with gs := 1 }

/-- A member of a gang of two whose lanes agree on the format word 0x11. -/
def gangMember (i : Nat) : Group :=
  let g := Group.start 1 i 0 i 1 0x10000 0 i true
  { g with regs := { g.regs with v := (List.range 32).map (fun L => (256 + L, 0x11)) }, sys := { g.sys with gang := 3 } }

/-- The block of the gang. -/
def gangBlock : Block := { placedBlock with k := { placedKernel with ngrp := 2 }, gids := [1, 2], live := [1, 2] }

/-- The device of the gang, whose list has the identity 3 twice: first a group of core 1, then one of core 0. -/
def gangDoubled : State :=
  { doubled with groups := [(1, gangMember 0), (2, gangMember 1), (3, queuedElsewhere), (3, twoLanes)], blocks := [(1, gangBlock)] }

/-- No group of a block presents anything at its latch. -/
theorem noArrivals {s : State} {b : Block} {P : Nat × MatEntry × Bool → Prop} (h : (s.arrivals b).isEmpty = true) : ∀ p ∈ s.arrivals b, P p := by
  intro p hp
  rw [List.isEmpty_iff.mp h] at hp
  cases hp

/-- Refutes O48: an mma that enters its FIFO moves on the matrix FIFO of every identity that a group of its core is listed under. In `gangDoubled`
the identity 3 is listed twice, so that a FIFO of core 1 loses its head although nothing waits at the group's core. -/
theorem not_matrixInstructions : ¬ Obligations.MatrixInstructions := by
  intro h
  have hready : Ready (.mma guardedMma) gangDoubled (gangMember 0) := ready_of_isReady (by decide +kernel)
  have hquiet : NoMatrixWaits gangDoubled (gangMember 0).owner := by
    unfold NoMatrixWaits
    decide +kernel
  have harrives : Arrives .mma guardedMma gangDoubled (gangMember 0) gangBlock :=
    ⟨rfl, rfl, rfl, by decide, by decide, by decide, by decide +kernel, by decide, by decide +kernel, by decide +kernel,
      by decide, by decide +kernel, noArrivals (by decide +kernel)⟩
  obtain ⟨-, -, -, -, hbehind⟩ := h.1
  obtain ⟨t, hexec, ⟨g', -, -, hothers, -⟩, -⟩ := hbehind (.mma, .mma) List.mem_cons_self guardedMma gangDoubled (gangMember 0) gangBlock 1 (gangMember 0)
    hready harrives (by decide) hquiet (by decide) rfl rfl (by decide) (by decide)
  have hkept : (after (.mma guardedMma) gangDoubled).group 3 = gangDoubled.group 3 := by
    rw [← eq_after hexec]
    exact hothers 3 (by decide)
  exact absurd hkept (by decide +kernel)

/-! ### The completion of an mrd -/

/-- A group of core 1, the only member of its gang, whose joint operation has arrived behind its slot without a format word. -/
def wordless : Group :=
  let g := Group.start 1 0 1 0 1 0x10000 0 0 true
  { g with
    ctl := { g.ctl with guards := 8 }
    sys := { g.sys with gang := 1 }
    eng := { g.eng with matQ := [{ id := 0, kind := .mma, f := guardedMma, pc := 0x10000, gang := 1, opA := 0, opB := 0, words := [], arrived := true }] } }

/-- An mrd of group 1 that core 0 has released. -/
def sampleMrd : MatOp :=
  { id := 5, since := [(1, 5)], joint := 5, node := 0, block := 1, kind := .mrd, f := word .w64 0 9 0 0 0 0, members := [1], blocks := [0], fmt := 0,
    inputs := [], taint := [], off := 0, lanes := 1, peers := [], seq := 0 }

/-- The device whose list has the identity 1 twice: first that group, then one of core 0. -/
def readingDoubled : State := { doubled with groups := [(1, wordless), (1, twoLanes)], mops := [sampleMrd] }

/-- Refutes O49: a completion moves on the matrix FIFO of every identity that a group of its core is listed under. In `readingDoubled` the identity of
the mrd's group is listed twice, so that the group meets the trap of its own gang although nothing waits at the core of the mrd. -/
theorem not_matrixCompletion : ¬ Obligations.MatrixCompletion := by
  intro h
  have hquiet : NoMatrixWaits readingDoubled sampleMrd.node := by
    unfold NoMatrixWaits
    decide +kernel
  obtain ⟨t, hexec, -, -, -, -, hmrd, -⟩ := h.1 readingDoubled sampleMrd rfl (by decide) (by decide)
  obtain ⟨g', hg', hctl, -⟩ := hmrd rfl hquiet 1 wordless 0 rfl rfl rfl (by decide) (by decide)
  have hkept : ((after (.matrixComplete sampleMrd.id) readingDoubled).group 1).map (·.ctl) = some wordless.ctl := by
    rw [← eq_after hexec, hg', Option.map_some, hctl]
  exact absurd hkept (by decide +kernel)

end Sys2Proof.Proofs
end

section
/-! DRAM housekeeping, the health log and fatal errors (spec 14, R333, R337; spec 25, R459 to R465). -/

namespace Sys2Proof.Proofs

open Sys2Proof Sys2Proof.Machine Sys2Proof.Claims

/-! ### The health log -/

/-- A count in flash after the counts of device SRAM are added to it. -/
def flushed (h : List (Nat × Nat)) (c : Nat × Nat) : List (Nat × Nat) := Sparse.set 0 h c.1 (min (Sparse.get 0 h c.1 + c.2) (2 ^ 64 - 1))

theorem flushHealth_eq (s : State) :
    s.flushHealth = { s with mgmt := { s.mgmt with health := s.mgmt.healthNew.foldl flushed s.mgmt.health, healthNew := [] } } := rfl

theorem foldl_flushed_other {l : List (Nat × Nat)} {k : Nat} (hk : k ∉ l.map (·.1)) (h : List (Nat × Nat)) :
    Sparse.get 0 (l.foldl flushed h) k = Sparse.get 0 h k := by
  induction l generalizing h with
  | nil => rfl
  | cons c l ih =>
    rw [List.map_cons, List.mem_cons, not_or] at hk
    rw [List.foldl_cons, ih hk.2, flushed, Sparse.get_set_other 0 h _ hk.1]

theorem get_of_not_mem {l : List (Nat × Nat)} {k : Nat} (hk : k ∉ l.map (·.1)) : Sparse.get 0 l k = 0 := by
  induction l with
  | nil => rfl
  | cons c l ih =>
    rw [List.map_cons, List.mem_cons, not_or] at hk
    have hih := ih hk.2
    unfold Sparse.get at hih ⊢
    rw [Sparse.find, if_neg (Ne.symm hk.1)]
    exact hih

theorem get_cons {c : Nat × Nat} (l : List (Nat × Nat)) (k : Nat) : Sparse.get 0 (c :: l) k = if c.1 = k then c.2 else Sparse.get 0 l k := by
  unfold Sparse.get
  rw [Sparse.find]
  split <;> rfl

/-- Adding counts, each counter once, gives what the counters come to with them. -/
theorem foldl_flushed {l : List (Nat × Nat)} (hl : (l.map (·.1)).Nodup) (h : List (Nat × Nat)) (k : Nat) :
    min (Sparse.get 0 (l.foldl flushed h) k) (2 ^ 64 - 1) = min (Sparse.get 0 h k + Sparse.get 0 l k) (2 ^ 64 - 1) := by
  induction l generalizing h with
  | nil => rfl
  | cons c l ih =>
    rw [List.map_cons, List.nodup_cons] at hl
    obtain ⟨hc, hl⟩ := hl
    rw [List.foldl_cons, get_cons]
    by_cases hk : c.1 = k
    · subst hk
      rw [if_pos rfl, foldl_flushed_other hc, flushed, Sparse.get_set_same]
      omega
    · rw [if_neg hk, ih hl, flushed, Sparse.get_set_other 0 h _ (Ne.symm hk)]

theorem flushHealth_healthOf {s : State} (h : (s.mgmt.healthNew.map (·.1)).Nodup) (k : Nat) : s.flushHealth.healthOf k = s.healthOf k := by
  rw [flushHealth_eq]
  exact foldl_flushed h s.mgmt.health k

/-- What a classed fault leaves: the counts of device SRAM apart, nothing changes. -/
theorem classed_rest (s : State) (unit : Nat) (lasting : Bool) :
    ∃ h, s.classed unit lasting = { s with mgmt := { s.mgmt with healthNew := h } } ∧
      (∀ k, k = (if lasting = true then hcLasting else hcTransient) unit → Sparse.get 0 h k = Sparse.get 0 s.mgmt.healthNew k + 1) ∧
      (lasting = true → Sparse.get 0 h hcFailMark = Sparse.get 0 s.mgmt.healthNew hcFailMark + 1) := by
  cases lasting with
  | false =>
    refine ⟨_, rfl, fun k hk => ?_, fun h => nomatch h⟩
    rw [hk, if_neg Bool.false_ne_true, get_put_same]
  | true =>
    have hne : hcLasting unit ≠ hcFailMark := by
      unfold hcLasting hcFailMark
      omega
    refine ⟨_, rfl, fun k hk => ?_, fun _ => ?_⟩
    · rw [hk, if_pos rfl]
      exact (get_put_other 0 _ _ hne).trans (get_put_same 0 _ _ _)
    · exact (get_put_same 0 _ _ _).trans (congrArg (· + 1) (get_put_other 0 _ _ hne.symm))

/-! ### Marks -/

theorem getLsbD_mark {m : BitVec 36} {pos : Nat} (hpos : pos < 36) (p : Nat) : (m ||| (1#36 <<< pos)).getLsbD p = (m.getLsbD p || decide (p = pos)) := by
  rw [BitVec.getLsbD_or]
  by_cases hp : p = pos
  · subst hp
    simp [hpos]
  · by_cases hlt : p < pos
    · simp [hlt, hp]
    · have : p - pos ≠ 0 := by omega
      simp [hp, this]

theorem reportRank_dram (s : State) (rank : Nat) : (s.reportRank rank).dram = s.dram := by
  unfold State.reportRank
  split <;> rfl

theorem reportRank_mem (s : State) (rank : Nat) : (s.reportRank rank).mem = s.mem := by
  unfold State.reportRank
  split <;> rfl

theorem reportRank_groups (s : State) (rank : Nat) : (s.reportRank rank).groups = s.groups := by
  unfold State.reportRank
  split <;> rfl

theorem addMark_mem (s : State) (rank pos : Nat) : (s.addMark rank pos).mem = s.mem := by
  unfold State.addMark
  dsimp only
  split
  · rfl
  · split
    · exact reportRank_mem s rank
    · rfl

theorem addMark_groups (s : State) (rank pos : Nat) : (s.addMark rank pos).groups = s.groups := by
  unfold State.addMark
  dsimp only
  split
  · rfl
  · split
    · exact reportRank_groups s rank
    · rfl

theorem addMark_full {s : State} {rank : Nat} (pos : Nat) (h : 4 ≤ symbols (Sparse.get 0 s.dram.erase rank)) :
    (s.addMark rank pos).dram.erase = s.dram.erase := by
  unfold State.addMark
  dsimp only
  split
  · rfl
  · rw [reportRank_dram]

theorem addMark_marks {s : State} {rank pos : Nat} (hpos : pos < 36) (h : symbols (Sparse.get 0 s.dram.erase rank) < 4) (r p : Nat) :
    ((Sparse.get 0 (s.addMark rank pos).dram.erase r).getLsbD p = true) =
      ((r = rank ∧ p = pos) ∨ (Sparse.get 0 s.dram.erase r).getLsbD p = true) := by
  refine propext ?_
  unfold State.addMark
  dsimp only
  split
  · rename_i hset
    refine ⟨.inr, fun hor => hor.elim (fun hrp => ?_) id⟩
    rw [hrp.1, hrp.2]
    exact hset
  · rw [if_neg (by omega)]
    change (Sparse.get 0 (Sparse.set 0 s.dram.erase rank _) r).getLsbD p = true ↔ _
    by_cases hr : r = rank
    · subst hr
      rw [Sparse.get_set_same, getLsbD_mark hpos, Bool.or_eq_true, decide_eq_true_iff]
      exact ⟨fun hor => hor.elim .inr fun hp => .inl ⟨rfl, hp⟩, fun hor => hor.elim (fun hrp => .inr hrp.2) .inl⟩
    · rw [Sparse.get_set_other 0 _ _ hr]
      exact ⟨.inr, fun hor => hor.elim (fun hrp => absurd hrp.1 hr) id⟩

/-! ### Ports -/

theorem flushOne_ports (t : State) (c : SendCtx) : (flushOne t c).fab.ports = t.fab.ports := by
  unfold flushOne
  split
  · rfl
  · exact (congrArg Fab.ports (foldl_emit_fab (sendList t c.plane c.pkts 0).1 t) :)

theorem flush_ports (s : State) : s.flush.fab.ports = s.fab.ports := by
  rw [flush_eq]
  exact foldl_rel (R := fun s t : State => t.fab.ports = s.fab.ports) (fun _ => rfl) (fun h k => k.trans h) s.fab.sctx
    (fun t c _ => flushOne_ports t c) s

theorem SentOnly.mem {s t : State} (h : SentOnly s t) : t.mem = s.mem := (congrArg State.mem h.rest :)
theorem SentOnly.groups {s t : State} (h : SentOnly s t) : t.groups = s.groups := (congrArg State.groups h.rest :)
theorem SentOnly.mgmt {s t : State} (h : SentOnly s t) : t.mgmt = s.mgmt := (congrArg State.mgmt h.rest :)

end Sys2Proof.Proofs
end

section
/-! Fatal errors and the dump (spec 25, R461 to R463), and O57. -/

namespace Sys2Proof.Proofs

open Sys2Proof Sys2Proof.Machine Sys2Proof.Claims

/-! ### Runs of bytes that are written into a frame -/

theorem num_congr {m m' : Mem} {k n : Nat} (h : ∀ j, k ≤ j → j < k + n → Mem.rd m' j = Mem.rd m j) : Mem.num m' k n = Mem.num m k n := by
  have hbytes : Mem.bytes m' k n = Mem.bytes m k n := by
    induction n generalizing k with
    | zero => rfl
    | succ n ih =>
      rw [Mem.bytes, Mem.bytes, h k (Nat.le_refl k) (by omega), ih fun j hj hjn => h j (by omega) (by omega)]
  rw [Mem.num, Mem.num, hbytes]

theorem wrBytes_append (m : Mem) (k : Nat) (a b : List Byte) : Mem.wrBytes m k (a ++ b) = Mem.wrBytes (Mem.wrBytes m k a) (k + a.length) b := by
  induction a generalizing m k with
  | nil => rfl
  | cons x a ih =>
    rw [List.cons_append, Mem.wrBytes, ih, Mem.wrBytes, List.length_cons, Nat.add_assoc, Nat.add_comm 1]

/-- Runs of bytes in a frame that all begin past an offset. -/
def Past (n : Nat) (l : List (Nat × List Byte)) : Prop := ∀ p ∈ l, n ≤ p.1

theorem Past.append {n : Nat} {l l' : List (Nat × List Byte)} (h : Past n l) (h' : Past n l') : Past n (l ++ l') := fun p hp =>
  (List.mem_append.mp hp).elim (h p) (h' p)

theorem past_map {α : Type} {n : Nat} {l : List α} {f : α → Nat × List Byte} (h : ∀ x ∈ l, n ≤ (f x).1) : Past n (l.map f) := fun p hp => by
  obtain ⟨x, hx, rfl⟩ := List.mem_map.mp hp
  exact h x hx

theorem past_flatMap {α : Type} {n : Nat} {l : List α} {f : α → List (Nat × List Byte)} (h : ∀ x ∈ l, Past n (f x)) : Past n (l.flatMap f) :=
  fun p hp => by
    obtain ⟨x, hx, hp⟩ := List.mem_flatMap.mp hp
    exact h x hx p hp

/-- Memory with runs of bytes written into a frame. -/
def framed (frame : Nat) (l : List (Nat × List Byte)) (m : Mem) : Mem := l.foldl (fun m p => Mem.wrBytes m (frame + p.1) p.2) m

theorem rd_framed {n frame k : Nat} {l : List (Nat × List Byte)} (h : Past n l) (hk : k < frame + n) (m : Mem) : Mem.rd (framed frame l m) k = Mem.rd m k := by
  induction l generalizing m with
  | nil => rfl
  | cons p l ih =>
    have hp := h p List.mem_cons_self
    exact (ih (fun q hq => h q (List.mem_cons_of_mem _ hq)) _).trans (Mem.rd_wrBytes_outside m _ _ (.inl (by omega)))

theorem rd_filter {m : Mem} {q : Host.Cell → Bool} {k : Nat} (h : ∀ c : Host.Cell, c.1 = k → q c = true) : Mem.rd (m.filter q) k = Mem.rd m k := by
  unfold Mem.rd Sparse.get
  refine congrArg (fun x : Option Byte => x.getD Mem.unlisted) ?_
  induction m with
  | nil => rfl
  | cons c m ih =>
    by_cases hc : c.1 = k
    · rw [List.filter_cons_of_pos (h c hc), Sparse.find, Sparse.find, if_pos hc, if_pos hc]
    · by_cases hq : q c = true
      · rw [List.filter_cons_of_pos hq, Sparse.find, Sparse.find, if_neg hc, if_neg hc, ih]
      · rw [List.filter_cons_of_neg hq, Sparse.find, if_neg hc, ih]

theorem le_of_mem_put {l : List (Nat × Unit)} {n k : Nat} (hk : n ≤ k) (h : ∀ p ∈ l, n ≤ p.1) : ∀ p ∈ Sparse.put l k (), n ≤ p.1 := fun p hp => by
  rcases Sparse.mem_put hp with rfl | hp
  · exact hk
  · exact h p hp

theorem le_of_mem_rising {l : List Nat} {n : Nat} (h : ∀ k ∈ l, n ≤ k) : ∀ k ∈ rising l, n ≤ k := fun k hk => by
  unfold rising at hk
  obtain ⟨p, hp, rfl⟩ := List.mem_map.mp hk
  exact List.foldlRecOn (motive := fun m : List (Nat × Unit) => ∀ p ∈ m, n ≤ p.1) l _ (fun p hp => absurd hp List.not_mem_nil)
    (fun m hm x hx => le_of_mem_put (h x hx) hm) p hp

/-! ### The dump -/

/-- What a dump makes of memory: over what it keeps, a header with the magic word and the source, and runs that begin past it. -/
structure Dumps (s t : State) (frame source : Nat) : Prop where
  written : ∃ a b l kept, a.length = 12 ∧ Past 0x100000 l ∧
    t.mem = framed frame l (Mem.wrBytes kept frame (leBytes 0x504D5544 4 ++ a ++ leBytes source 4 ++ b)) ∧
    ∀ k, k < frame → Mem.rd kept k = Mem.rd s.mem k

theorem openRuns_past : ∀ r ∈ openRuns, 0x100000 ≤ r.1 := by
  intro r hr
  unfold openRuns at hr
  rcases List.mem_append.mp hr with hr | hr
  · obtain ⟨c, -, hr⟩ := List.mem_flatMap.mp hr
    simp only [List.mem_cons, List.not_mem_nil, or_false] at hr
    rcases hr with rfl | rfl <;> exact Nat.le_trans (by decide) (Nat.le_add_right _ _)
  · simp only [List.mem_cons, List.not_mem_nil, or_false] at hr
    rcases hr with rfl | rfl <;> decide

theorem dump_dumps (s : State) (frame source : Nat) : Dumps s (s.dump frame source) frame source := by
  unfold State.dump
  extract_lets section_ cut field units cellsBad at_ bad listed header slices pools free cores bar cells blank kept stays written
  have hat (c o : Nat) : 0x100000 ≤ at_ c o := by
    unfold at_
    omega
  have hslices : Past 0x100000 slices := past_map fun c _ => hat _ _
  have hfree : Past 0x100000 free := past_map fun r hr => by
    rcases List.mem_append.mp hr with hr | hr
    · exact openRuns_past r hr
    · obtain ⟨c, -, hr⟩ := List.mem_flatMap.mp hr
      obtain ⟨b, -, hr⟩ := List.mem_flatMap.mp hr
      obtain ⟨x, -, rfl⟩ := List.mem_map.mp hr
      exact hat _ _
  have hcores : Past 0x100000 cores := past_flatMap fun c _ => past_map fun p _ => hat _ _
  have hbar : Past 0x100000 bar := past_map fun p _ => Nat.le_trans (by decide) (Nat.le_add_right _ _)
  have hcells : Past 0x100000 cells := past_map fun u _ => Nat.le_trans (by decide) (Nat.le_add_right _ _)
  have hbad : ∀ u ∈ bad, 0x8000 ≤ u := le_of_mem_rising fun k hk => by
    rcases List.mem_append.mp hk with hk | hk
    · obtain ⟨c, -, hk⟩ := List.mem_flatMap.mp hk
      obtain ⟨o, -, rfl⟩ := List.mem_map.mp hk
      have := hat c o
      omega
    · obtain ⟨u, -, rfl⟩ := List.mem_map.mp hk
      exact Nat.le_trans (by decide) (Nat.le_add_right _ _)
  have hblank : Past 0x100000 blank := past_map fun u hu => by
    have := hbad u hu
    omega
  refine ⟨⟨leBytes (if cut then 1 else 0) 4 ++ leBytes s.clock.toNat 8, leBytes listed.length 4 ++ leBytes 0 8 ++ listed.flatMap (fun u => leBytes (32 * u) 8),
    slices ++ free ++ cores ++ bar ++ cells ++ blank, kept, ?_, ?_, ?_, ?_⟩⟩
  · rw [List.length_append, leBytes_length, leBytes_length]
  · exact ((((hslices.append hfree).append hcores).append hbar).append hcells).append hblank
  · change written.foldl _ kept = _
    have hheader : header = leBytes 0x504D5544 4 ++ (leBytes (if cut then 1 else 0) 4 ++ leBytes s.clock.toNat 8) ++ leBytes source 4 ++
        (leBytes listed.length 4 ++ leBytes 0 8 ++ listed.flatMap (fun u => leBytes (32 * u) 8)) := by
      unfold header
      simp only [List.append_assoc]
    have hwritten : written = (0, header) :: (slices ++ free ++ cores ++ bar ++ cells ++ blank) := by
      unfold written
      simp only [List.append_assoc, List.cons_append, List.nil_append]
    rw [hwritten, List.foldl_cons, hheader]
    rfl
  · intro k hk
    refine rd_filter fun c hc => ?_
    rw [Bool.or_eq_true, decide_eq_true_iff]
    exact .inl (hc ▸ hk)

theorem Dumps.below {s t : State} {frame source : Nat} (h : Dumps s t frame source) {k : Nat} (hk : k < frame) : Mem.rd t.mem k = Mem.rd s.mem k := by
  obtain ⟨a, b, l, kept, -, hl, hmem, hkept⟩ := h.written
  rw [hmem, rd_framed hl (by omega), Mem.rd_wrBytes_outside _ _ _ (.inl hk), hkept k hk]

theorem Dumps.magic {s t : State} {frame source : Nat} (h : Dumps s t frame source) : Mem.num t.mem frame 4 = 0x504D5544 := by
  obtain ⟨a, b, l, kept, -, hl, hmem, -⟩ := h.written
  rw [hmem, num_congr fun j _ hj => rd_framed hl (by omega) _, List.append_assoc, List.append_assoc, wrBytes_append,
    num_congr fun j _ hj => Mem.rd_wrBytes_outside _ _ _ (.inl (by rw [leBytes_length]; exact hj)), num_wrBytes]
  rfl

theorem Dumps.source {s t : State} {frame source : Nat} (h : Dumps s t frame source) : Mem.num t.mem (frame + 16) 4 = source % 2 ^ 32 := by
  obtain ⟨a, b, l, kept, ha, hl, hmem, -⟩ := h.written
  have hlen : (leBytes 0x504D5544 4 ++ a).length = 16 := by
    rw [List.length_append, leBytes_length, ha]
  rw [hmem, num_congr fun j _ hj => rd_framed hl (by omega) _, wrBytes_append, wrBytes_append,
    List.length_append (bs := leBytes source 4), hlen, leBytes_length,
    num_congr fun j _ hj => Mem.rd_wrBytes_outside _ _ _ (.inl (by omega)), num_wrBytes]

/-- DEVSTAT with another status. -/
theorem status_mod (d : Word) (n : Nat) (hn : n < 8) : (d &&& ~~~7 ||| BitVec.ofNat 32 n).toNat % 8 = n := by
  have key : ∀ d : Word, ∀ k : BitVec 3, ((d &&& ~~~(7 : Word)) ||| k.setWidth 32).setWidth 3 = k := by
    intro d k
    ext i hi
    simp
  have h := congrArg BitVec.toNat (key d (BitVec.ofNat 3 n))
  have hk : (BitVec.ofNat 3 n).setWidth 32 = BitVec.ofNat 32 n := by
    apply BitVec.eq_of_toNat_eq
    simp
    omega
  rw [hk, BitVec.toNat_setWidth, BitVec.toNat_ofNat] at h
  omega

end Sys2Proof.Proofs
end

section
/-! What refresh management, erasure marks, flushes and retries do to the device (spec 14, R333, R337; spec 25, R464, R465), and O57. -/

namespace Sys2Proof.Proofs

open Sys2Proof Sys2Proof.Machine Sys2Proof.Claims

theorem get_set_eq (m : List (Nat × Nat)) (k b v : Nat) : Sparse.get 0 (Sparse.set 0 m k v) b = if b = k then v else Sparse.get 0 m b := by
  split
  · rename_i h
    rw [h, Sparse.get_set_same]
  · rename_i h
    exact Sparse.get_set_other 0 m v h

theorem not_mem_filter_ne (l : List Nat) (k : Nat) : k ∉ l.filter (· ≠ k) := fun h => by
  simpa using (List.mem_filter.mp h).2

theorem refreshManagement_acts {s : State} (hp : s.power = true) {bank : Nat} (h : bank ∈ s.dram.rfm ∨ bank ∈ s.dram.due) :
    execRefreshManagement bank s = .next (s.manage bank) := by
  have hmem : (s.dram.rfm.contains bank || s.dram.due.contains bank) = true := by
    rw [Bool.or_eq_true, List.contains_iff_mem, List.contains_iff_mem]
    exact h
  rw [execRefreshManagement, hp, hmem]
  rfl

theorem refreshManagement_idle {s : State} (hp : s.power = true) {bank : Nat} (hrfm : bank ∉ s.dram.rfm) (hdue : bank ∉ s.dram.due) :
    execRefreshManagement bank s = .next s := by
  rw [execRefreshManagement, hp, contains_false_of_not_mem hrfm, contains_false_of_not_mem hdue]
  rfl

theorem bankRefresh_acts {s : State} (hp : s.power = true) (bank : Nat) :
    execBankRefresh bank s =
      .next { s with dram := { s.dram with bac := Sparse.set 0 s.dram.bac bank (Sparse.get 0 s.dram.bac bank - s.dram.dec) } } := by
  rw [execBankRefresh, hp]
  rfl

/-- A device whose erasure table has taken a mark, which flash keeps too. -/
def flashed (s : State) (rank pos : Nat) : State :=
  { s.addMark rank pos with mgmt := { (s.addMark rank pos).mgmt with
    flashMarks := Sparse.set 0 (s.addMark rank pos).mgmt.flashMarks rank
      (Sparse.get 0 (s.addMark rank pos).mgmt.flashMarks rank ||| (Sparse.get 0 (s.addMark rank pos).dram.erase rank &&& (1#36 <<< pos))) } }

theorem erasureMark_acts {s : State} (hp : s.power = true) {rank pos : Nat} (hpos : pos < 36)
    (hrows : 16 ≤ (Sparse.get [] s.dram.fixed (rank * 64 + pos)).length) : execErasureMark rank pos s = .next (flashed s rank pos) := by
  have hguard : (!s.power || decide (36 ≤ pos) || decide ((Sparse.get [] s.dram.fixed (rank * 64 + pos)).length < 16)) = false := by
    rw [hp, decide_eq_false (by omega), decide_eq_false (by omega)]
    rfl
  rw [execErasureMark, if_neg (by rw [hguard]; exact Bool.false_ne_true)]
  rfl

theorem flashed_flash {s : State} {rank pos : Nat} (hpos : pos < 36) (h : symbols (Sparse.get 0 s.dram.erase rank) < 4) :
    (Sparse.get 0 (flashed s rank pos).mgmt.flashMarks rank).getLsbD pos = true := by
  have hset : (Sparse.get 0 (s.addMark rank pos).dram.erase rank).getLsbD pos = true := by
    rw [addMark_marks hpos h]
    exact .inl ⟨rfl, rfl⟩
  unfold flashed
  dsimp only
  rw [Sparse.get_set_same, BitVec.getLsbD_or, BitVec.getLsbD_and, hset]
  simp [hpos]

/-! ### Retries -/

theorem faultRetry_sector {s : State} (hp : s.power = true) {unit : Nat} (h : unit ∈ s.mgmt.faults) (again : Bool) :
    execFaultRetry unit 0 again s = .next (({ s with mgmt := { s.mgmt with faults := s.mgmt.faults.filter (· ≠ unit) } } : State).classed
      (rankOf (s.scheme ownIl (32 * unit)) (32 * unit)) (s.badAt ownIl (32 * unit))) := by
  rw [execFaultRetry, hp, List.contains_iff_mem.mpr h]
  rfl

theorem faultRetry_retried {s : State} (hp : s.power = true) {unit : Nat} (h : unit ∉ s.mgmt.faults) (again : Bool) :
    execFaultRetry unit 0 again s = .next s := by
  rw [execFaultRetry, hp, contains_false_of_not_mem h]
  rfl

theorem faultRetry_sound {s : State} (hp : s.power = true) {unit : Nat} (h : (s.port unit).state ≠ 3) (again : Bool) :
    execFaultRetry unit 1 again s = .next s := by
  have hguard : (decide (32 ≤ unit) || decide ((s.port unit).state ≠ 3)) = true := by
    rw [decide_eq_true h, Bool.or_true]
  rw [execFaultRetry, hp, if_neg (by decide), if_neg (by decide), if_pos rfl, if_pos hguard]

/-- A port whose retry is over. -/
def retried (to_ : BitVec 2) (fails : Bool) (x : Port) : Port := { x with state := to_, reason := if fails then 1 else 0, fails := [] }

theorem faultRetry_port {s : State} (hp : s.power = true) {unit : Nat} (hunit : unit < 32) (h : (s.port unit).state = 3) {again fails : Bool}
    (hfails : fails = (again || !(s.port unit).live s.clock.toNat)) :
    execFaultRetry unit 1 again s = .next (((s.classed (4096 + unit) fails).modPort unit
      (retried (if fails then 0 else if s.isMember then 2 else 1) fails)).flush) := by
  have hguard : (decide (32 ≤ unit) || decide ((s.port unit).state ≠ 3)) = false := by
    rw [decide_eq_false (by omega), decide_eq_false (not_not_intro h)]
    rfl
  rw [execFaultRetry, hp, if_neg (by decide), if_neg (by decide), if_pos rfl, if_neg (by rw [hguard]; exact Bool.false_ne_true), hfails]
  rfl

/-- The classes' counts, as a retry of a port leaves them. -/
theorem faultRetry_port_leaves {s : State} (hp : s.power = true) {unit : Nat} (hunit : unit < 32) (h : (s.port unit).state = 3) {again fails : Bool}
    (hfails : fails = (again || !(s.port unit).live s.clock.toNat)) :
    ∃ t, exec (.faultRetry unit 1 again) s = .next t ∧ t.mem = s.mem ∧ t.groups = s.groups ∧
      (∀ k, k = (if fails = true then hcLasting else hcTransient) (4096 + unit) →
        Sparse.get 0 t.mgmt.healthNew k = Sparse.get 0 s.mgmt.healthNew k + 1) ∧
      (t.port unit).state = (if fails then 0 else if s.isMember then 2 else 1) ∧ (t.port unit).reason = if fails then 1 else 0 := by
  obtain ⟨counts, hclassed, hcount, -⟩ := classed_rest s (4096 + unit) fails
  have hexec := faultRetry_port hp hunit h hfails
  rw [hclassed] at hexec
  have hsent := flush_sent (State.modPort { s with mgmt := { s.mgmt with healthNew := counts } } unit
    (retried (if fails then 0 else if s.isMember then 2 else 1) fails))
  have hport : (State.modPort { s with mgmt := { s.mgmt with healthNew := counts } } unit
      (retried (if fails then 0 else if s.isMember then 2 else 1) fails)).flush.port unit =
      retried (if fails then 0 else if s.isMember then 2 else 1) fails (s.port unit) := by
    rw [State.port, flush_ports]
    exact Sparse.get_set_same ..
  refine ⟨_, hexec, hsent.mem, hsent.groups, fun k hk => ?_, ?_, ?_⟩
  · rw [hsent.mgmt]
    exact hcount k hk
  · rw [hport]
    rfl
  · rw [hport]
    rfl

/-! ### O57 -/

theorem flushHealthLog_discarded {s : State} (h : 3 ≤ s.mgmt.devstat.toNat % 8) : execFlushHealthLog s = .next s := by
  rw [execFlushHealthLog, decide_eq_false (by omega), Bool.and_false]
  rfl

theorem flush_acts {s : State} (hp : s.power = true) {i : Instr} (hi : i ∈ [Instr.healthFlush, .flushHealthLog])
    (h : i = .flushHealthLog → s.mgmt.devstat.toNat % 8 < 3) : exec i s = .next s.flushHealth := by
  simp only [List.mem_cons, List.not_mem_nil, or_false] at hi
  rcases hi with rfl | rfl
  · change execHealthFlush s = _
    rw [execHealthFlush, hp]
    rfl
  · change execFlushHealthLog s = _
    rw [execFlushHealthLog, hp, decide_eq_true (h rfl)]
    rfl

theorem dramAndHealth : DramAndHealth := by
  intro s hp
  refine ⟨fun bank h => ⟨_, refreshManagement_acts hp h, rfl, rfl, not_mem_filter_ne _ _, not_mem_filter_ne _ _, fun b => get_set_eq _ _ b _⟩,
    fun bank hrfm hdue => refreshManagement_idle hp hrfm hdue,
    fun bank => ⟨_, bankRefresh_acts hp bank, rfl, rfl, rfl, rfl, fun b => get_set_eq _ _ b _⟩, fun rank pos hpos hrows => ?_,
    flushHealthLog_discarded, fun i hi hstat hnodup => ?_, fun unit again => ?_⟩
  · exact ⟨_, erasureMark_acts hp hpos hrows, addMark_mem s rank pos, addMark_groups s rank pos,
      fun h => ⟨flashed_flash hpos h, addMark_marks hpos h⟩, addMark_full pos⟩
  · exact ⟨_, flush_acts hp hi hstat, rfl, rfl, fun k => ⟨rfl, flushHealth_healthOf hnodup k⟩⟩
  · refine ⟨fun h => faultRetry_retried hp h again, fun h => ?_, fun h => faultRetry_sound hp h again,
      fun hunit h fails hfails => faultRetry_port_leaves hp hunit h hfails⟩
    have hexec := faultRetry_sector hp h again
    obtain ⟨counts, hclassed, hcount, hmark⟩ := classed_rest ({ s with mgmt := { s.mgmt with faults := s.mgmt.faults.filter (· ≠ unit) } } : State)
      (rankOf (s.scheme ownIl (32 * unit)) (32 * unit)) (s.badAt ownIl (32 * unit))
    rw [hclassed] at hexec
    exact ⟨_, _, rfl, hexec, rfl, rfl, not_mem_filter_ne _ _, hcount, hmark⟩

/-- A device with another status. -/
def devstatAt (n : Nat) (s : State) : State := { s with mgmt := { s.mgmt with devstat := s.mgmt.devstat &&& ~~~7 ||| BitVec.ofNat 32 n } }

/-- Where the frame of a dump begins, 0 for none. -/
def dumpFrame (s : State) : Nat := (Sparse.get 0 s.mgmt.regions 3).toNat % 2 ^ 39

theorem fatal_eq (s : State) (source : Nat) : s.fatal source =
    devstatAt 4 (if dumpFrame s = 0 then devstatAt 3 s.flushHealth else (devstatAt 3 s.flushHealth).dump (dumpFrame s) source) := rfl

theorem fatal_groups (s : State) (source : Nat) : (s.fatal source).groups = s.groups := by
  rw [fatal_eq]
  split <;> rfl

theorem fatal_mem (s : State) (source : Nat) :
    (s.fatal source).mem = if dumpFrame s = 0 then s.mem else ((devstatAt 3 s.flushHealth).dump (dumpFrame s) source).mem := by
  rw [fatal_eq]
  split <;> rfl

theorem fatalErrors : FatalErrors := by
  intro s source hp hop
  have hexec : exec (.fatalError source) s = .next (s.fatal source) := by
    change execFatalError source s = _
    rw [execFatalError, hp, hop]
    rfl
  refine ⟨_, hexec, status_mod _ 4 (by decide), fatal_groups s source, fun h0 => ?_, fun a ha h0 => ?_⟩
  · rw [fatal_mem]
    exact if_pos h0
  · have hdumps := dump_dumps (devstatAt 3 s.flushHealth) a source
    have hmem : (s.fatal source).mem = ((devstatAt 3 s.flushHealth).dump a source).mem := by
      subst ha
      rw [fatal_mem]
      exact if_neg h0
    rw [hmem]
    exact ⟨hdumps.magic, hdumps.source, fun k hk => hdumps.below hk⟩

/-- Settles O57: the steps of firmware and of the memory controllers one by one, and the dump as runs of bytes of which only the header begins
below offset 0x100000. -/
theorem dramHealthAndDump : Obligations.DramHealthAndDump := ⟨dramAndHealth, fatalErrors⟩

end Sys2Proof.Proofs
end

section
/-! coll (R252) where an issued collective of the block has the identity that is handed out next. -/

namespace Sys2Proof.Proofs

open Sys2Proof Sys2Proof.Machine Sys2Proof.Claims

/-- The sample coll, with its descriptor in s0 to s3. -/
def collFields : Fields := word .w64 0 0 0 0 0 0

/-- `twoLanes` with the descriptor of a barrier collective of 256 bytes. -/
def collecting : Group := { twoLanes with regs := { twoLanes.regs with s := [(0, 1), (3, 256)] } }

/-- A collective of another descriptor that has started, under the identity that the device hands out next. -/
def startedColl : Coll :=
  { id := 1, block := 1, desc := 0, obj := 0, gids := [], gs := 0, gneg := false, sup := false, differ := false, started := true, k := 0, n := 0,
    rank := 0, devs := [], cq := 0, steps := 0, sig := 0 }

/-- The block of that collective. -/
def collBlock : Block := { placedBlock with k := { placedKernel with scr := 256 }, colls := [startedColl] }

/-- The device, with communicator 0 of one member, itself, and one sequence word. -/
def collDevice : State := { doubled with mem := [(8, 1), (10, 1), (12, 1)], groups := [(1, collecting)], blocks := [(1, collBlock)] }

/-- No collective of the block has the descriptor of the group after its coll. -/
theorem coll_lost : ((after (.coll collFields) collDevice).block 1).any (fun b => b.colls.any (fun y => y.desc = quadOf (collecting.readSQ collFields.a))) = false := by
  decide +kernel

/-- Refutes O52: the coll of `collecting` opens a collective under the identity of one that has started, and joins that one instead, whose
descriptor is another. -/
theorem not_collectivesAndCounters : ¬ Obligations.CollectivesAndCounters := by
  intro h
  have hready : Ready (.coll collFields) collDevice collecting := ready_of_isReady (by decide +kernel)
  obtain ⟨-, hissued⟩ := (h.1.2 collFields collDevice collecting collBlock rfl rfl).1 hready
  obtain ⟨t, g', b', y, hexec, -, -, -, hblock, hy, -, hdesc, -⟩ := hissued (by decide +kernel)
  have hlost := coll_lost
  rw [← eq_after hexec] at hlost
  change (t.block collecting.block).any _ = false at hlost
  rw [hblock, Option.any_some, List.any_eq_false] at hlost
  exact hlost y hy (decide_eq_true hdesc)

end Sys2Proof.Proofs
end

section
/-! Host writes of far memory (spec 25, R452): a write whose first sector answers a wait through a page of another interleave scheme finds the next
sector in another rank. -/

namespace Sys2Proof.Proofs

open Sys2Proof Sys2Proof.Machine Sys2Proof.Claims

theorem recorded_of_none {s : State} (h : s.fld.domains = []) (key : Nat) : s.recorded key = false := by
  rw [State.recorded, h]
  rfl

/-- Where no domain is declared, the pieces of a host write are those of a run of the device's own. -/
theorem foldl_hostStore (addr : Nat) (bs : List Byte) (l : List (Nat × Nat)) {s : State} (h : s.fld.domains = []) :
    l.foldl (fun (r : State × Bool) p =>
      if r.1.recorded (addr + p.1) then (r.1, true) else ((r.1.writeAt ownIl (addr + p.1) ((bs.drop p.1).take p.2) none).1, r.2)) (s, false) =
    (l.foldl (fun (s : State) p => (s.writeAt ownIl (addr + p.1) ((bs.drop p.1).take p.2) none).1) s, false) := by
  induction l generalizing s with
  | nil => rfl
  | cons p l ih =>
    have hwrote := writeAt_wroteHome s ownIl (addr + p.1) ((bs.drop p.1).take p.2) none
    rw [List.foldl_cons, List.foldl_cons, if_neg (by rw [recorded_of_none h]; exact Bool.false_ne_true)]
    exact ih (hwrote.fld ▸ h)

theorem WroteHome.regions {s t : State} (h : WroteHome s t) : t.mgmt.regions = s.mgmt.regions := (congrArg Mgmt.regions h.writes.counts :)

theorem hostStore_eq {s : State} (h : s.fld.domains = []) (hregions : Sparse.get 0 s.mgmt.regions 2 = 0) (addr : Nat) (bs : List Byte) :
    s.hostStore addr bs = s.writeRun ownIl addr bs := by
  have hcomm : (s.writeRun ownIl addr bs).commStarts addr bs = [] := by
    rw [State.commStarts, (writeRun_wroteHome s ownIl addr bs).regions, hregions]
    rfl
  unfold State.hostStore
  rw [foldl_hostStore addr bs _ h]
  dsimp only
  rw [if_neg Bool.false_ne_true]
  change ((s.writeRun ownIl addr bs).commStarts addr bs).foldl State.startComm _ = _
  rw [hcomm]
  rfl

theorem hostMemoryAccess_writes {s : State} (hp : s.power = true) (hop : s.operating = true) {addr n : Nat} {bs : List Byte}
    (hfits : addr + bs.length ≤ 2 ^ 39) : exec (.hostMemoryAccess addr n (some bs)) s = .next (s.hostStore addr bs) := by
  change execHostMemoryAccess addr n (some bs) s = _
  have hstat : ¬ s.mgmt.devstat.toNat % 8 = 4 := by
    rw [State.operating, decide_eq_true_iff] at hop
    omega
  rw [execHostMemoryAccess, hp, hop, if_neg (by simpa using hfits), if_neg hstat]

/-! ### The sample device -/

/-- `deep`, with one byte of the second sector of the stack area as it was. -/
def hostDeep (v : Byte) : State := { deep 0 with mem := Mem.wr [] 0x1008 v }

/-- Sixteen bytes that are not zero. -/
def ones : List Byte := List.replicate 16 1

/-- The device when the first piece has been written. -/
def hostDeepWritten (v : Byte) : State := ((hostDeep v).writeAt ownIl 0xFF8 (ones.take 8) none).1

theorem hostDeepWritten_facts {v : Byte} (hv : v = 0 ∨ v = 1) : ((hostDeepWritten v).own.fresh = 0 ∧
    ((hostDeepWritten v).nodes.flatMap (fun n => n.2.waits)).filter (fun w => w.ans.isNone) = [] ∧ Sparse.get 0 (hostDeepWritten v).dram.schemes 0 = 8 ∧
    Sparse.get 0 (hostDeepWritten v).dram.lanes 64 = 7 ∧ Sparse.get 0 (hostDeepWritten v).dram.erase 64 = 0 ∧
    Sparse.get 0 (hostDeepWritten v).dram.errors 128 = 0 ∧ (hostDeepWritten v).dram.bad.contains 128 = false) ∧
    Mem.rd (hostDeepWritten v).mem 0x1000 = 0 := by
  obtain rfl | rfl := hv <;> decide +kernel

theorem hostDeepWritten_fragile {v : Byte} (hv : v = 0 ∨ v = 1) : Fragile (hostDeepWritten v) := by
  obtain ⟨⟨hfresh, hquiet, hschemes, hlanes, herase, herrors, hgood⟩, -⟩ := hostDeepWritten_facts hv
  exact ⟨hfresh, hquiet, hschemes, hlanes, herase, herrors, hgood⟩

theorem hostDeep_clean {v : Byte} (hv : v = 0 ∨ v = 1) : ∀ i, i < ones.length →
    (hostDeep v).ecc ((hostDeep v).scheme ownIl (0xFF8 + i)) ((0xFF8 + i) / 32) = .clean ∧ ((hostDeep v).reach ownIl (0xFF8 + i)).mixed (0xFF8 + i) = false := by
  obtain rfl | rfl := hv <;> decide +kernel

/-- A byte of which the free byte of its place is no copy. -/
def oddByte : Byte := if Config.freeByte 0 0x1008 = 0 then 1 else 0

theorem oddByte_cases : oddByte = 0 ∨ oddByte = 1 := by
  unfold oddByte
  split
  · exact .inr rfl
  · exact .inl rfl

theorem oddByte_lost : Config.freeByte 0 0x1008 ≠ oddByte := by
  unfold oddByte
  split
  case isTrue h => rw [h]; decide
  case isFalse h => exact h

theorem hostDeep_stores (v : Byte) : (hostDeep v).hostStore 0xFF8 ones = ((hostDeepWritten v).writeAt ownIl 0x1000 (ones.drop 8) none).1 := by
  have hpieces : unitPieces 32 0xFF8 ones.length = [(0, 8), (8, 8)] := by decide
  rw [hostStore_eq rfl rfl, State.writeRun, hpieces]
  rfl

/-- The host's second piece is discarded where the code finds the sector uncorrectable, and changes other bytes of the sector where it miscorrects. -/
theorem hostDeep_stores_other {v : Byte} (hv : v = 0 ∨ v = 1) (hodd : Config.freeByte 0 0x1008 ≠ v) :
    Mem.rd ((hostDeep v).hostStore 0xFF8 ones).mem 0x1000 ≠ 1 ∨ Mem.rd ((hostDeep v).hostStore 0xFF8 ones).mem 0x1008 ≠ v := by
  have hfragile := hostDeepWritten_fragile hv
  have hpart : (ones.drop 8).length ≠ 32 := by decide
  rw [hostDeep_stores]
  cases hfree : Config.freeBool 0 128 with
  | false =>
    have hecc : (hostDeepWritten v).ecc ((hostDeepWritten v).scheme ownIl 0x1000) (0x1000 / 32) = .bad := by
      rw [hfragile.scheme (by decide), show 0x1000 / 32 = 128 from rfl, hfragile.ecc, hfree]
      rfl
    left
    rw [writeAt_mem_of_bad (by decide) hpart hecc, (hostDeepWritten_facts hv).2]
    decide
  | true =>
    have hecc : (hostDeepWritten v).ecc ((hostDeepWritten v).scheme ownIl 0x1000) (0x1000 / 32) = .wrong := by
      rw [hfragile.scheme (by decide), show 0x1000 / 32 = 128 from rfl, hfragile.ecc, hfree]
      rfl
    right
    rw [writeAt_mem_of_wrong (by decide) hpart hecc, Mem.rd_wrBytes_outside _ _ _ (.inr (by decide)), hfragile.fresh]
    have hin := Mem.rd_wrBytes_inside (hostDeepWritten v).mem 0x1000 ((List.range 32).map (fun i => Config.freeByte 0 (0x1000 + i))) (i := 8) (by simp)
    rw [show (0x1008 : Nat) = 0x1000 + 8 from rfl, show 0x1000 / 32 * 32 = 0x1000 from rfl, hin]
    simpa using hodd

/-- Refutes O60: of the host's sixteen bytes from 0xFF8 on, the first eight answer a wait through a page of another scheme, under which the sector of
the others is not clean. -/
theorem not_hostStartAndDebug : ¬ Obligations.HostStartAndDebug := by
  intro h
  have hv := oddByte_cases
  have hfits : 0xFF8 + ones.length ≤ 2 ^ 39 := by decide
  obtain ⟨-, hwrite⟩ := (h.1 (hostDeep oddByte) 0xFF8 rfl).2 0 ones hfits
  obtain ⟨hstores, -⟩ := hwrite rfl rfl
  obtain ⟨t, hexec, -, hmem⟩ := hstores fun i hi => ⟨recorded_of_none rfl _, .inr ⟨by have : ones.length = 16 := rfl; omega, hostDeep_clean hv i hi⟩⟩
  have ht := Host.Outcome.next.inj (hexec.symm.trans (hostMemoryAccess_writes (s := hostDeep oddByte) rfl rfl (n := 0) hfits))
  subst ht
  have hold : Mem.rd (hostDeep oddByte).mem 0x1008 = oddByte := Mem.rd_wr_same ..
  rcases hostDeep_stores_other hv oddByte_lost with hfirst | hother
  · exact hfirst (hmem 0x1000)
  · exact hother ((hmem 0x1008).trans hold)

end Sys2Proof.Proofs
end

section
/-! A record that reaches its request at a queue that closes with it (R260, R361), in a block whose list of live groups is not its groups. -/

namespace Sys2Proof.Proofs

open Sys2Proof Sys2Proof.Machine Sys2Proof.Claims

/-- The request of group 1, which has been given the record `bs`. -/
def givenRequest (bs : List Byte) : Request := { id := 1, gid := 1, queue := 0, core := 0, dst := 0, off := 0, cq := false, got := some (0, 0, bs) }

/-- The request of group 2, which waits. -/
def waitingRequest : Request := { id := 2, gid := 2, queue := 0, core := 0, dst := 0, off := 0, cq := false }

/-- `twoLanes` with no lane left. -/
def noLanes : Group := { twoLanes with ctl := { twoLanes.ctl with exm := 0, livem := 0 } }

/-- A block with two groups, of which it lists the second alone as live. -/
def forgetfulBlock : Block := { placedBlock with gids := [1, 2], live := [2] }

/-- The device, with the work queue 0 closed and empty. -/
def closedQueue (bs : List Byte) : State :=
  { doubled with
    groups := [(1, twoLanes), (2, noLanes)], blocks := [(1, forgetfulBlock)]
    dist := { State.reset.dist with queues := [(0, 10)], requests := [givenRequest bs, waitingRequest] } }

/-- Refutes O53: the delivery answers the request that waits at the closed queue too; its group, which has no lane left, retires, and the block, which
lists no other as live, ends with the group that the record was for. -/
theorem not_queues : ¬ Obligations.Queues := by
  intro h
  obtain ⟨t, hexec, -, -, hlanded⟩ := h.2.2.1 (closedQueue (List.replicate 64 0)) 0 0 0 (List.replicate 64 0) (givenRequest (List.replicate 64 0)) twoLanes
    forgetfulBlock (.inl rfl) rfl rfl rfl (by decide) rfl rfl rfl
  obtain ⟨g', hg', -⟩ := hlanded rfl twoLanes rfl rfl (by decide) (by decide)
  have hgone : (after (.recordDelivery 0 0) (closedQueue (List.replicate 64 0))).group 1 = none := by decide +kernel
  rw [← eq_after hexec] at hgone
  exact absurd (hg'.symm.trans hgone) (Option.some_ne_none g')

end Sys2Proof.Proofs
end

section
/-! What lands in a group, retires it or ends its block leaves the fabric and the clock. -/

namespace Sys2Proof.Proofs

open Sys2Proof Sys2Proof.Machine Sys2Proof.Claims

/-- The fabric, the clock and the distributor are as they were, but for requests, and the same grids are there. -/
structure Undisturbed (s t : State) : Prop where
  fab : t.fab = s.fab
  clock : t.clock = s.clock
  dist : { t.dist with requests := s.dist.requests } = s.dist
  grids : ∀ k, (t.grid k).isSome = (s.grid k).isSome

theorem Undisturbed.refl (s : State) : Undisturbed s s := ⟨rfl, rfl, rfl, fun _ => rfl⟩

theorem Undisturbed.trans {s t u : State} (h : Undisturbed s t) (k : Undisturbed t u) : Undisturbed s u where
  fab := k.fab.trans h.fab
  clock := k.clock.trans h.clock
  dist := (congrArg (fun d : Dist => { d with requests := s.dist.requests }) k.dist).trans h.dist
  grids n := (k.grids n).trans (h.grids n)

theorem Undisturbed.counters {s t : State} (h : Undisturbed s t) : t.dist.counters = s.dist.counters := (congrArg Dist.counters h.dist :)

theorem Undisturbed.shard {s t : State} (h : Undisturbed s t) (q core : Nat) : t.shard q core = s.shard q core :=
  (congrArg (fun d : Dist => Sparse.get [] d.shards (shardKey q core)) h.dist :)

theorem Undisturbed.grid_none {s t : State} (h : Undisturbed s t) (k : Nat) : t.grid k = none ↔ s.grid k = none := by
  rw [← Option.not_isSome_iff_eq_none, ← Option.not_isSome_iff_eq_none, h.grids k]

theorem dist_of_eq {a b : Dist} (h : b = a) : { b with requests := a.requests } = a := by rw [h]

theorem WroteHome.undisturbed {s t : State} (h : WroteHome s t) : Undisturbed s t :=
  ⟨(congrArg State.fab h.writes.rest :), (congrArg State.clock h.writes.rest :), dist_of_eq (congrArg State.dist h.writes.rest :),
    fun k => (congrArg (fun u : State => (u.grid k).isSome) h.writes.rest :)⟩

theorem setGroup_undisturbed (s : State) (gid : Nat) (g : Group) : Undisturbed s (s.setGroup gid g) := ⟨rfl, rfl, rfl, fun _ => rfl⟩

theorem modGroup_undisturbed (s : State) (gid : Nat) (f : Group → Group) : Undisturbed s (s.modGroup gid f) := by
  unfold State.modGroup
  split <;> exact ⟨rfl, rfl, rfl, fun _ => rfl⟩

theorem modGrid_undisturbed (s : State) (k : Nat) (f : Grid → Grid) : Undisturbed s (s.modGrid k f) := by
  unfold State.modGrid
  split
  · exact .refl s
  · rename_i x hx
    refine ⟨rfl, rfl, rfl, fun j => ?_⟩
    by_cases hj : j = k
    · rw [hj, hx, State.setGrid, State.grid, Sparse.find_put_same]
      rfl
    · rw [State.setGrid, State.grid, Sparse.find_put_other _ _ hj, State.grid]

theorem modBlock_undisturbed (s : State) (k : Nat) (f : Block → Block) : Undisturbed s (s.modBlock k f) := by
  unfold State.modBlock
  split <;> exact ⟨rfl, rfl, rfl, fun _ => rfl⟩

theorem rouse_undisturbed (s : State) (n : Nat) (bits : Word) : Undisturbed s (s.rouse n bits) := by
  unfold State.rouse
  split <;> exact ⟨rfl, rfl, rfl, fun _ => rfl⟩

theorem unpark_undisturbed (s : State) (gid : Nat) (bits : Word) : Undisturbed s (s.unpark gid bits) := by
  unfold State.unpark
  split
  · exact .refl s
  · dsimp only
    split
    · exact ⟨rfl, rfl, rfl, fun _ => rfl⟩
    · exact (setGroup_undisturbed s gid _).trans (rouse_undisturbed ..)

theorem writeV_undisturbed (s : State) (gid r : Nat) (vals : List (Nat × Word)) : Undisturbed s (s.writeV gid r vals) := by
  unfold State.writeV
  split
  · exact .refl s
  · rename_i g _
    split
    · exact .refl s
    · have hlog : Undisturbed s (if g.visitor.isSome then s else s.logLine g.block gid (.vreg gid r) (laneList.map (g.rdV r))) := by
        split
        · exact .refl s
        · exact modBlock_undisturbed ..
      dsimp only
      split
      · exact hlog.trans ((modGroup_undisturbed ..).trans ⟨rfl, rfl, rfl, fun _ => rfl⟩)
      · exact hlog.trans (modGroup_undisturbed ..)

theorem putDst_undisturbed (s : State) (gid : Nat) (x : BitVec 8) (v : Word) : Undisturbed s (s.putDst gid x v) := by
  unfold State.putDst
  split
  · exact modGroup_undisturbed ..
  · split
    · exact modGroup_undisturbed ..
    · exact .refl s

theorem deliverV_undisturbed (s : State) (gid r : Nat) (vals : List (Nat × Word)) (full : Bool) (why : Word) : Undisturbed s (s.deliverV gid r vals full why) := by
  unfold State.deliverV
  split
  · exact .refl s
  · split
    · exact (imageV_wroteHome ..).undisturbed
    · have hfull := (writeV_undisturbed s gid r vals).trans (modGroup_undisturbed _ gid fun g => g.markV r false)
      dsimp only
      split
      · split
        · exact hfull.trans (unpark_undisturbed ..)
        · exact hfull
      · exact writeV_undisturbed ..

theorem deliverS_undisturbed (s : State) (gid r : Nat) (x : Word) (full : Bool) (why : Word) : Undisturbed s (s.deliverS gid r x full why) := by
  unfold State.deliverS
  split
  · exact .refl s
  · split
    · exact (imageS_wroteHome ..).undisturbed
    · have hfull := (putDst_undisturbed s gid (BitVec.ofNat 8 r) x).trans (modGroup_undisturbed _ gid fun g => g.markS r false)
      dsimp only
      split
      · split
        · exact hfull.trans (unpark_undisturbed ..)
        · exact hfull
      · exact putDst_undisturbed ..

theorem reap_undisturbed (s : State) : Undisturbed s s.reap := by
  refine foldl_rel Undisturbed.refl Undisturbed.trans _ (fun t k _ => ?_) s
  unfold State.reapBlock
  split
  · exact .refl t
  · split
    · exact .refl t
    · split <;> exact ⟨rfl, rfl, rfl, fun _ => rfl⟩

theorem endBlock_undisturbed (s : State) (k : Nat) (cause : Option Nat) : Undisturbed s (s.endBlock k cause) := by
  unfold State.endBlock
  split
  · exact .refl s
  · extract_lets gone s1 s2 _ _ s3
    have h2 : Undisturbed s s2 := by
      unfold s2
      split <;> exact ⟨rfl, rfl, rfl, fun _ => rfl⟩
    have h3 : Undisturbed s2 s3 := ⟨rfl, rfl, rfl, fun _ => rfl⟩
    exact (h2.trans h3).trans ((modGrid_undisturbed ..).trans (reap_undisturbed _))

theorem tryRetire_undisturbed (s : State) (gid : Nat) : Undisturbed s (s.tryRetire gid) := by
  unfold State.tryRetire
  split
  · exact .refl s
  · split
    · exact .refl s
    · extract_lets _ _ s1
      have h1 : Undisturbed s s1 := ⟨rfl, rfl, rfl, fun _ => rfl⟩
      split
      · exact h1
      · extract_lets slots s2 s3 s4
        have h2 : Undisturbed s s2 := ⟨rfl, rfl, rfl, fun _ => rfl⟩
        have h3 : Undisturbed s2 s3 := by
          unfold s3
          split
          · exact (modBlock_undisturbed ..).trans ⟨rfl, rfl, rfl, fun _ => rfl⟩
          · exact .refl s2
        have h4 : Undisturbed s3 s4 := by
          unfold s4
          split
          · exact .refl s3
          · exact modGrid_undisturbed ..
        have h := (h2.trans h3).trans h4
        split
        · exact h.trans (endBlock_undisturbed ..)
        · exact h

theorem endVisitor_undisturbed (s : State) (gid code reason : Nat) (addr : Dword) : Undisturbed s (s.endVisitor gid code reason addr) := by
  unfold State.endVisitor
  split
  · exact .refl s
  · split <;> exact ⟨rfl, rfl, rfl, fun _ => rfl⟩

theorem raise_undisturbed (s : State) (gid : Nat) (x : Imprecise) : Undisturbed s (s.raise gid x) := by
  unfold State.raise
  split
  · exact .refl s
  · dsimp only
    split
    · exact endVisitor_undisturbed ..
    · split
      · exact ⟨rfl, rfl, rfl, fun _ => rfl⟩
      · exact (setGroup_undisturbed s gid _).trans (rouse_undisturbed ..)

theorem find_map_isSome {α : Type} (f : Nat × α → α) (m : List (Nat × α)) (k : Nat) :
    (Sparse.find (m.map fun p => (p.1, f p)) k).isSome = (Sparse.find m k).isSome := by
  cases h : Sparse.find m k with
  | none => rw [find_map_none h]
  | some v => rw [find_map_some h]; rfl

theorem storeFail_undisturbed (s : State) (gid : Nat) (x : Imprecise) : Undisturbed s (s.storeFail gid x) := by
  unfold State.storeFail
  split
  · exact modGroup_undisturbed ..
  · split
    · exact modGrid_undisturbed ..
    · exact ⟨rfl, rfl, rfl, find_map_isSome _ s.grids⟩

theorem raiseStores_undisturbed (s : State) (gid : Nat) (peer : Option Nat) : Undisturbed s (s.raiseStores gid peer) := by
  unfold State.raiseStores
  split
  · exact .refl s
  · extract_lets mine _ s1
    have h1 : Undisturbed s s1 := setGroup_undisturbed ..
    exact h1.trans (foldl_rel Undisturbed.refl Undisturbed.trans _ (fun t x _ => raise_undisturbed t gid x) s1)

theorem landAccess_undisturbed (s : State) (a : Access) : Undisturbed s (s.landAccess a) := by
  unfold State.landAccess
  extract_lets s1 hurt bad full value s2 s3 s4
  have h1 : Undisturbed s s1 := ⟨rfl, rfl, rfl, fun _ => rfl⟩
  have h2 : Undisturbed s s2 := h1.trans (foldl_rel Undisturbed.refl Undisturbed.trans _ (fun t i _ => by
    split
    · exact deliverV_undisturbed ..
    · split
      · exact deliverS_undisturbed ..
      · exact .refl t) s1)
  have h3 : Undisturbed s2 s3 := by
    unfold s3
    generalize hurt = l
    cases l with
    | nil => exact .refl s2
    | cons x l =>
      dsimp only
      split
      · exact storeFail_undisturbed ..
      · exact raise_undisturbed ..
  have h4 : Undisturbed s3 s4 := by
    unfold s4
    split
    · exact raiseStores_undisturbed ..
    · exact .refl s3
  exact ((h2.trans h3).trans h4).trans (tryRetire_undisturbed ..)

theorem partDone_undisturbed (s : State) (a : Access) (p : Part) (data : List Byte) : Undisturbed s (s.partDone a p data) := by
  unfold State.partDone
  extract_lets put a1 s1
  have h1 : Undisturbed s s1 := ⟨rfl, rfl, rfl, fun _ => rfl⟩
  split
  · exact h1.trans (landAccess_undisturbed ..)
  · exact h1

theorem failPart_undisturbed (s : State) (a : Access) (p : Part) (reason : Nat) : Undisturbed s (s.failPart a p reason) := by
  unfold State.failPart
  extract_lets aux fails a1 s1
  have h1 : Undisturbed s s1 := ⟨rfl, rfl, rfl, fun _ => rfl⟩
  split
  · exact h1.trans (landAccess_undisturbed ..)
  · exact h1

theorem closeLines_undisturbed (s : State) (n : Nat) (p : WcLine → Bool) : Undisturbed s (s.closeLines n p) := by
  unfold State.closeLines
  split <;> exact ⟨rfl, rfl, rfl, fun _ => rfl⟩

theorem combine_undisturbed (s : State) (n gid id : Nat) (c : BitVec 8) (peer addr : Nat) (bs : List Byte) :
    Undisturbed s (s.combine n gid id c peer addr bs) := by
  unfold State.combine
  refine foldl_rel Undisturbed.refl Undisturbed.trans _ (fun t q _ => ?_) s
  dsimp only
  split <;> exact ⟨rfl, rfl, rfl, fun _ => rfl⟩

theorem storeFault_undisturbed (s : State) (gid peer reason : Nat) (addr : Dword) : Undisturbed s (s.storeFault gid peer reason addr) := storeFail_undisturbed ..

theorem endLine_undisturbed (s : State) (core : Nat) (l : WcLine) (reason : Nat) : Undisturbed s (s.endLine core l reason) := by
  unfold State.endLine
  have h1 : Undisturbed s (s.modNode core fun n => { n with wc := n.wc.filter (fun k => k.id ≠ l.id) }) := ⟨rfl, rfl, rfl, fun _ => rfl⟩
  dsimp only
  split
  · exact h1
  · exact h1.trans (foldl_rel Undisturbed.refl Undisturbed.trans _ (fun t g _ => storeFault_undisturbed ..) _)

theorem failLines_undisturbed (s : State) (core : Nat) : Undisturbed s (s.failLines core) := by
  refine foldl_rel Undisturbed.refl Undisturbed.trans _ (fun t l _ => ?_) s
  split
  · exact .refl t
  · split
    · exact .refl t
    · exact endLine_undisturbed ..

end Sys2Proof.Proofs
end

section
/-! What sending keeps: the members, the generation, the clock and what the open contexts carry (R418, R424 to R427). -/

namespace Sys2Proof.Proofs

open Sys2Proof Sys2Proof.Machine Sys2Proof.Claims

/-- Every sending context has sent or been opened in this cycle. -/
def Fresh (s : State) : Prop := ∀ c ∈ s.fab.sctx, c.last = s.clock.toNat

/-- Membership, generation and clock stay, no receiving context opens, and the sending contexts stay fresh. -/
structure Steady (s t : State) : Prop where
  clock : t.clock = s.clock
  members : t.fab.members = s.fab.members
  kgen : t.fab.kgen = s.fab.kgen
  rctx : s.fab.rctx = [] → t.fab.rctx = []
  fresh : Fresh s → Fresh t

theorem Steady.refl (s : State) : Steady s s := ⟨rfl, rfl, rfl, id, id⟩

theorem Steady.trans {s t u : State} (h : Steady s t) (k : Steady t u) : Steady s u where
  clock := k.clock.trans h.clock
  members := k.members.trans h.members
  kgen := k.kgen.trans h.kgen
  rctx := k.rctx ∘ h.rctx
  fresh := k.fresh ∘ h.fresh

/-- A request that the contexts of a receiver and class carry in a generation. -/
structure Load where
  peer : Nat
  cls : Nat
  gen : Nat
  purpose : Purpose
  body : PBody

/-- A context carries a request. -/
def Load.isIn (l : Load) (c : SendCtx) : Prop := c.gen = l.gen ∧ ∃ x ∈ c.pkts, x.purpose = l.purpose ∧ x.p.body = l.body

/-- The receiver and class have a context, and each one they have carries the request. -/
def Aboard (s : State) (l : Load) : Prop :=
  (∃ c ∈ s.fab.sctx, c.peer = l.peer ∧ c.cls = l.cls) ∧ ∀ c ∈ s.fab.sctx, c.peer = l.peer → c.cls = l.cls → l.isIn c

/-- What is aboard fresh contexts stays there. -/
structure Sends (s t : State) : Prop extends Steady s t where
  aboard : Fresh s → ∀ l, Aboard s l → Aboard t l

theorem Sends.refl (s : State) : Sends s s := ⟨.refl s, fun _ _ => id⟩

theorem Sends.trans {s t u : State} (h : Sends s t) (k : Sends t u) : Sends s u :=
  ⟨h.toSteady.trans k.toSteady, fun hf l hl => k.aboard (h.fresh hf) l (h.aboard hf l hl)⟩

/-- Contexts that are changed one by one. -/
structure KeepsLoads (now : Nat) (f : SendCtx → SendCtx) : Prop where
  peer : ∀ c, (f c).peer = c.peer
  cls : ∀ c, (f c).cls = c.cls
  last : ∀ c, c.last = now → (f c).last = now
  isIn : ∀ c (l : Load), l.isIn c → l.isIn (f c)

theorem sends_of_map {s t : State} {f : SendCtx → SendCtx} (hf : KeepsLoads s.clock.toNat f) (hclock : t.clock = s.clock)
    (hmembers : t.fab.members = s.fab.members) (hkgen : t.fab.kgen = s.fab.kgen) (hrctx : s.fab.rctx = [] → t.fab.rctx = [])
    (hsctx : t.fab.sctx = s.fab.sctx.map f) : Sends s t := by
  refine ⟨⟨hclock, hmembers, hkgen, hrctx, fun hfresh c hc => ?_⟩, fun _ l ⟨⟨c, hc, hp, hcl⟩, hall⟩ => ⟨⟨f c, ?_, ?_, ?_⟩, fun d hd hdp hdc => ?_⟩⟩
  · rw [hsctx] at hc
    obtain ⟨c', hc', rfl⟩ := List.mem_map.mp hc
    rw [hclock]
    exact hf.last c' (hfresh c' hc')
  · rw [hsctx]
    exact List.mem_map_of_mem hc
  · exact (hf.peer c).trans hp
  · exact (hf.cls c).trans hcl
  · rw [hsctx] at hd
    obtain ⟨d', hd', rfl⟩ := List.mem_map.mp hd
    exact hf.isIn d' l (hall d' hd' ((hf.peer d').symm.trans hdp) ((hf.cls d').symm.trans hdc))

theorem keepsLoads_id (now : Nat) : KeepsLoads now id := ⟨fun _ => rfl, fun _ => rfl, fun _ => id, fun _ _ => id⟩

theorem sends_of_same {s t : State} (hclock : t.clock = s.clock) (hmembers : t.fab.members = s.fab.members) (hkgen : t.fab.kgen = s.fab.kgen)
    (hrctx : t.fab.rctx = s.fab.rctx) (hsctx : t.fab.sctx = s.fab.sctx) : Sends s t :=
  sends_of_map (keepsLoads_id _) hclock hmembers hkgen (fun h => hrctx.trans h) (hsctx.trans (List.map_id _).symm)

theorem Undisturbed.sends {s t : State} (h : Undisturbed s t) : Sends s t :=
  sends_of_same h.clock (congrArg Fab.members h.fab :) (congrArg Fab.kgen h.fab :) (congrArg Fab.rctx h.fab :) (congrArg Fab.sctx h.fab :)

theorem emit_sends (s : State) (e : Effect) : Sends s (s.emit e) := sends_of_same rfl rfl rfl rfl rfl

theorem roomForCtx_sends (s : State) : Sends s s.roomForCtx := by
  unfold State.roomForCtx
  extract_lets full _ s' sending receiving old
  have hs : Sends s s' := by
    unfold s'
    split
    · exact sends_of_same rfl rfl rfl rfl rfl
    · exact .refl s
  split
  · exact hs
  · split
    · refine hs.trans (sends_of_map ⟨fun c => ?_, fun c => ?_, fun c h => ?_, fun c l h => ?_⟩ rfl rfl rfl id rfl)
      · split <;> rfl
      · split <;> rfl
      · split <;> exact h
      · split <;> exact h
    · refine hs.trans (sends_of_map (keepsLoads_id _) rfl rfl rfl (fun h => ?_) (List.map_id _).symm)
      dsimp only
      rw [h]
      rfl
    · exact hs

theorem openCtx_sends (s : State) (peer cls : Nat) : Sends s (s.openCtx peer cls) := by
  unfold State.openCtx
  split
  · exact .refl s
  · rename_i hnone
    have h := roomForCtx_sends s
    refine ⟨⟨h.clock, h.members, h.kgen, h.rctx, fun hf c hc => ?_⟩, fun hf l hl => ?_⟩
    · rcases List.mem_append.mp hc with hold | hnew
      · exact h.fresh hf c hold
      · obtain rfl := List.mem_singleton.mp hnew
        rfl
    · obtain ⟨⟨c, hc, hcp, hcc⟩, hall⟩ := h.aboard hf l hl
      refine ⟨⟨c, List.mem_append_left _ hc, hcp, hcc⟩, fun d hd hdp hdc => ?_⟩
      rcases List.mem_append.mp hd with hold | hnew
      · exact hall d hold hdp hdc
      · obtain rfl := List.mem_singleton.mp hnew
        obtain ⟨⟨c0, hc0, hp0, hcl0⟩, -⟩ := hl
        refine absurd (List.any_eq_true.mpr ⟨c0, hc0, ?_⟩) hnone
        rw [Bool.and_eq_true, decide_eq_true_iff, decide_eq_true_iff]
        exact ⟨hp0.trans hdp.symm, hcl0.trans hdc.symm⟩

theorem readied_sends (s : State) (peer cls : Nat) : Sends s (readied s peer cls) := by
  unfold readied
  split
  · exact sends_of_same rfl rfl rfl rfl rfl
  · exact .refl s

theorem withPacket_keepsLoads (peer cls : Nat) (p : Packet) (why : Purpose) (now : Nat) : KeepsLoads now (withPacket peer cls p why now) := by
  refine ⟨fun c => ?_, fun c => ?_, fun c h => ?_, fun c l h => ?_⟩
  · unfold withPacket
    split <;> rfl
  · unfold withPacket
    split <;> rfl
  · unfold withPacket
    split <;> exact h
  · unfold withPacket
    split
    · obtain ⟨hgen, x, hx, hrest⟩ := h
      exact ⟨hgen, x, List.mem_append_left _ hx, hrest⟩
    · exact h

theorem letIn_sends (s : State) (peer cls : Nat) (p : Packet) (why : Purpose) : Sends s (s.letIn peer cls p why) := by
  rw [letIn_eq]
  have h := readied_sends s peer cls
  split
  · exact h.trans (sends_of_same rfl rfl rfl rfl rfl)
  · exact (h.trans (openCtx_sends _ peer cls)).trans (sends_of_map (withPacket_keepsLoads ..) rfl rfl rfl id rfl)

theorem closeCtx_steady (s : State) (c : SendCtx) : Steady s (s.closeCtx c) := by
  unfold State.closeCtx
  extract_lets _ s1
  have h1 : Steady s s1 := ⟨rfl, rfl, rfl, id, fun hf d hd => hf d (List.mem_of_mem_filter hd)⟩
  refine h1.trans (foldl_rel Steady.refl Steady.trans _ (fun t x _ => ?_) s1)
  split
  · exact .refl t
  · exact (letIn_sends ..).toSteady

theorem not_quiet_of_fresh {s : State} (h : Fresh s) {c : SendCtx} (hc : c ∈ s.fab.sctx) : c.quiet s.clock.toNat = false := by
  have hlast := h c hc
  rw [SendCtx.quiet, Bool.and_eq_false_iff, decide_eq_false_iff_not]
  exact .inl (by omega)

theorem roomMade_of_fresh {s : State} (h : Fresh s) (peer cls : Nat) : roomMade s peer cls = s := by
  unfold roomMade
  split
  · rfl
  · rename_i c hc
    rw [not_quiet_of_fresh h (List.mem_of_find?_eq_some hc)]
    rfl

theorem enqueue_sends (s : State) (peer cls : Nat) (p : Packet) (why : Purpose) : Sends s (s.enqueue peer cls p why) := by
  rw [enqueue_eq]
  have hroom : Sends s (roomMade s peer cls) := by
    refine ⟨?_, fun hf l hl => by rwa [roomMade_of_fresh hf]⟩
    unfold roomMade
    split
    · exact .refl s
    · split
      · exact closeCtx_steady ..
      · exact .refl s
  exact hroom.trans (letIn_sends ..)

/-! ### Flushing -/

theorem sendList_isIn (s : State) (rot : Nat) (l : List Sent) (n : Nat) {why : Purpose} {body : PBody}
    (h : ∃ x ∈ l, x.purpose = why ∧ x.p.body = body) : ∃ x ∈ (sendList s rot l n).2.1, x.purpose = why ∧ x.p.body = body := by
  induction l generalizing rot n with
  | nil => exact h
  | cons x l ih =>
    obtain ⟨z, hz, hload⟩ := h
    have hcons {x' : Sent} {rot' n' : Nat} (hpurpose : x'.purpose = x.purpose) (hbody : x'.p.body = x.p.body) :
        ∃ y ∈ x' :: (sendList s rot' l n').2.1, y.purpose = why ∧ y.p.body = body := by
      rcases List.mem_cons.mp hz with rfl | hz
      · exact ⟨x', List.mem_cons_self, hpurpose.trans hload.1, hbody.trans hload.2⟩
      · obtain ⟨w, hw, hwload⟩ := ih rot' n' ⟨z, hz, hload⟩
        exact ⟨w, List.mem_cons_of_mem _ hw, hwload⟩
    unfold sendList
    split
    · exact hcons rfl rfl
    · split
      · exact ⟨z, hz, hload⟩
      · split
        · exact ⟨z, hz, hload⟩
        · exact hcons rfl rfl

theorem flushOne_steady (s : State) (c : SendCtx) : Steady s (flushOne s c) := by
  unfold flushOne
  split
  · exact .refl s
  · extract_lets r t
    have hfab : t.fab = s.fab := foldl_emit_fab r.1 s
    have hclock : t.clock = s.clock := foldl_emit_clock r.1 s
    refine ⟨hclock, (congrArg Fab.members hfab :), (congrArg Fab.kgen hfab :), fun h => ((congrArg Fab.rctx hfab :).trans h), fun hf d hd => ?_⟩
    obtain ⟨d', hd', rfl⟩ := List.mem_map.mp hd
    rw [hfab] at hd'
    have hold : d'.last = t.clock.toNat := hclock ▸ hf d' hd'
    split
    · dsimp only
      split
      · exact hold
      · rfl
    · exact hold

theorem flushOne_aboard {t : State} {c : SendCtx} {l : Load} (h : Aboard t l) (hc : c.peer = l.peer → c.cls = l.cls → l.isIn c) :
    Aboard (flushOne t c) l := by
  unfold flushOne
  split
  · exact h
  · obtain ⟨⟨d, hd, hdp, hdc⟩, hall⟩ := h
    unfold Aboard
    simp only [foldl_emit_fab]
    refine ⟨⟨_, List.mem_map_of_mem hd, ?_, ?_⟩, fun e he hep hec => ?_⟩
    · split <;> exact hdp
    · split <;> exact hdc
    · obtain ⟨e', he', rfl⟩ := List.mem_map.mp he
      by_cases hkey : (e'.peer = c.peer && e'.cls = c.cls) = true
      · rw [if_pos hkey] at hep hec ⊢
        rw [Bool.and_eq_true, decide_eq_true_iff, decide_eq_true_iff] at hkey
        exact ⟨(hall e' he' hep hec).1, sendList_isIn _ _ _ _ (hc (hkey.1.symm.trans hep) (hkey.2.symm.trans hec)).2⟩
      · rw [if_neg hkey] at hep hec ⊢
        exact hall e' he' hep hec

theorem flush_sends (s : State) : Sends s s.flush := by
  rw [flush_eq]
  exact ⟨foldl_rel Steady.refl Steady.trans _ (fun t c _ => flushOne_steady t c) s, fun _ l hl =>
    List.foldlRecOn (motive := fun t => Aboard t l) s.fab.sctx flushOne hl fun t ht c hc => flushOne_aboard ht fun hp hcls => hl.2 c hc hp hcls⟩

theorem newMsg_sends (s : State) : Sends s s.newMsg := sends_of_same rfl rfl rfl rfl rfl

theorem request_sends (s : State) (c : BitVec 8) (peer typ len : Nat) (b : PBody) (why : Purpose) : Sends s (s.request c peer typ len b why) :=
  ((newMsg_sends s).trans (enqueue_sends ..)).trans (flush_sends _)

/-! ### What waits to be sent moves on -/

/-- What the steps of a pump keep. -/
structure PumpKeeps (R : State → State → Prop) : Prop where
  refl : ∀ s, R s s
  trans : ∀ {s t u}, R s t → R t u → R s u
  kept : ∀ {s t}, Undisturbed s t → R s t
  request : ∀ s c peer typ len b why, R s (State.request s c peer typ len b why)
  multicast : ∀ s peer p why, R s (s.newMsg.enqueue peer 3 p why)
  flush : ∀ s, R s s.flush

theorem modNode_undisturbed (s : State) (n : Nat) (f : Node → Node) : Undisturbed s (s.modNode n f) := ⟨rfl, rfl, rfl, fun _ => rfl⟩

section
variable {R : State → State → Prop} (h : PumpKeeps R)
include h

theorem PumpKeeps.drain (s : State) (n : Nat) : R s (s.drain n) := by
  refine foldl_rel h.refl h.trans _ (fun t l _ => ?_) s
  split
  · exact h.trans (h.kept (modNode_undisturbed t n _)) (h.request ..)
  · exact h.refl t

theorem PumpKeeps.drains (s : State) : R s s.drains :=
  foldl_rel h.refl h.trans _ (fun t n _ => h.trans (h.kept (failLines_undisturbed t n)) (h.drain ..)) s

theorem PumpKeeps.sendAs (s : State) (a : Access) (p : Part) {f : State → State} (hf : ∀ t, R t (f t)) : R s (s.sendAs a p f) := by
  unfold State.sendAs
  refine h.trans ?_ (hf _)
  exact h.kept ⟨rfl, rfl, rfl, fun _ => rfl⟩

theorem PumpKeeps.sendPart (s : State) (a : Access) (p : Part) : R s (s.sendPart a p) := by
  unfold State.sendPart
  split
  · split
    · exact h.refl s
    · split
      · exact h.kept (failPart_undisturbed ..)
      · split
        · dsimp only
          split
          · exact h.kept (closeLines_undisturbed ..)
          · exact h.kept ((combine_undisturbed ..).trans (partDone_undisturbed ..))
        · split
          · split
            · exact h.kept (closeLines_undisturbed ..)
            · exact h.sendAs s a p fun t => h.multicast ..
          · split
            · exact h.refl s
            · split
              · exact h.kept (closeLines_undisturbed ..)
              · exact h.sendAs s a p fun t => h.request ..
  · exact h.refl s

theorem PumpKeeps.pump (s : State) : R s s.pump := by
  have hparts (t : State) : R t t.sendParts :=
    foldl_rel h.refl h.trans _ (fun t a _ => foldl_rel h.refl h.trans _ (fun t p _ => by
      split
      · exact h.refl t
      · exact h.sendPart ..) t) t
  exact h.trans (h.trans (h.trans (h.drains s) (hparts _)) (h.drains _)) (h.flush _)

end

theorem pump_sends (s : State) : Sends s s.pump :=
  PumpKeeps.pump ⟨Sends.refl, Sends.trans, Undisturbed.sends, request_sends, fun s _ _ _ => (newMsg_sends s).trans (enqueue_sends ..), flush_sends⟩ s

end Sys2Proof.Proofs
end

section
/-! The contexts of a new generation count from one, so that what a device has waiting to be sent spends no counter (R421, R424). -/

namespace Sys2Proof.Proofs

open Sys2Proof Sys2Proof.Machine Sys2Proof.Claims

/-- The receiver and class of each open sending context. -/
def openKeys (s : State) : List (Nat × Nat) := s.fab.sctx.map (fun c => (c.peer, c.cls))

/-- How many contexts of class 0 or 3 that are open take their number from a counter. -/
def takers (keys : List (Nat × Nat)) (k : Nat) : Nat :=
  (if (k, 0) ∈ keys then 1 else 0) + (if 1024 ≤ k ∧ (k - 1024, 3) ∈ keys then 1 else 0)

/-- No re-key is under way, every context is fresh, and no counter is past the contexts that took their number from it. -/
structure Counted (s : State) : Prop where
  fresh : Fresh s
  rekeying : s.rekeying = false
  bound : ∀ k, Sparse.get 0 s.fab.ctxnos k ≤ takers (openKeys s) k

/-- What is counted stays counted. -/
def Calm (s t : State) : Prop := Counted s → Counted t

theorem takers_le_two (keys : List (Nat × Nat)) (k : Nat) : takers keys k ≤ 2 := by
  unfold takers
  split <;> split <;> omega

theorem indicator_le {P Q : Prop} [Decidable P] [Decidable Q] (h : P → Q) : (if P then 1 else 0 : Nat) ≤ if Q then 1 else 0 := by
  split
  · rename_i hp
    rw [if_pos (h hp)]
  · exact Nat.zero_le _

theorem takers_append_le (keys l : List (Nat × Nat)) (k : Nat) : takers keys k ≤ takers (keys ++ l) k :=
  Nat.add_le_add (indicator_le (List.mem_append_left l)) (indicator_le fun h => ⟨h.1, List.mem_append_left l h.2⟩)

/-- A new context of class 0 or 3 is one more that takes its number from its counter. -/
theorem takers_new {keys : List (Nat × Nat)} {peer cls : Nat} (hcls : cls = 0 ∨ cls = 3) (hnew : (peer, cls) ∉ keys) :
    takers keys (ctxCounter peer cls) + 1 ≤ takers (keys ++ [(peer, cls)]) (ctxCounter peer cls) := by
  have hin : (peer, cls) ∈ keys ++ [(peer, cls)] := List.mem_append_right _ (List.mem_singleton_self _)
  rcases hcls with rfl | rfl
  · rw [ctxCounter, if_neg (by omega), takers, takers, if_neg hnew, if_pos hin, Nat.zero_add, Nat.add_comm]
    exact Nat.add_le_add_left (indicator_le fun h => ⟨h.1, List.mem_append_left _ h.2⟩) 1
  · have hpeer : 1024 + peer - 1024 = peer := Nat.add_sub_cancel_left ..
    have hno : ¬(1024 ≤ 1024 + peer ∧ (peer, 3) ∈ keys) := fun h => hnew h.2
    have hyes : 1024 ≤ 1024 + peer ∧ (peer, 3) ∈ keys ++ [(peer, 3)] := ⟨Nat.le_add_right .., hin⟩
    rw [ctxCounter, if_pos rfl, takers, takers, hpeer, if_neg hno, if_pos hyes]
    exact Nat.add_le_add_right (indicator_le (List.mem_append_left _)) 1

theorem calm_of_keys {s t : State} (hfresh : Fresh s → Fresh t) (hdomst : t.fab.domst = s.fab.domst) (hctxnos : t.fab.ctxnos = s.fab.ctxnos)
    (hkeys : openKeys t = openKeys s) : Calm s t := fun h => by
  refine ⟨hfresh h.fresh, ?_, fun k => ?_⟩
  · have hr := h.rekeying
    rwa [State.rekeying, ← hdomst] at hr
  · rw [hctxnos, hkeys]
    exact h.bound k

theorem Undisturbed.calm {s t : State} (h : Undisturbed s t) : Calm s t :=
  calm_of_keys h.sends.fresh (congrArg Fab.domst h.fab :) (congrArg Fab.ctxnos h.fab :) (by rw [openKeys, h.fab]; rfl)

theorem roomForCtx_ctxnos (s : State) : s.roomForCtx.fab.ctxnos = s.fab.ctxnos := by
  unfold State.roomForCtx
  extract_lets full _ s' sending receiving old
  have hs : s'.fab.ctxnos = s.fab.ctxnos := by
    unfold s'
    split <;> rfl
  split
  · exact hs
  · split <;> exact hs

theorem Counted.not_spent {s : State} (h : Counted s) (peer cls : Nat) : s.spent peer cls = false := by
  rw [State.spent, Bool.and_eq_false_iff, decide_eq_false_iff_not]
  have hle := (h.bound (ctxCounter peer cls)).trans (takers_le_two ..)
  exact .inr (by omega)

theorem Counted.readied {s : State} (h : Counted s) (peer cls : Nat) : Proofs.readied s peer cls = s := by
  rw [Proofs.readied, h.not_spent]
  rfl

theorem openCtx_calm (s : State) (peer : Nat) {cls : Nat} (hcls : cls = 0 ∨ cls = 3) : Calm s (s.openCtx peer cls) := by
  intro h
  refine ⟨(openCtx_sends s peer cls).fresh h.fresh, ?_, ?_⟩
  · have hr := h.rekeying
    rwa [State.rekeying, ← (openCtx_sameDomst s peer cls).domst] at hr
  · unfold State.openCtx
    split
    · exact h.bound
    · rename_i hnone
      have hnew : (peer, cls) ∉ openKeys s := fun hin => by
        obtain ⟨c, hc, heq⟩ := List.mem_map.mp hin
        rw [Prod.mk.injEq] at heq
        refine hnone (List.any_eq_true.mpr ⟨c, hc, ?_⟩)
        rw [Bool.and_eq_true, decide_eq_true_iff, decide_eq_true_iff]
        exact heq
      intro k
      have hkeys : openKeys s.roomForCtx = openKeys s := roomForCtx_keys s
      have hopen := takers_new hcls hnew
      have hmono := takers_append_le (openKeys s) [(peer, cls)] k
      dsimp only [openKeys] at hkeys hopen hmono ⊢
      rw [List.map_append, hkeys, List.map_singleton, roomForCtx_ctxnos]
      by_cases hk : k = ctxCounter peer cls
      · subst hk
        rw [get_put_same]
        exact (Nat.add_le_add_right (h.bound _) 1).trans hopen
      · rw [get_put_other _ _ _ hk]
        exact (h.bound k).trans hmono

theorem enqueue_calm (s : State) (peer : Nat) {cls : Nat} (hcls : cls = 0 ∨ cls = 3) (p : Packet) (why : Purpose) :
    Calm s (s.enqueue peer cls p why) := by
  intro h
  have hopen := openCtx_calm s peer hcls h
  have hheld : s.holdsClass cls = false := by rw [State.holdsClass, h.rekeying]; rfl
  have hfresh := (enqueue_sends s peer cls p why).fresh h.fresh
  rw [enqueue_eq, roomMade_of_fresh h.fresh] at hfresh ⊢
  rw [letIn_eq, h.readied, h.not_spent, hheld] at hfresh ⊢
  rw [if_neg (by simp)] at hfresh ⊢
  refine calm_of_keys (s := s.openCtx peer cls) (fun _ => hfresh) rfl rfl ?_ hopen
  rw [openKeys, List.map_map]
  refine List.map_congr_left fun c _ => ?_
  have hkeeps := withPacket_keepsLoads peer cls p why (s.openCtx peer cls).clock.toNat
  rw [Function.comp_apply, hkeeps.peer, hkeeps.cls]

theorem flushOne_keys (s : State) (c : SendCtx) : openKeys (flushOne s c) = openKeys s := by
  unfold flushOne
  split
  · rfl
  · simp only [openKeys, foldl_emit_fab, List.map_map]
    refine List.map_congr_left fun d _ => ?_
    rw [Function.comp_apply]
    split <;> rfl

theorem flushOne_counters (s : State) (c : SendCtx) : (flushOne s c).fab.domst = s.fab.domst ∧ (flushOne s c).fab.ctxnos = s.fab.ctxnos := by
  unfold flushOne
  split
  · exact ⟨rfl, rfl⟩
  · have hfab := foldl_emit_fab (sendList s c.plane c.pkts 0).1 s
    exact ⟨(congrArg Fab.domst hfab :), (congrArg Fab.ctxnos hfab :)⟩

theorem flush_calm (s : State) : Calm s s.flush := by
  rw [flush_eq]
  exact foldl_rel (R := Calm) (fun _ => id) (fun h k => k ∘ h) _
    (fun t c _ => calm_of_keys (flushOne_steady t c).fresh (flushOne_counters t c).1 (flushOne_counters t c).2 (flushOne_keys t c)) s

theorem newMsg_calm (s : State) : Calm s s.newMsg := calm_of_keys id rfl rfl rfl

theorem pump_calm (s : State) : Calm s s.pump :=
  PumpKeeps.pump (R := Calm) ⟨fun _ => id, fun h k => k ∘ h, Undisturbed.calm,
    fun s _ peer _ _ _ _ h => flush_calm _ (enqueue_calm _ peer (.inl rfl) _ _ (newMsg_calm s h)),
    fun s peer _ _ h => enqueue_calm _ peer (.inr rfl) _ _ (newMsg_calm s h), flush_calm⟩ s

end Sys2Proof.Proofs
end

section
/-! What the end of a packet does leaves the members of the trust domain (R425). -/

namespace Sys2Proof.Proofs

open Sys2Proof Sys2Proof.Machine Sys2Proof.Claims

theorem foldl_pair_rel {α β : Type} {R : State → State → Prop} (refl : ∀ s, R s s) (trans : ∀ {s t u}, R s t → R t u → R s u)
    (f : State × β → α → State × β) (hstep : ∀ r x, R r.1 (f r x).1) (l : List α) (r : State × β) : R r.1 (l.foldl f r).1 := by
  induction l generalizing r with
  | nil => exact refl _
  | cons x l ih => exact trans (hstep r x) (ih _)

theorem writePieces_wroteHome (s : State) (l : List (Nat × Nat × Nat × Dword)) (bs : List Byte) : WroteHome s (s.writePieces l bs) :=
  foldl_pair_rel (β := List Byte) WroteHome.refl WroteHome.trans _ (fun r p => writeAt_wroteHome r.1 p.2.2.1 p.1 (List.take p.2.1 r.2) none) l (s, bs)

theorem readHeader_readHome (s : State) (e : CqEntry) : ReadHome s (s.readHeader e).1 := by
  unfold State.readHeader
  split
  · exact .refl s
  · split
    · exact readPieces_readHome ..
    · exact .refl s

theorem acquired_undisturbed (s : State) (n scope : Nat) : Undisturbed s (s.acquired n scope) := by
  unfold State.acquired
  split
  · exact ⟨rfl, rfl, rfl, fun _ => rfl⟩
  · exact .refl s

theorem setCq_undisturbed (s : State) (k : Nat) (e : CqEntry) : Undisturbed s (s.setCq k e) := ⟨rfl, rfl, rfl, fun _ => rfl⟩

theorem emit_undisturbed (s : State) (e : Effect) : Undisturbed s (s.emit e) := ⟨rfl, rfl, rfl, fun _ => rfl⟩

theorem cqDrop_undisturbed (s : State) (k : Nat) (e : CqEntry) (l : List (Nat × Nat × Nat × Dword)) (bs : List Byte) : Undisturbed s (s.cqDrop k e l bs) :=
  (writePieces_wroteHome ..).undisturbed.trans (setCq_undisturbed ..)

theorem pollAnswers_undisturbed (s : State) (k : Nat) : Undisturbed s (s.pollAnswers k) := by
  unfold State.pollAnswers
  split
  · exact .refl s
  · rename_i e _
    have hr := (readHeader_readHome s e).wroteHome.undisturbed
    generalize s.readHeader e = r at hr ⊢
    obtain ⟨t, x⟩ := r
    cases x with
    | none => exact hr
    | some x =>
      dsimp only
      split
      · exact hr
      · refine (hr.trans ?_).trans (foldl_rel Undisturbed.refl Undisturbed.trans _ (fun u q _ =>
          ((acquired_undisturbed ..).trans (deliverS_undisturbed ..)).trans (tryRetire_undisturbed ..)) _)
        exact ⟨rfl, rfl, rfl, fun _ => rfl⟩

theorem count_undisturbed (s : State) (c : Nat) : Undisturbed s (s.count c) := (count_readHome s c).wroteHome.undisturbed

theorem record_undisturbed (s : State) (c : BitVec 8) (header : Dword) (status kind : Nat) (irq defer : Bool) (tag sig count : Nat) :
    Undisturbed s (s.record c header status kind irq defer tag sig count).1 := by
  unfold State.record
  split
  · exact .refl s
  · rename_i k e _
    have hr := (readHeader_readHome s e).wroteHome.undisturbed
    generalize s.readHeader e = r at hr ⊢
    obtain ⟨t, x⟩ := r
    cases x with
    | none => exact hr.trans (count_undisturbed ..)
    | some x =>
      dsimp only
      split
      · exact hr.trans (cqDrop_undisturbed ..)
      · split
        · exact hr.trans (cqDrop_undisturbed ..)
        · split
          · exact hr.trans (cqDrop_undisturbed ..)
          · exact (((hr.trans (writePieces_wroteHome ..).undisturbed).trans (writePieces_wroteHome ..).undisturbed).trans (setCq_undisturbed ..)).trans
              (pollAnswers_undisturbed ..)

theorem complete_undisturbed (s : State) (c : BitVec 8) (header : Dword) (status kind : Nat) (irq defer : Bool) (tag sig count : Nat) :
    Undisturbed s (s.complete c header status kind irq defer tag sig count) := by
  unfold State.complete
  split
  · exact .refl s
  · refine (record_undisturbed s c header status kind irq defer tag sig count).trans ?_
    unfold State.raiseMsix
    split
    · exact .refl _
    · exact emit_undisturbed ..

theorem opDone_undisturbed (s : State) (a : Attach) (status count : Nat) : Undisturbed s (s.opDone a status count) := by
  unfold State.opDone
  split
  · exact complete_undisturbed ..
  · exact .refl s

theorem logBytes_undisturbed (s : State) (blk gid key n : Nat) : Undisturbed s (s.logBytes blk gid key n) := by
  unfold State.logBytes
  split
  · exact .refl s
  · split
    · exact .refl s
    · refine foldl_rel Undisturbed.refl Undisturbed.trans _ (fun t p _ => ?_) s
      dsimp only
      split
      · exact modBlock_undisturbed ..
      · exact .refl t

theorem scrWrite_undisturbed (s : State) (c : Cmd) (off : Nat) (bs : List Byte) : Undisturbed s (s.scrWrite c off bs) := by
  unfold State.scrWrite
  split
  · refine (Undisturbed.trans ?_ (logBytes_undisturbed ..)).trans (writeRun_wroteHome ..).undisturbed
    split
    · exact modBlock_undisturbed ..
    · exact .refl s
  · exact .refl s

theorem ackPieces_undisturbed (s : State) (id : Nat) (ps : List Nat) : Undisturbed s (s.ackPieces id ps) := ⟨rfl, rfl, rfl, fun _ => rfl⟩

/-! ### The members -/

/-- The members of the trust domain are as they were. -/
def SameMembers (s t : State) : Prop := t.fab.members = s.fab.members

theorem SameMembers.refl (s : State) : SameMembers s s := rfl

theorem SameMembers.trans {s t u : State} (h : SameMembers s t) (k : SameMembers t u) : SameMembers s u := Eq.trans k h

theorem Undisturbed.sameMembers {s t : State} (h : Undisturbed s t) : SameMembers s t := (congrArg Fab.members h.fab :)

theorem Sends.sameMembers {s t : State} (h : Sends s t) : SameMembers s t := h.members

theorem dropMsg_sameMembers (s : State) (peer id : Nat) : SameMembers s (s.dropMsg peer id) := rfl

theorem msgDone_sameMembers (s : State) (m : OutMsg) (status count : Nat) : SameMembers s (s.msgDone m status count) := by
  unfold State.msgDone
  split
  · exact dropMsg_sameMembers ..
  · split
    · exact .refl s
    · extract_lets _ _ s1
      have h1 : SameMembers s s1 := by
        unfold s1
        split
        · split <;> rfl
        · rfl
      exact h1.trans (opDone_undisturbed ..).sameMembers

theorem getLands_sameMembers (s : State) (m : OutMsg) (data : Option (List Byte)) : SameMembers s (s.getLands m data) := by
  unfold State.getLands
  split
  · exact dropMsg_sameMembers ..
  · dsimp only
    split
    · rfl
    · split
      · exact (dropMsg_sameMembers s m.peer m.id).trans (((scrWrite_undisturbed ..).trans (ackPieces_undisturbed ..)).sameMembers)
      · rfl

theorem pieceOutcome_sameMembers (s : State) (m : OutMsg) (reason : Nat) : SameMembers s (s.pieceOutcome m reason) := by
  have hfail (c : Nat) : SameMembers s (if reason = 0 then s else s.modCmd c fun c => c.lose m.peer reason) := by split <;> rfl
  unfold State.pieceOutcome
  extract_lets fail
  split
  · extract_lets s1
    have h1 : SameMembers s s1 := by
      unfold s1
      split
      · rfl
      · exact (hfail _).trans rfl
    split
    · exact h1.trans (dropMsg_sameMembers ..)
    · exact h1
  · split
    · exact .refl s
    · exact (hfail _).trans (getLands_sameMembers ..)
  · split
    · exact .refl s
    · exact msgDone_sameMembers ..
  · exact .refl s

theorem requestFails_sameMembers (s : State) (peer msg reason : Nat) : SameMembers s (s.requestFails peer msg reason) := by
  unfold State.requestFails
  split
  · exact dropMsg_sameMembers ..
  · exact ((dropMsg_sameMembers ..).trans (failPart_undisturbed ..).sameMembers).trans (pump_sends _).sameMembers

theorem lineAcked_sameMembers (s : State) (core line reason : Nat) : SameMembers s (s.lineAcked core line reason) := by
  unfold State.lineAcked
  split
  · exact .refl s
  · exact (endLine_undisturbed ..).sameMembers.trans (pump_sends _).sameMembers

theorem outcome_sameMembers (s : State) (peer : Nat) (x : Sent) (reason : Nat) : SameMembers s (s.outcome peer x reason) := by
  have hpart (acc : Nat) : SameMembers s (match s.partIn acc x.p.msg with
      | none => s
      | some (a, p) => (if reason = 0 then s.partDone a p [] else s.failPart a p reason).pump) := by
    split
    · exact .refl s
    · refine SameMembers.trans ?_ (pump_sends _).sameMembers
      split
      · exact (partDone_undisturbed ..).sameMembers
      · exact (failPart_undisturbed ..).sameMembers
  have hread : SameMembers s (if reason ≠ 0 then s.requestFails peer x.p.msg reason
      else if (s.partOfMsg peer x.p.msg).isSome then
        s.addMsg { id := x.p.msg, peer := peer, total := 0, first := some x.first, kind := 3, att := none, cmd := none, done := false, status := 0 }
      else s) := by
    split
    · exact requestFails_sameMembers ..
    · split <;> rfl
  unfold State.outcome
  split
  · exact lineAcked_sameMembers ..
  · exact hpart _
  · exact hpart _
  · exact hread
  · exact hread
  · split
    · exact (enqueue_sends ..).sameMembers.trans (flush_sends _).sameMembers
    · split
      · split <;> rfl
      · rfl
  · split
    · exact .refl s
    · exact msgDone_sameMembers ..
  · split
    · exact .refl s
    · exact pieceOutcome_sameMembers ..
  · exact .refl s

end Sys2Proof.Proofs
end

section
/-! The states of a port (R413, R414). -/

namespace Sys2Proof.Proofs

open Sys2Proof Sys2Proof.Machine Sys2Proof.Claims

theorem onPort_powered {s : State} {p : Nat} (hp : p < 32) (hpower : s.power = true) (f : State) : onPort s p f = .next f := by
  rw [onPort, if_neg (by omega), hpower]
  rfl

theorem port_modPort (s : State) (p q : Nat) (f : Port → Port) : (s.modPort p f).port q = if q = p then f (s.port p) else s.port q := by
  split
  · rename_i h
    rw [h]
    exact Sparse.get_set_same ..
  · rename_i h
    exact Sparse.get_set_other Port.reset s.fab.ports _ h

/-- A change of one port that keeps what it holds of PCFG. -/
theorem modPort_now {s : State} {p : Nat} {f : Port → Port} {state : BitVec 2} {reason : BitVec 8} (hstate : (f (s.port p)).state = state)
    (hreason : (f (s.port p)).reason = reason) (hcfg : (f (s.port p)).cfg = (s.port p).cfg) : PortNow s (s.modPort p f) p state reason := by
  refine ⟨rfl, rfl, ?_, ?_, ?_, fun q hq => ?_⟩
  · rw [port_modPort, if_pos rfl, hstate]
  · rw [port_modPort, if_pos rfl, hreason]
  · rw [port_modPort, if_pos rfl, hcfg]
  · rw [port_modPort, if_neg hq]

theorem portNow_self (s : State) (p : Nat) : PortNow s s p (s.port p).state (s.port p).reason := ⟨rfl, rfl, rfl, rfl, rfl, fun _ _ => rfl⟩

theorem port_of_ports {s t : State} (h : t.fab.ports = s.fab.ports) (q : Nat) : t.port q = s.port q := by rw [State.port, State.port, h]

/-- What leaves the ports, memory and the groups leaves a port's outcome. -/
theorem portNow_later {s t u : State} {p : Nat} {state : BitVec 2} {reason : BitVec 8} (h : PortNow s t p state reason) (hmem : u.mem = t.mem)
    (hgroups : u.groups = t.groups) (hports : u.fab.ports = t.fab.ports) : PortNow s u p state reason := by
  obtain ⟨h1, h2, h3, h4, h5, h6⟩ := h
  have hport := port_of_ports hports
  exact ⟨hmem.trans h1, hgroups.trans h2, by rw [hport, h3], by rw [hport, h4], by rw [hport, h5], fun q hq => by rw [hport, h6 q hq]⟩

theorem faultPort_now (s : State) (p reason : Nat) : PortNow s (s.faultPort p reason) p 3 (BitVec.ofNat 8 reason) := by
  have hcount := count_readHome (s.modPort p fun x => { x with state := 3, reason := BitVec.ofNat 8 reason, fails := [] }) (hcFaulted p)
  exact portNow_later (modPort_now rfl rfl rfl) hcount.mem_eq hcount.groups_eq (congrArg Fab.ports hcount.wroteHome.undisturbed.fab :)

theorem faultPort_swid (s : State) (p reason : Nat) : ((s.faultPort p reason).port p).swid = (s.port p).swid := by
  have hcount := count_readHome (s.modPort p fun x => { x with state := 3, reason := BitVec.ofNat 8 reason, fails := [] }) (hcFaulted p)
  have hport := port_of_ports (congrArg Fab.ports hcount.wroteHome.undisturbed.fab :) p
  refine (congrArg Port.swid hport :).trans ?_
  rw [port_modPort, if_pos rfl]

theorem secured_state {s : State} {p : Nat} (h : s.secured p = true) : (s.port p).state ≠ 0 := by
  rw [State.secured, Bool.and_eq_true, Bool.or_eq_true, decide_eq_true_iff, decide_eq_true_iff, decide_eq_true_iff] at h
  rcases h.2 with h | h <;> rw [h] <;> decide

theorem tagFailureFault_acts {s : State} {p : Nat} (hp : p < 32) (h : s.secured p = true) (hfails : 16 ≤ ((s.port p).fails.filter (fun c => s.clock.toNat ≤ c + 1600000)).length) :
    exec (.tagFailureFault p) s = .next (s.faultPort p 3) := by
  change execTagFailureFault p s = _
  unfold execTagFailureFault
  have hport : decide (32 ≤ p) = false := decide_eq_false (by omega)
  have hmany : decide (((s.port p).fails.filter (fun t => s.clock.toNat ≤ t + msCycles)).length < 16) = false :=
    decide_eq_false (Nat.not_lt.mpr hfails)
  dsimp only
  rw [h, hport, hmany]
  rfl

theorem linkDown_acts {s : State} {p : Nat} (hp : p < 32) (h : s.secured p = true)
    (hdown : (s.port p).live s.clock.toNat = true ∨ ((s.port p).up = false ∧ (s.port p).downAt + 1600000 ≤ s.clock.toNat) ∨
      ∃ c, (s.port p).up = true ∧ (s.port p).held = some c ∧ c + 1600000 ≤ s.clock.toNat) :
    exec (.linkDown p) s = .next (s.faultPort p 4) := by
  change execLinkDown p s = _
  unfold execLinkDown
  rw [h]
  refine if_neg ?_
  rw [Bool.or_eq_true, Bool.or_eq_true, decide_eq_true_iff, Bool.and_eq_true, decide_eq_true_iff]
  rintro ((hp' | hs) | ⟨hlive, hsoon⟩)
  · omega
  · exact absurd hs (by decide)
  · rcases hdown with hd | ⟨hup, hd⟩ | ⟨c, hup, hheld, hd⟩
    · rw [hd] at hlive
      exact absurd hlive (by decide)
    · rw [hup] at hsoon
      simp only [msCycles] at hsoon
      omega
    · rw [hup, hheld] at hsoon
      simp only [msCycles] at hsoon
      omega

section
variable {s : State} {p : Nat} (hp : p < 32) (hpower : s.power = true)
include hp hpower

theorem lock_acts (d : Option (BitVec 64)) :
    ((s.port p).state ≠ 0 → exec (.lock p d) s = .next s) ∧
      ((s.port p).state = 0 → d = some (s.port p).swid → (s.port p).live s.clock.toNat = true →
        ∃ t, exec (.lock p d) s = .next t ∧ PortNow s t p 1 (s.port p).reason) ∧
      ((s.port p).state = 0 → (d ≠ some (s.port p).swid ∨ (s.port p).live s.clock.toNat = false) →
        ∃ t, exec (.lock p d) s = .next t ∧ PortNow s t p 0 1) := by
  have hexec : exec (.lock p d) s = .next _ := onPort_powered hp hpower _
  refine ⟨fun h => ?_, fun h hd hlive => ⟨_, hexec, ?_⟩, fun h hno => ⟨_, hexec, ?_⟩⟩
  · rw [hexec, if_pos h]
  · rw [if_neg (not_not_intro h), hd, hlive, if_pos (by simp)]
    exact modPort_now rfl rfl rfl
  · have hno' : ¬(decide (d = some (s.port p).swid) && (s.port p).live s.clock.toNat) = true := by
      rw [Bool.and_eq_true, decide_eq_true_iff]
      rintro ⟨hd, hlive⟩
      rcases hno with hno | hno
      · exact hno hd
      · rw [hno] at hlive
        exact absurd hlive Bool.false_ne_true
    rw [if_neg (not_not_intro h), if_neg hno']
    exact modPort_now h rfl rfl

theorem start_acts :
    (((s.port p).state ≠ 1 ∨ s.isMember = false) → exec (.start p) s = .next s) ∧
    ((s.port p).state = 1 → s.isMember = true → ∃ t, exec (.start p) s = .next t ∧ PortNow s t p 2 (s.port p).reason) := by
  have hexec : exec (.start p) s = .next _ := onPort_powered hp hpower _
  refine ⟨fun h => ?_, fun h hm => ⟨_, hexec, ?_⟩⟩
  · rw [hexec, if_neg]
    rw [Bool.and_eq_true, decide_eq_true_iff]
    rintro ⟨h1, hm⟩
    rcases h with h | h
    · exact h h1
    · rw [h] at hm
      exact absurd hm Bool.false_ne_true
  · rw [if_pos (by rw [hm, h]; rfl)]
    have hflush := flush_sent (s.modPort p fun x => { x with state := 2 })
    exact portNow_later (modPort_now rfl rfl rfl) hflush.mem hflush.groups (flush_ports _)

theorem portConfigWrite_acts (v : BitVec 64) (swid : Bool) :
    ((s.port p).state = 0 → ∃ t, exec (.portConfigWrite p v swid) s = .next t ∧ t.mem = s.mem ∧ t.groups = s.groups ∧
        (t.port p).cfg = (if swid then (s.port p).cfg else v.truncate 32 &&& 0x11F) ∧ (t.port p).swid = if swid then v else (s.port p).swid) ∧
      (s.secured p = true → ∃ t, exec (.portConfigWrite p v swid) s = .next t ∧ PortNow s t p 3 2 ∧ (t.port p).swid = (s.port p).swid) ∧
      ((s.port p).state = 3 → exec (.portConfigWrite p v swid) s = .next s) := by
  have hexec : exec (.portConfigWrite p v swid) s = .next _ := onPort_powered hp hpower _
  refine ⟨fun h => ⟨_, hexec, ?_⟩, fun h => ⟨_, hexec, ?_⟩, fun h => ?_⟩
  · rw [if_pos h]
    refine ⟨rfl, rfl, ?_, ?_⟩
    · rw [port_modPort, if_pos rfl]
      cases swid <;> rfl
    · rw [port_modPort, if_pos rfl]
      cases swid <;> rfl
  · rw [if_neg (secured_state h), if_pos h]
    exact ⟨faultPort_now .., faultPort_swid ..⟩
  · have hnot : s.secured p = false := by
      rw [State.secured, h]
      simp
    rw [hexec, if_neg (by rw [h]; decide), hnot]
    rfl

theorem linkLoss_acts : ∃ t, exec (.linkLoss p) s = .next t ∧ PortNow s t p (s.port p).state (s.port p).reason ∧ (t.port p).up = false ∧
      ((s.port p).up = true → (t.port p).downAt = s.clock.toNat) := by
  refine ⟨_, onPort_powered hp hpower _, ?_⟩
  by_cases hup : (s.port p).up = true
  · rw [if_pos hup]
    exact ⟨modPort_now rfl rfl rfl, by rw [port_modPort, if_pos rfl], fun _ => by rw [port_modPort, if_pos rfl]⟩
  · rw [if_neg hup]
    exact ⟨portNow_self s p, Bool.eq_false_iff.mpr hup, fun h => absurd h hup⟩

theorem measurementChange_acts : exec (.measurementChange p) s = .next (if s.secured p then s.faultPort p 5 else s) := onPort_powered hp hpower _

end

theorem ports : Ports := fun s p hp hpower => by
  refine ⟨lock_acts hp hpower, (start_acts hp hpower).1, (start_acts hp hpower).2, ⟨_, onPort_powered hp hpower _, modPort_now rfl rfl rfl⟩,
    portConfigWrite_acts hp hpower, fun h hfails => ⟨_, tagFailureFault_acts hp h hfails, faultPort_now ..⟩,
    fun h hdown => ⟨_, linkDown_acts hp h hdown, faultPort_now ..⟩, linkLoss_acts hp hpower,
    ⟨_, onPort_powered hp hpower _, modPort_now rfl rfl rfl, by rw [port_modPort, if_pos rfl]⟩, fun h => ?_, fun h => ?_⟩
  · refine ⟨_, measurementChange_acts hp hpower, ?_⟩
    rw [h]
    exact faultPort_now ..
  · rw [measurementChange_acts hp hpower, h]
    rfl

end Sys2Proof.Proofs
end

section
/-! Membership and re-keying (R414, R418 to R421). -/

namespace Sys2Proof.Proofs

open Sys2Proof Sys2Proof.Machine Sys2Proof.Claims

/-! ### The state of the domain -/

theorem setRekey_rekeying (s : State) : s.setRekey.rekeying = true := by
  have hbit (x : Word) : (x ||| 2).getLsbD 1 = true := by simp
  exact hbit s.fab.domst

theorem or_two_div (x : Word) : (x ||| 2).toNat / 256 = x.toNat / 256 := by
  have hshift (n : Nat) : n / 256 = n >>> 8 := (Nat.shiftRight_eq_div_pow n 8).symm
  rw [BitVec.toNat_or, hshift, Nat.shiftRight_or_distrib, hshift]
  exact Nat.or_zero _

theorem setRekey_devid (s : State) : s.setRekey.devid = s.devid := by
  rw [State.devid, State.devid]
  exact congrArg (· % 1024) (or_two_div s.fab.domst)

theorem setRekey_isMember (s : State) : s.setRekey.isMember = s.isMember := by
  have hbit (x : Word) : (x ||| 2).getLsbD 0 = x.getLsbD 0 := by simp
  exact hbit s.fab.domst

/-- A state that has set REKEY if it had not. -/
def rekeyed (s : State) : State := if s.rekeying then s else s.setRekey

theorem rekeyed_rekeying (s : State) : (rekeyed s).rekeying = true := by
  unfold rekeyed
  split
  · assumption
  · exact setRekey_rekeying s

theorem rekeyed_devid (s : State) : (rekeyed s).devid = s.devid := by
  unfold rekeyed
  split
  · rfl
  · exact setRekey_devid s

theorem rekeyed_isMember (s : State) : (rekeyed s).isMember = s.isMember := by
  unfold rekeyed
  split
  · rfl
  · exact setRekey_isMember s

/-- REKEY and what is sent leave memory, the groups, the domains and the members. -/
structure Announced (s t : State) : Prop where
  mem : t.mem = s.mem
  groups : t.groups = s.groups
  fld : t.fld = s.fld
  members : t.fab.members = s.fab.members

theorem rekeyed_announced (s : State) : Announced s (rekeyed s) := by
  unfold rekeyed
  split <;> exact ⟨rfl, rfl, rfl, rfl⟩

/-- A manager tells the others. -/
def tellOthers (s : State) (e : Effect) : State := if s.isManager then s.emit e else s

theorem tellOthers_announced (s : State) (e : Effect) : Announced s (tellOthers s e) := by
  unfold tellOthers
  split <;> exact ⟨rfl, rfl, rfl, rfl⟩

theorem tellOthers_fab (s : State) (e : Effect) : (tellOthers s e).fab = s.fab := by
  unfold tellOthers
  split <;> rfl

theorem Announced.trans {s t u : State} (h : Announced s t) (k : Announced t u) : Announced s u :=
  ⟨k.mem.trans h.mem, k.groups.trans h.groups, k.fld.trans h.fld, k.members.trans h.members⟩

/-! ### Joining -/

/-- The state with a new MEMBERS and this device's DEVID. -/
def joined (s : State) (self : Nat) (members : BitVec 512) : State :=
  { s with fab := { s.fab with domst := BitVec.ofNat 32 (self * 256 + 1 + 2 * (if s.rekeying then 1 else 0)), members := members } }

theorem joined_isMember (s : State) (self : Nat) (members : BitVec 512) : (joined s self members).isMember = true := by
  have hodd (k : Nat) : (BitVec.ofNat 32 (self * 256 + 1 + 2 * k)).getLsbD 0 = true := by
    rw [BitVec.getLsbD_ofNat, Nat.testBit_zero]
    simp
    omega
  exact hodd _

theorem joined_devid (s : State) {self : Nat} (hself : self < 512) (members : BitVec 512) : (joined s self members).devid = self := by
  have hdev (k : Nat) (hk : k ≤ 1) : (BitVec.ofNat 32 (self * 256 + 1 + 2 * k)).toNat / 256 % 1024 = self := by
    rw [BitVec.toNat_ofNat]
    omega
  refine hdev _ ?_
  split <;> omega

theorem joinDomain_acts {s : State} {dev self : Nat} {members : BitVec 512} (hdev : dev < 512) (hself : self < 512)
    (hin : members.getLsbD dev = true) (hme : members.getLsbD self = true) (hmember : s.isMember = true → self = s.devid)
    (hnew : s.isMember = false → self = dev)
    (hheard : (self = dev ∧ ∀ d, d < self → members.getLsbD d = false) ∨ s.hears = true) :
    exec (.joinDomain dev self members) s = .next (rekeyed (tellOthers (joined s self members) (.control ctlMembers dev))) := by
  have halone : ((decide (self = dev) && (List.range self).all (fun d => !members.getLsbD d)) || s.hears) = true := by
    rw [Bool.or_eq_true, Bool.and_eq_true, decide_eq_true_iff, List.all_eq_true]
    refine hheard.imp (fun h => ⟨h.1, fun d hd => ?_⟩) id
    rw [h.2 d (List.mem_range.mp hd)]
    rfl
  have hold : (s.isMember && decide (self ≠ s.devid)) = false := by
    cases hm : s.isMember with
    | false => rfl
    | true => simp [hmember hm]
  have hcome : (!s.isMember && decide (self ≠ dev)) = false := by
    cases hm : s.isMember with
    | false => simp [hnew hm]
    | true => rfl
  change execJoinDomain dev self members s = _
  unfold execJoinDomain
  dsimp only
  rw [halone, hold, hcome, hin, hme, decide_eq_false (Nat.not_le.mpr hdev), decide_eq_false (Nat.not_le.mpr hself)]
  rfl

/-! ### Leaving -/

/-- The domains of a list are failed, and those that were stay so. -/
theorem failDomain_fails (s : State) (n did : Nat) {d : Domain} (hd : s.domain did = some d) :
    ∃ d', (s.failDomain n).domain did = some d' ∧ (did = n ∨ d.state = .failed → d'.state = .failed) := by
  unfold State.failDomain
  split
  · rename_i hn
    refine ⟨d, hd, fun h => h.resolve_left fun heq => ?_⟩
    rw [heq, hn] at hd
    exact absurd hd (by simp)
  · rename_i e hn
    by_cases heq : did = n
    · subst heq
      exact ⟨_, domain_setDomain s did _, fun _ => rfl⟩
    · exact ⟨d, (domain_setDomain_other s _ heq).trans hd, fun h => h.resolve_left heq⟩

theorem foldl_failDomain (l : List Nat) (s : State) (did : Nat) {d : Domain} (hd : s.domain did = some d) :
    ∃ d', (l.foldl State.failDomain s).domain did = some d' ∧ (did ∈ l ∨ d.state = .failed → d'.state = .failed) := by
  induction l generalizing s d with
  | nil => exact ⟨d, hd, fun h => h.resolve_left List.not_mem_nil⟩
  | cons n l ih =>
    obtain ⟨d1, hd1, hfail1⟩ := failDomain_fails s n did hd
    obtain ⟨d2, hd2, hfail2⟩ := ih _ hd1
    refine ⟨d2, hd2, fun h => hfail2 ?_⟩
    rcases h with h | h
    · exact (List.mem_cons.mp h).elim (fun heq => .inr (hfail1 (.inl heq))) .inl
    · exact .inr (hfail1 (.inr h))

/-- What a leaving member leaves of a state: all but its own place, and the domains. -/
structure FailedOnly (s t : State) : Prop extends Undisturbed s t where
  mem : t.mem = s.mem
  groups : t.groups = s.groups

theorem FailedOnly.refl (s : State) : FailedOnly s s := ⟨.refl s, rfl, rfl⟩

theorem FailedOnly.trans {s t u : State} (h : FailedOnly s t) (k : FailedOnly t u) : FailedOnly s u :=
  ⟨h.toUndisturbed.trans k.toUndisturbed, k.mem.trans h.mem, k.groups.trans h.groups⟩

theorem failDomain_failedOnly (s : State) (n : Nat) : FailedOnly s (s.failDomain n) := by
  unfold State.failDomain
  split
  · exact .refl s
  · exact ⟨⟨rfl, rfl, rfl, fun _ => rfl⟩, rfl, rfl⟩

/-- A member is struck from the list and from those that have arrived. -/
def struck (s : State) (dev : Nat) : State :=
  { s with fab := { s.fab with members := s.fab.members &&& ~~~(1#512 <<< dev), arrived := s.fab.arrived.filter (· ≠ dev) } }

theorem loseMember_eq (s : State) (dev : Nat) : s.loseMember dev = (s.tiedTo dev).foldl State.failDomain (struck s dev) := rfl

theorem loseMember_failedOnly (s : State) (dev : Nat) : FailedOnly (struck s dev) (s.loseMember dev) := by
  rw [loseMember_eq]
  exact foldl_rel FailedOnly.refl FailedOnly.trans _ (fun t n _ => failDomain_failedOnly t n) _

theorem getLsbD_strike (x : BitVec 512) (dev d : Nat) : (x &&& ~~~(1#512 <<< dev)).getLsbD d = (x.getLsbD d && d ≠ dev) := by
  by_cases hd : d < 512
  · by_cases heq : d = dev
    · subst heq
      simp [hd]
    · have hshift : d < dev ∨ ¬d - dev = 0 := by omega
      simp [hd, hshift, heq]
  · rw [BitVec.getLsbD_of_ge _ _ (Nat.not_lt.mp hd), BitVec.getLsbD_of_ge x _ (Nat.not_lt.mp hd), Bool.false_and]

theorem loseMember_members (s : State) (dev d : Nat) : (s.loseMember dev).fab.members.getLsbD d = (s.fab.members.getLsbD d && d ≠ dev) := by
  rw [(loseMember_failedOnly s dev).fab]
  exact getLsbD_strike ..

/-- Who is the manager, or hears it. -/
theorem listens_of {s : State} (h : s.isManager = true ∨ s.hears = true) : (s.isManager || s.hears) = true := Bool.or_eq_true .. ▸ h

theorem memberRemoval_self {s : State} (hm : s.isMember = true) (hdev : s.devid < 512) (hin : s.fab.members.getLsbD s.devid = true)
    (hheard : s.isManager = true ∨ s.hears = true) :
    exec (.memberRemoval s.devid) s =
      .next { s with fab := { s.fab with domst := 0, kgen := 0, members := 0, arrived := [], arriveSent := false } } := by
  change execMemberRemoval s.devid s = _
  unfold execMemberRemoval
  rw [hm, hin, listens_of hheard, decide_eq_false (Nat.not_le.mpr hdev)]
  exact if_pos rfl

theorem memberRemoval_other {s : State} {dev : Nat} (hm : s.isMember = true) (hdev : dev < 512) (hin : s.fab.members.getLsbD dev = true)
    (hheard : s.isManager = true ∨ s.hears = true) (hne : dev ≠ s.devid) :
    exec (.memberRemoval dev) s = .next (rekeyed (tellOthers (s.loseMember dev) (.control ctlMembers dev))) := by
  change execMemberRemoval dev s = _
  unfold execMemberRemoval
  rw [hm, hin, listens_of hheard, decide_eq_false (Nat.not_le.mpr hdev)]
  exact if_neg hne

theorem memberRemoval_leaves {s : State} {dev : Nat} (hm : s.isMember = true) (hdev : dev < 512) (hin : s.fab.members.getLsbD dev = true)
    (hheard : s.isManager = true ∨ s.hears = true) (hne : dev ≠ s.devid) :
    ∃ t, exec (.memberRemoval dev) s = .next t ∧ t.rekeying = true ∧ t.mem = s.mem ∧ t.groups = s.groups ∧
      (∀ d, t.fab.members.getLsbD d = (s.fab.members.getLsbD d && d ≠ dev)) ∧
      ∀ did d, did ∈ s.tiedTo dev → s.domain did = some d → ∃ d', t.domain did = some d' ∧ d'.state = .failed := by
  have hlater := (tellOthers_announced (s.loseMember dev) (.control ctlMembers dev)).trans (rekeyed_announced _)
  have hlost := loseMember_failedOnly s dev
  refine ⟨_, memberRemoval_other hm hdev hin hheard hne, rekeyed_rekeying _, hlater.mem.trans hlost.mem, hlater.groups.trans hlost.groups,
    fun d => ?_, fun did d hdid hd => ?_⟩
  · rw [hlater.members]
    exact loseMember_members s dev d
  · obtain ⟨d', hd', hfail⟩ := foldl_failDomain (s.tiedTo dev) (struck s dev) did hd
    refine ⟨d', ?_, hfail (.inl hdid)⟩
    rw [State.domain, hlater.fld]
    exact hd'

/-! ### Re-keying -/

theorem rekey_acts {s : State} (hm : s.isMember = true) (hno : s.rekeying = false) (hheard : s.isManager = true ∨ s.hears = true) :
    exec .rekey s = .next (if s.isManager then s.setRekey.emit (.control ctlRekey s.fab.kgen.toNat) else s.setRekey) := by
  change execRekey s = _
  unfold execRekey
  rw [hm, hno, listens_of hheard]
  rfl

/-- The manager notes an arrival. -/
def noted (s : State) (dev : Nat) : State :=
  if s.isManager then { s with fab := { s.fab with arrived := dev :: s.fab.arrived.filter (· ≠ dev) } } else s

/-- This device has arrived. -/
def withArrival (s : State) : State := { s with fab := { s.fab with arriveSent := true } }

theorem arrive_self {s : State} (hm : s.isMember = true) (hrekey : s.rekeying = true) (hin : s.fab.members.getLsbD s.devid = true)
    (hsent : s.fab.arriveSent = false) (hsctx : s.fab.sctx = []) (hheard : s.isManager = true ∨ s.hears = true) :
    exec (.arrive s.devid) s = .next ((noted (withArrival s) s.devid).emit (.control ctlArrive s.fab.kgen.toNat)) := by
  have hlisten : (s.isManager && decide (s.devid = s.devid) || s.hears) = true := by
    rw [decide_eq_true rfl, Bool.and_true]
    exact listens_of hheard
  change execArrive s.devid s = _
  unfold execArrive
  rw [hm, hrekey, hin, hlisten, hsent, hsctx]
  exact if_pos rfl

theorem noted_kept (s : State) (dev : Nat) : (noted s dev).own = s.own ∧ (noted s dev).fab.arriveSent = s.fab.arriveSent := by
  unfold noted
  split <;> exact ⟨rfl, rfl⟩

theorem arrive_other {s : State} {dev : Nat} (hman : s.isManager = true) (hrekey : s.rekeying = true) (hin : s.fab.members.getLsbD dev = true)
    (hne : dev ≠ s.devid) (hhears : s.hears = true) : exec (.arrive dev) s = .next (noted s dev) := by
  have hm : s.isMember = true := by
    rw [State.isManager, Bool.and_eq_true] at hman
    exact hman.1
  change execArrive dev s = _
  unfold execArrive
  rw [hm, hrekey, hin, hhears, Bool.or_true]
  dsimp only
  rw [if_neg hne, if_pos hman]
  rfl

/-! ### Release -/

/-- What a release leaves before anything is sent in the new generation. -/
def renewed (s : State) (gen : BitVec 32) : State :=
  { s.unpause with fab := { s.unpause.fab with
    kgen := gen, domst := s.unpause.fab.domst &&& ~~~2, sctx := [], rctx := [], ctxnos := [], opened := [], ingress := [], inmsgs := [], held := [],
    arrived := [], arriveSent := false } }

theorem release_eq {s : State} (h : s.fab.sctx = []) (gen : BitVec 32) :
    s.release gen = (s.fab.held.foldl (fun s h => s.enqueue h.1 h.2.1 h.2.2.1 h.2.2.2) (renewed s gen)).pump := by
  have hopen : s.unpause.fab.sctx = [] := h
  unfold State.release
  dsimp only
  rw [hopen]
  rfl

theorem renewed_counted (s : State) (gen : BitVec 32) : Counted (renewed s gen) := by
  refine ⟨fun c hc => absurd hc List.not_mem_nil, ?_, fun k => Nat.zero_le _⟩
  have hbit (x : Word) : (x &&& ~~~2).getLsbD 1 = false := by simp
  exact hbit _

theorem held_sends (l : List (Nat × Nat × Packet × Purpose)) (s : State) :
    Sends s (l.foldl (fun s h => s.enqueue h.1 h.2.1 h.2.2.1 h.2.2.2) s) :=
  foldl_rel Sends.refl Sends.trans _ (fun t _ _ => enqueue_sends t ..) s

/-- The first packet of a generation is aboard a context of it. -/
theorem enqueue_aboard {s : State} (h : Counted s) (hsctx : s.fab.sctx = []) (peer cls : Nat) (p : Packet) (why : Purpose) :
    Aboard (s.enqueue peer cls p why) ⟨peer, cls, s.fab.kgen.toNat, why, p.body⟩ := by
  have hheld : s.holdsClass cls = false := by
    rw [State.holdsClass, h.rekeying]
    rfl
  rw [enqueue_eq, roomMade_of_fresh h.fresh, letIn_eq, h.readied, h.not_spent, hheld, if_neg (by simp)]
  have hroom : s.roomForCtx.fab.sctx = [] := by
    have hkeys := roomForCtx_keys s
    rw [hsctx] at hkeys
    exact List.map_eq_nil_iff.mp hkeys
  have hopen : ∃ c, (s.openCtx peer cls).fab.sctx = [c] ∧ c.peer = peer ∧ c.cls = cls ∧ c.gen = s.fab.kgen.toNat := by
    rw [State.openCtx, if_neg (by rw [hsctx]; simp)]
    dsimp only
    rw [hroom]
    exact ⟨_, List.nil_append _, rfl, rfl, congrArg BitVec.toNat (roomForCtx_sends s).kgen⟩
  obtain ⟨c, hc, hp, hcl, hgen⟩ := hopen
  unfold Aboard
  dsimp only
  rw [hc, List.map_singleton, withPacket, if_pos (by rw [hp, hcl]; simp)]
  refine ⟨⟨_, List.mem_singleton_self _, hp, hcl⟩, fun d hd _ _ => ?_⟩
  obtain rfl := List.mem_singleton.mp hd
  exact ⟨hgen, _, List.mem_append_right _ (List.mem_singleton_self _), rfl, rfl⟩

theorem release_acts {s : State} (h : s.fab.sctx = []) (gen : BitVec 32) :
    (s.release gen).fab.kgen = gen ∧ (s.release gen).fab.rctx = [] ∧ (s.fab.held = [] → (s.release gen).rekeying = false) ∧
      ∀ peer cls p why, s.fab.held = [(peer, cls, p, why)] → ∃ c ∈ (s.release gen).fab.sctx, c.peer = peer ∧ c.cls = cls ∧ c.gen = gen.toNat ∧
        ∃ x ∈ c.pkts, x.purpose = why ∧ x.p.body = p.body := by
  have hcounted := renewed_counted s gen
  have hsends := (held_sends s.fab.held (renewed s gen)).trans (pump_sends _)
  rw [release_eq h]
  refine ⟨hsends.kgen, hsends.rctx rfl, fun hheld => ?_, fun peer cls p why hheld => ?_⟩
  · rw [hheld]
    exact (pump_calm _ hcounted).rekeying
  · have hfresh := (enqueue_sends (renewed s gen) peer cls p why).fresh hcounted.fresh
    have haboard := enqueue_aboard hcounted rfl peer cls p why
    simp only [hheld, List.foldl_cons, List.foldl_nil]
    obtain ⟨⟨c, hc, hp, hcl⟩, hall⟩ := (pump_sends ((renewed s gen).enqueue peer cls p why)).aboard hfresh _ haboard
    obtain ⟨hgen, hload⟩ := hall c hc hp hcl
    exact ⟨c, hc, hp, hcl, hgen, hload⟩

theorem release_exec {s : State} {gen : BitVec 32} (hm : s.isMember = true) (hrekey : s.rekeying = true) (hsent : s.fab.arriveSent = true)
    (hall : s.isManager = true → s.allArrived = true) (hgen : s.fab.kgen ≠ 0 → gen = s.fab.kgen + 1)
    (hheard : s.isManager = true ∨ s.hears = true) : exec (.release gen) s = .next ((tellOthers s (.control ctlRelease gen.toNat)).release gen) := by
  have hwait : (s.isManager && !s.allArrived) = false := by
    cases hman : s.isManager with
    | false => rfl
    | true => rw [hall hman]; rfl
  have hnext : (decide (s.fab.kgen ≠ 0) && decide (gen ≠ s.fab.kgen + 1)) = false := by
    rw [Bool.and_eq_false_iff, decide_eq_false_iff_not, decide_eq_false_iff_not, ← imp_iff_not_or]
    exact fun h => not_not_intro (hgen h)
  change execRelease gen s = _
  unfold execRelease
  rw [hm, hrekey, hsent, hwait, hnext, listens_of hheard]
  rfl

/-! ### The end of the wait for a member -/

theorem release_sameMembers (s : State) (gen : BitVec 32) : SameMembers s (s.release gen) := by
  unfold State.release
  extract_lets t0 open_ _ t1 t2 unsent held _ t3
  have h1 : SameMembers s t1 := rfl
  have h2 : SameMembers t1 t2 := foldl_rel SameMembers.refl SameMembers.trans _ (fun t c _ =>
    foldl_rel SameMembers.refl SameMembers.trans _ (fun u x _ => by
      split
      · exact outcome_sameMembers ..
      · exact .refl u) t) t1
  have h3 : SameMembers t2 t3 := rfl
  exact ((h1.trans h2).trans h3).trans ((held_sends held t3).trans (pump_sends _)).sameMembers

theorem setRekey_members (s : State) : s.setRekey.fab.members = s.fab.members := rfl

theorem released_members (s : State) (e : Effect) (gen : BitVec 32) : ((s.emit e).release gen).setRekey.fab.members = s.fab.members := by
  have h := release_sameMembers (s.emit e) gen
  rw [SameMembers, State.emit_fab] at h
  rw [setRekey_members, h]

/-- Whether a member has not arrived. -/
def awaited (s : State) (d : Nat) : Bool := d ≠ s.devid && s.fab.members.getLsbD d && !s.fab.arrived.contains d

/-- Members leave one after another, and the others hear of it. -/
def expelled (s : State) (l : List Nat) : State := l.foldl (fun s d => (s.loseMember d).emit (.control ctlMembers d)) s

theorem expelled_members (l : List Nat) (s : State) (d : Nat) : (expelled s l).fab.members.getLsbD d = (s.fab.members.getLsbD d && d ∉ l) := by
  induction l generalizing s with
  | nil => simp [expelled]
  | cons n l ih =>
    refine (ih ((s.loseMember n).emit (.control ctlMembers n))).trans ?_
    have hn : ((s.loseMember n).emit (.control ctlMembers n)).fab.members.getLsbD d = (s.fab.members.getLsbD d && d ≠ n) := loseMember_members s n d
    rw [hn, Bool.and_assoc]
    simp [not_or]

/-- The state in which every member that has not arrived is expelled. -/
def awaitedGone (s : State) : State := expelled s ((List.range 512).filter (awaited s))

theorem rekeyTimeout_exec {s : State} {dev : Nat} (hman : s.isManager = true) (hrekey : s.rekeying = true) (hdev : dev < 512)
    (hmissing : awaited s dev = true) (hlate : s.fab.rekeyAt + 160000000 ≤ s.clock.toNat) :
    exec (.rekeyTimeout dev) s = .next ((((awaitedGone s).emit (.control ctlRelease ((awaitedGone s).fab.kgen.toNat + 1))).release
      ((awaitedGone s).fab.kgen + 1)).setRekey) := by
  change execRekeyTimeout dev s = _
  have hnow : decide (s.clock.toNat < s.fab.rekeyAt + 100 * msCycles) = false := decide_eq_false (Nat.not_lt.mpr hlate)
  have hguard : (!s.isManager || !s.rekeying || decide (512 ≤ dev) || !awaited s dev ||
      decide (s.clock.toNat < s.fab.rekeyAt + 100 * msCycles)) = false := by
    rw [hman, hrekey, hmissing, hnow, decide_eq_false (Nat.not_le.mpr hdev)]
    rfl
  rw [Bool.eq_false_iff] at hguard
  delta execRekeyTimeout awaitedGone expelled awaited at *
  exact if_neg hguard

theorem awaitedGone_members (s : State) (d : Nat) :
    (awaitedGone s).fab.members.getLsbD d = (s.fab.members.getLsbD d && (d = s.devid || d ∈ s.fab.arrived)) := by
  rw [awaitedGone, expelled_members]
  by_cases hin : s.fab.members.getLsbD d = true
  · have hd : d ∈ List.range 512 := List.mem_range.mpr (BitVec.lt_of_getLsbD hin)
    have hstays : d ∉ (List.range 512).filter (awaited s) ↔ d = s.devid ∨ d ∈ s.fab.arrived := by
      rw [List.mem_filter, and_iff_right hd, awaited, hin, Bool.and_true, Bool.and_eq_true, decide_eq_true_iff, Bool.not_eq_true', Bool.eq_false_iff]
      simp only [ne_eq, List.contains_iff_mem]
      clear hd
      tauto
    rw [hin, Bool.true_and, Bool.true_and, ← Bool.decide_or, decide_eq_decide]
    exact hstays
  · rw [Bool.eq_false_iff.mpr hin, Bool.false_and, Bool.false_and]

theorem membership : Membership := fun s => by
  refine ⟨fun dev self members hdev hself hin hme hmember hnew hheard => ?_, fun dev hm hdev hin hheard => ⟨fun heq => ?_, fun hne => ?_⟩,
    fun hm hno hheard => ⟨_, rekey_acts hm hno hheard, ?_⟩,
    fun hm hrekey hin hsent hsctx hheard => ⟨_, arrive_self hm hrekey hin hsent hsctx hheard, ?_, ?_⟩,
    fun dev hman hrekey hin hne hhears => ⟨_, arrive_other hman hrekey hin hne hhears, ?_⟩,
    fun gen hm hrekey hsent hall hgen hheard hsctx => ⟨_, release_exec hm hrekey hsent hall hgen hheard, ?_⟩,
    fun dev hman hrekey hne hin hnot hlate => ?_⟩
  · have h := (tellOthers_announced (joined s self members) (.control ctlMembers dev)).trans (rekeyed_announced _)
    have hfab := tellOthers_fab (joined s self members) (.control ctlMembers dev)
    refine ⟨_, joinDomain_acts hdev hself hin hme hmember hnew hheard, ?_, ?_, h.members, rekeyed_rekeying _, h.mem, h.groups⟩
    · rw [rekeyed_isMember, State.isMember, hfab]
      exact joined_isMember s self members
    · rw [rekeyed_devid, State.devid, hfab]
      exact joined_devid s hself members
  · subst heq
    exact ⟨_, memberRemoval_self hm hdev hin hheard, BitVec.getLsbD_zero, rfl, rfl, rfl, rfl⟩
  · exact memberRemoval_leaves hm hdev hin hheard hne
  · split
    · exact ⟨setRekey_rekeying s, rfl, rfl, rfl⟩
    · exact ⟨setRekey_rekeying s, rfl, rfl, rfl⟩
  · exact (noted_kept (withArrival s) s.devid).2
  · exact congrArg (fun o : Own => o.outbox ++ [Effect.control ctlArrive s.fab.kgen.toNat]) (noted_kept (withArrival s) s.devid).1
  · rw [noted, if_pos hman]
    exact List.mem_cons_self
  · have hfab := tellOthers_fab s (.control ctlRelease gen.toNat)
    obtain ⟨hkgen, hrctx, hempty, hone⟩ := release_acts (s := tellOthers s (.control ctlRelease gen.toNat)) (by rw [hfab, hsctx]) gen
    rw [hfab] at hempty hone
    exact ⟨hkgen, hrctx, hempty, fun peer cls p why _ hheld => hone peer cls p why hheld⟩
  · have hmissing : awaited s dev = true := by
      rw [awaited, hin]
      simp [hne, hnot]
    refine ⟨_, rekeyTimeout_exec hman hrekey (BitVec.lt_of_getLsbD hin) hmissing hlate, setRekey_rekeying _, fun d => ?_⟩
    rw [released_members]
    exact awaitedGone_members s d

/-- Settles O59: the ports' states one by one; a new generation's contexts are fresh and counted, so that what was held stays aboard. -/
theorem portsAndTrust : Obligations.PortsAndTrust := ⟨ports, membership⟩

end Sys2Proof.Proofs
end

section
/-! Launch records that are accepted or refused, and the ends of grids (R357, R362, R363, R371). -/

namespace Sys2Proof.Proofs

open Sys2Proof Sys2Proof.Machine Sys2Proof.Claims

/-! ### A counter's update and what fires with it -/

/-- The counters and the grids stand. -/
structure GridsStand (s t : State) : Prop where
  counters : t.dist.counters = s.dist.counters
  grids : ∀ k, (t.grid k).isSome = (s.grid k).isSome

theorem GridsStand.refl (s : State) : GridsStand s s := ⟨rfl, fun _ => rfl⟩

theorem GridsStand.trans {s t u : State} (h : GridsStand s t) (k : GridsStand t u) : GridsStand s u :=
  ⟨k.counters.trans h.counters, fun n => (k.grids n).trans (h.grids n)⟩

theorem Undisturbed.gridsStand {s t : State} (h : Undisturbed s t) : GridsStand s t := ⟨h.counters, h.grids⟩

theorem SentOnly.gridsStand {s t : State} (h : SentOnly s t) : GridsStand s t :=
  ⟨(congrArg (fun u : State => u.dist.counters) h.rest :), fun k => (congrArg (fun u : State => (u.grid k).isSome) h.rest :)⟩

theorem fireOp_gridsStand (s : State) (a : Attach) : GridsStand s (s.fireOp a) := by
  unfold State.fireOp
  split
  · exact ⟨rfl, fun _ => rfl⟩
  · split
    · exact (opDone_undisturbed ..).gridsStand
    · split
      · exact (opDone_undisturbed ..).gridsStand
      · refine GridsStand.trans ?_ (request_sent ..).gridsStand
        exact ⟨rfl, fun _ => rfl⟩
  · exact (opDone_undisturbed ..).gridsStand

theorem assign_gridsStand (s : State) (q core : Nat) : GridsStand s (s.assign q core) := by
  unfold State.assign
  split
  · exact .refl s
  · split <;> exact ⟨rfl, fun _ => rfl⟩

theorem appendRec_gridsStand (s : State) (q core prio : Nat) (b : List Byte) : GridsStand s (s.appendRec q core prio b) := by
  unfold State.appendRec
  extract_lets launch r next _ s1
  have h1 : GridsStand s s1 := by
    unfold s1
    split <;> exact ⟨rfl, fun _ => rfl⟩
  have h2 : GridsStand s1 (s1.setShard q core (s1.shard q core ++ [r])) := ⟨rfl, fun _ => rfl⟩
  exact ((h1.trans h2).trans (writeRun_wroteHome ..).undisturbed.gridsStand).trans (assign_gridsStand ..)

theorem fire_gridsStand (s : State) (a : Attach) : GridsStand s (s.fire a) := by
  unfold State.fire
  split
  · exact fireOp_gridsStand ..
  · split
    · exact ⟨rfl, fun _ => rfl⟩
    · exact appendRec_gridsStand ..

theorem fireAll_gridsStand (s : State) (n : Nat) : GridsStand s (s.fireAll n) := by
  unfold State.fireAll
  extract_lets v go _ s1
  have h1 : GridsStand s s1 := ⟨rfl, fun _ => rfl⟩
  exact h1.trans (foldl_rel GridsStand.refl GridsStand.trans _ (fun t a _ => fire_gridsStand t a) s1)

theorem setCounter_counter (s : State) (n : Nat) (v : Word) : Sparse.get 0 (s.setCounter n v).dist.counters n = v := by
  unfold State.setCounter
  rw [(fireAll_gridsStand _ n).counters]
  exact Sparse.get_set_same ..

theorem setCounter_grids (s : State) (n k : Nat) (v : Word) : ((s.setCounter n v).grid k).isSome = (s.grid k).isSome := by
  unfold State.setCounter
  exact (fireAll_gridsStand _ n).grids k

theorem countEnd_counter (s : State) (dfl : Bool) (n : Nat) :
    Sparse.get 0 (s.countEnd dfl n).dist.counters n = Sparse.get 0 s.dist.counters n + (if dfl then 1 else 0) := by
  cases dfl with
  | true => exact setCounter_counter ..
  | false => exact (add_zero _).symm

theorem countEnd_grids (s : State) (dfl : Bool) (n k : Nat) : ((s.countEnd dfl n).grid k).isSome = (s.grid k).isSome := by
  cases dfl with
  | true => exact setCounter_grids ..
  | false => rfl

theorem raiseMsix_gridsStand (r : State × Option Nat) : GridsStand r.1 (State.raiseMsix r) := by
  unfold State.raiseMsix
  split
  · exact .refl _
  · exact ⟨rfl, fun _ => rfl⟩

theorem raiseMsix_shard (r : State × Option Nat) (q core : Nat) : (State.raiseMsix r).shard q core = r.1.shard q core := by
  unfold State.raiseMsix
  split <;> rfl

/-! ### Launch records -/

/-- A completion record, where one is asked for. -/
def reported (s : State) (c : BitVec 8) (header status kind : Nat) (irq defer : Bool) (tag : Nat) : State × Option Nat :=
  if header = 0 then (s, none) else s.record c (BitVec.ofNat 64 header) status kind irq defer tag 0 0

theorem reported_undisturbed (s : State) (c : BitVec 8) (header status kind : Nat) (irq defer : Bool) (tag : Nat) :
    Undisturbed s (reported s c header status kind irq defer tag).1 := by
  unfold reported
  split
  · exact .refl s
  · exact record_undisturbed ..

/-- The description of a launch record, as the owner's context reads it. -/
def described (s : State) (q : Nat) (b : List Byte) : State × Option (List Byte) :=
  if (BitVec.ofNat 64 (field b 12 8)).toNat % 64 = 0 then s.readThrough (qOwner (s.qcfg q)) (BitVec.ofNat 64 (field b 12 8)) 64 else (s, none)

/-- Whether a launch record is refused for what is read of its description. -/
def refused (s : State) (q : Nat) (b : List Byte) : Bool :=
  match (described s q b).2 with
  | none => true
  | some d => (described s q b).1.launchRefused (qOwner (s.qcfg q)) d (field b 2 2) (launchBlocks b)

/-- The state after a refused record has left its shard with status 4. -/
def refusedState (s : State) (q core : Nat) (r : Rec) (b : List Byte) : State :=
  let p := reported ((described s q b).1.takeRec q core r) (qOwner (s.qcfg q)) (field b 32 8) 4 1 (field b 2 2 / 16 % 2 = 1) false (field b 40 4)
  State.raiseMsix (p.1.countEnd (field b 30 2 / 2 ^ 15 = 1) (field b 28 2), p.2)

/-- The state after a record has become a grid. -/
def acceptedState (s : State) (q core : Nat) (r : Rec) (b : List Byte) : State :=
  let t := (described s q b).1
  let g := gridOfRec r b (qOwner (s.qcfg q)) q core t.own.seq (readKernel ((described s q b).2.getD []))
  ((t.setShard q core (updWhere (t.shard q core) (fun y => y = r) (fun y => { y with grid := some t.own.ids }))).setGrid t.own.ids g).newId

theorem launchAcceptance_eq {s : State} {q core prio : Nat} {r : Rec} (hr : (s.shard q core).find? (fun x => x.prio = prio) = some r)
    (hnew : r.grid = none) (hkind : qKind (s.qcfg q) = 1) :
    exec (.launchAcceptance q core prio) s = .next (if refused s q (s.recBytes q core r) then refusedState s q core r (s.recBytes q core r)
      else acceptedState s q core r (s.recBytes q core r)) := by
  change execLaunchAcceptance q core prio s = _
  unfold execLaunchAcceptance
  rw [hr]
  dsimp only
  rw [hnew, hkind, if_neg (by decide)]
  unfold refused refusedState acceptedState described
  generalize (if (BitVec.ofNat 64 (field (s.recBytes q core r) 12 8)).toNat % 64 = 0 then
    s.readThrough (qOwner (s.qcfg q)) (BitVec.ofNat 64 (field (s.recBytes q core r) 12 8)) 64 else (s, none)) = p
  obtain ⟨t, x⟩ := p
  cases x with
  | none => rfl
  | some d =>
    dsimp only
    split <;> rfl

theorem described_readHome (s : State) (q : Nat) (b : List Byte) : ReadHome s (described s q b).1 := by
  unfold described State.readThrough
  split
  · split
    · exact .refl s
    · exact readPieces_readHome ..
  · exact .refl s

theorem refused_grids (s : State) (q core : Nat) (r : Rec) (b : List Byte) (k : Nat) : (refusedState s q core r b).grid k = none ↔ s.grid k = none := by
  have hread := (described_readHome s q b).wroteHome.undisturbed
  have hrep := reported_undisturbed ((described s q b).1.takeRec q core r) (qOwner (s.qcfg q)) (field b 32 8) 4 1 (field b 2 2 / 16 % 2 = 1) false (field b 40 4)
  rw [← Option.not_isSome_iff_eq_none, ← Option.not_isSome_iff_eq_none, refusedState, (raiseMsix_gridsStand _).grids, countEnd_grids, hrep.grids k,
    ← hread.grids k]
  rfl

theorem refused_leaves (s : State) (q core : Nat) (r : Rec) (b : List Byte) (hdfl : field b 30 2 < 2 ^ 15) :
    (refusedState s q core r b).shard q core = (s.shard q core).erase r ∧ (refusedState s q core r b).dist.counters = s.dist.counters := by
  have hread := (described_readHome s q b).wroteHome.undisturbed
  have hrep := reported_undisturbed ((described s q b).1.takeRec q core r) (qOwner (s.qcfg q)) (field b 32 8) 4 1 (field b 2 2 / 16 % 2 = 1) false (field b 40 4)
  have hno : decide (field b 30 2 / 2 ^ 15 = 1) = false := decide_eq_false (by omega)
  rw [refusedState, hno]
  refine ⟨?_, ?_⟩
  · rw [raiseMsix_shard]
    refine (hrep.shard q core).trans ?_
    rw [State.takeRec, hread.shard]
    exact Sparse.get_set_same ..
  · rw [(raiseMsix_gridsStand _).counters]
    exact hrep.counters.trans hread.counters

theorem described_of_aligned {s : State} {q : Nat} {b : List Byte} (h : field b 12 8 % 64 = 0) :
    described s q b = s.readThrough (qOwner (s.qcfg q)) (BitVec.ofNat 64 (field b 12 8)) 64 := by
  refine if_pos ?_
  rw [BitVec.toNat_ofNat, Nat.mod_mod_of_dvd _ (by decide)]
  exact h

theorem refused_of {s : State} {q : Nat} {b : List Byte}
    (h : field b 12 8 % 64 ≠ 0 ∨ (s.readThrough (qOwner (s.qcfg q)) (BitVec.ofNat 64 (field b 12 8)) 64).2 = none ∨
      ∀ d, (s.readThrough (qOwner (s.qcfg q)) (BitVec.ofNat 64 (field b 12 8)) 64).2 = some d →
        (s.readThrough (qOwner (s.qcfg q)) (BitVec.ofNat 64 (field b 12 8)) 64).1.launchRefused (qOwner (s.qcfg q)) d (field b 2 2)
          (launchBlocks b) = true) : refused s q b = true := by
  unfold refused
  by_cases hmod : field b 12 8 % 64 = 0
  · rw [described_of_aligned hmod]
    split
    · rfl
    · rename_i d hd
      rcases h with h | h | h
      · exact absurd hmod h
      · rw [h] at hd
        cases hd
      · exact h d hd
  · have hnone : described s q b = (s, none) := by
      refine if_neg ?_
      rw [BitVec.toNat_ofNat, Nat.mod_mod_of_dvd _ (by decide)]
      exact hmod
    rw [hnone]

theorem gridOfRec_todo (r : Rec) (b : List Byte) (c : BitVec 8) (q core seq : Nat) (k : Kernel) :
    (gridOfRec r b c q core seq k).todo.length = launchBlocks b := by
  unfold gridOfRec launchBlocks
  dsimp only
  by_cases h : field b 0 1 = 2
  · rw [if_pos h, if_pos h, if_pos h]
    rfl
  · rw [if_neg h, if_neg h]
    exact List.length_range

theorem mem_updWhere {α : Type} {l : List α} {p : α → Bool} {f : α → α} {x : α} (hx : x ∈ l) (hp : p x = true) : f x ∈ updWhere l p f := by
  refine List.mem_map.mpr ⟨x, hx, ?_⟩
  exact if_pos hp

theorem accepted_spec {s s1 : State} {q core : Nat} {r : Rec} {b d : List Byte} (hr : r ∈ s.shard q core) (hd : described s q b = (s1, some d)) :
    (acceptedState s q core r b).grid s.own.ids = some (gridOfRec r b (qOwner (s.qcfg q)) q core s1.own.seq (readKernel d)) ∧
      (acceptedState s q core r b).mem = s.mem ∧ (acceptedState s q core r b).groups = s.groups ∧
      { r with grid := some s.own.ids } ∈ (acceptedState s q core r b).shard q core := by
  have hread := described_readHome s q b
  rw [hd] at hread
  have hshard : s1.shard q core = s.shard q core := hread.wroteHome.undisturbed.shard q core
  unfold acceptedState
  rw [hd]
  dsimp only
  refine ⟨?_, hread.mem_eq, hread.groups_eq, ?_⟩
  · rw [hread.own_eq]
    exact Sparse.find_put_same ..
  · have hget (l : List Rec) (g : Grid) (k : Nat) : (((s1.setShard q core l).setGrid k g).newId).shard q core = l := Sparse.get_set_same ..
    rw [hget, hread.own_eq, hshard]
    exact mem_updWhere hr (decide_eq_true rfl)

theorem acceptance : Acceptance := fun s q core prio r b hfind hnew hkind hb => by
  have hr : r ∈ s.shard q core := List.mem_of_find?_eq_some hfind
  have hexec := launchAcceptance_eq hfind hnew hkind
  rw [← hb] at hexec
  refine ⟨fun s1 d hmod hread hok => ?_, fun hbad => ?_⟩
  · have hd : described s q b = (s1, some d) := (described_of_aligned hmod).trans hread
    have hnot : refused s q b = false := by
      unfold refused
      rw [hd]
      exact hok
    obtain ⟨hgrid, hmem, hgroups, hshard⟩ := accepted_spec hr hd
    rw [hnot] at hexec
    exact ⟨_, _, hexec, hgrid, hmem, hgroups, rfl, rfl, rfl, rfl, gridOfRec_todo .., BitVec.toNat_ofNat .., rfl, BitVec.toNat_ofNat ..,
      BitVec.toNat_ofNat .., rfl, rfl, rfl, rfl, rfl, rfl, rfl, rfl, rfl, hshard⟩
  · rw [refused_of hbad, if_pos rfl] at hexec
    exact ⟨_, hexec, refused_grids s q core r b, refused_leaves s q core r b⟩

/-! ### The end of a grid -/

/-- The completion record of a grid that ends. -/
def gridReport (s : State) (x : Grid) : State × Option Nat :=
  if x.cq = 0 then (s, none)
  else s.record x.ctx x.cq (if x.cause.isSome then 5 else 0) 1 (x.flags.getLsbD 4) x.deferred
    (match x.cause with | none => x.tag.toNat | some c => x.tag.toNat / 256 * 256 + c % 256) 0 0

theorem gridReport_undisturbed (s : State) (x : Grid) : Undisturbed s (gridReport s x).1 := by
  unfold gridReport
  split
  · exact .refl s
  · exact record_undisturbed ..

/-- The state after a grid has ended. -/
def gridEnded (s : State) (k : Nat) (x : Grid) : State :=
  let p := gridReport { s with grids := Sparse.del s.grids k } x
  State.raiseMsix (p.1.countEnd x.dfl x.dctr, p.2)

theorem gridEnd_eq {s : State} {k : Nat} {x : Grid} (hx : s.reap.grid k = some x) (hended : x.total ≤ x.ended) (htodo : x.todo = [])
    (hblocks : ∀ p ∈ s.reap.blocks, p.2.grid ≠ k) (howing : s.reap.owing x.gone = false) : exec (.gridEnd k) s = .next (gridEnded s.reap k x) := by
  have hany : s.reap.blocks.any (fun p => p.2.grid = k) = false := List.any_eq_false.mpr fun p hp => by simpa using hblocks p hp
  change execGridEnd k s = _
  unfold execGridEnd
  dsimp only
  rw [hx]
  dsimp only
  rw [htodo, hany, howing, if_neg (by simpa using hended)]
  rfl

theorem gridEnd_ends {s : State} {k : Nat} {x : Grid} (hx : s.reap.grid k = some x) (hended : x.total ≤ x.ended) (htodo : x.todo = [])
    (hblocks : ∀ p ∈ s.reap.blocks, p.2.grid ≠ k) (howing : s.reap.owing x.gone = false) :
    ∃ t, exec (.gridEnd k) s = .next t ∧ t.grid k = none ∧
      Sparse.get 0 t.dist.counters x.dctr = Sparse.get 0 s.dist.counters x.dctr + (if x.dfl then 1 else 0) := by
  have hrep := gridReport_undisturbed { s.reap with grids := Sparse.del s.reap.grids k } x
  refine ⟨_, gridEnd_eq hx hended htodo hblocks howing, ?_, ?_⟩
  · rw [gridEnded, ← Option.not_isSome_iff_eq_none, (raiseMsix_gridsStand _).grids, countEnd_grids, hrep.grids k]
    have hdel : Sparse.find (Sparse.del s.reap.grids k) k = none := Sparse.find_del_same ..
    exact Option.not_isSome_iff_eq_none.mpr hdel
  · rw [gridEnded, (raiseMsix_gridsStand _).counters, countEnd_counter, hrep.counters]
    exact congrArg (fun m => Sparse.get 0 m x.dctr + (if x.dfl then 1 else 0)) (reap_undisturbed s).counters

end Sys2Proof.Proofs
end

section
/-! A block that is placed on a core (R19, R29, R364, R365). -/

namespace Sys2Proof.Proofs

open Sys2Proof Sys2Proof.Machine Sys2Proof.Claims

/-! ### What reaping and passing over leave -/

/-- Only the blocks, and the relocation entries and the candidates passed over of a core, differ. -/
structure Swept (s t : State) : Prop where
  rest : { t with blocks := s.blocks, nodes := s.nodes } = s
  node : ∀ n, { t.node n with relocs := (s.node n).relocs, skipped := (s.node n).skipped } = s.node n

theorem Swept.refl (s : State) : Swept s s := ⟨rfl, fun _ => rfl⟩

theorem Swept.trans {s t u : State} (h : Swept s t) (k : Swept t u) : Swept s u where
  rest := (congrArg (fun x : State => { x with blocks := s.blocks, nodes := s.nodes }) k.rest).trans h.rest
  node n := (congrArg (fun x : Node => { x with relocs := (s.node n).relocs, skipped := (s.node n).skipped }) (k.node n)).trans (h.node n)

theorem modNode_swept (s : State) (n : Nat) {f : Node → Node} (hf : { f (s.node n) with relocs := (s.node n).relocs, skipped := (s.node n).skipped } = s.node n) :
    Swept s (s.modNode n f) := by
  refine ⟨rfl, fun m => ?_⟩
  by_cases hm : m = n
  · subst hm
    rw [State.node_modNode]
    exact hf
  · rw [State.modNode, State.node_setNode_other s _ hm]

theorem reapBlock_swept (s : State) (k : Nat) : Swept s (s.reapBlock k) := by
  unfold State.reapBlock
  split
  · exact .refl s
  · rename_i b _
    split
    · exact .refl s
    · split
      · have h : Swept s { s with blocks := Sparse.del s.blocks k } := ⟨rfl, fun _ => rfl⟩
        exact h.trans (modNode_swept _ b.core rfl)
      · exact modNode_swept s b.core rfl

theorem reap_swept (s : State) : Swept s s.reap := foldl_rel Swept.refl Swept.trans _ (fun t k _ => reapBlock_swept t k) s

theorem passOver_swept (s : State) (core : Nat) (l : List Cand) : Swept s (s.passOver core l) := by
  refine foldl_rel Swept.refl Swept.trans _ (fun t c _ => ?_) s
  split
  · exact .refl t
  · exact modNode_swept t core rfl

theorem Swept.mem {s t : State} (h : Swept s t) : t.mem = s.mem := (congrArg State.mem h.rest :)
theorem Swept.groups {s t : State} (h : Swept s t) : t.groups = s.groups := (congrArg State.groups h.rest :)
theorem Swept.own {s t : State} (h : Swept s t) : t.own = s.own := (congrArg State.own h.rest :)
theorem Swept.carve {s t : State} (h : Swept s t) (n : Nat) : (t.node n).carve = (s.node n).carve := (congrArg Node.carve (h.node n) :)
theorem Swept.carveNew {s t : State} (h : Swept s t) (n : Nat) : (t.node n).carveNew = (s.node n).carveNew := (congrArg Node.carveNew (h.node n) :)

/-! ### The memory of a new allocation -/

theorem find_filter_in {α : Type} {p : Nat × α → Bool} (m : List (Nat × α)) {k : Nat} (h : ∀ v, p (k, v) = true) :
    Sparse.find (m.filter p) k = Sparse.find m k := by
  induction m with
  | nil => rfl
  | cons x m ih =>
    obtain ⟨j, w⟩ := x
    by_cases hj : j = k
    · subst hj
      rw [List.filter_cons_of_pos (h w)]
      simp only [Sparse.find, if_pos]
    · have hskip (l : List (Nat × α)) : Sparse.find ((j, w) :: l) k = Sparse.find l k := if_neg hj
      rw [List.filter_cons]
      split
      · rw [hskip, hskip, ih]
      · rw [hskip, ih]

theorem find_filter_out {α : Type} {p : Nat × α → Bool} (m : List (Nat × α)) {k : Nat} (h : ∀ v, p (k, v) = false) :
    Sparse.find (m.filter p) k = none := by
  induction m with
  | nil => rfl
  | cons x m ih =>
    obtain ⟨j, w⟩ := x
    rw [List.filter_cons]
    split
    · rename_i hp
      have hj : j ≠ k := fun heq => by
        rw [heq, h w] at hp
        exact absurd hp Bool.false_ne_true
      have hskip (l : List (Nat × α)) : Sparse.find ((j, w) :: l) k = Sparse.find l k := if_neg hj
      rw [hskip, ih]
    · exact ih

theorem rd_clearMem (m : Mem) (k n key : Nat) : Mem.rd (clearMem m k n) key = if k ≤ key ∧ key < k + n then 0 else Mem.rd m key := by
  rw [Mem.rd, Sparse.get, clearMem]
  split
  · rename_i h
    rw [find_filter_out m fun v => by rw [Bool.or_eq_false_iff, decide_eq_false_iff_not, decide_eq_false_iff_not]; omega]
    rfl
  · rename_i h
    rw [find_filter_in m fun v => by rw [Bool.or_eq_true, decide_eq_true_iff, decide_eq_true_iff]; omega]
    rfl

/-! ### The groups that start -/

/-- A group as it starts on a core. -/
structure Started (bid core : Nat) (x : Grid) (gr : Grant) (i : Nat) (h : Group) : Prop where
  block : h.block = bid
  index : h.index = i
  owner : h.owner = core
  ctx : h.ctx = x.ctx
  part : h.part = (gr.part + i) % 4
  visitor : h.visitor = none
  ctl : h.ctl = { pc := x.k.entry, exm := 0xFFFFFFFF, livem := 0xFFFFFFFF, stack := [], guards := 0, supAt := none }
  vector : ∀ r L, h.rdV r L = 0
  scalar : ∀ r, h.rdS r = if r = 0 then x.args.truncate 32 else if r = 1 then (x.args >>> 32).truncate 32 else 0
  vempty : h.regs.vempty = 0
  sempty : h.regs.sempty = 0

/-- One group of a block starts. -/
def startGroup (bid core : Nat) (x : Grid) (gr : Grant) (s : State) (i : Nat) : State :=
  let part := (gr.part + i) % 4
  let fresh := Group.start bid i core part x.ctx x.k.entry x.args s.own.seq (s.activeIn core part < 8)
  (s.setGroup (bid + 1 + i) { fresh with sched := { fresh.sched with since := s.clock.toNat } }).newSeq

theorem start_scalar (a b : Word) (r : Nat) :
    Sparse.get 0 (Sparse.set 0 (Sparse.set 0 [] 0 a) 1 b) r = if r = 0 then a else if r = 1 then b else 0 := by
  by_cases h1 : r = 1
  · subst h1
    exact Sparse.get_set_same ..
  · rw [Sparse.get_set_other _ _ _ h1]
    by_cases h0 : r = 0
    · subst h0
      exact Sparse.get_set_same ..
    · rw [Sparse.get_set_other _ _ _ h0, if_neg h0, if_neg h1]
      rfl

theorem startGroup_started (bid core : Nat) (x : Grid) (gr : Grant) (s : State) (i : Nat) :
    ∃ h, (startGroup bid core x gr s i).group (bid + 1 + i) = some h ∧ Started bid core x gr i h := by
  refine ⟨_, Sparse.find_put_same .., rfl, rfl, rfl, rfl, rfl, rfl, rfl, fun r L => ?_, fun r => start_scalar .., rfl, rfl⟩
  unfold Group.rdV
  split <;> rfl

theorem startGroup_other {bid core : Nat} {x : Grid} {gr : Grant} {s : State} {i j : Nat} (h : j ≠ i) :
    (startGroup bid core x gr s i).group (bid + 1 + j) = s.group (bid + 1 + j) := Sparse.find_put_other _ _ (by omega)

theorem foldl_started (bid core : Nat) (x : Grid) (gr : Grant) (l : List Nat) (s : State) (i : Nat)
    (h : i ∈ l ∨ ∃ h, s.group (bid + 1 + i) = some h ∧ Started bid core x gr i h) :
    ∃ h, (l.foldl (startGroup bid core x gr) s).group (bid + 1 + i) = some h ∧ Started bid core x gr i h := by
  induction l generalizing s with
  | nil => exact h.resolve_left List.not_mem_nil
  | cons j l ih =>
    refine ih _ ?_
    by_cases hj : i = j
    · subst hj
      exact .inr (startGroup_started ..)
    · rcases h with h | h
      · exact .inl ((List.mem_cons.mp h).resolve_left hj)
      · rw [startGroup_other hj]
        exact .inr h

/-- What placing a block leaves once its memory, block and grid are set. -/
structure Placing (s t : State) : Prop where
  mem : t.mem = s.mem
  grids : t.grids = s.grids

theorem Placing.refl (s : State) : Placing s s := ⟨rfl, rfl⟩

theorem Placing.trans {s t u : State} (h : Placing s t) (k : Placing t u) : Placing s u := ⟨k.mem.trans h.mem, k.grids.trans h.grids⟩

/-! ### Placing -/

/-- A block as it is placed. -/
def newBlock (s : State) (core : Nat) (c : Cand) (x : Grid) (g : Grant) : Block :=
  { grid := c.grid, lin := c.lin, core := core, k := x.k, part := g.part, gids := (List.range x.k.ngrp).map (fun i => s.own.ids + 1 + i),
    live := (List.range x.k.ngrp).map (fun i => s.own.ids + 1 + i), reloc := g.entry, accBase := g.acc,
    areas := g.areas, placed := s.clock.toNat, thalt := false, hgrp := 0, haltDepth := 0, dhalt := false, uncorr := false,
    shadow := if g.shadow then some { since := 0, groups := [], log := [], clean := true, rolled := false } else none, contain := x.contain,
    colls := [], noRestore := false, term := none, saved := none, evicting := false, badObj := 0, objFail := [], pool := g.pool }

/-- The state with a new block, whose memory is clear, and its grid without it. -/
def cleared (s : State) (core : Nat) (c : Cand) (x : Grid) (g : Grant) : State :=
  { s with
    mem := clearMem s.mem (sliceKey core (g.page * 4096)) (x.k.pages * 4096)
    own := { s.own with ids := s.own.ids + 1 + x.k.ngrp }
    blocks := Sparse.put s.blocks s.own.ids (newBlock s core c x g)
    grids := Sparse.put s.grids c.grid { x with todo := x.todo.erase c.lin, startSeq := if x.todo.length = x.total then s.own.seq else x.startSeq } }

/-- The core's part in a placement: its relocation entry, its rotation, and no candidate passed over or blocked any more. -/
def seated (s : State) (bid core : Nat) (c : Cand) (x : Grid) (g : Grant) : State :=
  (s.modNode core (fun n => { n with
    relocs := Sparse.put n.relocs g.entry { save := 0, st := 1, pages := BitVec.ofNat 9 x.k.pages, basepg := BitVec.ofNat 9 g.page, block := bid }
    rot := (g.part + 1) % 4
    lastQueue := if c.step = 4 then x.queue else n.lastQueue })).mapNodes (fun n => { n with
      skipped := n.skipped.filter (fun e => !(e.1 = c.grid && e.2.1 = c.lin))
      blocked := match n.blocked with | none => none | some e => if e.1 = c.grid && e.2.1 = c.lin then none else some e })

/-- The record of a grid leaves its shard with the last block. -/
def recordDone (s : State) (c : Cand) (x : Grid) : State :=
  if x.todo.length ≤ 1 then s.setShard x.queue x.home ((s.shard x.queue x.home).filter (fun r => r.grid ≠ some c.grid)) else s

/-- The block's groups start, with a checkpoint where it has a shadow. -/
def peopled (s : State) (bid core : Nat) (x : Grid) (g : Grant) : State :=
  let t := (List.range x.k.ngrp).foldl (startGroup bid core x g) s
  if g.shadow then t.checkpoint bid else t

theorem placeBlock_eq (s : State) (core : Nat) (c : Cand) (x : Grid) (g : Grant) :
    s.placeBlock core c x g =
      (recordDone (peopled (seated (cleared s core c x g) s.own.ids core c x g) s.own.ids core x g) c x).rouse core 8 := rfl

/-- What a checkpoint or a rouse leaves of the groups and of a block. -/
theorem checkpoint_block {s : State} {bid : Nat} {b : Block} (hb : s.block bid = some b) :
    ∃ sh, (s.checkpoint bid).block bid = some { b with shadow := sh } := by
  have hb' : s.newId.block bid = some b := hb
  have hput (x : Block) : (s.newId.setBlock bid x).block bid = some x := Sparse.find_put_same ..
  rw [State.checkpoint, State.modBlock, hb']
  dsimp only
  rw [hput]
  cases b.shadow with
  | none => exact ⟨b.shadow, rfl⟩
  | some sh => exact ⟨_, rfl⟩

theorem checkpoint_kept (s : State) (bid : Nat) :
    (s.checkpoint bid).mem = s.mem ∧ (s.checkpoint bid).grids = s.grids ∧ (s.checkpoint bid).groups = s.groups := by
  rw [State.checkpoint, State.modBlock]
  split <;> exact ⟨rfl, rfl, rfl⟩

theorem rouse_kept (s : State) (n : Nat) (bits : Word) : (s.rouse n bits).mem = s.mem ∧ (s.rouse n bits).grids = s.grids ∧
    (s.rouse n bits).groups = s.groups ∧ (s.rouse n bits).blocks = s.blocks := by
  rw [State.rouse]
  split <;> exact ⟨rfl, rfl, rfl, rfl⟩

theorem recordDone_kept (s : State) (c : Cand) (x : Grid) : (recordDone s c x).mem = s.mem ∧ (recordDone s c x).grids = s.grids ∧
    (recordDone s c x).groups = s.groups ∧ (recordDone s c x).blocks = s.blocks := by
  rw [recordDone]
  split <;> exact ⟨rfl, rfl, rfl, rfl⟩

theorem foldl_startGroup_kept (bid core : Nat) (x : Grid) (g : Grant) (l : List Nat) (s : State) :
    (l.foldl (startGroup bid core x g) s).mem = s.mem ∧ (l.foldl (startGroup bid core x g) s).grids = s.grids ∧
      (l.foldl (startGroup bid core x g) s).blocks = s.blocks :=
  foldl_rel (R := fun s t : State => t.mem = s.mem ∧ t.grids = s.grids ∧ t.blocks = s.blocks) (fun _ => ⟨rfl, rfl, rfl⟩)
    (fun h k => ⟨k.1.trans h.1, k.2.1.trans h.2.1, k.2.2.trans h.2.2⟩) l (f := startGroup bid core x g) (fun _ _ _ => ⟨rfl, rfl, rfl⟩) s

/-- The block's groups have started; of the block only the shadow differs. -/
theorem peopled_spec {s : State} {bid core : Nat} {x : Grid} {g : Grant} {b : Block} (hb : s.block bid = some b) :
    (peopled s bid core x g).mem = s.mem ∧ (peopled s bid core x g).grids = s.grids ∧
      (∃ sh, (peopled s bid core x g).block bid = some { b with shadow := sh }) ∧
      ∀ i, i < x.k.ngrp → ∃ h, (peopled s bid core x g).group (bid + 1 + i) = some h ∧ Started bid core x g i h := by
  obtain ⟨hmem, hgrids, hblocks⟩ := foldl_startGroup_kept bid core x g (List.range x.k.ngrp) s
  have hstarted (i : Nat) (hi : i < x.k.ngrp) := foldl_started bid core x g (List.range x.k.ngrp) s i (.inl (List.mem_range.mpr hi))
  have hb' : ((List.range x.k.ngrp).foldl (startGroup bid core x g) s).block bid = some b := by rw [State.block, hblocks]; exact hb
  unfold peopled
  dsimp only
  split
  · obtain ⟨hmem', hgrids', hgroups'⟩ := checkpoint_kept ((List.range x.k.ngrp).foldl (startGroup bid core x g) s) bid
    refine ⟨hmem'.trans hmem, hgrids'.trans hgrids, checkpoint_block hb', fun i hi => ?_⟩
    rw [State.group, hgroups']
    exact hstarted i hi
  · exact ⟨hmem, hgrids, ⟨b.shadow, hb'⟩, hstarted⟩

/-- What a placement leaves. -/
structure Placed (s t : State) (core : Nat) (c : Cand) (x : Grid) (g : Grant) : Prop where
  block : ∃ sh, t.block s.own.ids = some { newBlock s core c x g with shadow := sh }
  grid : ∃ y, t.grid c.grid = some y ∧ y.todo = x.todo.erase c.lin
  mem : t.mem = clearMem s.mem (sliceKey core (g.page * 4096)) (x.k.pages * 4096)
  groups : ∀ i, i < x.k.ngrp → ∃ h, t.group (s.own.ids + 1 + i) = some h ∧ Started s.own.ids core x g i h

theorem placeBlock_placed (s : State) (core : Nat) (c : Cand) (x : Grid) (g : Grant) : Placed s (s.placeBlock core c x g) core c x g := by
  rw [placeBlock_eq]
  have hb : (seated (cleared s core c x g) s.own.ids core c x g).block s.own.ids = some (newBlock s core c x g) := Sparse.find_put_same ..
  obtain ⟨hmem, hgrids, ⟨sh, hblock⟩, hgroups⟩ := peopled_spec (core := core) (x := x) (g := g) hb
  obtain ⟨hmem1, hgrids1, hgroups1, hblocks1⟩ :=
    recordDone_kept (peopled (seated (cleared s core c x g) s.own.ids core c x g) s.own.ids core x g) c x
  obtain ⟨hmem2, hgrids2, hgroups2, hblocks2⟩ :=
    rouse_kept (recordDone (peopled (seated (cleared s core c x g) s.own.ids core c x g) s.own.ids core x g) c x) core 8
  refine ⟨⟨sh, ?_⟩, ⟨{ x with todo := x.todo.erase c.lin, startSeq := if x.todo.length = x.total then s.own.seq else x.startSeq }, ?_, rfl⟩,
    hmem2.trans (hmem1.trans hmem), fun i hi => ?_⟩
  · rw [State.block, hblocks2, hblocks1]
    exact hblock
  · rw [State.grid, hgrids2, hgrids1, hgrids]
    exact Sparse.find_put_same ..
  · rw [State.group, hgroups2, hgroups1]
    exact hgroups i hi

theorem blockPlacement_eq {s : State} {die n : Nat} {rest : List Nat} {passed : List Cand} {c : Cand} {x : Grid} {gr : Grant} (hdie : die < 4)
    (hvisits : s.reap.visits die = n :: rest) (hchoose : s.reap.choose n (s.reap.candidates n) [] = (some (c, x, gr), passed)) :
    ∃ rr, exec (.blockPlacement die) s =
      .next { (s.reap.passOver n passed).placeBlock n c x gr with dist := { ((s.reap.passOver n passed).placeBlock n c x gr).dist with rr := rr } } := by
  refine ⟨Sparse.set 0 ((s.reap.passOver n passed).placeBlock n c x gr).dist.rr die ((n % 48 + 1) % 48), ?_⟩
  change execBlockPlacement die s = _
  rw [execBlockPlacement, if_neg (by omega), hvisits, State.visit, hchoose]

theorem placementOfBlocks : PlacementOfBlocks := fun s die n rest passed c x gr hdie hvisits hchoose hx => by
  obtain ⟨rr, hexec⟩ := blockPlacement_eq hdie hvisits hchoose
  have hswept := (reap_swept s).trans (passOver_swept s.reap n passed)
  obtain ⟨⟨sh, hblock⟩, hgrid, hmem, hgroups⟩ := placeBlock_placed (s.reap.passOver n passed) n c x gr
  rw [hswept.own] at hblock hgroups
  rw [hswept.mem] at hmem
  refine ⟨_, _, hexec, hblock, rfl, rfl, rfl, rfl, rfl, ?_, hgrid, fun key => ?_, fun i hi => ?_⟩
  · exact congrArg (fun o : Own => (List.range x.k.ngrp).map (fun i => o.ids + 1 + i)) hswept.own
  · rw [hmem]
    exact rd_clearMem ..
  · obtain ⟨h, hh, hs⟩ := hgroups i hi
    exact ⟨h, hh, hs.block, hs.index, hs.owner, hs.ctx, hs.part, hs.visitor, hs.ctl, hs.vector, hs.scalar, hs.vempty, hs.sempty⟩

/-! ### The distributor's other work -/

/-- The candidates that a core has passed over and that are due, with their priorities. -/
def lateOnes (s : State) (core : Nat) : List ((Nat × Nat × Nat) × Nat) :=
  (s.node core).skipped.filterMap (fun e => match s.grid e.1 with
    | none => none
    | some x => if e.2.2 + 4096 ≤ s.clock.toNat && x.todo.contains e.2.1 && (s.grantOn core x).isNone then some (e, x.prio) else none)

theorem mem_lateOnes {s : State} {core : Nat} {e : Nat × Nat × Nat} {p : Nat} : (e, p) ∈ lateOnes s core ↔ ∃ x, Late s core e x ∧ x.prio = p := by
  unfold lateOnes
  rw [List.mem_filterMap]
  constructor
  · rintro ⟨e', he', h⟩
    split at h
    · cases h
    · rename_i x hx
      split at h
      · rename_i hcond
        rw [Option.some.injEq, Prod.mk.injEq] at h
        obtain ⟨rfl, rfl⟩ := h
        rw [Bool.and_eq_true, Bool.and_eq_true, decide_eq_true_iff, List.contains_iff_mem, Option.isNone_iff_eq_none] at hcond
        exact ⟨x, ⟨he', hx, hcond.1.1, hcond.1.2, hcond.2⟩, rfl⟩
      · cases h
  · rintro ⟨x, ⟨he, hx, hdue, htodo, hgrant⟩, rfl⟩
    refine ⟨e, he, ?_⟩
    rw [hx]
    refine if_pos ?_
    rw [Bool.and_eq_true, Bool.and_eq_true, decide_eq_true_iff, List.contains_iff_mem, Option.isNone_iff_eq_none]
    exact ⟨⟨hdue, htodo⟩, hgrant⟩

theorem foldl_max_mem (l : List Nat) (a : Nat) : l.foldl max a = a ∨ l.foldl max a ∈ l := by
  induction l generalizing a with
  | nil => exact .inl rfl
  | cons b l ih =>
    rcases ih (max a b) with h | h
    · rcases Nat.le_total a b with hab | hab
      · exact .inr (List.mem_cons.mpr (.inl (h.trans (Nat.max_eq_right hab))))
      · exact .inl (h.trans (Nat.max_eq_left hab))
    · exact .inr (List.mem_cons_of_mem _ h)

theorem le_foldl_max {l : List Nat} {a n : Nat} (h : n ≤ a ∨ n ∈ l) : n ≤ l.foldl max a := by
  induction l generalizing a with
  | nil => exact h.resolve_right List.not_mem_nil
  | cons b l ih =>
    refine ih ?_
    rcases h with h | h
    · exact .inl (h.trans (Nat.le_max_left ..))
    · exact (List.mem_cons.mp h).imp (fun heq => heq.trans_le (Nat.le_max_right ..)) id

/-- The overdue candidate is a late one of the highest priority among them. -/
theorem overdue_spec {s : State} {core : Nat} (h : ∃ e x, Late s core e x) :
    ∃ e x, s.overdue core = some e ∧ Late s core e x ∧ ∀ e' x', Late s core e' x' → x'.prio ≤ x.prio := by
  obtain ⟨e0, x0, h0⟩ := h
  have hmem0 : (e0, x0.prio) ∈ lateOnes s core := mem_lateOnes.mpr ⟨x0, h0, rfl⟩
  have hmax : ∀ e' x', Late s core e' x' → x'.prio ≤ ((lateOnes s core).map (·.2)).foldl max 0 := fun e' x' h' =>
    le_foldl_max (.inr (List.mem_map.mpr ⟨_, mem_lateOnes.mpr ⟨x', h', rfl⟩, rfl⟩))
  have hfind : ((lateOnes s core).find? (fun e => e.2 = ((lateOnes s core).map (·.2)).foldl max 0)).isSome := by
    rw [List.find?_isSome]
    rcases foldl_max_mem ((lateOnes s core).map (·.2)) 0 with hz | hin
    · refine ⟨_, hmem0, decide_eq_true ?_⟩
      have := hmax e0 x0 h0
      omega
    · obtain ⟨y, hy, heq⟩ := List.mem_map.mp hin
      exact ⟨y, hy, decide_eq_true heq⟩
  obtain ⟨⟨e, p⟩, hp⟩ := Option.isSome_iff_exists.mp hfind
  obtain ⟨x, hlate, hprio⟩ := mem_lateOnes.mp (List.mem_of_find?_eq_some hp)
  have hpmax : p = ((lateOnes s core).map (·.2)).foldl max 0 := of_decide_eq_true (List.find?_some hp :)
  exact ⟨e, x, congrArg (Option.map Prod.fst) hp, hlate, fun e' x' h' => (hmax e' x' h').trans (hpmax.symm.trans hprio.symm).le⟩

theorem blockedHead_acts {s : State} {core : Nat} (h : ∃ e x, Late s core e x) (hnot : ∀ b, (s.node core).blocked = some b → s.headAt core ≠ some b) :
    ∃ t e x, exec (.blockedHead core) s = .next t ∧ Late s core e x ∧ (∀ e' x', Late s core e' x' → x'.prio ≤ x.prio) ∧
      (t.node core).blocked = some (e.1, e.2.1, e.2.2 + 4096) ∧ t.groups = s.groups ∧ t.mem = s.mem := by
  obtain ⟨⟨k, l, since⟩, x, hover, hlate, hmax⟩ := overdue_spec h
  have hcond : ¬((s.node core).blocked.isSome && decide (s.headAt core = (s.node core).blocked)) = true := by
    rw [Bool.and_eq_true, decide_eq_true_iff]
    rintro ⟨hsome, heq⟩
    obtain ⟨b, hb⟩ := Option.isSome_iff_exists.mp hsome
    exact hnot b hb (heq.trans hb)
  have hexec : exec (.blockedHead core) s = .next (s.modNode core (fun n => { n with blocked := some (k, l, since + 4096) })) := by
    change execBlockedHead core s = _
    rw [execBlockedHead, if_neg hcond, hover]
  refine ⟨_, (k, l, since), x, hexec, hlate, hmax, ?_, rfl, rfl⟩
  rw [State.node_modNode]

theorem carveEffect_acts {s : State} {core : Nat} (hnew : (s.node core).carve ≠ (s.node core).carveNew) (hfree : s.reap.occupied core = false) :
    ∃ t, exec (.carveEffect core) s = .next t ∧ (t.node core).carve = (s.node core).carveNew ∧ t.groups = s.groups ∧ t.mem = s.mem := by
  have hswept := reap_swept s
  have hcond : ¬(decide ((s.reap.node core).carve = (s.reap.node core).carveNew) || s.reap.occupied core) = true := by
    rw [hfree, Bool.or_false, decide_eq_true_iff, hswept.carve, hswept.carveNew]
    exact hnew
  have hexec : exec (.carveEffect core) s = .next (s.reap.modNode core (fun n => { n with carve := n.carveNew })) := if_neg hcond
  refine ⟨_, hexec, ?_, hswept.groups, hswept.mem⟩
  rw [State.node_modNode]
  exact hswept.carveNew core

/-! ### The active set -/

/-- The groups of a partition that are resident there. -/
def seatedOn (s : State) (core part : Nat) : List (Nat × Group) :=
  s.groups.filter (fun p => p.2.owner = core && p.2.part = part &&
    (match s.blockOf p.2 with | none => false | some b => p.2.visitor.isSome || b.saved.isNone))

/-- A group enters the active set or leaves it. -/
def setActive (s : State) (i : Nat) (a : Bool) : State := s.modGroup i (fun g => { g with sched := { g.sched with active := a } })

/-- A move at a partition is noted. -/
def moveNoted (s : State) (now core part : Nat) (g : Group) : State :=
  s.modNode core (fun n => { n with moves := Sparse.put n.moves part (now, g.sched.order) })

theorem longest_mem {l : List (Nat × Group)} {p : Nat × Group} (h : longest l = some p) : p ∈ l := by
  have hfold (l : List (Nat × Group)) (best : Option (Nat × Group)) (p : Nat × Group)
      (h : l.foldl (fun best p => match best with
        | none => some p
        | some q => if p.2.sched.since < q.2.sched.since || (p.2.sched.since = q.2.sched.since && p.2.sched.order < q.2.sched.order)
            then some p else best) best = some p) : best = some p ∨ p ∈ l := by
    induction l generalizing best with
    | nil => exact .inl h
    | cons x l ih =>
      rcases ih _ h with hx | hl
      · cases best with
        | none => exact .inr (List.mem_cons.mpr (.inl (Option.some.inj hx).symm))
        | some q =>
          dsimp only at hx
          split at hx
          · exact .inr (List.mem_cons.mpr (.inl (Option.some.inj hx).symm))
          · exact .inl hx
      · exact .inr (List.mem_cons_of_mem _ hl)
  exact (hfold l none p h).resolve_left (by simp)

theorem exists_find_of_mem {α : Type} {m : List (Nat × α)} {k : Nat} {v : α} (h : (k, v) ∈ m) : ∃ v', Sparse.find m k = some v' := by
  induction m with
  | nil => exact absurd h List.not_mem_nil
  | cons x m ih =>
    by_cases hx : x.1 = k
    · exact ⟨x.2, if_pos hx⟩
    · obtain ⟨v', hv'⟩ := ih ((List.mem_cons.mp h).resolve_left fun heq => hx (by rw [← heq]))
      exact ⟨v', (if_neg hx).trans hv'⟩

theorem group_of_mem {s : State} {i : Nat} {g : Group} (h : (i, g) ∈ s.groups) : ∃ g', s.group i = some g' := exists_find_of_mem h

theorem setActive_group {s : State} {i : Nat} {g : Group} (h : s.group i = some g) (a : Bool) :
    ∃ g', (setActive s i a).group i = some g' ∧ g'.sched.active = a := by
  refine ⟨{ g with sched := { g.sched with active := a } }, ?_, rfl⟩
  rw [setActive, State.modGroup, h]
  exact Sparse.find_put_same ..

theorem setActive_other (s : State) {i j : Nat} (a : Bool) (h : j ≠ i) : (setActive s i a).group j = s.group j := by
  rw [setActive, State.modGroup]
  split
  · rfl
  · exact Sparse.find_put_other _ _ h

theorem setActive_mem (s : State) (i : Nat) (a : Bool) : (setActive s i a).mem = s.mem := State.modGroup_mem ..

section
variable {s : State} {core part i : Nat} {g : Group}
  (hpending : longest ((seatedOn s core part).filter (fun p => !p.2.sched.active && p.2.sched.ready)) = some (i, g))
  (hmove : ∀ e, (s.node core).moves.find? (fun e => e.1 = part) = some e → e.2.1 + 4 ≤ s.clock.toNat)
include hpending

theorem pending_group : ∃ g', s.group i = some g' :=
  group_of_mem (List.mem_of_mem_filter (List.mem_of_mem_filter (longest_mem hpending)))

include hmove

/-- The move of a pending group: into the room of the active set, or into the place of the one that leaves it. -/
theorem pendingMove_eq (out : Option (Nat × Group))
    (hout : longest (((seatedOn s core part).filter (fun p => p.2.sched.active)).filter (fun p => p.2.isLong)) = out)
    (hroom : ((seatedOn s core part).filter (fun p => p.2.sched.active)).length < 8 ∨ out.isSome) :
    ∃ now, exec (.pendingMove core part) s = .next (moveNoted (setActive
      (if ((seatedOn s core part).filter (fun p => p.2.sched.active)).length < 8 then s else match out with
        | some (o, _) => setActive s o false
        | none => s) i true) now core part g) := by
  have hfree : (match (s.node core).moves.find? (fun e => e.1 = part) with
      | none => true | some e => decide (e.2.1 + 4 ≤ s.clock.toNat)) = true := by
    split
    · rfl
    · rename_i e he
      exact decide_eq_true (hmove e he)
  have hgo : (!true || (!decide (((seatedOn s core part).filter (fun p => p.2.sched.active)).length < 8) && out.isNone)) = false := by
    rw [Bool.not_true, Bool.false_or, Bool.and_eq_false_iff, Bool.not_eq_false', decide_eq_true_iff]
    exact hroom.imp id fun h => by rw [← Option.not_isSome, h]; rfl
  refine ⟨(if ((seatedOn s core part).filter (fun p => p.2.sched.active)).length < 8 then s else match out with
    | some (o, _) => setActive s o false
    | none => s).clock.toNat, ?_⟩
  change execPendingMove core part s = _
  unfold execPendingMove
  extract_lets mine free active set room
  have hmine : mine = seatedOn s core part := rfl
  have hfree' : free = true := hfree
  have hset : set = setActive := rfl
  have hactive : active = (seatedOn s core part).filter (fun p => p.2.sched.active) := rfl
  unfold room
  clear_value free mine set active
  subst hmine hset hfree' hactive
  rw [hpending, hout]
  dsimp only
  rw [if_neg (Bool.eq_false_iff.mp hgo)]
  rfl

end

theorem distributorWork : DistributorWork := by
  refine ⟨fun s core h hnot => blockedHead_acts h hnot, fun s k x hx hended htodo hblocks howing => gridEnd_ends hx hended htodo hblocks howing,
    fun s core hnew hfree => carveEffect_acts hnew hfree, fun s core part i g mine hmine hpending hmove => ?_⟩
  subst hmine
  obtain ⟨g0, hg0⟩ := pending_group (core := core) (part := part) hpending
  refine ⟨fun hroom => ?_, fun hfull o h hout hne => ?_⟩
  · obtain ⟨now, hexec⟩ := pendingMove_eq hpending hmove _ rfl (.inl hroom)
    obtain ⟨g', hg', hactive⟩ := setActive_group hg0 true
    have hroom' : ((seatedOn s core part).filter (fun p => p.2.sched.active)).length < 8 := hroom
    rw [if_pos hroom'] at hexec
    exact ⟨_, g', hexec, setActive_mem .., hg', hactive⟩
  · obtain ⟨now, hexec⟩ := pendingMove_eq hpending hmove _ hout (.inr rfl)
    have hfull' : ¬((seatedOn s core part).filter (fun p => p.2.sched.active)).length < 8 := Nat.not_lt.mpr hfull
    obtain ⟨h0, hh0⟩ := group_of_mem (List.mem_of_mem_filter (List.mem_of_mem_filter (List.mem_of_mem_filter (longest_mem hout))))
    obtain ⟨h', hh', hidle⟩ := setActive_group hh0 false
    obtain ⟨g', hg', hactive⟩ := setActive_group ((setActive_other s false hne.symm).trans hg0) true
    rw [if_neg hfull'] at hexec
    exact ⟨_, g', h', hexec, (setActive_mem ..).trans (setActive_mem ..), hg', hactive, (setActive_other _ true hne).trans hh', hidle⟩

/-- Settles O55: acceptance and the end of a grid leave the other grids and counters; a placed block's groups start one by one, and of its
memory only the allocation differs; the distributor's other work, step by step. -/
theorem placement : Obligations.Placement := ⟨acceptance, placementOfBlocks, distributorWork⟩

end Sys2Proof.Proofs
end

section
/-! What a token says, the join of a migration, the end of a visit, and the owners of addresses (R266, R271, R272, R274). -/

namespace Sys2Proof.Proofs

open Sys2Proof Sys2Proof.Machine Sys2Proof.Claims

/-! ### Reading and joining a token -/

theorem mtest_writes {f : Fields} {s : State} {g : Group} (h : Ready (.mtest f) s g) (hd : ScalarDst f.d) :
    ∃ t, exec (.mtest f) s = .next t ∧ ScalarWrite s t g f.d (s.awaited s.own.cur f.a.toNat) (nextPc g f) := by
  refine ⟨_, ?_, scalarWrite_setGroup s g hd _ _⟩
  change execMtest f s = _
  rw [execMtest, issue_of_ready h rfl, State.putDst_advance h.1 _ _ hd]
  rfl

/-- An instruction that holds its group on an empty register reaches its meaning as any other does. -/
theorem issueHold_of_ready {i : Instr} {f : Fields} {r : Row} {s : State} {g : Group} (h : Ready i s g) (hrow : i.row = some (f, r))
    (hold : Named → Hold) (k : Nat → Group → Res) : issueHold hold r f s k = k s.own.cur g := by
  have hr := state_ready_of_ready h hrow
  simp only [State.ready, Bool.and_eq_true, Option.isNone_iff_eq_none, Bool.or_eq_true, Bool.not_eq_true'] at hr
  obtain ⟨⟨⟨⟨howned, hmode⟩, hwaited⟩, hfull⟩, hclean⟩ := hr
  simp only [issueHold, h.1, howned, hwaited, hfull, hclean]
  rcases hmode with hmode | hmode <;> simp [hmode]

theorem maskOf_eq_zero {p : Nat → Bool} (h : ∀ L, L < 32 → p L = false) : maskOf p = 0#32 := by
  refine BitVec.eq_of_getLsbD_eq fun i hi => ?_
  rw [getLsbD_maskOf, h i hi, Bool.and_false, BitVec.getLsbD_zero]

theorem maskOf_ne_zero {p : Nat → Bool} {L : Nat} (hL : L < 32) (h : p L = true) : maskOf p ≠ 0#32 := by
  intro h0
  have hbit : (maskOf p).getLsbD L = true := by rw [getLsbD_maskOf, h, decide_eq_true hL]; rfl
  rw [h0, BitVec.getLsbD_zero] at hbit
  exact Bool.false_ne_true hbit

/-- The lowest lane of a mask is the first that satisfies what the mask says. -/
theorem lowestLane_maskOf {p : Nat → Bool} {L : Nat} (hL : L < 32) (h : p L = true) (hlow : ∀ M, M < L → p M = false) : lowestLane (maskOf p) = L := by
  have hfind : (List.range 32).find? (fun M => (maskOf p).getLsbD M) = some L := by
    refine List.find?_range_eq_some.mpr ⟨?_, List.mem_range.mpr hL, fun M hM => ?_⟩
    · rw [getLsbD_maskOf, h, decide_eq_true hL]; rfl
    · rw [getLsbD_maskOf, hlow M hM, Bool.and_false]; rfl
  rw [lowestLane, List.headD_eq_head?_getD, lanesOf, List.head?_filter, show laneList = List.range 32 from rfl, hfind, Option.getD_some]

theorem getLsbD_maskOf_iff (p : Nat → Bool) {L : Nat} (hL : L < 32) : (maskOf p).getLsbD L = true ↔ p L = true := by
  rw [getLsbD_maskOf, decide_eq_true hL, Bool.true_and]

/-- EXM after a join: the lanes whose token code is 1 or 2 are active again, if they live. -/
def rejoined (g : Group) (code : Nat → Nat) : Word :=
  (g.ctl.exm ||| maskOf (fun L => decide (code L = 1)) ||| maskOf (fun L => decide (code L = 2))) &&& g.ctl.livem

theorem getLsbD_rejoined (g : Group) (code : Nat → Nat) {L : Nat} (hL : L < 32) :
    (rejoined g code).getLsbD L = true ↔ (g.ctl.exm.getLsbD L = true ∨ code L = 1 ∨ code L = 2) ∧ g.ctl.livem.getLsbD L = true := by
  rw [rejoined, BitVec.getLsbD_and, BitVec.getLsbD_or, BitVec.getLsbD_or, Bool.and_eq_true, Bool.or_eq_true, Bool.or_eq_true,
    getLsbD_maskOf_iff _ hL, getLsbD_maskOf_iff _ hL, decide_eq_true_iff, decide_eq_true_iff, or_assoc]

section join

variable {f : Fields} {s : State} {g : Group} (h : Ready (.mjoin f) s g) (hvis : g.visitor = none)

/-- The code of a token lane. -/
def codeOf (s : State) (g : Group) (f : Fields) (L : Nat) : Nat := (s.readV g f.a.toNat L).toNat % 256

include h hvis

theorem mjoin_rejoins (h3 : ∀ L, L < 32 → codeOf s g f L ≠ 3) (h2 : g.out.tokT.getLsbD f.a.toNat = false ∨ ∀ L, L < 32 → codeOf s g f L ≠ 2) :
    ∃ t, exec (.mjoin f) s = .next t ∧ ControlWrite s t g (nextPc g f) (rejoined g (codeOf s g f)) g.ctl.stack := by
  have hflt : maskOf (fun L => decide (codeOf s g f L = 3)) = 0#32 := maskOf_eq_zero fun L hL => decide_eq_false (h3 L hL)
  have href : (g.out.tokT.getLsbD f.a.toNat && decide (maskOf (fun L => decide (codeOf s g f L = 2)) ≠ 0#32)) = false := by
    rcases h2 with h2 | h2
    · rw [h2, Bool.false_and]
    · rw [maskOf_eq_zero fun L hL => decide_eq_false (h2 L hL)]
      exact Bool.and_false _
  refine ⟨(s.setGroup s.own.cur { g with ctl := { g.ctl with exm := rejoined g (codeOf s g f) } }).advance s.own.cur f.bytes, ?exec, ?write⟩
  case exec =>
    change execMjoin f s = _
    rw [execMjoin, issueHold_of_ready h rfl, notVisitor, hvis]
    dsimp only
    rw [if_neg (by exact Bool.false_ne_true)]
    exact (if_neg (not_not_intro hflt)).trans (if_neg (Bool.eq_false_iff.mp href))
  case write =>
    rw [State.advance_eq (State.group_setGroup ..), State.setGroup_setGroup]
    exact ⟨_, State.group_setGroup .., fun _ hj => State.group_setGroup_other s _ hj, homeWrites_setGroup .., spilled_setGroup_same_stack ..,
      over_goto _ rfl ⟨rfl, rfl⟩ ⟨fun _ hk => hk, fun _ hk => hk⟩ rfl, rfl, rfl, rfl⟩

theorem mjoin_traps {L : Nat} (hL : L < 32) (h3 : codeOf s g f L = 3) (hlow : ∀ M, M < L → codeOf s g f M ≠ 3) :
    exec (.mjoin f) s = .next (s.trap s.own.cur .migflt (maskOf fun L => decide (codeOf s g f L = 3))
      (Sparse.get 0 g.out.tokAddr (32 * f.a.toNat + L)) (BitVec.ofNat 64 ((s.readV g f.a.toNat L).toNat / 256 % 256))) := by
  have hfirst : lowestLane (maskOf fun L => decide (codeOf s g f L = 3)) = L :=
    lowestLane_maskOf hL (decide_eq_true h3) fun M hM => decide_eq_false (hlow M hM)
  have hflt : maskOf (fun L => decide (codeOf s g f L = 3)) ≠ 0#32 := maskOf_ne_zero hL (decide_eq_true h3)
  change execMjoin f s = _
  rw [execMjoin, issueHold_of_ready h rfl, notVisitor, hvis]
  dsimp only
  rw [if_neg (by exact Bool.false_ne_true)]
  refine (if_pos hflt).trans ?_
  conv => rhs; rw [← hfirst]
  rfl

end join

/-! ### The end of a visit -/

/-- A release at .dev of a block that holds no stores waits for nothing but what the group has not performed. -/
theorem releasing_of_empty {s : State} {g : Group} (hhold : s.holding g.block = false) {gid : Nat} (hrel : s.unreleased gid s.own.ids 3 = false)
    (k : State → Res) : releasing s gid g 3 k = k s := by
  have hdrain : s.drainHeld g 3 = s := by
    rw [State.drainHeld, hhold]
    exact if_pos (by simp)
  have hbegin : s.beginRelease gid g 3 = s := by
    rw [State.beginRelease, hdrain]
    rfl
  rw [releasing, hbegin, hrel, if_neg Bool.false_ne_true, if_neg (by decide)]

theorem mret_advances {f : Fields} {s : State} {g : Group} (h : Ready (.mret f) s g) (hvis : g.visitor = none) :
    ∃ t, exec (.mret f) s = .next t ∧ ControlWrite s t g (nextPc g f) g.ctl.exm g.ctl.stack := by
  refine ⟨_, ?_, controlWrite_advance (.refl s) h.1 f⟩
  change execMret f s = _
  rw [execMret, issue_of_ready h rfl, hvis]
  rfl

theorem mret_ends {f : Fields} {s : State} {g : Group} (h : Ready (.mret f) s g) (hhold : s.holding g.block = false) {v : Visitor}
    (hvis : g.visitor = some v) (hrel : s.unreleased s.own.cur s.own.ids 3 = false) :
    ∃ t, exec (.mret f) s = .next t ∧ t.mem = s.mem ∧ t.group s.own.cur = none ∧
      (g.ctl.livem ≠ 0 → ∃ r, t.rets = s.rets ++ [r] ∧ r.origin = v.origin ∧ r.token = v.token ∧
        r.lanes = g.ctl.livem ∧ r.code = 1 ∧ r.reason = 0 ∧ r.vlist = v.vlist) := by
  refine ⟨s.endVisitor s.own.cur 1 0 0, ?_, ?_⟩
  · change execMret f s = _
    rw [execMret, issue_of_ready h rfl, hvis, if_neg (by exact Bool.false_ne_true)]
    exact releasing_of_empty hhold hrel _
  · rw [State.endVisitor, h.1]
    dsimp only
    rw [hvis]
    exact ⟨rfl, Sparse.find_del_same .., fun hlive => ⟨_, if_neg hlive, rfl, rfl, rfl, rfl, rfl, rfl⟩⟩

/-! ### The owners of addresses -/

theorem get_lanes_other (m : List (Nat × Byte)) (v : Nat → Nat → Byte) (ls : List Nat) {L : Nat} (i : Nat) (hi : i < 16) (hL : L ∉ ls) :
    Sparse.get 0 (ls.foldl (fun m L => (List.range 4).foldl (fun m i => Sparse.put m (16 * L + i) (v L i)) m) m) (16 * L + i) =
      Sparse.get 0 m (16 * L + i) := by
  induction ls generalizing m with
  | nil => rfl
  | cons M ls ih =>
    have hne : L ≠ M := fun h => hL (h ▸ List.mem_cons_self)
    rw [List.foldl_cons, ih _ fun h => hL (List.mem_cons_of_mem _ h), get_putRow m (16 * M) (v M) 4, if_neg (by omega)]

/-- What a word per lane leaves in the sixteen bytes of a lane. -/
theorem get_lanes (v : Nat → Nat → Byte) (ls : List Nat) (m : List (Nat × Byte)) {L : Nat} (i : Nat) (hi : i < 16) (hL : L ∈ ls)
    (hm : Sparse.get 0 m (16 * L + i) = if i < 4 then Sparse.get 0 m (16 * L + i) else 0) :
    Sparse.get 0 (ls.foldl (fun m L => (List.range 4).foldl (fun m i => Sparse.put m (16 * L + i) (v L i)) m) m) (16 * L + i) =
      if i < 4 then v L i else 0 := by
  induction ls generalizing m with
  | nil => exact absurd hL List.not_mem_nil
  | cons M ls ih =>
    rw [List.foldl_cons]
    have hrow := get_putRow m (16 * M) (v M) 4 (16 * L + i)
    by_cases hin : L ∈ ls
    · refine ih _ hin ?_
      by_cases h4 : i < 4
      · rw [if_pos h4]
      · rw [if_neg h4, hrow, if_neg (by omega), hm, if_neg h4]
    · obtain rfl : L = M := (List.mem_cons.mp hL).resolve_right hin
      rw [get_lanes_other _ v ls i hi hin, hrow]
      by_cases h4 : i < 4
      · rw [if_pos (by omega), if_pos h4, Nat.add_sub_cancel_left]
      · rw [if_neg (by omega), if_neg h4, hm, if_neg h4]

theorem leBytes_eq (x n : Nat) : leBytes x n = (List.range n).map fun i => BitVec.ofNat 8 (x / 256 ^ i) := by
  induction n generalizing x with
  | zero => rfl
  | succ n ih =>
    rw [leBytes, ih, List.range_succ_eq_map, List.map_cons, List.map_map, pow_zero, Nat.div_one]
    refine congrArg (_ :: ·) (List.map_congr_left fun i _ => ?_)
    rw [Function.comp, Nat.div_div_eq_div_mul, ← Nat.pow_succ']

/-- The lane of an access that has got a word is that word. -/
theorem lane_of_word {a : Access} {L : Nat} (x : Word)
    (h : ∀ i, i < 16 → Sparse.get 0 a.got (16 * L + i) = if i < 4 then BitVec.ofNat 8 (x.toNat / 256 ^ i) else 0) : a.lane L = x.toNat := by
  have hbytes : (List.range 16).map (fun i => Sparse.get 0 a.got (16 * L + i)) = leBytes x.toNat 16 := by
    rw [leBytes_eq]
    refine List.map_congr_left fun i hi => ?_
    rw [h i (List.mem_range.mp hi)]
    split
    · rfl
    · next h4 =>
      have hbig : x.toNat < 256 ^ i :=
        calc x.toNat < 256 ^ 4 := x.isLt
          _ ≤ 256 ^ i := Nat.pow_le_pow_right (by norm_num) (not_lt.mp h4)
      rw [Nat.div_eq_of_lt hbig]
      rfl
  rw [Access.lane, hbytes, leNat_leBytes, Nat.mod_eq_of_lt (lt_of_lt_of_le x.isLt (by norm_num))]

theorem migAddr_eq (s : State) (g : Group) (f : Fields) (L : Nat) :
    migAddr s g f L = BitVec.ofInt 64 ((s.readSP g f.a).toInt + (s.readV g f.b.toNat L).toInt * 2 ^ f.mf 2 1) := by
  rw [migAddr, scaled_eq_ofInt, BitVec.ofInt_add, BitVec.ofInt_toInt]

section owner

variable {f : Fields} {s : State} {g : Group}

/-- The word that mowner gives a lane. -/
def ownerCode (s : State) (g : Group) (f : Fields) (L : Nat) : Word :=
  let r := s.locate g L ownerUse 1 (migAddr s g f L)
  if !r.2.isEmpty then 0xFFFFFFFE
  else match s.ownerAt g r.1 with
    | none => 0xFFFFFFFF
    | some o => BitVec.ofNat 32 o

/-- The part of the access of a mowner: it is at no place. -/
def ownerPart (g : Group) : Part :=
  { id := 0, vis := 0, lane := 0, lanes := 0, loc := .mem (sliceKey g.owner 0), il := 0, peer := none, msg := none, addr := 0,
    off := 0, len := 0, data := [], cmp := [] }

/-- The access of a mowner: it holds its answers when it starts. -/
def ownerAccess (s : State) (g : Group) (f : Fields) : Access :=
  { accessOf s.own.cur g .owner with
    vec := true, dst := f.d.toNat, regs := 1, lanes := g.wset
    got := (lanesOf g.wset).foldl (fun m L => (List.range 4).foldl (fun m i =>
      Sparse.put m (16 * L + i) (BitVec.ofNat 8 ((ownerCode s g f L).toNat / 256 ^ i))) m) [] }

theorem mowner_eq (h : Ready (.mowner f) s g) : exec (.mowner f) s =
    if g.wset = 0 then .next (s.advance s.own.cur f.bytes)
    else .next (((s.markEmpty s.own.cur true f.d.toNat 1).startAccess (ownerAccess s g f) [ownerPart g]).advance s.own.cur f.bytes) := by
  change execMowner f s = _
  rw [execMowner, issue_of_ready h rfl]
  rfl

theorem value_ownerAccess {a : Access} (hgot : a.got = (ownerAccess s g f).got) (hkind : a.kind = .owner) {L : Nat} (hL : L ∈ lanesOf g.wset) :
    a.value L = (ownerCode s g f L).toNat := by
  rw [Access.value, hkind]
  refine lane_of_word _ fun i hi => ?_
  rw [hgot]
  refine get_lanes (fun L i => BitVec.ofNat 8 ((ownerCode s g f L).toNat / 256 ^ i)) _ [] i hi hL ?_
  split <;> rfl

theorem ownerCode_of_owner {L : Nat} {ps : List Piece} {o : Nat}
    (hloc : s.locate g L {} 1 (BitVec.ofInt 64 ((s.readSP g f.a).toInt + (s.readV g f.b.toNat L).toInt * 2 ^ f.mf 2 1)) = (ps, []))
    (ho : s.ownerAt g ps = some o) : (ownerCode s g f L).toNat = o % 2 ^ 32 := by
  rw [ownerCode, migAddr_eq, show ownerUse = {} from rfl, hloc]
  dsimp only
  rw [ho]
  exact BitVec.toNat_ofNat ..

theorem wset_of_exm (hexm : g.ctl.exm = 0) : g.wset = 0 := by
  have hhelp : g.helpers = 0#32 := by
    rw [Group.helpers]
    split
    · rfl
    · refine maskOf_eq_zero fun L hL => ?_
      rw [hexm]
      simp
  rw [Group.wset, hexm, hhelp]
  rfl

theorem mowner_spec (h : Ready (.mowner f) s g) : ∃ t, exec (.mowner f) s = .next t ∧
    (g.ctl.exm = 0 → g.ctl.livem = 0xFFFFFFFF → ControlWrite s t g (nextPc g f) 0 g.ctl.stack) ∧
    (g.ctl.exm ≠ 0 → Quiet s g → ∃ g' a, t.group s.own.cur = some g' ∧ t.mem = s.mem ∧ (∀ j, j ≠ s.own.cur → t.group j = s.group j) ∧
      g'.ctl = { g.ctl with pc := nextPc g f } ∧ g'.regs.v = g.regs.v ∧ g'.regs.s = g.regs.s ∧
      (f.d.toNat < 255 → g'.isEmpty false f.d.toNat = true) ∧ t.accs = s.accs ++ [a] ∧ a.gid = s.own.cur ∧ a.dst = f.d.toNat ∧ a.regs = 1 ∧
      a.lanes = g.wset ∧ ∀ L ps o, L < 32 → g.ctl.exm.getLsbD L = true → s.locate g L {} 1 (BitVec.ofInt 64 ((s.readSP g f.a).toInt +
        (s.readV g f.b.toNat L).toInt * 2 ^ f.mf 2 1)) = (ps, []) → s.ownerAt g ps = some o → a.value L = o % 2 ^ 32) := by
  by_cases hw : g.wset = 0
  · refine ⟨_, (mowner_eq h).trans (if_pos hw), fun hexm _ => ?_, fun hexm _ => absurd ?_ hexm⟩
    · have := controlWrite_advance (.refl s) h.1 f
      rwa [hexm] at this
    · refine BitVec.eq_of_getLsbD_eq fun i hi => ?_
      have := congrArg (BitVec.getLsbD · i) hw
      simp only [Group.wset, BitVec.getLsbD_or] at this
      exact (Bool.or_eq_false_iff.mp (this.trans BitVec.getLsbD_zero)).1.trans BitVec.getLsbD_zero.symm
  · refine ⟨_, (mowner_eq h).trans (if_neg hw), fun hexm _ => absurd (wset_of_exm hexm) hw, fun _ hq => ?_⟩
    have hmark := (Prelude.refl s).markEmpty h.1 true f.d.toNat 1
    have hpeer : ∀ p ∈ [ownerPart g], p.peer = none := fun p hp => by rw [List.mem_singleton.mp hp]; rfl
    have hmc : ∀ p ∈ [ownerPart g], p.mc = none := fun p hp => by rw [List.mem_singleton.mp hp]; rfl
    obtain ⟨u, g', -, hhome, hnow, hothers, -, hrest, -, -, -, -, -, -, -, -, -, -, -, -, hctl, hv, hs, -, -, hempty⟩ :=
      accessIssued_advance (a := ownerAccess s g f) (parts := [ownerPart g]) hmark (silent_of_quiet hq) hpeer hmc rfl rfl f.bytes rfl
    have haccs : (((s.markEmpty s.own.cur true f.d.toNat 1).startAccess (ownerAccess s g f) [ownerPart g]).advance s.own.cur f.bytes).accs =
        s.accs ++ [identified (lookedFor (s.markEmpty s.own.cur true f.d.toNat 1) (ownerAccess s g f) [ownerPart g]) (ownerAccess s g f) [ownerPart g]] := by
      rw [State.advance_accs, (hmark.silent (silent_of_quiet hq)).startAccess _ hpeer hmc]
      exact congrArg (· ++ _) ((homesOnly_accs (lookedFor_homesOnly _ _ _)).trans hmark.accs)
    refine ⟨g', _, hnow, (congrArg State.mem hrest :).trans (homesOnly_mem hhome), hothers, hctl, hv, hs, fun hd => ?_, haccs, rfl, rfl, rfl, rfl,
      fun L ps o hL hexm hloc ho => ?_⟩
    · rw [hempty false f.d.toNat f.d.isLt]
      simp [ownerAccess, Nat.ne_of_lt hd]
    · have hin : L ∈ lanesOf g.wset := mem_lanesOf.mpr ⟨hL, by rw [Group.wset, BitVec.getLsbD_or, hexm, Bool.true_or]⟩
      exact (value_ownerAccess (s := s) (g := g) (f := f) rfl rfl hin).trans (ownerCode_of_owner hloc ho)

end owner

end Sys2Proof.Proofs
end

section
/-! MIGR (R263, R265, R270): which lanes leave for which owner, and what is left of the group. -/

namespace Sys2Proof.Proofs

open Sys2Proof Sys2Proof.Machine Sys2Proof.Claims

/-! ### The lanes of a check -/

theorem lane_of_check {s : State} {g : Group} {u : Use} {n : Nat} {ls : List Nat} {addr : Nat → Dword} {l : List (Nat × List Piece)}
    (h : s.check g u n (ls.map fun L => (L, addr L)) = .ok l) : ∀ x ∈ l, x.1 ∈ ls := by
  intro x hx
  rw [State.check, verdict] at h
  dsimp only at h
  split at h
  · obtain rfl := Except.ok.inj h
    obtain ⟨y, hy, rfl⟩ := List.mem_map.mp hx
    obtain ⟨z, hz, rfl⟩ := List.mem_map.mp hy
    obtain ⟨L, hL, rfl⟩ := List.mem_map.mp hz
    exact hL
  · split at h
    · obtain rfl := Except.ok.inj h
      exact absurd hx List.not_mem_nil
    · cases h

/-! ### Lanes by owner -/

theorem getLsbD_laneBit {L M : Nat} (hL : L < 32) : (1#32 <<< M).getLsbD L = decide (L = M) := by
  rw [BitVec.getLsbD_shiftLeft, BitVec.getLsbD_one, decide_eq_true hL]
  by_cases h : L = M
  · subst h; simp
  · by_cases hlt : L < M
    · simp [h, hlt]
    · simp [h, hlt, show ¬ L - M = 0 by omega]

/-- What the lanes `l` come to: those that leave for each owner, and those refused in a peer window. -/
structure SplitOf (s : State) (g : Group) (l : List (Nat × List Piece)) (r : List (Nat × Word) × Word) : Prop where
  sent : ∀ p ∈ r.1, p.1 ≠ g.owner ∧ p.2 ≠ 0#32 ∧ ∀ L, L < 32 → p.2.getLsbD L = true → ∃ x ∈ l, x.1 = L ∧ s.ownerAt g x.2 = some p.1
  all : ∀ x ∈ l, ∀ o, s.ownerAt g x.2 = some o → o ≠ g.owner → (Sparse.get 0 r.1 o).getLsbD x.1 = true
  refused : ∀ L, L < 32 → (r.2.getLsbD L = true ↔ ∃ x ∈ l, x.1 = L ∧ s.ownerAt g x.2 = none)

section more

variable {s : State} {g : Group} {l : List (Nat × List Piece)} {r : List (Nat × Word) × Word} (h : SplitOf s g l r) {x : Nat × List Piece}

theorem exists_mem_of_init {p : Nat × List Piece → Prop} (h : ∃ y ∈ l, p y) : ∃ y ∈ l ++ [x], p y :=
  h.imp fun _ hy => ⟨List.mem_append_left _ hy.1, hy.2⟩

theorem exists_mem_of_last {p : Nat × List Piece → Prop} (h : p x) : ∃ y ∈ l ++ [x], p y :=
  ⟨x, List.mem_append_right _ (List.mem_singleton_self x), h⟩

include h

theorem SplitOf.sent_more {p : Nat × Word} (hp : p ∈ r.1) :
    p.1 ≠ g.owner ∧ p.2 ≠ 0#32 ∧ ∀ L, L < 32 → p.2.getLsbD L = true → ∃ y ∈ l ++ [x], y.1 = L ∧ s.ownerAt g y.2 = some p.1 :=
  (h.sent p hp).imp_right fun k => k.imp_right fun k L hL hp => exists_mem_of_init (k L hL hp)

/-- A lane whose address is not in a peer window is not refused. -/
theorem SplitOf.refused_more {o : Nat} (ho : s.ownerAt g x.2 = some o) (L : Nat) (hL : L < 32) :
    r.2.getLsbD L = true ↔ ∃ y ∈ l ++ [x], y.1 = L ∧ s.ownerAt g y.2 = none := by
  rw [h.refused L hL]
  refine ⟨exists_mem_of_init, ?_⟩
  rintro ⟨y, hy, rfl, hyo⟩
  rcases List.mem_append.mp hy with hy | hy
  · exact ⟨y, hy, rfl, hyo⟩
  · rw [List.mem_singleton.mp hy, ho] at hyo
    cases hyo

theorem SplitOf.refuse (ho : s.ownerAt g x.2 = none) : SplitOf s g (l ++ [x]) (r.1, r.2 ||| (1#32 <<< x.1)) := by
  refine ⟨fun p hp => h.sent_more hp, fun y hy o hyo hne => ?_, fun L hL => ?_⟩
  · rcases List.mem_append.mp hy with hy | hy
    · exact h.all y hy o hyo hne
    · rw [List.mem_singleton.mp hy, ho] at hyo
      cases hyo
  · rw [BitVec.getLsbD_or, getLsbD_laneBit hL, Bool.or_eq_true, h.refused L hL, decide_eq_true_iff]
    constructor
    · rintro (hp | rfl)
      · exact exists_mem_of_init hp
      · exact exists_mem_of_last ⟨rfl, ho⟩
    · rintro ⟨y, hy, rfl, hyo⟩
      rcases List.mem_append.mp hy with hy | hy
      · exact .inl ⟨y, hy, rfl, hyo⟩
      · exact .inr (congrArg Prod.fst (List.mem_singleton.mp hy))

theorem SplitOf.stay (ho : s.ownerAt g x.2 = some g.owner) : SplitOf s g (l ++ [x]) r := by
  refine ⟨fun p hp => h.sent_more hp, fun y hy o hyo hne => ?_, h.refused_more ho⟩
  rcases List.mem_append.mp hy with hy | hy
  · exact h.all y hy o hyo hne
  · rw [List.mem_singleton.mp hy, ho] at hyo
    exact absurd (Option.some.inj hyo).symm hne

theorem SplitOf.send (hx : x.1 < 32) {o : Nat} (ho : s.ownerAt g x.2 = some o) (hne : o ≠ g.owner) :
    SplitOf s g (l ++ [x]) (Sparse.put r.1 o (Sparse.get 0 r.1 o ||| (1#32 <<< x.1)), r.2) := by
  have hbits (L : Nat) (hL : L < 32) : (Sparse.get 0 r.1 o ||| (1#32 <<< x.1)).getLsbD L = true ↔ (Sparse.get 0 r.1 o).getLsbD L = true ∨ L = x.1 := by
    rw [BitVec.getLsbD_or, getLsbD_laneBit hL, Bool.or_eq_true, decide_eq_true_iff]
  refine ⟨fun p hp => ?_, fun y hy q hyq hq => ?_, h.refused_more ho⟩
  · rcases Sparse.mem_put hp with rfl | hp
    · refine ⟨hne, fun h0 => ?_, fun L hL hbit => ?_⟩
      · have hbit := (hbits x.1 hx).mpr (.inr rfl)
        rw [show (Sparse.get 0 r.1 o ||| (1#32 <<< x.1)) = 0#32 from h0, BitVec.getLsbD_zero] at hbit
        exact Bool.false_ne_true hbit
      · rcases (hbits L hL).mp hbit with hbit | rfl
        · cases hfind : Sparse.find r.1 o with
          | none =>
            rw [Sparse.get, hfind, Option.getD_none, show (0 : Word) = 0#32 from rfl, BitVec.getLsbD_zero] at hbit
            exact absurd hbit Bool.false_ne_true
          | some w =>
            rw [Sparse.get, hfind, Option.getD_some] at hbit
            exact exists_mem_of_init ((h.sent _ (mem_of_find hfind)).2.2 L hL hbit)
        · exact exists_mem_of_last ⟨rfl, ho⟩
    · exact h.sent_more hp
  · rcases List.mem_append.mp hy with hy | hy
    · have hbit := h.all y hy q hyq hq
      by_cases hqo : q = o
      · rw [hqo] at hbit ⊢
        rw [get_put_same, BitVec.getLsbD_or, hbit, Bool.true_or]
      · rwa [get_put_other _ _ _ hqo]
    · rw [List.mem_singleton.mp hy] at hyq ⊢
      obtain rfl : q = o := Option.some.inj (hyq.symm.trans ho)
      rw [get_put_same]
      exact (hbits x.1 hx).mpr (.inr rfl)

end more

theorem splitOf_migSplit (s : State) (g : Group) {l : List (Nat × List Piece)} (hl : ∀ x ∈ l, x.1 < 32) : SplitOf s g l (s.migSplit g l) := by
  induction l using List.reverseRecOn with
  | nil => exact ⟨fun _ hp => absurd hp List.not_mem_nil, fun _ hx => absurd hx List.not_mem_nil, fun L _ => by simp [State.migSplit]⟩
  | append_singleton l x ih =>
    have h := ih fun y hy => hl y (List.mem_append_left _ hy)
    have hx : x.1 < 32 := hl x (List.mem_append_right _ (List.mem_singleton_self x))
    rw [State.migSplit, List.foldl_append, List.foldl_cons, List.foldl_nil]
    split
    · next ho => exact h.refuse ho
    · next o ho =>
      split
      · next hown => exact h.stay (hown ▸ ho)
      · next hown => exact h.send hx ho hown

/-- Every lane whose owner is another is in the list of that owner. -/
theorem SplitOf.mem_sent {s : State} {g : Group} {l : List (Nat × List Piece)} {r : List (Nat × Word) × Word} (h : SplitOf s g l r)
    {x : Nat × List Piece} (hx : x ∈ l) {o : Nat} (ho : s.ownerAt g x.2 = some o) (hne : o ≠ g.owner) : ∃ w, (o, w) ∈ r.1 ∧ w.getLsbD x.1 = true := by
  have hbit := h.all x hx o ho hne
  cases hfind : Sparse.find r.1 o with
  | none =>
    rw [Sparse.get, hfind, Option.getD_none, show (0 : Word) = 0#32 from rfl, BitVec.getLsbD_zero] at hbit
    exact absurd hbit Bool.false_ne_true
  | some w =>
    rw [Sparse.get, hfind, Option.getD_some] at hbit
    exact ⟨w, mem_of_find hfind, hbit⟩

theorem getLsbD_union (l : List (Nat × Word)) (w : Word) (L : Nat) :
    (l.foldl (fun (w : Word) p => w ||| p.2) w).getLsbD L = true ↔ w.getLsbD L = true ∨ ∃ p ∈ l, p.2.getLsbD L = true := by
  induction l generalizing w with
  | nil => simp
  | cons p l ih => rw [List.foldl_cons, ih, BitVec.getLsbD_or, Bool.or_eq_true, or_assoc, List.exists_mem_cons_iff]

/-! ### The continuations -/

section migr

variable {f : Fields} {s : State} {g : Group}

/-- The continuation that takes the lanes `p.2` to the owner `p.1`. -/
def contTo (u s : State) (g : Group) (f : Fields) (gid token : Nat) (vs ss : List Nat) (p : Nat × Word) : Cont :=
  { id := s.own.ids, owner := p.1, origin := gid, block := g.block, token := token, lanes := p.2, pc := nextPc g f,
    vlist := vs.foldl (fun m r => m ||| (1#256 <<< r)) 0, slist := ss.foldl (fun m r => m ||| (1#128 <<< r)) 0, v := u.shipped g vs p.2,
    s := ss.map (fun r => (r, g.rdS r)), ctx := g.ctx, index := g.index, arrived := none }

/-- Each owner is sent its continuation. -/
def contsTo (u s : State) (g : Group) (f : Fields) (gid token : Nat) (vs ss : List Nat) (sends : List (Nat × Word)) : State :=
  sends.foldl (fun (s : State) p => { s with conts := s.conts ++ [contTo u s g f gid token vs ss p] }.newId) s

/-- `t` is `s` with a continuation for each of `sends`. -/
structure SentTo (s t : State) (g : Group) (f : Fields) (gid token : Nat) (sends : List (Nat × Word)) (cs : List Cont) : Prop where
  groups : t.groups = s.groups
  mem : t.mem = s.mem
  conts : t.conts = s.conts ++ cs
  made : ∀ c ∈ cs, c.origin = gid ∧ c.token = token ∧ c.pc = nextPc g f ∧ (c.owner, c.lanes) ∈ sends
  all : ∀ p ∈ sends, ∃ c ∈ cs, c.lanes = p.2

theorem contsTo_sent (u s : State) (g : Group) (f : Fields) (gid token : Nat) (vs ss : List Nat) (sends : List (Nat × Word)) :
    ∃ cs, SentTo s (contsTo u s g f gid token vs ss sends) g f gid token sends cs := by
  induction sends using List.reverseRecOn with
  | nil => exact ⟨[], rfl, rfl, (List.append_nil _).symm, fun _ hc => absurd hc List.not_mem_nil, fun _ hp => absurd hp List.not_mem_nil⟩
  | append_singleton sends p ih =>
    obtain ⟨cs, hgroups, hmem, hconts, hmade, hall⟩ := ih
    rw [contsTo, List.foldl_append, List.foldl_cons, List.foldl_nil]
    change ∃ cs, SentTo s ({ contsTo u s g f gid token vs ss sends with conts := (contsTo u s g f gid token vs ss sends).conts ++
      [contTo u (contsTo u s g f gid token vs ss sends) g f gid token vs ss p] } : State).newId g f gid token (sends ++ [p]) cs
    refine ⟨cs ++ [contTo u (contsTo u s g f gid token vs ss sends) g f gid token vs ss p], hgroups, hmem, ?_, fun c hc => ?_, fun q hq => ?_⟩
    · exact (congrArg (· ++ _) hconts).trans (List.append_assoc ..)
    · rcases List.mem_append.mp hc with hc | hc
      · obtain ⟨h1, h2, h3, h4⟩ := hmade c hc
        exact ⟨h1, h2, h3, List.mem_append_left _ h4⟩
      · rw [List.mem_singleton.mp hc]
        exact ⟨rfl, rfl, rfl, List.mem_append_right _ (List.mem_singleton_self p)⟩
    · rcases List.mem_append.mp hq with hq | hq
      · obtain ⟨c, hc, hlanes⟩ := hall q hq
        exact ⟨c, List.mem_append_left _ hc, hlanes⟩
      · exact ⟨_, List.mem_append_right _ (List.mem_singleton_self _), congrArg Prod.snd (List.mem_singleton.mp hq).symm⟩

/-! ### The group that is left -/

/-- The lanes that leave, for an owner or for nowhere. -/
def awayOf (r : List (Nat × Word) × Word) : Word := r.1.foldl (fun (w : Word) p => w ||| p.2) 0

/-- The group after its lanes have left. -/
def leftOf (f : Fields) (r : List (Nat × Word) × Word) (g : Group) : Group :=
  let g := if awayOf r = 0 then g else g.markV f.h.toNat true
  { g with
    ctl := { g.ctl with exm := g.ctl.exm &&& ~~~(awayOf r ||| r.2) }
    out := { g.out with
      tokT := if f.m 3 then g.out.tokT ||| (1#256 <<< f.h.toNat) else g.out.tokT &&& ~~~(1#256 <<< f.h.toNat)
      tokAddr := g.out.tokAddr.filter (fun (p : Nat × Dword) => p.1 / 32 ≠ f.h.toNat) } }

/-- What a migr leaves behind: the token lanes of the refused, and the group without the lanes that left. -/
def tokened (s : State) (gid : Nat) (f : Fields) (r : List (Nat × Word) × Word) : State :=
  ((s.writeV gid f.h.toNat (laneList.map (fun L => (L, if r.2.getLsbD L then 0x202#32 else 0)))).modGroup gid (leftOf f r)).advance gid f.bytes

theorem migr_eq (h : Ready (.migr f) s g) (hvis : g.visitor = none) {vs ss : List Nat} (hvs : vs = listedRegs (f.xmod.toNat % 256) (s.readS g f.c))
    (hss : ss = listedRegs (4 * (f.xmod.toNat / 256)) (s.readS g f.e)) (hbad : migBad f g vs ss = 0) (hvown : vs.find? (fun r => !s.owns g false r) = none)
    (hsown : ss.find? (fun r => !s.owns g true r) = none) (hvfull : vs.find? (g.isEmpty false) = none) (hsfull : ss.find? (g.isEmpty true) = none)
    (hclean : (vs.any (fun r => g.regs.vbad.any (fun k => k / 32 = r)) || ss.any g.regs.sbad.contains) = false) {l : List (Nat × List Piece)}
    (hcheck : s.check g ownerUse 1 ((lanesOf g.ctl.exm).map (fun L => (L, migAddr s g f L))) = .ok l) (hhold : s.holding g.block = false)
    (hrel : s.unreleased s.own.cur s.own.ids 3 = false) {u : State} (hu : u = s.lookUps g ((lanesOf g.ctl.exm).map (migAddr s g f))) :
    exec (.migr f) s = .next (tokened (contsTo u (u.unclean g.block) g f s.own.cur f.h.toNat vs ss (u.migSplit g l).1) s.own.cur f (u.migSplit g l)) := by
  change execMigr f s = _
  rw [execMigr, issue_of_ready h rfl]
  dsimp only
  rw [← hvs, ← hss, if_neg (not_not_intro hbad), hvown, hsown, hvfull, hsfull]
  dsimp only
  rw [if_neg (Bool.eq_false_iff.mp hclean), hcheck]
  dsimp only
  rw [releasing_of_empty hhold hrel, hvis, hu]
  rfl

theorem ownerAt_of_homesOnly {u : State} (h : HomesOnly s u) (g : Group) (ps : List Piece) : u.ownerAt g ps = s.ownerAt g ps := by
  have hown (loc : Loc) (il here : Nat) : u.ownerOf loc il here = s.ownerOf loc il here := by
    cases loc with
    | mem k => rfl
    | scr grid lin off => rw [State.ownerOf, homesOnly_blocks h]; rfl
    | priv grid lin grp off => rfl
  cases ps with
  | nil => rfl
  | cons p ps =>
    rw [State.ownerAt, State.ownerAt]
    cases p.tgt with
    | peer => rfl
    | here loc pte => exact congrArg some (hown ..)

theorem isEmpty_leftOf (f : Fields) (r : List (Nat × Word) × Word) (g : Group) :
    (leftOf f r g).isEmpty false f.h.toNat = ((decide (awayOf r ≠ 0) && decide (f.h.toNat ≠ 255)) || g.isEmpty false f.h.toNat) := by
  unfold leftOf
  by_cases h : awayOf r = 0
  · rw [if_pos h, decide_eq_false (not_not_intro h)]
    rfl
  · rw [if_neg h, decide_eq_true h]
    change (g.markV f.h.toNat true).isEmpty false f.h.toNat = _
    rw [isEmpty_markV g _ false f.h.isLt, Bool.or_comm]
    simp

theorem leftOf_kept (f : Fields) (r : List (Nat × Word) × Word) (g : Group) :
    { leftOf f r g with ctl := g.ctl, out := g.out, regs := { (leftOf f r g).regs with vempty := g.regs.vempty } } = g := by
  unfold leftOf Group.markV
  split
  · rfl
  · split <;> rfl

theorem leftOf_ctl (f : Fields) (r : List (Nat × Word) × Word) (g : Group) :
    (leftOf f r g).ctl = { g.ctl with exm := g.ctl.exm &&& ~~~(awayOf r ||| r.2) } := by
  unfold leftOf
  split
  · rfl
  · dsimp only
    rw [Group.markV_ctl]

/-- The group after a migr: the token's lanes apart, what has left it. -/
theorem tokened_leaves {g : Group} (hg : s.group s.own.cur = some g) {u : State} (hu : u.groups = s.groups) (f : Fields) (r : List (Nat × Word) × Word) :
    ∃ g', (tokened u s.own.cur f r).mem = u.mem ∧ (tokened u s.own.cur f r).conts = u.conts ∧ (tokened u s.own.cur f r).group s.own.cur = some g' ∧
      g'.ctl = { g.ctl with pc := nextPc g f, exm := g.ctl.exm &&& ~~~(awayOf r ||| r.2) } ∧ g'.regs.s = g.regs.s ∧
      (∀ j L, L < 32 → j ≠ f.h.toNat → g'.rdV j L = g.rdV j L) ∧
      g'.isEmpty false f.h.toNat = ((decide (awayOf r ≠ 0) && decide (f.h.toNat ≠ 255)) || g.isEmpty false f.h.toNat) := by
  have hug : u.group s.own.cur = some g := (congrArg (Sparse.find · s.own.cur) hu).trans hg
  obtain ⟨g1, hwrite, hkeep, -⟩ := lanesWritten_writeV hug f.h.toNat (ls := laneList) (fun L hL => List.mem_range.mp hL)
    fun L => if r.2.getLsbD L then 0x202#32 else 0
  have hctl : g1.ctl = g.ctl := (congrArg Group.ctl hwrite.lanes.same :)
  have hvempty : g1.regs.vempty = g.regs.vempty := (congrArg (fun g => g.regs.vempty) hwrite.lanes.same :)
  have hs : g1.regs.s = g.regs.s := (congrArg (fun g => g.regs.s) hwrite.lanes.same :)
  rw [tokened, State.modGroup_eq hwrite.now, State.advance_eq (State.group_setGroup ..), State.setGroup_setGroup]
  refine ⟨_, (congrArg State.mem hwrite.rest :), (congrArg State.conts hwrite.rest :), State.group_setGroup .., ?_, ?_, fun j L hL hj => ?_, ?_⟩
  · change { (leftOf f r g1).ctl with pc := (leftOf f r g1).ctl.pc + BitVec.ofNat 64 f.bytes } = _
    rw [leftOf_ctl, hctl]
    rfl
  · exact (congrArg (fun g => g.regs.s) (leftOf_kept f r g1) :).trans hs
  · refine Eq.trans ?_ (hkeep j L hL (.inl hj))
    rw [Group.rdV, Group.rdV, Group.goto_regs, show (leftOf f r g1).regs.v = g1.regs.v from (congrArg (fun g => g.regs.v) (leftOf_kept f r g1) :)]
  · have hsame : g1.isEmpty false f.h.toNat = g.isEmpty false f.h.toNat := by
      rw [Group.isEmpty, Group.isEmpty, hvempty]
      rfl
    rw [← hsame]
    exact isEmpty_leftOf f r g1

/-- The lists of a migr are good. -/
theorem migBad_eq_zero (hvis : g.visitor = none) {vs ss : List Nat} (hvs : vs.length ≤ 16) (hv : ∀ r ∈ vs, r < 255) (hss : ss.length ≤ 8)
    (hs : ∀ r ∈ ss, r < 128) (htok : f.h.toNat ∉ vs) : migBad f g vs ss = 0 := by
  have hv' : (decide (16 < vs.length) || vs.any (254 < ·)) = false := by
    rw [decide_eq_false (by omega), Bool.false_or, List.any_eq_false]
    exact fun r hr => by simpa using Nat.le_of_lt_succ (hv r hr)
  have hs' : (decide (8 < ss.length) || ss.any (127 < ·)) = false := by
    rw [decide_eq_false (by omega), Bool.false_or, List.any_eq_false]
    exact fun r hr => by simpa using Nat.le_of_lt_succ (hs r hr)
  rw [migBad, if_neg (Bool.eq_false_iff.mp hv'), if_neg (Bool.eq_false_iff.mp hs'), hvis]
  simp [htok]

/-- What the statement says of a migr whose lanes `l` have been found. -/
def Migrates (s t : State) (g : Group) (f : Fields) (l : List (Nat × List Piece)) : Prop :=
  ∃ cs g', t.mem = s.mem ∧ t.conts = s.conts ++ cs ∧ t.group s.own.cur = some g' ∧ g'.ctl.pc = nextPc g f ∧
    g'.ctl.livem = g.ctl.livem ∧ g'.regs.s = g.regs.s ∧ (∀ r L, L < 32 → r ≠ f.h.toNat → g'.rdV r L = g.rdV r L) ∧
    (∀ L, L < 32 → (g'.ctl.exm.getLsbD L = true ↔ g.ctl.exm.getLsbD L = true ∧ ∀ x ∈ l, x.1 = L → s.ownerAt g x.2 = some g.owner)) ∧
    (∀ L, L < 32 → ((∃ c ∈ cs, c.lanes.getLsbD L = true) ↔ ∃ x ∈ l, x.1 = L ∧ ∃ o, s.ownerAt g x.2 = some o ∧ o ≠ g.owner)) ∧
    (∀ c ∈ cs, c.origin = s.own.cur ∧ c.token = f.h.toNat ∧ c.pc = nextPc g f ∧ c.owner ≠ g.owner) ∧
    (cs ≠ [] → g'.isEmpty false f.h.toNat = true) ∧ (cs = [] → g'.isEmpty false f.h.toNat = g.isEmpty false f.h.toNat)

/-- The lanes that are gone are those that have another owner, or none. -/
theorem SplitOf.getLsbD_gone {l : List (Nat × List Piece)} {r : List (Nat × Word) × Word} (h : SplitOf s g l r) {L : Nat} (hL : L < 32) :
    (awayOf r ||| r.2).getLsbD L = true ↔ ∃ x ∈ l, x.1 = L ∧ s.ownerAt g x.2 ≠ some g.owner := by
  rw [BitVec.getLsbD_or, Bool.or_eq_true, h.refused L hL, awayOf, getLsbD_union]
  constructor
  · rintro ((h0 | ⟨p, hp, hbit⟩) | ⟨x, hx, hxL, ho⟩)
    · exact absurd (h0.symm.trans BitVec.getLsbD_zero) Bool.true_eq_false.mp
    · obtain ⟨hne, -, hfrom⟩ := h.sent p hp
      obtain ⟨x, hx, hxL, ho⟩ := hfrom L hL hbit
      exact ⟨x, hx, hxL, fun he => hne (Option.some.inj (ho.symm.trans he))⟩
    · exact ⟨x, hx, hxL, fun he => by rw [ho] at he; cases he⟩
  · rintro ⟨x, hx, rfl, hne⟩
    cases ho : s.ownerAt g x.2 with
    | none => exact .inr ⟨x, hx, rfl, ho⟩
    | some o =>
      obtain ⟨w, hw, hbit⟩ := h.mem_sent hx ho fun he => hne (he ▸ ho)
      exact .inl (.inr ⟨_, hw, hbit⟩)

theorem SplitOf.awayOf_eq_zero {l : List (Nat × List Piece)} {r : List (Nat × Word) × Word} (h : SplitOf s g l r) : awayOf r = 0 ↔ r.1 = [] := by
  constructor
  · intro h0
    by_contra hne
    obtain ⟨p, hp⟩ := List.exists_mem_of_ne_nil _ hne
    obtain ⟨-, hp0, -⟩ := h.sent p hp
    refine hp0 (BitVec.eq_of_getLsbD_eq fun L hL => ?_)
    rw [BitVec.getLsbD_zero, Bool.eq_false_iff]
    intro hbit
    have hin : (awayOf r).getLsbD L = true := (getLsbD_union _ _ _).mpr (.inr ⟨p, hp, hbit⟩)
    rw [h0] at hin
    exact Bool.false_ne_true (BitVec.getLsbD_zero.symm.trans hin)
  · intro h0
    rw [awayOf, h0]
    rfl

theorem migrates_of_split (hg : s.group s.own.cur = some g) {u : State} (hu : HomesOnly s u) {l : List (Nat × List Piece)}
    {r : List (Nat × Word) × Word} (hr : SplitOf s g l r) (vs ss : List Nat) (htok : f.h.toNat < 255) :
    Migrates s (tokened (contsTo u (u.unclean g.block) g f s.own.cur f.h.toNat vs ss r.1) s.own.cur f r) g f l := by
  obtain ⟨cs, hgroups, hmem, hconts, hmade, hall⟩ := contsTo_sent u (u.unclean g.block) g f s.own.cur f.h.toNat vs ss r.1
  have hunclean : (u.unclean g.block).groups = u.groups ∧ (u.unclean g.block).mem = u.mem ∧ (u.unclean g.block).conts = u.conts := by
    unfold State.unclean State.modBlock
    split <;> exact ⟨rfl, rfl, rfl⟩
  obtain ⟨hugroups, humem, huconts⟩ := hunclean
  obtain ⟨g', hmem', hconts', hnow, hctl, hs, hv, hempty⟩ := tokened_leaves hg (hgroups.trans (hugroups.trans (homesOnly_groups hu))) f r
  have hnil : cs = [] ↔ awayOf r = 0 := by
    rw [hr.awayOf_eq_zero]
    constructor
    · rintro rfl
      by_contra hne
      obtain ⟨p, hp⟩ := List.exists_mem_of_ne_nil _ hne
      obtain ⟨c, hc, -⟩ := hall p hp
      exact List.not_mem_nil hc
    · intro h0
      by_contra hne
      obtain ⟨c, hc⟩ := List.exists_mem_of_ne_nil _ hne
      obtain ⟨-, -, -, hin⟩ := hmade c hc
      rw [h0] at hin
      exact List.not_mem_nil hin
  refine ⟨cs, g', (hmem'.trans hmem).trans (humem.trans (homesOnly_mem hu)), ?conts, hnow, by rw [hctl], by rw [hctl], hs, hv, fun L hL => ?active,
    fun L hL => ?sent, fun c hc => ?made, fun hne => ?empty, fun h0 => ?full⟩
  case conts => exact hconts'.trans (hconts.trans (congrArg (· ++ cs) (huconts.trans (congrArg State.conts hu.rest :))))
  case active =>
    have hgone := hr.getLsbD_gone hL
    rw [hctl]
    dsimp only
    rw [BitVec.getLsbD_and, BitVec.getLsbD_not, decide_eq_true hL, Bool.true_and, Bool.and_eq_true, Bool.not_eq_true', Bool.eq_false_iff, ne_eq, hgone]
    exact and_congr_right fun _ => ⟨fun hno x hx hxL => by_contra fun hne => hno ⟨x, hx, hxL, hne⟩, fun hyes ⟨x, hx, hxL, hne⟩ => hne (hyes x hx hxL)⟩
  case sent =>
    constructor
    · rintro ⟨c, hc, hbit⟩
      obtain ⟨-, -, -, hin⟩ := hmade c hc
      obtain ⟨hne, -, hfrom⟩ := hr.sent _ hin
      obtain ⟨x, hx, hxL, ho⟩ := hfrom L hL hbit
      exact ⟨x, hx, hxL, _, ho, hne⟩
    · rintro ⟨x, hx, rfl, o, ho, hne⟩
      obtain ⟨w, hw, hbit⟩ := hr.mem_sent hx ho hne
      obtain ⟨c, hc, hlanes⟩ := hall _ hw
      exact ⟨c, hc, hlanes ▸ hbit⟩
  case made =>
    obtain ⟨h1, h2, h3, hin⟩ := hmade c hc
    exact ⟨h1, h2, h3, (hr.sent _ hin).1⟩
  case empty =>
    rw [hempty, decide_eq_true (mt hnil.mpr hne), decide_eq_true (Nat.ne_of_lt htok)]
    rfl
  case full =>
    rw [hempty, decide_eq_false (not_not_intro (hnil.mp h0))]
    rfl

theorem migr_spec {l : List (Nat × List Piece)} {vs ss : List Nat} (h : Ready (.migr f) s g) (hhold : s.holding g.block = false)
    (hvis : g.visitor = none) (hvs : vs = listedRegs (f.xmod.toNat % 256) (s.readS g f.c))
    (hss : ss = listedRegs (4 * (f.xmod.toNat / 256)) (s.readS g f.e)) (hvlen : vs.length ≤ 16)
    (hv : ∀ r ∈ vs, r < 255 ∧ s.owns g false r = true ∧ g.isEmpty false r = false ∧ ∀ k ∈ g.regs.vbad, k / 32 ≠ r) (hslen : ss.length ≤ 8)
    (hs : ∀ r ∈ ss, r < 128 ∧ s.owns g true r = true ∧ g.isEmpty true r = false ∧ r ∉ g.regs.sbad) (hnot : f.h.toNat ∉ vs) (htok : f.h.toNat < 255)
    (hcheck : s.check g {} 1 ((lanesOf g.ctl.exm).map (fun L => (L, BitVec.ofInt 64 ((s.readSP g f.a).toInt +
      (s.readV g f.b.toNat L).toInt * 2 ^ f.mf 2 1)))) = .ok l) (hrel : s.unreleased s.own.cur s.own.ids 3 = false) :
    ∃ t, exec (.migr f) s = .next t ∧ Migrates s t g f l := by
  simp only [← migAddr_eq] at hcheck
  have hu := lookUps_homesOnly s g ((lanesOf g.ctl.exm).map (migAddr s g f))
  have hlanes : ∀ x ∈ l, x.1 < 32 := fun x hx => (mem_lanesOf.mp (lane_of_check hcheck x hx)).1
  have hsplit : (s.lookUps g ((lanesOf g.ctl.exm).map (migAddr s g f))).migSplit g l = s.migSplit g l := by
    rw [State.migSplit, State.migSplit]
    simp only [ownerAt_of_homesOnly hu]
  have hclean : (vs.any (fun r => g.regs.vbad.any (fun k => k / 32 = r)) || ss.any g.regs.sbad.contains) = false := by
    rw [Bool.or_eq_false_iff, List.any_eq_false, List.any_eq_false]
    refine ⟨fun r hr => ?_, fun r hr => ?_⟩
    · simpa using (hv r hr).2.2.2
    · simpa using (hs r hr).2.2.2
  refine ⟨_, migr_eq h hvis hvs hss (migBad_eq_zero hvis hvlen (fun r hr => (hv r hr).1) hslen (fun r hr => (hs r hr).1) hnot) ?_ ?_ ?_ ?_ hclean
    hcheck hhold hrel rfl, ?_⟩
  · exact List.find?_eq_none.mpr fun r hr => by simp [(hv r hr).2.1]
  · exact List.find?_eq_none.mpr fun r hr => by simp [(hs r hr).2.1]
  · exact List.find?_eq_none.mpr fun r hr => by simp [(hv r hr).2.2.1]
  · exact List.find?_eq_none.mpr fun r hr => by simp [(hs r hr).2.2.1]
  · rw [hsplit]
    exact migrates_of_split h.1 hu (splitOf_migSplit s g hlanes) vs ss htok

end migr

/-- Settles the part of O54 on instructions. -/
theorem migrationInstructions : MigrationInstructions := by
  intro f s g hhold
  refine ⟨fun l vs ss h hvis hvs hss hvlen hv hslen hs hnot htok hcheck hrel => ?_, fun h => ⟨fun hvis => mret_advances h hvis,
    fun v hvis hrel => mret_ends h hhold hvis hrel⟩, fun h hvis => ⟨fun h3 h2 => ?_, fun L hL h3 hlow => ?_⟩, fun h hd => mtest_writes h hd,
    fun h => mowner_spec h⟩
  · obtain ⟨t, hexec, cs, g', hspec⟩ := migr_spec h hhold hvis hvs hss hvlen hv hslen hs hnot htok hcheck hrel
    exact ⟨t, cs, g', hexec, hspec⟩
  · obtain ⟨t, hexec, hwrite⟩ := mjoin_rejoins h hvis h3 h2
    exact ⟨t, _, hexec, hwrite, fun L hL => getLsbD_rejoined g _ hL⟩
  · exact ⟨_, mjoin_traps h hvis hL h3 hlow, fun M hM => (getLsbD_maskOf_iff _ hM).trans decide_eq_true_iff⟩

end Sys2Proof.Proofs
end

section
/-! Continuations on their way, visitors, and returns (R265 to R271, R376). -/

namespace Sys2Proof.Proofs

open Sys2Proof Sys2Proof.Machine Sys2Proof.Claims

/-! ### Arrivals and refusals -/

theorem refuseCont_spec (s : State) (c : Cont) (reason : Nat) : ∃ r, (s.refuseCont c reason).rets = s.rets ++ [r] ∧
    (∀ d ∈ (s.refuseCont c reason).conts, d.id ≠ c.id) ∧ r.code = 2 ∧ r.reason = reason ∧ r.lanes = c.lanes ∧ r.origin = c.origin ∧ r.v = c.v :=
  ⟨_, rfl, fun _ hd => of_decide_eq_true (List.mem_filter.mp hd).2, rfl, rfl, rfl, rfl, rfl⟩

theorem continuationArrival_spec {s : State} {c : Cont} (hfind : s.conts.find? (fun d => d.id = c.id && d.arrived.isNone) = some c) :
    ((s.node c.owner).vopen.getLsbD (s.tlevel c.ctx) = true → ∃ t, exec (.continuationArrival c.id) s = .next t ∧ t.rets = s.rets ∧
      t.groups = s.groups ∧ ∃ d ∈ t.conts, d.id = c.id ∧ d.arrived = some s.clock.toNat) ∧
    ((s.node c.owner).vopen.getLsbD (s.tlevel c.ctx) = false → ∃ t r, exec (.continuationArrival c.id) s = .next t ∧ t.rets = s.rets ++ [r] ∧
      (∀ d ∈ t.conts, d.id ≠ c.id) ∧ r.code = 2 ∧ r.reason = 3 ∧ r.lanes = c.lanes ∧ r.origin = c.origin ∧ r.v = c.v) := by
  have hexec : exec (.continuationArrival c.id) s = if !(s.node c.owner).vopen.getLsbD (s.tlevel c.ctx) then .next (s.refuseCont c 3)
      else .next { s with conts := updWhere s.conts (fun d => d.id = c.id) (fun d => { d with arrived := some s.clock.toNat }) } := by
    change execContinuationArrival c.id s = _
    rw [execContinuationArrival, hfind]
  refine ⟨fun hopen => ⟨_, hexec.trans (if_neg (by rw [hopen]; exact Bool.false_ne_true)), rfl, rfl, ?_⟩, fun hclosed => ?_⟩
  · exact ⟨_, mem_updWhere (List.mem_of_find?_eq_some hfind) (decide_eq_true rfl), rfl, rfl⟩
  · obtain ⟨r, hr⟩ := refuseCont_spec s c 3
    exact ⟨_, r, hexec.trans (if_pos (by rw [hclosed]; rfl)), hr⟩

theorem migrationRefusal_spec {s : State} {c : Cont} {a : Nat} (hfind : s.conts.find? (fun d => d.id = c.id) = some c) (harr : c.arrived = some a)
    (hlate : a + 4096 ≤ s.clock.toNat) (hfull : s.freeSlot c.owner = none) : ∃ t r, exec (.migrationRefusal c.id) s = .next t ∧
      t.rets = s.rets ++ [r] ∧ (∀ d ∈ t.conts, d.id ≠ c.id) ∧ r.code = 2 ∧ r.reason = 1 ∧ r.lanes = c.lanes := by
  obtain ⟨r, hrets, hconts, hcode, hreason, hlanes, -⟩ := refuseCont_spec s c 1
  refine ⟨s.refuseCont c 1, r, ?_, hrets, hconts, hcode, hreason, hlanes⟩
  change execMigrationRefusal c.id s = _
  rw [execMigrationRefusal, hfind]
  dsimp only
  rw [harr, hfull]
  exact if_pos (by rw [decide_eq_true hlate]; rfl)

/-- A slot in which returning registers wait is not free. -/
theorem freeSlot_of_waiting {s : State} {r : Ret} (hr : r ∈ s.rets) {owner slot : Nat} (hslot : r.slot = some (owner, slot)) :
    s.freeSlot owner ≠ some slot := by
  intro h
  have hfree := List.find?_some h
  rw [Bool.and_eq_true, Bool.not_eq_true', List.any_eq_false] at hfree
  exact hfree.1 r hr (decide_eq_true hslot)

/-! ### A visitor's start -/

theorem fillSlot_kept (s : State) (slot : Nat) (c : Cont) : { s.fillSlot slot c with mem := s.mem } = s := by
  unfold State.fillSlot
  split <;> rfl

/-- The state once the visitor stands in its slot: its grid counts it. -/
def inSlot (s : State) (c : Cont) (slot : Nat) : State :=
  let t := { s with conts := s.conts.filter (fun d => d.id ≠ c.id) }.fillSlot slot c
  match t.block c.block with
  | none => t
  | some b => t.modGrid b.grid (fun x => { x with gone := t.own.ids :: x.gone })

theorem inSlot_kept (s : State) (c : Cont) (slot : Nat) :
    (inSlot s c slot).own = s.own ∧ (inSlot s c slot).conts = s.conts.filter (fun d => d.id ≠ c.id) ∧
      (inSlot s c slot).mem = ({ s with conts := s.conts.filter (fun d => d.id ≠ c.id) }.fillSlot slot c).mem := by
  have hfill := fillSlot_kept { s with conts := s.conts.filter (fun d => d.id ≠ c.id) } slot c
  have hown := congrArg State.own hfill
  have hconts := congrArg State.conts hfill
  unfold inSlot
  dsimp only
  split
  · exact ⟨hown, hconts, rfl⟩
  · exact ⟨(State.modGrid_own ..).trans hown, (State.modGrid_conts ..).trans hconts, State.modGrid_mem ..⟩

/-- The visitor stands among the groups. -/
def withVisitor (s : State) (owner : Nat) (c : Cont) (slot : Nat) : State :=
  ((inSlot s c slot).setGroup (inSlot s c slot).own.ids (visitorOf c slot s.own.seq (s.activeIn owner (slotPart owner slot) < 8))).newId.newSeq

theorem withVisitor_kept (s : State) (owner : Nat) (c : Cont) (slot : Nat) :
    (withVisitor s owner c slot).mem = (inSlot s c slot).mem ∧ (withVisitor s owner c slot).conts = (inSlot s c slot).conts ∧
      (withVisitor s owner c slot).group s.own.ids = some (visitorOf c slot s.own.seq (s.activeIn owner (slotPart owner slot) < 8)) := by
  have hgroup : (withVisitor s owner c slot).group (inSlot s c slot).own.ids =
      some (visitorOf c slot s.own.seq (s.activeIn owner (slotPart owner slot) < 8)) := State.group_setGroup ..
  rw [(inSlot_kept s c slot).1] at hgroup
  exact ⟨rfl, rfl, hgroup⟩

theorem visitorStart_eq {s : State} {owner slot : Nat} {c : Cont} (hfirst : s.firstCont owner = some c) (hslot : s.freeSlot owner = some slot) :
    exec (.visitorStart owner) s = .next (((withVisitor s owner c slot).acquired owner 3).rouse owner 16) := by
  change execVisitorStart owner s = _
  rw [execVisitorStart, hfirst, hslot]
  rfl

theorem acquired_kept (s : State) (n scope : Nat) :
    (s.acquired n scope).groups = s.groups ∧ (s.acquired n scope).mem = s.mem ∧ (s.acquired n scope).conts = s.conts ∧
      (s.acquired n scope).rets = s.rets := by
  unfold State.acquired
  split <;> exact ⟨rfl, rfl, rfl, rfl⟩

theorem visitorStart_spec {s : State} {owner slot : Nat} {c : Cont} (hfirst : s.firstCont owner = some c) (hslot : s.freeSlot owner = some slot) :
    ∃ t g, exec (.visitorStart owner) s = .next t ∧ (192 ≤ c.owner → t.mem = s.mem) ∧
      (c.owner < 192 → Mem.bytes t.mem (sliceKey c.owner (0x1C0000 + 4096 * slot)) (contImage s.own.fresh c).length = contImage s.own.fresh c ∧
        ∀ k, (k < sliceKey c.owner (0x1C0000 + 4096 * slot) ∨
          sliceKey c.owner (0x1C0000 + 4096 * slot) + (contImage s.own.fresh c).length ≤ k) → Mem.rd t.mem k = Mem.rd s.mem k) ∧
      t.group s.own.ids = some g ∧ g.owner = c.owner ∧
      g.ctl = { pc := c.pc, exm := c.lanes, livem := c.lanes, stack := [], guards := 0, supAt := none } ∧ g.regs.v = c.v ∧ g.ctx = c.ctx ∧
      (∃ v, g.visitor = some v ∧ v.origin = c.origin ∧ v.token = c.token ∧ v.slot = slot) ∧ ∀ d ∈ t.conts, d.id ≠ c.id := by
  obtain ⟨-, hconts, hmem⟩ := inSlot_kept s c slot
  obtain ⟨hvmem, hvconts, hvgroup⟩ := withVisitor_kept s owner c slot
  obtain ⟨hagroups, hamem, haconts, -⟩ := acquired_kept (withVisitor s owner c slot) owner 3
  have htmem : (((withVisitor s owner c slot).acquired owner 3).rouse owner 16).mem =
      ({ s with conts := s.conts.filter (fun d => d.id ≠ c.id) }.fillSlot slot c).mem :=
    (State.rouse_mem ..).trans (hamem.trans (hvmem.trans hmem))
  refine ⟨_, _, visitorStart_eq hfirst hslot, fun hbig => ?_, fun hsmall => ?_,
    (congrArg (Sparse.find · s.own.ids) ((State.rouse_groups ..).trans hagroups)).trans hvgroup, rfl, rfl, rfl, rfl, ⟨_, rfl, rfl, rfl, rfl⟩, fun d hd => ?_⟩
  · rw [htmem, State.fillSlot, if_pos hbig]
  · rw [htmem, State.fillSlot, if_neg (Nat.not_le.mpr hsmall)]
    exact ⟨bytes_wrBytes .., fun k hk => Mem.rd_wrBytes_outside _ _ _ hk⟩
  · rw [State.rouse_conts, haconts, hvconts, hconts] at hd
    exact of_decide_eq_true (List.mem_filter.mp hd).2

/-! ### A return's end -/

/-- Every return of `t` is one of `s`. -/
def NoNewRets (s t : State) : Prop := ∀ r ∈ t.rets, r ∈ s.rets

theorem NoNewRets.refl (s : State) : NoNewRets s s := fun _ h => h

theorem NoNewRets.trans {s t u : State} (h : NoNewRets s t) (k : NoNewRets t u) : NoNewRets s u := fun r hr => h r (k r hr)

theorem noNewRets_of_eq {s t : State} (h : t.rets = s.rets) : NoNewRets s t := fun _ hr => h ▸ hr

theorem WroteHome.rets {s t : State} (h : WroteHome s t) : t.rets = s.rets := (congrArg State.rets h.writes.rest :)

theorem writeV_rets (s : State) (gid r : Nat) (vals : List (Nat × Word)) : (s.writeV gid r vals).rets = s.rets := by
  unfold State.writeV
  split
  · rfl
  · rename_i g _
    split
    · rfl
    · have hlog : (if g.visitor.isSome then s else s.logLine g.block gid (.vreg gid r) (laneList.map (g.rdV r))).rets = s.rets := by
        split
        · rfl
        · exact State.modBlock_rets ..
      dsimp only
      split
      · exact (State.modGroup_rets ..).trans hlog
      · exact (State.modGroup_rets ..).trans hlog

theorem unpark_rets (s : State) (gid : Nat) (why : Word) : (s.unpark gid why).rets = s.rets := by
  unfold State.unpark
  split
  · rfl
  · dsimp only
    split
    · rfl
    · exact (State.rouse_rets ..).trans rfl

theorem deliverV_rets (s : State) (gid r : Nat) (vals : List (Nat × Word)) (full : Bool) (why : Word) : (s.deliverV gid r vals full why).rets = s.rets := by
  unfold State.deliverV
  split
  · rfl
  · split
    · exact WroteHome.rets (imageV_wroteHome ..)
    · have hfull := (State.modGroup_rets (s.writeV gid r vals) gid fun g => g.markV r false).trans (writeV_rets s gid r vals)
      dsimp only
      split
      · split
        · exact (unpark_rets ..).trans hfull
        · exact hfull
      · exact writeV_rets ..

theorem endBlock_rets (s : State) (k : Nat) (cause : Option Nat) : NoNewRets s (s.endBlock k cause) := by
  unfold State.endBlock
  split
  · exact .refl s
  · extract_lets gone s1 s2 _ _ s3
    have h2 : s2.rets = s.rets := by
      unfold s2
      split <;> rfl
    have h3 : NoNewRets s s3 := fun r hr => h2 ▸ (List.mem_filter.mp hr).1
    exact h3.trans (noNewRets_of_eq ((congrArg State.rets (reap_swept _).rest :).trans (State.modGrid_rets ..)))

theorem tryRetire_rets (s : State) (gid : Nat) : NoNewRets s (s.tryRetire gid) := by
  unfold State.tryRetire
  split
  · exact .refl s
  · split
    · exact .refl s
    · extract_lets _ _ s1
      split
      · exact noNewRets_of_eq rfl
      · extract_lets slots s2 s3 s4
        have h3 : s3.rets = s.rets := by
          unfold s3
          split
          · exact (State.modBlock_rets ..).trans rfl
          · rfl
        have h4 : s4.rets = s.rets := by
          unfold s4
          split
          · exact h3
          · exact (State.modGrid_rets ..).trans h3
        split
        · exact (noNewRets_of_eq h4).trans (endBlock_rets s4 _ none)
        · exact noNewRets_of_eq h4

/-- The registers that a return lists, in the lanes that it brings. -/
def returned (s : State) (r : Ret) : State :=
  ((List.range 255).filter (fun i => r.vlist.getLsbD i)).foldl (fun s i => s.deliverV r.origin i
    ((lanesOf r.lanes).map (fun L => (L, Sparse.get 0 r.v (32 * i + L)))) false 0) { s with rets := s.rets.filter (fun q => q.id ≠ r.id) }

/-- The trap addresses of the token's lanes with those that a return brings. -/
def notedAddr (r : Ret) (m : List (Nat × Dword)) : List (Nat × Dword) :=
  if r.code = 3 then (lanesOf r.lanes).foldl (fun m L => Sparse.put m (32 * r.token + L) r.addr) m else m

/-- The registers of a return have landed and its addresses are noted. -/
def landedRet (s : State) (r : Ret) (owner : Nat) : State :=
  ((returned s r).acquired owner 3).modGroup r.origin (fun g => { g with out := { g.out with tokAddr := notedAddr r g.out.tokAddr } })

theorem migrationReturn_eq {s : State} {r : Ret} (hfind : s.rets.find? (fun q => q.id = r.id) = some r) :
    exec (.migrationReturn r.id) s = match s.group r.origin with
      | none => .next { s with rets := s.rets.filter (fun q => q.id ≠ r.id) }
      | some g => .next (((landedRet s r g.owner).deliverV r.origin r.token ((lanesOf r.lanes).map (fun L => (L, BitVec.ofNat 32 (r.code + 256 * r.reason))))
          ((landedRet s r g.owner).awaited r.origin r.token = 0) 16).tryRetire r.origin) := by
  change execMigrationReturn r.id s = _
  rw [execMigrationReturn, hfind]
  rfl

theorem returned_rets (s : State) (r : Ret) : NoNewRets { s with rets := s.rets.filter (fun q => q.id ≠ r.id) } (returned s r) :=
  foldl_rel NoNewRets.refl NoNewRets.trans _ (fun _ _ _ => noNewRets_of_eq (deliverV_rets ..)) _

theorem landedRet_rets (s : State) (r : Ret) (owner : Nat) : NoNewRets { s with rets := s.rets.filter (fun q => q.id ≠ r.id) } (landedRet s r owner) :=
  (returned_rets s r).trans (noNewRets_of_eq ((State.modGroup_rets ..).trans (acquired_kept (returned s r) owner 3).2.2.2))

theorem not_mem_of_noNewRets {s t : State} {r : Ret} (h : NoNewRets { s with rets := s.rets.filter (fun q => q.id ≠ r.id) } t) :
    ∀ q ∈ t.rets, q.id ≠ r.id := fun q hq => of_decide_eq_true (List.mem_filter.mp (h q hq)).2

theorem landedRet_landed {s : State} {r : Ret} {g : Group} (hg : s.group r.origin = some g) (himage : s.imageOf g = none) (owner : Nat) :
    ∃ g', Landed s (landedRet s r owner) r.origin g g' := by
  have hstart : Landed s { s with rets := s.rets.filter (fun q => q.id ≠ r.id) } r.origin g g :=
    ⟨hg, fun _ _ => rfl, rfl, fun _ => rfl, stays_of_same r.origin rfl rfl⟩
  have hregs : ∃ g', Landed s (returned s r) r.origin g g' := by
    refine List.foldlRecOn (motive := fun t => ∃ g', Landed s t r.origin g g') _ _ ⟨g, hstart⟩ fun t ht i _ => ?_
    obtain ⟨g1, h1⟩ := ht
    obtain ⟨g2, h2, -⟩ := deliverV_part h1.now (h1.stays.resident (resident_of hg himage)) i (ls := lanesOf r.lanes) lanesOf_lt
      (fun L => Sparse.get 0 r.v (32 * i + L)) 0
    exact ⟨g2, h1.trans h2.toLanded⟩
  obtain ⟨g1, h1⟩ := hregs
  have h2 := h1.trans (acquired_touched h1.now owner 3).toLanded
  exact ⟨_, h2.trans (landed_modGroup h2.now rfl (fun _ => rfl) (fun _ => rfl) fun _ => rfl)⟩

theorem migrationReturn_spec {s : State} {r : Ret} (hfind : s.rets.find? (fun q => q.id = r.id) = some r) :
    ∃ t, exec (.migrationReturn r.id) s = .next t ∧ (∀ q ∈ t.rets, q.id ≠ r.id) ∧
      (∀ g, s.group r.origin = some g → s.imageOf g = none → g.visitor = none → g.ctl.livem ≠ 0 → r.token < 255 → g.busy r.token = false →
        r.vlist.getLsbD r.token = false → ∃ g', t.group r.origin = some g' ∧ g'.ctl = g.ctl ∧
          ∀ L, L < 32 → r.lanes.getLsbD L = true → g'.rdV r.token L = BitVec.ofNat 32 (r.code + 256 * r.reason)) := by
  have hexec := migrationReturn_eq hfind
  cases hg : s.group r.origin with
  | none =>
    rw [hg] at hexec
    exact ⟨_, hexec, not_mem_of_noNewRets (.refl _), fun _ h => by cases h⟩
  | some g =>
    rw [hg] at hexec
    refine ⟨_, hexec, not_mem_of_noNewRets ((landedRet_rets s r g.owner).trans ((noNewRets_of_eq (deliverV_rets ..)).trans (tryRetire_rets _ _))), ?_⟩
    intro g0 hg0 himage _ hlive htok hbusy _
    obtain rfl := Option.some.inj hg0
    obtain ⟨g1, h1⟩ := landedRet_landed hg himage g.owner
    have hres := h1.stays.resident (resident_of hg himage)
    have h255 : r.token ≠ 255 := Nat.ne_of_lt htok
    have hbusy1 : g1.busy r.token = false := (h1.busy _).trans hbusy
    have hword : ∃ g2, Landed (landedRet s r g.owner) ((landedRet s r g.owner).deliverV r.origin r.token
        ((lanesOf r.lanes).map (fun L => (L, BitVec.ofNat 32 (r.code + 256 * r.reason)))) ((landedRet s r g.owner).awaited r.origin r.token = 0) 16)
        r.origin g1 g2 ∧ ∀ L ∈ lanesOf r.lanes, g2.rdV r.token L = BitVec.ofNat 32 (r.code + 256 * r.reason) := by
      cases decide ((landedRet s r g.owner).awaited r.origin r.token = 0) with
      | false =>
        obtain ⟨g2, h2, hval⟩ := deliverV_part h1.now hres r.token (ls := lanesOf r.lanes) lanesOf_lt
          (fun _ => BitVec.ofNat 32 (r.code + 256 * r.reason)) 16
        exact ⟨g2, h2.toLanded, fun L hL => hval L hL h255 hbusy1⟩
      | true =>
        obtain ⟨g2, h2, -, -, -, -, hval⟩ := deliverV_landed h1.now (hres g1 h1.now) r.token (ls := lanesOf r.lanes) lanesOf_lt
          (fun _ => BitVec.ofNat 32 (r.code + 256 * r.reason)) 16
        exact ⟨g2, h2, fun L hL => hval L hL h255 hbusy1⟩
    obtain ⟨g2, h2, hval⟩ := hword
    have hctl : g2.ctl = g.ctl := h2.ctl.trans h1.ctl
    refine ⟨g2, ?_, hctl, fun L hL hlane => hval L (mem_lanesOf.mpr ⟨hL, hlane⟩)⟩
    rw [tryRetire_of_live h2.now (by rw [hctl]; exact hlive)]
    exact h2.now

/-- Settles the part of O54 on events. -/
theorem migrationEvents : MigrationEvents :=
  ⟨fun _ _ h => continuationArrival_spec h, fun _ _ _ _ _ hfirst hslot _ => visitorStart_spec hfirst hslot,
    fun _ _ _ hfind harr hlate hfull => migrationRefusal_spec hfind harr hlate hfull, fun _ _ _ _ hr hslot => freeSlot_of_waiting hr hslot,
    fun _ _ h => migrationReturn_spec h⟩

/-- Settles O54: the lanes of a migr are split by owner, and each event of a continuation is followed through its step. -/
theorem migration : Obligations.Migration := ⟨migrationInstructions, migrationEvents⟩

end Sys2Proof.Proofs
end

section
/-! What runs of bytes do to memory, sector by sector (R335, R336). -/

namespace Sys2Proof.Proofs

open Sys2Proof Sys2Proof.Machine Sys2Proof.Claims

/-! ### The pieces of a run -/

/-- What is so of a run's start, and stays so from piece to piece, is so at its end. The pieces come in order without a gap; each lies in one sector,
from its start, but for the first, to its end, but for the last. -/
theorem foldl_unitPieces {σ : Type} (f : σ → Nat × Nat → σ) (P : Nat → σ → Prop) (key n : Nat) {s : σ} (h0 : P 0 s)
    (hstep : ∀ d w s, P d s → 0 < w → d + w ≤ n → (key + d) % 32 + w ≤ 32 → (d = 0 ∨ (key + d) % 32 = 0) →
      (d + w = n ∨ (key + d + w) % 32 = 0) → P (d + w) (f s (d, w))) : P n ((unitPieces 32 key n).foldl f s) := by
  have hprefix (m : Nat) : P (max key (min (key + n) ((key / 32 + m) * 32)) - key) (((List.range m).filterMap fun i =>
      if max key ((key / 32 + i) * 32) < min (key + n) ((key / 32 + i + 1) * 32)
        then some (max key ((key / 32 + i) * 32) - key, min (key + n) ((key / 32 + i + 1) * 32) - max key ((key / 32 + i) * 32)) else none).foldl f s) := by
    induction m with
    | zero =>
      rw [show max key (min (key + n) ((key / 32 + 0) * 32)) - key = 0 by omega]
      exact h0
    | succ m ih =>
      rw [List.range_succ, List.filterMap_append, List.foldl_append]
      by_cases hlt : max key ((key / 32 + m) * 32) < min (key + n) ((key / 32 + m + 1) * 32)
      · rw [List.filterMap_cons, if_pos hlt, List.filterMap_nil, List.foldl_cons, List.foldl_nil]
        rw [show max key (min (key + n) ((key / 32 + m) * 32)) - key = max key ((key / 32 + m) * 32) - key by omega] at ih
        have := hstep _ (min (key + n) ((key / 32 + m + 1) * 32) - max key ((key / 32 + m) * 32)) _ ih (by omega) (by omega) (by omega) (by omega) (by omega)
        rwa [show max key ((key / 32 + m) * 32) - key + (min (key + n) ((key / 32 + m + 1) * 32) - max key ((key / 32 + m) * 32)) =
          max key (min (key + n) ((key / 32 + (m + 1)) * 32)) - key by omega] at this
      · rw [List.filterMap_cons, if_neg hlt, List.filterMap_nil, List.foldl_nil]
        rwa [show max key (min (key + n) ((key / 32 + (m + 1)) * 32)) - key = max key (min (key + n) ((key / 32 + m) * 32)) - key by omega]
  have hall := hprefix (n / 32 + 2)
  rwa [show max key (min (key + n) ((key / 32 + (n / 32 + 2)) * 32)) - key = n by omega] at hall

/-! ### Writes -/

/-- A write within one sector changes no byte of another, nor any byte of a slice beside its own. -/
theorem writeAt_outside {s : State} {il key : Nat} {bs : List Byte} (rel : Option (Nat × Nat)) {j : Nat}
    (hj : 2 ^ 39 ≤ j ∨ j / 32 ≠ key / 32) (hout : j < key ∨ key + bs.length ≤ j) : Mem.rd (s.writeAt il key bs rel).1.mem j = Mem.rd s.mem j := by
  unfold State.writeAt
  split
  · rw [land_mem, mended_mem, Mem.rd_wrBytes_outside _ _ _ hout]
  · next hkey =>
    have hsector : j < key / 32 * 32 ∨ key / 32 * 32 + 32 ≤ j := by omega
    dsimp only
    split
    · rw [land_mem, Mem.rd_wrBytes_outside _ _ _ hout]
      exact congrArg (Mem.rd · j) (reached_mem s il key)
    · split
      · rw [land_mem, Mem.rd_wrBytes_outside _ _ _ hout, reached_mem]
      · rw [land_mem, Mem.rd_wrBytes_outside _ _ _ hout, (countFixed_readHome ..).mem_eq, reached_mem]
      · rw [land_mem, Mem.rd_wrBytes_outside _ _ _ hout]
        dsimp only
        rw [Mem.rd_wrBytes_outside _ _ _ (by rw [List.length_map, List.length_range]; exact hsector), reached_mem]
      · exact congrArg (Mem.rd · j) (((foundBad_readHome ..).trans (count_readHome ..)).mem_eq.trans (reached_mem s il key))

/-- A write to a slice, or of a whole sector, puts its bytes. -/
theorem writeAt_inside {s : State} {il key : Nat} {bs : List Byte} (rel : Option (Nat × Nat)) (hexact : 2 ^ 39 ≤ key ∨ bs.length = 32) {i : Nat}
    (hi : i < bs.length) : Mem.rd (s.writeAt il key bs rel).1.mem (key + i) = bs[i] := by
  unfold State.writeAt
  split
  · rw [land_mem, Mem.rd_wrBytes_inside _ _ _ hi]
  · next hkey =>
    dsimp only
    rw [if_pos (hexact.resolve_left hkey), land_mem, Mem.rd_wrBytes_inside _ _ _ hi]

/-- A byte that a write of `n` bytes at `key` puts whatever the symbol code finds: of a slice, or of a sector that is written whole. -/
def Whole (key n j : Nat) : Prop := 2 ^ 39 ≤ j ∨ (key ≤ j / 32 * 32 ∧ j / 32 * 32 + 32 ≤ key + n)

/-- A byte that a write of `n` bytes at `key` leaves whatever the symbol code finds: in no sector of far memory that the write reaches. -/
def Beside (key n j : Nat) : Prop := (j < key ∨ key + n ≤ j) ∧ (2 ^ 39 ≤ j ∨ j < key / 32 * 32 ∨ (key + n + 31) / 32 * 32 ≤ j)

theorem writeRun_spec (s : State) (il key : Nat) (bs : List Byte) :
    (∀ j, Beside key bs.length j → Mem.rd (s.writeRun il key bs).mem j = Mem.rd s.mem j) ∧
      ∀ i, i < bs.length → Whole key bs.length (key + i) → Mem.rd (s.writeRun il key bs).mem (key + i) = bs.getD i 0 := by
  refine foldl_unitPieces _ (fun d (t : State) => (∀ j, Beside key bs.length j → Mem.rd t.mem j = Mem.rd s.mem j) ∧
    ∀ i, i < d → Whole key bs.length (key + i) → Mem.rd t.mem (key + i) = bs.getD i 0) key bs.length
    ⟨fun _ _ => rfl, fun i hi => absurd hi (Nat.not_lt_zero i)⟩ ?_
  intro d w t ht hw hle hone hfirst hlast
  obtain ⟨hbeside, hwhole⟩ := ht
  have hlen : ((bs.drop d).take w).length = w := by rw [List.length_take, List.length_drop]; omega
  refine ⟨fun j hj => ?_, fun i hi hiw => ?_⟩
  · obtain ⟨hout, hsector⟩ := hj
    refine (writeAt_outside none ?_ ?_).trans (hbeside j ⟨hout, hsector⟩)
    · omega
    · rw [hlen]
      dsimp only
      omega
  · by_cases hid : i < d
    · refine (writeAt_outside none ?_ ?_).trans (hwhole i hid hiw)
      · dsimp only
        omega
      · dsimp only
        omega
    · have hexact : 2 ^ 39 ≤ key + d ∨ w = 32 := by
        unfold Whole at hiw
        omega
      obtain ⟨e, rfl⟩ := Nat.exists_eq_add_of_le (Nat.not_lt.mp hid)
      have he : e < ((bs.drop d).take w).length := by omega
      have hput := writeAt_inside (s := t) (il := il) none (key := key + d) (bs := (bs.drop d).take w) (by rwa [hlen]) he
      rw [← Nat.add_assoc]
      refine hput.trans ?_
      rw [List.getElem_take, List.getElem_drop, List.getD_eq_getElem?_getD, List.getElem?_eq_getElem (by omega)]
      rfl

theorem writeRun_beside (s : State) (il : Nat) {key : Nat} {bs : List Byte} {j : Nat} (hj : Beside key bs.length j) :
    Mem.rd (s.writeRun il key bs).mem j = Mem.rd s.mem j := (writeRun_spec s il key bs).1 j hj

theorem writeRun_whole (s : State) (il : Nat) {key : Nat} {bs : List Byte} {i : Nat} (hi : i < bs.length) (hw : Whole key bs.length (key + i)) :
    Mem.rd (s.writeRun il key bs).mem (key + i) = bs.getD i 0 := (writeRun_spec s il key bs).2 i hi hw

/-! ### Reads -/

theorem bytes_append (m : Mem) (k a b : Nat) : Mem.bytes m k (a + b) = Mem.bytes m k a ++ Mem.bytes m (k + a) b := by
  induction a generalizing k with
  | zero => rw [Nat.zero_add]; rfl
  | succ a ih => rw [Nat.add_right_comm, Mem.bytes, Mem.bytes, ih, List.cons_append, Nat.add_right_comm k 1 a, Nat.add_assoc]

theorem stored_length (s : State) (key n : Nat) : (s.stored key n).length = n := by
  unfold State.stored
  split
  · rw [List.length_map, List.length_range]
  · exact bytes_length ..

theorem readAt_length {s : State} {il key n : Nat} {bs : List Byte} (h : (s.readAt il key n).2 = some bs) : bs.length = n := by
  unfold State.readAt at h
  split at h
  · dsimp only at h
    split at h
    · cases h
    · rw [← Option.some.inj h, bytes_length]
  · dsimp only at h
    split at h
    · rw [← Option.some.inj h, stored_length]
    · rw [← Option.some.inj h, stored_length]
    · rw [← Option.some.inj h, List.length_map, List.length_range]
    · cases h

theorem readRun_length {s t : State} {il key n : Nat} {bs : List Byte} (h : s.readRun il key n = (t, some bs)) : bs.length = n := by
  have hall := foldl_unitPieces (fun (r : State × Option (List Byte)) p =>
    let (s, x) := r.1.readAt il (key + p.1) p.2
    (s, match r.2, x with | some a, some b => some (a ++ b) | _, _ => none)) (fun d r => ∀ l, r.2 = some l → l.length = d) key n (s := (s, some []))
    (fun l hl => by rw [← Option.some.inj hl]; rfl) fun d w r hr _ _ _ _ _ l hl => by
      dsimp only at hl
      split at hl
      · next a b ha hb => rw [← Option.some.inj hl, List.length_append, hr a ha, readAt_length hb]
      · cases hl
  exact hall bs (congrArg Prod.snd h)

/-- A run of a slice reads as its bytes stand, or not at all. -/
theorem readRun_slice (s : State) (il : Nat) {key : Nat} (hkey : 2 ^ 39 ≤ key) (n : Nat) :
    (s.readRun il key n).2 = none ∨ (s.readRun il key n).2 = some (Mem.bytes s.mem key n) := by
  refine foldl_unitPieces _ (fun d r => r.1 = s ∧ (r.2 = none ∨ r.2 = some (Mem.bytes s.mem key d))) key n (s := (s, some [])) ⟨rfl, .inr rfl⟩ ?_ |>.2
  intro d w r hr _ _ _ _ _
  obtain ⟨hs, hr⟩ := hr
  have hread : r.1.readAt il (key + d) w = (s, if s.wordBad (key + d) w then none else some (Mem.bytes s.mem (key + d) w)) := by
    rw [hs, State.readAt, if_pos (by omega)]
  dsimp only
  rw [hread]
  refine ⟨rfl, ?_⟩
  rcases hr with hr | hr
  · exact .inl (by rw [hr])
  · rw [hr]
    by_cases hbad : s.wordBad (key + d) w = true
    · exact .inl (by rw [if_pos hbad])
    · exact .inr (by rw [if_neg hbad, bytes_append])

theorem look_slice (s : State) {key : Nat} (hkey : 2 ^ 39 ≤ key) (n : Nat) : s.look key n = Mem.bytes s.mem key n := by
  have hfold : s.look key n = (unitPieces 32 key n).foldl (fun l p => l ++ s.peek (key + p.1) p.2) [] := by
    rw [State.look, List.flatMap_eq_foldl]
  rw [hfold]
  refine foldl_unitPieces _ (fun d l => l = Mem.bytes s.mem key d) key n rfl fun d w l hl _ _ _ _ _ => ?_
  rw [hl, bytes_append, State.peek, if_pos (by dsimp only; omega)]

end Sys2Proof.Proofs
end

section
/-! The rollback of a block (R399). -/

namespace Sys2Proof.Proofs

open Sys2Proof Sys2Proof.Machine Sys2Proof.Claims

/-! ### Words in bytes -/

/-- The bytes of some words, one after another. -/
def wordBytes (ws : List Word) : List Byte := ws.flatMap (fun w => leBytes w.toNat 4)

theorem wordBytes_length (ws : List Word) : (wordBytes ws).length = 4 * ws.length := by
  induction ws with
  | nil => rfl
  | cons w ws ih =>
    rw [wordBytes, List.flatMap_cons, List.length_append, leBytes_length, List.length_cons]
    rw [wordBytes] at ih
    omega

theorem wordBytes_getD (ws : List Word) {n i : Nat} (hi : i < 4) : (wordBytes ws).getD (4 * n + i) 0 = (leBytes (ws.getD n 0).toNat 4).getD i 0 := by
  induction ws generalizing n with
  | nil =>
    rw [show wordBytes [] = [] from rfl, List.getD_nil, List.getD_nil]
    have : i = 0 ∨ i = 1 ∨ i = 2 ∨ i = 3 := by omega
    rcases this with rfl | rfl | rfl | rfl <;> rfl
  | cons w ws ih =>
    rw [wordBytes, List.flatMap_cons]
    cases n with
    | zero => rw [List.getD_append _ _ _ _ (by rw [leBytes_length]; omega), Nat.mul_zero, Nat.zero_add]; rfl
    | succ n =>
      rw [List.getD_append_right _ _ _ _ (by rw [leBytes_length]; omega), leBytes_length, show 4 * (n + 1) + i - 4 = 4 * n + i by omega]
      exact ih

/-- Bytes of memory that are those of a list are the list. -/
theorem bytes_eq_of_rd {m : Mem} {k : Nat} {l : List Byte} (h : ∀ i, i < l.length → Mem.rd m (k + i) = l.getD i 0) : Mem.bytes m k l.length = l := by
  induction l generalizing k with
  | nil => rfl
  | cons b l ih =>
    refine List.cons_eq_cons.mpr ⟨h 0 (Nat.zero_lt_succ _), ih fun i hi => ?_⟩
    have := h (i + 1) (Nat.succ_lt_succ hi)
    rwa [show k + (i + 1) = k + 1 + i by omega] at this

/-- A number in memory whose bytes are those of the number. -/
theorem num_eq_of_rd {m : Mem} {k x n : Nat} (h : ∀ i, i < n → Mem.rd m (k + i) = (leBytes x n).getD i 0) : Mem.num m k n = x % 2 ^ (8 * n) := by
  have hbytes := bytes_eq_of_rd (m := m) (k := k) (l := leBytes x n) fun i hi => h i (by rwa [leBytes_length] at hi)
  rw [leBytes_length] at hbytes
  rw [Mem.num, hbytes, leNat_leBytes]

/-! ### What goes back -/

/-- What the groups of a block issued since its checkpoint is gone. -/
def undone (s : State) (bid : Nat) (b : Block) (sh : Shadow) : State :=
  let s := { s with
    accs := s.accs.filter (fun a => !(b.gids.contains a.gid && sh.since ≤ a.id))
    lands := s.lands.filter (fun l => !b.gids.contains l.gid)
    cmds := s.cmds.filter (fun c => c.block ≠ bid || c.run || c.id < sh.since)
    dist := { s.dist with requests := s.dist.requests.filter (fun r => !(b.gids.contains r.gid && sh.since ≤ r.id)) } }
  s.mapNodes (fun n => { n with waits := n.waits.filter (fun w => !(b.gids.contains w.gid && sh.since ≤ w.acc)) })

/-- Line images go back. -/
def relined (s : State) (log : List (Nat × LineTag × List Word)) : State :=
  log.foldl (fun s e => match e.2.1 with
    | .vreg _ _ => s
    | .line key => s.writeRun ownIl key (wordBytes e.2.2)) s

/-- The vector registers of a group whose images a shadow has. -/
def imagesOf (log : List (Nat × LineTag × List Word)) (gid : Nat) : List Nat :=
  log.filterMap (fun e => match e.2.1 with | .vreg i r => if i = gid then some r else none | .line _ => none)

/-- The groups go back to the checkpoint. -/
def regrouped (s : State) (sh : Shadow) (groups : List (Nat × Group)) : State :=
  groups.foldl (fun (s : State) p => s.setGroup p.1 (p.2.rolledBack (s.group p.1) sh.since (imagesOf sh.log p.1))) s

/-- Their stacks go back to their stack areas. -/
def restacked (s : State) (groups : List (Nat × Group)) : State := groups.foldl (fun (s : State) p => s.spill 0 p.2) s

/-- A block after its rollback. -/
def rolledBlock (b : Block) (sh : Shadow) : Block :=
  { b with live := sh.groups.map (·.1), thalt := false, uncorr := false, dhalt := false, shadow := some { sh with log := [], rolled := true } }

theorem rollBack_eq (s : State) (bid : Nat) (b : Block) (sh : Shadow) : s.rollBack bid b sh =
    ((restacked (regrouped (relined (undone s bid b sh) sh.log) sh sh.groups) sh.groups).setBlock bid (rolledBlock b sh)).count hcRollback := rfl

theorem relined_wroteHome (s : State) (log : List (Nat × LineTag × List Word)) : WroteHome s (relined s log) :=
  foldl_rel WroteHome.refl WroteHome.trans log (fun t e _ => by
    split
    · exact .refl t
    · exact writeRun_wroteHome ..) s

theorem spill_groups (s : State) (old : Nat) (g : Group) : (s.spill old g).groups = s.groups := by
  unfold State.spill
  split
  · rfl
  · exact foldl_rel (R := fun s t : State => t.groups = s.groups) (fun _ => rfl) (fun h k => k.trans h) _ (fun t i _ => by
      unfold State.writeStack
      split
      · exact (mended_wroteHome t ..).groups
      · exact (writeRun_wroteHome ..).groups) s

theorem restacked_groups (s : State) (groups : List (Nat × Group)) : (restacked s groups).groups = s.groups :=
  foldl_rel (R := fun s t : State => t.groups = s.groups) (fun _ => rfl) (fun h k => k.trans h) groups (fun t p _ => spill_groups t 0 p.2) s

theorem restacked_shallow (s : State) {groups : List (Nat × Group)} (h : ∀ q ∈ groups, q.2.ctl.stack.length ≤ 16) : restacked s groups = s :=
  foldl_fixed s groups fun q hq => spill_shallow s 0 (h q hq)

theorem regrouped_mem (s : State) (sh : Shadow) (groups : List (Nat × Group)) : (regrouped s sh groups).mem = s.mem :=
  foldl_rel (R := fun s t : State => t.mem = s.mem) (fun _ => rfl) (fun h k => k.trans h) groups
    (fun t p _ => (rfl : (t.setGroup p.1 _).mem = t.mem)) s

/-- Every group of the checkpoint has gone back. -/
theorem regrouped_group (s : State) (sh : Shadow) {groups : List (Nat × Group)} (hnodup : (groups.map (·.1)).Nodup) :
    ∀ q ∈ groups, ∃ now, (regrouped s sh groups).group q.1 = some (q.2.rolledBack now sh.since (imagesOf sh.log q.1)) := by
  induction groups using List.reverseRecOn with
  | nil => exact fun q hq => absurd hq List.not_mem_nil
  | append_singleton groups p ih =>
    rw [List.map_append, List.nodup_append] at hnodup
    obtain ⟨hinit, -, hdisjoint⟩ := hnodup
    intro q hq
    rw [regrouped, List.foldl_append, List.foldl_cons, List.foldl_nil]
    rcases List.mem_append.mp hq with hq | hq
    · obtain ⟨now, hnow⟩ := ih hinit q hq
      have hne : q.1 ≠ p.1 := hdisjoint q.1 (List.mem_map_of_mem hq) p.1 (by simp)
      exact ⟨now, (State.group_setGroup_other _ _ hne).trans hnow⟩
    · rw [List.mem_singleton.mp hq]
      exact ⟨_, State.group_setGroup ..⟩

/-! ### The lines -/

/-- A line of a slice that no other of the log meets holds its image. -/
theorem relined_line (s : State) {log l : List (Nat × LineTag × List Word)} {e : Nat × LineTag × List Word} {key : Nat} (htag : e.2.1 = .line key)
    (hkey : 2 ^ 39 ≤ key) (hlen : e.2.2.length = 32) (hothers : ∀ e' ∈ log, e' ≠ e → ∀ k', e'.2.1 = .line k' →
      (k' + 128 ≤ key ∨ key + 128 ≤ k') ∧ e'.2.2.length = 32) (hsub : ∀ e' ∈ l, e' ∈ log) (hmem : e ∈ l) {j : Nat} (hj : j < 128) :
    Mem.rd (relined s l).mem (key + j) = (wordBytes e.2.2).getD j 0 := by
  induction l using List.reverseRecOn with
  | nil => exact absurd hmem List.not_mem_nil
  | append_singleton l e' ih =>
    have hbytes : (wordBytes e.2.2).length = 128 := by rw [wordBytes_length, hlen]
    rw [relined, List.foldl_append, List.foldl_cons, List.foldl_nil]
    by_cases he : e' = e
    · rw [he, htag]
      exact writeRun_whole _ ownIl (by omega) (.inl (by omega))
    · have hin : e ∈ l := (List.mem_append.mp hmem).resolve_right fun h => he (List.mem_singleton.mp h).symm
      have hrest := ih (fun x hx => hsub x (List.mem_append_left _ hx)) hin
      cases htag' : e'.2.1 with
      | vreg i r => exact hrest
      | line k' =>
        obtain ⟨hapart, hlen'⟩ := hothers e' (hsub e' (by simp)) he k' htag'
        have hbytes' : (wordBytes e'.2.2).length = 128 := by rw [wordBytes_length, hlen']
        refine (writeRun_beside _ ownIl ?_).trans hrest
        rw [hbytes']
        exact ⟨by omega, .inl (by omega)⟩

/-! ### The rollback -/

section rollback

variable {s : State} {v : Nat} {b : Block} (hb : s.block v = some b) (huncorr : b.uncorr = true) (hlive : b.live ≠ [])

include hb huncorr hlive

/-- A block whose shadow cannot take it back ends. -/
theorem rollback_terminates (h : ∀ sh, b.shadow = some sh → sh.clean = false ∨ sh.rolled = true ∨ sh.bad = true) :
    exec (.rollback v) s = .next (s.terminate v 34) := by
  have hstart : (!b.uncorr || b.live.isEmpty) = false := by
    rw [huncorr, Bool.not_true, Bool.false_or, Bool.eq_false_iff, ne_eq, List.isEmpty_iff]
    exact hlive
  change execRollback v s = _
  rw [execRollback, hb]
  dsimp only
  rw [if_neg (Bool.eq_false_iff.mp hstart)]
  cases hsh : b.shadow with
  | none => rfl
  | some sh =>
    refine if_pos ?_
    rcases h sh hsh with h | h | h <;> simp [h]

theorem rollback_eq {sh : Shadow} (hsh : b.shadow = some sh) (hclean : sh.clean = true) (hrolled : sh.rolled = false) (hbad : sh.bad = false)
    (hwaits : s.rollbackWaits v sh.since = false) : exec (.rollback v) s = .next (s.rollBack v b sh) := by
  have hstart : (!b.uncorr || b.live.isEmpty) = false := by
    rw [huncorr, Bool.not_true, Bool.false_or, Bool.eq_false_iff, ne_eq, List.isEmpty_iff]
    exact hlive
  change execRollback v s = _
  rw [execRollback, hb]
  dsimp only
  rw [if_neg (Bool.eq_false_iff.mp hstart), hsh]
  dsimp only
  rw [if_neg (by rw [hclean, hrolled, hbad]; exact Bool.false_ne_true), hwaits]
  exact if_neg Bool.false_ne_true

end rollback

theorem rollBack_block (s : State) (v : Nat) (b : Block) (sh : Shadow) : (s.rollBack v b sh).block v = some (rolledBlock b sh) := by
  rw [rollBack_eq]
  exact State.block_setBlock ..

theorem rollBack_group (s : State) (v : Nat) (b : Block) {sh : Shadow} (hnodup : (sh.groups.map (·.1)).Nodup) : ∀ q ∈ sh.groups,
    ∃ now, (s.rollBack v b sh).group q.1 = some (q.2.rolledBack now sh.since (imagesOf sh.log q.1)) := by
  intro q hq
  obtain ⟨now, hnow⟩ := regrouped_group (relined (undone s v b sh) sh.log) sh hnodup q hq
  refine ⟨now, ?_⟩
  rw [rollBack_eq]
  exact (congrArg (Sparse.find · q.1) (restacked_groups ..)).trans hnow

theorem rollBack_mem (s : State) (v : Nat) (b : Block) {sh : Shadow} (h : ∀ q ∈ sh.groups, q.2.ctl.stack.length ≤ 16) :
    (s.rollBack v b sh).mem = (relined (undone s v b sh) sh.log).mem := by
  rw [rollBack_eq, restacked_shallow _ h]
  exact regrouped_mem ..

/-- Settles the part of O56 on rollbacks. -/
theorem rollbacks : Rollbacks := by
  intro s v b hb huncorr hlive
  refine ⟨rollback_terminates hb huncorr hlive, fun sh hsh hclean hrolled hbad hwaits hnodup => ?_⟩
  refine ⟨_, rolledBlock b sh, rollback_eq hb huncorr hlive hsh hclean hrolled hbad hwaits, rollBack_block s v b sh, rfl, rfl, ⟨_, rfl, rfl, rfl⟩,
    fun q hq => ?_, fun e he key htag hkey hlen hothers hshallow n hn => ?_⟩
  · obtain ⟨now, hnow⟩ := rollBack_group s v b hnodup q hq
    exact ⟨_, hnow, rfl, rfl, rfl, rfl, rfl, rfl, rfl⟩
  · rw [rollBack_mem s v b hshallow, num_eq_of_rd (x := (e.2.2.getD n 0).toNat) fun i hi => ?_, Nat.mod_eq_of_lt (e.2.2.getD n 0).isLt]
    rw [Nat.add_assoc, relined_line _ htag hkey hlen hothers (fun _ h => h) he (by omega), wordBytes_getD _ hi]

end Sys2Proof.Proofs
end

section
/-! The restoration of an evicted block (R392, R399). -/

namespace Sys2Proof.Proofs

open Sys2Proof Sys2Proof.Machine Sys2Proof.Claims

/-! ### Fields of a record -/

theorem drop_bytes (m : Mem) (k o n : Nat) : (Mem.bytes m k (o + n)).drop o = Mem.bytes m (k + o) n := by
  rw [bytes_append, List.drop_append_of_le_length (by rw [bytes_length]), List.drop_of_length_le (by rw [bytes_length]), List.nil_append]

/-- A field of bytes of memory is the number that stands there. -/
theorem field_bytes (m : Mem) (k : Nat) {o n len : Nat} (h : o + n ≤ len) : field (Mem.bytes m k len) o n = Mem.num m (k + o) n := by
  obtain ⟨r, rfl⟩ := Nat.exists_eq_add_of_le h
  rw [field, Mem.num, Nat.add_assoc, drop_bytes, bytes_append, List.take_append_of_le_length (by rw [bytes_length]),
    List.take_of_length_le (by rw [bytes_length])]

theorem leNat_lt (l : List Byte) : leNat l < 2 ^ (8 * l.length) := by
  induction l with
  | nil => exact Nat.one_pos
  | cons b l ih =>
    have hb := b.isLt
    rw [leNat, List.length_cons, show 8 * (l.length + 1) = 8 * l.length + 8 by omega, pow_add]
    omega

theorem num_lt (m : Mem) (k n : Nat) : Mem.num m k n < 2 ^ (8 * n) := by
  have h := leNat_lt (Mem.bytes m k n)
  rwa [bytes_length] at h

theorem get_setRow (v : Nat → Word) (n k : Nat) :
    Sparse.get 0 ((List.range n).foldl (fun m r => Sparse.set 0 m r (v r)) []) k = if k < n then v k else 0 := by
  induction n with
  | zero => rfl
  | succ n ih =>
    rw [List.range_succ, List.foldl_append, List.foldl_cons, List.foldl_nil]
    by_cases h : k = n
    · rw [h, Sparse.get_set_same, if_pos (Nat.lt_succ_self n)]
    · rw [Sparse.get_set_other _ _ _ h, ih]
      by_cases hlt : k < n
      · rw [if_pos hlt, if_pos (by omega)]
      · rw [if_neg hlt, if_neg (by omega)]

/-! ### The groups of a record -/

/-- `g'` is `g` with what its record at `at_` holds. -/
structure Loaded (m : Mem) (at_ : Nat) (k : Kernel) (g' : Group) : Prop where
  pc : g'.ctl.pc.toNat = Mem.num m (at_ + 528) 8
  exm : g'.ctl.exm.toNat = Mem.num m (at_ + 536) 4
  livem : g'.ctl.livem.toNat = Mem.num m (at_ + 540) 4
  scalars : ∀ n, n < 8 * k.sregs → n < 128 → (g'.rdS n).toNat = Mem.num m (at_ + 4 * n) 4

theorem loaded_loadRecord (g : Group) (fresh : Nat) (m : Mem) (at_ : Nat) (k : Kernel) : Loaded m at_ k (g.loadRecord fresh m at_ k) where
  pc := by
    change (BitVec.ofNat 64 (field (Mem.bytes m at_ 1024) 528 8)).toNat = _
    rw [field_bytes m at_ (by omega), BitVec.toNat_ofNat, Nat.mod_eq_of_lt (num_lt m _ 8)]
  exm := by
    change (BitVec.ofNat 32 (field (Mem.bytes m at_ 1024) 536 4)).toNat = _
    rw [field_bytes m at_ (by omega), BitVec.toNat_ofNat, Nat.mod_eq_of_lt (num_lt m _ 4)]
  livem := by
    change (BitVec.ofNat 32 (field (Mem.bytes m at_ 1024) 540 4)).toNat = _
    rw [field_bytes m at_ (by omega), BitVec.toNat_ofNat, Nat.mod_eq_of_lt (num_lt m _ 4)]
  scalars n hn h128 := by
    change (Sparse.get 0 ((List.range (8 * k.sregs)).foldl (fun m' r => Sparse.set 0 m' r (BitVec.ofNat 32 (field (Mem.bytes m at_ 1024) (4 * r) 4))) []) n).toNat = _
    rw [get_setRow (fun r => BitVec.ofNat 32 (field (Mem.bytes m at_ 1024) (4 * r) 4)), if_pos hn, field_bytes m at_ (by omega), BitVec.toNat_ofNat,
      Nat.mod_eq_of_lt (num_lt m _ 4)]

/-- What a restoration takes from the image beside the groups' records. -/
structure Image where
  mem : Mem
  save : Nat
  pages : Nat
  thalt : Bool
  dhalt : Bool
  hgrp : Nat

/-- A loaded group with its partition and its place among the core's groups. -/
def reseated (s : State) (im : Image) (b : Block) (part : Nat) (g : Group) : Group :=
  let left : Option Nat := if im.thalt && g.index ≠ im.hgrp then some 0 else none
  { g with
    part := part
    sched := { g.sched with
      hold := (match g.sched.hold with | .vreg _ | .sreg _ | .phase _ _ | .batch _ => .none | h => h)
      since := s.clock.toNat
      active := s.activeIn b.core part < 8, order := s.own.seq, skidLeft := left, dhalt := im.dhalt } }

theorem reseated_kept (s : State) (im : Image) (b : Block) (part : Nat) (g : Group) : (reseated s im b part g).part = part ∧
    (reseated s im b part g).index = g.index ∧ (reseated s im b part g).ctl = g.ctl ∧ (reseated s im b part g).regs = g.regs := ⟨rfl, rfl, rfl, rfl⟩

/-- A group as a restoration leaves it. -/
def backAgain (s : State) (im : Image) (b : Block) (p : Nat) (g : Group) : Group :=
  reseated s im b ((p + g.index) % 4) (g.loadRecord s.own.fresh im.mem (recordAt im.save im.pages g.index) b.k)

/-- The groups of a block are taken from their records. -/
def reloaded (s : State) (im : Image) (b : Block) (p : Nat) (live : List Nat) : State :=
  live.foldl (fun s i => match s.group i with
    | none => s
    | some g => (s.setGroup i (backAgain s im b p g)).newSeq) s

theorem loadRecord_index (g : Group) (fresh : Nat) (m : Mem) (at_ : Nat) (k : Kernel) : (g.loadRecord fresh m at_ k).index = g.index := by
  unfold Group.loadRecord
  dsimp only

theorem backAgain_index (s : State) (im : Image) (b : Block) (p : Nat) (g : Group) :
    (backAgain s im b p g).index = g.index ∧ (backAgain s im b p g).part = (p + g.index) % 4 := by
  obtain ⟨hpart, hindex, -, -⟩ := reseated_kept s im b ((p + g.index) % 4) (g.loadRecord s.own.fresh im.mem (recordAt im.save im.pages g.index) b.k)
  exact ⟨hindex.trans (loadRecord_index ..), hpart⟩

theorem Loaded.of_same {m : Mem} {at_ : Nat} {k : Kernel} {g g' : Group} (h : Loaded m at_ k g) (hctl : g'.ctl = g.ctl) (hregs : g'.regs = g.regs) :
    Loaded m at_ k g' where
  pc := hctl ▸ h.pc
  exm := hctl ▸ h.exm
  livem := hctl ▸ h.livem
  scalars n hn h128 := by
    rw [Group.rdS, hregs]
    exact h.scalars n hn h128

theorem loaded_backAgain (s : State) (im : Image) (b : Block) (p : Nat) (g : Group) :
    Loaded im.mem (recordAt im.save im.pages g.index) b.k (backAgain s im b p g) := by
  obtain ⟨-, -, hctl, hregs⟩ := reseated_kept s im b ((p + g.index) % 4) (g.loadRecord s.own.fresh im.mem (recordAt im.save im.pages g.index) b.k)
  exact (loaded_loadRecord ..).of_same hctl hregs

/-- Nothing but the groups, each of which stays one, and the order of groups differs. -/
theorem reloaded_rest (s : State) (im : Image) (b : Block) (p : Nat) (live : List Nat) :
    { reloaded s im b p live with groups := s.groups, own := s.own } = s := by
  refine foldl_rel (R := fun s t : State => { t with groups := s.groups, own := s.own } = s) (fun _ => rfl) (fun {s t u} h k => ?_) live (fun t i _ => ?_) s
  · exact (congrArg (fun x : State => { x with groups := s.groups, own := s.own }) k).trans h
  · split <;> rfl

theorem reloaded_group (s : State) (im : Image) (b : Block) (p : Nat) (live : List Nat) (i : Nat) :
    (s.group i = none → (reloaded s im b p live).group i = none) ∧
    ∀ g, s.group i = some g → ∃ g', (reloaded s im b p live).group i = some g' ∧ g'.index = g.index ∧
      (i ∈ live → g'.part = (p + g.index) % 4 ∧ Loaded im.mem (recordAt im.save im.pages g.index) b.k g') := by
  induction live using List.reverseRecOn with
  | nil => exact ⟨id, fun g hg => ⟨g, hg, rfl, fun h => absurd h List.not_mem_nil⟩⟩
  | append_singleton live j ih =>
    obtain ⟨hnone, hsome⟩ := ih
    rw [reloaded, List.foldl_append, List.foldl_cons, List.foldl_nil]
    change (s.group i = none → (match (reloaded s im b p live).group j with
        | none => reloaded s im b p live
        | some g => ((reloaded s im b p live).setGroup j (backAgain (reloaded s im b p live) im b p g)).newSeq).group i = none) ∧
      ∀ g, s.group i = some g → ∃ g', (match (reloaded s im b p live).group j with
        | none => reloaded s im b p live
        | some g => ((reloaded s im b p live).setGroup j (backAgain (reloaded s im b p live) im b p g)).newSeq).group i = some g' ∧ g'.index = g.index ∧
        (i ∈ live ++ [j] → g'.part = (p + g.index) % 4 ∧ Loaded im.mem (recordAt im.save im.pages g.index) b.k g')
    generalize reloaded s im b p live = t at hnone hsome ⊢
    by_cases hij : i = j
    · subst hij
      refine ⟨fun h => ?_, fun g hg => ?_⟩
      · rw [hnone h]
        exact hnone h
      · obtain ⟨g1, h1, hindex, -⟩ := hsome g hg
        rw [h1]
        refine ⟨_, State.group_setGroup .., (backAgain_index t im b p g1).1.trans hindex, fun _ => ⟨?_, ?_⟩⟩
        · rw [(backAgain_index t im b p g1).2, hindex]
        · rw [← hindex]
          exact loaded_backAgain t im b p g1
    · have hsame : (match t.group j with
          | none => t
          | some g => (t.setGroup j (backAgain t im b p g)).newSeq).group i = t.group i := by
        split
        · rfl
        · exact State.group_setGroup_other _ _ hij
      rw [hsame]
      refine ⟨hnone, fun g hg => ?_⟩
      obtain ⟨g1, h1, hindex, hloaded⟩ := hsome g hg
      exact ⟨g1, h1, hindex, fun h => hloaded ((List.mem_append.mp h).resolve_right fun h => hij (List.mem_singleton.mp h))⟩

/-! ### The block comes back -/

/-- Only the nodes differ. -/
structure NodesOnly (s t : State) : Prop where
  rest : { t with nodes := s.nodes } = s

theorem NodesOnly.refl (s : State) : NodesOnly s s := ⟨rfl⟩

theorem NodesOnly.trans {s t u : State} (h : NodesOnly s t) (k : NodesOnly t u) : NodesOnly s u :=
  ⟨(congrArg (fun x : State => { x with nodes := s.nodes }) k.rest).trans h.rest⟩

theorem modNode_nodesOnly (s : State) (n : Nat) (f : Node → Node) : NodesOnly s (s.modNode n f) := ⟨rfl⟩

/-- What a restoration has read of its image's block record. -/
def imageOfRun (m : Mem) (save pages : Nat) : Image :=
  let rec_ := Mem.bytes m (save + pages * 4096) 256
  { mem := m, save := save, pages := pages, thalt := field rec_ 9 1 % 2 = 1, dhalt := field rec_ 9 1 / 2 % 2 = 1, hgrp := field rec_ 10 1 }

/-- The accumulator blocks of a block's run that its image holds. -/
def filledAccs (m : Mem) (save pages : Nat) (b : Block) : List Nat :=
  (List.range b.k.accn).filter (fun i => field (Mem.bytes m (save + pages * 4096) 256) 32 8 / 2 ^ i % 2 = 1)

/-- The accumulator blocks are filled from the image. -/
def refilledAccs (s : State) (m : Mem) (save pages : Nat) (b : Block) : State :=
  let accsAt := save + pages * 4096 + 256 + b.k.ngrp * 34816
  let t := (filledAccs m save pages b).foldl (fun s i => s.fillAcc b.core (b.accBase + i) (Mem.bytes m (accsAt + 4096 * i) 4096)) s
  t.setTags b.core ((filledAccs m save pages b).map (· + b.accBase)) (t.ctxOf b)

theorem fillAcc_nodesOnly (s : State) (n blk : Nat) (bs : List Byte) : NodesOnly s (s.fillAcc n blk bs) := by
  rw [State.fillAcc, State.putAcc]
  exact modNode_nodesOnly ..

theorem setTags_nodesOnly (s : State) (n : Nat) (blks : List Nat) (c : BitVec 8) : NodesOnly s (s.setTags n blks c) := by
  rw [State.setTags]
  exact modNode_nodesOnly ..

theorem refilledAccs_nodes (s : State) (m : Mem) (save pages : Nat) (b : Block) : NodesOnly s (refilledAccs s m save pages b) := by
  rw [refilledAccs]
  exact (foldl_rel NodesOnly.refl NodesOnly.trans _ (fun t i _ => fillAcc_nodesOnly t ..) s).trans (setTags_nodesOnly ..)

/-- The node whose relocation entry points to the slice again; the block holds no accumulator block. -/
def repointed (v page : Nat) (b : Block) (r : Reloc) (n : Node) : Node :=
  { n with
    relocs := Sparse.put n.relocs b.reloc { r with st := 1, save := 0, basepg := BitVec.ofNat 9 page }
    holders := n.holders.filter (fun h => h.2 ≠ v) }

/-- The block is resident again. -/
def resident (s : State) (v page : Nat) (b : Block) (r : Reloc) (im : Image) : State :=
  (s.modNode b.core (repointed v page b r)).setBlock v
    { b with saved := none, noRestore := false, wanted := false, thalt := im.thalt, dhalt := im.dhalt, hgrp := im.hgrp }

/-- The allocation of a block is copied back. -/
def copiedBack (s : State) (core save page pages : Nat) (image : List Byte) : State :=
  (s.answerAll (fun w => save ≤ w.loc && w.loc < save + pages * 4096)).writeRun ownIl (sliceKey core (page * 4096)) (image.take (pages * 4096))

/-- A block that is back, with its groups as their records have them. -/
def broughtBack (s : State) (v save p page : Nat) (b : Block) (r : Reloc) (image : List Byte) : State :=
  let m := Mem.wrBytes s.mem save image
  let pages := r.pages.toNat
  reloaded (resident (refilledAccs (copiedBack s b.core save page pages image) m save pages b) v page b r (imageOfRun m save pages))
    (imageOfRun m save pages) b p b.live

section restoration

variable {s : State} {v save p page : Nat} {b : Block} {r : Reloc} (hb : s.block v = some b) (hsaved : b.saved = some save)
  (hat : s.restoreAt v b = some (p, page)) (hr : Sparse.find (s.node b.core).relocs b.reloc = some r) (hkept : s.keptFrom b = false)

include hb hsaved hat hr hkept

theorem restoration_unread {t : State} (hread : s.readRun ownIl save (s.imageSize b) = (t, none)) :
    exec (.restoration v) s = .next (t.terminate v 34) := by
  change execRestoration v s = _
  rw [execRestoration, hb]
  dsimp only
  rw [hsaved, hat, hr]
  dsimp only
  rw [hkept, if_neg Bool.false_ne_true, hread]

theorem restoration_eq {s1 : State} {image : List Byte} (hread : s.readRun ownIl save (s.imageSize b) = (s1, some image)) :
    exec (.restoration v) s = if !s1.imageGood (Mem.wrBytes s1.mem save image) b save r.pages.toNat then .next (s1.terminate v 38)
      else .next ((b.live.foldl State.tryRetire (broughtBack s1 v save p page b r image)).rouse b.core 0) := by
  change execRestoration v s = _
  rw [execRestoration, hb]
  dsimp only
  rw [hsaved, hat, hr]
  dsimp only
  rw [hkept, if_neg Bool.false_ne_true, hread]
  rfl

end restoration

/-! ### What is back -/

theorem copiedBack_wroteHome (s : State) (core save page pages : Nat) (image : List Byte) : WroteHome s (copiedBack s core save page pages image) :=
  (answerAll_wroteHome ..).trans (writeRun_wroteHome ..)

/-- The allocation holds the image's pages. -/
theorem rd_copiedBack (s : State) (core save page : Nat) {pages : Nat} {image : List Byte} (hlen : pages * 4096 ≤ image.length) {n : Nat}
    (hn : n < pages * 4096) : Mem.rd (copiedBack s core save page pages image).mem (sliceKey core (page * 4096) + n) =
      Mem.rd (Mem.wrBytes s.mem save image) (save + n) := by
  have htake : (image.take (pages * 4096)).length = pages * 4096 := by rw [List.length_take, Nat.min_eq_left hlen]
  rw [copiedBack, writeRun_whole _ ownIl (by rwa [htake]) (.inl (by unfold sliceKey; omega)), Mem.rd_wrBytes_inside _ _ _ (by omega : n < image.length),
    List.getD_eq_getElem?_getD, List.getElem?_take_of_lt hn, List.getElem?_eq_getElem (by omega), Option.getD_some]

/-- The state before the groups are taken from their records. -/
structure Restored (s t : State) (v page : Nat) (b : Block) (r : Reloc) (im : Image) : Prop where
  groups : t.groups = s.groups
  block : t.block v = some { b with saved := none, noRestore := false, wanted := false, thalt := im.thalt, dhalt := im.dhalt, hgrp := im.hgrp }
  reloc : Sparse.find (t.node b.core).relocs b.reloc = some { r with st := 1, save := 0, basepg := BitVec.ofNat 9 page }

theorem restored_resident (s : State) (v page : Nat) (b : Block) (r : Reloc) (im : Image) : Restored s (resident s v page b r im) v page b r im := by
  refine ⟨rfl, State.block_setBlock .., ?_⟩
  exact (congrArg (fun n : Node => Sparse.find n.relocs b.reloc) (State.node_modNode s b.core (repointed v page b r))).trans
    (Sparse.find_put_same (s.node b.core).relocs b.reloc _)

theorem broughtBack_spec (s : State) (v save p page : Nat) (b : Block) (r : Reloc) {image : List Byte} (hlen : r.pages.toNat * 4096 ≤ image.length) :
    (∃ b', (broughtBack s v save p page b r image).block v = some b' ∧ b'.saved = none ∧ b'.live = b.live) ∧
      (∃ r', Sparse.find ((broughtBack s v save p page b r image).node b.core).relocs b.reloc = some r' ∧ r'.st = 1 ∧ r'.basepg = BitVec.ofNat 9 page) ∧
      (∀ n, n < r.pages.toNat * 4096 → Mem.rd (broughtBack s v save p page b r image).mem (sliceKey b.core (page * 4096) + n) =
        Mem.rd (Mem.wrBytes s.mem save image) (save + n)) ∧
      ∀ i, (s.group i = none → (broughtBack s v save p page b r image).group i = none) ∧
        ∀ g, s.group i = some g → ∃ g', (broughtBack s v save p page b r image).group i = some g' ∧ (i ∈ b.live → g'.part = (p + g.index) % 4 ∧
          Loaded (Mem.wrBytes s.mem save image) (recordAt save r.pages.toNat g.index) b.k g') := by
  have hcopied := copiedBack_wroteHome s b.core save page r.pages.toNat image
  have haccs := refilledAccs_nodes (copiedBack s b.core save page r.pages.toNat image) (Mem.wrBytes s.mem save image) save r.pages.toNat b
  have hback := restored_resident (refilledAccs (copiedBack s b.core save page r.pages.toNat image) (Mem.wrBytes s.mem save image) save r.pages.toNat b)
    v page b r (imageOfRun (Mem.wrBytes s.mem save image) save r.pages.toNat)
  have hrest := reloaded_rest (resident (refilledAccs (copiedBack s b.core save page r.pages.toNat image) (Mem.wrBytes s.mem save image) save
    r.pages.toNat b) v page b r (imageOfRun (Mem.wrBytes s.mem save image) save r.pages.toNat)) (imageOfRun (Mem.wrBytes s.mem save image) save
    r.pages.toNat) b p b.live
  refine ⟨⟨_, (congrArg (fun x : State => x.block v) hrest :).trans hback.block, rfl, rfl⟩,
    ⟨_, (congrArg (fun x : State => Sparse.find (x.node b.core).relocs b.reloc) hrest :).trans hback.reloc, rfl, rfl⟩, fun n hn => ?_, fun i => ?_⟩
  · refine Eq.trans ?_ (rd_copiedBack s b.core save page hlen hn)
    exact congrArg (Mem.rd · (sliceKey b.core (page * 4096) + n)) ((congrArg State.mem hrest :).trans (congrArg State.mem haccs.rest :))
  · have hgroup : (resident (refilledAccs (copiedBack s b.core save page r.pages.toNat image) (Mem.wrBytes s.mem save image) save r.pages.toNat b)
        v page b r (imageOfRun (Mem.wrBytes s.mem save image) save r.pages.toNat)).group i = s.group i :=
      congrArg (Sparse.find · i) (hback.groups.trans ((congrArg State.groups haccs.rest :).trans hcopied.groups))
    obtain ⟨hnone, hsome⟩ := reloaded_group _ (imageOfRun (Mem.wrBytes s.mem save image) save r.pages.toNat) b p b.live i
    rw [hgroup] at hnone hsome
    refine ⟨hnone, fun g hg => ?_⟩
    obtain ⟨g', hnow, -, hloaded⟩ := hsome g hg
    exact ⟨g', hnow, hloaded⟩

theorem rouse_relocs (s : State) (n : Nat) (bits : Word) (j : Nat) : ((s.rouse n bits).node j).relocs = (s.node j).relocs := by
  unfold State.rouse
  split
  · by_cases h : j = n
    · rw [h, State.node_modNode]
    · rw [State.modNode, State.node_setNode_other _ _ h]
  · rfl

/-- Settles the part of O56 on restorations. -/
theorem restorations : Restorations := by
  intro s v save p page b r hb hsaved hat hr hkept
  refine ⟨fun t hread => restoration_unread hb hsaved hat hr hkept hread, fun s1 image m hread hm => ⟨fun hbad => ?_, fun hgood hlive => ?_⟩⟩
  · rw [restoration_eq hb hsaved hat hr hkept hread, ← hm, hbad]
    rfl
  · have hexec := restoration_eq hb hsaved hat hr hkept hread
    rw [← hm, hgood, Bool.not_true, if_neg Bool.false_ne_true] at hexec
    have hhome := readRun_readHome s ownIl save (s.imageSize b)
    rw [hread] at hhome
    have hgroup (i : Nat) : s1.group i = s.group i := congrArg (Sparse.find · i) hhome.groups_eq
    have hlen : r.pages.toNat * 4096 ≤ image.length := by
      rw [readRun_length hread, State.imageSize, State.pagesOf, hr]
      dsimp only
      omega
    obtain ⟨⟨b', hb', hsaved', hlive'⟩, ⟨r', hr', hst, hbase⟩, hmem, hgroups⟩ := broughtBack_spec s1 v save p page b r hlen
    have hretire : b.live.foldl State.tryRetire (broughtBack s1 v save p page b r image) = broughtBack s1 v save p page b r image := by
      refine foldl_fixed _ _ fun i hi => ?_
      cases hg : s.group i with
      | none => rw [State.tryRetire, (hgroups i).1 ((hgroup i).trans hg)]
      | some g =>
        obtain ⟨g', hnow, hloaded⟩ := (hgroups i).2 g ((hgroup i).trans hg)
        refine tryRetire_of_live hnow fun h0 => hlive i hi g hg ?_
        rw [hm, ← (hloaded hi).2.livem, h0]
        rfl
    rw [hretire] at hexec
    obtain ⟨hrmem, -, hrgroups, hrblocks⟩ := rouse_kept (broughtBack s1 v save p page b r image) b.core 0
    refine ⟨_, b', r', hexec, (congrArg (Sparse.find · v) hrblocks).trans hb', hsaved', hlive', ?_, hst, hbase, fun n hn => ?_, fun i hi g hg => ?_⟩
    · rw [rouse_relocs]
      exact hr'
    · rw [hrmem, hmem n hn, hm]
    · obtain ⟨g', hnow, hloaded⟩ := (hgroups i).2 g ((hgroup i).trans hg)
      obtain ⟨hpart, hpc, hexm, hlivem, hscalars⟩ := hloaded hi
      rw [hm]
      exact ⟨g', (congrArg (Sparse.find · i) hrgroups).trans hnow, hpart, hpc, hexm, hlivem, hscalars⟩

end Sys2Proof.Proofs
end

section
/-! The halt for a partial eviction (R370, R389). -/

namespace Sys2Proof.Proofs

open Sys2Proof Sys2Proof.Machine Sys2Proof.Claims

/-! ### The next victim -/

/-- The priority of a block's grid. -/
def gridPrio (s : State) (b : Block) : Nat := match s.grid b.grid with | none => 0 | some x => x.prio

/-- Whether `b` is to go before `c`: its priority is lower, or it is as low and `b` was placed no earlier. -/
def Sooner (s : State) (b c : Block) : Prop := gridPrio s b < gridPrio s c ∨ (gridPrio s b = gridPrio s c ∧ c.placed ≤ b.placed)

theorem Sooner.refl (s : State) (b : Block) : Sooner s b b := .inr ⟨rfl, le_refl _⟩

theorem Sooner.trans {s : State} {a b c : Block} (h : Sooner s a b) (k : Sooner s b c) : Sooner s a c := by
  unfold Sooner at *
  omega

/-- The better of the best so far and another. -/
def better (s : State) (best : Option (Nat × Block)) (p : Nat × Block) : Option (Nat × Block) :=
  match best with
  | none => some p
  | some q => if gridPrio s p.2 < gridPrio s q.2 || (gridPrio s p.2 = gridPrio s q.2 && q.2.placed ≤ p.2.placed) then some p else best

theorem nextVictim_eq (s : State) (l : List (Nat × Block)) : s.nextVictim l = l.foldl (better s) none := rfl

theorem better_spec (s : State) (best : Option (Nat × Block)) (p : Nat × Block) :
    ∃ q, better s best p = some q ∧ (q = p ∨ best = some q) ∧ Sooner s q.2 p.2 ∧ ∀ r, best = some r → Sooner s q.2 r.2 := by
  cases best with
  | none => exact ⟨p, rfl, .inl rfl, .refl s p.2, fun r hr => by cases hr⟩
  | some q =>
    by_cases h : (gridPrio s p.2 < gridPrio s q.2 || (gridPrio s p.2 = gridPrio s q.2 && q.2.placed ≤ p.2.placed)) = true
    · refine ⟨p, if_pos h, .inl rfl, .refl s p.2, fun r hr => ?_⟩
      obtain rfl := Option.some.inj hr
      simpa [Sooner] using h
    · refine ⟨q, if_neg h, .inr rfl, ?_, fun r hr => Option.some.inj hr ▸ .refl s q.2⟩
      simp only [Bool.or_eq_true, Bool.and_eq_true, decide_eq_true_eq] at h
      unfold Sooner
      omega

/-- Of some victims the next is of the lowest priority the one placed last. -/
theorem nextVictim_spec (s : State) {l : List (Nat × Block)} (h : l ≠ []) :
    ∃ q, s.nextVictim l = some q ∧ q ∈ l ∧ ∀ p ∈ l, Sooner s q.2 p.2 := by
  induction l using List.reverseRecOn with
  | nil => exact absurd rfl h
  | append_singleton l p ih =>
    rw [nextVictim_eq, List.foldl_append, List.foldl_cons, List.foldl_nil, ← nextVictim_eq]
    obtain ⟨q, hq, hor, hsooner, hbest⟩ := better_spec s (s.nextVictim l) p
    refine ⟨q, hq, ?_, fun r hr => ?_⟩
    · rcases hor with rfl | hor
      · exact List.mem_append_right _ (List.mem_singleton_self _)
      · by_cases hl : l = []
        · rw [hl] at hor
          cases hor
        · obtain ⟨q', hq', hmem, -⟩ := ih hl
          rw [hq'] at hor
          exact List.mem_append_left _ (Option.some.inj hor ▸ hmem)
    · rcases List.mem_append.mp hr with hr | hr
      · obtain ⟨q', hq', -, hall⟩ := ih (List.ne_nil_of_mem hr)
        exact (hbest q' hq').trans (hall r hr)
      · exact List.mem_singleton.mp hr ▸ hsooner

/-! ### The halt -/

/-- A group that the halt of its block reaches. -/
def haltedFor (bid : Nat) (g : Group) : Group :=
  if g.block = bid && g.visitor.isNone && g.sched.skidLeft.isNone then
    { g with
      sched := { g.sched with
        skidLeft := if g.sched.hold = .none || g.sched.hold = .roused then some 16 else some 0
        hold := match g.sched.hold with | .latch _ _ => .none | h => h }
      sys := { g.sys with skid := 0, haltpc := g.ctl.pc } }
  else g

theorem haltFor_eq (s : State) (bid : Nat) : s.haltFor bid =
    { s.modBlock bid (fun b => { b with evicting := true }) with groups := s.groups.map (fun p => (p.1, haltedFor bid p.2)) } := rfl

theorem haltedFor_spec {g : Group} {v : Nat} (hblock : g.block = v) (hvis : g.visitor = none) (hskid : g.sched.skidLeft = none) :
    ∃ n, (haltedFor v g).sched.skidLeft = some n ∧ n ≤ 16 ∧ (g.sched.hold = .none → n = 16) ∧ (haltedFor v g).ctl = g.ctl ∧ (haltedFor v g).regs = g.regs := by
  have hhit : (g.block = v && g.visitor.isNone && g.sched.skidLeft.isNone) = true := by simp [hblock, hvis, hskid]
  rw [haltedFor, if_pos hhit]
  by_cases hfree : (g.sched.hold = .none || g.sched.hold = .roused) = true
  · exact ⟨16, if_pos hfree, le_refl _, fun _ => rfl, rfl, rfl⟩
  · exact ⟨0, if_neg hfree, Nat.zero_le _, fun h => absurd (by rw [h]; rfl) hfree, rfl, rfl⟩

theorem haltFor_group (s : State) (v : Nat) {i : Nat} {g : Group} (hg : s.group i = some g) : (s.haltFor v).group i = some (haltedFor v g) := by
  rw [haltFor_eq]
  exact find_map_some (f := fun p : Nat × Group => haltedFor v p.2) hg

theorem block_of_mem {s : State} {v : Nat} {b : Block} (h : (v, b) ∈ s.blocks) : ∃ b', s.block v = some b' := exists_find_of_mem h

theorem haltFor_block {s : State} {v : Nat} {b : Block} (h : (v, b) ∈ s.blocks) : ∃ b', (s.haltFor v).block v = some b' ∧ b'.evicting = true := by
  obtain ⟨b', hb'⟩ := block_of_mem h
  refine ⟨{ b' with evicting := true }, ?_, rfl⟩
  rw [haltFor_eq]
  exact (State.block_modBlock ..).trans (by rw [hb']; rfl)

theorem partialEviction_spec {s : State} {core since k l : Nat} {x : Grid} (hhead : s.headOf core = some (k, x))
    (hblocked : (s.node core).blocked = some (k, l, since)) (hlate : since + 2048 ≤ s.clock.toNat) (hgrant : s.grantOn core x = none)
    (hnone : ∀ p ∈ s.blocks, p.2.core = core → p.2.evicting = false) (hfit : s.wouldFit core x 128 s ≠ none)
    (hvictim : ∃ p ∈ s.blocks, s.victim core x.prio p.2 = true) : ∃ t v b, exec (.partialEviction core) s = .next t ∧ (v, b) ∈ s.blocks ∧
      s.victim core x.prio b = true ∧ (∀ p ∈ s.blocks, s.victim core x.prio p.2 = true → ∀ y z, s.grid b.grid = some y → s.grid p.2.grid = some z →
        y.prio ≤ z.prio ∧ (y.prio = z.prio → p.2.placed ≤ b.placed)) ∧
      (∃ b', t.block v = some b' ∧ b'.evicting = true) ∧ t.mem = s.mem ∧
      ∀ i g, s.group i = some g → g.block = v → g.visitor = none → g.sched.skidLeft = none → ∃ g' n, t.group i = some g' ∧
        g'.sched.skidLeft = some n ∧ n ≤ 16 ∧ (g.sched.hold = .none → n = 16) ∧ g'.ctl = g.ctl ∧ g'.regs = g.regs := by
  obtain ⟨p, hp, hpv⟩ := hvictim
  have hne : s.blocks.filter (fun p => s.victim core x.prio p.2) ≠ [] := List.ne_nil_of_mem (List.mem_filter.mpr ⟨hp, hpv⟩)
  obtain ⟨⟨v, b⟩, hnext, hmem, hsooner⟩ := nextVictim_spec s hne
  obtain ⟨hin, hv⟩ := List.mem_filter.mp hmem
  have hguard : (s.clock.toNat < since + 2048 || (s.grantOn core x).isSome || s.blocks.any (fun p => p.2.core = core && p.2.evicting) ||
      (s.wouldFit core x 128 s).isNone) = false := by
    rw [decide_eq_false (by omega), hgrant, Bool.or_eq_false_iff, Bool.or_eq_false_iff]
    refine ⟨⟨rfl, List.any_eq_false.mpr fun q hq => ?_⟩, ?_⟩
    · by_cases hcore : q.2.core = core
      · simp [hnone q hq hcore]
      · simp [hcore]
    · rwa [Option.isNone_eq_false_iff, Option.isSome_iff_ne_none]
  have hexec : exec (.partialEviction core) s = .next ((s.haltFor v).rouse core 32) := by
    change execPartialEviction core s = _
    rw [execPartialEviction, hhead, hblocked]
    dsimp only
    rw [if_neg (Bool.eq_false_iff.mp hguard), hnext]
  obtain ⟨hrmem, -, hrgroups, hrblocks⟩ := rouse_kept (s.haltFor v) core 32
  refine ⟨_, v, b, hexec, hin, hv, fun q hq hqv y z hy hz => ?_, ?_, hrmem.trans ?_, fun i g hg hblock hvis hskid => ?_⟩
  · have hs := hsooner q (List.mem_filter.mpr ⟨hq, hqv⟩)
    simp only [Sooner, gridPrio, hy, hz] at hs
    omega
  · obtain ⟨b', hb', hev⟩ := haltFor_block hin
    exact ⟨b', (congrArg (Sparse.find · v) hrblocks).trans hb', hev⟩
  · rw [haltFor_eq]
    exact State.modBlock_mem ..
  · obtain ⟨n, hskid', hn, hfree, hctl, hregs⟩ := haltedFor_spec hblock hvis hskid
    exact ⟨_, n, (congrArg (Sparse.find · i) hrgroups).trans (haltFor_group s v hg), hskid', hn, hfree, hctl, hregs⟩

end Sys2Proof.Proofs
end

section
/-! Where an evicted block goes (R389 to R391; log entry 48): the runs that it takes depend on what is in use, not on the order of the blocks. -/

namespace Sys2Proof.Proofs

open Sys2Proof Sys2Proof.Machine Sys2Proof.Claims

/-! ### Free runs -/

/-- The places at which a free run may start. -/
def runStarts (lo hi n step : Nat) (used : List (Nat × Nat)) : List Nat :=
  ((lo + step - 1) / step * step :: used.map (fun r => (r.1 + r.2 + step - 1) / step * step)).filter (fun a =>
    lo ≤ a && a + n ≤ hi && used.all (fun r => a + n ≤ r.1 || r.1 + r.2 ≤ a || n = 0 || r.2 = 0))

theorem firstFree_eq (lo hi n step : Nat) (used : List (Nat × Nat)) : firstFree lo hi n step used = (runStarts lo hi n step used).min? := by
  change (match runStarts lo hi n step used with | [] => none | a :: as => some (least a as)) = _
  cases runStarts lo hi n step used <;> rfl

theorem runStarts_dvd {lo hi n step : Nat} {used : List (Nat × Nat)} {a : Nat} (h : a ∈ runStarts lo hi n step used) : step ∣ a := by
  rcases List.mem_cons.mp (List.mem_filter.mp h).1 with rfl | h
  · exact Nat.dvd_mul_left ..
  · obtain ⟨r, -, rfl⟩ := List.mem_map.mp h
    exact Nat.dvd_mul_left ..

/-- A free run starts at a multiple of its step. -/
theorem firstFree_dvd {lo hi n step : Nat} {used : List (Nat × Nat)} {a : Nat} (h : firstFree lo hi n step used = some a) : step ∣ a := by
  rw [firstFree_eq] at h
  exact runStarts_dvd (List.min?_mem h)

theorem mem_runStarts_congr {used used' : List (Nat × Nat)} (h : ∀ r, r ∈ used' ↔ r ∈ used) (lo hi n step a : Nat) :
    a ∈ runStarts lo hi n step used' ↔ a ∈ runStarts lo hi n step used := by
  simp only [runStarts, List.mem_filter, List.mem_cons, List.mem_map, List.all_eq_true, Bool.and_eq_true, h]

/-- The lowest free run depends on which runs are in use alone. -/
theorem firstFree_congr {used used' : List (Nat × Nat)} (h : ∀ r, r ∈ used' ↔ r ∈ used) (lo hi n step : Nat) :
    firstFree lo hi n step used' = firstFree lo hi n step used := by
  have hmem := mem_runStarts_congr h lo hi n step
  rw [firstFree_eq, firstFree_eq]
  cases hmin : (runStarts lo hi n step used).min? with
  | none =>
    rw [List.min?_eq_none_iff] at hmin ⊢
    exact List.eq_nil_iff_forall_not_mem.mpr fun a ha => List.not_mem_nil (hmin ▸ (hmem a).mp ha)
  | some a =>
    rw [List.min?_eq_some_iff] at hmin ⊢
    exact ⟨(hmem a).mpr hmin.1, fun x hx => hmin.2 x ((hmem x).mp hx)⟩

/-! ### A block that is set -/

theorem mem_put_of_mem {α : Type} {m : List (Nat × α)} {k : Nat} {v : α} {p : Nat × α} (hp : p ∈ m) :
    p ∈ Sparse.put m k v ∨ (p.1 = k ∧ Sparse.find m k = some p.2) := by
  induction m with
  | nil => exact absurd hp List.not_mem_nil
  | cons q m ih =>
    obtain ⟨j, w⟩ := q
    rw [Sparse.put, Sparse.find]
    by_cases hlt : k < j
    · rw [if_pos hlt]
      exact .inl (List.mem_cons_of_mem _ hp)
    · rw [if_neg hlt]
      by_cases hj : j = k
      · rw [if_pos hj, if_pos hj]
        rcases List.mem_cons.mp hp with rfl | hp
        · exact .inr ⟨hj, rfl⟩
        · exact .inl (List.mem_cons_of_mem _ hp)
      · rw [if_neg hj, if_neg hj]
        rcases List.mem_cons.mp hp with rfl | hp
        · exact .inl List.mem_cons_self
        · exact (ih hp).imp_left (List.mem_cons_of_mem _)

theorem mem_put_self {α : Type} (m : List (Nat × α)) (k : Nat) (v : α) : (k, v) ∈ Sparse.put m k v := mem_of_find (Sparse.find_put_same m k v)

/-- What the listed values give is the same when one is replaced by another that gives as much. -/
theorem mem_flatMap_put {α β : Type} {m : List (Nat × α)} {k : Nat} {v v' : α} (hv : Sparse.find m k = some v) (f : Nat × α → List β)
    (hf : f (k, v') = f (k, v)) (x : β) : x ∈ (Sparse.put m k v').flatMap f ↔ x ∈ m.flatMap f := by
  rw [List.mem_flatMap, List.mem_flatMap]
  constructor
  · rintro ⟨p, hp, hx⟩
    rcases Sparse.mem_put hp with rfl | hp
    · exact ⟨_, mem_of_find hv, hf ▸ hx⟩
    · exact ⟨p, hp, hx⟩
  · rintro ⟨p, hp, hx⟩
    rcases mem_put_of_mem (k := k) (v := v') hp with hp | ⟨hk, hfind⟩
    · exact ⟨p, hp, hx⟩
    · obtain rfl := Option.some.inj (hv.symm.trans hfind)
      obtain ⟨k', w⟩ := p
      obtain rfl : k' = k := hk
      exact ⟨_, mem_put_self m k' v', hf ▸ hx⟩

theorem mem_filterMap_put {α β : Type} {m : List (Nat × α)} {k : Nat} {v v' : α} (hv : Sparse.find m k = some v) (f : Nat × α → Option β)
    (hf : f (k, v') = f (k, v)) (x : β) : x ∈ (Sparse.put m k v').filterMap f ↔ x ∈ m.filterMap f := by
  rw [List.filterMap_eq_flatMap_toList, List.filterMap_eq_flatMap_toList]
  exact mem_flatMap_put hv _ (congrArg Option.toList hf) x

/-! ### A block that is not to be restored -/

/-- A block that the distributor is not to restore. -/
def unrestored (b : Block) : Block := { b with noRestore := true }

/-- The image of a block that is evicted, in the save region of a context. -/
def savedRun (s : State) (c : BitVec 8) (p : Nat × Block) : Option (Nat × Nat) :=
  match Sparse.find (s.node p.2.core).relocs p.2.reloc with
  | none => none
  | some r => if r.st = 2 && r.block = p.1 && s.ctxOf p.2 = c then some (r.save.toNat, s.imageSize p.2) else none

/-- The place of an image among some that are in use. -/
def saveAmong (s : State) (c : BitVec 8) (n : Nat) (used : List (Nat × Nat)) : Option Nat :=
  firstFree (s.ctxField c 24 8 % 2 ^ 39) (s.ctxField c 24 8 % 2 ^ 39 + s.ctxField c 32 8) n 4096 used

theorem saveAmong_congr (s : State) (c : BitVec 8) (n : Nat) {used used' : List (Nat × Nat)} (h : ∀ r, r ∈ used' ↔ r ∈ used) :
    saveAmong s c n used' = saveAmong s c n used := firstFree_congr h ..

theorem saveAmong_setBlock (s : State) (v : Nat) (x : Block) (c : BitVec 8) (n : Nat) (used : List (Nat × Nat)) :
    saveAmong (s.setBlock v x) c n used = saveAmong s c n used := rfl

theorem ctxOf_unrestored (s : State) (v : Nat) (x b : Block) : (s.setBlock v x).ctxOf (unrestored b) = s.ctxOf b := rfl

theorem imageSize_unrestored (s : State) (v : Nat) (x b : Block) : (s.setBlock v x).imageSize (unrestored b) = s.imageSize b := rfl

theorem savePlace_eq (s : State) (b : Block) :
    s.savePlace b = saveAmong s (s.ctxOf b) (s.imageSize b) (s.blocks.filterMap (savedRun s (s.ctxOf b))) := rfl

theorem savedRun_setBlock (s : State) (v : Nat) (x : Block) (c : BitVec 8) : savedRun (s.setBlock v x) c = savedRun s c := rfl

theorem savedRun_unrestored (s : State) (v : Nat) (b : Block) (c : BitVec 8) : savedRun s c (v, unrestored b) = savedRun s c (v, b) := rfl

/-- The private areas of a block that lie in the far region of a context. -/
def farRuns (region : Nat × Nat) (p : Nat × Block) : List (Nat × Nat) :=
  if p.2.live.isEmpty then [] else p.2.areas.filterMap (fun a => if a < 2 ^ 39 && region.1 ≤ a then some (a, p.2.k.area) else none)

theorem far_eq (s : State) (core : Nat) (c : BitVec 8) (self : Nat) : (s.coreUse core c self).far = s.blocks.flatMap (farRuns (s.privRegion c)) := by
  rw [State.coreUse]
  rfl

/-- One step of the choice of far areas. -/
def farStep (region : Nat × Nat) (size : Nat) (r : Option (List Nat × List (Nat × Nat))) (a : Nat) : Option (List Nat × List (Nat × Nat)) :=
  match r with
  | none => none
  | some (out, used) =>
    if a < 2 ^ 39 then some (out ++ [a], used)
    else if region.1 = 0 then none
    else match firstFree region.1 (region.1 + region.2) size 128 used with
      | none => none
      | some x => some (out ++ [x], (x, size) :: used)

/-- The far areas that some in use leave. -/
def farAmong (region : Nat × Nat) (size : Nat) (areas out : List Nat) (used : List (Nat × Nat)) : Option (List Nat) :=
  (areas.foldl (farStep region size) (some (out, used))).map (·.1)

theorem farAmong_congr (region : Nat × Nat) (size : Nat) {used used' : List (Nat × Nat)} (h : ∀ r, r ∈ used' ↔ r ∈ used) (areas out : List Nat) :
    farAmong region size areas out used' = farAmong region size areas out used := by
  induction areas generalizing out used used' with
  | nil => rfl
  | cons a areas ih =>
    have hnone (l : List Nat) : l.foldl (farStep region size) none = none := foldl_fixed none l fun _ _ => rfl
    rw [farAmong, farAmong, List.foldl_cons, List.foldl_cons]
    by_cases hnear : a < 2 ^ 39
    · rw [farStep, if_pos hnear, farStep, if_pos hnear]
      exact ih h _
    · rw [farStep, if_neg hnear, farStep, if_neg hnear]
      by_cases hregion : region.1 = 0
      · rw [if_pos hregion, if_pos hregion]
      · rw [if_neg hregion, if_neg hregion, firstFree_congr h]
        cases firstFree region.1 (region.1 + region.2) size 128 used with
        | none => rfl
        | some x => exact ih (fun r => by rw [List.mem_cons, List.mem_cons, h]) _

theorem farAreas_eq (s : State) (b : Block) :
    s.farAreas b = farAmong (s.privRegion (s.ctxOf b)) b.k.area b.areas [] (s.blocks.flatMap (farRuns (s.privRegion (s.ctxOf b)))) := by
  rw [State.farAreas, far_eq, farAmong]
  refine congrArg (fun x : Option (List Nat × List (Nat × Nat)) => x.map (·.1)) (congrArg (List.foldl · _ b.areas) ?_)
  funext r a
  cases r with
  | none => rfl
  | some r =>
    obtain ⟨out, used⟩ := r
    by_cases hnear : a < 2 ^ 39
    · exact (if_pos hnear).trans (if_pos hnear).symm
    · refine (if_neg hnear).trans (Eq.trans ?_ (if_neg hnear).symm)
      by_cases hregion : (s.privRegion (s.ctxOf b)).1 = 0
      · exact (if_pos hregion).trans (if_pos hregion).symm
      · refine (if_neg hregion).trans (Eq.trans ?_ (if_neg hregion).symm)
        cases firstFree (s.privRegion (s.ctxOf b)).1 ((s.privRegion (s.ctxOf b)).1 + (s.privRegion (s.ctxOf b)).2) b.k.area 128 used <;> rfl

section named

variable {s : State} {v : Nat} {b : Block} (hb : s.block v = some b)

include hb

theorem savePlace_unrestored : (s.setBlock v (unrestored b)).savePlace (unrestored b) = s.savePlace b := by
  have hused := mem_filterMap_put hb (savedRun s (s.ctxOf b)) (savedRun_unrestored s v b (s.ctxOf b))
  rw [savePlace_eq, savePlace_eq, saveAmong_setBlock, ctxOf_unrestored, imageSize_unrestored, savedRun_setBlock,
    show (s.setBlock v (unrestored b)).blocks = Sparse.put s.blocks v (unrestored b) from rfl]
  exact saveAmong_congr s (s.ctxOf b) (s.imageSize b) hused

theorem farAreas_unrestored : (s.setBlock v (unrestored b)).farAreas (unrestored b) = s.farAreas b := by
  have hused := mem_flatMap_put (v' := unrestored b) hb (farRuns (s.privRegion (s.ctxOf b))) rfl
  rw [farAreas_eq, farAreas_eq]
  exact farAmong_congr _ _ hused _ _

end named

end Sys2Proof.Proofs
end

section
/-! The eviction of a block (R389 to R391; log entries 48, 52 and 85). -/

namespace Sys2Proof.Proofs

open Sys2Proof Sys2Proof.Machine Sys2Proof.Claims

/-! ### What an eviction leaves -/

/-- Memory aside, only what reads and writes at homes change, accumulator tags, and how far held stores are seen. -/
structure Evicting (s t : State) : Prop where
  groups : t.groups = s.groups
  blocks : t.blocks = s.blocks
  relocs : ∀ n, (t.node n).relocs = (s.node n).relocs

theorem Evicting.refl (s : State) : Evicting s s := ⟨rfl, rfl, fun _ => rfl⟩

theorem Evicting.trans {s t u : State} (h : Evicting s t) (k : Evicting t u) : Evicting s u :=
  ⟨k.groups.trans h.groups, k.blocks.trans h.blocks, fun n => (k.relocs n).trans (h.relocs n)⟩

theorem WroteHome.evicting {s t : State} (h : WroteHome s t) : Evicting s t :=
  ⟨h.groups, (congrArg State.blocks h.writes.rest :), fun n => (congrArg Node.relocs (h.writes.nodes n) :)⟩

theorem releaseHeld_evicting (s : State) (v : Nat) : Evicting s (s.releaseHeld v) := by
  unfold State.releaseHeld
  split
  · exact .refl s
  · exact ⟨rfl, rfl, fun _ => rfl⟩

theorem releaseHeld_mem (s : State) (v : Nat) : (s.releaseHeld v).mem = s.mem := by
  unfold State.releaseHeld
  split <;> rfl

theorem copy_wroteHome (s : State) (src dst n : Nat) : WroteHome s (s.copy src dst n) :=
  (readRun_readHome s ownIl src n).wroteHome.trans (writeRun_wroteHome ..)

/-- A slice is copied as it stands. -/
theorem copy_slice (s : State) {src : Nat} (hsrc : 2 ^ 39 ≤ src) (dst n : Nat) :
    s.copy src dst n = (s.readRun ownIl src n).1.writeRun ownIl dst (Mem.bytes s.mem src n) := by
  rw [State.copy]
  rcases readRun_slice s ownIl hsrc n with h | h
  · rw [h, Option.getD_none, look_slice s hsrc]
  · rw [h, Option.getD_some]

theorem setTags_evicting (s : State) (n : Nat) (blks : List Nat) (c : BitVec 8) : Evicting s (s.setTags n blks c) := by
  refine ⟨rfl, rfl, fun j => ?_⟩
  rw [State.setTags]
  by_cases h : j = n
  · rw [h, State.node_modNode]
  · rw [State.modNode, State.node_setNode_other _ _ h]

/-! ### The stages -/

section stages

variable (s : State) (v save : Nat) (b : Block) (x : Grid) (r : Reloc) (g : Group) (same : Bool) (needed : List Nat)

/-- The place of a block's allocation in its slice. -/
def hereKey (b : Block) (r : Reloc) : Nat := sliceKey b.core (r.basepg.toNat * 4096)

/-- The bytes of an allocation. -/
def allocBytes (r : Reloc) : Nat := r.pages.toNat * 4096

/-- Held stores are seen and waits are answered. -/
def loosened : State :=
  (s.releaseHeld v).answerAll (fun w => (hereKey b r ≤ w.loc && w.loc < hereKey b r + allocBytes r) || b.gids.contains w.gid)

/-- The allocation and the block record stand in the image. -/
def recorded1 : State :=
  ((loosened s v b r).copy (hereKey b r) save (allocBytes r)).writeRun ownIl (save + allocBytes r)
    (blockRecord b x (if same then needed.foldl (fun n p => n + 2 ^ (p - b.accBase)) 0 else 0))

/-- What the image has of a group. -/
def groupBytes (b : Block) (g : Group) : List Byte := contextBytes g b.k.sregs ++ vectorBlock g b.k.vregs

/-- The group's record stands in the image. -/
def recorded2 : State := (recorded1 s v save b x r same needed).writeRun ownIl (recordAt save r.pages.toNat g.haltHere.index) (groupBytes b g.haltHere)

/-- The place of the accumulator blocks in an image. -/
def accsKey (save : Nat) (b : Block) (r : Reloc) : Nat := save + allocBytes r + 256 + b.k.ngrp * 34816

/-- The accumulator blocks that the candidate needs stand in the image. -/
def recorded3 : State :=
  if same then needed.foldl (fun s p => s.writeRun ownIl (accsKey save b r + 4096 * (p - b.accBase)) (s.accBytes b.core p))
    (recorded2 s v save b x r g same needed)
  else recorded2 s v save b x r g same needed

/-- The relocation entry points to the image. -/
def imaged (save v : Nat) (b : Block) (r : Reloc) (holding : List Nat) (n : Node) : Node :=
  { n with
    relocs := Sparse.put n.relocs b.reloc { r with st := 2, save := BitVec.ofNat 64 save, basepg := 0 }
    holders := holding.foldl (fun h p => Sparse.put h p v) n.holders }

/-- A block that is in its image. -/
def evictedBlock (save : Nat) (areas : List Nat) (b : Block) : Block :=
  { b with saved := some save, areas := areas, shadow := none, pool := [], contain := false, evicting := false, wanted := false }

/-- A group whose block is in its image. -/
def evictedGroup (g : Group) : Group :=
  { g.haltHere with sched := { g.sched with
    active := false
    hold := (match g.sched.hold with | .latch _ _ => .none | h => h) } }

end stages

/-- The private areas that move are copied. -/
def areasCopied (b : Block) (areas : List Nat) (s : State) : State :=
  (List.range b.areas.length).foldl (fun s i =>
    let from_ := b.areas.getD i 0
    let to_ := areas.getD i 0
    if from_ = to_ then s else s.copy from_ to_ b.k.area) s

/-- Areas that stay where they were are not copied. -/
theorem areasCopied_same (b : Block) (s : State) : areasCopied b b.areas s = s := foldl_fixed s _ fun _ _ => if_pos rfl

/-- The block is in its image. -/
def moved (v save : Nat) (b : Block) (r : Reloc) (same : Bool) (needed : List Nat) (s : State) : State :=
  let run := (List.range b.k.accn).map (· + b.accBase)
  let holding := run.filter (fun p => !(same && needed.contains p))
  let s := if same then s.setTags b.core needed 0 else s
  (s.modNode b.core (imaged save v b r holding)).modBlock v (evictedBlock save b.areas)

/-- Whether the candidate is of the block's context. -/
def sameCtx (cand : Option Grid) (x : Grid) : Bool := match cand with | none => false | some c => c.ctx = x.ctx

theorem evict_eq {s : State} {v save i : Nat} {b : Block} {x : Grid} {r : Reloc} {g : Group} {cand : Option Grid} (hb : s.block v = some b)
    (hx : s.grid b.grid = some x) (hsave : s.savePlace b = some save) (hareas : s.farAreas b = some b.areas)
    (hr : Sparse.find (s.node b.core).relocs b.reloc = some r) (hlive : b.live = [i]) (hg : s.group i = some g) (hsaved : b.saved = none)
    (huncorr : b.uncorr = false) (hcoll : x.flags.getLsbD 3 = false) (hhold : ∀ n, g.sched.hold ≠ .checks n)
    (hbusy : (sameCtx cand x && (s.accNeeded v b cand).any (s.accBusy b.core)) = false) :
    s.evict v cand = some ((moved v save b r (sameCtx cand x) (s.accNeeded v b cand)
      (recorded3 s v save b x r g (sameCtx cand x) (s.accNeeded v b cand))).modGroup i evictedGroup) := by
  have hgroups : b.live.filterMap (fun i => (s.group i).map (fun g => (i, g.haltHere))) = [(i, g.haltHere)] := by
    rw [hlive, List.filterMap_cons, hg]
    rfl
  have hheld : g.haltHere.sched = g.sched := by
    unfold Group.haltHere
    split <;> rfl
  have hfree : (match g.sched.hold with | .checks _ => true | _ => false) = false := by
    split
    · next n h => exact absurd h (hhold n)
    · rfl
  have hnot : (b.live.isEmpty || b.saved.isSome || b.uncorr || x.flags.getLsbD 3 || ([(i, g.haltHere)].any (fun p => match p.2.sched.hold with
      | .checks _ => true | _ => false) || (sameCtx cand x && (s.accNeeded v b cand).any (s.accBusy b.core)))) = false := by
    rw [hbusy, hlive, hsaved, huncorr, hcoll, List.any_cons, hheld, hfree]
    rfl
  rw [State.evict, hb]
  dsimp only
  rw [hx, hsave, hareas, hr]
  dsimp only
  rw [hgroups]
  refine (if_neg (Bool.eq_false_iff.mp hnot)).trans ?_
  rw [hlive, ← areasCopied_same b (recorded3 s v save b x r g (sameCtx cand x) (s.accNeeded v b cand))]
  rfl

theorem haltHere_kept (g : Group) : g.haltHere.ctl = g.ctl ∧ g.haltHere.regs = g.regs ∧ g.haltHere.index = g.index := by
  unfold Group.haltHere
  split <;> exact ⟨rfl, rfl, rfl⟩

/-! ### The state -/

section state

variable (s : State) (v save : Nat) (b : Block) (x : Grid) (r : Reloc) (g : Group) (same : Bool) (needed : List Nat)

theorem recorded3_evicting : Evicting s (recorded3 s v save b x r g same needed) := by
  have h1 : Evicting s (loosened s v b r) := (releaseHeld_evicting s v).trans (answerAll_wroteHome ..).evicting
  have h2 : WroteHome (loosened s v b r) (recorded2 s v save b x r g same needed) :=
    ((copy_wroteHome ..).trans (writeRun_wroteHome ..)).trans (writeRun_wroteHome ..)
  have h3 : WroteHome (recorded2 s v save b x r g same needed) (recorded3 s v save b x r g same needed) := by
    unfold recorded3
    split
    · exact foldl_rel WroteHome.refl WroteHome.trans needed (fun t p _ => writeRun_wroteHome ..) _
    · exact .refl _
  exact h1.trans (h2.trans h3).evicting

theorem moved_spec {t : State} (hb : t.block v = some b) : (moved v save b r same needed t).mem = t.mem ∧
    (moved v save b r same needed t).groups = t.groups ∧ (moved v save b r same needed t).block v = some (evictedBlock save b.areas b) ∧
    Sparse.find ((moved v save b r same needed t).node b.core).relocs b.reloc = some { r with st := 2, save := BitVec.ofNat 64 save, basepg := 0 } := by
  have htag : (if same then t.setTags b.core needed 0 else t).mem = t.mem ∧ (if same then t.setTags b.core needed 0 else t).groups = t.groups ∧
      (if same then t.setTags b.core needed 0 else t).block v = some b := by
    split <;> exact ⟨rfl, rfl, hb⟩
  obtain ⟨hmem, hgroups, hblock⟩ := htag
  rw [moved]
  generalize (if same then t.setTags b.core needed 0 else t) = u at hmem hgroups hblock ⊢
  generalize (List.filter (fun p => !(same && needed.contains p)) ((List.range b.k.accn).map (· + b.accBase))) = holding
  have hnode : (u.modNode b.core (imaged save v b r holding)).block v = some b := hblock
  have hset : (u.modNode b.core (imaged save v b r holding)).modBlock v (evictedBlock save b.areas) =
      (u.modNode b.core (imaged save v b r holding)).setBlock v (evictedBlock save b.areas b) := by
    rw [State.modBlock, hnode]
  rw [hset]
  refine ⟨hmem, hgroups, State.block_setBlock .., ?_⟩
  exact (congrArg (fun n : Node => Sparse.find n.relocs b.reloc) (State.node_modNode u b.core (imaged save v b r holding))).trans
    (Sparse.find_put_same (u.node b.core).relocs b.reloc _)

end state

/-! ### The group's context -/

theorem padTo_length (n : Nat) (l : List Byte) : n ≤ (padTo n l).length := by
  rw [padTo, List.length_append, List.length_replicate]
  omega

/-- The words of a group's scalar registers in its context. -/
def scalarWords (g : Group) (sregs : Nat) : List Word := (List.range 128).map (fun r => if r < 8 * sregs then g.rdS r else 0)

/-- The full bits of a group's scalar registers. -/
def fullBits (g : Group) (sregs : Nat) : Nat := (List.range (8 * sregs)).foldl (fun m r => if g.regs.sempty.getLsbD r then m else m + 2 ^ r) 0

theorem contextBytes_eq (g : Group) (sregs : Nat) : ∃ rest, contextBytes g sregs = wordBytes (scalarWords g sregs) ++ (leBytes (fullBits g sregs) 16 ++
    (leBytes g.ctl.pc.toNat 8 ++ (leBytes g.ctl.exm.toNat 4 ++ (leBytes g.ctl.livem.toNat 4 ++ rest)))) := by
  have hwords : (List.range 128).flatMap (fun r => leBytes (if r < 8 * sregs then (g.rdS r).toNat else 0) 4) = wordBytes (scalarWords g sregs) := by
    rw [wordBytes, scalarWords, List.flatMap_map]
    refine List.flatMap_congr fun r _ => ?_
    split <;> rfl
  rw [contextBytes, padTo]
  rw [hwords]
  simp only [List.append_assoc]
  exact ⟨_, rfl⟩

theorem getD_append_at {a l : List Byte} {k : Nat} (h : a.length = k) (i : Nat) : (a ++ l).getD (k + i) 0 = l.getD i 0 := by
  rw [← h, List.getD_append_right _ _ _ _ (Nat.le_add_right ..), Nat.add_sub_cancel_left]

theorem getD_append_left {a l : List Byte} {k i : Nat} (h : a.length = k) (hi : i < k) : (a ++ l).getD i 0 = a.getD i 0 :=
  List.getD_append _ _ _ _ (by omega)

/-- The fields of a group's record that a restoration reads back. -/
structure RecordOf (bs : List Byte) (g : Group) (sregs : Nat) : Prop where
  length : 1024 ≤ bs.length
  scalars : ∀ n i, n < 8 * sregs → n < 128 → i < 4 → bs.getD (4 * n + i) 0 = (leBytes (g.rdS n).toNat 4).getD i 0
  pc : ∀ i, i < 8 → bs.getD (528 + i) 0 = (leBytes g.ctl.pc.toNat 8).getD i 0
  exm : ∀ i, i < 4 → bs.getD (536 + i) 0 = (leBytes g.ctl.exm.toNat 4).getD i 0
  livem : ∀ i, i < 4 → bs.getD (540 + i) 0 = (leBytes g.ctl.livem.toNat 4).getD i 0

theorem recordOf_groupBytes (b : Block) (g : Group) : RecordOf (groupBytes b g) g b.k.sregs := by
  obtain ⟨rest, hrest⟩ := contextBytes_eq g b.k.sregs
  have hwords : (wordBytes (scalarWords g b.k.sregs)).length = 512 := by rw [wordBytes_length, scalarWords, List.length_map, List.length_range]
  have hlen : 1024 ≤ (contextBytes g b.k.sregs).length := padTo_length ..
  have h16 : (leBytes (fullBits g b.k.sregs) 16).length = 16 := leBytes_length ..
  have hpc : (leBytes g.ctl.pc.toNat 8).length = 8 := leBytes_length ..
  have hexm : (leBytes g.ctl.exm.toNat 4).length = 4 := leBytes_length ..
  have hlivem : (leBytes g.ctl.livem.toNat 4).length = 4 := leBytes_length ..
  refine ⟨?_, fun n i hn h128 hi => ?_, fun i hi => ?_, fun i hi => ?_, fun i hi => ?_⟩
  · rw [groupBytes, List.length_append]
    omega
  · have hword : (scalarWords g b.k.sregs).getD n 0 = g.rdS n := by
      rw [scalarWords, List.getD_eq_getElem?_getD, List.getElem?_map, List.getElem?_range h128, Option.map_some, Option.getD_some, if_pos hn]
    rw [groupBytes, hrest, List.append_assoc, getD_append_left hwords (by omega), wordBytes_getD _ hi, hword]
  · rw [groupBytes, hrest]
    simp only [List.append_assoc]
    rw [show 528 + i = 512 + (16 + i) by omega, getD_append_at hwords, getD_append_at h16, getD_append_left hpc hi]
  · rw [groupBytes, hrest]
    simp only [List.append_assoc]
    rw [show 536 + i = 512 + (16 + (8 + i)) by omega, getD_append_at hwords, getD_append_at h16, getD_append_at hpc, getD_append_left hexm hi]
  · rw [groupBytes, hrest]
    simp only [List.append_assoc]
    rw [show 540 + i = 512 + (16 + (8 + (4 + i))) by omega, getD_append_at hwords, getD_append_at h16, getD_append_at hpc, getD_append_at hexm,
      getD_append_left hlivem hi]

/-! ### The image -/

section image

variable (s : State) (v : Nat) {save : Nat} (hsave : 4096 ∣ save) (b : Block) (x : Grid) (r : Reloc) (g : Group) (same : Bool) (needed : List Nat)

include hsave

/-- What stands below the accumulator blocks stays where they are written. -/
theorem rd_recorded3 {j : Nat} (hj : j < accsKey save b r) :
    Mem.rd (recorded3 s v save b x r g same needed).mem j = Mem.rd (recorded2 s v save b x r g same needed).mem j := by
  unfold recorded3
  split
  · refine foldl_rel (R := fun s t : State => Mem.rd t.mem j = Mem.rd s.mem j) (fun _ => rfl) (fun h k => k.trans h) needed (fun t p _ => ?_) _
    refine writeRun_beside t ownIl ⟨.inl (by omega), ?_⟩
    unfold accsKey allocBytes at *
    omega
  · rfl

/-- The pages of the allocation stand in the image. -/
theorem rd_alloc {n : Nat} (hn : n < allocBytes r) :
    Mem.rd (recorded3 s v save b x r g same needed).mem (save + n) = Mem.rd s.mem (hereKey b r + n) := by
  have hhere : 2 ^ 39 ≤ hereKey b r := by
    unfold hereKey sliceKey
    omega
  have hlen : (Mem.bytes (loosened s v b r).mem (hereKey b r) (allocBytes r)).length = allocBytes r := bytes_length ..
  have hmem : (loosened s v b r).mem = s.mem := (answerAll_mem ..).trans (releaseHeld_mem s v)
  rw [rd_recorded3 s v hsave b x r g same needed (by unfold accsKey; omega), recorded2, writeRun_beside _ ownIl, recorded1, writeRun_beside _ ownIl,
    copy_slice _ hhere, writeRun_whole _ ownIl (by rwa [hlen]), bytes_getD _ _ _ _ hn, hmem]
  · refine (Or.inr ?_ : Whole ..)
    rw [hlen]
    unfold allocBytes at *
    omega
  · refine ⟨.inl (by omega), .inr (.inl ?_)⟩
    unfold allocBytes at *
    omega
  · unfold allocBytes at hn
    refine ⟨.inl ?_, .inr (.inl ?_)⟩
    · unfold recordAt
      omega
    · unfold recordAt
      omega

/-- The group's record stands in the image. -/
theorem rd_record (hindex : g.index < b.k.ngrp) {n : Nat} (hn : n < 544) :
    Mem.rd (recorded3 s v save b x r g same needed).mem (recordAt save r.pages.toNat g.index + n) = (groupBytes b g.haltHere).getD n 0 := by
  obtain ⟨-, -, hi⟩ := haltHere_kept g
  have hlen := (recordOf_groupBytes b g.haltHere).length
  rw [rd_recorded3 s v hsave b x r g same needed, recorded2, hi, writeRun_whole _ ownIl (by omega)]
  · refine (Or.inr ?_ : Whole ..)
    unfold recordAt
    omega
  · unfold accsKey allocBytes recordAt
    have : (g.index + 1) * 34816 ≤ b.k.ngrp * 34816 := Nat.mul_le_mul_right _ hindex
    omega

/-- The registers and masks of a group stand in its record. -/
theorem num_record (hindex : g.index < b.k.ngrp) :
    (∀ n, n < 8 * b.k.sregs → n < 128 → Mem.num (recorded3 s v save b x r g same needed).mem (recordAt save r.pages.toNat g.index + 4 * n) 4 =
      (g.rdS n).toNat) ∧
    Mem.num (recorded3 s v save b x r g same needed).mem (recordAt save r.pages.toNat g.index + 528) 8 = g.ctl.pc.toNat ∧
    Mem.num (recorded3 s v save b x r g same needed).mem (recordAt save r.pages.toNat g.index + 536) 4 = g.ctl.exm.toNat ∧
    Mem.num (recorded3 s v save b x r g same needed).mem (recordAt save r.pages.toNat g.index + 540) 4 = g.ctl.livem.toNat := by
  obtain ⟨hctl, hregs, -⟩ := haltHere_kept g
  obtain ⟨-, hscalars, hpc, hexm, hlivem⟩ := recordOf_groupBytes b g.haltHere
  rw [hctl] at hpc hexm hlivem
  have hrd {n : Nat} (hn : n < 544) := rd_record s v hsave b x r g same needed hindex hn
  refine ⟨fun n hn h128 => ?_, ?_, ?_, ?_⟩
  · have hs : g.haltHere.rdS n = g.rdS n := by rw [Group.rdS, hregs, Group.rdS]
    rw [num_eq_of_rd (x := (g.rdS n).toNat) fun i hi => ?_, Nat.mod_eq_of_lt (g.rdS n).isLt]
    rw [Nat.add_assoc, hrd (by omega), hscalars n i hn h128 hi, hs]
  · rw [num_eq_of_rd (x := g.ctl.pc.toNat) fun i hi => ?_, Nat.mod_eq_of_lt g.ctl.pc.isLt]
    rw [Nat.add_assoc, hrd (by omega), hpc i hi]
  · rw [num_eq_of_rd (x := g.ctl.exm.toNat) fun i hi => ?_, Nat.mod_eq_of_lt g.ctl.exm.isLt]
    rw [Nat.add_assoc, hrd (by omega), hexm i hi]
  · rw [num_eq_of_rd (x := g.ctl.livem.toNat) fun i hi => ?_, Nat.mod_eq_of_lt g.ctl.livem.isLt]
    rw [Nat.add_assoc, hrd (by omega), hlivem i hi]

end image

/-- What the statement says of an eviction. -/
def Evicts (s t : State) (v save i : Nat) (b : Block) (r : Reloc) (g : Group) : Prop :=
  ∃ b' g' r', t.block v = some b' ∧ b'.saved = some save ∧ t.group i = some g' ∧ g'.ctl = g.ctl ∧
    g'.regs = g.regs ∧ g'.sched.active = false ∧ Sparse.find (t.node b.core).relocs b.reloc = some r' ∧ r'.st = 2 ∧ r'.save = BitVec.ofNat 64 save ∧
    (∀ n, n < r.pages.toNat * 4096 → Mem.rd t.mem (save + n) = Mem.rd s.mem (sliceKey b.core (r.basepg.toNat * 4096) + n)) ∧
    (∀ n, n < 8 * b.k.sregs → n < 128 → Mem.num t.mem (recordAt save r.pages.toNat g.index + 4 * n) 4 = (g.rdS n).toNat) ∧
    Mem.num t.mem (recordAt save r.pages.toNat g.index + 528) 8 = g.ctl.pc.toNat ∧
    Mem.num t.mem (recordAt save r.pages.toNat g.index + 536) 4 = g.ctl.exm.toNat ∧
    Mem.num t.mem (recordAt save r.pages.toNat g.index + 540) 4 = g.ctl.livem.toNat

theorem evicts_moved {s : State} {v save i : Nat} {b : Block} {r : Reloc} {g : Group} (hb : s.block v = some b) (hsave : 4096 ∣ save)
    (hg : s.group i = some g) (hindex : g.index < b.k.ngrp) (x : Grid) (same : Bool) (needed : List Nat) :
    Evicts s ((moved v save b r same needed (recorded3 s v save b x r g same needed)).modGroup i evictedGroup) v save i b r g := by
  have hkept := recorded3_evicting s v save b x r g same needed
  obtain ⟨hmem, hgroups, hblock, hreloc⟩ := moved_spec v save b r same needed ((congrArg (Sparse.find · v) hkept.blocks).trans hb)
  have hnow := (congrArg (Sparse.find · i) (hgroups.trans hkept.groups)).trans hg
  obtain ⟨hscalars, hpc, hexm, hlivem⟩ := num_record s v hsave b x r g same needed hindex
  obtain ⟨hctl, hregs, -⟩ := haltHere_kept g
  rw [State.modGroup_eq hnow]
  refine ⟨_, _, _, hblock, rfl, State.group_setGroup .., hctl, hregs, rfl, hreloc, rfl, rfl, fun n hn => ?_, fun n hn h128 => ?_, ?_, ?_, ?_⟩
  · exact (congrArg (Mem.rd · (save + n)) hmem).trans (rd_alloc s v hsave b x r g same needed hn)
  · exact (congrArg (Mem.num · _ 4) hmem).trans (hscalars n hn h128)
  · exact (congrArg (Mem.num · _ 8) hmem).trans hpc
  · exact (congrArg (Mem.num · _ 4) hmem).trans hexm
  · exact (congrArg (Mem.num · _ 4) hmem).trans hlivem

/-! ### The step -/

theorem savePlace_dvd {s : State} {b : Block} {save : Nat} (h : s.savePlace b = some save) : 4096 ∣ save := by
  rw [savePlace_eq] at h
  exact firstFree_dvd h

/-- The candidate of a halt by the distributor. -/
def candidateOf (s : State) (b : Block) : Option Grid := match (s.node b.core).blocked with | none => none | some h => s.grid h.1

theorem eviction_of_evict {s t : State} {v : Nat} {b : Block} (hb : s.block v = some b) (hsaved : b.saved = none)
    (hnamed : (!b.evicting || b.noRestore) = true → (s.setBlock v (unrestored b)).evict v none = some t)
    (hhalted : (!b.evicting || b.noRestore) = false → s.evict v (candidateOf s b) = some t) : exec (.eviction v) s = .next t := by
  have hmod : s.modBlock v (fun b => { b with noRestore := true }) = s.setBlock v (unrestored b) := by
    rw [State.modBlock, hb]
    rfl
  change execEviction v s = _
  rw [execEviction, hb]
  dsimp only
  rw [hmod, hsaved]
  cases hname : (!b.evicting || b.noRestore) with
  | true =>
    rw [if_pos rfl, if_pos (c := (true && (none : Option Nat).isNone) = true) rfl, hnamed hname]
  | false =>
    rw [if_neg Bool.false_ne_true, if_neg (by exact Bool.false_ne_true)]
    have hevict := hhalted hname
    unfold candidateOf at hevict
    cases hblocked : (s.node b.core).blocked with
    | none =>
      rw [hblocked] at hevict
      dsimp only at hevict ⊢
      rw [hevict]
    | some h =>
      rw [hblocked] at hevict
      dsimp only at hevict ⊢
      rw [hevict]

theorem eviction_spec {s : State} {v save i : Nat} {b : Block} {x : Grid} {r : Reloc} {g : Group} (hb : s.block v = some b)
    (hx : s.grid b.grid = some x) (hsave : s.savePlace b = some save) (hareas : s.farAreas b = some b.areas)
    (hr : Sparse.find (s.node b.core).relocs b.reloc = some r) (hlive : b.live = [i]) (hg : s.group i = some g) (hindex : g.index < b.k.ngrp)
    (hsaved : b.saved = none) (huncorr : b.uncorr = false) (hcoll : x.flags.getLsbD 3 = false) (hhold : ∀ n, g.sched.hold ≠ .checks n)
    (hbusy : ∀ h c, b.evicting = true → b.noRestore = false → (s.node b.core).blocked = some h → s.grid h.1 = some c → c.ctx = x.ctx →
      (s.accNeeded v b (some c)).any (s.accBusy b.core) = false) :
    ∃ t, exec (.eviction v) s = .next t ∧ Evicts s t v save i b r g := by
  by_cases hname : (!b.evicting || b.noRestore) = true
  · have hevict := evict_eq (s := s.setBlock v (unrestored b)) (b := unrestored b) (cand := none) (State.block_setBlock ..) hx
      ((savePlace_unrestored hb).trans hsave) ((farAreas_unrestored hb).trans hareas) hr hlive hg hsaved huncorr hcoll hhold rfl
    have hspec := evicts_moved (s := s.setBlock v (unrestored b)) (b := unrestored b) (r := r) (State.block_setBlock ..) (savePlace_dvd hsave) hg hindex x
      (sameCtx none x) ((s.setBlock v (unrestored b)).accNeeded v (unrestored b) none)
    exact ⟨_, eviction_of_evict hb hsaved (fun _ => hevict) fun hnot => absurd (hname.symm.trans hnot) Bool.true_eq_false.mp, hspec⟩
  · have hfree : (sameCtx (candidateOf s b) x && (s.accNeeded v b (candidateOf s b)).any (s.accBusy b.core)) = false := by
      have hmode : b.evicting = true ∧ b.noRestore = false := by simpa using hname
      cases hcand : candidateOf s b with
      | none => rfl
      | some c =>
        by_cases hctx : c.ctx = x.ctx
        · unfold candidateOf at hcand
          split at hcand
          · cases hcand
          · next h hblocked => rw [hbusy h c hmode.1 hmode.2 hblocked hcand hctx, Bool.and_false]
        · rw [sameCtx, decide_eq_false hctx, Bool.false_and]
    have hevict := evict_eq (cand := candidateOf s b) hb hx hsave hareas hr hlive hg hsaved huncorr hcoll hhold hfree
    exact ⟨_, eviction_of_evict hb hsaved (fun h => absurd h hname) fun _ => hevict,
      evicts_moved hb (savePlace_dvd hsave) hg hindex x _ _⟩

/-- Settles the part of O56 on evictions. -/
theorem evictions : Evictions := by
  refine ⟨fun s core since k l x hhead hblocked hlate hgrant hnone hfit hvictim => partialEviction_spec hhead hblocked hlate hgrant hnone hfit hvictim,
    fun s v save i b x r g hb hx hsave hareas hr hlive hg _ hindex hsaved huncorr hcoll hhold hbusy => ?_⟩
  obtain ⟨t, hexec, b', g', r', hspec⟩ := eviction_spec hb hx hsave hareas hr hlive hg hindex hsaved huncorr hcoll hhold hbusy
  exact ⟨t, b', g', r', hexec, hspec⟩

/-- Settles O56: what an eviction writes lies sector by sector in the image, what a restoration takes comes from the records there, and the line
images that a rollback writes are disjoint. -/
theorem residence : Obligations.Residence := ⟨evictions, restorations, rollbacks⟩

end Sys2Proof.Proofs
end
